-- ==== Sys2Proof/Word.lean ====
section
/-! DEFINITION. Word types and the two shapes of sparse data that State is made of. -/

namespace Sys2Proof

/-- A 64-bit register value or virtual address (spec/02 R35, spec/07 R156). -/
abbrev Word := BitVec 64

/-- The smallest addressable unit of memory (spec/00 R1). -/
abbrev Byte := BitVec 8

/-- A sparse table: keys strictly rising, the value of an absent key fixed by whoever reads it. -/
abbrev Tab (α : Type) := List (Nat × α)

/-- A sparse byte memory: addresses strictly rising, no entry equal to zero. -/
abbrev Mem := List (Nat × BitVec 8)

end Sys2Proof
end

