-- ==== Sys2Proof/Config.lean ====
section
/-! DEFINITION. Values that the spec leaves open: free values, constants without a body, so that nothing can be proved of
them beyond what holds whatever they are. Each is applied to the model's counter `tick` or to the operands it depends on
(DESIGN CHOICE, log 2). -/

namespace Sys2Proof.Config

/-- An unspecified 32-bit element of a tile, or status bits, after a mm of a mismatched family (spec/06 R142). -/
opaque freeWord32 : Nat → BitVec 32

/-- Which of the allowed values an early read of a tile element returns (spec/06 R148): an index into them. -/
opaque freePick : Nat → Nat

/-- A byte that the spec calls unspecified between two values (spec/12 R292), or that it lays out nowhere (spec/22 R422). -/
opaque freeByte : Nat → BitVec 8

/-- The cycles between two issues of a sequencer: the spec fixes no exact count (spec/07 R163, spec/02 R29). -/
opaque freeCycles : Nat → Nat

/-- How many errors the codes correct between two steps (spec/18 R378): soft errors come from outside. -/
opaque softErrors : Nat → Nat

/-- The 48 ECC bits of a line (spec/18 R378 gives the code's strength, not its words). -/
opaque eccBits : BitVec 512 → BitVec 16 → BitVec 48

/-- The block cipher SM4 under one of the two keys of a loaded slot, the second of which encrypts the tweak (spec/16 R355, R356 name the
cipher, an outside standard). -/
opaque sm4 : (keyId : Nat) → (second : Bool) → BitVec 128 → BitVec 128

/-- Its inverse. -/
opaque sm4Inv : (keyId : Nat) → (second : Bool) → BitVec 128 → BitVec 128

/-- The size of the F-region of another module's stack, in steps of 256 MiB: that module's FRSET sets it (spec/18 R366). -/
opaque peerFr : (dev die : Nat) → Nat

/-- The two SM4 keys inside a wrapping, or nothing when its SM3 check fails (spec/16 R356). -/
opaque unwrapKeys : (session : Nat) → (wrapped : Nat) → Option Nat

/-- SM3 digests, SM2 signatures and key-exchange values written by Masthead (spec/22 R424, R425). -/
opaque signature : List (BitVec 8) → Nat → BitVec 8

/-- SM3 of the ROM and of the fuse configuration (spec/22 R425), byte by byte. -/
opaque romDigest : Nat → BitVec 8

/-- The device certificate chain (spec/22 R425), byte by byte, and its length. -/
opaque certificate : Nat → BitVec 8
opaque certificateLen : Nat

/-- Masthead's ephemeral public key and confirmation value of a key exchange (spec/22 R425), byte by byte. -/
opaque kexReply : Nat → Nat → BitVec 8

/-- The session key that a key exchange sets (spec/22 R425). -/
opaque kexSession : Nat → Nat

/-- The device serial (spec/22 R424). -/
opaque serial : BitVec 128

/-- The bootid drawn at a cold reset (spec/22 R424). -/
opaque bootid : Nat → BitVec 128

/-- Slack and core voltage of a die, as the path-delay monitors read them (spec/22 R426). -/
opaque slack : Nat → Nat → BitVec 64
opaque voltage : Nat → Nat → BitVec 64

/-- The port that a request takes, of the trained ports of its mask: a hash of PA[47:11] (spec/20 R402). -/
opaque portHash : Nat → Nat

/-- How the host interleaves the range of a decoder: the logarithm of the number of ways, and this module's place among them. The host
sets them, no command does (spec/20 R397, R412). -/
opaque hdmWays : Nat → Nat
opaque hdmPlace : Nat → Nat

/-- The coherence domain that a module belongs to once LNKDOM has placed it (spec/20 R402 gives the command no name for it). -/
opaque domainId : BitVec 64

end Sys2Proof.Config
end

