-- ==== Sys2Proof/Syntax.lean ====
section
/-! DEFINITION. The instruction syntax: one constructor for each row of spec/opcode_table.json.

Slot instructions carry their guard first (spec/02 R21 R22), then their operands; immediates and offsets stand at the
width they have with a header (spec/02 R37 R38), already sign-extended where they are signed. Events and Masthead commands
carry the names of the objects they act on; a command carries first the CXL.io function whose mailbox it came through
(spec/22 R415, R418). -/

namespace Sys2Proof

/-- Scopes (spec/02 R40, spec/08 R184). -/
inductive Scope where
  | cr | cl | di | mo | sy
  deriving DecidableEq, Repr

/-- Compare conditions (spec/02 R40). -/
inductive Cond where
  | eq | ne | lt | le | ltu | leu
  deriving DecidableEq, Repr

/-- FP32 compare conditions (spec/03 R65). -/
inductive FCond where
  | eq | ne | lt | le | un
  deriving DecidableEq, Repr

/-- Path classes (spec/02 R40, spec/08 R196). -/
inductive PClass where
  | mem | copy | mxs | patch | hal | link
  deriving DecidableEq, Repr

/-- Operations of atomics and reductions (spec/02 R40). -/
inductive AtOp where
  | add | and | or | xor | min | max | swap
  deriving DecidableEq, Repr

/-- Element types of the three-register vector forms (spec/02 R40). -/
inductive VTy where
  | fp32 | int32 | int16 | int8 | bf16 | fp16
  deriving DecidableEq, Repr

/-- Element types of the scalar-operand vector forms (spec/02 R40, type2). -/
inductive VTy2 where
  | fp32 | int32 | int16 | int8
  deriving DecidableEq, Repr

/-- Number formats (spec/04 R87). -/
inductive Fmt where
  | fp32 | bf16 | fp16 | e4m3 | e5m2 | int8 | int32 | bx7 | bx4 | bx2
  deriving DecidableEq, Repr

/-- Rounding modes (spec/04 R92). -/
inductive Rnd where
  | rne | rtz | rup | rdn
  deriving DecidableEq, Repr

/-- Hadamard field of vcvt (spec/02 R40). -/
inductive Had where
  | none | h16 | h32
  deriving DecidableEq, Repr

/-- Operations of vred (spec/05 R118). -/
inductive RedOp where
  | add | min | max | and | or | xor
  deriving DecidableEq, Repr

/-- Kinds of pa.open (spec/09 R224). -/
inductive PaKind where
  | ovr | add | addn | view
  deriving DecidableEq, Repr

/-- A vector operand: a register, or a stream marked by the header (spec/02 R38). -/
inductive VOp where
  | v (n : BitVec 5)
  | q (n : BitVec 3)
  deriving DecidableEq, Repr

/-- A matrix operand: a base register, or a marked stream (spec/02 R39). -/
inductive MOp where
  | s (n : BitVec 6)
  | q (n : BitVec 3)
  deriving DecidableEq, Repr

/-- The three caches that keep occupancy counters (spec/07 R164). -/
inductive CacheKind where
  | l1 | l2 | msc
  deriving DecidableEq, Repr

/-- Peers that a Bunting port trains to (spec/20 R401, R402): a module of the same domain with its device number and
domain, a switch, or a fabric pool. -/
inductive Peer where
  | device (dev : BitVec 3) (domain : Word)
  | switch
  | pool
  deriving DecidableEq, Repr

/-- Widths of the host attachment (spec/20 R397). -/
inductive LinkWidth where
  | x16 | x8 | x4
  deriving DecidableEq, Repr

/-- Rates of the host attachment in GT/s (spec/20 R397). -/
inductive LinkRate where
  | gt64 | gt32 | gt16
  deriving DecidableEq, Repr

/-- One constructor for each row of spec/opcode_table.json: the events that the machine raises by itself, the slot
instructions, the inputs from outside, and Masthead's commands. -/
inductive Instr where
  /-- GROUP_CHECK The sequencer fetches a whole instruction group and checks it against every encoding and group rule before any bundle of it issues (R24). -/
  | groupCheck (q : Nat)
  /-- BUNDLE_ISSUE A slot queue issues its slot of the next bundle, subject to stalls, the slip limit and SYNC realignment (R29). -/
  | bundleIssue (q : Nat) (slot : Nat)
  /-- FMT_SET_EFFECT A pending write of cr.fmt takes effect once four bundles have followed it in program order (R34). -/
  | fmtSetEffect (q : Nat)
  /-- DIV_COMPLETE A div or divu finishes and delivers its quotient to its destination register (R63). -/
  | divComplete (q : Nat)
  /-- LOAD_DATA_RETURN The data of an outstanding load arrives and the scoreboard releases readers of its destination (R163). -/
  | loadDataReturn (q : Nat) (k : Nat)
  /-- STORE_PERFORM A store-queue entry is performed in the L1, scratchpad or accumulator store and leaves the queue (R180). -/
  | storePerform (q : Nat) (slot : Nat)
  /-- PAGE_WALK_COMPLETE A two-stage page walk ends with a translation, which is cached, or with a translation fault (R370). -/
  | pageWalkComplete (die : Nat) (ctx : Nat) (va : Word)
  /-- CACHE_FILL A cache fill chooses its victim by way masks and occupancy limits and updates the occupancy counters (R165). -/
  | cacheFill (kind : CacheKind) (inst : Nat) (ctx : Nat) (line : Nat)
  /-- STREAM_FILL A read stream fetches the vector of one step from memory, or latches a fault at that step (R131). -/
  | streamFill (q : Nat) (n : Nat)
  /-- STREAM_DRAIN A write stream writes one pending vector to memory in step order, or latches a fault (R131). -/
  | streamDrain (q : Nat) (n : Nat)
  /-- MATRIX_COMPLETION A tile-writing matrix instruction completes with its values standing in the tile (R147). -/
  | matrixCompletion (q : Nat)
  /-- SHADOW_ENTRY_APPLY After resumption a shadow result buffer entry is written to its tile when D-time reaches its distance or a slot-D access needs the tile (R342). -/
  | shadowEntryApply (q : Nat)
  /-- BUFFER_STATE_CHANGE A buffer state change takes effect once every access that passed its check and the issuer's earlier writes are performed (R169). -/
  | bufferStateChange (q : Nat)
  /-- BUFFER_ZEROING_DONE The zeroing of a newly declared buffer's reserved range completes, releasing a waiting bf.fill (R172). -/
  | bufferZeroingDone (core : Nat) (d : Nat)
  /-- SPEC_REGION_END A spec.commit or spec.abort takes effect once every earlier bundle has issued and every covered write is performed, flipping or dropping region lines (R82). -/
  | specRegionEnd (q : Nat)
  /-- FENCE_COMPLETE A fence, xfence or fence-like bundle completes its waits and releases later bundles in all queues (R199). -/
  | fenceComplete (q : Nat)
  /-- HALT_STOP A halted sequencer stops once its earlier memory and engine operations are performed and reports halt status (R71). -/
  | haltStop (q : Nat)
  /-- FAULT_RECORD_RETRY A held fault record is written once head advances or ring access succeeds, followed by its notify add (R346). -/
  | faultRecordRetry (q : Nat)
  /-- SCOPED_ATOMIC_EXECUTE A core- or cluster-scope atomic or reduction executes in the cluster L2 on its scoped copy (R193). -/
  | scopedAtomicExecute (q : Nat)
  /-- SCOPED_COPY_WRITEBACK A scoped copy is written to the home with ownership, on eviction or on a wide release, and is retired (R193). -/
  | scopedCopyWriteback (cl : Nat) (line : Nat)
  /-- HALYARD_ATOMIC_EXECUTE The home Halyard recalls the line and executes a die-, module- or system-scope atomic or reduction indivisibly (R260). -/
  | halyardAtomicExecute (k : Nat)
  /-- ATOMIC_RESULT_RETURN The old value of a returning atomic arrives in its reserved load-queue entry (R181). -/
  | atomicResultReturn (q : Nat) (k : Nat)
  /-- PENNANT_ADD The home Halyard performs one saturating add, and optional latch clear, on a pennant in its coherence order (R245). -/
  | pennantAdd (k : Nat)
  /-- WAITER_WAKE A registered waiter is woken when an add meets its target or the latch is set, and its wait completes (R252). -/
  | waiterWake (q : Nat)
  /-- WAITER_POLL A waiter that found the waiter table full re-reads its pennant every 256 cycles (R252). -/
  | waiterPoll (q : Nat)
  /-- MCAS_LOCK_GRANT A home grants an mcas line lock to the issuing Halyard, which then requests the next line in address order (R266). -/
  | mcasLockGrant (q : Nat)
  /-- MCAS_WINDOW_EXPIRE The acquisition window of an mcas attempt runs out, so the attempt is abandoned and its locks released (R267). -/
  | mcasWindowExpire (q : Nat)
  /-- MCAS_BACKOFF_EXPIRE The back-off wait after a failed mcas attempt ends and a new attempt begins (R266). -/
  | mcasBackoffExpire (q : Nat)
  /-- MCAS_RESULT_RETURN The mcas result arrives in the load queue and the mcas performs the acquire of fence.sy (R265). -/
  | mcasResultReturn (q : Nat)
  /-- PATCH_ENGINE_COMPLETE The patch engine completes a pa.* or ts operation at one point of the tensor's order and reports completion (R218). -/
  | patchEngineComplete (q : Nat)
  /-- COPY_START A st.d to a copy aperture channel reads the template and queues a copy, or raises the channel's recorded fault (R295). -/
  | copyStart (q : Nat)
  /-- COPY_CHUNK The copy engine checks and delivers one 2 KiB chunk of a running copy (R293). -/
  | copyChunk (ch : Nat)
  /-- COPY_COMPLETE A copy finishes its last chunk, performs its end buffer actions and its release, and adds to its bound pennant (R293). -/
  | copyComplete (ch : Nat)
  /-- REMOTE_COPY_PENNANT_ADD A receiving Bunting port checks the handle and adds to a pennant of its device once a remote copy's writes are acknowledged (R403). -/
  | remoteCopyPennantAdd (h : BitVec 32) (v : Word) (ctx : Nat)
  /-- QUEUE_TAIL_WRITE A host write of a queue's doorbell tail makes new ring entries available, or is ignored if it overflows the ring (R308). -/
  | queueTailWrite (n : Nat) (tail : BitVec 32)
  /-- LAUNCH_DISPATCH The command stream dispatches a dispatchable launch, loads walkers, sets sequencer state and lets pred-0 nodes fire (R278). -/
  | launchDispatch (n : Nat)
  /-- NODE_FIRE A walker fires a node whose arrivals are in, performing its acquire and acting by kind (R281). -/
  | nodeFire (l : Nat) (n : Nat)
  /-- LAUNCH_END When the exit node and every fired node have completed, the launch ends, flushes at scope S and adds to its done pennant (R279). -/
  | launchEnd (l : Nat)
  /-- SCHED_DECISION At a decision point the command stream chooses a context for a group by deficit round-robin over owners (R315). -/
  | schedDecision (gh : Nat)
  /-- PREEMPT_REQUEST The command stream requests the first rung of pre-emption of a loaded context for higher-class or over-spent work (R316). -/
  | preemptRequest (gh : Nat)
  /-- SAVE_START When every sequencer of the group has reached a task boundary, the save of the context begins (R337). -/
  | saveStart (gh : Nat)
  /-- GRACE_TIMER_EXPIRE The grace timer expires before the save began, so running sequencers halt and the save begins (R337). -/
  | graceTimerExpire (gh : Nat)
  /-- KILL_TIMER_EXPIRE The kill timer expires before the save completed, so the save is abandoned and the context killed (R337). -/
  | killTimerExpire (gh : Nat)
  /-- KILL_COMPLETE A kill finishes and the context is reset to ready, or goes to teardown if a destroy is pending (R343). -/
  | killComplete (ctx : Nat)
  /-- CONTEXT_SAVE_COMPLETE The save of a context on a group completes with its state written to the save area at .sy (R340). -/
  | contextSaveComplete (gh : Nat)
  /-- CONTEXT_LOAD_COMPLETE A load of a context on a group completes and the group moves from loading to running (R340). -/
  | contextLoadComplete (gh : Nat)
  /-- GROUP_SCRUB_COMPLETE The scrub of a group completes and the group moves to idle or absent (R326). -/
  | groupScrubComplete (gh : Nat)
  /-- CONTEXT_SCRUB_COMPLETE Every die's scrub engine completes the teardown scrub of a context, which becomes free (R357). -/
  | contextScrubComplete (ctx : Nat)
  /-- HOME_RDS The home serves an RdS fill request and updates the line's side-band state and extent (R376). -/
  | homeRds (line : Nat) (cl : Nat)
  /-- HOME_RDX The home serves an ownership request, invalidating other holders, and leaves the line in M (R376). -/
  | homeRdx (line : Nat) (cl : Nat)
  /-- HOME_HAL The home recalls every cached copy for a Halyard, scrub or move request and leaves the line in I (R376). -/
  | homeHal (line : Nat)
  /-- HOME_WB The home takes an owner's write-back and drops the owner (R376). -/
  | homeWb (line : Nat) (cl : Nat)
  /-- ENGINE_HOME_READ A non-caching agent's read is served at the home without changing the line's state (R376). -/
  | engineHomeRead (line : Nat)
  /-- ENGINE_HOME_WRITE A non-caching agent's write recalls every cached copy at the home, writes the bytes and leaves the line in I (R376). -/
  | engineHomeWrite (line : Nat) (data : BitVec 512) (mask : BitVec 64)
  /-- SNOOP_INVALIDATE A cluster L2 receives an invalidation or recall of a line and invalidates, supplies it, or answers none (R375). -/
  | snoopInvalidate (cl : Nat) (line : Nat)
  /-- MOVED_RESPONSE A requester answered moved discards its translation, walks again and resends the request (R393). -/
  | movedResponse (q : Nat)
  /-- PENNANT_VALUE_RETURN The home's answer to a pn.read, pn.test, or pn.wait or rb.await whose condition already held arrives at the sequencer, which releases the scoreboard or completes the wait (R251). -/
  | pennantValueReturn (q : Nat)
  /-- SEGMENT_UNITS_COMPLETE Every unit of a seg.promote, seg.pin, seg.unpin or seg.demote completes at its row's home, and the result word is delivered to sX, releasing queue D (R385). -/
  | segmentUnitsComplete (q : Nat)
  /-- CONDITION_WORD_WRITE The hal-class write of a gr.cond is performed into the condition word of its node at that node's walker, after which the sequencer's later gr.arrive and gr.done may raise arrivals (R286). -/
  | conditionWordWrite (k : Nat)
  /-- NOP_A Slot-A no-operation (R45). -/
  | nopA (g : BitVec 4)
  /-- BR Relative branch by a signed bundle offset (R67). -/
  | br (g : BitVec 4) (off : BitVec 19)
  /-- JMP Indirect jump writing the link address to sD (R67). -/
  | jmp (g : BitVec 4) (d a : BitVec 6)
  /-- CALL Relative call saving the return address in s63 (R67). -/
  | call (g : BitVec 4) (off : BitVec 19)
  /-- RET Return to the address in sA (R67). -/
  | ret (g : BitVec 4) (a : BitVec 6)
  /-- TRAP Takes software trap 0x60 with a code after its bundle (R70). -/
  | trap (g : BitVec 4) (code : BitVec 19)
  /-- HALT Stops the sequencer with a halt code after earlier operations are performed (R71). -/
  | halt (g : BitVec 4) (code : BitVec 19)
  /-- LBRK Pops k loop levels and branches (R76). -/
  | lbrk (g : BitVec 4) (k : BitVec 3) (off : BitVec 16)
  /-- LOOP Pushes a hardware loop level, or skips the body when the trip count is zero (R75). -/
  | loop (g : BitVec 4) (a : BitVec 6) (len : BitVec 9)
  /-- LOOP_SP Pushes a software-pipelined loop level with S stage predicates (R75). -/
  | loopSp (g : BitVec 4) (a : BitVec 6) (len : BitVec 9) (aux : BitVec 4)
  /-- SPEC_BEGIN Opens a speculative region over the owner's marked buffers (R81). -/
  | specBegin (g : BitVec 4)
  /-- SPEC_COMMIT Commits the open speculative region (R81). -/
  | specCommit (g : BitVec 4)
  /-- SPEC_ABORT Aborts the open speculative region (R81). -/
  | specAbort (g : BitVec 4)
  /-- FMT_SET Writes the operand, output and Hadamard fields of cr.fmt (R99). -/
  | fmtSet (g : BitVec 4) (hsz : BitVec 2) (ofmt wfmt afmt : BitVec 4)
  /-- SHF Writes one field of a shape shadow register (R124). -/
  | shf (g : BitVec 4) (code : BitVec 3) (field : BitVec 4) (a : BitVec 6)
  /-- ADD_AR Slot-A register add (R56). -/
  | addAr (g : BitVec 4) (d a b : BitVec 6)
  /-- SUB_AR Slot-A register subtract (R56). -/
  | subAr (g : BitVec 4) (d a b : BitVec 6)
  /-- MUL Low 64 bits of a product (R56). -/
  | mul (g : BitVec 4) (d a b : BitVec 6)
  /-- MULH High 64 bits of a signed product (R56). -/
  | mulh (g : BitVec 4) (d a b : BitVec 6)
  /-- MULHU High 64 bits of an unsigned product (R56). -/
  | mulhu (g : BitVec 4) (d a b : BitVec 6)
  /-- DIV Starts a signed division (R57). -/
  | div (g : BitVec 4) (d a b : BitVec 6)
  /-- DIVU Starts an unsigned division (R57). -/
  | divu (g : BitVec 4) (d a b : BitVec 6)
  /-- CLZ Counts leading zero bits (R56). -/
  | clz (g : BitVec 4) (d a : BitVec 6)
  /-- AND_AR Slot-A bitwise AND (R56). -/
  | andAr (g : BitVec 4) (d a b : BitVec 6)
  /-- OR_AR Slot-A bitwise OR (R56). -/
  | orAr (g : BitVec 4) (d a b : BitVec 6)
  /-- XOR_AR Slot-A bitwise XOR (R56). -/
  | xorAr (g : BitVec 4) (d a b : BitVec 6)
  /-- SHL_AR Slot-A shift left by register (R56). -/
  | shlAr (g : BitVec 4) (d a b : BitVec 6)
  /-- SHR_AR Slot-A logical shift right by register (R56). -/
  | shrAr (g : BitVec 4) (d a b : BitVec 6)
  /-- SRA_AR Slot-A arithmetic shift right by register (R56). -/
  | sraAr (g : BitVec 4) (d a b : BitVec 6)
  /-- POPC Counts one bits (R56). -/
  | popc (g : BitVec 4) (d a : BitVec 6)
  /-- MIN Signed minimum (R56). -/
  | min (g : BitVec 4) (d a b : BitVec 6)
  /-- MAX Signed maximum (R56). -/
  | max (g : BitVec 4) (d a b : BitVec 6)
  /-- MINU Unsigned minimum (R56). -/
  | minu (g : BitVec 4) (d a b : BitVec 6)
  /-- MAXU Unsigned maximum (R56). -/
  | maxu (g : BitVec 4) (d a b : BitVec 6)
  /-- ADD_AI Slot-A add of a signed 7-bit immediate (R58). -/
  | addAi (g : BitVec 4) (d a : BitVec 6) (imm : BitVec 7)
  /-- AND_AI Slot-A AND with an immediate (R58). -/
  | andAi (g : BitVec 4) (d a : BitVec 6) (imm : BitVec 7)
  /-- OR_AI Slot-A OR with an immediate (R58). -/
  | orAi (g : BitVec 4) (d a : BitVec 6) (imm : BitVec 7)
  /-- XOR_AI Slot-A XOR with an immediate (R58). -/
  | xorAi (g : BitVec 4) (d a : BitVec 6) (imm : BitVec 7)
  /-- SHL_AI Slot-A shift left by an immediate (R58). -/
  | shlAi (g : BitVec 4) (d a : BitVec 6) (imm : BitVec 7)
  /-- SHR_AI Slot-A logical shift right by an immediate (R58). -/
  | shrAi (g : BitVec 4) (d a : BitVec 6) (imm : BitVec 7)
  /-- SRA_AI Slot-A arithmetic shift right by an immediate (R58). -/
  | sraAi (g : BitVec 4) (d a : BitVec 6) (imm : BitVec 7)
  /-- CMP_EQ_AR Slot-A equality compare writing a predicate pair (R64). -/
  | cmpEqAr (g : BitVec 4) (n a b : BitVec 6)
  /-- CMP_NE_AR Slot-A inequality compare (R64). -/
  | cmpNeAr (g : BitVec 4) (n a b : BitVec 6)
  /-- CMP_LT_AR Slot-A signed less-than compare (R64). -/
  | cmpLtAr (g : BitVec 4) (n a b : BitVec 6)
  /-- CMP_LE_AR Slot-A signed less-or-equal compare (R64). -/
  | cmpLeAr (g : BitVec 4) (n a b : BitVec 6)
  /-- CMP_LTU_AR Slot-A unsigned less-than compare (R64). -/
  | cmpLtuAr (g : BitVec 4) (n a b : BitVec 6)
  /-- CMP_LEU_AR Slot-A unsigned less-or-equal compare (R64). -/
  | cmpLeuAr (g : BitVec 4) (n a b : BitVec 6)
  /-- SYS_RD Reads a control register into sD (R85). -/
  | sysRd (g : BitVec 4) (d : BitVec 6) (num : BitVec 13)
  /-- SYS_WR Writes a control register from sD, trapping in the system range (R85). -/
  | sysWr (g : BitVec 4) (d : BitVec 6) (num : BitVec 13)
  /-- MOVI_AW Slot-A move of a signed 13-bit immediate (R58). -/
  | moviAw (g : BitVec 4) (d : BitVec 6) (imm : BitVec 13)
  /-- NOP_B Slot-B no-operation (R45). -/
  | nopB (g : BitVec 7)
  /-- ADD_B3 Slot-B register add (R59). -/
  | addB3 (g : BitVec 7) (x y z : BitVec 6)
  /-- SUB_B3 Slot-B register subtract (R59). -/
  | subB3 (g : BitVec 7) (x y z : BitVec 6)
  /-- AND_B3 Slot-B bitwise AND (R59). -/
  | andB3 (g : BitVec 7) (x y z : BitVec 6)
  /-- OR_B3 Slot-B bitwise OR (R59). -/
  | orB3 (g : BitVec 7) (x y z : BitVec 6)
  /-- XOR_B3 Slot-B bitwise XOR (R59). -/
  | xorB3 (g : BitVec 7) (x y z : BitVec 6)
  /-- SHL_B3 Slot-B shift left (R59). -/
  | shlB3 (g : BitVec 7) (x y z : BitVec 6)
  /-- SHR_B3 Slot-B logical shift right (R59). -/
  | shrB3 (g : BitVec 7) (x y z : BitVec 6)
  /-- SRA_B3 Slot-B arithmetic shift right (R59). -/
  | sraB3 (g : BitVec 7) (x y z : BitVec 6)
  /-- LEA Adds a scaled index to a base (R59). -/
  | lea (g : BitVec 7) (x y z : BitVec 6) (sh : BitVec 4)
  /-- SEL Selects one of two registers by a predicate (R62). -/
  | sel (g : BitVec 7) (x : BitVec 6) (n : BitVec 7) (y z : BitVec 6)
  /-- EXT Extracts a zero-extended bit field (R61). -/
  | extB (g : BitVec 7) (x y pos wm1 : BitVec 6)
  /-- INS Inserts a bit field (R61). -/
  | insB (g : BitVec 7) (x y pos wm1 : BitVec 6)
  /-- ADD_BI Slot-B add of a signed immediate (R60). -/
  | addBi (g : BitVec 7) (x y : BitVec 6) (imm : BitVec 16)
  /-- MOVI_BW Slot-B move of a signed immediate (R60). -/
  | moviBw (g : BitVec 7) (x : BitVec 6) (imm : BitVec 22)
  /-- MOVHI Shifts sX left by 16 and ORs in a 16-bit immediate (R60). -/
  | movhi (g : BitVec 7) (x : BitVec 6) (imm : BitVec 16)
  /-- CMP_B3 Slot-B register compare writing a predicate pair (R64). -/
  | cmpB3 (g : BitVec 7) (n y z : BitVec 6) (cond : Cond)
  /-- CMP_BC Slot-B compare against an immediate (R64). -/
  | cmpBc (g : BitVec 7) (n y : BitVec 6) (cond : Cond) (imm : BitVec 13)
  /-- FCMP FP32 compare writing a predicate pair (R65). -/
  | fcmp (g : BitVec 7) (n y z : BitVec 6) (cond : FCond)
  /-- PAND Predicate AND, optionally with complement (R66). -/
  | pand (g : BitVec 7) (x y z : BitVec 7) (inv : BitVec 1)
  /-- POR Predicate OR, optionally with complement (R66). -/
  | por (g : BitVec 7) (x y z : BitVec 7) (inv : BitVec 1)
  /-- PXOR Predicate XOR, optionally with complement (R66). -/
  | pxor (g : BitVec 7) (x y z : BitVec 7) (inv : BitVec 1)
  /-- PNOT Predicate complement (R66). -/
  | pnot (g : BitVec 7) (x y : BitVec 7)
  /-- PMOV Predicate copy (R66). -/
  | pmov (g : BitVec 7) (x y : BitVec 7)
  /-- PSET Sets a lane range of a predicate (R66). -/
  | pset (g : BitVec 7) (x lo hi : BitVec 7) (inv : BitVec 1)
  /-- LD_B Loads one byte from plain memory (R176). -/
  | ldB (g : BitVec 7) (x base : BitVec 6) (off : BitVec 11) (acq : Option Scope)
  /-- LD_H Loads two bytes from plain memory (R176). -/
  | ldH (g : BitVec 7) (x base : BitVec 6) (off : BitVec 11) (acq : Option Scope)
  /-- LD_W Loads four bytes from plain memory (R176). -/
  | ldW (g : BitVec 7) (x base : BitVec 6) (off : BitVec 11) (acq : Option Scope)
  /-- LD_D Loads eight bytes from plain memory, with optional acquire (R176). -/
  | ldD (g : BitVec 7) (x base : BitVec 6) (off : BitVec 11) (acq : Option Scope)
  /-- ST_B Stores one byte to plain memory (R176). -/
  | stB (g : BitVec 7) (x base : BitVec 6) (off : BitVec 11) (rel : Option Scope)
  /-- ST_H Stores two bytes to plain memory (R176). -/
  | stH (g : BitVec 7) (x base : BitVec 6) (off : BitVec 11) (rel : Option Scope)
  /-- ST_W Stores four bytes to plain memory (R176). -/
  | stW (g : BitVec 7) (x base : BitVec 6) (off : BitVec 11) (rel : Option Scope)
  /-- ST_D Stores eight bytes to plain memory, with optional release (R176). -/
  | stD (g : BitVec 7) (x base : BitVec 6) (off : BitVec 11) (rel : Option Scope)
  /-- PF Prefetches a line into a chosen cache level (R179). -/
  | pf (g : BitVec 7) (lvl : CacheKind) (base : BitVec 6) (off : BitVec 11)
  /-- LQ_POP Takes the oldest reserved load-queue entry (R181). -/
  | lqPop (g : BitVec 7) (x : BitVec 6)
  /-- LD_SP Loads eight bytes from scratchpad or accumulator space (R178). -/
  | ldSp (g : BitVec 7) (x base : BitVec 6) (off : BitVec 11)
  /-- ST_SP Stores eight bytes to scratchpad or accumulator space (R178). -/
  | stSp (g : BitVec 7) (x base : BitVec 6) (off : BitVec 11)
  /-- TS_LD Reads eight bytes of a port view or cut view of a tensor (R222). -/
  | tsLd (g : BitVec 7) (x base : BitVec 6) (off : BitVec 11) (cut : BitVec 1) (port : BitVec 2)
  /-- TS_ST Writes eight bytes into a port's open patch (R221). -/
  | tsSt (g : BitVec 7) (x base : BitVec 6) (off : BitVec 11) (port : BitVec 2)
  /-- AT Returning atomic operation on a 64-bit word (R260). -/
  | atR (g : BitVec 7) (x base : BitVec 6) (scope : Scope) (op : AtOp)
  /-- AT_CAS Returning compare-and-swap on a 64-bit word (R261). -/
  | atCas (g : BitVec 7) (x base y : BitVec 6) (scope : Scope)
  /-- RED Non-returning reduction on a 64-bit word (R260). -/
  | red (g : BitVec 7) (x base : BitVec 6) (scope : Scope) (op : AtOp)
  /-- MCAS Multi-word compare-and-swap of up to sixteen entries (R265). -/
  | mcas (g : BitVec 7) (y z : BitVec 6)
  /-- FENCE Release then acquire at a scope on path mem (R197). -/
  | fence (g : BitVec 7) (scope : Scope)
  /-- XFENCE Orders later accesses of one path class after earlier accesses of another (R198). -/
  | xfence (g : BitVec 7) (a b : PClass)
  /-- BF_DECL Declares a scratchpad buffer and starts its zeroing (R171). -/
  | bfDecl (g : BitVec 7) (x y z : BitVec 6) (spec : BitVec 1) (own : BitVec 2)
  /-- BF_FILL Moves a buffer to filling (R173). -/
  | bfFill (g : BitVec 7) (x : BitVec 6)
  /-- BF_DONE Moves a buffer to full or empty (R173). -/
  | bfDone (g : BitVec 7) (x : BitVec 6)
  /-- BF_DRAIN Moves a full buffer to draining (R173). -/
  | bfDrain (g : BitVec 7) (x : BitVec 6)
  /-- BF_FREE Frees a buffer descriptor (R173). -/
  | bfFree (g : BitVec 7) (x : BitVec 6)
  /-- BF_STATE Reads a buffer descriptor word (R174). -/
  | bfState (g : BitVec 7) (x y : BitVec 6)
  /-- PN_ADD Adds to a pennant, optionally clearing its latch and with release (R248). -/
  | pnAdd (g : BitVec 7) (clr : BitVec 1) (rel : Option Scope) (y z : BitVec 6)
  /-- PN_WAIT Waits until a pennant reaches a target or its latch is set (R249). -/
  | pnWait (g : BitVec 7) (acq : Option Scope) (y z : BitVec 6) (n : BitVec 7)
  /-- PN_TEST Tests a pennant against a target once (R250). -/
  | pnTest (g : BitVec 7) (pair y z : BitVec 6) (n : BitVec 7)
  /-- PN_READ Reads a pennant's count or state word (R251). -/
  | pnRead (g : BitVec 7) (x y : BitVec 6) (st : BitVec 1)
  /-- RB_AWAIT Waits for the next ring slot to be filled (R256). -/
  | rbAwait (g : BitVec 7) (x y z : BitVec 6) (n : BitVec 7)
  /-- RB_RELEASE Releases a ring slot and advances the cursor (R257). -/
  | rbRelease (g : BitVec 7) (x y z : BitVec 6)
  /-- NOP_C Slot-C no-operation (R45). -/
  | nopC (g : BitVec 7)
  /-- VLD Loads a vector through a shape's element layout (R126). -/
  | vld (g : BitVec 7) (v : BitVec 5) (base : BitVec 6) (c : BitVec 2) (sw : BitVec 1) (lp : BitVec 7) (off : BitVec 7)
  /-- VST Stores a vector through a shape's element layout (R126). -/
  | vst (g : BitVec 7) (v : BitVec 5) (base : BitVec 6) (c : BitVec 2) (sw : BitVec 1) (lp : BitVec 7) (off : BitVec 7)
  /-- VADD_C3 Elementwise vector add (R112). -/
  | vaddC3 (g : BitVec 7) (ty : VTy) (vd va vb : VOp) (lp : BitVec 7)
  /-- VSUB_C3 Elementwise vector subtract (R112). -/
  | vsubC3 (g : BitVec 7) (ty : VTy) (vd va vb : VOp) (lp : BitVec 7)
  /-- VMUL_C3 Elementwise vector multiply (R112). -/
  | vmulC3 (g : BitVec 7) (ty : VTy) (vd va vb : VOp) (lp : BitVec 7)
  /-- VFMA_C3 Elementwise fused multiply-add into vd (R112). -/
  | vfmaC3 (g : BitVec 7) (ty : VTy) (vd va vb : VOp) (lp : BitVec 7)
  /-- VMIN_C3 Elementwise minimum (R112). -/
  | vminC3 (g : BitVec 7) (ty : VTy) (vd va vb : VOp) (lp : BitVec 7)
  /-- VMAX_C3 Elementwise maximum (R112). -/
  | vmaxC3 (g : BitVec 7) (ty : VTy) (vd va vb : VOp) (lp : BitVec 7)
  /-- VAND Vector bitwise AND (R112). -/
  | vand (g : BitVec 7) (vd va vb : VOp) (lp : BitVec 7)
  /-- VOR Vector bitwise OR (R112). -/
  | vor (g : BitVec 7) (vd va vb : VOp) (lp : BitVec 7)
  /-- VXOR Vector bitwise XOR (R112). -/
  | vxor (g : BitVec 7) (vd va vb : VOp) (lp : BitVec 7)
  /-- VSHL_C3 Vector shift left by elements of vb (R112). -/
  | vshlC3 (g : BitVec 7) (ty : VTy) (vd va vb : VOp) (lp : BitVec 7)
  /-- VSHR_C3 Vector logical shift right by elements of vb (R112). -/
  | vshrC3 (g : BitVec 7) (ty : VTy) (vd va vb : VOp) (lp : BitVec 7)
  /-- VSEL Selects lanes of va or vb by a predicate (R113). -/
  | vsel (g : BitVec 7) (vd va vb : VOp) (lp : BitVec 7)
  /-- VCMP Lane-wise compare writing a predicate pair (R116). -/
  | vcmp (g : BitVec 7) (pair : BitVec 6) (va vb : VOp) (cond : BitVec 3) (fp : Bool)
  /-- VADD_CS Vector add of a broadcast scalar (R114). -/
  | vaddCs (g : BitVec 7) (ty : VTy2) (vd va : VOp) (s : BitVec 6) (lp : BitVec 7)
  /-- VSUB_CS Vector subtract of a broadcast scalar (R114). -/
  | vsubCs (g : BitVec 7) (ty : VTy2) (vd va : VOp) (s : BitVec 6) (lp : BitVec 7)
  /-- VMUL_CS Vector multiply by a broadcast scalar (R114). -/
  | vmulCs (g : BitVec 7) (ty : VTy2) (vd va : VOp) (s : BitVec 6) (lp : BitVec 7)
  /-- VFMA_CS Vector fused multiply-add with a broadcast scalar (R114). -/
  | vfmaCs (g : BitVec 7) (ty : VTy2) (vd va : VOp) (s : BitVec 6) (lp : BitVec 7)
  /-- VMIN_CS Vector minimum with a broadcast scalar (R114). -/
  | vminCs (g : BitVec 7) (ty : VTy2) (vd va : VOp) (s : BitVec 6) (lp : BitVec 7)
  /-- VMAX_CS Vector maximum with a broadcast scalar (R114). -/
  | vmaxCs (g : BitVec 7) (ty : VTy2) (vd va : VOp) (s : BitVec 6) (lp : BitVec 7)
  /-- VSHL_CS Vector shift left by a scalar (R114). -/
  | vshlCs (g : BitVec 7) (ty : VTy2) (vd va : VOp) (s : BitVec 6) (lp : BitVec 7)
  /-- VSHR_CS Vector logical shift right by a scalar (R114). -/
  | vshrCs (g : BitVec 7) (ty : VTy2) (vd va : VOp) (s : BitVec 6) (lp : BitVec 7)
  /-- VCVT Converts 32 elements between formats, with optional Hadamard transform (R103). -/
  | vcvt (g : BitVec 7) (vd va : VOp) (src tgt : Fmt) (rnd : Rnd) (had : Had)
  /-- VHAD Walsh-Hadamard transform over 16 or 32 lanes (R105). -/
  | vhad (g : BitVec 7) (fp : Bool) (vd va : VOp) (h16 : Bool) (lp : BitVec 7)
  /-- VRED Tree reduction of lanes into lane 0 (R118). -/
  | vred (g : BitVec 7) (fp : Bool) (op : RedOp) (vd va : VOp) (lp : BitVec 7)
  /-- VPERM Permutes lanes of va by indices in vb (R117). -/
  | vperm (g : BitVec 7) (vd va vb : VOp) (lp : BitVec 7)
  /-- VBCAST Broadcasts a scalar into vector elements (R115). -/
  | vbcast (g : BitVec 7) (ty : VTy2) (vd : VOp) (s : BitVec 6) (lp : BitVec 7)
  /-- VRCP Lane-wise FP32 reciprocal (R119). -/
  | vrcp (g : BitVec 7) (vd va : VOp) (lp : BitVec 7)
  /-- VRSQRT Lane-wise FP32 reciprocal square root (R119). -/
  | vrsqrt (g : BitVec 7) (vd va : VOp) (lp : BitVec 7)
  /-- VEXP2 Lane-wise FP32 power of two by the defined algorithm (R120). -/
  | vexp2 (g : BitVec 7) (vd va : VOp) (lp : BitVec 7)
  /-- VLOG2 Lane-wise FP32 base-2 logarithm by the defined algorithm (R121). -/
  | vlog2 (g : BitVec 7) (vd va : VOp) (lp : BitVec 7)
  /-- STB Binds a stream register to a shape pattern and base (R129). -/
  | stb (g : BitVec 7) (n : BitVec 3) (base : BitVec 6) (c : BitVec 2) (sw : BitVec 1)
  /-- STU Unbinds a stream, draining or discarding its vectors (R129). -/
  | stu (g : BitVec 7) (n : BitVec 3)
  /-- NOP_D Slot-D no-operation (R45). -/
  | nopD (g : BitVec 7)
  /-- MM_LDW Loads array weights from the north or west edge (R141). -/
  | mmLdw (g : BitVec 7) (x : MOp) (west : Bool) (k : BitVec 2) (sw : BitVec 1)
  /-- MM Multiplies activation rows by the held weights into a tile (R145). -/
  | mm (g : BitVec 7) (tile : BitVec 9) (x : MOp) (k : BitVec 2) (sw : BitVec 1) (z k16 : BitVec 1)
  /-- MM_CHAIN Down-converts one tile as operand A and accumulates into another (R150). -/
  | mmChain (g : BitVec 7) (td ta : BitVec 9) (k : BitVec 2) (sw : BitVec 1) (k16 : BitVec 1)
  /-- MM_ZERO Zeroes a whole tile and sets its type (R151). -/
  | mmZero (g : BitVec 7) (tile : BitVec 9) (i : BitVec 1)
  /-- MM_WB Writes a tile region back to memory with scale, clip and conversion (R152). -/
  | mmWb (g : BitVec 7) (tile : BitVec 9) (x : MOp) (k : BitVec 2) (sw : BitVec 1) (clr : BitVec 1)
  /-- MM_RD Writes a tile region to memory as raw 32-bit words (R153). -/
  | mmRd (g : BitVec 7) (tile : BitVec 9) (x : MOp) (k : BitVec 2) (sw : BitVec 1)
  /-- MM_RD_ST Reads a tile's status word once its writes complete, optionally clearing its flags (R153). -/
  | mmRdSt (g : BitVec 7) (tile : BitVec 9) (x : BitVec 6) (clr : BitVec 1)
  /-- MM_FUSE Joins or splits the group's array after all matrix work completes (R135). -/
  | mmFuse (g : BitVec 7) (join : BitVec 1)
  /-- PA_OPEN Opens a patch or a view of a tensor on a port (R224). -/
  | paOpen (g : BitVec 7) (port : BitVec 2) (y z : BitVec 6) (kind : PaKind)
  /-- PA_CLOSE Closes a port's patch into the chain, or unbinds a view (R225). -/
  | paClose (g : BitVec 7) (port : BitVec 2)
  /-- PA_APPLY Folds one closed patch into the base out of turn (R229). -/
  | paApply (g : BitVec 7) (y z : BitVec 6)
  /-- PA_INV Closes the inverse of a closed patch (R227). -/
  | paInv (g : BitVec 7) (y z : BitVec 6)
  /-- PA_COMM Swaps two adjacent commuting patches (R228). -/
  | paComm (g : BitVec 7) (y z : BitVec 6)
  /-- PA_XPLANT Transplants a closed patch onto another tensor of the same geometry (R232). -/
  | paXplant (g : BitVec 7) (x y z : BitVec 6)
  /-- PA_SQUASH Folds the leading patches of the chain into the base (R230). -/
  | paSquash (g : BitVec 7) (y z : BitVec 6)
  /-- PA_SNAP Sets or clears the cut of a tensor (R231). -/
  | paSnap (g : BitVec 7) (y : BitVec 6) (clr : BitVec 1)
  /-- PA_DROP_PORT Discards a port's open patch (R226). -/
  | paDropPort (g : BitVec 7) (port : BitVec 2)
  /-- PA_DROP_CLOSED Removes a named closed patch from the chain (R226). -/
  | paDropClosed (g : BitVec 7) (y z : BitVec 6)
  /-- PA_QUERY Returns a tensor word or a patch word (R234). -/
  | paQuery (g : BitVec 7) (x y z : BitVec 6)
  /-- PA_NORM Reads, latches or clears a tensor's norm register (R233). -/
  | paNorm (g : BitVec 7) (x y : BitVec 6) (f : BitVec 4)
  /-- GR_LAUNCH Places a child launch in a reserved queue slot after a release (R285). -/
  | grLaunch (g : BitVec 7) (scope : Scope) (y : BitVec 6)
  /-- GR_ARRIVE Raises selected successors of the running node after a release (R287). -/
  | grArrive (g : BitVec 7) (m : BitVec 4)
  /-- GR_COND Writes the condition word of a cond or while node (R286). -/
  | grCond (g : BitVec 7) (y z : BitVec 6)
  /-- GR_DONE Completes the running compute node and raises its remaining successors (R287). -/
  | grDone (g : BitVec 7)
  /-- SEG_PROMOTE Promotes slow rows into fast promotion rows (R386). -/
  | segPromote (g : BitVec 7) (x y z : BitVec 6)
  /-- SEG_PIN Promotes and pins rows (R386). -/
  | segPin (g : BitVec 7) (x y z : BitVec 6)
  /-- SEG_UNPIN Unpins the issuer's pinned rows (R386). -/
  | segUnpin (g : BitVec 7) (x y z : BitVec 6)
  /-- SEG_DEMOTE Demotes the issuer's promoted rows (R386). -/
  | segDemote (g : BitVec 7) (x y z : BitVec 6)
  /-- SEG_QUERY Reports the placement of the row holding an address (R387). -/
  | segQuery (g : BitVec 7) (x y : BitVec 6)
  /-- BRINGUP_STAGE Masthead completes one bring-up stage, records it in mstat, and stops with berr on failure (R428). -/
  | bringupStage (err : BitVec 8)
  /-- CLOCK_REPLAN Every 2^32 cycles Masthead reads the path-delay monitors and plans and applies a new arithmetic clock (R426). -/
  | clockReplan (mhz : Nat)
  /-- REGISTER_WRITE A write to a mailbox or doorbell register that has no row of its own is applied or ignored (R415). -/
  | registerWrite (f : Nat) (off : Nat) (v : Word)
  /-- HOST_MEMRD A host MemRd through an HDM decoder is served and widens the line's extent to 2 (R398). -/
  | hostMemRd (dec : Nat) (addr : Word)
  /-- HOST_MEMWR A host MemWr acts as Hal, including BISnpInv, then writes the line and leaves it in I (R398). -/
  | hostMemWr (dec : Nat) (addr : Word) (data : BitVec 512)
  /-- HOST_MEMWRPTL A host partial write acts as Hal and writes the masked bytes, leaving the line in I (R398). -/
  | hostMemWrPtl (dec : Nat) (addr : Word) (data : BitVec 512) (mask : BitVec 64)
  /-- HOST_BISNPINV_RESPONSE The host's response to a back-invalidate lets the waiting home request proceed (R398). -/
  | hostBisnpinvResponse (line : Nat)
  /-- HOST_CACHE_SNOOP A host snoop over CXL.cache is answered with a miss (R397). -/
  | hostCacheSnoop (addr : Word)
  /-- TDISP_LOCK_INTERFACE LOCK_INTERFACE moves a TDI from CONFIG_UNLOCKED to CONFIG_LOCKED and freezes its locked registers (R400). -/
  | tdispLockInterface (vf : Nat)
  /-- TDISP_START_INTERFACE START_INTERFACE moves a locked TDI to RUN (R400). -/
  | tdispStartInterface (vf : Nat)
  /-- TDISP_STOP_INTERFACE STOP_INTERFACE returns a TDI to CONFIG_UNLOCKED, killing its bound context from RUN or ERROR (R400). -/
  | tdispStopInterface (vf : Nat)
  /-- TDI_LOCKED_REGISTER_WRITE A write to a locked register of a TDI is dropped and moves the TDI to ERROR, pausing its queues (R400). -/
  | tdiLockedRegisterWrite (vf : Nat) (reg : Nat) (v : Word)
  /-- PORT_TRAINED A Bunting port completes training to a module, switch or pool peer (R401). -/
  | portTrained (port : Nat) (peer : Peer)
  /-- PORT_PEER_SILENT A port whose peer stops responding goes down and retrains (R404). -/
  | portPeerSilent (port : Nat)
  /-- FLIT_CRC_REPLAY A received flit whose CRC fails is replayed (R401). -/
  | flitCrcReplay (port : Nat)
  /-- DEVICE_UNREACHABLE After 2^24 cycles with no trained port to a device, the device is unreachable and its accesses fault (R404). -/
  | deviceUnreachable (dev : Nat)
  /-- SWRED_CONTRIBUTION A switch receives one whole-line contribution to a reduction group and adds it in arrival order (R407). -/
  | swredContribution (grp : Nat) (off : Nat) (data : BitVec 512)
  /-- WARM_RESET A warm reset zeroises key slots and keeps the scrub journal and usage counters in retention SRAM (R360). -/
  | warmReset
  /-- COLD_RESET A cold reset zeroises key slots and loses the journal, so every stack must be scrubbed whole (R360). -/
  | coldReset
  /-- HOST_LINK_TRAINING The CXL host attachment trains, or retrains, to x16, x8 or x4 at 64, 32 or 16 GT/s, choosing its flit size (R397). -/
  | hostLinkTraining (width : LinkWidth) (rate : LinkRate)
  /-- SPDM_SESSION_MESSAGE An SPDM 1.2 message from the host over CXL.io advances the session that sets the IDE keys of the link and selective streams (R397). -/
  | spdmSessionMessage (msg : Word)
  /-- CCREATE Creates a context with its owner, fault ring, timers and key slot (R334). -/
  | ccreate (f : Nat) (ctx owner fring flog notify grace kill ksl : Word)
  /-- CSET Sets a context's grace and kill timers for later requests (R334). -/
  | cset (f : Nat) (ctx grace kill : Word)
  /-- CAREA Sets a context's save area on a group (R335). -/
  | carea (f : Nat) (ctx gh addr : Word)
  /-- CWIN Grants, replaces or removes a context's pennant window on a die, zeroing entering pennants (R243). -/
  | cwin (f : Nat) (ctx die base count : Word)
  /-- CLIMIT Sets a context's soft occupancy limit in one kind of cache (R164). -/
  | climit (f : Nat) (ctx kind lines : Word)
  /-- CPREEMPT Requests the first rung of pre-emption of a context on a group (R334). -/
  | cpreempt (f : Nat) (ctx gh grace : Word)
  /-- CRESUME Resumes a stopped sequencer at its recorded position or at a new address (R349). -/
  | cresume (f : Nat) (ctx seq pc : Word)
  /-- CKILL Kills a context on every group (R343). -/
  | ckill (f : Nat) (ctx : Word)
  /-- CKEY Loads wrapped SM4 XTS keys into an empty key slot (R356). -/
  | ckey (f : Nat) (slot keys : Word)
  /-- CDESTROY Kills a context, zeroises its key slot, invalidates its lines and starts its scrub (R357). -/
  | cdestroy (f : Nat) (ctx list count : Word)
  /-- CREAD Returns a context's attributes, state and sequencer states (R334). -/
  | cread (f : Nat) (ctx : Word)
  /-- QCREATE Creates a queue with its context, priority, ring and child pool (R309). -/
  | qcreate (f : Nat) (n ctx prio ring lsize cpool : Word)
  /-- QSET Changes a queue's priority class from the next decision (R318). -/
  | qset (f : Nat) (n prio : Word)
  /-- QPAUSE Pauses a queue so that its ring entries are held (R309). -/
  | qpause (f : Nat) (n : Word)
  /-- QRESUME Returns a paused queue to active (R309). -/
  | qresume (f : Nat) (n : Word)
  /-- QRESET Returns a halted queue to active and clears its refusal record (R309). -/
  | qreset (f : Nat) (n : Word)
  /-- QDESTROY Moves a queue to draining, freeing it when its last launch ends (R309). -/
  | qdestroy (f : Nat) (n : Word)
  /-- OWNSET Sets an owner's weight (R318). -/
  | ownset (f : Nat) (owner w : Word)
  /-- QREAD Returns a queue's attributes, head, tail and qstat (R318). -/
  | qread (f : Nat) (n : Word)
  /-- GCREATE Creates a group of legal mask on a core for an owner (R325). -/
  | gcreate (f : Nat) (core mask owner : Word)
  /-- GDESTROY Destroys a group, scrubbing it once it is idle (R325). -/
  | gdestroy (f : Nat) (gh : Word)
  /-- GBIND Adds a context to a group's bound set (R330). -/
  | gbind (f : Nat) (gh ctx : Word)
  /-- GUNBIND Removes a context from a group's bound set (R330). -/
  | gunbind (f : Nat) (gh ctx : Word)
  /-- LEND Lends an idle group to a borrower owner (R325). -/
  | lend (f : Nat) (gh borrower : Word)
  /-- RECALL Recalls a lent group, pre-empting the borrower under clamped timers and scrubbing the group (R327). -/
  | recallGroup (f : Nat) (gh : Word)
  /-- GREAD Returns a group's status word and bound set (R330). -/
  | gread (f : Nat) (gh : Word)
  /-- VMROOT Sets a context's stage-1 and stage-2 table roots (R394). -/
  | vmroot (f : Nat) (ctx root1 root2 : Word)
  /-- S2MAP Writes a stage-2 leaf mapping an intermediate range to physical memory (R394). -/
  | s2map (f : Nat) (ctx ipa pa size r w x nc ksl : Word)
  /-- S2UNMAP Clears stage-2 leaves and removes their translations (R371). -/
  | s2unmap (f : Nat) (ctx ipa size : Word)
  /-- S2CLEAN Clears the dirty bits of a range of leaves and removes their translations (R373). -/
  | s2clean (f : Nat) (ctx ipa size : Word)
  /-- TLBINV Removes cached translations of a context or of all contexts (R371). -/
  | tlbinv (f : Nat) (ctx stage base len : Word)
  /-- FRSET Sets a stack's F-region size, demoting and zeroing rows that join or leave it (R366). -/
  | frset (f : Nat) (stack size : Word)
  /-- SEGQUOTA Sets a context's per-bank quota of promoted rows (R383). -/
  | segquota (f : Nat) (ctx quota : Word)
  /-- MSCSET Sets memory-side cache way masks and allocation policies per virtual device and traffic class (R391). -/
  | mscset (f : Nat) (die vd cls mask rp wp ap : Word)
  /-- HMOVE Moves a page to a new home, answering held and later requests with moved (R392). -/
  | hmove (f : Nat) (leaf pa : Word)
  /-- HDMSET Configures an HDM decoder mapping a host range onto device memory (R398). -/
  | hdmset (f : Nat) (dec hbase size pa vd tdi : Word)
  /-- TDIBIND Binds a virtual function's TDI to a protected context (R400). -/
  | tdibind (f : Nat) (vf ctx : Word)
  /-- LNKDOM Sets a module's device number and route table in its coherence domain (R402). -/
  | lnkdom (f : Nat) (dev table : Word)
  /-- POOLSET Sets a fabric window's kind, target, size and virtual device (R405). -/
  | poolset (f : Nat) (win kind target size vd : Word)
  /-- SWRED Sets up a reduction group of a Bunting switch (R407). -/
  | swred (f : Nat) (switch grp n span dest handle : Word)
  /-- DOMFAULT Declares a device lost, killing contexts that map its memory and releasing its mcas locks (R404). -/
  | domfault (f : Nat) (dev : Word)
  /-- OWNNEW Puts an owner in use and binds a function to it (R419). -/
  | ownnew (f : Nat) (owner vf : Word)
  /-- OWNDEL Takes an owner out of use when it has no contexts (R419). -/
  | owndel (f : Nat) (owner : Word)
  /-- READBACK Copies bytes of a named device item to a host buffer without changing any state (R420). -/
  | readback (f : Nat) (cls inst off len buf : Word)
  /-- USAGE Writes a signed report of an owner's usage counters with a nonce (R424). -/
  | usage (f : Nat) (owner nonce buf : Word)
  /-- IDGET Writes the device's certificate chain (R425). -/
  | idget (f : Nat) (buf len : Word)
  /-- ATTEST Writes a signed attestation of ROM, fuses, F-regions, domain and TDI states (R425). -/
  | attest (f : Nat) (nonce buf : Word)
  /-- KEYX Performs the SM2 key exchange and sets the function's session key (R425). -/
  | keyx (f : Nat) (key buf : Word)
  /-- MARGIN Writes per-die slack, voltage and clock figures (R426). -/
  | margin (f : Nat) (buf : Word)
  /-- ERRLOG Writes the error log and optionally empties it (R419). -/
  | errlog (f : Nat) (buf len clear : Word)
  /-- SCRREAD Returns a die's scrub progress register (R419). -/
  | scrread (f : Nat) (die : Word)
  /-- FWINFO Returns the ROM version, bring-up status and clock figures (R419). -/
  | fwinfo (f : Nat)
  /-- HALOVF Sets and zeroes a die's pennant overflow area (R242). -/
  | halovf (f : Nat) (die pa count : Word)
  deriving DecidableEq, Repr

end Sys2Proof
end

