-- ==== Sys2Proof/WellFormed.lean ====
section
/-! DEFINITION. Well-formed instructions: the value checks that the group check makes with cause 0x03 (spec/02 R47) on
fields whose Lean type admits more than the instruction's entry does. -/

namespace Sys2Proof

/-- Operand families of the matrix engine (spec/04 R98). -/
inductive Family where
  | f16 | f8 | int | bx
  deriving DecidableEq, Repr

/-- A matrix operand code names a format and its family (spec/04 R98); codes 8 to 15 are reserved. -/
def opFmt (c : BitVec 4) : Option Fmt :=
  match c.toNat with
  | 0 => some .bf16 | 1 => some .fp16 | 2 => some .e4m3 | 3 => some .e5m2
  | 4 => some .int8 | 5 => some .bx7 | 6 => some .bx4 | 7 => some .bx2
  | _ => none

def Fmt.family : Fmt → Family
  | .bf16 | .fp16 => .f16
  | .e4m3 | .e5m2 => .f8
  | .bx7 | .bx4 | .bx2 => .bx
  | .fp32 | .int8 | .int32 => .int

/-- afmt and wfmt must fall in one family; the two 16-bit floats may not be mixed (spec/04 R98). -/
def operandPairOk (afmt wfmt : BitVec 4) : Bool :=
  match opFmt afmt, opFmt wfmt with
  | some a, some w => a.family == w.family && (a.family != .f16 || afmt == wfmt)
  | _, _ => false

/-- The low fourteen bits of cr.fmt are acceptable (spec/04 R99, R100). -/
def fmtFieldsOk (hsz : BitVec 2) (ofmt wfmt afmt : BitVec 4) : Bool :=
  operandPairOk afmt wfmt && ofmt.toNat ≤ 9 && hsz != 3#2

/-- Control registers that sys.rd may read (spec/03 R86, spec/16 R352, spec/22 R427). -/
def sysReadable (n : BitVec 13) : Bool :=
  let k := n.toNat
  k == 0 || (0x10 ≤ k && k ≤ 0x18) || (0x20 ≤ k && k ≤ 0x24) || (0x100 ≤ k && k ≤ 0x103) ||
    (0x180 ≤ k && k ≤ 0x182)

/-- Numbers that sys.wr does not reject at the group check: cr.fmt, and the whole system range (spec/03 R85). -/
def sysWritable (n : BitVec 13) : Bool :=
  let k := n.toNat
  k == 0 || (0x100 ≤ k && k ≤ 0x1FF)

/-- ext and ins stay within 64 bits (spec/03 R61). -/
def bitFieldOk (pos wm1 : BitVec 6) : Bool := pos.toNat + wm1.toNat + 1 ≤ 64

/-- Field numbers of shf: 0 to 9 for c shapes, 0 to 6 for k shapes (spec/05 R124, spec/06 R137). -/
def shapeFieldOk (code : BitVec 3) (field : BitVec 4) : Bool :=
  if code.toNat < 4 then field.toNat ≤ 9 else field.toNat ≤ 6

def VTy.isInt : VTy → Bool
  | .int32 | .int16 | .int8 => true
  | .fp32 | .bf16 | .fp16 => false

def VTy2.isInt : VTy2 → Bool
  | .int32 | .int16 | .int8 => true
  | .fp32 => false

/-- The combinations of formats and transform that vcvt accepts (spec/04 R104). -/
def vcvtOk (src tgt : Fmt) (had : Had) : Bool :=
  src != tgt && (had == .none || (src == .fp32 && tgt != .int8 && tgt != .int32))

/-- The functions of pa.norm (spec/09 R233). -/
def normFnOk (f : BitVec 4) : Bool := f.toNat ≤ 5 || f.toNat == 8 || f.toNat == 9

/-- Every value check of cause 0x03 that the Lean types do not make by themselves. -/
def Instr.wf : Instr → Bool
  | .lbrk _ k _ => k.toNat ≤ 5                                  -- spec/03 R76
  | .loopSp _ _ _ aux => aux.toNat ≤ 7                          -- spec/03 R73
  | .fmtSet _ hsz ofmt wfmt afmt => fmtFieldsOk hsz ofmt wfmt afmt
  | .shf _ code field _ => shapeFieldOk code field
  | .shlAi _ _ _ imm | .shrAi _ _ _ imm | .sraAi _ _ _ imm => !imm.msb   -- spec/03 R58
  | .sysRd _ _ num => sysReadable num
  | .sysWr _ _ num => sysWritable num
  | .lea _ _ _ _ sh => sh.toNat ≤ 7                             -- spec/03 R59
  | .extB _ _ _ pos wm1 | .insB _ _ _ pos wm1 => bitFieldOk pos wm1
  | .pset _ _ lo hi _ => lo.toNat ≤ 31 && hi.toNat ≤ 31         -- spec/03 R66
  | .red _ _ _ _ op => op != .swap                              -- spec/11 R271
  | .bfDecl _ _ _ _ spec own => spec == 1#1 || own == 0#2       -- spec/07 R182
  | .vshlC3 _ ty _ _ _ _ | .vshrC3 _ ty _ _ _ _ => ty.isInt    -- spec/05 R112
  | .vshlCs _ ty _ _ _ _ | .vshrCs _ ty _ _ _ _ => ty.isInt    -- spec/05 R114
  | .vcmp _ _ _ _ cond fp => if fp then cond.toNat ≤ 4 else cond.toNat ≤ 5   -- spec/05 R116
  | .vcvt _ _ _ src tgt _ had => vcvtOk src tgt had
  | .vred _ fp op _ _ _ => !fp || op == .add || op == .min || op == .max     -- spec/05 R118
  | .mmChain _ td ta _ _ _ => td != ta                          -- spec/06 R150
  | .paOpen _ _ _ z kind => kind != .view || z == 0#6           -- spec/09 R224
  | .paNorm _ _ _ f => normFnOk f
  | .grArrive _ m => m != 0#4                                   -- spec/12 R287
  | _ => true

end Sys2Proof
end

