-- ==== Sys2Proof/Decode.lean ====
section
/-! DEFINITION. From bits to instructions, total, rejecting by the cause of spec/02 R47; then the encoder, written from
the same tables; then Masthead's command descriptors (spec/22 R416, R419). -/

namespace Sys2Proof

/-- The four slots of a bundle (spec/02 R18). -/
inductive Slot where
  | a | b | c | d
  deriving DecidableEq, Repr

def Slot.num : Slot → Nat
  | .a => 0 | .b => 1 | .c => 2 | .d => 3

/-- The per-instruction causes of the illegal-encoding trap, in ascending order of code (spec/02 R47). -/
inductive DecErr where
  | unassigned   -- cause 0x01
  | reserved     -- cause 0x02
  | value        -- cause 0x03
  | range        -- cause 0x04
  deriving DecidableEq, Repr

def DecErr.cause : DecErr → Nat
  | .unassigned => 1 | .reserved => 2 | .value => 3 | .range => 4

/-! ### Bit fields -/

/-- Bits [lo + w - 1 : lo] of a word (spec/00 R1). -/
def fld {n : Nat} (lo w : Nat) (x : BitVec n) : BitVec w := x.extractLsb' lo w

/-- An immediate whose high bits the header lends: taken whole with a header, sign-extended from its in-slot width
without (spec/02 R21). -/
def wideImm {m n : Nat} (h : Bool) (hi : BitVec m) (lo : BitVec n) : BitVec (m + n) :=
  if h then hi ++ lo else lo.signExtend (m + n)

/-! ### Coded fields (spec/02 R40) -/

def scopeOf (c : BitVec 3) : Option Scope :=
  match c.toNat with
  | 0 => some .cr | 1 => some .cl | 2 => some .di | 3 => some .mo | 4 => some .sy | _ => none

def scopeBits : Scope → BitVec 3
  | .cr => 0#3 | .cl => 1#3 | .di => 2#3 | .mo => 3#3 | .sy => 4#3

def condOf (c : BitVec 3) : Option Cond :=
  match c.toNat with
  | 0 => some .eq | 1 => some .ne | 2 => some .lt | 3 => some .le | 4 => some .ltu | 5 => some .leu | _ => none

def condBits : Cond → BitVec 3
  | .eq => 0#3 | .ne => 1#3 | .lt => 2#3 | .le => 3#3 | .ltu => 4#3 | .leu => 5#3

/-- cond as the four-bit fn of B3 (spec/03 R64). -/
def condOf4 (c : BitVec 4) : Option Cond := if c.msb then none else condOf (fld 0 3 c)

def fcondOf (c : BitVec 4) : Option FCond :=
  match c.toNat with
  | 0 => some .eq | 1 => some .ne | 2 => some .lt | 3 => some .le | 4 => some .un | _ => none

def fcondBits : FCond → BitVec 4
  | .eq => 0#4 | .ne => 1#4 | .lt => 2#4 | .le => 3#4 | .un => 4#4

def pclassOf (c : BitVec 3) : Option PClass :=
  match c.toNat with
  | 0 => some .mem | 1 => some .copy | 2 => some .mxs | 3 => some .patch | 4 => some .hal | 5 => some .link
  | _ => none

def pclassBits : PClass → BitVec 3
  | .mem => 0#3 | .copy => 1#3 | .mxs => 2#3 | .patch => 3#3 | .hal => 4#3 | .link => 5#3

def atOpOf (c : BitVec 3) : Option AtOp :=
  match c.toNat with
  | 0 => some .add | 1 => some .and | 2 => some .or | 3 => some .xor | 4 => some .min | 5 => some .max
  | 6 => some .swap | _ => none

def atOpBits : AtOp → BitVec 3
  | .add => 0#3 | .and => 1#3 | .or => 2#3 | .xor => 3#3 | .min => 4#3 | .max => 5#3 | .swap => 6#3

def vtyOf (c : BitVec 3) : Option VTy :=
  match c.toNat with
  | 0 => some .fp32 | 1 => some .int32 | 2 => some .int16 | 3 => some .int8 | 4 => some .bf16 | 5 => some .fp16
  | _ => none

def vtyBits : VTy → BitVec 3
  | .fp32 => 0#3 | .int32 => 1#3 | .int16 => 2#3 | .int8 => 3#3 | .bf16 => 4#3 | .fp16 => 5#3

def vty2Of (c : BitVec 2) : VTy2 :=
  match c.toNat with
  | 0 => .fp32 | 1 => .int32 | 2 => .int16 | _ => .int8

def vty2Bits : VTy2 → BitVec 2
  | .fp32 => 0#2 | .int32 => 1#2 | .int16 => 2#2 | .int8 => 3#2

def fmtOf (c : BitVec 4) : Option Fmt :=
  match c.toNat with
  | 0 => some .fp32 | 1 => some .bf16 | 2 => some .fp16 | 3 => some .e4m3 | 4 => some .e5m2 | 5 => some .int8
  | 6 => some .int32 | 7 => some .bx7 | 8 => some .bx4 | 9 => some .bx2 | _ => none

def fmtBits : Fmt → BitVec 4
  | .fp32 => 0#4 | .bf16 => 1#4 | .fp16 => 2#4 | .e4m3 => 3#4 | .e5m2 => 4#4 | .int8 => 5#4 | .int32 => 6#4
  | .bx7 => 7#4 | .bx4 => 8#4 | .bx2 => 9#4

def rndOf (c : BitVec 2) : Rnd :=
  match c.toNat with
  | 0 => .rne | 1 => .rtz | 2 => .rup | _ => .rdn

def rndBits : Rnd → BitVec 2
  | .rne => 0#2 | .rtz => 1#2 | .rup => 2#2 | .rdn => 3#2

def hadOf (c : BitVec 2) : Option Had :=
  match c.toNat with
  | 0 => some .none | 1 => some .h16 | 2 => some .h32 | _ => none

def hadBits : Had → BitVec 2
  | .none => 0#2 | .h16 => 1#2 | .h32 => 2#2

/-- The vb field of vred holds its operation (spec/05 R118). -/
def redOpOf (c : BitVec 5) : Option RedOp :=
  match c.toNat with
  | 0 => some .add | 1 => some .min | 2 => some .max | 3 => some .and | 4 => some .or | 5 => some .xor | _ => none

def redOpBits : RedOp → BitVec 5
  | .add => 0#5 | .min => 1#5 | .max => 2#5 | .and => 3#5 | .or => 4#5 | .xor => 5#5

def paKindOf (c : BitVec 2) : PaKind :=
  match c.toNat with
  | 0 => .ovr | 1 => .add | 2 => .addn | _ => .view

def paKindBits : PaKind → BitVec 2
  | .ovr => 0#2 | .add => 1#2 | .addn => 2#2 | .view => 3#2

/-- The level field of pf (spec/07 R179). -/
def pfLevelOf (x : BitVec 6) : Option CacheKind :=
  match x.toNat with
  | 0 => some .l1 | 1 => some .l2 | 2 => some .msc | _ => none

def pfLevelBits : CacheKind → BitVec 6
  | .l1 => 0#6 | .l2 => 1#6 | .msc => 2#6

/-- fp32 or int32, where an entry accepts only those two types (spec/04 R105, spec/05 R116 R118). -/
def fpOrInt (c : BitVec 3) : Option Bool :=
  match c.toNat with
  | 0 => some true | 1 => some false | _ => none

def fpOrIntBits (fp : Bool) : BitVec 3 := if fp then 0#3 else 1#3

/-- An optional order with its scope: the scope must be zero without an order (spec/07 R175, spec/11 R247). -/
def orderOf (on : Bool) (sc : BitVec 3) : Option (Option Scope) :=
  if on then (scopeOf sc).map some else if sc == 0#3 then some none else none

def orderScopeBits : Option Scope → BitVec 3
  | some s => scopeBits s
  | none => 0#3

/-- Order fields of a load (spec/07 R175). -/
def loadOrder (ord : BitVec 2) (sc : BitVec 3) : Option (Option Scope) :=
  match ord.toNat with
  | 0 => orderOf false sc
  | 1 => orderOf true sc
  | _ => none

/-- Order fields of a store (spec/07 R175). -/
def storeOrder (ord : BitVec 2) (sc : BitVec 3) : Option (Option Scope) :=
  match ord.toNat with
  | 0 => orderOf false sc
  | 2 => orderOf true sc
  | _ => none

def VOp.of (mark : BitVec 1) (f : BitVec 5) : VOp :=
  if mark == 1#1 then .q (fld 0 3 f) else .v f

def VOp.field : VOp → BitVec 5
  | .v n => n
  | .q n => 0#2 ++ n

def VOp.mark : VOp → BitVec 1
  | .v _ => 0#1
  | .q _ => 1#1

/-- A stream-marked field above 7 (spec/02 R38). -/
def vRangeBad (mark : BitVec 1) (f : BitVec 5) : Bool := mark == 1#1 && fld 3 2 f != 0#2

def MOp.of (mark : BitVec 1) (f : BitVec 6) : MOp :=
  if mark == 1#1 then .q (fld 0 3 f) else .s f

def MOp.field : MOp → BitVec 6
  | .s n => n
  | .q n => 0#3 ++ n

def MOp.mark : MOp → BitVec 1
  | .s _ => 0#1
  | .q _ => 1#1

def mRangeBad (mark : BitVec 1) (f : BitVec 6) : Bool := mark == 1#1 && fld 3 3 f != 0#3

/-! ### Decoding one slot -/

/-- The causes of one instruction in ascending order: a reserved bit, a refused value, a number out of range (spec/02
R24: ties go to the lowest cause). -/
def finish (rsv : Bool) (rng : Bool) (oi : Option Instr) : Except DecErr Instr :=
  if rsv then .error .reserved
  else match oi with
    | none => .error .value
    | some i => if i.wf then (if rng then .error .range else .ok i) else .error .value

/-- Keep an operand only under a condition that its entry makes. -/
def need (ok : Bool) (i : Instr) : Option Instr := if ok then some i else none

/-- Slot A (spec/02 R36 R41; entries of spec/03, spec/04 R99, spec/05 R124). Bits [31:29] are the bundle's. -/
def decodeA (w : BitVec 32) : Except DecErr Instr :=
  let g := fld 19 4 w
  let d := fld 13 6 w; let a := fld 7 6 w; let b := fld 1 6 w
  let ar := fld 0 1 w != 0#1
  let imm7 := fld 0 7 w; let imm13 := fld 0 13 w; let imm19 := fld 0 19 w
  let ala := fld 13 6 w; let len := fld 4 9 w; let aux := fld 0 4 w
  let ok := fun i => finish false false (some i)
  let arf := fun i => finish ar false (some i)
  let ar2 := fun i => finish ar false (need (b == 0#6) i)
  match (fld 23 6 w).toNat with
  | 0x00 => finish (imm19 != 0#19) false (some (.nopA g))
  | 0x01 => ok (.br g imm19)
  | 0x02 => ar2 (.jmp g d a)
  | 0x03 => ok (.call g imm19)
  | 0x04 => finish ar false (need (d == 0#6 && b == 0#6) (.ret g a))
  | 0x05 => ok (.trap g imm19)
  | 0x06 => ok (.halt g imm19)
  | 0x07 => ok (.lbrk g (fld 16 3 w) (fld 0 16 w))
  | 0x08 => finish false false (need (aux == 0#4) (.loop g ala len))
  | 0x09 => ok (.loopSp g ala len aux)
  | 0x0A => finish false false (need (imm19 == 0#19) (.specBegin g))
  | 0x0B => finish false false (need (imm19 == 0#19) (.specCommit g))
  | 0x0C => finish false false (need (imm19 == 0#19) (.specAbort g))
  | 0x0D => finish (fld 14 5 w != 0#5) false (some (.fmtSet g (fld 12 2 w) (fld 8 4 w) (fld 4 4 w) (fld 0 4 w)))
  | 0x0E => finish (fld 0 6 w != 0#6) false (some (.shf g (fld 16 3 w) (fld 12 4 w) (fld 6 6 w)))
  | 0x10 => arf (.addAr g d a b)
  | 0x11 => arf (.subAr g d a b)
  | 0x12 => arf (.mul g d a b)
  | 0x13 => arf (.mulh g d a b)
  | 0x14 => arf (.mulhu g d a b)
  | 0x15 => arf (.div g d a b)
  | 0x16 => arf (.divu g d a b)
  | 0x17 => ar2 (.clz g d a)
  | 0x18 => arf (.andAr g d a b)
  | 0x19 => arf (.orAr g d a b)
  | 0x1A => arf (.xorAr g d a b)
  | 0x1B => arf (.shlAr g d a b)
  | 0x1C => arf (.shrAr g d a b)
  | 0x1D => arf (.sraAr g d a b)
  | 0x1E => ar2 (.popc g d a)
  | 0x20 => arf (.min g d a b)
  | 0x21 => arf (.max g d a b)
  | 0x22 => arf (.minu g d a b)
  | 0x23 => arf (.maxu g d a b)
  | 0x28 => ok (.addAi g d a imm7)
  | 0x29 => ok (.andAi g d a imm7)
  | 0x2A => ok (.orAi g d a imm7)
  | 0x2B => ok (.xorAi g d a imm7)
  | 0x2C => ok (.shlAi g d a imm7)
  | 0x2D => ok (.shrAi g d a imm7)
  | 0x2E => ok (.sraAi g d a imm7)
  | 0x30 => arf (.cmpEqAr g d a b)
  | 0x31 => arf (.cmpNeAr g d a b)
  | 0x32 => arf (.cmpLtAr g d a b)
  | 0x33 => arf (.cmpLeAr g d a b)
  | 0x34 => arf (.cmpLtuAr g d a b)
  | 0x35 => arf (.cmpLeuAr g d a b)
  | 0x38 => ok (.sysRd g d imm13)
  | 0x39 => ok (.sysWr g d imm13)
  | 0x3A => ok (.moviAw g d imm13)
  | _ => .error .unassigned

/-- Slot B (spec/02 R37 R42; entries of spec/03, spec/07, spec/08, spec/09, spec/11). -/
def decodeB (h : Bool) (w : BitVec 32) (e : BitVec 9) : Except DecErr Instr :=
  let g : BitVec 7 := fld 6 3 e ++ fld 22 4 w
  let e6 := fld 0 6 e
  let eN := e6 != 0#6; let eLow := fld 0 3 e != 0#3; let ePred := fld 3 3 e
  let x := fld 16 6 w; let y := fld 10 6 w; let z := fld 4 6 w; let fn := fld 0 4 w
  let n7 : BitVec 7 := ePred ++ fn
  let x7 := fld 15 7 w; let y7 := fld 8 7 w; let z7 := fld 1 7 w; let f1 := fld 0 1 w
  let sc := fld 7 3 w; let ord := fld 5 2 w
  let off : BitVec 11 := wideImm h e6 (fld 0 5 w)
  let b3 := fun i => finish eN false (need (fn == 0#4) i)
  let ld := fun (f : Option Scope → Instr) => finish false false ((loadOrder ord sc).map f)
  let st := fun (f : Option Scope → Instr) => finish false false ((storeOrder ord sc).map f)
  let plain := ord == 0#2 && sc == 0#3
  let xOnly := fun i => finish (eN || fld 0 16 w != 0#16) false (some i)
  match (fld 26 6 w).toNat with
  | 0x00 => finish (eN || fld 0 22 w != 0#22) false (some (.nopB g))
  | 0x01 => b3 (.addB3 g x y z)
  | 0x02 => b3 (.subB3 g x y z)
  | 0x03 => b3 (.andB3 g x y z)
  | 0x04 => b3 (.orB3 g x y z)
  | 0x05 => b3 (.xorB3 g x y z)
  | 0x06 => b3 (.shlB3 g x y z)
  | 0x07 => b3 (.shrB3 g x y z)
  | 0x08 => b3 (.sraB3 g x y z)
  | 0x09 => finish eN false (some (.lea g x y z fn))
  | 0x0A => finish eLow false (some (.sel g x n7 y z))
  | 0x0B => finish (fld 2 4 e != 0#4) false (some (.extB g x y z (fld 0 2 e ++ fn)))
  | 0x0C => finish (fld 2 4 e != 0#4) false (some (.insB g x y z (fld 0 2 e ++ fn)))
  | 0x0D => finish false false (some (.addBi g x y (wideImm h e6 (fld 0 10 w))))
  | 0x0E => finish false false (some (.moviBw g x (wideImm h e6 (fld 0 16 w))))
  | 0x0F => finish eN false (some (.movhi g x (fld 0 16 w)))
  | 0x10 => finish eN false ((condOf4 fn).map (.cmpB3 g x y z))
  | 0x11 => finish false false ((condOf sc).map fun c => .cmpBc g x y c (wideImm h e6 (fld 0 7 w)))
  | 0x12 => finish eN false ((fcondOf fn).map (.fcmp g x y z))
  | 0x13 => finish eN false (some (.pand g x7 y7 z7 f1))
  | 0x14 => finish eN false (some (.por g x7 y7 z7 f1))
  | 0x15 => finish eN false (some (.pxor g x7 y7 z7 f1))
  | 0x16 => finish eN false (need (z7 == 0#7 && f1 == 0#1) (.pnot g x7 y7))
  | 0x17 => finish eN false (need (z7 == 0#7 && f1 == 0#1) (.pmov g x7 y7))
  | 0x18 => finish eN false (some (.pset g x7 y7 z7 f1))
  | 0x19 => ld (.ldB g x y off)
  | 0x1A => ld (.ldH g x y off)
  | 0x1B => ld (.ldW g x y off)
  | 0x1C => ld (.ldD g x y off)
  | 0x1D => st (.stB g x y off)
  | 0x1E => st (.stH g x y off)
  | 0x1F => st (.stW g x y off)
  | 0x20 => st (.stD g x y off)
  | 0x21 => finish false false (if plain then (pfLevelOf x).map fun l => .pf g l y off else none)
  | 0x22 => xOnly (.lqPop g x)
  | 0x23 => finish false false (need plain (.ldSp g x y off))
  | 0x24 => finish false false (need plain (.stSp g x y off))
  | 0x25 => finish (ord != 0#2) false (some (.tsLd g x y off (fld 9 1 w) (fld 7 2 w)))
  | 0x26 => finish (ord != 0#2 || fld 9 1 w != 0#1) false (some (.tsSt g x y off (fld 7 2 w)))
  | 0x28 => finish (eN || fn != 0#4) false
      ((scopeOf sc).bind fun s => (atOpOf (fld 4 3 w)).map fun o => .atR g x y s o)
  | 0x29 => finish (eN || fld 0 1 w != 0#1) false ((scopeOf (fld 1 3 w)).map fun s => .atCas g x y z s)
  | 0x2A => finish (eN || fn != 0#4) false
      ((scopeOf sc).bind fun s => (atOpOf (fld 4 3 w)).map fun o => .red g x y s o)
  | 0x2B => finish (eN || x != 0#6 || fn != 0#4) false (some (.mcas g y z))
  | 0x2C => finish (eN || fld 0 19 w != 0#19) false ((scopeOf (fld 19 3 w)).map fun s => .fence g s)
  | 0x2D => finish (eN || fld 0 16 w != 0#16) false
      ((pclassOf (fld 19 3 w)).bind fun a => (pclassOf (fld 16 3 w)).map fun b => .xfence g a b)
  | 0x30 => finish (eN || fld 3 1 w != 0#1) false (some (.bfDecl g x y z (fld 0 1 w) (fld 1 2 w)))
  | 0x31 => xOnly (.bfFill g x)
  | 0x32 => xOnly (.bfDone g x)
  | 0x33 => xOnly (.bfDrain g x)
  | 0x34 => xOnly (.bfFree g x)
  | 0x35 => finish (eN || fld 0 10 w != 0#10) false (some (.bfState g x y))
  | 0x38 => finish (eN || fn != 0#4 || fld 5 1 x != 0#1) false
      ((orderOf (fld 3 1 x == 1#1) (fld 0 3 x)).map fun r => .pnAdd g (fld 4 1 x) r y z)
  | 0x39 => finish (eLow || fld 4 2 x != 0#2) false
      ((orderOf (fld 3 1 x == 1#1) (fld 0 3 x)).map fun r => .pnWait g r y z n7)
  | 0x3A => finish eLow false (some (.pnTest g x y z n7))
  | 0x3B => finish (eN || z != 0#6) false (need (fld 1 3 fn == 0#3) (.pnRead g x y (fld 0 1 fn)))
  | 0x3C => finish eLow false (some (.rbAwait g x y z n7))
  | 0x3D => finish (eN || fn != 0#4) false (some (.rbRelease g x y z))
  | _ => .error .unassigned

/-- Slot C (spec/02 R38 R43; entries of spec/04 and spec/05). Bits of ext2[5:0] beside a nop are refused as reserved, as its operand bits are:
its format uses them, and R18 counts them among no operand (DESIGN CHOICE, log 99). -/
def decodeC (h : Bool) (w : BitVec 32) (e : BitVec 9) : Except DecErr Instr :=
  let g : BitVec 7 := fld 6 3 e ++ fld 22 4 w
  let e6 := fld 0 6 e
  let m2 := fld 2 1 e; let m1 := fld 1 1 e; let m0 := fld 0 1 e
  let lh := fld 3 3 e
  let vd := fld 17 5 w; let va := fld 12 5 w; let vb := fld 7 5 w
  let lp3 : BitVec 7 := lh ++ fld 3 4 w
  let ty := fld 0 3 w
  let bad3 := vRangeBad m2 vd || vRangeBad m1 va || vRangeBad m0 vb
  let bad2 := vRangeBad m2 vd || vRangeBad m1 va
  let oD := VOp.of m2 vd; let oA := VOp.of m1 va; let oB := VOp.of m0 vb
  let c3 := fun (f : VTy → Instr) => finish false bad3 ((vtyOf ty).map f)
  let c3i := fun (i : Instr) => finish false bad3 (need (ty == 1#3) i)
  let s6 := fld 6 6 w; let lpS : BitVec 7 := lh ++ fld 2 4 w
  let cs := fun (i : Instr) => finish (m0 != 0#1) bad2 (some i)
  let ty2 := vty2Of (fld 0 2 w)
  let off : BitVec 7 := wideImm h (fld 0 3 e) (fld 0 4 w)
  let lpM : BitVec 7 := lh ++ fld 4 4 w
  let tr := fun (i : Instr) => finish (m0 != 0#1) bad2 (need (ty == 0#3 && vb == 0#5) i)
  match (fld 26 6 w).toNat with
  | 0x00 => finish (e6 != 0#6 || fld 0 22 w != 0#22) false (some (.nopC g))
  | 0x01 => finish false false (some (.vld g vd (fld 11 6 w) (fld 9 2 w) (fld 8 1 w) lpM off))
  | 0x02 => finish false false (some (.vst g vd (fld 11 6 w) (fld 9 2 w) (fld 8 1 w) lpM off))
  | 0x03 => c3 fun t => .vaddC3 g t oD oA oB lp3
  | 0x04 => c3 fun t => .vsubC3 g t oD oA oB lp3
  | 0x05 => c3 fun t => .vmulC3 g t oD oA oB lp3
  | 0x06 => c3 fun t => .vfmaC3 g t oD oA oB lp3
  | 0x07 => c3 fun t => .vminC3 g t oD oA oB lp3
  | 0x08 => c3 fun t => .vmaxC3 g t oD oA oB lp3
  | 0x09 => c3i (.vand g oD oA oB lp3)
  | 0x0A => c3i (.vor g oD oA oB lp3)
  | 0x0B => c3i (.vxor g oD oA oB lp3)
  | 0x0C => c3 fun t => .vshlC3 g t oD oA oB lp3
  | 0x0D => c3 fun t => .vshrC3 g t oD oA oB lp3
  | 0x0E => c3i (.vsel g oD oA oB lp3)
  | 0x0F => finish (fld 2 4 e != 0#4) (vRangeBad m1 (fld 11 5 w) || vRangeBad m0 (fld 6 5 w))
      ((fpOrInt ty).map fun fp =>
        .vcmp g (fld 16 6 w) (VOp.of m1 (fld 11 5 w)) (VOp.of m0 (fld 6 5 w)) (fld 3 3 w) fp)
  | 0x10 => cs (.vaddCs g ty2 oD oA s6 lpS)
  | 0x11 => cs (.vsubCs g ty2 oD oA s6 lpS)
  | 0x12 => cs (.vmulCs g ty2 oD oA s6 lpS)
  | 0x13 => cs (.vfmaCs g ty2 oD oA s6 lpS)
  | 0x14 => cs (.vminCs g ty2 oD oA s6 lpS)
  | 0x15 => cs (.vmaxCs g ty2 oD oA s6 lpS)
  | 0x16 => cs (.vshlCs g ty2 oD oA s6 lpS)
  | 0x17 => cs (.vshrCs g ty2 oD oA s6 lpS)
  | 0x18 => finish (lh != 0#3 || m0 != 0#1) bad2
      ((fmtOf (fld 8 4 w)).bind fun src => (fmtOf (fld 4 4 w)).bind fun tgt => (hadOf (fld 0 2 w)).map fun hd =>
        .vcvt g oD oA src tgt (rndOf (fld 2 2 w)) hd)
  | 0x19 => finish (m0 != 0#1) bad2
      ((fpOrInt ty).bind fun fp => if fld 1 4 vb == 0#4 then some (.vhad g fp oD oA (fld 0 1 vb == 1#1) lp3) else none)
  | 0x1A => finish (m0 != 0#1) bad2
      ((fpOrInt ty).bind fun fp => (redOpOf vb).map fun o => .vred g fp o oD oA lp3)
  | 0x1B => c3i (.vperm g oD oA oB lp3)
  | 0x1C => finish (m1 != 0#1 || m0 != 0#1) (vRangeBad m2 vd) (need (va == 0#5) (.vbcast g ty2 oD s6 lpS))
  | 0x20 => tr (.vrcp g oD oA lp3)
  | 0x21 => tr (.vrsqrt g oD oA lp3)
  | 0x22 => tr (.vexp2 g oD oA lp3)
  | 0x23 => tr (.vlog2 g oD oA lp3)
  | 0x28 => finish (e6 != 0#6 || fld 0 10 w != 0#10) false
      (some (.stb g (fld 19 3 w) (fld 13 6 w) (fld 11 2 w) (fld 10 1 w)))
  | 0x29 => finish (e6 != 0#6 || fld 0 10 w != 0#10) false (need (fld 10 9 w == 0#9) (.stu g (fld 19 3 w)))
  | _ => .error .unassigned

/-- Slot D (spec/02 R39 R44; entries of spec/06, spec/09, spec/12, spec/18). -/
def decodeD (w : BitVec 32) (e : BitVec 9) : Except DecErr Instr :=
  let g : BitVec 7 := fld 6 3 e ++ fld 22 4 w
  let eN := fld 0 6 e != 0#6
  let x := fld 16 6 w; let y := fld 10 6 w; let z := fld 4 6 w; let fn := fld 0 4 w
  let mk := fld 5 1 e; let eLow := fld 0 5 e != 0#5
  let tile := fld 13 9 w; let tx := fld 7 6 w; let k := fld 5 2 w; let sw := fld 4 1 w
  let oT := MOp.of mk tx; let badT := mRangeBad mk tx
  let port := fld 0 2 x; let badP := fld 2 4 x != 0#4
  let yz := fun (i : Instr) => finish (eN || x != 0#6) false (need (fn == 0#4) i)
  let seg := fun (i : Instr) => finish (eN || fn != 0#4) false (some i)
  match (fld 26 6 w).toNat with
  | 0x00 => finish (eN || fld 0 22 w != 0#22) false (some (.nopD g))
  | 0x01 => finish (eLow || fld 0 12 w != 0#12) (mRangeBad mk x)
      (some (.mmLdw g (MOp.of mk x) (fld 15 1 w == 1#1) (fld 13 2 w) (fld 12 1 w)))
  | 0x02 => finish (eLow || fld 2 2 fn != 0#2) badT (some (.mm g tile oT k sw (fld 1 1 fn) (fld 0 1 fn)))
  | 0x03 => finish eN false (some (.mmChain g tile (fld 4 9 w) (fld 2 2 w) (fld 1 1 w) (fld 0 1 w)))
  | 0x04 => finish (eN || fld 4 9 w != 0#9 || fld 1 3 fn != 0#3) false (some (.mmZero g tile (fld 0 1 fn)))
  | 0x05 => finish (eLow || fld 1 3 fn != 0#3) badT (some (.mmWb g tile oT k sw (fld 0 1 fn)))
  | 0x06 =>
    match fn.toNat with
    | 0 => finish eLow badT (some (.mmRd g tile oT k sw))
    | 1 => finish (eN || k != 0#2 || sw != 0#1) false (some (.mmRdSt g tile tx 0#1))
    | 3 => finish (eN || k != 0#2 || sw != 0#1) false (some (.mmRdSt g tile tx 1#1))
    | _ => finish eLow false none
  | 0x07 => finish (eN || fld 1 21 w != 0#21) false (some (.mmFuse g (fld 0 1 w)))
  | 0x08 => finish (eN || (fld 0 2 fn == 3#2 && z != 0#6)) badP
      (need (fld 2 2 fn == 0#2) (.paOpen g port y z (paKindOf (fld 0 2 fn))))
  | 0x09 => finish (eN || y != 0#6 || z != 0#6) badP (need (fn == 0#4) (.paClose g port))
  | 0x0A => yz (.paApply g y z)
  | 0x0B => yz (.paInv g y z)
  | 0x0C => yz (.paComm g y z)
  | 0x0D => finish eN false (need (fn == 0#4) (.paXplant g x y z))
  | 0x0E => yz (.paSquash g y z)
  | 0x0F => finish (eN || x != 0#6 || z != 0#6) false (need (fld 1 3 fn == 0#3) (.paSnap g y (fld 0 1 fn)))
  | 0x10 =>
    match fn.toNat with
    | 0 => finish (eN || y != 0#6 || z != 0#6) badP (some (.paDropPort g port))
    | 1 => finish (eN || x != 0#6) false (some (.paDropClosed g y z))
    | _ => finish eN false none
  | 0x11 => finish eN false (need (fn == 0#4) (.paQuery g x y z))
  | 0x12 => finish (eN || z != 0#6) false (some (.paNorm g x y fn))
  | 0x18 => finish (eN || fld 3 3 x != 0#3 || z != 0#6 || fn != 0#4) false
      ((scopeOf (fld 0 3 x)).map fun s => .grLaunch g s y)
  | 0x19 => finish (eN || fld 4 18 w != 0#18) false (some (.grArrive g fn))
  | 0x1A => finish (eN || x != 0#6 || fn != 0#4) false (some (.grCond g y z))
  | 0x1B => finish (eN || fld 0 22 w != 0#22) false (some (.grDone g))
  | 0x20 => seg (.segPromote g x y z)
  | 0x21 => seg (.segPin g x y z)
  | 0x22 => seg (.segUnpin g x y z)
  | 0x23 => seg (.segDemote g x y z)
  | 0x24 => finish (eN || fn != 0#4 || z != 0#6) false (some (.segQuery g x y))
  | _ => .error .unassigned

/-! ### Decoding a bundle (spec/02 R18 to R21) -/

/-- Slot n of a bundle, slot 0 at the lowest bits. -/
def slotWord (b : BitVec 128) : Slot → BitVec 32
  | .a => fld 0 32 b | .b => fld 32 32 b | .c => fld 64 32 b | .d => fld 96 32 b

def headerBit (b : BitVec 128) : Bool := fld 31 1 b == 1#1
def stopBit (b : BitVec 128) : Bool := fld 30 1 b == 1#1
def syncBit (b : BitVec 128) : Bool := fld 29 1 b == 1#1

/-- The extension of a slot: zero without a header, and for slot A (spec/02 R20 R21). -/
def extBits (b : BitVec 128) (sl : Slot) : BitVec 9 :=
  if headerBit b then
    match sl with
    | .a => 0#9 | .b => fld 18 9 b | .c => fld 9 9 b | .d => fld 0 9 b
  else 0#9

/-- The instruction of one slot. A header bundle holds none in slot A: it performs no operation, as a nop does
(spec/02 R20), and is refused only for its reserved bits (spec/02 R47). -/
def decodeSlot (b : BitVec 128) (sl : Slot) : Except DecErr Instr :=
  match sl with
  | .a => if headerBit b then (if fld 27 2 b != 0#2 then .error .reserved else .ok (.nopA 0#4))
          else decodeA (slotWord b .a)
  | .b => decodeB (headerBit b) (slotWord b .b) (extBits b .b)
  | .c => decodeC (headerBit b) (slotWord b .c) (extBits b .c)
  | .d => decodeD (slotWord b .d) (extBits b .d)

/-- Whether a decoded slot holds a nop. -/
def Instr.isNop : Instr → Bool
  | .nopA _ | .nopB _ | .nopC _ | .nopD _ => true
  | _ => false

/-- The slot whose instruction a bundle is asked about: the first that decodes to something other than a nop. -/
def firstBusy (b : BitVec 128) : Option (Slot × Instr) :=
  [Slot.a, .b, .c, .d].findSome? fun sl =>
    match decodeSlot b sl with
    | .ok i => if i.isNop then none else some (sl, i)
    | .error _ => none

/-- A bundle that ends its group, with one slot word and nops elsewhere. -/
def oneSlot (sl : Slot) (w : BitVec 32) : BitVec 128 :=
  match sl with
  | .a => 0#96 ++ (w ||| 0x40000000#32)
  | .b => 0#64 ++ w ++ 0x40000000#32
  | .c => 0#32 ++ w ++ 0#32 ++ 0x40000000#32
  | .d => w ++ 0#64 ++ 0x40000000#32

/-- The bundle in which a table word is read (DESIGN CHOICE, log 5). A row of the table gives one slot's 32 bits and names no slot: a word
with bits [31:29] clear that the slot-A map accepts is read there, else in the first of slots B, C and D whose map accepts
it, in a bundle that ends its group and holds nops elsewhere. More bits than one slot's are a whole bundle. -/
def tableBundle (nbits w : Nat) : Option (BitVec 128) :=
  if nbits ≤ 32 then
    let v := BitVec.ofNat 32 w
    let inA := if fld 29 3 v != 0#3 then none else
      match decodeA v with
      | .ok _ => some (oneSlot .a v)
      | .error _ => none
    inA.orElse fun _ => [Slot.b, .c, .d].findSome? fun sl =>
      match decodeSlot (oneSlot sl v) sl with
      | .ok _ => some (oneSlot sl v)
      | .error _ => none
  else if nbits ≤ 128 then some (BitVec.ofNat 128 w)
  else none

/-- The instruction that the decoder reads from a table word. -/
def decodeTableWord (nbits w : Nat) : Option Instr :=
  match tableBundle nbits w with
  | none => none
  | some b =>
    match firstBusy b with
    | some (_, i) => some i
    | none =>
      match decodeSlot b .a with
      | .ok i => some i
      | .error _ => none

/-! ### Encoding (spec/02 R18 to R21, R36 to R44) -/

/-- A slot-A word: H = 0, STOP = 1, SYNC = 0, then opcode, guard and operand bits. -/
def wordA (op : BitVec 6) (g : BitVec 4) (r : BitVec 19) : BitVec 32 := 2#3 ++ op ++ g ++ r

/-- A word of slot B, C or D; the header lends the guard's three high bits. -/
def wordX (op : BitVec 6) (g : BitVec 7) (r : BitVec 22) : BitVec 32 := op ++ fld 0 4 g ++ r

/-- The nine extension bits of a slot. -/
def extOf (g : BitVec 7) (e : BitVec 6) : BitVec 9 := fld 4 3 g ++ e

abbrev Encoded := Slot × BitVec 32 × BitVec 9

def encA (op : BitVec 6) (g : BitVec 4) (r : BitVec 19) : Option Encoded := some (.a, wordA op g r, 0#9)
def encB (op : BitVec 6) (g : BitVec 7) (r : BitVec 22) (e : BitVec 6) : Option Encoded :=
  some (.b, wordX op g r, extOf g e)
def encC (op : BitVec 6) (g : BitVec 7) (r : BitVec 22) (e : BitVec 6) : Option Encoded :=
  some (.c, wordX op g r, extOf g e)
def encD (op : BitVec 6) (g : BitVec 7) (r : BitVec 22) (e : BitVec 6) : Option Encoded :=
  some (.d, wordX op g r, extOf g e)

/-- AR (spec/02 R36). -/
def encAR (op : BitVec 6) (g : BitVec 4) (d a b : BitVec 6) : Option Encoded := encA op g (d ++ a ++ b ++ 0#1)
/-- AI. -/
def encAI (op : BitVec 6) (g : BitVec 4) (d a : BitVec 6) (imm : BitVec 7) : Option Encoded := encA op g (d ++ a ++ imm)
/-- B3 with fn = 0 (spec/02 R37). -/
def encB3 (op : BitVec 6) (g : BitVec 7) (x y z : BitVec 6) (fn : BitVec 4) : Option Encoded :=
  encB op g (x ++ y ++ z ++ fn) 0#6
/-- B3 whose fn names a predicate. -/
def encB3p (op : BitVec 6) (g : BitVec 7) (x y z : BitVec 6) (n : BitVec 7) : Option Encoded :=
  encB op g (x ++ y ++ z ++ fld 0 4 n) (fld 4 3 n ++ 0#3)
/-- BP. -/
def encBP (op : BitVec 6) (g x y z : BitVec 7) (f : BitVec 1) : Option Encoded := encB op g (x ++ y ++ z ++ f) 0#6
/-- BM, with its order code. -/
def encBM (op : BitVec 6) (g : BitVec 7) (x base : BitVec 6) (sc : BitVec 3) (ord : BitVec 2) (off : BitVec 11) :
    Option Encoded := encB op g (x ++ base ++ sc ++ ord ++ fld 0 5 off) (fld 5 6 off)
def encLd (op : BitVec 6) (g : BitVec 7) (x base : BitVec 6) (off : BitVec 11) (acq : Option Scope) : Option Encoded :=
  encBM op g x base (orderScopeBits acq) (if acq.isSome then 1#2 else 0#2) off
def encSt (op : BitVec 6) (g : BitVec 7) (x base : BitVec 6) (off : BitVec 11) (rel : Option Scope) : Option Encoded :=
  encBM op g x base (orderScopeBits rel) (if rel.isSome then 2#2 else 0#2) off
/-- C3 (spec/02 R38). -/
def encC3 (op : BitVec 6) (g : BitVec 7) (ty : BitVec 3) (vd va vb : VOp) (lp : BitVec 7) : Option Encoded :=
  encC op g (vd.field ++ va.field ++ vb.field ++ fld 0 4 lp ++ ty) (fld 4 3 lp ++ vd.mark ++ va.mark ++ vb.mark)
/-- C3 whose vb field is a code and no register. -/
def encC3f (op : BitVec 6) (g : BitVec 7) (ty : BitVec 3) (vd va : VOp) (f : BitVec 5) (lp : BitVec 7) :
    Option Encoded :=
  encC op g (vd.field ++ va.field ++ f ++ fld 0 4 lp ++ ty) (fld 4 3 lp ++ vd.mark ++ va.mark ++ 0#1)
/-- CS. -/
def encCS (op : BitVec 6) (g : BitVec 7) (ty : VTy2) (vd va : VOp) (s : BitVec 6) (lp : BitVec 7) : Option Encoded :=
  encC op g (vd.field ++ va.field ++ s ++ fld 0 4 lp ++ vty2Bits ty) (fld 4 3 lp ++ vd.mark ++ va.mark ++ 0#1)
/-- CM. -/
def encCM (op : BitVec 6) (g : BitVec 7) (v : BitVec 5) (base : BitVec 6) (c : BitVec 2) (sw : BitVec 1)
    (lp : BitVec 7) (off : BitVec 7) : Option Encoded :=
  encC op g (v ++ base ++ c ++ sw ++ fld 0 4 lp ++ fld 0 4 off) (fld 4 3 lp ++ fld 4 3 off)
/-- D3 (spec/02 R39). -/
def encD3 (op : BitVec 6) (g : BitVec 7) (x y z : BitVec 6) (fn : BitVec 4) : Option Encoded :=
  encD op g (x ++ y ++ z ++ fn) 0#6
/-- DT. -/
def encDT (op : BitVec 6) (g : BitVec 7) (tile : BitVec 9) (x : MOp) (k : BitVec 2) (sw : BitVec 1) (fn : BitVec 4) :
    Option Encoded := encD op g (tile ++ x.field ++ k ++ sw ++ fn) (x.mark ++ 0#5)

def orderBit (o : Option Scope) : BitVec 1 := if o.isSome then 1#1 else 0#1

/-- The slot, word and extension of a slot instruction; events and commands have no encoding in a bundle. -/
def encodeSlot : Instr → Option Encoded
  | .nopA g => encA 0x00#6 g 0#19
  | .br g off => encA 0x01#6 g off
  | .jmp g d a => encAR 0x02#6 g d a 0#6
  | .call g off => encA 0x03#6 g off
  | .ret g a => encAR 0x04#6 g 0#6 a 0#6
  | .trap g c => encA 0x05#6 g c
  | .halt g c => encA 0x06#6 g c
  | .lbrk g k off => encA 0x07#6 g (k ++ off)
  | .loop g a len => encA 0x08#6 g (a ++ len ++ 0#4)
  | .loopSp g a len aux => encA 0x09#6 g (a ++ len ++ aux)
  | .specBegin g => encA 0x0A#6 g 0#19
  | .specCommit g => encA 0x0B#6 g 0#19
  | .specAbort g => encA 0x0C#6 g 0#19
  | .fmtSet g hsz ofmt wfmt afmt => encA 0x0D#6 g (0#5 ++ hsz ++ ofmt ++ wfmt ++ afmt)
  | .shf g code field a => encA 0x0E#6 g (code ++ field ++ a ++ 0#6)
  | .addAr g d a b => encAR 0x10#6 g d a b
  | .subAr g d a b => encAR 0x11#6 g d a b
  | .mul g d a b => encAR 0x12#6 g d a b
  | .mulh g d a b => encAR 0x13#6 g d a b
  | .mulhu g d a b => encAR 0x14#6 g d a b
  | .div g d a b => encAR 0x15#6 g d a b
  | .divu g d a b => encAR 0x16#6 g d a b
  | .clz g d a => encAR 0x17#6 g d a 0#6
  | .andAr g d a b => encAR 0x18#6 g d a b
  | .orAr g d a b => encAR 0x19#6 g d a b
  | .xorAr g d a b => encAR 0x1A#6 g d a b
  | .shlAr g d a b => encAR 0x1B#6 g d a b
  | .shrAr g d a b => encAR 0x1C#6 g d a b
  | .sraAr g d a b => encAR 0x1D#6 g d a b
  | .popc g d a => encAR 0x1E#6 g d a 0#6
  | .min g d a b => encAR 0x20#6 g d a b
  | .max g d a b => encAR 0x21#6 g d a b
  | .minu g d a b => encAR 0x22#6 g d a b
  | .maxu g d a b => encAR 0x23#6 g d a b
  | .addAi g d a imm => encAI 0x28#6 g d a imm
  | .andAi g d a imm => encAI 0x29#6 g d a imm
  | .orAi g d a imm => encAI 0x2A#6 g d a imm
  | .xorAi g d a imm => encAI 0x2B#6 g d a imm
  | .shlAi g d a imm => encAI 0x2C#6 g d a imm
  | .shrAi g d a imm => encAI 0x2D#6 g d a imm
  | .sraAi g d a imm => encAI 0x2E#6 g d a imm
  | .cmpEqAr g n a b => encAR 0x30#6 g n a b
  | .cmpNeAr g n a b => encAR 0x31#6 g n a b
  | .cmpLtAr g n a b => encAR 0x32#6 g n a b
  | .cmpLeAr g n a b => encAR 0x33#6 g n a b
  | .cmpLtuAr g n a b => encAR 0x34#6 g n a b
  | .cmpLeuAr g n a b => encAR 0x35#6 g n a b
  | .sysRd g d num => encA 0x38#6 g (d ++ num)
  | .sysWr g d num => encA 0x39#6 g (d ++ num)
  | .moviAw g d imm => encA 0x3A#6 g (d ++ imm)
  | .nopB g => encB 0x00#6 g 0#22 0#6
  | .addB3 g x y z => encB3 0x01#6 g x y z 0#4
  | .subB3 g x y z => encB3 0x02#6 g x y z 0#4
  | .andB3 g x y z => encB3 0x03#6 g x y z 0#4
  | .orB3 g x y z => encB3 0x04#6 g x y z 0#4
  | .xorB3 g x y z => encB3 0x05#6 g x y z 0#4
  | .shlB3 g x y z => encB3 0x06#6 g x y z 0#4
  | .shrB3 g x y z => encB3 0x07#6 g x y z 0#4
  | .sraB3 g x y z => encB3 0x08#6 g x y z 0#4
  | .lea g x y z sh => encB3 0x09#6 g x y z sh
  | .sel g x n y z => encB3p 0x0A#6 g x y z n
  | .extB g x y pos wm1 => encB 0x0B#6 g (x ++ y ++ pos ++ fld 0 4 wm1) (0#4 ++ fld 4 2 wm1)
  | .insB g x y pos wm1 => encB 0x0C#6 g (x ++ y ++ pos ++ fld 0 4 wm1) (0#4 ++ fld 4 2 wm1)
  | .addBi g x y imm => encB 0x0D#6 g (x ++ y ++ fld 0 10 imm) (fld 10 6 imm)
  | .moviBw g x imm => encB 0x0E#6 g (x ++ fld 0 16 imm) (fld 16 6 imm)
  | .movhi g x imm => encB 0x0F#6 g (x ++ imm) 0#6
  | .cmpB3 g n y z c => encB3 0x10#6 g n y z (0#1 ++ condBits c)
  | .cmpBc g n y c imm => encB 0x11#6 g (n ++ y ++ condBits c ++ fld 0 7 imm) (fld 7 6 imm)
  | .fcmp g n y z c => encB3 0x12#6 g n y z (fcondBits c)
  | .pand g x y z f => encBP 0x13#6 g x y z f
  | .por g x y z f => encBP 0x14#6 g x y z f
  | .pxor g x y z f => encBP 0x15#6 g x y z f
  | .pnot g x y => encBP 0x16#6 g x y 0#7 0#1
  | .pmov g x y => encBP 0x17#6 g x y 0#7 0#1
  | .pset g x lo hi f => encBP 0x18#6 g x lo hi f
  | .ldB g x b off acq => encLd 0x19#6 g x b off acq
  | .ldH g x b off acq => encLd 0x1A#6 g x b off acq
  | .ldW g x b off acq => encLd 0x1B#6 g x b off acq
  | .ldD g x b off acq => encLd 0x1C#6 g x b off acq
  | .stB g x b off rel => encSt 0x1D#6 g x b off rel
  | .stH g x b off rel => encSt 0x1E#6 g x b off rel
  | .stW g x b off rel => encSt 0x1F#6 g x b off rel
  | .stD g x b off rel => encSt 0x20#6 g x b off rel
  | .pf g l b off => encBM 0x21#6 g (pfLevelBits l) b 0#3 0#2 off
  | .lqPop g x => encB3 0x22#6 g x 0#6 0#6 0#4
  | .ldSp g x b off => encBM 0x23#6 g x b 0#3 0#2 off
  | .stSp g x b off => encBM 0x24#6 g x b 0#3 0#2 off
  | .tsLd g x b off cut port => encBM 0x25#6 g x b (cut ++ port) 0#2 off
  | .tsSt g x b off port => encBM 0x26#6 g x b (0#1 ++ port) 0#2 off
  | .atR g x b s op => encB 0x28#6 g (x ++ b ++ scopeBits s ++ atOpBits op ++ 0#4) 0#6
  | .atCas g x b y s => encB 0x29#6 g (x ++ b ++ y ++ scopeBits s ++ 0#1) 0#6
  | .red g x b s op => encB 0x2A#6 g (x ++ b ++ scopeBits s ++ atOpBits op ++ 0#4) 0#6
  | .mcas g y z => encB3 0x2B#6 g 0#6 y z 0#4
  | .fence g s => encB 0x2C#6 g (scopeBits s ++ 0#19) 0#6
  | .xfence g a b => encB 0x2D#6 g (pclassBits a ++ pclassBits b ++ 0#16) 0#6
  | .bfDecl g x y z sp own => encB3 0x30#6 g x y z (0#1 ++ own ++ sp)
  | .bfFill g x => encB3 0x31#6 g x 0#6 0#6 0#4
  | .bfDone g x => encB3 0x32#6 g x 0#6 0#6 0#4
  | .bfDrain g x => encB3 0x33#6 g x 0#6 0#6 0#4
  | .bfFree g x => encB3 0x34#6 g x 0#6 0#6 0#4
  | .bfState g x y => encB3 0x35#6 g x y 0#6 0#4
  | .pnAdd g clr rel y z => encB3 0x38#6 g (0#1 ++ clr ++ orderBit rel ++ orderScopeBits rel) y z 0#4
  | .pnWait g acq y z n => encB3p 0x39#6 g (0#2 ++ orderBit acq ++ orderScopeBits acq) y z n
  | .pnTest g pr y z n => encB3p 0x3A#6 g pr y z n
  | .pnRead g x y st => encB3 0x3B#6 g x y 0#6 (0#3 ++ st)
  | .rbAwait g x y z n => encB3p 0x3C#6 g x y z n
  | .rbRelease g x y z => encB3 0x3D#6 g x y z 0#4
  | .nopC g => encC 0x00#6 g 0#22 0#6
  | .vld g v b c sw lp off => encCM 0x01#6 g v b c sw lp off
  | .vst g v b c sw lp off => encCM 0x02#6 g v b c sw lp off
  | .vaddC3 g t d a b lp => encC3 0x03#6 g (vtyBits t) d a b lp
  | .vsubC3 g t d a b lp => encC3 0x04#6 g (vtyBits t) d a b lp
  | .vmulC3 g t d a b lp => encC3 0x05#6 g (vtyBits t) d a b lp
  | .vfmaC3 g t d a b lp => encC3 0x06#6 g (vtyBits t) d a b lp
  | .vminC3 g t d a b lp => encC3 0x07#6 g (vtyBits t) d a b lp
  | .vmaxC3 g t d a b lp => encC3 0x08#6 g (vtyBits t) d a b lp
  | .vand g d a b lp => encC3 0x09#6 g 1#3 d a b lp
  | .vor g d a b lp => encC3 0x0A#6 g 1#3 d a b lp
  | .vxor g d a b lp => encC3 0x0B#6 g 1#3 d a b lp
  | .vshlC3 g t d a b lp => encC3 0x0C#6 g (vtyBits t) d a b lp
  | .vshrC3 g t d a b lp => encC3 0x0D#6 g (vtyBits t) d a b lp
  | .vsel g d a b lp => encC3 0x0E#6 g 1#3 d a b lp
  | .vcmp g pr a b c fp => encC 0x0F#6 g (pr ++ a.field ++ b.field ++ c ++ fpOrIntBits fp) (0#4 ++ a.mark ++ b.mark)
  | .vaddCs g t d a s lp => encCS 0x10#6 g t d a s lp
  | .vsubCs g t d a s lp => encCS 0x11#6 g t d a s lp
  | .vmulCs g t d a s lp => encCS 0x12#6 g t d a s lp
  | .vfmaCs g t d a s lp => encCS 0x13#6 g t d a s lp
  | .vminCs g t d a s lp => encCS 0x14#6 g t d a s lp
  | .vmaxCs g t d a s lp => encCS 0x15#6 g t d a s lp
  | .vshlCs g t d a s lp => encCS 0x16#6 g t d a s lp
  | .vshrCs g t d a s lp => encCS 0x17#6 g t d a s lp
  | .vcvt g d a src tgt r h =>
    encC 0x18#6 g (d.field ++ a.field ++ fmtBits src ++ fmtBits tgt ++ rndBits r ++ hadBits h)
      (0#3 ++ d.mark ++ a.mark ++ 0#1)
  | .vhad g fp d a h16 lp => encC3f 0x19#6 g (fpOrIntBits fp) d a (if h16 then 1#5 else 0#5) lp
  | .vred g fp op d a lp => encC3f 0x1A#6 g (fpOrIntBits fp) d a (redOpBits op) lp
  | .vperm g d a b lp => encC3 0x1B#6 g 1#3 d a b lp
  | .vbcast g t d s lp =>
    encC 0x1C#6 g (d.field ++ 0#5 ++ s ++ fld 0 4 lp ++ vty2Bits t) (fld 4 3 lp ++ d.mark ++ 0#2)
  | .vrcp g d a lp => encC3f 0x20#6 g 0#3 d a 0#5 lp
  | .vrsqrt g d a lp => encC3f 0x21#6 g 0#3 d a 0#5 lp
  | .vexp2 g d a lp => encC3f 0x22#6 g 0#3 d a 0#5 lp
  | .vlog2 g d a lp => encC3f 0x23#6 g 0#3 d a 0#5 lp
  | .stb g n b c sw => encC 0x28#6 g (n ++ b ++ c ++ sw ++ 0#10) 0#6
  | .stu g n => encC 0x29#6 g (n ++ 0#19) 0#6
  | .nopD g => encD 0x00#6 g 0#22 0#6
  | .mmLdw g x west k sw =>
    encD 0x01#6 g (x.field ++ (if west then 1#1 else 0#1) ++ k ++ sw ++ 0#12) (x.mark ++ 0#5)
  | .mm g t x k sw z k16 => encDT 0x02#6 g t x k sw (0#2 ++ z ++ k16)
  | .mmChain g td ta k sw k16 => encD 0x03#6 g (td ++ ta ++ k ++ sw ++ k16) 0#6
  | .mmZero g t i => encD 0x04#6 g (t ++ 0#9 ++ 0#3 ++ i) 0#6
  | .mmWb g t x k sw clr => encDT 0x05#6 g t x k sw (0#3 ++ clr)
  | .mmRd g t x k sw => encDT 0x06#6 g t x k sw 0#4
  | .mmRdSt g t x clr => encDT 0x06#6 g t (.s x) 0#2 0#1 (0#2 ++ clr ++ 1#1)
  | .mmFuse g j => encD 0x07#6 g (0#21 ++ j) 0#6
  | .paOpen g port y z kind => encD3 0x08#6 g (0#4 ++ port) y z (0#2 ++ paKindBits kind)
  | .paClose g port => encD3 0x09#6 g (0#4 ++ port) 0#6 0#6 0#4
  | .paApply g y z => encD3 0x0A#6 g 0#6 y z 0#4
  | .paInv g y z => encD3 0x0B#6 g 0#6 y z 0#4
  | .paComm g y z => encD3 0x0C#6 g 0#6 y z 0#4
  | .paXplant g x y z => encD3 0x0D#6 g x y z 0#4
  | .paSquash g y z => encD3 0x0E#6 g 0#6 y z 0#4
  | .paSnap g y clr => encD3 0x0F#6 g 0#6 y 0#6 (0#3 ++ clr)
  | .paDropPort g port => encD3 0x10#6 g (0#4 ++ port) 0#6 0#6 0#4
  | .paDropClosed g y z => encD3 0x10#6 g 0#6 y z 1#4
  | .paQuery g x y z => encD3 0x11#6 g x y z 0#4
  | .paNorm g x y f => encD3 0x12#6 g x y 0#6 f
  | .grLaunch g s y => encD3 0x18#6 g (0#3 ++ scopeBits s) y 0#6 0#4
  | .grArrive g m => encD3 0x19#6 g 0#6 0#6 0#6 m
  | .grCond g y z => encD3 0x1A#6 g 0#6 y z 0#4
  | .grDone g => encD3 0x1B#6 g 0#6 0#6 0#6 0#4
  | .segPromote g x y z => encD3 0x20#6 g x y z 0#4
  | .segPin g x y z => encD3 0x21#6 g x y z 0#4
  | .segUnpin g x y z => encD3 0x22#6 g x y z 0#4
  | .segDemote g x y z => encD3 0x23#6 g x y z 0#4
  | .segQuery g x y => encD3 0x24#6 g x y 0#6 0#4
  | _ => none

/-- The bundle that holds one encoded instruction, ends its group, and holds nops in its other slots: without a header
for slot A, with one for slots B, C and D. -/
def Encoded.bundle (e : Encoded) : BitVec 128 :=
  match e with
  | (.a, w, _) => 0#96 ++ w
  | (.b, w, x) => 0#64 ++ w ++ (6#3 ++ 0#2 ++ x ++ 0#18)
  | (.c, w, x) => 0#32 ++ w ++ 0#32 ++ (6#3 ++ 0#2 ++ 0#9 ++ x ++ 0#9)
  | (.d, w, x) => w ++ 0#64 ++ (6#3 ++ 0#2 ++ 0#18 ++ x)

/-- The slot and bundle of a slot instruction. -/
def encode (i : Instr) : Option (Slot × BitVec 128) := (encodeSlot i).map fun e => (e.1, Encoded.bundle e)

/-! ### Command descriptors (spec/22 R416, R419) -/

/-- How many operands a command has; nothing for an unknown opcode. -/
def cmdArity (op : Nat) : Option Nat :=
  match op with
  | 0x10 => some 8
  | 0x11 => some 3
  | 0x12 => some 3
  | 0x13 => some 4
  | 0x14 => some 3
  | 0x15 => some 3
  | 0x16 => some 3
  | 0x17 => some 1
  | 0x18 => some 2
  | 0x19 => some 3
  | 0x1A => some 1
  | 0x20 => some 6
  | 0x21 => some 2
  | 0x22 => some 1
  | 0x23 => some 1
  | 0x24 => some 1
  | 0x25 => some 1
  | 0x26 => some 2
  | 0x27 => some 1
  | 0x30 => some 3
  | 0x31 => some 1
  | 0x32 => some 2
  | 0x33 => some 2
  | 0x34 => some 2
  | 0x35 => some 1
  | 0x36 => some 1
  | 0x40 => some 3
  | 0x41 => some 9
  | 0x42 => some 3
  | 0x43 => some 3
  | 0x44 => some 4
  | 0x45 => some 2
  | 0x46 => some 2
  | 0x47 => some 7
  | 0x48 => some 2
  | 0x50 => some 6
  | 0x51 => some 2
  | 0x52 => some 2
  | 0x53 => some 5
  | 0x54 => some 6
  | 0x55 => some 1
  | 0x60 => some 2
  | 0x61 => some 1
  | 0x62 => some 5
  | 0x63 => some 3
  | 0x64 => some 2
  | 0x65 => some 2
  | 0x66 => some 2
  | 0x67 => some 1
  | 0x68 => some 3
  | 0x69 => some 1
  | 0x6A => some 0
  | 0x6B => some 3
  | _ => none

/-- The command of an opcode and its operands, given through the mailbox of function f. (Compiled Lean cannot build a
constructor numbered above 244, so this one is left to the kernel; the machine never needs it: `Machine.execCmd` runs a
descriptor, and a law says that it is exec of this.) -/
noncomputable def decodeCmd (f : Nat) (op : Nat) (ops : List Word) : Option Instr :=
  match op, ops with
  | 0x10, [ctx, owner, fring, flog, notify, grace, kill, ksl] => some (.ccreate f ctx owner fring flog notify grace kill ksl)
  | 0x11, [ctx, grace, kill] => some (.cset f ctx grace kill)
  | 0x12, [ctx, gh, addr] => some (.carea f ctx gh addr)
  | 0x13, [ctx, die, base, count] => some (.cwin f ctx die base count)
  | 0x14, [ctx, kind, lines] => some (.climit f ctx kind lines)
  | 0x15, [ctx, gh, grace] => some (.cpreempt f ctx gh grace)
  | 0x16, [ctx, seq, pc] => some (.cresume f ctx seq pc)
  | 0x17, [ctx] => some (.ckill f ctx)
  | 0x18, [slot, keys] => some (.ckey f slot keys)
  | 0x19, [ctx, list, count] => some (.cdestroy f ctx list count)
  | 0x1A, [ctx] => some (.cread f ctx)
  | 0x20, [n, ctx, prio, ring, lsize, cpool] => some (.qcreate f n ctx prio ring lsize cpool)
  | 0x21, [n, prio] => some (.qset f n prio)
  | 0x22, [n] => some (.qpause f n)
  | 0x23, [n] => some (.qresume f n)
  | 0x24, [n] => some (.qreset f n)
  | 0x25, [n] => some (.qdestroy f n)
  | 0x26, [owner, w] => some (.ownset f owner w)
  | 0x27, [n] => some (.qread f n)
  | 0x30, [core, mask, owner] => some (.gcreate f core mask owner)
  | 0x31, [gh] => some (.gdestroy f gh)
  | 0x32, [gh, ctx] => some (.gbind f gh ctx)
  | 0x33, [gh, ctx] => some (.gunbind f gh ctx)
  | 0x34, [gh, borrower] => some (.lend f gh borrower)
  | 0x35, [gh] => some (.recallGroup f gh)
  | 0x36, [gh] => some (.gread f gh)
  | 0x40, [ctx, root1, root2] => some (.vmroot f ctx root1 root2)
  | 0x41, [ctx, ipa, pa, size, r, w, x, nc, ksl] => some (.s2map f ctx ipa pa size r w x nc ksl)
  | 0x42, [ctx, ipa, size] => some (.s2unmap f ctx ipa size)
  | 0x43, [ctx, ipa, size] => some (.s2clean f ctx ipa size)
  | 0x44, [ctx, stage, base, len] => some (.tlbinv f ctx stage base len)
  | 0x45, [stack, size] => some (.frset f stack size)
  | 0x46, [ctx, quota] => some (.segquota f ctx quota)
  | 0x47, [die, vd, cls, mask, rp, wp, ap] => some (.mscset f die vd cls mask rp wp ap)
  | 0x48, [leaf, pa] => some (.hmove f leaf pa)
  | 0x50, [dec, hbase, size, pa, vd, tdi] => some (.hdmset f dec hbase size pa vd tdi)
  | 0x51, [vf, ctx] => some (.tdibind f vf ctx)
  | 0x52, [dev, table] => some (.lnkdom f dev table)
  | 0x53, [win, kind, target, size, vd] => some (.poolset f win kind target size vd)
  | 0x54, [switch, grp, n, span, dest, handle] => some (.swred f switch grp n span dest handle)
  | 0x55, [dev] => some (.domfault f dev)
  | 0x60, [owner, vf] => some (.ownnew f owner vf)
  | 0x61, [owner] => some (.owndel f owner)
  | 0x62, [cls, inst, off, len, buf] => some (.readback f cls inst off len buf)
  | 0x63, [owner, nonce, buf] => some (.usage f owner nonce buf)
  | 0x64, [buf, len] => some (.idget f buf len)
  | 0x65, [nonce, buf] => some (.attest f nonce buf)
  | 0x66, [key, buf] => some (.keyx f key buf)
  | 0x67, [buf] => some (.margin f buf)
  | 0x68, [buf, len, clear] => some (.errlog f buf len clear)
  | 0x69, [die] => some (.scrread f die)
  | 0x6A, [] => some (.fwinfo f)
  | 0x6B, [die, pa, count] => some (.halovf f die pa count)
  | _, _ => none

/-- The function, opcode and operands of a command. -/
def encodeCmd : Instr → Option (Nat × Nat × List Word)
  | .ccreate f ctx owner fring flog notify grace kill ksl => some (f, 0x10, [ctx, owner, fring, flog, notify, grace, kill, ksl])
  | .cset f ctx grace kill => some (f, 0x11, [ctx, grace, kill])
  | .carea f ctx gh addr => some (f, 0x12, [ctx, gh, addr])
  | .cwin f ctx die base count => some (f, 0x13, [ctx, die, base, count])
  | .climit f ctx kind lines => some (f, 0x14, [ctx, kind, lines])
  | .cpreempt f ctx gh grace => some (f, 0x15, [ctx, gh, grace])
  | .cresume f ctx seq pc => some (f, 0x16, [ctx, seq, pc])
  | .ckill f ctx => some (f, 0x17, [ctx])
  | .ckey f slot keys => some (f, 0x18, [slot, keys])
  | .cdestroy f ctx list count => some (f, 0x19, [ctx, list, count])
  | .cread f ctx => some (f, 0x1A, [ctx])
  | .qcreate f n ctx prio ring lsize cpool => some (f, 0x20, [n, ctx, prio, ring, lsize, cpool])
  | .qset f n prio => some (f, 0x21, [n, prio])
  | .qpause f n => some (f, 0x22, [n])
  | .qresume f n => some (f, 0x23, [n])
  | .qreset f n => some (f, 0x24, [n])
  | .qdestroy f n => some (f, 0x25, [n])
  | .ownset f owner w => some (f, 0x26, [owner, w])
  | .qread f n => some (f, 0x27, [n])
  | .gcreate f core mask owner => some (f, 0x30, [core, mask, owner])
  | .gdestroy f gh => some (f, 0x31, [gh])
  | .gbind f gh ctx => some (f, 0x32, [gh, ctx])
  | .gunbind f gh ctx => some (f, 0x33, [gh, ctx])
  | .lend f gh borrower => some (f, 0x34, [gh, borrower])
  | .recallGroup f gh => some (f, 0x35, [gh])
  | .gread f gh => some (f, 0x36, [gh])
  | .vmroot f ctx root1 root2 => some (f, 0x40, [ctx, root1, root2])
  | .s2map f ctx ipa pa size r w x nc ksl => some (f, 0x41, [ctx, ipa, pa, size, r, w, x, nc, ksl])
  | .s2unmap f ctx ipa size => some (f, 0x42, [ctx, ipa, size])
  | .s2clean f ctx ipa size => some (f, 0x43, [ctx, ipa, size])
  | .tlbinv f ctx stage base len => some (f, 0x44, [ctx, stage, base, len])
  | .frset f stack size => some (f, 0x45, [stack, size])
  | .segquota f ctx quota => some (f, 0x46, [ctx, quota])
  | .mscset f die vd cls mask rp wp ap => some (f, 0x47, [die, vd, cls, mask, rp, wp, ap])
  | .hmove f leaf pa => some (f, 0x48, [leaf, pa])
  | .hdmset f dec hbase size pa vd tdi => some (f, 0x50, [dec, hbase, size, pa, vd, tdi])
  | .tdibind f vf ctx => some (f, 0x51, [vf, ctx])
  | .lnkdom f dev table => some (f, 0x52, [dev, table])
  | .poolset f win kind target size vd => some (f, 0x53, [win, kind, target, size, vd])
  | .swred f switch grp n span dest handle => some (f, 0x54, [switch, grp, n, span, dest, handle])
  | .domfault f dev => some (f, 0x55, [dev])
  | .ownnew f owner vf => some (f, 0x60, [owner, vf])
  | .owndel f owner => some (f, 0x61, [owner])
  | .readback f cls inst off len buf => some (f, 0x62, [cls, inst, off, len, buf])
  | .usage f owner nonce buf => some (f, 0x63, [owner, nonce, buf])
  | .idget f buf len => some (f, 0x64, [buf, len])
  | .attest f nonce buf => some (f, 0x65, [nonce, buf])
  | .keyx f key buf => some (f, 0x66, [key, buf])
  | .margin f buf => some (f, 0x67, [buf])
  | .errlog f buf len clear => some (f, 0x68, [buf, len, clear])
  | .scrread f die => some (f, 0x69, [die])
  | .fwinfo f => some (f, 0x6A, [])
  | .halovf f die pa count => some (f, 0x6B, [die, pa, count])
  | _ => none

end Sys2Proof
end

