-- ==== Sys2Proof/Machine/State.lean ====
section
/-! DEFINITION. The state of the machine, as plain data, and the state after reset.

Sparse tables (`Tab`) hold only the entries that differ from what an absent key reads as: a register 0, a predicate 0, a
tile element 0, a byte 0, an object its reset value. Each field's docstring names the rule that gives it and its reset
value. -/

namespace Sys2Proof.Machine

/-- Reasons for which a step stops the machine. -/
inductive Fault where
  /-- Raised by `step` when its own cursor `cur` names a sequencer above 16 383, of which the module has none (spec/01 R7).
  Safe: no state that the machine reaches has such a cursor. -/
  | noSuchSequencer
  deriving DecidableEq, Repr

/-- Reasons for which the model gives an instruction no meaning. -/
inductive Refusal where
  /-- Raised by an arm of `exec` whose instruction has no meaning yet. Safe: nothing is proved of it. -/
  | notModelled (mnemonic : String)
  deriving DecidableEq, Repr

/-! ### Numbers -/

/-- An exact value of a number format: a NaN, an infinity, or ±m·2^e (spec/04 R88 to R92). Zeros keep their sign. -/
inductive Num where
  | nan
  | inf (neg : Bool)
  | fin (neg : Bool) (m : Nat) (e : Int)
  deriving DecidableEq, Repr

/-! ### A sequencer -/

/-- A c shape (spec/05 R123). -/
structure CShape where
  ctl : BitVec 5 := 0#5
  estride : BitVec 24 := 4#24
  count0 : BitVec 24 := 1#24
  count1 : BitVec 24 := 1#24
  count2 : BitVec 24 := 1#24
  count3 : BitVec 24 := 1#24
  stride0 : BitVec 40 := 0#40
  stride1 : BitVec 40 := 0#40
  stride2 : BitVec 40 := 0#40
  stride3 : BitVec 40 := 0#40
  deriving DecidableEq, Repr

/-- A k shape (spec/06 R137). -/
structure KShape where
  ctl : BitVec 2 := 0#2
  rows : BitVec 6 := 32#6
  row0 : BitVec 5 := 0#5
  col0 : BitVec 1 := 0#1
  rstride : BitVec 40 := 0#40
  scale : BitVec 32 := 0x3F800000#32
  clip : BitVec 32 := 0x7F800000#32
  deriving DecidableEq, Repr

/-- A trap with its code and its specific words, record words 4 to 7 (spec/16 R344, R347). -/
structure Trap where
  code : Nat
  w4 : Word := 0#64
  w5 : Word := 0#64
  w6 : Word := 0#64
  w7 : Word := 0#64
  deriving DecidableEq, Repr

/-- A vector in a stream's queue: its bytes, the bytes that are active, and whether a speculative region covers its
production (spec/05 R130, spec/03 R82). Of a vector that was read, `live` holds the bytes of the live banks, and `v` those that
the owner of an open region reads (spec/03 R83); of plain memory, `live` holds the bytes at their home, which the matrix engine
reads. `mxs` marks a vector that mm.wb or mm.rd gave (spec/06 R154). -/
structure SVec where
  v : BitVec 1024
  act : BitVec 128
  cov : Bool := false
  live : BitVec 1024 := v
  mxs : Bool := false
  deriving DecidableEq, Repr

/-- A stream register (spec/05 R128); unbound after reset and at a launch. -/
structure Stream where
  bound : Bool := false
  pat : CShape := {}
  base : Word := 0#64
  taken : Nat := 0
  pos : Nat := 0
  queue : List SVec := []
  fault : Option Trap := none
  deriving DecidableEq, Repr

/-- A level of the loop stack (spec/03 R52, R75). -/
structure Loop where
  start : Word
  last : Word
  n : Word
  stages : Nat
  t : Word
  saved : List (BitVec 32)
  deriving DecidableEq, Repr

/-- The speculation state of a sequencer: whether a region is open, the bundle that opened it, and a commit (true) or abort
that waits to take effect, with its bundle (spec/03 R52, R81, R82). -/
structure Region where
  isOpen : Bool := false
  since : Nat := 0
  fin : Option (Nat × Bool) := none
  deriving DecidableEq, Repr

/-- An executed bundle that some slot queue has not issued: its number in program order, its address, its bits, the queues
that issued it, and the D-time at which slot D issued it (spec/16 R339, spec/06 R147). -/
structure Win where
  bn : Nat
  addr : Word
  bits : BitVec 128
  mask : BitVec 4 := 0#4
  dt : Option Nat := none
  deriving DecidableEq, Repr

/-- What a slot of a bundle waits for before it is tried again: every earlier bundle and lower slot issued and completed, or
every other slot of its bundle as well (spec/16 R345, spec/03 R70, R75). -/
structure Late where
  bn : Nat
  slot : Nat
  alone : Bool
  deriving DecidableEq, Repr

/-- Where an awaited result goes. -/
inductive Dst where
  | s (n : BitVec 6)
  | v (n : BitVec 5)
  | drop
  deriving DecidableEq, Repr

/-- An awaited register result: a load, a patch read, a query or a divide whose value has been taken and not yet delivered
(spec/07 R163, spec/03 R63). Bytes of `v` outside `act` leave the register as it stands. `n` counts the memory requests it stands
for (spec/01 R11). -/
structure Out where
  k : Nat
  dst : Dst
  v : BitVec 1024
  act : BitVec 1024
  n : Nat := 0
  deriving DecidableEq, Repr

/-- The divide unit: the quotient in progress (spec/03 R52, R63, spec/22 R422). -/
structure DivUnit where
  dividend : Word
  divisor : Word
  signed : Bool
  dest : BitVec 6
  deriving DecidableEq, Repr

/-- One element of a store: address, size in bytes, value. -/
structure Elem where
  addr : Nat
  size : Nat
  data : Word
  deriving DecidableEq, Repr

/-- An operation that the Halyard of a home performs for a sequencer or a unit (spec/11 R263). -/
inductive HalOp where
  /-- Add to a pennant, after clearing its latch when clr is set (spec/11 R248). -/
  | add (h : BitVec 32) (v : Word) (clr : Bool)
  /-- A Halyard atomic or reduction on a virtual address; a returning one names its load-queue entry (spec/11 R260). -/
  | atomic (va : Word) (pa : Nat) (op : AtOp) (v : Word) (lq : Option Nat)
  /-- Compare and swap (spec/11 R261). -/
  | cas (va : Word) (pa : Nat) (x y : Word) (lq : Nat)
  /-- Write of a condition word (spec/12 R286). -/
  | cond (l n : Nat) (w : Word)
  deriving DecidableEq, Repr

/-- What an entry of a store queue does when it is performed (spec/07 R180). -/
inductive StoreAct where
  | plain (es : List Elem)
  | loc (es : List Elem) (cov : Bool)
  /-- A reduction at .cr or .cl. -/
  | red (va : Word) (op : AtOp) (v : Word)
  /-- An operation handed to a Halyard. -/
  | hal (op : HalOp)
  /-- A store that starts a copy and waits for its channel: the store's data, the channel's key, and the store's bundle (spec/12
  R297). -/
  | start (w : Word) (key : Nat) (addr : Word) (bits : BitVec 128)
  deriving DecidableEq, Repr

/-- An entry of a store queue, with the scope of a store that is a release. -/
structure StoreEnt where
  bn : Nat
  act : StoreAct
  rel : Option Scope := none
  deriving DecidableEq, Repr

/-- An entry of the load queue: an identifier, a result on its way, the result once it has arrived, and the register of an
lq.pop that took the entry before it arrived (spec/07 R181). -/
structure LqEnt where
  id : Nat
  coming : Option Word := none
  val : Option Word := none
  pop : Option (BitVec 6) := none
  deriving DecidableEq, Repr

/-- An atomic at .cr or .cl that has issued and not executed: op none is at.cas (spec/11 R260, R261). -/
structure ScopedAt where
  bn : Nat
  va : Word
  op : Option AtOp
  x : Word
  y : Word
  lq : Nat
  deriving DecidableEq, Repr

/-- A pn.wait or rb.await: handle, target, scope of the acquire, status predicate, and the register and value that an
rb.await sets when it succeeds (spec/11 R249, R256). -/
structure Ask where
  h : BitVec 32
  target : Word
  acq : Option Scope
  n : BitVec 7
  slot : Option (BitVec 6 × Word) := none
  deriving DecidableEq, Repr

/-- The answer to a pn.read or pn.test on its way from the pennant's home (spec/11 R250, R251). -/
inductive Answer where
  | reg (d : BitVec 6) (w : Word)
  | pair (p : BitVec 6) (reached : Bool) (n : BitVec 7) (met : Bool)
  deriving DecidableEq, Repr

/-- One entry of an mcas as captured (spec/11 R264, R265). -/
structure McasEnt where
  idx : Nat
  va : Word
  pa : Nat
  x : Word
  y : Word
  deriving DecidableEq, Repr

/-- An mcas in progress: entries in ascending physical address, the attempt and the cycle in which it began, how many of its
locks are held, whether it waits between attempts, and its result once decided (spec/11 R266, R267). -/
structure Mcas where
  ents : List McasEnt
  attempt : Nat := 0
  since : Nat := 0
  held : Nat := 0
  backoff : Bool := false
  result : Option Word := none
  lq : Nat
  deriving DecidableEq, Repr

/-- Buffer operations (spec/07 R168). -/
inductive BufOp where
  | decl (base lines : Nat) (spec : Bool) (own : BitVec 2)
  | fill | done | drain | free
  deriving DecidableEq, Repr

/-- What holds queue B (spec/08 R199, spec/11 R252 R265, spec/07 R169). -/
inductive Hold where
  | wait (a : Ask) (registered : Bool)
  | fence (s : Scope)
  | xfence (a b : PClass)
  | buf (d : BitVec 6) (op : BufOp)
  | mcas (m : Mcas)
  deriving DecidableEq, Repr

structure HoldB where
  bn : Nat
  addr : Word
  what : Hold
  deriving DecidableEq, Repr

/-- What holds queue D until its unit reports completion (spec/09 R224, spec/18 R385). -/
inductive HoldD where
  | patch
  | segment
  deriving DecidableEq, Repr

/-- A patch port (spec/09 R210): the record address, the context's entry number, and whether it is a view. -/
structure Port where
  record : Word
  entry : Nat
  view : Bool
  deriving DecidableEq, Repr

/-- A write of a tile that is not final or not complete: its region, and for each element in row order the values it may
be read as before finality, the last of them final (spec/06 R147, R148). -/
structure TileW where
  fin : Nat
  tile : Nat
  row0 : Nat
  rows : Nat
  col0 : Nat
  cols : Nat
  vals : List (List (BitVec 32))
  complete : Bool := false
  deriving DecidableEq, Repr

/-- An entry of the shadow result buffer (spec/16 R341): a region of a tile, its final values, and the D-time of finality;
the D-time of a saved sequencer does not move, so the distance is the difference. -/
structure Shadow where
  tile : Nat
  row0 : Nat
  rows : Nat
  col0 : Nat
  cols : Nat
  vals : List (BitVec 32)
  fin : Nat
  deriving DecidableEq, Repr

/-- Weights of the driven array: rows along K, the family that loaded them, and the format; none are zeros that serve every family
(spec/06 R142). -/
structure Weights where
  fam : Option Family := none
  w : List (List Num) := []
  fmt : Fmt := .bf16
  deriving DecidableEq, Repr

/-- cr.fmt: the value whose writes have taken effect, writes not yet in effect with their bundles, and flags raised with
their bundles (spec/02 R34, spec/04 R97, R101). A write is the fourteen format bits, and the flag bits of a sys.wr. -/
structure FmtState where
  base : BitVec 14 := 0#14
  flags : BitVec 4 := 0#4
  writes : List (Nat × BitVec 14 × Option (BitVec 4)) := []
  raises : List (Nat × BitVec 4) := []
  deriving DecidableEq, Repr

/-- The compute node a sequencer runs (spec/12 R287, R288). -/
structure NodeRun where
  launch : Nat
  node : Nat
  f : Nat
  raised : BitVec 4 := 0#4
  deriving DecidableEq, Repr

/-- States of a sequencer (spec/16 R345); a saved one stands in its context's image. One that the second rung halted runs on at
its context's next load (spec/16 R339). -/
inductive Mode where
  | idle | running | stopped | halted
  deriving DecidableEq, Repr

/-- A fault or halt record not yet written: kind, code, slot, addresses and specific words (spec/16 R346, R347). -/
structure Record where
  kind : Nat
  slot : Nat
  trap : Trap
  place : Word
  resume : Word
  cycle : BitVec 32
  /-- The place among the held records of the context, in the order in which the traps were taken (the model's own). -/
  ord : Nat := 0
  deriving DecidableEq, Repr

/-- The registers of a sequencer (spec/02 R35). Registers absent from a table read 0. -/
structure Regs where
  s : Tab Word := []
  v : Tab (BitVec 1024) := []
  p : Tab (BitVec 32) := []
  q : Tab Stream := []
  c : Tab CShape := []
  csh : Tab CShape := []
  k : Tab KShape := []
  ksh : Tab KShape := []
  deriving DecidableEq, Repr

/-- What a node of a launch left on its sequencer while nodes of another launch run there: registers, cr.fmt, ports and the load queue
(spec/12 R288). -/
structure Kept where
  r : Regs
  fmt : FmtState
  ports : Tab Port
  lq : List LqEnt
  deriving DecidableEq, Repr

/-- The control part of a sequencer (spec/03 R52). -/
structure Ctl where
  mode : Mode := .idle
  /-- The address of the next bundle in program order after the window (spec/02 R18). -/
  pc : Word := 0#64
  /-- The number of that bundle, counted in program order of executed bundles (spec/02 R30, R34). -/
  bn : Nat := 0
  window : List Win := []
  /-- The last bundle of the window ends its group, and its transfer or back edge has not been taken yet. -/
  turn : Option Nat := none
  /-- The target of a taken transfer in that bundle. -/
  redirect : Option Word := none
  /-- A loop was pushed at that bundle. -/
  pushed : Bool := false
  late : List Late := []
  /-- The first bundle of the window that a resumption has not fetched again (spec/16 R339). -/
  replay : Option Nat := none
  loops : List Loop := []
  region : Region := {}
  fmt : FmtState := {}
  cyc : Word := 0#64
  rsm : BitVec 32 := 0#32
  preq : Bool := false
  node : Option NodeRun := none
  queued : List NodeRun := []
  /-- The launch whose nodes last ran here (spec/12 R278 step 5). -/
  lastLaunch : Option Nat := none
  /-- What the nodes of other running launches left, by launch (spec/12 R288). -/
  kept : Tab Kept := []
  /-- Trap and halt records that are held, the oldest first (spec/16 R346). -/
  records : List Record := []
  resume : Option Word := none
  deriving DecidableEq, Repr

/-- What a sequencer has under way. -/
structure Flight where
  outs : List Out := []
  divu : Option DivUnit := none
  storeB : List StoreEnt := []
  storeC : List StoreEnt := []
  lq : List LqEnt := []
  lqNext : Nat := 0
  scopedAts : List ScopedAt := []
  asks : List Answer := []
  holdB : Option HoldB := none
  holdD : Option HoldD := none
  ports : Tab Port := []
  dtime : Nat := 0
  tiles : List TileW := []
  shadow : List Shadow := []
  weights : Weights := {}
  deriving DecidableEq, Repr

structure Seq where
  r : Regs := {}
  c : Ctl := {}
  f : Flight := {}
  deriving DecidableEq, Repr

/-! ### A core, a cluster, a die -/

/-- A line of an L1 or an L2: data, which bytes are present, which are dirty, the generation tag (L1), the context that
filled it, its recency, and (L2) whether it took dirty bytes after its last ownership (spec/07 R160, R161, spec/08 R186,
R189). `stale` marks a line of an L1 that an atomic of its core made stale, whatever its tag (spec/08 R193); `out` a line of an L2 that
has left its way and whose dirty bytes wait for their home (spec/11 R269, spec/20 R398). -/
structure CLine where
  data : BitVec 512
  have_ : BitVec 64
  dirty : BitVec 64
  tag : BitVec 16 := 0#16
  ctx : Nat := 0
  use_ : Nat := 0
  pend : Bool := false
  stale : Bool := false
  out : Bool := false
  deriving DecidableEq, Repr

/-- A line of an instruction cache, with its recency (spec/07 R162). -/
structure ILine where
  data : BitVec 512
  use_ : Nat := 0
  deriving DecidableEq, Repr

/-- A buffer descriptor (spec/07 R167). -/
structure Desc where
  lines : BitVec 15 := 0#15
  base : BitVec 14 := 0#14
  zeroing : Bool := false
  spec : Bool := false
  owner : BitVec 2 := 0#2
  state : BitVec 3 := 0#3
  deriving DecidableEq, Repr

/-- A copy of a channel: who started it, its template, its parameters, how far it has come (spec/12 R290 to R293). -/
structure Copy where
  ctx : Nat
  queue : Nat
  launch : Nat
  node : Option Nat
  q : Nat
  words : List Word
  jsrc : Nat
  jdst : Nat
  pos : Nat := 0
  /-- Bytes that the copy has overwritten, by place, as it found them (spec/12 R292). -/
  over_ : Tab Byte := []
  deriving DecidableEq, Repr

/-- A channel of a copy engine (spec/12 R296, R297). -/
structure Channel where
  copies : List Copy := []
  parked : Bool := false
  fault : Option Trap := none
  deriving DecidableEq, Repr

structure CoreSt where
  /-- Keyed by line × 65 536 + context. -/
  l1 : Tab CLine := []
  gen : BitVec 16 := 0#16
  /-- Keyed by line × 65 536 + context (spec/07 R162). -/
  icache : Tab ILine := []
  descs : Tab Desc := []
  /-- Scratchpad bytes by offset (spec/07 R157). -/
  spad : Mem := []
  /-- Scratchpad lines whose live-bank bit, and whose region bit, is set (spec/03 R80). -/
  live : List Nat := []
  region : List Nat := []
  /-- Tile elements by tile × 1 024 + row × 32 + column (spec/06 R143). -/
  acc : Tab (BitVec 32) := []
  tstat : Tab (BitVec 4) := []
  /-- Channels by group mask × 16 + channel (spec/15 R322). -/
  chans : Tab Channel := []
  /-- By quadrant, the group and the context last saved from it (spec/22 R420). -/
  saved : Tab (Nat × Nat) := []
  deriving DecidableEq, Repr

structure Cluster where
  l2 : Tab CLine := []
  /-- Scoped copies (spec/08 R193). -/
  scopedCopies : Tab CLine := []
  deriving DecidableEq, Repr

/-- A pennant (spec/11 R241, R244). -/
structure Pennant where
  count : Word := 0#64
  latch : Bool := false
  sat : Bool := false
  lcode : BitVec 8 := 0#8
  lsrc : BitVec 4 := 0#4
  deriving DecidableEq, Repr

/-- A line of a memory-side cache: way, filling context, sectors valid and dirty, recency (spec/18 R390). -/
structure MscLine where
  way : Nat
  ctx : Nat
  valid : BitVec 32
  dirty : BitVec 32
  use_ : Nat
  deriving DecidableEq, Repr

/-- Allocation of a virtual device and traffic class (spec/18 R391). -/
structure MscPol where
  mask : BitVec 16 := 0xFFFF#16
  rp : BitVec 2 := 0#2
  wp : BitVec 2 := 0#2
  ap : BitVec 2 := 0#2
  deriving DecidableEq, Repr

/-- A promoted row of a bank (spec/18 R382): slow row, fast row, context, pin, dirty. Lists hold the least recent first. -/
structure PromoRow where
  row : Nat
  fast : Nat
  ctx : Nat
  pin : Bool
  dirty : Bool
  deriving DecidableEq, Repr

/-- The progress register of a scrub engine (spec/16 R358). -/
structure Scrub where
  ctx : BitVec 16 := 0#16
  state : BitVec 2 := 0#2
  done : BitVec 22 := 0#22
  left : BitVec 22 := 0#22
  deriving DecidableEq, Repr

/-- A cached translation (spec/18 R371): context, page of the virtual address, its size, and both leaves with their levels. -/
structure TlbEnt where
  ctx : Nat
  va : Nat
  size : Nat
  ipa : Nat
  pa : Nat
  e1 : Word
  e2 : Word
  e2at : Nat
  lv1 : Nat := 4
  lv2 : Nat := 4
  deriving DecidableEq, Repr

/-- A page walk under way for a prefetch: the sequencer, its context, the address and the level that the prefetch names
(spec/01 R11, spec/07 R179). -/
structure Walk where
  q : Nat
  ctx : Nat
  va : Word
  lvl : CacheKind
  deriving DecidableEq, Repr

structure Die where
  pen : Tab Pennant := []
  /-- Overflow area: base and number of pennants (spec/11 R242). -/
  ovf : Option (Nat × Nat) := none
  /-- Sequencers whose waits are registered (spec/11 R252). -/
  waiters : List Nat := []
  /-- Lines locked by an mcas, with the sequencer that holds them (spec/11 R266). -/
  locks : Tab Nat := []
  /-- Keyed by row address PA[44:11]. -/
  msc : Tab MscLine := []
  /-- Keyed by virtual device × 8 + class. -/
  pol : Tab MscPol := []
  /-- F-region size in steps of 256 MiB (spec/18 R366). -/
  fr : Nat := 0
  /-- Promoted rows by bank. -/
  promo : Tab (List PromoRow) := []
  scrub : Scrub := {}
  tlb : List TlbEnt := []
  /-- Walks under way, at most 64 (spec/01 R11). -/
  walks : List Walk := []
  deriving DecidableEq, Repr

/-! ### Memory of the module and its neighbours -/

structure MemSys where
  /-- DRAM bytes by physical address; an unlisted byte reads 0 (DESIGN CHOICE, log 4). -/
  dram : Mem := []
  /-- Coherence bits by line; an unlisted line is in I (spec/18 R374). -/
  side : Tab (BitVec 16) := []
  /-- Poisoned lines, and lines with an uncorrectable data or side-band error not yet met (spec/18 R378 to R380). -/
  poison : List Nat := []
  badData : List Nat := []
  badSide : List Nat := []
  /-- The key slot generation that encrypted a line (spec/16 R355). -/
  key : Tab Nat := []
  /-- Lines whose recall waits for the host's response (spec/20 R398). -/
  bisnp : List Nat := []
  /-- Lines for which the host has answered such a recall, until the home request takes them. -/
  acked : List Nat := []
  /-- Host memory and pool memory, outside the module. -/
  host : Mem := []
  pool : Mem := []
  deriving DecidableEq, Repr

/-! ### Contexts, groups, queues, launches -/

/-- States of a context (spec/16 R333). -/
inductive CtxMode where
  | free | ready | active | killing | teardown
  deriving DecidableEq, Repr

/-- What a save leaves of a group (spec/16 R335, R341). -/
structure Image where
  mask : BitVec 4 := 0#4
  seqs : List Seq := []
  descs : Tab Desc := []
  spad : Mem := []
  live : List Nat := []
  region : List Nat := []
  acc : Tab (BitVec 32) := []
  tstat : Tab (BitVec 4) := []
  chans : Tab Channel := []
  joined : Bool := true
  /-- The rung that began the save, and what was left of its timers. -/
  rung : Nat := 0
  grace : Nat := 0
  kill : Nat := 0
  /-- The nodes that the walker held at the save, each in sixteen words (spec/22 R421, R423). -/
  walker : List (List Word) := []
  deriving DecidableEq, Repr

structure Ctx where
  mode : CtxMode := .free
  destroy : Bool := false
  owner : Nat := 0
  fring : Word := 0#64
  flog : Nat := 4
  notify : BitVec 32 := 0#32
  grace : BitVec 32 := 560000#32
  kill : BitVec 32 := 1260000#32
  ksl : Nat := 0
  root1 : Word := 0#64
  root2 : Word := 0#64
  /-- Save areas by group handle. -/
  areas : Tab Word := []
  /-- Pennant windows by die: base and count (spec/11 R243). -/
  wins : Tab (Nat × Nat) := []
  /-- Soft limits by cache kind: 0 L1, 1 L2, 2 memory-side cache (spec/07 R164). -/
  limits : Tab Nat := []
  quota : Nat := 0
  images : Tab Image := []
  scrubList : List (Nat × Nat) := []
  /-- Where the images of a context go whose load has begun on other groups than those it was saved on (spec/15 R328, spec/16 R353). -/
  moving : List (Nat × Nat) := []
  /-- Open patches whose ports the end of a launch unbound, with their groups (spec/09 R211, R236). -/
  left : List (Nat × Port) := []
  /-- Ports of open patches that the end of the context still has to drop, with their groups (spec/09 R236). -/
  drops : List (Nat × Port) := []
  deriving DecidableEq, Repr

/-- States of a group (spec/15 R323). -/
inductive GroupMode where
  | absent | idle | loading | running | saving | scrubbing
  deriving DecidableEq, Repr

structure Group where
  mode : GroupMode := .absent
  owner : Nat := 0
  borrower : Nat := 0
  ctx : Nat := 0
  dpend : Bool := false
  rpend : Bool := false
  lent : Bool := false
  joined : Bool := true
  bound : List Nat := []
  /-- Rung of pre-emption under way, 0 for none; the timers in force, and the cycles since the request (spec/16 R337, R338). -/
  rung : Nat := 0
  grace : Nat := 0
  kill : Nat := 0
  age : Nat := 0
  /-- A pre-emption asked for while the group was still loading, with its grace timer (spec/16 R334, CPREEMPT). -/
  asked : Option Nat := none
  /-- The class of the work for which the loaded context was chosen (spec/14 R316). -/
  cls : Nat := 0
  /-- The loaded context was chosen and has dispatched no launch since (spec/14 R441). -/
  held : Bool := false
  /-- The contexts chosen to be loaded here next, in their order, and the classes of their work (spec/14 R315, R441). -/
  next : List (Nat × Nat) := []
  /-- The context last saved from the group (spec/22 R420). -/
  last : Nat := 0
  deriving DecidableEq, Repr

/-- States of a queue (spec/14 R308). -/
inductive QMode where
  | free | active | paused | halted | draining
  deriving DecidableEq, Repr

structure Queue where
  mode : QMode := .free
  ctx : Nat := 0
  prio : Nat := 0
  /-- A prio that the next decision of R315 puts into effect (spec/14 R318). -/
  prioNext : Option Nat := none
  ring : Word := 0#64
  lsize : Nat := 4
  cpool : Nat := 0
  head : BitVec 32 := 0#32
  tail : BitVec 32 := 0#32
  rcode : BitVec 8 := 0#8
  eidx : BitVec 32 := 0#32
  /-- Launch blocks placed by gr.launch, with the parent (spec/12 R285). -/
  children : List (List Word) := []
  deriving DecidableEq, Repr

structure Owner where
  used : Bool := false
  fn : Nat := 255
  w : Nat := 1
  d : Int := 0
  qcyc : Word := 0#64
  rdb : Word := 0#64
  wrb : Word := 0#64
  lnkb : Word := 0#64
  saves : Word := 0#64
  deriving DecidableEq, Repr

/-- A node loaded in a walker (spec/12 R274, R281, R284). -/
structure Node where
  kind : Nat
  core : Nat
  /-- The die of its arrival pennant, which a migration leaves where it is (spec/16 R353). -/
  die : Nat
  q : Nat
  pred : Nat
  scope : Scope
  succ : List Nat
  arg : Word
  base : Word := 0#64
  f : Nat := 0
  w : Word := 0#64
  act : Nat := 0
  done : Nat := 0
  /-- The report of a latch that its walker has found, and whether it has been written (spec/12 R283). -/
  found : Option Record := none
  reported : Bool := false
  deriving DecidableEq, Repr

structure Launch where
  queue : Nat
  ctx : Nat
  params : Word
  code : Word
  abase : Nat
  tmpl : Word
  done : Word
  r : Nat
  used : Nat := 0
  exit : Nat
  nodes : List Node
  cores : List Nat
  deriving DecidableEq, Repr

/-! ### Masthead, the link and the module -/

/-- What the response of a command follows: the return of a recalled group to idle, the end of a destroyed group, the save of a
group, the end of a kill, or the teardown that comes after one (spec/15 R330, spec/22 R417, R421). -/
inductive MailWait where
  | recalled (gh : Nat)
  | destroyed (gh : Nat)
  | save (gh : Nat)
  | kill (ctx : Nat)
  | teardown (ctx : Nat)
  deriving DecidableEq, Repr

/-- A mailbox (spec/22 R415). -/
structure Mail where
  base : Word := 0#64
  lsize : BitVec 4 := 4#4
  tail : BitVec 32 := 0#32
  head : BitVec 32 := 0#32
  session : Nat := 0
  /-- What the command at the head of the ring still waits for (spec/22 R417). -/
  pend : Option MailWait := none
  deriving DecidableEq, Repr

/-- States of a key slot (spec/16 R354), with the identity of the key it holds. -/
inductive KeySlot where
  | empty | zeroising
  | loaded (key : Nat)
  deriving DecidableEq, Repr

/-- States of a TDI (spec/20 R400). -/
inductive TdiMode where
  | unlocked | locked | run | error
  deriving DecidableEq, Repr

structure Tdi where
  mode : TdiMode := .unlocked
  ctx : Option Nat := none
  regs : Tab Word := []
  deriving DecidableEq, Repr

structure Hdm where
  hbase : Word
  size : Word
  pa : Word
  vd : Nat
  tdi : Option Nat
  deriving DecidableEq, Repr

structure PortSt where
  trained : Option Peer := none
  deriving DecidableEq, Repr

structure Window where
  kind : Nat
  target : Word
  size : Word
  vd : Nat
  deriving DecidableEq, Repr

/-- A reduction group of a switch: its setup, the sum and count of each line of the round, and the lines written
(spec/20 R407). -/
structure RedGroup where
  n : Nat
  span : Word
  dest : Word
  handle : BitVec 32
  lines : Tab (Nat × BitVec 512) := []
  written : List Nat := []
  deriving DecidableEq, Repr

/-- An entry of the error log. -/
structure LogEnt where
  code : Nat
  info : Word
  deriving DecidableEq, Repr

structure Masthead where
  stage : BitVec 4 := 0#4
  berr : BitVec 8 := 0#8
  ready : Bool := false
  mail : Tab Mail := []
  keys : Tab KeySlot := []
  log : List LogEnt := []
  corrected : Nat := 0
  boot : Nat := 0
  seqno : Word := 0#64
  /-- Scrubs journalled in retention SRAM (spec/16 R360): context and the blocks left on each die. -/
  journal : List (Nat × List (Nat × Nat)) := []
  clk : Nat := 1400
  clkPlan : Nat := 1400
  spdm : List Word := []
  /-- Whether the last reset was a cold one, so that the journal is lost (spec/16 R360). -/
  cold : Bool := true
  deriving DecidableEq, Repr

/-- An answer to the host: the data of a MemRd, a poisoned read, the miss of a snoop, or a TDISP message accepted or answered
with an error (spec/20 R397 to R400). -/
inductive HostAnswer where
  | data (d : BitVec 512)
  | poison
  | miss
  | tdisp (ok : Bool)
  deriving DecidableEq, Repr

/-- What a request over a port carries: the requester's device, the virtual device, the context, the identifier, the address, and the
port that it took; none for one to the host (spec/20 R402). -/
structure LinkReq where
  dev : BitVec 3
  vd : Nat
  ctx : Nat
  id : Nat
  pa : Nat
  port : Option Nat
  deriving DecidableEq, Repr

structure Link where
  dev : BitVec 3 := 0#3
  domain : Option Nat := none
  routes : List (BitVec 16) := []
  ports : Tab PortSt := []
  unreachable : List Nat := []
  /-- The last request sent over a port; its identifier counts them. -/
  sent : Option LinkReq := none
  windows : Tab Window := []
  hdm : Tab Hdm := []
  tdi : Tab Tdi := []
  red : Tab RedGroup := []
  width : Option LinkWidth := none
  rate : Option LinkRate := none
  /-- Host writes that wait for the host's own answer to a BISnpInv (spec/20 R398). -/
  held : List Instr := []
  /-- Answers given to the host, newest first. -/
  answers : List HostAnswer := []
  deriving DecidableEq, Repr

/-- An operation under way at a Halyard: a number, the issuer, its context, the operation (spec/11 R263). -/
structure HalEnt where
  k : Nat
  q : Nat
  ctx : Nat
  op : HalOp
  deriving DecidableEq, Repr

/-- The instruction that exec runs: its sequencer, slot, bundle number and bundle address, and the slots of that sequencer
that have stalled since another one issued. The model's own. -/
structure Cur where
  seq : Nat := 0
  slot : Nat := 0
  bn : Nat := 0
  addr : Word := 0#64
  skip : List Nat := []
  deriving DecidableEq, Repr

/-- A status record that could not be written at once: its context, the sequencer and the source that it names, and the record
(spec/16 R346, R350, spec/18 R380). -/
structure Owed where
  ctx : Nat
  q : Nat
  src : Nat
  r : Record
  /-- It met a full ring: only the count of lost records is owed. -/
  lost : Bool := false
  deriving DecidableEq, Repr

/-- The machine. -/
structure State where
  /-- Events to run before any slot issues (the model's own; DESIGN CHOICE, log 1). -/
  agenda : List Instr := []
  latch : Option (Nat × Nat) := none
  cur : Cur := {}
  tick : Nat := 0
  /-- Cycles of the module, for timers that no group keeps (the model's own). -/
  clock : Nat := 0
  /-- Status records still to be written, the oldest first. -/
  owed : List Owed := []
  seqs : Tab Seq := []
  cores : Tab CoreSt := []
  clusters : Tab Cluster := []
  dies : Tab Die := []
  mem : MemSys := {}
  hal : List HalEnt := []
  ctxs : Tab Ctx := []
  groups : Tab Group := []
  queues : Tab Queue := []
  owners : Tab Owner := []
  /-- The owner served last in each class, and the queue served last of each owner (spec/14 R315). -/
  cursors : Tab Nat := []
  served : Tab Nat := []
  launches : Tab Launch := []
  mast : Masthead := {}
  link : Link := {}
  deriving DecidableEq, Repr

/-- The machine right after a cold reset. Every sequencer is idle, every cache empty, every object absent, and Masthead is
in stage 0 of its bring-up (spec/22 R428). Registers without a stated reset value hold 0 (DESIGN CHOICE, log 3); listed nowhere, memory
reads 0 (DESIGN CHOICE, log 4). -/
def State.reset : State := {}

end Sys2Proof.Machine
end

