-- ==== Sys2Proof/Machine/Tab.lean ====
section
/-! DEFINITION. Operations on sparse tables and sparse memories, and the canonical form of a memory. -/

namespace Sys2Proof

/-- The entry of a key, if any. -/
def Tab.get? {α : Type} : Tab α → Nat → Option α
  | [], _ => none
  | (k, v) :: t, n => if n = k then some v else Tab.get? t n

/-- The entry of a key, or the value that an absent key has. -/
def Tab.getD {α : Type} (t : Tab α) (n : Nat) (d : α) : α := (Tab.get? t n).getD d

/-- Set a key, keeping keys rising. -/
def Tab.put {α : Type} : Tab α → Nat → α → Tab α
  | [], n, x => [(n, x)]
  | (k, v) :: t, n, x =>
    if n = k then (n, x) :: t
    else if n < k then (n, x) :: (k, v) :: t
    else (k, v) :: Tab.put t n x

/-- Remove a key. -/
def Tab.erase {α : Type} : Tab α → Nat → Tab α
  | [], _ => []
  | (k, v) :: t, n => if n = k then Tab.erase t n else (k, v) :: Tab.erase t n

/-- Keep the entries that a test accepts. -/
def Tab.keep {α : Type} (t : Tab α) (f : Nat → α → Bool) : Tab α := t.filter fun e => f e.1 e.2

/-- Change every entry. -/
def Tab.mapv {α β : Type} (t : Tab α) (f : Nat → α → β) : Tab β := t.map fun e => (e.1, f e.1 e.2)

/-- Keys strictly rising, the first above a bound when there is one. -/
def Tab.rising {α : Type} : Option Nat → Tab α → Bool
  | _, [] => true
  | lo, (k, _) :: t => (match lo with | none => true | some l => decide (l < k)) && Tab.rising (some k) t

/-! ### Bytes -/

/-- A byte of memory; unlisted bytes read 0 (DESIGN CHOICE, log 4). -/
def Mem.get (m : Mem) (a : Nat) : Byte := Tab.getD m a 0#8

/-- Write a byte; writing what an unlisted address reads as removes the entry. -/
def Mem.set (m : Mem) (a : Nat) (b : Byte) : Mem := if b = 0#8 then Tab.erase m a else Tab.put m a b

/-- The canonical form: addresses strictly rising, no entry equal to 0. -/
def Mem.wf (m : Mem) : Bool := Tab.rising none m && m.all fun e => e.2 != 0#8

/-- Bytes a, a + 1, …, n of them. -/
def Mem.bytes (m : Mem) (a : Nat) : Nat → List Byte
  | 0 => []
  | n + 1 => Mem.get m a :: Mem.bytes m (a + 1) n

/-- Write bytes from a upward. -/
def Mem.write (m : Mem) (a : Nat) : List Byte → Mem
  | [] => m
  | b :: bs => Mem.write (Mem.set m a b) (a + 1) bs

/-- Write n zero bytes from a upward. -/
def Mem.zero (m : Mem) (a n : Nat) : Mem := m.filter fun e => !(a ≤ e.1 && e.1 < a + n)

/-- A little-endian value of bytes, the first least significant (spec/00 R1). -/
def leNat : List Byte → Nat
  | [] => 0
  | b :: bs => b.toNat + 256 * leNat bs

/-- n little-endian bytes of a value. -/
def leBytes : Nat → Nat → List Byte
  | _, 0 => []
  | v, n + 1 => BitVec.ofNat 8 v :: leBytes (v / 256) n

def Mem.word (m : Mem) (a : Nat) : Word := BitVec.ofNat 64 (leNat (Mem.bytes m a 8))
def Mem.setWord (m : Mem) (a : Nat) (w : Word) : Mem := Mem.write m a (leBytes w.toNat 8)

/-- The 64 bytes of a line. -/
def Mem.line (m : Mem) (l : Nat) : BitVec 512 := BitVec.ofNat 512 (leNat (Mem.bytes m (64 * l) 64))

/-! ### Lines and masks -/

/-- The mask of bytes lo to lo + n - 1 of a line. -/
def byteMask (lo n : Nat) : BitVec 64 := BitVec.ofNat 64 ((2 ^ n - 1) * 2 ^ lo)

/-- The bit mask of a byte mask, from byte i on. -/
def spreadNat (m : Nat) : Nat → Nat
  | 0 => 0
  | n + 1 => (if m % 2 = 1 then 255 else 0) + 256 * spreadNat (m / 2) n

def spread (m : BitVec 64) : BitVec 512 := BitVec.ofNat 512 (spreadNat m.toNat 64)

/-- Bytes of x where the mask is set, of y elsewhere. -/
def blend (m : BitVec 64) (x y : BitVec 512) : BitVec 512 := (x &&& spread m) ||| (y &&& ~~~ spread m)

/-- Place a value of n bytes at byte lo of a line. -/
def placeAt (lo : Nat) (v : Word) : BitVec 512 := (v.setWidth 512) <<< (8 * lo)

/-- Read n bytes at byte lo of a line, zero-extended. -/
def takeAt (d : BitVec 512) (lo n : Nat) : Word :=
  BitVec.ofNat 64 ((d.toNat / 2 ^ (8 * lo)) % 2 ^ (8 * n))

/-- Write the masked bytes of a line into memory. -/
def Mem.setLineFrom (m : Mem) (l : Nat) (d : Nat) (mask : Nat) : Nat → Nat → Mem
  | _, 0 => m
  | i, n + 1 =>
    let m1 := if mask % 2 = 1 then Mem.set m (64 * l + i) (BitVec.ofNat 8 d) else m
    Mem.setLineFrom m1 l (d / 256) (mask / 2) (i + 1) n

def Mem.setLine (m : Mem) (l : Nat) (d : BitVec 512) (mask : BitVec 64) : Mem :=
  Mem.setLineFrom m l d.toNat mask.toNat 0 64

end Sys2Proof
end

