-- ==== Sys2Proof/Machine/Regs.lean ====
section
/-! DEFINITION. Reading and writing the registers of a sequencer, each through one accessor, and the bookkeeping of issue. -/

namespace Sys2Proof.Machine

/-! ### Registers (spec/02 R35) -/

/-- s0 reads zero. -/
def Regs.getS (r : Regs) (n : BitVec 6) : Word := if n = 0#6 then 0#64 else Tab.getD r.s n.toNat 0#64

/-- A write to s0 is discarded. -/
def Regs.setS (r : Regs) (n : BitVec 6) (w : Word) : Regs :=
  if n = 0#6 then r else { r with s := Tab.put r.s n.toNat w }

/-- p0 is all ones. -/
def Regs.getP (r : Regs) (n : BitVec 7) : BitVec 32 := if n = 0#7 then 0xFFFFFFFF#32 else Tab.getD r.p n.toNat 0#32

/-- A write to p0 is discarded. -/
def Regs.setP (r : Regs) (n : BitVec 7) (x : BitVec 32) : Regs :=
  if n = 0#7 then r else { r with p := Tab.put r.p n.toNat x }

def Regs.getV (r : Regs) (n : BitVec 5) : BitVec 1024 := Tab.getD r.v n.toNat 0#1024
def Regs.setV (r : Regs) (n : BitVec 5) (x : BitVec 1024) : Regs := { r with v := Tab.put r.v n.toNat x }
def Regs.getQ (r : Regs) (n : BitVec 3) : Stream := Tab.getD r.q n.toNat {}
def Regs.setQ (r : Regs) (n : BitVec 3) (x : Stream) : Regs := { r with q := Tab.put r.q n.toNat x }
def Regs.getC (r : Regs) (n : BitVec 2) : CShape := Tab.getD r.c n.toNat {}
def Regs.getCsh (r : Regs) (n : BitVec 2) : CShape := Tab.getD r.csh n.toNat {}
def Regs.getK (r : Regs) (n : BitVec 2) : KShape := Tab.getD r.k n.toNat {}
def Regs.getKsh (r : Regs) (n : BitVec 2) : KShape := Tab.getD r.ksh n.toNat {}

/-- Exchange cN and cN.sh (spec/05 R125). -/
def Regs.swapC (r : Regs) (n : BitVec 2) : Regs :=
  { r with c := Tab.put r.c n.toNat (r.getCsh n), csh := Tab.put r.csh n.toNat (r.getC n) }

/-- Exchange kN and kN.sh (spec/06 R137). -/
def Regs.swapK (r : Regs) (n : BitVec 2) : Regs :=
  { r with k := Tab.put r.k n.toNat (r.getKsh n), ksh := Tab.put r.ksh n.toNat (r.getK n) }

/-! ### The parts of the machine -/

def State.seq (s : State) (q : Nat) : Seq := Tab.getD s.seqs q {}
def State.setSeq (s : State) (q : Nat) (x : Seq) : State := { s with seqs := Tab.put s.seqs q x }
def State.core (s : State) (c : Nat) : CoreSt := Tab.getD s.cores c {}
def State.setCore (s : State) (c : Nat) (x : CoreSt) : State := { s with cores := Tab.put s.cores c x }
def State.cluster (s : State) (c : Nat) : Cluster := Tab.getD s.clusters c {}
def State.setCluster (s : State) (c : Nat) (x : Cluster) : State := { s with clusters := Tab.put s.clusters c x }
def State.die (s : State) (d : Nat) : Die := Tab.getD s.dies d {}
def State.setDie (s : State) (d : Nat) (x : Die) : State := { s with dies := Tab.put s.dies d x }
def State.ctx (s : State) (c : Nat) : Ctx := Tab.getD s.ctxs c {}
def State.setCtx (s : State) (c : Nat) (x : Ctx) : State := { s with ctxs := Tab.put s.ctxs c x }
def State.group (s : State) (g : Nat) : Group := Tab.getD s.groups g {}
def State.setGroup (s : State) (g : Nat) (x : Group) : State := { s with groups := Tab.put s.groups g x }
def State.queue (s : State) (n : Nat) : Queue := Tab.getD s.queues n {}
def State.setQueue (s : State) (n : Nat) (x : Queue) : State := { s with queues := Tab.put s.queues n x }
def State.owner (s : State) (n : Nat) : Owner := Tab.getD s.owners n {}
def State.setOwner (s : State) (n : Nat) (x : Owner) : State := { s with owners := Tab.put s.owners n x }

/-- The core, cluster and die of a sequencer, and its quadrant (spec/01 R7). -/
def coreOf (q : Nat) : Nat := q / 4
def quadOf (q : Nat) : Nat := q % 4
def clusterOfCore (c : Nat) : Nat := c / 16
def dieOfCore (c : Nat) : Nat := c / 256
def clusterOf (q : Nat) : Nat := q / 64
def dieOf (q : Nat) : Nat := q / 1024

/-- The running instruction's sequencer. -/
def State.me (s : State) : Seq := s.seq s.cur.seq
def State.setMe (s : State) (x : Seq) : State := s.setSeq s.cur.seq x

def State.rs (s : State) (n : BitVec 6) : Word := s.me.r.getS n
def State.rp (s : State) (n : BitVec 7) : BitVec 32 := s.me.r.getP n
def State.rv (s : State) (n : BitVec 5) : BitVec 1024 := s.me.r.getV n
def State.ws (s : State) (n : BitVec 6) (w : Word) : State := s.setMe { s.me with r := s.me.r.setS n w }
def State.wp (s : State) (n : BitVec 7) (x : BitVec 32) : State := s.setMe { s.me with r := s.me.r.setP n x }
def State.wv (s : State) (n : BitVec 5) (x : BitVec 1024) : State := s.setMe { s.me with r := s.me.r.setV n x }
def State.setCtl (s : State) (c : Ctl) : State := s.setMe { s.me with c := c }
def State.setFlight (s : State) (f : Flight) : State := s.setMe { s.me with f := f }
def State.setRegs (s : State) (r : Regs) : State := s.setMe { s.me with r := r }

/-- The group of a quadrant: the handle whose mask holds it, and the group, while it is not absent (spec/15 R319, R320). -/
def State.groupOf (s : State) (q : Nat) : Option (Nat × Group) :=
  s.groups.findSome? fun e =>
    if e.1 / 16 = coreOf q && (e.1 % 16).testBit (quadOf q) && e.2.mode != .absent then some e else none

/-- The mask of a group handle. -/
def maskOf (gh : Nat) : Nat := gh % 16

/-- The quadrants of a mask in ascending order. -/
def quads (mask : Nat) : List Nat := [0, 1, 2, 3].filter fun q => mask.testBit q

/-- The sequencers of a group. -/
def groupSeqs (gh : Nat) : List Nat := (quads (maskOf gh)).map fun q => 4 * (gh / 16) + q

/-- The context loaded on a sequencer: its group's, while the group runs it or saves it. -/
def State.ctxOf (s : State) (q : Nat) : Nat :=
  match s.groupOf q with
  | some (_, g) => if g.mode = .running || g.mode = .saving then g.ctx else 0
  | none => 0

/-- Whether a quadrant belongs to a group that runs a context (spec/07 R158 step 3, R166). -/
def State.quadRuns (s : State) (core quad ctx : Nat) : Bool :=
  ctx != 0 && s.ctxOf (4 * core + quad) == ctx

/-! ### Guards (spec/02 R22) -/

def State.guardOn (s : State) (g : BitVec 7) : Bool := (s.rp g).getLsbD 0
/-- A slot-A guard names p0 to p15. -/
def State.guardA (s : State) (g : BitVec 4) : Bool := s.guardOn (g.setWidth 7)

/-! ### Issue bookkeeping -/

/-- Drop the leading bundles that every queue has issued (spec/16 R339: the window begins at the first that is not). -/
def dropIssued : List Win → List Win
  | [] => []
  | e :: t => if e.mask = 0xF#4 then dropIssued t else e :: t

/-- Mark the slot of a bundle as issued. -/
def markIssued (bn slot dtime : Nat) (e : Win) : Win :=
  if e.bn = bn then
    { e with mask := e.mask ||| (1#4 <<< slot), dt := if slot = 3 then some dtime else e.dt }
  else e

/-- Record that a slot of a bundle of a sequencer has issued; slot D adds its occupancy to D-time (spec/06 R146, R147). -/
def Seq.retire (x : Seq) (bn slot occ : Nat) : Seq :=
  { x with
    c := { x.c with
      window := dropIssued (x.c.window.map (markIssued bn slot x.f.dtime))
      late := x.c.late.filter fun l => !(l.bn == bn && l.slot == slot) }
    f := { x.f with dtime := if slot = 3 then x.f.dtime + occ else x.f.dtime } }

/-- The running slot instruction has issued. -/
def State.retireOcc (s : State) (occ : Nat) : State :=
  ({ s with cur := { s.cur with skip := [] } } : State).setMe (s.me.retire s.cur.bn s.cur.slot occ)
def State.retire (s : State) : State := s.retireOcc 1

/-- T(j) of a bundle: the D-time before its own slot D (spec/06 R147). -/
def Seq.timeAt (x : Seq) (bn : Nat) : Nat :=
  match x.c.window.find? fun e => e.bn == bn with
  | some e => e.dt.getD x.f.dtime
  | none => x.f.dtime

abbrev Result := Host.Outcome State Fault Refusal

end Sys2Proof.Machine
end

