-- ==== Sys2Proof/Machine/Cache.lean ====
section
/-! DEFINITION. Memory seen from the home of a line, the coherence bits, the memory-side cache, the cluster L2 and the L1
(spec/07 R160 to R165, spec/08 R186 to R194, spec/18 R374 to R380, R390, R391). -/

namespace Sys2Proof.Machine

/-! ### Physical addresses (spec/01 R13, spec/18 R365) -/

def lineOf (pa : Nat) : Nat := pa / 64
def paDev (pa : Nat) : Nat := pa / 2 ^ 49 % 8
def paDie (pa : Nat) : Nat := pa / 2 ^ 45 % 16
def paFast (pa : Nat) : Bool := pa.testBit 44
/-- PA[43:37], which must be zero. -/
def paRsv (pa : Nat) : Nat := pa / 2 ^ 37 % 128
def paOff (pa : Nat) : Nat := pa % 2 ^ 37
def paBank (pa : Nat) : Nat := pa / 2 ^ 11 % 1024
def paRow (pa : Nat) : Nat := paOff pa / 2 ^ 21

/-! ### Coherence bits (spec/18 R374, R375) -/

/-- The coherence states of a line. -/
abbrev csI : Nat := 0
abbrev csS : Nat := 1
abbrev csE : Nat := 2
abbrev csO : Nat := 3
abbrev csM : Nat := 4

/-- The side-band of a line, taken apart. -/
structure Side where
  ext : Nat
  dev : Nat
  die : Nat
  cl : Nat
  st : Nat
  deriving DecidableEq, Repr

def Side.ofBits (b : BitVec 16) : Side :=
  { ext := b.toNat / 2 ^ 14, dev := b.toNat / 2 ^ 11 % 8, die := b.toNat / 2 ^ 7 % 16, cl := b.toNat / 8 % 16,
    st := b.toNat % 8 }

def Side.bits (x : Side) : BitVec 16 :=
  BitVec.ofNat 16 (x.ext * 2 ^ 14 + x.dev * 2 ^ 11 + x.die * 2 ^ 7 + x.cl * 8 + x.st)

/-- The owner's cluster, counted in the module. -/
def Side.owner (x : Side) : Nat := x.die * 16 + x.cl

/-- The home die of an address in the table of dies; those of other modules come after this module's. -/
def State.homeDie (s : State) (pa : Nat) : Nat :=
  if paDev pa = s.link.dev.toNat then paDie pa else 16 * (1 + paDev pa) + paDie pa

/-- Promoted rows of a bank. -/
def State.promo (s : State) (die bank : Nat) : List PromoRow := Tab.getD (s.die die).promo bank []
def State.setPromo (s : State) (die bank : Nat) (rs : List PromoRow) : State :=
  s.setDie die { s.die die with
    promo := if rs.isEmpty then Tab.erase (s.die die).promo bank else Tab.put (s.die die).promo bank rs }

/-- An activation moves a promoted row to the most recent end; a write marks the fast copy dirty (spec/18 R382). -/
def State.activate (s : State) (pa : Nat) (write : Bool) : State :=
  if paFast pa then s
  else
    let rs := s.promo (s.homeDie pa) (paBank pa)
    match rs.find? fun r => r.row == paRow pa with
    | none => s
    | some r =>
      s.setPromo (s.homeDie pa) (paBank pa)
        ((rs.filter fun x => x.row != paRow pa) ++ [{ r with dirty := r.dirty || write }])

/-- The slow address of a promoted row of a bank, its stack named as in the table of dies. -/
def State.rowPa (s : State) (k bank : Nat) (r : PromoRow) : Nat :=
  let dev := if k < 16 then s.link.dev.toNat else k / 16 - 1
  dev * 2 ^ 49 + k % 16 * 2 ^ 45 + r.row * 2 ^ 21 + bank * 2 ^ 11

/-- Whether two ranges meet. -/
def overlap (a n b m : Nat) : Bool := a < b + m && b < a + n

/-- Writes to every line of a range mark the fast copies of its promoted rows dirty (spec/18 R382). -/
def State.rowsWrote (s : State) (pa n : Nat) : State :=
  { s with dies := s.dies.mapv fun d x => { x with
      promo := x.promo.mapv fun b rs => rs.map fun r => if overlap (s.rowPa d b r) 2048 pa n then { r with dirty := true } else r } }

/-- The side-band of a line at its home; a line never used is in I. -/
def State.sideBits (s : State) (l : Nat) : BitVec 16 := Tab.getD s.mem.side l 0#16
def State.side (s : State) (l : Nat) : Side := Side.ofBits (s.sideBits l)

/-- A write to a promoted row, which its fast copy takes (spec/18 R382). -/
def State.rowWrote (s : State) (pa : Nat) : State :=
  if paFast pa then s
  else
    s.setPromo (s.homeDie pa) (paBank pa)
      ((s.promo (s.homeDie pa) (paBank pa)).map fun r => if r.row = paRow pa then { r with dirty := true } else r)

/-- The row of a line in the memory-side cache of its die. -/
def mscRow (l : Nat) : Nat := l * 64 / 2 ^ 11 % 2 ^ 34

/-- The side-band of a line is written with its row: in the memory-side cache where that holds the sector, else in the bank
(spec/18 R377, R390). -/
def State.sideWrote (s : State) (l : Nat) : State :=
  let pa := l * 64
  let d := s.die (paDie pa)
  if paDev pa ≠ s.link.dev.toNat then s
  else
    match Tab.get? d.msc (mscRow l) with
    | some x =>
      if x.valid.getLsbD (l % 32) then
        s.setDie (paDie pa) { d with msc := Tab.put d.msc (mscRow l) { x with dirty := x.dirty ||| (1#32 <<< (l % 32)) } }
      else s.rowWrote pa
    | none => s.rowWrote pa

def State.setSide (s : State) (l : Nat) (x : Side) : State :=
  let s1 := s.sideWrote l
  { s1 with mem := { s1.mem with
      side := if x.bits = 0#16 then Tab.erase s1.mem.side l else Tab.put s1.mem.side l x.bits } }

/-- A line entering I takes owner and extent zero (spec/18 R376). -/
def State.setInvalid (s : State) (l : Nat) : State :=
  let s1 := s.sideWrote l
  { s1 with mem := { s1.mem with side := Tab.erase s1.mem.side l, acked := s1.mem.acked.filter (· != l) } }

/-- dist of two clusters of the module (spec/18 R375). -/
def distCl (a b : Nat) : Nat := if a / 16 = b / 16 then 0 else 1

/-- The side-band that names cluster r of this module as owner. -/
def State.ownedBy (s : State) (r ext st : Nat) : Side :=
  { ext := ext, dev := s.link.dev.toNat, die := r / 16, cl := r % 16, st := st }

/-! ### Data at the home -/

def State.setDram (s : State) (m : Mem) : State := { s with mem := { s.mem with dram := m } }

/-- An L2 line of a cluster. -/
def State.l2 (s : State) (cl l : Nat) : Option CLine := Tab.get? (s.cluster cl).l2 l

def State.setL2 (s : State) (cl l : Nat) (x : CLine) : State :=
  s.setCluster cl { s.cluster cl with l2 := Tab.put (s.cluster cl).l2 l x }

def State.dropL2 (s : State) (cl l : Nat) : State :=
  s.setCluster cl { s.cluster cl with l2 := Tab.erase (s.cluster cl).l2 l }

/-- The dirty bytes that the owner of a line in M or O holds (spec/18 R376). -/
def State.ownerDirty (s : State) (l : Nat) : BitVec 512 × BitVec 64 :=
  let x := s.side l
  if x.st = csM || x.st = csO then
    match s.l2 x.owner l with
    | some c => (c.data, c.dirty)
    | none => (0#512, 0#64)
  else (0#512, 0#64)

/-- The current data of a line: DRAM, with the bytes of an owner that holds it dirty. -/
def State.homeData (s : State) (l : Nat) : BitVec 512 :=
  let (d, m) := s.ownerDirty l
  if m = 0#64 then Mem.line s.mem.dram l else blend m d (Mem.line s.mem.dram l)

/-- n bytes from physical address a, as a non-caching agent reads them at the home: no state changes (spec/18 R376). -/
def State.engByte (s : State) (a : Nat) : Byte :=
  let (d, m) := s.ownerDirty (lineOf a)
  if m.getLsbD (a % 64) then d.extractLsb' (8 * (a % 64)) 8 else Mem.get s.mem.dram a

def State.engBytes (s : State) (a : Nat) : Nat → List Byte
  | 0 => []
  | n + 1 => s.engByte a :: s.engBytes (a + 1) n

def State.engWord (s : State) (a : Nat) : Word := BitVec.ofNat 64 (leNat (s.engBytes a 8))

/-- A copy that loses its line keeps only dirty bytes it never had ownership for: they are stores that no wider scope has
seen (spec/08 R189). -/
def invalidateLine (owned : Bool) (x : CLine) : Option CLine :=
  if owned || x.dirty = 0#64 then none else some { x with have_ := x.dirty }

/-- Invalidate a line in every L2 but one (spec/18 R375). -/
def State.invalidateL2 (s : State) (l : Nat) (but : Option Nat) : State :=
  let x := s.side l
  let own := x.st = csM || x.st = csO
  { s with clusters := s.clusters.map fun e =>
      if some e.1 = but then e
      else match Tab.get? e.2.l2 l with
        | none => e
        | some c =>
          match invalidateLine (own && x.owner == e.1) c with
          | none => (e.1, { e.2 with l2 := Tab.erase e.2.l2 l })
          | some c1 => (e.1, { e.2 with l2 := Tab.put e.2.l2 l c1 }) }

/-- Writing all 64 bytes at once clears a poison (spec/18 R379). -/
def State.clearPoison (s : State) (l : Nat) : State :=
  { s with mem := { s.mem with poison := s.mem.poison.filter (· != l), badData := s.mem.badData.filter (· != l) } }

/-- Dirty bytes of a cache are written to DRAM; a full mask clears a poison. -/
def State.writeBack (s : State) (l : Nat) (d : BitVec 512) (m : BitVec 64) : State :=
  if m = 0#64 then s
  else
    let s1 := s.setDram (Mem.setLine s.mem.dram l d m)
    if m = BitVec.allOnes 64 then s1.clearPoison l else s1

/-- The owner of a line in M or O writes it back: DRAM is rewritten, which mends data that it had lost (spec/18 R379). -/
def State.ownerBack (s : State) (l : Nat) (d : BitVec 512) (m : BitVec 64) : State :=
  let s1 := s.writeBack l d m
  if (s.side l).st == csM || (s.side l).st == csO then
    { s1 with mem := { s1.mem with badData := s1.mem.badData.filter (· != l) } }
  else s1

/-- Hal: the home takes the line for itself (spec/11 R262, spec/18 R376). -/
def State.homeHal (s : State) (l : Nat) : State :=
  let (d, m) := s.ownerDirty l
  ((s.ownerBack l d m).invalidateL2 l none).setInvalid l

/-- A write by a non-caching agent at the home (spec/18 R376). -/
def State.engWrite (s : State) (a : Nat) (bs : List Byte) : State :=
  let s1 := s.homeHal (lineOf a)
  s1.setDram (Mem.write s1.mem.dram a bs)

def State.engSetWord (s : State) (a : Nat) (w : Word) : State := s.engWrite a (leBytes w.toNat 8)

/-- A whole or masked line written by a non-caching agent. -/
def State.engLine (s : State) (l : Nat) (d : BitVec 512) (mask : BitVec 64) : State :=
  let s1 := s.homeHal l
  let s2 := if mask = BitVec.allOnes 64 then s1.clearPoison l else s1
  s2.setDram (Mem.setLine s2.mem.dram l d mask)

/-! ### Errors met at a home (spec/18 R376, R379, R380) -/

/-- An entry of Masthead's error log. -/
def State.logError (s : State) (code : Nat) (info : Word) : State :=
  { s with mast := { s.mast with log := s.mast.log ++ [{ code := code, info := info }] } }

/-- A reserved state or extent counts as a side-band error, and a line in X is in recovery. -/
def Side.reserved (x : Side) : Bool := x.ext == 3 || decide (5 ≤ x.st)

def State.sideBad (s : State) (l : Nat) : Bool := s.mem.badSide.contains l || (s.side l).reserved

/-- Whether the owner of a line supplies data that DRAM has lost. -/
def State.ownerSupplies (s : State) (l : Nat) : Bool := (s.side l).st == csM || (s.side l).st == csO

/-- Whether an access to a line meets an error at its home. -/
def State.homeBad (s : State) (l : Nat) : Bool :=
  s.sideBad l || (s.mem.badData.contains l && !s.ownerSupplies l) || s.mem.poison.contains l

/-- The side-band error of a line: every cluster L2 is asked, and one that holds it dirty supplies it, an owner's bytes before
stores that no scope has seen, and the data stands under fresh ECC; else it is poisoned; either way it is in I. Dirty bytes of the others stay theirs, as at any
invalidation (spec/18 R380). -/
def State.recoverSide (s : State) (l : Nat) : State × Option Nat :=
  let dirty := s.clusters.filterMap fun e =>
    match Tab.get? e.2.l2 l with
    | some c => if c.dirty != 0#64 then some (e.1, c) else none
    | none => none
  let s0 := { s with mem := { s.mem with badSide := s.mem.badSide.filter (· != l) } }
  let clear := fun (s : State) (but : Nat) =>
    ({ s with clusters := s.clusters.map fun (e : Nat × Cluster) =>
        match (Tab.get? e.2.l2 l).bind (invalidateLine (e.1 == but)) with
        | some c => (e.1, { e.2 with l2 := Tab.put e.2.l2 l c })
        | none => (e.1, { e.2 with l2 := Tab.erase e.2.l2 l }) } : State).setInvalid l
  match (dirty.find? fun e => !e.2.pend).orElse fun _ => dirty.head? with
  | some (cl, c) =>
    let s1 := s0.writeBack l c.data c.dirty
    (clear { s1 with mem := { s1.mem with badData := s1.mem.badData.filter (· != l) } } cl, some cl)
  | none => (clear { s0 with mem := { s0.mem with poison := l :: s0.mem.poison } } 0, none)

/-- What an access finds at the home of a line: nothing, a side-band recovered from a cluster or lost, a data error that poisons
the line now, or a poison. A lost or recovered side-band says whether it was a reserved value. -/
inductive HomeErr where
  | clean
  | recovered (cl : Nat) (rsv : Bool)
  | lost (rsv : Bool)
  | data
  | poisoned
  deriving DecidableEq, Repr

/-- The home meets the errors of a line; the owner of a line in M or O supplies data that DRAM has lost. -/
def State.meetHome (s : State) (l : Nat) : State × HomeErr :=
  let pa := BitVec.ofNat 64 (64 * l)
  if s.sideBad l then
    let rsv := !s.mem.badSide.contains l
    match s.recoverSide l with
    | (s1, some cl) => (s1.logError 0x51 pa, .recovered cl rsv)
    | (s1, none) => (s1.logError 0x51 pa, .lost rsv)
  else if s.mem.badData.contains l then
    if s.ownerSupplies l then (s, .clean)
    else
      let m := { s.mem with poison := l :: s.mem.poison, badData := s.mem.badData.filter (· != l) }
      (({ s with mem := m } : State).logError 0x50 pa, .data)
  else if s.mem.poison.contains l then (s, .poisoned)
  else (s, .clean)

/-- The status 0x51 of a side-band that a cluster recovered (spec/18 R381). -/
def State.recovered (s : State) (l cl : Nat) (rsv : Bool) : Trap :=
  { code := 0x51, w4 := BitVec.ofNat 64 (64 * l),
    w5 := BitVec.ofNat 64 (1 + (if rsv then 2 else 0) + 4 * ((s.ownedBy cl 0 0).bits.toNat / 8)) }

/-- The sequencer that a status of a context names: the lowest of a group that has it loaded (spec/16 R347). -/
def State.leadOf (s : State) (ctx : Nat) : Nat :=
  (s.groups.findSome? fun e =>
    if e.2.ctx = ctx && (e.2.mode = .running || e.2.mode = .saving) then (groupSeqs e.1).head? else none).getD 0

/-- A status record for a context, to be written as soon as it can be. -/
def State.owe (s : State) (ctx : Nat) (t : Trap) : State :=
  if ctx = 0 then s
  else { s with owed := s.owed ++ [{ ctx := ctx, q := s.leadOf ctx, src := 2,
                                     r := { kind := 2, slot := 7, trap := t, place := 0#64, resume := 0#64, cycle := 0#32 } }] }

/-- Whether the home of a line lies on a device that cannot be reached any more (spec/20 R404). -/
def State.lost (s : State) (l : Nat) : Bool := s.link.unreachable.contains (paDev (l * 64))

/-- What a write of class mem to such a line reports (spec/18 R381, spec/20 R404). -/
def lostTrap (l : Nat) : Trap := { code := 0x50, w4 := BitVec.ofNat 64 (64 * l), w5 := 34#64 }

/-- Dirty bytes of an L2 whose home cannot be reached are lost, and their context is told (DESIGN CHOICE, log 12). -/
def State.loseL2 (s : State) (r l : Nat) : State :=
  match s.l2 r l with
  | none => s
  | some c => (s.dropL2 r l).owe c.ctx (lostTrap l)

/-- The errors of a line that no instruction asks for, as an eviction meets them: a status where it was recovered, and a poison
that later reads meet. -/
def State.meetQuiet (s : State) (l ctx : Nat) : State :=
  match s.meetHome l with
  | (s1, .recovered cl rsv) => s1.owe ctx (s1.recovered l cl rsv)
  | (s1, _) => s1

/-! ### Keys of lines (spec/16 R355) -/

/-- The product of a tweak with α in GF(2^128), as XTS defines it: the standard's little-endian shift (PRESUMED, log 89). -/
def xtsAlpha (t : BitVec 128) : BitVec 128 := (t <<< 1) ^^^ if t.msb then 0x87#128 else 0#128

/-- The tweak of block j of a line: PA[51:6] under the second key, times α^j. -/
def xtsTweak (k l : Nat) : Nat → BitVec 128
  | 0 => Config.sm4 k true (BitVec.ofNat 128 (l % 2 ^ 46))
  | j + 1 => xtsAlpha (xtsTweak k l j)

/-- XTS of a line: its four 16-byte blocks pass a block function between two additions of their tweaks. -/
def xts (f : BitVec 128 → BitVec 128) (k l : Nat) (d : BitVec 512) : BitVec 512 :=
  let block := fun (j : Nat) => f (d.extractLsb' (128 * j) 128 ^^^ xtsTweak k l j) ^^^ xtsTweak k l j
  block 3 ++ block 2 ++ block 1 ++ block 0

/-- The ciphertext of a line under a key; key 0 is none. -/
def crypt (k l : Nat) (d : BitVec 512) : BitVec 512 := if k = 0 then d else xts (Config.sm4 k false) k l d
def decrypt (k l : Nat) (d : BitVec 512) : BitVec 512 := if k = 0 then d else xts (Config.sm4Inv k false) k l d

def State.keyOf (s : State) (l : Nat) : Nat := Tab.getD s.mem.key l 0

/-- DRAM holds ciphertext: the pair of a line's plaintext and its key stands for it. Seen through another key the same
ciphertext has another plaintext. -/
def State.rekey (s : State) (l k : Nat) : State :=
  if s.keyOf l = k then s
  else
    let d := decrypt k l (crypt (s.keyOf l) l (Mem.line s.mem.dram l))
    let s1 := s.setDram (Mem.setLine s.mem.dram l d (BitVec.allOnes 64))
    { s1 with mem := { s1.mem with key := if k = 0 then Tab.erase s1.mem.key l else Tab.put s1.mem.key l k } }

/-! ### Victims (spec/07 R164, R165) -/

/-- Lines held for a context. -/
def heldBy (ls : List CLine) (ctx : Nat) : Nat := (ls.filter fun c => c.ctx == ctx).length

/-- The least recently used of some keyed lines. -/
def oldest : List (Nat × CLine) → Option (Nat × CLine)
  | [] => none
  | e :: t =>
    match oldest t with
    | none => some e
    | some b => if e.2.use_ ≤ b.2.use_ then some e else some b

def State.limit (s : State) (ctx kind cap : Nat) : Nat := Tab.getD (s.ctx ctx).limits kind cap

/-- The victim among the lines of a full set: a stale line, then the filling context's own when it is above its limit,
then a line of any context above its limit, then the least recent. -/
def victim (inSet : List (Nat × CLine)) (stale : CLine → Bool) (above : Nat → Bool) (ctx : Nat) : Option (Nat × CLine) :=
  (oldest (inSet.filter fun e => stale e.2)).orElse fun _ =>
  (if above ctx then oldest (inSet.filter fun e => e.2.ctx == ctx) else none).orElse fun _ =>
  (oldest (inSet.filter fun e => above e.2.ctx)).orElse fun _ => oldest inSet

/-- One more than the recency of every line. -/
def nextUse (t : Tab CLine) : Nat := t.foldl (fun m e => max m (e.2.use_ + 1)) 0

/-! ### The memory-side cache (spec/18 R390, R391) -/

def State.pol (s : State) (die vd cls : Nat) : MscPol := Tab.getD (s.die die).pol (vd * 8 + cls) {}

/-- A way for a new line of a set: a free one in the mask, else that of the victim. -/
def freeWay (used : List Nat) (mask : BitVec 16) : Option Nat :=
  (List.range 16).find? fun w => mask.getLsbD w && !used.contains w

def mscOldest : List (Nat × MscLine) → Option (Nat × MscLine)
  | [] => none
  | e :: t =>
    match mscOldest t with
    | none => some e
    | some b => if e.2.use_ ≤ b.2.use_ then some e else some b

/-- What a usage counter counts (spec/22 R424). -/
inductive Traffic where
  | rd | wr | lnk
  deriving DecidableEq, Repr

/-- A saturating counter. -/
def satAdd (a : Word) (n : Nat) : Word := if a.toNat + n < 2 ^ 64 then a + BitVec.ofNat 64 n else BitVec.allOnes 64

/-- Count bytes for the owner of a context; what no context does counts for nobody. -/
def State.count (s : State) (ctx : Nat) (k : Traffic) (n : Nat) : State :=
  if ctx = 0 then s
  else
    let w := (s.ctx ctx).owner
    let o := s.owner w
    s.setOwner w (match k with
      | .rd => { o with rdb := satAdd o.rdb n }
      | .wr => { o with wrb := satAdd o.wrb n }
      | .lnk => { o with lnkb := satAdd o.lnkb n })

/-- Sectors of a mask. -/
def sectors (m : BitVec 32) : Nat := ((List.range 32).filter fun i => m.getLsbD i).length

/-- The first physical address of a die of the table of dies. -/
def State.diePa (s : State) (die : Nat) : Nat :=
  if die < 16 then s.link.dev.toNat * 2 ^ 49 + die * 2 ^ 45 else (die / 16 - 1) * 2 ^ 49 + die % 16 * 2 ^ 45

/-- A line leaves the memory-side cache: its dirty sectors go to DRAM. -/
def State.dropMsc (s : State) (die row : Nat) : State :=
  match Tab.get? (s.die die).msc row with
  | none => s
  | some x =>
    let s1 := if x.dirty = 0#32 then s else s.activate (s.diePa die + row % 2 ^ 34 * 2 ^ 11) true
    (s1.setDie die { s1.die die with msc := Tab.erase (s1.die die).msc row }).count x.ctx .wr (64 * sectors x.dirty)

/-- Whether a miss allocates nothing: policy 2, or a mask of zero (spec/18 R391). -/
def State.bypasses (s : State) (die vd cls : Nat) (write atomic : Bool) : Bool :=
  let p := s.pol die vd cls
  p.mask == 0#16 || (if atomic then p.ap else if write then p.wp else p.rp) == 2#2

/-- The trained port of a mask that a request takes, chosen by a hash of its address (spec/20 R402). -/
def State.portFor (s : State) (mask pa : Nat) : Option Nat :=
  let up := (s.link.ports.filter fun e => e.2.trained.isSome && mask.testBit e.1).map (·.1)
  up[Config.portHash (pa / 2 ^ 11 % 2 ^ 37) % up.length]?

/-- A request of a context over a port of a mask (spec/20 R402). -/
def State.sendLink (s : State) (vd ctx pa mask : Nat) : State :=
  let id := match s.link.sent with | some r => r.id + 1 | none => 0
  { s with link := { s.link with
      sent := some { dev := s.link.dev, vd := vd, ctx := ctx, id := id, pa := pa, port := s.portFor mask pa } } }

/-- An access of a line through the memory-side cache of a die, which counts what it moves: a hit is served in any way; a miss activates
the row and allocates as the policy of the virtual device says, and a write that it takes in has not reached the row (spec/18 R382). The predicted footprint changes only time and is the requested sector
(DESIGN CHOICE, log 8). -/
def State.mscAt (s : State) (die l vd ctx cls : Nat) (write atomic : Bool) : State :=
  let pa := l * 64
  let row := mscRow l
  let sec := l % 32
  let t := (s.die die).msc
  let use_ := t.foldl (fun m e => max m (e.2.use_ + 1)) 0
  let bit : BitVec 32 := 1#32 <<< sec
  let setD := fun (s : State) (x : MscLine) => s.setDie die { s.die die with msc := Tab.put (s.die die).msc row x }
  let dirty := fun (x : MscLine) => { x with dirty := if write then x.dirty ||| bit else x.dirty, use_ := use_ }
  let past := s.bypasses die vd cls write atomic
  let act := fun (wrote : Bool) => let s0 := s.activate pa wrote; if write then s0 else s0.count ctx .rd 64
  match Tab.get? t row with
  | some x =>
    if x.valid.getLsbD sec then setD s (dirty x)
    else
      let s1 := act (write && past)
      if past then if write then s1.count ctx .wr 64 else s1 else setD s1 (dirty { x with valid := x.valid ||| bit })
  | none =>
    let s1 := act (write && past)
    let p := s.pol die vd cls
    if past then if write then s1.count ctx .wr 64 else s1
    else
      let inSet := t.filter fun e => e.1 % 3072 == row % 3072
      let above := fun c => decide ((t.filter fun e => e.2.ctx == c).length > s.limit c 2 49152)
      let new := fun w => dirty { way := w, ctx := ctx, valid := bit, dirty := 0#32, use_ := use_ }
      match freeWay (inSet.map fun e => e.2.way) p.mask with
      | some w => setD s1 (new w)
      | none =>
        let cand := inSet.filter fun e => p.mask.getLsbD e.2.way
        let v := (if above ctx then mscOldest (cand.filter fun e => e.2.ctx == ctx) else none).orElse fun _ =>
          (mscOldest (cand.filter fun e => above e.2.ctx)).orElse fun _ => mscOldest cand
        match v with
        | none => s1
        | some (k, x) => setD (s1.dropMsc die k) (new x.way)

/-- An access of a line through the memory-side cache of its home; a home on another module is reached over the ports, and counts no bytes
of this module's stacks. What this module knows of the caches and rows over there is what its own accesses leave (DESIGN CHOICE, log 69). -/
def State.mscAccess (s : State) (l vd ctx cls : Nat) (write atomic : Bool) : State :=
  let pa := l * 64
  if paDev pa = s.link.dev.toNat then s.mscAt (paDie pa) l vd ctx cls write atomic
  else
    let s1 := s.mscAt (s.homeDie pa) l 0 0 cls write atomic
    (s1.sendLink vd ctx pa (s1.link.routes.getD (paDev pa) 0#16).toNat).count ctx .lnk 64

/-- An access for a context, whose owner is its virtual device. -/
def State.mscTouch (s : State) (l ctx cls : Nat) (write atomic : Bool) : State :=
  s.mscAccess l (s.ctx ctx).owner ctx cls write atomic

/-! ### Requests of a cluster L2 at the home (spec/18 R376) -/

/-- RdS: the side-band after a fill by cluster r, and the data. -/
def State.homeRdS (s : State) (l r : Nat) : State × BitVec 512 :=
  let x := s.side l
  let d := s.homeData l
  let ext := max x.ext (distCl x.owner r)
  let s1 :=
    if x.st = csI then s.setSide l (s.ownedBy r 0 csE)
    else if x.st = csS || x.st = csE then s.setSide l (s.ownedBy r ext csS)
    else s.setSide l { x with ext := ext, st := csO }
  (s1, d)

/-- RdX: every other holder is invalidated, a dirty owner hands its bytes over, and the line is in M with owner r. The
bytes that r already holds dirty stand over what it receives; a poisoned line brings no others. -/
def State.homeRdX (s0 : State) (l r ctx : Nat) : State :=
  let s := s0.meetQuiet l ctx
  let x := s.side l
  let d := s.homeData l
  let handed := if x.owner = r then 0#64 else (s.ownerDirty l).2
  let s1 := s.invalidateL2 l (some r)
  let mine : CLine := (s1.l2 r l).getD
    { data := 0#512, have_ := 0#64, dirty := 0#64, ctx := ctx, use_ := nextUse (s1.cluster r).l2 }
  let line : CLine :=
    { mine with data := blend mine.dirty mine.data d, dirty := mine.dirty ||| handed, pend := false,
                have_ := if s.mem.poison.contains l then mine.dirty ||| handed else BitVec.allOnes 64 }
  let s2 := ((s1.setL2 r l line).setSide l (s.ownedBy r 0 csM)).mscTouch l ctx 0 false false
  { s2 with mem := { s2.mem with acked := s2.mem.acked.filter (· != l) } }

/-- Whether cluster r holds a line in M. -/
def State.ownsM (s : State) (l r : Nat) : Bool :=
  let x := s.side l
  x.st == csM && x.owner == r

/-- Whether cluster r holds a line in M, or in O with no dirty bytes since: its stores are performed at the home (spec/08
R189). -/
def State.pushed (s : State) (l r : Nat) : Bool :=
  let x := s.side l
  x.owner == r && (x.st == csM || x.st == csO && match s.l2 r l with | some c => !c.pend | none => true)

/-- Ownership for what a line holds that is not pushed. -/
def State.ownPend (s : State) (l r ctx : Nat) : State := if s.pushed l r then s else s.homeRdX l r ctx

/-- WB: the owner writes its dirty bytes to DRAM and drops the line. -/
def State.homeWb (s : State) (l r : Nat) : State :=
  let x := s.side l
  match s.l2 r l with
  | none => s
  | some c =>
    if (x.st = csM || x.st = csO || x.st = csE) && x.owner = r then
      let s1 := ((s.ownerBack l c.data c.dirty).dropL2 r l).mscTouch l c.ctx 0 true false
      if x.st = csO then s1.setSide l { x with st := csS } else s1.setInvalid l
    else s

/-- A line leaves an L2: clean copies silently, dirty bytes under ownership. -/
def State.evictL2 (s : State) (r l : Nat) : State :=
  match s.l2 r l with
  | none => s
  | some c =>
    if c.dirty = 0#64 then s.dropL2 r l
    else if s.lost l then s.loseL2 r l
    else ((s.ownPend l r c.ctx).homeWb l r).dropL2 r l

/-- The L2 has 8 192 sets of 16 ways (spec/07 R161; the index of a set is the model's, DESIGN CHOICE, log 7). -/
def l2Sets : Nat := 8192

/-- The lines in the ways of a set of an L2. -/
def State.setOfL2 (s : State) (r l : Nat) : List (Nat × CLine) :=
  (s.cluster r).l2.filter fun e => e.1 % l2Sets == l % l2Sets && !e.2.out

/-- Whether some port of a mask has trained. -/
def State.portUp (s : State) (mask : Nat) : Bool := s.link.ports.any fun e => e.2.trained.isSome && mask.testBit e.1

/-- Whether a request to a device finds a port: this module's own homes need none (spec/20 R402). -/
def State.routed (s : State) (dev : Nat) : Bool :=
  dev == s.link.dev.toNat || s.portUp (s.link.routes.getD dev 0#16).toNat

/-- Lines whose ownership a request would take while the host may hold them (spec/20 R398). -/
def State.hostHeld (s : State) (l : Nat) : Bool := (s.side l).ext == 2 && !s.mem.acked.contains l

/-- Whether an mcas holds a line (spec/11 R266, R269). -/
def State.lockedLine (s : State) (l : Nat) : Bool := (Tab.get? (s.die (s.homeDie (l * 64))).locks l).isSome

/-- The home asks the host to give a line up. -/
def State.askHost (s : State) (l : Nat) : State :=
  { s with mem := { s.mem with bisnp := l :: s.mem.bisnp.filter (· != l) } }

/-- A line leaves its way, and its dirty bytes wait for their home. -/
def State.parkL2 (s : State) (r l : Nat) : State :=
  match s.l2 r l with
  | none => s
  | some c => s.setL2 r l { c with out := true }

/-- A line leaves an L2. One whose dirty bytes go to a line that an mcas or the host holds, or that no port reaches, leaves its way and waits
for its home (spec/11 R269, spec/20 R398; where it waits is the model's, DESIGN CHOICE, log 90). -/
def State.putOut (s : State) (r k : Nat) (c : CLine) : State :=
  if c.dirty = 0#64 || s.lost k then s.evictL2 r k
  else if s.lockedLine k || !s.routed (paDev (k * 64)) then s.parkL2 r k
  else if !s.pushed k r && s.hostHeld k then (s.askHost k).parkL2 r k
  else s.evictL2 r k

/-- Evict the victim of a full set. -/
def State.evictOne (s : State) (r l ctx : Nat) : State :=
  let t := (s.cluster r).l2
  let above := fun c => decide (heldBy (t.map (·.2)) c > s.limit c 1 131072)
  match victim (s.setOfL2 r l) (fun _ => false) above ctx with
  | none => s
  | some (k, c) => s.putOut r k c

/-- Make room in the set of a line. -/
def State.roomL2 (s : State) (r l ctx : Nat) : State :=
  (List.range ((s.setOfL2 r l).length - 15)).foldl (fun s _ => s.evictOne r l ctx) s

/-- Ownership of a line for a cluster, with room for it where the L2 does not hold it (spec/07 R161, R165). -/
def State.takeL2 (s : State) (l r ctx : Nat) : State :=
  (if (s.l2 r l).isSome then s else s.roomL2 r l ctx).homeRdX l r ctx

/-- Ownership for dirty bytes pushed outward (spec/08 R189). -/
def State.own (s : State) (l r ctx : Nat) : State := if s.ownsM l r then s else s.takeL2 l r ctx

/-- The bytes of a scoped copy stand over the L2's line for the reads of its own cluster (spec/08 R193; DEDUCED, log 31). -/
def State.overScoped (s : State) (r l : Nat) (d : BitVec 512) : BitVec 512 :=
  match Tab.get? (s.cluster r).scopedCopies l with
  | none => d
  | some c => blend c.dirty c.data d

/-- A read of a whole line through an L2, filled from the home on a miss. -/
def State.l2Read (s : State) (r l ctx : Nat) : State × BitVec 512 :=
  let t := (s.cluster r).l2
  match Tab.get? t l with
  | some c =>
    if c.have_ = BitVec.allOnes 64 then
      (s.setL2 r l { c with use_ := nextUse t }, s.overScoped r l c.data)
    else
      let (s1, d) := (s.homeRdS l r)
      let d1 := blend c.dirty c.data d
      ((s1.mscTouch l ctx 0 false false).setL2 r l { c with data := d1, have_ := BitVec.allOnes 64, use_ := nextUse t },
        s.overScoped r l d1)
  | none =>
    let s0 := s.roomL2 r l ctx
    let (s1, d) := s0.homeRdS l r
    ((s1.mscTouch l ctx 0 false false).setL2 r l
        { data := d, have_ := BitVec.allOnes 64, dirty := 0#64, ctx := ctx, use_ := nextUse t },
      s.overScoped r l d)

/-- Stored bytes that arrive in an L2 come after the values that a scoped copy of the line holds for them (spec/08 R190, R195;
DEDUCED, log 31). -/
def State.overCopy (s : State) (r l : Nat) (d : BitVec 512) (m : BitVec 64) : State :=
  match Tab.get? (s.cluster r).scopedCopies l with
  | none => s
  | some c =>
    let c1 : CLine := { c with data := blend (m &&& c.dirty) d c.data }
    s.setCluster r { s.cluster r with scopedCopies := Tab.put (s.cluster r).scopedCopies l c1 }

/-- Dirty bytes arrive in an L2 from an L1: no ownership yet. -/
def State.l2Merge (s : State) (r l ctx : Nat) (d : BitVec 512) (m : BitVec 64) : State :=
  if m = 0#64 then s
  else
    let s0 := State.overCopy (if (s.l2 r l).isSome then s else s.roomL2 r l ctx) r l d m
    let t := (s0.cluster r).l2
    let c : CLine := (Tab.get? t l).getD { data := 0#512, have_ := 0#64, dirty := 0#64, ctx := ctx }
    s0.setL2 r l { c with data := blend m d c.data, have_ := c.have_ ||| m, dirty := c.dirty ||| m, pend := true,
                           use_ := nextUse t }

/-! ### The L1 (spec/07 R160, spec/08 R186 to R188) -/

def l1Key (l ctx : Nat) : Nat := l * 65536 + ctx
/-- The L1 has 256 sets of 8 ways (the index of a set is the model's, DESIGN CHOICE, log 7). -/
def l1Sets : Nat := 256

def State.l1 (s : State) (c l ctx : Nat) : Option CLine := Tab.get? (s.core c).l1 (l1Key l ctx)
def State.setL1 (s : State) (c l ctx : Nat) (x : CLine) : State :=
  s.setCore c { s.core c with l1 := Tab.put (s.core c).l1 (l1Key l ctx) x }

/-- A line leaves an L1; its dirty bytes go to the L2. -/
def State.evictL1 (s : State) (c key : Nat) : State :=
  match Tab.get? (s.core c).l1 key with
  | none => s
  | some x =>
    let s1 := s.l2Merge (clusterOfCore c) (key / 65536) x.ctx x.data x.dirty
    s1.setCore c { s1.core c with l1 := Tab.erase (s1.core c).l1 key }

/-- Whether a line is fresh: its tag is the current word, and no atomic has made it stale (spec/08 R186, R193). -/
def CLine.fresh (x : CLine) (gen : BitVec 16) : Bool := x.tag == gen && !x.stale

/-- The dirty bytes of a line go to the L2 and the line is stale until it is filled again; its tag stays what it was (spec/08 R187, R193;
the mark beside the tag is the model's, DESIGN CHOICE, log 68). -/
def State.staleL1 (s : State) (c l ctx : Nat) : State :=
  match s.l1 c l ctx with
  | none => s
  | some x =>
    let y : CLine := { x with dirty := 0#64, stale := true }
    (s.l2Merge (clusterOfCore c) l x.ctx x.data x.dirty).setL1 c l ctx y

def State.roomL1 (s : State) (c l ctx : Nat) : State :=
  let t := (s.core c).l1
  let inSet := t.filter fun e => e.1 / 65536 % l1Sets == l % l1Sets
  if inSet.length < 8 then s
  else
    let gen := (s.core c).gen
    let above := fun x => decide (heldBy (t.map (·.2)) x > s.limit x 0 2048)
    match victim inSet (fun x => !x.fresh gen) above ctx with
    | none => s
    | some (k, _) => s.evictL1 c k

/-- Bring the needed bytes of a line into the L1, from a fresh or dirty copy, or from the L2 (spec/08 R187). -/
def State.l1Fill (s : State) (c l ctx : Nat) (need : BitVec 64) : State :=
  let t := (s.core c).l1
  let gen := (s.core c).gen
  match Tab.get? t (l1Key l ctx) with
  | some x =>
    if (x.fresh gen && need &&& ~~~ x.have_ == 0#64) || need &&& ~~~ x.dirty == 0#64 then
      s.setL1 c l ctx { x with use_ := nextUse t }
    else
      let (s1, d) := s.l2Read (clusterOfCore c) l ctx
      s1.setL1 c l ctx
        { x with data := blend x.dirty x.data d, have_ := BitVec.allOnes 64, tag := gen, stale := false, use_ := nextUse t }
  | none =>
    let s0 := s.roomL1 c l ctx
    let (s1, d) := s0.l2Read (clusterOfCore c) l ctx
    s1.setL1 c l ctx
      { data := d, have_ := BitVec.allOnes 64, dirty := 0#64, tag := gen, ctx := ctx, use_ := nextUse t }

/-- A read of n bytes at physical address pa through the L1; the bytes lie in one line. -/
def State.l1Read (s : State) (c ctx pa n : Nat) : State × Word :=
  let s1 := s.l1Fill c (lineOf pa) ctx (byteMask (pa % 64) n)
  match s1.l1 c (lineOf pa) ctx with
  | some x => (s1, takeAt x.data (pa % 64) n)
  | none => (s1, 0#64)

/-- A write of n bytes into the L1, marked dirty (spec/07 R176). -/
def State.l1Write (s : State) (c ctx pa n : Nat) (v : Word) : State :=
  let l := lineOf pa
  let m := byteMask (pa % 64) n
  let s0 := if (s.l1 c l ctx).isSome then s else s.roomL1 c l ctx
  let t := (s0.core c).l1
  let x : CLine := (Tab.get? t (l1Key l ctx)).getD
    { data := 0#512, have_ := 0#64, dirty := 0#64, tag := (s0.core c).gen, ctx := ctx }
  s0.setL1 c l ctx
    { x with data := blend m (placeAt (pa % 64) v) x.data, have_ := x.have_ ||| m, dirty := x.dirty ||| m,
             use_ := nextUse t }

/-- A read that bypasses the L1, as an acquire makes it: its own dirty bytes, else the L2's (spec/08 R189). -/
def State.acqRead (s : State) (c ctx pa n : Nat) : State × Word :=
  let l := lineOf pa
  let (s1, d) := s.l2Read (clusterOfCore c) l ctx
  let d1 := match s.l1 c l ctx with
    | some x => blend x.dirty x.data d
    | none => d
  (s1, takeAt d1 (pa % 64) n)

/-! ### Releases and acquires (spec/08 R185 to R189) -/

/-- Every dirty byte that a context left in an L1 goes to the L2. -/
def State.pushL1 (s : State) (c ctx : Nat) : State :=
  let t := (s.core c).l1
  let s1 := t.foldl (fun s e => if e.2.ctx == ctx then s.l2Merge (clusterOfCore c) (e.1 / 65536) ctx e.2.data e.2.dirty
    else s) s
  s1.setCore c { s1.core c with l1 := (s1.core c).l1.mapv fun _ x => if x.ctx == ctx then { x with dirty := 0#64 } else x }

/-- The dirty bytes of a scoped copy stand over the L2's own line, and the copy is retired. -/
def State.retireCopy (s : State) (r l : Nat) (c : CLine) (f : CLine → CLine) : State :=
  let s1 := if (s.l2 r l).isSome then s else s.roomL2 r l c.ctx
  let mine : CLine := (s1.l2 r l).getD
    { data := 0#512, have_ := 0#64, dirty := 0#64, ctx := c.ctx, use_ := nextUse (s1.cluster r).l2 }
  let s2 := s1.setL2 r l
    (f { mine with data := blend c.dirty c.data mine.data, have_ := mine.have_ ||| c.dirty, dirty := mine.dirty ||| c.dirty })
  s2.setCluster r { s2.cluster r with scopedCopies := Tab.erase (s2.cluster r).scopedCopies l }

/-- A scoped copy is written to the home and retired (spec/08 R193). -/
def State.scopedBack (s : State) (r l : Nat) : State :=
  match Tab.get? (s.cluster r).scopedCopies l with
  | none => s
  | some c =>
    if s.lost l then
      (s.setCluster r { s.cluster r with scopedCopies := Tab.erase (s.cluster r).scopedCopies l }).owe c.ctx (lostTrap l)
    else (s.own l r c.ctx).retireCopy r l c id

/-- A scoped copy whose home is kept from it leaves the ways with its bytes, which wait for their home. -/
def State.parkCopy (s : State) (r l : Nat) : State :=
  match Tab.get? (s.cluster r).scopedCopies l with
  | none => s
  | some c => s.retireCopy r l c fun x => { x with pend := true, out := true }

/-- A scoped copy leaves the ways, written to its home where nothing keeps it from there (DESIGN CHOICE, log 90). -/
def State.putOutCopy (s : State) (r k : Nat) : State :=
  if s.lost k || s.ownsM k r then s.scopedBack r k
  else if s.lockedLine k || !s.routed (paDev (k * 64)) then s.parkCopy r k
  else if s.hostHeld k then (s.askHost k).parkCopy r k
  else s.scopedBack r k

/-- Every line written in an L2 is taken into ownership (two contexts may have written one line), and every scoped copy of the
cluster is written. -/
def State.pushL2 (s : State) (r : Nat) : State :=
  let s1 := (s.cluster r).l2.foldl (fun s e =>
    if !e.2.pend then s else if s.lost e.1 then s.loseL2 r e.1 else s.ownPend e.1 r e.2.ctx) s
  (s1.cluster r).scopedCopies.foldl (fun s e => s.scopedBack r e.1) s1

/-- The outward part of a release at a scope, once the store queues have drained (spec/08 R189). -/
def State.release (s : State) (c ctx : Nat) (sc : Scope) : State :=
  match sc with
  | .cr => s
  | .cl => s.pushL1 c ctx
  | .di | .mo | .sy => (s.pushL1 c ctx).pushL2 (clusterOfCore c)

/-- The four-bit field of a scope in the generation word (spec/08 R186). -/
def genShift : Scope → Option Nat
  | .cr => none | .cl => some 0 | .di => some 4 | .mo => some 8 | .sy => some 12

/-- The L1 writes its dirty bytes outward and invalidates every line (spec/08 R188). -/
def State.flushL1 (s : State) (c : Nat) : State :=
  let t := (s.core c).l1
  let s1 := t.foldl (fun s e => s.l2Merge (clusterOfCore c) (e.1 / 65536) e.2.ctx e.2.data e.2.dirty) s
  s1.setCore c { s1.core c with l1 := [] }

/-- An acquire at a scope bumps its generation; a field that would wrap flushes the L1 first. -/
def State.bump (s : State) (c : Nat) (sc : Scope) : State :=
  match genShift sc with
  | none => s
  | some k =>
    let g := (s.core c).gen
    let fldv := g.toNat / 2 ^ k % 16
    let s1 := if fldv = 15 then s.flushL1 c else s
    let g1 := BitVec.ofNat 16 (g.toNat - fldv * 2 ^ k + (fldv + 1) % 16 * 2 ^ k)
    s1.setCore c { s1.core c with gen := g1 }

/-- The acquire at .sy with which a context resumes: all four generations (spec/08 R201). -/
def State.bumpAll (s : State) (c : Nat) : State := (((s.bump c .cl).bump c .di).bump c .mo).bump c .sy

end Sys2Proof.Machine
end

