-- ==== Sys2Proof/Machine/Translate.lean ====
section
/-! DEFINITION. Translation in two stages, with its traps (spec/18 R366 to R372, spec/20 R405), and errors met at a home
(spec/18 R378 to R381). -/

namespace Sys2Proof.Machine

/-! ### Kinds of access -/

/-- Path classes as the fault records and the policies code them (spec/08 R196, spec/16 R348). -/
abbrev pcMem : Nat := 0
abbrev pcCopy : Nat := 1
abbrev pcMxs : Nat := 2
abbrev pcPatch : Nat := 3
abbrev pcHal : Nat := 4
abbrev pcLink : Nat := 5
abbrev pcFetch : Nat := 6
abbrev pcSeg : Nat := 7

/-- An access as translation sees it. -/
structure Acc where
  cls : Nat
  write : Bool := false
  fetch : Bool := false
  tensor : Bool := false
  deriving DecidableEq, Repr

/-- The copy aperture (spec/12 R295). -/
def inAperture (a : Word) : Bool := a.toNat / 65536 == 0xFF00000000

/-- Words 4 to 6 of an address trap (spec/16 R348, spec/18 R370). -/
def addrTrap (code : Nat) (a : Word) (acc : Acc) (stage level : Nat) (ipa : Nat) : Trap :=
  { code := code, w4 := a,
    w5 := BitVec.ofNat 64 (acc.cls + (if acc.write then 8 else 0) + 16 * stage + 64 * level),
    w6 := BitVec.ofNat 64 ipa }

/-- A translation that succeeded. -/
structure Tr where
  pa : Nat
  ipa : Nat
  e1 : Word
  e2 : Word
  e2at : Nat
  size : Nat
  lv1 : Nat := 4
  lv2 : Nat := 4
  /-- The entries that its walk read, the last first. -/
  path : List Nat := []
  deriving DecidableEq, Repr

/-! ### Table entries (spec/18 R367 to R369) -/

def eV (e : Word) : Bool := e.getLsbD 0
def eT (e : Word) : Bool := e.getLsbD 1
def eR (e : Word) : Bool := e.getLsbD 2
def eW (e : Word) : Bool := e.getLsbD 3
def eX (e : Word) : Bool := e.getLsbD 4
/-- Stage 1: kind, 0 plain, 1 tensor. -/
def eKind (e : Word) : Nat := e.toNat / 32 % 4
/-- Stage 2: dirty, key slot, outside the coherence domain. -/
def eD (e : Word) : Bool := e.getLsbD 5
def eKsl (e : Word) : Nat := e.toNat / 2 ^ 52 % 128
def eNc (e : Word) : Bool := e.getLsbD 59
def eAddr (e : Word) : Nat := e.toNat / 256 % 2 ^ 44 * 256

def eReserved1 (e : Word) : Bool :=
  e.toNat / 2 ^ 52 != 0 || e.getLsbD 7 || (if eT e then eKind e != 0 else 2 ≤ eKind e)

def eReserved2 (e : Word) : Bool :=
  e.toNat / 2 ^ 60 != 0 || e.toNat / 64 % 4 != 0 ||
    (eT e && (eNc e || eKsl e != 0 || eD e || eX e || eW e || eR e))

/-- The index into a table of a level; stage 2 has sixteen entries at level 0. -/
def levelIndex (stage lv a : Nat) : Nat :=
  match lv with
  | 0 => a / 2 ^ 48 % (if stage = 1 then 256 else 16)
  | 1 => a / 2 ^ 39 % 512
  | 2 => a / 2 ^ 30 % 512
  | 3 => a / 2 ^ 21 % 512
  | _ => a / 2 ^ 16 % 32

/-! ### Fabric windows (spec/20 R405, R406) -/

/-- The address of a window byte at its target. A pool target holds its port mask in [63:48] and its base below, and bases name the bytes of
one pool, whatever ports lead there (DESIGN CHOICE, log 34). -/
def winAddr (w : Window) (off : Nat) : Nat := (if w.kind = 0 then w.target.toNat % 2 ^ 48 else w.target.toNat) + off

/-- A number for the byte that a translation names, the same however it is reached: one of the domain's memory, or of what stands behind a
window. -/
def State.byteNum (s : State) (t : Tr) : Nat :=
  if !eNc t.e2 then t.pa
  else match Tab.get? s.link.windows (t.pa / 2 ^ 48) with
    | some w => 2 ^ 72 * (1 + min w.kind 2) + winAddr w (t.pa % 2 ^ 48)
    | none => 2 ^ 75 + t.pa

/-- The ports by which a window is reached: the mask of a pool, the port of a reduction group (DESIGN CHOICE, log 34); none for the host. -/
def Window.ports (w : Window) : Nat :=
  match w.kind with
  | 0 => w.target.toNat / 2 ^ 48
  | 2 => 2 ^ (w.target.toNat / 256 % 256)
  | _ => 0

/-- n bytes pass through a window: a request of the window's virtual device, and the bytes of the context's owner (spec/20 R405,
spec/22 R424). -/
def State.winTraffic (s : State) (ctx pa n : Nat) : State :=
  match Tab.get? s.link.windows (pa / 2 ^ 48) with
  | none => s
  | some w => (s.sendLink w.vd ctx pa w.ports).count ctx .lnk n

/-- Bytes read through a window. No rule gives what a reduction group reads as (DESIGN CHOICE, log 2). -/
def State.ncBytes (s : State) (pa n : Nat) : List Byte :=
  match Tab.get? s.link.windows (pa / 2 ^ 48) with
  | none => []
  | some w =>
    let a := winAddr w (pa % 2 ^ 48)
    if w.kind = 1 then Mem.bytes s.mem.host a n
    else if w.kind = 0 then Mem.bytes s.mem.pool a n
    else (List.range n).map fun i => Config.freeByte (s.tick * 2 ^ 64 + i)

/-- A read of n bytes through a window. -/
def State.ncRead (s : State) (pa n : Nat) : Word := BitVec.ofNat 64 (leNat (s.ncBytes pa n))

/-- What a leaf of a level maps. -/
def leafSize (lv : Nat) : Nat :=
  match lv with
  | 2 => 2 ^ 30
  | 3 => 2 ^ 21
  | _ => 2 ^ 16

/-- What a walk reaches: an address, the entry, where it lies, its level, and the entries read. -/
structure Leaf where
  addr : Nat
  e : Word
  at_ : Nat
  lv : Nat
  path : List Nat
  deriving DecidableEq, Repr

/-- The end of a walk: a fault of a stage and level, with the intermediate address and whether the leaf names a window; an error of
a line that holds an entry; an entry on a device that cannot be reached; or one to which no port has trained, for which the walk waits. -/
inductive WalkFault where
  | fault (stage level ipa : Nat) (nc : Bool)
  | line (l : Nat)
  | away (pa : Nat)
  | held (pa : Nat)
  deriving DecidableEq, Repr

/-- An entry at a physical address, as the walker reads it at the home, over a trained port where that is another device's (spec/18 R370,
R376, spec/20 R402). -/
def State.entryAt (s : State) (pa : Nat) : Except WalkFault Word :=
  if s.link.unreachable.contains (paDev pa) then .error (.away pa)
  else if !s.routed (paDev pa) then .error (.held pa)
  else if s.homeBad (lineOf pa) then .error (.line (lineOf pa))
  else .ok (s.engWord pa)

/-- Whether an entry of a stage at a level faults: not valid, a reserved field, a table at level 4, a leaf above level 2, or a leaf
whose address is not aligned. -/
def entryBad (rsv : Word → Bool) (lv : Nat) (e : Word) : Bool :=
  !eV e || rsv e || (eT e && lv == 4) || (!eT e && lv < 2) || (!eT e && eAddr e % leafSize lv != 0)

/-- Stage 2: from an intermediate address to a physical one (spec/18 R370). -/
def State.stage2 (s : State) (t a lv : Nat) (path : List Nat) : Nat → Except WalkFault Leaf
  | 0 => .error (.fault 2 lv a false)
  | fuel + 1 =>
    let at_ := t + 8 * levelIndex 2 lv a
    match s.entryAt at_ with
    | .error f => .error f
    | .ok e =>
      if entryBad eReserved2 lv e then .error (.fault 2 lv a (eNc e))
      else if eT e then s.stage2 (eAddr e) a (lv + 1) (at_ :: path) fuel
      else .ok { addr := eAddr e + a % leafSize lv, e := e, at_ := at_, lv := lv, path := at_ :: path }

/-- Modules of the coherence domain: this one, and those the route table reaches (spec/20 R402). -/
def State.inDomain (s : State) (dev : Nat) : Bool :=
  dev == s.link.dev.toNat || (s.link.domain.isSome && (s.link.routes.getD dev 0#16) != 0#16)

/-- Whether a request through a window finds a port; one to the host needs none (spec/20 R405). -/
def State.winReady (s : State) (pa : Nat) : Bool :=
  match Tab.get? s.link.windows (pa / 2 ^ 48) with
  | none => true
  | some w => w.kind == 1 || s.portUp w.ports

/-- The physical checks made at the walk (spec/18 R366, spec/20 R405). -/
def State.leafOk (s : State) (pa : Nat) (e : Word) : Bool :=
  if eNc e then (Tab.get? s.link.windows (pa / 2 ^ 48)).isSome
  else paRsv pa == 0 && s.inDomain (paDev pa)

/-- The steps of 256 MiB in the F-region of the stack that an address names: this module's own, or as another module has set its own
(spec/18 R366; what a module outside has set is a free value, DESIGN CHOICE, log 91). -/
def State.frOf (s : State) (pa : Nat) : Nat :=
  if paDev pa = s.link.dev.toNat then (s.die (paDie pa)).fr else min 16 (Config.peerFr (paDev pa) (paDie pa))

/-- Whether an F-region or window offset exists (spec/18 R366, spec/20 R405). -/
def State.offsetOk (s : State) (pa : Nat) (e : Word) : Bool :=
  if eNc e then
    match Tab.get? s.link.windows (pa / 2 ^ 48) with
    | some w => pa % 2 ^ 48 < w.size.toNat
    | none => false
  else if paFast pa then paOff pa < s.frOf pa * 2 ^ 28
  else true

/-- An entry of a stage-1 table, whose own address stage 2 translates first, with the physical checks of any access. -/
def State.entry1 (s : State) (root2 at_ : Nat) (path : List Nat) : Except WalkFault (Word × List Nat) :=
  match s.stage2 root2 at_ 0 path 5 with
  | .error f => .error f
  | .ok x =>
    if !s.leafOk x.addr x.e || !s.offsetOk x.addr x.e then .error (.fault 2 7 at_ (eNc x.e))
    else if eNc x.e then (if s.winReady x.addr then .ok (s.ncRead x.addr 8, x.path) else .error (.held x.addr))
    else
      match s.entryAt x.addr with
      | .error f => .error f
      | .ok e => .ok (e, x.addr :: x.path)

/-- Stage 1: from a virtual address to an intermediate one. -/
def State.stage1 (s : State) (root2 t a lv : Nat) (path : List Nat) : Nat → Except WalkFault Leaf
  | 0 => .error (.fault 1 lv 0 false)
  | fuel + 1 =>
    let at_ := t + 8 * levelIndex 1 lv a
    match s.entry1 root2 at_ path with
    | .error f => .error f
    | .ok (e, p) =>
      if entryBad eReserved1 lv e then .error (.fault 1 lv 0 false)
      else if eT e then s.stage1 root2 (eAddr e) a (lv + 1) p fuel
      else .ok { addr := eAddr e + a % leafSize lv, e := e, at_ := at_, lv := lv, path := p }

/-- A whole walk (spec/18 R370). -/
def State.walk (s : State) (ctx : Nat) (va : Word) : Except WalkFault Tr :=
  let c := s.ctx ctx
  match s.stage1 c.root2.toNat c.root1.toNat va.toNat 0 [] 5 with
  | .error f => .error f
  | .ok x =>
    match s.stage2 c.root2.toNat x.addr 0 x.path 5 with
    | .error f => .error f
    | .ok y =>
      if s.leafOk y.addr y.e then
        .ok { pa := y.addr, ipa := x.addr, e1 := x.e, e2 := y.e, e2at := y.at_, size := min (leafSize x.lv) (leafSize y.lv),
              lv1 := x.lv, lv2 := y.lv, path := y.path }
      else .error (.fault 2 7 x.addr (eNc y.e))

/-- A cached translation of an address (spec/18 R371). -/
def State.tlbFind (s : State) (die ctx : Nat) (va : Word) : Option TlbEnt :=
  (s.die die).tlb.find? fun e => e.ctx == ctx && e.va ≤ va.toNat && va.toNat < e.va + e.size

def TlbEnt.tr (e : TlbEnt) (va : Word) : Tr :=
  let o := va.toNat - e.va
  { pa := e.pa + o, ipa := e.ipa + o, e1 := e.e1, e2 := e.e2, e2at := e.e2at, size := e.size, lv1 := e.lv1, lv2 := e.lv2 }

def Tr.entry (t : Tr) (ctx : Nat) (va : Word) : TlbEnt :=
  let o := va.toNat % t.size
  { ctx := ctx, va := va.toNat - o, size := t.size, ipa := t.ipa - o, pa := t.pa - o, e1 := t.e1, e2 := t.e2,
    e2at := t.e2at, lv1 := t.lv1, lv2 := t.lv2 }

def State.tlbAdd (s : State) (die ctx : Nat) (va : Word) (t : Tr) : State :=
  s.setDie die { s.die die with tlb := t.entry ctx va :: (s.die die).tlb }

/-- The entries that a walk reads pass the memory-side caches of their homes (spec/18 R376, R382). -/
def State.touchPath (s : State) (ctx : Nat) (t : Tr) : State :=
  t.path.foldl (fun s pa => s.mscTouch (lineOf pa) ctx pcMem false false) s

/-- Whether an access needs a walk: no translation is cached, or it is a write and D is 0 (spec/18 R371, R372). -/
def State.needsWalk (s : State) (die ctx : Nat) (va : Word) (write : Bool) : Bool :=
  match s.tlbFind die ctx va with
  | some e => write && !eD e.e2 && !eNc e.e2
  | none => true

/-- Whether an access waits for its walk, an entry of which no port reaches (spec/20 R402). -/
def State.walkHeld (s : State) (die ctx : Nat) (va : Word) (write : Bool) : Bool :=
  s.needsWalk die ctx va write && match s.walk ctx va with
    | .error (.held _) => true
    | _ => false

/-- A walk whose translation is cached; a walk that faults caches nothing. -/
def State.walked (s : State) (die ctx : Nat) (va : Word) : State × Except WalkFault Tr :=
  match s.walk ctx va with
  | .ok t => ((s.touchPath ctx t).tlbAdd die ctx va t, .ok t)
  | .error f => (s, .error f)

/-- A translation from the TLB of a die, or walked and cached (spec/18 R371, R372). -/
def State.lookup (s : State) (die ctx : Nat) (va : Word) (write : Bool) : State × Except WalkFault Tr :=
  match s.tlbFind die ctx va with
  | some e => if write && !eD e.e2 && !eNc e.e2 then s.walked die ctx va else (s, .ok (e.tr va))
  | none => s.walked die ctx va

/-- The identity of the key that a leaf names: 0 for none. -/
def State.kid (s : State) (ksl : Nat) : Option Nat :=
  if ksl = 0 then some 0
  else match Tab.getD s.mast.keys ksl .empty with
    | .loaded k => some k
    | _ => none

/-- The bit of a leaf that an access needs. -/
def Acc.bit (acc : Acc) (e : Word) : Bool := if acc.fetch then eX e else if acc.write then eW e else eR e

/-- Whether the stage-1 leaf permits an access (spec/18 R370). -/
def Tr.permits1 (t : Tr) (acc : Acc) : Bool := acc.bit t.e1 && eKind t.e1 == (if acc.tensor then 1 else 0)

/-- Whether the stage-2 leaf permits an access (spec/18 R370, spec/16 R355, spec/20 R406). -/
def State.permits2 (s : State) (ctx : Nat) (t : Tr) (acc : Acc) : Bool :=
  acc.bit t.e2 && !(acc.tensor && eNc t.e2) && !(acc.fetch && eNc t.e2) &&
    (eKsl t.e2 == 0 || eKsl t.e2 == (s.ctx ctx).ksl) && (s.kid (eKsl t.e2)).isSome

/-- An access to a window is of class link (spec/08 R196, spec/20 R406). -/
def Acc.through (acc : Acc) (nc : Bool) : Acc := if nc then { acc with cls := pcLink } else acc

/-- The trap of an access to a device that cannot be reached (spec/18 R381, spec/20 R404). -/
def unreachTrap (pa : Nat) (acc : Acc) : Trap :=
  { code := 0x50, w4 := BitVec.ofNat 64 (64 * lineOf pa),
    w5 := BitVec.ofNat 64 (2 + 4 * acc.cls + (if acc.write then 32 else 0)) }

/-- What a translation that was found meets: the physical checks, the permissions (of two leaves that refuse, stage 1 is named; DESIGN
CHOICE, log 71), and a device that cannot be reached. -/
def State.checkTr (s : State) (ctx : Nat) (va : Word) (acc0 : Acc) (t : Tr) : Option Trap :=
  let acc := acc0.through (eNc t.e2)
  if !s.offsetOk t.pa t.e2 then some (addrTrap 0x10 va acc 2 7 t.ipa)
  else if !t.permits1 acc then some (addrTrap 0x11 va acc 1 t.lv1 0)
  else if !s.permits2 ctx t acc then some (addrTrap 0x11 va acc 2 t.lv2 t.ipa)
  else if !eNc t.e2 && s.link.unreachable.contains (paDev t.pa) then some (unreachTrap t.pa acc)
  else none

/-- The trap of an error that an access met at the home of a line, and whether it is no more than a status (spec/18 R379 to
R381). -/
def State.errTrap (s : State) (l : Nat) (acc : Acc) : HomeErr → Option (Bool × Trap)
  | .clean => none
  | .recovered cl rsv => some (false, s.recovered l cl rsv)
  | .lost rsv => some (true, { code := 0x51, w4 := BitVec.ofNat 64 (64 * l), w5 := BitVec.ofNat 64 (if rsv then 2 else 0) })
  | .data => some (true, { code := 0x50, w4 := BitVec.ofNat 64 (64 * l),
                           w5 := BitVec.ofNat 64 (4 * acc.cls + (if acc.write then 32 else 0)) })
  | .poisoned => some (true, { code := 0x50, w4 := BitVec.ofNat 64 (64 * l),
                               w5 := BitVec.ofNat 64 (1 + 4 * acc.cls + (if acc.write then 32 else 0)) })

/-- What an access that reaches the home of a line meets: nothing, a trap of its own (true), or a status 0x51 for a
side-band that was recovered while the access goes on (false). -/
def State.homeErr (s : State) (l : Nat) (acc : Acc) : State × Option (Bool × Trap) :=
  let (s1, e) := s.meetHome l
  (s1, s1.errTrap l acc e)

/-- Translate an address for an access (spec/18 R366, R370, spec/12 R295). An error of a line that holds an entry is one of the
access; a side-band that was recovered lets the walk go on. -/
def State.translateN (s : State) (die ctx : Nat) (va : Word) (acc : Acc) : Nat → State × Except Trap Tr
  | 0 => (s, .error (addrTrap 0x10 va acc 0 0 0))
  | fuel + 1 =>
    match s.lookup die ctx va acc.write with
    | (s1, .error (.fault st lv ipa nc)) =>
      (s1, .error (addrTrap 0x10 va (acc.through nc) st lv (if st = 2 then ipa else 0)))
    | (s1, .error (.away pa)) | (s1, .error (.held pa)) => (s1, .error (unreachTrap pa { acc with write := false }))
    | (s1, .error (.line l)) =>
      match s1.homeErr l { acc with write := false } with
      | (s2, some (true, t)) => (s2, .error t)
      | (s2, some (false, t)) => (s2.owe ctx t).translateN die ctx va acc fuel
      | (s2, none) => s2.translateN die ctx va acc fuel
    | (s1, .ok t) =>
      match s1.checkTr ctx va acc t with
      | some e => (s1, .error e)
      | none => (s1, .ok t)

/-- A walk reads at most 30 entries. -/
def State.translate (s : State) (die ctx : Nat) (va : Word) (acc : Acc) : State × Except Trap Tr :=
  if va.toNat / 2 ^ 56 ≠ 0 then (s, .error (addrTrap 0x10 va acc 0 0 0))
  else if inAperture va then (s, .error (addrTrap 0x11 va acc 0 0 0))
  else s.translateN die ctx va acc 32

/-- Before a write through a leaf with D = 0 is performed, D is set at the entry's home (spec/18 R372). -/
def State.setDirty (s : State) (die ctx : Nat) (va : Word) (t : Tr) : State :=
  if eNc t.e2 || eD t.e2 then s
  else
    let s0 := s.mscTouch (lineOf t.e2at) ctx pcMem true false
    let s1 := s0.engSetWord t.e2at (s0.engWord t.e2at ||| 0x20#64)
    s1.setDie die { s1.die die with tlb := (s1.die die).tlb.map fun e =>
      if e.ctx == ctx && e.va ≤ va.toNat && va.toNat < e.va + e.size then { e with e2 := e.e2 ||| 0x20#64 } else e }

/-- The key through which an access sees its line. -/
def State.useKey (s : State) (t : Tr) : State :=
  if eNc t.e2 then s else s.rekey (lineOf t.pa) ((s.kid (eKsl t.e2)).getD 0)

/-! ### Writes through a window -/

/-- A write of bytes through a window to a pool or to host memory. -/
def State.ncWrite (s : State) (pa : Nat) (bs : List Byte) : State :=
  match Tab.get? s.link.windows (pa / 2 ^ 48) with
  | none => s
  | some w =>
    let a := winAddr w (pa % 2 ^ 48)
    if w.kind = 1 then { s with mem := { s.mem with host := Mem.write s.mem.host a bs } }
    else if w.kind = 0 then { s with mem := { s.mem with pool := Mem.write s.mem.pool a bs } }
    else s

/-- Whether a leaf names a window of a kind. -/
def State.winKind (s : State) (t : Tr) (k : Nat) : Bool :=
  eNc t.e2 && (match Tab.get? s.link.windows (t.pa / 2 ^ 48) with | some w => w.kind == k | none => false)

end Sys2Proof.Machine
end

