-- ==== Sys2Proof/Machine/Local.lean ====
section
/-! DEFINITION. Local addresses: the scratchpad with its buffers and speculative banks, and the accumulator store
(spec/07 R156 to R159, R166 to R170, spec/03 R80 to R84, spec/06 R143, R147, R148). -/

namespace Sys2Proof.Machine

/-- A place in a core's local stores. -/
inductive Loc where
  | spad (core off : Nat)
  | acc (core off : Nat)
  deriving DecidableEq, Repr

/-- What a local address names, seen from a sequencer's core; none when a bit that must be zero is set (spec/07 R157). -/
def locOf (core : Nat) (a : Word) : Option Loc :=
  let n := a.toNat
  if n / 2 ^ 26 ≠ 0 then none
  else if n.testBit 25 then
    if n / 2 ^ 21 % 16 ≠ 0 then none else some (.acc core (n % 2 ^ 21))
  else if n.testBit 24 then some (.spad (core / 16 * 16 + n / 2 ^ 20 % 16) (n % 2 ^ 20))
  else if n / 2 ^ 20 % 16 ≠ 0 then none
  else some (.spad core (n % 2 ^ 20))

/-- Whether a place lies in accumulator space. -/
def Loc.isAcc : Loc → Bool
  | .spad _ _ => false
  | .acc _ _ => true

/-- A place as a number: one place has one, whatever address names it. -/
def Loc.num : Loc → Nat
  | .spad c o => c * 2 ^ 22 + o
  | .acc c o => c * 2 ^ 22 + 2 ^ 21 + o

/-- The core and quadrant whose bank holds a place. -/
def Loc.bank : Loc → Nat × Nat
  | .spad c o => (c, o / 2 ^ 18)
  | .acc c o => (c, o / 2 ^ 19)

/-! ### Buffers (spec/07 R166 to R170) -/

def CoreSt.desc (c : CoreSt) (n : Nat) : Desc := Tab.getD c.descs n {}
def CoreSt.setDesc (c : CoreSt) (n : Nat) (d : Desc) : CoreSt :=
  { c with descs := if d = {} then Tab.erase c.descs n else Tab.put c.descs n d }

def Desc.lo (d : Desc) : Nat := 64 * d.base.toNat
def Desc.size (d : Desc) : Nat := 64 * d.lines.toNat
/-- The reserved range: both banks of a marked buffer. -/
def Desc.span (d : Desc) : Nat := if d.spec then 2 * d.size else d.size

/-- The word of R167. -/
def Desc.word (d : Desc) : Word :=
  BitVec.ofNat 64 (d.lines.toNat * 2 ^ 33 + d.base.toNat * 2 ^ 19 + (if d.zeroing then 2 ^ 15 else 0) +
    (if d.spec then 2 ^ 14 else 0) + d.owner.toNat * 2 ^ 12 + d.state.toNat)

abbrev bfFree : BitVec 3 := 0#3
abbrev bfEmpty : BitVec 3 := 1#3
abbrev bfFilling : BitVec 3 := 2#3
abbrev bfFull : BitVec 3 := 3#3
abbrev bfDraining : BitVec 3 := 4#3
abbrev bfFaulted : BitVec 3 := 5#3

/-- The declared buffer whose addressable range holds an offset. -/
def CoreSt.bufAt (c : CoreSt) (off : Nat) : Option (Nat × Desc) :=
  c.descs.find? fun e => e.2.state != bfFree && e.2.lo ≤ off && off < e.2.lo + e.2.size

/-- Codes of accesses and operations in the 0x12 record (spec/07 R170). -/
abbrev opRead : Nat := 0
abbrev opWrite : Nat := 1
abbrev opCopyWrite : Nat := 2
abbrev opCopyRead : Nat := 3

/-- The trap 0x12 with its word. -/
def bufTrap (desc state op reason addr : Nat) : Trap :=
  { code := 0x12,
    w4 := BitVec.ofNat 64 (desc * 2 ^ 58 + state * 2 ^ 55 + op * 2 ^ 51 + reason * 2 ^ 48 + addr % 2 ^ 26) }

/-- The legality of an access in a buffer's state (spec/07 R168). -/
def accessOk (op : Nat) (st : BitVec 3) : Bool :=
  if op = opWrite || op = opCopyWrite then st == bfFilling else st == bfFull || st == bfDraining

/-- Check an access of some size at a local address in the order of R158. -/
def State.locCheck (s : State) (core ctx : Nat) (a : Word) (size op cls : Nat) : Except Trap Loc :=
  let acc : Acc := { cls := cls, write := op = opWrite || op = opCopyWrite }
  match locOf core a with
  | none => .error (addrTrap 0x10 a acc 0 0 0)
  | some loc =>
    if a.toNat % size ≠ 0 then .error (addrTrap 0x13 a acc 0 0 0)
    else
      match loc with
      | .acc c o =>
        if size < 4 then .error (addrTrap 0x11 a acc 0 0 0)
        else if s.quadRuns c (Loc.acc c o).bank.2 ctx then .ok loc else .error (addrTrap 0x11 a acc 0 0 0)
      | .spad c o =>
        if !s.quadRuns c (Loc.spad c o).bank.2 ctx then .error (addrTrap 0x11 a acc 0 0 0)
        else
          match (s.core c).bufAt o with
          | none => .error (bufTrap 0 0 op 1 a.toNat)
          | some (n, d) =>
            if accessOk op d.state then .ok loc else .error (bufTrap n d.state.toNat op 2 a.toNat)

/-! ### Speculative banks (spec/03 R80 to R83) -/

/-- Whether an open region of a sequencer covers the slots of a bundle. -/
def Seq.covers (x : Seq) (bn : Nat) : Bool :=
  x.c.region.isOpen && decide (x.c.region.since < bn) &&
    (match x.c.region.fin with | none => true | some (e, _) => decide (bn ≤ e))

/-- The marked buffer at an offset. -/
def CoreSt.marked (c : CoreSt) (off : Nat) : Option Desc :=
  match c.bufAt off with
  | some (_, d) => if d.spec then some d else none
  | none => none

/-- The byte offset in a bank of a marked buffer: the live bank, or the other. -/
def bankOff (c : CoreSt) (d : Desc) (off : Nat) (other : Bool) : Nat :=
  if (c.live.contains (off / 64)) == other then off else off + d.size

/-- Where a read of an offset falls. -/
def readOff (c : CoreSt) (off : Nat) (inside : Bool) : Nat :=
  match c.marked off with
  | none => off
  | some d => bankOff c d off (inside && c.region.contains (off / 64))

/-- Copy the live line into the other bank at the first covered write, and note the line. -/
def openLine (c : CoreSt) (d : Desc) (off : Nat) : CoreSt :=
  let l := off / 64
  if c.region.contains l then c
  else
    let bytes := Mem.bytes c.spad (bankOff c d (64 * l) false) 64
    { c with spad := Mem.write c.spad (bankOff c d (64 * l) true) bytes, region := l :: c.region }

/-- Write bytes at a scratchpad offset; the bytes lie in one line. -/
def CoreSt.spadWrite (c : CoreSt) (off : Nat) (bs : List Byte) (inside : Bool) : CoreSt :=
  match c.marked off with
  | none => { c with spad := Mem.write c.spad off bs }
  | some d =>
    if inside then
      let c1 := openLine c d off
      { c1 with spad := Mem.write c1.spad (bankOff c1 d off true) bs }
    else { c with spad := Mem.write c.spad (bankOff c d off false) bs }

def CoreSt.spadRead (c : CoreSt) (off n : Nat) (inside : Bool) : Word :=
  BitVec.ofNat 64 (leNat (Mem.bytes c.spad (readOff c off inside) n))

/-- Whether a sequencer owns the marked buffer at an offset of a core. -/
def State.ownsAt (s : State) (q core off : Nat) : Bool :=
  coreOf q == core && (match (s.core core).marked off with | some d => d.owner.toNat == quadOf q | none => false)

/-! ### Tiles (spec/06 R143, R147, R148) -/

/-- The element at a byte offset of the accumulator store. -/
def elemOf (off : Nat) : Nat := off / 4
def elemAt (tile row col : Nat) : Nat := tile * 1024 + row * 32 + col

def CoreSt.elem (c : CoreSt) (e : Nat) : BitVec 32 := Tab.getD c.acc e 0#32
def CoreSt.setElem (c : CoreSt) (e : Nat) (v : BitVec 32) : CoreSt :=
  { c with acc := if v = 0#32 then Tab.erase c.acc e else Tab.put c.acc e v }

/-- The values that a pending tile write allows for an element. -/
def TileW.at (w : TileW) (e : Nat) : Option (List (BitVec 32)) :=
  let tile := e / 1024; let row := e / 32 % 32; let col := e % 32
  if w.tile = tile && w.row0 ≤ row && row < w.row0 + w.rows && w.col0 ≤ col && col < w.col0 + w.cols then
    some (w.vals.getD ((row - w.row0) * w.cols + (col - w.col0)) [])
  else none

/-- Values of an element that a read before finality may return: those of every write of the core's sequencers that is not
yet final for the reader (spec/06 R148). -/
def State.early (s : State) (core reader time : Nat) (sync : Bool) (e : Nat) : List (BitVec 32) :=
  [0, 1, 2, 3].flatMap fun k =>
    (s.seq (4 * core + k)).f.tiles.flatMap fun w =>
      if 4 * core + k = reader && sync && decide (w.fin ≤ time) then [] else (w.at e).getD []

/-- Read an element by slots A, B or C: final when it may be relied on, else one of the allowed values, whichever
(DESIGN CHOICE, log 2). -/
def State.readElem (s : State) (core reader time : Nat) (sync : Bool) (e : Nat) : State × BitVec 32 :=
  let now := (s.core core).elem e
  match s.early core reader time sync e with
  | [] => (s, now)
  | vs => ({ s with tick := s.tick + 1 }, (now :: vs).getD (Config.freePick s.tick % (vs.length + 1)) now)

/-! ### Local accesses -/

/-- Read n bytes at a place for a sequencer, in a bundle with a D-time and a SYNC bit. -/
def State.locRead (s : State) (q bn : Nat) (sync : Bool) (loc : Loc) (n : Nat) : State × Word :=
  match loc with
  | .spad c o => (s, (s.core c).spadRead o n (s.ownsAt q c o && (s.seq q).covers bn))
  | .acc c o =>
    let t := (s.seq q).timeAt bn
    let (s1, a) := s.readElem c q t sync (elemOf o)
    if n = 8 then
      let (s2, b) := s1.readElem c q t sync (elemOf o + 1)
      (s2, b ++ a)
    else (s1, a.setWidth 64)

/-- Write n bytes at a place; `cov` says whether the writer's region covers the write. -/
def State.locWrite (s : State) (q : Nat) (cov : Bool) (loc : Loc) (n : Nat) (v : Word) : State :=
  match loc with
  | .spad c o => s.setCore c ((s.core c).spadWrite o (leBytes v.toNat n) (cov && s.ownsAt q c o))
  | .acc c o =>
    let c1 := (s.core c).setElem (elemOf o) (v.setWidth 32)
    s.setCore c (if n = 8 then c1.setElem (elemOf o + 1) (v.extractLsb' 32 32) else c1)

end Sys2Proof.Machine
end

