-- ==== Sys2Proof/Machine/Ops.lean ====
section
/-! DEFINITION. The named operations that the meanings share: plain accesses, taking a trap and resuming after one, records
in the fault ring, waiting for what is under way, and the frame of a slot instruction. -/

namespace Sys2Proof.Machine

/-! ### Outcomes of an operation -/

/-- An operation answers, traps, or waits for events. -/
inductive Try (α : Type) where
  | ok (s : State) (a : α)
  | trap (s : State) (t : Trap)
  | wait (s : State) (evs : List Instr)

def Try.bind {α β : Type} (x : Try α) (f : State → α → Try β) : Try β :=
  match x with
  | .ok s a => f s a
  | .trap s t => .trap s t
  | .wait s evs => .wait s evs

/-- The effect of a slot instruction: done, with its slot-D occupancy; done but holding its queue, so not yet issued; a
trap; or a wait for events, after which it is tried again. -/
inductive Res where
  | done (s : State) (occ : Nat)
  | hold (s : State)
  | trap (s : State) (t : Trap)
  | wait (s : State) (evs : List Instr)

def Try.res {α : Type} (x : Try α) (f : State → α → Res) : Res :=
  match x with
  | .ok s a => f s a
  | .trap s t => .trap s t
  | .wait s evs => .wait s evs

/-- Run operations over a list, in order. -/
def tryList {α : Type} : List α → State → (State → α → Try Unit) → Try Unit
  | [], s, _ => .ok s ()
  | a :: t, s, f => (f s a).bind fun s1 _ => tryList t s1 f

/-! ### Operations under way at the Halyards -/

def State.nextHal (s : State) : Nat := s.hal.foldl (fun m e => max m (e.k + 1)) 0

/-- Send an operation to its home. -/
def State.sendHal (s : State) (q ctx : Nat) (op : HalOp) : State :=
  { s with hal := s.hal ++ [{ k := s.nextHal, q := q, ctx := ctx, op := op }] }

/-- The event that performs an operation. -/
def HalEnt.event (e : HalEnt) : Instr :=
  match e.op with
  | .add _ _ _ => .pennantAdd e.k
  | .atomic _ _ _ _ _ | .cas _ _ _ _ _ => .halyardAtomicExecute e.k
  | .cond _ _ _ => .conditionWordWrite e.k

/-- The earliest operation of a sequencer that is not performed. -/
def State.halEvents (s : State) (q : Nat) : List Instr :=
  match s.hal.find? fun e => e.q == q with
  | some e => [e.event]
  | none => []

/-! ### What a sequencer has under way -/

/-- Events that deliver awaited register results (spec/07 R163). -/
def State.outEvents (s : State) (q : Nat) : List Instr :=
  let f := (s.seq q).f
  (f.outs.map fun o => Instr.loadDataReturn q o.k) ++ (if f.divu.isSome then [.divComplete q] else []) ++
    (f.lq.filterMap fun e => if e.coming.isSome then some (Instr.atomicResultReturn q e.id) else none) ++
    (if f.lq.any fun e => e.pop.isSome && e.coming.isNone then
      (if f.scopedAts.isEmpty then [] else [.scopedAtomicExecute q]) ++ s.halEvents q else [])

/-- Whether a sequencer runs on a group that runs: its slots may issue. -/
def State.issues (s : State) (q : Nat) : Bool :=
  (s.seq q).c.mode == .running && match s.groupOf q with
    | some (_, g) => g.mode == .running
    | none => false

/-- The bundle of the start store at the head of store queue B that will trap while an earlier bundle has still to issue: what comes
before it does not wait for it (spec/12 R297, spec/16 R345). -/
def State.heldStartBn (s : State) (q : Nat) : Option Nat :=
  let x := s.seq q
  match x.f.storeB with
  | { bn := b, act := .start _ key _ _, .. } :: _ =>
    if s.issues q && (Tab.getD (s.core (coreOf q)).chans key {}).fault.isSome && x.c.window.any fun e => e.bn < b then some b else none
  | _ => none

/-- Whether the head of store queue B is such a start store. -/
def State.heldStart (s : State) (q : Nat) : Bool := (s.heldStartBn q).isSome

/-- Whether an instruction of a bundle comes behind that start store; one of no bundle does. -/
def State.behindStart (s : State) (q : Nat) (bn : Option Nat) : Bool :=
  match s.heldStartBn q, bn with
  | some b, some n => decide (b < n)
  | some _, none => true
  | none, _ => false

/-- Events that drain the store queues, and the atomics at narrow scopes. -/
def State.storeEvents (s : State) (q : Nat) : List Instr :=
  let f := (s.seq q).f
  (if f.storeB.isEmpty || s.heldStart q then [] else [.storePerform q 1]) ++ (if f.storeC.isEmpty then [] else [.storePerform q 2]) ++
    (if f.scopedAts.isEmpty then [] else [.scopedAtomicExecute q])

/-- The write streams with vectors that have not drained and no latched fault. -/
def State.drainStreams (s : State) (q : Nat) : List Instr :=
  (s.seq q).r.q.filterMap fun e =>
    if e.2.bound && e.2.pat.ctl.getLsbD 0 && !e.2.queue.isEmpty && e.2.fault.isNone then some (.streamDrain q e.1) else none

/-- Questions to pennants whose answers have not arrived. -/
def State.askEvents (s : State) (q : Nat) : List Instr :=
  if (s.seq q).f.asks.isEmpty then [] else [.pennantValueReturn q]

/-- The unit that holds queue D. -/
def State.holdDEvents (s : State) (q : Nat) : List Instr :=
  match (s.seq q).f.holdD with
  | some .patch => [.patchEngineComplete q]
  | some .segment => [.segmentUnitsComplete q]
  | none => []

/-- The time that an attempt of an mcas has for its locks (spec/11 R267). -/
def State.mcasWindow (s : State) (m : Mcas) : Nat :=
  if m.ents.all fun e => paDev e.pa == s.link.dev.toNat then 4096 else 32768

def State.mcasExpired (s : State) (m : Mcas) : Bool := decide (m.since + s.mcasWindow m ≤ s.clock)

/-- The event that carries an mcas on. -/
def State.mcasEvent (s : State) (q : Nat) (m : Mcas) : Instr :=
  if m.result.isSome then .mcasResultReturn q
  else if m.backoff then .mcasBackoffExpire q
  else if s.mcasExpired m then .mcasWindowExpire q
  else .mcasLockGrant q

/-- The event that can end what holds queue B. -/
def State.holdBEvents (s : State) (q : Nat) : List Instr :=
  match (s.seq q).f.holdB with
  | none => []
  | some h =>
    match h.what with
    | .wait _ false => [.pennantValueReturn q]
    | .wait _ true => []
    | .fence _ | .xfence _ _ => [.fenceComplete q]
    | .buf _ _ => [.bufferStateChange q]
    | .mcas m => [s.mcasEvent q m]

/-- Tile writes that are not complete; entries of the shadow buffer come first, being older. -/
def State.tileEvents (s : State) (q : Nat) : List Instr :=
  let f := (s.seq q).f
  if !f.shadow.isEmpty then [.shadowEntryApply q]
  else if f.tiles.any fun w => !w.complete then [.matrixCompletion q]
  else []

/-- Everything that must be performed before earlier instructions of a sequencer have completed (spec/16 R345). -/
def State.settle (s : State) (q : Nat) : List Instr :=
  s.outEvents q ++ s.storeEvents q ++ s.askEvents q ++ s.holdBEvents q ++ s.holdDEvents q

/-- Whether slots B, C and D of every bundle before one have issued. -/
def Seq.writesIssued (x : Seq) (bn : Nat) : Bool := x.c.window.all fun e => bn ≤ e.bn || 0xE#4 &&& ~~~ e.mask == 0#4

/-- Whether the stop of a bundle withdraws what holds queue B, which is of a later bundle: a wait, a fence, or a change of a buffer that an
earlier slot still holds back (spec/16 R339). -/
def State.withdrawn (s : State) (q bn : Nat) : Bool :=
  let x := s.seq q
  match x.f.holdB with
  | none => false
  | some h => decide (bn < h.bn) && match h.what with
    | .wait _ _ | .fence _ | .xfence _ _ => true
    | .buf _ _ => !x.writesIssued h.bn
    | .mcas _ => false

/-- Everything that must be performed before a stop at a bundle (spec/16 R339, R345). -/
def State.settleTo (s : State) (q bn : Nat) : List Instr :=
  s.outEvents q ++ s.storeEvents q ++ s.askEvents q ++ (if s.withdrawn q bn then [] else s.holdBEvents q) ++ s.holdDEvents q

/-- The next running sequencer after one, around the module. -/
def State.nextRunning (s : State) (q : Nat) : Nat :=
  let r := s.seqs.filter fun e => e.2.c.mode == .running
  match (r.find? fun e => q < e.1).orElse fun _ => r.head? with
  | some e => e.1
  | none => q

/-- Let another sequencer issue. -/
def State.yield (s : State) : State := { s with cur := { s.cur with seq := s.nextRunning s.cur.seq, skip := [] } }

/-- Wait for events; the slot that waits lets the others go first. -/
def State.stallOn (s : State) (evs : List Instr) : State :=
  { s with agenda := evs ++ s.agenda, cur := { s.cur with skip := s.cur.slot :: s.cur.skip } }

/-! ### Plain accesses (spec/07 R176, R177) -/

/-- What keeps an access from the home of a line: no trained port on the way, an mcas, or the host's answer still to come (spec/11
R269, spec/20 R398, R402). -/
def State.gate (s : State) (l : Nat) (exclusive : Bool) : Option (State × List Instr) :=
  if !s.routed (paDev (l * 64)) then some (s, [])
  else
    match Tab.get? (s.die (s.homeDie (l * 64))).locks l with
    | some q => some (s, [.mcasLockGrant q])
    | none => if exclusive && s.hostHeld l then some (s.askHost l, []) else none

/-- What keeps a write from its leaf's dirty bit, when that is still to be set (spec/18 R372). -/
def State.dirtyGate (s : State) (t : Tr) : Option (State × List Instr) :=
  if eNc t.e2 || eD t.e2 then none else s.gate (lineOf t.e2at) true

/-- Whether the L1 serves the needed bytes by itself. -/
def State.l1Serves (s : State) (c l ctx : Nat) (need : BitVec 64) : Bool :=
  match s.l1 c l ctx with
  | some x => (x.fresh (s.core c).gen && need &&& ~~~ x.have_ == 0#64) || need &&& ~~~ x.dirty == 0#64
  | none => false

def State.l2Full (s : State) (r l : Nat) : Bool :=
  match s.l2 r l with
  | some c => c.have_ == BitVec.allOnes 64
  | none => false

/-- Words of a record (spec/16 R347). -/
def recordWords (ctx owner : Nat) (dev : BitVec 3) (seq src : Nat) (r : Record) (number : Nat) : List Word :=
  [ BitVec.ofNat 64 (ctx * 2 ^ 48 + owner * 2 ^ 42 + dev.toNat * 2 ^ 39 + seq * 2 ^ 25 + src * 2 ^ 23 + r.slot * 2 ^ 16 +
      r.kind * 2 ^ 8 + r.trap.code),
    r.place, r.resume, BitVec.ofNat 64 (number % 2 ^ 32 * 2 ^ 32 + r.cycle.toNat), r.trap.w4, r.trap.w5, r.trap.w6, r.trap.w7 ]

/-- Physical address of a plain address for a writer of records; none when the access faults. -/
def State.recAddr (s : State) (die ctx : Nat) (va : Word) (write : Bool) : State × Option Nat :=
  let acc : Acc := { cls := pcMem, write := write }
  match s.translate die ctx va acc with
  | (s1, .ok t) =>
    if eNc t.e2 then (s1, none)
    else
      match ((if write then s1.setDirty die ctx va t else s1).useKey t).homeErr (lineOf t.pa) acc with
      | (s2, none) => (s2.mscTouch (lineOf t.pa) ctx pcMem write false, some t.pa)
      | (s2, some (false, e)) => ((s2.owe ctx e).mscTouch (lineOf t.pa) ctx pcMem write false, some t.pa)
      | (s2, some (true, _)) => (s2, none)
  | (s1, .error _) => (s1, none)

/-- Lines whose bytes a release beyond the cluster pushes. -/
def State.relLines (s : State) (c ctx : Nat) : List Nat :=
  let l1 := ((s.core c).l1.filter fun e => e.2.ctx == ctx && e.2.dirty != 0#64).map fun e => e.1 / 65536
  let l2 := ((s.cluster (clusterOfCore c)).l2.filter fun e => e.2.pend).map (·.1)
  l1 ++ l2 ++ (s.cluster (clusterOfCore c)).scopedCopies.map (·.1)

/-- Lines that a release would push while a lock or the host keeps them, or no port reaches them yet. -/
def State.relGate (s : State) (c ctx : Nat) : Option (State × List Instr) :=
  (s.relLines c ctx).findSome? fun l => if s.ownsM l (clusterOfCore c) || s.lost l then none else s.gate l true

/-- What keeps the writers of records from the ring of a context: its tail, the count of lost records, the slot of the next record,
or bytes that the release before the notify add pushes (spec/16 R346, spec/18 R376). -/
def State.ringGate (s : State) (q ctx : Nat) : Option (State × List Instr) :=
  let c := s.ctx ctx
  let at_ := fun (s : State) (va : Word) => match s.translate (dieOf q) ctx va { cls := pcMem, write := true } with
    | (_, .ok t) => if eNc t.e2 then none else some t
    | (_, .error _) => none
  let keep := fun (s : State) (t : Tr) => (s.dirtyGate t).orElse fun _ => s.gate (lineOf t.pa) true
  let held := fun (va : Word) => s.walkHeld (dieOf q) ctx va true
  if held (c.fring + 8#64) then some (s, [])
  else
    match at_ s (c.fring + 8#64) with
    | none => none
    | some t =>
      (keep s t).orElse fun _ =>
        let slot := c.fring + 64#64 + BitVec.ofNat 64 (64 * ((s.engWord t.pa).toNat % 2 ^ c.flog))
        if held slot then some (s, [])
        else
          match at_ s slot with
          | none => none
          | some d => (keep s d).orElse fun _ => s.relGate (coreOf q) ctx

/-- Write a list of words from a physical address, as the writers of records do at the home (spec/18 R376). -/
def State.engWords (s : State) (pa : Nat) : List Word → State
  | [] => s
  | w :: ws => (s.engSetWord pa w).engWords (pa + 8) ws

/-- Write a record to a context's fault ring and then add to its notify pennant; none when the ring is full or an access
faults (spec/16 R346). -/
def State.tryRecord (s : State) (q ctx src : Nat) (r : Record) : State × Bool :=
  let c := s.ctx ctx
  let die := dieOf q
  match s.recAddr die ctx c.fring false with
  | (s1, none) => (s1.logError 0x46 c.fring, false)
  | (s1, some ph) =>
    match s1.recAddr die ctx (c.fring + 8#64) true with
    | (s2, none) => (s2.logError 0x46 (c.fring + 8#64), false)
    | (s2, some pt) =>
      let head := s2.engWord ph
      let tail := s2.engWord pt
      if (tail - head).toNat = 2 ^ c.flog then (s2, false)
      else
        let at_ := c.fring + 64#64 + BitVec.ofNat 64 (64 * (tail.toNat % 2 ^ c.flog))
        match s2.recAddr die ctx at_ true with
        | (s3, none) => (s3.logError 0x46 at_, false)
        | (s3, some pr) =>
          let s4 := (s3.engWords pr (recordWords ctx c.owner s.link.dev q src r tail.toNat)).engSetWord pt (tail + 1#64)
          let s5 := s4.release (coreOf q) ctx .sy
          (if c.notify = 0#32 then s5 else s5.sendHal q ctx (.add c.notify 1#64 false), true)

/-- The records that a context holds in its sequencers and in its saved groups (spec/16 R346). -/
def State.heldRecords (s : State) (ctx : Nat) : List Record :=
  ((s.seqs.filter fun e => s.ctxOf e.1 == ctx).flatMap fun e => e.2.c.records) ++
    (s.ctx ctx).images.flatMap fun e => e.2.seqs.flatMap fun x => x.c.records

/-- The place of the next record to be held. -/
def nextOrd (rs : List Record) : Nat := rs.foldl (fun m r => max m (r.ord + 1)) 0

/-- The loaded sequencer that holds the first of some records. -/
def State.firstHeld (s : State) (ctx : Nat) (rs : List Record) : Option (Nat × Record) :=
  s.seqs.findSome? fun e =>
    match e.2.c.records with
    | [] => none
    | r :: _ => if s.ctxOf e.1 == ctx && rs.all fun d => r.ord ≤ d.ord then some (e.1, r) else none

/-- Write the held records of a context in the order in which the traps were taken, as far as the ring takes them. -/
def State.retryHeld (s : State) (ctx : Nat) : Nat → State
  | 0 => s
  | n + 1 =>
    match s.firstHeld ctx (s.heldRecords ctx) with
    | none => s
    | some (q, r) =>
      match s.ringGate q ctx with
      | some (s1, _) => s1
      | none =>
        match s.tryRecord q ctx 0 r with
        | (s1, false) => s1
        | (s1, true) =>
          let x := s1.seq q
          (s1.setSeq q { x with c := { x.c with records := x.c.records.drop 1 } }).retryHeld ctx n

/-- Retry what a context holds. -/
def State.retryRecords (s : State) (ctx : Nat) : State := s.retryHeld ctx (s.heldRecords ctx).length

/-- Write a trap or halt record of a sequencer, after the records of its context that are still held; else hold it. -/
def State.putRecord (s : State) (q : Nat) (r : Record) : State :=
  let ctx := s.ctxOf q
  let x := s.seq q
  let r1 : Record := { r with ord := nextOrd (s.heldRecords ctx) }
  (s.setSeq q { x with c := { x.c with records := x.c.records ++ [r1] } }).retryRecords ctx

/-- A status record that was dropped is counted in lost, when lost can be written. -/
def State.countLost (s : State) (q ctx : Nat) : State :=
  match s.recAddr (dieOf q) ctx ((s.ctx ctx).fring + 16#64) true with
  | (s1, some p) => s1.engSetWord p (s1.engWord p + 1#64)
  | (s1, none) => s1

/-- Write a status record after the records that are held, or count it as lost (spec/16 R346, R350). -/
def State.writeStatus (s : State) (o : Owed) : State :=
  if o.lost then s.countLost o.q o.ctx
  else
    match (s.retryRecords o.ctx).tryRecord o.q o.ctx o.src o.r with
    | (s1, true) => s1
    | (s1, false) => s1.countLost o.q o.ctx

/-- Whether the ring of a context is full, as a read of head and tail shows it. -/
def State.ringFull (s : State) (q ctx : Nat) : Bool :=
  let c := s.ctx ctx
  match s.recAddr (dieOf q) ctx c.fring false, s.recAddr (dieOf q) ctx (c.fring + 8#64) false with
  | (_, some ph), (_, some pt) => (s.engWord pt - s.engWord ph).toNat == 2 ^ c.flog
  | _, _ => false

/-- A status record, at once or, where the ring is kept from its writers, later. -/
def State.putStatus (s : State) (q ctx src slot : Nat) (place : Word) (kind : Nat) (t : Trap) : State :=
  let o : Owed := { ctx := ctx, q := q, src := src,
                    r := { kind := kind, slot := slot, trap := t, place := place, resume := 0#64, cycle := 0#32 }
                    lost := s.ringFull q ctx }
  match s.ringGate q ctx with
  | some (s1, _) => { s1 with owed := s1.owed ++ [o] }
  | none => s.writeStatus o

/-- Write the status records that are owed, as far as they can be. -/
def State.payOwed (s : State) : State :=
  s.owed.foldl (fun s o =>
    match s.ringGate o.q o.ctx with
    | some (s1, _) => { s1 with owed := s1.owed ++ [o] }
    | none => s.writeStatus o) { s with owed := [] }

/-- An access that reaches the home of a line meets its errors: a trap, or a status while it goes on. -/
def State.meetErrors (s : State) (q ctx l : Nat) (acc : Acc) : Try Unit :=
  match s.homeErr l acc with
  | (s1, none) => .ok s1 ()
  | (s1, some (true, t)) => .trap s1 t
  | (s1, some (false, t)) =>
    let lead := match s1.groupOf q with | some (gh, _) => (groupSeqs gh).headD q | none => q
    .ok (s1.putStatus lead ctx 2 7 0#64 2 t) ()

/-- Whether an access that needs a walk cannot have it yet: no walker is free (spec/01 R11), or no port leads to an entry (spec/20 R402). -/
def State.noWalker (s : State) (die ctx : Nat) (va : Word) (write : Bool) : Bool :=
  (decide (64 ≤ (s.die die).walks.length) && s.needsWalk die ctx va write) || s.walkHeld die ctx va write

/-- The walks of a die that prefetches began. -/
def State.walkEvents (s : State) (die : Nat) : List Instr :=
  (s.die die).walks.map fun w => Instr.pageWalkComplete die w.ctx w.va

/-- The translation of an access, once it can be walked and, for a write, its leaf's dirty bit be set. -/
def State.find (s : State) (q : Nat) (va : Word) (acc : Acc) : Try Tr :=
  let ctx := s.ctxOf q
  let die := dieOf q
  if s.noWalker die ctx va acc.write then .wait s (s.walkEvents die)
  else match s.translate die ctx va acc with
  | (s1, .error t) => .trap s1 t
  | (s1, .ok t) =>
    if acc.write then
      match s1.dirtyGate t with
      | some (s2, evs) => .wait s2 evs
      | none => .ok s1 t
    else .ok s1 t

/-- A translation that leads to a window waits for a port to it (spec/20 R405). -/
def State.windowUp (s : State) (t : Tr) : Try Tr := if eNc t.e2 && !s.winReady t.pa then .wait s [] else .ok s t

/-- Translate for an access and reach its line or its window. -/
def State.reach (s : State) (q : Nat) (va : Word) (acc : Acc) : Try Tr := (s.find q va acc).bind State.windowUp

/-- Read n bytes at a virtual address, through the L1, or past it for an acquire (spec/07 R176, spec/08 R189). -/
def State.plainRead (s : State) (q : Nat) (va : Word) (n : Nat) (acq : Bool) (acc : Acc) : Try Word :=
  let ctx := s.ctxOf q
  let c := coreOf q
  (s.reach q va acc).bind fun s1 t =>
    if eNc t.e2 then .ok (s1.winTraffic ctx t.pa n) (s1.ncRead t.pa n)
    else
      let s2 := s1.useKey t
      let l := lineOf t.pa
      let home := !(s2.l2Full (clusterOfCore c) l) && (acq || !(s2.l1Serves c l ctx (byteMask (t.pa % 64) n)))
      if home then
        match s2.gate l false with
        | some (s3, evs) => .wait s3 evs
        | none =>
          (s2.meetErrors q ctx l acc).bind fun s3 _ =>
            let r := if acq then s3.acqRead c ctx t.pa n else s3.l1Read c ctx t.pa n
            .ok r.1 r.2
      else
        let r := if acq then s2.acqRead c ctx t.pa n else s2.l1Read c ctx t.pa n
        .ok r.1 r.2

/-- An access whose instruction has completed meets an error of memory: its context is told (spec/20 R404; DESIGN CHOICE, log 12). -/
def State.oweLost (s : State) (ctx : Nat) (t : Trap) : State := if t.code = 0x50 then s.owe ctx t else s

/-- Check a plain store without performing it. A window that feeds a switch reduction takes whole lines only, and
refuses every store of a slot (spec/20 R407). -/
def State.storeCheck (s : State) (q : Nat) (va : Word) (acc : Acc) : Try Tr :=
  (s.find q va acc).bind fun s1 t =>
    if s1.winKind t 2 then .trap s1 (addrTrap 0x11 va (acc.through true) 0 0 0) else s1.windowUp t

/-- What keeps a write that was checked at its issue from being performed: a walk or a window that waits for a port, or its leaf's dirty bit
(spec/18 R372, R376, spec/20 R398, R402, R406). -/
def State.writeGate (s : State) (die ctx : Nat) (va : Word) : Option (State × List Instr) :=
  if s.walkHeld die ctx va true then some (s, [])
  else
    match s.translate die ctx va { cls := pcMem, write := true } with
    | (s1, .ok t) => if eNc t.e2 && !s1.winReady t.pa then some (s1, []) else s1.dirtyGate t
    | (_, .error _) => none

/-- Perform a plain store: D is set first, then the bytes go into the L1, or to the window (spec/07 R176, spec/18 R372).
It fails only where its translation was removed since the check, or its device has become unreachable; it is then dropped, the latter
with a status 0x50 (DESIGN CHOICE, log 12). -/
def State.storePlain (s : State) (q : Nat) (e : Elem) : State :=
  let ctx := s.ctxOf q
  let va := BitVec.ofNat 64 e.addr
  match s.translate (dieOf q) ctx va { cls := pcMem, write := true } with
  | (s1, .error t) => s1.oweLost ctx t
  | (s1, .ok t) =>
    if eNc t.e2 then (s1.winTraffic ctx t.pa e.size).ncWrite t.pa (leBytes e.data.toNat e.size)
    else ((s1.setDirty (dieOf q) ctx va t).useKey t).l1Write (coreOf q) ctx t.pa e.size e.data

/-- The byte that an address of a sequencer names: two addresses may name one (spec/08 R190). An address that has no translation
stands for itself. -/
def State.placeOf (s : State) (q : Nat) (isLocal : Bool) (a : Nat) : Nat :=
  let va := BitVec.ofNat 64 a
  if isLocal then
    match locOf (coreOf q) va with
    | some l => l.num
    | none => 2 ^ 64 + a
  else
    match s.tlbFind (dieOf q) (s.ctxOf q) va with
    | some e => s.byteNum (e.tr va)
    | none =>
      match s.walk (s.ctxOf q) va with
      | .ok t => s.byteNum t
      | .error _ => 2 ^ 64 + a

/-- Whether two accesses of a sequencer meet in a byte. -/
def State.sameBytes (s : State) (q : Nat) (isLocal : Bool) (a n b m : Nat) : Bool :=
  overlap a n b m || overlap (s.placeOf q isLocal a) n (s.placeOf q isLocal b) m

/-- Whether a queued store of a sequencer meets a byte range of plain memory, or of a local store. -/
def State.entMeets (s : State) (q : Nat) (e : StoreEnt) (isLocal : Bool) (a n : Nat) : Bool :=
  match e.act with
  | .plain es => !isLocal && es.any fun x => s.sameBytes q false x.addr x.size a n
  | .loc es _ => isLocal && es.any fun x => s.sameBytes q true x.addr x.size a n
  | .red va _ _ => !isLocal && s.sameBytes q false va.toNat 8 a n
  | _ => false

/-- The gate of a line whose dirty bytes go to the home; one that no request reaches any more waits for nothing (spec/20 R404). -/
def State.relGateLine (s : State) (l : Nat) : Option (State × List Instr) := if s.lost l then none else s.gate l true

/-- A word that nothing gives, for an access whose home is lost (spec/20 R404; DESIGN CHOICE, log 12). -/
def State.lostWord (s : State) : Word := BitVec.ofNat 64 (leNat ((List.range 8).map fun i => Config.freeByte (s.tick * 2 ^ 64 + i)))

/-! ### Memory requests under way (spec/01 R11) -/

def StoreEnt.requests (e : StoreEnt) : Nat :=
  match e.act with
  | .plain es => es.length
  | .loc _ _ => 0
  | .red _ _ _ | .hal _ | .start _ _ _ _ => 1

/-- The requests of a sequencer that are not answered. -/
def Flight.requests (f : Flight) : Nat :=
  (f.outs.map (·.n)).sum + ((f.storeB ++ f.storeC).map StoreEnt.requests).sum + (f.lq.filter fun e => e.val.isNone).length

/-- The requests of a core. -/
def State.requests (s : State) (core : Nat) : Nat := ([0, 1, 2, 3].map fun k => (s.seq (4 * core + k)).f.requests).sum

/-- What a core can have outstanding. -/
abbrev maxRequests : Nat := 4096

/-- Whether the core of a sequencer takes n requests more. -/
def State.hasRoom (s : State) (q n : Nat) : Bool := decide (s.requests (coreOf q) + n ≤ maxRequests)

/-! ### Releases of a sequencer (spec/08 R189, R197) -/

/-- Errors that the pushes of a release meet at their homes, other than an earlier poison, which a write leaves (spec/18 R379), and homes
that cannot be reached (spec/20 R404). -/
def State.relErrors (s : State) (q : Nat) : Try Unit :=
  let c := coreOf q
  let ls := (s.relLines c (s.ctxOf q)).filter fun l =>
    !s.ownsM l (clusterOfCore c) && (s.lost l || s.sideBad l || s.mem.badData.contains l)
  tryList ls s fun s l =>
    if s.lost l then .trap s (lostTrap l) else s.meetErrors q (s.ctxOf q) l { cls := pcMem, write := true }

/-- The release of a sequencer at a scope: earlier stores and narrow atomics first, then the bytes outward. `bn` is the bundle of a release
that a start store of a later one does not hold back. -/
def State.tryRelease (s : State) (q : Nat) (sc : Scope) (bn : Option Nat := none) : Try Unit :=
  let evs := s.storeEvents q ++ s.drainStreams q
  if !evs.isEmpty || s.behindStart q bn then .wait s evs
  else
    let ctx := s.ctxOf q
    let c := coreOf q
    if sc = .cr || sc = .cl then .ok (s.release c ctx sc) ()
    else
      match s.relGate c ctx with
      | some (s1, evs) => .wait s1 evs
      | none => (s.relErrors q).bind fun s _ => .ok (s.release c ctx sc) ()

/-- Every earlier hal access performed (spec/11 R248, R265). -/
def State.tryHalDone (s : State) (q : Nat) : Try Unit :=
  let evs := s.halEvents q ++ s.askEvents q
  if evs.isEmpty then .ok s () else .wait s evs

/-! ### Program order at the end of a bundle (spec/03 R75) -/

/-- iters(L) of R75. -/
def Loop.iters (l : Loop) : Nat := if l.stages = 0 then l.n.toNat else l.n.toNat + l.stages - 1

/-- stage_on(j, n, t) of R75. -/
def stageOn (j : Nat) (n t : Word) : Bool := j ≤ t.toNat && t.toNat - j < n.toNat

/-- set_stage(L): write p8 to p(8 + S − 1). -/
def setStage (r : Regs) (l : Loop) : Nat → Regs
  | 0 => r
  | j + 1 =>
    let r1 := setStage r l j
    r1.setP (BitVec.ofNat 7 (8 + j)) (if stageOn j l.n l.t then 0xFFFFFFFF#32 else 0#32)

/-- Restore saved stage predicates from p(8 + j) on. -/
def restoreStage (r : Regs) (j : Nat) : List (BitVec 32) → Regs
  | [] => r
  | x :: xs => restoreStage (r.setP (BitVec.ofNat 7 (8 + j)) x) (j + 1) xs

/-- The back edge of the levels that end at a bundle: the innermost counts; when it is done it is popped and the next one
that ends there counts. The new target, if any level goes on. -/
def backEdge (b : Word) (r : Regs) : List Loop → Regs × List Loop × Option Word
  | [] => (r, [], none)
  | l :: ls =>
    if l.last = b then
      let l1 := { l with t := l.t + 1#64 }
      if l1.t.toNat < l.iters then
        (if l.stages = 0 then r else setStage r l1 l.stages, l1 :: ls, some l.start)
      else backEdge b (restoreStage r 0 l.saved) ls
    else (r, l :: ls, none)

/-- Whether the loop step at a bundle writes stage predicates. -/
def writesStage (b : Word) : List Loop → Bool
  | [] => false
  | l :: ls => l.last == b && (l.stages != 0 || writesStage b ls)

/-- Settle where program order goes after the last bundle of the window: a taken transfer, or else the back edges. -/
def Seq.turnOver (x : Seq) : Seq :=
  match x.c.turn with
  | none => x
  | some _ =>
    let c0 := { x.c with turn := none, redirect := none, pushed := false }
    match x.c.redirect with
    | some t => { x with c := { c0 with pc := t } }
    | none =>
      if x.c.pushed then { x with c := c0 }
      else
        let (r, ls, t) := backEdge (x.c.pc - 16#64) x.r x.c.loops
        { x with r := r, c := { c0 with loops := ls, pc := t.getD x.c.pc } }

/-- Bundles that no queue has issued leave the window: they are fetched again (spec/16 R339, spec/02 R28). -/
def splitWindow : List Win → List Win × Option Win
  | [] => ([], none)
  | e :: t =>
    if e.mask = 0#4 && t.all (fun x => x.mask = 0#4) then ([], some e)
    else
      let (w, c) := splitWindow t
      (e :: w, c)

def Seq.trim (x : Seq) : Seq :=
  -- a gr.done whose slot A has issued was found guarded before that (spec/03 R75)
  let kept := x.c.late.filter fun l => l.alone && x.c.window.any fun e => e.bn == l.bn && e.mask.getLsbD 0
  match splitWindow x.c.window with
  | (w, some e) =>
    { x with c := { x.c with window := w, pc := e.addr, bn := e.bn, turn := none, redirect := none, pushed := false, late := kept } }
  | (w, none) => { x with c := { x.c with window := w, late := kept } }

/-- Past an empty window, the transfer or back edge that ended it is made, unless an answer on its way is still to be written first. -/
def Seq.passEnd (x : Seq) : Seq := if x.c.window.isEmpty && x.f.asks.isEmpty then x.turnOver else x

/-- The resume address: the first bundle that some queue has not issued, in program order: past an empty window, where the
transfer or back edge that ends it leads (spec/03 R53, spec/16 R339). -/
def Seq.position (x : Seq) : Word :=
  match x.c.window with
  | e :: _ => e.addr
  | [] => x.turnOver.c.pc

/-! ### Taking a trap, and resuming (spec/16 R345 to R349) -/

/-- What holds queue B is withdrawn and counts as not issued; an mcas goes on, and its slot counts as issued (spec/16 R339, R351). -/
def State.withdraw (s : State) (q : Nat) : State :=
  let x := s.seq q
  let s1 := { s with dies := s.dies.mapv fun _ d => { d with waiters := d.waiters.filter (· != q) } }
  match x.f.holdB with
  | none => s1
  | some h =>
    match h.what with
    | .mcas _ => s1.setSeq q { x with c := { x.c with window := x.c.window.map (markIssued h.bn 1 x.f.dtime) } }
    | _ => s1.setSeq q { x with f := { x.f with holdB := none } }

/-- A trap or halt stops its sequencer: its position is recorded, a record goes to the fault ring, and the notify pennant is
added to. The device runs no handler. -/
def State.stopSeq (s : State) (q : Nat) (kind slot : Nat) (t : Trap) (place : Word) : State :=
  let s := s.withdraw q
  let x := (s.seq q).trim.passEnd
  let s1 := s.setSeq q { x with c := { x.c with mode := .stopped } }
  s1.putRecord q
    { kind := kind, slot := slot, trap := t, place := place, resume := x.position, cycle := x.c.cyc.setWidth 32 }

/-- Resume a stopped sequencer at its recorded position, or at a new address with an empty window and loop stack
(spec/16 R349). -/
def Seq.resumeAt (x0 : Seq) (pc : Word) : Seq :=
  -- fills and drains begin again at the step that latched a fault (spec/05 R132)
  let x := { x0 with r := { x0.r with q := x0.r.q.mapv fun _ st => { st with fault := none } } }
  if pc = 0#64 then
    { x with c := { x.c with mode := .running, replay := x.c.window.head?.map (·.bn) } }
  else
    { x with c := { x.c with
        mode := .running, replay := none, window := [], loops := [], pc := pc, turn := none, redirect := none, pushed := false, late := [] } }

/-- The slots of a bundle that wait until every other slot has issued. -/
def Seq.lastSlots (x : Seq) (bn : Nat) : BitVec 4 :=
  x.c.late.foldl (fun m l => if l.bn == bn && l.alone then m ||| (1#4 <<< l.slot) else m) 0#4

/-- Whether slot A of a bundle is a trap or a halt, which comes after every other slot (spec/03 R70, R71). -/
def Win.endsLast (e : Win) : Bool :=
  match decodeSlot e.bits .a with
  | .ok (.trap _ _) | .ok (.halt _ _) => true
  | _ => false

/-- The slots of a bundle that a slot which waits for all others does not wait for: of a slot A and a gr.done that both wait, the
gr.done goes first where slot A is a trap or a halt, else slot A (DESIGN CHOICE, log 72). -/
def Seq.spared (x : Seq) (e : Win) (slot : Nat) : BitVec 4 :=
  if (slot == 3) == e.endsLast then x.lastSlots e.bn else 0#4

/-- Whether the running slot is the oldest of its sequencer: every earlier bundle and lower slot, or every other slot of
its bundle, has issued. A slot that waits for all others does not hold back the trap of one of them (spec/03 R70). -/
def Seq.isOldest (x : Seq) (bn slot : Nat) (alone : Bool) : Bool :=
  match x.c.window with
  | [] => true
  | e :: _ =>
    if e.bn < bn then false
    else if bn < e.bn then true
    else
      let need : BitVec 4 := if alone then 0xF#4 &&& ~~~(1#4 <<< slot) &&& ~~~x.spared e slot
        else BitVec.ofNat 4 (2 ^ slot - 1) &&& ~~~x.lastSlots bn
      need &&& ~~~e.mask == 0#4

/-- The guard of a slot that is tried again: it was on when the slot was first tried, and what its group has written since does not count
(spec/03 R75). -/
def State.firstGuard (s : State) (g : BitVec 7) : BitVec 7 :=
  if s.me.c.late.any fun l => l.bn == s.cur.bn && l.slot == s.cur.slot then 0#7 else g

/-- A slot that cannot go on is tried again once it is the oldest. -/
def State.putOff (s : State) (alone : Bool) : State :=
  let x := s.me
  s.setCtl { x.c with late := { bn := s.cur.bn, slot := s.cur.slot, alone := alone } :: x.c.late }

/-- What a stop of a sequencer waits for: everything before it, and then the release at .sy that precedes the notify add (spec/16
R345). -/
def State.beforeStop (s : State) (q : Nat) (evs : List Instr) : Option (State × List Instr) :=
  let evs := evs ++ s.drainStreams q
  if evs.isEmpty then s.relGate (coreOf q) (s.ctxOf q) else some (s, evs)

/-- The running instruction faults: it has no effect; once everything before it has completed, its sequencer stops. -/
def State.raise (s : State) (t : Trap) : Result :=
  if !s.me.isOldest s.cur.bn s.cur.slot false then .next (s.putOff false)
  else
    match s.beforeStop s.cur.seq (s.settleTo s.cur.seq s.cur.bn) with
    | some (s1, evs) => .next (s1.stallOn evs)
    | none => .next (s.stopSeq s.cur.seq 0 s.cur.slot t s.cur.addr)

/-- The outcome of a slot instruction. -/
def Res.finish (r : Res) : Result :=
  match r with
  | .done s occ => .next (s.retireOcc occ)
  | .hold s => .next s
  | .trap s t => s.raise t
  | .wait s evs => .next (s.stallOn evs)

/-- A slot instruction with its guard: off, it only occupies its queue (spec/02 R22). -/
def slotOp (g : BitVec 7) (s : State) (body : State → Res) : Result :=
  if s.guardOn g then (body s).finish else .next s.retire

/-- A slot instruction that always completes. -/
def slotDo (g : BitVec 7) (s : State) (f : State → State) : Result :=
  if s.guardOn g then .next (f s).retire else .next s.retire

/-- Add an awaited result, which stands for n memory requests. -/
def State.await (s : State) (dst : Dst) (v act : BitVec 1024) (n : Nat := 0) : State :=
  let f := s.me.f
  let k := f.outs.foldl (fun m o => max m (o.k + 1)) 0
  s.setFlight { f with outs := f.outs ++ [{ k := k, dst := dst, v := v, act := act, n := n }] }

def State.awaitS (s : State) (d : BitVec 6) (w : Word) (n : Nat := 0) : State :=
  s.await (if d = 0#6 then .drop else .s d) (w.setWidth 1024) (BitVec.allOnes 1024) n

end Sys2Proof.Machine
end

