-- ==== Sys2Proof/Machine/Flags.lean ====
section
/-! DEFINITION. Predicate pairs, compare conditions, and the sticky flags of cr.fmt (spec/03 R64, R65, spec/04 R97 to R101,
spec/02 R34). -/

namespace Sys2Proof.Machine

/-- All lanes, or none. -/
def allIf (b : Bool) : BitVec 32 := if b then 0xFFFFFFFF#32 else 0#32

/-- The members of a pair (spec/02 R35). -/
def pairLo (n : BitVec 6) : BitVec 7 := n ++ 0#1
def pairHi (n : BitVec 6) : BitVec 7 := n ++ 1#1

/-- Write a predicate and its complement to a pair; p0 keeps its ones (spec/03 R64). -/
def State.writePair (s : State) (n : BitVec 6) (c : Bool) : State :=
  (s.wp (pairLo n) (allIf c)).wp (pairHi n) (allIf (!c))

/-- A condition on two 64-bit values (spec/02 R40). -/
def condHolds (c : Cond) (a b : Word) : Bool :=
  match c with
  | .eq => a == b
  | .ne => a != b
  | .lt => a.slt b
  | .le => a.sle b
  | .ltu => a.ult b
  | .leu => a.ule b

/-! ### FP32 compares (spec/03 R65) -/

def f32IsNaN (x : BitVec 32) : Bool := 0x7F800000 < x.toNat % 2 ^ 31

/-- A key that orders the FP32 values that are no NaN; both zeros have key 0. -/
def f32Key (x : BitVec 32) : Int := if x.msb then -((x.toNat % 2 ^ 31 : Nat) : Int) else ((x.toNat : Nat) : Int)

def fcondHolds (c : FCond) (a b : BitVec 32) : Bool :=
  let un := f32IsNaN a || f32IsNaN b
  match c with
  | .eq => !un && f32Key a == f32Key b
  | .ne => un || f32Key a != f32Key b
  | .lt => !un && decide (f32Key a < f32Key b)
  | .le => !un && decide (f32Key a ≤ f32Key b)
  | .un => un

/-! ### cr.fmt -/

/-- The format bits as they take effect: a sys.wr of an unacceptable value sets the reset value (spec/04 R100). -/
def fmtAccepted (v : BitVec 14) : Bool := fmtFieldsOk (fld 12 2 v) (fld 8 4 v) (fld 4 4 v) (fld 0 4 v)

/-- What one write makes of the format bits and the flags. -/
def fmtApply (_bits : BitVec 14) (w : BitVec 14 × Option (BitVec 4)) : BitVec 14 :=
  match w.2 with
  | none => w.1
  | some _ => if fmtAccepted w.1 then w.1 else 0#14

/-- The writes in effect for a bundle, earliest first: those four or more bundles before it (spec/02 R34). -/
def FmtState.inEffect (f : FmtState) (bn : Nat) : List (Nat × BitVec 14 × Option (BitVec 4)) :=
  f.writes.filter fun w => decide (w.1 + 4 ≤ bn)

/-- The format bits in effect for a bundle. -/
def FmtState.bitsAt (f : FmtState) (bn : Nat) : BitVec 14 := (f.inEffect bn).foldl (fun b w => fmtApply b w.2) f.base

/-- The latest sys.wr in effect: its bundle and the flags it leaves, fi being set by an unacceptable value. -/
def lastFlagWrite : List (Nat × BitVec 14 × Option (BitVec 4)) → Option (Nat × BitVec 4)
  | [] => none
  | w :: ws =>
    match lastFlagWrite ws with
    | some r => some r
    | none =>
      match w.2.2 with
      | some fl => some (w.1, if fmtAccepted w.2.1 then fl else fl ||| 1#4)
      | none => none

/-- The flag bits that a sys.rd in a bundle returns: fi, fo, fu, fx from bit 0 up (spec/04 R97, R101). -/
def FmtState.flagsAt (f : FmtState) (bn : Nat) : BitVec 4 :=
  match lastFlagWrite (f.inEffect bn) with
  | some (k, fl) => (f.raises.filter fun r => decide (k < r.1 && r.1 < bn)).foldl (fun a r => a ||| r.2) fl
  | none => (f.raises.filter fun r => decide (r.1 < bn)).foldl (fun a r => a ||| r.2) f.flags

/-- The word of cr.fmt for a bundle. -/
def FmtState.wordAt (f : FmtState) (bn : Nat) : Word :=
  BitVec.ofNat 64 ((f.flagsAt bn).toNat * 2 ^ 32 + (f.bitsAt bn).toNat)

/-- Writes that have taken effect for every bundle from one on become the value itself. -/
def FmtState.fold (f : FmtState) (bn : Nat) : FmtState :=
  let ws := f.inEffect bn
  let late := f.writes.filter fun w => !(w.1 + 4 ≤ bn)
  match lastFlagWrite ws with
  | some (k, fl) =>
    { base := f.bitsAt bn, flags := fl, writes := late, raises := f.raises.filter fun r => decide (k < r.1) }
  | none => { base := f.bitsAt bn, flags := f.flags, writes := late, raises := f.raises }

/-- Flags of one operation. -/
structure FlagSet where
  invalid : Bool := false
  overflow : Bool := false
  underflow : Bool := false
  inexact : Bool := false
  deriving DecidableEq, Repr

def FlagSet.bits (f : FlagSet) : BitVec 4 :=
  (if f.invalid then 1#4 else 0#4) ||| (if f.overflow then 2#4 else 0#4) ||| (if f.underflow then 4#4 else 0#4) |||
    (if f.inexact then 8#4 else 0#4)

def FlagSet.or (a b : FlagSet) : FlagSet :=
  { invalid := a.invalid || b.invalid, overflow := a.overflow || b.overflow, underflow := a.underflow || b.underflow,
    inexact := a.inexact || b.inexact }

/-- An instruction raises flags in its bundle; none raised leaves cr.fmt as it is (spec/04 R101). -/
def State.raiseFlags (s : State) (fl : BitVec 4) : State :=
  if fl = 0#4 then s
  else
    let c := s.me.c
    s.setCtl { c with fmt := { c.fmt with raises := c.fmt.raises ++ [(s.cur.bn, fl)] } }

end Sys2Proof.Machine
end

