-- ==== Sys2Proof/Machine/Control.lean ====
section
/-! DEFINITION. Transfers, traps and halts, hardware loops, speculative regions, cr.fmt, shape shadows and control registers
(spec/03 R52, R67 to R86, spec/04 R97 to R101, spec/05 R123, R124, spec/06 R137, spec/16 R352, spec/22 R427). -/

namespace Sys2Proof.Machine

/-! ### Transfers (spec/03 R67 to R69) -/

/-- A signed offset of bundles, in bytes. -/
def bundles {n : Nat} (off : BitVec n) : Word := off.signExtend 64 * 16#64

/-- A taken transfer: it takes effect after its bundle. -/
def State.transfer (s : State) (t : Word) : State := s.setCtl { s.me.c with redirect := some t }

def execBr (g : BitVec 4) (off : BitVec 19) (s : State) : Result :=
  slotDo (g.setWidth 7) s fun s => s.transfer (s.cur.addr + bundles off)

def execCall (g : BitVec 4) (off : BitVec 19) (s : State) : Result :=
  slotDo (g.setWidth 7) s fun s => (s.ws 63#6 (s.cur.addr + 16#64)).transfer (s.cur.addr + bundles off)

/-- The misaligned target of a jmp or ret (spec/03 R68, spec/16 R348). The access has no path class of its own; the code of
a bundle fetch stands for it (DEDUCED, log 32). -/
def jumpTrap (t : Word) : Trap := addrTrap 0x13 t { cls := pcFetch, fetch := true } 0 0 0

/-- jmp and ret: the target is read before the link is written (spec/03 R67). -/
def jumpTo (g : BitVec 4) (d a : BitVec 6) (s : State) : Result :=
  slotOp (g.setWidth 7) s fun s =>
    let t := s.rs a
    if t.toNat % 16 ≠ 0 then .trap s (jumpTrap t)
    else .done ((s.ws d (s.cur.addr + 16#64)).transfer t) 1

def execJmp (g : BitVec 4) (d a : BitVec 6) (s : State) : Result := jumpTo g d a s
def execRet (g : BitVec 4) (a : BitVec 6) (s : State) : Result := jumpTo g 0#6 a s

/-! ### Traps and halts (spec/03 R70, R71) -/

/-- The number of bytes that a copy moves (spec/12 R290, R292). -/
def Copy.total (c : Copy) : Nat :=
  let n := (c.words.getD 2 0#64).toNat
  (n % 65536 + 1) * (n / 65536 % 65536 + 1) * (n / 2 ^ 32 % 65536 + 1)

/-- Whether the last chunk of a copy has been delivered. -/
def Copy.delivered (c : Copy) : Bool := !c.words.isEmpty && decide (c.total ≤ c.pos)

/-- The event that carries the copy at the head of a channel on. -/
def Channel.event (c : Channel) (ch : Nat) : Instr :=
  match c.copies with
  | x :: _ => if x.delivered then .copyComplete ch else .copyChunk ch
  | [] => .copyChunk ch

/-- Copies that a sequencer started and that are not complete. -/
def State.copyEvents (s : State) (q : Nat) : List Instr :=
  ((s.core (coreOf q)).chans.filter fun e => e.2.copies.any fun c => c.q == q && c.node.isNone).map fun e => e.2.event (coreOf q * 256 + e.1)

/-- Everything that a halt of a bundle waits for (spec/03 R71). -/
def State.drainAll (s : State) (q bn : Nat) : List Instr :=
  s.settleTo q bn ++ s.halEvents q ++ s.drainStreams q ++ s.tileEvents q ++ s.copyEvents q

/-- A slot of a bundle whose other slots must have issued first: otherwise it is put off. -/
def State.alone (s : State) (f : State → Res) : Res :=
  if s.me.isOldest s.cur.bn s.cur.slot true then f s else .hold (s.putOff true)

/-- The bundle has issued whole; its sequencer stops and resumes at the next bundle in program order (spec/16 R345). -/
def State.stopAfter (s : State) (q bn kind : Nat) (addr : Word) (t : Word → Trap) : State :=
  let x := ((s.seq q).retire bn 0 1).turnOver
  (s.setSeq q x).stopSeq q kind 0 (t x.position) addr

/-- The software trap: its code, and the address of the next bundle (spec/16 R348). -/
def softTrap (code : BitVec 19) (next : Word) : Trap := { code := 0x60, w4 := code.setWidth 64, w5 := next }

/-- The stop of a halt (spec/03 R71). -/
def haltTrap (code : BitVec 19) (_ : Word) : Trap := { code := 0, w4 := code.setWidth 64 }

def execTrap (g : BitVec 4) (code : BitVec 19) (s : State) : Result :=
  slotOp (g.setWidth 7) s fun s => s.alone fun s =>
    match s.beforeStop s.cur.seq (s.settleTo s.cur.seq s.cur.bn) with
    | some (s1, evs) => .wait s1 evs
    | none => .hold (s.stopAfter s.cur.seq s.cur.bn 0 s.cur.addr (softTrap code))

/-- halt waits until everything before it is performed; HALT_STOP then stops the sequencer. -/
def execHalt (g : BitVec 4) (_code : BitVec 19) (s : State) : Result :=
  slotOp (g.setWidth 7) s fun s => s.alone fun s =>
    match s.beforeStop s.cur.seq (s.drainAll s.cur.seq s.cur.bn) with
    | some (s1, evs) => .wait s1 evs
    | none => .hold { s with agenda := .haltStop s.cur.seq :: s.agenda }

/-- The code of the halt that stands at the head of a window, its other slots issued. -/
def Seq.haltCode (x : Seq) : Option (Win × BitVec 19) :=
  match x.c.window with
  | [] => none
  | e :: _ =>
    match decodeSlot e.bits .a with
    | .ok (.halt g code) => if e.mask = 0xE#4 && (x.r.getP (g.setWidth 7)).getLsbD 0 then some (e, code) else none
    | _ => none

def execHaltStop (q : Nat) (s : State) : Result :=
  match (s.seq q).haltCode with
  | none => .next s
  | some (e, code) =>
    if (s.beforeStop q (s.drainAll q e.bn)).isNone then .next (s.stopAfter q e.bn 1 e.addr (haltTrap code)) else .next s

/-- A held record is retried (spec/16 R346). -/
def execFaultRecordRetry (q : Nat) (s : State) : Result := .next (s.retryRecords (s.ctxOf q))

/-! ### Loops (spec/03 R73 to R78) -/

/-- Pop the innermost k levels, restoring their stage predicates. -/
def popLoops : Nat → Regs → List Loop → Regs × List Loop
  | 0, r, ls => (r, ls)
  | _ + 1, r, [] => (r, [])
  | k + 1, r, l :: ls => popLoops k (restoreStage r 0 l.saved) ls

/-- lbrk; when a level that it pops restores stage predicates it waits for the other slots of its group, which see the state
from before, and for answers on their way to predicates (spec/03 R75, R76). -/
def execLbrk (g : BitVec 4) (k : BitVec 3) (off : BitVec 16) (s : State) : Result :=
  slotOp (g.setWidth 7) s fun s =>
    let n := k.toNat + 1
    let go := fun (s : State) =>
      let (r, ls) := popLoops n s.me.r s.me.c.loops
      let s1 := s.setRegs r
      Res.done ((s1.setCtl { s1.me.c with loops := ls }).transfer (s.cur.addr + bundles off)) 1
    if (s.me.c.loops.take n).any fun l => l.stages != 0 then
      s.alone fun s =>
        let evs := s.askEvents s.cur.seq
        if evs.isEmpty then go s else .wait s evs
    else go s

/-- The stage predicates that a push saves. -/
def savedStages (r : Regs) : Nat → List (BitVec 32)
  | 0 => []
  | n + 1 => savedStages r n ++ [r.getP (BitVec.ofNat 7 (8 + n))]

/-- The effect of loop and loop.sp (spec/03 R75). -/
def State.pushLoop (s : State) (n : Word) (len : BitVec 9) (stages : Nat) : State :=
  let pc := s.cur.addr
  if n = 0#64 then s.transfer (pc + 16#64 * (len.setWidth 64 + 2#64))
  else
    let l : Loop :=
      { start := pc + 16#64, last := pc + 16#64 * (len.setWidth 64 + 1#64), n := n, stages := stages, t := 0#64,
        saved := savedStages s.me.r stages }
    let s1 := s.setRegs (setStage s.me.r l stages)
    s1.setCtl { s1.me.c with loops := l :: s1.me.c.loops, pushed := true }

def execLoop (g : BitVec 4) (a : BitVec 6) (len : BitVec 9) (s : State) : Result :=
  slotDo (g.setWidth 7) s fun s => s.pushLoop (s.rs a) len 0

/-- loop.sp saves and writes stage predicates after every other slot of its group (spec/03 R75). -/
def execLoopSp (g : BitVec 4) (a : BitVec 6) (len : BitVec 9) (aux : BitVec 4) (s : State) : Result :=
  slotOp (g.setWidth 7) s fun s => s.alone fun s =>
    let evs := s.askEvents s.cur.seq
    if evs.isEmpty then .done (s.pushLoop (s.rs a) len (aux.toNat + 1)) 1 else .wait s evs

/-! ### Speculative regions (spec/03 R80 to R84) -/

/-- spec.begin; a commit or abort that has not taken effect comes first in program order. -/
def execSpecBegin (g : BitVec 4) (s : State) : Result :=
  slotOp (g.setWidth 7) s fun s =>
    let x := s.me.c.region
    if x.fin.isSome then .wait s [.specRegionEnd s.cur.seq]
    else if x.isOpen then .done s 1
    else .done (s.setCtl { s.me.c with region := { isOpen := true, since := s.cur.bn } }) 1

/-- spec.commit and spec.abort take effect at SPEC_REGION_END. -/
def endRegion (commit : Bool) (g : BitVec 4) (s : State) : Result :=
  slotDo (g.setWidth 7) s fun s =>
    let x := s.me.c.region
    if x.isOpen && x.fin.isNone then s.setCtl { s.me.c with region := { x with fin := some (s.cur.bn, commit) } } else s

def execSpecCommit (g : BitVec 4) (s : State) : Result := endRegion true g s
def execSpecAbort (g : BitVec 4) (s : State) : Result := endRegion false g s

/-- The marked buffers that a sequencer owns. -/
def State.markedBufs (s : State) (q : Nat) : List Desc :=
  ((s.core (coreOf q)).descs.filter fun e => e.2.state != bfFree && e.2.spec && e.2.owner.toNat == quadOf q).map (·.2)

/-- The region lines of a sequencer's marked buffers. -/
def State.regionLines (s : State) (q : Nat) : List Nat :=
  (s.core (coreOf q)).region.filter fun l =>
    (s.markedBufs q).any fun d => d.lo ≤ 64 * l && 64 * l < d.lo + d.size

/-- Covered writes that are not yet performed. -/
def Seq.coveredLeft (x : Seq) (e : Nat) : Bool :=
  let st := fun (l : List StoreEnt) => l.any fun a => match a.act with | .loc _ cov => cov && a.bn ≤ e | _ => false
  st x.f.storeB || st x.f.storeC || x.r.q.any fun n => n.2.bound && n.2.pat.ctl.getLsbD 0 && n.2.queue.any (·.cov)

/-- Every bundle before a number has issued in every queue, and that of the number in the queues whose writes a region covers and in its
own (spec/03 R82). -/
def Seq.issuedTo (x : Seq) (bn : Nat) : Bool :=
  x.c.window.all (fun e => bn < e.bn || (e.bn == bn && e.mask &&& 7#4 == 7#4)) && decide (bn < x.c.bn)

/-- Toggle the membership of lines. -/
def toggle (live ls : List Nat) : List Nat :=
  live.filter (fun l => !ls.contains l) ++ ls.filter fun l => !live.contains l

def execSpecRegionEnd (q : Nat) (s : State) : Result :=
  let x := s.seq q
  match x.c.region.fin with
  | none => .next s
  | some (e, commit) =>
    if x.issuedTo e && !x.coveredLeft e then
      let ls := s.regionLines q
      let c := s.core (coreOf q)
      let c1 := { c with live := if commit then toggle c.live ls else c.live,
                         region := c.region.filter fun l => !ls.contains l }
      let s1 := s.setCore (coreOf q) c1
      .next (s1.setSeq q { x with c := { x.c with region := {} } })
    else .next s

/-! ### cr.fmt (spec/02 R34, spec/04 R97 to R101) -/

/-- fmt.set leaves the flags alone and takes effect four bundles later. -/
def execFmtSet (g : BitVec 4) (hsz : BitVec 2) (ofmt wfmt afmt : BitVec 4) (s : State) : Result :=
  slotDo (g.setWidth 7) s fun s =>
    let c := s.me.c
    s.setCtl { c with fmt := { c.fmt with writes := c.fmt.writes ++ [(s.cur.bn, hsz ++ ofmt ++ wfmt ++ afmt, none)] } }

/-- The oldest bundle of a sequencer that some queue has not issued. -/
def Seq.oldestBn (x : Seq) : Nat :=
  match x.c.window with
  | e :: _ => e.bn
  | [] => x.c.bn

/-- Writes that every bundle still to issue sees become the value itself. -/
def execFmtSetEffect (q : Nat) (s : State) : Result :=
  let x := s.seq q
  .next (s.setSeq q { x with c := { x.c with fmt := x.c.fmt.fold x.oldestBn } })

/-! ### Shape shadows (spec/05 R123, R124, spec/06 R137) -/

def CShape.put (c : CShape) (field : Nat) (w : Word) : CShape :=
  match field with
  | 0 => { c with ctl := w.setWidth 5 }
  | 1 => { c with estride := w.setWidth 24 }
  | 2 => { c with count0 := w.setWidth 24 }
  | 3 => { c with count1 := w.setWidth 24 }
  | 4 => { c with count2 := w.setWidth 24 }
  | 5 => { c with count3 := w.setWidth 24 }
  | 6 => { c with stride0 := w.setWidth 40 }
  | 7 => { c with stride1 := w.setWidth 40 }
  | 8 => { c with stride2 := w.setWidth 40 }
  | 9 => { c with stride3 := w.setWidth 40 }
  | _ => c

def KShape.put (k : KShape) (field : Nat) (w : Word) : KShape :=
  match field with
  | 0 => { k with ctl := w.setWidth 2 }
  | 1 => { k with rows := w.setWidth 6 }
  | 2 => { k with row0 := w.setWidth 5 }
  | 3 => { k with col0 := w.setWidth 1 }
  | 4 => { k with rstride := w.setWidth 40 }
  | 5 => { k with scale := w.setWidth 32 }
  | 6 => { k with clip := w.setWidth 32 }
  | _ => k

/-- Codes 0 to 3 name cN.sh, 4 to 7 kN.sh. -/
def Regs.shf (r : Regs) (code : BitVec 3) (field : Nat) (w : Word) : Regs :=
  let n : BitVec 2 := code.setWidth 2
  if code.msb then { r with ksh := Tab.put r.ksh n.toNat ((r.getKsh n).put field w) }
  else { r with csh := Tab.put r.csh n.toNat ((r.getCsh n).put field w) }

def execShf (g : BitVec 4) (code : BitVec 3) (field : BitVec 4) (a : BitVec 6) (s : State) : Result :=
  slotDo (g.setWidth 7) s fun s => s.setRegs (s.me.r.shf code field.toNat (s.rs a))

/-! ### Control registers (spec/03 R85, R86) -/

/-- Whether a sequencer drives an array (spec/06 R135). -/
def State.drives (s : State) (q : Nat) : Bool :=
  match s.groupOf q with
  | none => false
  | some (gh, g) => !g.joined || (groupSeqs gh).head? == some q

/-- The iteration number of a loop level; a missing level reads zero (spec/03 R79). -/
def loopIndex (ls : List Loop) (k : Nat) : Word :=
  match ls[k]? with
  | some l => l.t
  | none => 0#64

/-- The value of a control register for a bundle of a sequencer. -/
def State.sysValue (s : State) (q bn : Nat) (addr : Word) (num : Nat) : Word :=
  let x := s.seq q
  let ctx := s.ctxOf q
  match num with
  | 0x000 => x.c.fmt.wordAt bn
  | 0x010 => loopIndex x.c.loops 0
  | 0x011 => loopIndex x.c.loops 1
  | 0x012 => loopIndex x.c.loops 2
  | 0x013 => loopIndex x.c.loops 3
  | 0x014 => loopIndex x.c.loops 4
  | 0x015 => loopIndex x.c.loops 5
  | 0x016 => BitVec.ofNat 64 x.c.loops.length
  | 0x017 =>
    match x.c.loops with
    | l :: _ => BitVec.ofNat 64 (l.iters - l.t.toNat - 1)
    | [] => 0#64
  | 0x018 => BitVec.ofNat 64 ((if x.c.region.isOpen then 1 else 0) + if (s.regionLines q).isEmpty then 0 else 2)
  | 0x020 => addr
  | 0x021 => x.c.cyc
  | 0x022 => BitVec.ofNat 64 (q + s.link.dev.toNat * 2 ^ 14)
  | 0x023 =>
    BitVec.ofNat 64 ((match s.groupOf q with | some (gh, _) => maskOf gh | none => 0) + 16 * quadOf q +
      if s.drives q then 64 else 0)
  | 0x024 => BitVec.ofNat 64 (ctx + (s.ctx ctx).owner * 2 ^ 16)
  | 0x100 => if x.c.preq then 1#64 else 0#64
  | 0x101 => x.c.rsm.setWidth 64
  | 0x102 => BitVec.ofNat 64 (s.ctx ctx).ksl
  | 0x103 => (s.ctx ctx).fring
  | 0x180 => BitVec.ofNat 64 s.mast.clk
  | 0x181 => BitVec.ofNat 64 (s.link.dev.toNat + if s.link.domain.isSome then 8 else 0)
  | 0x182 => (Config.bootid s.mast.boot).setWidth 64
  | _ => 0#64

def execSysRd (g : BitVec 4) (d : BitVec 6) (num : BitVec 13) (s : State) : Result :=
  slotDo (g.setWidth 7) s fun s => s.ws d (s.sysValue s.cur.seq s.cur.bn s.cur.addr num.toNat)

/-- sys.wr writes cr.fmt; any number of the system range is privileged (spec/03 R85, spec/04 R100, R101). -/
def execSysWr (g : BitVec 4) (d : BitVec 6) (num : BitVec 13) (s : State) : Result :=
  slotOp (g.setWidth 7) s fun s =>
    if num = 0#13 then
      let w := s.rs d
      let c := s.me.c
      .done (s.setCtl { c with fmt := { c.fmt with
        writes := c.fmt.writes ++ [(s.cur.bn, w.setWidth 14, some (w.extractLsb' 32 4))] } }) 1
    else .trap s { code := 0x02, w4 := num.setWidth 64 }

end Sys2Proof.Machine
end

