-- ==== Sys2Proof/Machine/Check.lean ====
section
/-! DEFINITION. The resources of the group rule, which the scoreboard orders as well, and the checks of a group (spec/02 R24 to
R27, R32, R47, spec/03 R77). -/

namespace Sys2Proof.Machine

/-! ### Resources (spec/02 R25) -/

/-- What an instruction reads and writes, by number: s from 0, p from 100, v from 300, q from 400, c from 410, k from 420,
their shadows from 430 and 440, cr.fmt 450, the loop indices 460, other control registers from 500. -/
structure Uses where
  r : List Nat := []
  w : List Nat := []
  deriving DecidableEq, Repr

def Uses.and (a b : Uses) : Uses := { r := a.r ++ b.r, w := a.w ++ b.w }

/-- Whether two instructions touch one resource and either writes it. -/
def Uses.conflict (a b : Uses) : Bool :=
  a.w.any (fun x => b.w.contains x || b.r.contains x) || b.w.any fun x => a.r.contains x

/-- Writes to s0 and p0 are no resource, nor are their reads. -/
def rS (n : BitVec 6) : Uses := { r := if n = 0#6 then [] else [n.toNat] }
def wS (n : BitVec 6) : Uses := { w := if n = 0#6 then [] else [n.toNat] }
def rP (n : BitVec 7) : Uses := { r := if n = 0#7 then [] else [100 + n.toNat] }
def wP (n : BitVec 7) : Uses := { w := if n = 0#7 then [] else [100 + n.toNat] }
def wPair (n : BitVec 6) : Uses := (wP (pairLo n)).and (wP (pairHi n))
/-- A stream access advances the stream. -/
def uQ (n : BitVec 3) : Uses := { w := [400 + n.toNat] }
def rV : VOp → Uses
  | .v n => { r := [300 + n.toNat] }
  | .q n => uQ n
def wV : VOp → Uses
  | .v n => { w := [300 + n.toNat] }
  | .q n => uQ n
def rM : MOp → Uses
  | .s n => rS n
  | .q n => uQ n
def uC (c : BitVec 2) (sw : BitVec 1) : Uses :=
  if sw = 1#1 then { w := [410 + c.toNat, 430 + c.toNat] } else { r := [410 + c.toNat] }
def uK (k : BitVec 2) (sw : BitVec 1) : Uses :=
  if sw = 1#1 then { w := [420 + k.toNat, 440 + k.toNat] } else { r := [420 + k.toNat] }

def useAll : List Uses → Uses
  | [] => {}
  | u :: us => u.and (useAll us)

/-- The shape of three-register scalar forms. -/
def u3 (d a b : BitVec 6) : Uses := useAll [wS d, rS a, rS b]
def u2 (d a : BitVec 6) : Uses := useAll [wS d, rS a]
/-- The shapes of vector forms. -/
def uC3 (vd va vb : VOp) (lp : BitVec 7) : Uses := useAll [wV vd, rV va, rV vb, rP lp]
def uC2 (vd va : VOp) (lp : BitVec 7) : Uses := useAll [wV vd, rV va, rP lp]
def uCS (vd va : VOp) (s : BitVec 6) (lp : BitVec 7) : Uses := useAll [wV vd, rV va, rS s, rP lp]

/-- The guard of an instruction that is no nop. -/
def guardOf : Instr → BitVec 7
  | .br g _ | .jmp g _ _ | .call g _ | .ret g _ | .trap g _ | .halt g _ | .lbrk g _ _ | .loop g _ _ | .loopSp g _ _ _
  | .specBegin g | .specCommit g | .specAbort g | .fmtSet g _ _ _ _ | .shf g _ _ _
  | .addAr g _ _ _ | .subAr g _ _ _ | .mul g _ _ _ | .mulh g _ _ _ | .mulhu g _ _ _ | .div g _ _ _ | .divu g _ _ _
  | .clz g _ _ | .andAr g _ _ _ | .orAr g _ _ _ | .xorAr g _ _ _ | .shlAr g _ _ _ | .shrAr g _ _ _ | .sraAr g _ _ _
  | .popc g _ _ | .min g _ _ _ | .max g _ _ _ | .minu g _ _ _ | .maxu g _ _ _ | .addAi g _ _ _ | .andAi g _ _ _
  | .orAi g _ _ _ | .xorAi g _ _ _ | .shlAi g _ _ _ | .shrAi g _ _ _ | .sraAi g _ _ _ | .cmpEqAr g _ _ _
  | .cmpNeAr g _ _ _ | .cmpLtAr g _ _ _ | .cmpLeAr g _ _ _ | .cmpLtuAr g _ _ _ | .cmpLeuAr g _ _ _ | .sysRd g _ _
  | .sysWr g _ _ | .moviAw g _ _ => g.setWidth 7
  | .addB3 g _ _ _ | .subB3 g _ _ _ | .andB3 g _ _ _ | .orB3 g _ _ _ | .xorB3 g _ _ _ | .shlB3 g _ _ _ | .shrB3 g _ _ _
  | .sraB3 g _ _ _ | .lea g _ _ _ _ | .sel g _ _ _ _ | .extB g _ _ _ _ | .insB g _ _ _ _ | .addBi g _ _ _
  | .moviBw g _ _ | .movhi g _ _ | .cmpB3 g _ _ _ _ | .cmpBc g _ _ _ _ | .fcmp g _ _ _ _ | .pand g _ _ _ _
  | .por g _ _ _ _ | .pxor g _ _ _ _ | .pnot g _ _ | .pmov g _ _ | .pset g _ _ _ _ | .ldB g _ _ _ _ | .ldH g _ _ _ _
  | .ldW g _ _ _ _ | .ldD g _ _ _ _ | .stB g _ _ _ _ | .stH g _ _ _ _ | .stW g _ _ _ _ | .stD g _ _ _ _ | .pf g _ _ _
  | .lqPop g _ | .ldSp g _ _ _ | .stSp g _ _ _ | .tsLd g _ _ _ _ _ | .tsSt g _ _ _ _ | .atR g _ _ _ _ | .atCas g _ _ _ _
  | .red g _ _ _ _ | .mcas g _ _ | .fence g _ | .xfence g _ _ | .bfDecl g _ _ _ _ _ | .bfFill g _ | .bfDone g _
  | .bfDrain g _ | .bfFree g _ | .bfState g _ _ | .pnAdd g _ _ _ _ | .pnWait g _ _ _ _ | .pnTest g _ _ _ _
  | .pnRead g _ _ _ | .rbAwait g _ _ _ _ | .rbRelease g _ _ _ => g
  | .vld g _ _ _ _ _ _ | .vst g _ _ _ _ _ _ | .vaddC3 g _ _ _ _ _ | .vsubC3 g _ _ _ _ _ | .vmulC3 g _ _ _ _ _
  | .vfmaC3 g _ _ _ _ _ | .vminC3 g _ _ _ _ _ | .vmaxC3 g _ _ _ _ _ | .vand g _ _ _ _ | .vor g _ _ _ _ | .vxor g _ _ _ _
  | .vshlC3 g _ _ _ _ _ | .vshrC3 g _ _ _ _ _ | .vsel g _ _ _ _ | .vcmp g _ _ _ _ _ | .vaddCs g _ _ _ _ _
  | .vsubCs g _ _ _ _ _ | .vmulCs g _ _ _ _ _ | .vfmaCs g _ _ _ _ _ | .vminCs g _ _ _ _ _ | .vmaxCs g _ _ _ _ _
  | .vshlCs g _ _ _ _ _ | .vshrCs g _ _ _ _ _ | .vcvt g _ _ _ _ _ _ | .vhad g _ _ _ _ _ | .vred g _ _ _ _ _
  | .vperm g _ _ _ _ | .vbcast g _ _ _ _ | .vrcp g _ _ _ | .vrsqrt g _ _ _ | .vexp2 g _ _ _ | .vlog2 g _ _ _
  | .stb g _ _ _ _ | .stu g _ => g
  | .mmLdw g _ _ _ _ | .mm g _ _ _ _ _ _ | .mmChain g _ _ _ _ _ | .mmZero g _ _ | .mmWb g _ _ _ _ _ | .mmRd g _ _ _ _
  | .mmRdSt g _ _ _ | .mmFuse g _ | .paOpen g _ _ _ _ | .paClose g _ | .paApply g _ _ | .paInv g _ _ | .paComm g _ _
  | .paXplant g _ _ _ | .paSquash g _ _ | .paSnap g _ _ | .paDropPort g _ | .paDropClosed g _ _ | .paQuery g _ _ _
  | .paNorm g _ _ _ | .grLaunch g _ _ | .grArrive g _ | .grCond g _ _ | .grDone g | .segPromote g _ _ _
  | .segPin g _ _ _ | .segUnpin g _ _ _ | .segDemote g _ _ _ | .segQuery g _ _ => g
  | _ => 0#7

/-- The operands of an instruction, without its guard. -/
def opUses : Instr → Uses
  | .jmp _ d a => u2 d a
  | .call _ _ => wS 63#6
  | .ret _ a => rS a
  | .lbrk _ _ _ => { w := [460] }
  | .loop _ a _ | .loopSp _ a _ _ => (rS a).and { w := [460] }
  | .fmtSet _ _ _ _ _ => { w := [450] }
  | .shf _ code _ a => (rS a).and { w := [(if code.msb then 440 else 430) + code.toNat % 4] }
  | .addAr _ d a b | .subAr _ d a b | .mul _ d a b | .mulh _ d a b | .mulhu _ d a b | .div _ d a b | .divu _ d a b
  | .andAr _ d a b | .orAr _ d a b | .xorAr _ d a b | .shlAr _ d a b | .shrAr _ d a b | .sraAr _ d a b
  | .min _ d a b | .max _ d a b | .minu _ d a b | .maxu _ d a b
  | .addB3 _ d a b | .subB3 _ d a b | .andB3 _ d a b | .orB3 _ d a b | .xorB3 _ d a b | .shlB3 _ d a b | .shrB3 _ d a b
  | .sraB3 _ d a b | .lea _ d a b _ => u3 d a b
  | .clz _ d a | .popc _ d a | .addAi _ d a _ | .andAi _ d a _ | .orAi _ d a _ | .xorAi _ d a _ | .shlAi _ d a _
  | .shrAi _ d a _ | .sraAi _ d a _ | .extB _ d a _ _ | .addBi _ d a _ => u2 d a
  | .insB _ x y _ _ => useAll [wS x, rS x, rS y]
  | .cmpEqAr _ n a b | .cmpNeAr _ n a b | .cmpLtAr _ n a b | .cmpLeAr _ n a b | .cmpLtuAr _ n a b | .cmpLeuAr _ n a b
  | .cmpB3 _ n a b _ | .fcmp _ n a b _ => useAll [wPair n, rS a, rS b]
  | .cmpBc _ n a _ _ => (wPair n).and (rS a)
  | .sysRd _ d num =>
    (wS d).and { r := [if num = 0#13 then 450 else if 0x10 ≤ num.toNat && num.toNat ≤ 0x15 then 460 else 500 + num.toNat] }
  | .sysWr _ d num => (rS d).and { w := [if num = 0#13 then 450 else 500 + num.toNat] }
  | .moviAw _ d _ | .moviBw _ d _ => wS d
  | .movhi _ x _ => u2 x x
  | .sel _ x n y z => (u3 x y z).and (rP n)
  | .pand _ x y z _ | .por _ x y z _ | .pxor _ x y z _ => useAll [wP x, rP y, rP z]
  | .pnot _ x y | .pmov _ x y => (wP x).and (rP y)
  | .pset _ x _ _ _ => wP x
  | .ldB _ x b _ _ | .ldH _ x b _ _ | .ldW _ x b _ _ | .ldD _ x b _ _ | .ldSp _ x b _ | .tsLd _ x b _ _ _ => u2 x b
  | .stB _ x b _ _ | .stH _ x b _ _ | .stW _ x b _ _ | .stD _ x b _ _ | .stSp _ x b _ | .tsSt _ x b _ _
  | .atR _ x b _ _ | .red _ x b _ _ => (rS x).and (rS b)
  | .pf _ _ b _ => rS b
  | .lqPop _ x => wS x
  | .atCas _ x b y _ => useAll [rS x, rS b, rS y]
  | .mcas _ y z => (rS y).and (rS z)
  | .bfDecl _ _ y z _ _ => (rS y).and (rS z)
  | .bfState _ x _ => wS x
  | .pnAdd _ _ _ y z => (rS y).and (rS z)
  | .pnWait _ _ y z n => useAll [rS y, rS z, wP n]
  | .pnTest _ p y z n => useAll [wPair p, rS y, rS z, wP n]
  | .pnRead _ x y _ => u2 x y
  | .rbAwait _ x y z n => (u3 x y z).and (wP n)
  | .rbRelease _ x y z => u3 x y z
  | .vld _ v b c sw lp _ => useAll [wV (.v v), rS b, uC c sw, rP lp]
  | .vst _ v b c sw lp _ => useAll [rV (.v v), rS b, uC c sw, rP lp]
  | .vaddC3 _ _ d a b lp | .vsubC3 _ _ d a b lp | .vmulC3 _ _ d a b lp | .vminC3 _ _ d a b lp | .vmaxC3 _ _ d a b lp
  | .vshlC3 _ _ d a b lp | .vshrC3 _ _ d a b lp | .vand _ d a b lp | .vor _ d a b lp | .vxor _ d a b lp
  | .vsel _ d a b lp | .vperm _ d a b lp => uC3 d a b lp
  | .vfmaC3 _ _ d a b lp => (uC3 d a b lp).and (rV d)
  | .vcmp _ n a b _ _ => useAll [wPair n, rV a, rV b]
  | .vaddCs _ _ d a x lp | .vsubCs _ _ d a x lp | .vmulCs _ _ d a x lp | .vminCs _ _ d a x lp | .vmaxCs _ _ d a x lp
  | .vshlCs _ _ d a x lp | .vshrCs _ _ d a x lp => uCS d a x lp
  | .vfmaCs _ _ d a x lp => (uCS d a x lp).and (rV d)
  | .vcvt _ d a _ _ _ _ => (wV d).and (rV a)
  | .vhad _ _ d a _ lp | .vred _ _ _ d a lp | .vrcp _ d a lp | .vrsqrt _ d a lp | .vexp2 _ d a lp | .vlog2 _ d a lp =>
    uC2 d a lp
  | .vbcast _ _ d x lp => useAll [wV d, rS x, rP lp]
  | .stb _ n b c sw => useAll [uQ n, rS b, uC c sw]
  | .stu _ n => uQ n
  | .mmLdw _ x _ k sw => (rM x).and (uK k sw)
  | .mm _ _ x k sw _ _ | .mmWb _ _ x k sw _ | .mmRd _ _ x k sw => (rM x).and (uK k sw)
  | .mmChain _ _ _ k sw _ => uK k sw
  | .mmRdSt _ _ x _ => wS x
  | .paOpen _ _ y z _ => (rS y).and (rS z)
  | .paApply _ y z | .paInv _ y z | .paComm _ y z | .paSquash _ y z | .paDropClosed _ y z | .grCond _ y z =>
    (rS y).and (rS z)
  | .paXplant _ x y z => useAll [rS x, rS y, rS z]
  | .paSnap _ y _ | .grLaunch _ _ y => rS y
  | .paQuery _ x y z | .segPromote _ x y z | .segPin _ x y z | .segUnpin _ x y z | .segDemote _ x y z => u3 x y z
  | .paNorm _ x y _ | .segQuery _ x y => u2 x y
  | _ => {}

/-- Everything that an instruction reads and writes; a nop touches nothing (spec/02 R45). -/
def usesOf (i : Instr) : Uses := if i.isNop then {} else (rP (guardOf i)).and (opUses i)

/-! ### The group check -/

/-- A breach: cause, offending slot, address of the offending bundle. -/
structure Breach where
  cause : Nat
  slot : Nat
  addr : Word
  deriving DecidableEq, Repr

def slotOf (n : Nat) : Slot :=
  match n with
  | 0 => .a | 1 => .b | 2 => .c | _ => .d

/-- Instructions that may stand only in a bundle that ends its group (spec/02 R27, spec/03 R74, spec/12 R287). -/
def transfers : Instr → Bool
  | .br _ _ | .jmp _ _ _ | .call _ _ | .ret _ _ | .trap _ _ | .halt _ _ | .lbrk _ _ _ | .loop _ _ _ | .loopSp _ _ _ _
  | .grDone _ => true
  | _ => false

/-- Cause 0x04 of a loop or lbrk that the loop stack does not allow (spec/03 R77). -/
def depthBad (depth : Nat) : Instr → Bool
  | .loop _ _ _ | .loopSp _ _ _ _ => 6 ≤ depth
  | .lbrk _ k _ => depth < k.toNat + 1
  | _ => false

/-- The cause and slot of a bundle that come first: lowest cause, then lowest slot. -/
def least : List (Nat × Nat) → Option (Nat × Nat)
  | [] => none
  | a :: t =>
    match least t with
    | none => some a
    | some b => if a.1 < b.1 || (a.1 == b.1 && a.2 ≤ b.2) then some a else some b

/-- The uses of the slots of a bundle; a slot that does not decode has none. -/
def bundleUses (b : BitVec 128) : List (Nat × Uses) :=
  [0, 1, 2, 3].map fun n =>
    (n, match decodeSlot b (slotOf n) with | .ok i => usesOf i | .error _ => {})

/-- Group dependences of a bundle: with earlier bundles of its group, and between its own slots; the later slot offends. -/
def dependBad (earlier : List Uses) (us : List (Nat × Uses)) : List (Nat × Nat) :=
  us.filterMap fun e =>
    if earlier.any (fun u => u.conflict e.2) || us.any (fun f => decide (f.1 < e.1) && f.2.conflict e.2) then some (5, e.1)
    else none

/-- The breaches of the nth bundle of a group, counted from 1. -/
def bundleBad (loops : List Loop) (n : Nat) (addr : Word) (b : BitVec 128) (earlier : List Uses) : Option (Nat × Nat) :=
  let ds := [0, 1, 2, 3].map fun k => (k, decodeSlot b (slotOf k))
  let enc := ds.filterMap fun e =>
    match e.2 with
    | .error er => some (er.cause, e.1)
    | .ok i => if depthBad loops.length i then some (4, e.1) else none
  let long := if n = 8 && !stopBit b then [(6, 7)] else []
  let tr := if !stopBit b && ds.any (fun e => match e.2 with | .ok i => transfers i | .error _ => false) then [(7, 0)] else []
  let lp := if !stopBit b && (match loops with | l :: _ => l.last == addr | [] => false) then [(7, 7)] else []
  least (enc ++ dependBad earlier (bundleUses b) ++ long ++ tr ++ lp)

/-- The word of a breach's record (spec/16 R348). -/
def Breach.trap (b : Breach) : Trap :=
  { code := 0x01, w4 := b.addr, w5 := BitVec.ofNat 64 b.cause }

/-- Put a line into an instruction cache of 64 KiB, which is 1 024 lines: the least recent of a full one leaves (the choice of victim
is the model's, DESIGN CHOICE, log 76). -/
def icacheAdd (t : Tab ILine) (key : Nat) (d : BitVec 512) : Tab ILine :=
  let now := t.foldl (fun m e => max m (e.2.use_ + 1)) 0
  let oldest := t.foldl (fun (o : Option (Nat × Nat)) e => match o with
    | some b => if e.2.use_ < b.2 then some (e.1, e.2.use_) else some b
    | none => some (e.1, e.2.use_)) none
  let t1 := match oldest with
    | some (k, _) => if 1024 ≤ t.length && (Tab.get? t key).isNone then Tab.erase t k else t
    | none => t
  Tab.put t1 key { data := d, use_ := now }

/-- Read a bundle through the instruction cache of the core, which fills from the L2 (spec/07 R162). -/
def State.fetch (s : State) (q : Nat) (pc : Word) : Try (BitVec 128) :=
  let ctx := s.ctxOf q
  let c := coreOf q
  let acc : Acc := { cls := pcFetch, fetch := true }
  if inAperture pc then .trap s (addrTrap 0x11 pc acc 0 0 0)
  else if s.noWalker (dieOf q) ctx pc false then .wait s (s.walkEvents (dieOf q))
  else match s.translate (dieOf q) ctx pc acc with
  | (s1, .error t) => .trap s1 t
  | (s1, .ok t) =>
    let s2 := s1.useKey t
    let l := lineOf t.pa
    let take := fun (d : BitVec 512) => BitVec.ofNat 128 (d.toNat / 2 ^ (8 * (t.pa % 64)))
    let keep := fun (s : State) (d : BitVec 512) =>
      s.setCore c { s.core c with icache := icacheAdd (s.core c).icache (l1Key l ctx) d }
    match Tab.get? (s2.core c).icache (l1Key l ctx) with
    | some x => .ok (keep s2 x.data) (take x.data)
    | none =>
      let fill := fun (s : State) =>
        let (s4, d) := s.l2Read (clusterOf q) l ctx
        Try.ok (keep s4 d) (take d)
      if s2.l2Full (clusterOf q) l then fill s2
      else
        match s2.gate l false with
        | some (s3, evs) => .wait s3 evs
        | none => (s2.meetErrors q ctx l acc).bind fun s3 _ => fill s3

/-- What the check of a group finds. -/
inductive GroupVerdict where
  | good (bs : List (Word × BitVec 128))
  | bad (slot : Nat) (t : Trap)
  deriving DecidableEq, Repr

/-- Fetch and check a group from an address: bundle by bundle, at most eight, stopping at the first with a breach or a
fetch fault (spec/02 R24). -/
def State.checkGroup (s : State) (q : Nat) (loops : List Loop) (pc : Word) (n : Nat) (earlier : List Uses)
    (done : List (Word × BitVec 128)) : Nat → Try GroupVerdict
  | 0 => .ok s (.good done)
  | fuel + 1 =>
    match s.fetch q pc with
    | .wait s1 evs => .wait s1 evs
    | .trap s1 t => .ok s1 (.bad 7 t)
    | .ok s1 b =>
      match bundleBad loops n pc b earlier with
      | some (cause, slot) => .ok s1 (.bad slot (Breach.trap { cause := cause, slot := slot, addr := pc }))
      | none =>
        if stopBit b then .ok s1 (.good (done ++ [(pc, b)]))
        else s1.checkGroup q loops (pc + 16#64) (n + 1) (earlier ++ (bundleUses b).map (·.2)) (done ++ [(pc, b)]) fuel

end Sys2Proof.Machine
end

