-- ==== Sys2Proof/Machine/Issue.lean ====
section
/-! DEFINITION. Which slot of which bundle issues next, the group check, and the fetch (spec/02 R23 to R33, spec/08 R199,
spec/09 R219, spec/16 R339). -/

namespace Sys2Proof.Machine

/-- The next bundle of a slot queue: queues issue in program order (spec/02 R29). -/
def Seq.nextOf (x : Seq) (slot : Nat) : Option Win := x.c.window.find? fun e => !e.mask.getLsbD slot

/-- Resources that an awaited result will still write. -/
def Seq.awaited (x : Seq) : Uses :=
  let outs := x.f.outs.map fun o => match o.dst with | .s n => wS n | .v n => wV (.v n) | .drop => {}
  let div := match x.f.divu with | some u => [wS u.dest] | none => []
  let asks := x.f.asks.map fun a => match a with
    | .reg d _ => wS d
    | .pair p _ n _ => (wPair p).and (wP n)
  let pops := x.f.lq.filterMap fun e => e.pop.map wS
  useAll (outs ++ div ++ asks ++ pops)

/-- The uses of the slots of a bundle that have not issued. -/
def Win.unissued (e : Win) : List Uses := ((bundleUses e.bits).filter fun u => !e.mask.getLsbD u.1).map (·.2)

/-- The instruction of a slot of a bundle; a bundle in the window has passed its check. -/
def Win.instr (e : Win) (slot : Nat) : Instr :=
  match decodeSlot e.bits (slotOf slot) with
  | .ok i => i
  | .error _ => .nopA 0#4

/-- Instructions whose bundle issues in all four queues at once, guard on (spec/08 R199, spec/11 R265). -/
def fenceLike : Instr → Bool
  | .fence _ _ | .xfence _ _ _ | .mcas _ _ _ => true
  | _ => false

/-- Patch-class instructions (spec/09 R219). -/
def patchClass : Instr → Bool
  | .tsLd _ _ _ _ _ _ | .tsSt _ _ _ _ _ | .paOpen _ _ _ _ _ | .paClose _ _ | .paApply _ _ _ | .paInv _ _ _ | .paComm _ _ _
  | .paXplant _ _ _ _ | .paSquash _ _ _ | .paSnap _ _ _ | .paDropPort _ _ | .paDropClosed _ _ _ | .paQuery _ _ _ _
  | .paNorm _ _ _ _ => true
  | _ => false

/-- Releases of slot B: queue C has issued every earlier bundle (spec/08 R189, spec/11 R248). -/
def releasesB : Instr → Bool
  | .stB _ _ _ _ rel | .stH _ _ _ _ rel | .stW _ _ _ _ rel | .stD _ _ _ _ rel => rel.isSome
  | .pnAdd _ _ rel _ _ => rel.isSome
  | .rbRelease _ _ _ _ => true
  | _ => false

/-- Releases of slot D: queues B and C have issued every earlier bundle (spec/12 R285, R287). -/
def releasesD : Instr → Bool
  | .grLaunch _ _ _ | .grArrive _ _ | .grDone _ => true
  | _ => false

/-- Whether a fence of a bundle may be on: its guard is on, or may still be written. -/
def Seq.fenceOn (x : Seq) (e : Win) : Bool :=
  let i := e.instr 1
  fenceLike i && ((x.r.getP (guardOf i)).getLsbD 0 ||
    (useAll (x.awaited :: (x.c.window.filter fun w => w.bn < e.bn).flatMap Win.unissued)).w.contains (100 + (guardOf i).toNat))

/-- Whether all four slots of a bundle issue together (spec/02 R31). -/
def Seq.together (x : Seq) (e : Win) : Bool := syncBit e.bits || x.fenceOn e

/-- Whether what holds queue B holds back later bundles of every queue (spec/08 R199, spec/11 R265). -/
def Hold.all : Hold → Bool
  | .fence _ | .xfence _ _ | .mcas _ => true
  | _ => false

/-- Slot A instructions whose effect later bundles see by program order: writes of cr.fmt, whose value slot D uses (spec/02 R34), and
the ends of a speculative region, to which slots B and C belong or not (spec/03 R82). -/
def setsFmt : Instr → Bool
  | .fmtSet _ _ _ _ _ => true
  | .sysWr _ _ num => num == 0#13
  | _ => false

def boundsRegion : Instr → Bool
  | .specBegin _ | .specCommit _ | .specAbort _ => true
  | _ => false

/-- Whether slot A of an earlier bundle has still to settle what a slot of a bundle sees. -/
def Win.unsettled (w e : Win) (slot : Nat) : Bool :=
  !w.mask.getLsbD 0 && ((slot == 3 && setsFmt (w.instr 0) && decide (w.bn + 4 ≤ e.bn)) ||
    ((slot == 1 || slot == 2) && boundsRegion (w.instr 0)))

/-- Whether a slot queue can issue its slot of a bundle now, whatever the other slots of the bundle do. -/
def Seq.readyIn (x : Seq) (e : Win) (slot : Nat) : Bool :=
  let i := e.instr slot
  let before := x.c.window.filter fun w => w.bn < e.bn
  let front := (x.c.window.head?.map (·.bn)).getD e.bn
  decide (x.c.mode = .running) &&
  (match x.c.replay with | some r => decide (e.bn < r) | none => true) &&
  decide (e.bn < front + 16) &&
  (x.c.late.all fun l => l.bn != e.bn || l.slot != slot || x.isOldest e.bn slot l.alone) &&
  !((usesOf i).conflict (useAll (before.flatMap Win.unissued))) && !((usesOf i).conflict x.awaited) &&
  (before.all fun w => !x.together w || w.mask == 0xF#4) &&
  (!x.together e || before.isEmpty) && (!syncBit e.bits || (x.f.storeB.isEmpty && x.f.storeC.isEmpty && x.f.scopedAts.isEmpty)) &&
  (match x.f.holdB with
    | some h => if slot = 1 then false else !(h.what.all && decide (h.bn < e.bn))
    | none => true) &&
  (slot != 3 || x.f.holdD.isNone) &&
  (!patchClass i || before.all fun w => (patchClass (w.instr 1) → w.mask.getLsbD 1) && (patchClass (w.instr 3) → w.mask.getLsbD 3)) &&
  (before.all fun w => !w.unsettled e slot) &&
  (!releasesB i || before.all fun w => w.mask.getLsbD 2) &&
  (!releasesD i || before.all fun w => w.mask.getLsbD 1 && w.mask.getLsbD 2) &&
  (match i with | .sysRd _ _ num => num != 0#13 || before.isEmpty | _ => true)

/-- Whether a slot queue can issue its slot of a bundle now: of two patch instructions of a bundle that of slot B goes first (spec/09
R219). -/
def Seq.ready (x : Seq) (e : Win) (slot : Nat) : Bool :=
  x.readyIn e slot && (!(patchClass (e.instr slot) && slot == 3) || !patchClass (e.instr 1) || e.mask.getLsbD 1)

/-- Whether a bundle issues whole: all four queues in one cycle, in which each can issue its own slot (spec/02 R31, spec/08 R199,
spec/11 R265). -/
def Seq.whole (x : Seq) (e : Win) : Bool := x.together e && e.mask == 0#4 && x.c.late.all fun l => l.bn != e.bn

def Seq.wholeReady (x : Seq) (e : Win) : Bool := [0, 1, 2, 3].all fun n => x.readyIn e n

/-- Whether a slot queue can issue, the bundle being one that issues whole only with all four. -/
def Seq.mayIssue (x : Seq) (e : Win) (n : Nat) : Bool := if x.whole e then x.wholeReady e else x.ready e n

/-- Whether an instruction transfers control from slot D (spec/12 R287). -/
def isGrDone : Instr → Bool
  | .grDone _ => true
  | _ => false

/-- Whether program order can go on past the window: the last bundle's slot A has issued, and a gr.done in its slot D; where the loop step writes
stage predicates every slot has, and no answer is on its way to a predicate (spec/03 R75). -/
def Seq.canTurn (x : Seq) : Bool :=
  match x.c.turn with
  | none => true
  | some bn =>
    (x.c.window.all fun e => e.bn != bn || (e.mask.getLsbD 0 && (!isGrDone (e.instr 3) || e.mask.getLsbD 3))) &&
      (x.c.redirect.isSome || x.c.pushed || !writesStage (x.c.pc - 16#64) x.c.loops ||
        (x.c.window.isEmpty && x.f.asks.isEmpty))

/-- Whether the next group can be fetched. -/
def Seq.canFetch (x : Seq) : Bool :=
  decide (x.c.mode = .running) && x.canTurn && decide (x.c.window.length < 16) && x.c.replay.isNone

/-- A commit or abort that can take effect (spec/03 R82). -/
def Seq.regionReady (x : Seq) : Bool :=
  match x.c.region.fin with
  | some (e, _) => x.issuedTo e && !x.coveredLeft e
  | none => false

/-- An entry of the shadow result buffer whose D-time has come (spec/16 R342). -/
def Seq.shadowDue (x : Seq) : Bool := x.f.shadow.any fun e => decide (e.fin ≤ x.f.dtime)

/-- Put a checked group into the window. -/
def Seq.enter (x : Seq) (bs : List (Word × BitVec 128)) : Seq :=
  let n := bs.length
  { x with c := { x.c with
      window := x.c.window ++ (bs.zipIdx.map fun e => { bn := x.c.bn + e.2, addr := e.1.1, bits := e.1.2 }),
      bn := x.c.bn + n, pc := x.c.pc + BitVec.ofNat 64 (16 * n), turn := some (x.c.bn + n - 1) } }

/-- What a sequencer has under way that can complete now. -/
def State.idleEvents (s : State) (q : Nat) : List Instr := s.settle q ++ s.halEvents q ++ s.drainStreams q

/-- A fetch that waits lets another sequencer go on. -/
def State.stallFetch (s : State) (evs : List Instr) : State := { s.yield with agenda := evs ++ s.agenda }

/-- A group-level trap waits until every earlier bundle has issued and completed (spec/02 R24). -/
def State.groupTrap (s : State) (q slot : Nat) (t : Trap) (place : Word) : Result :=
  let evs := s.settle q
  if !(s.seq q).c.window.isEmpty then .next (s.stallFetch (if evs.isEmpty then s.idleEvents q else evs))
  else
    match s.beforeStop q evs with
    | some (s1, evs) => .next (s1.stallFetch evs)
    | none => .next (s.stopSeq q 0 slot t place)

/-- The bundles of a replayed window are fetched again and not checked again; a fetch fault is a fault of its bundle
(spec/16 R339). -/
def State.refetch (s : State) (q r : Nat) : Result :=
  let x := s.seq q
  match x.c.window.find? fun e => r ≤ e.bn with
  | none => .next (s.setSeq q { x with c := { x.c with replay := none } })
  | some e =>
    match s.fetch q e.addr with
    | .wait s1 evs => .next (s1.stallFetch evs)
    | .ok s1 b =>
      let y := s1.seq q
      .next (s1.setSeq q { y with c := { y.c with
        window := y.c.window.map fun w => if w.bn = e.bn then { w with bits := b } else w, replay := some (e.bn + 1) } })
    | .trap s1 t =>
      let evs := s1.settle q
      if x.oldestBn ≠ e.bn then .next (s1.stallFetch evs)
      else
        match s1.beforeStop q evs with
        | some (s2, evs) => .next (s2.stallFetch evs)
        | none =>
          let y := s1.seq q
          .next ((s1.setSeq q { y with c := { y.c with mode := .stopped } }).putRecord q
            { kind := 0, slot := 7, trap := t, place := e.addr, resume := e.addr, cycle := y.c.cyc.setWidth 32 })

/-- GROUP_CHECK: program order goes on past the window, and the next group is fetched and checked whole (spec/02 R24). -/
def execGroupCheck (q : Nat) (s : State) : Result :=
  match (s.seq q).c.replay with
  | some r => if (s.seq q).c.mode = .running then s.refetch q r else .next s
  | none =>
    if (s.seq q).canFetch then
      let x := (s.seq q).turnOver
      let s0 := s.setSeq q x
      match s0.checkGroup q x.c.loops x.c.pc 1 [] [] 8 with
      | .wait s1 evs => .next (s1.stallFetch evs)
      | .trap s1 t => s1.groupTrap q 7 t x.c.pc
      | .ok s1 (.bad slot t) => s1.groupTrap q slot t x.c.pc
      | .ok s1 (.good bs) => .next (s1.setSeq q ((s1.seq q).enter bs)).yield
    else .next s

/-- Point the cursor at a slot of a bundle. -/
def State.aim (s : State) (q slot : Nat) (e : Win) : State :=
  { s with latch := none, cur := { seq := q, slot := slot, bn := e.bn, addr := e.addr, skip := s.cur.skip } }

/-! ### Time (spec/03 R86, spec/14 R314) -/

/-- A deficit is a signed 64-bit count (spec/14 R307). -/
def deficit (d : Int) : Int := (BitVec.ofInt 64 d).toInt

/-- Charge quadrant-cycles to an owner. -/
def State.charge (s : State) (owner n : Nat) : State :=
  let o := s.owner owner
  s.setOwner owner { o with d := deficit (o.d - (n : Int)), qcyc := satAdd o.qcyc n }

/-- The owner who pays for a group: the borrower of a lent one. -/
def State.payer (s : State) (g : Group) : Nat := if g.lent then g.borrower else (s.ctx g.ctx).owner

/-- n cycles pass on a group that runs a context, or saves one: its timers count (spec/16 R338), and while it runs its sequencers count them and its owner pays for its quadrants. -/
def State.passOn (n : Nat) (s : State) (e : Nat × Group) : State :=
  if e.2.mode = .saving then s.setGroup e.1 { e.2 with age := e.2.age + n }
  else if e.2.mode = .running then
    let s := if e.2.rung = 0 then s else s.setGroup e.1 { e.2 with age := e.2.age + n }
    let s1 := (groupSeqs e.1).foldl (fun s q =>
      let x := s.seq q
      s.setSeq q { x with c := { x.c with cyc := x.c.cyc + BitVec.ofNat 64 n } }) s
    s1.charge (s.payer e.2) ((quads (maskOf e.1)).length * n)
  else s

/-- The cycles between two steps: the spec fixes no count (DESIGN CHOICE, log 2), nor how many errors the codes correct in them
(spec/18 R378). Status records that are owed are written when they can be. A key slot that is zeroising becomes empty (spec/16 R357). -/
def State.elapse (s : State) : State :=
  let n := Config.freeCycles s.tick
  let s0 := s.groups.foldl (State.passOn n) s
  let s1 := if s0.owed.isEmpty then s0 else s0.payOwed
  { s1 with
    tick := s1.tick + 1
    clock := s1.clock + n
    mast := { s1.mast with
      keys := s1.mast.keys.filter fun e => e.2 != .zeroising
      corrected := s1.mast.corrected + Config.softErrors s1.tick } }

end Sys2Proof.Machine
end

