-- ==== Sys2Proof/Machine/Memory.lean ====
section
/-! DEFINITION. Loads, stores, prefetch, the load and store queues, local accesses of slot B, and fences (spec/07 R175 to R181,
spec/08 R185 to R199, spec/12 R295 to R297). -/

namespace Sys2Proof.Machine

/-! ### The copy aperture (spec/12 R295, R296) -/

/-- The key of a channel of the issuing group's set in the core's table (spec/15 R322). -/
def State.chanKey (s : State) (q ch : Nat) : Nat :=
  (match s.groupOf q with | some (gh, _) => maskOf gh | none => 0) * 16 + ch

def State.chan (s : State) (core key : Nat) : Channel := Tab.getD (s.core core).chans key {}
def State.setChan (s : State) (core key : Nat) (x : Channel) : State :=
  s.setCore core { s.core core with
    chans := if x = {} then Tab.erase (s.core core).chans key else Tab.put (s.core core).chans key x }

/-- The status word of a channel. -/
def Channel.word (c : Channel) : Word :=
  BitVec.ofNat 64 (c.copies.length + (if c.copies.isEmpty then 0 else 16) + (if c.parked then 32 else 0) +
    match c.fault with | some t => t.code * 256 + 65536 | none => 0)

/-! ### Shapes (spec/05 R123, R125, R128) -/

def CShape.dirW (c : CShape) : Bool := c.ctl.getLsbD 0
def CShape.plain (c : CShape) : Bool := c.ctl.getLsbD 1
def CShape.nostall (c : CShape) : Bool := c.ctl.getLsbD 4
/-- Bytes of an element. -/
def CShape.size (c : CShape) : Nat :=
  match c.ctl.toNat / 4 % 4 with
  | 0 => 4
  | 1 => 2
  | _ => 1

/-- The shape that an instruction uses: with the swap bit, the former shadow. -/
def Regs.useC (r : Regs) (c : BitVec 2) (sw : BitVec 1) : CShape := if sw = 1#1 then r.getCsh c else r.getC c
def Regs.swapIf (r : Regs) (c : BitVec 2) (sw : BitVec 1) : Regs := if sw = 1#1 then r.swapC c else r

/-- The number of steps of a pattern. -/
def CShape.steps (c : CShape) : Nat := c.count0.toNat * c.count1.toNat * c.count2.toNat * c.count3.toNat

/-- The address of the vector of a step. -/
def CShape.stepAddr (c : CShape) (base : Word) (t : Nat) : Word :=
  let n0 := c.count0.toNat; let n1 := c.count1.toNat; let n2 := c.count2.toNat
  let at_ := fun (j : Nat) (st : BitVec 40) => BitVec.ofNat 64 j * st.signExtend 64
  base + at_ (t % n0) c.stride0 + at_ (t / n0 % n1) c.stride1 + at_ (t / (n0 * n1) % n2) c.stride2 +
    at_ (t / (n0 * n1 * n2)) c.stride3

/-- The address of element e of a vector. -/
def CShape.elemAddr (c : CShape) (a : Word) (e : Nat) : Word := a + BitVec.ofNat 64 e * c.estride.signExtend 64

/-- The elements of a vector that a byte mask activates, with their addresses. -/
def CShape.active (c : CShape) (a : Word) (act : BitVec 128) : List (Nat × Word) :=
  ((List.range (128 / c.size)).filter fun e => act.getLsbD (e * c.size)).map fun e => (e, c.elemAddr a e)

/-! ### k shapes of the matrix engine (spec/06 R137) -/

/-- Whether the operand of a k shape lies in plain memory. -/
def KShape.plain (k : KShape) : Bool := k.ctl.getLsbD 0
def Regs.useK (r : Regs) (k : BitVec 2) (sw : BitVec 1) : KShape := if sw = 1#1 then r.getKsh k else r.getK k

/-- A drain of a write stream whose pending vectors meet some bytes. -/
def State.streamMeets (s : State) (isLocal : Bool) (a n : Nat) : List Instr :=
  s.me.r.q.filterMap fun e =>
    let x := e.2
    let hit := fun (v : SVec × Nat) => (x.pat.active (x.pat.stepAddr x.base (x.pos + v.2)) v.1.act).any fun d =>
      s.sameBytes s.cur.seq isLocal d.2.toNat x.pat.size a n
    if x.bound && x.pat.dirW && x.fault.isNone && x.pat.plain != isLocal && x.queue.zipIdx.any hit then
      some (.streamDrain s.cur.seq e.1)
    else none

/-! ### Own stores that an access must not pass (spec/07 R176, spec/08 R190) -/

/-- Whether an atomic of an earlier bundle, issued at .cr or .cl and not executed, meets some bytes of plain memory (spec/08 R190, R192
note 5). -/
def State.atMeets (s : State) (q bn a n : Nat) : Bool :=
  (s.seq q).f.scopedAts.any fun x => decide (x.bn < bn) && s.sameBytes q false x.va.toNat 8 a n

/-- Events that perform queued stores, and atomics, of the running sequencer that meet some bytes. -/
def State.meetEvents (s : State) (isLocal : Bool) (a n : Nat) : List Instr :=
  let f := s.me.f
  let q := s.cur.seq
  (if !isLocal && s.atMeets q s.cur.bn a n then [.scopedAtomicExecute q] else []) ++
    (if f.storeB.any fun e => s.entMeets q e isLocal a n then [.storePerform q 1] else []) ++
    (if f.storeC.any fun e => s.entMeets q e isLocal a n then [.storePerform q 2] else []) ++ s.streamMeets isLocal a n

/-! ### Loads (spec/07 R176) -/

/-- The effective address of format BM. -/
def State.eaBM (s : State) (base : BitVec 6) (off : BitVec 11) (z : Nat) : Word :=
  s.rs base + off.signExtend 64 * BitVec.ofNat 64 z

/-- Checks that come before translation: the width of the address, the aperture, the alignment. -/
def addrBad (a : Word) (z : Nat) (acc : Acc) : Option Trap :=
  if a.toNat / 2 ^ 56 ≠ 0 then some (addrTrap 0x10 a acc 0 0 0)
  else if inAperture a then some (addrTrap 0x11 a acc 0 0 0)
  else if a.toNat % z ≠ 0 then some (addrTrap 0x13 a acc 0 0 0)
  else none

/-- Whether an acquire reads past the L1 (spec/08 R189). -/
def acqOuter : Option Scope → Bool
  | none | some .cr => false
  | some _ => true

/-- The bump of an acquire. -/
def State.acquire (s : State) (acq : Option Scope) : State :=
  match acq with
  | none => s
  | some sc => s.bump (coreOf s.cur.seq) sc

/-- A load of z bytes: the value is read here and delivered by LOAD_DATA_RETURN. -/
def loadOp (z : Nat) (g : BitVec 7) (x base : BitVec 6) (off : BitVec 11) (acq : Option Scope) (s : State) : Result :=
  slotOp g s fun s =>
    let a := s.eaBM base off z
    let acc : Acc := { cls := pcMem }
    let q := s.cur.seq
    if a.toNat / 2 ^ 56 = 0 && inAperture a && z == 8 && a.toNat % 64 == 8 && a.toNat % 65536 < 1024 then
      let w := (s.chan (coreOf q) (s.chanKey q (a.toNat % 65536 / 64))).word
      .done ((s.acquire acq).awaitS x w 1) 1
    else
      match addrBad a z acc with
      | some t => .trap s t
      | none =>
        let evs := s.meetEvents false a.toNat z
        if !evs.isEmpty then .wait s evs
        else (s.plainRead q a z (acqOuter acq) acc).res fun s w => .done ((s.acquire acq).awaitS x w 1) 1

def execLdB (g : BitVec 7) (x base : BitVec 6) (off : BitVec 11) (acq : Option Scope) (s : State) : Result :=
  loadOp 1 g x base off acq s
def execLdH (g : BitVec 7) (x base : BitVec 6) (off : BitVec 11) (acq : Option Scope) (s : State) : Result :=
  loadOp 2 g x base off acq s
def execLdW (g : BitVec 7) (x base : BitVec 6) (off : BitVec 11) (acq : Option Scope) (s : State) : Result :=
  loadOp 4 g x base off acq s
def execLdD (g : BitVec 7) (x base : BitVec 6) (off : BitVec 11) (acq : Option Scope) (s : State) : Result :=
  loadOp 8 g x base off acq s

/-- Deliver a result to its register; bytes outside `act` keep what the register holds. -/
def Regs.deliver (r : Regs) (o : Out) : Regs :=
  match o.dst with
  | .s n => r.setS n (o.v.setWidth 64)
  | .v n => r.setV n ((o.v &&& o.act) ||| (r.getV n &&& ~~~ o.act))
  | .drop => r

/-- LOAD_DATA_RETURN (spec/07 R163). -/
def execLoadDataReturn (q : Nat) (k : Nat) (s : State) : Result :=
  let x := s.seq q
  match x.f.outs.find? fun o => o.k == k with
  | none => .next s
  | some o =>
    .next (s.setSeq q
      { x with r := x.r.deliver o, f := { x.f with outs := x.f.outs.filter fun o => o.k != k } })

/-! ### Stores -/

/-- The store queue of slot B holds 32 entries (spec/07 R180). -/
def State.pushB (s : State) (act : StoreAct) (rel : Option Scope) : State :=
  let f := s.me.f
  s.setFlight { f with storeB := f.storeB ++ [{ bn := s.cur.bn, act := act, rel := rel }] }

def State.fullB (s : State) : Bool := 32 ≤ s.me.f.storeB.length

/-- Whether a start store may be looked at: the queue is empty, or start stores that wait for their channels stand in it. -/
def State.toStart (s : State) : Bool :=
  s.me.f.storeB.isEmpty || s.me.f.storeB.any fun e => match e.act with | .start _ _ _ _ => true | _ => false

/-- The start of a copy (spec/12 R295, R297): COPY_START does the work. -/
def State.toCopyStart (s : State) : Res :=
  let q := s.cur.seq
  if s.toStart then .hold { s with agenda := .copyStart q :: s.agenda } else .wait s [.storePerform q 1]

/-- Whether an address starts a copy: offset 64c, c from 0 to 15. -/
def startsCopy (a : Word) (z : Nat) : Bool :=
  a.toNat / 2 ^ 56 == 0 && inAperture a && z == 8 && a.toNat % 64 == 0 && a.toNat % 65536 < 1024

/-- The release that comes before an access (spec/08 R189). -/
def State.releaseFirst (s : State) (rel : Option Scope) : Try Unit :=
  match rel with
  | none => .ok s ()
  | some sc => s.tryRelease s.cur.seq sc

/-- A store of z bytes enters the store queue; a release comes first (spec/07 R176, R180). -/
def storeOp (z : Nat) (g : BitVec 7) (x base : BitVec 6) (off : BitVec 11) (rel : Option Scope) (s : State) : Result :=
  slotOp g s fun s =>
    let a := s.eaBM base off z
    let acc : Acc := { cls := pcMem, write := true }
    let q := s.cur.seq
    if startsCopy a z then (s.releaseFirst rel).res fun s _ => s.toCopyStart
    else
      match addrBad a z acc with
      | some t => .trap s t
      | none =>
        (s.storeCheck q a acc).res fun s _ =>
          let evs := s.streamMeets false a.toNat z
          if s.fullB then .wait s [.storePerform q 1]
          else if !evs.isEmpty then .wait s evs
          else
            (s.releaseFirst rel).res fun s _ =>
              .done (s.pushB (.plain [{ addr := a.toNat, size := z, data := s.rs x }]) rel) 1

def execStB (g : BitVec 7) (x base : BitVec 6) (off : BitVec 11) (rel : Option Scope) (s : State) : Result :=
  storeOp 1 g x base off rel s
def execStH (g : BitVec 7) (x base : BitVec 6) (off : BitVec 11) (rel : Option Scope) (s : State) : Result :=
  storeOp 2 g x base off rel s
def execStW (g : BitVec 7) (x base : BitVec 6) (off : BitVec 11) (rel : Option Scope) (s : State) : Result :=
  storeOp 4 g x base off rel s
def execStD (g : BitVec 7) (x base : BitVec 6) (off : BitVec 11) (rel : Option Scope) (s : State) : Result :=
  storeOp 8 g x base off rel s

/-! ### Prefetch (spec/07 R179) -/

/-- The fill of a prefetch. One that meets a window, a line that an mcas holds or that no port reaches, or an error of its line is
dropped (DESIGN CHOICE, log 75). -/
def State.prefetch (s : State) (q ctx : Nat) (va : Word) (lvl : CacheKind) : State :=
  match s.translate (dieOf q) ctx va { cls := pcMem } with
  | (s1, .error _) => s1
  | (s1, .ok t) =>
    if eNc t.e2 then s1
    else
      let s2 := s1.useKey t
      let l := lineOf t.pa
      if (s2.gate l false).isSome || s2.homeBad l then s1
      else
        match lvl with
        | .l1 => s2.l1Fill (coreOf q) l ctx (BitVec.allOnes 64)
        | .l2 => (s2.l2Read (clusterOf q) l ctx).1
        | .msc => s2.mscTouch l ctx pcMem false false

/-- A walk for a prefetch begins; it is dropped when no walker of the die is free (spec/01 R11). -/
def State.beginWalk (s : State) (q ctx : Nat) (va : Word) (lvl : CacheKind) : State :=
  let die := dieOf q
  let d := s.die die
  if 64 ≤ d.walks.length then s
  else s.setDie die { d with walks := d.walks ++ [{ q := q, ctx := ctx, va := va, lvl := lvl }] }

/-- pf: dropped when the core has 4 096 requests outstanding; one that misses its translation waits for its walk. -/
def execPf (g : BitVec 7) (lvl : CacheKind) (base : BitVec 6) (off : BitVec 11) (s : State) : Result :=
  slotDo g s fun s =>
    let q := s.cur.seq
    let ctx := s.ctxOf q
    let a := s.eaBM base off 64
    if a.toNat / 2 ^ 56 ≠ 0 || inAperture a || decide (maxRequests ≤ s.requests (coreOf q)) then s
    else if s.needsWalk (dieOf q) ctx a false then s.beginWalk q ctx a lvl
    else s.prefetch q ctx a lvl

/-! ### The load queue (spec/07 R181) -/

/-- Reserved entries that no lq.pop has taken. -/
def Flight.reserved (f : Flight) : List LqEnt := f.lq.filter fun e => e.pop.isNone

/-- Reserve an entry. -/
def State.reserve (s : State) : State × Nat :=
  let f := s.me.f
  (s.setFlight { f with lq := f.lq ++ [{ id := f.lqNext }], lqNext := f.lqNext + 1 }, f.lqNext)

def execLqPop (g : BitVec 7) (x : BitVec 6) (s : State) : Result :=
  slotDo g s fun s =>
    let f := s.me.f
    match f.reserved with
    | [] => s.ws x 0#64
    | e :: _ =>
      match e.val with
      | some w => (s.setFlight { f with lq := f.lq.filter fun d => d.id != e.id }).ws x w
      | none => s.setFlight { f with lq := f.lq.map fun d => if d.id = e.id then { d with pop := some x } else d }

/-- A result arrives in its entry, or goes on to the register of the lq.pop that took it. -/
def Seq.arrive (x : Seq) (id : Nat) (w : Word) : Seq :=
  match x.f.lq.find? fun e => e.id == id with
  | none => x
  | some e =>
    match e.pop with
    | some r => { x with r := x.r.setS r w, f := { x.f with lq := x.f.lq.filter fun d => d.id != id } }
    | none =>
      { x with f := { x.f with
          lq := x.f.lq.map fun d => if d.id = id then { d with val := some w, coming := none } else d } }

def execAtomicResultReturn (q : Nat) (k : Nat) (s : State) : Result :=
  let x := s.seq q
  match x.f.lq.find? fun e => e.id == k with
  | some e =>
    match e.coming with
    | some w => .next (s.setSeq q (x.arrive k w))
    | none => .next s
  | none => .next s

/-- A result sets out for its entry; one of a launch whose nodes do not run now goes into the queue that is kept for it (spec/12 R288). -/
def State.sendResult (s : State) (q id : Nat) (w : Word) : State :=
  let x := s.seq q
  if x.c.kept.isEmpty || x.f.lq.any fun d => d.id == id then
    s.setSeq q { x with f := { x.f with
      lq := x.f.lq.map fun d => if d.id = id then { d with coming := some w } else d } }
  else
    s.setSeq q { x with c := { x.c with kept := x.c.kept.mapv fun _ k =>
      { k with lq := k.lq.map fun d => if d.id = id then { d with val := some w } else d } } }

/-! ### Local accesses of slot B (spec/07 R178) -/

/-- The SYNC bit of the running bundle. -/
def State.curSync (s : State) : Bool :=
  match s.me.c.window.find? fun e => e.bn == s.cur.bn with
  | some e => syncBit e.bits
  | none => false

/-- A local access after a region's end waits for the end to take effect (spec/03 R82, R83). -/
def State.regionWait (s : State) : Bool :=
  match s.me.c.region.fin with
  | some (e, _) => e < s.cur.bn
  | none => false

/-- Wait for the end of a region: what it waits for comes first. -/
def State.awaitRegion (s : State) : Res :=
  let q := s.cur.seq
  .wait s (s.storeEvents q ++ s.drainStreams q ++ [.specRegionEnd q])

def execLdSp (g : BitVec 7) (x base : BitVec 6) (off : BitVec 11) (s : State) : Result :=
  slotOp g s fun s =>
    let a := s.eaBM base off 8
    let q := s.cur.seq
    match s.locCheck (coreOf q) (s.ctxOf q) a 8 opRead pcMem with
    | .error t => .trap s t
    | .ok loc =>
      let evs := s.meetEvents true a.toNat 8
      if !evs.isEmpty then .wait s evs
      else if s.regionWait then s.awaitRegion
      else
        let (s1, w) := s.locRead q s.cur.bn s.curSync loc 8
        .done (s1.awaitS x w) 1

def execStSp (g : BitVec 7) (x base : BitVec 6) (off : BitVec 11) (s : State) : Result :=
  slotOp g s fun s =>
    let a := s.eaBM base off 8
    let q := s.cur.seq
    match s.locCheck (coreOf q) (s.ctxOf q) a 8 opWrite pcMem with
    | .error t => .trap s t
    | .ok _ =>
      let evs := s.streamMeets true a.toNat 8
      if s.fullB then .wait s [.storePerform q 1]
      else if !evs.isEmpty then .wait s evs
      else if s.regionWait then s.awaitRegion
      else .done (s.pushB (.loc [{ addr := a.toNat, size := 8, data := s.rs x }] (s.me.covers s.cur.bn)) none) 1

/-! ### Atomics in the cluster L2 (spec/08 R193) -/

/-- atop of R260. -/
def atop (op : AtOp) (old v : Word) : Word :=
  match op with
  | .add => old + v
  | .and => old &&& v
  | .or => old ||| v
  | .xor => old ^^^ v
  | .min => if v.slt old then v else old
  | .max => if old.slt v then v else old
  | .swap => v

/-- What keeps an atomic from the word of its cluster: what keeps its write, and the home of a line that the L2 has to fill from (spec/11
R269, spec/20 R402). -/
def State.scopedGate (s : State) (q : Nat) (va : Word) : Option (State × List Instr) :=
  (s.writeGate (dieOf q) (s.ctxOf q) va).orElse fun _ =>
    match s.translate (dieOf q) (s.ctxOf q) va { cls := pcMem, write := true } with
    | (s1, .ok t) => if s1.l2Full (clusterOf q) (lineOf t.pa) then none else s1.gate (lineOf t.pa) false
    | (_, .error _) => none

/-- Run one step on the scoped copy of a word of the cluster, building the copy where there is none: the issuer's L1 line writes
its dirty bytes to the L2 and is stale, and all eight bytes of the word are dirty in the copy, whether or not the step changed them
(spec/08 R193, spec/13 R304). A clean byte of the copy is the L2's own. -/
def State.onScoped (s : State) (q : Nat) (va : Word) (f : Word → Word) : State × Word :=
  let ctx := s.ctxOf q
  match s.translate (dieOf q) ctx va { cls := pcMem, write := true } with
  | (s1, .error t) => (s1.oweLost ctx t, s1.lostWord)
  | (s1, .ok t) =>
    let s2 := (s1.setDirty (dieOf q) ctx va t).useKey t
    let l := lineOf t.pa
    let r := clusterOf q
    let o := t.pa % 64
    let (s3, d) := (s2.staleL1 (coreOf q) l ctx).l2Read r l ctx
    let mask := match Tab.get? (s3.cluster r).scopedCopies l with
      | some c => c.dirty
      | none => 0#64
    let old := takeAt d o 8
    let c : CLine := { data := blend (byteMask o 8) (placeAt o (f old)) d, have_ := BitVec.allOnes 64, dirty := mask ||| byteMask o 8,
                       ctx := ctx }
    (s3.setCluster r { s3.cluster r with scopedCopies := Tab.put (s3.cluster r).scopedCopies l c }, old)

/-- What an atomic makes of a word. -/
def ScopedAt.new (a : ScopedAt) (old : Word) : Word :=
  match a.op with
  | some op => atop op old a.x
  | none => if old = a.x then a.y else old

/-- The oldest at.* or at.cas of a sequencer at a narrow scope executes. -/
def State.scopedAtStep (s : State) (q : Nat) : State :=
  let x := s.seq q
  match x.f.scopedAts with
  | [] => s
  | a :: t =>
    let (s2, old) := (s.setSeq q { x with f := { x.f with scopedAts := t } }).onScoped q a.va a.new
    s2.sendResult q a.lq old

/-- Whether a store of slot B comes before an atomic in program order. -/
def Flight.storeBefore (f : Flight) (a : ScopedAt) : Bool := f.storeB.any fun e => e.bn < a.bn

/-- Whether an earlier store of slot C to its word comes before an atomic (spec/08 R190). -/
def State.vstBefore (s : State) (q : Nat) (a : ScopedAt) : Bool :=
  (s.seq q).f.storeC.any fun e => decide (e.bn < a.bn) && s.entMeets q e false a.va.toNat 8

/-- SCOPED_ATOMIC_EXECUTE: the earlier stores of slot B are performed first (spec/08 R192), and so is what the atomic's own accesses wait
for. -/
def execScopedAtomicExecute (q : Nat) (s : State) : Result :=
  let f := (s.seq q).f
  match f.scopedAts with
  | [] => .next s
  | a :: _ =>
    if f.storeBefore a then .next { s with agenda := .storePerform q 1 :: s.agenda }
    else if s.vstBefore q a then .next { s with agenda := .storePerform q 2 :: s.agenda }
    else
      match s.scopedGate q a.va with
      | some (s1, evs) => .next (s1.stallOn evs)
      | none => .next (s.scopedAtStep q)

def execScopedCopyWriteback (cl : Nat) (line : Nat) (s : State) : Result :=
  match s.relGateLine line with
  | some (s1, evs) => .next (s1.stallOn evs)
  | none => .next (s.scopedBack cl line)

/-! ### Performing stores (spec/07 R180) -/

/-- Whether two queued stores of a sequencer meet in a byte. -/
def State.entsMeet (s : State) (q : Nat) (a b : StoreEnt) : Bool :=
  match a.act with
  | .plain es => es.any fun x => s.entMeets q b false x.addr x.size
  | .loc es _ => es.any fun x => s.entMeets q b true x.addr x.size
  | .red va _ _ => s.entMeets q b false va.toNat 8
  | _ => false

/-- An older store of the other queue to one of the bytes is performed first (spec/08 R190, R192 note 1). -/
def State.olderClash (s : State) (q slot : Nat) (e : StoreEnt) : Bool :=
  let f := (s.seq q).f
  (if slot = 1 then f.storeC else f.storeB).any fun d => d.bn < e.bn && s.entsMeet q d e

/-- An entry leaves its queue. -/
def State.dropStore (s : State) (q slot : Nat) : State :=
  let x := s.seq q
  let f := x.f
  s.setSeq q { x with f := if slot = 1 then { f with storeB := f.storeB.drop 1 } else { f with storeC := f.storeC.drop 1 } }

/-- Write an element of a local store. -/
def State.storeLoc (s : State) (q : Nat) (cov : Bool) (e : Elem) : State :=
  match locOf (coreOf q) (BitVec.ofNat 64 e.addr) with
  | none => s
  | some loc => s.locWrite q cov loc e.size e.data

end Sys2Proof.Machine
end

