-- ==== Sys2Proof/Machine/Pick.lean ====
section
/-! DEFINITION. The choice of the slot that issues next, held back by the requests that its core has outstanding (spec/01 R11,
spec/02 R29). -/

namespace Sys2Proof.Machine

/-- The memory requests that a slot instruction makes, which its core must have room for: one for an access of slot B or a patch access, one
for each active element of a vector of plain memory, one for each row of an operand of plain memory of the matrix engine; none for local
accesses. A pf is never held back. The rule does not say what counts (DESIGN CHOICE, log 92). -/
def Seq.requestsOf (x : Seq) (i : Instr) : Nat :=
  let rows := fun (o : MOp) (k : BitVec 2) (sw : BitVec 1) =>
    match o with
    | .s _ => let sh := x.r.useK k sw; if sh.plain then sh.rows.toNat else 0
    | .q _ => 0
  if !(x.r.getP (guardOf i)).getLsbD 0 then 0
  else
    match i with
    | .ldB _ _ _ _ _ | .ldH _ _ _ _ _ | .ldW _ _ _ _ _ | .ldD _ _ _ _ _ | .stB _ _ _ _ _ | .stH _ _ _ _ _ | .stW _ _ _ _ _
    | .stD _ _ _ _ _ | .tsLd _ _ _ _ _ _ | .tsSt _ _ _ _ _ | .atR _ _ _ _ _ | .atCas _ _ _ _ _ | .red _ _ _ _ _ | .mcas _ _ _
    | .pnAdd _ _ _ _ _ | .rbRelease _ _ _ _ => 1
    | .vld _ _ _ c sw lp _ | .vst _ _ _ c sw lp _ =>
      let sh := x.r.useC c sw
      if sh.plain then ((List.range (128 / sh.size)).filter fun e => (x.r.getP lp).getLsbD (e * sh.size / 4)).length else 0
    | .mmLdw _ o _ k sw => rows o k sw
    | .mm _ _ o k sw _ _ => rows o k sw
    | .mmWb _ _ o k sw _ => rows o k sw
    | .mmRd _ _ o k sw => rows o k sw
    | _ => 0

/-- Whether the requests of some instructions find room in their core together. -/
def State.roomFor (s : State) (q : Nat) (is : List Instr) : Bool :=
  let n := (is.map (s.seq q).requestsOf).sum
  n == 0 || s.hasRoom q n

/-- Whether a slot queue of a sequencer issues its slot of a bundle now, or the whole bundle. -/
def State.mayIssue (s : State) (q : Nat) (e : Win) (n : Nat) : Bool :=
  let x := s.seq q
  x.mayIssue e n && s.roomFor q (if x.whole e then [0, 1, 2, 3].map e.instr else [e.instr n])

/-- The candidate that can issue now, of those that have not stalled: earliest bundle and lowest slot first. -/
def State.readySlots (s : State) (q : Nat) (skip : List Nat) : List (Win × Nat) :=
  let x := s.seq q
  let c := ([0, 1, 2, 3].filter fun n => !skip.contains n).filterMap fun n => match x.nextOf n with
    | some e => if s.mayIssue q e n then some (e, n) else none
    | none => none
  match c with
  | [] => []
  | a :: t => [t.foldl (fun b d => if d.1.bn < b.1.bn then d else b) a]

/-- BUNDLE_ISSUE: a slot queue is picked to issue its slot of its next bundle, when it can (spec/02 R29). The slot itself
runs at the next step (DESIGN CHOICE, log 1). -/
def execBundleIssue (q : Nat) (slot : Nat) (s : State) : Result :=
  match (s.seq q).nextOf slot with
  | none => .next s
  | some e =>
    if s.mayIssue q e slot then .next { s with latch := some (q, slot), cur := { s.cur with seq := q } } else .next s

/-- The slot of the current sequencer that issues next, by the model's policy (DESIGN CHOICE, log 1): the slot that BUNDLE_ISSUE picked,
else the earliest that can issue. -/
def State.pickSlot (s : State) : Option (Win × Nat) :=
  let q := s.cur.seq
  let picked := match s.latch with
    | some (p, n) => if p = q then (match (s.seq q).nextOf n with
        | some e => if s.mayIssue q e n then some (e, n) else none
        | none => none) else none
    | none => none
  match picked with
  | some r => some r
  | none => (s.readySlots q s.cur.skip).head?

end Sys2Proof.Machine
end

