-- ==== Sys2Proof/Machine/Template.lean ====
section
/-! DEFINITION. The template of a copy: its fields, the addresses of its bytes, and where they lie (spec/12 R290 to R293). -/

namespace Sys2Proof.Machine

/-- A field of a word. -/
def fieldOf (w : Word) (lo n : Nat) : Nat := w.toNat / 2 ^ lo % 2 ^ n

/-! ### Templates (spec/12 R290, R291) -/

def Copy.word (c : Copy) (i : Nat) : Word := c.words.getD i 0#64
def Copy.stage (c : Copy) (lo n : Nat) : Nat := fieldOf (c.word 7) lo n
def Copy.sspace (c : Copy) : Nat := c.stage 0 2
def Copy.dspace (c : Copy) : Nat := c.stage 2 2
def Copy.dact (c : Copy) : Nat := c.stage 4 2
def Copy.sact (c : Copy) : Nat := c.stage 6 2
def Copy.ddesc (c : Copy) : Nat := c.stage 8 6
def Copy.sdesc (c : Copy) : Nat := c.stage 14 6
def Copy.zfill (c : Copy) : Bool := c.stage 20 1 == 1
def Copy.mcast (c : Copy) : Nat := c.stage 32 16
def Copy.bound (c : Copy) : Bool := fieldOf (c.word 6) 51 1 == 1
def Copy.handle (c : Copy) : BitVec 32 := (c.word 6).setWidth 32
def Copy.addend (c : Copy) : Word := BitVec.ofNat 64 (fieldOf (c.word 6) 32 16)

/-- Half of a word as a signed 64-bit number. -/
def halfLo (w : Word) : Word := (w.extractLsb' 0 32).signExtend 64
def halfHi (w : Word) : Word := (w.extractLsb' 32 32).signExtend 64

/-- Addresses of byte t (spec/12 R292). -/
def Copy.place (c : Copy) (base strides par : Word) (j t : Nat) : Word :=
  let L := fieldOf (c.word 2) 0 16 + 1
  let n1 := fieldOf (c.word 2) 16 16 + 1
  base + BitVec.ofNat 64 j * par + BitVec.ofNat 64 (t / L / n1) * halfHi strides + BitVec.ofNat 64 (t / L % n1) * halfLo strides +
    BitVec.ofNat 64 (t % L)

def Copy.from_ (c : Copy) (t : Nat) : Word := c.place (c.word 0) (c.word 3) (halfLo (c.word 5)) c.jsrc t
def Copy.to_ (c : Copy) (t : Nat) : Word := c.place (c.word 1) (c.word 4) (halfHi (c.word 5)) c.jdst t

/-- Whether a template has no reserved value and no reserved field that is not zero (spec/12 R293, R300). -/
def Copy.templateOk (c : Copy) : Bool :=
  fieldOf (c.word 0) 56 8 == 0 && fieldOf (c.word 1) 56 8 == 0 && fieldOf (c.word 2) 48 16 == 0 && fieldOf (c.word 6) 52 12 == 0 &&
    decide (fieldOf (c.word 6) 48 3 ≤ 4) && c.stage 48 16 == 0 && c.stage 21 11 == 0 && decide (c.sspace ≤ 1) &&
    decide (c.dspace ≤ 1) && (c.mcast == 0 || (c.dspace == 1 && !(c.to_ 0).getLsbD 24))

/-- Pieces of t from a to b in which both addresses run on. -/
def Copy.runs (c : Copy) (a b : Nat) : Nat → List (Nat × Nat)
  | 0 => []
  | k + 1 => if b ≤ a then [] else
    let L := fieldOf (c.word 2) 0 16 + 1
    let n := min (L - a % L) (b - a)
    (a, n) :: c.runs (a + n) b k

/-! ### Where the bytes of a copy lie -/

/-- Where a byte of a copy in plain memory lies, when its page is mapped, whether or not it may be reached or written. -/
def State.copyPlace (s : State) (c : Copy) (va : Word) : Option Tr :=
  match s.tlbFind (dieOf c.q) c.ctx va with
  | some e => some (e.tr va)
  | none =>
    match s.walk c.ctx va with
    | .ok t => some t
    | .error _ => none

/-- Whether a copy's first destination byte lies on another module, whether or not that module can be reached or the page may be
written (spec/20 R403, R404). -/
def State.copyRemote (s : State) (c : Copy) : Bool :=
  c.dspace == 0 && match s.copyPlace c (c.to_ 0) with
    | some t => !eNc t.e2 && paDev t.pa != s.link.dev.toNat
    | none => false

/-- Whether a copy reads or writes a window: no run of it is longer than a page (spec/20 R406). -/
def State.copyLinked (s : State) (c : Copy) : Bool :=
  let nc := fun (va : Word) => match s.copyPlace c va with | some t => eNc t.e2 | none => false
  !s.link.windows.isEmpty && (c.runs 0 c.total c.total).any fun r =>
    (!c.zfill && c.sspace == 0 && (nc (c.from_ r.1) || nc (c.from_ (r.1 + r.2 - 1)))) ||
      (c.dspace == 0 && (nc (c.to_ r.1) || nc (c.to_ (r.1 + r.2 - 1))))

/-- Copies that the stores of a sequencer started, which access a window and are not complete. -/
def State.linkCopyEvents (s : State) (q : Nat) : List Instr :=
  ((s.core (coreOf q)).chans.filter fun e => e.2.copies.any fun c => c.q == q && c.node.isNone && s.copyLinked c).map fun e =>
    e.2.event (coreOf q * 256 + e.1)

end Sys2Proof.Machine
end

