-- ==== Sys2Proof/Machine/Barrier.lean ====
section
/-! DEFINITION. Pennants, waits, rings, Halyard atomics, mcas, and the fences (spec/11, spec/08 R197 to R199). -/

namespace Sys2Proof.Machine

/-! ### Pennants (spec/11 R241 to R246) -/

def penDie (h : BitVec 32) : Nat := h.toNat / 2 ^ 28
def penIdx (h : BitVec 32) : Nat := h.toNat % 2 ^ 28

/-- The state word of R244 as the overflow area stores it: res is 0. -/
def Pennant.word (p : Pennant) : Word :=
  BitVec.ofNat 64 (p.lcode.toNat * 256 + p.lsrc.toNat * 16 + (if p.sat then 2 else 0) + if p.latch then 1 else 0)

/-- The pennant that a count and a state word hold. -/
def Pennant.ofWords (count w : Word) : Pennant :=
  { count := count, latch := w.getLsbD 0, sat := w.getLsbD 1, lcode := w.extractLsb' 8 8, lsrc := w.extractLsb' 4 4 }

/-- The address of a pennant in its die's overflow area; none for one in SRAM, or beyond the area (spec/11 R242). -/
def State.penAt (s : State) (h : BitVec 32) : Option Nat :=
  match (s.die (penDie h)).ovf with
  | some (base, n) => if 65536 ≤ penIdx h && penIdx h < 65536 + n then some (base + 16 * (penIdx h - 65536)) else none
  | none => none

/-- Pennants of index 65 536 and above stand in their overflow area: the count at byte 0 and the state word at byte 8 of each 16
(spec/11 R242, R244). -/
def State.pennant (s : State) (h : BitVec 32) : Pennant :=
  match s.penAt h with
  | some a => .ofWords (Mem.word s.mem.dram a) (Mem.word s.mem.dram (a + 8))
  | none => Tab.getD (s.die (penDie h)).pen (penIdx h) {}

def State.setPennant (s : State) (h : BitVec 32) (p : Pennant) : State :=
  match s.penAt h with
  | some a => s.setDram (Mem.write s.mem.dram a (leBytes p.count.toNat 8 ++ leBytes p.word.toNat 8))
  | none =>
    let d := s.die (penDie h)
    s.setDie (penDie h) { d with pen := if p = {} then Tab.erase d.pen (penIdx h) else Tab.put d.pen (penIdx h) p }

/-- The pennants of a die from one index up to another are zeroed. -/
def State.zeroPens (s : State) (die lo hi : Nat) : State :=
  let d := s.die die
  let s1 := s.setDie die { d with pen := d.pen.keep fun i _ => !(decide (lo ≤ i) && decide (i < hi)) }
  match d.ovf with
  | some (base, n) =>
    let a := max lo 65536
    let b := min hi (65536 + n)
    if a < b then s1.setDram (Mem.zero s1.mem.dram (base + 16 * (a - 65536)) (16 * (b - a))) else s1
  | none => s1

/-- Whether a handle lies in a context's window and in the die's pennants (spec/11 R243). -/
def State.penOk (s : State) (ctx : Nat) (h : BitVec 32) : Bool :=
  let i := penIdx h
  (match Tab.get? (s.ctx ctx).wins (penDie h) with
    | some (base, count) => base ≤ i && i < base + count
    | none => false) &&
  (i < 65536 || match (s.die (penDie h)).ovf with | some (_, n) => i < 65536 + n | none => false)

/-- The trap of a refused handle; it has no address (spec/16 R348). Its write bit is 0, for the adds of pn.add and rb.release as well
(DESIGN CHOICE, log 93). -/
def penTrap : Trap := addrTrap 0x11 0#64 { cls := pcHal } 0 0 0

/-- The word of R244. Pennants of an overflow area may or may not stand in the Halyard's cache (DESIGN CHOICE, log 2). -/
def State.penWord (s : State) (h : BitVec 32) : Word :=
  let res := penIdx h < 65536 || Config.freePick s.tick % 2 == 1
  (s.pennant h).word ||| if res then 8#64 else 0#64

/-- One saturating add, after an optional clearing of the latch (spec/11 R245, R248). -/
def Pennant.add (p : Pennant) (v : Word) (clr : Bool) : Pennant :=
  let p := if clr then { p with latch := false, lcode := 0#8, lsrc := 0#4 } else p
  if p.count.toNat + v.toNat < 2 ^ 64 then { p with count := p.count + v }
  else { p with count := BitVec.allOnes 64, sat := true }

/-- Whether a wait is over. -/
def State.askMet (s : State) (a : Ask) : Bool :=
  let p := s.pennant a.h
  p.latch || a.target.ule p.count

/-- Wake the registered waiters of a pennant whose condition holds (spec/11 R252). -/
def State.wakeEvents (s : State) (h : BitVec 32) : List Instr :=
  (s.die (penDie h)).waiters.filterMap fun q =>
    match (s.seq q).f.holdB with
    | some hb =>
      match hb.what with
      | .wait a true => if a.h = h && s.askMet a then some (.waiterWake q) else none
      | _ => none
    | none => none

/-- A fault latches a pennant and wakes its waiters (spec/11 R253). -/
def State.latchPennant (s : State) (h : BitVec 32) (code src : Nat) : State :=
  let s1 := s.setPennant h
    { s.pennant h with latch := true, lcode := BitVec.ofNat 8 code, lsrc := BitVec.ofNat 4 src }
  { s1 with agenda := s1.agenda ++ s1.wakeEvents h }

/-- An add at the home. -/
def State.addPennant (s : State) (h : BitVec 32) (v : Word) (clr : Bool) : State :=
  let s1 := s.setPennant h ((s.pennant h).add v clr)
  { s1 with agenda := s1.agenda ++ s1.wakeEvents h }

/-! ### Operations at a Halyard (spec/11 R260 to R263) -/

/-- The home die of an operation. -/
def HalOp.home : HalOp → Option Nat
  | .add h _ _ => some (penDie h)
  | .atomic _ pa _ _ _ | .cas _ pa _ _ _ => some (paDie pa)
  | .cond _ _ _ => none

/-- An earlier operation of the same sequencer for the same home: one home keeps program order (spec/11 R263). -/
def State.earlierHal (s : State) (e : HalEnt) : Option HalEnt :=
  s.hal.find? fun d => d.k < e.k && d.q == e.q && d.op.home == e.op.home

def State.dropHal (s : State) (k : Nat) : State := { s with hal := s.hal.filter fun e => e.k != k }

/-- Run an operation of some kind, the earlier ones of its issuer at that home first. -/
def State.runHal (s : State) (k : Nat) (f : State → HalEnt → Result) : Result :=
  match s.hal.find? fun e => e.k == k with
  | none => .next s
  | some e =>
    match s.earlierHal e with
    | some d => .next { s with agenda := d.event :: s.agenda }
    | none => f s e

def execPennantAdd (k : Nat) (s : State) : Result :=
  s.runHal k fun s e =>
    match e.op with
    | .add h v clr => .next ((s.dropHal k).addPennant h v clr)
    | _ => .next s

/-- The physical address of an atomic when it executes: its translation, or where the page was when it issued. -/
def State.halPlace (s : State) (e : HalEnt) (va : Word) (pa : Nat) : State × Nat :=
  match s.translate (dieOf e.q % 16) e.ctx va { cls := pcHal, write := true } with
  | (s1, .ok t) => ((s1.setDirty (dieOf e.q % 16) e.ctx va t).useKey t, t.pa)
  | (s1, .error _) => (s1, pa)

/-- An atomic whose home can no longer be reached changes nothing: its context is told, and what it returns is a free value (spec/20 R404;
DESIGN CHOICE, log 12). -/
def State.halLost (s : State) (e : HalEnt) (p : Nat) (lq : Option Nat) : State :=
  let s1 := (s.dropHal e.k).owe e.ctx (unreachTrap p { cls := pcHal, write := true })
  match lq with
  | some id => s1.sendResult e.q id s.lostWord
  | none => s1

/-- What keeps an atomic from its home: its leaf's dirty bit, or its line. -/
def State.halGate (s : State) (e : HalEnt) (va : Word) (pa : Nat) : Option (State × List Instr) :=
  (s.writeGate (dieOf e.q % 16) e.ctx va).orElse fun _ =>
    let p := (s.halPlace e va pa).2
    if s.lost (lineOf p) then none else s.gate (lineOf p) true

/-- An atomic takes the line for its home and changes one word, indivisibly (spec/11 R262). -/
def State.halWord (s : State) (e : HalEnt) (va : Word) (pa : Nat) (f : Word → Word) (lq : Option Nat) : Result :=
  match s.halGate e va pa with
  | some (s2, evs) => .next { s2.yield with agenda := evs ++ s2.agenda }
  | none =>
    let (s1, p) := s.halPlace e va pa
    if s1.lost (lineOf p) then .next (s1.halLost e p lq)
    else
      let s2 := ((s1.dropHal e.k).homeHal (lineOf p)).mscTouch (lineOf p) e.ctx pcHal true true
      let old := s2.engWord p
      let s3 := s2.engSetWord p (f old)
      .next (match lq with
        | some id => s3.sendResult e.q id old
        | none => s3)

def execHalyardAtomicExecute (k : Nat) (s : State) : Result :=
  s.runHal k fun s e =>
    match e.op with
    | .atomic va pa op v lq => s.halWord e va pa (fun old => atop op old v) lq
    | .cas va pa x y lq => s.halWord e va pa (fun old => if old = x then y else old) (some lq)
    | _ => .next s

/-! ### at, at.cas, red (spec/11 R259 to R261) -/

def Scope.wide : Scope → Bool
  | .cr | .cl => false
  | .di | .mo | .sy => true

/-- The checks of an atomic, and the errors that its line's home would meet. An access to a page outside the domain is one of class link
(spec/08 R196). -/
def State.atomicCheck (s : State) (sc : Scope) (a : Word) : Try Tr :=
  let q := s.cur.seq
  let acc : Acc := { cls := if Scope.wide sc then pcHal else pcMem, write := true }
  match addrBad a 8 acc with
  | some t => .trap s t
  | none =>
    (s.find q a acc).bind fun s1 t =>
      if eNc t.e2 then .trap s1 (addrTrap 0x11 a (acc.through true) 0 0 0)
      else
        let l := lineOf t.pa
        let s2 := s1.useKey t
        if !Scope.wide sc && (s2.l2Full (clusterOf q) l || (Tab.get? (s2.cluster (clusterOf q)).scopedCopies l).isSome) then
          .ok s2 t
        else
          match s2.gate l false with
          | some (s3, evs) => .wait s3 evs
          | none => (s2.meetErrors q (s2.ctxOf q) l acc).bind fun s3 _ => .ok s3 t

/-- Earlier stores, reductions and hal accesses in the store queue that an atomic must not pass. -/
def State.beforeAtomic (s : State) (sc : Scope) (a : Word) : List Instr :=
  let f := s.me.f
  let held := f.storeB.any fun e => s.entMeets s.cur.seq e false a.toNat 8 || (match e.act with
    | .red _ _ _ => !Scope.wide sc
    | .hal _ => Scope.wide sc
    | _ => false)
  if held then [.storePerform s.cur.seq 1] else s.meetEvents false a.toNat 8

/-- A returning atomic: checked, its entry reserved, sent to its place. -/
def atomicOp (g : BitVec 7) (base : BitVec 6) (sc : Scope) (s : State) (op : Option AtOp) (x y : State → Word) : Result :=
  slotOp g s fun s =>
    let a := s.rs base
    (s.atomicCheck sc a).res fun s t =>
      let evs := s.beforeAtomic sc a
      if !evs.isEmpty then .wait s evs
      else if 64 ≤ s.me.f.reserved.length then .wait s []
      else
        let (s1, id) := s.reserve
        let q := s.cur.seq
        if Scope.wide sc then
          .done (s1.sendHal q (s.ctxOf q) (match op with
            | some o => .atomic a t.pa o (x s) (some id)
            | none => .cas a t.pa (x s) (y s) id)) 1
        else
          let f := s1.me.f
          .done (s1.setFlight { f with
            scopedAts := f.scopedAts ++ [{ bn := s.cur.bn, va := a, op := op, x := x s, y := y s, lq := id }] }) 1

def execAtR (g : BitVec 7) (x base : BitVec 6) (scope : Scope) (op : AtOp) (s : State) : Result :=
  atomicOp g base scope s (some op) (fun s => s.rs x) (fun _ => 0#64)

def execAtCas (g : BitVec 7) (x base y : BitVec 6) (scope : Scope) (s : State) : Result :=
  atomicOp g base scope s none (fun s => s.rs x) (fun s => s.rs y)

/-- red takes a store-queue entry until its place accepts it. -/
def execRed (g : BitVec 7) (x base : BitVec 6) (scope : Scope) (op : AtOp) (s : State) : Result :=
  slotOp g s fun s =>
    let a := s.rs base
    (s.atomicCheck scope a).res fun s t =>
      if s.fullB then .wait s [.storePerform s.cur.seq 1]
      else if Scope.wide scope then .done (s.pushB (.hal (.atomic a t.pa op (s.rs x) none)) none) 1
      else .done (s.pushB (.red a op (s.rs x)) none) 1

/-! ### pn.add, pn.read, pn.test (spec/11 R248, R250, R251) -/

/-- The release of a pn.add: memory first, then every earlier hal access (spec/11 R248). -/
def State.releaseHal (s : State) (sc : Scope) : Try Unit :=
  (s.tryRelease s.cur.seq sc (some s.cur.bn)).bind fun s _ => s.tryHalDone s.cur.seq

/-- Queue an add for its home. -/
def State.queueAdd (s : State) (h : BitVec 32) (v : Word) (clr : Bool) : State := s.pushB (.hal (.add h v clr)) none

def execPnAdd (g : BitVec 7) (clr : BitVec 1) (rel : Option Scope) (y z : BitVec 6) (s : State) : Result :=
  slotOp g s fun s =>
    let h : BitVec 32 := (s.rs y).setWidth 32
    if !s.penOk (s.ctxOf s.cur.seq) h then .trap s penTrap
    else if s.fullB then .wait s [.storePerform s.cur.seq 1]
    else
      (match rel with | some sc => s.releaseHal sc | none => .ok s ()).res fun s _ =>
        .done (s.queueAdd h (s.rs z) (clr == 1#1)) 1

/-- Hal accesses that the sequencer issued earlier: a home performs them in program order (spec/11 R263). -/
def State.earlierHalEvents (s : State) : List Instr :=
  let q := s.cur.seq
  (if s.me.f.storeB.any fun e => match e.act with | .hal _ => true | _ => false then [.storePerform q 1] else []) ++ s.halEvents q

/-- The trap 0x30 (spec/11 R254). -/
def State.latchTrap (s : State) (h : BitVec 32) (target : Word) : Trap :=
  { code := 0x30, w4 := h.setWidth 64, w5 := (s.pennant h).count, w6 := target, w7 := s.penWord h }

def State.ask (s : State) (a : Answer) : State :=
  let f := s.me.f
  s.setFlight { f with asks := f.asks ++ [a] }

/-- pn.test reads the pennant at one point; the answer travels back (spec/11 R250). -/
def execPnTest (g : BitVec 7) (pair y z : BitVec 6) (n : BitVec 7) (s : State) : Result :=
  slotOp g s fun s =>
    let h : BitVec 32 := (s.rs y).setWidth 32
    if !s.penOk (s.ctxOf s.cur.seq) h then .trap s penTrap
    else
      let evs := s.earlierHalEvents
      if !evs.isEmpty then .wait s evs
      else
        let p := s.pennant h
        let target := s.rs z
        if p.latch && n == 0#7 then .trap s (s.latchTrap h target)
        else .done (s.ask (.pair pair (!p.latch && target.ule p.count) n (!p.latch))) 1

def execPnRead (g : BitVec 7) (x y : BitVec 6) (st : BitVec 1) (s : State) : Result :=
  slotOp g s fun s =>
    let h : BitVec 32 := (s.rs y).setWidth 32
    if !s.penOk (s.ctxOf s.cur.seq) h then .trap s penTrap
    else
      let evs := s.earlierHalEvents
      if !evs.isEmpty then .wait s evs
      else .done (s.ask (.reg x (if st = 1#1 then s.penWord h else (s.pennant h).count))) 1

/-! ### pn.wait and rings (spec/11 R249, R252, R255 to R257) -/

/-- A wait holds queue B until its home answers. -/
def State.holdWait (s : State) (a : Ask) : Res :=
  if !s.penOk (s.ctxOf s.cur.seq) a.h then .trap s penTrap
  else
    let evs := s.earlierHalEvents
    if !evs.isEmpty then .wait s evs
    else .hold (s.setFlight { s.me.f with holdB := some { bn := s.cur.bn, addr := s.cur.addr, what := .wait a false } })

def execPnWait (g : BitVec 7) (acq : Option Scope) (y z : BitVec 6) (n : BitVec 7) (s : State) : Result :=
  slotOp g s fun s => s.holdWait { h := (s.rs y).setWidth 32, target := s.rs z, acq := acq, n := n }

/-- The cursor word of R255: slots, scope, k. -/
def cursorScope (c : Word) : Option Scope := scopeOf (c.extractLsb' 45 3)
def cursorK (c : Word) : Word := c &&& 0x1FFFFFFFFFFF#64
def cursorSlots (c : Word) : Nat := c.toNat / 2 ^ 48 + 1

/-- The trap of a cursor with a reserved scope. It comes before that of a refused handle (DESIGN CHOICE, log 93). -/
def cursorTrap (c : Word) : Trap := addrTrap 0x11 c { cls := pcHal } 0 0 0

def execRbAwait (g : BitVec 7) (x y z : BitVec 6) (n : BitVec 7) (s : State) : Result :=
  slotOp g s fun s =>
    let c := s.rs z
    match cursorScope c with
    | none => .trap s (cursorTrap c)
    | some sc =>
      s.holdWait { h := (s.rs y).setWidth 32, target := cursorK c + 1#64, acq := some sc, n := n,
                   slot := some (x, BitVec.ofNat 64 ((cursorK c).toNat % cursorSlots c)) }

def execRbRelease (g : BitVec 7) (x y z : BitVec 6) (s : State) : Result :=
  slotOp g s fun s =>
    let c := s.rs z
    match cursorScope c with
    | none => .trap s (cursorTrap c)
    | some sc =>
      let h : BitVec 32 := (s.rs y).extractLsb' 32 32
      if !s.penOk (s.ctxOf s.cur.seq) h then .trap s penTrap
      else if s.fullB then .wait s [.storePerform s.cur.seq 1]
      else
        (s.releaseHal sc).res fun s _ =>
          let k := (c &&& ~~~ 0x1FFFFFFFFFFF#64) ||| ((cursorK c + 1#64) &&& 0x1FFFFFFFFFFF#64)
          .done ((s.queueAdd h 1#64 false).ws x k) 1

/-- What held queue B has completed: its slot has issued. -/
def State.endHold (s : State) (q bn : Nat) : State :=
  let x := s.seq q
  s.setSeq q (({ x with f := { x.f with holdB := none } } : Seq).retire bn 1 1)

/-- A wait whose home answers: it ends, or meets a latch, or goes on waiting, registered when there is room. -/
def State.answerWait (s : State) (q : Nat) (hb : HoldB) (a : Ask) : Result :=
  let die := penDie a.h
  let off := fun (s : State) => s.setDie die { s.die die with waiters := (s.die die).waiters.filter (· != q) }
  if s.askMet a then
    let s0 := off s
    if (s0.pennant a.h).latch then
      if a.n = 0#7 then
        let x := s0.seq q
        let s1 := s0.setSeq q { x with f := { x.f with holdB := none } }
        ({ s1 with cur := { seq := q, slot := 1, bn := hb.bn, addr := hb.addr } } : State).raise (s0.latchTrap a.h a.target)
      else
        let s1 := s0.endHold q hb.bn
        let x := s1.seq q
        .next (s1.setSeq q { x with r := x.r.setP a.n 0#32 })
    else
      let s1 := s0.endHold q hb.bn
      let x := s1.seq q
      let r1 := if a.n = 0#7 then x.r else x.r.setP a.n 0xFFFFFFFF#32
      let r2 := match a.slot with | some (d, w) => r1.setS d w | none => r1
      let s2 := s1.setSeq q { x with r := r2 }
      .next (match a.acq with | some sc => s2.bump (coreOf q) sc | none => s2)
  else if (s.die die).waiters.contains q then .next s
  else if (s.die die).waiters.length < 4096 then
    let s1 := s.setDie die { s.die die with waiters := q :: (s.die die).waiters }
    let x := s1.seq q
    .next (s1.setSeq q { x with f := { x.f with holdB := some { hb with what := .wait a true } } })
  else .next s.yield

/-- The wait that holds a sequencer's queue B. -/
def Seq.waiting (x : Seq) : Option (HoldB × Ask) :=
  match x.f.holdB with
  | some hb => match hb.what with
    | .wait a _ => some (hb, a)
    | _ => none
  | none => none

/-- PENNANT_VALUE_RETURN: the oldest answer arrives, else the home answers the wait (spec/11 R249 to R251). -/
def execPennantValueReturn (q : Nat) (s : State) : Result :=
  let x := s.seq q
  match x.f.asks with
  | .reg d w :: t => .next (s.setSeq q { x with r := x.r.setS d w, f := { x.f with asks := t } })
  | .pair p reached n met :: t =>
    let r1 := (x.r.setP (pairLo p) (allIf reached)).setP (pairHi p) (allIf (!reached))
    let r2 := if n = 0#7 then r1 else r1.setP n (allIf met)
    .next (s.setSeq q { x with r := r2, f := { x.f with asks := t } })
  | [] =>
    match x.waiting with
    | some (hb, a) => s.answerWait q hb a
    | none => .next s

def execWaiterWake (q : Nat) (s : State) : Result :=
  match (s.seq q).waiting with
  | some (hb, a) => if s.askMet a then s.answerWait q hb a else .next s
  | none => .next s

/-- A waiter that found the table full reads its pennant again (spec/11 R252). -/
def execWaiterPoll (q : Nat) (s : State) : Result :=
  match (s.seq q).waiting with
  | some (hb, a) => s.answerWait q hb a
  | none => .next s

/-! ### Fences (spec/08 R197 to R199) -/

/-- A drain fault latched by a write stream is raised at a fence (spec/05 R132): of several, that of the lowest-numbered stream
(DESIGN CHOICE, log 79). -/
def State.streamFault (s : State) : Option Trap :=
  s.me.r.q.findSome? fun e => if e.2.bound && e.2.pat.ctl.getLsbD 0 then e.2.fault else none

/-- Hold every queue until FENCE_COMPLETE. -/
def State.holdFence (s : State) (what : Hold) (mem : Bool) : Res :=
  let evs := if mem then s.drainStreams s.cur.seq else []
  if !evs.isEmpty then .wait s evs
  else
    match (if mem then s.streamFault else none) with
    | some t => .trap s t
    | none => .hold (s.setFlight { s.me.f with holdB := some { bn := s.cur.bn, addr := s.cur.addr, what := what } })

def execFence (g : BitVec 7) (scope : Scope) (s : State) : Result :=
  slotOp g s fun s => s.holdFence (.fence scope) true

def execXfence (g : BitVec 7) (a b : PClass) (s : State) : Result :=
  slotOp g s fun s => s.holdFence (.xfence a b) (a == .mem || b == .mem)

/-- Write streams that hold vectors of mm.wb and mm.rd, with no latched fault (spec/06 R154). -/
def State.mxDrains (s : State) (q : Nat) : List Instr :=
  (s.seq q).r.q.filterMap fun e =>
    if e.2.bound && e.2.pat.dirW && e.2.fault.isNone && e.2.queue.any (·.mxs) then some (.streamDrain q e.1) else none

/-- Whether start stores of a sequencer still wait for their channels (spec/12 R297). -/
def State.startsWait (s : State) (q : Nat) : Bool :=
  (s.seq q).f.storeB.any fun e => match e.act with | .start _ _ _ _ => true | _ => false

/-- The wait of an xfence for the earlier accesses of a class (spec/08 R198). -/
def State.classDone (s : State) (q : Nat) (a : PClass) : Try Unit :=
  let on := fun (evs : List Instr) => if evs.isEmpty then Try.ok s () else .wait s evs
  match a with
  | .mem => s.tryRelease q .sy
  | .copy =>
    if s.startsWait q then .wait s (.storePerform q 1 :: s.copyEvents q)
    else on (s.copyEvents q)
  | .mxs => on (s.mxDrains q)
  | .patch => on (s.holdDEvents q)
  | .hal =>
    let st := (s.seq q).f.storeB.any fun e => match e.act with | .hal _ => true | _ => false
    on ((if st then [.storePerform q 1] else []) ++ s.halEvents q ++ s.askEvents q)
  | .link => if s.startsWait q then .wait s (s.storeEvents q) else on (s.storeEvents q ++ s.drainStreams q ++ s.linkCopyEvents q)

/-- FENCE_COMPLETE (spec/08 R199). -/
def execFenceComplete (q : Nat) (s : State) : Result :=
  match (s.seq q).f.holdB with
  | none => .next s
  | some hb =>
    let fin := fun (x : Try Unit) (bump : Option Scope) =>
      match x with
      | .ok s1 _ =>
        let s2 := match bump with | some sc => s1.bump (coreOf q) sc | none => s1
        Host.Outcome.next (s2.endHold q hb.bn)
      | .wait s1 evs => .next (s1.stallOn evs)
      | .trap s1 t =>
        let x := s1.seq q
        let s2 := s1.setSeq q { x with f := { x.f with holdB := none } }
        ({ s2 with cur := { seq := q, slot := 1, bn := hb.bn, addr := hb.addr } } : State).raise t
    match hb.what with
    | .fence sc => fin (s.tryRelease q sc) (some sc)
    | .xfence a b => fin (s.classDone q a) (if a = .mem || b = .mem then some .sy else none)
    | _ => .next s

/-! ### mcas (spec/11 R264 to R269) -/

/-- The trap 0x31 (spec/11 R265). -/
def mcasTrap (reason : Nat) (y : Word) (i j : Nat) : Trap :=
  { code := 0x31, w4 := BitVec.ofNat 64 (reason + y.toNat % 2 ^ 48 * 256), w5 := BitVec.ofNat 64 (i + 256 * j) }

/-- Read the entries of a parameter block from the ith on. -/
def State.mcasRead (s : State) (q : Nat) (y : Word) (i : Nat) : Nat → Try (List McasEnt)
  | 0 => .ok s []
  | n + 1 =>
    let at_ := y + BitVec.ofNat 64 (24 * i)
    let rd := fun (s : State) (a : Word) =>
      match addrBad a 8 { cls := pcMem } with
      | some t => Try.trap s t
      | none => s.plainRead q a 8 false { cls := pcMem }
    (rd s at_).bind fun s a => (rd s (at_ + 8#64)).bind fun s x => (rd s (at_ + 16#64)).bind fun s v =>
      (s.mcasRead q y (i + 1) n).bind fun s es => .ok s ({ idx := i, va := a, pa := 0, x := x, y := v } :: es)

/-- The checks of R260 on each entry, an address outside the domain giving reason 3. -/
def State.mcasCheck (s : State) (q : Nat) (y : Word) : List McasEnt → Try (List McasEnt)
  | [] => .ok s []
  | e :: t =>
    let acc : Acc := { cls := pcHal, write := true }
    match addrBad e.va 8 acc with
    | some tr => .trap s tr
    | none =>
      (s.find q e.va acc).bind fun s1 tr =>
        if eNc tr.e2 then .trap s1 (mcasTrap 3 y e.idx 0)
        else
          ((s1.useKey tr).meetErrors q (s1.ctxOf q) (lineOf tr.pa) acc).bind fun s2 _ =>
            (s2.mcasCheck q y t).bind fun s3 es => .ok s3 ({ e with pa := tr.pa } :: es)

/-- The first entry, in ascending order, whose line an earlier entry names, and that earlier one: of several pairs, the one whose second
entry has the smallest number (DESIGN CHOICE, log 102). -/
def sameLine (seen : List McasEnt) : List McasEnt → Option (Nat × Nat)
  | [] => none
  | e :: t =>
    match seen.find? fun d => lineOf d.pa == lineOf e.pa with
    | some d => some (d.idx, e.idx)
    | none => sameLine (seen ++ [e]) t

/-- Insert an entry in ascending physical address. -/
def insertEnt (e : McasEnt) : List McasEnt → List McasEnt
  | [] => [e]
  | d :: t => if e.pa < d.pa then e :: d :: t else d :: insertEnt e t

def sortEnts : List McasEnt → List McasEnt
  | [] => []
  | e :: t => insertEnt e (sortEnts t)

def execMcas (g : BitVec 7) (y z : BitVec 6) (s : State) : Result :=
  slotOp g s fun s =>
    let q := s.cur.seq
    let blk := s.rs y
    let n := (s.rs z).toNat
    if n = 0 || 16 < n then .trap s (mcasTrap 1 blk 0 0)
    else
      let evs := s.drainStreams q
      if !evs.isEmpty then .wait s evs
      else
        match s.streamFault with
        | some t => .trap s t
        | none =>
          ((s.tryRelease q .sy).bind fun s _ => s.tryHalDone q).res fun s _ =>
            ((s.mcasRead q blk 0 n).bind fun s es => s.mcasCheck q blk es).res fun s es =>
              match sameLine [] es with
              | some (i, j) => .trap s (mcasTrap 2 blk i j)
              | none =>
                if 64 ≤ s.me.f.reserved.length then .wait s []
                else
                  let (s1, id) := s.reserve
                  .hold (s1.setFlight { s1.me.f with
                    holdB := some { bn := s.cur.bn, addr := s.cur.addr, what := .mcas { ents := sortEnts es, since := s.clock, lq := id } } })

/-- The mcas that holds a sequencer. -/
def Seq.mcas (x : Seq) : Option (HoldB × Mcas) :=
  match x.f.holdB with
  | some hb => match hb.what with
    | .mcas m => some (hb, m)
    | _ => none
  | none => none

def State.setMcas (s : State) (q : Nat) (hb : HoldB) (m : Mcas) : State :=
  let x := s.seq q
  s.setSeq q { x with f := { x.f with holdB := some { hb with what := .mcas m } } }

/-- Release every lock of a sequencer. -/
def State.unlock (s : State) (q : Nat) : State :=
  { s with dies := s.dies.map fun (e : Nat × Die) => (e.1, { e.2 with locks := e.2.locks.filter fun l => l.2 != q }) }

/-- Holding every lock, compare every word, and write all of them when they match (spec/11 R268). -/
def State.mcasDecide (s0 : State) (q : Nat) (m : Mcas) : State × Word :=
  let ctx := s0.ctxOf q
  let s := m.ents.foldl (fun s e => s.mscTouch (lineOf e.pa) ctx pcHal false true) s0
  let bad := m.ents.filter fun e => s.engWord e.pa != e.x
  if bad.isEmpty then
    (m.ents.foldl (fun s e =>
      let s1 := match s.translate (dieOf q) ctx e.va { cls := pcHal, write := true } with
        | (s1, .ok t) => (s1.setDirty (dieOf q) ctx e.va t).useKey t
        | (s1, .error _) => s1
      (s1.mscTouch (lineOf e.pa) ctx pcHal true true).engSetWord e.pa e.y) s, 0#64)
  else (s, BitVec.ofNat 64 (bad.foldl (fun a e => a + 2 ^ e.idx) 0))

/-- An attempt is abandoned: its locks are released; the sixteenth ends contended (spec/11 R266). -/
def State.mcasFail (s : State) (q : Nat) (hb : HoldB) (m : Mcas) : State :=
  let s1 := s.unlock q
  let k := m.attempt + 1
  if k = 16 then s1.setMcas q hb { m with attempt := k, held := 0, result := some 0x10000#64 }
  else s1.setMcas q hb { m with attempt := k, held := 0, backoff := true, since := s.clock }

/-- The home of an entry enters its line in its lock table, and with every lock held the mcas decides. -/
def State.mcasLock (s : State) (q : Nat) (hb : HoldB) (m : Mcas) (e : McasEnt) : State :=
  let l := lineOf e.pa
  let die := s.homeDie e.pa
  let s1 := s.homeHal l
  let s2 := s1.setDie die { s1.die die with locks := Tab.put (s1.die die).locks l q }
  let m1 := { m with held := m.held + 1 }
  if m1.held < m1.ents.length then s2.setMcas q hb m1
  else
    let (s3, w) := s2.mcasDecide q m1
    (s3.unlock q).setMcas q hb { m1 with held := 0, result := some w }

/-- MCAS_LOCK_GRANT: the home of the next line in address order grants its lock; a page that has moved, or a window that has
passed, ends the attempt (spec/11 R266, R267). -/
def execMcasLockGrant (q : Nat) (s : State) : Result :=
  match (s.seq q).mcas with
  | none => .next s
  | some (hb, m) =>
    if m.result.isSome || m.backoff then .next s
    else if s.mcasExpired m then .next (s.mcasFail q hb m)
    else
      match m.ents[m.held]? with
      | none => .next s
      | some e =>
        let l := lineOf e.pa
        let die := s.homeDie e.pa
        match Tab.get? (s.die die).locks l with
        | some p => if p = q then .next s else .next { s with agenda := .mcasLockGrant p :: s.agenda }
        | none =>
          if 256 ≤ (s.die die).locks.length then .next s.yield
          else
            let last := if m.held + 1 < m.ents.length then [e] else m.ents
            -- the decision reads and writes every line, so each home must be in reach
            match (s.gate l true).orElse fun _ => last.findSome? fun d =>
                if !s.routed (paDev d.pa) then some (s, []) else s.writeGate (dieOf q) (s.ctxOf q) d.va with
            | some (s1, _) => .next s1.yield
            | none =>
              match s.translate (dieOf q) (s.ctxOf q) e.va { cls := pcHal, write := true } with
              | (s1, .error _) => .next (s1.mcasFail q hb m)
              | (s1, .ok t) => if t.pa = e.pa then .next (s1.mcasLock q hb m e) else .next (s1.mcasFail q hb m)

/-- MCAS_WINDOW_EXPIRE: W cycles after its first request an attempt that has not decided is abandoned (spec/11 R267). -/
def execMcasWindowExpire (q : Nat) (s : State) : Result :=
  match (s.seq q).mcas with
  | some (hb, m) =>
    if m.result.isSome || m.backoff || !s.mcasExpired m then .next s else .next (s.mcasFail q hb m)
  | none => .next s

/-- Forget a cached translation of an address. -/
def State.forget (s : State) (die ctx : Nat) (va : Word) : State :=
  s.setDie die { s.die die with tlb := (s.die die).tlb.filter fun e =>
    !(e.ctx == ctx && e.va ≤ va.toNat && va.toNat < e.va + e.size) }

/-- Fresh translations of the entries of an mcas, in ascending physical address; an entry without one keeps its last address
(spec/11 R266, spec/18 R393). -/
def State.mcasRefresh (s : State) (q : Nat) (m : Mcas) : State × Mcas :=
  let die := dieOf q
  let ctx := s.ctxOf q
  let s0 := m.ents.foldl (fun s e => s.forget die ctx e.va) s
  let r := m.ents.foldl (fun (a : State × List McasEnt) e =>
    match a.1.translate die ctx e.va { cls := pcHal, write := true } with
    | (s, .ok t) => (s, insertEnt { e with pa := t.pa } a.2)
    | (s, .error _) => (s, insertEnt e a.2)) (s0, [])
  (r.1, { m with ents := r.2 })

/-- MCAS_BACKOFF_EXPIRE: 64 cycles for each attempt made, the next one begins, with the translations of its own moment (spec/11
R266). -/
def execMcasBackoffExpire (q : Nat) (s : State) : Result :=
  match (s.seq q).mcas with
  | some (hb, m) =>
    if m.backoff && decide (m.since + 64 * m.attempt ≤ s.clock) then
      let (s1, m1) := s.mcasRefresh q m
      .next (s1.setMcas q hb { m1 with backoff := false, since := s.clock })
    else .next s
  | none => .next s

/-- The result arrives in the load queue, and the mcas performs the acquire of fence.sy (spec/11 R265). -/
def execMcasResultReturn (q : Nat) (s : State) : Result :=
  match (s.seq q).mcas with
  | some (hb, m) =>
    match m.result with
    | some w =>
      let s1 := s.setSeq q ((s.seq q).arrive m.lq w)
      .next ((s1.bump (coreOf q) .sy).endHold q hb.bn)
    | none => .next s
  | none => .next s

/-- The address of the oldest request of a sequencer that a home has not performed. -/
def State.oldestRequest (s : State) (q : Nat) : Option Word :=
  match s.hal.find? fun e => e.q == q with
  | some e => match e.op with
    | .atomic va _ _ _ _ | .cas va _ _ _ _ => some va
    | _ => none
  | none =>
    match (s.seq q).f.storeB ++ (s.seq q).f.storeC with
    | e :: _ => match e.act with
      | .plain (x :: _) => some (BitVec.ofNat 64 x.addr)
      | .red va _ _ => some va
      | _ => none
    | [] => none

/-- MOVED_RESPONSE: a requester answered moved discards its translation and walks again; an mcas abandons its attempt, which
is counted; between attempts it has no request, and refreshes its translations (spec/11 R266, spec/18 R393). -/
def execMovedResponse (q : Nat) (s : State) : Result :=
  let ctx := s.ctxOf q
  let die := dieOf q
  match (s.seq q).mcas with
  | some (hb, m) =>
    if m.result.isSome then .next s
    else
      let (s1, m1) := s.mcasRefresh q m
      .next (if m.backoff then s1.setMcas q hb m1 else s1.mcasFail q hb m1)
  | none =>
    match s.oldestRequest q with
    | some va => .next (s.forget die ctx va)
    | none => .next s

end Sys2Proof.Machine
end

