-- ==== Sys2Proof/Machine/Num.lean ====
section
/-! DEFINITION. Number formats, rounding, conversion, block quantisation, the Hadamard network, write-back, and the exact
arithmetic of floating values (spec/04 R87 to R96, R106, spec/05 R110, R111, R119 to R121). -/

namespace Sys2Proof.Machine

/-! ### Dyadic numbers -/

/-- m·2^k as an integer, truncated when k is negative. -/
def shiftNat (m : Nat) (k : Int) : Nat := if 0 ≤ k then m * 2 ^ k.toNat else m / 2 ^ (-k).toNat

/-- Whether m·2^e is less than n·2^f. -/
def dyLt (m : Nat) (e : Int) (n : Nat) (f : Int) : Bool :=
  let g := Min.min e f
  decide (m * 2 ^ (e - g).toNat < n * 2 ^ (f - g).toNat)

def dyEq (m : Nat) (e : Int) (n : Nat) (f : Int) : Bool :=
  let g := Min.min e f
  m * 2 ^ (e - g).toNat == n * 2 ^ (f - g).toNat

/-- floor(log2(m·2^e)) of a non-zero value. -/
def dyLog (m : Nat) (e : Int) : Int := (Nat.log2 m : Int) + e

/-! ### Rounding (spec/04 R92) -/

/-- rnd_int of the magnitude m·2^k. -/
def rndInt (m : Nat) (k : Int) (mode : Rnd) (neg : Bool) : Nat :=
  if 0 ≤ k then m * 2 ^ k.toNat
  else
    let d := 2 ^ (-k).toNat
    let q := m / d
    let r := m % d
    if r = 0 then q
    else
      match mode with
      | .rne => if 2 * r < d then q else if d < 2 * r then q + 1 else q + q % 2
      | .rtz => q
      | .rup => if neg then q else q + 1
      | .rdn => if neg then q + 1 else q

/-- round_sig of m·2^e: an integer and its exponent. -/
def roundSig (m : Nat) (e : Int) (p : Nat) (emin : Int) (mode : Rnd) (neg : Bool) : Nat × Int :=
  let u := Max.max (dyLog m e) emin - (p : Int) + 1
  (rndInt m (e - u) mode neg, u)

/-! ### Floating formats (spec/04 R87, R88) -/

/-- Exponent bits, fraction bits, bias; whether there are infinities. -/
structure Flt where
  eb : Nat
  fb : Nat
  bias : Nat
  hasInf : Bool
  deriving DecidableEq, Repr

def fp32F : Flt := { eb := 8, fb := 23, bias := 127, hasInf := true }
def bf16F : Flt := { eb := 8, fb := 7, bias := 127, hasInf := true }
def fp16F : Flt := { eb := 5, fb := 10, bias := 15, hasInf := true }
def e4m3F : Flt := { eb := 4, fb := 3, bias := 7, hasInf := false }
def e5m2F : Flt := { eb := 5, fb := 2, bias := 15, hasInf := true }

def Flt.p (f : Flt) : Nat := f.fb + 1
def Flt.emin (f : Flt) : Int := 1 - (f.bias : Int)
def Flt.emax (f : Flt) : Nat := 2 ^ f.eb - 1
def Flt.width (f : Flt) : Nat := f.eb + f.fb + 1
/-- The largest finite value. -/
def Flt.max (f : Flt) : Nat × Int :=
  if f.hasInf then (2 ^ (f.fb + 1) - 1, (f.emax : Int) - 1 - f.bias - f.fb)
  else (2 ^ (f.fb + 1) - 2, (f.emax : Int) - f.bias - f.fb)

/-- The canonical NaN. -/
def Flt.nan (f : Flt) : Nat :=
  if f.hasInf then f.emax * 2 ^ f.fb + 2 ^ (f.fb - 1) else f.emax * 2 ^ f.fb + (2 ^ f.fb - 1)

/-- The value of a field. -/
def Flt.dec (f : Flt) (b : Nat) : Num :=
  let fr := b % 2 ^ f.fb
  let e := b / 2 ^ f.fb % 2 ^ f.eb
  let neg := b / 2 ^ (f.fb + f.eb) % 2 == 1
  if e = f.emax && f.hasInf then (if fr = 0 then .inf neg else .nan)
  else if e = f.emax && fr = 2 ^ f.fb - 1 then .nan
  else if e = 0 then .fin neg fr (f.emin - f.fb)
  else .fin neg (fr + 2 ^ f.fb) ((e : Int) - f.bias - f.fb)

/-- The field of a value that the format holds. -/
def Flt.enc (f : Flt) (x : Num) : Nat :=
  let s := fun (neg : Bool) => if neg then 2 ^ (f.fb + f.eb) else 0
  match x with
  | .nan => f.nan
  | .inf neg => s neg + f.emax * 2 ^ f.fb
  | .fin neg m e =>
    if m = 0 then s neg
    else
      let l := dyLog m e
      if l < f.emin then s neg + shiftNat m (e - (f.emin - f.fb))
      else s neg + (l + f.bias).toNat * 2 ^ f.fb + (shiftNat m (e - (l - f.fb)) - 2 ^ f.fb)

/-- A value with the flags that made it. -/
abbrev Flagged (α : Type) := α × FlagSet

def inexactF : FlagSet := { inexact := true }
def invalidF : FlagSet := { invalid := true }
def overF : FlagSet := { overflow := true, inexact := true }

/-- The flags of a rounding that did not overflow. -/
def roundFlags (exact small : Bool) : FlagSet := { inexact := !exact, underflow := !exact && small }

/-- cvt to a floating format (spec/04 R93). -/
def Flt.cvt (f : Flt) (x : Num) (mode : Rnd) : Flagged Num :=
  match x with
  | .nan => (.nan, {})
  | .inf neg => if f.hasInf then (x, {}) else (.fin neg f.max.1 f.max.2, { overflow := true })
  | .fin neg m e =>
    if m = 0 then (x, {})
    else
      let (r, u) := roundSig m e f.p f.emin mode neg
      if dyLt f.max.1 f.max.2 r u then (.fin neg f.max.1 f.max.2, overF)
      else (.fin neg r u, roundFlags (dyEq r u m e) (dyLt m e 1 f.emin))

/-- vround: as cvt with RNE, but overflowing to infinity (spec/05 R110). -/
def Flt.vround (f : Flt) (x : Num) : Flagged Num :=
  match x with
  | .fin neg m e =>
    if m = 0 then (x, {})
    else
      let (r, u) := roundSig m e f.p f.emin .rne neg
      if dyLt f.max.1 f.max.2 r u then (.inf neg, overF)
      else (.fin neg r u, roundFlags (dyEq r u m e) (dyLt m e 1 f.emin))
  | _ => (x, {})

/-- cvt to an integer format of some width (spec/04 R93). -/
def cvtInt (x : Num) (w : Nat) (mode : Rnd) : Flagged Int :=
  let hi : Int := 2 ^ (w - 1) - 1
  let lo : Int := -(2 ^ (w - 1))
  match x with
  | .nan => (0, invalidF)
  | .inf neg => (if neg then lo else hi, invalidF)
  | .fin neg m e =>
    let r := rndInt m e mode neg
    let y : Int := if neg then -(r : Int) else r
    if hi < y then (hi, overF)
    else if y < lo then (lo, overF)
    else (y, { inexact := !dyEq r 0 m e })

/-- The exact value of an integer. -/
def Num.ofInt (i : Int) : Num := .fin (decide (i < 0)) i.natAbs 0

/-- A w-bit field as a signed integer, and back. -/
def sInt (w b : Nat) : Int := if 2 ^ (w - 1) ≤ b then (b : Int) - 2 ^ w else b
def uNat (w : Nat) (i : Int) : Nat := (i % ((2 ^ w : Nat) : Int)).toNat

/-! ### Formats of one element each -/

/-- The floating format of a code. -/
def Fmt.flt : Fmt → Option Flt
  | .fp32 => some fp32F | .bf16 => some bf16F | .fp16 => some fp16F | .e4m3 => some e4m3F | .e5m2 => some e5m2F
  | _ => none

/-- Width of an element in bits: for a BX format, of its field. -/
def Fmt.bits : Fmt → Nat
  | .fp32 | .int32 => 32 | .bf16 | .fp16 => 16 | .e4m3 | .e5m2 | .int8 | .bx7 => 8 | .bx4 => 5 | .bx2 => 3

/-- The magnitude bits of a BX format. -/
def Fmt.bx : Fmt → Option Nat
  | .bx7 => some 7 | .bx4 => some 4 | .bx2 => some 2 | _ => none

def decElem (f : Fmt) (b : Nat) : Num :=
  match Fmt.flt f with
  | some k => k.dec b
  | none => Num.ofInt (sInt (Fmt.bits f) b)

/-- cvt to an element of a format that is no BX format. -/
def cvtElem (f : Fmt) (x : Num) (mode : Rnd) : Flagged Nat :=
  match Fmt.flt f with
  | some k => let (y, fl) := k.cvt x mode; (k.enc y, fl)
  | none => let (y, fl) := cvtInt x (Fmt.bits f) mode; (uNat (Fmt.bits f) y, fl)

/-! ### BX blocks (spec/04 R89, R94) -/

/-- Bytes of a block with n magnitude bits. -/
def bxBytes (n : Nat) : Nat := 2 + 2 * (n + 1)

/-- The sixteen values of a block, given as a little-endian number. -/
def bxDec (n : Nat) (blk : Nat) : List Num :=
  let ex := blk % 256
  (List.range 16).map fun i =>
    if ex = 255 then .nan
    else
      let sg : Nat := blk / 2 ^ (8 + 2 * (i / 4)) % 4
      let fd : Nat := blk / 2 ^ (16 + (n + 1) * i) % 2 ^ (n + 1)
      .fin (fd / 2 ^ n == 1) (fd % 2 ^ n) ((ex : Int) - 127 - ((n : Int) - 1) - (sg : Int))

def Num.isNan : Num → Bool
  | .nan => true
  | _ => false

def Num.neg : Num → Bool
  | .nan => false
  | .inf n | .fin n _ _ => n

/-- rnd_int of |x| / 2^k; an infinity has no such integer. -/
def Num.units (x : Num) (k : Int) (mode : Rnd) : Option Nat :=
  match x with
  | .fin neg m e => some (rndInt m (e - k) mode neg)
  | _ => none

/-- The largest magnitude of finite values: its floor(log2), or nothing when all are zero. -/
def maxLog : List Num → Option Int
  | [] => none
  | x :: t =>
    let r := maxLog t
    match x with
    | .fin _ m e => if m = 0 then r else some (match r with | some l => Max.max l (dyLog m e) | none => dyLog m e)
    | _ => r

def Num.isInf : Num → Bool
  | .inf _ => true
  | _ => false

/-- The sub-shift of a quartet: the largest t that clamps nothing. -/
def subShift (q : List Num) (ex n : Nat) (mode : Rnd) : Nat :=
  let ok := fun (t : Nat) => q.all fun x =>
    match x.units ((ex : Int) - 126 - n - t) mode with
    | some r => r ≤ 2 ^ n - 1
    | none => false
  if ok 3 then 3 else if ok 2 then 2 else if ok 1 then 1 else 0

/-- bx_quant: the block as a number, and its flags. -/
def bxQuant (xs : List Num) (n : Nat) (mode : Rnd) : Flagged Nat :=
  if xs.any Num.isNan then (255, {})
  else
    let e0 : Nat :=
      if xs.any Num.isInf then 254
      else match maxLog xs with
        | none => 0
        | some l => (Min.min (Max.max (l + 127) 0) 254).toNat
    let grow := decide (e0 < 254) && xs.any fun x =>
      match x.units ((e0 : Int) - 126 - n) mode with | some r => decide (2 ^ n ≤ r) | none => false
    let ex := if grow then e0 + 1 else e0
    let quartet := fun (j : Nat) => (xs.drop (4 * j)).take 4
    let sg := (List.range 4).map fun j => subShift (quartet j) ex n mode
    let elem := fun (i : Nat) =>
      let x := xs.getD i (.fin false 0 0)
      let u : Int := (ex : Int) - 126 - n - (sg.getD (i / 4) 0 : Nat)
      let s := if x.neg then 2 ^ n else 0
      match x with
      | .fin neg m e =>
        let r := rndInt m (e - u) mode neg
        let r1 := if 2 ^ n - 1 < r then 2 ^ n - 1 else r
        let fl : FlagSet :=
          { overflow := decide (2 ^ n - 1 < r), inexact := decide (2 ^ n - 1 < r) || !dyEq r1 u m e,
            underflow := m != 0 && r1 == 0 }
        (s + r1, fl)
      | _ => (s + (2 ^ n - 1), ({ overflow := true } : FlagSet))
    let els := (List.range 16).map elem
    let body := (els.map (·.1)).foldr (fun a acc => a + 2 ^ (n + 1) * acc) 0
    let sub := sg.foldr (fun a acc => a + 4 * acc) 0
    (ex + 256 * sub + 65536 * body, els.foldl (fun a e => a.or e.2) {})

/-! ### Exact arithmetic (spec/05 R110, R111) -/

/-- An exact finite sum; an exact zero is +0 unless every term is −0. -/
def addFin (n1 : Bool) (m1 : Nat) (e1 : Int) (n2 : Bool) (m2 : Nat) (e2 : Int) : Num :=
  let g := Min.min e1 e2
  let a : Int := (m1 * 2 ^ (e1 - g).toNat : Nat)
  let b : Int := (m2 * 2 ^ (e2 - g).toNat : Nat)
  let t := (if n1 then -a else a) + (if n2 then -b else b)
  if t = 0 then .fin (n1 && n2) 0 0 else .fin (decide (t < 0)) t.natAbs g

/-- An exact sum, with the invalid ∞ − ∞. -/
def Num.addX (x y : Num) : Flagged Num :=
  match x, y with
  | .nan, _ | _, .nan => (.nan, {})
  | .inf a, .inf b => if a == b then (.inf a, {}) else (.nan, invalidF)
  | .inf a, .fin _ _ _ => (.inf a, {})
  | .fin _ _ _, .inf b => (.inf b, {})
  | .fin a m e, .fin b n f => (addFin a m e b n f, {})

def Num.negate : Num → Num
  | .nan => .nan
  | .inf a => .inf (!a)
  | .fin a m e => .fin (!a) m e

def Num.isZero : Num → Bool
  | .fin _ m _ => m == 0
  | _ => false

/-- An exact product, with the invalid 0 × ∞. -/
def Num.mulX (x y : Num) : Flagged Num :=
  match x, y with
  | .nan, _ | _, .nan => (.nan, {})
  | .inf a, .inf b => (.inf (a != b), {})
  | .inf a, .fin b n _ => if n = 0 then (.nan, invalidF) else (.inf (a != b), {})
  | .fin a m _, .inf b => if m = 0 then (.nan, invalidF) else (.inf (a != b), {})
  | .fin a m e, .fin b n f => (.fin (a != b) (m * n) (e + f), {})

/-- Round an exact result that carries flags. -/
def Flt.round (f : Flt) (x : Flagged Num) : Flagged Num :=
  let (y, fl) := f.vround x.1
  (y, x.2.or fl)

def Flt.add (f : Flt) (x y : Num) : Flagged Num := f.round (x.addX y)
def Flt.sub (f : Flt) (x y : Num) : Flagged Num := f.round (x.addX y.negate)
def Flt.mul (f : Flt) (x y : Num) : Flagged Num := f.round (x.mulX y)

/-- One rounding of x × y + z; any NaN operand gives a NaN without a flag. -/
def Flt.fma (f : Flt) (x y z : Num) : Flagged Num :=
  if x.isNan || y.isNan || z.isNan then (.nan, {})
  else
    let (p, fl) := x.mulX y
    if p.isNan then (.nan, fl)
    else
      let (t, fl2) := p.addX z
      f.round (t, fl.or fl2)

/-- Order of two values that are no NaN, −0 below +0. -/
def Num.below (x y : Num) : Bool :=
  match x, y with
  | .inf a, .inf b => a && !b
  | .inf a, _ => a
  | _, .inf b => !b
  | .fin a m e, .fin b n f =>
    if a && !b then true
    else if !a && b then false
    else if a then dyLt n f m e
    else dyLt m e n f
  | _, _ => false

def Num.minX (x y : Num) : Num := if x.isNan || y.isNan then .nan else if y.below x then y else x
def Num.maxX (x y : Num) : Num := if x.isNan || y.isNan then .nan else if x.below y then y else x

/-! ### The Hadamard network (spec/04 R95) -/

/-- One stage of the butterfly over a list of lanes. -/
def hadStage {α : Type} (add sub : α → α → α) (h : Nat) (xs : List α) (d : α) : List α :=
  (List.range xs.length).map fun i =>
    if i / h % 2 = 0 then add (xs.getD i d) (xs.getD (i + h) d) else sub (xs.getD (i - h) d) (xs.getD i d)

/-- had over lists whose length is a multiple of N. -/
def hadamard {α : Type} (add sub : α → α → α) (n : Nat) (xs : List α) (d : α) : List α :=
  let s4 := hadStage add sub 8 (hadStage add sub 4 (hadStage add sub 2 (hadStage add sub 1 xs d) d) d) d
  if n = 32 then hadStage add sub 16 s4 d else s4

/-- Values with the flags of every step that reached them: the spec assigns no step of the transform to a lane, and here a written lane
raises the flags of every step that its result depends on (DESIGN CHOICE, log 82). -/
def fAdd (x y : Flagged Num) : Flagged Num := let (z, fl) := fp32F.add x.1 y.1; (z, (x.2.or y.2).or fl)
def fSub (x y : Flagged Num) : Flagged Num := let (z, fl) := fp32F.sub x.1 y.1; (z, (x.2.or y.2).or fl)

/-- The fp32 transform. -/
def hadF (n : Nat) (xs : List Num) : List (Flagged Num) :=
  hadamard fAdd fSub n (xs.map fun x => (x, {})) (.fin false 0 0, {})

/-- The int32 transform, wrapping. -/
def hadI (n : Nat) (xs : List (BitVec 32)) : List (BitVec 32) := hadamard (· + ·) (· - ·) n xs 0#32

/-! ### Write-back (spec/04 R96) -/

/-- The value that write-back converts: scaled and clipped exactly; or the value that replaces it. The flags are those raised
before the conversion. -/
def wbClip (v sc clip : Num) (h : Nat) (isInt : Bool) (lo hi : Num) : Flagged Num :=
  if v.isNan || sc.isNan then (.nan, if isInt then invalidF else {})
  else if (v.isInf && sc.isZero) || (v.isZero && sc.isInf) then (.nan, invalidF)
  else
    let t := match v.mulX sc with
      | (.fin a m e, _) => Num.fin a m (e - h)
      | (x, _) => x
    let (b, fl) : Flagged Num := match clip with
      | .nan => (.inf false, invalidF)
      | .inf _ => (.inf false, {})
      | .fin _ m e => (.fin false m e, {})
    let hi1 := if hi.below b then hi else b
    let lo1 := if b.negate.below lo then lo else b.negate
    let t1 := if hi1.below t then hi1 else t
    (if t1.below lo1 then lo1 else t1, fl)

/-! ### Reciprocals, powers and logarithms (spec/05 R119 to R121) -/

/-- floor(√n), for n below 2^(2k). -/
def isqrt (n : Nat) : Nat → Nat → Nat
  | 0, r => r
  | k + 1, r =>
    let c := r + 2 ^ k
    isqrt n k (if c * c ≤ n then c else r)

/-- vrcp. The quotient is taken to 64 more bits than the operand has, and a last bit says whether it is exact. -/
def vrcpF (x : Num) : Flagged Num :=
  match x with
  | .nan => (.nan, {})
  | .inf a => (.fin a 0 0, {})
  | .fin a m e =>
    if m = 0 then (.inf a, {})
    else
      let k := 64 + Nat.log2 m
      let q := 2 ^ k / m
      fp32F.vround (.fin a (2 * q + if q * m = 2 ^ k then 0 else 1) (-(k : Int) - 1 - e))

/-- vrsqrt, in the same way. -/
def vrsqrtF (x : Num) : Flagged Num :=
  match x with
  | .nan => (.nan, {})
  | .inf a => if a then (.nan, invalidF) else (.fin false 0 0, {})
  | .fin a m e =>
    if m = 0 then (.inf a, {})
    else if a then (.nan, invalidF)
    else
      let odd := e % 2 != 0
      let m1 := if odd then 2 * m else m
      let h := if odd then (e - 1) / 2 else e / 2
      let n := 2 ^ 128 / m1
      let r := isqrt n 65 0
      fp32F.vround (.fin false (2 * r + if r * r * m1 = 2 ^ 128 then 0 else 1) (-65 - h))

/-- texp[j]: the nearest integer to 2^(30 + j/64). -/
def texpTab : List Nat :=
  [1073741824, 1085434106, 1097253708, 1109202018, 1121280436, 1133490379, 1145833280, 1158310587, 1170923762,
    1183674286, 1196563654, 1209593378, 1222764986, 1236080024, 1249540052, 1263146652] ++
  [1276901417, 1290805962, 1304861917, 1319070932, 1333434672, 1347954824, 1362633090, 1377471191, 1392470869,
    1407633882, 1422962010, 1438457051, 1454120821, 1469955159, 1485961921, 1502142985] ++
  [1518500250, 1535035634, 1551751076, 1568648537, 1585730000, 1602997467, 1620452965, 1638098541, 1655936265,
    1673968228, 1692196547, 1710623359, 1729250827, 1748081133, 1767116489, 1786359126] ++
  [1805811301, 1825475297, 1845353420, 1865448001, 1885761398, 1906295993, 1927054196, 1948038440, 1969251188,
    1990694927, 2012372174, 2034285470, 2056437387, 2078830522, 2101467502, 2124350982]

/-- tlog[j]: the nearest integer to log2(1 + j/64) × 2^32. -/
def tlogTab : List Nat :=
  [0, 96069025, 190671291, 283850912, 375650043, 466108993, 555266330, 643158981, 729822324, 815290272,
    899595355, 982768792, 1064840562, 1145839467, 1225793196, 1304728379] ++
  [1382670639, 1459644648, 1535674166, 1610782092, 1684990500, 1758320682, 1830793181, 1902427829, 1973243777,
    2043259528, 2112492963, 2180961373, 2248681479, 2315669461, 2381940981, 2447511201] ++
  [2512394810, 2576606038, 2640158677, 2703066101, 2765341278, 2826996792, 2888044853, 2948497313, 3008365682,
    3067661140, 3126394546, 3184576458, 3242217134, 3299326552, 3355914416, 3411990165] ++
  [3467562987, 3522641820, 3577235372, 3631352118, 3685000315, 3738188006, 3790923031, 3843213029, 3895065449,
    3946487554, 3997486426, 4048068976, 4098241947, 4148011918, 4197385310, 4246368396]

/-- trcp[j]: the nearest integer to 2^32 × 64 / (64 + j). -/
def trcp (j : Nat) : Nat := (2 ^ 39 + 64 + j) / (2 * (64 + j))

/-- lnc: the nearest integer to ln(2) × 2^32; kinv: to 2^32 / ln(2). -/
def lnc : Nat := 2977044472
def kinv : Nat := 6196328019

/-- vexp2 (spec/05 R120). -/
def vexp2F (x : Num) : Flagged Num :=
  match x with
  | .nan => (.nan, {})
  | .inf a => if a then (.fin false 0 0, {}) else (.inf false, {})
  | .fin a m e =>
    if !a && !dyLt m e 128 0 then (.inf false, overF)
    else if a && dyLt 200 0 m e then (.fin false 0 0, { underflow := true, inexact := true })
    else
      -- floor(x · 2^24); the bits below are truncated, and count only towards inexact
      let mag := shiftNat m (e + 24)
      let exact := dyEq mag (-24) m e
      let y : Int := if a then (if exact then -(mag : Int) else -(mag : Int) - 1) else mag
      let k := y / 2 ^ 24
      let f := (y % 2 ^ 24).toNat
      let j := f / 2 ^ 18
      let t := (f % 2 ^ 18) * lnc / 2 ^ 24
      let q := 2 ^ 32 + t + t ^ 2 / 2 ^ 33 + t ^ 3 / (6 * 2 ^ 64)
      let (r, fl) := fp32F.vround (.fin false (texpTab.getD j 0 * q) (k - 62))
      (r, { fl with inexact := fl.inexact || f != 0 || !exact })

/-- vlog2 (spec/05 R121). -/
def vlog2F (x : Num) : Flagged Num :=
  match x with
  | .nan => (.nan, {})
  | .inf a => if a then (.nan, invalidF) else (.inf false, {})
  | .fin a m e =>
    if m = 0 then (.inf true, {})
    else if a then (.nan, invalidF)
    else
      let ex := dyLog m e
      let mm := shiftNat m (23 - (Nat.log2 m : Int))
      let j := mm / 2 ^ 17 % 64
      let z : Int := (mm * trcp j / 2 ^ 23 : Nat) - 2 ^ 32
      let w : Int := z - z ^ 2 / 2 ^ 33 + z ^ 3 / (3 * 2 ^ 64)
      let y : Int := ex * 2 ^ 32 + tlogTab.getD j 0 + w * kinv / 2 ^ 32
      if y = 0 then (.fin false 0 0, {}) else fp32F.vround (.fin (decide (y < 0)) y.natAbs (-32))

/-! ### The norm register (spec/04 R106) -/

/-- The truncated term of a delta, and whether it was truncated; none for a NaN or an infinity. -/
def normTerm (d : Num) : Option (Nat × Bool) :=
  match d with
  | .fin _ m e =>
    let q := shiftNat (m * m) (2 * e + 128)
    some (q, !dyEq q (-128) (m * m) (2 * e))
  | _ => none

end Sys2Proof.Machine
end

