-- ==== Sys2Proof/Machine/Operands.lean ====
section
/-! DEFINITION. The operand forms of slot C: element views, lane predicates, streams as operands, and the frame of a vector
instruction (spec/05 R107, R125, R128 to R132). -/

namespace Sys2Proof.Machine

/-! ### Views of a register (spec/05 R107) -/

/-- n elements of w bits, the lowest first. -/
def elemsN (w : Nat) : Nat → Nat → List Nat
  | _, 0 => []
  | x, n + 1 => x % 2 ^ w :: elemsN w (x / 2 ^ w) n

def elems (w : Nat) (x : BitVec 1024) : List Nat := elemsN w x.toNat (1024 / w)

/-- Elements of w bits put together. -/
def packN (w : Nat) : List Nat → Nat
  | [] => 0
  | a :: t => a % 2 ^ w + 2 ^ w * packN w t

def pack (w : Nat) (l : List Nat) : BitVec 1024 := BitVec.ofNat 1024 (packN w l)

/-- A mask of k equal parts of w bits, all ones where a bit of m is set. -/
def spreadBits (w m : Nat) : Nat → Nat
  | 0 => 0
  | n + 1 => (if m % 2 = 1 then 2 ^ w - 1 else 0) + 2 ^ w * spreadBits w (m / 2) n

/-- The bits of the lanes of a predicate. -/
def laneMask (p : BitVec 32) : BitVec 1024 := BitVec.ofNat 1024 (spreadBits 32 p.toNat 32)
/-- The bytes of the lanes of a predicate. -/
def laneBytes (p : BitVec 32) : BitVec 128 := BitVec.ofNat 128 (spreadBits 4 p.toNat 32)
/-- The bits of a byte mask. -/
def bytesMask (m : BitVec 128) : BitVec 1024 := BitVec.ofNat 1024 (spreadBits 8 m.toNat 128)

/-- Whether the lane that covers element e of w bits is on. -/
def laneOn (p : BitVec 32) (w e : Nat) : Bool := p.getLsbD (e * w / 32)

/-! ### Streams as operands (spec/05 R130) -/

/-- The trap 0x14 (spec/16 R348). -/
def streamTrap (n : BitVec 3) (slotD : Bool) (reason step : Nat) : Trap :=
  { code := 0x14, w4 := BitVec.ofNat 64 (n.toNat + (if slotD then 8 else 0) + 16 * reason), w5 := BitVec.ofNat 64 step }

/-- Whether an access to a stream can go on. Where several rows of R130 apply, reason 2 comes before reason 3, and both before a latched
fault and a full queue (DESIGN CHOICE, log 78). -/
def State.streamOk (s : State) (n : BitVec 3) (asDst slotD : Bool) : Try Unit :=
  let x := s.me.r.getQ n
  if !x.bound || x.pat.steps ≤ x.taken then .trap s (streamTrap n slotD 2 x.taken)
  else if x.pat.dirW != asDst then .trap s (streamTrap n slotD 3 x.taken)
  else if asDst then
    match x.fault with
    | some t => .trap s t
    | none => if 8 ≤ x.queue.length then .wait s [.streamDrain s.cur.seq n.toNat] else .ok s ()
  else if !x.queue.isEmpty then .ok s ()
  else
    match x.fault with
    | some t => .trap s t
    | none =>
      if x.pat.nostall then .trap s (streamTrap n slotD 1 x.taken) else .wait s [.streamFill s.cur.seq n.toNat]

/-- The value of a source operand, without taking a step. -/
def State.peek (s : State) (o : VOp) : BitVec 1024 :=
  match o with
  | .v n => s.rv n
  | .q n => match (s.me.r.getQ n).queue with
    | e :: _ => if (s.me.r.getQ n).pat.plain || s.me.covers s.cur.bn then e.v else e.live
    | [] => 0#1024

/-- A read stream takes its step; one that does not stall is filled ahead. -/
def State.takeStep (s : State) (n : BitVec 3) : State :=
  let x := s.me.r.getQ n
  let s1 := s.setRegs (s.me.r.setQ n { x with taken := x.taken + 1, queue := x.queue.drop 1 })
  if x.pat.nostall then { s1 with agenda := s1.agenda ++ [.streamFill s.cur.seq n.toNat] } else s1

/-- The streams that operands name, each once. -/
def streamsIn : List VOp → List (BitVec 3)
  | [] => []
  | .q n :: t => n :: (streamsIn t).filter (· != n)
  | .v _ :: t => streamsIn t

/-- Check the streams of an instruction, destination first (the order is the model's, DESIGN CHOICE, log 78). -/
def State.streamsOk (s : State) (dst : Option VOp) (srcs : List VOp) : Try Unit :=
  let d : Try Unit := match dst with
    | some (.q n) => s.streamOk n true false
    | _ => .ok s ()
  d.bind fun s _ => tryList (streamsIn srcs) s fun s n => s.streamOk n false false

/-! ### The frame of a vector instruction -/

/-- What a vector instruction produces: the register, the lanes it writes, its flags. -/
structure VOut where
  v : BitVec 1024
  lanes : BitVec 32 := 0xFFFFFFFF#32
  fl : FlagSet := {}

/-- Write a vector result: lanes that are not written keep their value, or are withheld from a write stream. -/
def State.writeV (s : State) (vd : VOp) (o : VOut) : State :=
  match vd with
  | .v n => s.wv n ((o.v &&& laneMask o.lanes) ||| (s.rv n &&& ~~~ laneMask o.lanes))
  | .q n =>
    let x := s.me.r.getQ n
    s.setRegs (s.me.r.setQ n
      { x with taken := x.taken + 1,
               queue := x.queue ++ [{ v := o.v, act := laneBytes o.lanes, cov := s.me.covers s.cur.bn }] })

/-- A vector instruction: streams are checked, sources read whole, steps taken, the result written, flags raised. -/
def vecOp (g : BitVec 7) (vd : VOp) (srcs : List VOp) (s : State) (f : State → List (BitVec 1024) → VOut) : Result :=
  slotOp g s fun s =>
    (s.streamsOk (some vd) srcs).res fun s _ =>
      let o := f s (srcs.map s.peek)
      let s1 := (streamsIn srcs).foldl State.takeStep s
      .done ((s1.writeV vd o).raiseFlags o.fl.bits) 1

/-- Operands by position. -/
def nth (l : List (BitVec 1024)) (k : Nat) : BitVec 1024 := l.getD k 0#1024

/-- Put elements with their flags together; withheld elements raise none. -/
def gather (w : Nat) (lanes : BitVec 32) (es : List (Flagged Nat)) : VOut :=
  { v := pack w (es.map (·.1)), lanes := lanes
    fl := es.zipIdx.foldl (fun a e => if laneOn lanes w e.2 then a.or e.1.2 else a) {} }

end Sys2Proof.Machine
end

