-- ==== Sys2Proof/Machine/Vector.lean ====
section
/-! DEFINITION. The vector instructions (spec/05 R110 to R121, spec/04 R102 to R105). -/

namespace Sys2Proof.Machine

/-! ### Elementwise forms (spec/05 R112, R114) -/

/-- The floating format of a type. -/
def VTy.flt : VTy → Option Flt
  | .fp32 => some fp32F | .bf16 => some bf16F | .fp16 => some fp16F
  | .int32 | .int16 | .int8 => none

def VTy.width : VTy → Nat
  | .fp32 | .int32 => 32 | .int16 | .bf16 | .fp16 => 16 | .int8 => 8

def VTy2.ty : VTy2 → VTy
  | .fp32 => .fp32 | .int32 => .int32 | .int16 => .int16 | .int8 => .int8

/-- An operation: on floats, and on integers of w bits. -/
structure VFun where
  f : Flt → Num → Num → Num → Flagged Num
  i : Nat → Nat → Nat → Nat → Nat

/-- One element. -/
def VFun.elem (op : VFun) (ty : VTy) (a b d : Nat) : Flagged Nat :=
  match VTy.flt ty with
  | some k => let (r, fl) := op.f k (k.dec a) (k.dec b) (k.dec d); (k.enc r, fl)
  | none => (op.i (VTy.width ty) a b d % 2 ^ VTy.width ty, {})

/-- Apply to whole registers. -/
def VFun.run (op : VFun) (ty : VTy) (lanes : BitVec 32) (a b d : BitVec 1024) : VOut :=
  let w := VTy.width ty
  let ab := (elems w a).zip ((elems w b).zip (elems w d))
  gather w lanes (ab.map fun e => op.elem ty e.1 e.2.1 e.2.2)

def vAdd : VFun := { f := fun k a b _ => k.add a b, i := fun _ a b _ => a + b }
def vSub : VFun := { f := fun k a b _ => k.sub a b, i := fun w a b _ => a + 2 ^ w - b }
def vMul : VFun := { f := fun k a b _ => k.mul a b, i := fun _ a b _ => a * b }
def vFma : VFun := { f := fun k a b d => k.fma a b d, i := fun _ a b d => a * b + d }
def vMin : VFun := { f := fun _ a b _ => (a.minX b, {}), i := fun w a b _ => if sInt w b < sInt w a then b else a }
def vMax : VFun := { f := fun _ a b _ => (a.maxX b, {}), i := fun w a b _ => if sInt w a < sInt w b then b else a }
def vShl : VFun := { f := fun _ a _ _ => (a, {}), i := fun w a b _ => a * 2 ^ (b % w) }
def vShr : VFun := { f := fun _ a _ _ => (a, {}), i := fun w a b _ => a / 2 ^ (b % w) }

/-- The three-register forms; vfma alone reads vd. -/
def c3Op (op : VFun) (g : BitVec 7) (ty : VTy) (vd va vb : VOp) (lp : BitVec 7) (s : State) : Result :=
  vecOp g vd [va, vb] s fun s l => op.run ty (s.rp lp) (nth l 0) (nth l 1) 0#1024

def execVaddC3 (g : BitVec 7) (ty : VTy) (vd va vb : VOp) (lp : BitVec 7) (s : State) : Result := c3Op vAdd g ty vd va vb lp s
def execVsubC3 (g : BitVec 7) (ty : VTy) (vd va vb : VOp) (lp : BitVec 7) (s : State) : Result := c3Op vSub g ty vd va vb lp s
def execVmulC3 (g : BitVec 7) (ty : VTy) (vd va vb : VOp) (lp : BitVec 7) (s : State) : Result := c3Op vMul g ty vd va vb lp s
def execVfmaC3 (g : BitVec 7) (ty : VTy) (vd va vb : VOp) (lp : BitVec 7) (s : State) : Result :=
  vecOp g vd [va, vb, vd] s fun s l => vFma.run ty (s.rp lp) (nth l 0) (nth l 1) (nth l 2)
def execVminC3 (g : BitVec 7) (ty : VTy) (vd va vb : VOp) (lp : BitVec 7) (s : State) : Result := c3Op vMin g ty vd va vb lp s
def execVmaxC3 (g : BitVec 7) (ty : VTy) (vd va vb : VOp) (lp : BitVec 7) (s : State) : Result := c3Op vMax g ty vd va vb lp s
def execVshlC3 (g : BitVec 7) (ty : VTy) (vd va vb : VOp) (lp : BitVec 7) (s : State) : Result := c3Op vShl g ty vd va vb lp s
def execVshrC3 (g : BitVec 7) (ty : VTy) (vd va vb : VOp) (lp : BitVec 7) (s : State) : Result := c3Op vShr g ty vd va vb lp s

/-- Bitwise forms. -/
def bitOp (f : BitVec 1024 → BitVec 1024 → BitVec 1024) (g : BitVec 7) (vd va vb : VOp) (lp : BitVec 7) (s : State) : Result :=
  vecOp g vd [va, vb] s fun s l => { v := f (nth l 0) (nth l 1), lanes := s.rp lp }

def execVand (g : BitVec 7) (vd va vb : VOp) (lp : BitVec 7) (s : State) : Result := bitOp (· &&& ·) g vd va vb lp s
def execVor (g : BitVec 7) (vd va vb : VOp) (lp : BitVec 7) (s : State) : Result := bitOp (· ||| ·) g vd va vb lp s
def execVxor (g : BitVec 7) (vd va vb : VOp) (lp : BitVec 7) (s : State) : Result := bitOp (· ^^^ ·) g vd va vb lp s

/-- vsel selects and writes every lane (spec/05 R113). -/
def execVsel (g : BitVec 7) (vd va vb : VOp) (lp : BitVec 7) (s : State) : Result :=
  vecOp g vd [va, vb] s fun s l =>
    let m := laneMask (s.rp lp)
    { v := (nth l 0 &&& m) ||| (nth l 1 &&& ~~~ m) }

/-- The low bits of a scalar as an element, in every element of the view (spec/05 R114, R115). -/
def broadcast (ty : VTy) (w : Word) : BitVec 1024 :=
  pack (VTy.width ty) (List.replicate (1024 / VTy.width ty) w.toNat)

/-- The scalar-operand forms. -/
def csOp (op : VFun) (g : BitVec 7) (ty : VTy2) (vd va : VOp) (x : BitVec 6) (lp : BitVec 7) (s : State) : Result :=
  vecOp g vd [va] s fun s l => op.run (VTy2.ty ty) (s.rp lp) (nth l 0) (broadcast (VTy2.ty ty) (s.rs x)) 0#1024

def execVaddCs (g : BitVec 7) (ty : VTy2) (vd va : VOp) (x : BitVec 6) (lp : BitVec 7) (s : State) : Result := csOp vAdd g ty vd va x lp s
def execVsubCs (g : BitVec 7) (ty : VTy2) (vd va : VOp) (x : BitVec 6) (lp : BitVec 7) (s : State) : Result := csOp vSub g ty vd va x lp s
def execVmulCs (g : BitVec 7) (ty : VTy2) (vd va : VOp) (x : BitVec 6) (lp : BitVec 7) (s : State) : Result := csOp vMul g ty vd va x lp s
def execVfmaCs (g : BitVec 7) (ty : VTy2) (vd va : VOp) (x : BitVec 6) (lp : BitVec 7) (s : State) : Result :=
  vecOp g vd [va, vd] s fun s l =>
    vFma.run (VTy2.ty ty) (s.rp lp) (nth l 0) (broadcast (VTy2.ty ty) (s.rs x)) (nth l 1)
def execVminCs (g : BitVec 7) (ty : VTy2) (vd va : VOp) (x : BitVec 6) (lp : BitVec 7) (s : State) : Result := csOp vMin g ty vd va x lp s
def execVmaxCs (g : BitVec 7) (ty : VTy2) (vd va : VOp) (x : BitVec 6) (lp : BitVec 7) (s : State) : Result := csOp vMax g ty vd va x lp s
def execVshlCs (g : BitVec 7) (ty : VTy2) (vd va : VOp) (x : BitVec 6) (lp : BitVec 7) (s : State) : Result := csOp vShl g ty vd va x lp s
def execVshrCs (g : BitVec 7) (ty : VTy2) (vd va : VOp) (x : BitVec 6) (lp : BitVec 7) (s : State) : Result := csOp vShr g ty vd va x lp s

def execVbcast (g : BitVec 7) (ty : VTy2) (vd : VOp) (x : BitVec 6) (lp : BitVec 7) (s : State) : Result :=
  vecOp g vd [] s fun s _ => { v := broadcast (VTy2.ty ty) (s.rs x), lanes := s.rp lp }

/-! ### Compare, permute, reduce (spec/05 R116 to R118) -/

/-- The condition of a vcmp on one lane. -/
def vcmpHolds (fp : Bool) (cond : Nat) (a b : BitVec 32) : Bool :=
  if fp then
    match cond with
    | 0 => fcondHolds .eq a b
    | 1 => fcondHolds .ne a b
    | 2 => fcondHolds .lt a b
    | 3 => fcondHolds .le a b
    | _ => fcondHolds .un a b
  else
    match cond with
    | 0 => a == b
    | 1 => a != b
    | 2 => a.slt b
    | 3 => a.sle b
    | 4 => a.ult b
    | _ => a.ule b

/-- Bits of a list of truth values, the first lowest. -/
def packBits : List Bool → Nat
  | [] => 0
  | b :: t => (if b then 1 else 0) + 2 * packBits t

def execVcmp (g : BitVec 7) (pair : BitVec 6) (va vb : VOp) (cond : BitVec 3) (fp : Bool) (s : State) : Result :=
  slotOp g s fun s =>
    (s.streamsOk none [va, vb]).res fun s _ =>
      let ls := (elems 32 (s.peek va)).zip (elems 32 (s.peek vb))
      let m := BitVec.ofNat 32 (packBits (ls.map fun e =>
        vcmpHolds fp cond.toNat (BitVec.ofNat 32 e.1) (BitVec.ofNat 32 e.2)))
      let s1 := (streamsIn [va, vb]).foldl State.takeStep s
      .done ((s1.wp (pairLo pair) m).wp (pairHi pair) (~~~ m)) 1

def execVperm (g : BitVec 7) (vd va vb : VOp) (lp : BitVec 7) (s : State) : Result :=
  vecOp g vd [va, vb] s fun s l =>
    let a := elems 32 (nth l 0)
    { v := pack 32 ((elems 32 (nth l 1)).map fun i => a.getD (i % 32) 0), lanes := s.rp lp }

/-- The identity of a reduction. -/
def redIdentity (fp : Bool) : RedOp → Nat
  | .add => if fp then 0x80000000 else 0
  | .min => if fp then 0x7F800000 else 0x7FFFFFFF
  | .max => if fp then 0xFF800000 else 0x80000000
  | .and => 0xFFFFFFFF
  | .or | .xor => 0

/-- One step of a reduction. -/
def redStep (fp : Bool) (op : RedOp) (a b : Flagged Nat) : Flagged Nat :=
  let r : Flagged Nat :=
    match op with
    | .add => vAdd.elem (if fp then .fp32 else .int32) a.1 b.1 0
    | .min => vMin.elem (if fp then .fp32 else .int32) a.1 b.1 0
    | .max => vMax.elem (if fp then .fp32 else .int32) a.1 b.1 0
    | .and => (a.1 &&& b.1, {})
    | .or => (a.1 ||| b.1, {})
    | .xor => (a.1 ^^^ b.1, {})
  (r.1, (a.2.or b.2).or r.2)

/-- Halve the list: element i with element i + w. -/
def redHalf (fp : Bool) (op : RedOp) (xs : List (Flagged Nat)) : List (Flagged Nat) :=
  let w := xs.length / 2
  ((xs.take w).zip (xs.drop w)).map fun e => redStep fp op e.1 e.2

def redTree (fp : Bool) (op : RedOp) : Nat → List (Flagged Nat) → List (Flagged Nat)
  | 0, xs => xs
  | n + 1, xs => redTree fp op n (redHalf fp op xs)

/-- vred: the flags of every step are raised. -/
def execVred (g : BitVec 7) (fp : Bool) (op : RedOp) (vd va : VOp) (lp : BitVec 7) (s : State) : Result :=
  vecOp g vd [va] s fun s l =>
    let p := s.rp lp
    let xs := (elems 32 (nth l 0)).zipIdx.map fun e => (if p.getLsbD e.2 then e.1 else redIdentity fp op, ({} : FlagSet))
    match redTree fp op 5 xs with
    | (r, fl) :: _ => { v := BitVec.ofNat 1024 r, fl := fl }
    | [] => { v := 0#1024 }

/-! ### Functions of one operand (spec/05 R119) -/

def funOp (f : Num → Flagged Num) (g : BitVec 7) (vd va : VOp) (lp : BitVec 7) (s : State) : Result :=
  vecOp g vd [va] s fun s l =>
    gather 32 (s.rp lp) ((elems 32 (nth l 0)).map fun b =>
      let (r, fl) := f (fp32F.dec b)
      (fp32F.enc r, fl))

def execVrcp (g : BitVec 7) (vd va : VOp) (lp : BitVec 7) (s : State) : Result := funOp vrcpF g vd va lp s
def execVrsqrt (g : BitVec 7) (vd va : VOp) (lp : BitVec 7) (s : State) : Result := funOp vrsqrtF g vd va lp s
def execVexp2 (g : BitVec 7) (vd va : VOp) (lp : BitVec 7) (s : State) : Result := funOp vexp2F g vd va lp s
def execVlog2 (g : BitVec 7) (vd va : VOp) (lp : BitVec 7) (s : State) : Result := funOp vlog2F g vd va lp s

/-! ### Conversion (spec/04 R102 to R105) -/

/-- The 32 elements of a register in a format's packing. -/
def unpackFmt (f : Fmt) (x : BitVec 1024) : List Num :=
  match Fmt.bx f with
  | some n => bxDec n x.toNat ++ bxDec n (x.toNat / 2 ^ (8 * bxBytes n))
  | none => (elemsN (Fmt.bits f) x.toNat 32).map (decElem f)

/-- The pair form of 32 values, or their packing. -/
def packFmt (f : Fmt) (mode : Rnd) (xs : List Num) : BitVec 1024 × FlagSet :=
  match Fmt.bx f with
  | some n =>
    let (a, fa) := bxQuant (xs.take 16) n mode
    let (b, fb) := bxQuant (xs.drop 16) n mode
    (BitVec.ofNat 1024 (a + 2 ^ (8 * bxBytes n) * b), fa.or fb)
  | none =>
    let es := xs.map fun x => cvtElem f x mode
    (BitVec.ofNat 1024 (packN (Fmt.bits f) (es.map (·.1))), es.foldl (fun a e => a.or e.2) {})

def execVcvt (g : BitVec 7) (vd va : VOp) (src tgt : Fmt) (rnd : Rnd) (had : Had) (s : State) : Result :=
  vecOp g vd [va] s fun _ l =>
    let x := unpackFmt src (nth l 0)
    let y : List (Flagged Num) := match had with
      | .none => x.map fun v => (v, {})
      | .h16 => hadF 16 x
      | .h32 => hadF 32 x
    let (v, fl) := packFmt tgt rnd (y.map (·.1))
    { v := v, fl := y.foldl (fun a e => a.or e.2) fl }

/-- vhad: every lane is read, and only written lanes raise flags (spec/04 R105). -/
def execVhad (g : BitVec 7) (fp : Bool) (vd va : VOp) (h16 : Bool) (lp : BitVec 7) (s : State) : Result :=
  vecOp g vd [va] s fun s l =>
    let n := if h16 then 16 else 32
    let es := elems 32 (nth l 0)
    if fp then gather 32 (s.rp lp) ((hadF n (es.map fp32F.dec)).map fun e => (fp32F.enc e.1, e.2))
    else gather 32 (s.rp lp) ((hadI n (es.map (BitVec.ofNat 32))).map fun b => (b.toNat, {}))

end Sys2Proof.Machine
end

