-- ==== Sys2Proof/Machine/Engine.lean ====
section
/-! DEFINITION. Accesses of the agents that hold no cache line, at the home or through a window, and the reduction groups of a
Bunting switch (spec/18 R376, R379, spec/20 R405 to R408). -/

namespace Sys2Proof.Machine

/-! ### Reduction groups (spec/20 R407, R408) -/

/-- The target of a kind-2 window: group in [7:0], port in [15:8], switch in [31:16] (DESIGN CHOICE, log 34). -/
def redKey (target : Nat) : Nat := target / 65536 % 65536 * 256 + target % 256

/-- The group that a window byte feeds, and its offset. -/
def State.redAt (s : State) (pa : Nat) : Option (Nat × RedGroup × Nat) :=
  match Tab.get? s.link.windows (pa / 2 ^ 48) with
  | some w =>
    if w.kind = 2 then (Tab.get? s.link.red (redKey w.target.toNat)).map fun g => (redKey w.target.toNat, g, pa % 2 ^ 48)
    else none
  | none => none

/-- Sixteen fp32 sums, each rounded once. -/
def addLine (a b : BitVec 512) : BitVec 512 :=
  let w := fun (x : BitVec 512) => elemsN 32 x.toNat 16
  BitVec.ofNat 512 (packN 32 ((w a).zipWith (fun x y => fp32F.enc (fp32F.add (fp32F.dec x) (fp32F.dec y)).1) (w b)))

/-- The sum of a line goes to its destination: a physical address of this module, or, above 52 bits, a pool (DESIGN CHOICE, log 34). -/
def State.redWrite (s : State) (g : RedGroup) (off : Nat) (d : BitVec 512) : State :=
  let a := g.dest.toNat + off
  if g.dest.toNat < 2 ^ 52 then
    (if s.sideBad (lineOf a) then s.meetQuiet (lineOf a) 0 else s).engLine (lineOf a) d (BitVec.allOnes 64)
  else { s with mem := { s.mem with pool := Mem.write s.mem.pool (a % 2 ^ 52) (leBytes d.toNat 64) } }

def State.setRed (s : State) (k : Nat) (g : RedGroup) : State :=
  { s with link := { s.link with red := Tab.put s.link.red k g } }

/-- Lines of a span that a round has not written. -/
def RedGroup.missing (g : RedGroup) : Bool := (List.range (g.span.toNat / 64)).any fun l => !g.written.contains l

/-- Who adds for a Bunting port. -/
abbrev buntingPort : Nat := 65536

/-- What keeps the sum of a line from its destination (spec/11 R269, spec/20 R398). -/
def State.redGate (s : State) (g : RedGroup) (off : Nat) : Option (State × List Instr) :=
  if g.dest.toNat < 2 ^ 52 then s.gate (lineOf (g.dest.toNat + off)) true else none

/-- Whether the pennant of a group is one of this module: it stands on the destination's device (spec/20 R407). -/
def State.redMine (s : State) (g : RedGroup) : Bool := decide (2 ^ 52 ≤ g.dest.toNat) || paDev g.dest.toNat == s.link.dev.toNat

/-- One contribution arrives at a switch. A line that is full is written at once, and the last line of a round adds to the
pennant; no step lies between, so a later contribution belongs to the next round. -/
def State.contribute (s : State) (k off : Nat) (d : BitVec 512) : State :=
  match Tab.get? s.link.red k with
  | none => s
  | some g =>
    let l := off / 64
    let (c, sum) : Nat × BitVec 512 := match Tab.get? g.lines l with
      | some (c, x) => (c + 1, addLine x d)
      | none => (1, d)
    if c < g.n then s.setRed k { g with lines := Tab.put g.lines l (c, sum) }
    else
      let s1 := s.redWrite g off sum
      let g1 := { g with lines := Tab.erase g.lines l, written := l :: g.written }
      if g1.missing then s1.setRed k g1
      else
        let g2 := { g1 with written := (List.range (g.span.toNat / 64)).foldl (fun w l => w.erase l) g1.written }
        let s2 := s1.setRed k g2
        if s.redMine g then s2.sendHal buntingPort 0 (.add g.handle 1#64 false) else s2

/-! ### Byte ranges of an engine -/

/-- Cut n bytes from a on into pieces of one line each. -/
def cutLines (a n : Nat) : Nat → List (Nat × Nat)
  | 0 => []
  | k + 1 => if n = 0 then [] else
    let m := min n (64 - a % 64)
    (a, m) :: cutLines (a + m) (n - m) k

/-- A piece of a byte range with its translation. -/
structure Piece where
  va : Word
  n : Nat
  tr : Tr
  deriving DecidableEq, Repr

/-- A whole line. -/
def Piece.whole (p : Piece) : Bool := p.n == 64

/-- Errors that a piece meets at its home: a write of a whole line meets none of its data, and one of part of a line goes on
over a poison (spec/18 R379). -/
def State.pieceErr (s : State) (q ctx : Nat) (p : Piece) (acc : Acc) : Try Unit :=
  let l := lineOf p.tr.pa
  let m := s.mem
  if acc.write && !m.badSide.contains l && (p.whole || (m.poison.contains l && !m.badData.contains l)) then .ok s ()
  else s.meetErrors q ctx l acc

/-- Translate a piece and check all that could stop it. -/
def State.reachPiece (s : State) (q : Nat) (acc : Acc) (va : Word) (n : Nat) : Try Piece :=
  (s.reach q va acc).bind fun s1 t =>
    let p : Piece := { va := va, n := n, tr := t }
    if eNc t.e2 then
      if acc.write && s1.winKind t 2 then
        match s1.redAt t.pa with
        | some (_, g, off) =>
          if p.whole && off + 64 ≤ g.span.toNat then
            match s1.redGate g off with
            | some (s2, evs) => .wait s2 evs
            | none => .ok s1 p
          else .trap s1 (addrTrap 0x11 va (acc.through true) 0 0 0)
        | none => .trap s1 (addrTrap 0x11 va (acc.through true) 0 0 0)
      else .ok s1 p
    else
      let s2 := s1.useKey t
      match s2.gate (lineOf t.pa) acc.write with
      | some (s3, evs) => .wait s3 evs
      | none => (s2.pieceErr q (s2.ctxOf q) p acc).bind fun s3 _ => .ok s3 p

def State.reachAll (s : State) (q : Nat) (acc : Acc) : List (Nat × Nat) → List Piece → Try (List Piece)
  | [], ps => .ok s ps
  | (a, n) :: t, ps =>
    (s.reachPiece q acc (BitVec.ofNat 64 a) n).bind fun s1 p => s1.reachAll q acc t (ps ++ [p])

/-- Check n bytes from a virtual address on. -/
def State.reachRange (s : State) (q : Nat) (acc : Acc) (a : Word) (n : Nat) : Try (List Piece) :=
  s.reachAll q acc (cutLines a.toNat n (n / 64 + 2)) []

/-- Read the bytes of a piece. -/
def State.readPiece (s : State) (ctx cls : Nat) (p : Piece) : State × List Byte :=
  if eNc p.tr.e2 then (s.winTraffic ctx p.tr.pa p.n, s.ncBytes p.tr.pa p.n)
  else
    let s1 := (s.useKey p.tr).mscTouch (lineOf p.tr.pa) ctx cls false false
    (s1, s1.engBytes p.tr.pa p.n)

def State.readPieces (s : State) (ctx cls : Nat) : List Piece → State × List Byte
  | [] => (s, [])
  | p :: t =>
    let (s1, a) := s.readPiece ctx cls p
    let (s2, b) := s1.readPieces ctx cls t
    (s2, a ++ b)

/-- Write the bytes of a piece, the dirty bit of its leaf first. -/
def State.writePiece (s : State) (die ctx cls : Nat) (p : Piece) (bs : List Byte) : State :=
  if eNc p.tr.e2 then
    let s := s.winTraffic ctx p.tr.pa p.n
    match s.redAt p.tr.pa with
    | some (k, _, off) => s.contribute k off (BitVec.ofNat 512 (leNat bs))
    | none => s.ncWrite p.tr.pa bs
  else
    let s1 := ((s.setDirty die ctx p.va p.tr).useKey p.tr).mscTouch (lineOf p.tr.pa) ctx cls true false
    if p.whole then s1.engLine (lineOf p.tr.pa) (BitVec.ofNat 512 (leNat bs)) (BitVec.allOnes 64)
    else s1.engWrite p.tr.pa bs

def State.writePieces (s : State) (die ctx cls : Nat) : List Piece → List Byte → State
  | [], _ => s
  | p :: t, bs => (s.writePiece die ctx cls p (bs.take p.n)).writePieces die ctx cls t (bs.drop p.n)

end Sys2Proof.Machine
end

