-- ==== Sys2Proof/Machine/Streams.lean ====
section
/-! DEFINITION. vld, vst and the streams: binding, unbinding, fills and drains (spec/05 R125 to R133). -/

namespace Sys2Proof.Machine

/-! ### One element -/

/-- The bundle number whose reads lie inside a region that is open now. A fill belongs to no bundle: it reads both views of a marked
line, and counts with the bundle of the access that consumes it (spec/03 R83; DESIGN CHOICE, log 77). -/
def Seq.fillBn (x : Seq) : Nat := x.c.region.since + 1

/-- Read one element of z bytes. An operand of the matrix engine (`mx`) is read at its home, on path mxs, and never from accumulator
space (spec/06 R154, spec/07 R159). A stream of slot C may walk accumulator space, as vld and vst may (DESIGN CHOICE, log 100). -/
def State.readE (s : State) (q bn : Nat) (sync plain mx : Bool) (z : Nat) (a : Word) : Try Word :=
  let acc : Acc := { cls := if mx then pcMxs else pcMem }
  if plain then
    match addrBad a z acc with
    | some t => .trap s t
    | none =>
      if mx then
        (s.reachPiece q acc a z).bind fun s1 p =>
          let (s2, bs) := s1.readPiece (s1.ctxOf q) pcMxs p
          .ok s2 (BitVec.ofNat 64 (leNat bs))
      else s.plainRead q a z false acc
  else
    match s.locCheck (coreOf q) (s.ctxOf q) a z opRead acc.cls with
    | .error t => .trap s t
    | .ok loc =>
      if mx && loc.isAcc then .trap s (addrTrap 0x11 a acc 0 0 0)
      else let (s1, w) := s.locRead q bn sync loc z; .ok s1 w

/-- Check one element of a store. -/
def State.checkE (s : State) (q : Nat) (plain mx : Bool) (z : Nat) (a : Word) : Try Unit :=
  let acc : Acc := { cls := if mx then pcMxs else pcMem, write := true }
  if plain then
    match addrBad a z acc with
    | some t => .trap s t
    | none =>
      if mx then (s.reachPiece q acc a z).bind fun s _ => .ok s ()
      else (s.storeCheck q a acc).bind fun s _ => .ok s ()
  else
    match s.locCheck (coreOf q) (s.ctxOf q) a z opWrite acc.cls with
    | .error t => .trap s t
    | .ok loc => if mx && loc.isAcc then .trap s (addrTrap 0x11 a acc 0 0 0) else .ok s ()

/-- Write one element that has passed its check. -/
def State.writeE (s : State) (q : Nat) (plain mx cov : Bool) (d : Elem) : State :=
  if !plain then s.storeLoc q (cov && !mx) d
  else if !mx then s.storePlain q d
  else
    match s.reachPiece q { cls := pcMxs, write := true } (BitVec.ofNat 64 d.addr) d.size with
    | .ok s1 p => s1.writePiece (dieOf q) (s1.ctxOf q) pcMxs p (leBytes d.data.toNat d.size)
    | .trap s1 _ | .wait s1 _ => s1

/-- Read elements in ascending order into a register. -/
def State.readElems (s : State) (q bn : Nat) (sync plain mx : Bool) (z : Nat) : List (Nat × Word) → Nat → Try Nat
  | [], acc => .ok s acc
  | (e, a) :: t, acc =>
    (s.readE q bn sync plain mx z a).bind fun s1 w => s1.readElems q bn sync plain mx z t (acc + w.toNat * 2 ^ (8 * z * e))

/-- The bytes of an element of plain memory at their home, as the matrix engine reads them; a window, or an address that is not
mapped, has none of its own. -/
def State.homeE (s : State) (q : Nat) (z : Nat) (a : Word) (w : Nat) : Nat :=
  match s.tlbFind (dieOf q) (s.ctxOf q) a with
  | some e => if eNc e.e2 then w else leNat (s.engBytes (e.tr a).pa z)
  | none => w

/-- The vector that the matrix engine takes of one that was filled: the live banks of the scratchpad (spec/03 R83), or the bytes
at their homes (spec/06 R154). -/
def State.liveView (s : State) (q : Nat) (plain : Bool) (z : Nat) (es : List (Nat × Word)) (v : Nat) : Nat :=
  if plain then es.foldl (fun n e => n + s.homeE q z e.2 (v / 2 ^ (8 * z * e.1) % 2 ^ (8 * z)) * 2 ^ (8 * z * e.1)) 0
  else match s.readElems q 0 false false false z es 0 with
    | .ok _ w => w
    | _ => v

/-- The bytes of the active elements. -/
def CShape.actBytes (c : CShape) (lanes : BitVec 32) : BitVec 128 :=
  BitVec.ofNat 128 (packN c.size ((List.range (128 / c.size)).map fun e =>
    if laneOn lanes (8 * c.size) e then 2 ^ c.size - 1 else 0))

/-- The elements of a vector to store. -/
def elemsToStore (z : Nat) (v : BitVec 1024) (es : List (Nat × Word)) : List Elem :=
  es.map fun e => { addr := e.2.toNat, size := z, data := BitVec.ofNat 64 (v.toNat / 2 ^ (8 * z * e.1) % 2 ^ (8 * z)) }

/-! ### vld and vst (spec/05 R126, R127) -/

def execVld (g : BitVec 7) (v : BitVec 5) (base : BitVec 6) (c : BitVec 2) (sw : BitVec 1) (lp : BitVec 7)
    (off : BitVec 7) (s : State) : Result :=
  slotOp g s fun s =>
    let q := s.cur.seq
    let sh := s.me.r.useC c sw
    let a := s.eaBM base (off.signExtend 11) 128
    let act := sh.actBytes (s.rp lp)
    let es := sh.active a act
    let evs := es.flatMap fun e => s.meetEvents (!sh.plain) e.2.toNat sh.size
    if !evs.isEmpty then .wait s evs.dedup
    else if !sh.plain && s.regionWait then s.awaitRegion
    else
      (s.readElems q s.cur.bn s.curSync sh.plain false sh.size es 0).res fun s n =>
        let s1 := s.setRegs (s.me.r.swapIf c sw)
        .done (s1.await (.v v) (BitVec.ofNat 1024 n) (bytesMask act) (if sh.plain then es.length else 0)) 1

/-- The store queue of slot C holds 16 entries (spec/07 R180). -/
def execVst (g : BitVec 7) (v : BitVec 5) (base : BitVec 6) (c : BitVec 2) (sw : BitVec 1) (lp : BitVec 7)
    (off : BitVec 7) (s : State) : Result :=
  slotOp g s fun s =>
    let q := s.cur.seq
    let sh := s.me.r.useC c sw
    let a := s.eaBM base (off.signExtend 11) 128
    let es := sh.active a (sh.actBytes (s.rp lp))
    (tryList es s fun s e => s.checkE q sh.plain false sh.size e.2).res fun s _ =>
      let evs := es.flatMap fun e => s.streamMeets (!sh.plain) e.2.toNat sh.size
      if 16 ≤ s.me.f.storeC.length then .wait s [.storePerform q 2]
      else if !evs.isEmpty then .wait s evs.dedup
      else if !sh.plain && s.regionWait then s.awaitRegion
      else
        let s1 := s.setRegs (s.me.r.swapIf c sw)
        let ds := elemsToStore sh.size (s.rv v) es
        let act : StoreAct := if sh.plain then .plain ds else .loc ds (s.me.covers s.cur.bn)
        .done (s1.setFlight { s1.me.f with storeC := s1.me.f.storeC ++ [{ bn := s.cur.bn, act := act }] }) 1

/-! ### stb and stu (spec/05 R129) -/

/-- Unbind a stream: a write stream drains first, or raises its latched fault. -/
def State.unbind (s : State) (n : BitVec 3) : Try Unit :=
  let x := s.me.r.getQ n
  if !x.bound then .ok s ()
  else
    let off := fun (s : State) => Try.ok (s.setRegs (s.me.r.setQ n { x with bound := false, queue := [], fault := none })) ()
    if x.pat.dirW then
      match x.fault with
      | some t => .trap s t
      | none => if x.queue.isEmpty then off s else .wait s [.streamDrain s.cur.seq n.toNat]
    else off s

/-- A read stream that does not stall is filled ahead. Its fills come after the earlier stores of slot C (spec/05 R131), and after a
region's end that stands before it. An stb that waits has unbound nothing yet (spec/05 R129). -/
def execStb (g : BitVec 7) (n : BitVec 3) (base : BitVec 6) (c : BitVec 2) (sw : BitVec 1) (s : State) : Result :=
  slotOp g s fun s =>
    (s.unbind n).res fun s1 _ =>
      let sh := s.me.r.useC c sw
      if !sh.dirW && !s.me.f.storeC.isEmpty then .wait s [.storePerform s.cur.seq 2]
      else if !sh.dirW && !sh.plain && s.regionWait then s.awaitRegion
      else
        let r := s1.me.r.swapIf c sw
        let s1 := s1.setRegs (r.setQ n { bound := true, pat := sh, base := s.rs base })
        .done (if sh.nostall && !sh.dirW then { s1 with agenda := s1.agenda ++ [.streamFill s.cur.seq n.toNat] } else s1) 1

def execStu (g : BitVec 7) (n : BitVec 3) (s : State) : Result :=
  slotOp g s fun s => (s.unbind n).res fun s _ => .done s 1

/-! ### Fills and drains (spec/05 R131, R132) -/

def State.setStream (s : State) (q : Nat) (n : Nat) (x : Stream) : State :=
  s.setSeq q { s.seq q with r := { (s.seq q).r with q := Tab.put (s.seq q).r.q n x } }

/-- Whether a trap is the refusal of a read in a buffer that is filling: such a fill waits (spec/07 R168). -/
def Trap.filling (t : Trap) : Bool := t.code == 0x12 && t.w4.toNat / 2 ^ 55 % 8 == 2

/-- STREAM_FILL; it waits for room in its core (spec/01 R11; DESIGN CHOICE, log 92). -/
def execStreamFill (q : Nat) (n : Nat) (s : State) : Result :=
  let x := (s.seq q).r.getQ (BitVec.ofNat 3 n)
  if !x.bound || x.pat.dirW || x.fault.isSome || x.pat.steps ≤ x.pos || 8 ≤ x.queue.length then .next s
  else
    let es := x.pat.active (x.pat.stepAddr x.base x.pos) (BitVec.allOnes 128)
    if x.pat.plain && !s.hasRoom q es.length then .next (s.stallOn [])
    else match s.readElems q (s.seq q).fillBn false x.pat.plain false x.pat.size es 0 with
    | .ok s1 v =>
      let live := s1.liveView q x.pat.plain x.pat.size es v
      .next (s1.setStream q n
        { x with pos := x.pos + 1, queue := x.queue ++
            [{ v := BitVec.ofNat 1024 v, act := BitVec.allOnes 128, live := BitVec.ofNat 1024 live }] })
    | .wait s1 evs => .next (s1.stallOn evs)
    | .trap s1 t => if t.filling then .next (s1.stallOn []) else .next (s1.setStream q n { x with fault := some t })

/-- After a write of mm.wb or mm.rd, the vectors that read streams have fetched ahead show the matrix engine what it wrote: its accesses are
performed in slot-D program order (spec/06 R154). -/
def State.refresh (s : State) (q : Nat) : State :=
  let x := s.seq q
  let see := fun (st : Stream) (e : SVec × Nat) =>
    let es := st.pat.active (st.pat.stepAddr st.base (st.taken + e.2)) (BitVec.allOnes 128)
    ({ e.1 with live := BitVec.ofNat 1024 (s.liveView q st.pat.plain st.pat.size es e.1.v.toNat) } : SVec)
  s.setSeq q { x with r := { x.r with q := x.r.q.mapv fun _ st =>
    if st.bound && !st.pat.dirW then { st with queue := st.queue.zipIdx.map (see st) } else st } }

/-- The state as a sequencer's own accesses see it. -/
def State.as (s : State) (q : Nat) : State := { s with cur := { s.cur with seq := q } }

/-- STREAM_DRAIN: stores to the same bytes that the queues hold, and atomics on them, are performed first (spec/08 R190). A vector of mm.wb
or mm.rd is written on path mxs (spec/06 R154). One produced behind a spec.commit may drain before the commit takes effect, to the live
bank that the flip then leaves (spec/03 R82, R83; DESIGN CHOICE, log 77). -/
def execStreamDrain (q : Nat) (n : Nat) (s : State) : Result :=
  let x := (s.seq q).r.getQ (BitVec.ofNat 3 n)
  if !x.bound || !x.pat.dirW || x.fault.isSome then .next s
  else
    match x.queue with
    | [] => .next s
    | v :: t =>
      let es := x.pat.active (x.pat.stepAddr x.base x.pos) v.act
      let f := (s.seq q).f
      let meets := fun (l : List StoreEnt) => l.any fun e => es.any fun d => s.entMeets q e (!x.pat.plain) d.2.toNat x.pat.size
      let after := x.pat.plain && es.any fun d => s.atMeets q (s.seq q).c.bn d.2.toNat x.pat.size
      let evs : List Instr := (if after then [.scopedAtomicExecute q] else []) ++ (if meets f.storeB then [.storePerform q 1] else []) ++
        if meets f.storeC then [.storePerform q 2] else []
      if !evs.isEmpty then .next (s.stallOn evs)
      else if x.pat.plain && !s.hasRoom q es.length then .next (s.stallOn [])
      else
        match tryList es s fun s e => s.checkE q x.pat.plain v.mxs x.pat.size e.2 with
        | .wait s1 evs => .next (s1.stallOn evs)
        | .trap s1 tr => .next (s1.setStream q n { x with fault := some tr })
        | .ok s1 _ =>
          let ds := elemsToStore x.pat.size v.v es
          let s2 := ds.foldl (fun s d => s.writeE q x.pat.plain v.mxs v.cov d) s1
          let s3 := s2.setStream q n { x with pos := x.pos + 1, queue := t }
          .next (if v.mxs then s3.refresh q else s3)

end Sys2Proof.Machine
end

