-- ==== Sys2Proof/Machine/Matrix.lean ====
section
/-! DEFINITION. The matrix engine (spec/06 R134 to R155) and the shadow result buffer (spec/16 R342). -/

namespace Sys2Proof.Machine

/-! ### The array in use (spec/06 R134 to R136) -/

/-- Height, width and exposed latency. -/
structure Arr where
  h : Nat
  w : Nat
  lat : Nat
  deriving DecidableEq, Repr

def arrOf (mask : Nat) (joined : Bool) : Arr :=
  if !joined then { h := 16, w := 16, lat := 18 }
  else if mask = 3 || mask = 12 then { h := 16, w := 32, lat := 34 }
  else if mask = 5 || mask = 10 then { h := 32, w := 16, lat := 34 }
  else if mask = 15 then { h := 32, w := 32, lat := 34 }
  else { h := 16, w := 16, lat := 18 }

/-- The array that a sequencer drives, when it drives one and may name the tiles. -/
def State.array (s : State) (q : Nat) (tiles : List Nat) : Option Arr :=
  match s.groupOf q with
  | none => none
  | some (gh, g) =>
    let mine := fun t => if g.joined then (maskOf gh).testBit (t / 128) else t / 128 == quadOf q
    if s.drives q && tiles.all mine then some (arrOf (maskOf gh) g.joined) else none

/-- The refusal of a matrix instruction; it has no address (spec/16 R348). Its word 5 names class mxs and no write, of mm.zero and
mm.fuse as well (DESIGN CHOICE, log 80). -/
def mxTrap : Trap := addrTrap 0x11 0#64 { cls := pcMxs } 0 0 0

/-! ### k shapes (spec/06 R137, R138) -/

def KShape.dec (k : KShape) : Bool := k.ctl.getLsbD 1
def KShape.m (k : KShape) : Nat := min k.rows.toNat (32 - k.row0.toNat)
def KShape.f0 (k : KShape) (a : Arr) : Nat := if a.w = 16 then 16 * k.col0.toNat else 0
def Regs.swapKIf (r : Regs) (k : BitVec 2) (sw : BitVec 1) : Regs := if sw = 1#1 then r.swapK k else r

/-- Bytes of a row of n elements, and the alignment of a row (spec/06 R139). -/
def rowBytes (f : Fmt) (n : Nat) : Nat :=
  match Fmt.bx f with
  | some b => n / 16 * bxBytes b
  | none => n * Fmt.bits f / 8

def rowAlign (f : Fmt) : Nat := if (Fmt.bx f).isSome then 16 else Fmt.bits f / 8

/-- The elements of a row, from its bytes as one number. -/
def decRow (f : Fmt) (n x : Nat) : List Num :=
  match Fmt.bx f with
  | some b => (List.range (n / 16)).flatMap fun j => bxDec b (x / 2 ^ (8 * bxBytes b * j))
  | none => (elemsN (Fmt.bits f) x n).map (decElem f)

/-! ### Rows in memory -/

/-- Where a row lies. -/
inductive RowAt where
  | plain (ps : List Piece)
  | spad (ps : List (Nat × Nat × Nat))
  deriving DecidableEq, Repr

/-- Check the pieces of a local row: core, offset, length of each. -/
def State.localPieces (s : State) (q op : Nat) : List (Nat × Nat) → List (Nat × Nat × Nat) → Try RowAt
  | [], ps => .ok s (.spad ps)
  | (a, n) :: t, ps =>
    match s.locCheck (coreOf q) (s.ctxOf q) (BitVec.ofNat 64 a) 1 op pcMxs with
    | .error tr => .trap s tr
    | .ok (.spad c o) => s.localPieces q op t (ps ++ [(c, o, n)])
    | .ok (.acc _ _) => .trap s (addrTrap 0x11 (BitVec.ofNat 64 a) { cls := pcMxs, write := op == opWrite } 0 0 0)

/-- Check a row of n bytes (spec/06 R139). Matrix operands never address accumulator space (spec/07 R159). -/
def State.rowCheck (s : State) (q : Nat) (plain : Bool) (a : Word) (n align : Nat) (write : Bool) : Try RowAt :=
  let acc : Acc := { cls := pcMxs, write := write }
  if plain then
    match addrBad a align acc with
    | some t => .trap s t
    | none =>
      if inAperture (a + BitVec.ofNat 64 (n - 1)) then .trap s (addrTrap 0x11 a acc 0 0 0)
      else (s.reachRange q acc a n).bind fun s1 ps => .ok s1 (.plain ps)
  else
    match locOf (coreOf q) a with
    | none => .trap s (addrTrap 0x10 a acc 0 0 0)
    | some loc =>
      if a.toNat % align ≠ 0 then .trap s (addrTrap 0x13 a acc 0 0 0)
      else match loc with
        | .acc _ _ => .trap s (addrTrap 0x11 a acc 0 0 0)
        | .spad _ _ => s.localPieces q (if write then opWrite else opRead) (cutLines a.toNat n (n / 64 + 2)) []

/-- The bytes of a row. The engine reads the live bank of a marked buffer (spec/03 R83). -/
def State.rowRead (s : State) (q : Nat) : RowAt → State × List Byte
  | .plain ps => s.readPieces (s.ctxOf q) pcMxs ps
  | .spad ps => (s, ps.flatMap fun p =>
      let c := s.core p.1
      Mem.bytes c.spad (readOff c p.2.1 false) p.2.2)

def State.rowWrite (s : State) (q : Nat) (r : RowAt) (bs : List Byte) : State :=
  match r with
  | .plain ps => s.writePieces (dieOf q) (s.ctxOf q) pcMxs ps bs
  | .spad ps =>
    (ps.foldl (fun (a : State × List Byte) p =>
      (a.1.setCore p.1 ((a.1.core p.1).spadWrite p.2.1 (a.2.take p.2.2) false), a.2.drop p.2.2)) (s, bs)).1

/-- Check and read n bytes. -/
def State.rowGet (s : State) (q : Nat) (plain : Bool) (a : Word) (n align : Nat) : Try (List Byte) :=
  (s.rowCheck q plain a n align false).bind fun s1 r => let (s2, bs) := s1.rowRead q r; .ok s2 bs

/-! ### The weight decompressor (spec/06 R140) -/

/-- Spread the present bytes of a piece by its mask, for k bytes from bit b on. -/
def unmask (mask : Word) (b : Nat) (bs : List Byte) : Nat → List Byte
  | 0 => []
  | k + 1 =>
    if mask.getLsbD b then bs.headD 0#8 :: unmask mask (b + 1) (bs.drop 1) k
    else 0#8 :: unmask mask (b + 1) bs k

/-- The number of bits of a mask below bit n. -/
def maskCount (mask : Word) : Nat → Nat
  | 0 => 0
  | n + 1 => maskCount mask n + (if mask.getLsbD n then 1 else 0)

/-- Read a compressed row of n bytes, piece by piece. -/
def State.rowUnpack (s : State) (q : Nat) (a : Word) (n align : Nat) : Nat → Try (List Byte)
  | 0 => .ok s []
  | fuel + 1 =>
    if n = 0 then .ok s []
    else
      (s.rowGet q true a 8 align).bind fun s1 mb =>
        let mask := BitVec.ofNat 64 (leNat mb)
        let cnt := maskCount mask 64
        let k := min n 64
        let got := if cnt = 0 then Try.ok s1 [] else s1.rowGet q true (a + 8#64) cnt 1
        got.bind fun s2 bs =>
          (s2.rowUnpack q (a + BitVec.ofNat 64 (8 + (cnt + 7) / 8 * 8)) (n - k) 1 fuel).bind fun s3 rest =>
            .ok s3 (unmask mask 0 bs k ++ rest)

/-! ### Operands (spec/06 R138, R139) -/

/-- An address of accumulator space that a step of a stream walks: a matrix operand never lies there (spec/07 R159). -/
def Stream.accElem (x : Stream) (q step : Nat) : Option Word :=
  if x.pat.plain then none
  else ((x.pat.active (x.pat.stepAddr x.base step) (BitVec.allOnes 128)).map (·.2)).find? fun a =>
    match locOf (coreOf q) a with
    | some loc => loc.isAcc
    | none => false

/-- The vector that a stream supplies i steps on; it is filled here, on path mxs, when it has not come yet (spec/05 R131, R132, spec/06
R154). -/
def State.streamPeek (s : State) (q : Nat) (n : BitVec 3) (i : Nat) : Try Nat :=
  let x := s.me.r.getQ n
  let step := x.taken + i
  if !x.bound || x.pat.steps ≤ step then .trap s (streamTrap n true 2 step)
  else if x.pat.dirW then .trap s (streamTrap n true 3 step)
  else
    match x.queue[i]? with
    | some e =>
      match x.accElem q step with
      | some a => .trap s (addrTrap 0x11 a { cls := pcMxs } 0 0 0)
      | none => .ok s e.live.toNat
    | none =>
      match x.fault with
      | some t => .trap s t
      | none =>
        let late := fun (s : State) evs => if x.pat.nostall then Try.trap s (streamTrap n true 1 step) else .wait s evs
        let es := x.pat.active (x.pat.stepAddr x.base step) (BitVec.allOnes 128)
        if x.pat.plain && !s.hasRoom q es.length then late s []
        else match s.readElems q 0 false x.pat.plain true x.pat.size es 0 with
        | .ok s1 v => .ok s1 v
        | .wait s1 evs => late s1 evs
        | .trap s1 t => if t.filling then late s1 [] else .trap s1 t

/-- Row i of a source operand. A row of a stream is never compressed (DESIGN CHOICE, log 100). -/
def State.srcRow (s : State) (q : Nat) (x : MOp) (k : KShape) (dec : Bool) (f : Fmt) (n i : Nat) : Try (List Num) :=
  let nb := rowBytes f n
  match x with
  | .q m => (s.streamPeek q m i).bind fun s1 v => .ok s1 (decRow f n v)
  | .s b =>
    let a := s.rs b + BitVec.ofNat 64 i * k.rstride.signExtend 64
    (if dec && k.plain then s.rowUnpack q a nb (rowAlign f) (nb / 64 + 2) else s.rowGet q k.plain a nb (rowAlign f)).bind
      fun s1 bs => .ok s1 (decRow f n (leNat bs))

/-- Rows i, i + 1, … of a source operand. -/
def State.srcRows (s : State) (q : Nat) (x : MOp) (k : KShape) (dec : Bool) (f : Fmt) (n i : Nat) : Nat → Try (List (List Num))
  | 0 => .ok s []
  | m + 1 =>
    (s.srcRow q x k dec f n i).bind fun s1 r =>
      (s1.srcRows q x k dec f n (i + 1) m).bind fun s2 rs => .ok s2 (r :: rs)

/-- A read stream has taken m steps. -/
def State.tookRows (s : State) (x : MOp) (m : Nat) : State :=
  match x with
  | .s _ => s
  | .q n =>
    let st := s.me.r.getQ n
    let s1 := s.setRegs (s.me.r.setQ n
      { st with taken := st.taken + m, pos := max st.pos (st.taken + m), queue := st.queue.drop m })
    if st.pat.nostall && m != 0 then { s1 with agenda := s1.agenda ++ [.streamFill s.cur.seq n.toNat] } else s1

/-- Check every row of a destination in memory. -/
def State.dstRows (s : State) (q : Nat) (b : BitVec 6) (k : KShape) (nb align i : Nat) : Nat → Try (List RowAt)
  | 0 => .ok s []
  | m + 1 =>
    let a := s.rs b + BitVec.ofNat 64 i * k.rstride.signExtend 64
    (s.rowCheck q k.plain a nb align true).bind fun s1 r =>
      (s1.dstRows q b k nb align (i + 1) m).bind fun s2 rs => .ok s2 (r :: rs)

/-- Check that a write stream takes m vectors: those that its queue cannot hold are written at once, so that their elements
are checked here, and they wait for room in the core together (spec/01 R11; DESIGN CHOICE, log 92). -/
def State.dstStream (s : State) (q : Nat) (n : BitVec 3) (m : Nat) : Try Unit :=
  let x := s.me.r.getQ n
  if m = 0 then .ok s ()
  else if !x.bound || x.pat.steps < x.taken + m then
    .trap s (streamTrap n true 2 (if x.bound then max x.taken x.pat.steps else x.taken))
  else if !x.pat.dirW then .trap s (streamTrap n true 3 x.taken)
  else
    match x.fault with
    | some t => .trap s t
    | none =>
      if x.queue.length + m ≤ 8 then .ok s ()
      else if !x.queue.isEmpty then .wait s [.streamDrain q n.toNat]
      else
        let es := fun (i : Nat) => x.pat.active (x.pat.stepAddr x.base (x.taken + i)) (BitVec.allOnes 128)
        if x.pat.plain && !s.hasRoom q ((List.range m).map fun i => (es i).length).sum then .wait s []
        else tryList (List.range m) s fun s i => tryList (es i) s fun s e => s.checkE q x.pat.plain true x.pat.size e.2

/-- Give rows to a write stream. -/
def State.putStream (s : State) (q : Nat) (n : BitVec 3) (rows : List (List Byte)) : State :=
  let x := s.me.r.getQ n
  let vs : List SVec := rows.map fun r =>
    { v := BitVec.ofNat 1024 (leNat r), act := BitVec.allOnes 128, mxs := true }
  let m := rows.length
  if x.queue.length + m ≤ 8 then s.setRegs (s.me.r.setQ n { x with taken := x.taken + m, queue := x.queue ++ vs })
  else
    let s1 := vs.zipIdx.foldl (fun s e =>
      let ds := elemsToStore x.pat.size e.1.v (x.pat.active (x.pat.stepAddr x.base (x.taken + e.2)) e.1.act)
      ds.foldl (fun s d => s.writeE q x.pat.plain true false d) s) s
    (s1.setRegs (s1.me.r.setQ n { x with taken := x.taken + m, pos := x.pos + m })).refresh q

/-- The earlier writes of mm.wb and mm.rd that an access of the matrix engine comes after, in write streams other than its own (spec/06
R154). -/
def State.mxBefore (s : State) (q : Nat) (x : MOp) : List Instr :=
  (s.mxDrains q).filter fun i => match x with
    | .q n => i != .streamDrain q n.toNat
    | .s _ => true

/-- Check a destination operand of m rows, then write them with what f makes of the state. -/
def State.withDst (s : State) (q : Nat) (x : MOp) (k : KShape) (nb align m : Nat)
    (f : State → List (List Byte) × State) (fin : State → Res) : Res :=
  if !(s.mxBefore q x).isEmpty then .wait s (s.mxBefore q x)
  else
    match x with
    | .s b =>
      (s.dstRows q b k nb align 0 m).res fun s1 rs =>
        let (rows, s2) := f s1
        fin (((rs.zip rows).foldl (fun s e => s.rowWrite q e.1 e.2) s2).refresh q)
    | .q n =>
      (s.dstStream q n m).res fun s1 _ =>
        let (rows, s2) := f s1
        fin (s2.putStream q n rows)

/-- Read the rows of a source operand, after the earlier writes of the matrix engine (spec/06 R154). -/
def State.readOperand (s : State) (q : Nat) (x : MOp) (k : KShape) (dec : Bool) (f : Fmt) (n m : Nat) : Try (List (List Num)) :=
  if !(s.mxDrains q).isEmpty then .wait s (s.mxDrains q) else s.srcRows q x k dec f n 0 m

/-! ### Arithmetic (spec/06 R144, R145) -/

/-- A sum rounded to fp32; no flag but overflow and invalid. -/
def facc (x : Flagged Num) : Flagged Num := fp32F.round x

/-- fov and fnv of a status word. -/
def stBits (fl : FlagSet) : BitVec 4 := (if fl.overflow then 2#4 else 0#4) ||| (if fl.invalid then 4#4 else 0#4)

/-- A chunk of a floating family: the first product, and then one rounding for each further one. -/
def chunkF : List (Num × Num) → Flagged Num
  | [] => (.fin false 0 0, {})
  | (a, w) :: t =>
    t.foldl (fun (c : Flagged Num) e =>
      let (p, f1) := e.1.mulX e.2
      let f2 := if c.1.isNan then {} else f1
      let (r, f3) := facc (c.1.addX p)
      (r, (c.2.or f2).or f3)) (a.mulX w)

/-- blocksum: an exact sum of products; a NaN block makes a NaN without a flag. -/
def blockSum : List (Num × Num) → Num
  | [] => .fin false 0 0
  | (a, w) :: t => t.foldl (fun c e => (c.addX (e.1.mulX e.2).1).1) (a.mulX w).1

/-- A chunk of the block family. -/
def chunkB (l : List (Num × Num)) : Flagged Num :=
  let c0 := facc (blockSum (l.take 16), {})
  if l.length ≤ 16 then c0
  else
    let (r, fl) := facc (c0.1.addX (blockSum (l.drop 16)))
    (r, c0.2.or fl)

/-- An exact integer. -/
def Num.int : Num → Int
  | .fin neg m e => if neg then -(shiftNat m e : Int) else shiftNat m e
  | _ => 0

/-- Add one chunk to an element: its new bits and its status flags. -/
def addChunk (fam : Family) (t : BitVec 32) (l : List (Num × Num)) : BitVec 32 × BitVec 4 :=
  match fam with
  | .int =>
    let r := t.toInt + l.foldl (fun a e => a + e.1.int * e.2.int) 0
    (BitVec.ofInt 32 r, if r < -(2 ^ 31) || 2 ^ 31 ≤ r then 1#4 else 0#4)
  | .f16 | .f8 | .bx =>
    let (c, f1) := if fam = .bx then chunkB l else chunkF l
    let (r, f2) := facc ((fp32F.dec t.toNat).addX c)
    (BitVec.ofNat 32 (fp32F.enc r), stBits (f1.or f2))

/-- Cut a list into parts of k. -/
def parts {α : Type} (k : Nat) (l : List α) : Nat → List (List α)
  | 0 => []
  | n + 1 => l.take k :: parts k (l.drop k) n

/-- The values of an element after each chunk, and its status flags. -/
def macElem (fam : Family) (t : BitVec 32) : List (List (Num × Num)) → List (BitVec 32) × BitVec 4
  | [] => ([], 0#4)
  | l :: ls =>
    let (r, f) := addChunk fam t l
    let (vs, g) := macElem fam r ls
    (r :: vs, f ||| g)

/-- Column n of the held weights, along K. -/
def Weights.col (w : Weights) (h n : Nat) : List Num :=
  (List.range h).map fun k => (w.w.getD k []).getD n (.fin false 0 0)

/-! ### Tiles (spec/06 R143, R147, R149) -/

def CoreSt.stat (c : CoreSt) (tile : Nat) : BitVec 4 := Tab.getD c.tstat tile 0#4
def CoreSt.setStat (c : CoreSt) (tile : Nat) (b : BitVec 4) : CoreSt :=
  { c with tstat := if b = 0#4 then Tab.erase c.tstat tile else Tab.put c.tstat tile b }

/-- Set the elements of a region, in row order. -/
def CoreSt.setRegion (c : CoreSt) (tile row0 col0 cols : Nat) (vs : List (BitVec 32)) : CoreSt :=
  vs.zipIdx.foldl (fun c e => c.setElem (elemAt tile (row0 + e.2 / cols) (col0 + e.2 % cols)) e.1) c

/-- The bits of a row of a tile. -/
def CoreSt.tileRow (c : CoreSt) (tile row col0 n : Nat) : List (BitVec 32) :=
  (List.range n).map fun j => c.elem (elemAt tile row (col0 + j))

/-- Apply the oldest entry of the shadow result buffer to its tile. -/
def State.applyShadow (s : State) (q : Nat) : State :=
  let x := s.seq q
  match x.f.shadow with
  | [] => s
  | e :: t =>
    let s1 := s.setCore (coreOf q) ((s.core (coreOf q)).setRegion e.tile e.row0 e.col0 e.cols e.vals)
    let x1 := s1.seq q
    s1.setSeq q { x1 with f := { x1.f with
      shadow := t,
      tiles := x1.f.tiles.map fun w => if w.fin = e.fin && w.tile = e.tile then { w with complete := true } else w } }

def execShadowEntryApply (q : Nat) (s : State) : Result := .next (s.applyShadow q)

/-- A slot-D instruction that names a tile applies its pending entries first, and those before them. -/
def State.applyFor (s : State) (q tile : Nat) : Nat → State
  | 0 => s
  | n + 1 => if (s.seq q).f.shadow.any fun e => e.tile == tile then (s.applyShadow q).applyFor q tile n else s

def State.interlock (s : State) (q tile : Nat) : State := s.applyFor q tile (s.seq q).f.shadow.length

/-- A tile write is kept until it is complete and final; from then on every reader finds its values (DEDUCED, log 35). -/
def Flight.pruneTiles (f : Flight) : Flight := { f with tiles := f.tiles.filter fun w => !(w.complete && decide (w.fin ≤ f.dtime)) }

/-- MATRIX_COMPLETION: the oldest tile write completes. -/
def completeFirst : List TileW → List TileW
  | [] => []
  | w :: t => if w.complete then w :: completeFirst t else { w with complete := true } :: t

def execMatrixCompletion (q : Nat) (s : State) : Result :=
  let x := s.seq q
  if x.f.shadow.isEmpty then .next (s.setSeq q { x with f := ({ x.f with tiles := completeFirst x.f.tiles } : Flight).pruneTiles })
  else .next (s.applyShadow q)

/-- Write a region of a tile: for each element the values that an early read may see, its old one first and its final one
last. -/
def State.writeTile (s : State) (tile : Nat) (st : BitVec 4) (row0 rows col0 cols occ lat : Nat)
    (vals : List (List (BitVec 32))) : State :=
  let q := s.cur.seq
  let c := s.core (coreOf q)
  let final := vals.map fun l => l.getLastD 0#32
  let s1 := s.setCore (coreOf q) ((c.setRegion tile row0 col0 cols final).setStat tile st)
  let f := s1.me.f
  let w : TileW := { fin := f.dtime + occ + lat, tile := tile, row0 := row0, rows := rows, col0 := col0, cols := cols, vals := vals }
  s1.setFlight ({ f with tiles := f.tiles ++ [w] } : Flight).pruneTiles

/-- At most 48 results stand in the buffer of a driving sequencer (spec/16 R341). -/
def State.tilesFull (s : State) : Bool := 48 ≤ s.me.f.tiles.length

/-! ### Formats in effect -/

/-- afmt, wfmt, ofmt and hsz for the running bundle. -/
def State.fmtBits (s : State) : BitVec 14 := s.me.c.fmt.bitsAt s.cur.bn
def State.afmt (s : State) : Fmt := (opFmt (s.fmtBits.extractLsb' 0 4)).getD .bf16
def State.wfmt (s : State) : Fmt := (opFmt (s.fmtBits.extractLsb' 4 4)).getD .bf16
def State.ofmt (s : State) : Fmt := (fmtOf (s.fmtBits.extractLsb' 8 4)).getD .fp32
/-- The exponent of the Hadamard correction. -/
def State.hexp (s : State) : Nat :=
  match (s.fmtBits.extractLsb' 12 2).toNat with
  | 1 => 4 | 2 => 5 | _ => 0

/-- Occupancy of mm and mm.chain (spec/06 R146). -/
def mmOcc (a w : Fmt) (m : Nat) : Nat :=
  let quarter := fun (f : Fmt) => match f with
    | .bf16 | .fp16 => 16 | .bx4 => 2 | .bx2 => 1 | _ => 4
  max 1 ((m * max (quarter a) (quarter w) + 3) / 4)

/-! ### Narrowing (spec/04 R96) -/

/-- The largest finite value of a format. -/
def fmtMax (f : Fmt) : Num :=
  match Fmt.bx f with
  | some n => .fin false (2 ^ n - 1) (128 - (n : Int))
  | none =>
    match Fmt.flt f with
    | some k => .fin false k.max.1 k.max.2
    | none => Num.ofInt (2 ^ (Fmt.bits f - 1) - 1)

def fmtMin (f : Fmt) : Num :=
  match Fmt.flt f, Fmt.bx f with
  | none, none => Num.ofInt (-(2 ^ (Fmt.bits f - 1)))
  | _, _ => (fmtMax f).negate

/-- The value of a tile element. -/
def tileNum (isInt : Bool) (b : BitVec 32) : Num := if isInt then Num.ofInt b.toInt else fp32F.dec b.toNat

/-- wb_value over a row: its bytes as one number, and the flags. -/
def narrowRow (vs : List Num) (k : KShape) (h : Nat) (f : Fmt) : Nat × FlagSet :=
  let sc := fp32F.dec k.scale.toNat
  let cl := fp32F.dec k.clip.toNat
  let isInt := (Fmt.flt f).isNone && (Fmt.bx f).isNone
  let ts := vs.map fun v => wbClip v sc cl h isInt (fmtMin f) (fmtMax f)
  let f1 := ts.foldl (fun a e => a.or e.2) ({} : FlagSet)
  match Fmt.bx f with
  | some n =>
    let bs := (parts 16 (ts.map (·.1)) (ts.length / 16)).map fun b => bxQuant b n .rne
    (packN (8 * bxBytes n) (bs.map (·.1)), bs.foldl (fun a e => a.or e.2) f1)
  | none =>
    let es := ts.map fun t => if t.1.isNan && isInt then (0, ({} : FlagSet)) else cvtElem f t.1 .rne
    (packN (Fmt.bits f) (es.map (·.1)), es.foldl (fun a e => a.or e.2) f1)

/-! ### The instructions -/

/-- The frame of a matrix instruction that drives an array. Its refusal comes before every other trap, that of a west load in a block
format among them (DESIGN CHOICE, log 81). -/
def mxOp (g : BitVec 7) (tiles : List (BitVec 9)) (s : State) (f : State → Arr → Res) : Result :=
  slotOp g s fun s =>
    match s.array s.cur.seq (tiles.map (·.toNat)) with
    | none => .trap s mxTrap
    | some a => f (tiles.foldl (fun s t => s.interlock s.cur.seq t.toNat) s) a

/-- The trap of a west load in a block format (spec/06 R141). -/
def westTrap (addr : Word) : Trap := { code := 0x01, w4 := addr, w5 := 3#64 }

/-- Rows of w × h turned about. -/
def transpose (rows : List (List Num)) (h w : Nat) : List (List Num) :=
  (List.range h).map fun k => (List.range w).map fun i => (rows.getD i []).getD k (.fin false 0 0)

/-- mm.ldw (spec/06 R141, R142). Without an array a west load in a block format is refused with 0x11 and not with 0x01 (DESIGN CHOICE,
log 81). -/
def execMmLdw (g : BitVec 7) (x : MOp) (west : Bool) (k : BitVec 2) (sw : BitVec 1) (s : State) : Result :=
  mxOp g [] s fun s a =>
    let q := s.cur.seq
    let f := s.wfmt
    if west && (Fmt.bx f).isSome then .trap s (westTrap s.cur.addr)
    else
      let sh := s.me.r.useK k sw
      let j := min sh.rows.toNat (if west then a.h else a.w)
      let n := if west then a.w else a.h
      (s.readOperand q x sh sh.dec f n j).res fun s1 rows =>
        let w := if west then rows else transpose rows a.h a.w
        let s2 := (s1.setRegs (s1.me.r.swapKIf k sw)).tookRows x j
        .done (s2.setFlight { s2.me.f with weights := { fam := some (Fmt.family f), w := w, fmt := f } }) (max 1 j)

/-- Whether the weights held are of another family than an instruction's operands: it then changes nothing but its region and its
tile's status (spec/06 R142). -/
def State.mismatch (s : State) : Bool :=
  s.me.f.weights.fam.isSome && s.me.f.weights.fam != some (Fmt.family s.afmt)

/-- The accumulation of mm and mm.chain into a region: rows of A, tile, first column (spec/06 R142, R145). -/
def State.accumulate (s : State) (ar : Arr) (tile : Nat) (rows : List (List Num)) (row0 f0 : Nat) (z k16 : Bool)
    (occ : Nat) : State :=
  let c := s.core (coreOf s.cur.seq)
  let fam := Fmt.family s.afmt
  let wts := s.me.f.weights
  let m := rows.length
  let kc := if k16 || ar.h = 16 then 16 else 32
  let stat := c.stat tile
  let ityp : BitVec 4 := if fam = .int then 8#4 else 0#4
  let old := (List.range m).map fun i => c.tileRow tile (row0 + i) f0 ar.w
  if s.mismatch then
    let free := fun i => Config.freeWord32 (s.tick * 2 ^ 64 + i)
    let vals := old.flatten.zipIdx.map fun e => [e.1, free e.2]
    s.writeTile tile (ityp ||| ((free 1024).setWidth 4 &&& 7#4)) row0 m f0 ar.w occ ar.lat vals
  else
    let cols := (List.range ar.w).map fun n => wts.col ar.h n
    let res := (rows.zip old).flatMap fun e => (cols.zip e.2).map fun d =>
      let (vs, fl) := macElem fam (if z then 0#32 else d.2) (parts kc (e.1.zip d.1) (ar.h / kc))
      (d.2 :: vs, fl)
    let fl := res.foldl (fun a e => a ||| e.2) 0#4
    s.writeTile tile (ityp ||| (stat &&& 7#4) ||| fl) row0 m f0 ar.w occ ar.lat (res.map (·.1))

def execMm (g : BitVec 7) (tile : BitVec 9) (x : MOp) (k : BitVec 2) (sw : BitVec 1) (z k16 : BitVec 1) (s : State) :
    Result :=
  mxOp g [tile] s fun s a =>
    let q := s.cur.seq
    if s.tilesFull then .wait s (s.tileEvents q)
    else
      let sh := s.me.r.useK k sw
      (s.readOperand q x sh false s.afmt a.h sh.m).res fun s1 rows =>
        let occ := mmOcc s1.afmt s1.wfmt sh.m
        let s2 := if s1.mismatch then s1 else (s1.setRegs (s1.me.r.swapKIf k sw)).tookRows x sh.m
        .done (s2.accumulate a tile.toNat rows sh.row0.toNat (sh.f0 a) (z = 1#1) (k16 = 1#1) occ) occ

/-- mm.chain (spec/06 R150). -/
def execMmChain (g : BitVec 7) (td ta : BitVec 9) (k : BitVec 2) (sw : BitVec 1) (k16 : BitVec 1) (s : State) : Result :=
  mxOp g [td, ta] s fun s a =>
    if s.tilesFull then .wait s (s.tileEvents s.cur.seq)
    else
      let sh := s.me.r.useK k sw
      let c := s.core (coreOf s.cur.seq)
      let isInt := (c.stat ta.toNat).getLsbD 3
      let f := s.afmt
      let rs := (List.range sh.m).map fun m =>
        narrowRow ((c.tileRow ta.toNat (sh.row0.toNat + m) 0 a.h).map (tileNum isInt)) sh 0 f
      let fl := rs.foldl (fun b e => b.or e.2) ({} : FlagSet)
      let occ := mmOcc f s.wfmt sh.m
      let s1 := if s.mismatch then s else s.setRegs (s.me.r.swapKIf k sw)
      let s2 := s1.accumulate a td.toNat (rs.map fun e => decRow f a.h e.1) sh.row0.toNat (sh.f0 a) false (k16 = 1#1) occ
      .done (if s.mismatch then s2 else s2.raiseFlags fl.bits) occ

/-- mm.zero (spec/06 R151). -/
def execMmZero (g : BitVec 7) (tile : BitVec 9) (i : BitVec 1) (s : State) : Result :=
  mxOp g [tile] s fun s a =>
    if s.tilesFull then .wait s (s.tileEvents s.cur.seq)
    else
      let c := s.core (coreOf s.cur.seq)
      let vals := (List.range 32).flatMap fun r => (c.tileRow tile.toNat r 0 32).map fun b => [b, 0#32]
      .done (s.writeTile tile.toNat (if i = 1#1 then 8#4 else 0#4) 0 32 0 32 1 a.lat vals) 1

/-- mm.wb (spec/06 R152). -/
def execMmWb (g : BitVec 7) (tile : BitVec 9) (x : MOp) (k : BitVec 2) (sw : BitVec 1) (clr : BitVec 1) (s : State) : Result :=
  mxOp g [tile] s fun s a =>
    let q := s.cur.seq
    if clr = 1#1 && s.tilesFull then .wait s (s.tileEvents q)
    else
      let sh := s.me.r.useK k sw
      let f := s.ofmt
      let nb := rowBytes f a.w
      let m := sh.m
      let out := fun (s : State) =>
        let c := s.core (coreOf q)
        let isInt := (c.stat tile.toNat).getLsbD 3
        let rs := (List.range m).map fun i =>
          narrowRow ((c.tileRow tile.toNat (sh.row0.toNat + i) (sh.f0 a) a.w).map (tileNum isInt)) sh s.hexp f
        let fl := rs.foldl (fun b e => b.or e.2) ({} : FlagSet)
        (rs.map fun e => leBytes e.1 nb, (s.setRegs (s.me.r.swapKIf k sw)).raiseFlags fl.bits)
      s.withDst q x sh nb (rowAlign f) m out fun s =>
        let occ := max 1 m
        if clr = 1#1 then
          let c := s.core (coreOf q)
          let vals := (List.range m).flatMap fun i =>
            (c.tileRow tile.toNat (sh.row0.toNat + i) (sh.f0 a) a.w).map fun b => [b, 0#32]
          .done (s.writeTile tile.toNat (c.stat tile.toNat) sh.row0.toNat m (sh.f0 a) a.w occ a.lat vals) occ
        else .done s occ

/-- mm.rd: raw words (spec/06 R153). -/
def execMmRd (g : BitVec 7) (tile : BitVec 9) (x : MOp) (k : BitVec 2) (sw : BitVec 1) (s : State) : Result :=
  mxOp g [tile] s fun s a =>
    let q := s.cur.seq
    let sh := s.me.r.useK k sw
    let out := fun (s : State) =>
      let c := s.core (coreOf q)
      ((List.range sh.m).map fun i =>
          (c.tileRow tile.toNat (sh.row0.toNat + i) (sh.f0 a) a.w).flatMap fun b => leBytes b.toNat 4,
        s.setRegs (s.me.r.swapKIf k sw))
    s.withDst q x sh (4 * a.w) 4 sh.m out fun s => .done s (max 1 sh.m)

/-- mm.rd.st and mm.rd.stc wait for completion of the tile's writes. -/
def execMmRdSt (g : BitVec 7) (tile : BitVec 9) (x : BitVec 6) (clr : BitVec 1) (s : State) : Result :=
  mxOp g [tile] s fun s _ =>
    let q := s.cur.seq
    if s.me.f.tiles.any fun w => w.tile == tile.toNat && !w.complete then .wait s (s.tileEvents q)
    else
      let c := s.core (coreOf q)
      let st := c.stat tile.toNat
      let s1 := if clr = 1#1 then s.setCore (coreOf q) (c.setStat tile.toNat (st &&& 8#4)) else s
      .done (s1.awaitS x (st.setWidth 64)) 1

/-- mm.fuse (spec/06 R135, R136): only the lowest quadrant of a group; it waits for every matrix operation of the group. -/
def execMmFuse (g : BitVec 7) (join : BitVec 1) (s : State) : Result :=
  slotOp g s fun s =>
    let q := s.cur.seq
    match s.groupOf q with
    | none => .trap s mxTrap
    | some (gh, gr) =>
      let qs := groupSeqs gh
      if qs.head? ≠ some q then .trap s mxTrap
      else
        let evs := qs.flatMap s.tileEvents
        if !evs.isEmpty then .wait s evs
        else
          let s1 := if qs.length = 1 then s else s.setGroup gh { gr with joined := join == 1#1 }
          let s2 := qs.foldl (fun s r => s.setSeq r { s.seq r with f := { (s.seq r).f with weights := {} } }) s1
          .done (if qs.length = 1 then s else s2) 1

end Sys2Proof.Machine
end

