-- ==== Sys2Proof/Machine/Buffer.lean ====
section
/-! DEFINITION. Scratchpad buffers: declaration, state changes and zeroing (spec/07 R166 to R174). -/

namespace Sys2Proof.Machine

/-- Codes of buffer operations in the 0x12 record (spec/07 R170). -/
def BufOp.code : BufOp → Nat
  | .decl _ _ _ _ => 4 | .fill => 5 | .done => 6 | .drain => 7 | .free => 8

/-- The transition of a state, or a refusal (spec/07 R168). -/
def BufOp.next : BufOp → BitVec 3 → Option (BitVec 3)
  | .decl _ _ _ _, st => if st = bfFree then some bfEmpty else none
  | .fill, st => if st = bfEmpty || st = bfFaulted then some bfFilling else none
  | .done, st => if st = bfFilling then some bfFull else if st = bfDraining then some bfEmpty else none
  | .drain, st => if st = bfFull then some bfDraining else none
  | .free, st => if st = bfEmpty || st = bfFull || st = bfFaulted then some bfFree else none

/-- Lines of the addressable range of a buffer. -/
def Desc.holds (d : Desc) (l : Nat) : Bool := d.lo ≤ 64 * l && 64 * l < d.lo + d.size

/-- Whether two reserved ranges meet. -/
def Desc.meets (d : Desc) (lo n : Nat) : Bool := d.state != bfFree && overlap d.lo d.span lo n

/-- The refusal of an operation. -/
def CoreSt.bufRefuse (c : CoreSt) (n : Nat) (op : BufOp) (reason : Nat) : Trap :=
  let d := c.desc n
  bufTrap n d.state.toNat op.code reason (match op with | .decl b _ _ _ => b | _ => d.lo)

/-- A change of state takes effect, or is refused (spec/07 R168, R171, R173). Every field of a freed descriptor reads 0: the spec says it
of lines and state only (DESIGN CHOICE, log 83). -/
def CoreSt.bufApply (c : CoreSt) (n : Nat) (op : BufOp) : Except Trap CoreSt :=
  let d := c.desc n
  match op.next d.state with
  | none => .error (c.bufRefuse n op 2)
  | some st =>
    match op with
    | .decl base size spec own =>
      let d1 : Desc := { lines := BitVec.ofNat 15 (size / 64), base := BitVec.ofNat 14 (base / 64), zeroing := true,
                         spec := spec, owner := own, state := st }
      if c.descs.any fun e => e.2.meets base d1.span then .error (c.bufRefuse n op 4)
      else
        let c1 := c.setDesc n d1
        .ok { c1 with live := c1.live.filter (!d1.holds ·), region := c1.region.filter (!d1.holds ·) }
    | .free =>
      let c1 := c.setDesc n {}
      .ok (if d.spec then { c1 with region := c1.region.filter (!d.holds ·) } else c1)
    | .fill | .done | .drain => .ok (c.setDesc n { d with state := st })

/-- The trap of a descriptor outside the context's groups (spec/07 R166). -/
def descTrap : Trap := addrTrap 0x11 0#64 { cls := pcMem } 0 0 0

/-- Whether a context may name a descriptor. -/
def State.descOk (s : State) (q n : Nat) : Bool := s.quadRuns (coreOf q) (n / 16) (s.ctxOf q)

/-- Hold queue B until the change takes effect. -/
def State.holdBuf (s : State) (x : BitVec 6) (op : BufOp) : Res :=
  .hold (s.setFlight { s.me.f with holdB := some { bn := s.cur.bn, addr := s.cur.addr, what := .buf x op } })

/-- Quadrants whose banks a range of the scratchpad touches. -/
def banksOf (lo n : Nat) : List Nat := [0, 1, 2, 3].filter fun b => overlap (b * 2 ^ 18) (2 ^ 18) lo n

/-- A declaration whose banks are not of the context's groups. -/
def State.declLost (s : State) (q : Nat) (op : BufOp) : Bool :=
  match op with
  | .decl base size spec own =>
    (banksOf base (if spec then 2 * size else size)).any (fun b => !s.quadRuns (coreOf q) b (s.ctxOf q)) ||
      (spec && !s.quadRuns (coreOf q) own.toNat (s.ctxOf q))
  | .fill | .done | .drain | .free => false

def execBfDecl (g : BitVec 7) (x y z : BitVec 6) (spec : BitVec 1) (own : BitVec 2) (s : State) : Result :=
  slotOp g s fun s =>
    let q := s.cur.seq
    let c := coreOf q
    let base := (s.rs y).toNat
    let size := (s.rs z).toNat
    let sp := spec == 1#1
    let op : BufOp := .decl base size sp own
    let span := if sp then 2 * size else size
    if !s.descOk q x.toNat then .trap s descTrap
    else if base / 2 ^ 20 ≠ 0 || base % 64 ≠ 0 || size = 0 || size % 64 ≠ 0 || 2 ^ 20 < base + span then
      .trap s ((s.core c).bufRefuse x.toNat op 3)
    else if s.declLost q op then
      .trap s (addrTrap 0x11 (s.rs y) { cls := pcMem } 0 0 0)
    else s.holdBuf x op

def bufOp (op : BufOp) (g : BitVec 7) (x : BitVec 6) (s : State) : Result :=
  slotOp g s fun s => if s.descOk s.cur.seq x.toNat then s.holdBuf x op else .trap s descTrap

def execBfFill (g : BitVec 7) (x : BitVec 6) (s : State) : Result := bufOp .fill g x s
def execBfDone (g : BitVec 7) (x : BitVec 6) (s : State) : Result := bufOp .done g x s
def execBfDrain (g : BitVec 7) (x : BitVec 6) (s : State) : Result := bufOp .drain g x s
def execBfFree (g : BitVec 7) (x : BitVec 6) (s : State) : Result := bufOp .free g x s

def execBfState (g : BitVec 7) (x y : BitVec 6) (s : State) : Result :=
  slotOp g s fun s =>
    if s.descOk s.cur.seq y.toNat then .done (s.awaitS x ((s.core (coreOf s.cur.seq)).desc y.toNat).word) 1
    else .trap s descTrap

/-- Every byte of the reserved range becomes zero (spec/07 R172). -/
def execBufferZeroingDone (core : Nat) (d : Nat) (s : State) : Result :=
  let c := s.core core
  let e := c.desc d
  .next (if e.zeroing then
    s.setCore core { c.setDesc d { e with zeroing := false } with spad := Mem.zero c.spad e.lo e.span } else s)

/-- Local stores of the cluster that have passed their check and are not performed. -/
def State.localStores (s : State) (cl : Nat) : List Instr :=
  s.seqs.flatMap fun e =>
    if clusterOf e.1 = cl then
      let has := fun (l : List StoreEnt) => l.any fun d => match d.act with | .loc _ _ => true | _ => false
      (if has e.2.f.storeB then [Instr.storePerform e.1 1] else []) ++
        if has e.2.f.storeC then [.storePerform e.1 2] else []
    else []

/-- BUFFER_STATE_CHANGE (spec/07 R169): earlier writes of the issuer and every access that has passed its check come first;
a bf.fill waits for zeroing. The descriptor must still be of the context's groups (spec/15 R321). -/
def execBufferStateChange (q : Nat) (s : State) : Result :=
  let x := s.seq q
  match x.f.holdB with
  | none => .next s
  | some hb =>
    match hb.what with
    | .buf d op =>
      if !x.writesIssued hb.bn then .next s
      else
        let c := s.core (coreOf q)
        let evs := s.localStores (clusterOf q) ++ s.drainStreams q ++
          (if op = .fill && (c.desc d.toNat).zeroing then [.bufferZeroingDone (coreOf q) d.toNat] else [])
        let refuse := fun (t : Trap) =>
          let s1 := s.setSeq q { x with f := { x.f with holdB := none } }
          ({ s1 with cur := { seq := q, slot := 1, bn := hb.bn, addr := hb.addr } } : State).raise t
        if !evs.isEmpty then .next (s.stallOn evs)
        else if !s.descOk q d.toNat || s.declLost q op then refuse descTrap
        else
          match c.bufApply d.toNat op with
          | .ok c1 => .next ((s.setCore (coreOf q) c1).endHold q hb.bn)
          | .error t => refuse t
    | _ => .next s

end Sys2Proof.Machine
end

