-- ==== Sys2Proof/Machine/Patch.lean ====
section
/-! DEFINITION. Tensor memory: records, patches, their order and their values, ts.ld, ts.st and the pa.* instructions (spec/09
R203 to R236, spec/04 R106).

An operation reads the whole record with its patches, computes, and writes what has changed, in one step: one point of the
tensor's order (spec/09 R218). One that is refused leaves no trace. -/

namespace Sys2Proof.Machine

/-! ### The picture of a tensor (spec/09 R204 to R207) -/

structure PSlot where
  idx : Nat
  cell : Nat
  pay : BitVec 512
  pre : BitVec 512
  mask : BitVec 64
  deriving DecidableEq, Repr

/-- An entry that is not free. Kind 0 is OVR, 1 ADD, 2 ADDN. -/
structure PEnt where
  num : Nat
  name : Nat
  kind : Nat
  closed : Bool
  pos : Nat := 0
  target : Nat := 0
  inv : Bool := false
  kept : Bool := false
  ostamp : Nat
  cctx : Nat
  cstamp : Nat := 0
  slots : List PSlot := []
  deriving DecidableEq, Repr

structure Tensor where
  rec_ : Word
  base : Word
  rows : Nat
  cols : Nat
  fmt : Fmt
  cb : Nat
  strict : Bool
  canon : Bool
  keep : Bool
  autosq : Bool
  table : Word
  map : Word
  pool : Word
  nslots : Nat
  normrec : Word
  cut : Option Nat
  sflags : Nat
  stamp : Nat
  /-- The free slots that were used before, as they are linked, and the first slot that never was (spec/09 R207). -/
  free : List Nat
  mark : Nat
  ents : List PEnt
  deriving DecidableEq, Repr

/-- An access of the patch engine. -/
def paAcc (write tensor : Bool) : Acc := { cls := pcPatch, write := write, tensor := tensor }

/-- Read n bytes as a number. -/
def State.paRead (s : State) (q : Nat) (tensor : Bool) (a : Word) (n : Nat) : Try Nat :=
  (s.reachRange q (paAcc false tensor) a n).bind fun s1 ps =>
    let (s2, bs) := s1.readPieces (s.ctxOf q) pcPatch ps
    .ok s2 (leNat bs)

def State.paWrite (s : State) (q : Nat) (tensor : Bool) (a : Word) (bs : List Byte) : Try Unit :=
  (s.reachRange q (paAcc true tensor) a bs.length).bind fun s1 ps =>
    .ok (s1.writePieces (dieOf q) (s.ctxOf q) pcPatch ps bs) ()

def bitsAt (n lo w : Nat) : Nat := n / 2 ^ lo % 2 ^ w

/-- Slots of a patch, along their links. A link beyond the pool ends them, and a cell beyond the tensor is none: what software has
corrupted reaches no other tensor (spec/09 R208). -/
def State.paSlots (s : State) (q : Nat) (pool : Word) (nslots ncells idx : Nat) : Nat → Try (List PSlot)
  | 0 => .ok s []
  | n + 1 =>
    if nslots ≤ idx then .ok s []
    else
      (s.paRead q false (pool + BitVec.ofNat 64 (144 * idx)) 144).bind fun s1 v =>
        let sl : PSlot := { idx := idx, cell := bitsAt v 1088 32, pay := BitVec.ofNat 512 v,
                            pre := BitVec.ofNat 512 (v / 2 ^ 512), mask := BitVec.ofNat 64 (v / 2 ^ 1024) }
        (s1.paSlots q pool nslots ncells (bitsAt v 1120 32) n).bind fun s2 t =>
          .ok s2 (if sl.cell < ncells then sl :: t else t)

/-- Slots along the links of the free list, up to the first that was never used. -/
def State.paFree (s : State) (q : Nat) (pool : Word) (mark idx : Nat) : Nat → Try (List Nat)
  | 0 => .ok s []
  | n + 1 =>
    if mark ≤ idx then .ok s []
    else
      (s.paRead q false (pool + BitVec.ofNat 64 (144 * idx + 140)) 4).bind fun s1 v =>
        (s1.paFree q pool mark v n).bind fun s2 t => .ok s2 (idx :: t)

/-- Entries from a number on, until as many are found as are in use. -/
def State.paEnts (s : State) (q : Nat) (table pool : Word) (nslots ncells num left : Nat) : Nat → Try (List PEnt)
  | 0 => .ok s []
  | fuel + 1 =>
    if left = 0 then .ok s []
    else
      (s.paRead q false (table + BitVec.ofNat 64 (32 * num)) 32).bind fun s1 v =>
        let e := bitsAt v 32 32
        if e % 8 = 0 then s1.paEnts q table pool nslots ncells (num + 1) left fuel
        else
          (s1.paSlots q pool nslots ncells (bitsAt v 64 32) (min nslots (bitsAt v 96 32))).bind fun s2 sl =>
            let p : PEnt :=
              { num := num, name := bitsAt v 0 32, kind := bitsAt e 3 2, closed := e % 8 == 2, pos := bitsAt e 17 10,
                target := bitsAt e 7 10, inv := e.testBit 6, kept := e.testBit 5, ostamp := bitsAt v 128 64,
                cctx := bitsAt v 240 16, cstamp := bitsAt v 192 48, slots := sl }
            (s2.paEnts q table pool nslots ncells (num + 1) (left - 1) fuel).bind fun s3 t => .ok s3 (p :: t)

/-- Cells of a row (spec/09 R205). -/
def cellsPerRow (cols : Nat) (f : Fmt) (cb : Nat) : Nat := (cols * (Fmt.bits f / 8) + cb - 1) / cb

/-- The checks of a record, and its picture (spec/09, before R224). -/
def State.paLoad (s : State) (q : Nat) (rec : Word) : Try Tensor :=
  match addrBad rec 64 (paAcc false false) with
  | some t => .trap s t
  | none =>
    (s.paRead q false rec 64).bind fun s1 v =>
      (s1.paRead q false (rec + 0xA0#64) 32).bind fun s2 w =>
        let ctl := bitsAt v 128 64
        let code := ctl % 16
        if 6 < code || bitsAt ctl 4 2 = 3 then .trap s2 (addrTrap 0x11 rec (paAcc false false) 0 0 0)
        else
          let table := BitVec.ofNat 64 (bitsAt v 192 64)
          let pool := BitVec.ofNat 64 (bitsAt v 320 64)
          let nslots := bitsAt v 384 64
          let rows := bitsAt v 64 32
          let cols := bitsAt v 96 32
          let fmt := (fmtOf (BitVec.ofNat 4 code)).getD .fp32
          let cb := 16 * 2 ^ bitsAt ctl 4 2
          let ncells := rows * cellsPerRow cols fmt cb
          let mark := min nslots (bitsAt w 224 32)
          (s2.paEnts q table pool nslots ncells 1 (bitsAt w 0 10 + bitsAt w 21 10) 1023).bind fun s3 es =>
            (s3.paFree q pool mark (if bitsAt w 192 32 = 0 then mark else bitsAt w 192 32 - 1) mark).bind fun s4 fr =>
            (s4.paRead q false (rec + 0x38#64) 8).bind fun s5 nr =>
              .ok s5
                { rec_ := rec, base := BitVec.ofNat 64 v, rows := rows, cols := cols, fmt := fmt, cb := cb,
                  strict := ctl.testBit 8, canon := ctl.testBit 9, keep := ctl.testBit 10, autosq := ctl.testBit 11,
                  table := table, map := BitVec.ofNat 64 (bitsAt v 256 64), pool := pool, nslots := nslots,
                  normrec := if nr = 0 then rec else BitVec.ofNat 64 nr,
                  cut := if w.testBit 20 then some (bitsAt w 10 10) else none, sflags := bitsAt w 32 3,
                  stamp := bitsAt w 64 64, free := fr, mark := mark, ents := es }

/-! ### Geometry (spec/09 R205) -/

def Tensor.z (t : Tensor) : Nat := Fmt.bits t.fmt / 8
def Tensor.rb (t : Tensor) : Nat := t.cols * t.z
def Tensor.pitch (t : Tensor) : Nat := (t.rb + 7) / 8 * 8
def Tensor.cpr (t : Tensor) : Nat := cellsPerRow t.cols t.fmt t.cb
def Tensor.size (t : Tensor) : Nat := t.rows * t.pitch
/-- Address and length of a cell. -/
def Tensor.cellAt (t : Tensor) (c : Nat) : Word × Nat :=
  let j := c % t.cpr
  (t.base + BitVec.ofNat 64 (c / t.cpr * t.pitch + j * t.cb), min t.cb (t.rb - j * t.cb))

/-! ### Entries -/

/-- Insert by chain position. -/
def insPos (p : PEnt) : List PEnt → List PEnt
  | [] => [p]
  | e :: t => if p.pos < e.pos then p :: e :: t else e :: insPos p t

/-- The closed patches in chain order. -/
def Tensor.chain (t : Tensor) : List PEnt := (t.ents.filter (·.closed)).foldr insPos []
def Tensor.opens (t : Tensor) : List PEnt := t.ents.filter fun e => !e.closed
def Tensor.named (t : Tensor) (name : Nat) : Option PEnt := t.ents.find? fun e => e.name == name
def Tensor.closedNamed (t : Tensor) (name : Nat) : Option PEnt := t.ents.find? fun e => e.closed && e.name == name
def Tensor.entry (t : Tensor) (n : Nat) : Option PEnt := t.ents.find? fun e => e.num == n
/-- The lowest free entry. -/
def Tensor.freeEnt (t : Tensor) : Option Nat := (List.range 1024).find? fun n => n != 0 && (t.entry n).isNone
/-- Insert an entry, keeping numbers rising. -/
def insNum (p : PEnt) : List PEnt → List PEnt
  | [] => [p]
  | e :: t => if p.num < e.num then p :: e :: t else e :: insNum p t
def Tensor.put (t : Tensor) (p : PEnt) : Tensor := { t with ents := insNum p (t.ents.filter fun e => e.num != p.num) }

/-- Numbers of slots in use. -/
def Tensor.usedSlots (t : Tensor) : List Nat := t.ents.flatMap fun e => e.slots.map (·.idx)
def Tensor.freeCount (t : Tensor) : Nat := t.nslots - t.usedSlots.length
/-- The free slots that are taken next: those of the free list from its head on, then slots that were never used (DESIGN CHOICE,
log 36). -/
def Tensor.takeSlots (t : Tensor) (n : Nat) : List Nat :=
  let old := t.free.take n
  old ++ List.range' t.mark (min (n - old.length) (t.nslots - t.mark))
def Tensor.freeSlot (t : Tensor) : Option Nat := (t.takeSlots 1).head?

/-- The free list after a change of the entries: slots that were taken leave it, and slots that were freed come to its head. -/
def Tensor.relink (old new : Tensor) : Tensor :=
  let was := old.usedSlots
  let now := new.usedSlots
  let taken := now.filter fun i => !was.contains i
  { new with
    free := (was.filter fun i => !now.contains i) ++ old.free.filter fun i => !taken.contains i
    mark := taken.foldl (fun m i => max m (i + 1)) old.mark }

def PEnt.slotOf (p : PEnt) (c : Nat) : Option PSlot := p.slots.find? fun s => s.cell == c
/-- A cell belongs to the footprint when its mask is not zero. -/
def PEnt.touches (p : PEnt) (c : Nat) : Bool := p.slots.any fun s => s.cell == c && s.mask != 0#64

/-- Chain positions follow a list; a target that has gone is forgotten (spec/09 R229). -/
def Tensor.setChain (t : Tensor) (ch : List PEnt) : Tensor :=
  let nums := (ch ++ t.opens).map (·.num)
  let clean := fun (p : PEnt) => if p.target != 0 && !nums.contains p.target then { p with target := 0 } else p
  let closed := ch.zipIdx.map fun e => clean { e.1 with pos := e.2 + 1 }
  { t with ents := (closed ++ t.opens.map clean).foldr insNum [] }

/-- Whether a patch lies at or before the cut. -/
def Tensor.atCut (t : Tensor) (p : PEnt) : Bool :=
  match t.cut with
  | some c => decide (p.pos ≤ c)
  | none => false

/-- Remove closed patches. The cut names the same remaining ones. -/
def Tensor.remove (t : Tensor) (nums : List Nat) : Tensor :=
  let before := (t.chain.filter fun e => nums.contains e.num && t.atCut e).length
  let t1 := { t with ents := t.ents.filter fun e => !nums.contains e.num, cut := t.cut.map (· - before) }
  t1.setChain t1.chain

/-! ### Values (spec/09 R209, R212, R213) -/

/-- padd on the bits of two elements. -/
def padd (f : Fmt) (x d : Nat) : Nat :=
  match Fmt.flt f with
  | none => (x + d) % 2 ^ Fmt.bits f
  | some k => k.enc (k.cvt ((k.dec x).addX (k.dec d)).1 .rne).1

def elemGet (x : BitVec 512) (z e : Nat) : Nat := x.toNat / 2 ^ (8 * z * e) % 2 ^ (8 * z)
def elemPut (x : BitVec 512) (z e v : Nat) : BitVec 512 :=
  blend (byteMask (z * e) z) (placeAt (z * e) (BitVec.ofNat 64 v)) x

/-- Elements of which every byte is masked, and of which only some are. -/
def PSlot.full (s : PSlot) (z : Nat) : List Nat :=
  (List.range (64 / z)).filter fun e => byteMask (z * e) z &&& ~~~ s.mask == 0#64
def PSlot.torn (s : PSlot) (z : Nat) : Bool :=
  (List.range (64 / z)).any fun e => byteMask (z * e) z &&& s.mask != 0#64 && byteMask (z * e) z &&& ~~~ s.mask != 0#64

/-- The deltas of a slot, as bits. -/
def PSlot.deltas (s : PSlot) (z : Nat) : List (Nat × Nat) := (s.full z).map fun e => (e, elemGet s.pay z e)

/-- Apply one patch to a cell. -/
def PEnt.apply (p : PEnt) (f : Fmt) (c : Nat) (x : BitVec 512) : BitVec 512 :=
  match p.slotOf c with
  | none => x
  | some s =>
    if p.kind = 0 then blend s.mask s.pay x
    else
      let z := Fmt.bits f / 8
      (s.deltas z).foldl (fun x e => elemPut x z e.1 (padd f (elemGet x z e.1) e.2)) x

/-- Insert by name. -/
def insName (p : PEnt) : List PEnt → List PEnt
  | [] => [p]
  | e :: t => if p.name < e.name then p :: e :: t else e :: insName p t

/-- order of a run on a canonical-sum tensor. -/
def orderRun (run : List PEnt) : List PEnt :=
  let nums := run.map (·.num)
  let invs := run.filter fun p => p.inv && nums.contains p.target
  let gone := invs.map (·.num) ++ invs.map (·.target)
  (run.filter fun p => !gone.contains p.num).foldr insName []

/-- The patches in the order in which they are applied. -/
def splitRuns : List PEnt → List PEnt → List PEnt
  | [], run => orderRun run
  | p :: t, run => if p.kind = 0 then orderRun run ++ p :: splitRuns t [] else splitRuns t (run ++ [p])

/-- Apply a list of patches to the base of a cell. -/
def Tensor.applyAll (t : Tensor) (c : Nat) (ps : List PEnt) (x : BitVec 512) : BitVec 512 :=
  let l := ps.filter fun p => p.touches c
  (if t.canon then splitRuns l [] else l).foldl (fun x p => p.apply t.fmt c x) x

/-- cell_value of a cell up to a chain position. -/
def State.cellValue (s : State) (q : Nat) (t : Tensor) (c lim : Nat) : Try (BitVec 512) :=
  let (a, n) := t.cellAt c
  (s.paRead q true a n).bind fun s1 v => .ok s1 (t.applyAll c (t.chain.take lim) (BitVec.ofNat 512 v))

/-! ### Commutation and conflicts (spec/09 R215 to R217) -/

/-- The lowest cell of two footprints. -/
def shared (p r : PEnt) : Option Nat :=
  p.slots.foldl (fun m s => if s.mask != 0#64 && r.touches s.cell then
    some (match m with | some k => min k s.cell | none => s.cell) else m) none

/-- Nothing when two patches commute, else the lowest cell in both footprints. -/
def Tensor.clash (t : Tensor) (p r : PEnt) : Option Nat :=
  match shared p r with
  | none => none
  | some c => if p.kind != 0 && r.kind != 0 && ((Fmt.flt t.fmt).isNone || t.canon) then none else some c

/-- The words of 0x20. -/
def Tensor.conflict (t : Tensor) (reason later earlier cell : Nat) : Trap :=
  { code := 0x20, w4 := BitVec.ofNat 64 (reason * 2 ^ 60 + t.rec_.toNat % 2 ^ 56),
    w5 := BitVec.ofNat 64 (later * 2 ^ 32 + earlier), w6 := BitVec.ofNat 64 cell }

/-- The words of 0x21 and 0x22. -/
def Tensor.full (t : Tensor) (reason : Nat) : Trap :=
  { code := 0x21, w4 := BitVec.ofNat 64 (reason * 2 ^ 60 + t.rec_.toNat % 2 ^ 56), w5 := BitVec.ofNat 64 t.ents.length }
def Tensor.nameTrap (t : Tensor) (reason name : Nat) : Trap :=
  { code := 0x22, w4 := BitVec.ofNat 64 (reason * 2 ^ 60 + t.rec_.toNat % 2 ^ 56), w5 := BitVec.ofNat 64 name }

/-- The refusal of a port or a name; it has no address. -/
def paTrap : Trap := addrTrap 0x11 0#64 { cls := pcPatch } 0 0 0

/-- The checks of a new name: its entry. -/
def Tensor.newName (t : Tensor) (name : Nat) : Except Trap Nat :=
  if name = 0 then .error (t.nameTrap 2 name)
  else if (t.named name).isSome then .error (t.nameTrap 1 name)
  else match t.freeEnt with
    | some n => .ok n
    | none => .error (t.full 1)

/-! ### Writing back -/

/-- An entry of the table. Its slots are linked newest first, and the field first of an entry without a slot holds 0xFFFFFFFF, as the
last link does: R206 and R207 fix neither (DESIGN CHOICE, log 36). -/
def PEnt.bytes (p : PEnt) : List Byte :=
  let e := p.pos * 2 ^ 17 + p.target * 2 ^ 7 + (if p.inv then 64 else 0) + (if p.kept then 32 else 0) + p.kind * 8 +
    (if p.closed then 2 else 1)
  leBytes (p.name + e * 2 ^ 32 + ((p.slots.head?.map (·.idx)).getD 0xFFFFFFFF) * 2 ^ 64 + p.slots.length * 2 ^ 96 +
    p.ostamp * 2 ^ 128 + (p.cstamp % 2 ^ 48) * 2 ^ 192 + p.cctx % 2 ^ 16 * 2 ^ 240) 32

/-- Slots with their links. -/
def slotBytes : List PSlot → List (Nat × List Byte)
  | [] => []
  | s :: t =>
    let next := (t.head?.map (·.idx)).getD 0xFFFFFFFF
    (s.idx, leBytes (s.pay.toNat + s.pre.toNat * 2 ^ 512 + s.mask.toNat * 2 ^ 1024 + s.cell * 2 ^ 1088 + next * 2 ^ 1120) 144) ::
      slotBytes t

/-- The map word of a cell. -/
def Tensor.mapWord (t : Tensor) (c : Nat) : Nat :=
  let l := t.chain.filter fun p => p.touches c
  (if l.length ≤ 4 then packN 10 (l.map (·.num)) else 0) + l.length * 2 ^ 54

def Tensor.cells (t : Tensor) : List Nat := (t.ents.flatMap fun e => e.slots.map (·.cell)).dedup

def Tensor.statusWord (t : Tensor) : Nat :=
  t.chain.length + (match t.cut with | some c => c * 2 ^ 10 + 2 ^ 20 | none => 0) + t.opens.length * 2 ^ 21 +
    t.sflags * 2 ^ 32

/-- The links of a list of free slots, the last of them to what follows the list. -/
def freeLinks (next : Nat) : List Nat → List (Nat × Nat)
  | [] => []
  | i :: t => (i, t.head?.getD next) :: freeLinks next t

/-- The first slot that was never used, as a link names it. -/
def Tensor.fresh (t : Tensor) : Nat := if t.mark < t.nslots then t.mark else 0xFFFFFFFF

/-- The links of the free slots: those that were used before, and behind them those that never were, each to the next (spec/09 R207; their
order is the model's, DESIGN CHOICE, log 36). The latter are linked by the first change of a tensor none of whose slots was ever used. -/
def Tensor.links (t : Tensor) (all : Bool) : List (Nat × Nat) :=
  freeLinks t.fresh t.free ++ if all then freeLinks 0xFFFFFFFF (List.range' t.mark (t.nslots - t.mark)) else []

/-- What a change of a tensor writes to plain memory. The engine keeps the head of its free list, plus one, and the first slot never
used in the first word of its working space; the rest of that space is free (DESIGN CHOICE, log 36). -/
def Tensor.writes (old new : Tensor) (tick : Nat) : List (Word × List Byte) :=
  let nums := ((old.ents ++ new.ents).map (·.num)).dedup
  let ents := nums.filterMap fun n =>
    let b := fun (t : Tensor) => (t.entry n).map PEnt.bytes
    if b old = b new then none
    else some (new.table + BitVec.ofNat 64 (32 * n), (b new).getD (leBytes 0 32))
  let len := max old.chain.length new.chain.length
  let at_ := fun (t : Tensor) (i : Nat) => match t.chain[i]? with | some p => p.num | none => 0
  let order := (List.range len).filterMap fun i =>
    if at_ old i = at_ new i then none
    else some (new.table + BitVec.ofNat 64 (32768 + 2 * (i + 1)), leBytes (at_ new i) 2)
  let sl := fun (t : Tensor) => t.ents.flatMap fun e => slotBytes e.slots
  let slots := ((sl new).filter fun e => !(sl old).contains e).map fun e => (new.pool + BitVec.ofNat 64 (144 * e.1), e.2)
  let freed := ((new.links (old.mark == 0)).filter fun e => !(old.links false).contains e).map fun e =>
    (new.pool + BitVec.ofNat 64 (144 * e.1 + 140), leBytes e.2 4)
  let cells := ((old.cells ++ new.cells).dedup).filterMap fun c =>
    if old.mapWord c = new.mapWord c then none else some (new.map + BitVec.ofNat 64 (8 * c), leBytes (new.mapWord c) 8)
  let tail := (new.rec_ + 0xA0#64,
    leBytes (new.statusWord + new.stamp % 2 ^ 64 * 2 ^ 64 + new.freeCount * 2 ^ 128 +
        (match new.free.head? with | some i => i + 1 | none => 0) * 2 ^ 192 + new.mark * 2 ^ 224) 32 ++
      (List.range 320).map fun i => Config.freeByte (tick * 2 ^ 64 + i))
  ents ++ order ++ slots ++ freed ++ cells ++ [tail]

/-- Write a tensor back, with new base values of cells. -/
def State.paSave (s : State) (q : Nat) (old new : Tensor) (cells : List (Nat × BitVec 512)) : Try Unit :=
  (tryList cells s fun s e =>
      let (a, n) := new.cellAt e.1
      s.paWrite q true a (leBytes e.2.toNat n)).bind fun s1 _ =>
    tryList (Tensor.writes old (old.relink new) s.tick) s1 fun s w => s.paWrite q false w.1 w.2

/-! ### The norm register (spec/04 R106) -/

/-- floor(d²·2^128), and whether it is exact; nothing for a NaN or an infinity. -/
def normTerm2 (d : Num) : Option (Nat × Bool) :=
  match d with
  | .fin _ m e =>
    let q := shiftNat (m * m) (2 * e + 128)
    some (q, dyEq q (-128) (m * m) (2 * e))
  | _ => none

/-- Add, or take back, one delta: the register and its flags, invalid 1, truncated 2, saturated 4. -/
def normStep (sub : Bool) (a : Nat × Nat) (d : Num) : Nat × Nat :=
  match normTerm2 d with
  | none => if sub then a else (a.1, a.2 ||| 1)
  | some (q, exact) =>
    if sub then (if a.1 < q then (0, a.2 ||| 4) else (a.1 - q, a.2))
    else
      let f := if exact then a.2 else a.2 ||| 2
      if 2 ^ 256 ≤ a.1 + q then (2 ^ 256 - 1, f ||| 4) else (a.1 + q, f)

/-- The delta elements of a patch. -/
def PEnt.squares (p : PEnt) (f : Fmt) : List Num :=
  p.slots.flatMap fun s => (s.deltas (Fmt.bits f / 8)).map fun e => decElem f e.2

/-- The squares of an ADDN patch reach the register of normrec, or are taken back from it; those of an inverse never reached it
(spec/04 R106, spec/09 R226, R227). Each drop and each inversion takes them back, also of a patch that an inversion has taken back before
(DESIGN CHOICE, log 94). -/
def State.paNorm (s : State) (q : Nat) (t : Tensor) (p : PEnt) (sub : Bool) : Try Unit :=
  if p.kind ≠ 2 || p.inv then .ok s ()
  else
    (s.paRead q false (t.normrec + 0x40#64) 40).bind fun s1 v =>
      let (n, f) := (p.squares t.fmt).foldl (normStep sub) (v % 2 ^ 256, v / 2 ^ 256)
      s1.paWrite q false (t.normrec + 0x40#64) (leBytes (n + f * 2 ^ 256) 40)

/-! ### Closing (spec/09 R225) -/

/-- Take pre-images of the slots of a patch. -/
def State.preImages (s : State) (q : Nat) (t : Tensor) : List PSlot → Try (List PSlot)
  | [] => .ok s []
  | sl :: r =>
    (s.cellValue q t sl.cell t.chain.length).bind fun s1 v =>
      (s1.preImages q t r).bind fun s2 r1 => .ok s2 ({ sl with pre := v } :: r1)

/-- Close a patch at the end of the chain, without the strict check; the squares are those of a patch. -/
def State.closeAs (s : State) (q : Nat) (t : Tensor) (p squares : PEnt) (sub : Bool) : Try Tensor :=
  let pre : Try PEnt :=
    if p.kind = 0 || t.keep then
      (s.preImages q t p.slots).bind fun s1 sl => .ok s1 { p with slots := sl, kept := true }
    else .ok s p
  pre.bind fun s1 p1 =>
    (s1.paNorm q t squares sub).bind fun s2 _ =>
      .ok s2 (({ t with stamp := t.stamp + 1 } : Tensor).put
        { p1 with closed := true, cstamp := t.stamp + 1, pos := t.chain.length + 1 })

/-! ### The frame of a patch instruction -/

/-- A refused or waiting operation has no effect; a host's answer that it waits for is asked for. -/
def paDo {α : Type} (s : State) (x : Try α) (f : State → α → Res) : Res :=
  match x with
  | .ok s1 a => f s1 a
  | .trap _ t => .trap s t
  | .wait s1 evs => .wait { s with mem := { s.mem with bisnp := s1.mem.bisnp } } evs

/-- A pa.* holds queue D until PATCH_ENGINE_COMPLETE. -/
def State.toEngine (s : State) : Res := .done (s.setFlight { s.me.f with holdD := some .patch }) 1

def paOp (g : BitVec 7) (s : State) (f : State → Try Unit) : Result :=
  slotOp g s fun s => paDo s (f s) fun s1 _ => s1.toEngine

def execPatchEngineComplete (q : Nat) (s : State) : Result :=
  let x := s.seq q
  .next (match x.f.holdD with
    | some .patch => s.setSeq q { x with f := { x.f with holdD := none } }
    | _ => s)

def State.port (s : State) (n : BitVec 2) : Option Port := Tab.get? s.me.f.ports n.toNat
def State.bindPort (s : State) (n : BitVec 2) (p : Option Port) : State :=
  let f := s.me.f
  s.setFlight { f with ports := match p with | some x => Tab.put f.ports n.toNat x | none => Tab.erase f.ports n.toNat }

/-! ### ts.ld and ts.st (spec/09 R221, R222) -/

/-- The checks of an access of a port: the tensor and the byte offset from its base. -/
def State.tsReach (s : State) (p : Option Port) (a : Word) (write : Bool) : Try (Port × Tensor × Nat) :=
  let q := s.cur.seq
  let acc := paAcc write true
  match p with
  | none => .trap s paTrap
  | some p =>
    if write && p.view then .trap s paTrap
    else
      match addrBad a 8 acc with
      | some t => .trap s t
      | none =>
        (s.reach q a acc).bind fun s1 _ =>
          (s1.paLoad q p.record).bind fun s2 t =>
            let off := (a - t.base).toNat
            if a.ult t.base || t.size ≤ off then .trap s2 (addrTrap 0x11 a acc 0 0 0) else .ok s2 (p, t, off)

/-- Cell, and byte in it, of an offset. -/
def Tensor.cellOf (t : Tensor) (off : Nat) : Nat × Nat :=
  let ro := off % t.pitch
  (off / t.pitch * t.cpr + ro / t.cb, ro % t.cb)

/-- ts.st is performed where it issues: its entry of the store queue is held for no longer. A new slot comes before the older ones of
its patch (DESIGN CHOICE, log 36). -/
def execTsSt (g : BitVec 7) (x base : BitVec 6) (off : BitVec 11) (port : BitVec 2) (s : State) : Result :=
  slotOp g s fun s =>
    let q := s.cur.seq
    if s.fullB then .wait s [.storePerform q 1]
    else
      paDo s ((s.tsReach (s.port port) (s.eaBM base off 8) true).bind fun s1 r =>
        let (p, t, o) := r
        match t.entry p.entry with
        | none => .trap s1 paTrap
        | some e =>
          let (c, b) := t.cellOf o
          let n := min 8 (t.rb - o % t.pitch)
          let m := byteMask b n
          let put := fun (sl : PSlot) =>
            { sl with pay := blend m (placeAt b (s.rs x)) sl.pay, mask := sl.mask ||| m }
          match e.slotOf c with
          | some _ =>
            s1.paSave q t (t.put { e with slots := e.slots.map fun d => if d.cell = c then put d else d }) []
          | none =>
            match t.freeSlot with
            | none => .trap s1 (t.full 2)
            | some i =>
              let sl := put { idx := i, cell := c, pay := 0#512, pre := 0#512, mask := 0#64 }
              s1.paSave q t (t.put { e with slots := sl :: e.slots }) []) fun s1 _ => .done s1 1

def execTsLd (g : BitVec 7) (x base : BitVec 6) (off : BitVec 11) (cut : BitVec 1) (port : BitVec 2) (s : State) : Result :=
  slotOp g s fun s =>
    let q := s.cur.seq
    let a := s.eaBM base off 8
    paDo s ((s.tsReach (s.port port) a false).bind fun s1 r =>
      let (p, t, o) := r
      let (c, b) := t.cellOf o
      if cut = 1#1 then
        match t.cut with
        | none => .trap s1 (addrTrap 0x11 a (paAcc false true) 0 0 0)
        | some k => (s1.cellValue q t c k).bind fun s2 v => .ok s2 (takeAt v b 8)
      else
        (s1.cellValue q t c t.chain.length).bind fun s2 v =>
          let v1 := if p.view then v else match t.entry p.entry with | some e => e.apply t.fmt c v | none => v
          .ok s2 (takeAt v1 b 8)) fun s1 w => .done (s1.awaitS x w) 1

/-! ### pa.open, pa.close, pa.drop (spec/09 R224 to R226) -/

/-- The values of cells up to a chain position. -/
def State.cellValues (s : State) (q : Nat) (t : Tensor) (k : Nat) : List Nat → Try (List (Nat × BitVec 512))
  | [] => .ok s []
  | c :: r => (s.cellValue q t c k).bind fun s1 v => (s1.cellValues q t k r).bind fun s2 l => .ok s2 ((c, v) :: l)

/-- pa.squash: fold the leading patches into the base (spec/09 R230). -/
def State.squash (s : State) (q : Nat) (t : Tensor) (n : Nat) : Try (Tensor × List (Nat × BitVec 512)) :=
  let ch := t.chain
  let lead := if t.strict then (ch.takeWhile fun p => t.opens.all fun o => p.cstamp ≤ o.ostamp).length else ch.length
  let k0 := min ch.length lead
  let k1 := match t.cut with | some c => min k0 c | none => k0
  let k := if n = 0 then k1 else min k1 n
  let ps := ch.take k
  let cells := (ps.flatMap fun p => p.slots.map (·.cell)).dedup
  (s.cellValues q t k cells).bind fun s1 l => .ok s1 (t.remove (ps.map (·.num)), l)

/-- The base lies on tensor pages (spec/09 R203, R224). -/
def State.basePages (s : State) (q : Nat) (t : Tensor) : Try Unit :=
  let lo := t.base.toNat / 65536
  let n := if t.size = 0 then 1 else (t.base.toNat + t.size - 1) / 65536 - lo + 1
  tryList (List.range n) s fun s i =>
    match s.reach q (BitVec.ofNat 64 (max t.base.toNat (65536 * (lo + i)))) (paAcc false true) with
    | .wait s1 evs => .wait s1 evs
    | .trap s1 _ => .trap s1 (addrTrap 0x11 t.base (paAcc false true) 0 0 0)
    | .ok s1 _ => .ok s1 ()

def execPaOpen (g : BitVec 7) (port : BitVec 2) (y z : BitVec 6) (kind : PaKind) (s : State) : Result :=
  paOp g s fun s =>
    let q := s.cur.seq
    if (s.port port).isSome then .trap s paTrap
    else
      (s.paLoad q (s.rs y)).bind fun s1 t =>
        (s1.basePages q t).bind fun s2 _ =>
          match kind with
          | .view => .ok (s2.bindPort port (some { record := t.rec_, entry := 0, view := true })) ()
          | .ovr | .add | .addn =>
            let name := (s.rs z).toNat % 2 ^ 32
            let k := match kind with | .add => 1 | .addn => 2 | _ => 0
            if name = 0 then .trap s2 (t.nameTrap 2 name)
            else if (t.named name).isSome then .trap s2 (t.nameTrap 1 name)
            else
              (if t.freeEnt.isNone && t.autosq then s2.squash q t 0 else .ok s2 (t, [])).bind fun s3 r =>
                let (t1, cells) := r
                match t1.freeEnt with
                | none => .trap s3 (t1.full 1)
                | some n =>
                  let p : PEnt := { num := n, name := name, kind := k, closed := false, ostamp := t1.stamp, cctx := s.ctxOf q }
                  (s3.paSave q t (t1.put p) cells).bind fun s4 _ =>
                    .ok (s4.bindPort port (some { record := t.rec_, entry := n, view := false })) ()

def execPaClose (g : BitVec 7) (port : BitVec 2) (s : State) : Result :=
  paOp g s fun s =>
    let q := s.cur.seq
    match s.port port with
    | none => .trap s paTrap
    | some pt =>
      if pt.view then .ok (s.bindPort port none) ()
      else
        (s.paLoad q pt.record).bind fun s1 t =>
          match t.entry pt.entry with
          | none => .trap s1 paTrap
          | some p =>
            let bad := if t.strict then t.chain.findSome? fun r =>
                if p.ostamp < r.cstamp && r.cctx != p.cctx then (t.clash p r).map fun c => (r, c) else none
              else none
            match bad with
            | some (r, c) => .trap s1 (t.conflict 2 p.name r.name c)
            | none =>
              (s1.closeAs q t p p false).bind fun s2 t1 =>
                (s2.paSave q t t1 []).bind fun s3 _ => .ok (s3.bindPort port none) ()

/-- Discard the open patch of a port. -/
def State.dropOpen (s : State) (q : Nat) (pt : Port) : Try Unit :=
  (s.paLoad q pt.record).bind fun s1 t =>
    match t.entry pt.entry with
    | none => .trap s1 paTrap
    | some p => s1.paSave q t { t with ents := t.ents.filter fun e => e.num != p.num } []

def execPaDropPort (g : BitVec 7) (port : BitVec 2) (s : State) : Result :=
  paOp g s fun s =>
    match s.port port with
    | none => .trap s paTrap
    | some pt =>
      if pt.view then .trap s paTrap
      else (s.dropOpen s.cur.seq pt).bind fun s1 _ => .ok (s1.bindPort port none) ()

/-- A closed patch named by the low word of a register. -/
def State.withClosed (s : State) (y z : BitVec 6) (f : State → Tensor → PEnt → Try Unit) : Try Unit :=
  (s.paLoad s.cur.seq (s.rs y)).bind fun s1 t =>
    match t.closedNamed ((s.rs z).toNat % 2 ^ 32) with
    | none => .trap s1 paTrap
    | some p => f s1 t p

/-- The first of some patches that does not commute with one. -/
def Tensor.firstClash (t : Tensor) (p : PEnt) (l : List PEnt) : Option (PEnt × Nat) :=
  l.findSome? fun r => (t.clash p r).map fun c => (r, c)

def Tensor.laterThan (t : Tensor) (p : PEnt) : List PEnt := t.chain.filter fun r => p.pos < r.pos
def Tensor.earlierThan (t : Tensor) (p : PEnt) : List PEnt := t.chain.filter fun r => r.pos < p.pos

/-- R216 names no second patch for reason 6: the field earlier holds 0 (DESIGN CHOICE, log 84). -/
def execPaDropClosed (g : BitVec 7) (y z : BitVec 6) (s : State) : Result :=
  paOp g s fun s =>
    let q := s.cur.seq
    s.withClosed y z fun s1 t p =>
      if t.atCut p then .trap s1 (t.conflict 6 p.name 0 0xFFFFFFFF)
      else
        match t.firstClash p (t.laterThan p) with
        | some (r, c) => .trap s1 (t.conflict 5 r.name p.name c)
        | none => (s1.paNorm q t p true).bind fun s2 _ => s2.paSave q t (t.remove [p.num]) []

/-! ### pa.inv and pa.comm (spec/09 R227, R228) -/

/-- The negated delta of an element. -/
def negElem (f : Fmt) (d : Nat) : Nat :=
  if (Fmt.flt f).isNone then (2 ^ Fmt.bits f - d) % 2 ^ Fmt.bits f else d ^^^ 2 ^ (Fmt.bits f - 1)

/-- The ostamp of the inverse, which no pa.open opened, is the record's stamp before its close (DESIGN CHOICE, log 95). -/
def execPaInv (g : BitVec 7) (y z : BitVec 6) (s : State) : Result :=
  paOp g s fun s =>
    let q := s.cur.seq
    let name := (s.rs z).toNat / 2 ^ 32
    s.withClosed y z fun s1 t p =>
      match t.newName name with
      | .error e => .trap s1 e
      | .ok n =>
        let free := t.takeSlots p.slots.length
        if free.length < p.slots.length then .trap s1 (t.full 2)
        else
          match t.firstClash p (t.laterThan p) with
          | some (r, c) => .trap s1 (t.conflict 3 r.name p.name c)
          | none =>
            let isF := (Fmt.flt t.fmt).isSome
            let ovr := p.kind = 0 || (isF && !t.canon && p.kept)
            let sl := (p.slots.zip free).map fun e =>
              let s := e.1
              let neg := (s.deltas t.z).foldl (fun x d => elemPut x t.z d.1 (negElem t.fmt d.2)) s.pay
              { s with idx := e.2, pay := if ovr then s.pre else neg, pre := 0#512 }
            let i : PEnt := { num := n, name := name, kind := if ovr then 0 else p.kind, closed := false, target := p.num,
                              inv := true, ostamp := t.stamp, cctx := s.ctxOf q, slots := sl }
            let t0 := if isF && !t.canon && !ovr then { t with sflags := t.sflags ||| 1 } else t
            (s1.closeAs q t0 i p true).bind fun s2 t1 => s2.paSave q t t1 []

/-- pa.comm. A record of reason 7 names Q as the later patch and P as the earlier, wherever they stand (DESIGN CHOICE, log 106). -/
def execPaComm (g : BitVec 7) (y z : BitVec 6) (s : State) : Result :=
  paOp g s fun s =>
    let q := s.cur.seq
    s.withClosed y z fun s1 t p =>
      match t.closedNamed ((s.rs z).toNat / 2 ^ 32) with
      | none => .trap s1 paTrap
      | some r =>
        if r.pos ≠ p.pos + 1 then .trap s1 (t.conflict 7 r.name p.name 0xFFFFFFFF)
        else if t.cut = some p.pos then .trap s1 (t.conflict 6 r.name p.name 0xFFFFFFFF)
        else
          match t.clash p r with
          | some c => .trap s1 (t.conflict 1 r.name p.name c)
          | none => s1.paSave q t ((t.put { p with pos := r.pos }).put { r with pos := p.pos }) []

/-! ### pa.apply, pa.squash, pa.snap (spec/09 R229 to R231) -/

/-- Base values of cells with one patch applied. -/
def State.applyOne (s : State) (q : Nat) (t : Tensor) (p : PEnt) : List PSlot → Try (List (Nat × BitVec 512))
  | [] => .ok s []
  | sl :: r =>
    (s.cellValue q t sl.cell 0).bind fun s1 v =>
      (s1.applyOne q t p r).bind fun s2 l => .ok s2 ((sl.cell, p.apply t.fmt sl.cell v) :: l)

/-- The open patches of another context are those of a context other than that of the patch which is applied (DEDUCED, log 85); of several
that hold it back, reason 8 names the one of the lowest entry (DESIGN CHOICE, log 96); the field earlier of reason 6 holds 0 (DESIGN
CHOICE, log 84). -/
def execPaApply (g : BitVec 7) (y z : BitVec 6) (s : State) : Result :=
  paOp g s fun s =>
    let q := s.cur.seq
    s.withClosed y z fun s1 t p =>
      if t.cut.isSome && !t.atCut p then .trap s1 (t.conflict 6 p.name 0 0xFFFFFFFF)
      else
        let held := if t.strict then t.opens.find? fun o => o.cctx != p.cctx && o.ostamp < p.cstamp else none
        match held with
        | some o => .trap s1 (t.conflict 8 p.name o.name 0xFFFFFFFF)
        | none =>
          match t.firstClash p (t.earlierThan p) with
          | some (r, c) => .trap s1 (t.conflict 4 p.name r.name c)
          | none =>
            (s1.applyOne q t p p.slots).bind fun s2 cells => s2.paSave q t (t.remove [p.num]) cells

def execPaSquash (g : BitVec 7) (y z : BitVec 6) (s : State) : Result :=
  paOp g s fun s =>
    let q := s.cur.seq
    (s.paLoad q (s.rs y)).bind fun s1 t =>
      (s1.squash q t (s.rs z).toNat).bind fun s2 r => s2.paSave q t r.1 r.2

def execPaSnap (g : BitVec 7) (y : BitVec 6) (clr : BitVec 1) (s : State) : Result :=
  paOp g s fun s =>
    let q := s.cur.seq
    (s.paLoad q (s.rs y)).bind fun s1 t =>
      s1.paSave q t { t with cut := if clr = 1#1 then none else some t.chain.length } []

/-! ### pa.xplant (spec/09 R232) -/

/-- Convert an element between formats: its bits, and whether it was inexact and saturated. -/
def convElem (f g : Fmt) (d : Nat) : Nat × Bool × Bool :=
  let (b, fl) := cvtElem g (decElem f d) .rne
  (b, fl.inexact, fl.overflow)

/-- A slot carried to another format. -/
def PSlot.carry (s : PSlot) (f g : Fmt) (idx : Nat) : PSlot × Bool × Bool :=
  let z := Fmt.bits f / 8
  let y := Fmt.bits g / 8
  (s.deltas z).foldl (fun (a : PSlot × Bool × Bool) e =>
      let (b, ix, sat) := convElem f g e.2
      ({ a.1 with pay := elemPut a.1.pay y e.1 b, mask := a.1.mask ||| byteMask (y * e.1) y }, a.2.1 || ix, a.2.2 || sat))
    ({ idx := idx, cell := s.cell, pay := 0#512, pre := 0#512, mask := 0#64 }, false, false)

/-- The ostamp of the new patch, which no pa.open opened, is the destination's stamp before its close (DESIGN CHOICE, log 95). -/
def execPaXplant (g : BitVec 7) (x y z : BitVec 6) (s : State) : Result :=
  paOp g s fun s =>
    let q := s.cur.seq
    let name := (s.rs z).toNat / 2 ^ 32
    (s.paLoad q (s.rs x)).bind fun s0 d =>
      (s0.paLoad q (s.rs y)).bind fun s1 t =>
        if d.rows ≠ t.rows || d.cols ≠ t.cols || d.cb / d.z ≠ t.cb / t.z then .trap s1 paTrap
        else
          match t.closedNamed ((s.rs z).toNat % 2 ^ 32) with
          | none => .trap s1 paTrap
          | some p =>
            match d.newName name with
            | .error e => .trap s1 e
            | .ok n =>
              let free := d.takeSlots p.slots.length
              if free.length < p.slots.length then .trap s1 (d.full 2)
              else
                let cs := (p.slots.zip free).map fun e => e.1.carry t.fmt d.fmt e.2
                let torn := p.kind = 0 && p.slots.any fun sl => sl.torn t.z
                let fl := (if torn || cs.any (·.2.1) then 2 else 0) ||| (if cs.any (·.2.2) then 4 else 0)
                let e : PEnt := { num := n, name := name, kind := p.kind, closed := false, ostamp := d.stamp,
                                  cctx := s.ctxOf q, slots := cs.map (·.1) }
                (s1.closeAs q { d with sflags := d.sflags ||| fl } e e false).bind fun s2 d1 => s2.paSave q d d1 []

/-! ### pa.norm and pa.query (spec/09 R233, R234) -/

def execPaNorm (g : BitVec 7) (x y : BitVec 6) (f : BitVec 4) (s : State) : Result :=
  slotOp g s fun s =>
    let q := s.cur.seq
    paDo s ((s.paLoad q (s.rs y)).bind fun s1 t =>
      let a := t.normrec
      (s1.paRead q false (a + 0x40#64) 48).bind fun s2 v =>
        (s2.paRead q false (a + 0x80#64) 32).bind fun s3 l =>
          let k := f.toNat
          if k < 4 then .ok s3 (BitVec.ofNat 64 (l / 2 ^ (64 * k)))
          else if k = 4 then .ok s3 (BitVec.ofNat 64 (v / 2 ^ 320))
          else if k = 5 then .ok s3 (BitVec.ofNat 64 (fp32F.enc (fp32F.cvt (.fin false l (-128)) .rne).1))
          else
            let nf := v / 2 ^ 256 % 2 ^ 64
            (s3.paWrite q false (a + 0x80#64) (leBytes v 32)).bind fun s4 _ =>
              (s4.paWrite q false (a + 0x68#64) (leBytes nf 8)).bind fun s5 _ =>
                if k = 9 then (s5.paWrite q false (a + 0x40#64) (leBytes 0 40)).bind fun s6 _ => .ok s6 (BitVec.ofNat 64 nf)
                else .ok s5 (BitVec.ofNat 64 nf)) fun s1 w => (s1.awaitS x w).toEngine

/-- The patch word of R234. -/
def Tensor.patchWord (t : Tensor) (p : PEnt) : Nat :=
  p.slots.length * 2 ^ 32 +
    (if p.closed && t.atCut p then 2 ^ 17 else 0) +
    (if p.inv then 2 ^ 16 else 0) + (if p.kept then 2 ^ 15 else 0) + p.kind * 2 ^ 13 +
    (if p.closed then 2 else 1) * 2 ^ 10 + p.pos

def execPaQuery (g : BitVec 7) (x y z : BitVec 6) (s : State) : Result :=
  slotOp g s fun s =>
    let q := s.cur.seq
    let name := (s.rs z).toNat % 2 ^ 32
    paDo s ((s.paLoad q (s.rs y)).bind fun s1 t =>
      .ok s1 (BitVec.ofNat 64 (if name = 0 then t.statusWord
        else match t.named name with | some p => t.patchWord p | none => 0))) fun s1 w => (s1.awaitS x w).toEngine

end Sys2Proof.Machine
end

