-- ==== Sys2Proof/Machine/StoreQueue.lean ====
section
/-! DEFINITION. Performing the entries of the store queues (spec/07 R180, spec/08 R189 to R193). -/

namespace Sys2Proof.Machine

/-- The other store queue. -/
def otherSlot (slot : Nat) : Nat := if slot = 1 then 2 else 1

/-- What an entry does, apart from a release. -/
def State.performAct (s : State) (q : Nat) (a : StoreAct) : State :=
  match a with
  | .plain es => es.foldl (fun s e => s.storePlain q e) s
  | .loc es cov => es.foldl (fun s e => s.storeLoc q cov e) s
  | .red va op v => (s.onScoped q va fun old => atop op old v).1
  | .hal op => s.sendHal q (s.ctxOf q) op
  | .start _ _ _ _ => s

/-- What keeps a write of an entry from being performed (spec/18 R372, R376, spec/20 R398, R402, R406). -/
def State.actGate (s : State) (q : Nat) (a : StoreAct) : Option (State × List Instr) :=
  let gate := fun va => s.writeGate (dieOf q) (s.ctxOf q) va
  match a with
  | .plain es => es.findSome? fun e => gate (BitVec.ofNat 64 e.addr)
  | .red va _ _ => s.scopedGate q va
  | .loc _ _ | .hal _ | .start _ _ _ _ => none

/-- Whether an atomic on a scoped copy comes before an entry: an earlier one before any reduction, and before a store to its bytes (spec/08
R190, R192). -/
def State.atFirst (s : State) (q : Nat) (e : StoreEnt) : Bool :=
  match e.act with
  | .red _ _ _ => (s.seq q).f.scopedAts.any fun a => a.bn < e.bn
  | .plain es => es.any fun x => s.atMeets q e.bn x.addr x.size
  | .loc _ _ | .hal _ | .start _ _ _ _ => false

/-- The entry at the head of a queue is performed. A release beyond its core pushes its own line outward as well (DEDUCED, log 33). -/
def State.performHead (s : State) (q slot : Nat) (e : StoreEnt) : Result :=
  let s1 := s.performAct q e.act
  match e.rel with
  | none | some .cr => .next (s1.dropStore q slot)
  | some sc =>
    match (if sc = .cl then none else s1.relGate (coreOf q) (s.ctxOf q)) with
    | some (s2, evs) => .next (({ s with mem := { s.mem with bisnp := s2.mem.bisnp } } : State).stallOn evs)
    | none => .next ((s1.release (coreOf q) (s.ctxOf q) sc).dropStore q slot)

/-- STORE_PERFORM. An older store of the other queue to one of the bytes is performed first, and so is an earlier atomic on a
scoped copy. -/
def execStorePerform (q : Nat) (slot : Nat) (s : State) : Result :=
  let f := (s.seq q).f
  match if slot = 1 then f.storeB else if slot = 2 then f.storeC else [] with
  | [] => .next s
  | e :: _ =>
    let isStart := match e.act with | .start _ _ _ _ => true | _ => false
    if isStart then .next { s with agenda := .copyStart q :: s.agenda }
    else if s.olderClash q slot e then .next { s with agenda := .storePerform q (otherSlot slot) :: s.agenda }
    else if s.atFirst q e then .next { s with agenda := .scopedAtomicExecute q :: s.agenda }
    else
      match s.actGate q e.act with
      | some (s1, evs) => .next (s1.stallOn evs)
      | none => s.performHead q slot e

end Sys2Proof.Machine
end

