-- ==== Sys2Proof/Machine/Graph.lean ====
section
/-! DEFINITION. Task graphs and launches: reading a launch block and a kernel image, dispatch, firing, the graph instructions,
and the end of a launch (spec/12 R272 to R289, spec/14 R308 to R313). -/

namespace Sys2Proof.Machine

/-! ### What the command stream reads -/

/-- A word of plain memory as the command stream reads it for a context; none when it cannot be read. -/
def State.csWord (s : State) (ctx : Nat) (va : Word) : Option Word :=
  match s.translate 0 ctx va { cls := pcMem } with
  | (_, .error _) => none
  | (s1, .ok t) =>
    if eNc t.e2 then some (s1.ncRead t.pa 8)
    else
      if s1.homeBad (lineOf t.pa) then none else some ((s1.useKey t).engWord t.pa)

/-- The errors of the line at an address, as the command stream meets them before it reads (spec/18 R379, R380). -/
def State.csMeet (s : State) (ctx : Nat) (va : Word) : State :=
  match s.translate 0 ctx va { cls := pcMem } with
  | (s1, .ok t) => if !eNc t.e2 && s1.homeBad (lineOf t.pa) then s1.meetQuiet (lineOf t.pa) ctx else s
  | (_, .error _) => s

/-- n words from an address on. -/
def State.csWords (s : State) (ctx : Nat) (va : Word) : Nat → Option (List Word)
  | 0 => some []
  | n + 1 => (s.csWord ctx va).bind fun w => (s.csWords ctx (va + 8#64) n).map (w :: ·)

/-- Whether a read of the command stream waits: an entry of its walk, its line's home or its window is reached by no port (spec/20 R402,
R405). -/
def State.csHeld (s : State) (ctx : Nat) (va : Word) : Bool :=
  s.walkHeld 0 ctx va false || match s.translate 0 ctx va { cls := pcMem } with
    | (s1, .ok t) => if eNc t.e2 then !s1.winReady t.pa else !s1.routed (paDev t.pa)
    | (_, .error _) => false

/-- The same of n bytes from an address on, page by page. -/
def State.csRangeHeld (s : State) (ctx : Nat) (r : Word × Nat) : Bool :=
  (List.range (r.2 / 65536 + 2)).any fun i => s.csHeld ctx (r.1 + BitVec.ofNat 64 (min (65536 * i) (r.2 - 1)))

/-- The command stream reads n bytes from an address on: each line passes the memory-side cache of its home, and counts there (spec/18 R390,
spec/22 R424). -/
def State.csRead (s : State) (ctx : Nat) (r : Word × Nat) : State :=
  (List.range ((r.1.toNat % 64 + r.2 + 63) / 64)).foldl (fun s i =>
    let va := r.1 + BitVec.ofNat 64 (64 * i)
    match s.translate 0 ctx va { cls := pcMem } with
    | (s1, .ok t) => if eNc t.e2 then s1.winTraffic ctx t.pa 64 else s1.mscTouch (lineOf t.pa) ctx pcMem false false
    | (_, .error _) => s) s

/-! ### Groups of a context (spec/15 R324) -/

/-- The groups whose bound sets hold a context, in ascending handle. -/
def State.boundGroups (s : State) (ctx : Nat) : List (Nat × Group) :=
  s.groups.filter fun e => e.2.mode != .absent && e.2.bound.contains ctx

/-- The cores of those groups, ascending. -/
def State.boundCores (s : State) (ctx : Nat) : List Nat := ((s.boundGroups ctx).map fun e => e.1 / 16).dedup

/-- The group of a context that holds a quadrant. -/
def State.boundAt (s : State) (ctx q : Nat) : Option (Nat × Group) :=
  (s.boundGroups ctx).find? fun e => e.1 / 16 == coreOf q && (e.1 % 16).testBit (quadOf q)

/-- The lowest group of a context on a core, whose channel 15 serves its copy nodes (spec/15 R322). -/
def State.lowGroup (s : State) (ctx core : Nat) : Option (Nat × Group) :=
  (s.boundGroups ctx).find? fun e => e.1 / 16 == core

/-- Whether a context is loaded and runs on a group. -/
def Group.runs (g : Group) (ctx : Nat) : Bool := g.mode == .running && g.ctx == ctx

/-! ### Launch blocks and kernel images (spec/12 R272 to R277) -/

/-- The header of R272. -/
def headerOk (h : Nat → Word) : Bool :=
  h 0 == 0x1314E5844#64 && (h 1).toNat % 16 == 0 && (h 2).toNat % 16 == 0 && (h 3).toNat % 16 == 0 &&
    decide (1 ≤ (h 4).toNat) && decide ((h 4).toNat ≤ 65535) && h 7 == 0#64

/-- The graph entry of R273. -/
def graphOk (e0 e1 : Word) : Bool :=
  decide (1 ≤ fieldOf e0 32 16) && fieldOf e0 0 32 % 32 == 0 && decide (fieldOf e0 48 16 < fieldOf e0 32 16) &&
    e1.toNat / 65536 == 0 && decide (1 ≤ fieldOf e1 0 16) && decide (fieldOf e1 0 16 ≤ 4096)

def succsOf (w : Word) : List Nat := [fieldOf w 0 16, fieldOf w 16 16, fieldOf w 32 16, fieldOf w 48 16]

/-- Successor number that means none. -/
abbrev noSucc : Nat := 0xFFFF

/-- Whether a node descriptor is well formed (spec/12 R274, R275). -/
def descWellFormed (w0 w1 w2 w3 : Word) (codesz nodes vcores : Nat) : Bool :=
  let kind := fieldOf w0 0 3
  let su := succsOf w1
  decide (kind < 5) && fieldOf w0 32 32 == 0 && w3 == 0#64 && decide (fieldOf w0 5 3 ≤ 4) &&
    decide (fieldOf w0 16 16 < vcores) && (su.all fun n => n == noSucc || n < nodes) &&
    (if kind = 0 then fieldOf w2 32 32 == 0 && decide (fieldOf w2 0 32 < codesz / 16) else fieldOf w0 3 2 == 0) &&
    (!(kind == 2 || kind == 3) || (su.drop 2).all (· == noSucc)) && (kind != 4 || w2 == 0#64)

/-- The node that a descriptor gives on the cores of a context. -/
def nodeOf (cores : List Nat) (w0 w1 w2 : Word) : Node :=
  { kind := fieldOf w0 0 3, core := cores.getD (fieldOf w0 16 16) 0, die := dieOfCore (cores.getD (fieldOf w0 16 16) 0), q := fieldOf w0 3 2, pred := fieldOf w0 8 8,
    scope := (scopeOf (w0.extractLsb' 5 3)).getD .sy, succ := succsOf w1, arg := w2, w := w2 }

/-- Go through a node table four words at a time. -/
def eachNode {α : Type} (f : Word → Word → Word → Word → α) : List Word → List α
  | a :: b :: c :: d :: t => f a b c d :: eachNode f t
  | _ => []

/-- The handle of the arrival pennant of a node (spec/12 R277). -/
def arrivalOf (abase die n : Nat) : BitVec 32 := BitVec.ofNat 32 (die * 2 ^ 28 + abase + n)

/-- Whether an arrival pennant lies in the context's window on the die of its node. -/
def State.arrivalOk (s : State) (ctx abase die n : Nat) : Bool :=
  decide (abase + n < 2 ^ 28) && s.penOk ctx (arrivalOf abase die n)

/-- The lowest refusal code of some causes. -/
def lowestCode (cs : List (Nat × Bool)) : Option Nat := (cs.find? fun c => c.2).map (·.1)

/-- The launch that a block describes, or the code of its refusal (spec/12 R275, R277, spec/14 R313). A graph table or node
table that cannot be read counts as malformed, and a graph number that the image does not hold as a bad image (DESIGN CHOICE, log 16); `pool` is the child pool that bounds the reserve of a ring entry. -/
def State.plan (s : State) (queue ctx : Nat) (blk : List Word) (pool : Option Nat) : Except Nat Launch :=
  let w := fun i => blk.getD i 0#64
  let img := w 0
  match s.csWords ctx img 8 with
  | none => .error 8
  | some hs =>
    let h := fun i => hs.getD i 0#64
    let gsel := fieldOf (w 2) 0 16
    if img.toNat % 4096 ≠ 0 || !headerOk h || (h 4).toNat ≤ gsel then .error 1
    else
      match s.csWords ctx (img + h 3 + BitVec.ofNat 64 (16 * gsel)) 2 with
      | some [e0, e1] =>
        if !graphOk e0 e1 then .error 1
        else
          let nodes := fieldOf e0 32 16
          let vcores := fieldOf e1 0 16
          let cores := s.boundCores ctx
          let r := fieldOf (w 2) 16 4
          let abase := fieldOf (w 3) 0 28
          let table := s.csWords ctx (img + BitVec.ofNat 64 (fieldOf e0 0 32)) (4 * nodes)
          let ws := table.getD []
          let ns := eachNode (fun a b c _ => nodeOf cores a b c) ws
          let causes :=
            [ (2, decide (cores.length < vcores)),
              (3, cores.any fun c => 256 < (ns.filter fun n => n.core == c).length),
              (4, ns.any fun n => n.kind == 0 && (s.boundAt ctx (4 * n.core + n.q)).isNone),
              (5, table.isNone || (eachNode (fun a b c d => descWellFormed a b c d (h 2).toNat nodes vcores) ws).any (!·)),
              (6, ns.any fun n => n.kind == 3 && n.pred == 0),
              (7, ns.zipIdx.any fun n => !s.arrivalOk ctx abase n.1.die n.2),
              (10, match pool with | some p => decide (p < r) | none => false) ]
          match lowestCode causes with
          | some c => .error c
          | none =>
            .ok { queue := queue, ctx := ctx, params := w 1, code := img + h 1, abase := abase, tmpl := w 4, done := w 7,
                  r := r, exit := fieldOf e0 48 16, nodes := ns, cores := (ns.map (·.core)).dedup }
      | _ => .error 1

/-! ### Dispatch (spec/14 R308 to R313) -/

/-- The launch at the head of a queue: a child before a ring entry; whether it is a child, and its block if it can be
read. -/
def State.headBlock (s : State) (n : Nat) : Option (Bool × Option (List Word)) :=
  let q := s.queue n
  if q.mode = .active || q.mode = .paused then
    match q.children with
    | b :: _ => some (true, some b)
    | [] =>
      if q.mode = .active && q.head != q.tail then
        some (false, s.csWords q.ctx (q.ring + BitVec.ofNat 64 (64 * (q.head.toNat % 2 ^ q.lsize))) 8)
      else none
  else none

/-- Whether the wait pennant of a block has reached its target; a handle outside the context's window never does. -/
def State.waitReached (s : State) (ctx : Nat) (blk : List Word) : Bool :=
  let h : BitVec 32 := (blk.getD 5 0#64).setWidth 32
  h == 0#32 || (s.penOk ctx h && (blk.getD 6 0#64).ule (s.pennant h).count)

/-- Running launches of a queue. -/
def State.launchesOf (s : State) (n : Nat) : List (Nat × Launch) := s.launches.filter fun e => e.2.queue == n

/-- Child slots that a queue has not promised or filled (spec/14 R312). -/
def State.freeSlots (s : State) (n : Nat) : Int :=
  let q := s.queue n
  let promised : Nat := (s.launchesOf n).foldl (fun a e => a + (e.2.r - e.2.used)) 0
  (q.cpool : Int) - ((q.children.length + promised : Nat) : Int)

/-- Whether the walker of a core holds the nodes of a context: those of a saved one stand in its save area (spec/16 R335). -/
def State.walks (s : State) (ctx core : Nat) : Bool :=
  s.groups.any fun e => e.1 / 16 == core && e.2.ctx == ctx && (e.2.mode == .loading || e.2.mode == .running || e.2.mode == .saving)

/-- Whether every walker has room for the nodes of a launch (spec/14 R312). -/
def State.walkersHaveRoom (s : State) (l : Launch) : Bool :=
  l.cores.all fun c =>
    let on := fun (x : Launch) => (x.nodes.filter fun n => n.core == c).length
    s.launches.foldl (fun a e => if s.walks e.2.ctx c then a + on e.2 else a) (on l) ≤ 256

/-- Whether a context is loaded on every group of its placement (spec/14 R312, R441). -/
def State.loadedAll (s : State) (ctx : Nat) : Bool := (s.boundGroups ctx).all fun e => e.2.runs ctx

/-- The conditions of R312 but for the loading of the context: the launch that is ready. -/
def State.readyLaunch (s : State) (n : Nat) : Option (Bool × Launch) :=
  match s.headBlock n with
  | some (child, some blk) =>
    let q := s.queue n
    if s.waitReached q.ctx blk then
      match s.plan n q.ctx blk (if child then none else some q.cpool) with
      | .ok l => if (child || (l.r : Int) ≤ s.freeSlots n) && s.walkersHaveRoom l then some (child, l) else none
      | .error _ => none
    else none
  | _ => none

/-! ### Work for a group (spec/14 R315) -/

/-- Where the saved images of a context stand now, and where: nothing moves while it is bound to all their groups; otherwise they go to
the groups of the same number and masks that do not run it, paired in ascending handle order; none without such groups (spec/16 R353,
spec/15 R328). -/
def State.moves (s : State) (ctx : Nat) : Option (List (Nat × Nat)) :=
  let old := (s.ctx ctx).images.map (·.1)
  let bound := (s.boundGroups ctx).filter fun e => !(e.2.ctx == ctx && e.2.mode == .loading)
  if old.all fun h => (s.boundGroups ctx).any fun e => e.1 == h then some []
  else
    let free := (bound.filter fun e => !(e.2.ctx == ctx && (e.2.mode == .running || e.2.mode == .saving))).map (·.1)
    if old.map maskOf = free.map maskOf then some (old.zip free) else none

/-- Whether the images of a context can be loaded on a group: while they move, on those that they move to. -/
def State.fits (s : State) (gh ctx : Nat) : Bool :=
  let m := (s.ctx ctx).moving
  if m.isEmpty then (s.moves ctx).isSome else m.any fun p => p.2 == gh

/-- Whether a context may be loaded on a group: bound, of the owner who holds the group, with a save area there (spec/15
R324, spec/16 R335). -/
def State.mayLoad (s : State) (gh : Nat) (g : Group) (ctx : Nat) : Bool :=
  let c := s.ctx ctx
  g.bound.contains ctx && s.fits gh ctx && (c.mode == .ready || c.mode == .active) && (Tab.get? c.areas gh).isSome && !g.dpend && !g.rpend &&
    c.owner == (if g.lent then g.borrower else g.owner)

/-- A piece of work for a group: the class, the queue, its context and owner, and whether it is a dispatchable head. -/
structure Work where
  cls : Nat
  queue : Nat
  ctx : Nat
  owner : Nat
  ready : Bool
  deriving DecidableEq, Repr

/-- The work for a group: queues with a dispatchable head, and queues with a running launch whose context is not loaded there. -/
def State.work (s : State) (gh : Nat) (g : Group) : List Work :=
  s.queues.filterMap fun e =>
    let q := e.2
    if q.mode = .free || !s.mayLoad gh g q.ctx then none
    else
      let ready := (s.readyLaunch e.1).isSome
      let saved := !(s.launchesOf e.1).isEmpty && !g.runs q.ctx
      if ready || saved then some { cls := q.prio, queue := e.1, ctx := q.ctx, owner := (s.ctx q.ctx).owner, ready := ready }
      else none

/-- Whether an owner has work for some group: a dispatchable head, or a running launch whose context is not loaded on a group to which it is
bound. -/
def State.hasWork (s : State) (o : Nat) : Bool :=
  s.queues.any fun e =>
    let gs := s.boundGroups e.2.ctx
    e.2.mode != .free && (s.ctx e.2.ctx).owner == o &&
      ((!gs.isEmpty && (s.readyLaunch e.1).isSome) || (!(s.launchesOf e.1).isEmpty && gs.any fun g => !g.2.runs e.2.ctx))

/-- Owners whose last work has ended since a state have D set to 0. -/
def State.workEnded (s before : State) : State :=
  s.owners.foldl (fun t e =>
    if before.hasWork e.1 && !s.hasWork e.1 then t.setOwner e.1 { t.owner e.1 with d := 0 } else t) s

/-- Whether the loaded context of a group runs a launch. -/
def State.hasLaunch (s : State) (ctx : Nat) : Bool := s.launches.any fun e => e.2.ctx == ctx

/-- The head of a queue is consumed. -/
def Queue.consume (q : Queue) (child : Bool) : Queue :=
  if child then { q with children := q.children.drop 1 } else { q with head := q.head + 1#32 }

/-- A refused launch halts its queue; what waits there as a child is discarded (spec/14 R309, R310, R313). -/
def State.refuseLaunch (s : State) (n : Nat) (child : Bool) (code : Nat) : State :=
  let q := s.queue n
  let s1 := s.setQueue n
    { q.consume child with
      mode := .halted, rcode := BitVec.ofNat 8 code, eidx := if child then 0xFFFFFFFF#32 else q.head, children := [] }
  s1.workEnded s

/-- An identifier of no running launch. -/
def State.freshLaunch (s : State) : Nat := s.launches.foldl (fun m e => max m (e.1 + 1)) 0

/-- Dispatch: instruction caches of the cores are invalidated, walkers loaded with the bases of their nodes, and an acquire at
.sy performed on every core (spec/12 R278). What step 5 sets on a sequencer is set when it begins its first node. -/
def State.dispatch (s : State) (n : Nat) (child : Bool) (l : Launch) : State :=
  let s1 := s.setQueue n ((s.queue n).consume child)
  let nodes := l.nodes.zipIdx.map fun e => { e.1 with base := (s1.pennant (arrivalOf l.abase e.1.die e.2)).count }
  let s2 := { s1 with
    launches := Tab.put s1.launches s1.freshLaunch { l with nodes := nodes }
    groups := s1.groups.mapv fun _ g => if g.runs l.ctx then { g with held := false } else g }
  l.cores.foldl (fun s c => (s.setCore c { s.core c with icache := [] }).bump c .sy) s2

/-- A group of a context that has no running launch and on which no choice has fallen on it since: the command stream chooses there
before it dispatches (spec/14 R315). -/
def State.unchosen (s : State) (ctx : Nat) : Option Nat :=
  if s.hasLaunch ctx then none
  else ((s.boundGroups ctx).find? fun e => !e.2.held || e.2.rung != 0).map (·.1)

/-- What a dispatch reads of an image: its header, a graph entry, and the node table, as far as they can be read. -/
def State.imageRanges (s : State) (ctx : Nat) (blk : List Word) : List (Word × Nat) :=
  let img := blk.getD 0 0#64
  (img, 64) :: match s.csWords ctx img 8 with
    | none => []
    | some hs =>
      let at_ := img + hs.getD 3 0#64 + BitVec.ofNat 64 (16 * fieldOf (blk.getD 2 0#64) 0 16)
      (at_, 16) :: match s.csWords ctx at_ 2 with
        | some (e0 :: _) => [(img + BitVec.ofNat 64 (fieldOf e0 0 32), 32 * fieldOf e0 32 16)]
        | _ => []

/-- The ring entry at the head of a queue. -/
def State.entryRange (s : State) (n : Nat) : Word × Nat :=
  let q := s.queue n
  (q.ring + BitVec.ofNat 64 (64 * (q.head.toNat % 2 ^ q.lsize)), 64)

/-- Whether what a dispatch reads cannot be reached yet. -/
def State.headHeld (s : State) (n : Nat) : Bool :=
  let q := s.queue n
  (q.children.isEmpty && s.csRangeHeld q.ctx (s.entryRange n)) || match s.headBlock n with
    | some (_, some blk) => (s.imageRanges q.ctx blk).any (s.csRangeHeld q.ctx)
    | _ => false

/-- The reads of a dispatch, or of a refusal, pass the caches. -/
def State.csTook (s : State) (n : Nat) (child : Bool) (blk : List Word) : State :=
  let ctx := (s.queue n).ctx
  ((if child then [] else [s.entryRange n]) ++ s.imageRanges ctx blk).foldl (fun s r => s.csRead ctx r) s

/-- The lines that a dispatch reads first: a ring entry, and the header of its image. -/
def State.csMeetHead (s : State) (n : Nat) : State :=
  let q := s.queue n
  let s1 := s.csMeet q.ctx (q.ring + BitVec.ofNat 64 (64 * (q.head.toNat % 2 ^ q.lsize)))
  match s1.headBlock n with
  | some (_, some blk) => s1.csMeet q.ctx (blk.getD 0 0#64)
  | _ => s1

/-- LAUNCH_DISPATCH. A refusal is judged once the wait pennant has reached its target, for its image may be the work of the
launch that it waits for. -/
def execLaunchDispatch (n : Nat) (s0 : State) : Result :=
  let s := if (s0.headBlock n).isSome then s0.csMeetHead n else s0
  match s.headBlock n with
  | none => .next s
  | some (child, none) => .next (if s.headHeld n then s else s.refuseLaunch n child 8)
  | some (child, some blk) =>
    let q := s.queue n
    if !s.waitReached q.ctx blk || s.headHeld n then .next s
    else
      match s.plan n q.ctx blk (if child then none else some q.cpool) with
      | .error c => .next ((s.csTook n child blk).refuseLaunch n child c)
      | .ok l =>
        if (child || (l.r : Int) ≤ s.freeSlots n) && s.walkersHaveRoom l && s.loadedAll q.ctx then
          match s.unchosen q.ctx with
          | some gh => .next { s with agenda := .schedDecision gh :: s.agenda }
          | none => .next (((s.csTook n child blk).dispatch n child l).workEnded s)
        else .next s

/-! ### Virtual functions and their TDIs (spec/20 R400) -/

def State.tdi (s : State) (vf : Nat) : Tdi := Tab.getD s.link.tdi vf {}
def State.setTdi (s : State) (vf : Nat) (x : Tdi) : State := { s with link := { s.link with tdi := Tab.put s.link.tdi vf x } }

/-- The virtual function that a queue belongs to: the one bound to its context's owner. -/
def State.queueVf (s : State) (q : Queue) : Option Nat :=
  let o := s.owner (s.ctx q.ctx).owner
  if q.mode != .free && o.used && decide (1 ≤ o.fn) && decide (o.fn ≤ 63) then some o.fn else none

/-- A TDI enters ERROR, and its queues are paused as QPAUSE pauses them. -/
def State.tdiError (s : State) (vf : Nat) : State :=
  let s1 := s.setTdi vf { s.tdi vf with mode := .error }
  ({ s1 with queues := s1.queues.mapv fun _ (q : Queue) =>
      if q.mode = QMode.active && s1.queueVf q == some vf then { q with mode := .paused } else q } : State).workEnded s

/-- A write to a locked register of a TDI: performed, or dropped (spec/20 R400). -/
def State.lockedWrite (s : State) (vf : Nat) (perform : State → State) : State :=
  match (s.tdi vf).mode with
  | .unlocked => perform s
  | .locked | .run => s.tdiError vf
  | .error => s

/-- QUEUE_TAIL_WRITE: a tail that would pass the ring is ignored, and a free queue has no ring (spec/14 R308). The doorbell page of
a TDI's queue is a locked register of it (DEDUCED, log 44). -/
def execQueueTailWrite (n : Nat) (tail : BitVec 32) (s : State) : Result :=
  let q := s.queue n
  if 256 ≤ n || q.mode = .free then .next s
  else if (match s.queueVf q with | some vf => (s.tdi vf).mode != TdiMode.unlocked | none => false) then
    .next (s.lockedWrite ((s.queueVf q).getD 0) id)
  else if 2 ^ q.lsize < (tail - q.head).toNat then .next s
  else .next ((s.setQueue n { q with tail := tail }).workEnded s)

/-! ### Nodes on sequencers (spec/12 R278 step 5, R287, R288) -/

def State.launch? (s : State) (l : Nat) : Option Launch := Tab.get? s.launches l
def State.setLaunch (s : State) (l : Nat) (x : Launch) : State := { s with launches := Tab.put s.launches l x }
def Launch.node? (l : Launch) (n : Nat) : Option Node := l.nodes[n]?
def Launch.setNode (l : Launch) (n : Nat) (x : Node) : Launch := { l with nodes := l.nodes.set n x }

/-- The region of a sequencer is closed: a commit that waits takes effect, an open region is dropped. -/
def State.closeRegion (s : State) (q : Nat) : State :=
  let ls := s.regionLines q
  let c := s.core (coreOf q)
  let commit := match (s.seq q).c.region.fin with | some (_, b) => b | none => false
  s.setCore (coreOf q) { c with live := if commit then toggle c.live ls else c.live, region := c.region.filter fun l => !ls.contains l }

/-- What the nodes of its last launch leave on a sequencer, put away with what others left; results on their way count as arrived. -/
def Seq.putAway (x : Seq) : Tab Kept :=
  match x.c.lastLaunch with
  | none => x.c.kept
  | some l => Tab.put x.c.kept l
      { r := x.r, fmt := x.c.fmt, ports := x.f.ports
        lq := (x.f.lq.filter fun e => e.pop.isNone).map fun e => { e with val := e.val.orElse fun _ => e.coming, coming := none } }

/-- The registers of a node whose launch another one's node came before: those of step 5 at its first node here, else what its last
node left. Tiles, weights, D-time, the cycle count and the resumption count are not changed. -/
def Seq.forLaunch (x : Seq) (l : Nat) : Seq :=
  let kept := x.putAway
  let k := (Tab.get? kept l).getD { r := {}, fmt := {}, ports := [], lq := [] }
  { r := k.r
    c := { x.c with loops := [], region := {}, fmt := k.fmt, kept := Tab.erase kept l }
    f := { x.f with outs := [], divu := none, asks := [], lq := k.lq, ports := k.ports } }

/-- Open patches whose ports nothing holds any more, with the group: they stay open, and the end of their context drops them (spec/09 R211,
R236). -/
def State.leave (s : State) (ctx gh : Nat) (ps : Tab Port) : State :=
  let open_ := (ps.filter fun p => !p.2.view).map fun p => (gh, p.2)
  if open_.isEmpty then s else let c := s.ctx ctx; s.setCtx ctx { c with left := c.left ++ open_ }

/-- The ports of a launch that has ended are unbound when another launch's node begins (spec/12 R278). -/
def State.leavePorts (s : State) (ctx q : Nat) : State :=
  match s.groupOf q with
  | some (gh, _) => if (s.seq q).c.lastLaunch.isNone then s.leave ctx gh (s.seq q).f.ports else s
  | none => s

/-- A sequencer begins a compute node, as a new group. -/
def State.beginNode (s : State) (q : Nat) (run : NodeRun) : State :=
  match s.launch? run.launch with
  | none => s
  | some l =>
    let other := (s.seq q).c.lastLaunch != some run.launch
    let s1 := if other then (s.leavePorts l.ctx q).closeRegion q else s
    let x := if other then (s1.seq q).forLaunch run.launch else s1.seq q
    let entry := match l.node? run.node with | some n => fieldOf n.arg 0 32 | none => 0
    let r := ((x.r.setS 1#6 l.params).setS 2#6 (BitVec.ofNat 64 run.node)).setS 3#6 (BitVec.ofNat 64 run.f)
    s1.setSeq q { x with
      r := r
      c := { x.c with
        mode := .running, pc := l.code + BitVec.ofNat 64 (16 * entry), window := [], turn := none, redirect := none,
        pushed := false, late := [], replay := none, node := some run, lastLaunch := some run.launch } }

/-- Begin the next queued node, or idle. -/
def State.beginNext (s : State) (q : Nat) : State :=
  let x := s.seq q
  match x.c.queued with
  | r :: t => (s.setSeq q { x with c := { x.c with queued := t, node := none } }).beginNode q r
  | [] =>
    s.setSeq q { x with c := { x.c with mode := .idle, node := none, window := [], turn := none, redirect := none, pushed := false, late := [] } }

/-! ### Arrivals (spec/12 R282) -/

/-- Who adds for the walker of a core. -/
abbrev walkerOf (core : Nat) : Nat := 16384 + core
/-- Who adds for the command stream. -/
abbrev commandStream : Nat := 32768

/-- Raise some successors of a node. -/
def State.raiseAll (s : State) (by_ : Nat) (l : Launch) (targets : List Nat) : State :=
  targets.foldl (fun s t =>
    match l.node? t with
    | some n => s.sendHal by_ l.ctx (.add (arrivalOf l.abase n.die t) 1#64 false)
    | none => s) s

/-- A firing of a node completes. -/
def State.nodeComplete (s : State) (l n : Nat) : State :=
  match s.launch? l with
  | none => s
  | some x =>
    match x.node? n with
    | none => s
    | some y => s.setLaunch l (x.setNode n { y with act := y.act - 1, done := y.done + 1 })

/-! ### Firing (spec/12 R281 to R284, spec/16 R337) -/

/-- The count of arrivals that the next firing of a node needs, above its base. -/
def Node.need (n : Node) : Nat := if n.kind = 3 then n.pred + n.f else n.pred * (n.f + 1)

/-- Whether the arrivals of a node's next firing are in. -/
def State.arrived (s : State) (l : Launch) (i : Nat) (n : Node) : Bool :=
  if n.pred = 0 then n.f == 0
  else decide (n.need ≤ ((s.pennant (arrivalOf l.abase n.die i)).count - n.base).toNat)

/-- Whether the groups let a node fire: its context runs there, and a compute or copy node is not deferred by a pre-emption. -/
def State.mayFire (s : State) (l : Launch) (n : Node) : Bool :=
  match n.kind with
  | 0 => match s.boundAt l.ctx (4 * n.core + n.q) with | some (_, g) => g.runs l.ctx && g.rung == 0 | none => false
  | 1 =>
    match s.lowGroup l.ctx n.core with
    | some (gh, g) => g.runs l.ctx && g.rung == 0 && decide ((s.chan n.core (maskOf gh * 16 + 15)).copies.length < 8)
    | none => false
  | _ => (s.boundGroups l.ctx).any fun e => e.1 / 16 == n.core && e.2.runs l.ctx

/-- Whether a node that may still fire finds its arrival pennant latched (spec/12 R283). -/
def State.arrivalLatched (s : State) (l : Launch) (i : Nat) (n : Node) : Bool :=
  (n.pred != 0 || n.f == 0) && (s.pennant (arrivalOf l.abase n.die i)).latch

/-- The fault that a walker reports (spec/12 R283, spec/11 R254). -/
def State.latchedRecord (s : State) (l : Launch) (i : Nat) (n : Node) : Record :=
  { kind := 0, slot := 7, trap := s.latchTrap (arrivalOf l.abase n.die i) (n.base + BitVec.ofNat 64 n.need),
    place := BitVec.ofNat 64 i, resume := 0#64, cycle := 0#32 }

/-- A node fires: what it does by kind. -/
def State.fire (s : State) (li : Nat) (l : Launch) (i : Nat) (n : Node) : Result :=
  let s1 := (s.bump n.core n.scope).setLaunch li (l.setNode i { n with f := n.f + 1, act := n.act + 1 })
  match n.kind with
  | 0 =>
    let q := 4 * n.core + n.q
    let run : NodeRun := { launch := li, node := i, f := n.f }
    let x := s1.seq q
    .next (if x.c.mode = .idle then s1.beginNode q run
      else s1.setSeq q { x with c := { x.c with queued := x.c.queued ++ [run] } })
  | 1 =>
    let mask := match s.lowGroup l.ctx n.core with | some (gh, _) => maskOf gh | none => 0
    let key := mask * 16 + 15
    let ch := s1.chan n.core key
    let c : Copy := { ctx := l.ctx, queue := l.queue, launch := li, node := some i, q := 4 * n.core + (quads mask).headD 0,
                      words := [], jsrc := fieldOf n.arg 8 28, jdst := fieldOf n.arg 36 28 }
    .next (s1.setChan n.core key { ch with copies := ch.copies ++ [c] })
  | k =>
    -- cond, while and join complete at once, after a release at the node's scope
    match (if n.scope = .cr || n.scope = .cl then none else s.relGate n.core l.ctx) with
    | some (s2, evs) => .next (s2.stallOn evs)
    | none =>
      let raised := if k = 4 then n.succ else [n.succ.getD (if n.w != 0#64 then 0 else 1) noSucc]
      .next (((s1.release n.core l.ctx n.scope).raiseAll (walkerOf n.core) l raised).nodeComplete li i)

/-- NODE_FIRE. A latch that the walker finds is reported with the words it was found with, also where the record can be written only later
(spec/12 R283). -/
def execNodeFire (l : Nat) (n : Nat) (s : State) : Result :=
  match s.launch? l with
  | none => .next s
  | some x =>
    match x.node? n with
    | none => .next s
    | some y =>
      if y.reported then .next s
      else
        match y.found.orElse fun _ => if s.arrivalLatched x n y then some (s.latchedRecord x n y) else none with
        | some r =>
          let s1 := (s.setLaunch l (x.setNode n { y with found := some r })).retryRecords x.ctx
          if (s1.heldRecords x.ctx).isEmpty then
            match s1.tryRecord (4 * y.core) x.ctx 1 r with
            | (s2, true) => .next (s2.setLaunch l (x.setNode n { y with found := some r, reported := true }))
            | (s2, false) => .next s2
          else .next s1
        | none => if s.arrived x n y && s.mayFire x y then s.fire l x n y else .next s

/-- CONDITION_WORD_WRITE (spec/12 R284, R286). -/
def execConditionWordWrite (k : Nat) (s : State) : Result :=
  s.runHal k fun s e =>
    match e.op with
    | .cond l n w =>
      let s1 := s.dropHal k
      .next (match s1.launch? l with
        | none => s1
        | some x => match x.node? n with
          | none => s1
          | some y => s1.setLaunch l (x.setNode n { y with w := w }))
    | _ => .next s

/-! ### The graph instructions (spec/12 R285 to R287) -/

/-- The trap of a graph instruction that its launch does not allow; it has no address (spec/16 R348), and word 5 names class hal and
no write (DESIGN CHOICE, log 103). -/
def graphTrap : Trap := addrTrap 0x11 0#64 { cls := pcHal } 0 0 0

/-- The compute node that a sequencer runs, with its launch and its descriptor. -/
def State.myNode (s : State) : Option (NodeRun × Launch × Node) :=
  match s.me.c.node with
  | none => none
  | some r =>
    match s.launch? r.launch with
    | none => none
    | some l => (l.node? r.node).map fun n => (r, l, n)

/-- Read words as ld.d does, the sequencer's own queued stores to them first (spec/07 R176). -/
def State.ldWords (s : State) (a : Word) : Nat → Try (List Word)
  | 0 => .ok s []
  | n + 1 =>
    match addrBad a 8 { cls := pcMem } with
    | some t => .trap s t
    | none =>
      let evs := s.meetEvents false a.toNat 8
      if !evs.isEmpty then .wait s evs
      else
        (s.plainRead s.cur.seq a 8 false { cls := pcMem }).bind fun s1 w =>
          (s1.ldWords (a + 8#64) n).bind fun s2 ws => .ok s2 (w :: ws)

/-- gr.launch: the block is read, a release performed, and the child placed; a halted or draining queue discards it
(spec/14 R310). Without a node of a launch it is refused, as gr.arrive and gr.done are (DESIGN CHOICE, log 98). -/
def execGrLaunch (g : BitVec 7) (scope : Scope) (y : BitVec 6) (s : State) : Result :=
  slotOp g s fun s =>
    match s.myNode with
    | none => .trap s graphTrap
    | some (r, l, _) =>
      if l.r ≤ l.used then .trap s graphTrap
      else
        let a := s.rs y
        match addrBad a 64 { cls := pcMem } with
        | some t => .trap s t
        | none =>
          (s.ldWords a 8).res fun s blk =>
            (s.tryRelease s.cur.seq scope (some s.cur.bn)).res fun s _ =>
              let q := s.queue l.queue
              let keep := q.mode == .active || q.mode == .paused
              let s1 := if keep then s.setQueue l.queue { q with children := q.children ++ [blk] } else s
              .done ((s1.setLaunch r.launch { l with used := l.used + 1 }).workEnded s) 1

/-- gr.cond sends a word to the walker of a cond or while node. Off a compute node it has no launch, and raises 0x11 (DESIGN CHOICE, log 98). -/
def execGrCond (g : BitVec 7) (y z : BitVec 6) (s : State) : Result :=
  slotOp g s fun s =>
    match s.myNode with
    | none => .trap s graphTrap
    | some (r, l, _) =>
      let n := (s.rs y).toNat % 65536
      match l.node? n with
      | none => .trap s graphTrap
      | some t =>
        if t.kind = 2 || t.kind = 3 then .done (s.sendHal s.cur.seq l.ctx (.cond r.launch n (s.rs z))) 1
        else .trap s graphTrap

/-- The successors that a mask selects and that this firing has not raised. -/
def NodeRun.toRaise (r : NodeRun) (n : Node) (m : BitVec 4) : List Nat :=
  n.succ.zipIdx.filterMap fun e => if m.getLsbD e.2 && !r.raised.getLsbD e.2 && e.1 != noSucc then some e.1 else none

def execGrArrive (g : BitVec 7) (m : BitVec 4) (s : State) : Result :=
  slotOp g s fun s =>
    match s.myNode with
    | none => .trap s graphTrap
    | some (r, l, n) =>
      (s.releaseHal n.scope).res fun s _ =>
        let s1 := s.raiseAll s.cur.seq l (r.toRaise n m)
        .done (s1.setCtl { s1.me.c with node := some { r with raised := r.raised ||| m } }) 1

/-- A trap or a halt in slot A of the running bundle that is still to be taken: the kind of its record, and its trap. -/
def State.dueStop (s : State) : Option (Nat × (Word → Trap)) :=
  match s.me.c.window.find? fun e => e.bn == s.cur.bn with
  | none => none
  | some e =>
    if e.mask.getLsbD 0 then none
    else
      match decodeSlot e.bits .a with
      | .ok (.trap g code) => if s.guardA g then some (0, softTrap code) else none
      | .ok (.halt g code) => if s.guardA g then some (1, haltTrap code) else none
      | _ => none

/-- The node ends: its arrivals, and the next node or none. -/
def State.endNode (s : State) (r : NodeRun) (l : Launch) (n : Node) : State :=
  let q := s.cur.seq
  let s1 := ((s.raiseAll q l (r.toRaise n 0xF#4)).retire).nodeComplete r.launch r.node
  (s1.setCtl { s1.me.c with loops := [] }).beginNext q

/-- A trap or halt of a node's last bundle, taken once its gr.done has ended the node: it stops its sequencer before the node that
begins there; one that idles has nothing to stop, and only reports (DESIGN CHOICE, log 72). -/
def State.stopNode (s : State) (kind : Nat) (t : Word → Trap) (addr : Word) : State :=
  let q := s.cur.seq
  let x := s.seq q
  if x.c.mode = .running then s.stopSeq q kind 0 (t x.position) addr
  else s.putRecord q { kind := kind, slot := 0, trap := t x.position, place := addr, resume := x.position, cycle := x.c.cyc.setWidth 32 }

/-- gr.done ends the node once every other slot up to its bundle has issued. A write stream that has latched a fault raises
it, for its drain cannot end; results that the node awaits arrive first. -/
def execGrDone (g : BitVec 7) (s : State) : Result :=
  slotOp (s.firstGuard g) s fun s => s.alone fun s =>
    let q := s.cur.seq
    match s.myNode with
    | none => .trap s graphTrap
    | some (r, l, n) =>
      let evs := s.drainStreams q ++ s.outEvents q ++ s.askEvents q
      if !evs.isEmpty then .wait s evs
      else
        match s.streamFault with
        | some t => .trap s t
        | none =>
          (s.releaseHal n.scope).res fun s _ =>
            match s.dueStop with
            | none => .hold (s.endNode r l n)
            | some (kind, t) =>
              match s.beforeStop q (if kind = 0 then s.settleTo q s.cur.bn else s.drainAll q s.cur.bn) with
              | some (s1, evs) => .wait s1 evs
              | none => .hold ((s.endNode r l n).stopNode kind t s.cur.addr)

/-! ### The end of a launch (spec/12 R279, R280) -/

/-- Order of scopes. -/
def scopeRank : Scope → Nat
  | .cr => 0 | .cl => 1 | .di => 2 | .mo => 3 | .sy => 4

def widest (a b : Scope) : Scope := if scopeRank a < scopeRank b then b else a

/-- The narrowest scope that holds some cores of the module (spec/08 R184). -/
def coresScope (cs : List Nat) : Scope :=
  match cs with
  | [] => .cr
  | c :: t =>
    if t.all (· == c) then .cr
    else if t.all fun d => clusterOfCore d == clusterOfCore c then .cl
    else if t.all fun d => dieOfCore d == dieOfCore c then .di
    else .mo

/-- The launch blocks present in a queue, none for an entry that cannot be read. -/
def State.present (s : State) (q : Queue) : List (Option (List Word)) :=
  q.children.map some ++ (List.range (q.tail - q.head).toNat).map fun i =>
    s.csWords q.ctx (q.ring + BitVec.ofNat 64 (64 * ((q.head.toNat + i) % 2 ^ q.lsize))) 8

/-- The scope of the agents of each dependant of a done pennant that is present in some queue: its cores, and for its copy nodes the engines of
their dies (spec/08 R184). A dependant that cannot be planned counts as the widest. -/
def State.dependants (s : State) (h : BitVec 32) (cores : List Nat) : List Scope :=
  s.queues.flatMap fun e =>
    if e.2.mode = .free then []
    else (s.present e.2).filterMap fun b =>
      match b with
      | none => some .sy
      | some blk =>
        if (blk.getD 5 0#64).setWidth 32 = h then
          match s.plan e.1 e.2.ctx blk none with
          | .ok l => some (widest (coresScope (cores ++ l.cores)) (if l.nodes.any fun n => n.kind == 1 then .di else .cr))
          | .error _ => some .sy
        else none

/-- The scope S of R280. The scope codes 5 to 7 of a done field, which the rules neither refuse nor define, count as .sy (DESIGN CHOICE,
log 97). -/
def State.flushScope (s : State) (l : Launch) : Scope :=
  let h : BitVec 32 := l.done.setWidth 32
  if h = 0#32 then .sy
  else
    match s.dependants h l.cores with
    | [] => .sy
    | ds => ds.foldl widest (widest (coresScope l.cores) ((scopeOf (l.done.extractLsb' 48 3)).getD .sy))

/-- Whether a launch has ended (spec/12 R279); one of which a walker has found a latched pennant does not end (R283). -/
def Launch.over (l : Launch) : Bool :=
  (match l.node? l.exit with | some n => decide (1 ≤ n.done) | none => false) &&
    l.nodes.all fun n => n.act == 0 && n.found.isNone

/-- A draining queue without a running launch becomes free (spec/14 R309). -/
def State.freeDrained (s : State) (n : Nat) : State :=
  if (s.queue n).mode = .draining && (s.launchesOf n).isEmpty then { s with queues := Tab.erase s.queues n } else s

/-- A sequencer, loaded or saved, forgets a launch. -/
def Seq.forgetLaunch (x : Seq) (li : Nat) : Seq :=
  { x with c := { x.c with
      lastLaunch := if x.c.lastLaunch = some li then none else x.c.lastLaunch, kept := Tab.erase x.c.kept li } }

/-- The ports that a launch which ends leaves with sequencers on which nodes of other launches came after it, loaded and saved. -/
def State.keptPorts (s : State) (li ctx : Nat) : List (Nat × Tab Port) :=
  let of_ := fun (x : Seq) => match Tab.get? x.c.kept li with | some k => k.ports | none => []
  (s.seqs.filterMap fun e => (s.groupOf e.1).map fun g => (g.1, of_ e.2)) ++
    (s.ctx ctx).images.flatMap fun e => e.2.seqs.map fun x => (e.1, of_ x)

/-- A launch leaves the machine: its unused child slots are freed with it, and no sequencer remembers it. Where it was its context's last,
the groups that run it choose anew (spec/14 R315). -/
def State.dropLaunch (s : State) (li : Nat) (l : Launch) : State :=
  let s0 := (s.keptPorts li l.ctx).foldl (fun s e => s.leave l.ctx e.1 e.2) s
  let s1 := { s0 with
    launches := Tab.erase s0.launches li
    seqs := s0.seqs.mapv fun _ x => x.forgetLaunch li
    ctxs := s0.ctxs.mapv fun _ (c : Ctx) =>
      { c with images := c.images.mapv fun _ (i : Image) => { i with seqs := i.seqs.map fun (x : Seq) => x.forgetLaunch li } } }
  let s2 := if s1.hasLaunch l.ctx then s1
    else { s1 with groups := s1.groups.mapv fun _ g =>
      if g.ctx = l.ctx && (g.mode == .loading || g.mode == .running) then { g with held := false } else g }
  (s2.freeDrained l.queue).workEnded s

/-- LAUNCH_END: the flush at S comes before the add to the done pennant. -/
def execLaunchEnd (l : Nat) (s : State) : Result :=
  match s.launch? l with
  | none => .next s
  | some x =>
    if !x.over then .next s
    else
      let sc := s.flushScope x
      let gated := if sc = .cr || sc = .cl then none else x.cores.findSome? fun c => s.relGate c x.ctx
      match gated with
      | some (s1, evs) => .next (s1.stallOn evs)
      | none =>
        let s1 := x.cores.foldl (fun s c => s.release c x.ctx sc) s
        let h : BitVec 32 := x.done.setWidth 32
        let s2 := if h != 0#32 && s1.penOk x.ctx h then
          s1.sendHal commandStream x.ctx (.add h (BitVec.ofNat 64 (fieldOf x.done 32 16)) false) else s1
        .next (s2.dropLaunch l x)

end Sys2Proof.Machine
end

