-- ==== Sys2Proof/Machine/Copy.lean ====
section
/-! DEFINITION. Copies: the start store, chunks, completion, faults, parking and multicast (spec/12 R290 to R300, spec/14 R317,
spec/20 R403). -/

namespace Sys2Proof.Machine

/-! ### Channels -/

/-- A channel by the number of its events: core × 256 + mask × 16 + channel (spec/15 R322). -/
def State.chanOf (s : State) (ch : Nat) : Channel := s.chan (ch / 256) (ch % 256)
def State.setChanOf (s : State) (ch : Nat) (x : Channel) : State := s.setChan (ch / 256) (ch % 256) x

/-- Replace the copy at the head of a channel. -/
def Channel.setHead (c : Channel) (x : Copy) : Channel := { c with copies := x :: c.copies.drop 1 }

/-- The trap of a copy that its template refuses, at an address. For a template with a reserved field that is its source (DESIGN CHOICE, log
105). -/
def copyTrap (a : Word) : Trap := addrTrap 0x11 a { cls := pcCopy } 0 0 0

/-! ### Parking (spec/14 R317) -/

def State.prioOf (s : State) (c : Copy) : Nat := (s.queue c.queue).prio

/-- Whether a copy of a channel is parked: its owner has spent its credit, and another channel of the engine holds a copy of
a higher queue. A save unparks it (spec/12 R299). -/
def State.mustPark (s : State) (core key : Nat) (c : Copy) : Bool :=
  decide ((s.owner (s.ctx c.ctx).owner).d ≤ 0) &&
    ((s.core core).chans.any fun e => e.1 != key && e.2.copies.any fun x => s.prioOf c < s.prioOf x) &&
    (match s.groupOf c.q with | some (_, g) => g.mode == .running | none => false)

/-- Evaluate every running copy of an engine. -/
def State.park (s : State) (core : Nat) : State :=
  let f := fun (k : Nat) (x : Channel) => { x with parked := match x.copies with | c :: _ => s.mustPark core k c | [] => false }
  s.setCore core { s.core core with chans := (s.core core).chans.mapv f }

/-! ### Places of bytes -/

/-- Some bytes of one line: in plain memory, or in a scratchpad. -/
inductive Place where
  | mem (p : Piece)
  | spad (core off n : Nat)
  deriving DecidableEq, Repr

def Place.len : Place → Nat
  | .mem p => p.n
  | .spad _ _ n => n

/-- The numbers of the bytes of a place, the same for every way to reach them. -/
def State.placeKeys (s : State) (p : Place) : List Nat :=
  (List.range p.len).map fun i => match p with
    | .mem x => 2 * (s.byteNum x.tr + i)
    | .spad c o _ => 2 * (c * 2 ^ 20 + o + i) + 1

/-- Check n bytes of a copy from an address on, and where they lie. -/
def State.copyReach (s : State) (c : Copy) (core : Nat) (local_ write multi : Bool) (a : Word) (n : Nat) : Try (List Place) :=
  let cuts := cutLines a.toNat n (n / 64 + 2)
  if local_ then
    cuts.foldl (fun (r : Try (List Place)) e => r.bind fun s ps =>
      let va := BitVec.ofNat 64 e.1
      if multi && va.getLsbD 24 then .trap s (copyTrap va)
      else
        match s.locCheck core c.ctx va 1 (if write then opCopyWrite else opCopyRead) pcCopy with
        | .error t => .trap s t
        | .ok (.spad k o) => .ok s (ps ++ [.spad k o e.2])
        | .ok (.acc _ _) => .trap s (copyTrap va)) (.ok s [])
  else if inAperture a || inAperture (a + BitVec.ofNat 64 (n - 1)) then .trap s (copyTrap a)
  else (s.reachRange c.q { cls := pcCopy, write := write } a n).bind fun s ps => .ok s (ps.map .mem)

/-- Check every run of a chunk. -/
def State.copyReachAll (s : State) (c : Copy) (core : Nat) (local_ write multi : Bool) (f : Nat → Word) :
    List (Nat × Nat) → List Place → Try (List Place)
  | [], ps => .ok s ps
  | (t, n) :: rest, ps =>
    (s.copyReach c core local_ write multi (f t) n).bind fun s1 xs => s1.copyReachAll c core local_ write multi f rest (ps ++ xs)

/-- The cores that a copy writes to: those of a multicast, or the one. -/
def Copy.cores (c : Copy) (core : Nat) : List Nat :=
  if c.mcast = 0 then [core] else ((List.range 16).filter fun k => c.mcast.testBit k).map fun k => core / 16 * 16 + k

/-- Read a place. -/
def State.readPlace (s : State) (ctx : Nat) (p : Place) : State × List Byte :=
  match p with
  | .mem x => s.readPiece ctx pcCopy x
  | .spad c o n => (s, Mem.bytes (s.core c).spad (readOff (s.core c) o false) n)

def State.readPlaces (s : State) (ctx : Nat) : List Place → State × List Byte
  | [] => (s, [])
  | p :: t =>
    let (s1, a) := s.readPlace ctx p
    let (s2, b) := s1.readPlaces ctx t
    (s2, a ++ b)

/-- Write the bytes of places in order. -/
def State.writePlaces (s : State) (die ctx : Nat) : List Place → List Byte → State
  | [], _ => s
  | p :: t, bs =>
    let s1 := match p with
      | .mem x => s.writePiece die ctx pcCopy x (bs.take p.len)
      | .spad c o n => s.setCore c ((s.core c).spadWrite o (bs.take n) false)
    s1.writePlaces die ctx t (bs.drop p.len)

/-- A source byte that the copy has already overwritten is read as the old byte or the new one, whichever (spec/12 R292,
DESIGN CHOICE, log 2). `over_` holds the bytes as the copy found them, `new_` those of this chunk. -/
structure Mix where
  over_ : Tab Byte
  new_ : Tab Byte := []
  tick : Nat
  out : List Byte := []
  deriving DecidableEq, Repr

/-- One byte: where it comes from and what stands there, where it goes and what stood there. -/
def Mix.byte (m : Mix) (src : Option Nat) (b : Byte) (dst : List (Nat × Byte)) : Mix :=
  let now := match src with | some k => Tab.getD m.new_ k b | none => b
  let was := src.bind fun k => (Tab.get? m.over_ k)
  let (v, tick) := match was with
    | some o => (if Config.freePick m.tick % 2 = 0 then now else o, m.tick + 1)
    | none => (now, m.tick)
  { over_ := dst.foldl (fun t e => if (Tab.get? t e.1).isSome then t else Tab.put t e.1 e.2) m.over_
    new_ := dst.foldl (fun t e => Tab.put t e.1 v) m.new_
    tick := tick, out := m.out ++ [v] }

/-- Go through the bytes of a chunk in ascending t. -/
def Mix.go (m : Mix) : List (Option Nat) → List Byte → List (List (Nat × Byte)) → Mix
  | k :: ks, b :: bs, d :: ds => (m.byte k b d).go ks bs ds
  | k :: ks, b :: bs, [] => (m.byte k b []).go ks bs []
  | _, _, _ => m

/-- Lists of one entry for each destination core, turned into one list for each byte. -/
def zipKeys : List (List (Nat × Byte)) → List (List (Nat × Byte))
  | [] => []
  | [l] => l.map ([·])
  | l :: t => List.zipWith (fun a b => a :: b) l (zipKeys t)

/-! ### Faults of a copy (spec/12 R293, R283, spec/11 R253) -/

/-- The arrival pennants of the successors of a node. -/
def State.successors (s : State) (li i : Nat) : List (BitVec 32) :=
  match s.launch? li with
  | none => []
  | some l =>
    match l.node? i with
    | none => []
    | some n => n.succ.filterMap fun t => (l.node? t).map fun m => arrivalOf l.abase m.die t

/-- The copy at the head of a channel ends with a fault: its pennants are latched, or the channel records it. The binding of a
copy to another module's pennant is that module's to latch. A record that stands in the channel is replaced (DESIGN CHOICE, log 104). -/
def State.copyFault (s : State) (ch : Nat) (c : Copy) (remote : Bool) (t : Trap) : State :=
  let x := s.chanOf ch
  let s1 := s.setChanOf ch { x with copies := x.copies.drop 1, parked := false }
  match c.node with
  | some i => (s.successors c.launch i).foldl (fun s h => s.latchPennant h t.code 1) s1
  | none =>
    if c.bound then (if remote then s1 else s1.latchPennant c.handle t.code 1)
    else s1.setChanOf ch { s1.chanOf ch with fault := some t }

/-- The destination buffer of a copy that has delivered part of its bytes becomes faulted on every core that it writes (spec/07 R168):
the one that holds the first destination byte, also where the copy ran on into a second buffer (DESIGN CHOICE, log 73). -/
def State.copyBreak (s : State) (c : Copy) (core : Nat) : State :=
  if c.dspace = 1 then
    (c.cores core).foldl (fun s k =>
      match locOf k (c.to_ 0) with
      | some (.spad k1 o) =>
        match (s.core k1).bufAt o with
        | some (n, d) => s.setCore k1 ((s.core k1).setDesc n { d with state := bfFaulted })
        | none => s
      | _ => s) s
  else s

/-! ### Buffer actions (spec/12 R291, R293) -/

/-- The core whose descriptor the destination actions name, for each destination core. -/
def Copy.dstCores (c : Copy) (core : Nat) : List Nat :=
  if c.dspace = 1 then
    (c.cores core).map fun k => match locOf k (c.to_ 0) with | some l => l.bank.1 | none => k
  else []

/-- The core whose descriptor the source actions name: that of a scratchpad source, else the engine's own. -/
def Copy.srcCore (c : Copy) (core : Nat) : Nat :=
  if c.sspace = 1 && !c.zfill then (match locOf core (c.from_ 0) with | some l => l.bank.1 | none => core) else core

/-- A buffer action of an engine: accesses that have passed their check come first, and the zeroing that a bf.fill waits
for. -/
def State.copyAct (s : State) (c : Copy) (core d : Nat) (op : BufOp) : Try Unit :=
  if !s.quadRuns core (d / 16) c.ctx then .trap s descTrap
  else
    let evs := s.localStores (core / 16) ++
      (if op = .fill && ((s.core core).desc d).zeroing then [.bufferZeroingDone core d] else [])
    if !evs.isEmpty then .wait s evs
    else
      match (s.core core).bufApply d op with
      | .error t => .trap s t
      | .ok x => .ok (s.setCore core x) ()

def State.startActs (s : State) (c : Copy) (core : Nat) : Try Unit :=
  (tryList (if c.dact.testBit 0 then c.dstCores core else []) s fun s k => s.copyAct c k c.ddesc .fill).bind fun s _ =>
    if c.sact.testBit 0 then s.copyAct c (c.srcCore core) c.sdesc .drain else .ok s ()

def State.endActs (s : State) (c : Copy) (core : Nat) : Try Unit :=
  (if c.sact.testBit 1 then s.copyAct c (c.srcCore core) c.sdesc .done else .ok s ()).bind fun s _ =>
    tryList (if c.dact.testBit 1 then c.dstCores core else []) s fun s k => s.copyAct c k c.ddesc .done

/-- Whether the crossbar holds the first chunk of a multicast: some selected core's descriptor cannot take it, being neither
filling, nor empty with the action that fills it (spec/12 R300). -/
def State.mcastHeld (s : State) (c : Copy) (core : Nat) : Bool :=
  c.mcast != 0 && (c.dstCores core).any fun k =>
    let st := ((s.core k).desc c.ddesc).state
    !(st == bfFilling || (st == bfEmpty && c.dact.testBit 0))

/-! ### Chunks (spec/12 R293) -/

/-- What the end of the checks of a template decides before any byte moves. -/
def State.copyBegin (s : State) (c : Copy) (core : Nat) : Try Unit :=
  if !c.templateOk then .trap s (copyTrap (c.word 0))
  else if c.node.isNone && c.bound && s.copyRemote c && fieldOf (c.word 6) 48 3 != 4 then .trap s (copyTrap (c.to_ 0))
  else s.startActs c core

/-- Deliver the chunk that begins at pos: every byte is checked first. -/
def State.deliver (s : State) (c : Copy) (core : Nat) : Try Copy :=
  let b := min (c.pos + 2048) c.total
  let runs := c.runs c.pos b 2048
  let src := if c.zfill then Try.ok s [] else s.copyReachAll c core (c.sspace == 1) false false c.from_ runs []
  src.bind fun s ss =>
    let dst := (c.cores core).foldl (fun (r : Try (List (List Place))) k => r.bind fun s ps =>
      (s.copyReachAll c k (c.dspace == 1) true (c.mcast != 0) c.to_ runs []).bind fun s p => .ok s (ps ++ [p])) (.ok s [])
    dst.bind fun s dss =>
      let (s1, bytes) := if c.zfill then (s, List.replicate (b - c.pos) 0#8) else s.readPlaces c.ctx ss
      -- only a copy within one space can overwrite its own source
      let watch := !c.zfill && c.sspace == c.dspace
      let olds := if watch then dss.map fun ps =>
          (ps.flatMap s1.placeKeys).zip ((s1.readPlaces c.ctx ps).2) else []
      let m := (({ over_ := c.over_, tick := s1.tick } : Mix).go
        (if c.zfill then List.replicate (b - c.pos) none else (ss.flatMap s1.placeKeys).map some) bytes (zipKeys olds))
      let s2 := dss.foldl (fun s ps => s.writePlaces (dieOf c.q) c.ctx ps m.out) { s1 with tick := m.tick }
      .ok (s2.charge (s2.ctx c.ctx).owner 16) { c with pos := b, over_ := m.over_ }

/-- The template of a copy node, read when the engine starts it. -/
def State.nodeTemplate (s : State) (c : Copy) : Try Copy :=
  match s.launch? c.launch, c.node with
  | some l, some i =>
    match l.node? i with
    | some n =>
      let a := l.tmpl + BitVec.ofNat 64 (64 * fieldOf n.arg 0 8)
      if inAperture a then .trap s (copyTrap a)
      else
        (s.reachRange c.q { cls := pcCopy } a 64).bind fun s ps =>
          let (s1, bs) := s.readPieces c.ctx pcCopy ps
          .ok s1 { c with words := (List.range 8).map fun k => BitVec.ofNat 64 (leNat ((bs.drop (8 * k)).take 8)) }
    | none => .trap s graphTrap
  | _, _ => .trap s graphTrap

/-- COPY_CHUNK: parking is evaluated, the first chunk begins with the template's checks and the buffer actions of the start,
and a fault before any byte is delivered leaves everything as it was (DEDUCED, log 37). -/
def execCopyChunk (ch : Nat) (s : State) : Result :=
  let core := ch / 256
  let s := s.park core
  let x := s.chanOf ch
  match x.copies with
  | [] => .next s
  | c :: _ =>
    if x.parked || c.delivered then .next s
    else if c.words.isEmpty then
      match s.nodeTemplate c with
      | .ok s1 c1 => .next (s1.setChanOf ch ((s1.chanOf ch).setHead c1))
      | .wait s1 evs => .next (s1.stallOn evs)
      | .trap s1 t => .next (s1.copyFault ch c false t)
    else if c.pos = 0 && c.templateOk && s.mcastHeld c core then .next s
    else
      match (if c.pos = 0 then s.copyBegin c core else .ok s ()).bind fun s _ => s.deliver c core with
      | .ok s1 c1 => .next (s1.setChanOf ch ((s1.chanOf ch).setHead c1))
      | .wait _ evs => .next (s.stallOn evs)
      | .trap s1 t =>
        if c.pos = 0 then .next (({ s1 with cores := s.cores } : State).copyFault ch c (s.copyRemote c) t)
        else .next ((s1.copyBreak c core).copyFault ch c (s.copyRemote c) t)

/-- Who adds for the copy engine of a core. -/
abbrev engineOf (core : Nat) : Nat := 49152 + core

/-- COPY_COMPLETE: the buffer actions of the end, then the add, or the arrivals of a copy node. The engine's writes stand at
their homes, which is the release of its own writes at every scope. -/
def execCopyComplete (ch : Nat) (s : State) : Result :=
  let core := ch / 256
  let x := s.chanOf ch
  match x.copies with
  | [] => .next s
  | c :: _ =>
    if !c.delivered then .next s
    else
      let remote := s.copyRemote c
      match s.endActs c core with
      | .wait _ evs => .next (s.stallOn evs)
      | .trap _ t => .next ((s.copyBreak c core).copyFault ch c remote t)
      | .ok s1 _ =>
        let s2 := s1.setChanOf ch { s1.chanOf ch with copies := (s1.chanOf ch).copies.drop 1, parked := false }
        match c.node with
        | some i =>
          match s2.launch? c.launch with
          | some l =>
            let raised := match l.node? i with | some n => n.succ | none => []
            .next ((s2.raiseAll (engineOf core) l raised).nodeComplete c.launch i)
          | none => .next s2
        | none =>
          .next (if c.bound && !remote then s2.sendHal (engineOf core) c.ctx (.add c.handle c.addend false) else s2)

/-! ### The start store (spec/12 R295 to R297) -/

/-- The queue and launch of the node that a sequencer runs, and its template table. -/
def State.myTemplates (s : State) (q : Nat) : Nat × Nat × Word :=
  match (s.seq q).c.node with
  | some r => match s.launch? r.launch with
    | some l => (l.queue, r.launch, l.tmpl)
    | none => (0, 0, 0#64)
  | none => (0, 0, 0#64)

/-- The copy that a start store starts; its template is read as the sequencer's own load would read it. -/
def State.newCopy (s : State) (q : Nat) (start : Word) : Try Copy :=
  let (queue, launch, tmpl) := s.myTemplates q
  ((s.as q).ldWords (tmpl + BitVec.ofNat 64 (64 * fieldOf start 0 8)) 8).bind fun s ws =>
    let c : Copy := { ctx := s.ctxOf q, queue := queue, launch := launch, node := none, q := q, words := ws,
                      jsrc := fieldOf start 8 28, jdst := fieldOf start 36 28 }
    if c.bound && !s.copyRemote c && !s.penOk c.ctx c.handle then .trap s penTrap else .ok s c

/-- A copy takes its place in a channel. -/
def State.enqueue (s : State) (core key : Nat) (c : Copy) : State :=
  let x := s.chan core key
  s.setChan core key { x with copies := x.copies ++ [c] }

/-- Start the copy of a st.d that stands at the head of queue B. To a channel that holds eight copies, or behind a start store that
waits for one, it goes into the store queue and waits there (spec/12 R297). -/
def State.startCopy (s : State) (a start : Word) (bits : BitVec 128) : Res :=
  let q := s.cur.seq
  let core := coreOf q
  let key := s.chanKey q (a.toNat % 65536 / 64)
  let x := s.chan core key
  match x.fault with
  | some t =>
    if !s.me.isOldest s.cur.bn s.cur.slot false then .hold (s.putOff false)
    else
      match s.beforeStop q (s.settleTo q s.cur.bn) with
      | some (s1, evs) => .wait s1 evs
      | none => .trap (s.setChan core key { x with fault := none }) t
  | none =>
    (s.newCopy q start).res fun s1 c =>
      if s.me.f.storeB.isEmpty && x.copies.length < 8 then .done (s1.enqueue core key c) 1
      else if s.fullB then .wait s [.copyStart q]
      else .done (s.pushB (.start start key s.cur.addr bits) none) 1

/-- A start store leaves the store queue and counts as not issued: its bundle stands in the window with only slot B to issue (spec/16
R345). -/
def Seq.unissue (x : Seq) (bn : Nat) (addr : Word) (bits : BitVec 128) : Seq :=
  let w := x.c.window
  let again : Win := match w.find? fun e => e.bn == bn with
    | some e => { e with mask := e.mask &&& 0xD#4 }
    | none => { bn := bn, addr := addr, bits := bits, mask := 0xD#4 }
  { x with
    c := { x.c with window := (w.filter fun e => e.bn < bn) ++ again :: w.filter fun e => bn < e.bn }
    f := { x.f with storeB := x.f.storeB.drop 1 } }

/-- What has to be performed before the bundle of a start store that traps in the store queue (spec/16 R345). -/
def State.beforeStart (s : State) (q bn : Nat) : List Instr :=
  let f := (s.seq q).f
  s.outEvents q ++ s.askEvents q ++ s.holdDEvents q ++
    (if f.storeC.any fun e => e.bn < bn then [.storePerform q 2] else []) ++
    if f.scopedAts.any fun a => a.bn < bn then [.scopedAtomicExecute q] else []

/-- A start store in the store queue meets a channel that has recorded a fault since it issued: it traps at its own bundle, once every
earlier bundle has issued and completed (spec/12 R297, spec/16 R345). On a sequencer that does not issue now it will execute again. -/
def State.startTrap (s : State) (q bn key : Nat) (addr : Word) (bits : BitVec 128) (t : Trap) : State :=
  let x := s.seq q
  let core := coreOf q
  if !s.issues q then s.setSeq q (x.unissue bn addr bits)
  else if x.c.window.any fun e => e.bn < bn then s
  else
    match s.beforeStop q (s.beforeStart q bn) with
    | some (s1, evs) => s1.stallOn evs
    | none =>
      let s1 := (s.setChan core key { s.chan core key with fault := none }).setSeq q (x.unissue bn addr bits)
      s1.stopSeq q 0 1 t addr

/-- The start store at the head of the store queue is performed once its channel has room. Its template is read then, and one that no longer
reads is a fault of the channel, which the store meets (DESIGN CHOICE, log 74). -/
def State.startQueued (s : State) (q : Nat) (start : Word) (bn key : Nat) (addr : Word) (bits : BitVec 128) : State :=
  let core := coreOf q
  let x := s.chan core key
  match x.fault with
  | some t => s.startTrap q bn key addr bits t
  | none =>
    if 8 ≤ x.copies.length then { s with agenda := x.event (core * 256 + key) :: s.agenda }
    else
      match s.newCopy q start with
      | .ok s1 c => ((s1.enqueue core key c).as s.cur.seq).dropStore q 1
      | .wait s1 evs => { (s1.as s.cur.seq) with agenda := evs ++ s1.agenda }
      | .trap s1 t => (s1.as s.cur.seq).setChan core key { x with fault := some t }

/-- COPY_START: a start store that waits in the queue, or one that stands at the head of queue B. -/
def execCopyStart (q : Nat) (s : State) : Result :=
  let x := s.seq q
  match x.f.storeB with
  | { bn := bn, act := .start w key addr bits, .. } :: _ => .next (s.startQueued q w bn key addr bits)
  | _ =>
    match x.nextOf 1 with
    | none => .next s
    | some e =>
      match e.instr 1 with
      | .stD g r base off _ =>
        let s1 := s.aim q 1 e
        let a := s1.eaBM base off 8
        if x.ready e 1 && s1.guardOn g && startsCopy a 8 && s1.toStart then (s1.startCopy a (s1.rs r) e.bits).finish
        else .next s
      | _ => .next s

/-! ### Ends of copies, and adds from other modules -/

/-- Every copy of a channel set ends as an unbound fault with code 0x11, which its channel records; a bound one and a copy node latch their
pennants as well (spec/15 R326, spec/12 R293, R296). -/
def State.endCopies (s : State) (core mask : Nat) : State :=
  let set_ := (s.core core).chans.filter fun e => e.1 / 16 == mask
  let ended := fun (x : Channel) => if x.copies.isEmpty then x else { x with copies := [], parked := false, fault := some (copyTrap 0#64) }
  let s1 := set_.foldl (fun s e => s.setChan core e.1 (ended e.2)) s
  set_.foldl (fun s e => e.2.copies.foldl (fun s c =>
    match c.node with
    | some i => (s.successors c.launch i).foldl (fun s h => s.latchPennant h 0x11 1) s
    | none => if c.bound && !s.copyRemote c then s.latchPennant c.handle 0x11 1 else s) s) s1

/-- A receiving port latches the pennant of another module's copy: its check or its delivery has failed (spec/20 R403). -/
def State.portLatch (s : State) (h : BitVec 32) (code : Nat) : State := s.latchPennant h code 2

/-- REMOTE_COPY_PENNANT_ADD: the writes of another module's copy are acknowledged here (spec/20 R403). -/
def execRemoteCopyPennantAdd (h : BitVec 32) (v : Word) (ctx : Nat) (s : State) : Result :=
  .next (if s.penOk ctx h then s.addPennant h v false else s.portLatch h 0x11)

end Sys2Proof.Machine
end

