-- ==== Sys2Proof/Machine/Segment.lean ====
section
/-! DEFINITION. Fast rows and the segment instructions (spec/18 R382 to R388). -/

namespace Sys2Proof.Machine

/-! ### Promotion rows of a bank (spec/18 R382 to R384) -/

/-- The first free promotion row of a bank: fast rows that the F-region does not take. -/
def State.freeFast (s : State) (die bank : Nat) : Option Nat :=
  let lo := 128 * s.frOf (s.diePa die)
  ((List.range (2048 - lo)).map (lo + ·)).find? fun f => !((s.promo die bank).any fun r => r.fast == f)

/-- cnt(ctx, bank). -/
def State.charged (s : State) (die bank ctx : Nat) : Nat := ((s.promo die bank).filter fun r => r.ctx == ctx).length

/-- evict: the row leaves its fast copy. Data stands under its slow address throughout, so nothing moves. -/
def State.evictRow (s : State) (die bank row : Nat) : State :=
  s.setPromo die bank ((s.promo die bank).filter fun r => r.row != row)

/-- place: a row is promoted, or refused; the second result says whether a row was evicted (spec/18 R383). -/
def State.placeRow (s : State) (die bank row ctx : Nat) : Option (State × Bool) :=
  let rs := s.promo die bank
  let put := fun (s : State) => (s.freeFast die bank).map fun f =>
    s.setPromo die bank (s.promo die bank ++ [{ row := row, fast := f, ctx := ctx, pin := false, dirty := false }])
  let instead := fun (v : Option PromoRow) => v.bind fun v => (put (s.evictRow die bank v.row)).map fun s1 => (s1, true)
  if (s.ctx ctx).quota ≤ s.charged die bank ctx then instead (rs.find? fun r => !r.pin && r.ctx == ctx)
  else if (s.freeFast die bank).isSome then (put s).map fun s1 => (s1, false)
  else instead (rs.find? fun r => !r.pin)

/-- A row moves to the most recent end, with a pin bit. -/
def State.refreshRow (s : State) (die bank : Nat) (r : PromoRow) (pin : Bool) : State :=
  s.setPromo die bank (((s.promo die bank).filter fun x => x.row != r.row) ++ [{ r with pin := pin }])

/-! ### Units (spec/18 R385, R386) -/

inductive SegOp where
  | promote | pin | unpin | demote
  deriving DecidableEq, Repr

/-- What a unit counts as. -/
inductive SegResult where
  | done (evicted : Bool)
  | refused | fregion | already | foreign
  deriving DecidableEq, Repr

/-- Its addition to the result word. -/
def SegResult.inc : SegResult → Nat
  | .done ev => 1 + if ev then 2 ^ 8 else 0
  | .refused => 2 ^ 16
  | .fregion => 2 ^ 24
  | .already => 2 ^ 32
  | .foreign => 2 ^ 40

/-- The action on the row of a physical address. -/
def State.segUnit (s : State) (op : SegOp) (ctx pa : Nat) : State × SegResult :=
  let die := s.homeDie pa
  let bank := paBank pa
  let row := paRow pa
  if paFast pa then (s, .fregion)
  else
    match op, (s.promo die bank).find? fun r => r.row == row with
    | .promote, none =>
      match s.placeRow die bank row ctx with
      | some (s1, ev) => (s1, .done ev)
      | none => (s, .refused)
    | .promote, some r => (s.refreshRow die bank r r.pin, .already)
    | .pin, none =>
      match s.placeRow die bank row ctx with
      | some (s1, ev) =>
        (s1.setPromo die bank ((s1.promo die bank).map fun r => if r.row = row then { r with pin := true } else r), .done ev)
      | none => (s, .refused)
    | .pin, some r =>
      if r.ctx ≠ ctx then (s, .foreign)
      else (s.refreshRow die bank r true, if r.pin then .already else .done false)
    | .unpin, none => (s, .already)
    | .unpin, some r =>
      if r.ctx ≠ ctx then (s, .foreign)
      else if r.pin then (s.refreshRow die bank r false, .done false)
      else (s, .already)
    | .demote, none => (s, .already)
    | .demote, some r => if r.ctx ≠ ctx then (s, .foreign) else (s.evictRow die bank row, .done false)

/-- Translate the address of a unit: a page outside the domain is refused, and a home on another device is reached over a trained port (spec/18
R385, spec/20 R402). -/
def State.segReach (s : State) (a : Word) : Try Tr :=
  let acc : Acc := { cls := pcSeg }
  if inAperture a then .trap s (addrTrap 0x11 a acc 0 0 0)
  else
    (s.find s.cur.seq a acc).bind fun s1 t =>
      if eNc t.e2 then .trap s1 (addrTrap 0x11 a acc 0 0 0)
      else if !s1.routed (paDev t.pa) then .wait s1 [] else .ok s1 t

/-- Units in ascending order; a trap leaves the effects of earlier ones standing. -/
def State.segUnits (s : State) (op : SegOp) (a : Word) (sum : Nat) : Nat → Try Nat
  | 0 => .ok s sum
  | n + 1 =>
    (s.segReach a).bind fun s1 t =>
      let (s2, r) := s1.segUnit op (s1.ctxOf s1.cur.seq) t.pa
      s2.segUnits op (a + 2048#64) (sum + r.inc) n

/-- The units of an instruction act once none of them waits for its translation, so that none is counted twice. -/
def State.segAll (s : State) (op : SegOp) (a : Word) (n : Nat) : Try Nat :=
  match s.segUnits op a 0 n with
  | .wait _ evs => .wait s evs
  | r => r

/-- A segment instruction holds queue D until its units are complete. -/
def segOp (op : SegOp) (g : BitVec 7) (x y z : BitVec 6) (s : State) : Result :=
  slotOp g s fun s =>
    let a := s.rs y
    if a.toNat % 2048 ≠ 0 then .trap s (addrTrap 0x13 a { cls := pcSeg } 0 0 0)
    else
      (s.segAll op a (min (s.rs z).toNat 32)).res fun s1 w =>
        let s2 := s1.awaitS x (BitVec.ofNat 64 w)
        .done (s2.setFlight { s2.me.f with holdD := some .segment }) 1

def execSegPromote (g : BitVec 7) (x y z : BitVec 6) (s : State) : Result := segOp .promote g x y z s
def execSegPin (g : BitVec 7) (x y z : BitVec 6) (s : State) : Result := segOp .pin g x y z s
def execSegUnpin (g : BitVec 7) (x y z : BitVec 6) (s : State) : Result := segOp .unpin g x y z s
def execSegDemote (g : BitVec 7) (x y z : BitVec 6) (s : State) : Result := segOp .demote g x y z s

/-- SEGMENT_UNITS_COMPLETE (spec/18 R385). -/
def execSegmentUnitsComplete (q : Nat) (s : State) : Result :=
  let x := s.seq q
  .next (match x.f.holdD with
    | some .segment => s.setSeq q { x with f := { x.f with holdD := none } }
    | _ => s)

/-! ### seg.query (spec/18 R387) -/

/-- The word of a row. -/
def State.segWord (s : State) (ctx pa : Nat) : Word :=
  let die := s.homeDie pa
  let bank := paBank pa
  let rs := s.promo die bank
  let r := if paFast pa then none else rs.find? fun r => r.row == paRow pa
  let rank : Nat := match r with
    | some x => if x.pin then 0x7FF else (rs.filter fun y => !y.pin).findIdx fun y => y.row == x.row
    | none => 0x7FF
  let bit := fun (b : Bool) (k : Nat) => if b then 2 ^ k else 0
  BitVec.ofNat 64 ((s.ctx ctx).quota * 2 ^ 52 + s.charged die bank ctx * 2 ^ 40 + rank * 2 ^ 29 + bank * 2 ^ 19 +
    bit (paFast pa) 4 +
    match r with
    | some x => bit (x.ctx == ctx) 3 + bit x.dirty 2 + bit x.pin 1 + 1
    | none => 0)

def execSegQuery (g : BitVec 7) (x y : BitVec 6) (s : State) : Result :=
  slotOp g s fun s =>
    (s.segReach (s.rs y)).res fun s1 t => .done (s1.awaitS x (s1.segWord (s1.ctxOf s1.cur.seq) t.pa)) 1

end Sys2Proof.Machine
end

