-- ==== Sys2Proof/Machine/Command.lean ====
section
/-! DEFINITION. The transport of Masthead's commands: permission, status, response (spec/22 R415 to R419). -/

namespace Sys2Proof.Machine

/-! ### Mailboxes -/

def State.mail (s : State) (f : Nat) : Mail := Tab.getD s.mast.mail f {}
def State.setMail (s : State) (f : Nat) (m : Mail) : State := { s with mast := { s.mast with mail := Tab.put s.mast.mail f m } }

/-- The host address of the descriptor that a mailbox completes next. -/
def Mail.slot (m : Mail) : Nat := m.base.toNat + 128 * (m.head.toNat % 2 ^ m.lsize.toNat)

def State.hostWord (s : State) (a : Nat) : Word := Mem.word s.mem.host a
def State.hostWrite (s : State) (a : Nat) (bs : List Byte) : State := { s with mem := { s.mem with host := Mem.write s.mem.host a bs } }
def State.hostRead (s : State) (a n : Nat) : List Byte := Mem.bytes s.mem.host a n
def wordsBytes (ws : List Word) : List Byte := ws.flatMap fun w => leBytes w.toNat 8

/-- Statuses of R416. -/
abbrev stDone : Nat := 0
abbrev stRange : Nat := 1
abbrev stPre : Nat := 2
abbrev stOpcode : Nat := 3
abbrev stDenied : Nat := 4
abbrev stNotReady : Nat := 5
abbrev stIntegrity : Nat := 6

/-- Write the response of the descriptor at the head of a mailbox and advance mhead. Results past word 15 take the operands' words, 1 to
11 (DESIGN CHOICE, log 41). -/
def State.respond (s : State) (f status : Nat) (rs : List Word) : State :=
  let m := s.mail f
  if m.head = m.tail then s
  else
    let tag := fieldOf (s.hostWord m.slot) 16 16
    let w12 := BitVec.ofNat 64 (tag * 2 ^ 32 + status)
    let s1 := s.hostWrite (m.slot + 96) (wordsBytes (w12 :: (rs.take 3)))
    let s2 := if rs.length ≤ 3 then s1 else s1.hostWrite (m.slot + 8) (wordsBytes ((rs.drop 3).take 11))
    s2.setMail f { m with head := m.head + 1#32, pend := none }

/-- The outcome of a command: a response, a wait for events before it is tried again, or a response that comes later. -/
inductive Reply where
  | done (s : State) (status : Nat) (rs : List Word)
  | wait (s : State) (evs : List Instr)
  | later (s : State) (w : MailWait)

/-- Refused: nothing changes. -/
def Reply.refuse (s : State) : Reply := .done s stPre []

def Reply.ok (s : State) : Reply := .done s stDone []

/-- Whether all of some conditions hold; otherwise the command is refused. -/
def Reply.guard (s : State) (c : Bool) (r : Reply) : Reply := if c then r else .refuse s

/-- The owner bound to a function (spec/22 R418, R419). -/
def State.ownerOf (s : State) (f : Nat) : Option Nat :=
  (s.owners.find? fun e => e.2.used && e.2.fn == f).map (·.1)

/-- Run a command: Masthead must be ready, the function permitted, the operands in range (spec/22 R416, R418). PF0 may issue
every command; `mine` says what another function needs of its owner, nothing for a command that only PF0 may issue. -/
def runCommand (f : Nat) (mine : Option (State → Nat → Bool)) (range : Bool) (body : State → Reply) (s : State) : Result :=
  let may := f = 0 || match mine, s.ownerOf f with
    | some g, some o => g s o
    | _, _ => false
  if !s.mast.ready then .next (s.respond f stNotReady [])
  else if !may then .next (s.respond f stDenied [])
  else if !range then .next (s.respond f stRange [])
  else
    match body s with
    | .done s1 st rs => .next (s1.respond f st rs)
    | .wait s1 evs => .next { s1 with agenda := evs ++ s1.agenda }
    | .later s1 w => .next (s1.setMail f { s1.mail f with pend := some w })

/-- Commands that wait for something are answered once it has come about. -/
def State.answerAll (s : State) (w : MailWait) (status : Nat) : State :=
  (s.mast.mail.filter fun e => e.2.pend == some w).foldl (fun s e => s.respond e.1 status []) s

/-- Operands as numbers. -/
abbrev num (w : Word) : Nat := w.toNat

/-- Whether a context belongs to an owner, and whether a queue or group does (spec/22 R418). -/
def ctxMine (ctx : Word) : State → Nat → Bool := fun s o => (s.ctx (num ctx)).mode != .free && (s.ctx (num ctx)).owner == o
def queueMine (n : Word) : State → Nat → Bool := fun s o =>
  (s.queue (num n)).mode != .free && (s.ctx (s.queue (num n)).ctx).owner == o
def groupMine (gh : Word) : State → Nat → Bool := fun s o =>
  let g := s.group (num gh)
  g.mode != .absent && (g.owner == o || (g.lent && g.borrower == o))
def anyMine : State → Nat → Bool := fun _ _ => true

end Sys2Proof.Machine
end

