-- ==== Sys2Proof/Machine/Sched.lean ====
section
/-! DEFINITION. The choice of a context for a group, and requests of pre-emption (spec/14 R314 to R316, R441, spec/16 R337). -/

namespace Sys2Proof.Machine

/-- Q of R315. -/
def quantum : Nat := 262144

/-- The class of a loaded context: the highest prio among the queues whose launches it runs, else that of the work for which
it was chosen (spec/14 R316). -/
def State.groupClass (s : State) (g : Group) : Nat :=
  match s.launches.filter fun e => e.2.ctx == g.ctx with
  | [] => g.cls
  | ls => ls.foldl (fun m e => max m (s.queue e.2.queue).prio) 0

/-! ### Deficit round-robin (spec/14 R315) -/

/-- The next owner of an ascending list after one, wrapping; after none the lowest. -/
def nextOwner (os : List Nat) (o : Option Nat) : Option Nat :=
  match o with
  | none => os.head?
  | some k => (os.find? fun p => k < p).orElse fun _ => os.head?

/-- Visit owners, crediting each, until one has a positive deficit. -/
def State.visit (s : State) (os : List Nat) (o : Option Nat) : Nat → State × Option Nat
  | 0 => (s, none)
  | k + 1 =>
    match nextOwner os o with
    | none => (s, none)
    | some p =>
      let w := s.owner p
      let d := deficit (w.d + (w.w * quantum : Nat))
      let s1 := s.setOwner p { w with d := d }
      if 0 < d then (s1, some p) else s1.visit os (some p) k

/-- Visits enough for any search: each credit is at least Q. -/
def State.visits (s : State) (os : List Nat) : Nat :=
  os.foldl (fun a o => a + (s.owner o).d.natAbs / quantum + 2) 1 * (os.length + 1)

/-- Owners of some work, ascending. -/
def ownersOf (ws : List Work) : List Nat := (List.range 64).filter fun o => ws.any fun w => w.owner == o

/-- The choice among some work: the highest class, the owner by deficit round-robin, the owner's next queue. -/
def State.choose (s : State) (ws : List Work) : State × Option Work :=
  let cls := ws.foldl (fun m w => max m w.cls) 0
  let here := ws.filter fun w => w.cls == cls
  let os := ownersOf here
  let cur := Tab.get? s.cursors cls
  let stay := match cur with
    | some o => os.contains o && decide (0 < (s.owner o).d)
    | none => false
  let (s1, o) := if stay then (s, cur) else s.visit os cur (s.visits os)
  match o with
  | none => (s1, none)
  | some o =>
    let mine := here.filter fun w => w.owner == o
    let last := Tab.get? s1.served o
    let w := (mine.find? fun w => match last with | some q => decide (q < w.queue) | none => true).orElse fun _ => mine.head?
    match w with
    | none => (s1, none)
    | some w => ({ s1 with cursors := Tab.put s1.cursors cls o, served := Tab.put s1.served o w.queue }, some w)

/-! ### Requests and loads (spec/16 R337, spec/14 R441) -/

/-- The first rung of pre-emption is requested, with timers (spec/16 R337); a second request can only bring the timers of the
first forward (DESIGN CHOICE, log 10). -/
def State.requestRung (s : State) (gh grace kill : Nat) : State :=
  let g := s.group gh
  if g.rung ≠ 0 then s.setGroup gh { g with grace := min g.grace (g.age + grace), kill := min g.kill (g.age + kill) }
  else
    let s1 := s.setGroup gh { g with rung := 1, grace := grace, kill := kill, age := 0 }
    (groupSeqs gh).foldl (fun s q => let x := s.seq q; s.setSeq q { x with c := { x.c with preq := true } }) s1

/-- With the timers of the loaded context. -/
def State.requestOwn (s : State) (gh : Nat) : State :=
  let c := s.ctx (s.group gh).ctx
  s.requestRung gh c.grace.toNat c.kill.toNat

/-- A load begins on an idle group. Where the images of the context move to, its first load decides (spec/15 R328, spec/16 R353). -/
def State.beginLoad (s : State) (gh ctx cls : Nat) : State :=
  let g := s.group gh
  let c := s.ctx ctx
  let moving := if c.moving.isEmpty then (s.moves ctx).getD [] else c.moving
  let s1 := s.setGroup gh { g with mode := .loading, ctx := ctx, cls := cls, held := true, next := g.next.filter (·.1 != ctx), rung := 0, age := 0 }
  s1.setCtx ctx { s1.ctx ctx with mode := .active, moving := moving }

/-- The contexts chosen for a group earlier that still have work there, in the order in which the group serves them. -/
def State.chosen (s : State) (gh : Nat) (g : Group) : List (Nat × Nat) :=
  g.next.filter fun c => s.mayLoad gh g c.1 && (s.work gh g).any fun w => w.ctx == c.1

/-- The one of them that comes first. -/
def State.reserved (s : State) (gh : Nat) (g : Group) : Option (Nat × Nat) := (s.chosen gh g).head?

/-- Put a chosen context behind those of its class and of higher ones. -/
def insChosen (e : Nat × Nat) : List (Nat × Nat) → List (Nat × Nat)
  | [] => [e]
  | h :: t => if h.2 < e.2 then e :: h :: t else h :: insChosen e t

/-- A context is chosen for a group that runs another: it keeps its place among the chosen, unless it is chosen for a higher class now. -/
def State.choseFor (s : State) (gh : Nat) (g : Group) (ctx cls : Nat) : State :=
  let old := s.chosen gh g
  let stays := old.any fun c => c.1 == ctx && decide (cls ≤ c.2)
  s.setGroup gh { g with next := if stays then old else insChosen (ctx, cls) (old.filter (·.1 != ctx)) }

/-- A context is chosen: groups that have it loaded hold it, the idle groups of its placement load it, it is chosen for the
others behind those of its class and of higher ones, and the first rung is requested where a lower class runs (spec/14 R441). -/
def State.chooseCtx (s : State) (ctx cls : Nat) : State :=
  (s.boundGroups ctx).foldl (fun s e =>
    let g := s.group e.1
    if !s.mayLoad e.1 g ctx then s
    else if g.mode = .idle then s.beginLoad e.1 ctx cls
    else if g.ctx = ctx && (g.mode == .loading || g.mode == .running) then s.setGroup e.1 { g with held := true, cls := cls }
    else
      let s1 := s.choseFor e.1 g ctx cls
      if g.mode = .running && s.groupClass g < cls then s1.requestOwn e.1 else s1) s

/-- A change of prio takes effect (spec/14 R318). -/
def State.adoptPrios (s : State) : State :=
  { s with queues := s.queues.mapv fun _ q => match q.prioNext with
      | some p => { q with prio := p, prioNext := none }
      | none => q }

/-- Whether a group holds its context, which waits for its other groups (spec/14 R441). -/
def State.holds (s : State) (gh : Nat) (g : Group) : Bool :=
  g.mode == .running && g.held && (s.work gh g).any fun w => w.ctx == g.ctx

/-- A decision point: an idle group, or a loaded context without a running launch (spec/14 R315). -/
def State.decides (s : State) (g : Group) : Bool :=
  g.mode == .idle || (g.mode == .running && g.rung == 0 && !s.hasLaunch g.ctx)

/-- The class of the best of some work, as far as a test goes. -/
def topClass (ws : List Work) : Nat := ws.foldl (fun m w => max m w.cls) 0

/-- The choice on a group whose loaded context runs no launch: it stays while its owner has credit and it has work of the highest
class, or where nothing competes with it. -/
def State.decideLoaded (s : State) (gh : Nat) (g : Group) (ws : List Work) : State :=
  let mine := ws.filter fun w => w.ctx == g.ctx
  let credit := decide (0 < (s.owner (s.payer g)).d) && !mine.isEmpty && topClass mine == topClass ws
  if (ws.all fun w => w.ctx == g.ctx) || credit then
    if !mine.isEmpty then s.chooseCtx g.ctx (topClass mine)
    else if (s.reserved gh g).isSome then s.requestOwn gh
    else s
  else
    match s.choose ws with
    | (s1, some w) => if w.ctx = g.ctx then s1.chooseCtx w.ctx w.cls else (s1.chooseCtx w.ctx w.cls).requestOwn gh
    | (s1, none) => s1

/-- SCHED_DECISION (spec/14 R315, R441). The search runs, and credits, also where a single context has work for an idle group; a loaded
context with which nothing competes stays without a credit (DESIGN CHOICE, log 101). Work of a higher class than a context chosen for the group, or than one that the group holds,
comes before it; other work does not. -/
def execSchedDecision (gh : Nat) (s0 : State) : Result :=
  if !s0.decides (s0.group gh) then .next s0
  else
    let s := s0.adoptPrios
    let g := s.group gh
    let ahead := s.reserved gh g
    let ws := (s.work gh g).filter fun w =>
      (match ahead with | some (_, k) => decide (k < w.cls) | none => true) && (!s.holds gh g || decide (g.cls < w.cls))
    .next (if g.mode = .idle then
        if ws.isEmpty then (match ahead with | some (c, k) => s.beginLoad gh c k | none => s)
        else match s.choose ws with
          | (s1, some w) => s1.chooseCtx w.ctx w.cls
          | (s1, none) => s1
      else if s.holds gh g && ws.isEmpty then s
      else s.decideLoaded gh g ws)

/-- Whether the conditions of R316 hold for a group. -/
def State.mustPreempt (s : State) (gh : Nat) (g : Group) : Bool :=
  let mine := s.groupClass g
  let ready := (s.work gh g).filter fun w => w.ready && w.ctx != g.ctx
  (ready.any fun w => mine < w.cls) ||
    (decide ((s.owner (s.payer g)).d ≤ -(quantum : Int)) && ready.any fun w => w.cls == mine && w.owner != s.payer g) ||
    (match s.reserved gh g with | some (c, k) => decide (mine < k) && c != g.ctx | none => false)

/-- PREEMPT_REQUEST (spec/14 R316). -/
def execPreemptRequest (gh : Nat) (s : State) : Result :=
  let g := s.group gh
  .next (if g.mode = .running && g.rung = 0 && s.mustPreempt gh g then s.requestOwn gh else s)

end Sys2Proof.Machine
end

