-- ==== Sys2Proof/Machine/Readback.lean ====
section
/-! DEFINITION. The state of a sequencer and of a group as a save area and READBACK lay it out (spec/16 R335, spec/22 R420 to R423). -/

namespace Sys2Proof.Machine

/-- A flag at a bit. -/
def bit (b : Bool) (k : Nat) : Nat := if b then 2 ^ k else 0

/-! ### Scrubbing memory (spec/16 R357) -/

/-- Whether a line lies in a physical range. -/
def inRange (l pa n : Nat) : Bool := pa ≤ 64 * l + 63 && 64 * l < pa + n

/-- The lines of a range that an mcas holds, or that the host may hold: what keeps the home from writing the range (spec/11 R269, spec/20
R398). -/
def State.rangeGates (s : State) (pa n : Nat) : List Nat :=
  ((s.dies.flatMap fun d => d.2.locks.map (·.1)) ++ (s.mem.side.map (·.1)).filter s.hostHeld).filter fun l => inRange l pa n

def State.rangeGate (s : State) (pa n : Nat) : Option (State × List Instr) := (s.rangeGates pa n).findSome? fun l => s.gate l true

/-- The same of some runs, in bytes. -/
def State.runsGate (s : State) (rs : List (Nat × Nat)) : Option (State × List Instr) := rs.findSome? fun r => s.rangeGate r.1 r.2

/-- Zeros are written to every line of a range: cached copies are recalled, the line is left in I with fresh ECC, under no
key; a promoted row of it is written in its fast copy (spec/18 R382). -/
def State.scrubRange (s0 : State) (pa n : Nat) : State :=
  let out := fun (l : Nat) => !inRange l pa n
  let s := s0.rowsWrote pa n
  { s with
    clusters := s.clusters.mapv fun _ c => { c with
      l2 := c.l2.keep fun l _ => out l, scopedCopies := c.scopedCopies.keep fun l _ => out l }
    mem := { s.mem with
      dram := Mem.zero s.mem.dram pa n, side := s.mem.side.keep fun l _ => out l, key := s.mem.key.keep fun l _ => out l,
      poison := s.mem.poison.filter out, badData := s.mem.badData.filter out, badSide := s.mem.badSide.filter out,
      bisnp := s.mem.bisnp.filter out, acked := s.mem.acked.filter out } }

/-! ### Parts of a core that belong to a group -/

def inBank (mask off : Nat) : Bool := mask.testBit (off / 2 ^ 18)
def inDescs (mask n : Nat) : Bool := mask.testBit (n / 16)
/-- A quadrant's bank holds 128 tiles (spec/01 R8, R9). -/
def inStats (mask t : Nat) : Bool := mask.testBit (t / 128)
def inTiles (mask e : Nat) : Bool := inStats mask (e / 1024)

/-- The local stores of a group's quadrants hold what an image holds, and nothing else. -/
def CoreSt.restore (c : CoreSt) (mask : Nat) (i : Image) : CoreSt :=
  let add := fun {α : Type} (t : Tab α) (new : Tab α) => new.foldl (fun t e => Tab.put t e.1 e.2) t
  { c with
    descs := add (c.descs.keep fun n _ => !inDescs mask n) i.descs
    spad := add (Tab.keep c.spad fun o _ => !inBank mask o) i.spad
    live := i.live ++ c.live.filter fun l => !inBank mask (64 * l)
    region := i.region ++ c.region.filter fun l => !inBank mask (64 * l)
    acc := add (c.acc.keep fun e _ => !inTiles mask e) i.acc
    tstat := add (c.tstat.keep fun t _ => !inStats mask t) i.tstat
    chans := add (c.chans.keep fun k _ => k / 16 != mask) i.chans }

/-- What an image takes from a core. -/
def CoreSt.image (c : CoreSt) (mask : Nat) (seqs : List Seq) (joined : Bool) (rung : Nat) : Image :=
  { mask := BitVec.ofNat 4 mask, seqs := seqs
    descs := c.descs.keep fun n _ => inDescs mask n
    spad := Tab.keep c.spad fun o _ => inBank mask o
    live := c.live.filter fun l => inBank mask (64 * l)
    region := c.region.filter fun l => inBank mask (64 * l)
    acc := c.acc.keep fun e _ => inTiles mask e
    tstat := c.tstat.keep fun t _ => inStats mask t
    chans := c.chans.keep fun k _ => k / 16 == mask
    joined := joined, rung := rung }

/-- The state of a group's first load of a context. -/
def firstImage (gh : Nat) : Image :=
  { mask := BitVec.ofNat 4 (maskOf gh), seqs := (groupSeqs gh).map fun _ => {} }

/-! ### A sequencer -/

/-- Bytes that the spec lays out nowhere: of a class of items, an instance and a place in it, so that two reads agree (spec/22 R421). -/
def freeWord (cls inst i : Nat) : Word :=
  BitVec.ofNat 64 (leNat ((List.range 8).map fun k => Config.freeByte ((cls * 2 ^ 32 + inst + 1) * 2 ^ 96 + 8 * i + k)))

/-- The 64-bit word i of a wide value. -/
def wordOf (v i : Nat) : Word := BitVec.ofNat 64 (v / 2 ^ (64 * i))

/-- A c shape and a k shape as one number (spec/05 R123, spec/06 R137). -/
def CShape.pack (c : CShape) : Nat :=
  c.ctl.toNat + c.estride.toNat * 2 ^ 5 + c.count0.toNat * 2 ^ 29 + c.count1.toNat * 2 ^ 53 + c.count2.toNat * 2 ^ 77 +
    c.count3.toNat * 2 ^ 101 + c.stride0.toNat * 2 ^ 125 + c.stride1.toNat * 2 ^ 165 + c.stride2.toNat * 2 ^ 205 +
    c.stride3.toNat * 2 ^ 245

def KShape.pack (k : KShape) : Nat :=
  k.ctl.toNat + k.rows.toNat * 2 ^ 2 + k.row0.toNat * 2 ^ 8 + k.col0.toNat * 2 ^ 13 + k.rstride.toNat * 2 ^ 14 +
    k.scale.toNat * 2 ^ 54 + k.clip.toNat * 2 ^ 86

/-- The control words at 0x01800. What the divide unit still needs is a free value (DESIGN CHOICE, log 48). -/
def Seq.ctlWord (x : Seq) (i : Nat) : Word :=
  let bn := x.oldestBn
  let pend := x.c.fmt.writes.find? fun w => bn < w.1 + 4
  match i with
  | 0 => x.position
  | 1 => x.c.fmt.wordAt bn
  | 2 => match pend with
    | some (_, v, fl) => BitVec.ofNat 64 ((match fl with | some k => k.toNat * 2 ^ 32 | none => 0) + v.toNat)
    | none => 0#64
  | 3 => match pend with
    | some (k, _, _) => BitVec.ofNat 64 (min 3 (k + 4 - bn) + 4)
    | none => 0#64
  | 4 => x.c.cyc
  | 5 => x.c.rsm.setWidth 64
  | 6 => BitVec.ofNat 64 (bit x.c.region.isOpen 0)
  | 7 => match x.f.divu with | some d => d.dividend | none => 0#64
  | 8 => match x.f.divu with | some d => d.divisor | none => 0#64
  | 9 => match x.f.divu with
    | some d => BitVec.ofNat 64 (1 + bit d.signed 1 + d.dest.toNat * 4 + Config.freeCycles x.c.cyc.toNat % 256 * 256)
    | none => 0#64
  | _ => 0#64

/-- A word of a loop level. -/
def Loop.word (l : Loop) (i : Nat) : Word :=
  match i with
  | 0 => l.start + BitVec.ofNat 64 l.stages
  | 1 => l.last
  | 2 => l.n
  | 3 => l.t
  | k => BitVec.ofNat 64 ((l.saved.getD (2 * (k - 4)) 0#32).toNat + (l.saved.getD (2 * (k - 4) + 1) 0#32).toNat * 2 ^ 32)

/-- Word i of the load queue: value and present bit of each entry. -/
def lqWord (q : List LqEnt) (i : Nat) : Word :=
  match q[i / 2]? with
  | some e => if i % 2 = 0 then e.val.getD 0#64 else BitVec.ofNat 64 (bit e.val.isSome 0)
  | none => 0#64

/-- The 64 bytes of a stream's state (spec/05 R128): pattern, base, steps taken, vectors between them and the fill or drain position,
bound flag, fault latch and its code. The spec gives the parts, and no places (DESIGN CHOICE, log 48). -/
def Stream.pack (x : Stream) : Nat :=
  x.pat.pack + x.base.toNat * 2 ^ 285 + x.taken % 2 ^ 96 * 2 ^ 349 + (max x.pos x.taken - min x.pos x.taken) % 16 * 2 ^ 445 +
    bit x.bound 449 + (match x.fault with | some t => 2 ^ 450 + t.code * 2 ^ 451 | none => 0)

/-- A word of a stream: its state, then its vectors, the oldest first. -/
def Stream.wordAt (x : Stream) (i : Nat) : Word :=
  if i < 8 then wordOf x.pack i
  else match x.queue[(i - 8) / 16]? with | some v => wordOf v.v.toNat ((i - 8) % 16) | none => 0#64

/-- The two words of a port: the record's address, then the entry number, a view in bit 62 and bound in bit 63 (DESIGN CHOICE, log
48). -/
def portWord (ps : Tab Port) (i : Nat) : Word :=
  match Tab.get? ps (i / 2) with
  | some p => if i % 2 = 0 then p.record else BitVec.ofNat 64 (p.entry + bit p.view 62 + 2 ^ 63)
  | none => 0#64

/-- A bundle of the window with what its queues have still to issue, in four words: its address with the mask of the queues that issued it
in the bits that bundle alignment leaves free, the D-time at which slot D issued it with bit 63, and its bits (spec/16 R339; the places
are a DESIGN CHOICE, log 48). -/
def Win.wordAt (e : Win) (i : Nat) : Word :=
  match i with
  | 0 => e.addr + e.mask.setWidth 64
  | 1 => match e.dt with | some t => BitVec.ofNat 64 (t % 2 ^ 63 + 2 ^ 63) | none => 0#64
  | 2 => e.bits.setWidth 64
  | _ => e.bits.extractLsb' 64 64

/-- The weights of the array in use: column n of the driven array takes 64 bytes, its elements along K in the packing of the format that
loaded them; the engine's other buffer holds zeros (spec/06 R142; DESIGN CHOICE, log 48). -/
def Weights.wordAt (w : Weights) (i : Nat) : Word :=
  if i < 256 then wordOf (packFmt w.fmt .rne (w.col 32 (i / 8))).1.toNat (i % 8) else 0#64

/-- The array in use behind the D-time: H, W, and of held weights their format and a one; zero where the sequencer drives none (spec/06
R134; DESIGN CHOICE, log 48). -/
def arrayWord (gh : Nat) (joined : Bool) (q : Nat) (w : Weights) : Word :=
  if !joined || (groupSeqs gh).head? == some q then
    let a := arrOf (maskOf gh) joined
    BitVec.ofNat 64 (a.h + a.w * 2 ^ 8 + (fmtBits w.fmt).toNat * 2 ^ 16 + bit w.fam.isSome 20)
  else 0#64

/-- The header of a shadow entry: its tile and region with a one, and its distance (spec/16 R341; the places are a DESIGN CHOICE, log
48). -/
def Shadow.head (e : Shadow) (dtime i : Nat) : Word :=
  match i with
  | 0 => BitVec.ofNat 64 (e.tile + e.row0 * 2 ^ 16 + e.rows * 2 ^ 24 + e.col0 * 2 ^ 32 + e.cols * 2 ^ 40 + 2 ^ 63)
  | 1 => BitVec.ofNat 64 (e.fin - dtime)
  | _ => 0#64

/-- Its value area: the final values in row order, two to a word. -/
def Shadow.value (e : Shadow) (i : Nat) : Word :=
  ((e.vals.getD (2 * i + 1) 0#32) ++ (e.vals.getD (2 * i) 0#32)).setWidth 64

/-- What the parts of the shadow result buffer hold. -/
def Flight.shadowWord (f : Flight) (k : Nat) (part : Shadow → Word) : Word :=
  match f.shadow[k]? with | some e => part e | none => 0#64

/-- The sequencer state of R422: `tstat` gives the status words of its quadrant's tiles, which stand at 0x9000, since their bank is full
(DESIGN CHOICE, log 48), and `arr` the array in use. -/
def Seq.readback (x : Seq) (tstat : Nat → Word) (arr : Word) (q i : Nat) : Word :=
  let a := 8 * i
  if a < 0x200 then x.r.getS (BitVec.ofNat 6 i)
  else if a < 0x400 then
    let n := 2 * (i - 0x40)
    ((x.r.getP (BitVec.ofNat 7 (n + 1))) ++ (x.r.getP (BitVec.ofNat 7 n))).setWidth 64
  else if a < 0x1400 then
    let k := i - 0x80
    wordOf (x.r.getV (BitVec.ofNat 5 (k / 16))).toNat (k % 16)
  else if a < 0x1600 then
    let k := i - 0x280
    let n := k / 8
    wordOf (if n < 4 then x.r.getC (BitVec.ofNat 2 n) else x.r.getCsh (BitVec.ofNat 2 n)).pack (k % 8)
  else if a < 0x1800 then
    let k := i - 0x2C0
    let n := k / 8
    wordOf (if n < 4 then x.r.getK (BitVec.ofNat 2 n) else x.r.getKsh (BitVec.ofNat 2 n)).pack (k % 8)
  else if a < 0x1C00 then x.ctlWord (i - 0x300)
  else if a < 0x2000 then
    let k := i - 0x380
    match x.c.loops[k / 8]? with | some l => l.word (k % 8) | none => 0#64
  else if a < 0x6000 then (Tab.getD x.r.q ((i - 0x400) / 256) {}).wordAt ((i - 0x400) % 256)
  else if a < 0x6040 then portWord x.f.ports (i - 0xC00)
  else if a < 0x6440 then lqWord x.f.lq (i - 0xC08)
  else if 0x6800 ≤ a && a < 0x6C00 then
    match x.c.window[(i - 0xD00) / 4]? with | some e => e.wordAt ((i - 0xD00) % 4) | none => 0#64
  else if 0x7000 ≤ a && a < 0x8000 then x.f.weights.wordAt (i - 0xE00)
  else if a = 0x8000 then BitVec.ofNat 64 x.f.dtime
  else if a = 0x8008 then arr
  else if 0x8400 ≤ a && a < 0x9000 then x.f.shadowWord ((i - 0x1080) / 8) fun e => e.head x.f.dtime ((i - 0x1080) % 8)
  else if 0x9000 ≤ a && a < 0x9400 then tstat (i - 0x1200)
  else if 0x10000 ≤ a then x.f.shadowWord ((i - 0x2000) / 512) fun e => e.value ((i - 0x2000) % 512)
  else freeWord 1 q i

/-! ### A group -/

/-- What a group's items show: the state of its quadrants, as the core holds it or as the image of the context last saved does. -/
structure GroupView where
  core : CoreSt
  joined : Bool := true
  rung : Nat := 0
  grace : Nat := 0
  kill : Nat := 0
  /-- Nodes that the core's walker holds of the context, as words. -/
  walker : List (List Word) := []
  deriving DecidableEq, Repr

/-- Firings of a node that have arrived and are not made: those that are deferred, when its group is pre-empted (spec/16 R337). -/
def State.firingsDue (s : State) (l : Launch) (i : Nat) (n : Node) : Nat :=
  if n.pred = 0 then 1 - n.f
  else
    let arr := ((s.pennant (arrivalOf l.abase n.die i)).count - n.base).toNat
    (if n.kind = 3 then arr + 1 - n.pred else arr / n.pred) - n.f

/-- Firings of compute nodes that wait on sequencers, loaded or saved. -/
def State.queuedRuns (s : State) (ctx : Nat) : List NodeRun :=
  (s.seqs.flatMap fun e => e.2.c.queued) ++ (s.ctx ctx).images.flatMap fun e => e.2.seqs.flatMap fun x => x.c.queued

/-- A node of a walker in sixteen words: its descriptor, base, firing count, deferred firings with those that wait on its sequencer above
them, firings under way and completed, its word, and its launch and number with a one (spec/22 R423; the places are a DESIGN CHOICE, log
48). -/
def State.nodeWords (s : State) (li : Nat) (l : Launch) (i : Nat) (n : Node) : List Word :=
  let vcore := (s.boundCores l.ctx).findIdx (· == n.core)
  let runs := ((s.queuedRuns l.ctx).filter fun r => r.launch == li && r.node == i).length
  [ BitVec.ofNat 64 (n.kind + n.q * 2 ^ 3 + (scopeBits n.scope).toNat * 2 ^ 5 + n.pred * 2 ^ 8 + vcore * 2 ^ 16),
    BitVec.ofNat 64 (packN 16 n.succ), n.arg, 0#64, n.base, BitVec.ofNat 64 n.f,
    BitVec.ofNat 64 (s.firingsDue l i n + runs * 2 ^ 32), BitVec.ofNat 64 (n.act + n.done * 2 ^ 32), n.w,
    BitVec.ofNat 64 (i + li % 2 ^ 32 * 2 ^ 16 + 2 ^ 63) ]

/-- The nodes of a context that the walker of a core holds. -/
def State.walkerWords (s : State) (ctx core : Nat) : List (List Word) :=
  (s.launches.filter fun e => e.2.ctx == ctx).flatMap fun e =>
    e.2.nodes.zipIdx.filterMap fun n => if n.1.core = core then some (s.nodeWords e.1 e.2 n.2 n.1) else none

def State.groupView (s : State) (gh : Nat) : GroupView :=
  let g := s.group gh
  let c := s.core (gh / 16)
  if g.mode = .running || g.mode = .saving then
    { core := c, joined := g.joined, rung := g.rung, grace := g.grace - g.age, kill := g.kill - g.age
      walker := s.walkerWords g.ctx (gh / 16) }
  else
    match Tab.get? (s.ctx g.last).images gh with
    | some i => { core := c.restore (maskOf gh) i, joined := i.joined, rung := i.rung, grace := i.grace, kill := i.kill
                  walker := i.walker }
    | none => { core := c }

/-- A protected context that is gone: what it left in a bank stays sealed until the bank is written anew (spec/22 R420). -/
abbrev goneSealed : Nat := 65536

/-- The contexts whose state a quadrant holds: the one that its group loads, runs, saves or scrubs away, and, until another runs there, the
one last saved from it. -/
def State.bankCtxs (s : State) (core quad : Nat) : List Nat :=
  let saved := match Tab.get? (s.core core).saved quad with | some (_, c) => [c] | none => []
  let cs : List Nat := match s.groupOf (4 * core + quad) with
    | some (_, g) => if g.mode == .running || g.mode == .saving then [g.ctx] else g.ctx :: saved
    | none => saved
  cs.filter (· != 0)

/-- The contexts whose state a group's items show. -/
def State.shownCtxs (s : State) (gh : Nat) : List Nat :=
  let g := s.group gh
  if g.mode != .running && g.mode != .saving && (Tab.get? (s.ctx g.last).images gh).isSome then [g.last]
  else (quads (maskOf gh)).flatMap fun k => s.bankCtxs (gh / 16) k

/-- The status word of a tile of a quadrant (spec/06 R143). -/
def CoreSt.tstatWord (c : CoreSt) (quad t : Nat) : Word := (Tab.getD c.tstat (128 * quad + t) 0#4).setWidth 64

/-- Live-bank and region bits of 32 lines, two a line in that order; those of other groups read zero (spec/22 R423). -/
def CoreSt.liveWord (c : CoreSt) (mask i : Nat) : Word :=
  BitVec.ofNat 64 ((List.range 32).foldl (fun a k =>
    let l := 32 * i + k
    if inBank mask (64 * l) then a + bit (c.live.contains l) (2 * k) + bit (c.region.contains l) (2 * k + 1) else a) 0)

/-- A copy of a channel in fifteen words: its template, its parameters, how far it has come, its queue and launch, its node with a one, and
who started it (the places are a DESIGN CHOICE, log 48). -/
def Copy.wordAt (c : Copy) (i : Nat) : Word :=
  match i with
  | 8 => BitVec.ofNat 64 (c.jsrc + c.jdst * 2 ^ 32)
  | 9 => BitVec.ofNat 64 c.pos
  | 10 => BitVec.ofNat 64 (c.queue + c.launch * 2 ^ 32)
  | 11 => match c.node with | some n => BitVec.ofNat 64 (n + 2 ^ 63) | none => 0#64
  | 12 => BitVec.ofNat 64 c.q
  | _ => c.words.getD i 0#64

/-- The 1 KiB of a channel: its status word, then its copies (spec/22 R423). -/
def Channel.wordAt (ch : Channel) (i : Nat) : Word :=
  if i = 0 then ch.word
  else match ch.copies[(i - 1) / 15]? with | some c => c.wordAt ((i - 1) % 15) | none => 0#64

/-- The group part of R423. The rung and what is left of its timers take a word each (DESIGN CHOICE, log 48). -/
def GroupView.part (v : GroupView) (gh i : Nat) : Word :=
  let a := 8 * i
  let mask := maskOf gh
  if a < 0x200 then (if inDescs mask i then (v.core.desc i).word else 0#64)
  else if a < 0x1200 then v.core.liveWord mask (i - 0x40)
  else if 0x2000 ≤ a && a < 0x6000 then (Tab.getD v.core.chans (mask * 16 + (a - 0x2000) / 1024) {}).wordAt (i % 128)
  else if a = 0x6000 then BitVec.ofNat 64 (bit v.joined 0)
  else if a = 0x6040 then BitVec.ofNat 64 v.rung
  else if a = 0x6048 then BitVec.ofNat 64 v.grace
  else if a = 0x6050 then BitVec.ofNat 64 v.kill
  else if 0x8000 ≤ a then (v.walker.getD ((i - 0x1000) / 16) []).getD (i % 16) 0#64
  else freeWord 2 gh i

/-- Scratchpad and accumulator banks by quadrant slot, and behind them the status words of the tiles, where a save area has them (spec/16
R335). -/
def GroupView.bankWord (v : GroupView) (gh i : Nat) : Word :=
  let a := 8 * i
  let c := v.core
  let quad := (quads (maskOf gh)).getD (a / 2 ^ 20) 0
  let o := a % 2 ^ 20
  if o < 2 ^ 18 then Mem.word c.spad (quad * 2 ^ 18 + o)
  else if o < 2 ^ 18 + 2 ^ 19 then
    let e := quad * 2 ^ 17 + (o - 2 ^ 18) / 4
    ((Tab.getD c.acc (e + 1) 0#32) ++ (Tab.getD c.acc e 0#32)).setWidth 64
  else if 0xC9000 ≤ o && o < 0xC9400 then c.tstatWord quad ((o - 0xC9000) / 8)
  else freeWord 3 gh i

/-! ### The save area (spec/16 R335, R355) -/

/-- The size of a save area. -/
def areaSize (gh : Nat) : Nat := 65536 + 2 ^ 20 * (quads (maskOf gh)).length

/-- What a save area holds, by offset: the group part, the banks' bytes, and the sequencer part of each quadrant slot. -/
def GroupView.areaBytes (v : GroupView) (gh : Nat) (seqs : List Seq) : List (Nat × List Byte) :=
  let word := fun (o : Nat) (w : Word) => if w = 0#64 then none else some (o, leBytes w.toNat 8)
  ((List.range 8192).filterMap fun i => word (8 * i) (v.part gh i)) ++
    (quads (maskOf gh)).zipIdx.flatMap fun e =>
      let b := 65536 + 2 ^ 20 * e.2
      ((Tab.keep v.core.spad fun o _ => o / 2 ^ 18 == e.1).map fun d => (b + d.1 % 2 ^ 18, [d.2])) ++
        ((v.core.acc.keep fun k _ => k / 2 ^ 17 == e.1).map fun d => (b + 2 ^ 18 + 4 * (d.1 % 2 ^ 17), leBytes d.2.toNat 4)) ++
        let x := seqs.getD e.2 {}
        let q := 4 * (gh / 16) + e.1
        (List.range 32768).filterMap fun i =>
          word (b + 0xC0000 + 8 * i) (x.readback (v.core.tstatWord e.1) (arrayWord gh v.joined q x.f.weights) q i)

/-- Every line of a save area is written, and what nothing is laid out for with zeros, but for the parts that are free: on the protected pages of a context under its key. -/
def State.writeArea (s : State) (pa ctx gh : Nat) (v : GroupView) (seqs : List Seq) : State :=
  let n := areaSize gh
  let s1 := s.scrubRange pa n
  let s2 := match s1.kid (s1.ctx ctx).ksl with
    | some k => if k = 0 then s1 else { s1 with mem := { s1.mem with
        key := (List.range (n / 64)).foldl (fun t i => Tab.put t (pa / 64 + i) k) s1.mem.key } }
    | none => s1
  s2.setDram ((v.areaBytes gh seqs).foldl (fun m e => Mem.write m (pa + e.1) e.2) s2.mem.dram)

/-- The image and the slot in it that hold the sequencer last saved from a quadrant. -/
def State.savedSeq (s : State) (q gh ctx : Nat) : Option (Image × Seq) :=
  (Tab.get? (s.ctx ctx).images gh).map fun m => (m, m.seqs.getD ((groupSeqs gh).findIdx (· == q)) {})

/-- The sequencer that class 1 reads: live, else as the context last saved from it stands in its image, or else in its save area; a quadrant
with no group reads zero (spec/22 R420). -/
def State.shownSeq (s : State) (q i : Nat) : Word :=
  match s.groupOf q with
  | none => 0#64
  | some (gh, g) =>
    if g.mode = .running || g.mode = .saving then
      (s.seq q).readback ((s.core (coreOf q)).tstatWord (quadOf q)) (arrayWord gh g.joined q (s.seq q).f.weights) q i
    else
      match Tab.get? (s.core (coreOf q)).saved (quadOf q) with
      | none => 0#64
      | some (h, ctx) =>
        match s.savedSeq q h ctx, Tab.get? (s.ctx ctx).areas h with
        | some (m, x), _ =>
          x.readback (((s.core (coreOf q)).restore (maskOf h) m).tstatWord (quadOf q)) (arrayWord h m.joined q x.f.weights) q i
        | none, some a =>
          Mem.word s.mem.dram (a.toNat + 65536 + 2 ^ 20 * (groupSeqs h).findIdx (· == q) + 0xC0000 + 8 * i)
        | none, none => 0#64

/-- The context whose sequencer class 1 shows. -/
def State.seqCtx (s : State) (q : Nat) : List Nat :=
  match s.groupOf q with
  | none => []
  | some (_, g) =>
    if g.mode = .running || g.mode = .saving then [g.ctx]
    else match Tab.get? (s.core (coreOf q)).saved (quadOf q) with | some (_, c) => if c = goneSealed then [] else [c] | none => []

end Sys2Proof.Machine
end

