-- ==== Sys2Proof/Machine/Context.lean ====
section
/-! DEFINITION. Contexts: pre-emption, save and load, the kill, teardown and scrubbing, and the context commands (spec/16 R332 to
R360, spec/11 R243, spec/15 R326). -/

namespace Sys2Proof.Machine

/-! ### Saving (spec/16 R337 to R341) -/

/-- Task boundaries: idle with nothing queued, or stopped. -/
def Seq.atBoundary (x : Seq) : Bool := (x.c.mode == .idle && x.c.queued.isEmpty) || x.c.mode == .stopped

/-- SAVE_START. -/
def execSaveStart (gh : Nat) (s : State) : Result :=
  let g := s.group gh
  .next (if g.mode = .running && g.rung = 1 && (groupSeqs gh).all fun q => (s.seq q).atBoundary then
    s.setGroup gh { g with mode := .saving } else s)

/-- A running sequencer halts at a bundle boundary. -/
def State.haltSeq (s : State) (q : Nat) : State :=
  if (s.seq q).c.mode = .running then
    let s1 := s.withdraw q
    let x := (s1.seq q).trim
    s1.setSeq q { x with c := { x.c with mode := .halted } }
  else s

/-- GRACE_TIMER_EXPIRE: the second rung. -/
def execGraceTimerExpire (gh : Nat) (s : State) : Result :=
  let g := s.group gh
  .next (if g.mode = .running && g.rung = 1 && decide (g.grace ≤ g.age) then
    ((groupSeqs gh).foldl State.haltSeq s).setGroup gh { g with mode := .saving, rung := 2 } else s)

/-- The local stores of a context's other sequencers of the cluster, which can name banks of a group that is saved (spec/15 R321). -/
def State.localStoresOf (s : State) (ctx cl : Nat) : List Instr :=
  let mine := fun (q : Nat) => clusterOf q == cl && s.ctxOf q == ctx
  (s.localStores cl).filter (fun i => match i with | .storePerform q _ => mine q | _ => false) ++
    (s.seqs.filter fun e => mine e.1).flatMap fun e => s.drainStreams e.1

/-- The earliest operation at the Halyards that the copies of a context on a core have sent and that is not performed. -/
def State.engineEvents (s : State) (core ctx : Nat) : List Instr :=
  match s.hal.find? fun e => e.q == engineOf core && e.ctx == ctx with
  | some e => [e.event]
  | none => []

/-- Everything that a save drains (spec/08 R201), the ends of regions that can come among it (spec/03 R82). -/
def State.saveEvents (s : State) (gh : Nat) : List Instr :=
  let core := gh / 16
  (groupSeqs gh).flatMap (fun q => s.settle q ++ s.halEvents q ++ s.drainStreams q ++
      if (s.seq q).regionReady then [.specRegionEnd q] else []) ++
    s.engineEvents core (s.group gh).ctx ++ s.localStoresOf (s.group gh).ctx (clusterOfCore core) ++
    ((s.core core).chans.filter fun e => e.1 / 16 == maskOf gh && !e.2.copies.isEmpty).map fun e => e.2.event (core * 256 + e.1)

/-- Put an entry into a shadow buffer, which stands in ascending finality (spec/16 R342). -/
def insShadow (e : Shadow) : List Shadow → List Shadow
  | [] => [e]
  | h :: t => if e.fin < h.fin then e :: h :: t else h :: insShadow e t

/-- Results short of finality move into the shadow buffer, and their tiles go back to what they held (spec/16 R341). -/
def State.moveTiles (s : State) (q : Nat) : State :=
  let x := s.seq q
  let f := x.f
  let open_ := f.tiles.filter fun w => f.dtime < w.fin
  let mine := open_.filter fun w => !(f.shadow.any fun e => e.fin == w.fin && e.tile == w.tile)
  let back := mine.reverse.foldl (fun (c : CoreSt) w =>
    c.setRegion w.tile w.row0 w.col0 w.cols (w.vals.map fun l => l.headD 0#32)) (s.core (coreOf q))
  let entries := mine.map fun w => ({ tile := w.tile, row0 := w.row0, rows := w.rows, col0 := w.col0, cols := w.cols,
                                      vals := w.vals.map fun l => l.getLastD 0#32, fin := w.fin } : Shadow)
  (s.setCore (coreOf q) back).setSeq q
    { x with f := { f with shadow := entries.foldl (fun l e => insShadow e l) f.shadow, tiles := open_.map fun w => { w with complete := false } } }

/-- Registers as a save leaves them: vectors that a read stream fetched and did not consume are discarded, and its fills start again at
the first step not consumed (spec/05 R133). -/
def Regs.saved (r : Regs) : Regs :=
  { r with q := r.q.mapv fun _ (st : Stream) => if st.pat.dirW then st else { st with queue := [], pos := st.taken, fault := none } }

/-- A sequencer as a save leaves it, with what nodes of other launches left there; the transfer or back edge behind the last bundle has been
made (spec/03 R53). -/
def Seq.saved (x : Seq) : Seq :=
  let y := x.passEnd
  { y with r := y.r.saved, c := { y.c with kept := y.c.kept.mapv fun _ k => { k with r := k.r.saved } } }

/-- A status record of a pre-emption (spec/16 R350). -/
def State.putPreempted (s : State) (gh rung ctx : Nat) : State :=
  s.putStatus ((groupSeqs gh).headD 0) ctx 2 7 0#64 2
    { code := 0x40, w4 := BitVec.ofNat 64 (gh * 65536 + rung) }

/-- A save has put its state away: the group is free of the context. -/
def State.finishSave (s : State) (gh : Nat) : State :=
  let g := s.group gh
  let ctx := g.ctx
  let core := gh / 16
  let stopped := (groupSeqs gh).any fun q => (s.seq q).c.mode == .stopped
  let s1 := if g.rung = 2 || stopped then s.putPreempted gh g.rung ctx else s
  let s2 := (groupSeqs gh).foldl State.moveTiles s1
  let seqs := (groupSeqs gh).map fun q => (s2.seq q).saved
  let s3 := match Tab.get? (s2.ctx ctx).areas gh with
    | some a => (s2.writeArea a.toNat ctx gh (s2.groupView gh) seqs).count ctx .wr (areaSize gh)
    | none => s2
  let img := { (s3.core core).image (maskOf gh) seqs g.joined g.rung with
    grace := g.grace - g.age, kill := g.kill - g.age, walker := (s2.groupView gh).walker }
  let c := s3.ctx ctx
  let s4 := s3.setCtx ctx { c with images := Tab.put c.images gh img }
  let s5 := { s4 with seqs := s4.seqs.keep fun q _ => !(groupSeqs gh).contains q }
  let s6 := s5.setCore core { s5.core core with
    l1 := (s5.core core).l1.keep fun _ x => x.ctx != ctx, chans := (s5.core core).chans.keep fun k _ => k / 16 != maskOf gh
    saved := (quads (maskOf gh)).foldl (fun t k => Tab.put t k (gh, ctx)) (s5.core core).saved }
  let o := s6.owner c.owner
  let s7 := s6.setOwner c.owner { o with saves := satAdd o.saves 1 }
  let s8 := s7.setGroup gh { g with
    mode := if g.dpend || g.rpend then .scrubbing else .idle, ctx := 0, rung := 0, age := 0, joined := true, cls := 0, held := false,
    last := ctx }
  let still := (s8.boundGroups ctx).any fun e => e.2.ctx == ctx && e.2.mode != .idle && e.2.mode != .scrubbing
  let s9 := if still then s8 else s8.setCtx ctx { s8.ctx ctx with mode := .ready }
  s9.answerAll (.save gh) stDone

/-- CONTEXT_SAVE_COMPLETE: everything started is performed, a release at .sy made, and the state written (spec/16 R340,
spec/08 R201). -/
def execContextSaveComplete (gh : Nat) (s : State) : Result :=
  let g := s.group gh
  if g.mode ≠ .saving then .next s
  else
    let evs := s.saveEvents gh
    if !evs.isEmpty then .next (s.stallOn evs)
    else
      let area := match Tab.get? (s.ctx g.ctx).areas gh with | some a => [(a.toNat, areaSize gh)] | none => []
      match (s.relGate (gh / 16) g.ctx).orElse fun _ => s.runsGate area with
      | some (s1, evs) => .next (s1.stallOn evs)
      | none => .next ((s.release (gh / 16) g.ctx .sy).finishSave gh)

/-! ### Loading (spec/16 R336, R340, R349, R353) -/

/-- The images of a context move to the groups that the beginning of its load chose, and its nodes move with them (spec/16 R353, spec/15
R328). A core on which the context still runs keeps its place among the virtual cores. -/
def State.migrate (s : State) (ctx : Nat) : State :=
  match (s.ctx ctx).moving with
  | [] => s
  | ps =>
    let c := s.ctx ctx
    let runs := fun (k : Nat) => (s.boundGroups ctx).any fun e => e.1 / 16 == k && (e.2.mode == .running || e.2.mode == .saving) &&
      e.2.ctx == ctx
    let core := fun (k : Nat) => if runs k then k else match ps.find? fun p => p.1 / 16 == k with | some p => p.2 / 16 | none => k
    let place := fun (n : Node) =>
      if n.kind = 0 then
        match ps.find? fun p => p.1 / 16 == n.core && (maskOf p.1).testBit n.q with | some p => p.2 / 16 | none => n.core
      else core n.core
    let s1 := s.setCtx ctx { c with images := ps.filterMap fun p => (Tab.get? c.images p.1).map fun i => (p.2, i), moving := [] }
    { s1 with launches := s1.launches.mapv fun _ l =>
        if l.ctx = ctx then { l with nodes := l.nodes.map fun n => { n with core := place n }, cores := l.cores.map core } else l }

/-- A restored sequencer: one that the second rung halted runs on, replaying its window; one whose resumption is pending resumes
(spec/16 R339, R349, R350). -/
def Seq.restored (x : Seq) (rung : Nat) : Seq :=
  let y := { x with c := { x.c with preq := false, rsm := if rung = 2 then x.c.rsm + 1#32 else x.c.rsm } }
  match y.c.mode, y.c.resume with
  | .halted, _ => { y with c := { y.c with mode := .running, replay := y.c.window.head?.map (·.bn) } }
  | .stopped, some pc => ({ y with c := { y.c with resume := none } } : Seq).resumeAt pc
  | _, _ => y

/-- CONTEXT_LOAD_COMPLETE. A resumption acts as an acquire at .sy (spec/08 R201). -/
def execContextLoadComplete (gh : Nat) (s : State) : Result :=
  let g := s.group gh
  if g.mode ≠ .loading then .next s
  else
    let s0 := s.migrate g.ctx
    let c := s0.ctx g.ctx
    let img := (Tab.get? c.images gh).getD (firstImage gh)
    let core := gh / 16
    let s1 := s0.setCore core ((s0.core core).restore (maskOf gh) img)
    let s2 := ((groupSeqs gh).zip img.seqs).foldl (fun s e => s.setSeq e.1 (e.2.restored img.rung)) s1
    let s2a := s2.setCtx g.ctx { c with images := Tab.erase c.images gh }
    let s3 := if (Tab.get? c.images gh).isSome then (s2a.bumpAll core).count g.ctx .rd (areaSize gh) else s2a
    let s4 := s3.setGroup gh { g with mode := .running, joined := img.joined, asked := none }
    let s5 := (s4.retryRecords g.ctx).workEnded s
    .next (match g.asked with
      | some t => s5.requestRung gh t (s5.ctx g.ctx).kill.toNat
      | none => if g.dpend then s5.requestOwn gh else s5)

/-! ### The kill (spec/16 R343) -/

/-- The open patches that the ports of a sequencer hold, those that other launches left in them among them. -/
def Seq.openPorts (x : Seq) : List Port :=
  ((x.f.ports.map (·.2)) ++ x.c.kept.flatMap fun e => e.2.ports.map (·.2)).filter fun p => !p.view

/-- The open patches that the saved images of a context hold. -/
def Ctx.openPorts (c : Ctx) : List (Nat × Port) :=
  c.images.flatMap fun e => e.2.seqs.flatMap fun x => x.openPorts.map fun p => (e.1, p)

/-- Drop one open patch of a context, with the context's own translations (spec/09 R236). An entry that the context does not hold open any
more stays as it is. -/
def State.dropFor (s : State) (ctx gh : Nat) (p : Port) : Try Unit :=
  let g : Group := { mode := .running, ctx := ctx }
  let q := (groupSeqs gh).headD 0
  (({ s with groups := [(gh, g)] } : State).paLoad q p.record).bind fun s1 t =>
    (match t.entry p.entry with
      | some e => if e.closed || e.cctx != ctx then Try.ok s1 () else s1.dropOpen q p
      | none => .ok s1 ()).bind fun s2 _ => .ok { s2 with groups := s.groups } ()

/-- Drop the open patches that are still to be dropped. A drop that waits is tried again; a trap of one is discarded, as every trap of a
kill is (spec/16 R351). -/
def State.dropAll (s : State) (ctx : Nat) : List (Nat × Port) → State × List Instr
  | [] => (s.setCtx ctx { s.ctx ctx with drops := [] }, [])
  | d :: t =>
    match s.dropFor ctx d.1 d.2 with
    | .ok s1 _ => s1.dropAll ctx t
    | .trap _ _ => s.dropAll ctx t
    | .wait s1 evs =>
      let s2 : State := { s with mem := { s.mem with bisnp := s1.mem.bisnp } }
      (s2.setCtx ctx { s2.ctx ctx with drops := d :: t }, evs)

/-- A sequencer of a killed context: its open patches are to be dropped, waits are withdrawn, the locks of an undecided mcas
released. -/
def State.killSeq (s : State) (ctx gh q : Nat) : State :=
  let c := s.ctx ctx
  let s1 := s.setCtx ctx { c with drops := c.drops ++ (s.seq q).openPorts.map fun p => (gh, p) }
  let s2 := (s1.withdraw q).unlock q
  { s2 with seqs := Tab.erase s2.seqs q, hal := s2.hal.filter fun e => e.q != q }

/-- A kill writes the dirty bytes of the L1 outward, which is into the L2 of its cluster (DEDUCED, log 11). -/
def State.killPush (s : State) (core ctx : Nat) : State := s.pushL1 core ctx

/-- A group on which a killed context was being loaded, ran, or was being saved. -/
def State.killGroup (s : State) (ctx gh : Nat) : State :=
  let g := s.group gh
  if g.ctx = ctx && (g.mode == .loading || g.mode == .running || g.mode == .saving) then
    let core := gh / 16
    let s1 := (groupSeqs gh).foldl (fun s q => s.killSeq ctx gh q) s
    let s2 := (s1.endCopies core (maskOf gh)).killPush core ctx
    (s2.setGroup gh { g with mode := .scrubbing, joined := true, held := false, rung := 0, age := 0, asked := none }).answerAll (.save gh) stDone
  else s

/-- The context's launches end without their done pennants, and its queues halt (spec/14 R309). Work that the kill ends is work that its
owner had before it, in `before`. -/
def State.killQueues (s : State) (ctx : Nat) (before : State) : State :=
  let gone := s.launches.filter fun e => e.2.ctx == ctx
  let s1 := { s with
    launches := s.launches.keep fun _ l => l.ctx != ctx
    queues := s.queues.mapv fun _ (q : Queue) =>
      if q.ctx = ctx && (q.mode == QMode.active || q.mode == QMode.paused) then { q with mode := .halted, rcode := 9#8, children := [] }
      else q }
  let s2 := gone.foldl (fun s e => s.freeDrained e.2.queue) s1
  s2.workEnded before

/-- A kill begins. -/
def State.beginKill (s : State) (ctx : Nat) (destroy : Bool) : State :=
  let s1 := (s.boundGroups ctx).foldl (fun s e => s.killGroup ctx e.1) s
  let s2 := s1.killQueues ctx s
  let c := s2.ctx ctx
  let s3 := { s2 with dies := s2.dies.mapv fun _ d => { d with walks := d.walks.filter fun w => w.ctx != ctx } }
  s3.setCtx ctx { c with
    mode := .killing, images := [], moving := [], left := [], drops := c.drops ++ c.openPorts ++ c.left, destroy := c.destroy || destroy }

/-- KILL_TIMER_EXPIRE: the third rung. -/
def execKillTimerExpire (gh : Nat) (s : State) : Result :=
  let g := s.group gh
  .next (if (g.mode == .running || g.mode == .saving) && g.rung != 0 && decide (g.kill ≤ g.age) then s.beginKill g.ctx false else s)

/-! ### Teardown (spec/16 R357 to R360) -/

/-- Runs of physical memory that a teardown scrubs: save areas, and the scrub list. Sizes are in blocks of 64 KiB. -/
def Ctx.scrubRuns (c : Ctx) : List (Nat × Nat) :=
  (c.areas.map fun e => (e.2.toNat, 1 + 16 * (quads (maskOf e.1)).length)) ++ c.scrubList

/-- The blocks of the overflow areas that hold pennants of the windows, which their scrub zeroes. -/
def State.ovfRuns (s : State) (c : Ctx) : List (Nat × Nat) :=
  c.wins.filterMap fun e =>
    match (s.die e.1).ovf with
    | some (base, _) =>
      if 65536 < e.2.1 + e.2.2 then
        let lo := max e.2.1 65536 - 65536
        let hi := e.2.1 + e.2.2 - 65536
        some (base + 16 * lo / 65536 * 65536, (16 * hi + 65535) / 65536 - 16 * lo / 65536)
      else none
    | none => none

/-- Blocks of some runs on a die. -/
def blocksOn (runs : List (Nat × Nat)) (die : Nat) : Nat := (runs.filter fun r => paDie r.1 == die).foldl (fun a r => a + r.2) 0

/-- The progress registers at the start of a scrub. -/
def State.startScrub (s : State) (ctx : Nat) (runs : List (Nat × Nat)) : State :=
  (List.range 16).foldl (fun s d => s.setDie d { s.die d with
    scrub := { ctx := BitVec.ofNat 16 ctx, state := 1#2, done := 0#22, left := BitVec.ofNat 22 (blocksOn runs d) } }) s

/-- Every cache line that a context filled is invalidated; dirty bytes go outward first, and leave their ways to wait where the home cannot
take them yet. -/
def State.dropLines (s : State) (ctx : Nat) : State :=
  let s1 := s.cores.foldl (fun s e =>
    let t := s.pushL1 e.1 ctx
    t.setCore e.1 { t.core e.1 with
      l1 := (t.core e.1).l1.keep fun _ x => x.ctx != ctx, icache := (t.core e.1).icache.keep fun k _ => k % 65536 != ctx }) s
  let s2 := s1.clusters.foldl (fun s e =>
    let s1 := (s.cluster e.1).scopedCopies.foldl (fun s c => if c.2.ctx = ctx then s.putOutCopy e.1 c.1 else s) s
    (s1.cluster e.1).l2.foldl (fun s l => if l.2.ctx = ctx then s.putOut e.1 l.1 l.2 else s) s1) s1
  s2.dies.foldl (fun s e => (s.die e.1).msc.foldl (fun s l => if l.2.ctx = ctx then s.dropMsc e.1 l.1 else s) s) s2

/-- Steps 2 to 4 of R357 begin: the key slot is zeroised, cached lines invalidated, and the scrub started and journalled. -/
def State.beginTeardown (s : State) (ctx : Nat) : State :=
  let c := s.ctx ctx
  let s1 := if c.ksl = 0 then s else { s with mast := { s.mast with keys := Tab.put s.mast.keys c.ksl .zeroising } }
  let s2 := s1.dropLines ctx
  let runs := c.scrubRuns
  let all := runs ++ s2.ovfRuns c
  let s3 := (s2.startScrub ctx all).setCtx ctx { c with mode := .teardown, destroy := false, images := [], moving := [], left := [], drops := [], scrubList := runs }
  let s4 := { s3 with mast := { s3.mast with journal := s3.mast.journal ++ [(ctx, all)] } }
  s4.answerAll (.teardown ctx) stDone

/-- KILL_COMPLETE: the open patches are dropped first (spec/09 R236). -/
def execKillComplete (ctx : Nat) (s : State) : Result :=
  let c := s.ctx ctx
  if c.mode ≠ .killing then .next s
  else
    match s.dropAll ctx c.drops with
    | (s0, []) =>
      let s1 := s0.setCtx ctx { s0.ctx ctx with mode := .ready }
      let s2 := if c.destroy then s1.beginTeardown ctx else s1
      .next (s2.answerAll (.kill ctx) stDone)
    | (s0, evs) => .next (s0.stallOn evs)

/-- The scrub of a context: memory, pennants of its windows, promoted rows. -/
def State.scrubCtx (s : State) (ctx : Nat) (c : Ctx) (runs : List (Nat × Nat)) : State :=
  let s0 := runs.foldl (fun s r => s.scrubRange r.1 (65536 * r.2)) s
  let s1 := c.wins.foldl (fun s w => s.zeroPens w.1 w.2.1 (w.2.1 + w.2.2)) s0
  { s1 with dies := s1.dies.mapv fun _ x => { x with
      promo := x.promo.mapv fun _ rs => rs.filter fun r => r.ctx != ctx
      scrub := if x.scrub.ctx.toNat = ctx then
          { x.scrub with state := 2#2, done := x.scrub.done + x.scrub.left, left := 0#22 } else x.scrub } }

/-- CONTEXT_SCRUB_COMPLETE: every die has completed; the context is free and bound nowhere, and no item shows it; what a protected one left
in the banks of idle groups stays sealed (spec/22 R420). The engines recall each line that they write (spec/16 R357, spec/18 R376). -/
def execContextScrubComplete (ctx : Nat) (s : State) : Result :=
  let c := s.ctx ctx
  if c.mode ≠ .teardown then .next s
  else match s.runsGate ((c.scrubList ++ s.ovfRuns c).map fun r => (r.1, 65536 * r.2)) with
  | some (s1, evs) => .next (s1.stallOn evs)
  | none =>
    let s1 := s.scrubCtx ctx c c.scrubList
    let left := fun (t : Tab (Nat × Nat)) =>
      if c.ksl = 0 then t.keep fun _ e => e.2 != ctx else t.mapv fun _ e => if e.2 = ctx then (0, goneSealed) else e
    .next { s1 with
      ctxs := Tab.erase s1.ctxs ctx
      groups := s1.groups.mapv fun _ g => { g with bound := g.bound.filter (· != ctx), last := if g.last = ctx then 0 else g.last }
      cores := s1.cores.mapv fun _ k => { k with saved := left k.saved }
      mast := { s1.mast with journal := s1.mast.journal.filter fun e => e.1 != ctx } }

/-! ### The context commands (spec/16 R334) -/

/-- Whether a context identifier is legal, and whether the context exists. -/
def ctxNum (ctx : Word) : Bool := decide (1 ≤ num ctx) && decide (num ctx ≤ 65535)
def State.ctxLives (s : State) (ctx : Word) : Bool := (s.ctx (num ctx)).mode != .free
/-- A context that can still be changed: not under teardown. -/
def State.ctxOpen (s : State) (ctx : Word) : Bool := s.ctxLives ctx && (s.ctx (num ctx)).mode != .teardown

/-- One that CDESTROY has not named either (spec/16 R359). -/
def State.ctxKept (s : State) (ctx : Word) : Bool := s.ctxOpen ctx && !(s.ctx (num ctx)).destroy

/-- Whether a context is loaded, or being loaded or saved, on a group. -/
def Group.has (g : Group) (ctx : Nat) : Bool :=
  g.ctx == ctx && (g.mode == .loading || g.mode == .running || g.mode == .saving)

/-- Whether a context is loaded anywhere, or on a group of a die. -/
def State.loadedAny (s : State) (ctx : Nat) : Bool := s.groups.any fun e => e.2.has ctx
def State.loadedOnDie (s : State) (ctx die : Nat) : Bool := s.groups.any fun e => dieOfCore (e.1 / 16) == die && e.2.has ctx

def execCcreate (f : Nat) (ctx owner fring flog notify grace kill ksl : Word) (s : State) : Result :=
  runCommand f (some fun _ o => num owner == o)
    (ctxNum ctx && decide (num owner ≤ 63) && decide (num fring < 2 ^ 56) && num fring % 64 == 0 && decide (4 ≤ num flog) &&
      decide (num flog ≤ 16) && decide (num notify < 2 ^ 32) && decide (num kill < 2 ^ 32) && decide (num grace ≤ num kill) &&
      decide (num ksl ≤ 127))
    (fun s =>
      let loaded := match Tab.getD s.mast.keys (num ksl) .empty with | .loaded _ => true | _ => false
      .guard s (!s.ctxLives ctx && (s.owner (num owner)).used && decide (s.ctxs.length < 4096) &&
          (num ksl == 0 || (loaded && !(s.ctxs.any fun e => e.2.mode != .free && e.2.ksl == num ksl))))
        (.ok (s.setCtx (num ctx)
          { mode := .ready, owner := num owner, fring := fring, flog := num flog, notify := notify.setWidth 32,
            grace := grace.setWidth 32, kill := kill.setWidth 32, ksl := num ksl }))) s

def execCset (f : Nat) (ctx grace kill : Word) (s : State) : Result :=
  runCommand f (some (ctxMine ctx)) (ctxNum ctx && decide (num kill < 2 ^ 32) && decide (num grace ≤ num kill))
    (fun s => .guard s (s.ctxOpen ctx)
      (.ok (s.setCtx (num ctx) { s.ctx (num ctx) with grace := grace.setWidth 32, kill := kill.setWidth 32 }))) s

/-- The stage-2 leaves of a context: intermediate address, size, entry, and where the entry lies. -/
def State.leaves (s : State) (t ipa lv : Nat) : Nat → List (Nat × Nat × Word × Nat)
  | 0 => []
  | fuel + 1 =>
    let n := if lv = 0 then 16 else if lv = 4 then 32 else 512
    let step := match lv with | 0 => 2 ^ 48 | 1 => 2 ^ 39 | 2 => 2 ^ 30 | 3 => 2 ^ 21 | _ => 2 ^ 16
    (List.range n).flatMap fun i =>
      let at_ := t + 8 * i
      let e := s.engWord at_
      if !eV e then []
      else if eT e then s.leaves (eAddr e) (ipa + i * step) (lv + 1) fuel
      else [(ipa + i * step, step, e, at_)]

def State.ctxLeaves (s : State) (ctx : Nat) : List (Nat × Nat × Word × Nat) := s.leaves (s.ctx ctx).root2.toNat 0 0 5

/-- Whether a physical range meets a leaf inside the coherence domain. -/
def leafMeets (e : Nat × Nat × Word × Nat) (pa n : Nat) : Bool := !eNc e.2.2.1 && overlap (eAddr e.2.2.1) e.2.1 pa n

/-- The runs of a context that a CDESTROY keeps blocked: those that a teardown under way scrubs, or that one will which waits for the
kill (spec/16 R359). -/
def Ctx.blockedRuns (c : Ctx) : List (Nat × Nat) :=
  if c.mode = .teardown then c.scrubList else if c.destroy then c.scrubRuns else []

def State.blocked (s : State) (pa n : Nat) : Bool :=
  s.ctxs.any fun e => e.2.blockedRuns.any fun r => overlap r.1 (65536 * r.2) pa n

/-- Whether a range lies in the slow rows or the F-region of one stack of this module. -/
def State.inStack (s : State) (pa n : Nat) : Bool :=
  paDev pa == s.link.dev.toNat && decide (pa < 2 ^ 52) && paRsv pa == 0 && pa / 2 ^ 44 == (pa + n - 1) / 2 ^ 44 &&
    decide (paOff pa + n ≤ if paFast pa then (s.die (paDie pa)).fr * 2 ^ 28 else 2 ^ 37)

/-- Whether every 64 KiB of a range lies on protected pages of a context. -/
def State.protectedRange (s : State) (ctx pa n : Nat) : Bool :=
  let ls := (s.ctxLeaves ctx).filter fun e => eKsl e.2.2.1 == (s.ctx ctx).ksl && !eNc e.2.2.1
  (List.range (n / 65536)).all fun i => ls.any fun e => eAddr e.2.2.1 ≤ pa + 65536 * i && pa + 65536 * i < eAddr e.2.2.1 + e.2.1

def execCarea (f : Nat) (ctx gh addr : Word) (s : State) : Result :=
  runCommand f (some fun s o => ctxMine ctx s o && groupMine gh s o)
    (ctxNum ctx && decide (num gh < 65536) && num addr % 65536 == 0 && s.inStack (num addr) (areaSize (num gh)) &&
      paDie (num addr) == dieOfCore (num gh / 16))
    (fun s =>
      let c := s.ctx (num ctx)
      let n := areaSize (num gh)
      let g := s.group (num gh)
      let mapped := if c.ksl = 0 then !((s.ctxLeaves (num ctx)).any fun e => leafMeets e (num addr) n)
        else s.protectedRange (num ctx) (num addr) n
      .guard s (s.ctxKept ctx && g.mode != .absent && !g.has (num ctx) && !s.blocked (num addr) n && mapped)
        (.ok (s.setCtx (num ctx) { c with areas := Tab.put c.areas (num gh) addr }))) s

/-- CWIN (spec/11 R243): pennants that enter the window are zeroed. -/
def execCwin (f : Nat) (ctx die base count : Word) (s : State) : Result :=
  runCommand f (some (ctxMine ctx)) (ctxNum ctx && decide (num die ≤ 15) && decide (num base + num count ≤ 2 ^ 28))
    (fun s =>
      let c := s.ctx (num ctx)
      let d := num die
      let b := num base
      let n := num count
      let old := Tab.get? c.wins d
      let keeps := match old with | some (b0, n0) => decide (b ≤ b0) && decide (b0 + n0 ≤ b + n) | none => true
      let clash := n != 0 && s.ctxs.any fun e =>
        e.1 != num ctx && match Tab.get? e.2.wins d with | some (b1, n1) => overlap b n b1 n1 | none => false
      let top := 65536 + match (s.die d).ovf with | some (_, k) => k | none => 0
      .guard s (s.ctxKept ctx && !clash && (n == 0 || decide (b + n ≤ top)) && (keeps || !s.loadedOnDie (num ctx) d))
        (let s1 := match old with
          | some (b0, n0) => (s.zeroPens d b (min (b + n) b0)).zeroPens d (max b (b0 + n0)) (b + n)
          | none => s.zeroPens d b (b + n)
         .ok ((s1.setCtx (num ctx) { c with wins := if n = 0 then Tab.erase c.wins d else Tab.put c.wins d (b, n) }).workEnded s))) s

/-- The lines that a cache of a kind holds (spec/07 R160, R161, spec/18 R390). -/
def cacheLines (kind : Nat) : Nat :=
  match kind with
  | 0 => 2048
  | 1 => 131072
  | _ => 49152

def execClimit (f : Nat) (ctx kind lines : Word) (s : State) : Result :=
  runCommand f (some (ctxMine ctx)) (ctxNum ctx && decide (num kind ≤ 2) && decide (num lines ≤ cacheLines (num kind)))
    (fun s => .guard s (s.ctxOpen ctx)
      (let c := s.ctx (num ctx)
       .ok (s.setCtx (num ctx) { c with limits := Tab.put c.limits (num kind) (num lines) }))) s

/-- CPREEMPT: its response follows the save (spec/22 R421). -/
def execCpreempt (f : Nat) (ctx gh grace : Word) (s : State) : Result :=
  runCommand f (some fun s o => ctxMine ctx s o && groupMine gh s o)
    (ctxNum ctx && decide (num gh < 65536) && decide (num grace < 2 ^ 32))
    (fun s =>
      let c := s.ctx (num ctx)
      let g := s.group (num gh)
      let t := min (num grace) c.grace.toNat
      .guard s (s.ctxOpen ctx && g.mode != .absent && g.bound.contains (num ctx))
        (if g.ctx ≠ num ctx then .ok s
         else if g.mode = .running then .later (s.requestRung (num gh) t c.kill.toNat) (.save (num gh))
         else if g.mode = .loading then .later (s.setGroup (num gh) { g with asked := some t }) (.save (num gh))
         else .ok s)) s

/-- CRESUME (spec/16 R349). -/
def execCresume (f : Nat) (ctx seq pc : Word) (s : State) : Result :=
  runCommand f (some (ctxMine ctx)) (ctxNum ctx && decide (num seq < 16384) && num pc % 16 == 0)
    (fun s =>
      let q := num seq
      let x := s.seq q
      match s.groupOf q with
      | none => .refuse s
      | some (gh, g) =>
        if g.ctx = num ctx && g.mode = .running then
          .guard s (x.c.mode == .stopped) (.ok (s.setSeq q (x.resumeAt pc)))
        else if g.ctx = num ctx && g.mode = .saving then
          .guard s (x.c.mode == .stopped) (.ok (s.setSeq q { x with c := { x.c with resume := some pc } }))
        else
          let c := s.ctx (num ctx)
          match Tab.get? c.images gh with
          | none => .refuse s
          | some i =>
            let k := (groupSeqs gh).findIdx (· == q)
            let y := i.seqs.getD k {}
            .guard s (s.ctxLives ctx && y.c.mode == .stopped)
              (.ok (s.setCtx (num ctx) { c with
                images := Tab.put c.images gh { i with seqs := i.seqs.set k { y with c := { y.c with resume := some pc } } } }))) s

/-- CKILL: its response follows the end of the kill. -/
def execCkill (f : Nat) (ctx : Word) (s : State) : Result :=
  runCommand f (some (ctxMine ctx)) (ctxNum ctx)
    (fun s => .guard s (s.ctxOpen ctx)
      (.later (if (s.ctx (num ctx)).mode = .killing then s else s.beginKill (num ctx) false) (.kill (num ctx)))) s

/-- CKEY: the wrapping's 64 bytes are the two keys under the session key with their SM3 check (spec/16 R356). -/
def execCkey (f : Nat) (slot keys : Word) (s : State) : Result :=
  runCommand f (some anyMine) (decide (1 ≤ num slot) && decide (num slot ≤ 127))
    (fun s =>
      let blocked := s.ctxs.any fun e => e.2.mode == .teardown && e.2.ksl == num slot
      .guard s (Tab.getD s.mast.keys (num slot) .empty == .empty && !blocked)
        (match Config.unwrapKeys (s.mail f).session (leNat (s.hostRead (num keys) 64)) with
         | some k => .ok { s with mast := { s.mast with keys := Tab.put s.mast.keys (num slot) (.loaded (k + 1)) } }
         | none => .done s stIntegrity [])) s

/-- The runs of a scrub list in host memory. -/
def State.readRuns (s : State) (list n : Nat) : List (Nat × Nat) :=
  (List.range n).map fun i => ((s.hostWord (list + 16 * i)).toNat, (s.hostWord (list + 16 * i + 8)).toNat)

/-- CDESTROY: its response follows step 3 of R357, after the kill of a loaded context. -/
def execCdestroy (f : Nat) (ctx list count : Word) (s : State) : Result :=
  let runs := s.readRuns (num list) (num count)
  runCommand f (some (ctxMine ctx))
    (ctxNum ctx && runs.all fun r => r.1 % 65536 == 0 && r.2 != 0 && s.inStack r.1 (65536 * r.2))
    (fun s => .guard s (s.ctxOpen ctx)
      (let c := s.ctx (num ctx)
       let s1 := s.setCtx (num ctx) { c with scrubList := c.scrubList ++ runs }
       match c.mode with
       | .ready =>
         match s.dropAll (num ctx) (c.openPorts ++ c.left) with
         | (_, []) =>
           let s2 := (s1.dropAll (num ctx) (c.openPorts ++ c.left)).1
           .ok ((s2.killQueues (num ctx) s2).beginTeardown (num ctx))
         | (s2, evs) => .wait { s with mem := { s.mem with bisnp := s2.mem.bisnp } } evs
       | .killing => .later (s1.setCtx (num ctx) { s1.ctx (num ctx) with destroy := true }) (.teardown (num ctx))
       | _ => .later (s1.beginKill (num ctx) true) (.teardown (num ctx)))) s

def CtxMode.code : CtxMode → Nat
  | .free => 0 | .ready => 1 | .active => 2 | .killing => 3 | .teardown => 4

def Mode.code : Mode → Nat
  | .idle => 0 | .running => 1 | .halted => 1 | .stopped => 2

/-- The state of every sequencer of a context (spec/16 R345), in ascending order of its groups' handles and of their quadrants: idle 0,
running 1, stopped 2, saved 3. -/
def State.ctxSeqs (s : State) (ctx : Nat) : List Nat :=
  (s.boundGroups ctx).flatMap fun e => (groupSeqs e.1).map fun q =>
    if e.2.has ctx then (s.seq q).c.mode.code else if (Tab.get? (s.ctx ctx).images e.1).isSome then 3 else 0

/-- Thirty-two of them to a word. -/
def packSeqs (cs : List Nat) : List Word :=
  (List.range ((cs.length + 31) / 32)).map fun i => BitVec.ofNat 64 (packN 2 ((cs.drop (32 * i)).take 32))

/-- A context's attributes and state, one to a word, in the order of R332, the state of its sequencers, then its save areas (DESIGN CHOICE,
log 41). -/
def State.ctxWords (s : State) (ctx : Nat) : List Word :=
  let c := s.ctx ctx
  [BitVec.ofNat 64 c.owner, c.fring, BitVec.ofNat 64 c.flog, c.notify.setWidth 64, c.grace.setWidth 64, c.kill.setWidth 64,
   BitVec.ofNat 64 c.ksl, BitVec.ofNat 64 c.mode.code] ++ packSeqs (s.ctxSeqs ctx) ++ c.areas.map (·.2)

def execCread (f : Nat) (ctx : Word) (s : State) : Result :=
  runCommand f (some (ctxMine ctx)) (ctxNum ctx) (fun s => .done s stDone (s.ctxWords (num ctx))) s

end Sys2Proof.Machine
end

