-- ==== Sys2Proof/Machine/Group.lean ====
section
/-! DEFINITION. Groups, queues and owners: the scrub of a group and Masthead's commands (spec/15 R319 to R331, spec/14 R307 to
R318, spec/22 R419, R424). -/

namespace Sys2Proof.Machine

/-! ### Groups (spec/15) -/

/-- The nine legal masks (spec/15 R319). -/
def legalMask (m : Nat) : Bool := [1, 2, 4, 8, 3, 12, 5, 10, 15].contains m

/-- A context that no group loads, runs or saves any more is ready again. -/
def State.settleCtx (s : State) (ctx : Nat) : State :=
  if (s.ctx ctx).mode = .active && !s.loadedAny ctx then s.setCtx ctx { s.ctx ctx with mode := .ready } else s

/-- A load is abandoned: when it was the last of its context, the images stay where they are. -/
def State.settleMove (s : State) (ctx : Nat) : State :=
  let s1 := s.settleCtx ctx
  if s1.groups.any fun e => e.2.mode == .loading && e.2.ctx == ctx then s1 else s1.setCtx ctx { s1.ctx ctx with moving := [] }

/-- Contexts of an owner leave a bound set. -/
def State.unbindOwner (s : State) (o : Nat) (bound : List Nat) : List Nat := bound.filter fun c => (s.ctx c).owner != o

/-- Steps 1 to 4 of R326: copies end, and their channels keep the faults (spec/12 R293); waiters are withdrawn, the stores of the
quadrants are zeroed, descriptors freed. What they last saved is shown on where it still stands. -/
def State.scrubGroup (s : State) (gh : Nat) : State :=
  let core := gh / 16
  let s1 := s.endCopies core (maskOf gh)
  let s2 := (groupSeqs gh).foldl State.withdraw s1
  let s3 := { s2 with seqs := s2.seqs.keep fun q _ => !(groupSeqs gh).contains q }
  let c := (s3.core core).restore (maskOf gh) (firstImage gh)
  s3.setCore core { c with
    chans := (s3.core core).chans
    saved := c.saved.keep fun k e => !(maskOf gh).testBit k || (Tab.get? (s3.ctx e.2).images e.1).isSome }

/-- A lowering of the clock that a recall deferred is applied once no recall is under way (spec/15 R327, spec/22 R426). -/
def State.settleClock (s : State) : State :=
  if s.groups.any fun e => e.2.rpend then s else { s with mast := { s.mast with clk := s.mast.clkPlan } }

/-- GROUP_SCRUB_COMPLETE: step 5 of R326, and the state that follows (spec/15 R325). -/
def execGroupScrubComplete (gh : Nat) (s : State) : Result :=
  let g := s.group gh
  if g.mode ≠ .scrubbing then .next s
  else
    let s1 := s.scrubGroup gh
    let idle : Group :=
      { g with mode := .idle, ctx := 0, joined := true, rung := 0, age := 0, asked := none, cls := 0, held := false }
    let s2 :=
      if g.dpend then { s1 with groups := Tab.erase s1.groups gh }
      else if g.rpend then
        s1.setGroup gh { idle with lent := false, rpend := false, next := [], bound := s1.unbindOwner g.borrower g.bound }
      else s1.setGroup gh idle
    let s3 := if g.rpend then s2.settleClock.answerAll (.recalled gh) stDone else s2
    .next ((if g.dpend then s3.answerAll (.destroyed gh) stDone else s3).workEnded s)

/-- A quadrant of a core that belongs to a group. -/
def State.quadTaken (s : State) (core mask : Nat) : Bool :=
  s.groups.any fun e => e.2.mode != .absent && e.1 / 16 == core && (e.1 % 16) &&& mask != 0

/-- Whether an owner is in use. -/
def State.ownerUsed (s : State) (o : Word) : Bool := (s.owner (num o)).used

/-- A new group: its channels hold nothing (spec/12 R296), and its items show the context last saved from the same quadrants as this group
(spec/22 R420). -/
def State.newGroup (s : State) (core mask owner : Nat) : State :=
  let gh := core * 16 + mask
  let last := match (quads mask).head?.bind (Tab.get? (s.core core).saved) with
    | some (h, c) => if h = gh then c else 0
    | none => 0
  let s1 := s.setCore core { s.core core with chans := (s.core core).chans.keep fun k _ => k / 16 != mask }
  s1.setGroup gh { mode := .idle, owner := owner, last := last }

/-- GCREATE: that the mask is legal is a precondition (spec/15 R330). -/
def execGcreate (f : Nat) (core mask owner : Word) (s : State) : Result :=
  runCommand f none (decide (num core < 4096) && decide (num mask < 16) && decide (num owner ≤ 63))
    (fun s => .guard s (legalMask (num mask) && !s.quadTaken (num core) (num mask) && s.ownerUsed owner)
      (.ok (s.newGroup (num core) (num mask) (num owner)))) s

def GroupMode.code : GroupMode → Nat
  | .absent => 0 | .idle => 1 | .loading => 2 | .running => 3 | .saving => 4 | .scrubbing => 5

/-- The status word of a group (spec/15 R323). -/
def State.groupWord (s : State) (gh : Nat) : Word :=
  let g := s.group gh
  let loaded := g.mode == .loading || g.mode == .running || g.mode == .saving
  BitVec.ofNat 64
    (if g.mode = .absent then bit true 22
     else (if g.lent then g.borrower * 2 ^ 48 else 0) + g.owner * 2 ^ 42 + (if loaded then g.ctx * 2 ^ 26 else 0) +
      bit g.dpend 25 + bit g.rpend 24 + bit g.lent 23 + bit g.joined 22 + maskOf gh * 2 ^ 18 + gh / 16 * 2 ^ 6 + g.mode.code)

/-- GDESTROY and RECALL are refused with the status word of the group, whose state, lent and rpend say why (spec/15 R325; the form is a
DESIGN CHOICE, log 86). -/
def Reply.refuseGroup (s : State) (gh : Nat) : Reply := .done s stPre [s.groupWord gh]

/-- GDESTROY: an idle group goes to its scrub, another sets dpend. The response follows the end of the group (spec/15 R325, R329, spec/22
R417). -/
def execGdestroy (f : Nat) (gh : Word) (s : State) : Result :=
  runCommand f none (decide (num gh < 65536))
    (fun s =>
      let h := num gh
      let g := { s.group h with dpend := true }
      match g.mode with
      | .absent => .refuseGroup s h
      | .idle => .later ((s.setGroup h { g with mode := .scrubbing }).workEnded s) (.destroyed h)
      | .running => .later (((s.setGroup h g).requestOwn h).workEnded s) (.destroyed h)
      | .loading | .saving | .scrubbing => .later ((s.setGroup h g).workEnded s) (.destroyed h)) s

def execGbind (f : Nat) (gh ctx : Word) (s : State) : Result :=
  runCommand f (some fun s o => groupMine gh s o && ctxMine ctx s o) (decide (num gh < 65536) && ctxNum ctx)
    (fun s =>
      let g := s.group (num gh)
      if g.mode ≠ .absent && g.bound.contains (num ctx) then .ok s
      else
        .guard s (g.mode != .absent && s.ctxOpen ctx && decide (g.bound.length < 16) && !g.rpend && !g.dpend &&
            (s.ctx (num ctx)).owner == (if g.lent then g.borrower else g.owner))
          (.ok (s.setGroup (num gh) { g with bound := g.bound ++ [num ctx] }))) s

def execGunbind (f : Nat) (gh ctx : Word) (s : State) : Result :=
  runCommand f (some fun s o => groupMine gh s o && ctxMine ctx s o) (decide (num gh < 65536) && ctxNum ctx)
    (fun s =>
      let g := s.group (num gh)
      .guard s (g.mode != .absent && !g.has (num ctx))
        (.ok ((s.setGroup (num gh) { g with bound := g.bound.filter (· != num ctx) }).workEnded s))) s

def execLend (f : Nat) (gh borrower : Word) (s : State) : Result :=
  runCommand f none (decide (num gh < 65536) && decide (num borrower ≤ 63))
    (fun s =>
      let g := s.group (num gh)
      .guard s (g.mode == .idle && !g.lent && s.ownerUsed borrower && num borrower != g.owner)
        (.ok (s.setGroup (num gh) { g with lent := true, borrower := num borrower }))) s

/-- The clamps of R327. -/
def graceClamp : Nat := 560000
def killClamp : Nat := 1260000

/-- A recall of a group that runs or saves: pre-emption under clamped timers, which count from the recall (spec/15 R327). A recall under way
goes on as it is (DESIGN CHOICE, log 10). -/
def State.recallGroup (s : State) (gh : Nat) : State :=
  let g := s.group gh
  if g.rpend then s else
  let c := s.ctx g.ctx
  let grace := min (if g.rung = 0 then c.grace.toNat else g.grace) graceClamp
  let kill := min (if g.rung = 0 then c.kill.toNat else g.kill) killClamp
  let s1 := s.requestRung gh grace kill
  s1.setGroup gh { s1.group gh with rpend := true, grace := grace, kill := kill, age := 0 }

/-- RECALL: the response follows the group's return to idle (spec/15 R330). A pre-emption asked for during a load that it abandons has
nothing left to save, and is answered. -/
def execRecall (f : Nat) (gh : Word) (s : State) : Result :=
  runCommand f (some (groupMine gh)) (decide (num gh < 65536))
    (fun s =>
      let h := num gh
      let g := s.group h
      if !g.lent then .refuseGroup s h
      else match g.mode with
        | .idle => .later ((s.setGroup h { g with mode := .scrubbing, rpend := true }).workEnded s) (.recalled h)
        | .loading =>
          .later ((((s.setGroup h { g with mode := .scrubbing, ctx := 0, rpend := true, asked := none, held := false }).settleMove
            g.ctx).workEnded s).answerAll (.save h) stDone) (.recalled h)
        | .running | .saving => .later ((s.recallGroup h).workEnded s) (.recalled h)
        | .absent | .scrubbing => .refuseGroup s h) s

/-- The bound set, four contexts to a word (DESIGN CHOICE, log 41). -/
def packCtxs (cs : List Nat) : List Word :=
  (List.range ((cs.length + 3) / 4)).map fun i => BitVec.ofNat 64 (packN 16 ((cs.drop (4 * i)).take 4))

def execGread (f : Nat) (gh : Word) (s : State) : Result :=
  runCommand f (some (groupMine gh)) (decide (num gh < 65536))
    (fun s => .done s stDone (s.groupWord (num gh) :: packCtxs (s.group (num gh)).bound)) s

/-! ### Queues (spec/14 R307 to R318) -/

/-- Child slots of all queues. -/
def State.pools (s : State) : Nat := s.queues.foldl (fun a e => a + e.2.cpool) 0

def execQcreate (f : Nat) (n ctx prio ring lsize cpool : Word) (s : State) : Result :=
  runCommand f (some (ctxMine ctx))
    (decide (num n < 256) && ctxNum ctx && decide (num prio ≤ 3) && decide (num ring < 2 ^ 56) && num ring % 64 == 0 &&
      decide (4 ≤ num lsize) && decide (num lsize ≤ 16) && decide (num cpool ≤ 1024))
    (fun s => .guard s ((s.queue (num n)).mode == .free && s.ctxOpen ctx && (s.owner (s.ctx (num ctx)).owner).used &&
        decide (s.pools + num cpool ≤ 16384))
      (.ok (s.setQueue (num n)
        { mode := .active, ctx := num ctx, prio := num prio, ring := ring, lsize := num lsize, cpool := num cpool }))) s

/-- A command on a queue that exists: the state of the table of R309, or none where it shows a dash. -/
def queueCommand (f : Nat) (n : Word) (move : Queue → Option Queue) (s : State) : Result :=
  runCommand f (some (queueMine n)) (decide (num n < 256))
    (fun s =>
      let q := s.queue (num n)
      match move q with
      | none => .refuse s
      | some q1 => .ok (((s.setQueue (num n) q1).freeDrained (num n)).workEnded s)) s

/-- QSET: the change takes effect at the next decision (spec/14 R318). -/
def execQset (f : Nat) (n prio : Word) (s : State) : Result :=
  runCommand f (some (queueMine n)) (decide (num n < 256) && decide (num prio ≤ 3))
    (fun s =>
      let q := s.queue (num n)
      .guard s (q.mode != .free) (.ok (s.setQueue (num n) { q with prioNext := some (num prio) }))) s

def Queue.pause (q : Queue) : Option Queue :=
  match q.mode with
  | .active | .paused => some { q with mode := .paused }
  | .free | .halted | .draining => none

def Queue.resume (q : Queue) : Option Queue :=
  match q.mode with
  | .active | .paused => some { q with mode := .active }
  | .free | .halted | .draining => none

def Queue.reset (q : Queue) : Option Queue :=
  match q.mode with
  | .halted => some { q with mode := .active, rcode := 0#8, eidx := 0#32 }
  | .free | .active | .paused | .draining => none

def Queue.destroy (q : Queue) : Option Queue :=
  match q.mode with
  | .free => none
  | .active | .paused | .halted | .draining => some { q with mode := .draining, children := [] }

def execQpause (f : Nat) (n : Word) (s : State) : Result := queueCommand f n Queue.pause s
def execQresume (f : Nat) (n : Word) (s : State) : Result := queueCommand f n Queue.resume s
def execQreset (f : Nat) (n : Word) (s : State) : Result := queueCommand f n Queue.reset s
def execQdestroy (f : Nat) (n : Word) (s : State) : Result := queueCommand f n Queue.destroy s

def QMode.code : QMode → Nat
  | .free => 0 | .active => 1 | .paused => 2 | .halted => 3 | .draining => 4

/-- The register qstat (spec/14 R308). -/
def Queue.stat (q : Queue) : Word :=
  BitVec.ofNat 64 (q.eidx.toNat * 2 ^ 32 + q.rcode.toNat * 2 ^ 8 + q.mode.code)

/-- The attributes of R307, then head, tail and qstat. -/
def Queue.words (q : Queue) : List Word :=
  [BitVec.ofNat 64 q.ctx, BitVec.ofNat 64 (q.prioNext.getD q.prio), q.ring, BitVec.ofNat 64 q.lsize, BitVec.ofNat 64 q.cpool, q.head.setWidth 64,
   q.tail.setWidth 64, q.stat]

def execQread (f : Nat) (n : Word) (s : State) : Result :=
  runCommand f (some (queueMine n)) (decide (num n < 256)) (fun s => .done s stDone (s.queue (num n)).words) s

/-! ### Moving a saved context to another module (spec/16 R353)

Masthead's export and import have no command in the tables of spec/22 R419: they stand here as Masthead's own operations, which no step of
this machine begins (log 60). -/

/-- A migration image: the attributes with the saved images, the pennants of the windows that are not in their reset state, the queues,
and the launches that the walkers of the saved groups hold. -/
structure MigrationImage where
  ctx : Ctx
  pens : List (BitVec 32 × Pennant)
  queues : Tab Queue
  launches : Tab Launch
  deriving DecidableEq, Repr

/-- The handles of a window. -/
def winHandles (w : Nat × Nat × Nat) : List (BitVec 32) :=
  (List.range w.2.2).map fun i => BitVec.ofNat 32 (w.1 * 2 ^ 28 + w.2.1 + i)

/-- The export of a ready context. -/
def State.exportCtx (s : State) (ctx : Nat) : Option MigrationImage :=
  let c := s.ctx ctx
  if c.mode = .ready then
    some { ctx := c, pens := ((c.wins.flatMap winHandles).map fun h => (h, s.pennant h)).filter fun e => e.2 != {}
           queues := s.queues.keep fun _ q => q.mode != .free && q.ctx == ctx
           launches := s.launches.keep fun _ l => l.ctx == ctx }
  else none

/-- Whether a window can be granted to a context that holds none on its die (spec/11 R243). -/
def State.winGrantable (s : State) (w : Nat × Nat × Nat) : Bool :=
  let top := 65536 + match (s.die w.1).ovf with | some (_, k) => k | none => 0
  decide (w.2.1 + w.2.2 ≤ top) &&
    !(s.ctxs.any fun e => match Tab.get? e.2.wins w.1 with | some (b, n) => overlap w.2.1 w.2.2 b n | none => false)

/-- The import of a migration image as a context: refused where a window cannot be granted at its die number and indices, or a name that
the image holds is in use. -/
def State.importCtx (s : State) (ctx : Nat) (m : MigrationImage) : Option State :=
  let free := (s.ctx ctx).mode == .free && (s.owner m.ctx.owner).used && (m.queues.all fun e => (s.queue e.1).mode == .free) &&
    m.launches.all fun e => (s.launch? e.1).isNone
  if free && m.ctx.wins.all s.winGrantable then
    let s1 := m.ctx.wins.foldl (fun s w => s.zeroPens w.1 w.2.1 (w.2.1 + w.2.2)) s
    let s2 := m.pens.foldl (fun s e => s.setPennant e.1 e.2) (s1.setCtx ctx m.ctx)
    some { s2 with
      queues := m.queues.foldl (fun t e => Tab.put t e.1 { e.2 with ctx := ctx }) s2.queues
      launches := m.launches.foldl (fun t e => Tab.put t e.1 { e.2 with ctx := ctx }) s2.launches }
  else none

/-! ### Owners (spec/14 R318, spec/22 R419) -/

def execOwnset (f : Nat) (owner w : Word) (s : State) : Result :=
  runCommand f none (decide (num owner ≤ 63) && decide (1 ≤ num w) && decide (num w ≤ 255))
    (fun s => .ok (s.setOwner (num owner) { s.owner (num owner) with w := num w })) s

/-- OWNNEW: a virtual function is bound to one owner (spec/22 R418). -/
def execOwnnew (f : Nat) (owner vf : Word) (s : State) : Result :=
  runCommand f none (decide (num owner ≤ 63) && ((decide (1 ≤ num vf) && decide (num vf ≤ 63)) || num vf == 0xFF))
    (fun s =>
      let bound := num vf != 0xFF && s.owners.any fun e => e.2.used && e.2.fn == num vf
      .guard s (!s.ownerUsed owner && !bound)
        (.ok (s.setOwner (num owner) { s.owner (num owner) with used := true, fn := num vf, w := 1, d := 0 }))) s

def execOwndel (f : Nat) (owner : Word) (s : State) : Result :=
  runCommand f none (decide (num owner ≤ 63))
    (fun s => .guard s (s.ownerUsed owner && !(s.ctxs.any fun e => e.2.mode != .free && e.2.owner == num owner))
      (.ok (s.setOwner (num owner) { s.owner (num owner) with used := false, fn := 255 }))) s

end Sys2Proof.Machine
end

