-- ==== Sys2Proof/Machine/Page.lean ====
section
/-! DEFINITION. Walks, fills, requests at the home of a line, and the page commands (spec/18 R366 to R394, spec/07 R165). -/

namespace Sys2Proof.Machine

/-! ### Walks and fills -/

/-- A walk comes to its end: its translation is cached, and one that faults caches nothing; a line in error is met (spec/18 R371,
R379). -/
def State.endWalk (s : State) (die ctx : Nat) (va : Word) : State :=
  if !s.needsWalk die ctx va false then s
  else
    match s.walked die ctx va with
    | (s1, .error (.line l)) => s1.meetQuiet l ctx
    | (s1, _) => s1

/-- PAGE_WALK_COMPLETE: the prefetches that wait for the walk are carried out, unless their context has left its sequencer
(spec/01 R11, spec/18 R371). A walk goes on while no port leads to an entry (spec/20 R402). -/
def execPageWalkComplete (die : Nat) (ctx : Nat) (va : Word) (s : State) : Result :=
  .next (if va.toNat / 2 ^ 56 ≠ 0 || 16 ≤ die || s.walkHeld die ctx va false then s
    else
      let mine := fun (w : Walk) => w.ctx == ctx && w.va == va
      let s1 := s.endWalk die ctx va
      let d := s1.die die
      let s2 := s1.setDie die { d with walks := d.walks.filter fun w => !mine w }
      (d.walks.filter mine).foldl (fun s w => if s.ctxOf w.q == ctx then s.prefetch w.q ctx va w.lvl else s) s2)

/-- What a request meets at the home before it is served: a line in X is recovered first (spec/18 R380), and a read finds what data
errors there are (R379); a locked line holds it (spec/11 R269), and one that the host may hold waits for the host's answer
(spec/20 R398). -/
def State.atHome (s : State) (l : Nat) (read exclusive : Bool) (ctx : Nat) : State × Bool :=
  let s0 := if read || s.sideBad l then s.meetQuiet l ctx else s
  match s0.gate l exclusive with
  | some (s1, _) => (s1, false)
  | none => (s0, true)

/-- A request at the home: served, or held. A read of a poisoned line brings nothing. -/
def homeRequest (l : Nat) (read exclusive : Bool) (ctx : Nat) (f : State → State) (s : State) : Result :=
  match s.atHome l read exclusive ctx with
  | (s1, true) => .next (if read && s1.homeBad l then s1 else f s1)
  | (s1, false) => .next s1

/-- CACHE_FILL (spec/07 R165): a line of a core's L1, of a cluster's L2, or of a die's memory-side cache. -/
def execCacheFill (kind : CacheKind) (inst : Nat) (ctx : Nat) (line : Nat) (s : State) : Result :=
  homeRequest line true false ctx (fun s => match kind with
    | .l1 => s.l1Fill inst line ctx (BitVec.allOnes 64)
    | .l2 => (s.l2Read inst line ctx).1
    | .msc => s.mscTouch line ctx pcMem false false) s

/-! ### Requests at the home (spec/18 R374 to R377) -/

/-- The context for which a cluster asks: that of the copy it holds already. -/
def State.asker (s : State) (cl l : Nat) : Nat := match s.l2 cl l with | some c => c.ctx | none => 0

def execHomeRds (line : Nat) (cl : Nat) (s : State) : Result :=
  homeRequest line true false (s.asker cl line) (fun s => if s.l2Full cl line then s else (s.l2Read cl line (s.asker cl line)).1) s

def execHomeRdx (line : Nat) (cl : Nat) (s : State) : Result :=
  homeRequest line false true (s.asker cl line) (fun s => s.own line cl (s.asker cl line)) s

def execHomeHal (line : Nat) (s : State) : Result := homeRequest line false true 0 (fun s => s.homeHal line) s

/-- Whether a cluster owns a line. -/
def State.ownedIn (s : State) (l cl : Nat) : Bool :=
  let x := s.side l
  x.owner == cl && (x.st == csM || x.st == csO || x.st == csE)

/-- Whether dirty bytes of a cluster's line have still to take ownership before they reach the home (spec/08 R189). -/
def State.unpushed (s : State) (l cl : Nat) : Bool :=
  match s.l2 cl l with | some c => c.dirty != 0#64 && !s.pushed l cl | none => false

/-- A line leaves its L2 for the home, an owner's or one that waits for this: what is not pushed takes ownership first, and what cannot be
reached any more is lost (spec/08 R189, spec/20 R404). -/
def State.lineOut (s : State) (l cl : Nat) : State :=
  match s.l2 cl l with
  | none => s
  | some c =>
    if c.out then s.evictL2 cl l
    else if s.ownedIn l cl then (if s.unpushed l cl then s.ownPend l cl c.ctx else s).homeWb l cl
    else s

/-- The request that takes it there. -/
def wbRequest (l cl : Nat) (s : State) : Result :=
  if s.lost l then .next (if (s.l2 cl l).isSome then s.evictL2 cl l else s)
  else homeRequest l false (s.unpushed l cl) 0 (fun s => s.lineOut l cl) s

def execHomeWb (line : Nat) (cl : Nat) (s : State) : Result := wbRequest line cl s

/-- A read of a non-caching agent changes no state (spec/18 R376). -/
def execEngineHomeRead (line : Nat) (s : State) : Result := homeRequest line true false 0 id s

def execEngineHomeWrite (line : Nat) (data : BitVec 512) (mask : BitVec 64) (s : State) : Result :=
  homeRequest line false true 0 (fun s => s.engLine line data mask) s

/-- SNOOP_INVALIDATE: an owner supplies its bytes to the home and drops the line, another copy is invalidated, and an L2 without
the line answers none (spec/18 R375). -/
def execSnoopInvalidate (cl : Nat) (line : Nat) (s : State) : Result :=
  match s.l2 cl line with
  | none => .next s
  | some c =>
    if s.ownedIn line cl then wbRequest line cl s
    else match invalidateLine false c with
      | none => .next (s.dropL2 cl line)
      | some c1 => .next (s.setL2 cl line c1)

/-! ### Removal of translations (spec/18 R371) -/

/-- The event that carries on an mcas which has not decided. -/
def State.undecided (s : State) (q : Nat) : List Instr :=
  match (s.seq q).mcas with
  | some (_, m) => if m.result.isNone then [s.mcasEvent q m] else []
  | none => []

/-- Every access that may have used a translation is performed at .sy: queued stores, operations at the Halyards and, but where
they are answered moved, each mcas of the sequencers that run the contexts, then a release of each core. -/
def State.quiesce (s : State) (sel : Nat → Bool) (mcas : Bool) : Try Unit :=
  let gs := s.groups.filter fun e => (e.2.mode == .running || e.2.mode == .saving) && sel e.2.ctx
  let evs := (gs.flatMap fun e => groupSeqs e.1).flatMap fun q =>
    s.storeEvents q ++ s.halEvents q ++ (if mcas then s.undecided q else [])
  if !evs.isEmpty then .wait s evs
  else tryList gs s fun s e =>
    match s.relGate (e.1 / 16) e.2.ctx with
    | some (s1, evs) => .wait s1 evs
    | none => .ok (s.release (e.1 / 16) e.2.ctx .sy) ()

/-- A command that follows a quiescence. -/
def State.afterQuiet (s : State) (sel : Nat → Bool) (f : State → Reply) (mcas : Bool := true) : Reply :=
  match s.quiesce sel mcas with
  | .ok s1 _ => f s1
  | .wait s1 evs => .wait s1 evs
  | .trap s1 _ => .wait s1 []

/-- Masthead writes table entries at their homes, once nothing keeps it from them (spec/18 R376, spec/20 R398); one that cannot be reached
any more refuses the command (DESIGN CHOICE, log 12). -/
def State.afterGates (s : State) (ls : List Nat) (f : State → Reply) : Reply :=
  if ls.any s.lost then .refuse s
  else match ls.findSome? fun l => s.gate l true with
  | some (s1, evs) => .wait s1 evs
  | none => f s

/-- The write of a table entry; errors of its line are met first (spec/18 R379, R380). -/
def State.entrySet (s : State) (at_ : Nat) (w : Word) : State := (s.meetQuiet (lineOf at_) 0).engSetWord at_ w

/-- The contexts whose tables hold one of some leaves, or a cached translation through one. -/
def State.sharers (s : State) (ats : List Nat) : List Nat :=
  ((s.ctxs.filter fun c => c.2.mode != .free && (s.ctxLeaves c.1).any fun e => ats.contains e.2.2.2).map (·.1)) ++
    s.dies.flatMap fun d => (d.2.tlb.filter fun e => ats.contains e.e2at).map (·.ctx)

/-- Remove the cached translations that a test names. -/
def State.dropTlb (s : State) (gone : TlbEnt → Bool) : State :=
  { s with dies := s.dies.mapv fun _ d => { d with tlb := d.tlb.filter fun e => !gone e } }

def TlbEnt.inIpa (e : TlbEnt) (ctx ipa n : Nat) : Bool := e.ctx == ctx && overlap e.ipa e.size ipa n
def TlbEnt.inVa (e : TlbEnt) (va n : Nat) : Bool := overlap e.va e.size va n

/-! ### Page commands (spec/18 R394) -/

/-- Whether a range meets the save areas of a context, which cannot map its own; those of a protected context lie on its protected pages
(spec/16 R335, R355). -/
def State.ownArea (s : State) (ctx pa n : Nat) : Bool :=
  let c := s.ctx ctx
  c.ksl == 0 && c.areas.any fun e => overlap e.2.toNat (areaSize e.1) pa n

/-- Whether a range meets a pennant overflow area (spec/11 R242). -/
def State.meetsOverflow (s : State) (pa n : Nat) : Bool :=
  s.dies.any fun e => match e.2.ovf with | some (base, k) => overlap base (16 * k) pa n | none => false

/-- VMROOT: no leaf under the new roots may map a save area of the context, or a pennant overflow area (spec/16 R335, spec/11 R242). -/
def execVmroot (f : Nat) (ctx root1 root2 : Word) (s : State) : Result :=
  runCommand f none
    (ctxNum ctx && decide (num root1 < 2 ^ 52) && num root1 % 2048 == 0 && decide (num root2 < 2 ^ 52) && num root2 % 128 == 0)
    (fun s => .guard s (s.ctxOpen ctx && !s.loadedAny (num ctx) &&
        !((s.leaves (num root2) 0 0 5).any fun e => !eNc e.2.2.1 &&
          (s.ownArea (num ctx) (eAddr e.2.2.1) e.2.1 || s.meetsOverflow (eAddr e.2.2.1) e.2.1)))
      (.ok (s.setCtx (num ctx) { s.ctx (num ctx) with root1 := root1, root2 := root2 }))) s

/-- The level at which a leaf of a size stands. -/
def leafLevel (size : Nat) : Option Nat :=
  if size = 2 ^ 30 then some 2 else if size = 2 ^ 21 then some 3 else if size = 2 ^ 16 then some 4 else none

/-- The place of the entry of a level for an intermediate address, along table entries that exist. -/
def State.placeIn (s : State) (t ipa lv to_ : Nat) : Nat → Option Nat
  | 0 => none
  | fuel + 1 =>
    let at_ := t + 8 * levelIndex 2 lv ipa
    if lv = to_ then some at_
    else
      let e := s.engWord at_
      if eV e && eT e && !eReserved2 e then s.placeIn (eAddr e) ipa (lv + 1) to_ fuel else none

/-- Whether a table tree holds the place of an entry, whatever stands there. -/
def State.treeHolds (s : State) (t at_ lv : Nat) : Nat → Bool
  | 0 => false
  | fuel + 1 =>
    let n := if lv = 0 then 16 else if lv = 4 then 32 else 512
    (decide (t ≤ at_) && decide (at_ < t + 8 * n)) ||
      (List.range n).any fun i =>
        let e := s.engWord (t + 8 * i)
        eV e && eT e && s.treeHolds (eAddr e) at_ (lv + 1) fuel

/-- Whether a leaf at the place of an entry would map a save area of a context whose tables hold that place (spec/16 R335). -/
def State.mapsOwnArea (s : State) (at_ pa n : Nat) : Bool :=
  s.ctxs.any fun c => c.2.mode != .free && s.ownArea c.1 pa n && s.treeHolds c.2.root2.toNat at_ 0 5

/-- S2MAP: its leaf goes where table entries lead; a place that another table hangs from is not overwritten (DESIGN CHOICE, log 42). -/
def execS2map (f : Nat) (ctx ipa pa size r w x nc ksl : Word) (s : State) : Result :=
  let n := num size
  runCommand f none
    (ctxNum ctx && (leafLevel n).isSome && num ipa % n == 0 && num pa % n == 0 && decide (num ipa + n ≤ 2 ^ 52) &&
      decide (num pa + n ≤ 2 ^ 52) && decide (num r ≤ 1) && decide (num w ≤ 1) && decide (num x ≤ 1) && decide (num nc ≤ 1) &&
      decide (num ksl ≤ 127))
    (fun s =>
      let c := s.ctx (num ctx)
      let p := num pa
      let bad := num nc == 0 && (s.blocked p n || s.meetsOverflow p n ||
        (paFast p && decide (s.frOf p * 2 ^ 28 < paOff p + n)))
      match s.placeIn c.root2.toNat (num ipa) 0 ((leafLevel n).getD 4) 5 with
      | none => .refuse s
      | some at_ =>
        let old := s.engWord at_
        .guard s (s.ctxOpen ctx && !bad && !(num nc == 0 && s.mapsOwnArea at_ p n) && (num ksl == 0 || num ksl == c.ksl) && !(eV old && eT old))
          (s.afterGates [lineOf at_] fun s => .ok (s.entrySet at_
            (BitVec.ofNat 64 (1 + bit (num r == 1) 2 + bit (num w == 1) 3 + bit (num x == 1) 4 + p + num ksl * 2 ^ 52 + bit (num nc == 1) 59))))) s

/-- The leaves of a context that a range meets; none when it covers only part of one. -/
def State.wholeLeaves (s : State) (ctx ipa n : Nat) : Option (List (Nat × Nat × Word × Nat)) :=
  let hit := (s.ctxLeaves ctx).filter fun e => overlap e.1 e.2.1 ipa n
  if hit.all fun e => ipa ≤ e.1 && e.1 + e.2.1 ≤ ipa + n then some hit else none

/-- S2UNMAP and S2CLEAN change every leaf of a range, after which no translation through one is cached, of whatever context (spec/18
R371). -/
def leafCommand (f : Nat) (ctx ipa size : Word) (new : Word → Word) (s : State) : Result :=
  runCommand f none
    (ctxNum ctx && num ipa % 65536 == 0 && num size % 65536 == 0 && num size != 0 && decide (num ipa + num size ≤ 2 ^ 52))
    (fun s =>
      match s.wholeLeaves (num ctx) (num ipa) (num size) with
      | none => .refuse s
      | some ls0 =>
        let who := s.sharers (ls0.map fun e => e.2.2.2)
        .guard s (s.ctxOpen ctx)
          (s.afterQuiet (fun c => c == num ctx || who.contains c) fun s =>
            let ls := (s.wholeLeaves (num ctx) (num ipa) (num size)).getD []
            let ats := ls.map fun e => e.2.2.2
            s.afterGates (ats.map lineOf) fun s =>
              let s1 := ats.foldl (fun s a => s.entrySet a (new (s.engWord a))) s
              .ok (s1.dropTlb fun e => e.inIpa (num ctx) (num ipa) (num size) || ats.contains e.e2at))) s

def execS2unmap (f : Nat) (ctx ipa size : Word) (s : State) : Result := leafCommand f ctx ipa size (fun _ => 0#64) s

/-- S2CLEAN clears D (spec/18 R373). -/
def execS2clean (f : Nat) (ctx ipa size : Word) (s : State) : Result :=
  leafCommand f ctx ipa size (fun e => e &&& ~~~0x20#64) s

def execTlbinv (f : Nat) (ctx stage base len : Word) (s : State) : Result :=
  runCommand f none (decide (num ctx ≤ 65535) && (num stage == 1 || num stage == 2))
    (fun s => s.afterQuiet (fun c => num ctx == 0 || c == num ctx) fun s =>
      .ok (s.dropTlb fun e => (num ctx == 0 || e.ctx == num ctx) &&
        (if num stage = 1 then e.inVa (num base) (num len) else e.inIpa e.ctx (num base) (num len)))) s

/-- The physical address at an offset of the fast rows of a stack. -/
def State.fastPa (s : State) (die off : Nat) : Nat := s.link.dev.toNat * 2 ^ 49 + die * 2 ^ 45 + 2 ^ 44 + off

/-- FRSET (spec/18 R366): rows that join the F-region are demoted and zeroed, rows that leave it zeroed. -/
def execFrset (f : Nat) (stack size : Word) (s : State) : Result :=
  let d := num stack
  let new := num size / 2 ^ 28
  runCommand f none (decide (d ≤ 15) && num size % 2 ^ 28 == 0 && decide (new ≤ 16))
    (fun s =>
      let x := s.die d
      let joins := fun (r : PromoRow) => decide (r.fast < 128 * new)
      let pinned := x.promo.any fun e => e.2.any fun r => joins r && r.pin
      let loaded := s.groups.any fun e => dieOfCore (e.1 / 16) == d && (e.2.mode == .loading || e.2.mode == .running || e.2.mode == .saving)
      .guard s (!loaded && !pinned)
        (let lo := min x.fr new
         let hi := max x.fr new
         match s.rangeGate (s.fastPa d (lo * 2 ^ 28)) ((hi - lo) * 2 ^ 28) with
         | some (s1, evs) => .wait s1 evs
         | none =>
         let s1 := s.setDie d { x with fr := new, promo := x.promo.mapv fun _ rs => rs.filter fun r => !joins r }
         .ok (s1.scrubRange (s.fastPa d (lo * 2 ^ 28)) ((hi - lo) * 2 ^ 28)))) s

def execSegquota (f : Nat) (ctx quota : Word) (s : State) : Result :=
  runCommand f none (ctxNum ctx && decide (num quota ≤ 2048))
    (fun s => .guard s (s.ctxOpen ctx) (.ok (s.setCtx (num ctx) { s.ctx (num ctx) with quota := num quota }))) s

/-- MSCSET; 0xFF names every die (DESIGN CHOICE, log 43). Policy 3 is reserved. -/
def execMscset (f : Nat) (die vd cls mask rp wp ap : Word) (s : State) : Result :=
  runCommand f none
    ((decide (num die ≤ 15) || num die == 0xFF) && decide (num vd ≤ 63) && decide (num cls ≤ 5) && decide (num mask < 65536) &&
      decide (num rp ≤ 2) && decide (num wp ≤ 2) && decide (num ap ≤ 2))
    (fun s =>
      let p : MscPol := { mask := mask.setWidth 16, rp := rp.setWidth 2, wp := wp.setWidth 2, ap := ap.setWidth 2 }
      let ds := if num die = 0xFF then List.range 16 else [num die]
      .ok (ds.foldl (fun s d => s.setDie d { s.die d with pol := Tab.put (s.die d).pol (num vd * 8 + num cls) p }) s)) s

/-! ### Change of home (spec/18 R392, R393) -/

/-- Keys of lines move from one range of lines to another of the same length; what stood in the other is gone. -/
def moveKeys {α : Type} (t : Tab α) (k : Nat) (old new n : Nat) : Tab α :=
  let in_ := fun (b : Nat) (x : Nat) => decide (b ≤ x / k) && decide (x / k < b + n)
  (t.filter fun e => in_ old e.1).foldl (fun u e => Tab.put u (e.1 - old * k + new * k) e.2)
    (t.filter fun e => !in_ old e.1 && !in_ new e.1)

/-- The same for a set of lines. -/
def moveLines (t : List Nat) (old new n : Nat) : List Nat :=
  t.filter (fun l => !(decide (new ≤ l) && decide (l < new + n)) && !(decide (old ≤ l) && decide (l < old + n))) ++
    (t.filter fun l => decide (old ≤ l) && decide (l < old + n)).map fun l => l - old + new

/-- Every line of a range that a cluster holds under ownership, or at all, or whose side-band is in error. -/
def State.heldLines (s : State) (pa n : Nat) : List Nat :=
  ((s.clusters.flatMap fun e => (e.2.l2.filter fun x => inRange x.1 pa n).map (·.1)) ++
    (s.mem.badSide ++ (s.mem.side.map (·.1)).filter s.sideBad).filter fun l => inRange l pa n).dedup

/-- A line is recalled into I; a side-band in error is recovered first (spec/18 R380). -/
def State.recall (s : State) (l : Nat) : State := (if s.sideBad l then s.meetQuiet l 0 else s).homeHal l

/-- A page moves: its lines are recalled into I, and its bytes, keys and errors stand at the new place, whose promoted rows are written in
their fast copies (spec/18 R382). Bytes that no home has seen yet follow it, for their write-back is answered moved. -/
def State.movePage (s : State) (old new n : Nat) : State :=
  let s1 := ((s.heldLines new n).foldl State.recall ((s.heldLines old n).foldl State.recall s)).rowsWrote new n
  let lo := old / 64
  let ln := new / 64
  let k := n / 64
  let m := s1.mem
  let page := m.dram.filter fun e => decide (old ≤ e.1) && decide (e.1 < old + n)
  { s1 with
    mem := { m with
      dram := page.foldl (fun t e => Mem.set t (e.1 - old + new) e.2) (Mem.zero m.dram new n)
      side := m.side.filter fun e => !inRange e.1 old n && !inRange e.1 new n
      key := moveKeys m.key 1 lo ln k
      poison := moveLines m.poison lo ln k, badData := moveLines m.badData lo ln k, badSide := moveLines m.badSide lo ln k }
    clusters := s1.clusters.mapv fun _ c => { c with
      l2 := moveKeys c.l2 1 lo ln k, scopedCopies := moveKeys c.scopedCopies 1 lo ln k }
    cores := s1.cores.mapv fun _ c => { c with
      l1 := moveKeys c.l1 65536 lo ln k, icache := moveKeys c.icache 65536 lo ln k } }

/-- Rows of a range leave their fast copies; whether one of them is pinned. -/
def State.pinnedIn (s : State) (pa n : Nat) : Bool :=
  s.dies.any fun d => d.2.promo.any fun b => b.2.any fun r => r.pin && overlap (s.rowPa d.1 b.1 r) 2048 pa n

def State.demoteIn (s : State) (pa n : Nat) : State :=
  { s with dies := s.dies.mapv fun d x => { x with
      promo := x.promo.mapv fun b rs => rs.filter fun r => !overlap (s.rowPa d b r) 2048 pa n } }

/-- What the recall of every line of two ranges waits for: the locks of an mcas, and lines that the host may hold (spec/11 R269,
spec/20 R398). -/
def State.recallGates (s : State) (old new n : Nat) : List Nat := s.rangeGates old n ++ s.rangeGates new n

/-- The leaf that lies at an address, in the tables of some context. -/
def State.leafAt (s : State) (at_ : Nat) : Option (Nat × Nat × Word) :=
  s.ctxs.findSome? fun c =>
    if c.2.mode = .free then none
    else ((s.ctxLeaves c.1).find? fun e => e.2.2.2 == at_).map fun e => (c.1, e.2.1, e.2.2.1)

/-- Sequencers with an undecided mcas that names a page, and those that hold locks of it. -/
def State.mcasOn (s : State) (pa n : Nat) : List Nat :=
  (s.seqs.filter fun e => match e.2.mcas with
    | some (_, m) => m.result.isNone && m.ents.any fun x => decide (pa ≤ x.pa) && decide (x.pa < pa + n)
    | none => false).map (·.1)

/-- HMOVE. The old home holds requests while this runs: those under way complete, every line of the page is recalled, and the accesses
that used its translations are performed at .sy (spec/18 R392, R371). An mcas on the page is answered moved, and so has its attempt
counted. -/
def execHmove (f : Nat) (leaf pa : Word) (s : State) : Result :=
  runCommand f none (decide (num leaf < 2 ^ 52) && num leaf % 8 == 0 && decide (num pa < 2 ^ 52) && num pa % 65536 == 0)
    (fun s =>
      match s.leafAt (num leaf) with
      | none => .refuse s
      | some (_, n, e) =>
        let old := eAddr e
        let new := num pa
        let who := s.sharers [num leaf]
        let out := paFast new && decide (s.frOf new * 2 ^ 28 < paOff new + n)
        .guard s (!eNc e && new % n == 0 && !s.pinnedIn old n && !s.blocked new n && !s.meetsOverflow new n && !out &&
            (new == old || !overlap old n new n) && !(who.any fun c => s.ownArea c new n))
          (s.afterQuiet who.contains (mcas := false) fun s =>
            s.afterGates (lineOf (num leaf) :: s.recallGates old new n) fun s =>
              let moved := (s.mcasOn old n).map Instr.movedResponse
              let s1 := (s.demoteIn old n).movePage old new n
              let e := s1.engWord (num leaf)
              let e1 := (e &&& ~~~(BitVec.ofNat 64 (2 ^ 52 - 256))) ||| BitVec.ofNat 64 new
              let s2 := (s1.entrySet (num leaf) e1).dropTlb fun t => t.e2at == num leaf
              .ok { s2 with agenda := moved ++ s2.agenda })) s

end Sys2Proof.Machine
end

