-- ==== Sys2Proof/Machine/Link.lean ====
section
/-! DEFINITION. The host attachment, TDISP, Bunting ports, fabric windows and switch reductions, with the link commands (spec/20
R397 to R412). -/

namespace Sys2Proof.Machine

/-! ### Host requests on device memory (spec/20 R398, R399) -/

def State.answer (s : State) (a : HostAnswer) : State := { s with link := { s.link with answers := a :: s.link.answers } }

/-- The offset in this module's range of an offset in the host's, where the host interleaves modules at 4 KiB (spec/20 R397). -/
def hdmOff (dec off : Nat) : Option Nat :=
  let ways := 2 ^ (Config.hdmWays dec % 4)
  if off / 4096 % ways = Config.hdmPlace dec % ways then some (off / 4096 / ways * 4096 + off % 4096) else none

/-- The device line that a host address names through a decoder. -/
def State.hostPa (s : State) (dec : Nat) (addr : Word) : Option (Hdm × Nat) :=
  match Tab.get? s.link.hdm dec with
  | none => none
  | some h =>
    let a := num addr
    if h.hbase.toNat ≤ a && a < h.hbase.toNat + h.size.toNat then
      (hdmOff dec (a - h.hbase.toNat)).bind fun off =>
        let pa := (h.pa.toNat + off) / 64 * 64
        if paRsv pa == 0 && (!paFast pa || decide (paOff pa < (s.die (paDie pa)).fr * 2 ^ 28)) then some (h, pa) else none
    else none

/-- The key slot under which a leaf of some context maps a physical address, with that context; key slot 0 when none does. -/
def State.mappedKsl (s : State) (pa : Nat) : Nat × Nat :=
  (s.ctxs.findSome? fun c =>
    if c.2.mode = .free || c.2.ksl = 0 then none
    else if (s.ctxLeaves c.1).any fun e => leafMeets e (pa / 65536 * 65536) 65536 && eKsl e.2.2.1 == c.2.ksl then some (c.2.ksl, c.1)
    else none).getD (0, 0)

/-- The key through which a host request sees a line; none when R399 refuses it. -/
def State.hostKey (s : State) (h : Hdm) (pa : Nat) : Option Nat :=
  match s.mappedKsl pa with
  | (0, _) => some 0
  | (ksl, c) =>
    match h.tdi with
    | some vf => if (s.tdi vf).mode = .run && (s.tdi vf).ctx = some c then s.kid ksl else none
    | none => none

/-- A host request that must wait stays at the home and is tried again. -/
def State.holdHost (s : State) (i : Instr) : State := { s with link := { s.link with held := s.link.held ++ [i] } }
def State.takeHost (s : State) (i : Instr) : State := { s with link := { s.link with held := s.link.held.filter (· != i) } }

/-- The attempt that R399 refuses is logged; the spec gives the entry no code (DESIGN CHOICE, log 45). -/
def State.refuseHost (s : State) (pa : Nat) : State := s.logError 0 (BitVec.ofNat 64 pa)

/-- A MemRd at the home: the owner of a line in M or O supplies it, else the line goes to S with extent 2. -/
def State.hostRd (s : State) (l vd : Nat) : State :=
  let x := s.side l
  let d := s.homeData l
  let s1 := if x.st = csM || x.st = csO then s else s.setSide l { x with ext := 2, st := csS }
  let s2 := { s1 with mem := { s1.mem with acked := s1.mem.acked.filter (· != l) } }
  (s2.mscAccess l vd 0 pcLink false false).answer (.data d)

def execHostMemRd (dec : Nat) (addr : Word) (s : State) : Result :=
  let i := Instr.hostMemRd dec addr
  let s := s.takeHost i
  match s.hostPa dec addr with
  | none => .next s
  | some (h, pa) =>
    match s.hostKey h pa with
    | none => .next ((s.refuseHost pa).answer .poison)
    | some k =>
      let l := lineOf pa
      match s.atHome l false false 0 with
      | (s1, false) => .next (s1.holdHost i)
      | (s1, true) =>
        match (s1.rekey l k).homeErr l { cls := pcLink } with
        | (s2, some (true, _)) => .next (s2.answer .poison)
        | (s2, _) => .next (s2.hostRd l h.vd)

/-- A host write acts as Hal, the host's own copy included, and leaves the line in I. -/
def hostWrite (i : Instr) (dec : Nat) (addr : Word) (data : BitVec 512) (mask : BitVec 64) (s0 : State) : Result :=
  let s := s0.takeHost i
  match s.hostPa dec addr with
  | none => .next s
  | some (h, pa) =>
    match s.hostKey h pa with
    | none => .next (s.refuseHost pa)
    | some k =>
      let l := lineOf pa
      match s.atHome l (mask != BitVec.allOnes 64) true 0 with
      | (s1, false) => .next (s1.holdHost i)
      | (s1, true) => .next (((s1.rekey l k).mscAccess l h.vd 0 pcLink true false).engLine l data mask)

def execHostMemWr (dec : Nat) (addr : Word) (data : BitVec 512) (s : State) : Result :=
  hostWrite (.hostMemWr dec addr data) dec addr data (BitVec.allOnes 64) s

def execHostMemWrPtl (dec : Nat) (addr : Word) (data : BitVec 512) (mask : BitVec 64) (s : State) : Result :=
  hostWrite (.hostMemWrPtl dec addr data mask) dec addr data mask s

/-- HOST_BISNPINV_RESPONSE: the request that waits for it may proceed. -/
def execHostBisnpinvResponse (line : Nat) (s : State) : Result :=
  .next (if s.mem.bisnp.contains line then
    { s with mem := { s.mem with bisnp := s.mem.bisnp.filter (· != line), acked := line :: s.mem.acked.filter (· != line) } }
  else s)

/-- The device never holds a host line (spec/20 R397). -/
def execHostCacheSnoop (_addr : Word) (s : State) : Result := .next (s.answer .miss)

def execHostLinkTraining (width : LinkWidth) (rate : LinkRate) (s : State) : Result :=
  .next { s with link := { s.link with width := some width, rate := some rate } }

/-- An SPDM message advances the session; the keys that it sets are outside the model (spec/20 R397). -/
def execSpdmSessionMessage (msg : Word) (s : State) : Result :=
  .next { s with mast := { s.mast with spdm := s.mast.spdm ++ [msg] } }

/-! ### TDISP (spec/20 R400) -/

def vfOk (vf : Nat) : Bool := decide (1 ≤ vf) && decide (vf ≤ 63)

/-- A message answered with a TDISP error. -/
def State.tdispError (s : State) : State := s.answer (.tdisp false)

/-- A move of a TDI. -/
def State.tdispMove (s : State) (vf : Nat) (m : TdiMode) : State := (s.setTdi vf { s.tdi vf with mode := m }).answer (.tdisp true)

def execTdispLockInterface (vf : Nat) (s : State) : Result :=
  .next (if vfOk vf && (s.tdi vf).mode == .unlocked then s.tdispMove vf .locked else s.tdispError)

def execTdispStartInterface (vf : Nat) (s : State) : Result :=
  .next (if vfOk vf && (s.tdi vf).mode == .locked then s.tdispMove vf .run else s.tdispError)

/-- The kill of a context that is open to it (spec/16 R343). -/
def State.killIfOpen (s : State) (ctx : Nat) : State :=
  match (s.ctx ctx).mode with
  | .ready | .active => s.beginKill ctx false
  | .free | .killing | .teardown => s

def execTdispStopInterface (vf : Nat) (s : State) : Result :=
  .next (if !vfOk vf then s.tdispError
    else
      let s1 := s.tdispMove vf .unlocked
      match (s.tdi vf).mode, (s.tdi vf).ctx with
      | .run, some c | .error, some c => s1.killIfOpen c
      | _, _ => s1)

def execTdiLockedRegisterWrite (vf : Nat) (reg : Nat) (v : Word) (s : State) : Result :=
  .next (if vfOk vf then s.lockedWrite vf fun s => s.setTdi vf { s.tdi vf with regs := Tab.put (s.tdi vf).regs reg v } else s)

/-! ### Bunting ports (spec/20 R401 to R404) -/

/-- A peer that a port may train to: in a domain, a module of that domain with another device number. -/
def State.peerOk (s : State) (p : Peer) : Bool :=
  match p, s.link.domain with
  | .device d dom, some mine => dom.toNat == mine && d != s.link.dev
  | _, _ => true

def State.setPorts (s : State) (p : Tab PortSt) : State := { s with link := { s.link with ports := p } }

/-- Whether no route leads to a device of the domain. -/
def State.cutOff (s : State) (dev : Nat) : Bool :=
  dev != s.link.dev.toNat && s.inDomain dev && !s.portUp (s.link.routes.getD dev 0#16).toNat

def execPortTrained (port : Nat) (peer : Peer) (s : State) : Result :=
  .next (if port < 16 && s.peerOk peer then
    let s1 := s.setPorts (Tab.put s.link.ports port { trained := some peer })
    { s1 with link := { s1.link with unreachable := s1.link.unreachable.filter s1.cutOff } }
  else s)

/-- The port goes down and retrains. -/
def execPortPeerSilent (port : Nat) (s : State) : Result := .next (s.setPorts (Tab.erase s.link.ports port))

/-- A replay changes only time (spec/20 R401). -/
def execFlitCrcReplay (_port : Nat) (s : State) : Result := .next s

/-- An undecided mcas with a home on a device is abandoned: its locks are released with nothing written, and it ends as one that
wrote nothing does (DEDUCED, log 46). -/
def State.abandonMcas (s : State) (dev : Nat) : State :=
  s.seqs.foldl (fun s e =>
    match e.2.mcas with
    | some (hb, m) =>
      if m.result.isNone && m.ents.any fun x => paDev x.pa == dev then
        (s.unlock e.1).setMcas e.1 hb { m with held := 0, backoff := false, result := some 0x10000#64 }
      else s
    | none => s) s

def State.setUnreachable (s : State) (dev : Nat) : State :=
  { s with link := { s.link with unreachable := dev :: s.link.unreachable.filter (· != dev) } }

/-- DEVICE_UNREACHABLE: no port of the route mask has trained for 2^24 cycles, which the model does not count (DESIGN CHOICE, log 8). -/
def execDeviceUnreachable (dev : Nat) (s : State) : Result :=
  .next (if dev < 8 && s.cutOff dev then (s.setUnreachable dev).abandonMcas dev else s)

/-- SWRED_CONTRIBUTION (spec/20 R407): a line whose destination is held waits at the switch. -/
def execSwredContribution (grp : Nat) (off : Nat) (data : BitVec 512) (s : State) : Result :=
  match Tab.get? s.link.red grp with
  | none => .next s
  | some g =>
    if off % 64 ≠ 0 || g.span.toNat < off + 64 then .next s
    else if g.dest.toNat < 2 ^ 52 then
      match s.atHome (lineOf (g.dest.toNat + off)) false true 0 with
      | (s1, false) => .next s1
      | (s1, true) => .next (s1.contribute grp off data)
    else .next (s.contribute grp off data)

/-! ### Link commands (spec/20 R412) -/

/-- No TDI in the operand of HDMSET (DESIGN CHOICE, log 43). -/
abbrev noTdi : Nat := 0xFF

def execHdmset (f : Nat) (dec hbase size pa vd tdi : Word) (s : State) : Result :=
  runCommand f none
    (decide (num dec ≤ 3) && num hbase % 64 == 0 && num size % 64 == 0 && num pa % 64 == 0 && decide (num hbase + num size ≤ 2 ^ 64) &&
      decide (num pa + num size ≤ 2 ^ 52) && decide (num vd ≤ 63) && (vfOk (num tdi) || num tdi == noTdi))
    (fun s =>
      let locked := match Tab.get? s.link.hdm (num dec) with
        | some h => match h.tdi with | some vf => (s.tdi vf).mode != .unlocked | none => false
        | none => false
      let ways := 2 ^ (Config.hdmWays (num dec) % 4)
      let own := fun (a : Nat) => paDev a == s.link.dev.toNat
      .guard s (!locked && own (num pa) && (num size == 0 || own (num pa + (num size / ways - 1))))
        (let h : Hdm := { hbase := hbase, size := size, pa := pa, vd := num vd, tdi := if num tdi = noTdi then none else some (num tdi) }
         .ok { s with link := { s.link with hdm := Tab.put s.link.hdm (num dec) h } })) s

def execTdibind (f : Nat) (vf ctx : Word) (s : State) : Result :=
  runCommand f none (vfOk (num vf) && ctxNum ctx)
    (fun s => .guard s ((s.tdi (num vf)).mode == .unlocked && s.ctxOpen ctx && (s.ctx (num ctx)).ksl != 0)
      (.ok (s.setTdi (num vf) { s.tdi (num vf) with ctx := some (num ctx) }))) s

/-- Exchange two device numbers in a physical address. -/
def swapDev (a b pa : Nat) : Nat :=
  let d := paDev pa
  let at_ := fun (e : Nat) => pa - d * 2 ^ 49 + e * 2 ^ 49
  if d = a then at_ b else if d = b then at_ a else pa

/-- Lines whose bytes the caches hold dirty, and those that the host may hold; not those that no request reaches any more. -/
def State.unwritten (s : State) : List Nat :=
  let inL1 : List Nat := s.cores.flatMap fun e => (e.2.l1.filter fun x => x.2.dirty != 0#64).map fun x => x.1 / 65536
  let inL2 : List Nat := s.clusters.flatMap fun e => ((e.2.l2.filter fun x => x.2.dirty != 0#64) ++ e.2.scopedCopies).map (·.1)
  (inL1 ++ inL2 ++ (s.mem.side.map (·.1)).filter s.hostHeld).filter fun l => !s.lost l

/-- Every cache line goes home: the L1s to their L2s, the scoped copies and the lines of the L2s to their homes. -/
def State.emptyCaches (s : State) : State :=
  let s1 := (s.cores.map (·.1)).foldl State.flushL1 s
  s1.clusters.foldl (fun s e =>
    let s2 := (s.cluster e.1).scopedCopies.foldl (fun s x => s.scopedBack e.1 x.1) s
    (s2.cluster e.1).l2.foldl (fun s x => s.evictL2 e.1 x.1) s2) s1

/-- The module takes a device number: its memory is found under the new one, with the addresses in it that Masthead itself holds; entries of
tables in memory stand as they were written (DESIGN CHOICE, log 107). -/
def State.renumber (s : State) (new : BitVec 3) : State :=
  let a := s.link.dev.toNat
  let b := new.toNat
  let s1 := s.emptyCaches
  let own := fun (p : Nat) => swapDev a b p
  let ownW := fun (p : Word) => BitVec.ofNat 64 (own p.toNat)
  let runs := fun (rs : List (Nat × Nat)) => rs.map fun r => (own r.1, r.2)
  let line := fun (l : Nat) => swapDev a b (64 * l) / 64
  let rekeyed := fun {α : Type} (t : Tab α) (f : Nat → Nat) => t.foldl (fun u e => Tab.put u (f e.1) e.2) ([] : Tab α)
  let m := s1.mem
  { s1 with
    cores := s1.cores.mapv fun _ c => { c with l1 := [], icache := [] }
    clusters := []
    -- the stacks of the module that had the number are found under this one's old number
    dies := rekeyed (s1.dies.mapv fun _ (d : Die) => { d with ovf := d.ovf.map fun o => (own o.1, o.2), tlb := [] })
      fun k => if k / 16 = 1 + b then 16 * (1 + a) + k % 16 else k
    mem := { m with
      dram := rekeyed m.dram own, side := [], key := rekeyed m.key line, poison := m.poison.map line
      badData := m.badData.map line, badSide := m.badSide.map line, bisnp := [], acked := [] }
    ctxs := s1.ctxs.mapv fun _ (c : Ctx) => { c with
      root2 := ownW c.root2, areas := c.areas.mapv fun _ p => ownW p, scrubList := runs c.scrubList }
    mast := { s1.mast with journal := s1.mast.journal.map fun j => (j.1, runs j.2) }
    link := { s1.link with
      dev := new, hdm := s1.link.hdm.mapv fun _ (h : Hdm) => { h with pa := ownW h.pa }
      red := s1.link.red.mapv fun _ (g : RedGroup) => { g with dest := if g.dest.toNat < 2 ^ 52 then ownW g.dest else g.dest } } }

/-- LNKDOM: the route table is a list of eight 16-bit masks in host memory (DESIGN CHOICE, log 43). A new number waits until every cached
line can go to its home, and the host has given up what it may hold (spec/20 R398). -/
def execLnkdom (f : Nat) (dev table : Word) (s : State) : Result :=
  runCommand f none (decide (num dev ≤ 7))
    (fun s => .guard s (!(s.groups.any fun e => e.2.mode == .loading || e.2.mode == .running || e.2.mode == .saving))
      (let masks := (List.range 8).map fun i => BitVec.ofNat 16 (leNat (s.hostRead (num table + 2 * i) 2))
       let take := fun (s1 : State) =>
         let s2 := { s1 with link := { s1.link with domain := some Config.domainId.toNat, routes := masks, unreachable := [] } }
         Reply.ok (s2.setPorts (s2.link.ports.filter fun e => match e.2.trained with | some p => s2.peerOk p | none => false))
       if num dev = s.link.dev.toNat then take s
       else match s.unwritten.findSome? fun l => s.gate l true with
         | some (s1, evs) => .wait s1 evs
         | none => take (s.renumber (dev.setWidth 3)))) s

def execPoolset (f : Nat) (win kind target size vd : Word) (s : State) : Result :=
  runCommand f none
    (decide (num win ≤ 15) && decide (num kind ≤ 2) && num size % 65536 == 0 && decide (num size ≤ 2 ^ 48) && decide (num vd ≤ 63))
    (fun s =>
      let named := s.ctxs.any fun c => c.2.mode != .free &&
        (s.ctxLeaves c.1).any fun e => eNc e.2.2.1 && eAddr e.2.2.1 / 2 ^ 48 == num win
      .guard s (!named)
        (let w : Window := { kind := num kind, target := target, size := size, vd := num vd }
         .ok { s with link := { s.link with windows := Tab.put s.link.windows (num win) w } })) s

def execSwred (f : Nat) (switch grp n span dest handle : Word) (s : State) : Result :=
  runCommand f none
    (decide (num switch < 65536) && decide (num grp ≤ 255) && decide (2 ≤ num n) && decide (num n ≤ 64) && num span % 64 == 0 &&
      num span != 0 && decide (num span ≤ 2 ^ 26) && num dest % 64 == 0 && decide (num handle < 2 ^ 32))
    (fun s =>
      let k := num switch * 256 + num grp
      let busy := match Tab.get? s.link.red k with | some g => !g.lines.isEmpty || !g.written.isEmpty | none => false
      .guard s (!busy)
        (let g : RedGroup := { n := num n, span := span, dest := dest, handle := handle.setWidth 32, lines := [], written := [] }
         .ok (s.setRed k g))) s

/-- A sequencer of another module, as the holder of a lock: the modules' sequencers are numbered one after another. -/
def lockDev (q : Nat) : Nat := q / 16384

/-- DOMFAULT (spec/20 R404). -/
def execDomfault (f : Nat) (dev : Word) (s : State) : Result :=
  let d := num dev
  runCommand f none (decide (d ≤ 7))
    (fun s => .guard s (d != s.link.dev.toNat)
      (let lost := s.ctxs.filter fun c => c.2.mode != .free &&
         (s.ctxLeaves c.1).any fun e => !eNc e.2.2.1 && paDev (eAddr e.2.2.1) == d
       let s1 := (s.setUnreachable d).abandonMcas d
       let s2 := lost.foldl (fun s c => s.killIfOpen c.1) s1
       .ok { s2 with dies := s2.dies.mapv fun _ x => { x with locks := x.locks.filter fun l => lockDev l.2 != d + 1 } })) s

end Sys2Proof.Machine
end

