-- ==== Sys2Proof/Machine/Masthead.lean ====
section
/-! DEFINITION. Masthead: its registers, READBACK, reports and keys, the clock, bring-up, and the service of the mailboxes (spec/22
R415 to R428). -/

namespace Sys2Proof.Machine

/-! ### Registers (spec/22 R415) -/

/-- Bits [15:0] of mstat. -/
def Masthead.stat (m : Masthead) : Nat := m.berr.toNat * 256 + m.stage.toNat * 16 + bit m.ready 0

/-- REGISTER_WRITE: mbase and mctl while no descriptor is under way, mtail at any time, every other offset ignored. A base that is
not aligned, or a size out of range, is ignored as well (DESIGN CHOICE, log 47). -/
def execRegisterWrite (f : Nat) (off : Nat) (v : Word) (s : State) : Result :=
  let m := s.mail f
  let quiet := m.head == m.tail
  .next (if 64 ≤ f then s
    else match off with
      | 0x00 => if quiet && num v % 128 == 0 then s.setMail f { m with base := v } else s
      | 0x08 =>
        let n := fieldOf v 0 4
        if quiet && decide (4 ≤ n) && decide (n ≤ 12) then s.setMail f { m with lsize := BitVec.ofNat 4 n } else s
      | 0x10 => s.setMail f { m with tail := v.setWidth 32 }
      | _ => s)

/-- What a read of a mailbox's page returns: its registers, and zero at every other offset (spec/22 R415; that mtail reads as written is
DESIGN CHOICE, log 47). -/
def State.regRead (s : State) (f off : Nat) : Word :=
  let m := s.mail f
  match off with
  | 0x00 => m.base
  | 0x08 => m.lsize.setWidth 64
  | 0x10 => m.tail.setWidth 64
  | 0x18 => m.head.setWidth 64
  | 0x20 => BitVec.ofNat 64 s.mast.stat
  | _ => 0#64

/-- Whether the BAR 2 of a function holds the page of a queue: that of PF0 holds all, that of a virtual function those of its owner's
queues (spec/20 R397). -/
def State.pageOf (s : State) (f n : Nat) : Bool :=
  f == 0 || match s.ownerOf f with
  | none => false
  | some o => (s.queue n).mode != .free && (s.ctx (s.queue n).ctx).owner == o

/-- What a read of a queue's doorbell page through a function's BAR 2 returns (spec/14 R308; tail as for mtail). -/
def State.doorbellRead (s : State) (f n off : Nat) : Word :=
  let q := s.queue n
  if !s.pageOf f n then 0#64
  else match off with
    | 0x00 => q.tail.setWidth 64
    | 0x08 => q.head.setWidth 64
    | 0x10 => q.stat
    | _ => 0#64

/-! ### READBACK (spec/22 R420 to R423) -/

/-- An item: its size in bytes, and its 8-byte words. -/
structure Item where
  size : Nat
  word : Nat → Word

/-- An item of some words. -/
def Item.ofWords (ws : List Word) : Item := { size := 8 * ws.length, word := fun i => ws.getD i 0#64 }

/-- The tags of the promotion rows of a bank (spec/22 R420, class 6). -/
def State.promoWord (s : State) (die bank i : Nat) : Word :=
  let rs := s.promo die bank
  let f := i / 2
  match rs.find? fun r => r.fast == f && 128 * (s.die die).fr ≤ f with
  | none => 0#64
  | some r =>
    if i % 2 = 0 then BitVec.ofNat 64 (r.row + 2 ^ 63)
    else BitVec.ofNat 64 (r.ctx + bit r.pin 16 + bit r.dirty 17 + (rs.findIdx fun x => x.fast == f) * 2 ^ 32)

/-- A line as its home holds it: ciphertext on a protected page (spec/22 R420, class 7). -/
def State.lineItem (s : State) (l : Nat) : Item :=
  let d := crypt (s.keyOf l) l (Mem.line s.mem.dram l)
  let side := s.sideBits l
  let last : Word := ((Config.eccBits d side) ++ side).setWidth 64
  { size := 72, word := fun i => if i < 8 then wordOf d.toNat i else last }

/-- The word of R354. -/
def State.keyWord (s : State) (n : Nat) : Word :=
  match Tab.getD s.mast.keys n .empty with
  | .empty => 0#64
  | .loaded _ => 1#64
  | .zeroising => 2#64

/-- The register of R358. -/
def Scrub.word (x : Scrub) : Word :=
  BitVec.ofNat 64 (x.ctx.toNat * 2 ^ 48 + x.state.toNat * 2 ^ 46 + x.done.toNat * 2 ^ 22 + x.left.toNat)

/-- Lines that the caches of a kind hold for a context, and its soft limit (spec/07 R164; the caches of the module together, log
48). -/
def State.occupancy (s : State) (kind ctx : Nat) : Nat :=
  match kind with
  | 0 => s.cores.foldl (fun a e => a + heldBy (e.2.l1.map (·.2)) ctx) 0
  | 1 => s.clusters.foldl (fun a e => a + heldBy (e.2.l2.map (·.2)) ctx) 0
  | _ => s.dies.foldl (fun a e => a + (e.2.msc.filter fun x => x.2.ctx == ctx).length) 0

/-- Word i of the lines of an L1, by set and order in it: the PA; then context, generation tag in [31:16] and valid in [32] (the places
are a DESIGN CHOICE, log 48). -/
def CoreSt.l1Word (c : CoreSt) (i : Nat) : Word :=
  let k := i / 2
  match (c.l1.filter fun e => e.1 / 65536 % l1Sets == k / 8)[k % 8]? with
  | some (l, x) =>
    if i % 2 = 0 then BitVec.ofNat 64 (64 * (l / 65536)) else BitVec.ofNat 64 (x.ctx + x.tag.toNat * 2 ^ 16 + 2 ^ 32)
  | none => 0#64

/-- The item that a class and an instance name. -/
def State.item (s : State) (cls inst : Nat) : Option Item :=
  let group := inst < 65536 && legalMask (maskOf inst)
  match cls with
  | 1 => if inst < 16384 then some { size := 0x40000, word := s.shownSeq inst } else none
  | 2 => if group then some { size := 0x10000, word := (s.groupView inst).part inst } else none
  | 3 => if group then
      some { size := 2 ^ 20 * (quads (maskOf inst)).length, word := (s.groupView inst).bankWord inst } else none
  | 4 => if inst < 2 ^ 32 then
      let h := BitVec.ofNat 32 inst
      some (.ofWords [(s.pennant h).count, s.penWord h]) else none
  | 5 => if inst < 4096 then
      some { size := 8 + 2048 * 16, word := fun i => if i = 0 then (s.core inst).gen.setWidth 64 else (s.core inst).l1Word (i - 1) } else none
  | 6 => if inst < 16384 then some { size := 2048 * 16, word := s.promoWord (inst / 1024) (inst % 1024) } else none
  | 7 => if inst < 2 ^ 52 then some (s.lineItem (lineOf inst)) else none
  | 8 => if 1 ≤ inst && inst ≤ 127 then some (.ofWords [s.keyWord inst]) else none
  | 9 => if inst ≤ 15 then some (.ofWords [(s.die inst).scrub.word]) else none
  | 10 => if 1 ≤ inst && inst ≤ 65535 then some (.ofWords (s.ctxWords inst)) else none
  | 11 => if inst < 256 then some (.ofWords (s.queue inst).words) else none
  | 12 => if group then some (.ofWords [s.groupWord inst]) else none
  | 13 => if inst < 4096 * 64 then some (.ofWords [((s.core (inst / 64)).desc (inst % 64)).word]) else none
  | 14 => if inst < 3 * 65536 then
      let ctx := inst % 65536
      let kind := inst / 65536
      some (.ofWords [BitVec.ofNat 64 (s.occupancy kind ctx), BitVec.ofNat 64 (s.limit ctx kind (cacheLines kind))]) else none
  | _ => none

/-- What a virtual function may read back: items of its owner's contexts, queues and groups, of a group and its quadrants what its own contexts
left there, and the progress registers, which it may read with SCRREAD as well (spec/22 R418). -/
def itemMine (cls inst : Nat) : State → Nat → Bool := fun s o =>
  let ctx := fun (c : Nat) => (s.ctx c).mode != .free && (s.ctx c).owner == o
  let grp := fun (g : Option (Nat × Group)) => match g with
    | some (_, g) => g.mode != .absent && (g.owner == o || (g.lent && g.borrower == o))
    | none => false
  match cls with
  | 1 => grp (s.groupOf inst) && (s.seqCtx inst).all ctx
  | 2 | 3 => grp (some (inst, s.group inst)) && (s.shownCtxs inst).all ctx
  | 12 => grp (some (inst, s.group inst))
  | 4 => s.ctxs.any fun e => e.2.owner == o && s.penOk e.1 (BitVec.ofNat 32 inst)
  | 8 => s.ctxs.any fun e => e.2.mode != .free && e.2.owner == o && e.2.ksl == inst
  | 9 => true
  | 10 => ctx inst
  | 11 => (s.queue inst).mode != .free && ctx (s.queue inst).ctx
  | 13 =>
    grp (s.groupOf (4 * (inst / 64) + inst % 64 / 16)) && (s.bankCtxs (inst / 64) (inst % 64 / 16)).all ctx
  | 14 => ctx (inst % 65536)
  | _ => false

/-- Classes 1 and 3 of a protected context go only to the function whose TDI is bound to it (spec/22 R420), and what one that is gone left
behind to none. -/
def State.itemSealed (s : State) (f cls inst : Nat) : Bool :=
  let shown := if cls = 1 then s.seqCtx inst else if cls = 3 then s.shownCtxs inst else []
  shown.any fun c => c == goneSealed || ((s.ctx c).ksl != 0 && (s.tdi f).ctx != some c)

def execReadback (f : Nat) (cls inst off len buf : Word) (s : State) : Result :=
  let it := s.item (num cls) (num inst)
  let fits := match it with | some x => decide (num off + num len ≤ x.size) | none => false
  runCommand f (some (itemMine (num cls) (num inst))) (fits && num off % 8 == 0 && num len % 8 == 0)
    (fun s => match it with
      | none => .done s stRange []
      | some x =>
        if s.itemSealed f (num cls) (num inst) then .done s stDenied []
        else .ok (s.hostWrite (num buf) (wordsBytes ((List.range (num len / 8)).map fun i => x.word (num off / 8 + i))))) s

/-! ### Usage, identity and keys (spec/22 R424, R425) -/

def bytesOf (n : Nat) (f : Nat → Byte) : List Byte := (List.range n).map f

/-- A report with its signature over the bytes before it; the count of reports rises. -/
def State.signReport (s : State) (buf : Nat) (body : List Byte) : State :=
  let s1 := s.hostWrite buf (body ++ bytesOf 64 (Config.signature body))
  { s1 with mast := { s1.mast with seqno := satAdd s1.mast.seqno 1 } }

/-- The 192 bytes of USAGE but for the signature. -/
def State.usageBody (s : State) (owner : Nat) (nonce : List Byte) : List Byte :=
  let o := s.owner owner
  wordsBytes [1#64] ++ leBytes Config.serial.toNat 16 ++ leBytes (Config.bootid s.mast.boot).toNat 16 ++
    wordsBytes [s.mast.seqno, BitVec.ofNat 64 owner] ++ nonce ++ wordsBytes [o.qcyc, o.rdb, o.wrb, o.lnkb, o.saves]

def execUsage (f : Nat) (owner nonce buf : Word) (s : State) : Result :=
  runCommand f (some fun _ o => num owner == o) (decide (num owner ≤ 63))
    (fun s => .ok (s.signReport (num buf) (s.usageBody (num owner) (s.hostRead (num nonce) 32)))) s

/-- IDGET writes as much of the chain as the buffer's length takes. -/
def execIdget (f : Nat) (buf len : Word) (s : State) : Result :=
  runCommand f (some anyMine) true
    (fun s => .ok (s.hostWrite (num buf) (bytesOf (min (num len) Config.certificateLen) Config.certificate))) s

def TdiMode.code : TdiMode → Nat
  | .unlocked => 0 | .locked => 1 | .run => 2 | .error => 3

/-- What ATTEST signs, in the order of R425 (the widths are the model's, DESIGN CHOICE, log 48): the nonce, two digests of 32 bytes, the F-region
sizes, the domain and the device number, and the state of every TDI. -/
def State.attestBody (s : State) (nonce : List Byte) : List Byte :=
  nonce ++ bytesOf 64 Config.romDigest ++
    wordsBytes ((List.range 16).map fun d => BitVec.ofNat 64 ((s.die d).fr * 2 ^ 28)) ++
    wordsBytes [BitVec.ofNat 64 (s.link.domain.getD 0), s.link.dev.setWidth 64] ++
    (List.range 63).map fun i => BitVec.ofNat 8 (s.tdi (i + 1)).mode.code

def execAttest (f : Nat) (nonce buf : Word) (s : State) : Result :=
  runCommand f (some anyMine) true
    (fun s => .ok (s.signReport (num buf) (s.attestBody (s.hostRead (num nonce) 32)))) s

/-- KEYX: the exchange depends on the peer's key and on the keys that Masthead draws. -/
def execKeyx (f : Nat) (key buf : Word) (s : State) : Result :=
  runCommand f (some anyMine) true
    (fun s =>
      let seed := leNat (s.hostRead (num key) 64) + s.tick * 2 ^ 512
      let s1 := s.hostWrite (num buf) (bytesOf 96 (Config.kexReply seed))
      .ok (s1.setMail f { s1.mail f with session := Config.kexSession seed })) s

/-! ### Margins, the clock and other reports (spec/22 R419, R426) -/

def execMargin (f : Nat) (buf : Word) (s : State) : Result :=
  runCommand f none true
    (fun s => .ok (s.hostWrite (num buf) (wordsBytes ((List.range 16).flatMap fun d =>
      [Config.slack d s.tick, Config.voltage d s.tick, BitVec.ofNat 64 s.mast.clk, BitVec.ofNat 64 s.mast.clkPlan])))) s

/-- ERRLOG: the count of corrected errors (spec/18 R378), then a word of code and one of information for each entry. -/
def execErrlog (f : Nat) (buf len clear : Word) (s : State) : Result :=
  runCommand f none (decide (num clear ≤ 1))
    (fun s =>
      let bs := wordsBytes (BitVec.ofNat 64 s.mast.corrected :: s.mast.log.flatMap fun e => [BitVec.ofNat 64 e.code, e.info])
      let s1 := s.hostWrite (num buf) (bs.take (num len))
      .ok (if num clear = 1 then { s1 with mast := { s1.mast with log := [], corrected := 0 } } else s1)) s

def execScrread (f : Nat) (die : Word) (s : State) : Result :=
  runCommand f (some anyMine) (decide (num die ≤ 15)) (fun s => .done s stDone [(s.die (num die)).scrub.word]) s

/-- The ROM described by the spec reports major 1, minor 0. -/
def romVersion : Word := 0x10000#64

def execFwinfo (f : Nat) (s : State) : Result :=
  runCommand f none true
    (fun s => .done s stDone [romVersion, BitVec.ofNat 64 s.mast.stat, BitVec.ofNat 64 (s.mast.clk + s.mast.clkPlan * 65536)]) s

/-- HALOVF (spec/11 R242, spec/22 R419). -/
def execHalovf (f : Nat) (die pa count : Word) (s : State) : Result :=
  let d := num die
  let n := num count
  let p := num pa
  runCommand f none
    (decide (d ≤ 15) && n % 65536 == 0 && decide (n ≤ 2 ^ 28 - 65536) &&
      (n == 0 || (p % 65536 == 0 && paDie p == d && !paFast p && s.inStack p (16 * n))))
    (fun s =>
      let reach := s.ctxs.any fun e => match Tab.get? e.2.wins d with | some (b, k) => decide (65536 < b + k) | none => false
      let mapped := n != 0 && s.ctxs.any fun c => c.2.mode != .free && (s.ctxLeaves c.1).any fun e => leafMeets e p (16 * n)
      .guard s (!reach && !mapped)
        (match (if n = 0 then none else s.rangeGate p (16 * n)) with
         | some (s1, evs) => .wait s1 evs
         | none =>
         let s1 := s.setDie d { s.die d with
            ovf := if n = 0 then none else some (p, n), pen := (s.die d).pen.keep fun i _ => decide (i < 65536) }
         .ok (if n = 0 then s1 else s1.scrubRange p (16 * n)))) s

/-- CLOCK_REPLAN: a clock of 1.0 to 1.4 GHz in steps of 25 MHz; a lowering below 1.32 GHz waits for every recall (spec/22 R426). -/
def execClockReplan (mhz : Nat) (s : State) : Result :=
  .next (if 1000 ≤ mhz && mhz ≤ 1400 && mhz % 25 = 0 then
    let s1 := { s with mast := { s.mast with clkPlan := mhz } }
    if mhz < 1320 && mhz < s.mast.clk then s1.settleClock else { s1 with mast := { s1.mast with clk := mhz } }
  else s)

/-! ### Bring-up (spec/22 R428, spec/16 R360) -/

/-- Every bank of scratchpad and accumulator is zeroed, and every key slot empty. -/
def State.zeroBanks (s : State) : State :=
  { s with
    cores := s.cores.mapv fun _ c => { c with spad := [], live := [], region := [], acc := [], tstat := [] }
    mast := { s.mast with keys := [] } }

/-- What stage 3 scrubs: every stack whole, or the journalled runs. -/
def State.runsAtReset (s : State) : List (Nat × Nat) :=
  if s.mast.cold then [(s.link.dev.toNat * 2 ^ 49, 2 ^ 49)] else s.mast.journal.flatMap fun j => j.2.map fun r => (r.1, 65536 * r.2)

/-- Stage 3: the journalled scrubs are completed, or every stack scrubbed whole. -/
def State.scrubAtReset (s : State) : State :=
  let s1 := s.runsAtReset.foldl (fun s r => s.scrubRange r.1 r.2) s
  if s.mast.cold then s1
  else
    { s1 with
      mast := { s1.mast with journal := [] }
      dies := s1.dies.mapv fun _ d => if d.scrub.state = 3#2 then
          { d with scrub := { d.scrub with state := 2#2, done := d.scrub.done + d.scrub.left, left := 0#22 } } else d }

/-- BRINGUP_STAGE: the stage in progress ends, or fails with a code and bring-up stops. Stage 3 does not end before the host has given up
the lines that it may hold of what is scrubbed (spec/20 R398). -/
def execBringupStage (err : BitVec 8) (s : State) : Result :=
  .next (if s.mast.ready || s.mast.berr != 0#8 then s
    else if err ≠ 0#8 then { s with mast := { s.mast with berr := err } }
    else match (if s.mast.stage = 3#4 then s.runsGate s.runsAtReset else none) with
    | some (s1, evs) => s1.stallOn evs
    | none =>
      let s1 := match s.mast.stage with
        | 1#4 => s.zeroBanks
        | 3#4 => s.scrubAtReset
        | _ => s
      if s1.mast.stage = 5#4 then { s1 with mast := { s1.mast with ready := true } }
      else { s1 with mast := { s1.mast with stage := s1.mast.stage + 1#4 } })

/-! ### The service of a mailbox (spec/22 R416, R417, R419) -/

/-- Run the command of a descriptor: exec of the instruction that `decodeCmd` names. -/
def execCmd (f op : Nat) (ops : List Word) (s : State) : Option Result :=
  let o := fun i => ops.getD i 0#64
  match op with
  | 0x10 => some (execCcreate f (o 0) (o 1) (o 2) (o 3) (o 4) (o 5) (o 6) (o 7) s)
  | 0x11 => some (execCset f (o 0) (o 1) (o 2) s)
  | 0x12 => some (execCarea f (o 0) (o 1) (o 2) s)
  | 0x13 => some (execCwin f (o 0) (o 1) (o 2) (o 3) s)
  | 0x14 => some (execClimit f (o 0) (o 1) (o 2) s)
  | 0x15 => some (execCpreempt f (o 0) (o 1) (o 2) s)
  | 0x16 => some (execCresume f (o 0) (o 1) (o 2) s)
  | 0x17 => some (execCkill f (o 0) s)
  | 0x18 => some (execCkey f (o 0) (o 1) s)
  | 0x19 => some (execCdestroy f (o 0) (o 1) (o 2) s)
  | 0x1A => some (execCread f (o 0) s)
  | 0x20 => some (execQcreate f (o 0) (o 1) (o 2) (o 3) (o 4) (o 5) s)
  | 0x21 => some (execQset f (o 0) (o 1) s)
  | 0x22 => some (execQpause f (o 0) s)
  | 0x23 => some (execQresume f (o 0) s)
  | 0x24 => some (execQreset f (o 0) s)
  | 0x25 => some (execQdestroy f (o 0) s)
  | 0x26 => some (execOwnset f (o 0) (o 1) s)
  | 0x27 => some (execQread f (o 0) s)
  | 0x30 => some (execGcreate f (o 0) (o 1) (o 2) s)
  | 0x31 => some (execGdestroy f (o 0) s)
  | 0x32 => some (execGbind f (o 0) (o 1) s)
  | 0x33 => some (execGunbind f (o 0) (o 1) s)
  | 0x34 => some (execLend f (o 0) (o 1) s)
  | 0x35 => some (execRecall f (o 0) s)
  | 0x36 => some (execGread f (o 0) s)
  | 0x40 => some (execVmroot f (o 0) (o 1) (o 2) s)
  | 0x41 => some (execS2map f (o 0) (o 1) (o 2) (o 3) (o 4) (o 5) (o 6) (o 7) (o 8) s)
  | 0x42 => some (execS2unmap f (o 0) (o 1) (o 2) s)
  | 0x43 => some (execS2clean f (o 0) (o 1) (o 2) s)
  | 0x44 => some (execTlbinv f (o 0) (o 1) (o 2) (o 3) s)
  | 0x45 => some (execFrset f (o 0) (o 1) s)
  | 0x46 => some (execSegquota f (o 0) (o 1) s)
  | 0x47 => some (execMscset f (o 0) (o 1) (o 2) (o 3) (o 4) (o 5) (o 6) s)
  | 0x48 => some (execHmove f (o 0) (o 1) s)
  | 0x50 => some (execHdmset f (o 0) (o 1) (o 2) (o 3) (o 4) (o 5) s)
  | 0x51 => some (execTdibind f (o 0) (o 1) s)
  | 0x52 => some (execLnkdom f (o 0) (o 1) s)
  | 0x53 => some (execPoolset f (o 0) (o 1) (o 2) (o 3) (o 4) s)
  | 0x54 => some (execSwred f (o 0) (o 1) (o 2) (o 3) (o 4) (o 5) s)
  | 0x55 => some (execDomfault f (o 0) s)
  | 0x60 => some (execOwnnew f (o 0) (o 1) s)
  | 0x61 => some (execOwndel f (o 0) s)
  | 0x62 => some (execReadback f (o 0) (o 1) (o 2) (o 3) (o 4) s)
  | 0x63 => some (execUsage f (o 0) (o 1) (o 2) s)
  | 0x64 => some (execIdget f (o 0) (o 1) s)
  | 0x65 => some (execAttest f (o 0) (o 1) s)
  | 0x66 => some (execKeyx f (o 0) (o 1) s)
  | 0x67 => some (execMargin f (o 0) s)
  | 0x68 => some (execErrlog f (o 0) (o 1) (o 2) s)
  | 0x69 => some (execScrread f (o 0) s)
  | 0x6A => some (execFwinfo f s)
  | 0x6B => some (execHalovf f (o 0) (o 1) (o 2) s)
  | _ => none

/-- Whether Masthead can take a descriptor of a mailbox. -/
def Mail.waiting (m : Mail) : Bool := m.head != m.tail && m.pend.isNone

/-- Take the descriptor at the head of a mailbox. Where several statuses apply, they are tried in the order 5, 3, 1 for an unused word, 4, 1 for an operand, 2 (DEDUCED, log 49). -/
def State.serveMail (s : State) (f : Nat) : Result :=
  let m := s.mail f
  if !m.waiting then .next s
  else if !s.mast.ready then .next (s.respond f stNotReady [])
  else
    let w := fun i => s.hostWord (m.slot + 8 * i)
    let op := fieldOf (w 0) 0 16
    match cmdArity op with
    | none => .next (s.respond f stOpcode [])
    | some n =>
      let ops := (List.range n).map fun i => w (i + 1)
      let unused := (List.range (11 - n)).any fun i => w (n + 1 + i) != 0#64
      if unused then .next (s.respond f stRange [])
      else
        match execCmd f op ops s with
        | some r => r
        | none => .next (s.respond f stOpcode [])

end Sys2Proof.Machine
end

