-- ==== Sys2Proof/Machine/Reset.lean ====
section
/-! DEFINITION. The resets of the module (spec/16 R360, spec/22 R424, R428). -/

namespace Sys2Proof.Machine

/-- What a reset leaves of memory outside the module's caches: DRAM, and what lies beyond the module. Key slots are zeroised, but
a line stays encrypted under the key that wrote it. -/
def MemSys.afterReset (m : MemSys) : MemSys := { m with bisnp := [], acked := [] }

/-- WARM_RESET: retention SRAM keeps the scrub journal and the usage counters; a scrub that ran is shown as interrupted. -/
def execWarmReset (s : State) : Result :=
  let kept := s.owners.mapv fun _ (o : Owner) =>
    ({ qcyc := o.qcyc, rdb := o.rdb, wrb := o.wrb, lnkb := o.lnkb, saves := o.saves } : Owner)
  let dies := Tab.mapv (s.dies.keep fun _ d => d.scrub.state == 1#2 || d.scrub.state == 3#2) fun _ (d : Die) =>
    ({ scrub := { d.scrub with state := 3#2 } } : Die)
  .next { tick := s.tick, mem := s.mem.afterReset, owners := kept, dies := dies
          mast := { boot := s.mast.boot, seqno := s.mast.seqno, journal := s.mast.journal, cold := false } }

/-- COLD_RESET: the journal and the counters are lost, and a new bootid is drawn. -/
def execColdReset (s : State) : Result :=
  .next { tick := s.tick, mem := s.mem.afterReset, mast := { boot := s.mast.boot + 1 } }

end Sys2Proof.Machine
end

