-- ==== Sys2Proof/Machine/Policy.lean ====
section
/-! DEFINITION. What the machine does next. The spec fixes no order among what can happen; one deterministic step takes one order,
in which everything that can happen gets its turn (DESIGN CHOICE, log 1). -/

namespace Sys2Proof.Machine

/-- What a step does: run an instruction, issue a bundle whole, take a descriptor of a mailbox, or nothing. -/
inductive Action where
  | run (s : State) (i : Instr)
  | whole (s : State) (q : Nat) (e : Win)
  | mail (s : State) (f : Nat)
  | rest (s : State)

/-- A turn of the module: an event, or a mailbox. -/
inductive Turn where
  | event (i : Instr)
  | mail (f : Nat)

/-! ### What the module can do -/

/-- Read streams whose accesses do not wait are filled whenever they have room (spec/05 R130 to R132). -/
def State.fillEvents (s : State) : List Instr :=
  s.seqs.flatMap fun e =>
    if e.2.c.mode = .running then
      e.2.r.q.filterMap fun x =>
        if x.2.bound && x.2.pat.nostall && !x.2.pat.dirW && x.2.fault.isNone && decide (x.2.pos < x.2.pat.steps) &&
            decide (x.2.queue.length < 8) then some (Instr.streamFill e.1 x.1) else none
    else []

/-- The ends of regions of sequencers that issue nothing now, and the write-backs of lines that wait for their homes (spec/03 R82, spec/07
R161). -/
def State.leftEvents (s : State) : List Instr :=
  (s.seqs.filterMap fun e => if e.2.c.mode != .running && e.2.regionReady then some (.specRegionEnd e.1) else none) ++
    s.clusters.flatMap fun e => (e.2.l2.filter fun l => l.2.out).map fun l => Instr.homeWb l.1 e.1

/-- Results on their way, queued stores, fills, operations at the Halyards, copies, buffers that are being zeroed, and page walks. -/
def State.unitEvents (s : State) : List Instr :=
  s.leftEvents ++ s.fillEvents ++ (s.dies.flatMap fun e => s.walkEvents e.1) ++
    (s.seqs.flatMap fun e => s.outEvents e.1 ++ s.storeEvents e.1 ++ s.askEvents e.1) ++ s.hal.map HalEnt.event ++
    s.cores.flatMap fun e =>
      ((e.2.chans.filter fun c => !c.2.copies.isEmpty).map fun c => c.2.event (e.1 * 256 + c.1)) ++
        (e.2.descs.filter fun d => d.2.zeroing).map fun d => Instr.bufferZeroingDone e.1 d.1

/-- Nodes that can fire, and launches that have ended. -/
def State.launchEvents (s : State) : List Instr :=
  s.launches.flatMap fun e =>
    (e.2.nodes.zipIdx.filterMap fun n =>
      if !n.1.reported && (n.1.found.isSome || s.arrivalLatched e.2 n.2 n.1 || (s.arrived e.2 n.2 n.1 && s.mayFire e.2 n.1)) then
        some (Instr.nodeFire e.1 n.2) else none) ++
      if e.2.over then [.launchEnd e.1] else []

/-- Queues with a launch at their head. -/
def State.queueEvents (s : State) : List Instr :=
  s.queues.filterMap fun e => if (s.headBlock e.1).isSome then some (.launchDispatch e.1) else none

/-- What a group can do. -/
def State.groupEvents (s : State) (gh : Nat) (g : Group) : List Instr :=
  match g.mode with
  | .absent => []
  | .idle => [.schedDecision gh]
  | .loading => [.contextLoadComplete gh]
  | .scrubbing => [.groupScrubComplete gh]
  | .saving => [.contextSaveComplete gh] ++ if g.rung ≠ 0 && g.kill ≤ g.age then [.killTimerExpire gh] else []
  | .running =>
    if g.rung = 0 then
      (if s.hasLaunch g.ctx then [] else [.schedDecision gh]) ++ if s.mustPreempt gh g then [.preemptRequest gh] else []
    else
      (if g.rung = 1 && (groupSeqs gh).all fun q => (s.seq q).atBoundary then [.saveStart gh] else []) ++
        (if g.rung = 1 && g.grace ≤ g.age then [.graceTimerExpire gh] else []) ++
        if g.kill ≤ g.age then [.killTimerExpire gh] else []

/-- Whether the fault ring of a context can be read and has room (spec/16 R346). -/
def State.ringRoom (s : State) (ctx : Nat) : Bool :=
  match s.csWords ctx (s.ctx ctx).fring 2 with
  | some [head, tail] => (tail - head).toNat != 2 ^ (s.ctx ctx).flog
  | _ => false

/-- What a context can do. -/
def ctxEvents (n : Nat) (c : Ctx) : List Instr :=
  match c.mode with
  | .killing => [.killComplete n]
  | .teardown => [.contextScrubComplete n]
  | .free | .ready | .active => []

/-- Events of the module that can happen. -/
def State.moduleEvents (s : State) : List Instr :=
  s.unitEvents ++ s.launchEvents ++ s.queueEvents ++ (s.groups.flatMap fun e => s.groupEvents e.1 e.2) ++
    (s.ctxs.flatMap fun e => ctxEvents e.1 e.2) ++
    (s.seqs.filterMap fun e =>
      if !e.2.c.records.isEmpty && s.ringRoom (s.ctxOf e.1) then some (.faultRecordRetry e.1) else none) ++
    (if s.mast.ready || s.mast.berr != 0#8 then [] else [.bringupStage 0#8]) ++ s.link.held

/-- Turns of the module. -/
def State.turns (s : State) : List Turn :=
  s.moduleEvents.map .event ++ s.mast.mail.filterMap fun e => if e.2.waiting then some (.mail e.1) else none

/-- The turn that comes now: they go round. -/
def State.moduleTurn (s : State) : Option Turn :=
  let ts := s.turns
  ts[s.tick / 4 % ts.length]?

def Turn.act (t : Turn) (s : State) : Action :=
  match t with
  | .event i => .run s i
  | .mail f => .mail s f

/-! ### What a sequencer can do -/

/-- The next action of the current sequencer: a region that can end, a shadow entry that is due, a slot, writes of cr.fmt that have
taken effect, the next group, or what it has under way. -/
def State.seqTurn (s : State) : Option Action :=
  let q := s.cur.seq
  let x := s.seq q
  if x.c.mode ≠ .running then none
  else if x.regionReady then some (.run s (.specRegionEnd q))
  else if x.shadowDue then some (.run s (.shadowEntryApply q))
  else
    match s.pickSlot with
    | some (e, n) =>
      some (if x.whole e then .whole { s with latch := none } q e else .run (s.aim q n e) (e.instr n))
    | none =>
      let s0 := { s with latch := none }
      if !(x.c.fmt.inEffect x.oldestBn).isEmpty then some (.run s0 (.fmtSetEffect q))
      else if x.canFetch || x.c.replay.isSome then some (.run s0 (.groupCheck q))
      else
        match s0.idleEvents q with
        | e :: t => some (.run { s0.yield with agenda := t } e)
        | [] => none

/-- The next action. -/
def State.nextAction (s : State) : Action :=
  match (if s.latch.isNone && s.tick % 4 = 0 then s.moduleTurn else none) with
  | some t => t.act s
  | none =>
    match s.seqTurn with
    | some a => a
    | none =>
      let s1 := { s with latch := none }.yield
      match s1.moduleTurn with
      | some t => t.act s1
      | none => .rest s1

end Sys2Proof.Machine
end

