-- ==== Sys2Proof/Machine/Scalar.lean ====
section
/-! DEFINITION. Scalar arithmetic, moves, compares and predicate logic of slots A and B (spec/03 R55 to R66). -/

namespace Sys2Proof.Machine

/-! ### Shared shapes -/

/-- sD := f sA sB, slot A (spec/03 R56). -/
def aluA (f : Word → Word → Word) (g : BitVec 4) (d a b : BitVec 6) (s : State) : Result :=
  slotDo (g.setWidth 7) s fun s => s.ws d (f (s.rs a) (s.rs b))

/-- sD := f sA imm, slot A (spec/03 R58). -/
def immA (f : Word → Word → Word) (g : BitVec 4) (d a : BitVec 6) (imm : BitVec 7) (s : State) : Result :=
  slotDo (g.setWidth 7) s fun s => s.ws d (f (s.rs a) (imm.signExtend 64))

/-- sX := f sY sZ, slot B (spec/03 R59). -/
def aluB (f : Word → Word → Word) (g : BitVec 7) (x y z : BitVec 6) (s : State) : Result :=
  slotDo g s fun s => s.ws x (f (s.rs y) (s.rs z))

/-- Compare of slot A (spec/03 R64). -/
def cmpA (c : Cond) (g : BitVec 4) (n a b : BitVec 6) (s : State) : Result :=
  slotDo (g.setWidth 7) s fun s => s.writePair n (condHolds c (s.rs a) (s.rs b))

/-- pX := f pY z′, where z′ is pZ or its complement (spec/03 R66). -/
def predOp (f : BitVec 32 → BitVec 32 → BitVec 32) (g x y z : BitVec 7) (inv : BitVec 1) (s : State) : Result :=
  slotDo g s fun s => s.wp x (f (s.rp y) (if inv = 1#1 then ~~~ s.rp z else s.rp z))

/-! ### Values -/

/-- The shift count is sB[5:0]. -/
def cnt (b : Word) : Nat := b.toNat % 64
def shlW (a b : Word) : Word := a <<< cnt b
def shrW (a b : Word) : Word := a >>> cnt b
def sraW (a b : Word) : Word := a.sshiftRight (cnt b)
/-- Bits [127:64] of the signed, and of the unsigned, product. -/
def mulhW (a b : Word) : Word := (a.signExtend 128 * b.signExtend 128).extractLsb' 64 64
def mulhuW (a b : Word) : Word := (a.setWidth 128 * b.setWidth 128).extractLsb' 64 64

/-- Leading zeros from bit n − 1 downward. -/
def clzFrom (a : Word) : Nat → Nat
  | 0 => 0
  | n + 1 => if a.getLsbD n then 0 else clzFrom a n + 1

/-- One bits below bit n. -/
def popFrom (a : Word) : Nat → Nat
  | 0 => 0
  | n + 1 => popFrom a n + (if a.getLsbD n then 1 else 0)

def clzW (a : Word) : Word := BitVec.ofNat 64 (clzFrom a 64)
def popcW (a : Word) : Word := BitVec.ofNat 64 (popFrom a 64)
def minW (a b : Word) : Word := if b.slt a then b else a
def maxW (a b : Word) : Word := if a.slt b then b else a
def minuW (a b : Word) : Word := if b.ult a then b else a
def maxuW (a b : Word) : Word := if a.ult b then b else a

/-- The quotient of div and divu (spec/03 R57). −2^63 over −1 wraps to −2^63. -/
def divW (signed : Bool) (a b : Word) : Word :=
  if b = 0#64 then 0xFFFFFFFFFFFFFFFF#64 else if signed then a.sdiv b else a.udiv b

/-- Zero-extended bits [pos + w − 1 : pos] (spec/03 R61). -/
def extW (y : Word) (pos w : Nat) : Word := (y >>> pos) &&& BitVec.ofNat 64 (2 ^ w - 1)

/-- Bits [pos + w − 1 : pos] of x replaced by the low bits of y. -/
def insW (x y : Word) (pos w : Nat) : Word :=
  let m := BitVec.ofNat 64 ((2 ^ w - 1) * 2 ^ pos)
  (x &&& ~~~ m) ||| ((y <<< pos) &&& m)

/-! ### Slot A, register forms (spec/03 R56) -/

def execAddAr (g : BitVec 4) (d a b : BitVec 6) (s : State) : Result := aluA (· + ·) g d a b s
def execSubAr (g : BitVec 4) (d a b : BitVec 6) (s : State) : Result := aluA (· - ·) g d a b s
def execMul (g : BitVec 4) (d a b : BitVec 6) (s : State) : Result := aluA (· * ·) g d a b s
def execMulh (g : BitVec 4) (d a b : BitVec 6) (s : State) : Result := aluA mulhW g d a b s
def execMulhu (g : BitVec 4) (d a b : BitVec 6) (s : State) : Result := aluA mulhuW g d a b s

/-- div and divu start the divide unit, and wait at issue while it is busy; DIV_COMPLETE delivers (spec/03 R57, R63). -/
def startDiv (signed : Bool) (g : BitVec 4) (d a b : BitVec 6) (s : State) : Result :=
  slotOp (g.setWidth 7) s fun s =>
    match s.me.f.divu with
    | some _ => .wait s [.divComplete s.cur.seq]
    | none =>
      .done (s.setFlight { s.me.f with divu := some { dividend := s.rs a, divisor := s.rs b, signed := signed, dest := d } }) 1

def execDiv (g : BitVec 4) (d a b : BitVec 6) (s : State) : Result := startDiv true g d a b s
def execDivu (g : BitVec 4) (d a b : BitVec 6) (s : State) : Result := startDiv false g d a b s

/-- A divide finishes (spec/03 R63). -/
def execDivComplete (q : Nat) (s : State) : Result :=
  let x := s.seq q
  match x.f.divu with
  | none => .next s
  | some u =>
    .next (s.setSeq q
      { x with r := x.r.setS u.dest (divW u.signed u.dividend u.divisor), f := { x.f with divu := none } })

def execClz (g : BitVec 4) (d a : BitVec 6) (s : State) : Result :=
  slotDo (g.setWidth 7) s fun s => s.ws d (clzW (s.rs a))
def execPopc (g : BitVec 4) (d a : BitVec 6) (s : State) : Result :=
  slotDo (g.setWidth 7) s fun s => s.ws d (popcW (s.rs a))
def execAndAr (g : BitVec 4) (d a b : BitVec 6) (s : State) : Result := aluA (· &&& ·) g d a b s
def execOrAr (g : BitVec 4) (d a b : BitVec 6) (s : State) : Result := aluA (· ||| ·) g d a b s
def execXorAr (g : BitVec 4) (d a b : BitVec 6) (s : State) : Result := aluA (· ^^^ ·) g d a b s
def execShlAr (g : BitVec 4) (d a b : BitVec 6) (s : State) : Result := aluA shlW g d a b s
def execShrAr (g : BitVec 4) (d a b : BitVec 6) (s : State) : Result := aluA shrW g d a b s
def execSraAr (g : BitVec 4) (d a b : BitVec 6) (s : State) : Result := aluA sraW g d a b s
def execMin (g : BitVec 4) (d a b : BitVec 6) (s : State) : Result := aluA minW g d a b s
def execMax (g : BitVec 4) (d a b : BitVec 6) (s : State) : Result := aluA maxW g d a b s
def execMinu (g : BitVec 4) (d a b : BitVec 6) (s : State) : Result := aluA minuW g d a b s
def execMaxu (g : BitVec 4) (d a b : BitVec 6) (s : State) : Result := aluA maxuW g d a b s

/-! ### Slot A, immediate forms (spec/03 R58) -/

def execAddAi (g : BitVec 4) (d a : BitVec 6) (imm : BitVec 7) (s : State) : Result := immA (· + ·) g d a imm s
def execAndAi (g : BitVec 4) (d a : BitVec 6) (imm : BitVec 7) (s : State) : Result := immA (· &&& ·) g d a imm s
def execOrAi (g : BitVec 4) (d a : BitVec 6) (imm : BitVec 7) (s : State) : Result := immA (· ||| ·) g d a imm s
def execXorAi (g : BitVec 4) (d a : BitVec 6) (imm : BitVec 7) (s : State) : Result := immA (· ^^^ ·) g d a imm s
def execShlAi (g : BitVec 4) (d a : BitVec 6) (imm : BitVec 7) (s : State) : Result := immA shlW g d a imm s
def execShrAi (g : BitVec 4) (d a : BitVec 6) (imm : BitVec 7) (s : State) : Result := immA shrW g d a imm s
def execSraAi (g : BitVec 4) (d a : BitVec 6) (imm : BitVec 7) (s : State) : Result := immA sraW g d a imm s
def execMoviAw (g : BitVec 4) (d : BitVec 6) (imm : BitVec 13) (s : State) : Result :=
  slotDo (g.setWidth 7) s fun s => s.ws d (imm.signExtend 64)

/-! ### Slot A, compares (spec/03 R64) -/

def execCmpEqAr (g : BitVec 4) (n a b : BitVec 6) (s : State) : Result := cmpA .eq g n a b s
def execCmpNeAr (g : BitVec 4) (n a b : BitVec 6) (s : State) : Result := cmpA .ne g n a b s
def execCmpLtAr (g : BitVec 4) (n a b : BitVec 6) (s : State) : Result := cmpA .lt g n a b s
def execCmpLeAr (g : BitVec 4) (n a b : BitVec 6) (s : State) : Result := cmpA .le g n a b s
def execCmpLtuAr (g : BitVec 4) (n a b : BitVec 6) (s : State) : Result := cmpA .ltu g n a b s
def execCmpLeuAr (g : BitVec 4) (n a b : BitVec 6) (s : State) : Result := cmpA .leu g n a b s

/-! ### Slot B (spec/03 R59 to R62) -/

def execAddB3 (g : BitVec 7) (x y z : BitVec 6) (s : State) : Result := aluB (· + ·) g x y z s
def execSubB3 (g : BitVec 7) (x y z : BitVec 6) (s : State) : Result := aluB (· - ·) g x y z s
def execAndB3 (g : BitVec 7) (x y z : BitVec 6) (s : State) : Result := aluB (· &&& ·) g x y z s
def execOrB3 (g : BitVec 7) (x y z : BitVec 6) (s : State) : Result := aluB (· ||| ·) g x y z s
def execXorB3 (g : BitVec 7) (x y z : BitVec 6) (s : State) : Result := aluB (· ^^^ ·) g x y z s
def execShlB3 (g : BitVec 7) (x y z : BitVec 6) (s : State) : Result := aluB shlW g x y z s
def execShrB3 (g : BitVec 7) (x y z : BitVec 6) (s : State) : Result := aluB shrW g x y z s
def execSraB3 (g : BitVec 7) (x y z : BitVec 6) (s : State) : Result := aluB sraW g x y z s

/-- sX := sY + sZ × 2^fn. -/
def execLea (g : BitVec 7) (x y z : BitVec 6) (sh : BitVec 4) (s : State) : Result :=
  aluB (fun a b => a + b <<< sh.toNat) g x y z s

def execSel (g : BitVec 7) (x : BitVec 6) (n : BitVec 7) (y z : BitVec 6) (s : State) : Result :=
  slotDo g s fun s => s.ws x (if (s.rp n).getLsbD 0 then s.rs y else s.rs z)

def execExtB (g : BitVec 7) (x y pos wm1 : BitVec 6) (s : State) : Result :=
  slotDo g s fun s => s.ws x (extW (s.rs y) pos.toNat (wm1.toNat + 1))

def execInsB (g : BitVec 7) (x y pos wm1 : BitVec 6) (s : State) : Result :=
  slotDo g s fun s => s.ws x (insW (s.rs x) (s.rs y) pos.toNat (wm1.toNat + 1))

def execAddBi (g : BitVec 7) (x y : BitVec 6) (imm : BitVec 16) (s : State) : Result :=
  slotDo g s fun s => s.ws x (s.rs y + imm.signExtend 64)

def execMoviBw (g : BitVec 7) (x : BitVec 6) (imm : BitVec 22) (s : State) : Result :=
  slotDo g s fun s => s.ws x (imm.signExtend 64)

/-- sX := (sX shifted left by 16) OR imm16. -/
def execMovhi (g : BitVec 7) (x : BitVec 6) (imm : BitVec 16) (s : State) : Result :=
  slotDo g s fun s => s.ws x ((s.rs x <<< 16) ||| imm.setWidth 64)

/-! ### Slot B, compares and predicates (spec/03 R64 to R66) -/

def execCmpB3 (g : BitVec 7) (n y z : BitVec 6) (cond : Cond) (s : State) : Result :=
  slotDo g s fun s => s.writePair n (condHolds cond (s.rs y) (s.rs z))

def execCmpBc (g : BitVec 7) (n y : BitVec 6) (cond : Cond) (imm : BitVec 13) (s : State) : Result :=
  slotDo g s fun s => s.writePair n (condHolds cond (s.rs y) (imm.signExtend 64))

/-- Bits [31:0] of sY and sZ as FP32 values; no flag. -/
def execFcmp (g : BitVec 7) (n y z : BitVec 6) (cond : FCond) (s : State) : Result :=
  slotDo g s fun s => s.writePair n (fcondHolds cond ((s.rs y).setWidth 32) ((s.rs z).setWidth 32))

def execPand (g : BitVec 7) (x y z : BitVec 7) (inv : BitVec 1) (s : State) : Result := predOp (· &&& ·) g x y z inv s
def execPor (g : BitVec 7) (x y z : BitVec 7) (inv : BitVec 1) (s : State) : Result := predOp (· ||| ·) g x y z inv s
def execPxor (g : BitVec 7) (x y z : BitVec 7) (inv : BitVec 1) (s : State) : Result := predOp (· ^^^ ·) g x y z inv s
def execPnot (g : BitVec 7) (x y : BitVec 7) (s : State) : Result := slotDo g s fun s => s.wp x (~~~ s.rp y)
def execPmov (g : BitVec 7) (x y : BitVec 7) (s : State) : Result := slotDo g s fun s => s.wp x (s.rp y)

/-- Lanes lo to hi; none when lo > hi. -/
def laneRange (lo hi : Nat) : BitVec 32 := BitVec.ofNat 32 (if lo ≤ hi then 2 ^ (hi + 1) - 2 ^ lo else 0)

def execPset (g : BitVec 7) (x lo hi : BitVec 7) (inv : BitVec 1) (s : State) : Result :=
  slotDo g s fun s =>
    s.wp x (if inv = 1#1 then ~~~ laneRange lo.toNat hi.toNat else laneRange lo.toNat hi.toNat)

/-! ### No operation (spec/02 R45) -/

def execNopA (_g : BitVec 4) (s : State) : Result := .next s.retire
def execNopB (_g : BitVec 7) (s : State) : Result := .next s.retire
def execNopC (_g : BitVec 7) (s : State) : Result := .next s.retire
def execNopD (_g : BitVec 7) (s : State) : Result := .next s.retire

end Sys2Proof.Machine
end

