-- ==== Sys2Proof/Machine/Dispatch.lean ====
section
/-! DEFINITION. One arm for each instruction: a direct call of its meaning. -/

namespace Sys2Proof.Machine

def exec (i : Instr) (s : State) : Host.Outcome State Fault Refusal :=
  match i with
  | .groupCheck q => Sys2Proof.Machine.execGroupCheck q s
  | .bundleIssue q slot => Sys2Proof.Machine.execBundleIssue q slot s
  | .fmtSetEffect q => Sys2Proof.Machine.execFmtSetEffect q s
  | .divComplete q => Sys2Proof.Machine.execDivComplete q s
  | .loadDataReturn q k => Sys2Proof.Machine.execLoadDataReturn q k s
  | .storePerform q slot => Sys2Proof.Machine.execStorePerform q slot s
  | .pageWalkComplete die ctx va => Sys2Proof.Machine.execPageWalkComplete die ctx va s
  | .cacheFill kind inst ctx line => Sys2Proof.Machine.execCacheFill kind inst ctx line s
  | .streamFill q n => Sys2Proof.Machine.execStreamFill q n s
  | .streamDrain q n => Sys2Proof.Machine.execStreamDrain q n s
  | .matrixCompletion q => Sys2Proof.Machine.execMatrixCompletion q s
  | .shadowEntryApply q => Sys2Proof.Machine.execShadowEntryApply q s
  | .bufferStateChange q => Sys2Proof.Machine.execBufferStateChange q s
  | .bufferZeroingDone core d => Sys2Proof.Machine.execBufferZeroingDone core d s
  | .specRegionEnd q => Sys2Proof.Machine.execSpecRegionEnd q s
  | .fenceComplete q => Sys2Proof.Machine.execFenceComplete q s
  | .haltStop q => Sys2Proof.Machine.execHaltStop q s
  | .faultRecordRetry q => Sys2Proof.Machine.execFaultRecordRetry q s
  | .scopedAtomicExecute q => Sys2Proof.Machine.execScopedAtomicExecute q s
  | .scopedCopyWriteback cl line => Sys2Proof.Machine.execScopedCopyWriteback cl line s
  | .halyardAtomicExecute k => Sys2Proof.Machine.execHalyardAtomicExecute k s
  | .atomicResultReturn q k => Sys2Proof.Machine.execAtomicResultReturn q k s
  | .pennantAdd k => Sys2Proof.Machine.execPennantAdd k s
  | .waiterWake q => Sys2Proof.Machine.execWaiterWake q s
  | .waiterPoll q => Sys2Proof.Machine.execWaiterPoll q s
  | .mcasLockGrant q => Sys2Proof.Machine.execMcasLockGrant q s
  | .mcasWindowExpire q => Sys2Proof.Machine.execMcasWindowExpire q s
  | .mcasBackoffExpire q => Sys2Proof.Machine.execMcasBackoffExpire q s
  | .mcasResultReturn q => Sys2Proof.Machine.execMcasResultReturn q s
  | .patchEngineComplete q => Sys2Proof.Machine.execPatchEngineComplete q s
  | .copyStart q => Sys2Proof.Machine.execCopyStart q s
  | .copyChunk ch => Sys2Proof.Machine.execCopyChunk ch s
  | .copyComplete ch => Sys2Proof.Machine.execCopyComplete ch s
  | .remoteCopyPennantAdd h v ctx => Sys2Proof.Machine.execRemoteCopyPennantAdd h v ctx s
  | .queueTailWrite n tail => Sys2Proof.Machine.execQueueTailWrite n tail s
  | .launchDispatch n => Sys2Proof.Machine.execLaunchDispatch n s
  | .nodeFire l n => Sys2Proof.Machine.execNodeFire l n s
  | .launchEnd l => Sys2Proof.Machine.execLaunchEnd l s
  | .schedDecision gh => Sys2Proof.Machine.execSchedDecision gh s
  | .preemptRequest gh => Sys2Proof.Machine.execPreemptRequest gh s
  | .saveStart gh => Sys2Proof.Machine.execSaveStart gh s
  | .graceTimerExpire gh => Sys2Proof.Machine.execGraceTimerExpire gh s
  | .killTimerExpire gh => Sys2Proof.Machine.execKillTimerExpire gh s
  | .killComplete ctx => Sys2Proof.Machine.execKillComplete ctx s
  | .contextSaveComplete gh => Sys2Proof.Machine.execContextSaveComplete gh s
  | .contextLoadComplete gh => Sys2Proof.Machine.execContextLoadComplete gh s
  | .groupScrubComplete gh => Sys2Proof.Machine.execGroupScrubComplete gh s
  | .contextScrubComplete ctx => Sys2Proof.Machine.execContextScrubComplete ctx s
  | .homeRds line cl => Sys2Proof.Machine.execHomeRds line cl s
  | .homeRdx line cl => Sys2Proof.Machine.execHomeRdx line cl s
  | .homeHal line => Sys2Proof.Machine.execHomeHal line s
  | .homeWb line cl => Sys2Proof.Machine.execHomeWb line cl s
  | .engineHomeRead line => Sys2Proof.Machine.execEngineHomeRead line s
  | .engineHomeWrite line data mask => Sys2Proof.Machine.execEngineHomeWrite line data mask s
  | .snoopInvalidate cl line => Sys2Proof.Machine.execSnoopInvalidate cl line s
  | .movedResponse q => Sys2Proof.Machine.execMovedResponse q s
  | .pand g x y z inv => Sys2Proof.Machine.execPand g x y z inv s
  | .por g x y z inv => Sys2Proof.Machine.execPor g x y z inv s
  | .pxor g x y z inv => Sys2Proof.Machine.execPxor g x y z inv s
  | .pset g x lo hi inv => Sys2Proof.Machine.execPset g x lo hi inv s
  | .ldB g x base off acq => Sys2Proof.Machine.execLdB g x base off acq s
  | .ldH g x base off acq => Sys2Proof.Machine.execLdH g x base off acq s
  | .ldW g x base off acq => Sys2Proof.Machine.execLdW g x base off acq s
  | .ldD g x base off acq => Sys2Proof.Machine.execLdD g x base off acq s
  | .stB g x base off rel => Sys2Proof.Machine.execStB g x base off rel s
  | .stH g x base off rel => Sys2Proof.Machine.execStH g x base off rel s
  | .stW g x base off rel => Sys2Proof.Machine.execStW g x base off rel s
  | .stD g x base off rel => Sys2Proof.Machine.execStD g x base off rel s
  | .pf g lvl base off => Sys2Proof.Machine.execPf g lvl base off s
  | .lqPop g x => Sys2Proof.Machine.execLqPop g x s
  | .ldSp g x base off => Sys2Proof.Machine.execLdSp g x base off s
  | .stSp g x base off => Sys2Proof.Machine.execStSp g x base off s
  | .tsLd g x base off cut port => Sys2Proof.Machine.execTsLd g x base off cut port s
  | .tsSt g x base off port => Sys2Proof.Machine.execTsSt g x base off port s
  | .atR g x base scope op => Sys2Proof.Machine.execAtR g x base scope op s
  | .atCas g x base y scope => Sys2Proof.Machine.execAtCas g x base y scope s
  | .red g x base scope op => Sys2Proof.Machine.execRed g x base scope op s
  | .mcas g y z => Sys2Proof.Machine.execMcas g y z s
  | .fence g scope => Sys2Proof.Machine.execFence g scope s
  | .xfence g a b => Sys2Proof.Machine.execXfence g a b s
  | .bfDecl g x y z spec own => Sys2Proof.Machine.execBfDecl g x y z spec own s
  | .bfFill g x => Sys2Proof.Machine.execBfFill g x s
  | .bfDone g x => Sys2Proof.Machine.execBfDone g x s
  | .bfDrain g x => Sys2Proof.Machine.execBfDrain g x s
  | .bfFree g x => Sys2Proof.Machine.execBfFree g x s
  | .bfState g x y => Sys2Proof.Machine.execBfState g x y s
  | .pnAdd g clr rel y z => Sys2Proof.Machine.execPnAdd g clr rel y z s
  | .pnWait g acq y z n => Sys2Proof.Machine.execPnWait g acq y z n s
  | .pnTest g pair y z n => Sys2Proof.Machine.execPnTest g pair y z n s
  | .pnRead g x y st => Sys2Proof.Machine.execPnRead g x y st s
  | .rbAwait g x y z n => Sys2Proof.Machine.execRbAwait g x y z n s
  | .rbRelease g x y z => Sys2Proof.Machine.execRbRelease g x y z s
  | .nopC g => Sys2Proof.Machine.execNopC g s
  | .vld g v base c sw lp off => Sys2Proof.Machine.execVld g v base c sw lp off s
  | .vst g v base c sw lp off => Sys2Proof.Machine.execVst g v base c sw lp off s
  | .vaddC3 g ty vd va vb lp => Sys2Proof.Machine.execVaddC3 g ty vd va vb lp s
  | .vsubC3 g ty vd va vb lp => Sys2Proof.Machine.execVsubC3 g ty vd va vb lp s
  | .vmulC3 g ty vd va vb lp => Sys2Proof.Machine.execVmulC3 g ty vd va vb lp s
  | .vfmaC3 g ty vd va vb lp => Sys2Proof.Machine.execVfmaC3 g ty vd va vb lp s
  | .vminC3 g ty vd va vb lp => Sys2Proof.Machine.execVminC3 g ty vd va vb lp s
  | .vmaxC3 g ty vd va vb lp => Sys2Proof.Machine.execVmaxC3 g ty vd va vb lp s
  | .vand g vd va vb lp => Sys2Proof.Machine.execVand g vd va vb lp s
  | .vor g vd va vb lp => Sys2Proof.Machine.execVor g vd va vb lp s
  | .vxor g vd va vb lp => Sys2Proof.Machine.execVxor g vd va vb lp s
  | .vshlC3 g ty vd va vb lp => Sys2Proof.Machine.execVshlC3 g ty vd va vb lp s
  | .vshrC3 g ty vd va vb lp => Sys2Proof.Machine.execVshrC3 g ty vd va vb lp s
  | .vsel g vd va vb lp => Sys2Proof.Machine.execVsel g vd va vb lp s
  | .vcmp g pair va vb cond fp => Sys2Proof.Machine.execVcmp g pair va vb cond fp s
  | .vaddCs g ty vd va sx lp => Sys2Proof.Machine.execVaddCs g ty vd va sx lp s
  | .vsubCs g ty vd va sx lp => Sys2Proof.Machine.execVsubCs g ty vd va sx lp s
  | .vmulCs g ty vd va sx lp => Sys2Proof.Machine.execVmulCs g ty vd va sx lp s
  | .vfmaCs g ty vd va sx lp => Sys2Proof.Machine.execVfmaCs g ty vd va sx lp s
  | .vminCs g ty vd va sx lp => Sys2Proof.Machine.execVminCs g ty vd va sx lp s
  | .vmaxCs g ty vd va sx lp => Sys2Proof.Machine.execVmaxCs g ty vd va sx lp s
  | .vshlCs g ty vd va sx lp => Sys2Proof.Machine.execVshlCs g ty vd va sx lp s
  | .vshrCs g ty vd va sx lp => Sys2Proof.Machine.execVshrCs g ty vd va sx lp s
  | .vcvt g vd va src tgt rnd had => Sys2Proof.Machine.execVcvt g vd va src tgt rnd had s
  | .vhad g fp vd va h16 lp => Sys2Proof.Machine.execVhad g fp vd va h16 lp s
  | .vred g fp op vd va lp => Sys2Proof.Machine.execVred g fp op vd va lp s
  | .vperm g vd va vb lp => Sys2Proof.Machine.execVperm g vd va vb lp s
  | .vbcast g ty vd sx lp => Sys2Proof.Machine.execVbcast g ty vd sx lp s
  | .vrcp g vd va lp => Sys2Proof.Machine.execVrcp g vd va lp s
  | .vrsqrt g vd va lp => Sys2Proof.Machine.execVrsqrt g vd va lp s
  | .vexp2 g vd va lp => Sys2Proof.Machine.execVexp2 g vd va lp s
  | .vlog2 g vd va lp => Sys2Proof.Machine.execVlog2 g vd va lp s
  | .stb g n base c sw => Sys2Proof.Machine.execStb g n base c sw s
  | .stu g n => Sys2Proof.Machine.execStu g n s
  | .nopD g => Sys2Proof.Machine.execNopD g s
  | .mmLdw g x west k sw => Sys2Proof.Machine.execMmLdw g x west k sw s
  | .mm g tile x k sw z k16 => Sys2Proof.Machine.execMm g tile x k sw z k16 s
  | .mmChain g td ta k sw k16 => Sys2Proof.Machine.execMmChain g td ta k sw k16 s
  | .mmZero g tile v => Sys2Proof.Machine.execMmZero g tile v s
  | .mmWb g tile x k sw clr => Sys2Proof.Machine.execMmWb g tile x k sw clr s
  | .mmRd g tile x k sw => Sys2Proof.Machine.execMmRd g tile x k sw s
  | .mmRdSt g tile x clr => Sys2Proof.Machine.execMmRdSt g tile x clr s
  | .mmFuse g join => Sys2Proof.Machine.execMmFuse g join s
  | .paOpen g port y z kind => Sys2Proof.Machine.execPaOpen g port y z kind s
  | .paClose g port => Sys2Proof.Machine.execPaClose g port s
  | .paApply g y z => Sys2Proof.Machine.execPaApply g y z s
  | .paInv g y z => Sys2Proof.Machine.execPaInv g y z s
  | .paComm g y z => Sys2Proof.Machine.execPaComm g y z s
  | .paXplant g x y z => Sys2Proof.Machine.execPaXplant g x y z s
  | .paSquash g y z => Sys2Proof.Machine.execPaSquash g y z s
  | .paSnap g y clr => Sys2Proof.Machine.execPaSnap g y clr s
  | .paDropPort g port => Sys2Proof.Machine.execPaDropPort g port s
  | .paDropClosed g y z => Sys2Proof.Machine.execPaDropClosed g y z s
  | .paQuery g x y z => Sys2Proof.Machine.execPaQuery g x y z s
  | .paNorm g x y f => Sys2Proof.Machine.execPaNorm g x y f s
  | .grLaunch g scope y => Sys2Proof.Machine.execGrLaunch g scope y s
  | .grArrive g m => Sys2Proof.Machine.execGrArrive g m s
  | .grCond g y z => Sys2Proof.Machine.execGrCond g y z s
  | .grDone g => Sys2Proof.Machine.execGrDone g s
  | .segPromote g x y z => Sys2Proof.Machine.execSegPromote g x y z s
  | .segPin g x y z => Sys2Proof.Machine.execSegPin g x y z s
  | .segUnpin g x y z => Sys2Proof.Machine.execSegUnpin g x y z s
  | .segDemote g x y z => Sys2Proof.Machine.execSegDemote g x y z s
  | .segQuery g x y => Sys2Proof.Machine.execSegQuery g x y s
  | .bringupStage err => Sys2Proof.Machine.execBringupStage err s
  | .clockReplan mhz => Sys2Proof.Machine.execClockReplan mhz s
  | .registerWrite f off v => Sys2Proof.Machine.execRegisterWrite f off v s
  | .hostMemRd dec addr => Sys2Proof.Machine.execHostMemRd dec addr s
  | .hostMemWr dec addr data => Sys2Proof.Machine.execHostMemWr dec addr data s
  | .hostMemWrPtl dec addr data mask => Sys2Proof.Machine.execHostMemWrPtl dec addr data mask s
  | .hostBisnpinvResponse line => Sys2Proof.Machine.execHostBisnpinvResponse line s
  | .hostCacheSnoop addr => Sys2Proof.Machine.execHostCacheSnoop addr s
  | .tdispLockInterface vf => Sys2Proof.Machine.execTdispLockInterface vf s
  | .tdispStartInterface vf => Sys2Proof.Machine.execTdispStartInterface vf s
  | .tdispStopInterface vf => Sys2Proof.Machine.execTdispStopInterface vf s
  | .tdiLockedRegisterWrite vf reg v => Sys2Proof.Machine.execTdiLockedRegisterWrite vf reg v s
  | .portTrained port peer => Sys2Proof.Machine.execPortTrained port peer s
  | .portPeerSilent port => Sys2Proof.Machine.execPortPeerSilent port s
  | .flitCrcReplay port => Sys2Proof.Machine.execFlitCrcReplay port s
  | .deviceUnreachable dev => Sys2Proof.Machine.execDeviceUnreachable dev s
  | .swredContribution grp off data => Sys2Proof.Machine.execSwredContribution grp off data s
  | .warmReset => Sys2Proof.Machine.execWarmReset s
  | .coldReset => Sys2Proof.Machine.execColdReset s
  | .hostLinkTraining width rate => Sys2Proof.Machine.execHostLinkTraining width rate s
  | .spdmSessionMessage msg => Sys2Proof.Machine.execSpdmSessionMessage msg s
  | .ccreate f ctx owner fring flog notify grace kill ksl => Sys2Proof.Machine.execCcreate f ctx owner fring flog notify grace kill ksl s
  | .cset f ctx grace kill => Sys2Proof.Machine.execCset f ctx grace kill s
  | .carea f ctx gh addr => Sys2Proof.Machine.execCarea f ctx gh addr s
  | .cwin f ctx die base count => Sys2Proof.Machine.execCwin f ctx die base count s
  | .climit f ctx kind lines => Sys2Proof.Machine.execClimit f ctx kind lines s
  | .cpreempt f ctx gh grace => Sys2Proof.Machine.execCpreempt f ctx gh grace s
  | .cresume f ctx seq pc => Sys2Proof.Machine.execCresume f ctx seq pc s
  | .ckill f ctx => Sys2Proof.Machine.execCkill f ctx s
  | .ckey f slot keys => Sys2Proof.Machine.execCkey f slot keys s
  | .cdestroy f ctx list count => Sys2Proof.Machine.execCdestroy f ctx list count s
  | .cread f ctx => Sys2Proof.Machine.execCread f ctx s
  | .qcreate f n ctx prio ring lsize cpool => Sys2Proof.Machine.execQcreate f n ctx prio ring lsize cpool s
  | .qset f n prio => Sys2Proof.Machine.execQset f n prio s
  | .qpause f n => Sys2Proof.Machine.execQpause f n s
  | .qresume f n => Sys2Proof.Machine.execQresume f n s
  | .qreset f n => Sys2Proof.Machine.execQreset f n s
  | .qdestroy f n => Sys2Proof.Machine.execQdestroy f n s
  | .ownset f owner w => Sys2Proof.Machine.execOwnset f owner w s
  | .qread f n => Sys2Proof.Machine.execQread f n s
  | .gcreate f core mask owner => Sys2Proof.Machine.execGcreate f core mask owner s
  | .gdestroy f gh => Sys2Proof.Machine.execGdestroy f gh s
  | .gbind f gh ctx => Sys2Proof.Machine.execGbind f gh ctx s
  | .gunbind f gh ctx => Sys2Proof.Machine.execGunbind f gh ctx s
  | .lend f gh borrower => Sys2Proof.Machine.execLend f gh borrower s
  | .recallGroup f gh => Sys2Proof.Machine.execRecall f gh s
  | .gread f gh => Sys2Proof.Machine.execGread f gh s
  | .vmroot f ctx root1 root2 => Sys2Proof.Machine.execVmroot f ctx root1 root2 s
  | .s2map f ctx ipa pa size r w x nc ksl => Sys2Proof.Machine.execS2map f ctx ipa pa size r w x nc ksl s
  | .s2unmap f ctx ipa size => Sys2Proof.Machine.execS2unmap f ctx ipa size s
  | .s2clean f ctx ipa size => Sys2Proof.Machine.execS2clean f ctx ipa size s
  | .tlbinv f ctx stage base len => Sys2Proof.Machine.execTlbinv f ctx stage base len s
  | .frset f stack size => Sys2Proof.Machine.execFrset f stack size s
  | .segquota f ctx quota => Sys2Proof.Machine.execSegquota f ctx quota s
  | .mscset f die vd cls mask rp wp ap => Sys2Proof.Machine.execMscset f die vd cls mask rp wp ap s
  | .hmove f leaf pa => Sys2Proof.Machine.execHmove f leaf pa s
  | .hdmset f dec hbase size pa vd tdi => Sys2Proof.Machine.execHdmset f dec hbase size pa vd tdi s
  | .tdibind f vf ctx => Sys2Proof.Machine.execTdibind f vf ctx s
  | .lnkdom f dev table => Sys2Proof.Machine.execLnkdom f dev table s
  | .poolset f win kind target size vd => Sys2Proof.Machine.execPoolset f win kind target size vd s
  | .swred f switch grp n span dest handle => Sys2Proof.Machine.execSwred f switch grp n span dest handle s
  | .domfault f dev => Sys2Proof.Machine.execDomfault f dev s
  | .ownnew f owner vf => Sys2Proof.Machine.execOwnnew f owner vf s
  | .owndel f owner => Sys2Proof.Machine.execOwndel f owner s
  | .readback f cls inst off len buf => Sys2Proof.Machine.execReadback f cls inst off len buf s
  | .usage f owner nonce buf => Sys2Proof.Machine.execUsage f owner nonce buf s
  | .idget f buf len => Sys2Proof.Machine.execIdget f buf len s
  | .attest f nonce buf => Sys2Proof.Machine.execAttest f nonce buf s
  | .keyx f key buf => Sys2Proof.Machine.execKeyx f key buf s
  | .margin f buf => Sys2Proof.Machine.execMargin f buf s
  | .errlog f buf len clear => Sys2Proof.Machine.execErrlog f buf len clear s
  | .scrread f die => Sys2Proof.Machine.execScrread f die s
  | .fwinfo f => Sys2Proof.Machine.execFwinfo f s
  | .halovf f die pa count => Sys2Proof.Machine.execHalovf f die pa count s
  | .pennantValueReturn q => Sys2Proof.Machine.execPennantValueReturn q s
  | .segmentUnitsComplete q => Sys2Proof.Machine.execSegmentUnitsComplete q s
  | .conditionWordWrite k => Sys2Proof.Machine.execConditionWordWrite k s
  | .nopA g => Sys2Proof.Machine.execNopA g s
  | .br g off => Sys2Proof.Machine.execBr g off s
  | .jmp g d a => Sys2Proof.Machine.execJmp g d a s
  | .call g off => Sys2Proof.Machine.execCall g off s
  | .ret g a => Sys2Proof.Machine.execRet g a s
  | .trap g code => Sys2Proof.Machine.execTrap g code s
  | .halt g code => Sys2Proof.Machine.execHalt g code s
  | .lbrk g k off => Sys2Proof.Machine.execLbrk g k off s
  | .loop g a len => Sys2Proof.Machine.execLoop g a len s
  | .loopSp g a len aux => Sys2Proof.Machine.execLoopSp g a len aux s
  | .specBegin g => Sys2Proof.Machine.execSpecBegin g s
  | .specCommit g => Sys2Proof.Machine.execSpecCommit g s
  | .specAbort g => Sys2Proof.Machine.execSpecAbort g s
  | .fmtSet g hsz ofmt wfmt afmt => Sys2Proof.Machine.execFmtSet g hsz ofmt wfmt afmt s
  | .shf g code field a => Sys2Proof.Machine.execShf g code field a s
  | .addAr g d a b => Sys2Proof.Machine.execAddAr g d a b s
  | .pnot g x y => Sys2Proof.Machine.execPnot g x y s
  | .pmov g x y => Sys2Proof.Machine.execPmov g x y s
  | .subAr g d a b => Sys2Proof.Machine.execSubAr g d a b s
  | .mul g d a b => Sys2Proof.Machine.execMul g d a b s
  | .mulh g d a b => Sys2Proof.Machine.execMulh g d a b s
  | .mulhu g d a b => Sys2Proof.Machine.execMulhu g d a b s
  | .div g d a b => Sys2Proof.Machine.execDiv g d a b s
  | .divu g d a b => Sys2Proof.Machine.execDivu g d a b s
  | .clz g d a => Sys2Proof.Machine.execClz g d a s
  | .andAr g d a b => Sys2Proof.Machine.execAndAr g d a b s
  | .orAr g d a b => Sys2Proof.Machine.execOrAr g d a b s
  | .xorAr g d a b => Sys2Proof.Machine.execXorAr g d a b s
  | .shlAr g d a b => Sys2Proof.Machine.execShlAr g d a b s
  | .shrAr g d a b => Sys2Proof.Machine.execShrAr g d a b s
  | .sraAr g d a b => Sys2Proof.Machine.execSraAr g d a b s
  | .popc g d a => Sys2Proof.Machine.execPopc g d a s
  | .min g d a b => Sys2Proof.Machine.execMin g d a b s
  | .max g d a b => Sys2Proof.Machine.execMax g d a b s
  | .minu g d a b => Sys2Proof.Machine.execMinu g d a b s
  | .maxu g d a b => Sys2Proof.Machine.execMaxu g d a b s
  | .addAi g d a imm => Sys2Proof.Machine.execAddAi g d a imm s
  | .andAi g d a imm => Sys2Proof.Machine.execAndAi g d a imm s
  | .orAi g d a imm => Sys2Proof.Machine.execOrAi g d a imm s
  | .xorAi g d a imm => Sys2Proof.Machine.execXorAi g d a imm s
  | .shlAi g d a imm => Sys2Proof.Machine.execShlAi g d a imm s
  | .shrAi g d a imm => Sys2Proof.Machine.execShrAi g d a imm s
  | .sraAi g d a imm => Sys2Proof.Machine.execSraAi g d a imm s
  | .cmpEqAr g n a b => Sys2Proof.Machine.execCmpEqAr g n a b s
  | .cmpNeAr g n a b => Sys2Proof.Machine.execCmpNeAr g n a b s
  | .cmpLtAr g n a b => Sys2Proof.Machine.execCmpLtAr g n a b s
  | .cmpLeAr g n a b => Sys2Proof.Machine.execCmpLeAr g n a b s
  | .cmpLtuAr g n a b => Sys2Proof.Machine.execCmpLtuAr g n a b s
  | .cmpLeuAr g n a b => Sys2Proof.Machine.execCmpLeuAr g n a b s
  | .sysRd g d num => Sys2Proof.Machine.execSysRd g d num s
  | .sysWr g d num => Sys2Proof.Machine.execSysWr g d num s
  | .moviAw g d imm => Sys2Proof.Machine.execMoviAw g d imm s
  | .nopB g => Sys2Proof.Machine.execNopB g s
  | .addB3 g x y z => Sys2Proof.Machine.execAddB3 g x y z s
  | .subB3 g x y z => Sys2Proof.Machine.execSubB3 g x y z s
  | .andB3 g x y z => Sys2Proof.Machine.execAndB3 g x y z s
  | .orB3 g x y z => Sys2Proof.Machine.execOrB3 g x y z s
  | .xorB3 g x y z => Sys2Proof.Machine.execXorB3 g x y z s
  | .shlB3 g x y z => Sys2Proof.Machine.execShlB3 g x y z s
  | .shrB3 g x y z => Sys2Proof.Machine.execShrB3 g x y z s
  | .sraB3 g x y z => Sys2Proof.Machine.execSraB3 g x y z s
  | .lea g x y z sh => Sys2Proof.Machine.execLea g x y z sh s
  | .sel g x n y z => Sys2Proof.Machine.execSel g x n y z s
  | .extB g x y pos wm1 => Sys2Proof.Machine.execExtB g x y pos wm1 s
  | .insB g x y pos wm1 => Sys2Proof.Machine.execInsB g x y pos wm1 s
  | .addBi g x y imm => Sys2Proof.Machine.execAddBi g x y imm s
  | .moviBw g x imm => Sys2Proof.Machine.execMoviBw g x imm s
  | .movhi g x imm => Sys2Proof.Machine.execMovhi g x imm s
  | .cmpB3 g n y z cond => Sys2Proof.Machine.execCmpB3 g n y z cond s
  | .cmpBc g n y cond imm => Sys2Proof.Machine.execCmpBc g n y cond imm s
  | .fcmp g n y z cond => Sys2Proof.Machine.execFcmp g n y z cond s

end Sys2Proof.Machine
end

