-- ==== Sys2Proof/Machine/Together.lean ====
section
/-! DEFINITION. Bundles that issue in all four queues in one cycle: those with SYNC, and those with a fence, an xfence or an mcas
(spec/02 R31, spec/08 R199, spec/11 R265). -/

namespace Sys2Proof.Machine

/-- A slot of a bundle tries to issue. -/
def State.tryAt (s : State) (q : Nat) (e : Win) (n : Nat) : Result :=
  exec (e.instr n) (({ s with cur := { s.cur with skip := [] } } : State).aim q n e)

/-- The first slot of a bundle that stalls in this cycle, with what its stall asks for. -/
def State.firstStall (s : State) (q : Nat) (e : Win) : Option State :=
  [0, 1, 2, 3].findSome? fun n =>
    match s.tryAt q e n with
    | .next t => if t.cur.skip.contains n then some t else none
    | _ => none

/-- Whether a slot of a bundle is still to issue. -/
def Seq.due (x : Seq) (e : Win) (n : Nat) : Bool :=
  x.c.mode == .running && x.c.window.any fun w => w.bn == e.bn && w.addr == e.addr && !w.mask.getLsbD n

/-- All four slots of a bundle issue in one step, slot A first, or none does while one of them stalls. -/
def State.issueWhole (s : State) (q : Nat) (e : Win) : Result :=
  match s.firstStall q e with
  | some t => .next { t with cur := { t.cur with skip := [0, 1, 2, 3] } }
  | none =>
    [0, 1, 2, 3].foldl (fun r n =>
      match r with
      | .next t => if (t.seq q).due e n then t.tryAt q e n else .next t
      | r => r) (.next s)

end Sys2Proof.Machine
end

