-- ==== Sys2Proof/Machine/Step.lean ====
section
/-! DEFINITION. One step of the machine, and the placing of an instruction where the next step issues it. -/

namespace Sys2Proof.Machine

/-- The place where `withFetchWord` puts a bundle: a virtual and physical address of its own. -/
abbrev fetchPlace : Nat := 0x10000

/-- One step: the first event of the agenda, else the next action of the machine (DESIGN CHOICE, log 1). -/
def step (s : State) : Host.Outcome State Fault Refusal :=
  if 16384 ≤ s.cur.seq then .fault .noSuchSequencer
  else
    let s0 := s.elapse
    match s0.agenda with
    | e :: t => exec e { s0 with agenda := t }
    | [] =>
      match s0.nextAction with
      | .run s1 i => exec i s1
      | .whole s1 q e => s1.issueWhole q e
      | .mail s1 f => s1.serveMail f
      | .rest s1 => .next s1

/-- The queue whose slot a bundle is asked about. -/
def busySlot (b : BitVec 128) : Nat :=
  match firstBusy b with
  | some (sl, _) => sl.num
  | none => 0

/-- The state in which the next step issues the instruction of a table word: sequencer 0 runs context 1 on its core's group,
and its window holds the bundle, which memory and a translation of its page hold as well. It stands for the launch that
brings a program to a sequencer (DESIGN CHOICE, log 6). -/
def State.withFetchWord (s : State) (nbits w : Nat) : State :=
  match tableBundle nbits w with
  | none => s
  | some b =>
    let x := s.seq 0
    let leaf : Word := BitVec.ofNat 64 (fetchPlace + 0x1D)
    let tr : TlbEnt := { ctx := 1, va := fetchPlace, size := 65536, ipa := fetchPlace, pa := fetchPlace,
                         e1 := leaf, e2 := leaf, e2at := 0 }
    let s1 := s.setSeq 0
      { x with
        c := { x.c with
          mode := .running, pc := BitVec.ofNat 64 (fetchPlace + 16), bn := 1,
          window := [{ bn := 0, addr := BitVec.ofNat 64 fetchPlace, bits := b }], turn := some 0,
          redirect := none, pushed := false, late := [], replay := none, region := {}, fmt := {} }
        f := { x.f with outs := [], divu := none, storeB := [], storeC := [], asks := [], lq := [], holdB := none,
                        holdD := none } }
    let s2 := (s1.setCtx 1 { s1.ctx 1 with mode := .active }).setGroup 15
      { s1.group 15 with mode := .running, ctx := 1, bound := [1] }
    let s3 := s2.setDie 0 { s2.die 0 with tlb := tr :: (s2.die 0).tlb }
    let s4 := s3.setDram (Mem.write s3.mem.dram fetchPlace (leBytes b.toNat 16))
    { s4 with agenda := [], latch := some (0, busySlot b), cur := {} }

end Sys2Proof.Machine
end

