-- ==== Sys2Proof/Laws/PerInstr.lean ====
section
/-! SUPPORT. Decoding undoes encoding, instruction by instruction (spec/02 R18 to R21, R36 to R47; spec/22 R416, R419). -/

set_option linter.unusedSimpArgs false

namespace Sys2Proof

/-! ### Fields of a concatenation -/

theorem fld_hi {m n lo w : Nat} (a : BitVec m) (b : BitVec n) (h : n ≤ lo) : fld lo w (a ++ b) = fld (lo - n) w a := by
  apply BitVec.eq_of_getLsbD_eq
  intro i hi
  simp only [fld, BitVec.getLsbD_extractLsb', BitVec.getLsbD_append, hi, decide_true, Bool.true_and]
  rw [if_neg (by omega)]
  congr 1; omega

theorem fld_lo {m n lo w : Nat} (a : BitVec m) (b : BitVec n) (h : lo + w ≤ n) : fld lo w (a ++ b) = fld lo w b := by
  apply BitVec.eq_of_getLsbD_eq
  intro i hi
  simp only [fld, BitVec.getLsbD_extractLsb', BitVec.getLsbD_append, hi, decide_true, Bool.true_and]
  rw [if_pos (by omega)]

theorem fld_all {n lo : Nat} (x : BitVec n) (h : lo = 0) : fld lo n x = x := by
  subst h; unfold fld; simp

theorem fld_join {m k : Nat} (x : BitVec (m + k)) : fld k m x ++ fld 0 k x = x := by
  apply BitVec.eq_of_getLsbD_eq
  intro i hi
  simp only [fld, BitVec.getLsbD_extractLsb', BitVec.getLsbD_append]
  by_cases h : i < k
  · simp [h]
  · have h1 : i - k < m := by omega
    have h2 : k + (i - k) = i := by omega
    simp [h, h1, h2]

theorem fld_pad {m n k : Nat} (a : BitVec m) (b : BitVec n) : fld 0 (k + n) (a ++ b) = fld 0 k a ++ b := by
  apply BitVec.eq_of_getLsbD_eq
  intro i hi
  simp only [fld, BitVec.getLsbD_extractLsb', BitVec.getLsbD_append]
  by_cases h : i < n
  · simp [h]; omega
  · have h1 : i - n < k := by omega
    simp [h, h1, hi]

/-! ### The words of the encoder -/

theorem wordA_op (op : BitVec 6) (g : BitVec 4) (r : BitVec 19) : fld 23 6 (wordA op g r) = op := by
  simp (disch := decide) only [Nat.reduceSub, wordA, fld_hi, fld_lo, fld_all]
theorem wordA_g (op : BitVec 6) (g : BitVec 4) (r : BitVec 19) : fld 19 4 (wordA op g r) = g := by
  simp (disch := decide) only [Nat.reduceSub, wordA, fld_hi, fld_lo, fld_all]
theorem wordA_r (op : BitVec 6) (g : BitVec 4) (r : BitVec 19) {lo w : Nat} (h : lo + w ≤ 19) :
    fld lo w (wordA op g r) = fld lo w r := fld_lo _ _ h
theorem wordX_op (op : BitVec 6) (g : BitVec 7) (r : BitVec 22) : fld 26 6 (wordX op g r) = op := by
  simp (disch := decide) only [Nat.reduceSub, wordX, fld_hi, fld_all]
theorem wordX_g (op : BitVec 6) (g : BitVec 7) (r : BitVec 22) : fld 22 4 (wordX op g r) = fld 0 4 g := by
  simp (disch := decide) only [Nat.reduceSub, wordX, fld_hi, fld_lo, fld_all]
theorem wordX_r (op : BitVec 6) (g : BitVec 7) (r : BitVec 22) {lo w : Nat} (h : lo + w ≤ 22) :
    fld lo w (wordX op g r) = fld lo w r := fld_lo _ _ h
theorem extOf_g (g : BitVec 7) (e : BitVec 6) : fld 6 3 (extOf g e) = fld 4 3 g := by
  simp (disch := decide) only [Nat.reduceSub, extOf, fld_hi, fld_all]
theorem extOf_e (g : BitVec 7) (e : BitVec 6) {lo w : Nat} (h : lo + w ≤ 6) : fld lo w (extOf g e) = fld lo w e :=
  fld_lo _ _ h
theorem guard_join (g : BitVec 7) : fld 4 3 g ++ fld 0 4 g = g := fld_join (m := 3) (k := 4) g

/-! ### The bundle of an encoded instruction -/

theorem bundle_a (op : BitVec 6) (g : BitVec 4) (r : BitVec 19) (x : BitVec 9) :
    decodeSlot (Encoded.bundle (.a, wordA op g r, x)) .a = decodeA (wordA op g r) := by
  simp (disch := decide) only [decodeSlot, headerBit, slotWord, Encoded.bundle, wordA, fld_lo, fld_all, fld_hi,
    Nat.reduceSub]
  rfl

theorem bundle_b (w : BitVec 32) (x : BitVec 9) : decodeSlot (Encoded.bundle (.b, w, x)) .b = decodeB true w x := by
  simp (disch := decide) only [decodeSlot, headerBit, slotWord, extBits, Encoded.bundle, fld_lo, fld_all, fld_hi,
    Nat.reduceSub]
  rfl

theorem bundle_c (w : BitVec 32) (x : BitVec 9) : decodeSlot (Encoded.bundle (.c, w, x)) .c = decodeC true w x := by
  simp (disch := decide) only [decodeSlot, headerBit, slotWord, extBits, Encoded.bundle, fld_lo, fld_all, fld_hi,
    Nat.reduceSub]
  rfl

theorem bundle_d (w : BitVec 32) (x : BitVec 9) : decodeSlot (Encoded.bundle (.d, w, x)) .d = decodeD w x := by
  simp (disch := decide) only [decodeSlot, headerBit, slotWord, extBits, Encoded.bundle, fld_lo, fld_all, fld_hi,
    Nat.reduceSub]
  rfl

/-! ### Coded fields -/

@[simp] theorem bits_scope (s : Scope) : scopeOf (scopeBits s) = some s := by cases s <;> rfl
@[simp] theorem bits_cond (c : Cond) : condOf (condBits c) = some c := by cases c <;> rfl
@[simp] theorem bits_cond4 (c : Cond) : condOf4 (0#1 ++ condBits c) = some c := by cases c <;> rfl
@[simp] theorem bits_fcond (c : FCond) : fcondOf (fcondBits c) = some c := by cases c <;> rfl
@[simp] theorem bits_pclass (c : PClass) : pclassOf (pclassBits c) = some c := by cases c <;> rfl
@[simp] theorem bits_atOp (c : AtOp) : atOpOf (atOpBits c) = some c := by cases c <;> rfl
@[simp] theorem bits_vty (c : VTy) : vtyOf (vtyBits c) = some c := by cases c <;> rfl
@[simp] theorem bits_vty2 (c : VTy2) : vty2Of (vty2Bits c) = c := by cases c <;> rfl
@[simp] theorem bits_fmt (c : Fmt) : fmtOf (fmtBits c) = some c := by cases c <;> rfl
@[simp] theorem bits_rnd (c : Rnd) : rndOf (rndBits c) = c := by cases c <;> rfl
@[simp] theorem bits_had (c : Had) : hadOf (hadBits c) = some c := by cases c <;> rfl
@[simp] theorem bits_redOp (c : RedOp) : redOpOf (redOpBits c) = some c := by cases c <;> rfl
@[simp] theorem bits_paKind (c : PaKind) : paKindOf (paKindBits c) = c := by cases c <;> rfl
@[simp] theorem bits_pfLevel (c : CacheKind) : pfLevelOf (pfLevelBits c) = some c := by cases c <;> rfl
@[simp] theorem bits_fp (b : Bool) : fpOrInt (fpOrIntBits b) = some b := by cases b <;> rfl
@[simp] theorem bits_load (o : Option Scope) : loadOrder (if o.isSome then 1#2 else 0#2) (orderScopeBits o) = some o := by
  cases o with
  | none => rfl
  | some s => cases s <;> rfl
@[simp] theorem bits_store (o : Option Scope) : storeOrder (if o.isSome then 2#2 else 0#2) (orderScopeBits o) = some o := by
  cases o with
  | none => rfl
  | some s => cases s <;> rfl
@[simp] theorem bits_order (o : Option Scope) : orderOf (orderBit o == 1#1) (orderScopeBits o) = some o := by
  cases o with
  | none => rfl
  | some s => cases s <;> rfl
@[simp] theorem bits_vop (v : VOp) : VOp.of v.mark v.field = v := by
  cases v with
  | v n => rfl
  | q n => show VOp.q (fld 0 3 (0#2 ++ n)) = _; rw [fld_lo _ _ (by decide), fld_all _ rfl]
@[simp] theorem bits_vop_range (v : VOp) : vRangeBad v.mark v.field = false := by
  cases v with
  | v n => rfl
  | q n => show (true && fld 3 2 (0#2 ++ n) != 0#2) = false; rw [fld_hi _ _ (by decide), fld_all _ rfl]; rfl
@[simp] theorem bits_vop_zero (f : BitVec 5) : vRangeBad 0#1 f = false := rfl
@[simp] theorem bits_mop (v : MOp) : MOp.of v.mark v.field = v := by
  cases v with
  | s n => rfl
  | q n => show MOp.q (fld 0 3 (0#3 ++ n)) = _; rw [fld_lo _ _ (by decide), fld_all _ rfl]
@[simp] theorem bits_mop_range (v : MOp) : mRangeBad v.mark v.field = false := by
  cases v with
  | s n => rfl
  | q n => show (true && fld 3 3 (0#3 ++ n) != 0#3) = false; rw [fld_hi _ _ (by decide), fld_all _ rfl]; rfl
theorem wide_join {m k : Nat} (x : BitVec (m + k)) : wideImm true (fld k m x) (fld 0 k x) = x := fld_join x
@[simp] theorem join_24 (x : BitVec 6) : fld 4 2 x ++ fld 0 4 x = x := fld_join (m := 2) (k := 4) x
@[simp] theorem wide_34 (x : BitVec 7) : wideImm true (fld 4 3 x) (fld 0 4 x) = x := wide_join (m := 3) (k := 4) x
@[simp] theorem wide_65 (x : BitVec 11) : wideImm true (fld 5 6 x) (fld 0 5 x) = x := wide_join (m := 6) (k := 5) x
@[simp] theorem wide_67 (x : BitVec 13) : wideImm true (fld 7 6 x) (fld 0 7 x) = x := wide_join (m := 6) (k := 7) x
@[simp] theorem wide_610 (x : BitVec 16) : wideImm true (fld 10 6 x) (fld 0 10 x) = x := wide_join (m := 6) (k := 10) x
@[simp] theorem wide_616 (x : BitVec 22) : wideImm true (fld 16 6 x) (fld 0 16 x) = x := wide_join (m := 6) (k := 16) x
theorem zeros_16 (x : BitVec 6) : fld 0 16 (x ++ 0#6 ++ 0#6 ++ 0#4) = 0#16 := by
  refine (fld_pad (k := 12) (x ++ 0#6 ++ 0#6) 0#4).trans ?_
  rw [show fld 0 12 (x ++ 0#6 ++ 0#6) = fld 0 6 (x ++ 0#6) ++ 0#6 from fld_pad (k := 6) (x ++ 0#6) 0#6,
    fld_lo _ _ (by decide)]
  rfl
theorem zeros_10 (x : BitVec 12) : fld 0 10 (x ++ 0#6 ++ 0#4) = 0#10 := by
  refine (fld_pad (k := 6) (x ++ 0#6) 0#4).trans ?_
  rw [fld_lo _ _ (by decide)]
  rfl
theorem zeros_31 (t : BitVec 9) (i : BitVec 1) : fld 0 4 (t ++ 0#9 ++ 0#3 ++ i) = 0#3 ++ i := by
  refine (fld_pad (k := 3) (t ++ 0#9 ++ 0#3) i).trans ?_
  rw [fld_lo _ _ (by decide), fld_all _ rfl]
@[simp] theorem bits_west (w : Bool) : ((if w then 1#1 else 0#1) == 1#1) = w := by cases w <;> rfl
@[simp] theorem bits_h16 (h : Bool) : (fld 1 4 (if h then 1#5 else 0#5) == 0#4) = true := by cases h <;> rfl
@[simp] theorem bits_h16_value (h : Bool) : (fld 0 1 (if h then 1#5 else 0#5) == 1#1) = h := by cases h <;> rfl

/-- Lemmas of one name for each constructor: a well-formed slot instruction is decoded from its bundle, a command from its
descriptor. -/
def Laws.Codec.Statement (i : Instr) : Prop :=
  i.wf → (∀ sl b, encode i = some (sl, b) → decodeSlot b sl = .ok i) ∧
    ∀ f op ops, encodeCmd i = some (f, op, ops) → decodeCmd f op ops = some i ∧ cmdArity op = some ops.length

theorem Laws.Codec.groupCheck (q : Nat) :
    Laws.Codec.Statement (.groupCheck q) := by
  exact fun _ => ⟨fun _ _ h => (nomatch h), fun _ _ _ h => (nomatch h)⟩

theorem Laws.Codec.bundleIssue (q : Nat) (slot : Nat) :
    Laws.Codec.Statement (.bundleIssue q slot) := by
  exact fun _ => ⟨fun _ _ h => (nomatch h), fun _ _ _ h => (nomatch h)⟩

theorem Laws.Codec.fmtSetEffect (q : Nat) :
    Laws.Codec.Statement (.fmtSetEffect q) := by
  exact fun _ => ⟨fun _ _ h => (nomatch h), fun _ _ _ h => (nomatch h)⟩

theorem Laws.Codec.divComplete (q : Nat) :
    Laws.Codec.Statement (.divComplete q) := by
  exact fun _ => ⟨fun _ _ h => (nomatch h), fun _ _ _ h => (nomatch h)⟩

theorem Laws.Codec.loadDataReturn (q : Nat) (k : Nat) :
    Laws.Codec.Statement (.loadDataReturn q k) := by
  exact fun _ => ⟨fun _ _ h => (nomatch h), fun _ _ _ h => (nomatch h)⟩

theorem Laws.Codec.storePerform (q : Nat) (slot : Nat) :
    Laws.Codec.Statement (.storePerform q slot) := by
  exact fun _ => ⟨fun _ _ h => (nomatch h), fun _ _ _ h => (nomatch h)⟩

theorem Laws.Codec.pageWalkComplete (die : Nat) (ctx : Nat) (va : Word) :
    Laws.Codec.Statement (.pageWalkComplete die ctx va) := by
  exact fun _ => ⟨fun _ _ h => (nomatch h), fun _ _ _ h => (nomatch h)⟩

theorem Laws.Codec.cacheFill (kind : CacheKind) (inst : Nat) (ctx : Nat) (line : Nat) :
    Laws.Codec.Statement (.cacheFill kind inst ctx line) := by
  exact fun _ => ⟨fun _ _ h => (nomatch h), fun _ _ _ h => (nomatch h)⟩

theorem Laws.Codec.streamFill (q : Nat) (n : Nat) :
    Laws.Codec.Statement (.streamFill q n) := by
  exact fun _ => ⟨fun _ _ h => (nomatch h), fun _ _ _ h => (nomatch h)⟩

theorem Laws.Codec.streamDrain (q : Nat) (n : Nat) :
    Laws.Codec.Statement (.streamDrain q n) := by
  exact fun _ => ⟨fun _ _ h => (nomatch h), fun _ _ _ h => (nomatch h)⟩

theorem Laws.Codec.matrixCompletion (q : Nat) :
    Laws.Codec.Statement (.matrixCompletion q) := by
  exact fun _ => ⟨fun _ _ h => (nomatch h), fun _ _ _ h => (nomatch h)⟩

theorem Laws.Codec.shadowEntryApply (q : Nat) :
    Laws.Codec.Statement (.shadowEntryApply q) := by
  exact fun _ => ⟨fun _ _ h => (nomatch h), fun _ _ _ h => (nomatch h)⟩

theorem Laws.Codec.bufferStateChange (q : Nat) :
    Laws.Codec.Statement (.bufferStateChange q) := by
  exact fun _ => ⟨fun _ _ h => (nomatch h), fun _ _ _ h => (nomatch h)⟩

theorem Laws.Codec.bufferZeroingDone (core : Nat) (d : Nat) :
    Laws.Codec.Statement (.bufferZeroingDone core d) := by
  exact fun _ => ⟨fun _ _ h => (nomatch h), fun _ _ _ h => (nomatch h)⟩

theorem Laws.Codec.specRegionEnd (q : Nat) :
    Laws.Codec.Statement (.specRegionEnd q) := by
  exact fun _ => ⟨fun _ _ h => (nomatch h), fun _ _ _ h => (nomatch h)⟩

theorem Laws.Codec.fenceComplete (q : Nat) :
    Laws.Codec.Statement (.fenceComplete q) := by
  exact fun _ => ⟨fun _ _ h => (nomatch h), fun _ _ _ h => (nomatch h)⟩

theorem Laws.Codec.haltStop (q : Nat) :
    Laws.Codec.Statement (.haltStop q) := by
  exact fun _ => ⟨fun _ _ h => (nomatch h), fun _ _ _ h => (nomatch h)⟩

theorem Laws.Codec.faultRecordRetry (q : Nat) :
    Laws.Codec.Statement (.faultRecordRetry q) := by
  exact fun _ => ⟨fun _ _ h => (nomatch h), fun _ _ _ h => (nomatch h)⟩

theorem Laws.Codec.scopedAtomicExecute (q : Nat) :
    Laws.Codec.Statement (.scopedAtomicExecute q) := by
  exact fun _ => ⟨fun _ _ h => (nomatch h), fun _ _ _ h => (nomatch h)⟩

theorem Laws.Codec.scopedCopyWriteback (cl : Nat) (line : Nat) :
    Laws.Codec.Statement (.scopedCopyWriteback cl line) := by
  exact fun _ => ⟨fun _ _ h => (nomatch h), fun _ _ _ h => (nomatch h)⟩

theorem Laws.Codec.halyardAtomicExecute (k : Nat) :
    Laws.Codec.Statement (.halyardAtomicExecute k) := by
  exact fun _ => ⟨fun _ _ h => (nomatch h), fun _ _ _ h => (nomatch h)⟩

theorem Laws.Codec.atomicResultReturn (q : Nat) (k : Nat) :
    Laws.Codec.Statement (.atomicResultReturn q k) := by
  exact fun _ => ⟨fun _ _ h => (nomatch h), fun _ _ _ h => (nomatch h)⟩

theorem Laws.Codec.pennantAdd (k : Nat) :
    Laws.Codec.Statement (.pennantAdd k) := by
  exact fun _ => ⟨fun _ _ h => (nomatch h), fun _ _ _ h => (nomatch h)⟩

theorem Laws.Codec.waiterWake (q : Nat) :
    Laws.Codec.Statement (.waiterWake q) := by
  exact fun _ => ⟨fun _ _ h => (nomatch h), fun _ _ _ h => (nomatch h)⟩

theorem Laws.Codec.waiterPoll (q : Nat) :
    Laws.Codec.Statement (.waiterPoll q) := by
  exact fun _ => ⟨fun _ _ h => (nomatch h), fun _ _ _ h => (nomatch h)⟩

theorem Laws.Codec.mcasLockGrant (q : Nat) :
    Laws.Codec.Statement (.mcasLockGrant q) := by
  exact fun _ => ⟨fun _ _ h => (nomatch h), fun _ _ _ h => (nomatch h)⟩

theorem Laws.Codec.mcasWindowExpire (q : Nat) :
    Laws.Codec.Statement (.mcasWindowExpire q) := by
  exact fun _ => ⟨fun _ _ h => (nomatch h), fun _ _ _ h => (nomatch h)⟩

theorem Laws.Codec.mcasBackoffExpire (q : Nat) :
    Laws.Codec.Statement (.mcasBackoffExpire q) := by
  exact fun _ => ⟨fun _ _ h => (nomatch h), fun _ _ _ h => (nomatch h)⟩

theorem Laws.Codec.mcasResultReturn (q : Nat) :
    Laws.Codec.Statement (.mcasResultReturn q) := by
  exact fun _ => ⟨fun _ _ h => (nomatch h), fun _ _ _ h => (nomatch h)⟩

theorem Laws.Codec.patchEngineComplete (q : Nat) :
    Laws.Codec.Statement (.patchEngineComplete q) := by
  exact fun _ => ⟨fun _ _ h => (nomatch h), fun _ _ _ h => (nomatch h)⟩

theorem Laws.Codec.copyStart (q : Nat) :
    Laws.Codec.Statement (.copyStart q) := by
  exact fun _ => ⟨fun _ _ h => (nomatch h), fun _ _ _ h => (nomatch h)⟩

theorem Laws.Codec.copyChunk (ch : Nat) :
    Laws.Codec.Statement (.copyChunk ch) := by
  exact fun _ => ⟨fun _ _ h => (nomatch h), fun _ _ _ h => (nomatch h)⟩

theorem Laws.Codec.copyComplete (ch : Nat) :
    Laws.Codec.Statement (.copyComplete ch) := by
  exact fun _ => ⟨fun _ _ h => (nomatch h), fun _ _ _ h => (nomatch h)⟩

theorem Laws.Codec.remoteCopyPennantAdd (h : BitVec 32) (v : Word) (ctx : Nat) :
    Laws.Codec.Statement (.remoteCopyPennantAdd h v ctx) := by
  exact fun _ => ⟨fun _ _ h => (nomatch h), fun _ _ _ h => (nomatch h)⟩

theorem Laws.Codec.queueTailWrite (n : Nat) (tail : BitVec 32) :
    Laws.Codec.Statement (.queueTailWrite n tail) := by
  exact fun _ => ⟨fun _ _ h => (nomatch h), fun _ _ _ h => (nomatch h)⟩

theorem Laws.Codec.launchDispatch (n : Nat) :
    Laws.Codec.Statement (.launchDispatch n) := by
  exact fun _ => ⟨fun _ _ h => (nomatch h), fun _ _ _ h => (nomatch h)⟩

theorem Laws.Codec.nodeFire (l : Nat) (n : Nat) :
    Laws.Codec.Statement (.nodeFire l n) := by
  exact fun _ => ⟨fun _ _ h => (nomatch h), fun _ _ _ h => (nomatch h)⟩

theorem Laws.Codec.launchEnd (l : Nat) :
    Laws.Codec.Statement (.launchEnd l) := by
  exact fun _ => ⟨fun _ _ h => (nomatch h), fun _ _ _ h => (nomatch h)⟩

theorem Laws.Codec.schedDecision (gh : Nat) :
    Laws.Codec.Statement (.schedDecision gh) := by
  exact fun _ => ⟨fun _ _ h => (nomatch h), fun _ _ _ h => (nomatch h)⟩

theorem Laws.Codec.preemptRequest (gh : Nat) :
    Laws.Codec.Statement (.preemptRequest gh) := by
  exact fun _ => ⟨fun _ _ h => (nomatch h), fun _ _ _ h => (nomatch h)⟩

theorem Laws.Codec.saveStart (gh : Nat) :
    Laws.Codec.Statement (.saveStart gh) := by
  exact fun _ => ⟨fun _ _ h => (nomatch h), fun _ _ _ h => (nomatch h)⟩

theorem Laws.Codec.graceTimerExpire (gh : Nat) :
    Laws.Codec.Statement (.graceTimerExpire gh) := by
  exact fun _ => ⟨fun _ _ h => (nomatch h), fun _ _ _ h => (nomatch h)⟩

theorem Laws.Codec.killTimerExpire (gh : Nat) :
    Laws.Codec.Statement (.killTimerExpire gh) := by
  exact fun _ => ⟨fun _ _ h => (nomatch h), fun _ _ _ h => (nomatch h)⟩

theorem Laws.Codec.killComplete (ctx : Nat) :
    Laws.Codec.Statement (.killComplete ctx) := by
  exact fun _ => ⟨fun _ _ h => (nomatch h), fun _ _ _ h => (nomatch h)⟩

theorem Laws.Codec.contextSaveComplete (gh : Nat) :
    Laws.Codec.Statement (.contextSaveComplete gh) := by
  exact fun _ => ⟨fun _ _ h => (nomatch h), fun _ _ _ h => (nomatch h)⟩

theorem Laws.Codec.contextLoadComplete (gh : Nat) :
    Laws.Codec.Statement (.contextLoadComplete gh) := by
  exact fun _ => ⟨fun _ _ h => (nomatch h), fun _ _ _ h => (nomatch h)⟩

theorem Laws.Codec.groupScrubComplete (gh : Nat) :
    Laws.Codec.Statement (.groupScrubComplete gh) := by
  exact fun _ => ⟨fun _ _ h => (nomatch h), fun _ _ _ h => (nomatch h)⟩

theorem Laws.Codec.contextScrubComplete (ctx : Nat) :
    Laws.Codec.Statement (.contextScrubComplete ctx) := by
  exact fun _ => ⟨fun _ _ h => (nomatch h), fun _ _ _ h => (nomatch h)⟩

theorem Laws.Codec.homeRds (line : Nat) (cl : Nat) :
    Laws.Codec.Statement (.homeRds line cl) := by
  exact fun _ => ⟨fun _ _ h => (nomatch h), fun _ _ _ h => (nomatch h)⟩

theorem Laws.Codec.homeRdx (line : Nat) (cl : Nat) :
    Laws.Codec.Statement (.homeRdx line cl) := by
  exact fun _ => ⟨fun _ _ h => (nomatch h), fun _ _ _ h => (nomatch h)⟩

theorem Laws.Codec.homeHal (line : Nat) :
    Laws.Codec.Statement (.homeHal line) := by
  exact fun _ => ⟨fun _ _ h => (nomatch h), fun _ _ _ h => (nomatch h)⟩

theorem Laws.Codec.homeWb (line : Nat) (cl : Nat) :
    Laws.Codec.Statement (.homeWb line cl) := by
  exact fun _ => ⟨fun _ _ h => (nomatch h), fun _ _ _ h => (nomatch h)⟩

theorem Laws.Codec.engineHomeRead (line : Nat) :
    Laws.Codec.Statement (.engineHomeRead line) := by
  exact fun _ => ⟨fun _ _ h => (nomatch h), fun _ _ _ h => (nomatch h)⟩

theorem Laws.Codec.engineHomeWrite (line : Nat) (data : BitVec 512) (mask : BitVec 64) :
    Laws.Codec.Statement (.engineHomeWrite line data mask) := by
  exact fun _ => ⟨fun _ _ h => (nomatch h), fun _ _ _ h => (nomatch h)⟩

theorem Laws.Codec.snoopInvalidate (cl : Nat) (line : Nat) :
    Laws.Codec.Statement (.snoopInvalidate cl line) := by
  exact fun _ => ⟨fun _ _ h => (nomatch h), fun _ _ _ h => (nomatch h)⟩

theorem Laws.Codec.movedResponse (q : Nat) :
    Laws.Codec.Statement (.movedResponse q) := by
  exact fun _ => ⟨fun _ _ h => (nomatch h), fun _ _ _ h => (nomatch h)⟩

theorem Laws.Codec.pennantValueReturn (q : Nat) :
    Laws.Codec.Statement (.pennantValueReturn q) := by
  exact fun _ => ⟨fun _ _ h => (nomatch h), fun _ _ _ h => (nomatch h)⟩

theorem Laws.Codec.segmentUnitsComplete (q : Nat) :
    Laws.Codec.Statement (.segmentUnitsComplete q) := by
  exact fun _ => ⟨fun _ _ h => (nomatch h), fun _ _ _ h => (nomatch h)⟩

theorem Laws.Codec.conditionWordWrite (k : Nat) :
    Laws.Codec.Statement (.conditionWordWrite k) := by
  exact fun _ => ⟨fun _ _ h => (nomatch h), fun _ _ _ h => (nomatch h)⟩

theorem Laws.Codec.nopA (g : BitVec 4) :
    Laws.Codec.Statement (.nopA g) := by
  intro hw
  refine ⟨fun sl bb h => ?_, fun _ _ _ h => (nomatch h)⟩
  cases h
  refine (bundle_a _ _ _ _).trans ?_
  unfold decodeA
  rw [wordA_op]
  change finish _ _ _ = _
  simp (disch := decide) only [wordA_g, wordA_r, fld_hi, fld_lo, fld_all, Nat.reduceSub]
  simp [finish, need, hw]

theorem Laws.Codec.br (g : BitVec 4) (off : BitVec 19) :
    Laws.Codec.Statement (.br g off) := by
  intro hw
  refine ⟨fun sl bb h => ?_, fun _ _ _ h => (nomatch h)⟩
  cases h
  refine (bundle_a _ _ _ _).trans ?_
  unfold decodeA
  rw [wordA_op]
  change finish _ _ _ = _
  simp (disch := decide) only [wordA_g, wordA_r, fld_hi, fld_lo, fld_all, Nat.reduceSub]
  simp [finish, need, hw]

theorem Laws.Codec.jmp (g : BitVec 4) (d a : BitVec 6) :
    Laws.Codec.Statement (.jmp g d a) := by
  intro hw
  refine ⟨fun sl bb h => ?_, fun _ _ _ h => (nomatch h)⟩
  cases h
  refine (bundle_a _ _ _ _).trans ?_
  unfold decodeA
  rw [wordA_op]
  change finish _ _ _ = _
  simp (disch := decide) only [wordA_g, wordA_r, fld_hi, fld_lo, fld_all, Nat.reduceSub]
  simp [finish, need, hw]

theorem Laws.Codec.call (g : BitVec 4) (off : BitVec 19) :
    Laws.Codec.Statement (.call g off) := by
  intro hw
  refine ⟨fun sl bb h => ?_, fun _ _ _ h => (nomatch h)⟩
  cases h
  refine (bundle_a _ _ _ _).trans ?_
  unfold decodeA
  rw [wordA_op]
  change finish _ _ _ = _
  simp (disch := decide) only [wordA_g, wordA_r, fld_hi, fld_lo, fld_all, Nat.reduceSub]
  simp [finish, need, hw]

theorem Laws.Codec.ret (g : BitVec 4) (a : BitVec 6) :
    Laws.Codec.Statement (.ret g a) := by
  intro hw
  refine ⟨fun sl bb h => ?_, fun _ _ _ h => (nomatch h)⟩
  cases h
  refine (bundle_a _ _ _ _).trans ?_
  unfold decodeA
  rw [wordA_op]
  change finish _ _ _ = _
  simp (disch := decide) only [wordA_g, wordA_r, fld_hi, fld_lo, fld_all, Nat.reduceSub]
  simp [finish, need, hw]

theorem Laws.Codec.trap (g : BitVec 4) (code : BitVec 19) :
    Laws.Codec.Statement (.trap g code) := by
  intro hw
  refine ⟨fun sl bb h => ?_, fun _ _ _ h => (nomatch h)⟩
  cases h
  refine (bundle_a _ _ _ _).trans ?_
  unfold decodeA
  rw [wordA_op]
  change finish _ _ _ = _
  simp (disch := decide) only [wordA_g, wordA_r, fld_hi, fld_lo, fld_all, Nat.reduceSub]
  simp [finish, need, hw]

theorem Laws.Codec.halt (g : BitVec 4) (code : BitVec 19) :
    Laws.Codec.Statement (.halt g code) := by
  intro hw
  refine ⟨fun sl bb h => ?_, fun _ _ _ h => (nomatch h)⟩
  cases h
  refine (bundle_a _ _ _ _).trans ?_
  unfold decodeA
  rw [wordA_op]
  change finish _ _ _ = _
  simp (disch := decide) only [wordA_g, wordA_r, fld_hi, fld_lo, fld_all, Nat.reduceSub]
  simp [finish, need, hw]

theorem Laws.Codec.lbrk (g : BitVec 4) (k : BitVec 3) (off : BitVec 16) :
    Laws.Codec.Statement (.lbrk g k off) := by
  intro hw
  refine ⟨fun sl bb h => ?_, fun _ _ _ h => (nomatch h)⟩
  cases h
  refine (bundle_a _ _ _ _).trans ?_
  unfold decodeA
  rw [wordA_op]
  change finish _ _ _ = _
  simp (disch := decide) only [wordA_g, wordA_r, fld_hi, fld_lo, fld_all, Nat.reduceSub]
  simp [finish, need, hw]

theorem Laws.Codec.loop (g : BitVec 4) (a : BitVec 6) (len : BitVec 9) :
    Laws.Codec.Statement (.loop g a len) := by
  intro hw
  refine ⟨fun sl bb h => ?_, fun _ _ _ h => (nomatch h)⟩
  cases h
  refine (bundle_a _ _ _ _).trans ?_
  unfold decodeA
  rw [wordA_op]
  change finish _ _ _ = _
  simp (disch := decide) only [wordA_g, wordA_r, fld_hi, fld_lo, fld_all, Nat.reduceSub]
  simp [finish, need, hw]

theorem Laws.Codec.loopSp (g : BitVec 4) (a : BitVec 6) (len : BitVec 9) (aux : BitVec 4) :
    Laws.Codec.Statement (.loopSp g a len aux) := by
  intro hw
  refine ⟨fun sl bb h => ?_, fun _ _ _ h => (nomatch h)⟩
  cases h
  refine (bundle_a _ _ _ _).trans ?_
  unfold decodeA
  rw [wordA_op]
  change finish _ _ _ = _
  simp (disch := decide) only [wordA_g, wordA_r, fld_hi, fld_lo, fld_all, Nat.reduceSub]
  simp [finish, need, hw]

theorem Laws.Codec.specBegin (g : BitVec 4) :
    Laws.Codec.Statement (.specBegin g) := by
  intro hw
  refine ⟨fun sl bb h => ?_, fun _ _ _ h => (nomatch h)⟩
  cases h
  refine (bundle_a _ _ _ _).trans ?_
  unfold decodeA
  rw [wordA_op]
  change finish _ _ _ = _
  simp (disch := decide) only [wordA_g, wordA_r, fld_hi, fld_lo, fld_all, Nat.reduceSub]
  simp [finish, need, hw]

theorem Laws.Codec.specCommit (g : BitVec 4) :
    Laws.Codec.Statement (.specCommit g) := by
  intro hw
  refine ⟨fun sl bb h => ?_, fun _ _ _ h => (nomatch h)⟩
  cases h
  refine (bundle_a _ _ _ _).trans ?_
  unfold decodeA
  rw [wordA_op]
  change finish _ _ _ = _
  simp (disch := decide) only [wordA_g, wordA_r, fld_hi, fld_lo, fld_all, Nat.reduceSub]
  simp [finish, need, hw]

theorem Laws.Codec.specAbort (g : BitVec 4) :
    Laws.Codec.Statement (.specAbort g) := by
  intro hw
  refine ⟨fun sl bb h => ?_, fun _ _ _ h => (nomatch h)⟩
  cases h
  refine (bundle_a _ _ _ _).trans ?_
  unfold decodeA
  rw [wordA_op]
  change finish _ _ _ = _
  simp (disch := decide) only [wordA_g, wordA_r, fld_hi, fld_lo, fld_all, Nat.reduceSub]
  simp [finish, need, hw]

theorem Laws.Codec.fmtSet (g : BitVec 4) (hsz : BitVec 2) (ofmt wfmt afmt : BitVec 4) :
    Laws.Codec.Statement (.fmtSet g hsz ofmt wfmt afmt) := by
  intro hw
  refine ⟨fun sl bb h => ?_, fun _ _ _ h => (nomatch h)⟩
  cases h
  refine (bundle_a _ _ _ _).trans ?_
  unfold decodeA
  rw [wordA_op]
  change finish _ _ _ = _
  simp (disch := decide) only [wordA_g, wordA_r, fld_hi, fld_lo, fld_all, Nat.reduceSub]
  simp [finish, need, hw]

theorem Laws.Codec.shf (g : BitVec 4) (code : BitVec 3) (field : BitVec 4) (a : BitVec 6) :
    Laws.Codec.Statement (.shf g code field a) := by
  intro hw
  refine ⟨fun sl bb h => ?_, fun _ _ _ h => (nomatch h)⟩
  cases h
  refine (bundle_a _ _ _ _).trans ?_
  unfold decodeA
  rw [wordA_op]
  change finish _ _ _ = _
  simp (disch := decide) only [wordA_g, wordA_r, fld_hi, fld_lo, fld_all, Nat.reduceSub]
  simp [finish, need, hw]

theorem Laws.Codec.addAr (g : BitVec 4) (d a b : BitVec 6) :
    Laws.Codec.Statement (.addAr g d a b) := by
  intro hw
  refine ⟨fun sl bb h => ?_, fun _ _ _ h => (nomatch h)⟩
  cases h
  refine (bundle_a _ _ _ _).trans ?_
  unfold decodeA
  rw [wordA_op]
  change finish _ _ _ = _
  simp (disch := decide) only [wordA_g, wordA_r, fld_hi, fld_lo, fld_all, Nat.reduceSub]
  simp [finish, need, hw]

theorem Laws.Codec.subAr (g : BitVec 4) (d a b : BitVec 6) :
    Laws.Codec.Statement (.subAr g d a b) := by
  intro hw
  refine ⟨fun sl bb h => ?_, fun _ _ _ h => (nomatch h)⟩
  cases h
  refine (bundle_a _ _ _ _).trans ?_
  unfold decodeA
  rw [wordA_op]
  change finish _ _ _ = _
  simp (disch := decide) only [wordA_g, wordA_r, fld_hi, fld_lo, fld_all, Nat.reduceSub]
  simp [finish, need, hw]

theorem Laws.Codec.mul (g : BitVec 4) (d a b : BitVec 6) :
    Laws.Codec.Statement (.mul g d a b) := by
  intro hw
  refine ⟨fun sl bb h => ?_, fun _ _ _ h => (nomatch h)⟩
  cases h
  refine (bundle_a _ _ _ _).trans ?_
  unfold decodeA
  rw [wordA_op]
  change finish _ _ _ = _
  simp (disch := decide) only [wordA_g, wordA_r, fld_hi, fld_lo, fld_all, Nat.reduceSub]
  simp [finish, need, hw]

theorem Laws.Codec.mulh (g : BitVec 4) (d a b : BitVec 6) :
    Laws.Codec.Statement (.mulh g d a b) := by
  intro hw
  refine ⟨fun sl bb h => ?_, fun _ _ _ h => (nomatch h)⟩
  cases h
  refine (bundle_a _ _ _ _).trans ?_
  unfold decodeA
  rw [wordA_op]
  change finish _ _ _ = _
  simp (disch := decide) only [wordA_g, wordA_r, fld_hi, fld_lo, fld_all, Nat.reduceSub]
  simp [finish, need, hw]

theorem Laws.Codec.mulhu (g : BitVec 4) (d a b : BitVec 6) :
    Laws.Codec.Statement (.mulhu g d a b) := by
  intro hw
  refine ⟨fun sl bb h => ?_, fun _ _ _ h => (nomatch h)⟩
  cases h
  refine (bundle_a _ _ _ _).trans ?_
  unfold decodeA
  rw [wordA_op]
  change finish _ _ _ = _
  simp (disch := decide) only [wordA_g, wordA_r, fld_hi, fld_lo, fld_all, Nat.reduceSub]
  simp [finish, need, hw]

theorem Laws.Codec.div (g : BitVec 4) (d a b : BitVec 6) :
    Laws.Codec.Statement (.div g d a b) := by
  intro hw
  refine ⟨fun sl bb h => ?_, fun _ _ _ h => (nomatch h)⟩
  cases h
  refine (bundle_a _ _ _ _).trans ?_
  unfold decodeA
  rw [wordA_op]
  change finish _ _ _ = _
  simp (disch := decide) only [wordA_g, wordA_r, fld_hi, fld_lo, fld_all, Nat.reduceSub]
  simp [finish, need, hw]

theorem Laws.Codec.divu (g : BitVec 4) (d a b : BitVec 6) :
    Laws.Codec.Statement (.divu g d a b) := by
  intro hw
  refine ⟨fun sl bb h => ?_, fun _ _ _ h => (nomatch h)⟩
  cases h
  refine (bundle_a _ _ _ _).trans ?_
  unfold decodeA
  rw [wordA_op]
  change finish _ _ _ = _
  simp (disch := decide) only [wordA_g, wordA_r, fld_hi, fld_lo, fld_all, Nat.reduceSub]
  simp [finish, need, hw]

theorem Laws.Codec.clz (g : BitVec 4) (d a : BitVec 6) :
    Laws.Codec.Statement (.clz g d a) := by
  intro hw
  refine ⟨fun sl bb h => ?_, fun _ _ _ h => (nomatch h)⟩
  cases h
  refine (bundle_a _ _ _ _).trans ?_
  unfold decodeA
  rw [wordA_op]
  change finish _ _ _ = _
  simp (disch := decide) only [wordA_g, wordA_r, fld_hi, fld_lo, fld_all, Nat.reduceSub]
  simp [finish, need, hw]

theorem Laws.Codec.andAr (g : BitVec 4) (d a b : BitVec 6) :
    Laws.Codec.Statement (.andAr g d a b) := by
  intro hw
  refine ⟨fun sl bb h => ?_, fun _ _ _ h => (nomatch h)⟩
  cases h
  refine (bundle_a _ _ _ _).trans ?_
  unfold decodeA
  rw [wordA_op]
  change finish _ _ _ = _
  simp (disch := decide) only [wordA_g, wordA_r, fld_hi, fld_lo, fld_all, Nat.reduceSub]
  simp [finish, need, hw]

theorem Laws.Codec.orAr (g : BitVec 4) (d a b : BitVec 6) :
    Laws.Codec.Statement (.orAr g d a b) := by
  intro hw
  refine ⟨fun sl bb h => ?_, fun _ _ _ h => (nomatch h)⟩
  cases h
  refine (bundle_a _ _ _ _).trans ?_
  unfold decodeA
  rw [wordA_op]
  change finish _ _ _ = _
  simp (disch := decide) only [wordA_g, wordA_r, fld_hi, fld_lo, fld_all, Nat.reduceSub]
  simp [finish, need, hw]

theorem Laws.Codec.xorAr (g : BitVec 4) (d a b : BitVec 6) :
    Laws.Codec.Statement (.xorAr g d a b) := by
  intro hw
  refine ⟨fun sl bb h => ?_, fun _ _ _ h => (nomatch h)⟩
  cases h
  refine (bundle_a _ _ _ _).trans ?_
  unfold decodeA
  rw [wordA_op]
  change finish _ _ _ = _
  simp (disch := decide) only [wordA_g, wordA_r, fld_hi, fld_lo, fld_all, Nat.reduceSub]
  simp [finish, need, hw]

theorem Laws.Codec.shlAr (g : BitVec 4) (d a b : BitVec 6) :
    Laws.Codec.Statement (.shlAr g d a b) := by
  intro hw
  refine ⟨fun sl bb h => ?_, fun _ _ _ h => (nomatch h)⟩
  cases h
  refine (bundle_a _ _ _ _).trans ?_
  unfold decodeA
  rw [wordA_op]
  change finish _ _ _ = _
  simp (disch := decide) only [wordA_g, wordA_r, fld_hi, fld_lo, fld_all, Nat.reduceSub]
  simp [finish, need, hw]

theorem Laws.Codec.shrAr (g : BitVec 4) (d a b : BitVec 6) :
    Laws.Codec.Statement (.shrAr g d a b) := by
  intro hw
  refine ⟨fun sl bb h => ?_, fun _ _ _ h => (nomatch h)⟩
  cases h
  refine (bundle_a _ _ _ _).trans ?_
  unfold decodeA
  rw [wordA_op]
  change finish _ _ _ = _
  simp (disch := decide) only [wordA_g, wordA_r, fld_hi, fld_lo, fld_all, Nat.reduceSub]
  simp [finish, need, hw]

theorem Laws.Codec.sraAr (g : BitVec 4) (d a b : BitVec 6) :
    Laws.Codec.Statement (.sraAr g d a b) := by
  intro hw
  refine ⟨fun sl bb h => ?_, fun _ _ _ h => (nomatch h)⟩
  cases h
  refine (bundle_a _ _ _ _).trans ?_
  unfold decodeA
  rw [wordA_op]
  change finish _ _ _ = _
  simp (disch := decide) only [wordA_g, wordA_r, fld_hi, fld_lo, fld_all, Nat.reduceSub]
  simp [finish, need, hw]

theorem Laws.Codec.popc (g : BitVec 4) (d a : BitVec 6) :
    Laws.Codec.Statement (.popc g d a) := by
  intro hw
  refine ⟨fun sl bb h => ?_, fun _ _ _ h => (nomatch h)⟩
  cases h
  refine (bundle_a _ _ _ _).trans ?_
  unfold decodeA
  rw [wordA_op]
  change finish _ _ _ = _
  simp (disch := decide) only [wordA_g, wordA_r, fld_hi, fld_lo, fld_all, Nat.reduceSub]
  simp [finish, need, hw]

theorem Laws.Codec.min (g : BitVec 4) (d a b : BitVec 6) :
    Laws.Codec.Statement (.min g d a b) := by
  intro hw
  refine ⟨fun sl bb h => ?_, fun _ _ _ h => (nomatch h)⟩
  cases h
  refine (bundle_a _ _ _ _).trans ?_
  unfold decodeA
  rw [wordA_op]
  change finish _ _ _ = _
  simp (disch := decide) only [wordA_g, wordA_r, fld_hi, fld_lo, fld_all, Nat.reduceSub]
  simp [finish, need, hw]

theorem Laws.Codec.max (g : BitVec 4) (d a b : BitVec 6) :
    Laws.Codec.Statement (.max g d a b) := by
  intro hw
  refine ⟨fun sl bb h => ?_, fun _ _ _ h => (nomatch h)⟩
  cases h
  refine (bundle_a _ _ _ _).trans ?_
  unfold decodeA
  rw [wordA_op]
  change finish _ _ _ = _
  simp (disch := decide) only [wordA_g, wordA_r, fld_hi, fld_lo, fld_all, Nat.reduceSub]
  simp [finish, need, hw]

theorem Laws.Codec.minu (g : BitVec 4) (d a b : BitVec 6) :
    Laws.Codec.Statement (.minu g d a b) := by
  intro hw
  refine ⟨fun sl bb h => ?_, fun _ _ _ h => (nomatch h)⟩
  cases h
  refine (bundle_a _ _ _ _).trans ?_
  unfold decodeA
  rw [wordA_op]
  change finish _ _ _ = _
  simp (disch := decide) only [wordA_g, wordA_r, fld_hi, fld_lo, fld_all, Nat.reduceSub]
  simp [finish, need, hw]

theorem Laws.Codec.maxu (g : BitVec 4) (d a b : BitVec 6) :
    Laws.Codec.Statement (.maxu g d a b) := by
  intro hw
  refine ⟨fun sl bb h => ?_, fun _ _ _ h => (nomatch h)⟩
  cases h
  refine (bundle_a _ _ _ _).trans ?_
  unfold decodeA
  rw [wordA_op]
  change finish _ _ _ = _
  simp (disch := decide) only [wordA_g, wordA_r, fld_hi, fld_lo, fld_all, Nat.reduceSub]
  simp [finish, need, hw]

theorem Laws.Codec.addAi (g : BitVec 4) (d a : BitVec 6) (imm : BitVec 7) :
    Laws.Codec.Statement (.addAi g d a imm) := by
  intro hw
  refine ⟨fun sl bb h => ?_, fun _ _ _ h => (nomatch h)⟩
  cases h
  refine (bundle_a _ _ _ _).trans ?_
  unfold decodeA
  rw [wordA_op]
  change finish _ _ _ = _
  simp (disch := decide) only [wordA_g, wordA_r, fld_hi, fld_lo, fld_all, Nat.reduceSub]
  simp [finish, need, hw]

theorem Laws.Codec.andAi (g : BitVec 4) (d a : BitVec 6) (imm : BitVec 7) :
    Laws.Codec.Statement (.andAi g d a imm) := by
  intro hw
  refine ⟨fun sl bb h => ?_, fun _ _ _ h => (nomatch h)⟩
  cases h
  refine (bundle_a _ _ _ _).trans ?_
  unfold decodeA
  rw [wordA_op]
  change finish _ _ _ = _
  simp (disch := decide) only [wordA_g, wordA_r, fld_hi, fld_lo, fld_all, Nat.reduceSub]
  simp [finish, need, hw]

theorem Laws.Codec.orAi (g : BitVec 4) (d a : BitVec 6) (imm : BitVec 7) :
    Laws.Codec.Statement (.orAi g d a imm) := by
  intro hw
  refine ⟨fun sl bb h => ?_, fun _ _ _ h => (nomatch h)⟩
  cases h
  refine (bundle_a _ _ _ _).trans ?_
  unfold decodeA
  rw [wordA_op]
  change finish _ _ _ = _
  simp (disch := decide) only [wordA_g, wordA_r, fld_hi, fld_lo, fld_all, Nat.reduceSub]
  simp [finish, need, hw]

theorem Laws.Codec.xorAi (g : BitVec 4) (d a : BitVec 6) (imm : BitVec 7) :
    Laws.Codec.Statement (.xorAi g d a imm) := by
  intro hw
  refine ⟨fun sl bb h => ?_, fun _ _ _ h => (nomatch h)⟩
  cases h
  refine (bundle_a _ _ _ _).trans ?_
  unfold decodeA
  rw [wordA_op]
  change finish _ _ _ = _
  simp (disch := decide) only [wordA_g, wordA_r, fld_hi, fld_lo, fld_all, Nat.reduceSub]
  simp [finish, need, hw]

theorem Laws.Codec.shlAi (g : BitVec 4) (d a : BitVec 6) (imm : BitVec 7) :
    Laws.Codec.Statement (.shlAi g d a imm) := by
  intro hw
  refine ⟨fun sl bb h => ?_, fun _ _ _ h => (nomatch h)⟩
  cases h
  refine (bundle_a _ _ _ _).trans ?_
  unfold decodeA
  rw [wordA_op]
  change finish _ _ _ = _
  simp (disch := decide) only [wordA_g, wordA_r, fld_hi, fld_lo, fld_all, Nat.reduceSub]
  simp [finish, need, hw]

theorem Laws.Codec.shrAi (g : BitVec 4) (d a : BitVec 6) (imm : BitVec 7) :
    Laws.Codec.Statement (.shrAi g d a imm) := by
  intro hw
  refine ⟨fun sl bb h => ?_, fun _ _ _ h => (nomatch h)⟩
  cases h
  refine (bundle_a _ _ _ _).trans ?_
  unfold decodeA
  rw [wordA_op]
  change finish _ _ _ = _
  simp (disch := decide) only [wordA_g, wordA_r, fld_hi, fld_lo, fld_all, Nat.reduceSub]
  simp [finish, need, hw]

theorem Laws.Codec.sraAi (g : BitVec 4) (d a : BitVec 6) (imm : BitVec 7) :
    Laws.Codec.Statement (.sraAi g d a imm) := by
  intro hw
  refine ⟨fun sl bb h => ?_, fun _ _ _ h => (nomatch h)⟩
  cases h
  refine (bundle_a _ _ _ _).trans ?_
  unfold decodeA
  rw [wordA_op]
  change finish _ _ _ = _
  simp (disch := decide) only [wordA_g, wordA_r, fld_hi, fld_lo, fld_all, Nat.reduceSub]
  simp [finish, need, hw]

theorem Laws.Codec.cmpEqAr (g : BitVec 4) (n a b : BitVec 6) :
    Laws.Codec.Statement (.cmpEqAr g n a b) := by
  intro hw
  refine ⟨fun sl bb h => ?_, fun _ _ _ h => (nomatch h)⟩
  cases h
  refine (bundle_a _ _ _ _).trans ?_
  unfold decodeA
  rw [wordA_op]
  change finish _ _ _ = _
  simp (disch := decide) only [wordA_g, wordA_r, fld_hi, fld_lo, fld_all, Nat.reduceSub]
  simp [finish, need, hw]

theorem Laws.Codec.cmpNeAr (g : BitVec 4) (n a b : BitVec 6) :
    Laws.Codec.Statement (.cmpNeAr g n a b) := by
  intro hw
  refine ⟨fun sl bb h => ?_, fun _ _ _ h => (nomatch h)⟩
  cases h
  refine (bundle_a _ _ _ _).trans ?_
  unfold decodeA
  rw [wordA_op]
  change finish _ _ _ = _
  simp (disch := decide) only [wordA_g, wordA_r, fld_hi, fld_lo, fld_all, Nat.reduceSub]
  simp [finish, need, hw]

theorem Laws.Codec.cmpLtAr (g : BitVec 4) (n a b : BitVec 6) :
    Laws.Codec.Statement (.cmpLtAr g n a b) := by
  intro hw
  refine ⟨fun sl bb h => ?_, fun _ _ _ h => (nomatch h)⟩
  cases h
  refine (bundle_a _ _ _ _).trans ?_
  unfold decodeA
  rw [wordA_op]
  change finish _ _ _ = _
  simp (disch := decide) only [wordA_g, wordA_r, fld_hi, fld_lo, fld_all, Nat.reduceSub]
  simp [finish, need, hw]

theorem Laws.Codec.cmpLeAr (g : BitVec 4) (n a b : BitVec 6) :
    Laws.Codec.Statement (.cmpLeAr g n a b) := by
  intro hw
  refine ⟨fun sl bb h => ?_, fun _ _ _ h => (nomatch h)⟩
  cases h
  refine (bundle_a _ _ _ _).trans ?_
  unfold decodeA
  rw [wordA_op]
  change finish _ _ _ = _
  simp (disch := decide) only [wordA_g, wordA_r, fld_hi, fld_lo, fld_all, Nat.reduceSub]
  simp [finish, need, hw]

theorem Laws.Codec.cmpLtuAr (g : BitVec 4) (n a b : BitVec 6) :
    Laws.Codec.Statement (.cmpLtuAr g n a b) := by
  intro hw
  refine ⟨fun sl bb h => ?_, fun _ _ _ h => (nomatch h)⟩
  cases h
  refine (bundle_a _ _ _ _).trans ?_
  unfold decodeA
  rw [wordA_op]
  change finish _ _ _ = _
  simp (disch := decide) only [wordA_g, wordA_r, fld_hi, fld_lo, fld_all, Nat.reduceSub]
  simp [finish, need, hw]

theorem Laws.Codec.cmpLeuAr (g : BitVec 4) (n a b : BitVec 6) :
    Laws.Codec.Statement (.cmpLeuAr g n a b) := by
  intro hw
  refine ⟨fun sl bb h => ?_, fun _ _ _ h => (nomatch h)⟩
  cases h
  refine (bundle_a _ _ _ _).trans ?_
  unfold decodeA
  rw [wordA_op]
  change finish _ _ _ = _
  simp (disch := decide) only [wordA_g, wordA_r, fld_hi, fld_lo, fld_all, Nat.reduceSub]
  simp [finish, need, hw]

theorem Laws.Codec.sysRd (g : BitVec 4) (d : BitVec 6) (num : BitVec 13) :
    Laws.Codec.Statement (.sysRd g d num) := by
  intro hw
  refine ⟨fun sl bb h => ?_, fun _ _ _ h => (nomatch h)⟩
  cases h
  refine (bundle_a _ _ _ _).trans ?_
  unfold decodeA
  rw [wordA_op]
  change finish _ _ _ = _
  simp (disch := decide) only [wordA_g, wordA_r, fld_hi, fld_lo, fld_all, Nat.reduceSub]
  simp [finish, need, hw]

theorem Laws.Codec.sysWr (g : BitVec 4) (d : BitVec 6) (num : BitVec 13) :
    Laws.Codec.Statement (.sysWr g d num) := by
  intro hw
  refine ⟨fun sl bb h => ?_, fun _ _ _ h => (nomatch h)⟩
  cases h
  refine (bundle_a _ _ _ _).trans ?_
  unfold decodeA
  rw [wordA_op]
  change finish _ _ _ = _
  simp (disch := decide) only [wordA_g, wordA_r, fld_hi, fld_lo, fld_all, Nat.reduceSub]
  simp [finish, need, hw]

theorem Laws.Codec.moviAw (g : BitVec 4) (d : BitVec 6) (imm : BitVec 13) :
    Laws.Codec.Statement (.moviAw g d imm) := by
  intro hw
  refine ⟨fun sl bb h => ?_, fun _ _ _ h => (nomatch h)⟩
  cases h
  refine (bundle_a _ _ _ _).trans ?_
  unfold decodeA
  rw [wordA_op]
  change finish _ _ _ = _
  simp (disch := decide) only [wordA_g, wordA_r, fld_hi, fld_lo, fld_all, Nat.reduceSub]
  simp [finish, need, hw]

theorem Laws.Codec.nopB (g : BitVec 7) :
    Laws.Codec.Statement (.nopB g) := by
  intro hw
  refine ⟨fun sl bb h => ?_, fun _ _ _ h => (nomatch h)⟩
  cases h
  refine (bundle_b _ _).trans ?_
  unfold decodeB
  rw [wordX_op]
  change finish _ _ _ = _
  simp (disch := decide) only [wordX_g, wordX_r, extOf_g, extOf_e, guard_join, fld_hi, fld_lo, fld_all, Nat.reduceSub]
  simp [finish, need, hw]

theorem Laws.Codec.addB3 (g : BitVec 7) (x y z : BitVec 6) :
    Laws.Codec.Statement (.addB3 g x y z) := by
  intro hw
  refine ⟨fun sl bb h => ?_, fun _ _ _ h => (nomatch h)⟩
  cases h
  refine (bundle_b _ _).trans ?_
  unfold decodeB
  rw [wordX_op]
  change finish _ _ _ = _
  simp (disch := decide) only [wordX_g, wordX_r, extOf_g, extOf_e, guard_join, fld_hi, fld_lo, fld_all, Nat.reduceSub]
  simp [finish, need, hw]

theorem Laws.Codec.subB3 (g : BitVec 7) (x y z : BitVec 6) :
    Laws.Codec.Statement (.subB3 g x y z) := by
  intro hw
  refine ⟨fun sl bb h => ?_, fun _ _ _ h => (nomatch h)⟩
  cases h
  refine (bundle_b _ _).trans ?_
  unfold decodeB
  rw [wordX_op]
  change finish _ _ _ = _
  simp (disch := decide) only [wordX_g, wordX_r, extOf_g, extOf_e, guard_join, fld_hi, fld_lo, fld_all, Nat.reduceSub]
  simp [finish, need, hw]

theorem Laws.Codec.andB3 (g : BitVec 7) (x y z : BitVec 6) :
    Laws.Codec.Statement (.andB3 g x y z) := by
  intro hw
  refine ⟨fun sl bb h => ?_, fun _ _ _ h => (nomatch h)⟩
  cases h
  refine (bundle_b _ _).trans ?_
  unfold decodeB
  rw [wordX_op]
  change finish _ _ _ = _
  simp (disch := decide) only [wordX_g, wordX_r, extOf_g, extOf_e, guard_join, fld_hi, fld_lo, fld_all, Nat.reduceSub]
  simp [finish, need, hw]

theorem Laws.Codec.orB3 (g : BitVec 7) (x y z : BitVec 6) :
    Laws.Codec.Statement (.orB3 g x y z) := by
  intro hw
  refine ⟨fun sl bb h => ?_, fun _ _ _ h => (nomatch h)⟩
  cases h
  refine (bundle_b _ _).trans ?_
  unfold decodeB
  rw [wordX_op]
  change finish _ _ _ = _
  simp (disch := decide) only [wordX_g, wordX_r, extOf_g, extOf_e, guard_join, fld_hi, fld_lo, fld_all, Nat.reduceSub]
  simp [finish, need, hw]

theorem Laws.Codec.xorB3 (g : BitVec 7) (x y z : BitVec 6) :
    Laws.Codec.Statement (.xorB3 g x y z) := by
  intro hw
  refine ⟨fun sl bb h => ?_, fun _ _ _ h => (nomatch h)⟩
  cases h
  refine (bundle_b _ _).trans ?_
  unfold decodeB
  rw [wordX_op]
  change finish _ _ _ = _
  simp (disch := decide) only [wordX_g, wordX_r, extOf_g, extOf_e, guard_join, fld_hi, fld_lo, fld_all, Nat.reduceSub]
  simp [finish, need, hw]

theorem Laws.Codec.shlB3 (g : BitVec 7) (x y z : BitVec 6) :
    Laws.Codec.Statement (.shlB3 g x y z) := by
  intro hw
  refine ⟨fun sl bb h => ?_, fun _ _ _ h => (nomatch h)⟩
  cases h
  refine (bundle_b _ _).trans ?_
  unfold decodeB
  rw [wordX_op]
  change finish _ _ _ = _
  simp (disch := decide) only [wordX_g, wordX_r, extOf_g, extOf_e, guard_join, fld_hi, fld_lo, fld_all, Nat.reduceSub]
  simp [finish, need, hw]

theorem Laws.Codec.shrB3 (g : BitVec 7) (x y z : BitVec 6) :
    Laws.Codec.Statement (.shrB3 g x y z) := by
  intro hw
  refine ⟨fun sl bb h => ?_, fun _ _ _ h => (nomatch h)⟩
  cases h
  refine (bundle_b _ _).trans ?_
  unfold decodeB
  rw [wordX_op]
  change finish _ _ _ = _
  simp (disch := decide) only [wordX_g, wordX_r, extOf_g, extOf_e, guard_join, fld_hi, fld_lo, fld_all, Nat.reduceSub]
  simp [finish, need, hw]

theorem Laws.Codec.sraB3 (g : BitVec 7) (x y z : BitVec 6) :
    Laws.Codec.Statement (.sraB3 g x y z) := by
  intro hw
  refine ⟨fun sl bb h => ?_, fun _ _ _ h => (nomatch h)⟩
  cases h
  refine (bundle_b _ _).trans ?_
  unfold decodeB
  rw [wordX_op]
  change finish _ _ _ = _
  simp (disch := decide) only [wordX_g, wordX_r, extOf_g, extOf_e, guard_join, fld_hi, fld_lo, fld_all, Nat.reduceSub]
  simp [finish, need, hw]

theorem Laws.Codec.lea (g : BitVec 7) (x y z : BitVec 6) (sh : BitVec 4) :
    Laws.Codec.Statement (.lea g x y z sh) := by
  intro hw
  refine ⟨fun sl bb h => ?_, fun _ _ _ h => (nomatch h)⟩
  cases h
  refine (bundle_b _ _).trans ?_
  unfold decodeB
  rw [wordX_op]
  change finish _ _ _ = _
  simp (disch := decide) only [wordX_g, wordX_r, extOf_g, extOf_e, guard_join, fld_hi, fld_lo, fld_all, Nat.reduceSub]
  simp [finish, need, hw]

theorem Laws.Codec.sel (g : BitVec 7) (x : BitVec 6) (n : BitVec 7) (y z : BitVec 6) :
    Laws.Codec.Statement (.sel g x n y z) := by
  intro hw
  refine ⟨fun sl bb h => ?_, fun _ _ _ h => (nomatch h)⟩
  cases h
  refine (bundle_b _ _).trans ?_
  unfold decodeB
  rw [wordX_op]
  change finish _ _ _ = _
  simp (disch := decide) only [wordX_g, wordX_r, extOf_g, extOf_e, guard_join, fld_hi, fld_lo, fld_all, Nat.reduceSub]
  simp [finish, need, hw]

theorem Laws.Codec.extB (g : BitVec 7) (x y pos wm1 : BitVec 6) :
    Laws.Codec.Statement (.extB g x y pos wm1) := by
  intro hw
  refine ⟨fun sl bb h => ?_, fun _ _ _ h => (nomatch h)⟩
  cases h
  refine (bundle_b _ _).trans ?_
  unfold decodeB
  rw [wordX_op]
  change finish _ _ _ = _
  simp (disch := decide) only [wordX_g, wordX_r, extOf_g, extOf_e, guard_join, fld_hi, fld_lo, fld_all, Nat.reduceSub]
  simp [finish, need, hw]

theorem Laws.Codec.insB (g : BitVec 7) (x y pos wm1 : BitVec 6) :
    Laws.Codec.Statement (.insB g x y pos wm1) := by
  intro hw
  refine ⟨fun sl bb h => ?_, fun _ _ _ h => (nomatch h)⟩
  cases h
  refine (bundle_b _ _).trans ?_
  unfold decodeB
  rw [wordX_op]
  change finish _ _ _ = _
  simp (disch := decide) only [wordX_g, wordX_r, extOf_g, extOf_e, guard_join, fld_hi, fld_lo, fld_all, Nat.reduceSub]
  simp [finish, need, hw]

theorem Laws.Codec.addBi (g : BitVec 7) (x y : BitVec 6) (imm : BitVec 16) :
    Laws.Codec.Statement (.addBi g x y imm) := by
  intro hw
  refine ⟨fun sl bb h => ?_, fun _ _ _ h => (nomatch h)⟩
  cases h
  refine (bundle_b _ _).trans ?_
  unfold decodeB
  rw [wordX_op]
  change finish _ _ _ = _
  simp (disch := decide) only [wordX_g, wordX_r, extOf_g, extOf_e, guard_join, fld_hi, fld_lo, fld_all, Nat.reduceSub]
  simp [finish, need, hw]

theorem Laws.Codec.moviBw (g : BitVec 7) (x : BitVec 6) (imm : BitVec 22) :
    Laws.Codec.Statement (.moviBw g x imm) := by
  intro hw
  refine ⟨fun sl bb h => ?_, fun _ _ _ h => (nomatch h)⟩
  cases h
  refine (bundle_b _ _).trans ?_
  unfold decodeB
  rw [wordX_op]
  change finish _ _ _ = _
  simp (disch := decide) only [wordX_g, wordX_r, extOf_g, extOf_e, guard_join, fld_hi, fld_lo, fld_all, Nat.reduceSub]
  simp [finish, need, hw]

theorem Laws.Codec.movhi (g : BitVec 7) (x : BitVec 6) (imm : BitVec 16) :
    Laws.Codec.Statement (.movhi g x imm) := by
  intro hw
  refine ⟨fun sl bb h => ?_, fun _ _ _ h => (nomatch h)⟩
  cases h
  refine (bundle_b _ _).trans ?_
  unfold decodeB
  rw [wordX_op]
  change finish _ _ _ = _
  simp (disch := decide) only [wordX_g, wordX_r, extOf_g, extOf_e, guard_join, fld_hi, fld_lo, fld_all, Nat.reduceSub]
  simp [finish, need, hw]

theorem Laws.Codec.cmpB3 (g : BitVec 7) (n y z : BitVec 6) (cond : Cond) :
    Laws.Codec.Statement (.cmpB3 g n y z cond) := by
  intro hw
  refine ⟨fun sl bb h => ?_, fun _ _ _ h => (nomatch h)⟩
  cases h
  refine (bundle_b _ _).trans ?_
  unfold decodeB
  rw [wordX_op]
  change finish _ _ _ = _
  simp (disch := decide) only [wordX_g, wordX_r, extOf_g, extOf_e, guard_join, fld_hi, fld_lo, fld_all, Nat.reduceSub]
  simp [finish, need, hw]

theorem Laws.Codec.cmpBc (g : BitVec 7) (n y : BitVec 6) (cond : Cond) (imm : BitVec 13) :
    Laws.Codec.Statement (.cmpBc g n y cond imm) := by
  intro hw
  refine ⟨fun sl bb h => ?_, fun _ _ _ h => (nomatch h)⟩
  cases h
  refine (bundle_b _ _).trans ?_
  unfold decodeB
  rw [wordX_op]
  change finish _ _ _ = _
  simp (disch := decide) only [wordX_g, wordX_r, extOf_g, extOf_e, guard_join, fld_hi, fld_lo, fld_all, Nat.reduceSub]
  simp [finish, need, hw]

theorem Laws.Codec.fcmp (g : BitVec 7) (n y z : BitVec 6) (cond : FCond) :
    Laws.Codec.Statement (.fcmp g n y z cond) := by
  intro hw
  refine ⟨fun sl bb h => ?_, fun _ _ _ h => (nomatch h)⟩
  cases h
  refine (bundle_b _ _).trans ?_
  unfold decodeB
  rw [wordX_op]
  change finish _ _ _ = _
  simp (disch := decide) only [wordX_g, wordX_r, extOf_g, extOf_e, guard_join, fld_hi, fld_lo, fld_all, Nat.reduceSub]
  simp [finish, need, hw]

theorem Laws.Codec.pand (g : BitVec 7) (x y z : BitVec 7) (inv : BitVec 1) :
    Laws.Codec.Statement (.pand g x y z inv) := by
  intro hw
  refine ⟨fun sl bb h => ?_, fun _ _ _ h => (nomatch h)⟩
  cases h
  refine (bundle_b _ _).trans ?_
  unfold decodeB
  rw [wordX_op]
  change finish _ _ _ = _
  simp (disch := decide) only [wordX_g, wordX_r, extOf_g, extOf_e, guard_join, fld_hi, fld_lo, fld_all, Nat.reduceSub]
  simp [finish, need, hw]

theorem Laws.Codec.por (g : BitVec 7) (x y z : BitVec 7) (inv : BitVec 1) :
    Laws.Codec.Statement (.por g x y z inv) := by
  intro hw
  refine ⟨fun sl bb h => ?_, fun _ _ _ h => (nomatch h)⟩
  cases h
  refine (bundle_b _ _).trans ?_
  unfold decodeB
  rw [wordX_op]
  change finish _ _ _ = _
  simp (disch := decide) only [wordX_g, wordX_r, extOf_g, extOf_e, guard_join, fld_hi, fld_lo, fld_all, Nat.reduceSub]
  simp [finish, need, hw]

theorem Laws.Codec.pxor (g : BitVec 7) (x y z : BitVec 7) (inv : BitVec 1) :
    Laws.Codec.Statement (.pxor g x y z inv) := by
  intro hw
  refine ⟨fun sl bb h => ?_, fun _ _ _ h => (nomatch h)⟩
  cases h
  refine (bundle_b _ _).trans ?_
  unfold decodeB
  rw [wordX_op]
  change finish _ _ _ = _
  simp (disch := decide) only [wordX_g, wordX_r, extOf_g, extOf_e, guard_join, fld_hi, fld_lo, fld_all, Nat.reduceSub]
  simp [finish, need, hw]

theorem Laws.Codec.pnot (g : BitVec 7) (x y : BitVec 7) :
    Laws.Codec.Statement (.pnot g x y) := by
  intro hw
  refine ⟨fun sl bb h => ?_, fun _ _ _ h => (nomatch h)⟩
  cases h
  refine (bundle_b _ _).trans ?_
  unfold decodeB
  rw [wordX_op]
  change finish _ _ _ = _
  simp (disch := decide) only [wordX_g, wordX_r, extOf_g, extOf_e, guard_join, fld_hi, fld_lo, fld_all, Nat.reduceSub]
  simp [finish, need, hw]

theorem Laws.Codec.pmov (g : BitVec 7) (x y : BitVec 7) :
    Laws.Codec.Statement (.pmov g x y) := by
  intro hw
  refine ⟨fun sl bb h => ?_, fun _ _ _ h => (nomatch h)⟩
  cases h
  refine (bundle_b _ _).trans ?_
  unfold decodeB
  rw [wordX_op]
  change finish _ _ _ = _
  simp (disch := decide) only [wordX_g, wordX_r, extOf_g, extOf_e, guard_join, fld_hi, fld_lo, fld_all, Nat.reduceSub]
  simp [finish, need, hw]

theorem Laws.Codec.pset (g : BitVec 7) (x lo hi : BitVec 7) (inv : BitVec 1) :
    Laws.Codec.Statement (.pset g x lo hi inv) := by
  intro hw
  refine ⟨fun sl bb h => ?_, fun _ _ _ h => (nomatch h)⟩
  cases h
  refine (bundle_b _ _).trans ?_
  unfold decodeB
  rw [wordX_op]
  change finish _ _ _ = _
  simp (disch := decide) only [wordX_g, wordX_r, extOf_g, extOf_e, guard_join, fld_hi, fld_lo, fld_all, Nat.reduceSub]
  simp [finish, need, hw]

theorem Laws.Codec.ldB (g : BitVec 7) (x base : BitVec 6) (off : BitVec 11) (acq : Option Scope) :
    Laws.Codec.Statement (.ldB g x base off acq) := by
  intro hw
  refine ⟨fun sl bb h => ?_, fun _ _ _ h => (nomatch h)⟩
  cases h
  refine (bundle_b _ _).trans ?_
  unfold decodeB
  rw [wordX_op]
  change finish _ _ _ = _
  simp (disch := decide) only [wordX_g, wordX_r, extOf_g, extOf_e, guard_join, fld_hi, fld_lo, fld_all, Nat.reduceSub]
  simp [finish, need, hw]

theorem Laws.Codec.ldH (g : BitVec 7) (x base : BitVec 6) (off : BitVec 11) (acq : Option Scope) :
    Laws.Codec.Statement (.ldH g x base off acq) := by
  intro hw
  refine ⟨fun sl bb h => ?_, fun _ _ _ h => (nomatch h)⟩
  cases h
  refine (bundle_b _ _).trans ?_
  unfold decodeB
  rw [wordX_op]
  change finish _ _ _ = _
  simp (disch := decide) only [wordX_g, wordX_r, extOf_g, extOf_e, guard_join, fld_hi, fld_lo, fld_all, Nat.reduceSub]
  simp [finish, need, hw]

theorem Laws.Codec.ldW (g : BitVec 7) (x base : BitVec 6) (off : BitVec 11) (acq : Option Scope) :
    Laws.Codec.Statement (.ldW g x base off acq) := by
  intro hw
  refine ⟨fun sl bb h => ?_, fun _ _ _ h => (nomatch h)⟩
  cases h
  refine (bundle_b _ _).trans ?_
  unfold decodeB
  rw [wordX_op]
  change finish _ _ _ = _
  simp (disch := decide) only [wordX_g, wordX_r, extOf_g, extOf_e, guard_join, fld_hi, fld_lo, fld_all, Nat.reduceSub]
  simp [finish, need, hw]

theorem Laws.Codec.ldD (g : BitVec 7) (x base : BitVec 6) (off : BitVec 11) (acq : Option Scope) :
    Laws.Codec.Statement (.ldD g x base off acq) := by
  intro hw
  refine ⟨fun sl bb h => ?_, fun _ _ _ h => (nomatch h)⟩
  cases h
  refine (bundle_b _ _).trans ?_
  unfold decodeB
  rw [wordX_op]
  change finish _ _ _ = _
  simp (disch := decide) only [wordX_g, wordX_r, extOf_g, extOf_e, guard_join, fld_hi, fld_lo, fld_all, Nat.reduceSub]
  simp [finish, need, hw]

theorem Laws.Codec.stB (g : BitVec 7) (x base : BitVec 6) (off : BitVec 11) (rel : Option Scope) :
    Laws.Codec.Statement (.stB g x base off rel) := by
  intro hw
  refine ⟨fun sl bb h => ?_, fun _ _ _ h => (nomatch h)⟩
  cases h
  refine (bundle_b _ _).trans ?_
  unfold decodeB
  rw [wordX_op]
  change finish _ _ _ = _
  simp (disch := decide) only [wordX_g, wordX_r, extOf_g, extOf_e, guard_join, fld_hi, fld_lo, fld_all, Nat.reduceSub]
  simp [finish, need, hw]

theorem Laws.Codec.stH (g : BitVec 7) (x base : BitVec 6) (off : BitVec 11) (rel : Option Scope) :
    Laws.Codec.Statement (.stH g x base off rel) := by
  intro hw
  refine ⟨fun sl bb h => ?_, fun _ _ _ h => (nomatch h)⟩
  cases h
  refine (bundle_b _ _).trans ?_
  unfold decodeB
  rw [wordX_op]
  change finish _ _ _ = _
  simp (disch := decide) only [wordX_g, wordX_r, extOf_g, extOf_e, guard_join, fld_hi, fld_lo, fld_all, Nat.reduceSub]
  simp [finish, need, hw]

theorem Laws.Codec.stW (g : BitVec 7) (x base : BitVec 6) (off : BitVec 11) (rel : Option Scope) :
    Laws.Codec.Statement (.stW g x base off rel) := by
  intro hw
  refine ⟨fun sl bb h => ?_, fun _ _ _ h => (nomatch h)⟩
  cases h
  refine (bundle_b _ _).trans ?_
  unfold decodeB
  rw [wordX_op]
  change finish _ _ _ = _
  simp (disch := decide) only [wordX_g, wordX_r, extOf_g, extOf_e, guard_join, fld_hi, fld_lo, fld_all, Nat.reduceSub]
  simp [finish, need, hw]

theorem Laws.Codec.stD (g : BitVec 7) (x base : BitVec 6) (off : BitVec 11) (rel : Option Scope) :
    Laws.Codec.Statement (.stD g x base off rel) := by
  intro hw
  refine ⟨fun sl bb h => ?_, fun _ _ _ h => (nomatch h)⟩
  cases h
  refine (bundle_b _ _).trans ?_
  unfold decodeB
  rw [wordX_op]
  change finish _ _ _ = _
  simp (disch := decide) only [wordX_g, wordX_r, extOf_g, extOf_e, guard_join, fld_hi, fld_lo, fld_all, Nat.reduceSub]
  simp [finish, need, hw]

theorem Laws.Codec.pf (g : BitVec 7) (lvl : CacheKind) (base : BitVec 6) (off : BitVec 11) :
    Laws.Codec.Statement (.pf g lvl base off) := by
  intro hw
  refine ⟨fun sl bb h => ?_, fun _ _ _ h => (nomatch h)⟩
  cases h
  refine (bundle_b _ _).trans ?_
  unfold decodeB
  rw [wordX_op]
  change finish _ _ _ = _
  simp (disch := decide) only [wordX_g, wordX_r, extOf_g, extOf_e, guard_join, fld_hi, fld_lo, fld_all, Nat.reduceSub]
  simp [finish, need, hw]

theorem Laws.Codec.lqPop (g : BitVec 7) (x : BitVec 6) :
    Laws.Codec.Statement (.lqPop g x) := by
  intro hw
  refine ⟨fun sl bb h => ?_, fun _ _ _ h => (nomatch h)⟩
  cases h
  refine (bundle_b _ _).trans ?_
  unfold decodeB
  rw [wordX_op]
  change finish _ _ _ = _
  simp (disch := decide) only [wordX_g, wordX_r, extOf_g, extOf_e, guard_join, fld_hi, fld_lo, fld_all, Nat.reduceSub]
  simp [finish, hw, zeros_16]

theorem Laws.Codec.ldSp (g : BitVec 7) (x base : BitVec 6) (off : BitVec 11) :
    Laws.Codec.Statement (.ldSp g x base off) := by
  intro hw
  refine ⟨fun sl bb h => ?_, fun _ _ _ h => (nomatch h)⟩
  cases h
  refine (bundle_b _ _).trans ?_
  unfold decodeB
  rw [wordX_op]
  change finish _ _ _ = _
  simp (disch := decide) only [wordX_g, wordX_r, extOf_g, extOf_e, guard_join, fld_hi, fld_lo, fld_all, Nat.reduceSub]
  simp [finish, need, hw]

theorem Laws.Codec.stSp (g : BitVec 7) (x base : BitVec 6) (off : BitVec 11) :
    Laws.Codec.Statement (.stSp g x base off) := by
  intro hw
  refine ⟨fun sl bb h => ?_, fun _ _ _ h => (nomatch h)⟩
  cases h
  refine (bundle_b _ _).trans ?_
  unfold decodeB
  rw [wordX_op]
  change finish _ _ _ = _
  simp (disch := decide) only [wordX_g, wordX_r, extOf_g, extOf_e, guard_join, fld_hi, fld_lo, fld_all, Nat.reduceSub]
  simp [finish, need, hw]

theorem Laws.Codec.tsLd (g : BitVec 7) (x base : BitVec 6) (off : BitVec 11) (cut : BitVec 1) (port : BitVec 2) :
    Laws.Codec.Statement (.tsLd g x base off cut port) := by
  intro hw
  refine ⟨fun sl bb h => ?_, fun _ _ _ h => (nomatch h)⟩
  cases h
  refine (bundle_b _ _).trans ?_
  unfold decodeB
  rw [wordX_op]
  change finish _ _ _ = _
  simp (disch := decide) only [wordX_g, wordX_r, extOf_g, extOf_e, guard_join, fld_hi, fld_lo, fld_all, Nat.reduceSub]
  simp [finish, need, hw]

theorem Laws.Codec.tsSt (g : BitVec 7) (x base : BitVec 6) (off : BitVec 11) (port : BitVec 2) :
    Laws.Codec.Statement (.tsSt g x base off port) := by
  intro hw
  refine ⟨fun sl bb h => ?_, fun _ _ _ h => (nomatch h)⟩
  cases h
  refine (bundle_b _ _).trans ?_
  unfold decodeB
  rw [wordX_op]
  change finish _ _ _ = _
  simp (disch := decide) only [wordX_g, wordX_r, extOf_g, extOf_e, guard_join, fld_hi, fld_lo, fld_all, Nat.reduceSub]
  simp [finish, need, hw]

theorem Laws.Codec.atR (g : BitVec 7) (x base : BitVec 6) (scope : Scope) (op : AtOp) :
    Laws.Codec.Statement (.atR g x base scope op) := by
  intro hw
  refine ⟨fun sl bb h => ?_, fun _ _ _ h => (nomatch h)⟩
  cases h
  refine (bundle_b _ _).trans ?_
  unfold decodeB
  rw [wordX_op]
  change finish _ _ _ = _
  simp (disch := decide) only [wordX_g, wordX_r, extOf_g, extOf_e, guard_join, fld_hi, fld_lo, fld_all, Nat.reduceSub]
  simp [finish, need, hw]

theorem Laws.Codec.atCas (g : BitVec 7) (x base y : BitVec 6) (scope : Scope) :
    Laws.Codec.Statement (.atCas g x base y scope) := by
  intro hw
  refine ⟨fun sl bb h => ?_, fun _ _ _ h => (nomatch h)⟩
  cases h
  refine (bundle_b _ _).trans ?_
  unfold decodeB
  rw [wordX_op]
  change finish _ _ _ = _
  simp (disch := decide) only [wordX_g, wordX_r, extOf_g, extOf_e, guard_join, fld_hi, fld_lo, fld_all, Nat.reduceSub]
  simp [finish, need, hw]

theorem Laws.Codec.red (g : BitVec 7) (x base : BitVec 6) (scope : Scope) (op : AtOp) :
    Laws.Codec.Statement (.red g x base scope op) := by
  intro hw
  refine ⟨fun sl bb h => ?_, fun _ _ _ h => (nomatch h)⟩
  cases h
  refine (bundle_b _ _).trans ?_
  unfold decodeB
  rw [wordX_op]
  change finish _ _ _ = _
  simp (disch := decide) only [wordX_g, wordX_r, extOf_g, extOf_e, guard_join, fld_hi, fld_lo, fld_all, Nat.reduceSub]
  simp [finish, need, hw]

theorem Laws.Codec.mcas (g : BitVec 7) (y z : BitVec 6) :
    Laws.Codec.Statement (.mcas g y z) := by
  intro hw
  refine ⟨fun sl bb h => ?_, fun _ _ _ h => (nomatch h)⟩
  cases h
  refine (bundle_b _ _).trans ?_
  unfold decodeB
  rw [wordX_op]
  change finish _ _ _ = _
  simp (disch := decide) only [wordX_g, wordX_r, extOf_g, extOf_e, guard_join, fld_hi, fld_lo, fld_all, Nat.reduceSub]
  simp [finish, need, hw]

theorem Laws.Codec.fence (g : BitVec 7) (scope : Scope) :
    Laws.Codec.Statement (.fence g scope) := by
  intro hw
  refine ⟨fun sl bb h => ?_, fun _ _ _ h => (nomatch h)⟩
  cases h
  refine (bundle_b _ _).trans ?_
  unfold decodeB
  rw [wordX_op]
  change finish _ _ _ = _
  simp (disch := decide) only [wordX_g, wordX_r, extOf_g, extOf_e, guard_join, fld_hi, fld_lo, fld_all, Nat.reduceSub]
  simp [finish, need, hw]

theorem Laws.Codec.xfence (g : BitVec 7) (a b : PClass) :
    Laws.Codec.Statement (.xfence g a b) := by
  intro hw
  refine ⟨fun sl bb h => ?_, fun _ _ _ h => (nomatch h)⟩
  cases h
  refine (bundle_b _ _).trans ?_
  unfold decodeB
  rw [wordX_op]
  change finish _ _ _ = _
  simp (disch := decide) only [wordX_g, wordX_r, extOf_g, extOf_e, guard_join, fld_hi, fld_lo, fld_all, Nat.reduceSub]
  simp [finish, need, hw]

theorem Laws.Codec.bfDecl (g : BitVec 7) (x y z : BitVec 6) (spec : BitVec 1) (own : BitVec 2) :
    Laws.Codec.Statement (.bfDecl g x y z spec own) := by
  intro hw
  refine ⟨fun sl bb h => ?_, fun _ _ _ h => (nomatch h)⟩
  cases h
  refine (bundle_b _ _).trans ?_
  unfold decodeB
  rw [wordX_op]
  change finish _ _ _ = _
  simp (disch := decide) only [wordX_g, wordX_r, extOf_g, extOf_e, guard_join, fld_hi, fld_lo, fld_all, Nat.reduceSub]
  simp [finish, need, hw]

theorem Laws.Codec.bfFill (g : BitVec 7) (x : BitVec 6) :
    Laws.Codec.Statement (.bfFill g x) := by
  intro hw
  refine ⟨fun sl bb h => ?_, fun _ _ _ h => (nomatch h)⟩
  cases h
  refine (bundle_b _ _).trans ?_
  unfold decodeB
  rw [wordX_op]
  change finish _ _ _ = _
  simp (disch := decide) only [wordX_g, wordX_r, extOf_g, extOf_e, guard_join, fld_hi, fld_lo, fld_all, Nat.reduceSub]
  simp [finish, hw, zeros_16]

theorem Laws.Codec.bfDone (g : BitVec 7) (x : BitVec 6) :
    Laws.Codec.Statement (.bfDone g x) := by
  intro hw
  refine ⟨fun sl bb h => ?_, fun _ _ _ h => (nomatch h)⟩
  cases h
  refine (bundle_b _ _).trans ?_
  unfold decodeB
  rw [wordX_op]
  change finish _ _ _ = _
  simp (disch := decide) only [wordX_g, wordX_r, extOf_g, extOf_e, guard_join, fld_hi, fld_lo, fld_all, Nat.reduceSub]
  simp [finish, hw, zeros_16]

theorem Laws.Codec.bfDrain (g : BitVec 7) (x : BitVec 6) :
    Laws.Codec.Statement (.bfDrain g x) := by
  intro hw
  refine ⟨fun sl bb h => ?_, fun _ _ _ h => (nomatch h)⟩
  cases h
  refine (bundle_b _ _).trans ?_
  unfold decodeB
  rw [wordX_op]
  change finish _ _ _ = _
  simp (disch := decide) only [wordX_g, wordX_r, extOf_g, extOf_e, guard_join, fld_hi, fld_lo, fld_all, Nat.reduceSub]
  simp [finish, hw, zeros_16]

theorem Laws.Codec.bfFree (g : BitVec 7) (x : BitVec 6) :
    Laws.Codec.Statement (.bfFree g x) := by
  intro hw
  refine ⟨fun sl bb h => ?_, fun _ _ _ h => (nomatch h)⟩
  cases h
  refine (bundle_b _ _).trans ?_
  unfold decodeB
  rw [wordX_op]
  change finish _ _ _ = _
  simp (disch := decide) only [wordX_g, wordX_r, extOf_g, extOf_e, guard_join, fld_hi, fld_lo, fld_all, Nat.reduceSub]
  simp [finish, hw, zeros_16]

theorem Laws.Codec.bfState (g : BitVec 7) (x y : BitVec 6) :
    Laws.Codec.Statement (.bfState g x y) := by
  intro hw
  refine ⟨fun sl bb h => ?_, fun _ _ _ h => (nomatch h)⟩
  cases h
  refine (bundle_b _ _).trans ?_
  unfold decodeB
  rw [wordX_op]
  change finish _ _ _ = _
  simp (disch := decide) only [wordX_g, wordX_r, extOf_g, extOf_e, guard_join, fld_hi, fld_lo, fld_all, Nat.reduceSub]
  simp [finish, hw, zeros_10]

theorem Laws.Codec.pnAdd (g : BitVec 7) (clr : BitVec 1) (rel : Option Scope) (y z : BitVec 6) :
    Laws.Codec.Statement (.pnAdd g clr rel y z) := by
  intro hw
  refine ⟨fun sl bb h => ?_, fun _ _ _ h => (nomatch h)⟩
  cases h
  refine (bundle_b _ _).trans ?_
  unfold decodeB
  rw [wordX_op]
  change finish _ _ _ = _
  simp (disch := decide) only [wordX_g, wordX_r, extOf_g, extOf_e, guard_join, fld_hi, fld_lo, fld_all, Nat.reduceSub]
  simp [finish, need, hw]

theorem Laws.Codec.pnWait (g : BitVec 7) (acq : Option Scope) (y z : BitVec 6) (n : BitVec 7) :
    Laws.Codec.Statement (.pnWait g acq y z n) := by
  intro hw
  refine ⟨fun sl bb h => ?_, fun _ _ _ h => (nomatch h)⟩
  cases h
  refine (bundle_b _ _).trans ?_
  unfold decodeB
  rw [wordX_op]
  change finish _ _ _ = _
  simp (disch := decide) only [wordX_g, wordX_r, extOf_g, extOf_e, guard_join, fld_hi, fld_lo, fld_all, Nat.reduceSub]
  simp [finish, need, hw]

theorem Laws.Codec.pnTest (g : BitVec 7) (pair y z : BitVec 6) (n : BitVec 7) :
    Laws.Codec.Statement (.pnTest g pair y z n) := by
  intro hw
  refine ⟨fun sl bb h => ?_, fun _ _ _ h => (nomatch h)⟩
  cases h
  refine (bundle_b _ _).trans ?_
  unfold decodeB
  rw [wordX_op]
  change finish _ _ _ = _
  simp (disch := decide) only [wordX_g, wordX_r, extOf_g, extOf_e, guard_join, fld_hi, fld_lo, fld_all, Nat.reduceSub]
  simp [finish, need, hw]

theorem Laws.Codec.pnRead (g : BitVec 7) (x y : BitVec 6) (st : BitVec 1) :
    Laws.Codec.Statement (.pnRead g x y st) := by
  intro hw
  refine ⟨fun sl bb h => ?_, fun _ _ _ h => (nomatch h)⟩
  cases h
  refine (bundle_b _ _).trans ?_
  unfold decodeB
  rw [wordX_op]
  change finish _ _ _ = _
  simp (disch := decide) only [wordX_g, wordX_r, extOf_g, extOf_e, guard_join, fld_hi, fld_lo, fld_all, Nat.reduceSub]
  simp [finish, need, hw]

theorem Laws.Codec.rbAwait (g : BitVec 7) (x y z : BitVec 6) (n : BitVec 7) :
    Laws.Codec.Statement (.rbAwait g x y z n) := by
  intro hw
  refine ⟨fun sl bb h => ?_, fun _ _ _ h => (nomatch h)⟩
  cases h
  refine (bundle_b _ _).trans ?_
  unfold decodeB
  rw [wordX_op]
  change finish _ _ _ = _
  simp (disch := decide) only [wordX_g, wordX_r, extOf_g, extOf_e, guard_join, fld_hi, fld_lo, fld_all, Nat.reduceSub]
  simp [finish, need, hw]

theorem Laws.Codec.rbRelease (g : BitVec 7) (x y z : BitVec 6) :
    Laws.Codec.Statement (.rbRelease g x y z) := by
  intro hw
  refine ⟨fun sl bb h => ?_, fun _ _ _ h => (nomatch h)⟩
  cases h
  refine (bundle_b _ _).trans ?_
  unfold decodeB
  rw [wordX_op]
  change finish _ _ _ = _
  simp (disch := decide) only [wordX_g, wordX_r, extOf_g, extOf_e, guard_join, fld_hi, fld_lo, fld_all, Nat.reduceSub]
  simp [finish, need, hw]

theorem Laws.Codec.nopC (g : BitVec 7) :
    Laws.Codec.Statement (.nopC g) := by
  intro hw
  refine ⟨fun sl bb h => ?_, fun _ _ _ h => (nomatch h)⟩
  cases h
  refine (bundle_c _ _).trans ?_
  unfold decodeC
  rw [wordX_op]
  change finish _ _ _ = _
  simp (disch := decide) only [wordX_g, wordX_r, extOf_g, extOf_e, guard_join, fld_hi, fld_lo, fld_all, Nat.reduceSub]
  simp [finish, need, hw]

theorem Laws.Codec.vld (g : BitVec 7) (v : BitVec 5) (base : BitVec 6) (c : BitVec 2) (sw : BitVec 1) (lp : BitVec 7) (off : BitVec 7) :
    Laws.Codec.Statement (.vld g v base c sw lp off) := by
  intro hw
  refine ⟨fun sl bb h => ?_, fun _ _ _ h => (nomatch h)⟩
  cases h
  refine (bundle_c _ _).trans ?_
  unfold decodeC
  rw [wordX_op]
  change finish _ _ _ = _
  simp (disch := decide) only [wordX_g, wordX_r, extOf_g, extOf_e, guard_join, fld_hi, fld_lo, fld_all, Nat.reduceSub]
  simp [finish, need, hw]

theorem Laws.Codec.vst (g : BitVec 7) (v : BitVec 5) (base : BitVec 6) (c : BitVec 2) (sw : BitVec 1) (lp : BitVec 7) (off : BitVec 7) :
    Laws.Codec.Statement (.vst g v base c sw lp off) := by
  intro hw
  refine ⟨fun sl bb h => ?_, fun _ _ _ h => (nomatch h)⟩
  cases h
  refine (bundle_c _ _).trans ?_
  unfold decodeC
  rw [wordX_op]
  change finish _ _ _ = _
  simp (disch := decide) only [wordX_g, wordX_r, extOf_g, extOf_e, guard_join, fld_hi, fld_lo, fld_all, Nat.reduceSub]
  simp [finish, need, hw]

theorem Laws.Codec.vaddC3 (g : BitVec 7) (ty : VTy) (vd va vb : VOp) (lp : BitVec 7) :
    Laws.Codec.Statement (.vaddC3 g ty vd va vb lp) := by
  intro hw
  refine ⟨fun sl bb h => ?_, fun _ _ _ h => (nomatch h)⟩
  cases h
  refine (bundle_c _ _).trans ?_
  unfold decodeC
  rw [wordX_op]
  change finish _ _ _ = _
  simp (disch := decide) only [wordX_g, wordX_r, extOf_g, extOf_e, guard_join, fld_hi, fld_lo, fld_all, Nat.reduceSub]
  simp [finish, need, hw]

theorem Laws.Codec.vsubC3 (g : BitVec 7) (ty : VTy) (vd va vb : VOp) (lp : BitVec 7) :
    Laws.Codec.Statement (.vsubC3 g ty vd va vb lp) := by
  intro hw
  refine ⟨fun sl bb h => ?_, fun _ _ _ h => (nomatch h)⟩
  cases h
  refine (bundle_c _ _).trans ?_
  unfold decodeC
  rw [wordX_op]
  change finish _ _ _ = _
  simp (disch := decide) only [wordX_g, wordX_r, extOf_g, extOf_e, guard_join, fld_hi, fld_lo, fld_all, Nat.reduceSub]
  simp [finish, need, hw]

theorem Laws.Codec.vmulC3 (g : BitVec 7) (ty : VTy) (vd va vb : VOp) (lp : BitVec 7) :
    Laws.Codec.Statement (.vmulC3 g ty vd va vb lp) := by
  intro hw
  refine ⟨fun sl bb h => ?_, fun _ _ _ h => (nomatch h)⟩
  cases h
  refine (bundle_c _ _).trans ?_
  unfold decodeC
  rw [wordX_op]
  change finish _ _ _ = _
  simp (disch := decide) only [wordX_g, wordX_r, extOf_g, extOf_e, guard_join, fld_hi, fld_lo, fld_all, Nat.reduceSub]
  simp [finish, need, hw]

theorem Laws.Codec.vfmaC3 (g : BitVec 7) (ty : VTy) (vd va vb : VOp) (lp : BitVec 7) :
    Laws.Codec.Statement (.vfmaC3 g ty vd va vb lp) := by
  intro hw
  refine ⟨fun sl bb h => ?_, fun _ _ _ h => (nomatch h)⟩
  cases h
  refine (bundle_c _ _).trans ?_
  unfold decodeC
  rw [wordX_op]
  change finish _ _ _ = _
  simp (disch := decide) only [wordX_g, wordX_r, extOf_g, extOf_e, guard_join, fld_hi, fld_lo, fld_all, Nat.reduceSub]
  simp [finish, need, hw]

theorem Laws.Codec.vminC3 (g : BitVec 7) (ty : VTy) (vd va vb : VOp) (lp : BitVec 7) :
    Laws.Codec.Statement (.vminC3 g ty vd va vb lp) := by
  intro hw
  refine ⟨fun sl bb h => ?_, fun _ _ _ h => (nomatch h)⟩
  cases h
  refine (bundle_c _ _).trans ?_
  unfold decodeC
  rw [wordX_op]
  change finish _ _ _ = _
  simp (disch := decide) only [wordX_g, wordX_r, extOf_g, extOf_e, guard_join, fld_hi, fld_lo, fld_all, Nat.reduceSub]
  simp [finish, need, hw]

theorem Laws.Codec.vmaxC3 (g : BitVec 7) (ty : VTy) (vd va vb : VOp) (lp : BitVec 7) :
    Laws.Codec.Statement (.vmaxC3 g ty vd va vb lp) := by
  intro hw
  refine ⟨fun sl bb h => ?_, fun _ _ _ h => (nomatch h)⟩
  cases h
  refine (bundle_c _ _).trans ?_
  unfold decodeC
  rw [wordX_op]
  change finish _ _ _ = _
  simp (disch := decide) only [wordX_g, wordX_r, extOf_g, extOf_e, guard_join, fld_hi, fld_lo, fld_all, Nat.reduceSub]
  simp [finish, need, hw]

theorem Laws.Codec.vand (g : BitVec 7) (vd va vb : VOp) (lp : BitVec 7) :
    Laws.Codec.Statement (.vand g vd va vb lp) := by
  intro hw
  refine ⟨fun sl bb h => ?_, fun _ _ _ h => (nomatch h)⟩
  cases h
  refine (bundle_c _ _).trans ?_
  unfold decodeC
  rw [wordX_op]
  change finish _ _ _ = _
  simp (disch := decide) only [wordX_g, wordX_r, extOf_g, extOf_e, guard_join, fld_hi, fld_lo, fld_all, Nat.reduceSub]
  simp [finish, need, hw]

theorem Laws.Codec.vor (g : BitVec 7) (vd va vb : VOp) (lp : BitVec 7) :
    Laws.Codec.Statement (.vor g vd va vb lp) := by
  intro hw
  refine ⟨fun sl bb h => ?_, fun _ _ _ h => (nomatch h)⟩
  cases h
  refine (bundle_c _ _).trans ?_
  unfold decodeC
  rw [wordX_op]
  change finish _ _ _ = _
  simp (disch := decide) only [wordX_g, wordX_r, extOf_g, extOf_e, guard_join, fld_hi, fld_lo, fld_all, Nat.reduceSub]
  simp [finish, need, hw]

theorem Laws.Codec.vxor (g : BitVec 7) (vd va vb : VOp) (lp : BitVec 7) :
    Laws.Codec.Statement (.vxor g vd va vb lp) := by
  intro hw
  refine ⟨fun sl bb h => ?_, fun _ _ _ h => (nomatch h)⟩
  cases h
  refine (bundle_c _ _).trans ?_
  unfold decodeC
  rw [wordX_op]
  change finish _ _ _ = _
  simp (disch := decide) only [wordX_g, wordX_r, extOf_g, extOf_e, guard_join, fld_hi, fld_lo, fld_all, Nat.reduceSub]
  simp [finish, need, hw]

theorem Laws.Codec.vshlC3 (g : BitVec 7) (ty : VTy) (vd va vb : VOp) (lp : BitVec 7) :
    Laws.Codec.Statement (.vshlC3 g ty vd va vb lp) := by
  intro hw
  refine ⟨fun sl bb h => ?_, fun _ _ _ h => (nomatch h)⟩
  cases h
  refine (bundle_c _ _).trans ?_
  unfold decodeC
  rw [wordX_op]
  change finish _ _ _ = _
  simp (disch := decide) only [wordX_g, wordX_r, extOf_g, extOf_e, guard_join, fld_hi, fld_lo, fld_all, Nat.reduceSub]
  simp [finish, need, hw]

theorem Laws.Codec.vshrC3 (g : BitVec 7) (ty : VTy) (vd va vb : VOp) (lp : BitVec 7) :
    Laws.Codec.Statement (.vshrC3 g ty vd va vb lp) := by
  intro hw
  refine ⟨fun sl bb h => ?_, fun _ _ _ h => (nomatch h)⟩
  cases h
  refine (bundle_c _ _).trans ?_
  unfold decodeC
  rw [wordX_op]
  change finish _ _ _ = _
  simp (disch := decide) only [wordX_g, wordX_r, extOf_g, extOf_e, guard_join, fld_hi, fld_lo, fld_all, Nat.reduceSub]
  simp [finish, need, hw]

theorem Laws.Codec.vsel (g : BitVec 7) (vd va vb : VOp) (lp : BitVec 7) :
    Laws.Codec.Statement (.vsel g vd va vb lp) := by
  intro hw
  refine ⟨fun sl bb h => ?_, fun _ _ _ h => (nomatch h)⟩
  cases h
  refine (bundle_c _ _).trans ?_
  unfold decodeC
  rw [wordX_op]
  change finish _ _ _ = _
  simp (disch := decide) only [wordX_g, wordX_r, extOf_g, extOf_e, guard_join, fld_hi, fld_lo, fld_all, Nat.reduceSub]
  simp [finish, need, hw]

theorem Laws.Codec.vcmp (g : BitVec 7) (pair : BitVec 6) (va vb : VOp) (cond : BitVec 3) (fp : Bool) :
    Laws.Codec.Statement (.vcmp g pair va vb cond fp) := by
  intro hw
  refine ⟨fun sl bb h => ?_, fun _ _ _ h => (nomatch h)⟩
  cases h
  refine (bundle_c _ _).trans ?_
  unfold decodeC
  rw [wordX_op]
  change finish _ _ _ = _
  simp (disch := decide) only [wordX_g, wordX_r, extOf_g, extOf_e, guard_join, fld_hi, fld_lo, fld_all, Nat.reduceSub]
  simp [finish, need, hw]

theorem Laws.Codec.vaddCs (g : BitVec 7) (ty : VTy2) (vd va : VOp) (s : BitVec 6) (lp : BitVec 7) :
    Laws.Codec.Statement (.vaddCs g ty vd va s lp) := by
  intro hw
  refine ⟨fun sl bb h => ?_, fun _ _ _ h => (nomatch h)⟩
  cases h
  refine (bundle_c _ _).trans ?_
  unfold decodeC
  rw [wordX_op]
  change finish _ _ _ = _
  simp (disch := decide) only [wordX_g, wordX_r, extOf_g, extOf_e, guard_join, fld_hi, fld_lo, fld_all, Nat.reduceSub]
  simp [finish, need, hw]

theorem Laws.Codec.vsubCs (g : BitVec 7) (ty : VTy2) (vd va : VOp) (s : BitVec 6) (lp : BitVec 7) :
    Laws.Codec.Statement (.vsubCs g ty vd va s lp) := by
  intro hw
  refine ⟨fun sl bb h => ?_, fun _ _ _ h => (nomatch h)⟩
  cases h
  refine (bundle_c _ _).trans ?_
  unfold decodeC
  rw [wordX_op]
  change finish _ _ _ = _
  simp (disch := decide) only [wordX_g, wordX_r, extOf_g, extOf_e, guard_join, fld_hi, fld_lo, fld_all, Nat.reduceSub]
  simp [finish, need, hw]

theorem Laws.Codec.vmulCs (g : BitVec 7) (ty : VTy2) (vd va : VOp) (s : BitVec 6) (lp : BitVec 7) :
    Laws.Codec.Statement (.vmulCs g ty vd va s lp) := by
  intro hw
  refine ⟨fun sl bb h => ?_, fun _ _ _ h => (nomatch h)⟩
  cases h
  refine (bundle_c _ _).trans ?_
  unfold decodeC
  rw [wordX_op]
  change finish _ _ _ = _
  simp (disch := decide) only [wordX_g, wordX_r, extOf_g, extOf_e, guard_join, fld_hi, fld_lo, fld_all, Nat.reduceSub]
  simp [finish, need, hw]

theorem Laws.Codec.vfmaCs (g : BitVec 7) (ty : VTy2) (vd va : VOp) (s : BitVec 6) (lp : BitVec 7) :
    Laws.Codec.Statement (.vfmaCs g ty vd va s lp) := by
  intro hw
  refine ⟨fun sl bb h => ?_, fun _ _ _ h => (nomatch h)⟩
  cases h
  refine (bundle_c _ _).trans ?_
  unfold decodeC
  rw [wordX_op]
  change finish _ _ _ = _
  simp (disch := decide) only [wordX_g, wordX_r, extOf_g, extOf_e, guard_join, fld_hi, fld_lo, fld_all, Nat.reduceSub]
  simp [finish, need, hw]

theorem Laws.Codec.vminCs (g : BitVec 7) (ty : VTy2) (vd va : VOp) (s : BitVec 6) (lp : BitVec 7) :
    Laws.Codec.Statement (.vminCs g ty vd va s lp) := by
  intro hw
  refine ⟨fun sl bb h => ?_, fun _ _ _ h => (nomatch h)⟩
  cases h
  refine (bundle_c _ _).trans ?_
  unfold decodeC
  rw [wordX_op]
  change finish _ _ _ = _
  simp (disch := decide) only [wordX_g, wordX_r, extOf_g, extOf_e, guard_join, fld_hi, fld_lo, fld_all, Nat.reduceSub]
  simp [finish, need, hw]

theorem Laws.Codec.vmaxCs (g : BitVec 7) (ty : VTy2) (vd va : VOp) (s : BitVec 6) (lp : BitVec 7) :
    Laws.Codec.Statement (.vmaxCs g ty vd va s lp) := by
  intro hw
  refine ⟨fun sl bb h => ?_, fun _ _ _ h => (nomatch h)⟩
  cases h
  refine (bundle_c _ _).trans ?_
  unfold decodeC
  rw [wordX_op]
  change finish _ _ _ = _
  simp (disch := decide) only [wordX_g, wordX_r, extOf_g, extOf_e, guard_join, fld_hi, fld_lo, fld_all, Nat.reduceSub]
  simp [finish, need, hw]

theorem Laws.Codec.vshlCs (g : BitVec 7) (ty : VTy2) (vd va : VOp) (s : BitVec 6) (lp : BitVec 7) :
    Laws.Codec.Statement (.vshlCs g ty vd va s lp) := by
  intro hw
  refine ⟨fun sl bb h => ?_, fun _ _ _ h => (nomatch h)⟩
  cases h
  refine (bundle_c _ _).trans ?_
  unfold decodeC
  rw [wordX_op]
  change finish _ _ _ = _
  simp (disch := decide) only [wordX_g, wordX_r, extOf_g, extOf_e, guard_join, fld_hi, fld_lo, fld_all, Nat.reduceSub]
  simp [finish, need, hw]

theorem Laws.Codec.vshrCs (g : BitVec 7) (ty : VTy2) (vd va : VOp) (s : BitVec 6) (lp : BitVec 7) :
    Laws.Codec.Statement (.vshrCs g ty vd va s lp) := by
  intro hw
  refine ⟨fun sl bb h => ?_, fun _ _ _ h => (nomatch h)⟩
  cases h
  refine (bundle_c _ _).trans ?_
  unfold decodeC
  rw [wordX_op]
  change finish _ _ _ = _
  simp (disch := decide) only [wordX_g, wordX_r, extOf_g, extOf_e, guard_join, fld_hi, fld_lo, fld_all, Nat.reduceSub]
  simp [finish, need, hw]

theorem Laws.Codec.vcvt (g : BitVec 7) (vd va : VOp) (src tgt : Fmt) (rnd : Rnd) (had : Had) :
    Laws.Codec.Statement (.vcvt g vd va src tgt rnd had) := by
  intro hw
  refine ⟨fun sl bb h => ?_, fun _ _ _ h => (nomatch h)⟩
  cases h
  refine (bundle_c _ _).trans ?_
  unfold decodeC
  rw [wordX_op]
  change finish _ _ _ = _
  simp (disch := decide) only [wordX_g, wordX_r, extOf_g, extOf_e, guard_join, fld_hi, fld_lo, fld_all, Nat.reduceSub]
  simp [finish, need, hw]

theorem Laws.Codec.vhad (g : BitVec 7) (fp : Bool) (vd va : VOp) (h16 : Bool) (lp : BitVec 7) :
    Laws.Codec.Statement (.vhad g fp vd va h16 lp) := by
  intro hw
  refine ⟨fun sl bb h => ?_, fun _ _ _ h => (nomatch h)⟩
  cases h
  refine (bundle_c _ _).trans ?_
  unfold decodeC
  rw [wordX_op]
  change finish _ _ _ = _
  simp (disch := decide) only [wordX_g, wordX_r, extOf_g, extOf_e, guard_join, fld_hi, fld_lo, fld_all, Nat.reduceSub]
  rw [bits_h16, bits_h16_value]; simp [finish, hw]

theorem Laws.Codec.vred (g : BitVec 7) (fp : Bool) (op : RedOp) (vd va : VOp) (lp : BitVec 7) :
    Laws.Codec.Statement (.vred g fp op vd va lp) := by
  intro hw
  refine ⟨fun sl bb h => ?_, fun _ _ _ h => (nomatch h)⟩
  cases h
  refine (bundle_c _ _).trans ?_
  unfold decodeC
  rw [wordX_op]
  change finish _ _ _ = _
  simp (disch := decide) only [wordX_g, wordX_r, extOf_g, extOf_e, guard_join, fld_hi, fld_lo, fld_all, Nat.reduceSub]
  simp [finish, need, hw]

theorem Laws.Codec.vperm (g : BitVec 7) (vd va vb : VOp) (lp : BitVec 7) :
    Laws.Codec.Statement (.vperm g vd va vb lp) := by
  intro hw
  refine ⟨fun sl bb h => ?_, fun _ _ _ h => (nomatch h)⟩
  cases h
  refine (bundle_c _ _).trans ?_
  unfold decodeC
  rw [wordX_op]
  change finish _ _ _ = _
  simp (disch := decide) only [wordX_g, wordX_r, extOf_g, extOf_e, guard_join, fld_hi, fld_lo, fld_all, Nat.reduceSub]
  simp [finish, need, hw]

theorem Laws.Codec.vbcast (g : BitVec 7) (ty : VTy2) (vd : VOp) (s : BitVec 6) (lp : BitVec 7) :
    Laws.Codec.Statement (.vbcast g ty vd s lp) := by
  intro hw
  refine ⟨fun sl bb h => ?_, fun _ _ _ h => (nomatch h)⟩
  cases h
  refine (bundle_c _ _).trans ?_
  unfold decodeC
  rw [wordX_op]
  change finish _ _ _ = _
  simp (disch := decide) only [wordX_g, wordX_r, extOf_g, extOf_e, guard_join, fld_hi, fld_lo, fld_all, Nat.reduceSub]
  simp [finish, need, hw, fld]

theorem Laws.Codec.vrcp (g : BitVec 7) (vd va : VOp) (lp : BitVec 7) :
    Laws.Codec.Statement (.vrcp g vd va lp) := by
  intro hw
  refine ⟨fun sl bb h => ?_, fun _ _ _ h => (nomatch h)⟩
  cases h
  refine (bundle_c _ _).trans ?_
  unfold decodeC
  rw [wordX_op]
  change finish _ _ _ = _
  simp (disch := decide) only [wordX_g, wordX_r, extOf_g, extOf_e, guard_join, fld_hi, fld_lo, fld_all, Nat.reduceSub]
  simp [finish, need, hw]

theorem Laws.Codec.vrsqrt (g : BitVec 7) (vd va : VOp) (lp : BitVec 7) :
    Laws.Codec.Statement (.vrsqrt g vd va lp) := by
  intro hw
  refine ⟨fun sl bb h => ?_, fun _ _ _ h => (nomatch h)⟩
  cases h
  refine (bundle_c _ _).trans ?_
  unfold decodeC
  rw [wordX_op]
  change finish _ _ _ = _
  simp (disch := decide) only [wordX_g, wordX_r, extOf_g, extOf_e, guard_join, fld_hi, fld_lo, fld_all, Nat.reduceSub]
  simp [finish, need, hw]

theorem Laws.Codec.vexp2 (g : BitVec 7) (vd va : VOp) (lp : BitVec 7) :
    Laws.Codec.Statement (.vexp2 g vd va lp) := by
  intro hw
  refine ⟨fun sl bb h => ?_, fun _ _ _ h => (nomatch h)⟩
  cases h
  refine (bundle_c _ _).trans ?_
  unfold decodeC
  rw [wordX_op]
  change finish _ _ _ = _
  simp (disch := decide) only [wordX_g, wordX_r, extOf_g, extOf_e, guard_join, fld_hi, fld_lo, fld_all, Nat.reduceSub]
  simp [finish, need, hw]

theorem Laws.Codec.vlog2 (g : BitVec 7) (vd va : VOp) (lp : BitVec 7) :
    Laws.Codec.Statement (.vlog2 g vd va lp) := by
  intro hw
  refine ⟨fun sl bb h => ?_, fun _ _ _ h => (nomatch h)⟩
  cases h
  refine (bundle_c _ _).trans ?_
  unfold decodeC
  rw [wordX_op]
  change finish _ _ _ = _
  simp (disch := decide) only [wordX_g, wordX_r, extOf_g, extOf_e, guard_join, fld_hi, fld_lo, fld_all, Nat.reduceSub]
  simp [finish, need, hw]

theorem Laws.Codec.stb (g : BitVec 7) (n : BitVec 3) (base : BitVec 6) (c : BitVec 2) (sw : BitVec 1) :
    Laws.Codec.Statement (.stb g n base c sw) := by
  intro hw
  refine ⟨fun sl bb h => ?_, fun _ _ _ h => (nomatch h)⟩
  cases h
  refine (bundle_c _ _).trans ?_
  unfold decodeC
  rw [wordX_op]
  change finish _ _ _ = _
  simp (disch := decide) only [wordX_g, wordX_r, extOf_g, extOf_e, guard_join, fld_hi, fld_lo, fld_all, Nat.reduceSub]
  simp [finish, need, hw]

theorem Laws.Codec.stu (g : BitVec 7) (n : BitVec 3) :
    Laws.Codec.Statement (.stu g n) := by
  intro hw
  refine ⟨fun sl bb h => ?_, fun _ _ _ h => (nomatch h)⟩
  cases h
  refine (bundle_c _ _).trans ?_
  unfold decodeC
  rw [wordX_op]
  change finish _ _ _ = _
  simp (disch := decide) only [wordX_g, wordX_r, extOf_g, extOf_e, guard_join, fld_hi, fld_lo, fld_all, Nat.reduceSub]
  simp [finish, need, hw, fld]

theorem Laws.Codec.nopD (g : BitVec 7) :
    Laws.Codec.Statement (.nopD g) := by
  intro hw
  refine ⟨fun sl bb h => ?_, fun _ _ _ h => (nomatch h)⟩
  cases h
  refine (bundle_d _ _).trans ?_
  unfold decodeD
  rw [wordX_op]
  change finish _ _ _ = _
  simp (disch := decide) only [wordX_g, wordX_r, extOf_g, extOf_e, guard_join, fld_hi, fld_lo, fld_all, Nat.reduceSub]
  simp [finish, need, hw]

theorem Laws.Codec.mmLdw (g : BitVec 7) (x : MOp) (west : Bool) (k : BitVec 2) (sw : BitVec 1) :
    Laws.Codec.Statement (.mmLdw g x west k sw) := by
  intro hw
  refine ⟨fun sl bb h => ?_, fun _ _ _ h => (nomatch h)⟩
  cases h
  refine (bundle_d _ _).trans ?_
  unfold decodeD
  rw [wordX_op]
  change finish _ _ _ = _
  simp (disch := decide) only [wordX_g, wordX_r, extOf_g, extOf_e, guard_join, fld_hi, fld_lo, fld_all, Nat.reduceSub]
  rw [bits_west]; simp [finish, hw]

theorem Laws.Codec.mm (g : BitVec 7) (tile : BitVec 9) (x : MOp) (k : BitVec 2) (sw : BitVec 1) (z k16 : BitVec 1) :
    Laws.Codec.Statement (.mm g tile x k sw z k16) := by
  intro hw
  refine ⟨fun sl bb h => ?_, fun _ _ _ h => (nomatch h)⟩
  cases h
  refine (bundle_d _ _).trans ?_
  unfold decodeD
  rw [wordX_op]
  change finish _ _ _ = _
  simp (disch := decide) only [wordX_g, wordX_r, extOf_g, extOf_e, guard_join, fld_hi, fld_lo, fld_all, Nat.reduceSub]
  simp [finish, need, hw]

theorem Laws.Codec.mmChain (g : BitVec 7) (td ta : BitVec 9) (k : BitVec 2) (sw : BitVec 1) (k16 : BitVec 1) :
    Laws.Codec.Statement (.mmChain g td ta k sw k16) := by
  intro hw
  refine ⟨fun sl bb h => ?_, fun _ _ _ h => (nomatch h)⟩
  cases h
  refine (bundle_d _ _).trans ?_
  unfold decodeD
  rw [wordX_op]
  change finish _ _ _ = _
  simp (disch := decide) only [wordX_g, wordX_r, extOf_g, extOf_e, guard_join, fld_hi, fld_lo, fld_all, Nat.reduceSub]
  simp [finish, need, hw]

theorem Laws.Codec.mmZero (g : BitVec 7) (tile : BitVec 9) (i : BitVec 1) :
    Laws.Codec.Statement (.mmZero g tile i) := by
  intro hw
  refine ⟨fun sl bb h => ?_, fun _ _ _ h => (nomatch h)⟩
  cases h
  refine (bundle_d _ _).trans ?_
  unfold decodeD
  rw [wordX_op]
  change finish _ _ _ = _
  simp (disch := decide) only [wordX_g, wordX_r, extOf_g, extOf_e, guard_join, fld_hi, fld_lo, fld_all, Nat.reduceSub]
  rw [zeros_31]; simp (disch := decide) only [fld_hi, fld_lo, fld_all, Nat.reduceSub]; simp [finish, hw]

theorem Laws.Codec.mmWb (g : BitVec 7) (tile : BitVec 9) (x : MOp) (k : BitVec 2) (sw : BitVec 1) (clr : BitVec 1) :
    Laws.Codec.Statement (.mmWb g tile x k sw clr) := by
  intro hw
  refine ⟨fun sl bb h => ?_, fun _ _ _ h => (nomatch h)⟩
  cases h
  refine (bundle_d _ _).trans ?_
  unfold decodeD
  rw [wordX_op]
  change finish _ _ _ = _
  simp (disch := decide) only [wordX_g, wordX_r, extOf_g, extOf_e, guard_join, fld_hi, fld_lo, fld_all, Nat.reduceSub]
  simp [finish, need, hw]

theorem Laws.Codec.mmRd (g : BitVec 7) (tile : BitVec 9) (x : MOp) (k : BitVec 2) (sw : BitVec 1) :
    Laws.Codec.Statement (.mmRd g tile x k sw) := by
  intro hw
  refine ⟨fun sl bb h => ?_, fun _ _ _ h => (nomatch h)⟩
  cases h
  refine (bundle_d _ _).trans ?_
  unfold decodeD
  rw [wordX_op]
  simp (disch := decide) only [wordX_g, wordX_r, extOf_g, extOf_e, guard_join, fld_hi, fld_lo, fld_all, Nat.reduceSub]
  simp [finish, hw]

theorem Laws.Codec.mmRdSt (g : BitVec 7) (tile : BitVec 9) (x : BitVec 6) (clr : BitVec 1) :
    Laws.Codec.Statement (.mmRdSt g tile x clr) := by
  intro hw
  refine ⟨fun sl bb h => ?_, fun _ _ _ h => (nomatch h)⟩
  cases h
  refine (bundle_d _ _).trans ?_
  unfold decodeD
  rw [wordX_op]
  simp (disch := decide) only [wordX_g, wordX_r, extOf_g, extOf_e, guard_join, fld_hi, fld_lo, fld_all, Nat.reduceSub, MOp.field, MOp.mark]
  rcases BitVec.eq_zero_or_eq_one clr with h | h <;> subst h <;> simp [finish, hw, fld]

theorem Laws.Codec.mmFuse (g : BitVec 7) (join : BitVec 1) :
    Laws.Codec.Statement (.mmFuse g join) := by
  intro hw
  refine ⟨fun sl bb h => ?_, fun _ _ _ h => (nomatch h)⟩
  cases h
  refine (bundle_d _ _).trans ?_
  unfold decodeD
  rw [wordX_op]
  change finish _ _ _ = _
  simp (disch := decide) only [wordX_g, wordX_r, extOf_g, extOf_e, guard_join, fld_hi, fld_lo, fld_all, Nat.reduceSub]
  simp [finish, need, hw]

theorem Laws.Codec.paOpen (g : BitVec 7) (port : BitVec 2) (y z : BitVec 6) (kind : PaKind) :
    Laws.Codec.Statement (.paOpen g port y z kind) := by
  intro hw
  refine ⟨fun sl bb h => ?_, fun _ _ _ h => (nomatch h)⟩
  cases h
  refine (bundle_d _ _).trans ?_
  unfold decodeD
  rw [wordX_op]
  change finish _ _ _ = _
  simp (disch := decide) only [wordX_g, wordX_r, extOf_g, extOf_e, guard_join, fld_hi, fld_lo, fld_all, Nat.reduceSub]
  cases kind <;> simp_all [finish, need, Instr.wf, paKindBits, paKindOf, fld]

theorem Laws.Codec.paClose (g : BitVec 7) (port : BitVec 2) :
    Laws.Codec.Statement (.paClose g port) := by
  intro hw
  refine ⟨fun sl bb h => ?_, fun _ _ _ h => (nomatch h)⟩
  cases h
  refine (bundle_d _ _).trans ?_
  unfold decodeD
  rw [wordX_op]
  change finish _ _ _ = _
  simp (disch := decide) only [wordX_g, wordX_r, extOf_g, extOf_e, guard_join, fld_hi, fld_lo, fld_all, Nat.reduceSub]
  simp [finish, need, hw]

theorem Laws.Codec.paApply (g : BitVec 7) (y z : BitVec 6) :
    Laws.Codec.Statement (.paApply g y z) := by
  intro hw
  refine ⟨fun sl bb h => ?_, fun _ _ _ h => (nomatch h)⟩
  cases h
  refine (bundle_d _ _).trans ?_
  unfold decodeD
  rw [wordX_op]
  change finish _ _ _ = _
  simp (disch := decide) only [wordX_g, wordX_r, extOf_g, extOf_e, guard_join, fld_hi, fld_lo, fld_all, Nat.reduceSub]
  simp [finish, need, hw]

theorem Laws.Codec.paInv (g : BitVec 7) (y z : BitVec 6) :
    Laws.Codec.Statement (.paInv g y z) := by
  intro hw
  refine ⟨fun sl bb h => ?_, fun _ _ _ h => (nomatch h)⟩
  cases h
  refine (bundle_d _ _).trans ?_
  unfold decodeD
  rw [wordX_op]
  change finish _ _ _ = _
  simp (disch := decide) only [wordX_g, wordX_r, extOf_g, extOf_e, guard_join, fld_hi, fld_lo, fld_all, Nat.reduceSub]
  simp [finish, need, hw]

theorem Laws.Codec.paComm (g : BitVec 7) (y z : BitVec 6) :
    Laws.Codec.Statement (.paComm g y z) := by
  intro hw
  refine ⟨fun sl bb h => ?_, fun _ _ _ h => (nomatch h)⟩
  cases h
  refine (bundle_d _ _).trans ?_
  unfold decodeD
  rw [wordX_op]
  change finish _ _ _ = _
  simp (disch := decide) only [wordX_g, wordX_r, extOf_g, extOf_e, guard_join, fld_hi, fld_lo, fld_all, Nat.reduceSub]
  simp [finish, need, hw]

theorem Laws.Codec.paXplant (g : BitVec 7) (x y z : BitVec 6) :
    Laws.Codec.Statement (.paXplant g x y z) := by
  intro hw
  refine ⟨fun sl bb h => ?_, fun _ _ _ h => (nomatch h)⟩
  cases h
  refine (bundle_d _ _).trans ?_
  unfold decodeD
  rw [wordX_op]
  change finish _ _ _ = _
  simp (disch := decide) only [wordX_g, wordX_r, extOf_g, extOf_e, guard_join, fld_hi, fld_lo, fld_all, Nat.reduceSub]
  simp [finish, need, hw]

theorem Laws.Codec.paSquash (g : BitVec 7) (y z : BitVec 6) :
    Laws.Codec.Statement (.paSquash g y z) := by
  intro hw
  refine ⟨fun sl bb h => ?_, fun _ _ _ h => (nomatch h)⟩
  cases h
  refine (bundle_d _ _).trans ?_
  unfold decodeD
  rw [wordX_op]
  change finish _ _ _ = _
  simp (disch := decide) only [wordX_g, wordX_r, extOf_g, extOf_e, guard_join, fld_hi, fld_lo, fld_all, Nat.reduceSub]
  simp [finish, need, hw]

theorem Laws.Codec.paSnap (g : BitVec 7) (y : BitVec 6) (clr : BitVec 1) :
    Laws.Codec.Statement (.paSnap g y clr) := by
  intro hw
  refine ⟨fun sl bb h => ?_, fun _ _ _ h => (nomatch h)⟩
  cases h
  refine (bundle_d _ _).trans ?_
  unfold decodeD
  rw [wordX_op]
  change finish _ _ _ = _
  simp (disch := decide) only [wordX_g, wordX_r, extOf_g, extOf_e, guard_join, fld_hi, fld_lo, fld_all, Nat.reduceSub]
  simp [finish, need, hw]

theorem Laws.Codec.paDropPort (g : BitVec 7) (port : BitVec 2) :
    Laws.Codec.Statement (.paDropPort g port) := by
  intro hw
  refine ⟨fun sl bb h => ?_, fun _ _ _ h => (nomatch h)⟩
  cases h
  refine (bundle_d _ _).trans ?_
  unfold decodeD
  rw [wordX_op]
  simp (disch := decide) only [wordX_g, wordX_r, extOf_g, extOf_e, guard_join, fld_hi, fld_lo, fld_all, Nat.reduceSub, MOp.field, MOp.mark]
  simp [finish, hw]

theorem Laws.Codec.paDropClosed (g : BitVec 7) (y z : BitVec 6) :
    Laws.Codec.Statement (.paDropClosed g y z) := by
  intro hw
  refine ⟨fun sl bb h => ?_, fun _ _ _ h => (nomatch h)⟩
  cases h
  refine (bundle_d _ _).trans ?_
  unfold decodeD
  rw [wordX_op]
  simp (disch := decide) only [wordX_g, wordX_r, extOf_g, extOf_e, guard_join, fld_hi, fld_lo, fld_all, Nat.reduceSub, MOp.field, MOp.mark]
  simp [finish, hw]

theorem Laws.Codec.paQuery (g : BitVec 7) (x y z : BitVec 6) :
    Laws.Codec.Statement (.paQuery g x y z) := by
  intro hw
  refine ⟨fun sl bb h => ?_, fun _ _ _ h => (nomatch h)⟩
  cases h
  refine (bundle_d _ _).trans ?_
  unfold decodeD
  rw [wordX_op]
  change finish _ _ _ = _
  simp (disch := decide) only [wordX_g, wordX_r, extOf_g, extOf_e, guard_join, fld_hi, fld_lo, fld_all, Nat.reduceSub]
  simp [finish, need, hw]

theorem Laws.Codec.paNorm (g : BitVec 7) (x y : BitVec 6) (f : BitVec 4) :
    Laws.Codec.Statement (.paNorm g x y f) := by
  intro hw
  refine ⟨fun sl bb h => ?_, fun _ _ _ h => (nomatch h)⟩
  cases h
  refine (bundle_d _ _).trans ?_
  unfold decodeD
  rw [wordX_op]
  change finish _ _ _ = _
  simp (disch := decide) only [wordX_g, wordX_r, extOf_g, extOf_e, guard_join, fld_hi, fld_lo, fld_all, Nat.reduceSub]
  simp [finish, need, hw]

theorem Laws.Codec.grLaunch (g : BitVec 7) (scope : Scope) (y : BitVec 6) :
    Laws.Codec.Statement (.grLaunch g scope y) := by
  intro hw
  refine ⟨fun sl bb h => ?_, fun _ _ _ h => (nomatch h)⟩
  cases h
  refine (bundle_d _ _).trans ?_
  unfold decodeD
  rw [wordX_op]
  change finish _ _ _ = _
  simp (disch := decide) only [wordX_g, wordX_r, extOf_g, extOf_e, guard_join, fld_hi, fld_lo, fld_all, Nat.reduceSub]
  simp [finish, need, hw]

theorem Laws.Codec.grArrive (g : BitVec 7) (m : BitVec 4) :
    Laws.Codec.Statement (.grArrive g m) := by
  intro hw
  refine ⟨fun sl bb h => ?_, fun _ _ _ h => (nomatch h)⟩
  cases h
  refine (bundle_d _ _).trans ?_
  unfold decodeD
  rw [wordX_op]
  change finish _ _ _ = _
  simp (disch := decide) only [wordX_g, wordX_r, extOf_g, extOf_e, guard_join, fld_hi, fld_lo, fld_all, Nat.reduceSub]
  simp [finish, need, hw]

theorem Laws.Codec.grCond (g : BitVec 7) (y z : BitVec 6) :
    Laws.Codec.Statement (.grCond g y z) := by
  intro hw
  refine ⟨fun sl bb h => ?_, fun _ _ _ h => (nomatch h)⟩
  cases h
  refine (bundle_d _ _).trans ?_
  unfold decodeD
  rw [wordX_op]
  change finish _ _ _ = _
  simp (disch := decide) only [wordX_g, wordX_r, extOf_g, extOf_e, guard_join, fld_hi, fld_lo, fld_all, Nat.reduceSub]
  simp [finish, need, hw]

theorem Laws.Codec.grDone (g : BitVec 7) :
    Laws.Codec.Statement (.grDone g) := by
  intro hw
  refine ⟨fun sl bb h => ?_, fun _ _ _ h => (nomatch h)⟩
  cases h
  refine (bundle_d _ _).trans ?_
  unfold decodeD
  rw [wordX_op]
  change finish _ _ _ = _
  simp (disch := decide) only [wordX_g, wordX_r, extOf_g, extOf_e, guard_join, fld_hi, fld_lo, fld_all, Nat.reduceSub]
  simp [finish, need, hw]

theorem Laws.Codec.segPromote (g : BitVec 7) (x y z : BitVec 6) :
    Laws.Codec.Statement (.segPromote g x y z) := by
  intro hw
  refine ⟨fun sl bb h => ?_, fun _ _ _ h => (nomatch h)⟩
  cases h
  refine (bundle_d _ _).trans ?_
  unfold decodeD
  rw [wordX_op]
  change finish _ _ _ = _
  simp (disch := decide) only [wordX_g, wordX_r, extOf_g, extOf_e, guard_join, fld_hi, fld_lo, fld_all, Nat.reduceSub]
  simp [finish, need, hw]

theorem Laws.Codec.segPin (g : BitVec 7) (x y z : BitVec 6) :
    Laws.Codec.Statement (.segPin g x y z) := by
  intro hw
  refine ⟨fun sl bb h => ?_, fun _ _ _ h => (nomatch h)⟩
  cases h
  refine (bundle_d _ _).trans ?_
  unfold decodeD
  rw [wordX_op]
  change finish _ _ _ = _
  simp (disch := decide) only [wordX_g, wordX_r, extOf_g, extOf_e, guard_join, fld_hi, fld_lo, fld_all, Nat.reduceSub]
  simp [finish, need, hw]

theorem Laws.Codec.segUnpin (g : BitVec 7) (x y z : BitVec 6) :
    Laws.Codec.Statement (.segUnpin g x y z) := by
  intro hw
  refine ⟨fun sl bb h => ?_, fun _ _ _ h => (nomatch h)⟩
  cases h
  refine (bundle_d _ _).trans ?_
  unfold decodeD
  rw [wordX_op]
  change finish _ _ _ = _
  simp (disch := decide) only [wordX_g, wordX_r, extOf_g, extOf_e, guard_join, fld_hi, fld_lo, fld_all, Nat.reduceSub]
  simp [finish, need, hw]

theorem Laws.Codec.segDemote (g : BitVec 7) (x y z : BitVec 6) :
    Laws.Codec.Statement (.segDemote g x y z) := by
  intro hw
  refine ⟨fun sl bb h => ?_, fun _ _ _ h => (nomatch h)⟩
  cases h
  refine (bundle_d _ _).trans ?_
  unfold decodeD
  rw [wordX_op]
  change finish _ _ _ = _
  simp (disch := decide) only [wordX_g, wordX_r, extOf_g, extOf_e, guard_join, fld_hi, fld_lo, fld_all, Nat.reduceSub]
  simp [finish, need, hw]

theorem Laws.Codec.segQuery (g : BitVec 7) (x y : BitVec 6) :
    Laws.Codec.Statement (.segQuery g x y) := by
  intro hw
  refine ⟨fun sl bb h => ?_, fun _ _ _ h => (nomatch h)⟩
  cases h
  refine (bundle_d _ _).trans ?_
  unfold decodeD
  rw [wordX_op]
  change finish _ _ _ = _
  simp (disch := decide) only [wordX_g, wordX_r, extOf_g, extOf_e, guard_join, fld_hi, fld_lo, fld_all, Nat.reduceSub]
  simp [finish, need, hw]

theorem Laws.Codec.bringupStage (err : BitVec 8) :
    Laws.Codec.Statement (.bringupStage err) := by
  exact fun _ => ⟨fun _ _ h => (nomatch h), fun _ _ _ h => (nomatch h)⟩

theorem Laws.Codec.clockReplan (mhz : Nat) :
    Laws.Codec.Statement (.clockReplan mhz) := by
  exact fun _ => ⟨fun _ _ h => (nomatch h), fun _ _ _ h => (nomatch h)⟩

theorem Laws.Codec.registerWrite (f : Nat) (off : Nat) (v : Word) :
    Laws.Codec.Statement (.registerWrite f off v) := by
  exact fun _ => ⟨fun _ _ h => (nomatch h), fun _ _ _ h => (nomatch h)⟩

theorem Laws.Codec.hostMemRd (dec : Nat) (addr : Word) :
    Laws.Codec.Statement (.hostMemRd dec addr) := by
  exact fun _ => ⟨fun _ _ h => (nomatch h), fun _ _ _ h => (nomatch h)⟩

theorem Laws.Codec.hostMemWr (dec : Nat) (addr : Word) (data : BitVec 512) :
    Laws.Codec.Statement (.hostMemWr dec addr data) := by
  exact fun _ => ⟨fun _ _ h => (nomatch h), fun _ _ _ h => (nomatch h)⟩

theorem Laws.Codec.hostMemWrPtl (dec : Nat) (addr : Word) (data : BitVec 512) (mask : BitVec 64) :
    Laws.Codec.Statement (.hostMemWrPtl dec addr data mask) := by
  exact fun _ => ⟨fun _ _ h => (nomatch h), fun _ _ _ h => (nomatch h)⟩

theorem Laws.Codec.hostBisnpinvResponse (line : Nat) :
    Laws.Codec.Statement (.hostBisnpinvResponse line) := by
  exact fun _ => ⟨fun _ _ h => (nomatch h), fun _ _ _ h => (nomatch h)⟩

theorem Laws.Codec.hostCacheSnoop (addr : Word) :
    Laws.Codec.Statement (.hostCacheSnoop addr) := by
  exact fun _ => ⟨fun _ _ h => (nomatch h), fun _ _ _ h => (nomatch h)⟩

theorem Laws.Codec.tdispLockInterface (vf : Nat) :
    Laws.Codec.Statement (.tdispLockInterface vf) := by
  exact fun _ => ⟨fun _ _ h => (nomatch h), fun _ _ _ h => (nomatch h)⟩

theorem Laws.Codec.tdispStartInterface (vf : Nat) :
    Laws.Codec.Statement (.tdispStartInterface vf) := by
  exact fun _ => ⟨fun _ _ h => (nomatch h), fun _ _ _ h => (nomatch h)⟩

theorem Laws.Codec.tdispStopInterface (vf : Nat) :
    Laws.Codec.Statement (.tdispStopInterface vf) := by
  exact fun _ => ⟨fun _ _ h => (nomatch h), fun _ _ _ h => (nomatch h)⟩

theorem Laws.Codec.tdiLockedRegisterWrite (vf : Nat) (reg : Nat) (v : Word) :
    Laws.Codec.Statement (.tdiLockedRegisterWrite vf reg v) := by
  exact fun _ => ⟨fun _ _ h => (nomatch h), fun _ _ _ h => (nomatch h)⟩

theorem Laws.Codec.portTrained (port : Nat) (peer : Peer) :
    Laws.Codec.Statement (.portTrained port peer) := by
  exact fun _ => ⟨fun _ _ h => (nomatch h), fun _ _ _ h => (nomatch h)⟩

theorem Laws.Codec.portPeerSilent (port : Nat) :
    Laws.Codec.Statement (.portPeerSilent port) := by
  exact fun _ => ⟨fun _ _ h => (nomatch h), fun _ _ _ h => (nomatch h)⟩

theorem Laws.Codec.flitCrcReplay (port : Nat) :
    Laws.Codec.Statement (.flitCrcReplay port) := by
  exact fun _ => ⟨fun _ _ h => (nomatch h), fun _ _ _ h => (nomatch h)⟩

theorem Laws.Codec.deviceUnreachable (dev : Nat) :
    Laws.Codec.Statement (.deviceUnreachable dev) := by
  exact fun _ => ⟨fun _ _ h => (nomatch h), fun _ _ _ h => (nomatch h)⟩

theorem Laws.Codec.swredContribution (grp : Nat) (off : Nat) (data : BitVec 512) :
    Laws.Codec.Statement (.swredContribution grp off data) := by
  exact fun _ => ⟨fun _ _ h => (nomatch h), fun _ _ _ h => (nomatch h)⟩

theorem Laws.Codec.warmReset :
    Laws.Codec.Statement (.warmReset) := by
  exact fun _ => ⟨fun _ _ h => (nomatch h), fun _ _ _ h => (nomatch h)⟩

theorem Laws.Codec.coldReset :
    Laws.Codec.Statement (.coldReset) := by
  exact fun _ => ⟨fun _ _ h => (nomatch h), fun _ _ _ h => (nomatch h)⟩

theorem Laws.Codec.hostLinkTraining (width : LinkWidth) (rate : LinkRate) :
    Laws.Codec.Statement (.hostLinkTraining width rate) := by
  exact fun _ => ⟨fun _ _ h => (nomatch h), fun _ _ _ h => (nomatch h)⟩

theorem Laws.Codec.spdmSessionMessage (msg : Word) :
    Laws.Codec.Statement (.spdmSessionMessage msg) := by
  exact fun _ => ⟨fun _ _ h => (nomatch h), fun _ _ _ h => (nomatch h)⟩

theorem Laws.Codec.ccreate (f : Nat) (ctx owner fring flog notify grace kill ksl : Word) :
    Laws.Codec.Statement (.ccreate f ctx owner fring flog notify grace kill ksl) := by
  intro _
  refine ⟨fun _ _ h => (nomatch h), fun _ _ _ h => ?_⟩
  cases h
  exact ⟨rfl, rfl⟩

theorem Laws.Codec.cset (f : Nat) (ctx grace kill : Word) :
    Laws.Codec.Statement (.cset f ctx grace kill) := by
  intro _
  refine ⟨fun _ _ h => (nomatch h), fun _ _ _ h => ?_⟩
  cases h
  exact ⟨rfl, rfl⟩

theorem Laws.Codec.carea (f : Nat) (ctx gh addr : Word) :
    Laws.Codec.Statement (.carea f ctx gh addr) := by
  intro _
  refine ⟨fun _ _ h => (nomatch h), fun _ _ _ h => ?_⟩
  cases h
  exact ⟨rfl, rfl⟩

theorem Laws.Codec.cwin (f : Nat) (ctx die base count : Word) :
    Laws.Codec.Statement (.cwin f ctx die base count) := by
  intro _
  refine ⟨fun _ _ h => (nomatch h), fun _ _ _ h => ?_⟩
  cases h
  exact ⟨rfl, rfl⟩

theorem Laws.Codec.climit (f : Nat) (ctx kind lines : Word) :
    Laws.Codec.Statement (.climit f ctx kind lines) := by
  intro _
  refine ⟨fun _ _ h => (nomatch h), fun _ _ _ h => ?_⟩
  cases h
  exact ⟨rfl, rfl⟩

theorem Laws.Codec.cpreempt (f : Nat) (ctx gh grace : Word) :
    Laws.Codec.Statement (.cpreempt f ctx gh grace) := by
  intro _
  refine ⟨fun _ _ h => (nomatch h), fun _ _ _ h => ?_⟩
  cases h
  exact ⟨rfl, rfl⟩

theorem Laws.Codec.cresume (f : Nat) (ctx seq pc : Word) :
    Laws.Codec.Statement (.cresume f ctx seq pc) := by
  intro _
  refine ⟨fun _ _ h => (nomatch h), fun _ _ _ h => ?_⟩
  cases h
  exact ⟨rfl, rfl⟩

theorem Laws.Codec.ckill (f : Nat) (ctx : Word) :
    Laws.Codec.Statement (.ckill f ctx) := by
  intro _
  refine ⟨fun _ _ h => (nomatch h), fun _ _ _ h => ?_⟩
  cases h
  exact ⟨rfl, rfl⟩

theorem Laws.Codec.ckey (f : Nat) (slot keys : Word) :
    Laws.Codec.Statement (.ckey f slot keys) := by
  intro _
  refine ⟨fun _ _ h => (nomatch h), fun _ _ _ h => ?_⟩
  cases h
  exact ⟨rfl, rfl⟩

theorem Laws.Codec.cdestroy (f : Nat) (ctx list count : Word) :
    Laws.Codec.Statement (.cdestroy f ctx list count) := by
  intro _
  refine ⟨fun _ _ h => (nomatch h), fun _ _ _ h => ?_⟩
  cases h
  exact ⟨rfl, rfl⟩

theorem Laws.Codec.cread (f : Nat) (ctx : Word) :
    Laws.Codec.Statement (.cread f ctx) := by
  intro _
  refine ⟨fun _ _ h => (nomatch h), fun _ _ _ h => ?_⟩
  cases h
  exact ⟨rfl, rfl⟩

theorem Laws.Codec.qcreate (f : Nat) (n ctx prio ring lsize cpool : Word) :
    Laws.Codec.Statement (.qcreate f n ctx prio ring lsize cpool) := by
  intro _
  refine ⟨fun _ _ h => (nomatch h), fun _ _ _ h => ?_⟩
  cases h
  exact ⟨rfl, rfl⟩

theorem Laws.Codec.qset (f : Nat) (n prio : Word) :
    Laws.Codec.Statement (.qset f n prio) := by
  intro _
  refine ⟨fun _ _ h => (nomatch h), fun _ _ _ h => ?_⟩
  cases h
  exact ⟨rfl, rfl⟩

theorem Laws.Codec.qpause (f : Nat) (n : Word) :
    Laws.Codec.Statement (.qpause f n) := by
  intro _
  refine ⟨fun _ _ h => (nomatch h), fun _ _ _ h => ?_⟩
  cases h
  exact ⟨rfl, rfl⟩

theorem Laws.Codec.qresume (f : Nat) (n : Word) :
    Laws.Codec.Statement (.qresume f n) := by
  intro _
  refine ⟨fun _ _ h => (nomatch h), fun _ _ _ h => ?_⟩
  cases h
  exact ⟨rfl, rfl⟩

theorem Laws.Codec.qreset (f : Nat) (n : Word) :
    Laws.Codec.Statement (.qreset f n) := by
  intro _
  refine ⟨fun _ _ h => (nomatch h), fun _ _ _ h => ?_⟩
  cases h
  exact ⟨rfl, rfl⟩

theorem Laws.Codec.qdestroy (f : Nat) (n : Word) :
    Laws.Codec.Statement (.qdestroy f n) := by
  intro _
  refine ⟨fun _ _ h => (nomatch h), fun _ _ _ h => ?_⟩
  cases h
  exact ⟨rfl, rfl⟩

theorem Laws.Codec.ownset (f : Nat) (owner w : Word) :
    Laws.Codec.Statement (.ownset f owner w) := by
  intro _
  refine ⟨fun _ _ h => (nomatch h), fun _ _ _ h => ?_⟩
  cases h
  exact ⟨rfl, rfl⟩

theorem Laws.Codec.qread (f : Nat) (n : Word) :
    Laws.Codec.Statement (.qread f n) := by
  intro _
  refine ⟨fun _ _ h => (nomatch h), fun _ _ _ h => ?_⟩
  cases h
  exact ⟨rfl, rfl⟩

theorem Laws.Codec.gcreate (f : Nat) (core mask owner : Word) :
    Laws.Codec.Statement (.gcreate f core mask owner) := by
  intro _
  refine ⟨fun _ _ h => (nomatch h), fun _ _ _ h => ?_⟩
  cases h
  exact ⟨rfl, rfl⟩

theorem Laws.Codec.gdestroy (f : Nat) (gh : Word) :
    Laws.Codec.Statement (.gdestroy f gh) := by
  intro _
  refine ⟨fun _ _ h => (nomatch h), fun _ _ _ h => ?_⟩
  cases h
  exact ⟨rfl, rfl⟩

theorem Laws.Codec.gbind (f : Nat) (gh ctx : Word) :
    Laws.Codec.Statement (.gbind f gh ctx) := by
  intro _
  refine ⟨fun _ _ h => (nomatch h), fun _ _ _ h => ?_⟩
  cases h
  exact ⟨rfl, rfl⟩

theorem Laws.Codec.gunbind (f : Nat) (gh ctx : Word) :
    Laws.Codec.Statement (.gunbind f gh ctx) := by
  intro _
  refine ⟨fun _ _ h => (nomatch h), fun _ _ _ h => ?_⟩
  cases h
  exact ⟨rfl, rfl⟩

theorem Laws.Codec.lend (f : Nat) (gh borrower : Word) :
    Laws.Codec.Statement (.lend f gh borrower) := by
  intro _
  refine ⟨fun _ _ h => (nomatch h), fun _ _ _ h => ?_⟩
  cases h
  exact ⟨rfl, rfl⟩

theorem Laws.Codec.recallGroup (f : Nat) (gh : Word) :
    Laws.Codec.Statement (.recallGroup f gh) := by
  intro _
  refine ⟨fun _ _ h => (nomatch h), fun _ _ _ h => ?_⟩
  cases h
  exact ⟨rfl, rfl⟩

theorem Laws.Codec.gread (f : Nat) (gh : Word) :
    Laws.Codec.Statement (.gread f gh) := by
  intro _
  refine ⟨fun _ _ h => (nomatch h), fun _ _ _ h => ?_⟩
  cases h
  exact ⟨rfl, rfl⟩

theorem Laws.Codec.vmroot (f : Nat) (ctx root1 root2 : Word) :
    Laws.Codec.Statement (.vmroot f ctx root1 root2) := by
  intro _
  refine ⟨fun _ _ h => (nomatch h), fun _ _ _ h => ?_⟩
  cases h
  exact ⟨rfl, rfl⟩

theorem Laws.Codec.s2map (f : Nat) (ctx ipa pa size r w x nc ksl : Word) :
    Laws.Codec.Statement (.s2map f ctx ipa pa size r w x nc ksl) := by
  intro _
  refine ⟨fun _ _ h => (nomatch h), fun _ _ _ h => ?_⟩
  cases h
  exact ⟨rfl, rfl⟩

theorem Laws.Codec.s2unmap (f : Nat) (ctx ipa size : Word) :
    Laws.Codec.Statement (.s2unmap f ctx ipa size) := by
  intro _
  refine ⟨fun _ _ h => (nomatch h), fun _ _ _ h => ?_⟩
  cases h
  exact ⟨rfl, rfl⟩

theorem Laws.Codec.s2clean (f : Nat) (ctx ipa size : Word) :
    Laws.Codec.Statement (.s2clean f ctx ipa size) := by
  intro _
  refine ⟨fun _ _ h => (nomatch h), fun _ _ _ h => ?_⟩
  cases h
  exact ⟨rfl, rfl⟩

theorem Laws.Codec.tlbinv (f : Nat) (ctx stage base len : Word) :
    Laws.Codec.Statement (.tlbinv f ctx stage base len) := by
  intro _
  refine ⟨fun _ _ h => (nomatch h), fun _ _ _ h => ?_⟩
  cases h
  exact ⟨rfl, rfl⟩

theorem Laws.Codec.frset (f : Nat) (stack size : Word) :
    Laws.Codec.Statement (.frset f stack size) := by
  intro _
  refine ⟨fun _ _ h => (nomatch h), fun _ _ _ h => ?_⟩
  cases h
  exact ⟨rfl, rfl⟩

theorem Laws.Codec.segquota (f : Nat) (ctx quota : Word) :
    Laws.Codec.Statement (.segquota f ctx quota) := by
  intro _
  refine ⟨fun _ _ h => (nomatch h), fun _ _ _ h => ?_⟩
  cases h
  exact ⟨rfl, rfl⟩

theorem Laws.Codec.mscset (f : Nat) (die vd cls mask rp wp ap : Word) :
    Laws.Codec.Statement (.mscset f die vd cls mask rp wp ap) := by
  intro _
  refine ⟨fun _ _ h => (nomatch h), fun _ _ _ h => ?_⟩
  cases h
  exact ⟨rfl, rfl⟩

theorem Laws.Codec.hmove (f : Nat) (leaf pa : Word) :
    Laws.Codec.Statement (.hmove f leaf pa) := by
  intro _
  refine ⟨fun _ _ h => (nomatch h), fun _ _ _ h => ?_⟩
  cases h
  exact ⟨rfl, rfl⟩

theorem Laws.Codec.hdmset (f : Nat) (dec hbase size pa vd tdi : Word) :
    Laws.Codec.Statement (.hdmset f dec hbase size pa vd tdi) := by
  intro _
  refine ⟨fun _ _ h => (nomatch h), fun _ _ _ h => ?_⟩
  cases h
  exact ⟨rfl, rfl⟩

theorem Laws.Codec.tdibind (f : Nat) (vf ctx : Word) :
    Laws.Codec.Statement (.tdibind f vf ctx) := by
  intro _
  refine ⟨fun _ _ h => (nomatch h), fun _ _ _ h => ?_⟩
  cases h
  exact ⟨rfl, rfl⟩

theorem Laws.Codec.lnkdom (f : Nat) (dev table : Word) :
    Laws.Codec.Statement (.lnkdom f dev table) := by
  intro _
  refine ⟨fun _ _ h => (nomatch h), fun _ _ _ h => ?_⟩
  cases h
  exact ⟨rfl, rfl⟩

theorem Laws.Codec.poolset (f : Nat) (win kind target size vd : Word) :
    Laws.Codec.Statement (.poolset f win kind target size vd) := by
  intro _
  refine ⟨fun _ _ h => (nomatch h), fun _ _ _ h => ?_⟩
  cases h
  exact ⟨rfl, rfl⟩

theorem Laws.Codec.swred (f : Nat) (switch grp n span dest handle : Word) :
    Laws.Codec.Statement (.swred f switch grp n span dest handle) := by
  intro _
  refine ⟨fun _ _ h => (nomatch h), fun _ _ _ h => ?_⟩
  cases h
  exact ⟨rfl, rfl⟩

theorem Laws.Codec.domfault (f : Nat) (dev : Word) :
    Laws.Codec.Statement (.domfault f dev) := by
  intro _
  refine ⟨fun _ _ h => (nomatch h), fun _ _ _ h => ?_⟩
  cases h
  exact ⟨rfl, rfl⟩

theorem Laws.Codec.ownnew (f : Nat) (owner vf : Word) :
    Laws.Codec.Statement (.ownnew f owner vf) := by
  intro _
  refine ⟨fun _ _ h => (nomatch h), fun _ _ _ h => ?_⟩
  cases h
  exact ⟨rfl, rfl⟩

theorem Laws.Codec.owndel (f : Nat) (owner : Word) :
    Laws.Codec.Statement (.owndel f owner) := by
  intro _
  refine ⟨fun _ _ h => (nomatch h), fun _ _ _ h => ?_⟩
  cases h
  exact ⟨rfl, rfl⟩

theorem Laws.Codec.readback (f : Nat) (cls inst off len buf : Word) :
    Laws.Codec.Statement (.readback f cls inst off len buf) := by
  intro _
  refine ⟨fun _ _ h => (nomatch h), fun _ _ _ h => ?_⟩
  cases h
  exact ⟨rfl, rfl⟩

theorem Laws.Codec.usage (f : Nat) (owner nonce buf : Word) :
    Laws.Codec.Statement (.usage f owner nonce buf) := by
  intro _
  refine ⟨fun _ _ h => (nomatch h), fun _ _ _ h => ?_⟩
  cases h
  exact ⟨rfl, rfl⟩

theorem Laws.Codec.idget (f : Nat) (buf len : Word) :
    Laws.Codec.Statement (.idget f buf len) := by
  intro _
  refine ⟨fun _ _ h => (nomatch h), fun _ _ _ h => ?_⟩
  cases h
  exact ⟨rfl, rfl⟩

theorem Laws.Codec.attest (f : Nat) (nonce buf : Word) :
    Laws.Codec.Statement (.attest f nonce buf) := by
  intro _
  refine ⟨fun _ _ h => (nomatch h), fun _ _ _ h => ?_⟩
  cases h
  exact ⟨rfl, rfl⟩

theorem Laws.Codec.keyx (f : Nat) (key buf : Word) :
    Laws.Codec.Statement (.keyx f key buf) := by
  intro _
  refine ⟨fun _ _ h => (nomatch h), fun _ _ _ h => ?_⟩
  cases h
  exact ⟨rfl, rfl⟩

theorem Laws.Codec.margin (f : Nat) (buf : Word) :
    Laws.Codec.Statement (.margin f buf) := by
  intro _
  refine ⟨fun _ _ h => (nomatch h), fun _ _ _ h => ?_⟩
  cases h
  exact ⟨rfl, rfl⟩

theorem Laws.Codec.errlog (f : Nat) (buf len clear : Word) :
    Laws.Codec.Statement (.errlog f buf len clear) := by
  intro _
  refine ⟨fun _ _ h => (nomatch h), fun _ _ _ h => ?_⟩
  cases h
  exact ⟨rfl, rfl⟩

theorem Laws.Codec.scrread (f : Nat) (die : Word) :
    Laws.Codec.Statement (.scrread f die) := by
  intro _
  refine ⟨fun _ _ h => (nomatch h), fun _ _ _ h => ?_⟩
  cases h
  exact ⟨rfl, rfl⟩

theorem Laws.Codec.fwinfo (f : Nat) :
    Laws.Codec.Statement (.fwinfo f) := by
  intro _
  refine ⟨fun _ _ h => (nomatch h), fun _ _ _ h => ?_⟩
  cases h
  exact ⟨rfl, rfl⟩

theorem Laws.Codec.halovf (f : Nat) (die pa count : Word) :
    Laws.Codec.Statement (.halovf f die pa count) := by
  intro _
  refine ⟨fun _ _ h => (nomatch h), fun _ _ _ h => ?_⟩
  cases h
  exact ⟨rfl, rfl⟩

end Sys2Proof
end

