-- ==== Sys2Proof/Safety.lean ====
section
/-! DEFINITION. The terms in which statements are made: what a step leaves alone, what a core reads at an address, and the
invariants that every step keeps. -/

namespace Sys2Proof.Machine

/-! ### Invariants -/

/-- Every memory of the module and of its neighbours stands in its canonical form. -/
def State.memOk (s : State) : Bool := Mem.wf s.mem.dram && Mem.wf s.mem.host && Mem.wf s.mem.pool

/-! ### Reading a byte -/

/-- A line as an L2 shows it to its cluster: its own bytes, those of a scoped copy over them, and the home's where it has none
(spec/07 R161, spec/08 R193). -/
def State.l2Seen (s : State) (r l : Nat) : BitVec 512 :=
  s.overScoped r l (match s.l2 r l with
    | some c => if c.have_ = BitVec.allOnes 64 then c.data else blend c.dirty c.data (s.homeData l)
    | none => s.homeData l)

/-- A line as the L1 of a core shows it to a context for one byte: the L1's own byte while it is fresh or dirty, else the L2's
(spec/08 R187). -/
def State.l1Seen (s : State) (core l ctx byte : Nat) : BitVec 512 :=
  match s.l1 core l ctx with
  | some x =>
    if (x.fresh (s.core core).gen && x.have_.getLsbD byte) || x.dirty.getLsbD byte then x.data
    else blend x.dirty x.data (s.l2Seen (clusterOfCore core) l)
  | none => s.l2Seen (clusterOfCore core) l

/-- The byte of memory that a plain load of a core finds at a physical address for a context. -/
def State.byteSeen (s : State) (core ctx pa : Nat) : Byte :=
  (takeAt (s.l1Seen core (lineOf pa) ctx (pa % 64)) (pa % 64) 1).setWidth 8

/-! ### What a step leaves alone -/

/-- Every part of the module but its sequencers and the model's cursor: cores with their caches, scratchpads, tiles, buffers and
copy channels; clusters; dies with their pennants; memory; contexts, groups, queues, owners, launches; Masthead and the link. -/
structure State.sameModule (s t : State) : Prop where
  cores : t.cores = s.cores
  clusters : t.clusters = s.clusters
  dies : t.dies = s.dies
  mem : t.mem = s.mem
  hal : t.hal = s.hal
  ctxs : t.ctxs = s.ctxs
  groups : t.groups = s.groups
  queues : t.queues = s.queues
  owners : t.owners = s.owners
  cursors : t.cursors = s.cursors
  served : t.served = s.served
  launches : t.launches = s.launches
  mast : t.mast = s.mast
  link : t.link = s.link
  /-- Every byte of memory reads as before, for every core and context. -/
  byte : ∀ core ctx pa, t.byteSeen core ctx pa = s.byteSeen core ctx pa

/-- Every sequencer but one stands. -/
def State.sameOthers (s t : State) (q : Nat) : Prop := ∀ p, p ≠ q → t.seq p = s.seq p

/-- Registers of a sequencer but those named: scalar, predicate and vector registers, streams, c shapes and k shapes. -/
structure Regs.sameBut (r u : Regs) (ss : List (BitVec 6)) (ps : List (BitVec 7)) (vs : List (BitVec 5)) (qs : List (BitVec 3)) :
    Prop where
  scalar : ∀ n, n ∉ ss → u.getS n = r.getS n
  predicate : ∀ n, n ∉ ps → u.getP n = r.getP n
  vector : ∀ n, n ∉ vs → u.getV n = r.getV n
  stream : ∀ n, n ∉ qs → u.getQ n = r.getQ n
  shapeC : ∀ n, u.getC n = r.getC n
  shadowC : ∀ n, u.getCsh n = r.getCsh n
  shapeK : ∀ n, u.getK n = r.getK n
  shadowK : ∀ n, u.getKsh n = r.getKsh n

/-- The control state of a sequencer but for what the issue of a slot keeps of it: the window and the put-off slots. Among what
stands are the program counter of the window's end, the loop stack, the region and cr.fmt with its flags. -/
def Ctl.sameBut (c d : Ctl) : Prop := d = { c with window := d.window, late := d.late }

/-- What a sequencer has under way, but for its D-time, which counts the issue cycles of queue D. -/
def Flight.sameBut (f g : Flight) : Prop := g = { f with dtime := g.dtime }

/-- A slot instruction that only writes registers: it has issued, and all else stands. -/
structure State.onlyRegs (s t : State) (ss : List (BitVec 6)) (ps : List (BitVec 7)) (vs : List (BitVec 5)) (qs : List (BitVec 3)) :
    Prop where
  regs : s.me.r.sameBut t.me.r ss ps vs qs
  ctl : s.me.c.sameBut t.me.c
  flight : s.me.f.sameBut t.me.f
  issued : t.me.c.window = (s.me.retire s.cur.bn s.cur.slot 1).c.window
  others : s.sameOthers t s.cur.seq
  cur : t.cur.seq = s.cur.seq
  module : s.sameModule t

end Sys2Proof.Machine
end

