-- ==== Sys2Proof/Certificates/Slice0/Obligations.lean ====
section
/-! DEFINITION. The statements for the provers, family by family. A statement about an instruction says what the next state is, or
what it holds, and what it leaves alone. -/

open Sys2Proof Sys2Proof.Machine


/-! ### Scalar work (spec/03 R55 to R66, R86) -/

/-- The guard, the destination and the value of a scalar instruction that writes one scalar register, read from the tables of
spec/03 R56, R58 to R62 and R67, R86. -/
def Sys2Proof.Stmt.scalarResult (s : State) : Instr → Option (BitVec 7 × BitVec 6 × Word)
  | .addAr g d a b => some (g.setWidth 7, d, s.rs a + s.rs b)
  | .subAr g d a b => some (g.setWidth 7, d, s.rs a - s.rs b)
  | .mul g d a b => some (g.setWidth 7, d, s.rs a * s.rs b)
  | .andAr g d a b => some (g.setWidth 7, d, s.rs a &&& s.rs b)
  | .orAr g d a b => some (g.setWidth 7, d, s.rs a ||| s.rs b)
  | .xorAr g d a b => some (g.setWidth 7, d, s.rs a ^^^ s.rs b)
  | .shlAr g d a b => some (g.setWidth 7, d, s.rs a <<< ((s.rs b).extractLsb' 0 6).toNat)
  | .shrAr g d a b => some (g.setWidth 7, d, s.rs a >>> ((s.rs b).extractLsb' 0 6).toNat)
  | .sraAr g d a b => some (g.setWidth 7, d, (s.rs a).sshiftRight ((s.rs b).extractLsb' 0 6).toNat)
  | .min g d a b => some (g.setWidth 7, d, if (s.rs a).toInt ≤ (s.rs b).toInt then s.rs a else s.rs b)
  | .max g d a b => some (g.setWidth 7, d, if (s.rs b).toInt ≤ (s.rs a).toInt then s.rs a else s.rs b)
  | .minu g d a b => some (g.setWidth 7, d, if (s.rs a).toNat ≤ (s.rs b).toNat then s.rs a else s.rs b)
  | .maxu g d a b => some (g.setWidth 7, d, if (s.rs b).toNat ≤ (s.rs a).toNat then s.rs a else s.rs b)
  | .addAi g d a i => some (g.setWidth 7, d, s.rs a + i.signExtend 64)
  | .andAi g d a i => some (g.setWidth 7, d, s.rs a &&& i.signExtend 64)
  | .orAi g d a i => some (g.setWidth 7, d, s.rs a ||| i.signExtend 64)
  | .xorAi g d a i => some (g.setWidth 7, d, s.rs a ^^^ i.signExtend 64)
  | .shlAi g d a i => if i.toNat < 64 then some (g.setWidth 7, d, s.rs a <<< i.toNat) else none
  | .shrAi g d a i => if i.toNat < 64 then some (g.setWidth 7, d, s.rs a >>> i.toNat) else none
  | .sraAi g d a i => if i.toNat < 64 then some (g.setWidth 7, d, (s.rs a).sshiftRight i.toNat) else none
  | .moviAw g d i => some (g.setWidth 7, d, i.signExtend 64)
  | .addB3 g x y z => some (g, x, s.rs y + s.rs z)
  | .subB3 g x y z => some (g, x, s.rs y - s.rs z)
  | .andB3 g x y z => some (g, x, s.rs y &&& s.rs z)
  | .orB3 g x y z => some (g, x, s.rs y ||| s.rs z)
  | .xorB3 g x y z => some (g, x, s.rs y ^^^ s.rs z)
  | .shlB3 g x y z => some (g, x, s.rs y <<< ((s.rs z).extractLsb' 0 6).toNat)
  | .shrB3 g x y z => some (g, x, s.rs y >>> ((s.rs z).extractLsb' 0 6).toNat)
  | .sraB3 g x y z => some (g, x, (s.rs y).sshiftRight ((s.rs z).extractLsb' 0 6).toNat)
  | .lea g x y z sh => some (g, x, s.rs y + s.rs z * BitVec.ofNat 64 (2 ^ sh.toNat))
  | .sel g x n y z => some (g, x, if (s.rp n).getLsbD 0 then s.rs y else s.rs z)
  | .addBi g x y i => some (g, x, s.rs y + i.signExtend 64)
  | .moviBw g x i => some (g, x, i.signExtend 64)
  | .movhi g x i => some (g, x, (s.rs x).extractLsb' 0 48 ++ i)
  | .sysRd g d num => some (g.setWidth 7, d, s.sysValue s.cur.seq s.cur.bn s.cur.addr num.toNat)
  | _ => none

/-- The value goes to the destination, and s0 stays zero (spec/03 R55). -/
def Obligations.ScalarWritesOneRegister : Prop :=
  ∀ (i : Instr) (s : State) (g : BitVec 7) (d : BitVec 6) (w : Word),
    Stmt.scalarResult s i = some (g, d, w) → s.guardOn g = true →
    ∃ t, exec i s = .next t ∧ t.rs d = (if d = 0#6 then 0#64 else w) ∧ s.onlyRegs t [d] [] [] []

/-- The products of mulh and mulhu and the counts of clz and popc, through integers (spec/03 R56). -/
def Obligations.HighProductsAndBitCounts : Prop :=
  ∀ (s : State) (g : BitVec 4) (d a b : BitVec 6), s.guardA g = true →
    (∃ t, exec (.mulh g d a b) s = .next t ∧ s.onlyRegs t [d] [] [] [] ∧
      (d ≠ 0#6 → (t.rs d).toInt = (s.rs a).toInt * (s.rs b).toInt / 2 ^ 64)) ∧
    (∃ t, exec (.mulhu g d a b) s = .next t ∧ s.onlyRegs t [d] [] [] [] ∧
      (d ≠ 0#6 → (t.rs d).toNat = (s.rs a).toNat * (s.rs b).toNat / 2 ^ 64)) ∧
    (∃ t, exec (.clz g d a) s = .next t ∧ s.onlyRegs t [d] [] [] [] ∧
      (d ≠ 0#6 → (t.rs d).toNat ≤ 64 ∧ (s.rs a).toNat < 2 ^ (64 - (t.rs d).toNat) ∧
        ((t.rs d).toNat < 64 → 2 ^ (63 - (t.rs d).toNat) ≤ (s.rs a).toNat))) ∧
    (∃ t, exec (.popc g d a) s = .next t ∧ s.onlyRegs t [d] [] [] [] ∧
      (d ≠ 0#6 → (t.rs d).toNat = ((List.range 64).filter fun n => (s.rs a).getLsbD n).length))

/-- Bit by bit (spec/03 R61). -/
def Obligations.BitFieldMoves : Prop :=
  ∀ (s : State) (g : BitVec 7) (x y pos wm1 : BitVec 6), s.guardOn g = true → pos.toNat + wm1.toNat + 1 ≤ 64 →
    (∃ t, exec (.extB g x y pos wm1) s = .next t ∧ s.onlyRegs t [x] [] [] [] ∧
      (x ≠ 0#6 → ∀ n, (t.rs x).getLsbD n = (decide (n ≤ wm1.toNat) && (s.rs y).getLsbD (pos.toNat + n)))) ∧
    (∃ t, exec (.insB g x y pos wm1) s = .next t ∧ s.onlyRegs t [x] [] [] [] ∧
      (x ≠ 0#6 → ∀ n, n < 64 → (t.rs x).getLsbD n =
        if pos.toNat ≤ n ∧ n ≤ pos.toNat + wm1.toNat then (s.rs y).getLsbD (n - pos.toNat) else (s.rs x).getLsbD n))

/-- The quotient through integers, with the two corners of spec/03 R57. -/
def Obligations.DivideDeliversQuotient : Prop :=
  (∀ (s : State) (g : BitVec 4) (d a b : BitVec 6), s.guardA g = true → s.me.f.divu = none →
    ∀ i signed, (i, signed) ∈ [(Instr.div g d a b, true), (Instr.divu g d a b, false)] →
    ∃ t, exec i s = .next t ∧
      t.me.f.divu = some { dividend := s.rs a, divisor := s.rs b, signed := signed, dest := d } ∧
      t.me.r = s.me.r ∧ s.me.c.sameBut t.me.c ∧ s.sameOthers t s.cur.seq ∧ s.sameModule t) ∧
  (∀ (s : State) (q : Nat) (u : DivUnit), (s.seq q).f.divu = some u →
    ∃ t, exec (.divComplete q) s = .next t ∧ (t.seq q).f = { (s.seq q).f with divu := none } ∧
      (t.seq q).c = (s.seq q).c ∧ (s.seq q).r.sameBut (t.seq q).r [u.dest] [] [] [] ∧ s.sameOthers t q ∧ s.sameModule t ∧
      (u.dest ≠ 0#6 →
        (u.divisor = 0#64 → (t.seq q).r.getS u.dest = 0xFFFFFFFFFFFFFFFF#64) ∧
        (u.divisor ≠ 0#64 → u.signed = false →
          ((t.seq q).r.getS u.dest).toNat = u.dividend.toNat / u.divisor.toNat) ∧
        (u.divisor ≠ 0#64 → u.signed = true → ¬(u.dividend.toInt = -2 ^ 63 ∧ u.divisor.toInt = -1) →
          ((t.seq q).r.getS u.dest).toInt = u.dividend.toInt.tdiv u.divisor.toInt) ∧
        (u.signed = true → u.dividend.toInt = -2 ^ 63 → u.divisor.toInt = -1 →
          ((t.seq q).r.getS u.dest).toInt = -2 ^ 63)))

/-- The guard, the destination and the value of a predicate instruction (spec/03 R66). -/
def Sys2Proof.Stmt.predicateResult (s : State) : Instr → Option (BitVec 7 × BitVec 7 × BitVec 32)
  | .pand g x y z f => some (g, x, s.rp y &&& (if f = 1#1 then ~~~ s.rp z else s.rp z))
  | .por g x y z f => some (g, x, s.rp y ||| (if f = 1#1 then ~~~ s.rp z else s.rp z))
  | .pxor g x y z f => some (g, x, s.rp y ^^^ (if f = 1#1 then ~~~ s.rp z else s.rp z))
  | .pnot g x y => some (g, x, ~~~ s.rp y)
  | .pmov g x y => some (g, x, s.rp y)
  | _ => none

/-- The operations of spec/03 R66, pset lane by lane. -/
def Obligations.PredicateLogicWritesAllLanes : Prop :=
  (∀ (i : Instr) (s : State) (g x : BitVec 7) (v : BitVec 32), Stmt.predicateResult s i = some (g, x, v) → s.guardOn g = true →
    ∃ t, exec i s = .next t ∧ t.rp x = (if x = 0#7 then 0xFFFFFFFF#32 else v) ∧ s.onlyRegs t [] [x] [] []) ∧
  (∀ (s : State) (g x lo hi : BitVec 7) (f : BitVec 1), s.guardOn g = true → lo.toNat ≤ 31 → hi.toNat ≤ 31 →
    ∃ t, exec (.pset g x lo hi f) s = .next t ∧ s.onlyRegs t [] [x] [] [] ∧
      (x ≠ 0#7 → ∀ n, n < 32 →
        (t.rp x).getLsbD n = (decide (lo.toNat ≤ n ∧ n ≤ hi.toNat) != decide (f = 1#1))))

/-- A condition of spec/02 R40 on two values. -/
def Sys2Proof.Stmt.holdsOf (c : Cond) (a b : Word) : Bool :=
  match c with
  | .eq => a == b
  | .ne => a != b
  | .lt => decide (a.toInt < b.toInt)
  | .le => decide (a.toInt ≤ b.toInt)
  | .ltu => decide (a.toNat < b.toNat)
  | .leu => decide (a.toNat ≤ b.toNat)

/-- The guard, the pair and the condition of an integer compare (spec/03 R64). -/
def Sys2Proof.Stmt.compareResult (s : State) : Instr → Option (BitVec 7 × BitVec 6 × Bool)
  | .cmpEqAr g n a b => some (g.setWidth 7, n, Stmt.holdsOf .eq (s.rs a) (s.rs b))
  | .cmpNeAr g n a b => some (g.setWidth 7, n, Stmt.holdsOf .ne (s.rs a) (s.rs b))
  | .cmpLtAr g n a b => some (g.setWidth 7, n, Stmt.holdsOf .lt (s.rs a) (s.rs b))
  | .cmpLeAr g n a b => some (g.setWidth 7, n, Stmt.holdsOf .le (s.rs a) (s.rs b))
  | .cmpLtuAr g n a b => some (g.setWidth 7, n, Stmt.holdsOf .ltu (s.rs a) (s.rs b))
  | .cmpLeuAr g n a b => some (g.setWidth 7, n, Stmt.holdsOf .leu (s.rs a) (s.rs b))
  | .cmpB3 g n y z c => some (g, n, Stmt.holdsOf c (s.rs y) (s.rs z))
  | .cmpBc g n y c imm => some (g, n, Stmt.holdsOf c (s.rs y) (imm.signExtend 64))
  | _ => none

/-- What a compare leaves: the pair whole, p0 its ones, all else as it was (spec/03 R64). -/
def Sys2Proof.Stmt.pairWritten (s t : State) (n : BitVec 6) (holds : Bool) : Prop :=
  t.rp (n ++ 0#1) = (if n = 0#6 then 0xFFFFFFFF#32 else if holds then 0xFFFFFFFF#32 else 0#32) ∧
  t.rp (n ++ 1#1) = (if holds then 0#32 else 0xFFFFFFFF#32) ∧
  s.onlyRegs t [] [n ++ 0#1, n ++ 1#1] [] []

/-- An FP32 operand that is no NaN as an integer multiple of 2^-149, in order; infinity stands above every number. -/
def Sys2Proof.Stmt.f32Scaled (x : BitVec 32) : Int :=
  let e := (x.extractLsb' 23 8).toNat
  let f := (x.extractLsb' 0 23).toNat
  let m : Int := if e = 0 then (f : Int) else ((2 ^ 23 + f) * 2 ^ (e - 1) : Nat)
  if x.getLsbD 31 then -m else m

def Sys2Proof.Stmt.f32NaN (x : BitVec 32) : Bool := x.extractLsb' 23 8 == 0xFF#8 && x.extractLsb' 0 23 != 0#23

/-- Signed compares through integers, unsigned ones through naturals (spec/03 R64); FP32 values as multiples of 2^-149, denormals at
their exact values (spec/03 R65). -/
def Obligations.ComparesWriteTheirPair : Prop :=
  (∀ (i : Instr) (s : State) (g : BitVec 7) (n : BitVec 6) (c : Bool),
    Stmt.compareResult s i = some (g, n, c) → s.guardOn g = true →
    ∃ t, exec i s = .next t ∧ Stmt.pairWritten s t n c) ∧
  ∀ (s : State) (g : BitVec 7) (n y z : BitVec 6) (c : FCond), s.guardOn g = true →
    let a := (s.rs y).extractLsb' 0 32
    let b := (s.rs z).extractLsb' 0 32
    let nan := Stmt.f32NaN a || Stmt.f32NaN b
    let holds := match c with
      | .eq => !nan && decide (Stmt.f32Scaled a = Stmt.f32Scaled b)
      | .ne => nan || decide (Stmt.f32Scaled a ≠ Stmt.f32Scaled b)
      | .lt => !nan && decide (Stmt.f32Scaled a < Stmt.f32Scaled b)
      | .le => !nan && decide (Stmt.f32Scaled a ≤ Stmt.f32Scaled b)
      | .un => nan
    ∃ t, exec (.fcmp g n y z c) s = .next t ∧ Stmt.pairWritten s t n holds

/-! ### Control (spec/03 R67 to R86, spec/16 R345, R349) -/

/-- A slot-A instruction that has issued and set a taken transfer to a target: its control state is otherwise as before. -/
structure Sys2Proof.Stmt.transferred (s t : State) (target : Word) (ss : List (BitVec 6)) : Prop where
  ctl : t.me.c = { s.me.c with redirect := some target, window := t.me.c.window, late := t.me.c.late }
  regs : s.me.r.sameBut t.me.r ss [] [] []
  flight : s.me.f.sameBut t.me.f
  issued : t.me.c.window = (s.me.retire s.cur.bn s.cur.slot 1).c.window
  others : s.sameOthers t s.cur.seq
  module : s.sameModule t

/-- PC is the address of the bundle that holds the instruction (spec/03 R67); R69 and R78: the transfer wins over a back edge. -/
def Obligations.TransfersLinkAndRedirect : Prop :=
  (∀ (s : State) (g : BitVec 4) (off : BitVec 19), s.guardA g = true →
    let target := s.cur.addr + off.signExtend 64 * 16#64
    (∃ t, exec (.br g off) s = .next t ∧ Stmt.transferred s t target []) ∧
    (∃ t, exec (.call g off) s = .next t ∧ Stmt.transferred s t target [63#6] ∧ t.rs 63#6 = s.cur.addr + 16#64)) ∧
  (∀ (s : State) (g : BitVec 4) (d a : BitVec 6), s.guardA g = true → (s.rs a).extractLsb' 0 4 = 0#4 →
    (∃ t, exec (.jmp g d a) s = .next t ∧ Stmt.transferred s t (s.rs a) [d] ∧
      t.rs d = if d = 0#6 then 0#64 else s.cur.addr + 16#64) ∧
    (∃ t, exec (.ret g a) s = .next t ∧ Stmt.transferred s t (s.rs a) [])) ∧
  (∀ (x : Seq) (bn : Nat) (target : Word), x.c.turn = some bn → x.c.redirect = some target →
    x.turnOver.c.pc = target ∧ x.turnOver.c.loops = x.c.loops ∧ x.turnOver.r = x.r)

/-- Nothing before a stop of a sequencer is under way, nor what else is named, and the release at .sy that comes with it can push its lines (spec/16 R345). -/
def Sys2Proof.Stmt.stopReady (s : State) (q : Nat) (before : List Instr) : Prop :=
  before = [] ∧ s.drainStreams q = [] ∧ s.relGate (coreOf q) (s.ctxOf q) = none

/-- What a later bundle holds in queue B (a wait, a fence, a buffer operation that an earlier slot holds back) is withdrawn by the stop, and is not
waited for (spec/16 R339). The four ways in which a trap is met (spec/16 R345); the misaligned transfer of spec/03 R68, the privileged write of R85, and trap
and halt: the record's words are those of spec/16 R347, word 4 the code, word 5 the next bundle's address for a software trap. -/
def Obligations.TrapAndHaltStopTheirSequencer : Prop :=
  (∀ (s : State) (t : Trap), let before := s.settleTo s.cur.seq s.cur.bn
    (s.me.isOldest s.cur.bn s.cur.slot false = false → ∃ u, s.raise t = .next u ∧ u.me.r = s.me.r ∧
      u.me.c = { s.me.c with late := u.me.c.late } ∧ u.me.f = s.me.f ∧ s.sameOthers u s.cur.seq ∧ s.sameModule u) ∧
    (s.me.isOldest s.cur.bn s.cur.slot false = true → before ++ s.drainStreams s.cur.seq ≠ [] →
      ∃ u, s.raise t = .next u ∧ u.seqs = s.seqs ∧ s.sameModule u ∧
      u.agenda = (before ++ s.drainStreams s.cur.seq) ++ s.agenda) ∧
    (∀ s1 evs, s.me.isOldest s.cur.bn s.cur.slot false = true → before = [] → s.drainStreams s.cur.seq = [] →
      s.relGate (coreOf s.cur.seq) (s.ctxOf s.cur.seq) = some (s1, evs) →
      ∃ u, s.raise t = .next u ∧ u.seqs = s.seqs ∧ u.agenda = evs ++ s.agenda ∧ u.mem.dram = s.mem.dram) ∧
    (s.me.isOldest s.cur.bn s.cur.slot false = true → s.me.c.window ≠ [] → Stmt.stopReady s s.cur.seq before →
      ∃ u, s.raise t = .next u ∧
      u = s.stopSeq s.cur.seq 0 s.cur.slot t s.cur.addr ∧ (u.seq s.cur.seq).c.mode = .stopped ∧
      (u.seq s.cur.seq).r = s.me.r ∧ (u.seq s.cur.seq).c.loops = s.me.c.loops)) ∧
  (∀ (s : State) (g : BitVec 4) (d a : BitVec 6), s.guardA g = true → (s.rs a).extractLsb' 0 4 ≠ 0#4 →
    ∃ tr : Trap, tr.code = 0x13 ∧ tr.w4 = s.rs a ∧ exec (.jmp g d a) s = s.raise tr ∧ exec (.ret g a) s = s.raise tr) ∧
  (∀ (s : State) (g : BitVec 4) (d : BitVec 6) (num : BitVec 13), s.guardA g = true → num ≠ 0#13 →
    exec (.sysWr g d num) s = s.raise { code := 0x02, w4 := num.setWidth 64 }) ∧
  (∀ (s : State) (g : BitVec 4) (code : BitVec 19), s.guardA g = true → s.me.isOldest s.cur.bn s.cur.slot true = true →
    (Stmt.stopReady s s.cur.seq (s.settleTo s.cur.seq s.cur.bn) →
      let x := (s.me.retire s.cur.bn 0 1).turnOver
      ∃ t, exec (.trap g code) s = .next t ∧ (t.seq s.cur.seq).c.mode = .stopped ∧ (t.seq s.cur.seq).r = x.r ∧
        t = (s.setSeq s.cur.seq x).stopSeq s.cur.seq 0 0 { code := 0x60, w4 := code.setWidth 64, w5 := x.position }
          s.cur.addr) ∧
    (s.drainAll s.cur.seq s.cur.bn = [] → s.relGate (coreOf s.cur.seq) (s.ctxOf s.cur.seq) = none →
      ∃ t, exec (.halt g code) s = .next t ∧ t.agenda = .haltStop s.cur.seq :: s.agenda ∧ t.seqs = s.seqs ∧
        s.sameModule t)) ∧
  (∀ (s : State) (q : Nat) (e : Win) (code : BitVec 19), (s.seq q).haltCode = some (e, code) → s.drainAll q e.bn = [] →
    s.relGate (coreOf q) (s.ctxOf q) = none →
    let x := ((s.seq q).retire e.bn 0 1).turnOver
    ∃ t, exec (.haltStop q) s = .next t ∧ (t.seq q).c.mode = .stopped ∧ (t.seq q).r = x.r ∧
      t = (s.setSeq q x).stopSeq q 1 0 { code := 0, w4 := code.setWidth 64 } e.addr)

/-- The pseudocode of spec/03 R75. -/
def Obligations.LoopsPushPopAndCount : Prop :=
  (∀ (s : State) (g : BitVec 4) (a : BitVec 6) (len : BitVec 9), s.guardA g = true →
    (s.rs a = 0#64 → ∃ t, exec (.loop g a len) s = .next t ∧
      Stmt.transferred s t (s.cur.addr + 16#64 * BitVec.ofNat 64 (len.toNat + 2)) []) ∧
    (s.rs a ≠ 0#64 → ∃ t, exec (.loop g a len) s = .next t ∧ s.me.r.sameBut t.me.r [] [] [] [] ∧ s.sameModule t ∧
      s.sameOthers t s.cur.seq ∧ t.me.c.pushed = true ∧ t.me.c.loops =
        { start := s.cur.addr + 16#64, last := s.cur.addr + 16#64 * BitVec.ofNat 64 (len.toNat + 1), n := s.rs a,
          stages := 0, t := 0#64, saved := [] } :: s.me.c.loops)) ∧
  (∀ (s : State) (g : BitVec 4) (a : BitVec 6) (len : BitVec 9) (aux : BitVec 4), s.guardA g = true → aux.toNat ≤ 7 →
    s.me.isOldest s.cur.bn s.cur.slot true = true → s.askEvents s.cur.seq = [] →
    (s.rs a = 0#64 → ∃ t, exec (.loopSp g a len aux) s = .next t ∧
      Stmt.transferred s t (s.cur.addr + 16#64 * BitVec.ofNat 64 (len.toNat + 2)) []) ∧
    (s.rs a ≠ 0#64 → ∃ t, exec (.loopSp g a len aux) s = .next t ∧ s.sameModule t ∧ s.sameOthers t s.cur.seq ∧
      (∃ l ls, t.me.c.loops = l :: ls ∧ ls = s.me.c.loops ∧ l.n = s.rs a ∧ l.stages = aux.toNat + 1 ∧ l.t = 0#64 ∧
        l.start = s.cur.addr + 16#64 ∧ l.last = s.cur.addr + 16#64 * BitVec.ofNat 64 (len.toNat + 1) ∧
        l.saved = (List.range (aux.toNat + 1)).map fun j => s.rp (BitVec.ofNat 7 (8 + j))) ∧
      t.rp 8#7 = 0xFFFFFFFF#32 ∧ (∀ j, 1 ≤ j → j ≤ aux.toNat → t.rp (BitVec.ofNat 7 (8 + j)) = 0#32) ∧
      (∀ n : BitVec 7, n.toNat < 8 ∨ 8 + aux.toNat < n.toNat → t.rp n = s.rp n) ∧ ∀ n, t.rs n = s.rs n)) ∧
  (∀ (s : State) (g : BitVec 4) (k : BitVec 3) (off : BitVec 16), s.guardA g = true →
    s.me.isOldest s.cur.bn s.cur.slot true = true → s.askEvents s.cur.seq = [] →
    ∃ t, exec (.lbrk g k off) s = .next t ∧ t.me.c.loops = s.me.c.loops.drop (k.toNat + 1) ∧
      t.me.c.redirect = some (s.cur.addr + off.signExtend 64 * 16#64) ∧ s.sameModule t ∧ s.sameOthers t s.cur.seq ∧
      (∀ n, t.rs n = s.rs n) ∧
      (k = 0#3 → ∀ l ls, s.me.c.loops = l :: ls → l.saved.length ≤ 8 → ∀ j (h : j < l.saved.length),
        t.rp (BitVec.ofNat 7 (8 + j)) = l.saved[j])) ∧
  (∀ (x : Seq) (bn : Nat) (l : Loop) (ls : List Loop), x.c.turn = some bn → x.c.redirect = none → x.c.pushed = false →
    x.c.loops = l :: ls → l.last = x.c.pc - 16#64 → l.t.toNat + 1 < 2 ^ 64 → l.stages ≤ 8 → l.saved.length = l.stages →
    (l.t.toNat + 1 < (if l.stages = 0 then l.n.toNat else l.n.toNat + l.stages - 1) →
      x.turnOver.c.pc = l.start ∧ x.turnOver.c.loops = { l with t := l.t + 1#64 } :: ls ∧
      (∀ j, j < l.stages → x.turnOver.r.getP (BitVec.ofNat 7 (8 + j)) =
        if j ≤ l.t.toNat + 1 ∧ l.t.toNat + 1 - j < l.n.toNat then 0xFFFFFFFF#32 else 0#32)) ∧
    (¬ l.t.toNat + 1 < (if l.stages = 0 then l.n.toNat else l.n.toNat + l.stages - 1) →
      (∀ m ms, ls = m :: ms → m.last ≠ l.last) →
      x.turnOver.c.pc = x.c.pc ∧ x.turnOver.c.loops = ls ∧
      (∀ j (h : j < l.saved.length), x.turnOver.r.getP (BitVec.ofNat 7 (8 + j)) = l.saved[j])))

/-- What takes effect at once and what at the end of the region (spec/03 R81, R82). -/
def Obligations.RegionsOpenCommitAbort : Prop :=
  (∀ (s : State) (g : BitVec 4), s.guardA g = true →
    (s.me.c.region.fin = none → ∃ t, exec (.specBegin g) s = .next t ∧ t.me.r = s.me.r ∧ s.sameModule t ∧
      s.sameOthers t s.cur.seq ∧
      t.me.c.region = if s.me.c.region.isOpen then s.me.c.region else { isOpen := true, since := s.cur.bn, fin := none }) ∧
    (∀ i commit, (i, commit) ∈ [(Instr.specCommit g, true), (Instr.specAbort g, false)] →
      ∃ t, exec i s = .next t ∧ t.me.r = s.me.r ∧ s.sameModule t ∧ s.sameOthers t s.cur.seq ∧
        t.me.c.region = if s.me.c.region.isOpen && s.me.c.region.fin.isNone then
          { s.me.c.region with fin := some (s.cur.bn, commit) } else s.me.c.region)) ∧
  (∀ (s : State) (q e : Nat) (commit : Bool), (s.seq q).c.region.fin = some (e, commit) → (s.seq q).issuedTo e = true →
    (s.seq q).coveredLeft e = false →
    ∃ t, exec (.specRegionEnd q) s = .next t ∧ (t.seq q).c.region = {} ∧ (t.seq q).r = (s.seq q).r ∧
      (t.core (coreOf q)).spad = (s.core (coreOf q)).spad ∧
      (∀ l, l ∈ s.regionLines q → l ∉ (t.core (coreOf q)).region ∧
        (l ∈ (t.core (coreOf q)).live ↔ if commit then l ∉ (s.core (coreOf q)).live else l ∈ (s.core (coreOf q)).live)) ∧
      (∀ l, l ∉ s.regionLines q → (l ∈ (t.core (coreOf q)).region ↔ l ∈ (s.core (coreOf q)).region) ∧
        (l ∈ (t.core (coreOf q)).live ↔ l ∈ (s.core (coreOf q)).live)))

/-- The distance is counted in bundles of program order (spec/02 R34). -/
def Obligations.FormatWritesTakeEffectLate : Prop :=
  (∀ (s : State) (g : BitVec 4) (hsz : BitVec 2) (ofmt wfmt afmt : BitVec 4), s.guardA g = true →
    (∀ w ∈ s.me.c.fmt.writes, w.1 < s.cur.bn) →
    ∃ t, exec (.fmtSet g hsz ofmt wfmt afmt) s = .next t ∧ t.me.r = s.me.r ∧ s.sameModule t ∧ s.sameOthers t s.cur.seq ∧
      t.me.c.fmt.flags = s.me.c.fmt.flags ∧ t.me.c.fmt.raises = s.me.c.fmt.raises ∧
      (∀ n, s.cur.bn + 4 ≤ n → t.me.c.fmt.bitsAt n = hsz ++ ofmt ++ wfmt ++ afmt) ∧
      (∀ n, n < s.cur.bn + 4 → t.me.c.fmt.bitsAt n = s.me.c.fmt.bitsAt n)) ∧
  (∀ (s : State) (q : Nat), (s.seq q).c.fmt.writes.Pairwise (fun a b => a.1 ≤ b.1) →
    ∃ t, exec (.fmtSetEffect q) s = .next t ∧ (t.seq q).r = (s.seq q).r ∧ (t.seq q).f = (s.seq q).f ∧
      s.sameModule t ∧ s.sameOthers t q ∧
      ∀ n, (s.seq q).oldestBn ≤ n → (t.seq q).c.fmt.bitsAt n = (s.seq q).c.fmt.bitsAt n ∧
        (t.seq q).c.fmt.flagsAt n = (s.seq q).c.fmt.flagsAt n)

/-- sys.wr of cr.fmt (spec/04 R100, R101) and shf (spec/05 R124, spec/06 R137). -/
def Obligations.ControlWritesAndShadows : Prop :=
  (∀ (s : State) (g : BitVec 4) (d : BitVec 6), s.guardA g = true →
    ∃ t, exec (.sysWr g d 0#13) s = .next t ∧ t.me.r = s.me.r ∧ s.sameModule t ∧ s.sameOthers t s.cur.seq ∧
      t.me.c.fmt.writes = s.me.c.fmt.writes ++
        [(s.cur.bn, (s.rs d).extractLsb' 0 14, some ((s.rs d).extractLsb' 32 4))] ∧
      t.me.c.fmt.base = s.me.c.fmt.base ∧ t.me.c.fmt.flags = s.me.c.fmt.flags) ∧
  (∀ (s : State) (g : BitVec 4) (code : BitVec 3) (field : BitVec 4) (a : BitVec 6), s.guardA g = true →
    ∃ t, exec (.shf g code field a) s = .next t ∧ s.sameModule t ∧ s.sameOthers t s.cur.seq ∧
      (∀ n, t.rs n = s.rs n) ∧ (∀ n, t.rp n = s.rp n) ∧ (∀ n, t.rv n = s.rv n) ∧ t.me.r.q = s.me.r.q ∧
      t.me.r.c = s.me.r.c ∧ t.me.r.k = s.me.r.k ∧
      (∀ n, t.me.r.getCsh n =
        if code.toNat < 4 ∧ n = code.extractLsb' 0 2 then (s.me.r.getCsh n).put field.toNat (s.rs a) else s.me.r.getCsh n) ∧
      (∀ n, t.me.r.getKsh n =
        if 4 ≤ code.toNat ∧ n = code.extractLsb' 0 2 then (s.me.r.getKsh n).put field.toNat (s.rs a) else s.me.r.getKsh n))

/-! ### Loads, stores and local accesses (spec/07 R163, R175 to R181, spec/08 R189) -/

/-- A slot instruction that has issued with given registers and given things under way; its control state stands. -/
structure Sys2Proof.Stmt.issuedWith (s t : State) (r : Regs) (f : Flight) : Prop where
  regs : t.me.r = r
  ctl : s.me.c.sameBut t.me.c
  flight : t.me.f = { f with dtime := t.me.f.dtime }
  issued : t.me.c.window = (s.me.retire s.cur.bn s.cur.slot 1).c.window
  cur : t.cur.seq = s.cur.seq

/-- What a load sets under way: an awaited result for its register, or for none when that is s0. -/
def Sys2Proof.Stmt.awaits (f g : Flight) (x : BitVec 6) (w : Word) : Prop :=
  ∃ k n, g.outs = f.outs ++
    [{ k := k, dst := if x = 0#6 then .drop else .s x, v := w.setWidth 1024, act := BitVec.allOnes 1024, n := n }]

/-- The size, guard, destination, base, offset and acquire of a plain load. -/
def Sys2Proof.Stmt.loadForm : Instr → Option (Nat × BitVec 7 × BitVec 6 × BitVec 6 × BitVec 11 × Option Scope)
  | .ldB g x b off acq => some (1, g, x, b, off, acq)
  | .ldH g x b off acq => some (2, g, x, b, off, acq)
  | .ldW g x b off acq => some (4, g, x, b, off, acq)
  | .ldD g x b off acq => some (8, g, x, b, off, acq)
  | _ => none

/-- The value is read at issue and delivered by LOAD_DATA_RETURN (spec/07 R163, R176). -/
def Obligations.LoadsAwaitTheirValue : Prop :=
  ∀ (i : Instr) (s : State) (z : Nat) (g : BitVec 7) (x b : BitVec 6) (off : BitVec 11) (acq : Option Scope),
    Stmt.loadForm i = some (z, g, x, b, off, acq) → s.guardOn g = true →
    let a := s.rs b + off.signExtend 64 * BitVec.ofNat 64 z
    let q := s.cur.seq
    let ctx := s.ctxOf q
    (∀ s1 w, addrBad a z { cls := pcMem } = none → s.meetEvents false a.toNat z = [] →
      s.plainRead q a z (acqOuter acq) { cls := pcMem } = .ok s1 w →
      ∃ t, exec i s = .next t ∧ t.me.r = s.me.r ∧ t.me.c.loops = s.me.c.loops ∧ Stmt.awaits s.me.f t.me.f x w ∧
        t.me.f.storeB = s.me.f.storeB ∧ ∀ p, (t.seq p).r = (s.seq p).r) ∧
    (∀ tr ln, acq = none → addrBad a z { cls := pcMem } = none → s.meetEvents false a.toNat z = [] →
      s.needsWalk (dieOf q) ctx a false = false →
      s.translate (dieOf q) ctx a { cls := pcMem } = (s, .ok tr) → eNc tr.e2 = false →
      s.keyOf (lineOf tr.pa) = (s.kid (eKsl tr.e2)).getD 0 → s.l1 (coreOf q) (lineOf tr.pa) ctx = some ln →
      ln.fresh (s.core (coreOf q)).gen = true → byteMask (tr.pa % 64) z &&& ~~~ ln.have_ = 0#64 →
      ∃ t, exec i s = .next t ∧ Stmt.awaits s.me.f t.me.f x (takeAt ln.data (tr.pa % 64) z) ∧ t.me.r = s.me.r ∧
        s.sameOthers t q ∧ t.mem = s.mem ∧ t.clusters = s.clusters ∧
        ∀ core c pa, c < 65536 → ctx < 65536 → t.byteSeen core c pa = s.byteSeen core c pa) ∧
    (z = 8 → a.toNat / 2 ^ 56 = 0 → inAperture a = true → a.toNat % 64 = 8 → a.toNat % 65536 < 1024 → acq = none →
      ∃ t, exec i s = .next t ∧ t.me.r = s.me.r ∧ s.sameOthers t q ∧ s.sameModule t ∧
        Stmt.awaits s.me.f t.me.f x (s.chan (coreOf q) (s.chanKey q (a.toNat % 65536 / 64))).word)

/-- Delivery (spec/07 R163) and the load queue (spec/07 R181). -/
def Obligations.ResultsReachTheirRegister : Prop :=
  (∀ (s : State) (q k : Nat) (o : Out), (s.seq q).f.outs.find? (fun o => o.k == k) = some o →
    ∃ t, exec (.loadDataReturn q k) s = .next t ∧ (t.seq q).c = (s.seq q).c ∧ s.sameOthers t q ∧ s.sameModule t ∧
      (t.seq q).f = { (s.seq q).f with outs := (s.seq q).f.outs.filter fun o => o.k != k } ∧
      (∀ n, o.dst = .s n → (s.seq q).r.sameBut (t.seq q).r [n] [] [] [] ∧
        (t.seq q).r.getS n = if n = 0#6 then 0#64 else o.v.setWidth 64) ∧
      (∀ n, o.dst = .v n → (s.seq q).r.sameBut (t.seq q).r [] [] [n] [] ∧
        ∀ b, b < 1024 → ((t.seq q).r.getV n).getLsbD b =
          if o.act.getLsbD b then o.v.getLsbD b else ((s.seq q).r.getV n).getLsbD b) ∧
      (o.dst = .drop → (t.seq q).r = (s.seq q).r)) ∧
  (∀ (s : State) (q id : Nat) (e : LqEnt) (w : Word), (s.seq q).f.lq.find? (fun e => e.id == id) = some e →
    e.coming = some w →
    ∃ t, exec (.atomicResultReturn q id) s = .next t ∧ (t.seq q).c = (s.seq q).c ∧ s.sameOthers t q ∧ s.sameModule t ∧
      (e.pop = none → (t.seq q).r = (s.seq q).r ∧ (t.seq q).f.lq =
        (s.seq q).f.lq.map fun d => if d.id = id then { d with val := some w, coming := none } else d) ∧
      (∀ r, e.pop = some r → (s.seq q).r.sameBut (t.seq q).r [r] [] [] [] ∧
        ((t.seq q).r.getS r = if r = 0#6 then 0#64 else w) ∧ (t.seq q).f.lq = (s.seq q).f.lq.filter fun d => d.id != id)) ∧
  (∀ (s : State) (g : BitVec 7) (x : BitVec 6), s.guardOn g = true →
    (s.me.f.reserved = [] → ∃ t, exec (.lqPop g x) s = .next t ∧ s.onlyRegs t [x] [] [] [] ∧ t.rs x = 0#64) ∧
    (∀ e es, s.me.f.reserved = e :: es → ∃ t, exec (.lqPop g x) s = .next t ∧ s.sameOthers t s.cur.seq ∧ s.sameModule t ∧
      (∀ w, e.val = some w → s.me.r.sameBut t.me.r [x] [] [] [] ∧ (t.rs x = if x = 0#6 then 0#64 else w) ∧
        t.me.f.lq = s.me.f.lq.filter fun d => d.id != e.id) ∧
      (e.val = none → t.me.r = s.me.r ∧
        t.me.f.lq = s.me.f.lq.map fun d => if d.id = e.id then { d with pop := some x } else d)))

/-- The size, guard, source, base, offset and release of a plain store. -/
def Sys2Proof.Stmt.storeForm : Instr → Option (Nat × BitVec 7 × BitVec 6 × BitVec 6 × BitVec 11 × Option Scope)
  | .stB g x b off rel => some (1, g, x, b, off, rel)
  | .stH g x b off rel => some (2, g, x, b, off, rel)
  | .stW g x b off rel => some (4, g, x, b, off, rel)
  | .stD g x b off rel => some (8, g, x, b, off, rel)
  | _ => none

/-- The store queue of slot B (spec/07 R180); the bytes change when the entry is performed. -/
def Obligations.StoresEnterTheStoreQueue : Prop :=
  ∀ (i : Instr) (s : State) (z : Nat) (g : BitVec 7) (x b : BitVec 6) (off : BitVec 11) (rel : Option Scope) (s1 s2 : State)
    (tr : Tr),
    Stmt.storeForm i = some (z, g, x, b, off, rel) → s.guardOn g = true →
    let a := s.rs b + off.signExtend 64 * BitVec.ofNat 64 z
    let q := s.cur.seq
    startsCopy a z = false → addrBad a z { cls := pcMem, write := true } = none →
    s.storeCheck q a { cls := pcMem, write := true } = .ok s1 tr → s1.fullB = false →
    s1.streamMeets false a.toNat z = [] → s1.releaseFirst rel = .ok s2 () →
    let f := fun (f : Flight) => { f with storeB := f.storeB ++
      [{ bn := s.cur.bn, act := .plain [{ addr := a.toNat, size := z, data := s.rs x }], rel := rel }] }
    ∃ t, exec i s = .next t ∧ t.me.r = s.me.r ∧ Stmt.issuedWith s2 t s2.me.r (f s2.me.f) ∧
      (∀ p, (t.seq p).r = (s.seq p).r) ∧ s2.sameOthers t q ∧ s2.sameModule t ∧
      (rel = none → s.needsWalk (dieOf q) (s.ctxOf q) a true = false →
        Stmt.issuedWith s t s.me.r (f s.me.f) ∧ s.sameOthers t q ∧ s.sameModule t)

/-- The address stored to is the translation of the entry's address, the function that the performing uses (spec/07 R176). -/
def Obligations.StorePerformWritesItsBytes : Prop :=
  ∀ (s : State) (q slot : Nat) (e : StoreEnt) (el : Elem) (es : List StoreEnt) (tr : Tr),
    (slot = 1 ∧ (s.seq q).f.storeB = e :: es ∨ slot = 2 ∧ (s.seq q).f.storeC = e :: es) →
    e.act = .plain [el] → e.rel = none → s.olderClash q slot e = false → s.atFirst q e = false →
    let ctx := s.ctxOf q
    let c := coreOf q
    let l := lineOf tr.pa
    ctx < 65536 → s.translate (dieOf q) ctx (BitVec.ofNat 64 el.addr) { cls := pcMem, write := true } = (s, .ok tr) →
    eNc tr.e2 = false → eD tr.e2 = true → s.keyOf l = (s.kid (eKsl tr.e2)).getD 0 → 1 ≤ el.size → el.size ≤ 8 →
    tr.pa % 64 + el.size ≤ 64 →
    ((s.l1 c l ctx).isSome = true ∨ ((s.core c).l1.filter fun x => x.1 / 65536 % l1Sets == l % l1Sets).length < 8) →
    ∃ t, exec (.storePerform q slot) s = .next t ∧ (t.seq q).f = ((s.dropStore q slot).seq q).f ∧ (t.seq q).r = (s.seq q).r ∧
      (t.seq q).c = (s.seq q).c ∧ s.sameOthers t q ∧ t.mem = s.mem ∧ t.clusters = s.clusters ∧
      (∀ n, n < el.size → t.byteSeen c ctx (tr.pa + n) = el.data.extractLsb' (8 * n) 8) ∧
      (∀ core x pa, x < 65536 → ¬(core = c ∧ x = ctx ∧ tr.pa ≤ pa ∧ pa < tr.pa + el.size) →
        t.byteSeen core x pa = s.byteSeen core x pa)

/-- Local addresses are not translated (spec/07 R157, R178). -/
def Obligations.LocalAccessesReadAndWriteTheScratchpad : Prop :=
  (∀ (s : State) (g : BitVec 7) (x b : BitVec 6) (off : BitVec 11) (c o : Nat), s.guardOn g = true →
    let a := s.rs b + off.signExtend 64 * 8#64
    let q := s.cur.seq
    (s.locCheck (coreOf q) (s.ctxOf q) a 8 opRead pcMem = .ok (.spad c o) → s.meetEvents true a.toNat 8 = [] →
      s.regionWait = false → (s.core c).marked o = none →
      ∃ t, exec (.ldSp g x b off) s = .next t ∧ t.me.r = s.me.r ∧ s.sameOthers t q ∧ s.sameModule t ∧
        Stmt.awaits s.me.f t.me.f x (BitVec.ofNat 64 (leNat (Mem.bytes (s.core c).spad o 8)))) ∧
    (s.locCheck (coreOf q) (s.ctxOf q) a 8 opWrite pcMem = .ok (.spad c o) → s.fullB = false →
      s.streamMeets true a.toNat 8 = [] → s.regionWait = false →
      ∃ t, exec (.stSp g x b off) s = .next t ∧ Stmt.issuedWith s t s.me.r { s.me.f with storeB := s.me.f.storeB ++
          [{ bn := s.cur.bn, rel := none,
             act := .loc [{ addr := a.toNat, size := 8, data := s.rs x }] (s.me.covers s.cur.bn) }] } ∧
        s.sameOthers t q ∧ s.sameModule t)) ∧
  (∀ (s : State) (q slot : Nat) (e : StoreEnt) (el : Elem) (es : List StoreEnt) (cov : Bool) (c o : Nat),
    (slot = 1 ∧ (s.seq q).f.storeB = e :: es ∨ slot = 2 ∧ (s.seq q).f.storeC = e :: es) →
    e.act = .loc [el] cov → e.rel = none → s.olderClash q slot e = false →
    locOf (coreOf q) (BitVec.ofNat 64 el.addr) = some (.spad c o) → (s.core c).marked o = none →
    ∃ t, exec (.storePerform q slot) s = .next t ∧ (t.seq q).f = ((s.dropStore q slot).seq q).f ∧ (t.seq q).r = (s.seq q).r ∧
      s.sameOthers t q ∧ t.mem = s.mem ∧ t.clusters = s.clusters ∧ (∀ d, d ≠ c → t.core d = s.core d) ∧
      (t.core c).l1 = (s.core c).l1 ∧
      (∀ n, n < el.size → Mem.get (t.core c).spad (o + n) = BitVec.ofNat 8 (el.data.toNat / 256 ^ n)) ∧
      (∀ n, n < o ∨ o + el.size ≤ n → Mem.get (t.core c).spad n = Mem.get (s.core c).spad n))

/-! ### Pennants, waits and rings (spec/11 R241 to R257) -/

/-- The store-queue entry of an add to a pennant. -/
def Sys2Proof.Stmt.addEntry (s : State) (h : BitVec 32) (v : Word) (clr : Bool) : StoreEnt :=
  { bn := s.cur.bn, act := .hal (.add h v clr), rel := none }

/-- The pseudocode of spec/11 R245 and R248, and the cursor word of R255. -/
def Obligations.PennantAddsSaturate : Prop :=
  (∀ (s : State) (g : BitVec 7) (clr : BitVec 1) (y z : BitVec 6), s.guardOn g = true →
    s.penOk (s.ctxOf s.cur.seq) ((s.rs y).setWidth 32) = true → s.fullB = false →
    (∃ t, exec (.pnAdd g clr none y z) s = .next t ∧
      Stmt.issuedWith s t s.me.r { s.me.f with
        storeB := s.me.f.storeB ++ [Stmt.addEntry s ((s.rs y).setWidth 32) (s.rs z) (clr == 1#1)] } ∧
      s.sameOthers t s.cur.seq ∧ s.sameModule t) ∧
    (∀ sc s1, s.releaseHal sc = .ok s1 () →
      ∃ t, exec (.pnAdd g clr (some sc) y z) s = .next t ∧
        Stmt.issuedWith s1 t s1.me.r { s1.me.f with
          storeB := s1.me.f.storeB ++ [Stmt.addEntry s1 ((s.rs y).setWidth 32) (s1.rs z) (clr == 1#1)] } ∧
        s1.sameOthers t s1.cur.seq ∧ s1.sameModule t)) ∧
  (∀ (s : State) (g : BitVec 7) (x y z : BitVec 6) (sc : Scope) (s1 : State), s.guardOn g = true →
    scopeOf ((s.rs z).extractLsb' 45 3) = some sc → s.penOk (s.ctxOf s.cur.seq) ((s.rs y).extractLsb' 32 32) = true →
    s.fullB = false → s.releaseHal sc = .ok s1 () →
    ∃ t, exec (.rbRelease g x y z) s = .next t ∧
      t.me.f.storeB = s1.me.f.storeB ++ [Stmt.addEntry s1 ((s.rs y).extractLsb' 32 32) 1#64 false] ∧
      s1.me.r.sameBut t.me.r [x] [] [] [] ∧ s1.sameOthers t s1.cur.seq ∧ s1.sameModule t ∧
      (x ≠ 0#6 → (t.rs x).extractLsb' 45 19 = (s.rs z).extractLsb' 45 19 ∧
        (t.rs x).extractLsb' 0 45 = (s.rs z).extractLsb' 0 45 + 1#45)) ∧
  (∀ (s : State) (k : Nat) (e : HalEnt) (h : BitVec 32) (v : Word) (clr : Bool),
    s.hal.find? (fun e => e.k == k) = some e → e.op = .add h v clr → s.earlierHal e = none →
    let p := s.pennant h
    ∃ t, exec (.pennantAdd k) s = .next t ∧ t.hal = s.hal.filter (fun e => e.k != k) ∧
      (p.count.toNat + v.toNat < 2 ^ 64 → (t.pennant h).count = p.count + v ∧ (t.pennant h).sat = p.sat) ∧
      (2 ^ 64 ≤ p.count.toNat + v.toNat → (t.pennant h).count = 0xFFFFFFFFFFFFFFFF#64 ∧ (t.pennant h).sat = true) ∧
      (t.pennant h).latch = (p.latch && !clr) ∧ (t.pennant h).lcode = (if clr then 0#8 else p.lcode) ∧
      (t.pennant h).lsrc = (if clr then 0#4 else p.lsrc) ∧ 
      (s.penAt h = none → t.mem = s.mem ∧ ∀ h', h' ≠ h → t.pennant h' = s.pennant h') ∧
      (∀ a, s.penAt h = some a → t.dies = s.dies ∧
        ∀ n, n < a ∨ a + 16 ≤ n → Mem.get t.mem.dram n = Mem.get s.mem.dram n) ∧
      t.seqs = s.seqs ∧ t.cores = s.cores ∧ t.clusters = s.clusters ∧
      (∀ q hb a, q ∈ (s.die (penDie h)).waiters → (s.seq q).f.holdB = some hb → hb.what = .wait a true → a.h = h →
        a.target.toNat ≤ (t.pennant h).count.toNat → .waiterWake q ∈ t.agenda))

/-- The state word bit by bit (spec/11 R244), the pair as spec/03 R64 writes it. -/
def Obligations.PennantReadsAnswer : Prop :=
  (∀ (s : State) (g : BitVec 7) (y : BitVec 6), s.guardOn g = true →
    let h : BitVec 32 := (s.rs y).setWidth 32
    let p := s.pennant h
    s.penOk (s.ctxOf s.cur.seq) h = true → s.earlierHalEvents = [] →
    (∀ x, ∃ t, exec (.pnRead g x y 0#1) s = .next t ∧
      Stmt.issuedWith s t s.me.r { s.me.f with asks := s.me.f.asks ++ [.reg x p.count] } ∧
      s.sameOthers t s.cur.seq ∧ s.sameModule t) ∧
    (∀ x, h.toNat % 2 ^ 28 < 65536 → ∃ t w, exec (.pnRead g x y 1#1) s = .next t ∧
      Stmt.issuedWith s t s.me.r { s.me.f with asks := s.me.f.asks ++ [.reg x w] } ∧
      s.sameOthers t s.cur.seq ∧ s.sameModule t ∧
      w = 0#48 ++ p.lcode ++ p.lsrc ++ 1#1 ++ 0#1 ++ BitVec.ofBool p.sat ++ BitVec.ofBool p.latch) ∧
    (∀ pair z n, ¬(p.latch = true ∧ n = 0#7) → ∃ t, exec (.pnTest g pair y z n) s = .next t ∧
      Stmt.issuedWith s t s.me.r { s.me.f with asks := s.me.f.asks ++
        [.pair pair (!p.latch && decide ((s.rs z).toNat ≤ p.count.toNat)) n (!p.latch)] } ∧
      s.sameOthers t s.cur.seq ∧ s.sameModule t) ∧
    (∀ pair z, p.latch = true → ∃ tr : Trap, tr.code = 0x30 ∧ tr.w4 = h.setWidth 64 ∧ tr.w5 = p.count ∧ tr.w6 = s.rs z ∧
      exec (.pnTest g pair y z 0#7) s = s.raise tr)) ∧
  (∀ (s : State) (q : Nat) (d : BitVec 6) (w : Word) (rest : List Answer), (s.seq q).f.asks = .reg d w :: rest →
    ∃ t, exec (.pennantValueReturn q) s = .next t ∧ (s.seq q).r.sameBut (t.seq q).r [d] [] [] [] ∧
      (t.seq q).r.getS d = (if d = 0#6 then 0#64 else w) ∧ (t.seq q).f = { (s.seq q).f with asks := rest } ∧
      (t.seq q).c = (s.seq q).c ∧ s.sameOthers t q ∧ s.sameModule t) ∧
  (∀ (s : State) (q : Nat) (p : BitVec 6) (reached met : Bool) (n : BitVec 7) (rest : List Answer),
    (s.seq q).f.asks = .pair p reached n met :: rest → n ≠ p ++ 0#1 ∨ n = 0#7 → n ≠ p ++ 1#1 →
    ∃ t, exec (.pennantValueReturn q) s = .next t ∧ (s.seq q).r.sameBut (t.seq q).r [] [p ++ 0#1, p ++ 1#1, n] [] [] ∧
      (t.seq q).r.getP (p ++ 0#1) = (if p = 0#6 ∨ reached = true then 0xFFFFFFFF#32 else 0#32) ∧
      (t.seq q).r.getP (p ++ 1#1) = (if reached then 0#32 else 0xFFFFFFFF#32) ∧
      (n ≠ 0#7 → (t.seq q).r.getP n = if met then 0xFFFFFFFF#32 else 0#32) ∧
      (t.seq q).f = { (s.seq q).f with asks := rest } ∧ (t.seq q).c = (s.seq q).c ∧ s.sameOthers t q ∧ s.sameModule t)

/-- What a wait or rb.await asks: handle, target, acquire, status and slot (spec/11 R249, R255, R256). -/
def Sys2Proof.Stmt.askOf (s : State) : Instr → Option (BitVec 7 × Ask)
  | .pnWait g acq y z n => some (g, { h := (s.rs y).setWidth 32, target := s.rs z, acq := acq, n := n, slot := none })
  | .rbAwait g x y z n =>
    let k := ((s.rs z).extractLsb' 0 45).setWidth 64
    let slots := ((s.rs z).extractLsb' 48 16).toNat + 1
    match scopeOf ((s.rs z).extractLsb' 45 3) with
    | some sc =>
      some (g, { h := (s.rs y).setWidth 32, target := k + 1#64, acq := some sc, n := n, slot := some (x, BitVec.ofNat 64 (k.toNat % slots)) })
    | none => none
  | _ => none

/-- The pseudocode of spec/11 R249. -/
def Obligations.WaitsHoldUntilReached : Prop :=
  (∀ (i : Instr) (s : State) (g : BitVec 7) (a : Ask), Stmt.askOf s i = some (g, a) → s.guardOn g = true →
    s.penOk (s.ctxOf s.cur.seq) a.h = true → s.earlierHalEvents = [] →
    ∃ t, exec i s = .next t ∧ t.me.r = s.me.r ∧ t.me.c = s.me.c ∧ s.sameOthers t s.cur.seq ∧ s.sameModule t ∧
      t.me.f = { s.me.f with holdB := some { bn := s.cur.bn, addr := s.cur.addr, what := .wait a false } }) ∧
  (∀ (s : State) (q : Nat) (hb : HoldB) (a : Ask) (b : Bool) (i : Instr), (s.seq q).f.holdB = some hb →
    hb.what = .wait a b → (s.seq q).f.asks = [] →
    i ∈ [Instr.pennantValueReturn q, Instr.waiterWake q, Instr.waiterPoll q] →
    let p := s.pennant a.h
    (p.latch = false → a.target.toNat ≤ p.count.toNat →
      ∃ t, exec i s = .next t ∧ (t.seq q).f.holdB = none ∧ (t.seq q).f.outs = (s.seq q).f.outs ∧ s.sameOthers t q ∧
        (t.seq q).c.window = ((s.seq q).retire hb.bn 1 1).c.window ∧
        (s.seq q).r.sameBut (t.seq q).r (a.slot.toList.map fun d => d.1) [a.n] [] [] ∧
        (a.n ≠ 0#7 → (t.seq q).r.getP a.n = 0xFFFFFFFF#32) ∧
        (∀ d w, a.slot = some (d, w) → (t.seq q).r.getS d = if d = 0#6 then 0#64 else w) ∧
        (t.core (coreOf q)).gen = (match a.acq with
          | some sc => ((s.bump (coreOf q) sc).core (coreOf q)).gen
          | none => (s.core (coreOf q)).gen)) ∧
    (p.latch = true → a.n ≠ 0#7 →
      ∃ t, exec i s = .next t ∧ (t.seq q).f.holdB = none ∧ s.sameOthers t q ∧ t.cores = s.cores ∧ t.mem = s.mem ∧
        (t.seq q).c.window = ((s.seq q).retire hb.bn 1 1).c.window ∧
        (s.seq q).r.sameBut (t.seq q).r [] [a.n] [] [] ∧ (t.seq q).r.getP a.n = 0#32) ∧
    (p.latch = true → a.n = 0#7 → ∃ (u : State) (tr : Trap), (u.seq q).f.holdB = none ∧ u.cur.seq = q ∧ u.cur.slot = 1 ∧
      u.cur.bn = hb.bn ∧ u.cores = s.cores ∧ u.mem = s.mem ∧ (u.seq q).r = (s.seq q).r ∧ tr.code = 0x30 ∧
      tr.w4 = a.h.setWidth 64 ∧ tr.w5 = p.count ∧ tr.w6 = a.target ∧ exec i s = u.raise tr) ∧
    (p.latch = false → p.count.toNat < a.target.toNat → i ≠ .waiterWake q → q ∉ (s.die (penDie a.h)).waiters →
      (s.die (penDie a.h)).waiters.length < 4096 →
      ∃ t, exec i s = .next t ∧ q ∈ (t.die (penDie a.h)).waiters ∧ (t.seq q).r = (s.seq q).r ∧ (t.seq q).c = (s.seq q).c ∧
        (t.seq q).f.holdB = some { hb with what := .wait a true } ∧ s.sameOthers t q ∧ t.cores = s.cores ∧ t.mem = s.mem))

/-! ### Atomics, mcas and fences (spec/08 R193, R197 to R199, spec/11 R259 to R269) -/

/-- An atomic as issued: guard, scope, base, whether it returns, its operation (none for compare and swap), and its operands. -/
def Sys2Proof.Stmt.atomicForm (s : State) : Instr → Option (BitVec 7 × Scope × BitVec 6 × Bool × Option AtOp × Word × Word)
  | .atR g x b sc op => some (g, sc, b, true, some op, s.rs x, 0#64)
  | .atCas g x b y sc => some (g, sc, b, true, none, s.rs x, s.rs y)
  | .red g x b sc op => some (g, sc, b, false, some op, s.rs x, 0#64)
  | _ => none

/-- A scope whose atomics run in the cluster L2 (spec/11 R259). -/
def Sys2Proof.Stmt.narrow (sc : Scope) : Prop := sc = .cr ∨ sc = .cl

/-- Issue (spec/11 R260, R261); the effect is in the next statement. -/
def Obligations.AtomicsAreSentToTheirPlace : Prop :=
  ∀ (i : Instr) (s : State) (g : BitVec 7) (sc : Scope) (b : BitVec 6) (ret : Bool) (op : Option AtOp) (x y : Word) (tr : Tr),
    Stmt.atomicForm s i = some (g, sc, b, ret, op, x, y) → s.guardOn g = true → s.atomicCheck sc (s.rs b) = .ok s tr →
    let id := s.me.f.lqNext
    let lq := s.me.f.lq ++ [{ id := id, coming := none, val := none, pop := none }]
    (ret = true → s.beforeAtomic sc (s.rs b) = [] → s.me.f.reserved.length < 64 → ∃ t, exec i s = .next t ∧
      s.sameOthers t s.cur.seq ∧ t.mem = s.mem ∧ t.cores = s.cores ∧ t.clusters = s.clusters ∧ t.dies = s.dies ∧
      (Stmt.narrow sc → t.hal = s.hal ∧ Stmt.issuedWith s t s.me.r { s.me.f with
        lq := lq, lqNext := id + 1,
        scopedAts := s.me.f.scopedAts ++ [{ bn := s.cur.bn, va := s.rs b, op := op, x := x, y := y, lq := id }] }) ∧
      (¬Stmt.narrow sc → Stmt.issuedWith s t s.me.r { s.me.f with lq := lq, lqNext := id + 1 } ∧
        ∃ k, t.hal = s.hal ++ [{ k := k, q := s.cur.seq, ctx := s.ctxOf s.cur.seq, op := match op with
          | some o => .atomic (s.rs b) tr.pa o x (some id)
          | none => .cas (s.rs b) tr.pa x y id }])) ∧
    (∀ o, ret = false → op = some o → s.fullB = false → ∃ t, exec i s = .next t ∧ s.sameOthers t s.cur.seq ∧
      s.sameModule t ∧ ∃ act, Stmt.issuedWith s t s.me.r { s.me.f with
        storeB := s.me.f.storeB ++ [{ bn := s.cur.bn, act := act, rel := none }] } ∧
      (Stmt.narrow sc → act = .red (s.rs b) o x) ∧ (¬Stmt.narrow sc → act = .hal (.atomic (s.rs b) tr.pa o x none)))

/-- The new value of a word (spec/11 R260, R261). -/
def Sys2Proof.Stmt.atomicNew (op : Option AtOp) (old x y : Word) : Word :=
  match op with
  | some .add => old + x
  | some .and => old &&& x
  | some .or => old ||| x
  | some .xor => old ^^^ x
  | some .min => if x.toInt < old.toInt then x else old
  | some .max => if old.toInt < x.toInt then x else old
  | some .swap => x
  | none => if old = x then y else old

/-- A word operation at a Halyard: its address, its place at issue, operation, operands, and the entry that its result goes to. -/
def Sys2Proof.Stmt.halForm : HalOp → Option (Word × Option AtOp × Word × Word × Option Nat)
  | .atomic va _ op v lq => some (va, some op, v, 0#64, lq)
  | .cas va _ x y lq => some (va, none, x, y, some lq)
  | _ => none

/-- A result of a sequencer that goes to the load queue of the launch that runs there: its entry is held, or no queue is kept for
another launch. -/
def Sys2Proof.Stmt.resultStays (s : State) (q id : Nat) : Prop :=
  (s.seq q).c.kept.isEmpty = true ∨ ∃ d ∈ (s.seq q).f.lq, d.id = id

/-- An access that changes nothing before its own effect: translated as it stands, writable with D set, no window, its key in use. -/
structure Sys2Proof.Stmt.quiet (s : State) (die ctx : Nat) (va : Word) (cls : Nat) (tr : Tr) : Prop where
  translated : s.translate die ctx va { cls := cls, write := true } = (s, .ok tr)
  inside : eNc tr.e2 = false
  dirtySet : eD tr.e2 = true
  key : s.keyOf (lineOf tr.pa) = (s.kid (eKsl tr.e2)).getD 0
  aligned : tr.pa % 8 = 0

/-- The place of the word is the translation of its address (spec/11 R260, R262, spec/08 R193). -/
def Obligations.AtomicsTakeEffectOnce : Prop :=
  (∀ (s : State) (k : Nat) (e : HalEnt) (va : Word) (op : Option AtOp) (x y : Word) (lq : Option Nat) (tr : Tr),
    s.hal.find? (fun e => e.k == k) = some e → Stmt.halForm e.op = some (va, op, x, y, lq) → s.earlierHal e = none →
    Stmt.quiet s (dieOf e.q % 16) e.ctx va pcHal tr → s.gate (lineOf tr.pa) true = none →
    (∀ id, lq = some id → Stmt.resultStays s e.q id) →
    let old := s.engWord tr.pa
    ∃ t, exec (.halyardAtomicExecute k) s = .next t ∧ t.hal = s.hal.filter (fun e => e.k != k) ∧
      t.engWord tr.pa = Stmt.atomicNew op old x y ∧
      (∀ a, a < tr.pa ∨ tr.pa + 8 ≤ a → t.engByte a = s.engByte a) ∧ t.sideBits (lineOf tr.pa) = 0#16 ∧ t.cores = s.cores ∧
      s.sameOthers t e.q ∧ (t.seq e.q).r = (s.seq e.q).r ∧ (t.seq e.q).c = (s.seq e.q).c ∧
      (lq = none → (t.seq e.q).f = (s.seq e.q).f) ∧
      (∀ id, lq = some id → (t.seq e.q).f = { (s.seq e.q).f with
        lq := (s.seq e.q).f.lq.map fun d => if d.id = id then { d with coming := some old } else d })) ∧
  (∀ (s : State) (q : Nat) (a : ScopedAt) (rest : List ScopedAt) (tr : Tr) (old : Word),
    (s.seq q).f.scopedAts = a :: rest → (s.seq q).f.storeBefore a = false → s.vstBefore q a = false →
    Stmt.resultStays s q a.lq → Stmt.quiet s (dieOf q) (s.ctxOf q) a.va pcMem tr →
    s.l1 (coreOf q) (lineOf tr.pa) (s.ctxOf q) = none →
    let copy := Tab.get? (s.cluster (clusterOf q)).scopedCopies (lineOf tr.pa)
    (∃ ln, s.l2 (clusterOf q) (lineOf tr.pa) = some ln ∧ ln.have_ = BitVec.allOnes 64 ∧
      (copy = none → old = takeAt ln.data (tr.pa % 64) 8) ∧
      (∀ c, copy = some c → ∀ b, b < 8 → old.extractLsb' (8 * b) 8 =
        if c.dirty.getLsbD (tr.pa % 64 + b) then c.data.extractLsb' (8 * (tr.pa % 64 + b)) 8
        else ln.data.extractLsb' (8 * (tr.pa % 64 + b)) 8)) →
    ∃ t c, exec (.scopedAtomicExecute q) s = .next t ∧
      Tab.get? (t.cluster (clusterOf q)).scopedCopies (lineOf tr.pa) = some c ∧
      takeAt c.data (tr.pa % 64) 8 = Stmt.atomicNew a.op old a.x a.y ∧
      (∀ b, b < 64 → c.dirty.getLsbD b =
        (decide (tr.pa % 64 ≤ b ∧ b < tr.pa % 64 + 8) || match copy with
          | some d => d.dirty.getLsbD b
          | none => false)) ∧ t.mem = s.mem ∧ t.cores = s.cores ∧ t.hal = s.hal ∧
      (∀ l, l ≠ lineOf tr.pa → Tab.get? (t.cluster (clusterOf q)).scopedCopies l =
        Tab.get? (s.cluster (clusterOf q)).scopedCopies l) ∧
      (∀ p, t.engByte p = s.engByte p) ∧ s.sameOthers t q ∧ (t.seq q).r = (s.seq q).r ∧ (t.seq q).c = (s.seq q).c ∧
      (t.seq q).f = { (s.seq q).f with
        scopedAts := rest,
        lq := (s.seq q).f.lq.map fun d => if d.id = a.lq then { d with coming := some old } else d }) ∧
  (∀ (s : State) (cl l : Nat) (c : CLine), s.gate l true = none → s.lost l = false → Tab.get? (s.cluster cl).scopedCopies l = some c →
    s.ownsM l cl = true → (s.l2 cl l).isSome = true →
    ∃ t, exec (.scopedCopyWriteback cl l) s = .next t ∧ t.seqs = s.seqs ∧ t.cores = s.cores ∧
      Tab.get? (t.cluster cl).scopedCopies l = none ∧
      (∀ m, m ≠ l → Tab.get? (t.cluster cl).scopedCopies m = Tab.get? (s.cluster cl).scopedCopies m) ∧
      (∀ b, b < 64 → t.engByte (64 * l + b) =
        if c.dirty.getLsbD b then c.data.extractLsb' (8 * b) 8 else s.engByte (64 * l + b)) ∧
      (∀ p, p / 64 ≠ l → t.engByte p = s.engByte p))

/-- The mcas of a sequencer's held slot, replaced. -/
def Sys2Proof.Stmt.mcasIs (s t : State) (q : Nat) (hb : HoldB) (m : Mcas) : Prop :=
  (t.seq q).f = { (s.seq q).f with holdB := some { hb with what := .mcas m } } ∧ (t.seq q).r = (s.seq q).r ∧
  (t.seq q).c = (s.seq q).c ∧ s.sameOthers t q

/-- Every lock of a sequencer is released, and no other. -/
def Sys2Proof.Stmt.unlocked (s t : State) (q : Nat) : Prop := ∀ d e, e ∈ (t.die d).locks ↔ e ∈ (s.die d).locks ∧ e.2 ≠ q

/-- The rules of spec/11 R265 to R268. -/
def Obligations.McasIsAllOrNothing : Prop :=
  (∀ (s : State) (g : BitVec 7) (y z : BitVec 6), s.guardOn g = true →
    let q := s.cur.seq
    ((s.rs z).toNat = 0 ∨ 16 < (s.rs z).toNat → ∃ tr : Trap, tr.code = 0x31 ∧ tr.w4.extractLsb' 0 8 = 1#8 ∧
      exec (.mcas g y z) s = s.raise tr) ∧
    (∀ s1 s2 s3 s4 es fs, 1 ≤ (s.rs z).toNat → (s.rs z).toNat ≤ 16 → s.drainStreams q = [] → s.streamFault = none →
      s.tryRelease q .sy = .ok s1 () → s1.tryHalDone q = .ok s2 () → s2.mcasRead q (s.rs y) 0 (s.rs z).toNat = .ok s3 es →
      s3.mcasCheck q (s.rs y) es = .ok s4 fs → fs.Pairwise (fun a b => lineOf a.pa ≠ lineOf b.pa) →
      s4.me.f.reserved.length < 64 →
      ∃ t gs, exec (.mcas g y z) s = .next t ∧ gs.Perm fs ∧ gs.Pairwise (fun a b => a.pa ≤ b.pa) ∧ t.me.r = s4.me.r ∧
        t.me.c = s4.me.c ∧ s4.sameOthers t s4.cur.seq ∧ s4.sameModule t ∧ t.me.f = { s4.me.f with
          lq := s4.me.f.lq ++ [{ id := s4.me.f.lqNext, coming := none, val := none, pop := none }],
          lqNext := s4.me.f.lqNext + 1,
          holdB := some { bn := s4.cur.bn, addr := s4.cur.addr, what := .mcas { ents := gs, attempt := 0, held := 0, backoff := false, since := s4.clock, result := none, lq := s4.me.f.lqNext } } })) ∧
  (∀ (s : State) (q : Nat) (hb : HoldB) (m : Mcas), (s.seq q).f.holdB = some hb → hb.what = .mcas m → m.result = none →
    let w := if m.ents.all fun e => e.pa / 2 ^ 49 % 8 == s.link.dev.toNat then 4096 else 32768
    (∀ e tr, m.backoff = false → s.clock < m.since + w → m.ents[m.held]? = some e →
      s.translate (dieOf q) (s.ctxOf q) e.va { cls := pcHal, write := true } = (s, .ok tr) → tr.pa = e.pa → eNc tr.e2 = false → Tab.get? (s.die (s.homeDie e.pa)).locks (lineOf e.pa) = none →
      (s.die (s.homeDie e.pa)).locks.length < 256 → s.gate (lineOf e.pa) true = none →
      (m.held + 1 < m.ents.length → ∃ t, exec (.mcasLockGrant q) s = .next t ∧
        Stmt.mcasIs s t q hb { m with held := m.held + 1 } ∧ (∀ p, t.engByte p = s.engByte p) ∧
        Tab.get? (t.die (s.homeDie e.pa)).locks (lineOf e.pa) = some q) ∧
      (m.held + 1 = m.ents.length → m.ents.Pairwise (fun a b => lineOf a.pa ≠ lineOf b.pa) →
        (∀ d ∈ m.ents, d.pa % 8 = 0 ∧ s.routed (paDev d.pa) = true ∧ ∃ x, s.tlbFind (dieOf q) (s.ctxOf q) d.va = some x ∧ eD x.e2 = true ∧
          eNc x.e2 = false ∧ s.keyOf (lineOf (x.tr d.va).pa) = (s.kid (eKsl x.e2)).getD 0) →
        ((∀ d ∈ m.ents, s.engWord d.pa = d.x) → ∃ t, exec (.mcasLockGrant q) s = .next t ∧
          Stmt.mcasIs s t q hb { m with held := 0, result := some 0#64 } ∧ (∀ d ∈ m.ents, t.engWord d.pa = d.y) ∧
          (∀ p, (∀ d ∈ m.ents, p < d.pa ∨ d.pa + 8 ≤ p) → t.engByte p = s.engByte p)) ∧
        ((∃ d ∈ m.ents, s.engWord d.pa ≠ d.x) → (m.ents.map (·.idx)).Nodup → (∀ d ∈ m.ents, d.idx < 16) →
          ∃ t w, exec (.mcasLockGrant q) s = .next t ∧ Stmt.mcasIs s t q hb { m with held := 0, result := some w } ∧
          (∀ p, t.engByte p = s.engByte p) ∧
          ∀ n, w.getLsbD n = true ↔ ∃ d ∈ m.ents, d.idx = n ∧ s.engWord d.pa ≠ d.x))) ∧
    (s.clock < m.since + w → exec (.mcasWindowExpire q) s = .next s) ∧
    (m.backoff = false → m.since + w ≤ s.clock → (m.attempt < 15 → ∃ t, exec (.mcasWindowExpire q) s = .next t ∧ Stmt.unlocked s t q ∧
        t.mem = s.mem ∧ Stmt.mcasIs s t q hb { m with attempt := m.attempt + 1, held := 0, backoff := true, since := s.clock }) ∧
      (m.attempt = 15 → ∃ t, exec (.mcasWindowExpire q) s = .next t ∧ Stmt.unlocked s t q ∧ t.mem = s.mem ∧
        Stmt.mcasIs s t q hb { m with attempt := 16, held := 0, result := some 0x10000#64 })) ∧
    (m.backoff = true → m.since + 64 * m.attempt ≤ s.clock → ∃ t es, exec (.mcasBackoffExpire q) s = .next t ∧
      (es.map fun e => (e.idx, e.va, e.x, e.y)).Perm (m.ents.map fun e => (e.idx, e.va, e.x, e.y)) ∧
      es.Pairwise (fun a b => a.pa ≤ b.pa) ∧
      Stmt.mcasIs s t q hb { m with ents := es, backoff := false, since := s.clock })) ∧
  (∀ (s : State) (q : Nat) (hb : HoldB) (m : Mcas) (w : Word) (e : LqEnt), (s.seq q).f.holdB = some hb →
    hb.what = .mcas m → m.result = some w → (s.seq q).f.lq.find? (fun d => d.id == m.lq) = some e → e.pop = none →
    ∃ t, exec (.mcasResultReturn q) s = .next t ∧ (t.seq q).f.holdB = none ∧ (t.seq q).r = (s.seq q).r ∧
      (t.seq q).f.lq = (s.seq q).f.lq.map (fun d => if d.id = m.lq then { d with val := some w, coming := none } else d) ∧
      (t.seq q).c.window = ((s.seq q).retire hb.bn 1 1).c.window ∧ s.sameOthers t q ∧
      (t.core (coreOf q)).gen = ((s.bump (coreOf q) .sy).core (coreOf q)).gen)

/-- The cached copy is discarded and the page is walked again (spec/18 R393, spec/11 R266). -/
def Obligations.MovedRequestersWalkAgain : Prop :=
  (∀ (s : State) (q : Nat) (va : Word), (s.seq q).mcas = none → s.oldestRequest q = some va →
    ∃ t, exec (.movedResponse q) s = .next t ∧ t.seqs = s.seqs ∧ t.mem = s.mem ∧ t.cores = s.cores ∧
      t.clusters = s.clusters ∧ (∀ d, d ≠ dieOf q → t.die d = s.die d) ∧
      (∀ x, x ∈ (t.die (dieOf q)).tlb ↔ x ∈ (s.die (dieOf q)).tlb ∧
        ¬(x.ctx = s.ctxOf q ∧ x.va ≤ va.toNat ∧ va.toNat < x.va + x.size))) ∧
  (∀ (s : State) (q : Nat) (hb : HoldB) (m : Mcas), (s.seq q).f.holdB = some hb → hb.what = .mcas m → m.result = none →
    ∃ t es, exec (.movedResponse q) s = .next t ∧ es.Pairwise (fun a b => a.pa ≤ b.pa) ∧
      (es.map fun e => (e.idx, e.va, e.x, e.y)).Perm (m.ents.map fun e => (e.idx, e.va, e.x, e.y)) ∧
      (m.backoff = true → Stmt.mcasIs s t q hb { m with ents := es }) ∧
      (m.backoff = false → Stmt.unlocked s t q) ∧
      (m.backoff = false → m.attempt ≠ 15 →
        Stmt.mcasIs s t q hb { m with ents := es, attempt := m.attempt + 1, held := 0, backoff := true, since := s.clock }) ∧
      (m.backoff = false → m.attempt = 15 → Stmt.mcasIs s t q hb { m with ents := es, attempt := 16, held := 0, result := some 0x10000#64 }))

/-- The generation word shows the acquire (spec/08 R186, R189). -/
def Obligations.FencesReleaseThenAcquire : Prop :=
  (∀ (i : Instr) (s : State) (g : BitVec 7) (what : Hold) (mem : Bool), s.guardOn g = true →
    (∃ sc, i = .fence g sc ∧ what = .fence sc ∧ mem = true) ∨
      (∃ a b, i = .xfence g a b ∧ what = .xfence a b ∧ mem = decide (a = .mem ∨ b = .mem)) →
    (mem = true → s.drainStreams s.cur.seq = []) →
    (mem = false ∨ s.streamFault = none → ∃ t, exec i s = .next t ∧ t.me.r = s.me.r ∧ t.me.c = s.me.c ∧
      t.me.f = { s.me.f with holdB := some { bn := s.cur.bn, addr := s.cur.addr, what := what } } ∧
      s.sameOthers t s.cur.seq ∧ s.sameModule t) ∧
    (∀ tr, mem = true → s.streamFault = some tr → exec i s = s.raise tr)) ∧
  (∀ (s : State) (q : Nat) (hb : HoldB) (sc : Scope), (s.seq q).f.holdB = some hb → hb.what = .fence sc →
    (∀ s1, s.tryRelease q sc = .ok s1 () → ∃ t, exec (.fenceComplete q) s = .next t ∧ (t.seq q).f.holdB = none ∧
      (t.seq q).r = (s1.seq q).r ∧ (t.seq q).c.window = ((s1.seq q).retire hb.bn 1 1).c.window ∧ s1.sameOthers t q ∧
      (t.core (coreOf q)).gen = ((s.bump (coreOf q) sc).core (coreOf q)).gen ∧
      (sc ≠ .cr → ∀ l x, t.l1 (coreOf q) l (s.ctxOf q) = some x → x.ctx = s.ctxOf q → x.dirty = 0#64)) ∧
    (s.storeEvents q ++ s.drainStreams q ≠ [] → ∃ t, exec (.fenceComplete q) s = .next t ∧ t.seqs = s.seqs ∧
      s.sameModule t ∧ t.agenda = s.storeEvents q ++ s.drainStreams q ++ s.agenda)) ∧
  (∀ (s : State) (q : Nat) (hb : HoldB) (a b : PClass) (s1 : State), (s.seq q).f.holdB = some hb →
    hb.what = .xfence a b → s.classDone q a = .ok s1 () → ∃ t, exec (.fenceComplete q) s = .next t ∧
      (t.seq q).f.holdB = none ∧ (t.seq q).r = (s1.seq q).r ∧
      (t.seq q).c.window = ((s1.seq q).retire hb.bn 1 1).c.window ∧ s1.sameOthers t q ∧
      (t.core (coreOf q)).gen = if a = .mem ∨ b = .mem then ((s1.bump (coreOf q) .sy).core (coreOf q)).gen
        else (s1.core (coreOf q)).gen)

/-! ### Buffers (spec/07 R166 to R173) -/

/-- The transition matrix of spec/07 R168: free 0, empty 1, filling 2, full 3, draining 4, faulted 5. -/
def Sys2Proof.Stmt.bufNext : BufOp → Nat → Option (BitVec 3)
  | .decl _ _ _ _, 0 => some 1#3
  | .fill, 1 => some 2#3
  | .fill, 5 => some 2#3
  | .done, 2 => some 3#3
  | .done, 4 => some 1#3
  | .drain, 3 => some 4#3
  | .free, 1 => some 0#3
  | .free, 3 => some 0#3
  | .free, 5 => some 0#3
  | _, _ => none

/-- Nothing that a state change waits for is left (spec/07 R169, R172). -/
structure Sys2Proof.Stmt.changeDue (s : State) (q : Nat) (hb : HoldB) (n : BitVec 6) (op : BufOp) : Prop where
  held : (s.seq q).f.holdB = some hb
  what : hb.what = .buf n op
  issued : (s.seq q).writesIssued hb.bn = true
  locals : s.localStores (clusterOf q) = []
  streams : s.drainStreams q = []
  zeroed : op = .fill → ((s.core (coreOf q)).desc n.toNat).zeroing = false

/-- The descriptor's word field by field (spec/07 R167). -/
def Obligations.BuffersFollowTheirMatrix : Prop :=
  (∀ (s : State) (g : BitVec 7) (x y z : BitVec 6) (spec : BitVec 1) (own : BitVec 2), s.guardOn g = true →
    s.descOk s.cur.seq x.toNat = true →
    let c := coreOf s.cur.seq
    let base := (s.rs y).toNat
    let size := (s.rs z).toNat
    let span := if spec = 1#1 then 2 * size else size
    base < 2 ^ 20 → base % 64 = 0 → 0 < size → size % 64 = 0 → base + span ≤ 2 ^ 20 →
    (∀ b, b < 4 → b * 2 ^ 18 < base + span → base < (b + 1) * 2 ^ 18 → s.quadRuns c b (s.ctxOf s.cur.seq) = true) →
    (spec = 1#1 → s.quadRuns c own.toNat (s.ctxOf s.cur.seq) = true) →
    ∃ t, exec (.bfDecl g x y z spec own) s = .next t ∧ t.me.r = s.me.r ∧ t.me.c = s.me.c ∧
      s.sameOthers t s.cur.seq ∧ s.sameModule t ∧ t.me.f = { s.me.f with
        holdB := some { bn := s.cur.bn, addr := s.cur.addr, what := .buf x (.decl base size (spec == 1#1) own) } }) ∧
  (∀ (s : State) (g : BitVec 7) (x y z : BitVec 6) (spec : BitVec 1) (own : BitVec 2) (i : Instr) (op : Option BufOp),
    s.guardOn g = true → (i, op) ∈ [(Instr.bfFill g x, some BufOp.fill), (Instr.bfDone g x, some BufOp.done),
      (Instr.bfDrain g x, some BufOp.drain), (Instr.bfFree g x, some BufOp.free), (Instr.bfState g y x, none),
      (Instr.bfDecl g x y z spec own, none)] →
    (s.descOk s.cur.seq x.toNat = false → ∃ tr : Trap, tr.code = 0x11 ∧ exec i s = s.raise tr) ∧
    (∀ o, op = some o → s.descOk s.cur.seq x.toNat = true → ∃ t, exec i s = .next t ∧ t.me.r = s.me.r ∧
      t.me.c = s.me.c ∧ s.sameOthers t s.cur.seq ∧ s.sameModule t ∧ t.me.f = { s.me.f with
        holdB := some { bn := s.cur.bn, addr := s.cur.addr, what := .buf x o } })) ∧
  (∀ (s : State) (g : BitVec 7) (x y : BitVec 6), s.guardOn g = true → s.descOk s.cur.seq y.toNat = true →
    let d := (s.core (coreOf s.cur.seq)).desc y.toNat
    ∃ t w, exec (.bfState g x y) s = .next t ∧ Stmt.awaits s.me.f t.me.f x w ∧ t.me.r = s.me.r ∧
      s.sameOthers t s.cur.seq ∧ s.sameModule t ∧
      w = 0#16 ++ d.lines ++ d.base ++ 0#3 ++ BitVec.ofBool d.zeroing ++ BitVec.ofBool d.spec ++ d.owner ++ 0#9 ++ d.state) ∧
  (∀ (s : State) (q : Nat) (hb : HoldB) (n : BitVec 6) (op : BufOp), Stmt.changeDue s q hb n op →
    let c := s.core (coreOf q)
    let d := c.desc n.toNat
    (∀ st, s.descOk q n.toNat = true → s.declLost q op = false → Stmt.bufNext op d.state.toNat = some st →
      (∀ base size sp own, op = .decl base size sp own →
        ∀ e ∈ c.descs, e.2.meets base (if sp then 2 * (64 * (BitVec.ofNat 15 (size / 64)).toNat)
          else 64 * (BitVec.ofNat 15 (size / 64)).toNat) = false) →
      ∃ t, exec (.bufferStateChange q) s = .next t ∧ (t.seq q).f = { (s.seq q).f with holdB := none } ∧
        (t.seq q).r = (s.seq q).r ∧ (t.seq q).c.window = ((s.seq q).retire hb.bn 1 1).c.window ∧ s.sameOthers t q ∧
        t.mem = s.mem ∧ t.clusters = s.clusters ∧ (∀ k, k ≠ coreOf q → t.core k = s.core k) ∧
        (t.core (coreOf q)).spad = c.spad ∧ (t.core (coreOf q)).acc = c.acc ∧ (t.core (coreOf q)).l1 = c.l1 ∧
        (∀ m, m ≠ n.toNat → (t.core (coreOf q)).desc m = c.desc m) ∧
        (t.core (coreOf q)).desc n.toNat = match op with
          | .decl base size sp own =>
            { lines := BitVec.ofNat 15 (size / 64), base := BitVec.ofNat 14 (base / 64), zeroing := true, spec := sp,
              owner := own, state := 1#3 }
          | .free => { lines := 0#15, base := 0#14, zeroing := false, spec := false, owner := 0#2, state := 0#3 }
          | _ => { d with state := st }) ∧
    (s.descOk q n.toNat = false ∨ s.declLost q op = true → ∃ (u : State) (tr : Trap),
      exec (.bufferStateChange q) s = u.raise tr ∧ tr.code = 0x11 ∧ u.cores = s.cores ∧ u.mem = s.mem ∧
      (u.seq q).r = (s.seq q).r ∧ (u.seq q).f = { (s.seq q).f with holdB := none } ∧ u.cur.seq = q ∧ u.cur.slot = 1 ∧
      u.cur.bn = hb.bn) ∧
    (s.descOk q n.toNat = true → s.declLost q op = false → Stmt.bufNext op d.state.toNat = none → ∃ (u : State) (tr : Trap), exec (.bufferStateChange q) s = u.raise tr ∧
      tr.code = 0x12 ∧ tr.w4.extractLsb' 55 3 = d.state ∧ tr.w4.extractLsb' 48 3 = 2#3 ∧ u.cores = s.cores ∧
      u.mem = s.mem ∧ (u.seq q).r = (s.seq q).r ∧ (u.seq q).f = { (s.seq q).f with holdB := none } ∧ u.cur.seq = q ∧
      u.cur.slot = 1 ∧ u.cur.bn = hb.bn)) ∧
  (∀ (s : State) (k n : Nat), ((s.core k).desc n).zeroing = true →
    let d := (s.core k).desc n
    ∃ t, exec (.bufferZeroingDone k n) s = .next t ∧ (∀ j, j ≠ k → t.core j = s.core j) ∧ t.seqs = s.seqs ∧
      t.mem = s.mem ∧ (t.core k).acc = (s.core k).acc ∧ (t.core k).desc n = { d with zeroing := false } ∧
      (∀ m, m ≠ n → (t.core k).desc m = (s.core k).desc m) ∧
      (∀ o, Mem.get (t.core k).spad o =
        if 64 * d.base.toNat ≤ o ∧ o < 64 * d.base.toNat + (if d.spec then 2 else 1) * (64 * d.lines.toNat) then 0#8
        else Mem.get (s.core k).spad o))

/-! ### Vector work (spec/04 R102 to R105, spec/05 R107 to R133) -/

/-- Element e of w bits of a vector register (spec/05 R107). -/
def Sys2Proof.Stmt.elemV (w : Nat) (x : BitVec 1024) (e : Nat) : Nat := x.toNat / 2 ^ (w * e) % 2 ^ w

/-- A slot instruction that has written one vector register, whole elements of it, and raised flags in its bundle. -/
structure Sys2Proof.Stmt.vecWritten (s t : State) (d : BitVec 5) (fl : BitVec 4) : Prop where
  regs : s.me.r.sameBut t.me.r [] [] [d] []
  ctl : t.me.c = { s.me.c with
    window := t.me.c.window, late := t.me.c.late,
    fmt := if fl = 0#4 then s.me.c.fmt else { s.me.c.fmt with raises := s.me.c.fmt.raises ++ [(s.cur.bn, fl)] } }
  flight : s.me.f.sameBut t.me.f
  issued : t.me.c.window = (s.me.retire s.cur.bn s.cur.slot 1).c.window
  others : s.sameOthers t s.cur.seq
  module : s.sameModule t

/-- A slot instruction that has written some vector registers and streams, and raised flags in its bundle. -/
structure Sys2Proof.Stmt.vecDone (s t : State) (vs : List (BitVec 5)) (qs : List (BitVec 3)) (fl : BitVec 4) : Prop where
  regs : s.me.r.sameBut t.me.r [] [] vs qs
  ctl : t.me.c = { s.me.c with
    window := t.me.c.window, late := t.me.c.late,
    fmt := if fl = 0#4 then s.me.c.fmt else { s.me.c.fmt with raises := s.me.c.fmt.raises ++ [(s.cur.bn, fl)] } }
  flight : s.me.f.sameBut t.me.f
  issued : t.me.c.window = (s.me.retire s.cur.bn s.cur.slot 1).c.window
  others : s.sameOthers t s.cur.seq
  module : s.sameModule t

/-- A source operand can be read: a register, or a bound read stream with a vector filled and steps left (spec/05 R130). -/
def Sys2Proof.Stmt.srcReady (s : State) : VOp → Prop
  | .v _ => True
  | .q n =>
    let x := s.me.r.getQ n
    x.bound = true ∧ x.pat.ctl.getLsbD 0 = false ∧ x.taken < x.pat.steps ∧ x.queue ≠ []

/-- A destination can be written: a register, or a bound write stream with steps left, no fault latched and fewer than eight vectors
pending (spec/05 R130). -/
def Sys2Proof.Stmt.dstReady (s : State) : VOp → Prop
  | .v _ => True
  | .q n =>
    let x := s.me.r.getQ n
    x.bound = true ∧ x.pat.ctl.getLsbD 0 = true ∧ x.taken < x.pat.steps ∧ x.fault = none ∧ x.queue.length < 8

/-- The streams that operands name. -/
def Sys2Proof.Stmt.streamsOf (os : List VOp) : List (BitVec 3) := os.filterMap fun o => match o with | .q n => some n | .v _ => none

/-- The vector registers that operands name. -/
def Sys2Proof.Stmt.regsOf (os : List VOp) : List (BitVec 5) := os.filterMap fun o => match o with | .v n => some n | .q _ => none

/-- A read stream has taken one step (spec/05 R130). -/
def Sys2Proof.Stmt.stepped (s t : State) (n : BitVec 3) : Prop :=
  let x := s.me.r.getQ n
  t.me.r.getQ n = { x with taken := x.taken + 1, queue := x.queue.drop 1 }

/-- Every source stream has taken its step. -/
def Sys2Proof.Stmt.allStepped (s t : State) (os : List VOp) : Prop := ∀ n, n ∈ Stmt.streamsOf os → Stmt.stepped s t n

/-- A vector instruction has read its sources and given its destination the value that `ok` describes, in some lanes: a register takes the
bits of those lanes and keeps the others; a write stream is given one more vector, with the bytes of those lanes active (spec/05 R107,
R130). -/
structure Sys2Proof.Stmt.vecGives (s t : State) (vd : VOp) (srcs : List VOp) (fl : BitVec 4) (lanes : BitVec 32)
    (ok : BitVec 1024 → Prop) : Prop where
  done : Stmt.vecDone s t (Stmt.regsOf [vd]) (Stmt.streamsOf (vd :: srcs)) fl
  steps : Stmt.allStepped s t srcs
  reg : ∀ d, vd = .v d → ∃ v, ok v ∧ ∀ n, n < 1024 → (t.rv d).getLsbD n =
    if lanes.getLsbD (n / 32) then v.getLsbD n else (s.rv d).getLsbD n
  stream : ∀ n, vd = .q n → ∃ v : SVec, ok v.v ∧ v.cov = s.me.covers s.cur.bn ∧ v.mxs = false ∧
    (∀ b, b < 128 → v.act.getLsbD b = lanes.getLsbD (b / 4)) ∧
    t.me.r.getQ n = { s.me.r.getQ n with taken := (s.me.r.getQ n).taken + 1, queue := (s.me.r.getQ n).queue ++ [v] }

/-- An elementwise form of R112 or R114: guard, type, destination, first source, the other marked source if it has one, second source by
element (for a width), lane predicate, and its place in the order add, sub, mul, fma, min, max, shl, shr. -/
def Sys2Proof.Stmt.vectorForm (s : State) :
    Instr → Option (BitVec 7 × VTy × VOp × VOp × List VOp × (Nat → Nat → Nat) × BitVec 7 × Nat)
  | .vaddC3 g ty d a b lp => some (g, ty, d, a, [b], fun w e => Stmt.elemV w (s.peek b) e, lp, 0)
  | .vsubC3 g ty d a b lp => some (g, ty, d, a, [b], fun w e => Stmt.elemV w (s.peek b) e, lp, 1)
  | .vmulC3 g ty d a b lp => some (g, ty, d, a, [b], fun w e => Stmt.elemV w (s.peek b) e, lp, 2)
  | .vfmaC3 g ty d a b lp => some (g, ty, d, a, [b], fun w e => Stmt.elemV w (s.peek b) e, lp, 3)
  | .vminC3 g ty d a b lp => some (g, ty, d, a, [b], fun w e => Stmt.elemV w (s.peek b) e, lp, 4)
  | .vmaxC3 g ty d a b lp => some (g, ty, d, a, [b], fun w e => Stmt.elemV w (s.peek b) e, lp, 5)
  | .vshlC3 g ty d a b lp => some (g, ty, d, a, [b], fun w e => Stmt.elemV w (s.peek b) e, lp, 6)
  | .vshrC3 g ty d a b lp => some (g, ty, d, a, [b], fun w e => Stmt.elemV w (s.peek b) e, lp, 7)
  | .vaddCs g ty d a x lp => some (g, VTy2.ty ty, d, a, [], fun w _ => (s.rs x).toNat % 2 ^ w, lp, 0)
  | .vsubCs g ty d a x lp => some (g, VTy2.ty ty, d, a, [], fun w _ => (s.rs x).toNat % 2 ^ w, lp, 1)
  | .vmulCs g ty d a x lp => some (g, VTy2.ty ty, d, a, [], fun w _ => (s.rs x).toNat % 2 ^ w, lp, 2)
  | .vfmaCs g ty d a x lp => some (g, VTy2.ty ty, d, a, [], fun w _ => (s.rs x).toNat % 2 ^ w, lp, 3)
  | .vminCs g ty d a x lp => some (g, VTy2.ty ty, d, a, [], fun w _ => (s.rs x).toNat % 2 ^ w, lp, 4)
  | .vmaxCs g ty d a x lp => some (g, VTy2.ty ty, d, a, [], fun w _ => (s.rs x).toNat % 2 ^ w, lp, 5)
  | .vshlCs g ty d a x lp => some (g, VTy2.ty ty, d, a, [], fun w _ => (s.rs x).toNat % 2 ^ w, lp, 6)
  | .vshrCs g ty d a x lp => some (g, VTy2.ty ty, d, a, [], fun w _ => (s.rs x).toNat % 2 ^ w, lp, 7)
  | _ => none

/-- The width of a type, and its floating format (spec/02 R40, spec/05 R107). -/
def Sys2Proof.Stmt.typeOf : VTy → Nat × Option Flt
  | .fp32 => (32, some fp32F)
  | .bf16 => (16, some bf16F)
  | .fp16 => (16, some fp16F)
  | .int32 => (32, none)
  | .int16 => (16, none)
  | .int8 => (8, none)

/-- An integer operation on w-bit elements (spec/05 R112), before it wraps. -/
def Sys2Proof.Stmt.intOp (w k a b c : Nat) : Nat :=
  match k with
  | 0 => a + b
  | 1 => a + 2 ^ w - b
  | 2 => a * b
  | 3 => a * b + c
  | 4 => if (BitVec.ofNat w a).toInt ≤ (BitVec.ofNat w b).toInt then a else b
  | 5 => if (BitVec.ofNat w b).toInt ≤ (BitVec.ofNat w a).toInt then a else b
  | 6 => a * 2 ^ (b % w)
  | _ => a / 2 ^ (b % w)

/-- A floating operation on exact values, rounded once, with its flags (spec/05 R110 to R112). -/
def Sys2Proof.Stmt.fltOp (f : Flt) (k : Nat) (a b c : Machine.Num) : Flagged Machine.Num :=
  match k with
  | 0 => f.add a b
  | 1 => f.sub a b
  | 2 => f.mul a b
  | 3 => f.fma a b c
  | 4 => (a.minX b, {})
  | _ => (a.maxX b, {})

/-- The lane of an element is on. -/
def Sys2Proof.Stmt.laneOf (p : BitVec 32) (w e : Nat) : Prop := p.getLsbD (e * w / 32) = true

/-- The flags of an instruction are those that some written element raises. -/
def Sys2Proof.Stmt.flagsOf (fl : BitVec 4) (n : Nat) (on : Nat → Prop) (fls : Nat → FlagSet) : Prop :=
  (fl.getLsbD 0 = true ↔ ∃ e, e < n ∧ on e ∧ (fls e).invalid = true) ∧
  (fl.getLsbD 1 = true ↔ ∃ e, e < n ∧ on e ∧ (fls e).overflow = true) ∧
  (fl.getLsbD 2 = true ↔ ∃ e, e < n ∧ on e ∧ (fls e).underflow = true) ∧
  (fl.getLsbD 3 = true ↔ ∃ e, e < n ∧ on e ∧ (fls e).inexact = true)

/-- Element by element (spec/05 R107, R112, R114), with the operand forms of R130. Of the refusals of a marked destination of vfma the rule
gives no order: reason 2 before reason 3 is the model's choice (log 78). -/
def Obligations.VectorElementsAreIndependent : Prop :=
  ∀ (i : Instr) (s : State) (g : BitVec 7) (ty : VTy) (vd va : VOp) (vb : List VOp) (b : Nat → Nat → Nat) (lp : BitVec 7)
    (k : Nat), Stmt.vectorForm s i = some (g, ty, vd, va, vb, b, lp, k) → s.guardOn g = true →
    (∀ o ∈ va :: vb, Stmt.srcReady s o) →
    let w := (Stmt.typeOf ty).1
    let a := s.peek va
    let d := match vd with | .v n => s.rv n | .q _ => 0#1024
    (Stmt.dstReady s vd → (k = 3 → ∃ n, vd = .v n) →
      ((Stmt.typeOf ty).2 = none → ∃ t, exec i s = .next t ∧ Stmt.vecGives s t vd (va :: vb) 0#4 (s.rp lp) fun v =>
        ∀ e, e < 1024 / w → Stmt.elemV w v e = Stmt.intOp w k (Stmt.elemV w a e) (b w e) (Stmt.elemV w d e) % 2 ^ w) ∧
      (∀ f, (Stmt.typeOf ty).2 = some f → k < 6 →
        let r := fun e => Stmt.fltOp f k (f.dec (Stmt.elemV w a e)) (f.dec (b w e)) (f.dec (Stmt.elemV w d e))
        ∃ t fl, exec i s = .next t ∧ Stmt.flagsOf fl (1024 / w) (Stmt.laneOf (s.rp lp) w) (fun e => (r e).2) ∧
          Stmt.vecGives s t vd (va :: vb) fl (s.rp lp) fun v =>
            ∀ e, e < 1024 / w → Stmt.elemV w v e = f.enc (r e).1 % 2 ^ w)) ∧
    (∀ n, k = 3 → vd = .q n →
      let x := s.me.r.getQ n
      (x.pat.ctl.getLsbD 0 = true → x.fault = none ∧ x.queue.length < 8) → ∃ tr : Trap, tr.code = 0x14 ∧
        tr.w4.toNat = n.toNat + 16 * (if x.bound = true ∧ x.taken < x.pat.steps then 3 else 2) ∧ exec i s = s.raise tr)

/-- Lane i is bits 32i + 31 to 32i (spec/05 R107). -/
def Obligations.VectorLanesMoveAsBits : Prop :=
  ∀ (s : State) (g : BitVec 7) (d a b : VOp) (lp : BitVec 7) (x : BitVec 6), s.guardOn g = true → Stmt.dstReady s d →
    (Stmt.srcReady s a → Stmt.srcReady s b →
      (∀ i f, (i, f) ∈ [(Instr.vand g d a b lp, fun p q => p && q), (Instr.vor g d a b lp, fun p q => p || q),
          (Instr.vxor g d a b lp, fun (p q : Bool) => p ^^ q)] →
        ∃ t, exec i s = .next t ∧ Stmt.vecGives s t d [a, b] 0#4 (s.rp lp) fun v => ∀ n, n < 1024 →
          v.getLsbD n = f ((s.peek a).getLsbD n) ((s.peek b).getLsbD n)) ∧
      (∃ t, exec (.vsel g d a b lp) s = .next t ∧ Stmt.vecGives s t d [a, b] 0#4 0xFFFFFFFF#32 fun v => ∀ n, n < 1024 →
        v.getLsbD n = if (s.rp lp).getLsbD (n / 32) then (s.peek a).getLsbD n else (s.peek b).getLsbD n) ∧
      (∃ t, exec (.vperm g d a b lp) s = .next t ∧ Stmt.vecGives s t d [a, b] 0#4 (s.rp lp) fun v => ∀ i, i < 32 →
        Stmt.elemV 32 v i = Stmt.elemV 32 (s.peek a) (Stmt.elemV 32 (s.peek b) i % 32))) ∧
    (∀ ty, ∃ t, exec (.vbcast g ty d x lp) s = .next t ∧ Stmt.vecGives s t d [] 0#4 (s.rp lp) fun v =>
      let w := (Stmt.typeOf (VTy2.ty ty)).1
      ∀ e, e < 1024 / w → Stmt.elemV w v e = (s.rs x).toNat % 2 ^ w)

/-- The tree of spec/05 R118: after k halvings, element i. -/
def Sys2Proof.Stmt.treeAt (f : Nat → Nat → Nat) (x : Nat → Nat) : Nat → Nat → Nat
  | 0, i => x i
  | k + 1, i => f (treeAt f x k i) (treeAt f x k (i + 2 ^ (4 - k)))

/-- One step of a reduction on 32-bit lanes, and the identity (spec/05 R118). -/
def Sys2Proof.Stmt.redOp (fp : Bool) (op : RedOp) (a b : Nat) : Nat :=
  match op, fp with
  | .add, false => (a + b) % 2 ^ 32
  | .min, false => if (BitVec.ofNat 32 a).toInt ≤ (BitVec.ofNat 32 b).toInt then a else b
  | .max, false => if (BitVec.ofNat 32 b).toInt ≤ (BitVec.ofNat 32 a).toInt then a else b
  | .and, _ => a &&& b
  | .or, _ => a ||| b
  | .xor, _ => a ^^^ b
  | .add, true => fp32F.enc (fp32F.add (fp32F.dec a) (fp32F.dec b)).1
  | .min, true => fp32F.enc ((fp32F.dec a).minX (fp32F.dec b))
  | .max, true => fp32F.enc ((fp32F.dec a).maxX (fp32F.dec b))

/-- The identity of an operation (spec/05 R118). -/
def Sys2Proof.Stmt.redUnit (fp : Bool) : RedOp → Nat
  | .add => if fp then 0x80000000 else 0
  | .min => if fp then 0x7F800000 else 0x7FFFFFFF
  | .max => if fp then 0xFF800000 else 0x80000000
  | .and => 0xFFFFFFFF
  | .or => 0
  | .xor => 0

/-- The flags of one step of a reduction (spec/05 R118): only a sum of fp32 values raises any. -/
def Sys2Proof.Stmt.redFlags (fp : Bool) (op : RedOp) (a b : Nat) : FlagSet :=
  match op, fp with
  | .add, true => (fp32F.add (fp32F.dec a) (fp32F.dec b)).2
  | _, _ => {}

/-- The flags of a reduction are those that some step of its tree raises. -/
def Sys2Proof.Stmt.treeFlags (fl : BitVec 4) (step : Nat → Nat → FlagSet) : Prop :=
  (fl.getLsbD 0 = true ↔ ∃ k i, k < 5 ∧ i < 2 ^ (4 - k) ∧ (step k i).invalid = true) ∧
  (fl.getLsbD 1 = true ↔ ∃ k i, k < 5 ∧ i < 2 ^ (4 - k) ∧ (step k i).overflow = true) ∧
  (fl.getLsbD 2 = true ↔ ∃ k i, k < 5 ∧ i < 2 ^ (4 - k) ∧ (step k i).underflow = true) ∧
  (fl.getLsbD 3 = true ↔ ∃ k i, k < 5 ∧ i < 2 ^ (4 - k) ∧ (step k i).inexact = true)

/-- The conditions and the tree as the spec writes them (spec/05 R116, R118). -/
def Obligations.VectorComparesAndReductions : Prop :=
  (∀ (s : State) (g : BitVec 7) (n : BitVec 6) (a b : VOp) (cond : BitVec 3) (fp : Bool), s.guardOn g = true →
    cond.toNat ≤ 5 → (fp = true → cond.toNat ≤ 4) → Stmt.srcReady s a → Stmt.srcReady s b →
    let holds := fun l =>
      let x := BitVec.ofNat 32 (Stmt.elemV 32 (s.peek a) l)
      let y := BitVec.ofNat 32 (Stmt.elemV 32 (s.peek b) l)
      let nan := Stmt.f32NaN x || Stmt.f32NaN y
      match fp, cond.toNat with
      | false, 0 => x == y
      | false, 1 => x != y
      | false, 2 => decide (x.toInt < y.toInt)
      | false, 3 => decide (x.toInt ≤ y.toInt)
      | false, 4 => decide (x.toNat < y.toNat)
      | false, _ => decide (x.toNat ≤ y.toNat)
      | true, 0 => !nan && decide (Stmt.f32Scaled x = Stmt.f32Scaled y)
      | true, 1 => nan || decide (Stmt.f32Scaled x ≠ Stmt.f32Scaled y)
      | true, 2 => !nan && decide (Stmt.f32Scaled x < Stmt.f32Scaled y)
      | true, 3 => !nan && decide (Stmt.f32Scaled x ≤ Stmt.f32Scaled y)
      | true, _ => nan
    ∃ t, exec (.vcmp g n a b cond fp) s = .next t ∧ s.onlyRegs t [] [n ++ 0#1, n ++ 1#1] [] (Stmt.streamsOf [a, b]) ∧
      Stmt.allStepped s t [a, b] ∧
      ∀ l, l < 32 → (n ≠ 0#6 → (t.rp (n ++ 0#1)).getLsbD l = holds l) ∧ (t.rp (n ++ 1#1)).getLsbD l = !holds l) ∧
  (∀ (s : State) (g : BitVec 7) (fp : Bool) (op : RedOp) (a : VOp) (lp : BitVec 7), s.guardOn g = true →
    (fp = true → op = .add ∨ op = .min ∨ op = .max) → Stmt.srcReady s a →
    let x := fun l => if (s.rp lp).getLsbD l then Stmt.elemV 32 (s.peek a) l else Stmt.redUnit fp op
    let tree := Stmt.treeAt (Stmt.redOp fp op) x
    let flags := fun fl => Stmt.treeFlags fl fun k i => Stmt.redFlags fp op (tree k i) (tree k (i + 2 ^ (4 - k)))
    let reduced := fun (v : BitVec 1024) => Stmt.elemV 32 v 0 = tree 5 0 ∧ ∀ l, 1 ≤ l → l < 32 → Stmt.elemV 32 v l = 0
    (∀ d, ∃ t fl, exec (.vred g fp op (.v d) a lp) s = .next t ∧ Stmt.vecDone s t [d] (Stmt.streamsOf [a]) fl ∧ flags fl ∧
      Stmt.allStepped s t [a] ∧ reduced (t.rv d)) ∧
    (∀ n, let y := s.me.r.getQ n
      y.bound = true → y.pat.ctl.getLsbD 0 = true → y.taken < y.pat.steps → y.fault = none → y.queue.length < 8 →
      ∃ t fl v, exec (.vred g fp op (.q n) a lp) s = .next t ∧ Stmt.vecDone s t [] (n :: Stmt.streamsOf [a]) fl ∧ flags fl ∧
        Stmt.allStepped s t [a] ∧ reduced v.v ∧ v.act = BitVec.allOnes 128 ∧ v.cov = s.me.covers s.cur.bn ∧ v.mxs = false ∧
        t.me.r.getQ n = { y with taken := y.taken + 1, queue := y.queue ++ [v] }))

/-- A function of one fp32 operand (spec/05 R119). -/
def Sys2Proof.Stmt.funForm : Instr → Option (BitVec 7 × VOp × VOp × BitVec 7 × (Machine.Num → Flagged Machine.Num))
  | .vrcp g d a lp => some (g, d, a, lp, vrcpF)
  | .vrsqrt g d a lp => some (g, d, a, lp, vrsqrtF)
  | .vexp2 g d a lp => some (g, d, a, lp, vexp2F)
  | .vlog2 g d a lp => some (g, d, a, lp, vlog2F)
  | _ => none

/-- The sign of the Walsh-Hadamard matrix at a row and a column: whether their common bits are odd in number. -/
def Sys2Proof.Stmt.hadOdd (i j : Nat) : Bool := ((List.range 5).filter fun b => i.testBit b && j.testBit b).length % 2 == 1

/-- The fp32 network of R95 after k stages, lane i, with the flags of the steps that its value depends on (log 82). -/
def Sys2Proof.Stmt.hadNet (x : Nat → Machine.Num) : Nat → Nat → Flagged Machine.Num
  | 0, i => (x i, {})
  | k + 1, i =>
    let lo := Stmt.hadNet x k (i - if i.testBit k then 2 ^ k else 0)
    let hi := Stmt.hadNet x k (i + if i.testBit k then 0 else 2 ^ k)
    let r := if i.testBit k then fp32F.sub lo.1 hi.1 else fp32F.add lo.1 hi.1
    (r.1, (lo.2.or hi.2).or r.2)

/-- The transform that a Hadamard field asks for. -/
def Sys2Proof.Stmt.hadOf (had : Had) (x : Nat → Machine.Num) (i : Nat) : Flagged Machine.Num :=
  match had with
  | .none => (x i, {})
  | .h16 => Stmt.hadNet x 4 i
  | .h32 => Stmt.hadNet x 5 i

/-- Element i of a BX block of n magnitude bits: its field, the exponent and the sub-shift of its quartet (spec/04 R89). -/
def Sys2Proof.Stmt.bxElem (n blk i : Nat) : Machine.Num :=
  let e : Nat := blk % 256
  let sub : Nat := blk / 2 ^ 8 % 256 / 4 ^ (i / 4) % 4
  let fld : Nat := blk / 2 ^ 16 / 2 ^ ((n + 1) * i) % 2 ^ (n + 1)
  if e = 255 then .nan else .fin (decide (2 ^ n ≤ fld)) (fld % 2 ^ n) ((e : Int) - 127 - ((n : Int) - 1) - (sub : Int))

/-- Bytes of a BX block. -/
def Sys2Proof.Stmt.bxSize (n : Nat) : Nat := 2 + 16 * (n + 1) / 8

/-- Element j of a register in the packing of a format (spec/04 R91, R102). -/
def Sys2Proof.Stmt.elemF (f : Fmt) (v : BitVec 1024) (j : Nat) : Machine.Num :=
  match Fmt.bx f with
  | some n => Stmt.bxElem n (v.toNat / 2 ^ (8 * Stmt.bxSize n * (j / 16))) (j % 16)
  | none => decElem f (Stmt.elemV (Fmt.bits f) v j)

/-- The flags raised are those of a list. -/
def Sys2Proof.Stmt.flagsIn (fl : BitVec 4) (fs : List FlagSet) : Prop :=
  (fl.getLsbD 0 = true ↔ ∃ f ∈ fs, f.invalid = true) ∧ (fl.getLsbD 1 = true ↔ ∃ f ∈ fs, f.overflow = true) ∧
  (fl.getLsbD 2 = true ↔ ∃ f ∈ fs, f.underflow = true) ∧ (fl.getLsbD 3 = true ↔ ∃ f ∈ fs, f.inexact = true)

/-- The transform of spec/04 R95, the blocks of R89 and R94, the functions of spec/05 R119 lane by lane. -/
def Obligations.VectorFunctionsAndConversions : Prop :=
  (∀ (i : Instr) (s : State) (g : BitVec 7) (d a : VOp) (lp : BitVec 7) (f : Machine.Num → Flagged Machine.Num),
    Stmt.funForm i = some (g, d, a, lp, f) → s.guardOn g = true → Stmt.dstReady s d → Stmt.srcReady s a →
    let r := fun e => f (fp32F.dec (Stmt.elemV 32 (s.peek a) e))
    ∃ t fl, exec i s = .next t ∧ Stmt.flagsOf fl 32 (fun e => (s.rp lp).getLsbD e = true) (fun e => (r e).2) ∧
      Stmt.vecGives s t d [a] fl (s.rp lp) fun v => ∀ e, e < 32 → Stmt.elemV 32 v e = fp32F.enc (r e).1 % 2 ^ 32) ∧
  (∀ e : Nat, 1 ≤ e → e ≤ 254 → (vlog2F (fp32F.dec (e * 2 ^ 23))).2 = {} ∧
    fp32F.dec (fp32F.enc (vlog2F (fp32F.dec (e * 2 ^ 23))).1) = fp32F.dec (fp32F.enc (Machine.Num.ofInt ((e : Int) - 127)))) ∧
  (∀ (s : State) (g : BitVec 7) (d a : VOp) (src tgt : Fmt) (rnd : Rnd) (had : Had), s.guardOn g = true → Stmt.dstReady s d →
    Stmt.srcReady s a →
    let y := Stmt.hadOf had (Stmt.elemF src (s.peek a))
    let net := (List.range 32).map fun j => (y j).2
    (Fmt.bx tgt = none →
      let r := fun j => cvtElem tgt (y j).1 rnd
      ∃ t fl, exec (.vcvt g d a src tgt rnd had) s = .next t ∧ Stmt.flagsIn fl (net ++ (List.range 32).map fun j => (r j).2) ∧
        Stmt.vecGives s t d [a] fl 0xFFFFFFFF#32 fun v =>
          (∀ j, j < 32 → Stmt.elemV (Fmt.bits tgt) v j = (r j).1 % 2 ^ Fmt.bits tgt) ∧ v.toNat / 2 ^ (32 * Fmt.bits tgt) = 0) ∧
    (∀ n, Fmt.bx tgt = some n →
      let r := fun k => bxQuant ((List.range 16).map fun j => (y (16 * k + j)).1) n rnd
      let w := 8 * Stmt.bxSize n
      ∃ t fl, exec (.vcvt g d a src tgt rnd had) s = .next t ∧ Stmt.flagsIn fl (net ++ [(r 0).2, (r 1).2]) ∧
        Stmt.vecGives s t d [a] fl 0xFFFFFFFF#32 fun v => v.toNat = (r 0).1 + 2 ^ w * (r 1).1 ∧ (r 0).1 < 2 ^ w ∧ (r 1).1 < 2 ^ w)) ∧
  (∀ (s : State) (g : BitVec 7) (d a : VOp) (h16 : Bool) (lp : BitVec 7), s.guardOn g = true → Stmt.dstReady s d →
    Stmt.srcReady s a →
    let n := if h16 then 16 else 32
    let x := fun j => BitVec.ofNat 32 (Stmt.elemV 32 (s.peek a) j)
    (∃ t, exec (.vhad g false d a h16 lp) s = .next t ∧ Stmt.vecGives s t d [a] 0#4 (s.rp lp) fun v => ∀ i, i < 32 →
      BitVec.ofNat 32 (Stmt.elemV 32 v i) = ((List.range n).map fun j =>
        if Stmt.hadOdd (i % n) j then -(x (i / n * n + j)) else x (i / n * n + j)).foldl (· + ·) 0#32) ∧
    (let r := Stmt.hadOf (if h16 then .h16 else .h32) fun j => fp32F.dec (Stmt.elemV 32 (s.peek a) j)
     ∃ t fl, exec (.vhad g true d a h16 lp) s = .next t ∧
      Stmt.flagsOf fl 32 (fun e => (s.rp lp).getLsbD e = true) (fun e => (r e).2) ∧
      Stmt.vecGives s t d [a] fl (s.rp lp) fun v => ∀ i, i < 32 → Stmt.elemV 32 v i = fp32F.enc (r i).1 % 2 ^ 32))

/-- The addresses of the active elements of a vector access, in ascending order (spec/05 R126). -/
def Sys2Proof.Stmt.elements (sh : CShape) (a : Word) (p : BitVec 32) : List (Nat × Word) :=
  ((List.range (128 / sh.size)).filter fun e => p.getLsbD (e * (8 * sh.size) / 32)).map fun e =>
    (e, a + BitVec.ofNat 64 e * sh.estride.signExtend 64)

/-- Vector accesses and streams (spec/05 R126 to R132). -/
def Obligations.VectorAccessesAndStreams : Prop :=
  (∀ (s s1 : State) (g : BitVec 7) (v : BitVec 5) (b : BitVec 6) (c : BitVec 2) (sw : BitVec 1) (lp off : BitVec 7) (n : Nat),
    s.guardOn g = true →
    let sh := if sw = 1#1 then s.me.r.getCsh c else s.me.r.getC c
    let es := Stmt.elements sh (s.rs b + (off.signExtend 11).signExtend 64 * 128#64) (s.rp lp)
    (∀ e ∈ es, s.meetEvents (!sh.ctl.getLsbD 1) e.2.toNat sh.size = []) → sh.ctl.getLsbD 1 = true ∨ s.regionWait = false →
    s.readElems s.cur.seq s.cur.bn s.curSync (sh.ctl.getLsbD 1) false sh.size es 0 = .ok s1 n →
    ∃ t k act, exec (.vld g v b c sw lp off) s = .next t ∧ t.mem = s1.mem ∧ t.clusters = s1.clusters ∧
      t.me.r = (if sw = 1#1 then s1.me.r.swapC c else s1.me.r) ∧ s1.sameOthers t s1.cur.seq ∧
      t.me.f.outs = s1.me.f.outs ++ [{ k := k, dst := .v v, v := BitVec.ofNat 1024 n, act := act, n := if sh.ctl.getLsbD 1 then es.length else 0 }] ∧
      ∀ m, m < 1024 → act.getLsbD m = (s.rp lp).getLsbD (m / 32)) ∧
  (∀ (s s1 : State) (g : BitVec 7) (v : BitVec 5) (b : BitVec 6) (c : BitVec 2) (sw : BitVec 1) (lp off : BitVec 7),
    s.guardOn g = true →
    let sh := if sw = 1#1 then s.me.r.getCsh c else s.me.r.getC c
    let es := Stmt.elements sh (s.rs b + (off.signExtend 11).signExtend 64 * 128#64) (s.rp lp)
    tryList es s (fun s e => s.checkE s.cur.seq (sh.ctl.getLsbD 1) false sh.size e.2) = .ok s1 () → s1.cur = s.cur →
    s1.me.f.storeC.length < 16 → (∀ e ∈ es, s1.streamMeets (!sh.ctl.getLsbD 1) e.2.toNat sh.size = []) →
    sh.ctl.getLsbD 1 = true ∨ s1.regionWait = false →
    let value := fun e => BitVec.ofNat 64 (Stmt.elemV (8 * sh.size) (s1.rv v) e)
    let ds := es.map fun e => ({ addr := e.2.toNat, size := sh.size, data := value e.1 } : Elem)
    ∃ t act, exec (.vst g v b c sw lp off) s = .next t ∧ t.mem = s1.mem ∧ t.cores = s1.cores ∧ t.clusters = s1.clusters ∧
      t.me.r = (if sw = 1#1 then s1.me.r.swapC c else s1.me.r) ∧ s1.sameOthers t s1.cur.seq ∧
      t.me.f.storeC = s1.me.f.storeC ++ [{ bn := s.cur.bn, act := act, rel := none }] ∧
      (sh.ctl.getLsbD 1 = true → act = .plain ds) ∧ (sh.ctl.getLsbD 1 = false → act = .loc ds (s1.me.covers s.cur.bn))) ∧
  (∀ (s : State) (g : BitVec 7) (n : BitVec 3) (b : BitVec 6) (c : BitVec 2) (sw : BitVec 1), s.guardOn g = true →
    let x := s.me.r.getQ n
    (x.bound = false ∨ x.pat.ctl.getLsbD 0 = false ∨ (x.fault = none ∧ x.queue = []) →
      (let sh := if sw = 1#1 then s.me.r.getCsh c else s.me.r.getC c
       sh.ctl.getLsbD 0 = true ∨ (s.me.f.storeC = [] ∧ (sh.ctl.getLsbD 1 = true ∨ s.regionWait = false)) →
       ∃ t, exec (.stb g n b c sw) s = .next t ∧ s.sameOthers t s.cur.seq ∧ s.sameModule t ∧
        t.me.r.getQ n = { bound := true, pat := if sw = 1#1 then s.me.r.getCsh c else s.me.r.getC c, base := s.rs b,
                          taken := 0, pos := 0, queue := [], fault := none } ∧
        (∀ m, m ≠ n → t.me.r.getQ m = s.me.r.getQ m) ∧ (∀ m, t.rs m = s.rs m) ∧ (∀ m, t.rv m = s.rv m) ∧
        t.me.r.getC c = (if sw = 1#1 then s.me.r.getCsh c else s.me.r.getC c) ∧
        t.me.r.getCsh c = (if sw = 1#1 then s.me.r.getC c else s.me.r.getCsh c)) ∧
      (∃ t, exec (.stu g n) s = .next t ∧ s.onlyRegs t [] [] [] [n] ∧ (t.me.r.getQ n).bound = false ∧
        (x.bound = false → t.me.r.getQ n = x))) ∧
    (∀ v vs, x.bound = true → x.pat.ctl.getLsbD 0 = true → x.fault = none → x.queue = v :: vs →
      ∃ t, exec (.stu g n) s = .next t ∧ t.seqs = s.seqs ∧ s.sameModule t ∧
        t.agenda = .streamDrain s.cur.seq n.toNat :: s.agenda)) ∧
  (∀ (s s1 : State) (q : Nat) (n : BitVec 3) (v : Nat) (tr : Trap),
    let x := (s.seq q).r.getQ n
    let es := Stmt.elements x.pat (x.pat.stepAddr x.base x.pos) 0xFFFFFFFF#32
    let read := s.readElems q ((s.seq q).c.region.since + 1) false (x.pat.ctl.getLsbD 1) false x.pat.size es 0
    x.bound = true → x.pat.ctl.getLsbD 0 = false → x.fault = none → x.pos < x.pat.steps → x.queue.length < 8 →
    x.pat.ctl.getLsbD 1 = false ∨ s.hasRoom q es.length = true →
    (read = .ok s1 v → ∃ t, exec (.streamFill q n.toNat) s = .next t ∧ (t.seq q).r.getQ n = { x with
        pos := x.pos + 1, queue := x.queue ++ [{
          v := BitVec.ofNat 1024 v, act := BitVec.allOnes 128, cov := false
          live := BitVec.ofNat 1024 (s1.liveView q (x.pat.ctl.getLsbD 1) x.pat.size es v) }] } ∧
      (s1.seq q).r.sameBut (t.seq q).r [] [] [] [n] ∧ t.mem = s1.mem ∧ s1.sameOthers t q) ∧
    (read = .trap s1 tr → tr.filling = false → ∃ t, exec (.streamFill q n.toNat) s = .next t ∧
      (t.seq q).r.getQ n = { x with fault := some tr } ∧ t.mem = s1.mem)) ∧
  (∀ (s s1 : State) (q : Nat) (n : BitVec 3) (v : SVec) (vs : List SVec) (tr : Trap),
    let x := (s.seq q).r.getQ n
    let es := x.pat.active (x.pat.stepAddr x.base x.pos) v.act
    let check := tryList es s fun s e => s.checkE q (x.pat.ctl.getLsbD 1) v.mxs x.pat.size e.2
    let free := fun (l : List StoreEnt) => ∀ d ∈ l, ∀ e ∈ es,
      s.entMeets q d (!x.pat.ctl.getLsbD 1) e.2.toNat x.pat.size = false
    x.bound = true → x.pat.ctl.getLsbD 0 = true → x.fault = none → x.queue = v :: vs → free (s.seq q).f.storeB →
    free (s.seq q).f.storeC → x.pat.ctl.getLsbD 1 = false ∨ (s.hasRoom q es.length = true ∧
      ∀ e ∈ es, s.atMeets q (s.seq q).c.bn e.2.toNat x.pat.size = false) →
    (check = .ok s1 () → ∃ t, exec (.streamDrain q n.toNat) s = .next t ∧
      (t.seq q).r.getQ n = { x with pos := x.pos + 1, queue := vs } ∧ (v.mxs = false → (t.seq q).f = (s1.seq q).f) ∧
      t.mem = ((elemsToStore x.pat.size v.v es).foldl (fun s d =>
        s.writeE q (x.pat.ctl.getLsbD 1) v.mxs v.cov d) s1).mem) ∧
    (check = .trap s1 tr → ∃ t, exec (.streamDrain q n.toNat) s = .next t ∧
      (t.seq q).r.getQ n = { x with fault := some tr } ∧ t.mem = s1.mem))

/-! ### The matrix engine (spec/06, spec/16 R341, R342) -/

/-- What a matrix instruction of slot D meets on its way: its guard is on, its sequencer drives an array and may name its
tiles, and no entry of the shadow result buffer is pending. -/
structure Sys2Proof.Stmt.drives (s : State) (g : BitVec 7) (tiles : List (BitVec 9)) (a : Arr) : Prop where
  guard : s.guardOn g = true
  array : s.array s.cur.seq (tiles.map (·.toNat)) = some a
  shadow : s.me.f.shadow = []

/-- The element in row i and column j of a tile. -/
def Sys2Proof.Stmt.tileAt (s : State) (core : Nat) (tile : BitVec 9) (i j : Nat) : BitVec 32 :=
  (s.core core).elem (tile.toNat * 1024 + i * 32 + j)

/-- A region of one tile has new elements and the tile a new status; every other element, status, scratchpad byte, descriptor
and core stands. -/
structure Sys2Proof.Stmt.tileWritten (s t : State) (core : Nat) (tile : BitVec 9) (row0 rows col0 cols : Nat)
    (v : Nat → Nat → BitVec 32) : Prop where
  inside : ∀ i j, i < rows → j < cols → Stmt.tileAt t core tile (row0 + i) (col0 + j) = v i j
  outside : ∀ n, (∀ i j, i < rows → j < cols → n ≠ tile.toNat * 1024 + (row0 + i) * 32 + (col0 + j)) →
    (t.core core).elem n = (s.core core).elem n
  stats : ∀ n, n ≠ tile.toNat → (t.core core).stat n = (s.core core).stat n
  spad : (t.core core).spad = (s.core core).spad
  descs : (t.core core).descs = (s.core core).descs
  cores : ∀ d, d ≠ core → t.core d = s.core d
  mem : t.mem = s.mem
  clusters : t.clusters = s.clusters

/-- Row i, column k of operand rows; +0 where there is none. -/
def Sys2Proof.Stmt.entry (rows : List (List Machine.Num)) (i k : Nat) : Machine.Num := (rows.getD i []).getD k (.fin false 0 0)

/-- What an accumulation leaves in a region (spec/06 R145): in the integer family the element plus the whole sum of products,
modulo 2^32; in the others the last of its chunk values. -/
def Sys2Proof.Stmt.accumulated (s t : State) (a : Arr) (tile : BitVec 9) (rows : List (List Machine.Num)) (row0 f0 : Nat) (z : Bool)
    (kc : Nat) : Prop :=
  let fam := Fmt.family s.afmt
  let c := coreOf s.cur.seq
  let start := fun i n => if z then 0#32 else Stmt.tileAt s c tile (row0 + i) (f0 + n)
  ∃ v, Stmt.tileWritten s t c tile row0 rows.length f0 a.w v ∧ ((t.core c).stat tile.toNat).getLsbD 3 = decide (fam = .int) ∧
    (∀ b, b < 3 → ((s.core c).stat tile.toNat).getLsbD b = true → ((t.core c).stat tile.toNat).getLsbD b = true) ∧
    (fam = .int → ∀ i n, i < rows.length → n < a.w → v i n = BitVec.ofInt 32 ((start i n).toInt +
      ((List.range a.h).map fun k => (Stmt.entry rows i k).int * (Stmt.entry s.me.f.weights.w k n).int).sum)) ∧
    (fam ≠ .int → ∀ i n, i < rows.length → n < a.w → v i n = ((macElem fam (start i n)
      (parts kc ((List.range a.h).map fun k => (Stmt.entry rows i k, Stmt.entry s.me.f.weights.w k n)) (a.h / kc))).1).getLastD
        (start i n))

/-- The registers after an operand of m rows has been taken: a read stream has gone m steps on (spec/05 R130, spec/06 R138). -/
def Sys2Proof.Stmt.tookRows (r : Regs) (x : MOp) (m : Nat) : Regs :=
  match x with
  | .s _ => r
  | .q n =>
    let y := r.getQ n
    r.setQ n { y with taken := y.taken + m, pos := max y.pos (y.taken + m), queue := y.queue.drop m }

/-- The pseudocode of spec/06 R141, R145, R150 and R151. -/
def Obligations.MatrixAccumulatesInOrder : Prop :=
  (∀ (s s1 : State) (g : BitVec 7) (a : Arr) (x : MOp) (west : Bool) (k : BitVec 2) (sw : BitVec 1)
    (rows : List (List Machine.Num)), Stmt.drives s g [] a → ¬(west = true ∧ (Fmt.bx s.wfmt).isSome = true) →
    s.mxDrains s.cur.seq = [] →
    let sh := if sw = 1#1 then s.me.r.getKsh k else s.me.r.getK k
    let j := min sh.rows.toNat (if west then a.h else a.w)
    s.srcRows s.cur.seq x sh (sh.ctl.getLsbD 1) s.wfmt (if west then a.w else a.h) 0 j = .ok s1 rows →
    ∃ t, exec (.mmLdw g x west k sw) s = .next t ∧
      t.me.r = Stmt.tookRows (if sw = 1#1 then s1.me.r.swapK k else s1.me.r) x j ∧
      t.mem = s1.mem ∧ t.cores = s1.cores ∧ s1.sameOthers t s1.cur.seq ∧
      t.me.f.weights.fam = some (Fmt.family s.wfmt) ∧ ∀ kk n, kk < a.h → n < a.w → Stmt.entry t.me.f.weights.w kk n =
        if west then Stmt.entry rows kk n else Stmt.entry rows n kk) ∧
  (∀ (s : State) (g : BitVec 7) (a : Arr) (x : MOp) (k : BitVec 2) (sw : BitVec 1), Stmt.drives s g [] a →
    (Fmt.bx s.wfmt).isSome = true → ∃ tr : Trap, tr.code = 0x01 ∧ tr.w4 = s.cur.addr ∧ tr.w5 = 3#64 ∧
      exec (.mmLdw g x true k sw) s = s.raise tr) ∧
  (∀ (s s1 : State) (g : BitVec 7) (a : Arr) (tile : BitVec 9) (x : MOp) (k : BitVec 2) (sw z k16 : BitVec 1)
    (rows : List (List Machine.Num)), Stmt.drives s g [tile] a → s.me.f.tiles.length < 48 →
    (a.h = 16 ∨ a.h = 32) → (a.w = 16 ∨ a.w = 32) → s.mxDrains s.cur.seq = [] →
    let sh := if sw = 1#1 then s.me.r.getKsh k else s.me.r.getK k
    let m := min sh.rows.toNat (32 - sh.row0.toNat)
    s.srcRows s.cur.seq x sh false s.afmt a.h 0 m = .ok s1 rows → rows.length = m → s1.me.f = s.me.f →
    s1.me.c.fmt = s.me.c.fmt → s1.cur = s.cur →
    let f0 := if a.w = 16 then 16 * sh.col0.toNat else 0
    (s1.me.f.weights.fam = none ∨ s1.me.f.weights.fam = some (Fmt.family s1.afmt) →
      ∃ t, exec (.mm g tile x k sw z k16) s = .next t ∧
        t.me.r = Stmt.tookRows (if sw = 1#1 then s1.me.r.swapK k else s1.me.r) x m ∧
        s1.sameOthers t s1.cur.seq ∧ Stmt.accumulated s1 t a tile rows sh.row0.toNat f0 (z == 1#1)
          (if k16 = 1#1 ∨ a.h = 16 then 16 else 32)) ∧
    (∀ fam, s1.me.f.weights.fam = some fam → fam ≠ Fmt.family s1.afmt →
      ∃ t v, exec (.mm g tile x k sw z k16) s = .next t ∧ t.me.r = s1.me.r ∧ t.me.c.fmt = s1.me.c.fmt ∧
        s1.sameOthers t s1.cur.seq ∧ Stmt.tileWritten s1 t (coreOf s1.cur.seq) tile sh.row0.toNat m f0 a.w v ∧
        ((t.core (coreOf s1.cur.seq)).stat tile.toNat).getLsbD 3 = decide (Fmt.family s1.afmt = .int))) ∧
  (∀ (s : State) (g : BitVec 7) (a : Arr) (td ta : BitVec 9) (k : BitVec 2) (sw k16 : BitVec 1), Stmt.drives s g [td, ta] a →
    s.me.f.tiles.length < 48 → (a.h = 16 ∨ a.h = 32) → (a.w = 16 ∨ a.w = 32) →
    (s.me.f.weights.fam = none ∨ s.me.f.weights.fam = some (Fmt.family s.afmt)) →
    let sh := if sw = 1#1 then s.me.r.getKsh k else s.me.r.getK k
    let isInt := ((s.core (coreOf s.cur.seq)).stat ta.toNat).getLsbD 3
    let m := min sh.rows.toNat (32 - sh.row0.toNat)
    let row := fun i => (List.range a.h).map fun n =>
      tileNum isInt (Stmt.tileAt s (coreOf s.cur.seq) ta (sh.row0.toNat + i) n)
    let rows := (List.range m).map fun i => decRow s.afmt a.h (narrowRow (row i) sh 0 s.afmt).1
    ∃ t, exec (.mmChain g td ta k sw k16) s = .next t ∧ t.me.r = (if sw = 1#1 then s.me.r.swapK k else s.me.r) ∧
      s.sameOthers t s.cur.seq ∧ Stmt.accumulated s t a td rows sh.row0.toNat
        (if a.w = 16 then 16 * sh.col0.toNat else 0) false (if k16 = 1#1 ∨ a.h = 16 then 16 else 32)) ∧
  (∀ (s : State) (g : BitVec 7) (a : Arr) (tile : BitVec 9) (i : BitVec 1), Stmt.drives s g [tile] a →
    s.me.f.tiles.length < 48 → ∃ t, exec (.mmZero g tile i) s = .next t ∧ t.me.r = s.me.r ∧ s.sameOthers t s.cur.seq ∧
      Stmt.tileWritten s t (coreOf s.cur.seq) tile 0 32 0 32 (fun _ _ => 0#32) ∧
      (t.core (coreOf s.cur.seq)).stat tile.toNat = if i = 1#1 then 8#4 else 0#4)

/-- The D-time arithmetic of spec/06 R147; the buffer of spec/16 R342. That an element changes at once while the write lists its values until
it is complete and final, and what a completion leaves, is the model's reading (log 35). -/
def Obligations.ResultsBecomeFinalByDTime : Prop :=
  (∀ (s : State) (g : BitVec 7) (a : Arr) (tile : BitVec 9) (i : BitVec 1), Stmt.drives s g [tile] a →
    s.me.f.tiles.length < 48 → s.cur.slot = 3 → 1 ≤ a.lat → ∃ t w, exec (.mmZero g tile i) s = .next t ∧
      t.me.f.dtime = s.me.f.dtime + 1 ∧ t.me.f.tiles.getLast? = some w ∧ w.fin = s.me.f.dtime + 1 + a.lat ∧
      w.tile = tile.toNat ∧ w.complete = false ∧ ∀ n, n < 1024 →
        w.at (tile.toNat * 1024 + n) = some [(s.core (coreOf s.cur.seq)).elem (tile.toNat * 1024 + n), 0#32]) ∧
  (∀ (s : State) (q : Nat), (s.seq q).f.shadow = [] → ∃ t, exec (.matrixCompletion q) s = .next t ∧ t.cores = s.cores ∧
    t.mem = s.mem ∧ (t.seq q).r = (s.seq q).r ∧ (t.seq q).c = (s.seq q).c ∧ s.sameOthers t q ∧
    (t.seq q).f.tiles.filter (fun w => !w.complete) = ((s.seq q).f.tiles.filter fun w => !w.complete).drop 1) ∧
  (∀ (s : State) (q : Nat) (e : Shadow) (rest : List Shadow) (i : Instr), (s.seq q).f.shadow = e :: rest →
    i ∈ [Instr.shadowEntryApply q, Instr.matrixCompletion q] → 1 ≤ e.cols → e.col0 + e.cols ≤ 32 → e.row0 + e.rows ≤ 32 →
    e.vals.length = e.rows * e.cols → ∃ t, exec i s = .next t ∧ (t.seq q).f.shadow = rest ∧ (t.seq q).r = (s.seq q).r ∧
      (t.seq q).c = (s.seq q).c ∧ s.sameOthers t q ∧ t.mem = s.mem ∧ (t.core (coreOf q)).spad = (s.core (coreOf q)).spad ∧
      (∀ n (h : n < e.vals.length), (t.core (coreOf q)).elem
        (e.tile * 1024 + (e.row0 + n / e.cols) * 32 + (e.col0 + n % e.cols)) = e.vals[n]) ∧
      (∀ m, (∀ n, n < e.vals.length → m ≠ e.tile * 1024 + (e.row0 + n / e.cols) * 32 + (e.col0 + n % e.cols)) →
        (t.core (coreOf q)).elem m = (s.core (coreOf q)).elem m)) ∧
  (∀ (s : State) (core reader time e : Nat) (sync : Bool), s.early core reader time sync e = [] →
    s.readElem core reader time sync e = (s, (s.core core).elem e))

/-- Rows in memory are written by the row writer of the engine, in row order (spec/06 R139, R152, R153). -/
def Obligations.MatrixResultsLeaveTheirTiles : Prop :=
  (∀ (s s1 : State) (g : BitVec 7) (a : Arr) (tile : BitVec 9) (b : BitVec 6) (k : BitVec 2) (sw clr : BitVec 1)
    (rs : List RowAt), Stmt.drives s g [tile] a →
    let sh := if sw = 1#1 then s.me.r.getKsh k else s.me.r.getK k
    let m := min sh.rows.toNat (32 - sh.row0.toNat)
    let f0 := if a.w = 16 then 16 * sh.col0.toNat else 0
    let q := s.cur.seq
    let row := fun i => (List.range a.w).map fun n => Stmt.tileAt s1 (coreOf q) tile (sh.row0.toNat + i) (f0 + n)
    let swapped := s1.setRegs (if sw = 1#1 then s1.me.r.swapK k else s1.me.r)
    (s.mxDrains q = [] → s.dstRows q b sh (4 * a.w) 4 0 m = .ok s1 rs → s1.cur = s.cur →
      let u := State.refresh (q := q) <| (rs.zip ((List.range m).map fun i => (row i).flatMap fun w => leBytes w.toNat 4)).foldl
        (fun s e => s.rowWrite q e.1 e.2) swapped
      ∃ t, exec (.mmRd g tile (.s b) k sw) s = .next t ∧ t.mem = u.mem ∧ t.cores = u.cores ∧ t.clusters = u.clusters ∧
        t.me.r = u.me.r ∧ u.sameOthers t u.cur.seq) ∧
    (s.mxDrains q = [] → s.dstRows q b sh (rowBytes s.ofmt a.w) (rowAlign s.ofmt) 0 m = .ok s1 rs → s1.cur = s.cur →
      s1.me.c.fmt = s.me.c.fmt → clr = 0#1 →
      let isInt := ((s1.core (coreOf q)).stat tile.toNat).getLsbD 3
      let out := fun i => narrowRow ((row i).map (tileNum isInt)) sh s.hexp s.ofmt
      let fl := ((List.range m).map out).foldl (fun c e => c.or e.2) ({} : FlagSet)
      let u := State.refresh (q := q) <| (rs.zip ((List.range m).map fun i => leBytes (out i).1 (rowBytes s.ofmt a.w))).foldl
        (fun s e => s.rowWrite q e.1 e.2) (swapped.raiseFlags fl.bits)
      ∃ t, exec (.mmWb g tile (.s b) k sw clr) s = .next t ∧ t.mem = u.mem ∧ t.cores = u.cores ∧
        t.clusters = u.clusters ∧ t.me.r = u.me.r ∧ t.me.c.fmt = u.me.c.fmt ∧ u.sameOthers t u.cur.seq) ∧
    (∀ n, let y := s.me.r.getQ n
      y.bound = true → y.pat.ctl.getLsbD 0 = true → y.taken + m ≤ y.pat.steps → y.fault = none → y.queue.length + m ≤ 8 → s.mxBefore q (.q n) = [] →
      let given := fun (rows : List Nat) => { y with
        taken := y.taken + m
        queue := y.queue ++ rows.map fun x => { v := BitVec.ofNat 1024 x, act := BitVec.allOnes 128, mxs := true } }
      let row := fun i => (List.range a.w).map fun n => Stmt.tileAt s (coreOf q) tile (sh.row0.toNat + i) (f0 + n)
      let isInt := ((s.core (coreOf q)).stat tile.toNat).getLsbD 3
      (∃ t, exec (.mmRd g tile (.q n) k sw) s = .next t ∧ s.sameOthers t q ∧ s.sameModule t ∧
        t.me.r.getQ n = given ((List.range m).map fun i => leNat ((row i).flatMap fun w => leBytes w.toNat 4))) ∧
      (clr = 0#1 → ∃ t, exec (.mmWb g tile (.q n) k sw clr) s = .next t ∧ s.sameOthers t q ∧ s.sameModule t ∧
        t.me.r.getQ n = given ((List.range m).map fun i => leNat (leBytes
          (narrowRow ((row i).map (tileNum isInt)) sh s.hexp s.ofmt).1 (rowBytes s.ofmt a.w))))) ∧
    (s.mxDrains q = [] → s.dstRows q b sh (rowBytes s.ofmt a.w) (rowAlign s.ofmt) 0 m = .ok s1 rs → clr = 1#1 →
      s.me.f.tiles.length < 48 → a.w = 16 ∨ a.w = 32 →
      ∃ t, exec (.mmWb g tile (.s b) k sw clr) s = .next t ∧
        ∀ i n, i < m → n < a.w → Stmt.tileAt t (coreOf s1.cur.seq) tile (sh.row0.toNat + i) (f0 + n) = 0#32)) ∧
  (∀ (s : State) (g : BitVec 7) (a : Arr) (tile : BitVec 9) (x : BitVec 6) (clr : BitVec 1), Stmt.drives s g [tile] a →
    (∀ w ∈ s.me.f.tiles, w.tile = tile.toNat → w.complete = true) →
    let c := coreOf s.cur.seq
    let st := (s.core c).stat tile.toNat
    ∃ t, exec (.mmRdSt g tile x clr) s = .next t ∧ Stmt.awaits s.me.f t.me.f x (st.setWidth 64) ∧ t.me.r = s.me.r ∧
      t.mem = s.mem ∧ (t.core c).acc = (s.core c).acc ∧ s.sameOthers t s.cur.seq ∧
      (∀ n, (t.core c).stat n = if n = tile.toNat ∧ clr = 1#1 then st &&& 8#4 else (s.core c).stat n)) ∧
  (∀ (s : State) (g : BitVec 7) (join : BitVec 1) (gh : Nat) (gr : Group), s.guardOn g = true →
    s.groupOf s.cur.seq = some (gh, gr) →
    ((groupSeqs gh).head? ≠ some s.cur.seq → ∃ tr : Trap, tr.code = 0x11 ∧ exec (.mmFuse g join) s = s.raise tr) ∧
    ((groupSeqs gh).head? = some s.cur.seq → (∀ q ∈ groupSeqs gh, s.tileEvents q = []) →
      ∃ t, exec (.mmFuse g join) s = .next t ∧ t.cores = s.cores ∧ t.mem = s.mem ∧ t.me.r = s.me.r ∧
        (∀ q, q ∉ groupSeqs gh → t.seq q = s.seq q) ∧
        ((groupSeqs gh).length = 1 → t.groups = s.groups ∧ ∀ q, (t.seq q).f.weights = (s.seq q).f.weights) ∧
        (1 < (groupSeqs gh).length → t.group gh = { gr with joined := join == 1#1 } ∧
          (∀ h, h ≠ gh → t.group h = s.group h) ∧
          ∀ q ∈ groupSeqs gh, (t.seq q).f.weights = { fam := none, w := [] } ∧ (t.seq q).r = (s.seq q).r)))

/-! ### Patched tensors (spec/09 R203 to R236) -/

/-- Byte n of a line. -/
def Sys2Proof.Stmt.byteOf (x : BitVec 512) (n : Nat) : Byte := x.extractLsb' (8 * n) 8

/-- apply and the loop of spec/09 R213; the closing of gaps of R226 and R229. -/
def Obligations.PatchesComposeIntoValues : Prop :=
  (∀ (p : PEnt) (f : Fmt) (c : Nat) (x : BitVec 512) (sl : PSlot), p.slotOf c = some sl →
    (p.kind = 0 → ∀ n, n < 64 → Stmt.byteOf (p.apply f c x) n =
      if sl.mask.getLsbD n then Stmt.byteOf sl.pay n else Stmt.byteOf x n) ∧
    (p.kind ≠ 0 → ∀ w, (f = .int8 ∧ w = 1) ∨ (f = .int32 ∧ w = 4) → ∀ e, e < 64 / w →
      (p.apply f c x).extractLsb' (8 * w * e) (8 * w) =
        if ∀ b, b < w → sl.mask.getLsbD (w * e + b) = true then
          x.extractLsb' (8 * w * e) (8 * w) + sl.pay.extractLsb' (8 * w * e) (8 * w)
        else x.extractLsb' (8 * w * e) (8 * w))) ∧
  (∀ (p : PEnt) (f : Fmt) (c : Nat) (x : BitVec 512), p.slotOf c = none → p.apply f c x = x) ∧
  (∀ (t : Tensor) (c : Nat) (ps : List PEnt) (p : PEnt) (x : BitVec 512), t.canon = false →
    t.applyAll c [] x = x ∧ t.applyAll c (ps ++ [p]) x =
      if p.touches c then p.apply t.fmt c (t.applyAll c ps x) else t.applyAll c ps x) ∧
  (∀ (t : Tensor) (nums : List Nat),
    (t.remove nums).chain.map (·.num) = (t.chain.filter fun p => !nums.contains p.num).map (·.num) ∧
    (∀ n (h : n < (t.remove nums).chain.length), (t.remove nums).chain[n].pos = n + 1) ∧
    (∀ k, t.cut = some k → (t.remove nums).cut =
      some (k - (t.chain.filter fun p => nums.contains p.num && decide (p.pos ≤ k)).length)))

/-- The value of a view is spec/09 R213's; the changed slot is described byte by byte. -/
def Obligations.TensorAccessesUsePortViews : Prop :=
  (∀ (s s1 s2 : State) (g : BitVec 7) (x b : BitVec 6) (off : BitVec 11) (port : BitVec 2) (p : Port) (T : Tensor) (o : Nat)
    (v : BitVec 512), s.guardOn g = true →
    let a := s.rs b + off.signExtend 64 * 8#64
    let q := s.cur.seq
    let c := o / T.pitch * T.cpr + o % T.pitch / T.cb
    let at_ := o % T.pitch % T.cb
    s.tsReach (s.port port) a false = .ok s1 (p, T, o) →
    (s1.cellValue q T c T.chain.length = .ok s2 v → ∃ t, exec (.tsLd g x b off 0#1 port) s = .next t ∧ t.me.r = s2.me.r ∧
      t.mem = s2.mem ∧ s2.sameOthers t s2.cur.seq ∧ Stmt.awaits s2.me.f t.me.f x (takeAt (match p.view, T.entry p.entry with
        | false, some e => e.apply T.fmt c v
        | _, _ => v) at_ 8)) ∧
    (∀ k, T.cut = some k → s1.cellValue q T c k = .ok s2 v → ∃ t, exec (.tsLd g x b off 1#1 port) s = .next t ∧
      t.me.r = s2.me.r ∧ t.mem = s2.mem ∧ s2.sameOthers t s2.cur.seq ∧ Stmt.awaits s2.me.f t.me.f x (takeAt v at_ 8)) ∧
    (T.cut = none → ∃ tr : Trap, tr.code = 0x11 ∧ exec (.tsLd g x b off 1#1 port) s = s.raise tr)) ∧
  (∀ (s s1 : State) (g : BitVec 7) (x b : BitVec 6) (off : BitVec 11) (port : BitVec 2) (p : Port) (T : Tensor) (o : Nat)
    (e : PEnt) (old : PSlot), s.guardOn g = true → s.fullB = false →
    let q := s.cur.seq
    let c := o / T.pitch * T.cpr + o % T.pitch / T.cb
    let at_ := o % T.pitch % T.cb
    let n := min 8 (T.rb - o % T.pitch)
    s.tsReach (s.port port) (s.rs b + off.signExtend 64 * 8#64) true = .ok s1 (p, T, o) → T.entry p.entry = some e →
    at_ + n ≤ 64 →
    (e.slotOf c = some old ∧ (e.slots.filter fun d => d.cell == c) = [old]) ∨ (e.slotOf c = none ∧ ∃ i, T.freeSlot = some i ∧
      old = { idx := i, cell := c, pay := 0#512, pre := 0#512, mask := 0#64 }) →
    ∃ new : PSlot, ∃ slots, new.idx = old.idx ∧ new.cell = c ∧ new.pre = old.pre ∧
      (∀ k, k < 64 → new.mask.getLsbD k = (decide (at_ ≤ k ∧ k < at_ + n) || old.mask.getLsbD k)) ∧
      (∀ k, k < 64 → Stmt.byteOf new.pay k = if at_ ≤ k ∧ k < at_ + n then (s.rs x).extractLsb' (8 * (k - at_)) 8
        else Stmt.byteOf old.pay k) ∧
      (e.slotOf c = none → slots = new :: e.slots) ∧
      (e.slotOf c = some old → slots = e.slots.map fun d => if d.cell = c then new else d) ∧
      ∀ u, s1.paSave q T (T.put { e with slots := slots }) [] = .ok u () →
        ∃ t, exec (.tsSt g x b off port) s = .next t ∧ t.mem = u.mem ∧ t.me.r = u.me.r ∧ t.me.f.outs = u.me.f.outs ∧
          u.sameOthers t u.cur.seq)

/-- A patch instruction has issued over what it wrote, and queue D is held until its engine completes. -/
structure Sys2Proof.Stmt.engineBusy (u t : State) (ports : Tab Port) : Prop where
  regs : t.me.r = u.me.r
  ctl : u.me.c.sameBut t.me.c
  flight : t.me.f = { u.me.f with holdD := some .patch, ports := ports, dtime := t.me.f.dtime }
  mem : t.mem = u.mem
  cores : t.cores = u.cores
  clusters : t.clusters = u.clusters
  dies : t.dies = u.dies
  others : u.sameOthers t u.cur.seq

/-- What the engine writes back is the tensor after the operation (spec/09 R218: one point of its order). -/
def Obligations.PatchesOpenAndClose : Prop :=
  (∀ (s s1 s2 : State) (g : BitVec 7) (port : BitVec 2) (y z : BitVec 6) (T : Tensor), s.guardOn g = true →
    let q := s.cur.seq
    let name := ((s.rs z).setWidth 32).toNat
    (∀ kind pt, s.port port = some pt → ∃ tr : Trap, tr.code = 0x11 ∧ exec (.paOpen g port y z kind) s = s.raise tr) ∧
    (∀ kind tr, s.port port = none → s.paLoad q (s.rs y) = .ok s1 T → s1.basePages q T = .trap s2 tr →
      tr.code = 0x11 ∧ tr.w4 = T.base ∧ exec (.paOpen g port y z kind) s = s.raise tr) ∧
    (s.port port = none → s.paLoad q (s.rs y) = .ok s1 T → s1.basePages q T = .ok s2 () →
      (∃ t, exec (.paOpen g port y z .view) s = .next t ∧ Stmt.engineBusy s2 t
        (Tab.put s2.me.f.ports port.toNat { record := T.rec_, entry := 0, view := true })) ∧
      (∀ kind k n u, (kind, k) ∈ [(PaKind.ovr, 0), (PaKind.add, 1), (PaKind.addn, 2)] → name ≠ 0 → T.named name = none →
        T.freeEnt = some n →
        s2.paSave q T (T.put { num := n, name := name, kind := k, closed := false, ostamp := T.stamp, cctx := s.ctxOf q }) []
          = .ok u () →
        ∃ t, exec (.paOpen g port y z kind) s = .next t ∧ Stmt.engineBusy u t
          (Tab.put u.me.f.ports port.toNat { record := T.rec_, entry := n, view := false })))) ∧
  (∀ (s : State) (g : BitVec 7) (port : BitVec 2), s.guardOn g = true →
    let q := s.cur.seq
    (s.port port = none → ∃ tr : Trap, tr.code = 0x11 ∧ exec (.paClose g port) s = s.raise tr ∧
      exec (.paDropPort g port) s = s.raise tr) ∧
    (∀ pt, s.port port = some pt → pt.view = true → ∃ t, exec (.paClose g port) s = .next t ∧
      Stmt.engineBusy s t (Tab.erase s.me.f.ports port.toNat)) ∧
    (∀ pt s1 T p, s.port port = some pt → pt.view = false → s.paLoad q pt.record = .ok s1 T → T.entry pt.entry = some p →
      (∀ s2 T1 u, (T.strict = true → ∀ r ∈ T.chain, p.ostamp < r.cstamp → r.cctx ≠ p.cctx → T.clash p r = none) →
        s1.closeAs q T p p false = .ok s2 T1 → s2.paSave q T T1 [] = .ok u () →
        (∃ t, exec (.paClose g port) s = .next t ∧ Stmt.engineBusy u t (Tab.erase u.me.f.ports port.toNat)) ∧
          T1.stamp = T.stamp + 1 ∧ ∃ p1, T1.entry p.num = some p1 ∧ p1.closed = true ∧ p1.pos = T.chain.length + 1 ∧
            p1.name = p.name ∧ p1.kind = p.kind ∧ p1.cstamp = T.stamp + 1) ∧
      (∀ r c, T.strict = true → T.chain = [r] → p.ostamp < r.cstamp → r.cctx ≠ p.cctx → T.clash p r = some c →
        ∃ tr : Trap, tr.code = 0x20 ∧ tr.w4 = BitVec.ofNat 64 (2 * 2 ^ 60 + T.rec_.toNat % 2 ^ 56) ∧
          tr.w5 = BitVec.ofNat 64 (p.name * 2 ^ 32 + r.name) ∧ tr.w6 = BitVec.ofNat 64 c ∧
          exec (.paClose g port) s = s.raise tr) ∧
      (∀ u, s1.paSave q T { T with ents := T.ents.filter fun e => e.num != p.num } [] = .ok u () →
        ∃ t, exec (.paDropPort g port) s = .next t ∧ Stmt.engineBusy u t (Tab.erase u.me.f.ports port.toNat)))) ∧
  (∀ (s s1 s2 u : State) (g : BitVec 7) (y z : BitVec 6) (T : Tensor) (p : PEnt), s.guardOn g = true →
    s.paLoad s.cur.seq (s.rs y) = .ok s1 T → T.closedNamed ((s.rs z).setWidth 32).toNat = some p → T.atCut p = false →
    (∀ r ∈ T.chain, p.pos < r.pos → T.clash p r = none) → s1.paNorm s.cur.seq T p true = .ok s2 () →
    s2.paSave s.cur.seq T (T.remove [p.num]) [] = .ok u () →
    ∃ t, exec (.paDropClosed g y z) s = .next t ∧ Stmt.engineBusy u t u.me.f.ports) ∧
  (∀ (s : State) (q : Nat), (s.seq q).f.holdD = some .patch → ∃ t, exec (.patchEngineComplete q) s = .next t ∧
    (t.seq q).f = { (s.seq q).f with holdD := none } ∧ (t.seq q).r = (s.seq q).r ∧ (t.seq q).c = (s.seq q).c ∧
    s.sameOthers t q ∧ s.sameModule t)

/-- A record that passes its checks, and the closed patches that the halves of a register name (spec/09 R227, R228). -/
structure Sys2Proof.Stmt.named (s s1 : State) (y z : BitVec 6) (T : Tensor) (p : PEnt) : Prop where
  loaded : s.paLoad s.cur.seq (s.rs y) = .ok s1 T
  low : T.closedNamed ((s.rs z).setWidth 32).toNat = some p

/-- The name in the high half of a register. -/
def Sys2Proof.Stmt.high (s : State) (z : BitVec 6) : Nat := ((s.rs z).extractLsb' 32 32).toNat

/-- What the engine writes back (spec/09 R218). -/
def Obligations.PatchesMoveAndFold : Prop :=
  (∀ (s s1 : State) (g : BitVec 7) (y z : BitVec 6) (T : Tensor) (p r : PEnt), s.guardOn g = true →
    Stmt.named s s1 y z T p → T.closedNamed (Stmt.high s z) = some r →
    (∀ u, r.pos = p.pos + 1 → T.cut ≠ some p.pos → T.clash p r = none →
      s1.paSave s.cur.seq T ((T.put { p with pos := r.pos }).put { r with pos := p.pos }) [] = .ok u () →
      ∃ t, exec (.paComm g y z) s = .next t ∧ Stmt.engineBusy u t u.me.f.ports) ∧
    (∀ reason, (r.pos ≠ p.pos + 1 ∧ reason = 7) ∨ (r.pos = p.pos + 1 ∧ T.cut = some p.pos ∧ reason = 6) ∨
        (r.pos = p.pos + 1 ∧ T.cut ≠ some p.pos ∧ T.clash p r ≠ none ∧ reason = 1) →
      ∃ tr : Trap, tr.code = 0x20 ∧ tr.w4 = BitVec.ofNat 64 (reason * 2 ^ 60 + T.rec_.toNat % 2 ^ 56) ∧
        exec (.paComm g y z) s = s.raise tr)) ∧
  (∀ (s s1 s2 u : State) (g : BitVec 7) (y z : BitVec 6) (T : Tensor) (p : PEnt) (cells : List (Nat × BitVec 512)),
    s.guardOn g = true → Stmt.named s s1 y z T p → (T.cut = none ∨ T.atCut p = true) →
    (T.strict = true → ∀ o ∈ T.opens, o.cctx ≠ p.cctx → p.cstamp ≤ o.ostamp) →
    (∀ r ∈ T.chain, r.pos < p.pos → T.clash p r = none) → s1.applyOne s.cur.seq T p p.slots = .ok s2 cells →
    s2.paSave s.cur.seq T (T.remove [p.num]) cells = .ok u () →
    ∃ t, exec (.paApply g y z) s = .next t ∧ Stmt.engineBusy u t u.me.f.ports) ∧
  (∀ (s s1 s2 u : State) (g : BitVec 7) (y z : BitVec 6) (T : Tensor) (k : Nat) (cells : List (Nat × BitVec 512)),
    s.guardOn g = true → s.paLoad s.cur.seq (s.rs y) = .ok s1 T →
    let n := (s.rs z).toNat
    let window := T.chain.takeWhile fun p => T.opens.all fun o => decide (p.cstamp ≤ o.ostamp)
    let most := min (if T.strict then window.length else T.chain.length) (T.cut.getD T.chain.length)
    k = (if n = 0 then most else min n most) →
    let lead := T.chain.take k
    s1.cellValues s.cur.seq T k ((lead.flatMap fun p => p.slots.map (·.cell)).dedup) = .ok s2 cells →
    s2.paSave s.cur.seq T (T.remove (lead.map (·.num))) cells = .ok u () →
    ∃ t, exec (.paSquash g y z) s = .next t ∧ Stmt.engineBusy u t u.me.f.ports) ∧
  (∀ (s s1 u : State) (g : BitVec 7) (y : BitVec 6) (clr : BitVec 1) (T : Tensor), s.guardOn g = true →
    s.paLoad s.cur.seq (s.rs y) = .ok s1 T →
    s1.paSave s.cur.seq T { T with cut := if clr = 1#1 then none else some T.chain.length } [] = .ok u () →
    ∃ t, exec (.paSnap g y clr) s = .next t ∧ Stmt.engineBusy u t u.me.f.ports) ∧
  (∀ (s s1 s2 u : State) (g : BitVec 7) (y z : BitVec 6) (T T1 : Tensor) (p : PEnt) (n : Nat) (free : List Nat)
    (slots : List PSlot), s.guardOn g = true → Stmt.named s s1 y z T p → T.newName (Stmt.high s z) = .ok n →
    free = T.takeSlots p.slots.length → free.length = p.slots.length → (∀ r ∈ T.chain, p.pos < r.pos → T.clash p r = none) →
    let isF := (Fmt.flt T.fmt).isSome
    let ovr := p.kind = 0 ∨ (isF = true ∧ T.canon = false ∧ p.kept = true)
    let neg := fun d => if isF then d ^^^ 2 ^ (Fmt.bits T.fmt - 1) else (2 ^ Fmt.bits T.fmt - d) % 2 ^ Fmt.bits T.fmt
    (ovr ∧ slots = (p.slots.zip free).map fun e => { e.1 with idx := e.2, pay := e.1.pre, pre := 0#512 }) ∨
      (¬ovr ∧ slots = (p.slots.zip free).map fun e =>
        { e.1 with
          idx := e.2, pre := 0#512,
          pay := (e.1.deltas T.z).foldl (fun x d => elemPut x T.z d.1 (neg d.2)) e.1.pay }) →
    s1.closeAs s.cur.seq { T with sflags := if isF = true ∧ T.canon = false ∧ ¬ovr then T.sflags ||| 1 else T.sflags } {
      num := n, name := Stmt.high s z, kind := if ovr then 0 else p.kind, closed := false, target := p.num, inv := true,
      ostamp := T.stamp, cctx := s.ctxOf s.cur.seq, slots := slots } p true = .ok s2 T1 →
    s2.paSave s.cur.seq T T1 [] = .ok u () →
    ∃ t, exec (.paInv g y z) s = .next t ∧ Stmt.engineBusy u t u.me.f.ports) ∧
  (∀ (s s0 s1 s2 u : State) (g : BitVec 7) (x y z : BitVec 6) (D D1 T : Tensor) (p : PEnt) (n : Nat) (free : List Nat)
    (cs : List (PSlot × Bool × Bool)), s.guardOn g = true →
    s.paLoad s.cur.seq (s.rs x) = .ok s0 D → s0.paLoad s.cur.seq (s.rs y) = .ok s1 T → D.rows = T.rows → D.cols = T.cols →
    D.cb / D.z = T.cb / T.z → T.closedNamed ((s.rs z).setWidth 32).toNat = some p → D.newName (Stmt.high s z) = .ok n →
    free = D.takeSlots p.slots.length → free.length = p.slots.length →
    cs = (p.slots.zip free).map (fun e => e.1.carry T.fmt D.fmt e.2) →
    let torn := p.kind = 0 ∧ p.slots.any (fun sl => sl.torn T.z) = true
    let e : PEnt := { num := n, name := Stmt.high s z, kind := p.kind, closed := false, ostamp := D.stamp,
                      cctx := s.ctxOf s.cur.seq, slots := cs.map (·.1) }
    s1.closeAs s.cur.seq { D with
        sflags := D.sflags ||| ((if torn ∨ cs.any (·.2.1) = true then 2 else 0) ||| (if cs.any (·.2.2) = true then 4 else 0)) }
      e e false = .ok s2 D1 →
    s2.paSave s.cur.seq D D1 [] = .ok u () →
    ∃ t, exec (.paXplant g x y z) s = .next t ∧ Stmt.engineBusy u t u.me.f.ports)

/-- The words field by field (spec/09 R233, R234). -/
def Obligations.PatchQueriesReturnTheirWords : Prop :=
  (∀ (s s1 : State) (g : BitVec 7) (x y z : BitVec 6) (T : Tensor), s.guardOn g = true →
    s.paLoad s.cur.seq (s.rs y) = .ok s1 T → T.chain.length < 2 ^ 10 → T.opens.length < 2 ^ 10 → T.sflags < 8 →
    (∀ k, T.cut = some k → k < 2 ^ 10) →
    let name := ((s.rs z).setWidth 32).toNat
    ∃ t w, exec (.paQuery g x y z) s = .next t ∧ Stmt.awaits s1.me.f t.me.f x w ∧ t.me.f.holdD = some .patch ∧
      t.me.r = s1.me.r ∧ t.mem = s1.mem ∧ s1.sameOthers t s1.cur.seq ∧
      (name = 0 → w.extractLsb' 0 10 = BitVec.ofNat 10 T.chain.length ∧
        w.extractLsb' 10 10 = BitVec.ofNat 10 (T.cut.getD 0) ∧ w.getLsbD 20 = T.cut.isSome ∧
        w.extractLsb' 21 10 = BitVec.ofNat 10 T.opens.length ∧ w.extractLsb' 32 3 = BitVec.ofNat 3 T.sflags ∧
        w.getLsbD 31 = false ∧ w.extractLsb' 35 29 = 0#29) ∧
      (name ≠ 0 → T.named name = none → w = 0#64) ∧
      (∀ p, name ≠ 0 → T.named name = some p → p.pos < 2 ^ 10 → p.kind < 3 → p.slots.length < 2 ^ 32 →
        w.extractLsb' 32 32 = BitVec.ofNat 32 p.slots.length ∧ w.getLsbD 17 = (p.closed && T.atCut p) ∧
        w.getLsbD 16 = p.inv ∧ w.getLsbD 15 = p.kept ∧ w.extractLsb' 13 2 = BitVec.ofNat 2 p.kind ∧
        w.extractLsb' 10 3 = (if p.closed then 2#3 else 1#3) ∧ w.extractLsb' 0 10 = BitVec.ofNat 10 p.pos)) ∧
  (∀ (s s1 s2 s3 : State) (g : BitVec 7) (x y : BitVec 6) (f : BitVec 4) (T : Tensor) (v l : Nat), s.guardOn g = true →
    s.paLoad s.cur.seq (s.rs y) = .ok s1 T → s1.paRead s.cur.seq false (T.normrec + 0x40#64) 48 = .ok s2 v →
    s2.paRead s.cur.seq false (T.normrec + 0x80#64) 32 = .ok s3 l →
    (f.toNat ≤ 5 → ∃ t, exec (.paNorm g x y f) s = .next t ∧ t.mem = s3.mem ∧ t.me.r = s3.me.r ∧
      t.me.f.holdD = some .patch ∧ s3.sameOthers t s3.cur.seq ∧ Stmt.awaits s3.me.f t.me.f x
        (if f.toNat < 4 then BitVec.ofNat 64 (l / 2 ^ (64 * f.toNat)) else if f.toNat = 4 then BitVec.ofNat 64 (v / 2 ^ 320)
          else BitVec.ofNat 64 (fp32F.enc (fp32F.cvt (.fin false l (-128)) .rne).1))) ∧
    (∀ s4 s5 s6, s3.paWrite s.cur.seq false (T.normrec + 0x80#64) (leBytes v 32) = .ok s4 () →
      s4.paWrite s.cur.seq false (T.normrec + 0x68#64) (leBytes (v / 2 ^ 256 % 2 ^ 64) 8) = .ok s5 () →
      s5.paWrite s.cur.seq false (T.normrec + 0x40#64) (leBytes 0 40) = .ok s6 () →
      ∀ u, (f = 8#4 ∧ u = s5) ∨ (f = 9#4 ∧ u = s6) → ∃ t, exec (.paNorm g x y f) s = .next t ∧ t.mem = u.mem ∧
        t.me.r = u.me.r ∧ t.me.f.holdD = some .patch ∧ u.sameOthers t u.cur.seq ∧
        Stmt.awaits u.me.f t.me.f x (BitVec.ofNat 64 (v / 2 ^ 256 % 2 ^ 64))))

/-! ### Task graphs, launches and copies (spec/12, spec/14 R308 to R313) -/

/-- Operations under way at the Halyards, oldest first: issuer, context, operation. -/
def Sys2Proof.Stmt.halList (s : State) : List (Nat × Nat × HalOp) := s.hal.map fun e => (e.q, e.ctx, e.op)

/-- The adds that raise some successors of a node: 1 to the arrival pennant of each (spec/12 R277, R282). -/
def Sys2Proof.Stmt.arrivals (l : Launch) (by_ : Nat) (targets : List Nat) : List (Nat × Nat × HalOp) :=
  targets.filterMap fun k =>
    (l.nodes[k]?).map fun m => (by_, l.ctx, .add (BitVec.ofNat 32 (m.die * 2 ^ 28 + l.abase + k)) 1#64 false)

/-- The successors that a mask selects and that this firing has not raised; 0xFFFF is none. -/
def Sys2Proof.Stmt.selected (n : Node) (raised m : BitVec 4) : List Nat :=
  [0, 1, 2, 3].filterMap fun k =>
    if m.getLsbD k && !raised.getLsbD k && n.succ.getD k 0xFFFF != 0xFFFF then some (n.succ.getD k 0xFFFF) else none

/-- The scalar and predicate registers that the last node of a launch left on a sequencer; none before its first node. -/
def Sys2Proof.Stmt.leftBy (x : Seq) (li : Nat) : Regs :=
  if x.c.lastLaunch = some li then x.r else ((Tab.get? x.c.kept li).map fun k => k.r).getD {}

/-- A sequencer's state when it begins a firing of a node of a launch (spec/12 R278 step 5, R288). -/
structure Sys2Proof.Stmt.begun (x y : Seq) (l : Launch) (n : Node) (run : NodeRun) : Prop where
  running : y.c.mode = .running
  pc : y.c.pc = l.code + BitVec.ofNat 64 (16 * (n.arg.toNat % 2 ^ 32))
  node : y.c.node = some run
  empty : y.c.window = []
  regs : y.r = (((Stmt.leftBy x run.launch).setS 1#6 l.params).setS 2#6
    (BitVec.ofNat 64 run.node)).setS 3#6 (BitVec.ofNat 64 run.f)
  other : x.c.lastLaunch ≠ some run.launch → y.c.loops = [] ∧ y.c.region = {}
  fresh : x.c.lastLaunch ≠ some run.launch → Tab.get? x.c.kept run.launch = none →
    y.c.fmt = {} ∧ y.f.ports = [] ∧ y.f.lq = []
  again : x.c.lastLaunch ≠ some run.launch → ∀ k, Tab.get? x.c.kept run.launch = some k →
    y.c.fmt = k.fmt ∧ y.f.ports = k.ports ∧ y.f.lq = k.lq
  kept : y.f.tiles = x.f.tiles ∧ y.f.weights = x.f.weights ∧ y.f.dtime = x.f.dtime ∧ y.c.cyc = x.c.cyc ∧ y.c.rsm = x.c.rsm

/-- The rules of spec/12 R285 to R287. Off a compute node, gr.launch and gr.cond raise 0x11 by the model's choice (log 98); R285 gives the
cause for a launch without slots, R286 and R287 for gr.arrive and gr.done. What a firing begins with is that of R278 step 5 and R288. -/
def Obligations.GraphInstructionsActForTheirNode : Prop :=
  (∀ (s : State) (g : BitVec 7) (scope : Scope) (m : BitVec 4) (y z : BitVec 6), s.guardOn g = true → s.myNode = none →
    (∀ i ∈ [Instr.grLaunch g scope y, .grArrive g m, .grCond g y z], ∃ tr : Trap, tr.code = 0x11 ∧ exec i s = s.raise tr) ∧
    (s.me.isOldest s.cur.bn s.cur.slot true = true → ∃ tr : Trap, tr.code = 0x11 ∧ exec (.grDone g) s = s.raise tr)) ∧
  ∀ (s : State) (g : BitVec 7) (r : NodeRun) (l : Launch) (n : Node), s.guardOn g = true → s.myNode = some (r, l, n) →
    (∀ (scope : Scope) (y : BitVec 6),
      (l.r ≤ l.used → ∃ tr : Trap, tr.code = 0x11 ∧ exec (.grLaunch g scope y) s = s.raise tr) ∧
      ∀ s1 s2 blk, l.used < l.r → addrBad (s.rs y) 64 { cls := pcMem } = none → s.ldWords (s.rs y) 8 = .ok s1 blk →
        s1.tryRelease s1.cur.seq scope (some s1.cur.bn) = .ok s2 () →
        ∃ t, exec (.grLaunch g scope y) s = .next t ∧ t.me.r = s2.me.r ∧ s2.sameOthers t s2.cur.seq ∧ t.mem = s2.mem ∧
          t.cores = s2.cores ∧ t.hal = s2.hal ∧ (∀ k, k ≠ l.queue → t.queue k = s2.queue k) ∧
          t.queue l.queue = (if (s2.queue l.queue).mode = .active ∨ (s2.queue l.queue).mode = .paused then
            { s2.queue l.queue with children := (s2.queue l.queue).children ++ [blk] } else s2.queue l.queue) ∧
          t.launch? r.launch = some { l with used := l.used + 1 } ∧ ∀ k, k ≠ r.launch → t.launch? k = s2.launch? k) ∧
    (∀ (m : BitVec 4) (s1 : State), n.succ.length = 4 → s.releaseHal n.scope = .ok s1 () →
      ∃ t, exec (.grArrive g m) s = .next t ∧ t.me.r = s1.me.r ∧ s1.sameOthers t s1.cur.seq ∧ t.mem = s1.mem ∧
        t.cores = s1.cores ∧ t.launches = s1.launches ∧ t.me.c.node = some { r with raised := r.raised ||| m } ∧
        Stmt.halList t = Stmt.halList s1 ++ Stmt.arrivals l s1.cur.seq (Stmt.selected n r.raised m)) ∧
    (∀ (y z : BitVec 6) (c : Node), l.nodes[(s.rs y).toNat % 65536]? = some c →
      (c.kind = 2 ∨ c.kind = 3 → ∃ t, exec (.grCond g y z) s = .next t ∧ t.me.r = s.me.r ∧ s.sameOthers t s.cur.seq ∧
        t.mem = s.mem ∧ t.cores = s.cores ∧ t.launches = s.launches ∧
        Stmt.halList t = Stmt.halList s ++ [(s.cur.seq, l.ctx, .cond r.launch ((s.rs y).toNat % 65536) (s.rs z))]) ∧
      (c.kind ≠ 2 → c.kind ≠ 3 → ∃ tr : Trap, tr.code = 0x11 ∧ exec (.grCond g y z) s = s.raise tr)) ∧
    (∀ (y z : BitVec 6), l.nodes[(s.rs y).toNat % 65536]? = none →
      ∃ tr : Trap, tr.code = 0x11 ∧ exec (.grCond g y z) s = s.raise tr) ∧
    (∀ s1 : State, n.succ.length = 4 → s.me.isOldest s.cur.bn s.cur.slot true = true → s.drainStreams s.cur.seq = [] →
      s.outEvents s.cur.seq = [] → s.askEvents s.cur.seq = [] →
      s.streamFault = none → s.releaseHal n.scope = .ok s1 () → s1.dueStop = none → s1.cur = s.cur → s1.launch? r.launch = some l →
      s1.me.c.queued = s.me.c.queued → ∃ t, exec (.grDone g) s = .next t ∧ s1.sameOthers t s1.cur.seq ∧ t.mem = s1.mem ∧
        Stmt.halList t = Stmt.halList s1 ++ Stmt.arrivals l s1.cur.seq (Stmt.selected n r.raised 0xF#4) ∧
        t.launch? r.launch = some { l with nodes := l.nodes.set r.node { n with act := n.act - 1, done := n.done + 1 } } ∧
        (s.me.c.queued = [] → t.me.c.mode = .idle ∧ t.me.c.node = none ∧ t.me.c.loops = [] ∧ t.me.c.window = [] ∧
          t.me.r = s1.me.r) ∧
        ∀ run rest l2 n2, s.me.c.queued = run :: rest → s1.launch? run.launch = some l2 →
          l2.nodes[run.node]? = some n2 → t.me.c.queued = rest ∧ t.me.c.loops = [] ∧
          t.me.c.mode = .running ∧ t.me.c.node = some run ∧ t.me.c.window = [] ∧
          t.me.c.pc = l2.code + BitVec.ofNat 64 (16 * (n2.arg.toNat % 2 ^ 32)) ∧
          t.me.r = (((Stmt.leftBy s1.me run.launch).setS 1#6 l2.params).setS 2#6
            (BitVec.ofNat 64 run.node)).setS 3#6 (BitVec.ofNat 64 run.f))

/-- The rules of spec/12 R278 to R284 and spec/14 R308 to R313. -/
def Obligations.LaunchesRunTheirNodes : Prop :=
  (∀ (s : State) (n : Nat) (tail : BitVec 32), n < 256 → (s.queue n).mode ≠ .free →
    (∀ vf, s.queueVf (s.queue n) = some vf → (s.tdi vf).mode = .unlocked) →
    ∃ t, exec (.queueTailWrite n tail) s = .next t ∧ t.seqs = s.seqs ∧ t.mem = s.mem ∧ t.cores = s.cores ∧
      (∀ k, k ≠ n → t.queue k = s.queue k) ∧
      t.queue n = if (tail - (s.queue n).head).toNat ≤ 2 ^ (s.queue n).lsize then { s.queue n with tail := tail }
        else s.queue n) ∧
  (∀ (s0 : State) (n : Nat) (child : Bool) (blk : List Word), (s0.headBlock n).isSome = true →
    let s := s0.csMeetHead n
    s.headBlock n = some (child, some blk) →
    let q := s.queue n
    let pool := if child then none else some q.cpool
    let headed : Queue := if child then { q with children := q.children.drop 1 } else { q with head := q.head + 1#32 }
    s.waitReached q.ctx blk = true → s.headHeld n = false →
    let u := s.csTook n child blk
    (∀ l, s.plan n q.ctx blk pool = .ok l → (child = true ∨ (l.r : Int) ≤ s.freeSlots n) → s.walkersHaveRoom l = true →
      s.loadedAll q.ctx = true →
      (∀ gh, s.unchosen q.ctx = some gh → exec (.launchDispatch n) s0 = .next { s with agenda := .schedDecision gh :: s.agenda }) ∧
      (s.unchosen q.ctx = none → ∃ t li l', exec (.launchDispatch n) s0 = .next t ∧ s.launch? li = none ∧
        t.launch? li = some l' ∧ (∀ k, k ≠ li → t.launch? k = s.launch? k) ∧ l' = { l with nodes := l'.nodes } ∧
        (∀ i (m : Node), l.nodes[i]? = some m → l'.nodes[i]? = some { m with base := (u.pennant (arrivalOf l.abase m.die i)).count }) ∧
        t.queue n = headed ∧ (∀ k, k ≠ n → t.queue k = s.queue k) ∧ t.seqs = s.seqs ∧
        ∀ c ∈ l.cores, (t.core c).icache = [] ∧ (t.core c).gen = ((s.bump c .sy).core c).gen)) ∧
    (∀ code, s.plan n q.ctx blk pool = .error code → ∃ t, exec (.launchDispatch n) s0 = .next t ∧
      t.launches = s.launches ∧ t.seqs = s.seqs ∧ t.mem = u.mem ∧ t.cores = s.cores ∧ t.queue n =
        { headed with mode := .halted, rcode := BitVec.ofNat 8 code, eidx := if child then 0xFFFFFFFF#32 else q.head,
                      children := [] })) ∧
  (∀ (s : State) (li i : Nat) (l : Launch) (n : Node), s.launch? li = some l → l.nodes[i]? = some n → n.reported = false →
    (∀ r, n.found = some r ∨ (n.found = none ∧ s.arrivalLatched l i n = true ∧ r = s.latchedRecord l i n) →
      let u := (s.setLaunch li { l with nodes := l.nodes.set i { n with found := some r } }).retryRecords l.ctx
      u.heldRecords l.ctx = [] →
      (∀ s2, u.tryRecord (4 * n.core) l.ctx 1 r = (s2, true) → ∃ t, exec (.nodeFire li i) s = .next t ∧ t.mem = s2.mem ∧
        t.seqs = s2.seqs ∧ t.launch? li = some { l with nodes := l.nodes.set i { n with found := some r, reported := true } }) ∧
      ∀ s2, u.tryRecord (4 * n.core) l.ctx 1 r = (s2, false) → exec (.nodeFire li i) s = .next s2 ∧ ∀ x, s2.launch? li = some x → x.over = false) ∧
    (n.found = none → s.arrivalLatched l i n = false → s.arrived l i n = true → s.mayFire l n = true →
      let once : Launch := { l with nodes := l.nodes.set i { n with f := n.f + 1, act := n.act + 1 } }
      let done : Launch := { l with nodes := l.nodes.set i { n with f := n.f + 1, done := n.done + 1 } }
      let q := 4 * n.core + n.q
      (n.kind = 0 → ∃ t, exec (.nodeFire li i) s = .next t ∧ t.launch? li = some once ∧ s.sameOthers t q ∧
        (t.core n.core).gen = ((s.bump n.core n.scope).core n.core).gen ∧
        ((s.seq q).c.mode = .idle → Stmt.begun (s.seq q) (t.seq q) l n { launch := li, node := i, f := n.f, raised := 0#4 }) ∧
        ((s.seq q).c.mode ≠ .idle → t.seq q = { s.seq q with c := { (s.seq q).c with
          queued := (s.seq q).c.queued ++ [{ launch := li, node := i, f := n.f, raised := 0#4 }] } })) ∧
      (n.kind = 1 → ∀ gh gr, s.lowGroup l.ctx n.core = some (gh, gr) → ∃ t c, exec (.nodeFire li i) s = .next t ∧
        t.launch? li = some once ∧ t.seqs = s.seqs ∧
        (t.chan n.core (gh % 16 * 16 + 15)).copies = (s.chan n.core (gh % 16 * 16 + 15)).copies ++ [c] ∧
        c.node = some i ∧ c.launch = li ∧ c.ctx = l.ctx ∧ c.words = [] ∧ c.pos = 0 ∧
        c.jsrc = n.arg.toNat / 2 ^ 8 % 2 ^ 28 ∧ c.jdst = n.arg.toNat / 2 ^ 36 % 2 ^ 28) ∧
      (n.kind = 2 ∨ n.kind = 3 ∨ n.kind = 4 → n.scope = .cr ∨ n.scope = .cl ∨ s.relGate n.core l.ctx = none →
        let s1 := (s.bump n.core n.scope).release n.core l.ctx n.scope
        s1.launch? li = some l → ∃ t, exec (.nodeFire li i) s = .next t ∧ t.launch? li = some done ∧ t.seqs = s1.seqs ∧
          t.mem = s1.mem ∧ Stmt.halList t = Stmt.halList s1 ++ Stmt.arrivals l (16384 + n.core)
            (if n.kind = 4 then n.succ else [n.succ.getD (if n.w = 0#64 then 1 else 0) 0xFFFF])))) ∧
  (∀ (s : State) (k : Nat) (e : HalEnt) (li i : Nat) (w : Word) (l : Launch) (n : Node),
    s.hal.find? (fun e => e.k == k) = some e → e.op = .cond li i w → s.earlierHal e = none → s.launch? li = some l →
    l.nodes[i]? = some n → ∃ t, exec (.conditionWordWrite k) s = .next t ∧ t.hal = s.hal.filter (fun e => e.k != k) ∧
      t.seqs = s.seqs ∧ t.mem = s.mem ∧ t.cores = s.cores ∧
      t.launch? li = some { l with nodes := l.nodes.set i { n with w := w } }) ∧
  (∀ (s : State) (li : Nat) (l : Launch), s.launch? li = some l → l.over = true →
    let sc := s.flushScope l
    sc = .cr ∨ sc = .cl ∨ (∀ c ∈ l.cores, s.relGate c l.ctx = none) →
    let s1 := l.cores.foldl (fun s c => s.release c l.ctx sc) s
    let h : BitVec 32 := l.done.setWidth 32
    ∃ t, exec (.launchEnd li) s = .next t ∧ t.launch? li = none ∧ (∀ k, k ≠ li → t.launch? k = s1.launch? k) ∧
      t.mem = s1.mem ∧ t.cores = s1.cores ∧ t.clusters = s1.clusters ∧
      Stmt.halList t = Stmt.halList s1 ++ (if h ≠ 0#32 ∧ s1.penOk l.ctx h = true then
        [(32768, l.ctx, .add h (BitVec.ofNat 64 (l.done.toNat / 2 ^ 32 % 2 ^ 16)) false)] else []) ∧
      ∀ q, (t.seq q).r = (s1.seq q).r ∧ (t.seq q).f = (s1.seq q).f ∧ (t.seq q).c.lastLaunch ≠ some li ∧
        Tab.get? (t.seq q).c.kept li = none)

/-- The rules of spec/12 R292 to R297 and spec/20 R403. -/
def Obligations.CopiesRunToTheirPennant : Prop :=
  (∀ (s s2 : State) (q : Nat) (e : Win) (g : BitVec 7) (r b : BitVec 6) (off : BitVec 11) (rel : Option Scope)
    (ws : List Word), (s.seq q).nextOf 1 = some e → e.instr 1 = .stD g r b off rel → (s.seq q).ready e 1 = true →
    let s1 := s.aim q 1 e
    let a := s1.eaBM b off 8
    let key := s1.chanKey q (a.toNat % 65536 / 64)
    let at_ := s1.myTemplates q
    let c : Copy := { ctx := s2.ctxOf q, queue := at_.1, launch := at_.2.1, node := none, q := q, words := ws,
                      jsrc := (s1.rs r).toNat / 2 ^ 8 % 2 ^ 28, jdst := (s1.rs r).toNat / 2 ^ 36 % 2 ^ 28, pos := 0, over_ := [] }
    s1.guardOn g = true → startsCopy a 8 = true → (s.seq q).f.storeB = [] → (s1.chan (coreOf q) key).fault = none →
    s1.ldWords (at_.2.2 + BitVec.ofNat 64 (64 * ((s1.rs r).toNat % 2 ^ 8))) 8 = .ok s2 ws → s2.cur = s1.cur →
    (c.bound = true → s2.copyRemote c = false → s2.penOk c.ctx c.handle = true) →
    (8 ≤ (s1.chan (coreOf q) key).copies.length → ∃ t, exec (.copyStart q) s = .next t ∧
      (t.seq q).f.storeB = [{ bn := e.bn, act := .start (s1.rs r) key s1.cur.addr e.bits, rel := none }] ∧
      (∀ k, t.chan (coreOf q) k = s1.chan (coreOf q) k) ∧ t.mem = s1.mem ∧ (t.seq q).r = s1.me.r ∧
      (t.seq q).c.window = (s1.me.retire e.bn 1 1).c.window ∧ s1.sameOthers t q) ∧
    ((s1.chan (coreOf q) key).copies.length < 8 → ∃ t, exec (.copyStart q) s = .next t ∧ (t.chan (coreOf q) key).copies = (s2.chan (coreOf q) key).copies ++ [c] ∧
      (∀ k, k ≠ key → t.chan (coreOf q) k = s2.chan (coreOf q) k) ∧ t.mem = s2.mem ∧ (t.seq q).r = (s2.seq q).r ∧
      (t.seq q).c.window = ((s2.seq q).retire e.bn 1 1).c.window ∧ s2.sameOthers t q)) ∧
  (∀ (s s1 : State) (q key : Nat) (w addr : Word) (bits : BitVec 128) (c : Copy) (e : StoreEnt) (rest : List StoreEnt),
    (s.seq q).f.storeB = e :: rest → e.act = .start w key addr bits → (s.chan (coreOf q) key).fault = none →
    (s.chan (coreOf q) key).copies.length < 8 → s.newCopy q w = .ok s1 c → (s1.seq q).f.storeB = e :: rest →
    ∃ t, exec (.copyStart q) s = .next t ∧ (t.chan (coreOf q) key).copies = (s1.chan (coreOf q) key).copies ++ [c] ∧
      (t.seq q).f.storeB = rest ∧ (t.seq q).r = (s1.seq q).r ∧ t.mem = s1.mem ∧ s1.sameOthers t q) ∧
  (∀ (s : State) (q key : Nat) (w addr : Word) (bits : BitVec 128) (tr : Trap) (e : StoreEnt) (rest : List StoreEnt),
    (s.seq q).f.storeB = e :: rest → e.act = .start w key addr bits → (s.chan (coreOf q) key).fault = some tr →
    s.issues q = true → (∀ v ∈ (s.seq q).c.window, e.bn ≤ v.bn) → s.beforeStop q (s.beforeStart q e.bn) = none →
    ∃ u : State, exec (.copyStart q) s = .next (u.stopSeq q 0 1 tr addr) ∧ (u.chan (coreOf q) key).fault = none ∧
      (u.chan (coreOf q) key).copies = (s.chan (coreOf q) key).copies ∧ (u.seq q).f.storeB = rest ∧
      (u.seq q).r = (s.seq q).r ∧ u.mem = s.mem ∧ s.sameOthers u q ∧
      ∃ v ∈ (u.seq q).c.window, v.bn = e.bn ∧ v.mask.getLsbD 1 = false) ∧
  (∀ (s : State) (ch : Nat) (c : Copy) (rest : List Copy),
    let core := ch / 256
    let s0 := s.park core
    (s0.chanOf ch).copies = c :: rest → c.words ≠ [] → c.pos < c.total →
    (s.mustPark core (ch % 256) c = true → ∃ t, exec (.copyChunk ch) s = .next t ∧ (t.chanOf ch).parked = true ∧
      (t.chanOf ch).copies = (s.chanOf ch).copies ∧ t.mem = s.mem ∧ (t.core core).spad = (s.core core).spad) ∧
    (s.mustPark core (ch % 256) c = false →
      (∀ s1 s2 c1, (c.pos = 0 ∧ c.templateOk = true ∧ s0.mcastHeld c core = false ∧ s0.copyBegin c core = .ok s1 ()) ∨
          (0 < c.pos ∧ s1 = s0) → s1.deliver c core = .ok s2 c1 →
        ∃ t, exec (.copyChunk ch) s = .next t ∧ (t.chanOf ch).copies = c1 :: (s2.chanOf ch).copies.drop 1 ∧
          c1 = { c with pos := min (c.pos + 2048) c.total, over_ := c1.over_ } ∧ t.mem = s2.mem ∧ t.seqs = s2.seqs ∧
          ∀ k, (t.core k).spad = (s2.core k).spad) ∧
      (c.pos = 0 → c.templateOk = false → c.node = none → ∃ t, exec (.copyChunk ch) s = .next t ∧
        (t.chanOf ch).copies = rest ∧ (s.penAt c.handle = none → t.mem = s.mem) ∧
        (∀ k, (t.core k).spad = (s.core k).spad) ∧
        (c.bound = false → ∃ tr, (t.chanOf ch).fault = some tr ∧ tr.code = 0x11) ∧
        (c.bound = true → s0.copyRemote c = false → (t.pennant c.handle).latch = true ∧
          (t.pennant c.handle).lcode = 0x11#8 ∧ (t.pennant c.handle).lsrc = 1#4 ∧
          (t.pennant c.handle).count = (s.pennant c.handle).count)))) ∧
  (∀ (s s1 : State) (core : Nat) (c c1 : Copy) (k o m p : Nat), c.pos = 0 → c.sspace = 1 → c.dspace = 1 → c.mcast = 0 →
    c.zfill = false → (c.word 2).toNat / 2 ^ 16 % 2 ^ 32 = 0 → (c.from_ 0).toNat % 64 + c.total ≤ 64 →
    (c.to_ 0).toNat % 64 + c.total ≤ 64 → locOf core (c.from_ 0) = some (.spad k o) →
    locOf core (c.to_ 0) = some (.spad m p) → k ≠ m ∨ o + c.total ≤ p ∨ p + c.total ≤ o →
    (s.core k).marked o = none → (s.core m).marked p = none → c.over_ = [] → s.deliver c core = .ok s1 c1 →
    (∀ i, i < c.total → Mem.get (s1.core m).spad (p + i) = Mem.get (s.core k).spad (o + i)) ∧
    (∀ i, i < p ∨ p + c.total ≤ i → Mem.get (s1.core m).spad i = Mem.get (s.core m).spad i) ∧ s1.mem = s.mem) ∧
  (∀ (s s1 : State) (ch : Nat) (c : Copy) (rest : List Copy), (s.chanOf ch).copies = c :: rest → c.words ≠ [] →
    c.total ≤ c.pos → s.endActs c (ch / 256) = .ok s1 () →
    (c.node = none → ∃ t, exec (.copyComplete ch) s = .next t ∧ (t.chanOf ch).copies = (s1.chanOf ch).copies.drop 1 ∧
      t.mem = s1.mem ∧ t.seqs = s1.seqs ∧ (∀ k, (t.core k).spad = (s1.core k).spad) ∧
      Stmt.halList t = Stmt.halList s1 ++ (if c.bound = true ∧ s.copyRemote c = false then
        [(49152 + ch / 256, c.ctx, .add c.handle c.addend false)] else [])) ∧
    (∀ i l n, c.node = some i → s1.launch? c.launch = some l → l.nodes[i]? = some n →
      ∃ t, exec (.copyComplete ch) s = .next t ∧ (t.chanOf ch).copies = (s1.chanOf ch).copies.drop 1 ∧
        t.mem = s1.mem ∧ Stmt.halList t = Stmt.halList s1 ++ Stmt.arrivals l (49152 + ch / 256) n.succ ∧
        t.launch? c.launch = some { l with nodes := l.nodes.set i { n with act := n.act - 1, done := n.done + 1 } })) ∧
  (∀ (s : State) (h : BitVec 32) (v : Word) (ctx : Nat), ∃ t, exec (.remoteCopyPennantAdd h v ctx) s = .next t ∧
    t.seqs = s.seqs ∧ t.cores = s.cores ∧
    (s.penAt h = none → t.mem = s.mem ∧ ∀ h', h' ≠ h → t.pennant h' = s.pennant h') ∧
    (∀ b, s.penAt h = some b → ∀ a, a < b ∨ b + 16 ≤ a → Mem.get t.mem.dram a = Mem.get s.mem.dram a) ∧
    (s.penOk ctx h = true → (t.pennant h).count.toNat = min ((s.pennant h).count.toNat + v.toNat) (2 ^ 64 - 1) ∧
      (t.pennant h).latch = (s.pennant h).latch) ∧
    (s.penOk ctx h = false → (t.pennant h).count = (s.pennant h).count ∧ (t.pennant h).latch = true ∧
      (t.pennant h).lcode = 0x11#8 ∧ (t.pennant h).lsrc = 2#4))

/-- The counts are those of spec/18 R386, the word that of R387. -/
def Obligations.SegmentInstructionsKeepRows : Prop :=
  (∀ (s : State) (g : BitVec 7) (x y z : BitVec 6) (i : Instr) (op : SegOp), s.guardOn g = true →
    (s.rs y).toNat % 2048 = 0 → (i, op) ∈ [(Instr.segPromote g x y z, SegOp.promote), (Instr.segPin g x y z, SegOp.pin),
      (Instr.segUnpin g x y z, SegOp.unpin), (Instr.segDemote g x y z, SegOp.demote)] →
    (∀ s1 w, s.segUnits op (s.rs y) 0 (min (s.rs z).toNat 32) = .ok s1 w →
      ∃ t, exec i s = .next t ∧ Stmt.awaits s1.me.f t.me.f x (BitVec.ofNat 64 w) ∧
        t.me.f = { s1.me.f with outs := t.me.f.outs, holdD := some .segment, dtime := t.me.f.dtime } ∧ t.me.r = s1.me.r ∧ t.mem = s1.mem ∧
        t.cores = s1.cores ∧ t.dies = s1.dies ∧ s1.sameOthers t s1.cur.seq) ∧
    (∀ s1 tr, s.rs z = 1#64 → s.segReach (s.rs y) = .ok s1 tr → s1.cur = s.cur →
      let die := s1.homeDie tr.pa
      let bank := paBank tr.pa
      let row := paRow tr.pa
      let ctx := s1.ctxOf s.cur.seq
      let find := fun (u : State) => (u.promo die bank).find? fun r => r.row == row
      (paFast tr.pa = true → ∃ t, exec i s = .next t ∧ Stmt.awaits s1.me.f t.me.f x 0x1000000#64 ∧
        t.me.f = { s1.me.f with outs := t.me.f.outs, holdD := some .segment, dtime := t.me.f.dtime } ∧ t.dies = s1.dies) ∧
      (paFast tr.pa = false →
        (find s1 = none → op = .promote → s1.charged die bank ctx < (s1.ctx ctx).quota →
          ∀ f, s1.freeFast die bank = some f → ∃ t, exec i s = .next t ∧ Stmt.awaits s1.me.f t.me.f x 1#64 ∧
            t.me.f = { s1.me.f with outs := t.me.f.outs, holdD := some .segment, dtime := t.me.f.dtime } ∧ t.mem = s1.mem ∧
            find t = some { row := row, fast := f, ctx := ctx, pin := false, dirty := false } ∧
            ∀ r, r.row ≠ row → (r ∈ t.promo die bank ↔ r ∈ s1.promo die bank)) ∧
        (∀ r, find s1 = some r → r.ctx = ctx → op ≠ .promote → (op = .pin → r.pin = false) → (op = .unpin → r.pin = true) →
          ∃ t, exec i s = .next t ∧ Stmt.awaits s1.me.f t.me.f x 1#64 ∧
            t.me.f = { s1.me.f with outs := t.me.f.outs, holdD := some .segment, dtime := t.me.f.dtime } ∧
            (find t = if op = .demote then none else some { r with pin := op == .pin }) ∧
            ∀ r', r'.row ≠ row → (r' ∈ t.promo die bank ↔ r' ∈ s1.promo die bank)) ∧
        (∀ r, find s1 = some r → r.ctx ≠ ctx → op ≠ .promote → ∃ t, exec i s = .next t ∧
          Stmt.awaits s1.me.f t.me.f x 0x10000000000#64 ∧
          t.me.f = { s1.me.f with outs := t.me.f.outs, holdD := some .segment, dtime := t.me.f.dtime } ∧ t.dies = s1.dies)))) ∧
  (∀ (s : State) (q : Nat), (s.seq q).f.holdD = some .segment → ∃ t, exec (.segmentUnitsComplete q) s = .next t ∧
    t.seq q = { s.seq q with f := { (s.seq q).f with holdD := none } } ∧ s.sameOthers t q ∧ s.sameModule t) ∧
  (∀ (s s1 : State) (g : BitVec 7) (x y : BitVec 6) (tr : Tr), s.guardOn g = true → s.segReach (s.rs y) = .ok s1 tr →
    s1.cur = s.cur →
    let die := s1.homeDie tr.pa
    let bank := paBank tr.pa
    let ctx := s1.ctxOf s.cur.seq
    let rows := s1.promo die bank
    (s1.ctx ctx).quota < 2 ^ 12 → s1.charged die bank ctx < 2 ^ 12 →
    (rows.filter fun r => !r.pin).length < 2 ^ 11 → ∃ t w, exec (.segQuery g x y) s = .next t ∧
      Stmt.awaits s1.me.f t.me.f x w ∧ t.me.r = s1.me.r ∧ t.mem = s1.mem ∧ t.dies = s1.dies ∧ t.cores = s1.cores ∧
      (w.extractLsb' 52 12).toNat = (s1.ctx ctx).quota ∧ (w.extractLsb' 40 12).toNat = s1.charged die bank ctx ∧
      (w.extractLsb' 19 10).toNat = bank ∧ w.extractLsb' 5 14 = 0#14 ∧ w.getLsbD 4 = paFast tr.pa ∧
      (paFast tr.pa = true → w.extractLsb' 29 11 = 0x7FF#11 ∧ w.extractLsb' 0 4 = 0#4) ∧
      (paFast tr.pa = false → ∀ r, rows.find? (fun r => r.row == paRow tr.pa) = some r →
        w.getLsbD 0 = true ∧ w.getLsbD 1 = r.pin ∧ w.getLsbD 2 = r.dirty ∧ w.getLsbD 3 = (r.ctx == ctx) ∧
        (r.pin = true → w.extractLsb' 29 11 = 0x7FF#11) ∧ (r.pin = false → (w.extractLsb' 29 11).toNat =
          (rows.filter fun y => !y.pin).findIdx fun y => y.row == r.row)))

/-! ### Fetch, issue, fills and held records (spec/02 R24, R29, spec/07 R165, R179, spec/16 R346, R347, spec/18 R371) -/

/-- What a fill of a line leaves: an L1 holds the line fresh as its L2 shows it, an L2 as its home has it, a memory-side cache its
sector. The premises say that the line is absent, that there is a free place for it, and that the L1's L2 holds it whole. -/
def Sys2Proof.Stmt.filled (s t : State) (kind : CacheKind) (inst ctx l : Nat) : Prop :=
  match kind with
  | .l1 => s.l1 inst l ctx = none → ((s.core inst).l1.filter fun e => e.1 / 65536 % 256 == l % 256).length < 8 →
    (∃ c, s.l2 (clusterOfCore inst) l = some c ∧ c.have_ = BitVec.allOnes 64) →
    ∃ x, t.l1 inst l ctx = some x ∧ x.have_ = BitVec.allOnes 64 ∧ x.dirty = 0#64 ∧ x.tag = (s.core inst).gen ∧
      x.data = s.l2Seen (clusterOfCore inst) l
  | .l2 => s.l2 inst l = none → ((s.cluster inst).l2.filter fun e => e.1 % 8192 == l % 8192).length < 16 →
    ∃ x, t.l2 inst l = some x ∧ x.have_ = BitVec.allOnes 64 ∧ x.dirty = 0#64 ∧ x.data = s.homeData l
  | .msc =>
    let d := paDie (l * 64)
    let p := s.pol d (s.ctx ctx).owner pcMem
    paDev (l * 64) = s.link.dev.toNat → (Tab.get? (s.die d).msc (mscRow l)).isSome = true ∨ (p.mask ≠ 0#16 ∧ p.rp ≠ 2#2 ∧
      (freeWay (((s.die d).msc.filter fun e => e.1 % 3072 == mscRow l % 3072).map fun e => e.2.way) p.mask).isSome = true) →
    ∃ x, Tab.get? (t.die d).msc (mscRow l) = some x ∧ x.valid.getLsbD (l % 32) = true

/-- Fetch, issue, fills and the fault record. -/
def Obligations.FetchIssueAndFillsKeepRegisters : Prop :=
  (∀ (s : State) (h : BitVec 4) (g : BitVec 7) (i : Instr), i ∈ [Instr.nopA h, Instr.nopB g, Instr.nopC g, Instr.nopD g] →
    ∃ t, exec i s = .next t ∧ s.onlyRegs t [] [] [] []) ∧
  (∀ (s : State) (g : BitVec 7) (kind : CacheKind) (b : BitVec 6) (off : BitVec 11), s.guardOn g = true →
    let a := s.rs b + off.signExtend 64 * 64#64
    let die := dieOf s.cur.seq
    let out := s.requests (coreOf s.cur.seq)
    let walk := s.needsWalk die (s.ctxOf s.cur.seq) a false
    ∃ t, exec (.pf g kind b off) s = .next t ∧ t.me.r = s.me.r ∧ s.me.c.sameBut t.me.c ∧ s.me.f.sameBut t.me.f ∧
      s.sameOthers t s.cur.seq ∧ (2 ^ 56 ≤ a.toNat ∨ inAperture a = true ∨ 4096 ≤ out → s.sameModule t) ∧
      (a.toNat < 2 ^ 56 → inAperture a = false → out < 4096 → walk = true → t.mem = s.mem ∧ t.cores = s.cores ∧
        t.clusters = s.clusters ∧ (64 ≤ (s.die die).walks.length → s.sameModule t) ∧
        ((s.die die).walks.length < 64 → (t.die die).walks =
          (s.die die).walks ++ [{ q := s.cur.seq, ctx := s.ctxOf s.cur.seq, va := a, lvl := kind }])) ∧
      ∀ tr, a.toNat < 2 ^ 56 → inAperture a = false → out < 4096 → walk = false →
        s.translate (dieOf s.cur.seq) (s.ctxOf s.cur.seq) a { cls := pcMem } = (s, .ok tr) → eNc tr.e2 = false →
        s.keyOf (lineOf tr.pa) = (s.kid (eKsl tr.e2)).getD 0 → s.gate (lineOf tr.pa) false = none →
        s.homeBad (lineOf tr.pa) = false →
        Stmt.filled s t kind (match kind with | .l1 => coreOf s.cur.seq | .l2 => clusterOf s.cur.seq | .msc => 0)
          (s.ctxOf s.cur.seq) (lineOf tr.pa)) ∧
  (∀ (s : State) (kind : CacheKind) (inst ctx l : Nat), s.gate l false = none → s.homeBad l = false →
    ∃ t, exec (.cacheFill kind inst ctx l) s = .next t ∧ t.seqs = s.seqs ∧ Stmt.filled s t kind inst ctx l) ∧
  (∀ (s : State) (q : Nat), (s.seq q).c.replay = none → (s.seq q).canFetch = true →
    let x := (s.seq q).turnOver
    let s0 := s.setSeq q x
    let found := s0.checkGroup q x.c.loops x.c.pc 1 [] [] 8
    (∀ s1 bs, found = .ok s1 (.good bs) → (s1.seq q).c = x.c → ∃ t, exec (.groupCheck q) s = .next t ∧
      (t.seq q).r = (s1.seq q).r ∧ (t.seq q).f = (s1.seq q).f ∧ s1.sameOthers t q ∧ t.mem = s1.mem ∧ t.cores = s1.cores ∧
      (t.seq q).c.pc = x.c.pc + BitVec.ofNat 64 (16 * bs.length) ∧ (t.seq q).c.bn = x.c.bn + bs.length ∧
      (t.seq q).c.loops = x.c.loops ∧
      ∃ ws, (t.seq q).c.window = x.c.window ++ ws ∧ ws.length = bs.length ∧ ∀ n (h : n < bs.length), ws[n]? =
        some { bn := x.c.bn + n, addr := bs[n].1, bits := bs[n].2, mask := 0#4, dt := none }) ∧
    (∀ s1 slot tr, found = .ok s1 (.bad slot tr) → (s1.seq q).c.window = [] → Stmt.stopReady s1 q (s1.settle q) →
      ∃ t, exec (.groupCheck q) s = .next t ∧ t = s1.stopSeq q 0 slot tr x.c.pc ∧ (t.seq q).c.mode = .stopped ∧
        (t.seq q).r = (s1.seq q).r)) ∧
  (∀ (s s1 : State) (q n : Nat) (loops : List Loop) (pc : Word) (bits : BitVec 128) (earlier : List Uses)
    (done : List (Word × BitVec 128)) (fuel cause slot : Nat), s.fetch q pc = .ok s1 bits →
    bundleBad loops n pc bits earlier = some (cause, slot) → s.checkGroup q loops pc n earlier done (fuel + 1) =
      .ok s1 (.bad slot { code := 0x01, w4 := pc, w5 := BitVec.ofNat 64 cause, w6 := 0#64, w7 := 0#64 })) ∧
  (∀ (s : State) (q slot : Nat) (e : Win), (s.seq q).nextOf slot = some e →
    (s.mayIssue q e slot = true → ∃ t, exec (.bundleIssue q slot) s = .next t ∧ t.latch = some (q, slot) ∧
      t.cur.seq = q ∧ t.seqs = s.seqs ∧ s.sameModule t) ∧
    (s.mayIssue q e slot = false → exec (.bundleIssue q slot) s = .next s)) ∧
  (∀ (s : State) (die ctx : Nat) (va : Word), die < 16 → va.toNat < 2 ^ 56 →
    (∀ w ∈ (s.die die).walks, ¬(w.ctx = ctx ∧ w.va = va)) → s.needsWalk die ctx va false = true →
    (∀ tr, s.walk ctx va = .ok tr → ∃ t, exec (.pageWalkComplete die ctx va) s = .next t ∧
      (t.die die).tlb = tr.entry ctx va :: (s.die die).tlb ∧ t.seqs = s.seqs ∧ t.mem = s.mem ∧ t.cores = s.cores ∧
      t.clusters = s.clusters ∧ ∀ d, d ≠ die → (t.die d).tlb = (s.die d).tlb) ∧
    (∀ f, s.walk ctx va = .error f → (∀ l, f ≠ .line l) → ∃ t, exec (.pageWalkComplete die ctx va) s = .next t ∧
      t.seqs = s.seqs ∧ t.mem = s.mem ∧ t.cores = s.cores ∧ t.clusters = s.clusters ∧ ∀ d, (t.die d).tlb = (s.die d).tlb)) ∧
  (∀ (s s1 : State) (q p : Nat) (r : Record), s.heldRecords (s.ctxOf q) = [r] → s.firstHeld (s.ctxOf q) [r] = some (p, r) →
    s.ringGate p (s.ctxOf q) = none → s.tryRecord p (s.ctxOf q) 0 r = (s1, true) → ∃ t, exec (.faultRecordRetry q) s = .next t ∧ t.mem = s1.mem ∧
      t.hal = s1.hal ∧ t.seq p = { s1.seq p with c := { (s1.seq p).c with records := (s1.seq p).c.records.drop 1 } } ∧
      s1.sameOthers t p) ∧
  (∀ (ctx owner seq src number : Nat) (dev : BitVec 3) (r : Record), ctx < 2 ^ 16 → owner < 2 ^ 6 → seq < 2 ^ 14 → src < 4 →
    r.slot < 2 ^ 7 → r.kind < 2 ^ 8 → r.trap.code < 2 ^ 8 → recordWords ctx owner dev seq src r number =
      [BitVec.ofNat 16 ctx ++ BitVec.ofNat 6 owner ++ dev ++ BitVec.ofNat 14 seq ++ BitVec.ofNat 2 src ++
         BitVec.ofNat 7 r.slot ++ BitVec.ofNat 8 r.kind ++ BitVec.ofNat 8 r.trap.code,
       r.place, r.resume, BitVec.ofNat 32 number ++ r.cycle, r.trap.w4, r.trap.w5, r.trap.w6, r.trap.w7])

/-! ### Scheduling, pre-emption, save, load and scrub (spec/14 R315, R316, R441, spec/15 R326, spec/16 R336 to R357) -/

/-- Only groups, contexts, owners and sequencers' pre-emption bits may have changed. -/
structure Sys2Proof.Stmt.sameStores (s t : State) : Prop where
  mem : t.mem = s.mem
  cores : t.cores = s.cores
  clusters : t.clusters = s.clusters
  launches : t.launches = s.launches
  regs : ∀ q, (t.seq q).r = (s.seq q).r ∧ (t.seq q).f = (s.seq q).f

/-- The decision of spec/14 R315 and the rungs of spec/16 R337 to R343. -/
def Obligations.SchedulingFollowsClassesAndRungs : Prop :=
  (∀ (s0 : State) (gh : Nat), (s0.group gh).mode = .idle →
    let s := s0.adoptPrios
    (∀ c k, s.reserved gh (s.group gh) = some (c, k) →
      (∀ w ∈ s.work gh (s.group gh), w.cls ≤ k) → ∃ t, exec (.schedDecision gh) s0 = .next t ∧ Stmt.sameStores s t ∧
        (t.group gh).mode = .loading ∧ (t.group gh).ctx = c ∧ (t.group gh).cls = k ∧ (t.group gh).next = (s.group gh).next.filter (fun e => e.1 != c) ∧
        (t.ctx c).mode = .active ∧ ∀ h, h ≠ gh → t.group h = s.group h) ∧
    (∀ s1 w, s.reserved gh (s.group gh) = none → s.work gh (s.group gh) ≠ [] →
      s.choose (s.work gh (s.group gh)) = (s1, some w) → ∃ t, exec (.schedDecision gh) s0 = .next t ∧ Stmt.sameStores s t ∧
        w ∈ s.work gh (s.group gh) ∧ (∀ v ∈ s.work gh (s.group gh), v.cls ≤ w.cls) ∧ 0 < (s1.owner w.owner).d ∧
        Tab.get? t.cursors w.cls = some w.owner ∧ Tab.get? t.served w.owner = some w.queue ∧
        (t.group gh).mode = .loading ∧ (t.group gh).ctx = w.ctx ∧ (t.ctx w.ctx).mode = .active)) ∧
  (∀ (s0 : State) (gh : Nat), let s := s0.adoptPrios
    let g := s.group gh
    let ws := s.work gh g
    let mine := ws.filter fun v => v.ctx == g.ctx
    let credit := 0 < (s.owner (s.payer g)).d ∧ ∃ v ∈ mine, ∀ u ∈ ws, u.cls ≤ v.cls
    g.mode = .running → g.rung = 0 → s.hasLaunch g.ctx = false →
    (s.holds gh g = true → (∀ v ∈ ws, v.cls ≤ g.cls) → exec (.schedDecision gh) s0 = .next s) ∧
    (s.holds gh g = false → s.reserved gh g = none →
      ((∀ v ∈ ws, v.ctx = g.ctx) ∨ credit → mine ≠ [] → ∃ t, exec (.schedDecision gh) s0 = .next t ∧ Stmt.sameStores s t ∧
        (t.group gh).ctx = g.ctx ∧ (t.group gh).mode = .running ∧ (t.group gh).held = true ∧ (t.group gh).rung = 0 ∧
        (∃ v ∈ mine, (t.group gh).cls = v.cls) ∧ ∀ v ∈ mine, v.cls ≤ (t.group gh).cls) ∧
      ∀ s1 w, (∃ v ∈ ws, v.ctx ≠ g.ctx) → ¬credit → s.choose ws = (s1, some w) → w.ctx ≠ g.ctx →
        ∃ t, exec (.schedDecision gh) s0 = .next t ∧ Stmt.sameStores s t ∧
          (t.group gh).rung = 1 ∧ (t.group gh).ctx = g.ctx ∧ (t.group gh).mode = .running ∧
          ∀ q ∈ groupSeqs gh, (t.seq q).c.preq = true)) ∧
  (∀ (s : State) (gh : Nat), let g := s.group gh
    g.mode = .running → g.rung = 0 → s.mustPreempt gh g = true → ∃ t, exec (.preemptRequest gh) s = .next t ∧
      Stmt.sameStores s t ∧ t.ctxs = s.ctxs ∧ (∀ h, h ≠ gh → t.group h = s.group h) ∧
      t.group gh = { g with rung := 1, grace := (s.ctx g.ctx).grace.toNat, kill := (s.ctx g.ctx).kill.toNat, age := 0 } ∧
      (∀ q ∈ groupSeqs gh, t.seq q = { s.seq q with c := { (s.seq q).c with preq := true } }) ∧
      ∀ q, q ∉ groupSeqs gh → t.seq q = s.seq q) ∧
  (∀ (s : State) (gh : Nat), let g := s.group gh
    g.mode = .running → g.rung = 1 →
    ((∀ q ∈ groupSeqs gh, (s.seq q).atBoundary = true) → ∃ t, exec (.saveStart gh) s = .next t ∧ t.seqs = s.seqs ∧
      Stmt.sameStores s t ∧ t.group gh = { g with mode := .saving } ∧ ∀ h, h ≠ gh → t.group h = s.group h) ∧
    (g.grace ≤ g.age → ∃ t, exec (.graceTimerExpire gh) s = .next t ∧ t.mem = s.mem ∧ t.cores = s.cores ∧
      t.group gh = { g with mode := .saving, rung := 2 } ∧ (∀ h, h ≠ gh → t.group h = s.group h) ∧
      (∀ q, q ∉ groupSeqs gh → t.seq q = s.seq q) ∧ ∀ q ∈ groupSeqs gh, (t.seq q).r = (s.seq q).r ∧
        (t.seq q).c.loops = (s.seq q).c.loops ∧
        (t.seq q).c.mode = if (s.seq q).c.mode = .running then .halted else (s.seq q).c.mode)) ∧
  (∀ (s : State) (gh : Nat), let g := s.group gh
    g.mode = .running ∨ g.mode = .saving → g.rung ≠ 0 → g.kill ≤ g.age → g.ctx ∈ g.bound →
    ∃ t, exec (.killTimerExpire gh) s = .next t ∧ (t.ctx g.ctx).mode = .killing ∧ (t.ctx g.ctx).images = [] ∧
      (t.group gh).mode = .scrubbing ∧ (∀ e ∈ t.launches, e.2.ctx ≠ g.ctx) ∧
      (∀ q ∈ groupSeqs gh, ∀ p ∈ (s.seq q).openPorts, ∃ h, (h, p) ∈ (t.ctx g.ctx).drops) ∧
      (∀ p ∈ (s.ctx g.ctx).openPorts, p ∈ (t.ctx g.ctx).drops) ∧
      ∀ n, (s.queue n).ctx = g.ctx → (s.queue n).mode = .active ∨ (s.queue n).mode = .paused →
        t.queue n = { s.queue n with mode := .halted, rcode := 9#8, children := [] }) ∧
  (∀ (s0 s : State) (ctx : Nat), (s0.ctx ctx).mode = .killing → s0.dropAll ctx (s0.ctx ctx).drops = (s, []) →
    ((s0.ctx ctx).destroy = false → ∃ t, exec (.killComplete ctx) s0 = .next t ∧ t.seqs = s.seqs ∧ t.cores = s.cores ∧
      t.ctx ctx = { s.ctx ctx with mode := .ready } ∧ ∀ c, c ≠ ctx → t.ctx c = s.ctx c) ∧
    ((s0.ctx ctx).destroy = true → ∃ t, exec (.killComplete ctx) s0 = .next t ∧ (t.ctx ctx).mode = .teardown ∧
      (t.ctx ctx).destroy = false ∧ (∀ d, d < 16 → (t.die d).scrub.ctx = BitVec.ofNat 16 ctx ∧ (t.die d).scrub.state = 1#2) ∧
      ((s.ctx ctx).ksl ≠ 0 → Tab.get? t.mast.keys (s.ctx ctx).ksl = some .zeroising) ∧
      (t.ctx ctx).scrubList = (s.ctx ctx).scrubRuns ∧ ∃ more, (ctx, (s.ctx ctx).scrubRuns ++ more) ∈ t.mast.journal))

/-- What the unit that saves, loads and scrubs leaves (spec/16 R335 to R341, R357, spec/15 R326). -/
def Obligations.ContextsAreSavedLoadedAndScrubbed : Prop :=
  (∀ (s : State) (gh : Nat), let g := s.group gh
    g.mode = .saving → s.saveEvents gh = [] → s.relGate (gh / 16) g.ctx = none →
    s.runsGate ((Tab.get? (s.ctx g.ctx).areas gh).toList.map fun a => (a.toNat, areaSize gh)) = none →
    ∃ t i, exec (.contextSaveComplete gh) s = .next t ∧ (t.group gh).ctx = 0 ∧ (t.group gh).rung = 0 ∧
      (t.group gh).mode = (if g.dpend = true ∨ g.rpend = true then .scrubbing else .idle) ∧
      Tab.get? (t.ctx g.ctx).images gh = some i ∧ i.mask = BitVec.ofNat 4 gh ∧ i.joined = g.joined ∧
      i.seqs.map (·.r) = (groupSeqs gh).map (fun q => (s.seq q).saved.r) ∧
      i.seqs.map (·.c.loops) = (groupSeqs gh).map (fun q => (s.seq q).saved.c.loops) ∧
      (∀ q ∈ groupSeqs gh, t.seq q = {}) ∧ ∀ e ∈ (t.core (gh / 16)).l1, e.2.ctx ≠ g.ctx) ∧
  (∀ x : Seq, x.saved.r.s = x.r.s ∧ x.saved.r.v = x.r.v ∧ x.saved.r.c = x.r.c ∧ x.saved.r.k = x.r.k ∧
    (x.c.window ≠ [] → x.saved.r.p = x.r.p ∧ x.saved.c = { x.c with kept := x.saved.c.kept }) ∧
    (∀ l k, Tab.get? x.passEnd.c.kept l = some k → Tab.get? x.saved.c.kept l = some { k with r := k.r.saved }) ∧
    ∀ n st, Tab.get? x.r.q n = some st → Tab.get? x.saved.r.q n =
      some (if st.pat.dirW then st else { st with queue := [], pos := st.taken, fault := none })) ∧
  (∀ (s : State) (gh : Nat) (i : Image), let g := s.group gh
    g.mode = .loading → s.migrate g.ctx = s → Tab.get? (s.ctx g.ctx).images gh = some i → g.asked = none →
    g.dpend = false → Mem.wf i.spad = true → Tab.rising none i.acc = true → Tab.rising none i.descs = true →
    i.seqs.length = (groupSeqs gh).length →
    ∃ t, exec (.contextLoadComplete gh) s = .next t ∧ t.group gh = { g with mode := .running, joined := i.joined, asked := none } ∧
      Tab.get? (t.ctx g.ctx).images gh = none ∧
      (∀ o, inBank (gh % 16) o = true → Mem.get (t.core (gh / 16)).spad o = Mem.get i.spad o) ∧
      (∀ e, inTiles (gh % 16) e = true → (t.core (gh / 16)).elem e = Tab.getD i.acc e 0#32) ∧
      (∀ n, inDescs (gh % 16) n = true → (t.core (gh / 16)).desc n = Tab.getD i.descs n {}) ∧
      (t.core (gh / 16)).gen = ((s.bumpAll (gh / 16)).core (gh / 16)).gen ∧
      ∀ n (h : n < (groupSeqs gh).length) x, i.seqs[n]? = some x → x.c.mode ≠ .stopped →
        (t.seq ((groupSeqs gh)[n])).r = x.r ∧ (t.seq ((groupSeqs gh)[n])).f = x.f ∧
        (t.seq ((groupSeqs gh)[n])).c.preq = false ∧
        (t.seq ((groupSeqs gh)[n])).c.mode = (if x.c.mode = .halted then .running else x.c.mode) ∧
        (t.seq ((groupSeqs gh)[n])).c.rsm = if i.rung = 2 then x.c.rsm + 1#32 else x.c.rsm) ∧
  (∀ (s : State) (gh : Nat), let g := s.group gh
    g.mode = .scrubbing → ∃ t, exec (.groupScrubComplete gh) s = .next t ∧ (∀ q ∈ groupSeqs gh, t.seq q = {}) ∧
      (∀ q, q ∉ groupSeqs gh → (t.seq q).r = (s.seq q).r) ∧
      ((∀ e ∈ s.dies, e.2.ovf = none) → t.mem.dram = s.mem.dram) ∧
      (∀ o, Mem.get (t.core (gh / 16)).spad o = if inBank (gh % 16) o then 0#8 else Mem.get (s.core (gh / 16)).spad o) ∧
      (∀ e, (t.core (gh / 16)).elem e = if inTiles (gh % 16) e then 0#32 else (s.core (gh / 16)).elem e) ∧
      (∀ n, (t.core (gh / 16)).desc n = if inDescs (gh % 16) n then {} else (s.core (gh / 16)).desc n) ∧
      (g.dpend = true → (t.group gh).mode = .absent) ∧
      (g.dpend = false → (t.group gh).mode = .idle ∧ (t.group gh).ctx = 0 ∧ (t.group gh).joined = true ∧
        (t.group gh).owner = g.owner) ∧
      (g.dpend = false → g.rpend = true → (t.group gh).lent = false ∧ (t.group gh).rpend = false ∧
        ∀ c ∈ (t.group gh).bound, (s.ctx c).owner ≠ g.borrower)) ∧
  (∀ (s : State) (ctx : Nat), let c := s.ctx ctx
    c.mode = .teardown → s.runsGate ((c.scrubList ++ s.ovfRuns c).map fun r => (r.1, 65536 * r.2)) = none →
    ∃ t, exec (.contextScrubComplete ctx) s = .next t ∧ t.ctx ctx = {} ∧
      (∀ d, d ≠ ctx → t.ctx d = s.ctx d) ∧ (∀ e ∈ t.groups, ctx ∉ e.2.bound) ∧ t.seqs = s.seqs ∧
      (∀ r ∈ c.scrubList, ∀ a, r.1 ≤ a → a < r.1 + 65536 * r.2 → Mem.get t.mem.dram a = 0#8 ∧ t.sideBits (a / 64) = 0#16 ∧
        a / 64 ∉ t.mem.poison) ∧
      (∀ a, (∀ e ∈ s.dies, e.2.ovf = none) → (∀ r ∈ c.scrubList, a < r.1 ∨ r.1 + 65536 * r.2 ≤ a) → Mem.get t.mem.dram a = Mem.get s.mem.dram a) ∧
      (∀ d base count n, Tab.get? c.wins d = some (base, count) → base ≤ n → n < base + count →
        Tab.get? (t.die d).pen n = none) ∧
      (∀ d bank, ∀ r ∈ t.promo d bank, r.ctx ≠ ctx) ∧ ∀ e ∈ t.mast.journal, e.1 ≠ ctx)

/-! ### Requests at the home of a line (spec/18 R374 to R377) -/

/-- The side-band of a line taken apart (spec/18 R374): extent, device, die, cluster, state (I 0, S 1, E 2, O 3, M 4). -/
def Sys2Proof.Stmt.sideIs (s : State) (l : Nat) (ext dev die cl st : Nat) : Prop :=
  s.sideBits l = BitVec.ofNat 2 ext ++ BitVec.ofNat 3 dev ++ BitVec.ofNat 4 die ++ BitVec.ofNat 4 cl ++ BitVec.ofNat 3 st

/-- Nothing keeps a request from being served: no lock, no copy of the host for an exclusive one, a port to a home on another module, and
no bad side-band. -/
structure Sys2Proof.Stmt.open_ (s : State) (l : Nat) (exclusive : Bool) : Prop where
  gate : s.gate l exclusive = none
  side : s.sideBad l = false

/-- The transition table of spec/18 R376; bytes are those that a non-caching agent reads at the home. -/
def Obligations.HomesServeRequests : Prop :=
  (∀ (s : State) (l cl : Nat), Stmt.open_ s l false → s.homeBad l = false → s.l2 cl l = none → cl < 256 →
    ((s.cluster cl).l2.filter fun e => e.1 % 8192 == l % 8192).length < 16 →
    ∃ t x, exec (.homeRds l cl) s = .next t ∧ t.seqs = s.seqs ∧ t.cores = s.cores ∧ t.mem.dram = s.mem.dram ∧
      t.l2 cl l = some x ∧ x.data = s.homeData l ∧ x.have_ = BitVec.allOnes 64 ∧ x.dirty = 0#64 ∧
      (∀ m, m ≠ l → t.sideBits m = s.sideBits m) ∧
      ((s.side l).st = 0 → Stmt.sideIs t l 0 s.link.dev.toNat (cl / 16) (cl % 16) 2) ∧
      ((s.side l).dev = s.link.dev.toNat → (s.side l).st = 1 ∨ (s.side l).st = 2 → Stmt.sideIs t l
        (max (s.side l).ext (if (s.side l).die = cl / 16 then 0 else 1)) s.link.dev.toNat (cl / 16) (cl % 16) 1) ∧
      ((s.side l).dev = s.link.dev.toNat → (s.side l).st = 3 ∨ (s.side l).st = 4 → Stmt.sideIs t l
        (max (s.side l).ext (if (s.side l).die = cl / 16 then 0 else 1)) (s.side l).dev (s.side l).die (s.side l).cl 3)) ∧
  (∀ (s : State) (l cl : Nat), Stmt.open_ s l true → s.homeBad l = false → s.ownsM l cl = false → cl < 256 →
    (s.l2 cl l = none → ((s.cluster cl).l2.filter fun e => e.1 % 8192 == l % 8192).length < 16) →
    ∃ t x, exec (.homeRdx l cl) s = .next t ∧ t.seqs = s.seqs ∧ t.cores = s.cores ∧ t.mem.dram = s.mem.dram ∧
      Stmt.sideIs t l 0 s.link.dev.toNat (cl / 16) (cl % 16) 4 ∧ t.l2 cl l = some x ∧ x.have_ = BitVec.allOnes 64 ∧
      x.pend = false ∧ (s.l2 cl l = none → x.data = s.homeData l) ∧
      (∀ c, s.l2 cl l = some c → ∀ b, b < 64 → x.data.extractLsb' (8 * b) 8 =
        if c.dirty.getLsbD b then c.data.extractLsb' (8 * b) 8 else (s.homeData l).extractLsb' (8 * b) 8) ∧
      (∀ d y, d ≠ cl → t.l2 d l = some y → y.dirty ≠ 0#64 ∧ y.have_ = y.dirty) ∧
      (∀ m, m ≠ l → t.sideBits m = s.sideBits m)) ∧
  (∀ (s : State) (l : Nat), Stmt.open_ s l true → ∃ t, exec (.homeHal l) s = .next t ∧ t.seqs = s.seqs ∧
    t.cores = s.cores ∧ t.sideBits l = 0#16 ∧ (∀ a, t.engByte a = s.engByte a) ∧
    (∀ b, b < 64 → Mem.get t.mem.dram (64 * l + b) = s.engByte (64 * l + b)) ∧
    ∀ d y, t.l2 d l = some y → y.dirty ≠ 0#64 ∧ y.have_ = y.dirty) ∧
  (∀ (s : State) (l cl : Nat) (c : CLine), Stmt.open_ s l (s.unpushed l cl) → s.lost l = false → s.l2 cl l = some c →
    c.out = false → (s.side l).owner = cl → (s.side l).st = 2 ∨ (s.side l).st = 3 ∨ (s.side l).st = 4 →
    ∃ t, exec (.homeWb l cl) s = .next t ∧ t.seqs = s.seqs ∧ t.cores = s.cores ∧ t.l2 cl l = none ∧
      ((s.side l).st = 3 → s.unpushed l cl = false → (t.side l).st = 1) ∧
      ((s.side l).st ≠ 3 ∨ s.unpushed l cl = true → t.sideBits l = 0#16) ∧
      (∀ b, b < 64 → Mem.get t.mem.dram (64 * l + b) =
        if c.dirty.getLsbD b then c.data.extractLsb' (8 * b) 8 else Mem.get s.mem.dram (64 * l + b)) ∧
      ∀ a, a / 64 ≠ l → Mem.get t.mem.dram a = Mem.get s.mem.dram a) ∧
  (∀ (s : State) (l : Nat), Stmt.open_ s l false → s.homeBad l = false → exec (.engineHomeRead l) s = .next s) ∧
  (∀ (s : State) (l : Nat) (data : BitVec 512) (mask : BitVec 64), Stmt.open_ s l true →
    ∃ t, exec (.engineHomeWrite l data mask) s = .next t ∧ t.seqs = s.seqs ∧ t.cores = s.cores ∧ t.sideBits l = 0#16 ∧
      (∀ b, b < 64 → t.engByte (64 * l + b) =
        if mask.getLsbD b then data.extractLsb' (8 * b) 8 else s.engByte (64 * l + b)) ∧
      (∀ a, a / 64 ≠ l → t.engByte a = s.engByte a) ∧ (mask = BitVec.allOnes 64 → l ∉ t.mem.poison ∧ l ∉ t.mem.badData)) ∧
  (∀ (s : State) (cl l : Nat), (s.l2 cl l = none → exec (.snoopInvalidate cl l) s = .next s) ∧
    (∀ c, s.l2 cl l = some c → c.dirty = 0#64 → (s.side l).owner ≠ cl → ∃ t, exec (.snoopInvalidate cl l) s = .next t ∧
      t.l2 cl l = none ∧ t.seqs = s.seqs ∧ t.mem = s.mem ∧ t.cores = s.cores ∧ ∀ m, m ≠ l → t.l2 cl m = s.l2 cl m) ∧
    (∀ c, s.l2 cl l = some c → (s.side l).owner = cl → (s.side l).st = 4 → Stmt.open_ s l false → s.lost l = false →
      c.out = false → ∃ t, exec (.snoopInvalidate cl l) s = .next t ∧
      t.l2 cl l = none ∧ t.seqs = s.seqs ∧ t.cores = s.cores ∧ t.sideBits l = 0#16 ∧
      ∀ b, b < 64 → Mem.get t.mem.dram (64 * l + b) =
        if c.dirty.getLsbD b then c.data.extractLsb' (8 * b) 8 else Mem.get s.mem.dram (64 * l + b)))

/-! ### Inputs from outside: the host, TDISP, ports, resets and Masthead's registers (spec/16 R360, spec/20, spec/22) -/

/-- A host request that is served: its decoder maps the address to a line of the module, whose key it may use, the line stands under
that key, and nothing holds it at its home. -/
structure Sys2Proof.Stmt.served (s : State) (dec : Nat) (addr : Word) (h : Hdm) (pa : Nat) (write : Bool) : Prop where
  decoded : s.hostPa dec addr = some (h, pa)
  key : s.hostKey h pa = some (s.keyOf (pa / 64))
  home : Stmt.open_ s (pa / 64) write
  sound : s.homeBad (pa / 64) = false

/-- The module but for the link, Masthead and the log. -/
structure Sys2Proof.Stmt.inside (s t : State) : Prop where
  seqs : t.seqs = s.seqs
  cores : t.cores = s.cores
  clusters : t.clusters = s.clusters
  mem : t.mem = s.mem
  ctxs : t.ctxs = s.ctxs
  groups : t.groups = s.groups

/-- Requests of the host (spec/20 R398, R399), TDISP (R400), the mailbox registers (spec/22 R415). The list of SPDM messages is the model's
choice (log 61). -/
def Obligations.HostRequestsAreServedAtTheHome : Prop :=
  (∀ (s : State) (dec : Nat) (addr : Word) (h : Hdm) (pa : Nat), Stmt.served s dec addr h pa false → s.link.held = [] →
    ∃ t, exec (.hostMemRd dec addr) s = .next t ∧ t.seqs = s.seqs ∧ t.cores = s.cores ∧ t.clusters = s.clusters ∧
      t.mem.dram = s.mem.dram ∧ t.link.answers = .data (s.homeData (pa / 64)) :: s.link.answers ∧
      ((s.side (pa / 64)).st = 3 ∨ (s.side (pa / 64)).st = 4 → t.sideBits (pa / 64) = s.sideBits (pa / 64)) ∧
      ((s.side (pa / 64)).st ≠ 3 → (s.side (pa / 64)).st ≠ 4 → Stmt.sideIs t (pa / 64) 2 (s.side (pa / 64)).dev
        (s.side (pa / 64)).die (s.side (pa / 64)).cl 1) ∧ ∀ m, m ≠ pa / 64 → t.sideBits m = s.sideBits m) ∧
  (∀ (s : State) (dec : Nat) (addr : Word) (h : Hdm) (pa : Nat) (data : BitVec 512) (mask : BitVec 64) (i : Instr),
    (i, mask) ∈ [(Instr.hostMemWr dec addr data, BitVec.allOnes 64), (Instr.hostMemWrPtl dec addr data mask, mask)] →
    Stmt.served s dec addr h pa true → s.link.held = [] → ∃ t, exec i s = .next t ∧ t.seqs = s.seqs ∧ t.cores = s.cores ∧
      t.sideBits (pa / 64) = 0#16 ∧ (∀ b, b < 64 → t.engByte (64 * (pa / 64) + b) =
        if mask.getLsbD b then data.extractLsb' (8 * b) 8 else s.engByte (64 * (pa / 64) + b)) ∧
      ∀ a, a / 64 ≠ pa / 64 → t.engByte a = s.engByte a) ∧
  (∀ (s : State) (dec : Nat) (addr : Word) (h : Hdm) (pa : Nat) (data : BitVec 512) (mask : BitVec 64),
    s.hostPa dec addr = some (h, pa) → s.hostKey h pa = none →
    (∃ t, exec (.hostMemRd dec addr) s = .next t ∧ Stmt.inside s t ∧ t.link.answers = .poison :: s.link.answers ∧
      t.mast.log.length = s.mast.log.length + 1) ∧
    ∀ i ∈ [Instr.hostMemWr dec addr data, Instr.hostMemWrPtl dec addr data mask], ∃ t, exec i s = .next t ∧
      Stmt.inside s t ∧ t.link.answers = s.link.answers ∧ t.mast.log.length = s.mast.log.length + 1) ∧
  (∀ (s : State) (l : Nat), (l ∈ s.mem.bisnp → ∃ t, exec (.hostBisnpinvResponse l) s = .next t ∧ l ∉ t.mem.bisnp ∧
      t.hostHeld l = false ∧ t.seqs = s.seqs ∧ t.cores = s.cores ∧ t.mem.dram = s.mem.dram ∧ t.mem.side = s.mem.side) ∧
    (l ∉ s.mem.bisnp → exec (.hostBisnpinvResponse l) s = .next s)) ∧
  (∀ (s : State) (a msg : Word) (w : LinkWidth) (r : LinkRate),
    (∃ t, exec (.hostCacheSnoop a) s = .next t ∧ Stmt.inside s t ∧ t.link.answers = .miss :: s.link.answers) ∧
    (∃ t, exec (.hostLinkTraining w r) s = .next t ∧ Stmt.inside s t ∧ t.link.width = some w ∧ t.link.rate = some r) ∧
    ∃ t, exec (.spdmSessionMessage msg) s = .next t ∧ Stmt.inside s t ∧ t.mast.spdm = s.mast.spdm ++ [msg]) ∧
  (∀ (s : State) (vf reg : Nat) (v : Word), 1 ≤ vf → vf ≤ 63 →
    let m := (s.tdi vf).mode
    (∀ i from_ to_, (i, from_, to_) ∈ [(Instr.tdispLockInterface vf, TdiMode.unlocked, TdiMode.locked),
        (Instr.tdispStartInterface vf, TdiMode.locked, TdiMode.run)] → ∃ t, exec i s = .next t ∧ Stmt.inside s t ∧
      t.link.answers = .tdisp (m == from_) :: s.link.answers ∧ (∀ k, k ≠ vf → t.tdi k = s.tdi k) ∧
      t.tdi vf = if m = from_ then { s.tdi vf with mode := to_ } else s.tdi vf) ∧
    (∃ t, exec (.tdispStopInterface vf) s = .next t ∧ t.tdi vf = { s.tdi vf with mode := .unlocked } ∧
      t.link.answers = .tdisp true :: s.link.answers ∧ (m = .unlocked ∨ m = .locked → Stmt.inside s t) ∧
      ∀ c, m = .run ∨ m = .error → (s.tdi vf).ctx = some c → (s.ctx c).mode = .ready ∨ (s.ctx c).mode = .active →
        (t.ctx c).mode = .killing) ∧
    ∃ t, exec (.tdiLockedRegisterWrite vf reg v) s = .next t ∧ Stmt.inside s t ∧
      (m = .unlocked → t.tdi vf = { s.tdi vf with regs := Tab.put (s.tdi vf).regs reg v }) ∧
      (m = .locked ∨ m = .run → t.tdi vf = { s.tdi vf with mode := .error } ∧ ∀ n, (s.queue n).mode = .active →
        s.queueVf (s.queue n) = some vf → t.queue n = { s.queue n with mode := .paused }) ∧ (m = .error → t = s)) ∧
  (∀ (s : State) (f off : Nat) (v : Word), f < 64 → ∃ t, exec (.registerWrite f off v) s = .next t ∧ Stmt.inside s t ∧
    (∀ g, g ≠ f → t.mail g = s.mail g) ∧ t.mail f =
      if off = 0x10 then { s.mail f with tail := v.setWidth 32 }
      else if off = 0x00 ∧ (s.mail f).head = (s.mail f).tail ∧ v.toNat % 128 = 0 then { s.mail f with base := v }
      else if off = 0x08 ∧ (s.mail f).head = (s.mail f).tail ∧ 4 ≤ v.toNat % 16 ∧ v.toNat % 16 ≤ 12 then
        { s.mail f with lsize := v.setWidth 4 }
      else s.mail f) ∧
  ∀ (s : State) (f n off : Nat),
    (s.regRead f 0x00 = (s.mail f).base ∧ s.regRead f 0x08 = (s.mail f).lsize.setWidth 64 ∧
      s.regRead f 0x10 = (s.mail f).tail.setWidth 64 ∧ s.regRead f 0x18 = (s.mail f).head.setWidth 64 ∧
      s.regRead f 0x20 = BitVec.ofNat 64 s.mast.stat ∧
      (off ∉ [0x00, 0x08, 0x10, 0x18, 0x20] → s.regRead f off = 0#64)) ∧
    (f = 0 ∨ (s.ownerOf f = some (s.ctx (s.queue n).ctx).owner ∧ (s.queue n).mode ≠ .free) →
      s.doorbellRead f n 0x00 = (s.queue n).tail.setWidth 64 ∧ s.doorbellRead f n 0x08 = (s.queue n).head.setWidth 64 ∧
      s.doorbellRead f n 0x10 = (s.queue n).stat ∧ (off ∉ [0x00, 0x08, 0x10] → s.doorbellRead f n off = 0#64))

/-- Ports and switches (spec/20 R401 to R407), resets (spec/16 R360, spec/22 R424), bring-up (R428), the clock (R426). -/
def Obligations.PortsResetsAndBringup : Prop :=
  (∀ (s : State) (port : Nat) (peer : Peer), port < 16 →
    (s.peerOk peer = true → ∃ t, exec (.portTrained port peer) s = .next t ∧ Stmt.inside s t ∧
      Tab.get? t.link.ports port = some { trained := some peer } ∧
      (∀ d, d ∈ t.link.unreachable → t.cutOff d = true) ∧
      ∀ p, p ≠ port → Tab.get? t.link.ports p = Tab.get? s.link.ports p) ∧
    (∃ t, exec (.portPeerSilent port) s = .next t ∧ Stmt.inside s t ∧ Tab.get? t.link.ports port = none ∧
      ∀ p, p ≠ port → Tab.get? t.link.ports p = Tab.get? s.link.ports p) ∧
    exec (.flitCrcReplay port) s = .next s) ∧
  (∀ (s : State) (dev : Nat), dev < 8 →
    (s.cutOff dev = true → ∃ t, exec (.deviceUnreachable dev) s = .next t ∧ dev ∈ t.link.unreachable ∧
      (∀ d, d ≠ dev → (d ∈ t.link.unreachable ↔ d ∈ s.link.unreachable)) ∧ t.mem = s.mem ∧ t.cores = s.cores) ∧
    (s.cutOff dev = false → exec (.deviceUnreachable dev) s = .next s) ∧
    (∀ q hb m, s.cutOff dev = true → s.seqs = [(q, s.seq q)] → (s.seq q).mcas = some (hb, m) → m.result = none →
      (∃ x ∈ m.ents, paDev x.pa = dev) → ∃ t, exec (.deviceUnreachable dev) s = .next t ∧ Stmt.unlocked s t q ∧
        Stmt.mcasIs s t q hb { m with held := 0, backoff := false, result := some 0x10000#64 })) ∧
  (∀ (s : State) (grp off : Nat) (data : BitVec 512) (g : RedGroup), Tab.get? s.link.red grp = some g → off % 64 = 0 →
    off + 64 ≤ g.span.toNat → (g.dest.toNat < 2 ^ 52 → Stmt.open_ s ((g.dest.toNat + off) / 64) true) →
    let had := Tab.get? g.lines (off / 64)
    let c := match had with | some e => e.1 + 1 | none => 1
    let sum := match had with | some e => addLine e.2 data | none => data
    (c < g.n → ∃ t, exec (.swredContribution grp off data) s = .next t ∧ Stmt.inside s t ∧
      Tab.get? t.link.red grp = some { g with lines := Tab.put g.lines (off / 64) (c, sum) }) ∧
    (g.n ≤ c → g.dest.toNat < 2 ^ 52 → g.dest.toNat % 64 = 0 → ∃ t, exec (.swredContribution grp off data) s = .next t ∧
      t.seqs = s.seqs ∧ t.cores = s.cores ∧ (∀ b, b < 64 → t.engByte (g.dest.toNat + off + b) = sum.extractLsb' (8 * b) 8) ∧
      (∀ a, a / 64 ≠ (g.dest.toNat + off) / 64 → t.engByte a = s.engByte a) ∧
      Stmt.halList t = Stmt.halList s ++ (if paDev g.dest.toNat = s.link.dev.toNat ∧
          ∀ l, l < g.span.toNat / 64 → l = off / 64 ∨ l ∈ g.written then
        [(65536, 0, .add g.handle 1#64 false)] else []))) ∧
  (∀ (s : State) (cold : Bool), ∃ t, exec (if cold then .coldReset else .warmReset) s = .next t ∧ t.seqs = [] ∧
    t.cores = [] ∧ t.clusters = [] ∧ t.ctxs = [] ∧ t.groups = [] ∧ t.queues = [] ∧ t.launches = [] ∧ t.hal = [] ∧
    t.mem.dram = s.mem.dram ∧ t.mem.side = s.mem.side ∧ t.mem.key = s.mem.key ∧ t.link = {} ∧ t.mast.stage = 0#4 ∧
    t.mast.ready = false ∧ t.mast.keys = [] ∧ t.mast.mail = [] ∧
    t.mast.boot = (if cold then s.mast.boot + 1 else s.mast.boot) ∧
    t.mast.journal = (if cold then [] else s.mast.journal) ∧
    ∀ o, (t.owner o).qcyc = (if cold then 0#64 else (s.owner o).qcyc) ∧
      (t.owner o).saves = (if cold then 0#64 else (s.owner o).saves) ∧ (t.owner o).used = false) ∧
  (∀ (s : State), s.mast.ready = false → s.mast.berr = 0#8 →
    (∀ e, e ≠ 0#8 → ∃ t, exec (.bringupStage e) s = .next t ∧ Stmt.inside s t ∧ t.mast = { s.mast with berr := e }) ∧
    (s.mast.stage ≠ 1#4 → s.mast.stage ≠ 3#4 → ∃ t, exec (.bringupStage 0#8) s = .next t ∧ Stmt.inside s t ∧
      t.mast = if s.mast.stage = 5#4 then { s.mast with ready := true }
        else { s.mast with stage := s.mast.stage + 1#4 }) ∧
    (s.mast.stage = 1#4 → ∃ t, exec (.bringupStage 0#8) s = .next t ∧ t.mast.stage = 2#4 ∧ t.mast.keys = [] ∧
      t.mem = s.mem ∧ ∀ c, (t.core c).spad = [] ∧ (t.core c).acc = []) ∧
    (s.mast.stage = 3#4 → s.runsGate s.runsAtReset = none → ∃ t, exec (.bringupStage 0#8) s = .next t ∧ t.mast.stage = 4#4 ∧
      t.cores = s.cores ∧ (∀ r ∈ s.runsAtReset, ∀ a, r.1 ≤ a → a < r.1 + r.2 → Mem.get t.mem.dram a = 0#8) ∧
      (s.mast.cold = true → ∀ a, a / 2 ^ 49 = s.link.dev.toNat → Mem.get t.mem.dram a = 0#8))) ∧
  (∀ (s : State) (mhz : Nat), (1000 ≤ mhz → mhz ≤ 1400 → mhz % 25 = 0 → ∃ t, exec (.clockReplan mhz) s = .next t ∧
      Stmt.inside s t ∧ t.mast.clkPlan = mhz ∧ t.mast.clk =
        if mhz < 1320 ∧ mhz < s.mast.clk ∧ s.groups.any (fun e => e.2.rpend) = true then s.mast.clk else mhz) ∧
    (¬(1000 ≤ mhz ∧ mhz ≤ 1400 ∧ mhz % 25 = 0) → exec (.clockReplan mhz) s = .next s))

/-! ### Masthead's commands (spec/22 R415 to R425, spec/14 R307 to R318, spec/15 R330, spec/16 R334, spec/18 R394, spec/20 R412) -/

/-- The function that gives a command. -/
def Sys2Proof.Stmt.commandOf : Instr → Option Nat
  | .ccreate f _ _ _ _ _ _ _ _ | .cset f _ _ _ | .carea f _ _ _ | .cwin f _ _ _ _ | .climit f _ _ _ | .cpreempt f _ _ _
  | .cresume f _ _ _ | .ckill f _ | .ckey f _ _ | .cdestroy f _ _ _ | .cread f _ | .qcreate f _ _ _ _ _ _ | .qset f _ _
  | .qpause f _ | .qresume f _ | .qreset f _ | .qdestroy f _ | .ownset f _ _ | .qread f _ | .gcreate f _ _ _ | .gdestroy f _
  | .gbind f _ _ | .gunbind f _ _ | .lend f _ _ | .recallGroup f _ | .gread f _ | .vmroot f _ _ _ | .s2map f _ _ _ _ _ _ _ _ _
  | .s2unmap f _ _ _ | .s2clean f _ _ _ | .tlbinv f _ _ _ _ | .frset f _ _ | .segquota f _ _ | .mscset f _ _ _ _ _ _ _
  | .hmove f _ _ | .hdmset f _ _ _ _ _ _ | .tdibind f _ _ | .lnkdom f _ _ | .poolset f _ _ _ _ _ | .swred f _ _ _ _ _ _
  | .domfault f _ | .ownnew f _ _ | .owndel f _ | .readback f _ _ _ _ _ | .usage f _ _ _ | .idget f _ _ | .attest f _ _
  | .keyx f _ _ | .margin f _ | .errlog f _ _ _ | .scrread f _ | .fwinfo f | .halovf f _ _ _ => some f
  | _ => none

/-- Whether only PF0 may give a command (spec/22 R418). -/
def Sys2Proof.Stmt.onlyPf0 : Instr → Bool
  | .ownset _ _ _ | .gcreate _ _ _ _ | .gdestroy _ _ | .lend _ _ _ | .vmroot _ _ _ _ | .s2map _ _ _ _ _ _ _ _ _ _
  | .s2unmap _ _ _ _ | .s2clean _ _ _ _ | .tlbinv _ _ _ _ _ | .frset _ _ _ | .segquota _ _ _ | .mscset _ _ _ _ _ _ _ _
  | .hmove _ _ _ | .hdmset _ _ _ _ _ _ _ | .tdibind _ _ _ | .lnkdom _ _ _ | .poolset _ _ _ _ _ _ | .swred _ _ _ _ _ _ _
  | .domfault _ _ | .ownnew _ _ _ | .owndel _ _ | .margin _ _ | .errlog _ _ _ _ | .fwinfo _ | .halovf _ _ _ _ => true
  | _ => false

/-- Masthead is ready, and a function may give a command: it is PF0, or its owner satisfies a test. -/
def Sys2Proof.Stmt.may (s : State) (f : Nat) (mine : Nat → Prop) : Prop :=
  s.mast.ready = true ∧ (f = 0 ∨ ∃ o, s.ownerOf f = some o ∧ mine o)

/-- Host memory from an address on holds some bytes, and every other byte is as before. -/
def Sys2Proof.Stmt.hostHolds (s t : State) (a : Nat) (bs : List Byte) : Prop :=
  (∀ n (h : n < bs.length), Mem.get t.mem.host (a + n) = bs[n]) ∧
  ∀ n, n < a ∨ a + bs.length ≤ n → Mem.get t.mem.host n = Mem.get s.mem.host n

/-- The transport of spec/22 R416 to R419 and the commands of R419 to R426. -/
def Obligations.CommandsAnswerTheirMailbox : Prop :=
  (∀ (s : State) (f st : Nat) (rs : List Word), let m := s.mail f
    (m.head = m.tail → s.respond f st rs = s) ∧
    (m.head ≠ m.tail → st < 2 ^ 32 → (s.respond f st rs).mail f = { m with head := m.head + 1#32, pend := none } ∧
      (∀ g, g ≠ f → (s.respond f st rs).mail g = s.mail g) ∧ Stmt.inside { s with mem := (s.respond f st rs).mem } (s.respond f st rs) ∧
      (s.respond f st rs).mem.dram = s.mem.dram ∧
      let a := m.base.toNat + 128 * (m.head.toNat % 2 ^ m.lsize.toNat)
      let bytes := fun (ws : List Word) => ws.flatMap fun w => leBytes w.toNat 8
      let first := bytes (BitVec.ofNat 64 ((s.hostWord m.slot).toNat / 2 ^ 16 % 2 ^ 16 * 2 ^ 32 + st) :: rs.take 3)
      let more := bytes ((rs.drop 3).take 11)
      let t := s.respond f st rs
      (rs.length ≤ 3 → Stmt.hostHolds s t (a + 96) first) ∧
      (3 < rs.length → (∀ n (h : n < first.length), Mem.get t.mem.host (a + 96 + n) = first[n]) ∧
        (∀ n (h : n < more.length), Mem.get t.mem.host (a + 8 + n) = more[n]) ∧
        ∀ n, n < a + 8 ∨ a + 128 ≤ n → Mem.get t.mem.host n = Mem.get s.mem.host n))) ∧
  (∀ (i : Instr) (s : State) (f : Nat), Stmt.commandOf i = some f →
    (s.mast.ready = false → exec i s = .next (s.respond f 5 [])) ∧
    (s.mast.ready = true → f ≠ 0 → Stmt.onlyPf0 i = true → exec i s = .next (s.respond f 4 []))) ∧
  (∀ (s : State) (o vf w : Word), s.mast.ready = true → o.toNat ≤ 63 →
    ((s.owner o.toNat).used = false → 1 ≤ vf.toNat → vf.toNat ≤ 63 → (∀ e ∈ s.owners, e.2.used = true → e.2.fn ≠ vf.toNat) →
      exec (.ownnew 0 o vf) s = .next ((s.setOwner o.toNat
        { s.owner o.toNat with used := true, fn := vf.toNat, w := 1, d := 0 }).respond 0 0 [])) ∧
    ((s.owner o.toNat).used = true → (∀ e ∈ s.ctxs, e.2.mode ≠ .free → e.2.owner ≠ o.toNat) →
      exec (.owndel 0 o) s = .next ((s.setOwner o.toNat { s.owner o.toNat with used := false, fn := 255 }).respond 0 0 [])) ∧
    (1 ≤ w.toNat → w.toNat ≤ 255 →
      exec (.ownset 0 o w) s = .next ((s.setOwner o.toNat { s.owner o.toNat with w := w.toNat }).respond 0 0 []))) ∧
  (∀ (s : State) (f : Nat) (o nonce buf len key : Word),
    (Stmt.may s f (fun p => p = o.toNat) → o.toNat ≤ 63 → ∃ (t : State) (bs : List Byte), exec (.usage f o nonce buf) s = .next (t.respond f 0 []) ∧
      bs.length = 192 ∧ Stmt.hostHolds s t buf.toNat bs ∧ bs.take 8 = leBytes 1 8 ∧
      (bs.drop 56).take 32 = s.hostRead nonce.toNat 32 ∧ (s.mast.seqno ≠ BitVec.allOnes 64 → t.mast.seqno = s.mast.seqno + 1#64) ∧
      t.seqs = s.seqs ∧ t.cores = s.cores ∧ t.owners = s.owners) ∧
    (Stmt.may s f (fun _ => True) →
      (∃ (t : State) (bs : List Byte), exec (.attest f nonce buf) s = .next (t.respond f 0 []) ∧ Stmt.hostHolds s t buf.toNat bs ∧
        bs.take 32 = s.hostRead nonce.toNat 32 ∧ (s.mast.seqno ≠ BitVec.allOnes 64 → t.mast.seqno = s.mast.seqno + 1#64) ∧
        t.seqs = s.seqs ∧ t.cores = s.cores) ∧
      (∃ t : State, exec (.idget f buf len) s = .next (t.respond f 0 []) ∧ Stmt.hostHolds s t buf.toNat
        ((List.range (min len.toNat Config.certificateLen)).map Config.certificate) ∧ t.mast = s.mast ∧ t.seqs = s.seqs) ∧
      (∃ (t : State) (bs : List Byte), exec (.keyx f key buf) s = .next (t.respond f 0 []) ∧ bs.length = 96 ∧ Stmt.hostHolds s t buf.toNat bs ∧
        t.seqs = s.seqs ∧ t.mast.keys = s.mast.keys ∧ ∃ k, t.mail f = { s.mail f with session := k })) ∧
    (s.mast.ready = true → (∃ (t : State) (bs : List Byte), exec (.margin 0 buf) s = .next (t.respond 0 0 []) ∧ bs.length = 512 ∧
        Stmt.hostHolds s t buf.toNat bs ∧ (∀ d, d < 16 → (bs.drop (32 * d + 16)).take 16 =
          leBytes (BitVec.ofNat 64 s.mast.clk).toNat 8 ++ leBytes (BitVec.ofNat 64 s.mast.clkPlan).toNat 8) ∧
        t.mast = s.mast ∧ t.seqs = s.seqs) ∧
      ∀ clear : Word, clear.toNat ≤ 1 → ∃ (t : State) (bs : List Byte), exec (.errlog 0 buf len clear) s = .next (t.respond 0 0 []) ∧
        bs.length = min len.toNat (8 + 16 * s.mast.log.length) ∧
        (8 ≤ len.toNat → bs.take 8 = leBytes (BitVec.ofNat 64 s.mast.corrected).toNat 8) ∧ Stmt.hostHolds s t buf.toNat bs ∧
        t.mast = { s.mast with log := if clear = 1#64 then [] else s.mast.log,
                               corrected := if clear = 1#64 then 0 else s.mast.corrected } ∧ t.seqs = s.seqs)) ∧
  (∀ (s : State) (f : Nat) (die : Word),
    (Stmt.may s f (fun _ => True) → die.toNat ≤ 15 →
      let x := (s.die die.toNat).scrub
      exec (.scrread f die) s = .next (s.respond f 0 [x.ctx ++ x.state ++ 0#2 ++ x.done ++ x.left])) ∧
    (s.mast.ready = true → ∃ w1 w2, exec (.fwinfo 0) s = .next (s.respond 0 0 [0x10000#64, w1, w2]) ∧
      w1.extractLsb' 8 8 = s.mast.berr ∧ w1.extractLsb' 4 4 = s.mast.stage ∧ w1.getLsbD 0 = true)) ∧
  (∀ (s : State) (f : Nat) (cls inst off len buf : Word) (x : Item), s.item cls.toNat inst.toNat = some x →
    Stmt.may s f (fun o => itemMine cls.toNat inst.toNat s o = true) → off.toNat + len.toNat ≤ x.size → off.toNat % 8 = 0 →
    len.toNat % 8 = 0 → s.itemSealed f cls.toNat inst.toNat = false →
    ∃ t : State, exec (.readback f cls inst off len buf) s = .next (t.respond f 0 []) ∧ t.mast = s.mast ∧ t.seqs = s.seqs ∧
      t.mem.dram = s.mem.dram ∧ Stmt.hostHolds s t buf.toNat
        (((List.range (len.toNat / 8)).map fun n => x.word (off.toNat / 8 + n)).flatMap fun w => leBytes w.toNat 8)) ∧
  (∀ (s : State) (die pa count : Word), s.mast.ready = true → die.toNat ≤ 15 → 0 < count.toNat → count.toNat % 65536 = 0 →
    count.toNat ≤ 2 ^ 28 - 65536 → pa.toNat % 65536 = 0 → paDie pa.toNat = die.toNat → paFast pa.toNat = false →
    s.inStack pa.toNat (16 * count.toNat) = true → (∀ e ∈ s.ctxs, ∀ b k, Tab.get? e.2.wins die.toNat = some (b, k) → b + k ≤ 65536) →
    (∀ c ∈ s.ctxs, c.2.mode ≠ .free → ∀ e ∈ s.ctxLeaves c.1, leafMeets e pa.toNat (16 * count.toNat) = false) →
    s.rangeGate pa.toNat (16 * count.toNat) = none →
    ∃ t : State, exec (.halovf 0 die pa count) s = .next (t.respond 0 0 []) ∧
      (t.die die.toNat).ovf = some (pa.toNat, count.toNat) ∧ (∀ n, 65536 ≤ n → Tab.get? (t.die die.toNat).pen n = none) ∧
      (∀ n, n < 65536 → Tab.get? (t.die die.toNat).pen n = Tab.get? (s.die die.toNat).pen n) ∧ t.seqs = s.seqs ∧
      ∀ a, Mem.get t.mem.dram a = if pa.toNat ≤ a ∧ a < pa.toNat + 16 * count.toNat then 0#8 else Mem.get s.mem.dram a)

/-- The commands of spec/16 R334 and spec/22 R419, with the statuses of R416. An operand out of range answers 1 before any precondition is
looked at: the model's order (log 49). -/
def Obligations.ContextCommandsActOnTheirContext : Prop :=
  (∀ (s : State) (f : Nat) (ctx owner fring flog notify grace kill ksl : Word), Stmt.may s f (fun o => owner.toNat = o) →
    (ctx.toNat = 0 ∨ 65535 < ctx.toNat ∨ 63 < owner.toNat ∨ fring.toNat % 64 ≠ 0 ∨ kill.toNat < grace.toNat ∨
      flog.toNat < 4 ∨ 16 < flog.toNat ∨ 127 < ksl.toNat →
      exec (.ccreate f ctx owner fring flog notify grace kill ksl) s = .next (s.respond f 1 [])) ∧
    (1 ≤ ctx.toNat → ctx.toNat ≤ 65535 → owner.toNat ≤ 63 → fring.toNat < 2 ^ 56 → fring.toNat % 64 = 0 → 4 ≤ flog.toNat →
      flog.toNat ≤ 16 → notify.toNat < 2 ^ 32 → kill.toNat < 2 ^ 32 → grace.toNat ≤ kill.toNat → ksl.toNat ≤ 127 →
      (s.ctx ctx.toNat).mode = .free → (s.owner owner.toNat).used = true → s.ctxs.length < 4096 →
      ksl = 0#64 ∨ ((∃ k, Tab.get? s.mast.keys ksl.toNat = some (.loaded k)) ∧
        ∀ e ∈ s.ctxs, e.2.mode ≠ .free → e.2.ksl ≠ ksl.toNat) →
      exec (.ccreate f ctx owner fring flog notify grace kill ksl) s = .next ((s.setCtx ctx.toNat
        { mode := .ready, owner := owner.toNat, fring := fring, flog := flog.toNat, notify := notify.setWidth 32,
          grace := grace.setWidth 32, kill := kill.setWidth 32, ksl := ksl.toNat, destroy := false, root1 := 0#64,
          root2 := 0#64, areas := [], wins := [], limits := [], quota := 0, images := [], scrubList := [] }).respond f 0 []))) ∧
  (∀ (s : State) (f : Nat) (ctx : Word), let n := ctx.toNat
    let c := s.ctx n
    Stmt.may s f (fun o => c.mode ≠ .free ∧ c.owner = o) → 1 ≤ n → n ≤ 65535 →
    (exec (.cread f ctx) s = .next (s.respond f 0 (s.ctxWords n)) ∧ (s.ctxWords n).take 7 =
      [BitVec.ofNat 64 c.owner, c.fring, BitVec.ofNat 64 c.flog, c.notify.setWidth 64, c.grace.setWidth 64,
       c.kill.setWidth 64, BitVec.ofNat 64 c.ksl]) ∧
    (c.mode = .free ∨ c.mode = .teardown → ∀ grace kill lines : Word, kill.toNat < 2 ^ 32 → grace.toNat ≤ kill.toNat →
      lines.toNat ≤ 2048 → exec (.cset f ctx grace kill) s = .next (s.respond f 2 []) ∧
        exec (.climit f ctx 0#64 lines) s = .next (s.respond f 2 []) ∧ exec (.ckill f ctx) s = .next (s.respond f 2 [])) ∧
    (c.mode ≠ .free → c.mode ≠ .teardown →
      (∀ grace kill : Word, kill.toNat < 2 ^ 32 → grace.toNat ≤ kill.toNat → exec (.cset f ctx grace kill) s =
        .next ((s.setCtx n { c with grace := grace.setWidth 32, kill := kill.setWidth 32 }).respond f 0 [])) ∧
      (∀ kind lines : Word, kind.toNat ≤ 2 → lines.toNat ≤ cacheLines kind.toNat → exec (.climit f ctx kind lines) s =
        .next ((s.setCtx n { c with limits := Tab.put c.limits kind.toNat lines.toNat }).respond f 0 [])) ∧
      (∀ gh addr : Word, gh.toNat < 65536 → addr.toNat % 65536 = 0 → s.inStack addr.toNat (areaSize gh.toNat) = true →
        paDie addr.toNat = dieOfCore (gh.toNat / 16) → (s.group gh.toNat).mode ≠ .absent →
        (s.group gh.toNat).has n = false → s.blocked addr.toNat (areaSize gh.toNat) = false → c.ksl = 0 → c.destroy = false →
        (∀ e ∈ s.ctxLeaves n, leafMeets e addr.toNat (areaSize gh.toNat) = false) →
        (Stmt.may s f (fun o => (s.group gh.toNat).owner = o ∨ ((s.group gh.toNat).lent = true ∧ (s.group gh.toNat).borrower = o)) →
          exec (.carea f ctx gh addr) s = .next ((s.setCtx n { c with areas := Tab.put c.areas gh.toNat addr }).respond f 0 [])) ∧
        (f ≠ 0 → (s.group gh.toNat).owner ≠ c.owner → (s.group gh.toNat).lent = false →
          exec (.carea f ctx gh addr) s = .next (s.respond f 4 []))) ∧
      (∀ die base count : Word, die.toNat ≤ 15 → 0 < count.toNat → base.toNat + count.toNat ≤ 65536 → c.destroy = false →
        Tab.get? c.wins die.toNat = none → (∀ e ∈ s.ctxs, ∀ b k, Tab.get? e.2.wins die.toNat = some (b, k) →
          e.1 = n ∨ base.toNat + count.toNat ≤ b ∨ b + k ≤ base.toNat) →
        ∃ t : State, exec (.cwin f ctx die base count) s = .next (t.respond f 0 []) ∧
          t.ctx n = { c with wins := Tab.put c.wins die.toNat (base.toNat, count.toNat) } ∧ t.seqs = s.seqs ∧ t.mem = s.mem ∧
          ∀ i, Tab.get? (t.die die.toNat).pen i = if base.toNat ≤ i ∧ i < base.toNat + count.toNat then none
            else Tab.get? (s.die die.toNat).pen i) ∧
      (∀ gh grace : Word, gh.toNat < 65536 → grace.toNat < 2 ^ 32 → (s.group gh.toNat).mode = .running →
        n ∈ (s.group gh.toNat).bound → (s.group gh.toNat).ctx = n → (s.group gh.toNat).rung = 0 →
        Stmt.may s f (fun o => (s.group gh.toNat).owner = o ∨ ((s.group gh.toNat).lent = true ∧ (s.group gh.toNat).borrower = o)) →
        ∃ t : State, exec (.cpreempt f ctx gh grace) s = .next t ∧ t.mem = s.mem ∧ t.cores = s.cores ∧
          t.mail f = { s.mail f with pend := some (.save gh.toNat) } ∧ t.group gh.toNat = { s.group gh.toNat with
            rung := 1, grace := min grace.toNat c.grace.toNat, kill := c.kill.toNat, age := 0 } ∧
          ∀ q ∈ groupSeqs gh.toNat, t.seq q = { s.seq q with c := { (s.seq q).c with preq := true } }) ∧
      (∀ gh grace : Word, f ≠ 0 → (s.group gh.toNat).owner ≠ c.owner → (s.group gh.toNat).lent = false →
        exec (.cpreempt f ctx gh grace) s = .next (s.respond f 4 [])) ∧
      (∀ (seq pc : Word) (gh : Nat) (g : Group), seq.toNat < 16384 → pc.toNat % 16 = 0 →
        s.groupOf seq.toNat = some (gh, g) → g.ctx = n → g.mode = .running →
        ((s.seq seq.toNat).c.mode ≠ .stopped → exec (.cresume f ctx seq pc) s = .next (s.respond f 2 [])) ∧
        ((s.seq seq.toNat).c.mode = .stopped → ∃ t : State, exec (.cresume f ctx seq pc) s = .next (t.respond f 0 []) ∧
          s.sameOthers t seq.toNat ∧ (t.seq seq.toNat).c.mode = .running ∧ (t.seq seq.toNat).r.s = (s.seq seq.toNat).r.s ∧
          (pc = 0#64 → (t.seq seq.toNat).c.window = (s.seq seq.toNat).c.window ∧
            (t.seq seq.toNat).c.pc = (s.seq seq.toNat).c.pc ∧ (t.seq seq.toNat).c.loops = (s.seq seq.toNat).c.loops) ∧
          (pc ≠ 0#64 → (t.seq seq.toNat).c.window = [] ∧ (t.seq seq.toNat).c.pc = pc ∧ (t.seq seq.toNat).c.loops = []))) ∧
      (c.mode ≠ .killing → ∃ t : State, exec (.ckill f ctx) s = .next t ∧ (t.ctx n).mode = .killing ∧ (t.ctx n).images = [] ∧
        (t.mail f).pend = some (.kill n) ∧ ∀ e ∈ t.launches, e.2.ctx ≠ n) ∧
      (c.mode = .killing → ∀ list count : Word, (∀ r ∈ s.readRuns list.toNat count.toNat,
          r.1 % 65536 = 0 ∧ r.2 ≠ 0 ∧ s.inStack r.1 (65536 * r.2) = true) →
        ∃ t : State, exec (.cdestroy f ctx list count) s = .next t ∧ (t.ctx n).destroy = true ∧ (t.ctx n).mode = .killing ∧
          (t.mail f).pend = some (.teardown n) ∧ t.seqs = s.seqs ∧ t.mem = s.mem) ∧
      (c.mode = .ready → (s.dropAll n (c.openPorts ++ c.left)).2 = [] → ∀ list count : Word, (∀ r ∈ s.readRuns list.toNat count.toNat,
          r.1 % 65536 = 0 ∧ r.2 ≠ 0 ∧ s.inStack r.1 (65536 * r.2) = true) →
        ∃ t : State, exec (.cdestroy f ctx list count) s = .next (t.respond f 0 []) ∧ (t.ctx n).mode = .teardown ∧
          (∀ r ∈ s.readRuns list.toNat count.toNat, r ∈ (t.ctx n).scrubList) ∧
          (c.ksl ≠ 0 → Tab.get? t.mast.keys c.ksl = some .zeroising)))) ∧
  (∀ (s : State) (f : Nat) (slot keys : Word), Stmt.may s f (fun _ => True) → 1 ≤ slot.toNat → slot.toNat ≤ 127 →
    Tab.get? s.mast.keys slot.toNat = none → (∀ e ∈ s.ctxs, e.2.mode = .teardown → e.2.ksl ≠ slot.toNat) →
    let got := Config.unwrapKeys (s.mail f).session (leNat (s.hostRead keys.toNat 64))
    (∀ k, got = some k → exec (.ckey f slot keys) s = .next
      (({ s with mast := { s.mast with keys := Tab.put s.mast.keys slot.toNat (.loaded (k + 1)) } } : State).respond f 0 [])) ∧
    (got = none → exec (.ckey f slot keys) s = .next (s.respond f 6 [])))

/-- The state of a queue after QPAUSE (0), QRESUME (1), QRESET (2) and QDESTROY (3); none where the table of R309 shows a dash. -/
def Sys2Proof.Stmt.queueMove : Nat → QMode → Option QMode
  | 0, .active => some .paused
  | 0, .paused => some .paused
  | 1, .active => some .active
  | 1, .paused => some .active
  | 2, .halted => some .active
  | 3, .active => some .draining
  | 3, .paused => some .draining
  | 3, .halted => some .draining
  | 3, .draining => some .draining
  | _, _ => none

/-- The commands of spec/15 R330 and spec/14 R309, R310. -/
def Obligations.GroupAndQueueCommandsFollowTheirTables : Prop :=
  (∀ (s : State) (core mask owner : Word), s.mast.ready = true → core.toNat < 4096 → owner.toNat ≤ 63 →
    let gh := core.toNat * 16 + mask.toNat
    (mask.toNat < 16 → mask.toNat ∉ [1, 2, 4, 8, 3, 12, 5, 10, 15] →
      exec (.gcreate 0 core mask owner) s = .next (s.respond 0 2 [])) ∧
    (mask.toNat ∈ [1, 2, 4, 8, 3, 12, 5, 10, 15] →
      (s.quadTaken core.toNat mask.toNat = true → exec (.gcreate 0 core mask owner) s = .next (s.respond 0 2 [])) ∧
      (s.quadTaken core.toNat mask.toNat = false → (s.owner owner.toNat).used = true →
        ∃ t : State, exec (.gcreate 0 core mask owner) s = .next (t.respond 0 0 []) ∧ t.seqs = s.seqs ∧ t.mem = s.mem ∧
          (∀ h, h ≠ gh → t.group h = s.group h) ∧ (t.group gh).mode = .idle ∧ (t.group gh).owner = owner.toNat ∧
          (t.group gh).joined = true ∧ (t.group gh).lent = false ∧ (t.group gh).bound = []))) ∧
  (∀ (s : State) (f : Nat) (gh ctx borrower : Word), gh.toNat < 65536 →
    let h := gh.toNat
    let g := s.group h
    let n := ctx.toNat
    (s.mast.ready = true →
      (g.mode = .absent → exec (.gdestroy 0 gh) s = .next (s.respond 0 2 [s.groupWord h])) ∧
      (g.mode = .idle → exec (.gdestroy 0 gh) s =
        .next (((s.setGroup h { g with dpend := true, mode := .scrubbing }).workEnded s).setMail 0
          { s.mail 0 with pend := some (.destroyed h) })) ∧
      (g.mode = .running → g.rung = 0 → ∃ t : State, exec (.gdestroy 0 gh) s = .next t ∧
        t.mail 0 = { s.mail 0 with pend := some (.destroyed h) } ∧ (t.group h).dpend = true ∧ (t.group h).rung = 1 ∧ (t.group h).mode = .running ∧
        ∀ q ∈ groupSeqs h, (t.seq q).c.preq = true) ∧
      (borrower.toNat ≤ 63 → g.mode = .idle → g.lent = false → (s.owner borrower.toNat).used = true →
        borrower.toNat ≠ g.owner → exec (.lend 0 gh borrower) s =
          .next ((s.setGroup h { g with lent := true, borrower := borrower.toNat }).respond 0 0 []))) ∧
    (Stmt.may s f (fun o => (g.mode ≠ .absent ∧ (g.owner = o ∨ (g.lent = true ∧ g.borrower = o))) ∧
        (s.ctx n).mode ≠ .free ∧ (s.ctx n).owner = o) →
      (1 ≤ n → n ≤ 65535 → g.mode ≠ .absent →
        (n ∉ g.bound → (s.ctx n).mode ≠ .free → (s.ctx n).mode ≠ .teardown → g.bound.length < 16 → g.rpend = false →
          g.dpend = false → (s.ctx n).owner = (if g.lent then g.borrower else g.owner) → exec (.gbind f gh ctx) s =
            .next ((s.setGroup h { g with bound := g.bound ++ [n] }).respond f 0 [])) ∧
        (g.has n = false → exec (.gunbind f gh ctx) s =
          .next (((s.setGroup h { g with bound := g.bound.filter fun c => c != n }).workEnded s).respond f 0 [])))) ∧
    (Stmt.may s f (fun o => g.mode ≠ .absent ∧ (g.owner = o ∨ (g.lent = true ∧ g.borrower = o))) →
      (g.lent = false → exec (.recallGroup f gh) s = .next (s.respond f 2 [s.groupWord h])) ∧
      (g.lent = true → g.mode = .idle ∨ (g.mode = .loading ∧ ∀ e ∈ s.mast.mail, e.2.pend ≠ some (.save h)) → ∃ t : State, exec (.recallGroup f gh) s = .next t ∧
        (t.group h).mode = .scrubbing ∧ (t.group h).rpend = true ∧ t.seqs = s.seqs ∧ t.mem = s.mem ∧
        t.mail f = { s.mail f with pend := some (.recalled h) }) ∧
      (g.lent = true → g.mode = .running → g.rpend = true → ∃ t : State, exec (.recallGroup f gh) s = .next t ∧ t.group h = g ∧
        t.seqs = s.seqs ∧ t.mail f = { s.mail f with pend := some (.recalled h) }) ∧
      (g.lent = true → g.mode = .running → g.rung = 0 → g.rpend = false → ∃ t : State, exec (.recallGroup f gh) s = .next t ∧
        t.group h = { g with rung := 1, rpend := true, grace := min (s.ctx g.ctx).grace.toNat 560000,
                             kill := min (s.ctx g.ctx).kill.toNat 1260000, age := 0 } ∧
        (∀ q ∈ groupSeqs h, (t.seq q).c.preq = true) ∧ t.mail f = { s.mail f with pend := some (.recalled h) }) ∧
      (∃ w rest, exec (.gread f gh) s = .next (s.respond f 0 (w :: rest)) ∧ rest.length = (g.bound.length + 3) / 4 ∧
        (∀ k, k < g.bound.length → g.bound.getD k 0 < 65536 →
          ((rest.getD (k / 4) 0#64).toNat / 2 ^ (16 * (k % 4)) % 65536 = g.bound.getD k 0)) ∧
        (g.mode ≠ .absent → g.owner < 64 → g.borrower < 64 → g.ctx < 65536 →
          (w.extractLsb' 42 6).toNat = g.owner ∧ w.getLsbD 25 = g.dpend ∧ w.getLsbD 24 = g.rpend ∧ w.getLsbD 23 = g.lent ∧
          w.getLsbD 22 = g.joined ∧ (w.extractLsb' 18 4).toNat = h % 16 ∧ (w.extractLsb' 6 12).toNat = h / 16 ∧
          (g.mode = .running → (w.extractLsb' 26 16).toNat = g.ctx ∧ w.extractLsb' 0 3 = 3#3) ∧
          (g.mode = .idle → w.extractLsb' 0 3 = 1#3))))) ∧
  (∀ (s : State) (f : Nat) (n ctx prio ring lsize cpool : Word), n.toNat < 256 → prio.toNat ≤ 3 →
    let q := s.queue n.toNat
    let c := s.ctx ctx.toNat
    (Stmt.may s f (fun o => c.mode ≠ .free ∧ c.owner = o) → 1 ≤ ctx.toNat → ctx.toNat ≤ 65535 → ring.toNat < 2 ^ 56 →
      ring.toNat % 64 = 0 → 4 ≤ lsize.toNat → lsize.toNat ≤ 16 → cpool.toNat ≤ 1024 → q.mode = .free → c.mode ≠ .free →
      c.mode ≠ .teardown → (s.owner c.owner).used = true → s.pools + cpool.toNat ≤ 16384 →
      exec (.qcreate f n ctx prio ring lsize cpool) s = .next ((s.setQueue n.toNat
        { mode := .active, ctx := ctx.toNat, prio := prio.toNat, ring := ring, lsize := lsize.toNat, cpool := cpool.toNat,
          head := 0#32, tail := 0#32, rcode := 0#8, eidx := 0#32, children := [] }).respond f 0 [])) ∧
    (Stmt.may s f (fun o => q.mode ≠ .free ∧ (s.ctx q.ctx).owner = o) →
      (q.mode ≠ .free → exec (.qset f n prio) s =
        .next ((s.setQueue n.toNat { q with prioNext := some prio.toNat }).respond f 0 [])) ∧
      (∃ w, exec (.qread f n) s = .next (s.respond f 0 [BitVec.ofNat 64 q.ctx, BitVec.ofNat 64 (q.prioNext.getD q.prio), q.ring,
          BitVec.ofNat 64 q.lsize, BitVec.ofNat 64 q.cpool, q.head.setWidth 64, q.tail.setWidth 64, w]) ∧
        w.extractLsb' 32 32 = q.eidx ∧ w.extractLsb' 8 8 = q.rcode ∧
        w.extractLsb' 0 3 = (match q.mode with | .free => 0#3 | .active => 1#3 | .paused => 2#3 | .halted => 3#3 | .draining => 4#3)) ∧
      ∀ (i : Instr) (k : Nat), (i, k) ∈ [(Instr.qpause f n, 0), (Instr.qresume f n, 1), (Instr.qreset f n, 2), (Instr.qdestroy f n, 3)] →
        (Stmt.queueMove k q.mode = none → exec i s = .next (s.respond f 2 [])) ∧
        ∀ m, Stmt.queueMove k q.mode = some m → ∃ t : State, exec i s = .next (t.respond f 0 []) ∧ t.seqs = s.seqs ∧
          t.mem = s.mem ∧ t.launches = s.launches ∧ t.groups = s.groups ∧ (∀ j, j ≠ n.toNat → t.queue j = s.queue j) ∧
          t.queue n.toNat = if m = .draining ∧ s.launchesOf n.toNat = [] then {}
            else { q with mode := m, rcode := if k = 2 then 0#8 else q.rcode, eidx := if k = 2 then 0#32 else q.eidx,
                          children := if k = 3 then [] else q.children }))

/-- Nothing keeps Masthead from writing a table entry in a line, and the line holds no error. -/
structure Sys2Proof.Stmt.writable (s : State) (l : Nat) : Prop where
  gate : s.gate l true = none
  near : s.lost l = false
  sound : s.homeBad l = false

/-- The commands of spec/18 R394 and spec/20 R412. -/
def Obligations.PageAndLinkCommandsChangeTheirTables : Prop :=
  (∀ (s : State) (ctx root1 root2 quota : Word), let n := ctx.toNat
    let c := s.ctx n
    s.mast.ready = true → 1 ≤ n → n ≤ 65535 → c.mode ≠ .free → c.mode ≠ .teardown →
    (root1.toNat < 2 ^ 52 → root1.toNat % 2048 = 0 → root2.toNat < 2 ^ 52 → root2.toNat % 128 = 0 →
      (s.loadedAny n = true → exec (.vmroot 0 ctx root1 root2) s = .next (s.respond 0 2 [])) ∧
      (s.loadedAny n = false →
        (∀ e ∈ s.leaves root2.toNat 0 0 5, eNc e.2.2.1 = false →
          s.ownArea n (eAddr e.2.2.1) e.2.1 = false ∧ s.meetsOverflow (eAddr e.2.2.1) e.2.1 = false) →
        exec (.vmroot 0 ctx root1 root2) s = .next ((s.setCtx n { c with root1 := root1, root2 := root2 }).respond 0 0 [])) ∧
      ((∃ e ∈ s.leaves root2.toNat 0 0 5, eNc e.2.2.1 = false ∧ s.meetsOverflow (eAddr e.2.2.1) e.2.1 = true) →
        exec (.vmroot 0 ctx root1 root2) s = .next (s.respond 0 2 []))) ∧
    (quota.toNat ≤ 2048 → exec (.segquota 0 ctx quota) s = .next ((s.setCtx n { c with quota := quota.toNat }).respond 0 0 []))) ∧
  (∀ (s : State) (ctx ipa pa size r w x nc ksl : Word) (lv at_ : Nat), let n := ctx.toNat
    let c := s.ctx n
    s.mast.ready = true → 1 ≤ n → n ≤ 65535 → c.mode ≠ .free → c.mode ≠ .teardown →
    (size.toNat, lv) ∈ [(2 ^ 30, 2), (2 ^ 21, 3), (2 ^ 16, 4)] → ipa.toNat % size.toNat = 0 → pa.toNat % size.toNat = 0 →
    ipa.toNat + size.toNat ≤ 2 ^ 52 → pa.toNat + size.toNat ≤ 2 ^ 52 → r.toNat ≤ 1 → w.toNat ≤ 1 → x.toNat ≤ 1 → nc.toNat ≤ 1 →
    ksl = 0#64 ∨ (ksl.toNat = c.ksl ∧ c.ksl ≤ 127) → s.placeIn c.root2.toNat ipa.toNat 0 lv 5 = some at_ →
    s.gate (lineOf at_) true = none → s.lost (lineOf at_) = false → s.homeBad (lineOf at_) = false →
    ¬((s.engWord at_).getLsbD 0 = true ∧ eT (s.engWord at_) = true) →
    nc = 1#64 ∨ (s.blocked pa.toNat size.toNat = false ∧ s.meetsOverflow pa.toNat size.toNat = false ∧ paFast pa.toNat = false ∧
      s.mapsOwnArea at_ pa.toNat size.toNat = false) →
    ∃ t : State, exec (.s2map 0 ctx ipa pa size r w x nc ksl) s = .next (t.respond 0 0 []) ∧ t.seqs = s.seqs ∧ t.cores = s.cores ∧
      (∀ a, a < at_ ∨ at_ + 8 ≤ a → t.engByte a = s.engByte a) ∧ (at_ % 8 = 0 → let e := t.engWord at_
        e.extractLsb' 0 5 = x.setWidth 1 ++ w.setWidth 1 ++ r.setWidth 1 ++ 0#1 ++ 1#1 ∧ e.extractLsb' 5 11 = 0#11 ∧
        e.toNat % 2 ^ 52 / 65536 * 65536 = pa.toNat ∧ (e.extractLsb' 52 7).toNat = ksl.toNat ∧ e.getLsbD 59 = nc.getLsbD 0 ∧
        e.extractLsb' 60 4 = 0#4)) ∧
  (∀ (s s1 : State) (ctx ipa size : Word), let n := ctx.toNat
    s.mast.ready = true → 1 ≤ n → n ≤ 65535 → ipa.toNat % 65536 = 0 → size.toNat % 65536 = 0 → size ≠ 0#64 →
    ipa.toNat + size.toNat ≤ 2 ^ 52 → (s.ctx n).mode ≠ .free → (s.ctx n).mode ≠ .teardown →
    (∃ ls0, s.wholeLeaves n ipa.toNat size.toNat = some ls0 ∧
      s.quiesce (fun c => c == n || (s.sharers (ls0.map fun e => e.2.2.2)).contains c) true = .ok s1 ()) →
    (∀ ls, s1.wholeLeaves n ipa.toNat size.toNat = some ls → (∀ e ∈ ls, Stmt.writable s1 (lineOf e.2.2.2)) → ∃ t : State, exec (.s2unmap 0 ctx ipa size) s =
      .next (t.respond 0 0 []) ∧ t.seqs = s1.seqs ∧ t.cores = s1.cores ∧ (∀ e ∈ ls, e.2.2.2 % 8 = 0 → t.engWord e.2.2.2 = 0#64) ∧
      (∀ a, (∀ e ∈ ls, a < e.2.2.2 ∨ e.2.2.2 + 8 ≤ a) → t.engByte a = s1.engByte a) ∧
      ∀ d e, e ∈ (t.die d).tlb ↔ e ∈ (s1.die d).tlb ∧ ¬(e.ctx = n ∧ overlap e.ipa e.size ipa.toNat size.toNat = true) ∧
        e.e2at ∉ ls.map fun x => x.2.2.2) ∧
    (∀ i z v at_, s1.wholeLeaves n ipa.toNat size.toNat = some [(i, z, v, at_)] → at_ % 8 = 0 → Stmt.writable s1 (lineOf at_) → ∃ t : State,
      exec (.s2clean 0 ctx ipa size) s = .next (t.respond 0 0 []) ∧ t.engWord at_ = s1.engWord at_ &&& 0xFFFFFFFFFFFFFFDF#64 ∧
      ∀ d e, e ∈ (t.die d).tlb ↔ e ∈ (s1.die d).tlb ∧ ¬(e.ctx = n ∧ overlap e.ipa e.size ipa.toNat size.toNat = true) ∧
        e.e2at ≠ at_)) ∧
  (∀ (s s1 : State) (ctx stage base len : Word), s.mast.ready = true → ctx.toNat ≤ 65535 → stage = 1#64 ∨ stage = 2#64 →
    s.quiesce (fun c => ctx.toNat == 0 || c == ctx.toNat) true = .ok s1 () →
    ∃ t : State, exec (.tlbinv 0 ctx stage base len) s = .next (t.respond 0 0 []) ∧ t.seqs = s1.seqs ∧ t.mem = s1.mem ∧
      t.cores = s1.cores ∧ ∀ d e, e ∈ (t.die d).tlb ↔ e ∈ (s1.die d).tlb ∧ ¬((ctx = 0#64 ∨ e.ctx = ctx.toNat) ∧
        overlap (if stage = 1#64 then e.va else e.ipa) e.size base.toNat len.toNat = true)) ∧
  (∀ (s : State) (stack size : Word), let d := stack.toNat
    let k := size.toNat / 2 ^ 28
    s.mast.ready = true → d ≤ 15 → size.toNat % 2 ^ 28 = 0 → k ≤ 16 → (s.die d).fr ≤ k →
    (∀ e ∈ s.groups, dieOfCore (e.1 / 16) = d → e.2.mode = .absent ∨ e.2.mode = .idle ∨ e.2.mode = .scrubbing) →
    (∀ e ∈ (s.die d).promo, ∀ r ∈ e.2, r.fast < 128 * k → r.pin = false) →
    s.rangeGate (s.fastPa d ((s.die d).fr * 2 ^ 28)) ((k - (s.die d).fr) * 2 ^ 28) = none →
    (∀ bank, ∀ r ∈ s.promo d bank,
      overlap (s.rowPa d bank r) 2048 (s.fastPa d ((s.die d).fr * 2 ^ 28)) ((k - (s.die d).fr) * 2 ^ 28) = false) →
    ∃ t : State, exec (.frset 0 stack size) s = .next (t.respond 0 0 []) ∧ (t.die d).fr = k ∧ t.seqs = s.seqs ∧
      (∀ bank r, r ∈ t.promo d bank ↔ r ∈ s.promo d bank ∧ 128 * k ≤ r.fast) ∧
      ∀ a, let base := s.link.dev.toNat * 2 ^ 49 + d * 2 ^ 45 + 2 ^ 44
        Mem.get t.mem.dram a = if base + (s.die d).fr * 2 ^ 28 ≤ a ∧ a < base + k * 2 ^ 28 then 0#8 else Mem.get s.mem.dram a) ∧
  (∀ (s : State) (die vd cls mask rp wp ap : Word), s.mast.ready = true → die.toNat ≤ 15 → vd.toNat ≤ 63 → cls.toNat ≤ 5 →
    mask.toNat < 65536 → rp.toNat ≤ 2 → wp.toNat ≤ 2 → ap.toNat ≤ 2 → ∃ t : State,
      exec (.mscset 0 die vd cls mask rp wp ap) s = .next (t.respond 0 0 []) ∧ t.seqs = s.seqs ∧ t.mem = s.mem ∧
      t.pol die.toNat vd.toNat cls.toNat =
        { mask := mask.setWidth 16, rp := rp.setWidth 2, wp := wp.setWidth 2, ap := ap.setWidth 2 } ∧
      ∀ d v c, c ≤ 5 → d ≠ die.toNat ∨ v ≠ vd.toNat ∨ c ≠ cls.toNat → t.pol d v c = s.pol d v c) ∧
  (∀ (s s1 : State) (leaf pa e : Word) (ctx n : Nat), s.mast.ready = true → leaf.toNat < 2 ^ 52 → leaf.toNat % 8 = 0 →
    pa.toNat < 2 ^ 52 → pa.toNat % 65536 = 0 → s.leafAt leaf.toNat = some (ctx, n, e) → eNc e = false →
    let old := eAddr e
    pa.toNat % n = 0 → n % 64 = 0 → old % 64 = 0 → s.pinnedIn old n = false → s.blocked pa.toNat n = false →
    s.meetsOverflow pa.toNat n = false → paFast pa.toNat = false → pa.toNat = old ∨ overlap old n pa.toNat n = false →
    overlap leaf.toNat 8 pa.toNat n = false → overlap leaf.toNat 8 old n = false →
    (∀ c ∈ s.sharers [leaf.toNat], s.ownArea c pa.toNat n = false) →
    s.quiesce (fun c => (s.sharers [leaf.toNat]).contains c) false = .ok s1 () →
    Stmt.writable s1 (lineOf leaf.toNat) →
    (∀ l ∈ s1.recallGates old pa.toNat n, s1.gate l true = none ∧ s1.lost l = false) →
    (∀ l ∈ s1.heldLines old n ++ s1.heldLines pa.toNat n, s1.sideBad l = false) →
    Mem.wf s1.mem.dram = true →
    ∃ t : State, exec (.hmove 0 leaf pa) s = .next (t.respond 0 0 []) ∧ t.seqs = s1.seqs ∧
      (∀ b, b < n → t.engByte (pa.toNat + b) = s1.engByte (old + b)) ∧ eAddr (t.engWord leaf.toNat) = pa.toNat ∧
      (∀ d x, x ∈ (t.die d).tlb ↔ x ∈ (s1.die d).tlb ∧ x.e2at ≠ leaf.toNat) ∧
      ∀ q ∈ s1.mcasOn old n, Instr.movedResponse q ∈ t.agenda) ∧
  (∀ (s : State) (dec hbase size pa vd tdi ctx win kind target switch grp k span dest handle : Word), s.mast.ready = true →
    (dec.toNat ≤ 3 → hbase.toNat % 64 = 0 → size.toNat % 64 = 0 → pa.toNat % 64 = 0 → hbase.toNat + size.toNat ≤ 2 ^ 64 →
      pa.toNat + size.toNat ≤ 2 ^ 52 → vd.toNat ≤ 63 → 1 ≤ tdi.toNat → tdi.toNat ≤ 63 → Tab.get? s.link.hdm dec.toNat = none →
      paDev pa.toNat = s.link.dev.toNat →
      (size ≠ 0#64 → paDev (pa.toNat + (size.toNat / 2 ^ (Config.hdmWays dec.toNat % 4) - 1)) = s.link.dev.toNat) → exec (.hdmset 0 dec hbase size pa vd tdi) s = .next (({ s with link := { s.link with
        hdm := Tab.put s.link.hdm dec.toNat { hbase := hbase, size := size, pa := pa, vd := vd.toNat, tdi := some tdi.toNat } } }
        : State).respond 0 0 [])) ∧
    (1 ≤ tdi.toNat → tdi.toNat ≤ 63 → 1 ≤ ctx.toNat → ctx.toNat ≤ 65535 → (s.tdi tdi.toNat).mode = .unlocked →
      (s.ctx ctx.toNat).mode ≠ .free → (s.ctx ctx.toNat).mode ≠ .teardown → (s.ctx ctx.toNat).ksl ≠ 0 →
      exec (.tdibind 0 tdi ctx) s =
        .next ((s.setTdi tdi.toNat { s.tdi tdi.toNat with ctx := some ctx.toNat }).respond 0 0 [])) ∧
    (win.toNat ≤ 15 → kind.toNat ≤ 2 → size.toNat % 65536 = 0 → size.toNat ≤ 2 ^ 48 → vd.toNat ≤ 63 →
      (∀ c ∈ s.ctxs, c.2.mode ≠ .free → ∀ e ∈ s.ctxLeaves c.1, eNc e.2.2.1 = true → eAddr e.2.2.1 / 2 ^ 48 ≠ win.toNat) →
      exec (.poolset 0 win kind target size vd) s = .next (({ s with link := { s.link with
        windows := Tab.put s.link.windows win.toNat { kind := kind.toNat, target := target, size := size, vd := vd.toNat } } }
        : State).respond 0 0 [])) ∧
    (switch.toNat < 65536 → grp.toNat ≤ 255 → 2 ≤ k.toNat → k.toNat ≤ 64 → span.toNat % 64 = 0 → span ≠ 0#64 →
      span.toNat ≤ 2 ^ 26 → dest.toNat % 64 = 0 → handle.toNat < 2 ^ 32 →
      Tab.get? s.link.red (switch.toNat * 256 + grp.toNat) = none → exec (.swred 0 switch grp k span dest handle) s =
        .next ((s.setRed (switch.toNat * 256 + grp.toNat)
          { n := k.toNat, span := span, dest := dest, handle := handle.setWidth 32, lines := [], written := [] }).respond 0 0 []))) ∧
  (∀ (s : State) (dev table : Word), s.mast.ready = true → dev.toNat ≤ 7 →
    (∀ e ∈ s.groups, e.2.mode = .absent ∨ e.2.mode = .idle ∨ e.2.mode = .scrubbing) →
    dev.toNat = s.link.dev.toNat ∨ (∀ l ∈ s.unwritten, s.gate l true = none) → ∃ t : State,
      exec (.lnkdom 0 dev table) s = .next (t.respond 0 0 []) ∧ t.link.dev = dev.setWidth 3 ∧ t.seqs = s.seqs ∧
      (∀ k (h : Hdm), Tab.get? s.link.hdm k = some h → paDev h.pa.toNat = s.link.dev.toNat →
        ∃ h', Tab.get? t.link.hdm k = some h' ∧ paDev h'.pa.toNat = dev.toNat ∧ paOff h'.pa.toNat = paOff h.pa.toNat) ∧
      t.link.domain = some Config.domainId.toNat ∧ t.link.unreachable = [] ∧ t.link.routes = (List.range 8).map fun n =>
        BitVec.ofNat 16 (leNat (s.hostRead (table.toNat + 2 * n) 2))) ∧
  (∀ (s : State) (dev : Word), s.mast.ready = true → dev.toNat ≤ 7 → dev.toNat ≠ s.link.dev.toNat →
    ∃ t : State, exec (.domfault 0 dev) s = .next (t.respond 0 0 []) ∧ dev.toNat ∈ t.link.unreachable ∧
      (∀ e ∈ s.ctxs, e.2.mode ≠ .free → (∃ x ∈ s.ctxLeaves e.1, eNc x.2.2.1 = false ∧ paDev (eAddr x.2.2.1) = dev.toNat) →
        (s.ctx e.1).mode = .ready ∨ (s.ctx e.1).mode = .active → (t.ctx e.1).mode = .killing))

/-! ### The machine as a whole (spec/02 R18 to R22, R29, spec/22 R416, spec/01 R13, spec/04 R97) -/

/-- Rows of the opcode table that are events: they have neither a slot's encoding nor a mailbox's. -/
def Sys2Proof.Stmt.isEvent : Instr → Bool
  | .groupCheck .. | .bundleIssue .. | .fmtSetEffect .. | .divComplete .. | .loadDataReturn .. | .storePerform ..
  | .pageWalkComplete .. | .cacheFill .. | .streamFill .. | .streamDrain .. | .matrixCompletion .. | .shadowEntryApply ..
  | .bufferStateChange .. | .bufferZeroingDone .. | .specRegionEnd .. | .fenceComplete .. | .haltStop ..
  | .faultRecordRetry .. | .scopedAtomicExecute .. | .scopedCopyWriteback .. | .halyardAtomicExecute ..
  | .atomicResultReturn .. | .pennantAdd .. | .waiterWake .. | .waiterPoll .. | .mcasLockGrant .. | .mcasWindowExpire ..
  | .mcasBackoffExpire .. | .mcasResultReturn .. | .patchEngineComplete .. | .copyStart .. | .copyChunk .. | .copyComplete ..
  | .remoteCopyPennantAdd .. | .queueTailWrite .. | .launchDispatch .. | .nodeFire .. | .launchEnd .. | .schedDecision ..
  | .preemptRequest .. | .saveStart .. | .graceTimerExpire .. | .killTimerExpire .. | .killComplete ..
  | .contextSaveComplete .. | .contextLoadComplete .. | .groupScrubComplete .. | .contextScrubComplete .. | .homeRds ..
  | .homeRdx .. | .homeHal .. | .homeWb .. | .engineHomeRead .. | .engineHomeWrite .. | .snoopInvalidate ..
  | .movedResponse .. | .bringupStage .. | .clockReplan .. | .registerWrite .. | .hostMemRd .. | .hostMemWr ..
  | .hostMemWrPtl .. | .hostBisnpinvResponse .. | .hostCacheSnoop .. | .tdispLockInterface .. | .tdispStartInterface ..
  | .tdispStopInterface .. | .tdiLockedRegisterWrite .. | .portTrained .. | .portPeerSilent .. | .flitCrcReplay ..
  | .deviceUnreachable .. | .swredContribution .. | .warmReset .. | .coldReset .. | .hostLinkTraining ..
  | .spdmSessionMessage .. | .pennantValueReturn .. | .segmentUnitsComplete .. | .conditionWordWrite .. => true
  | _ => false

/-- With every operand at every value that its encoding admits (spec/02 R36 to R47, spec/22 R416, R419). -/
def Obligations.InstructionsSurviveTheirEncoding : Prop :=
  ∀ i : Instr, i.wf = true →
    (Stmt.isEvent i = false → (encode i).isSome = true ∨ (encodeCmd i).isSome = true) ∧
    (∀ sl b, encode i = some (sl, b) → decodeSlot b sl = .ok i) ∧
    ∀ f op ops, encodeCmd i = some (f, op, ops) → decodeCmd f op ops = some i ∧ cmdArity op = some ops.length

/-- Words of the spec's own examples (spec/02 to spec/10). -/
def Obligations.SpecWordsDecode : Prop :=
  decodeSlot (0#96 ++ 0x54008208#32) .a = .ok (.addAi 0#4 4#6 4#6 8#7) ∧
  decodeSlot (0#96 ++ 0x4480E022#32) .a = .ok (.loopSp 0#4 7#6 2#9 2#4) ∧
  decodeSlot (0#96 ++ 0x44028020#32) .a = .ok (.loop 0#4 20#6 2#9) ∧
  decodeSlot (0#64 ++ 0x34051BE8#32 ++ 0xC0001000#32) .b = .ok (.addBi 0#7 5#6 6#6 0x3E8#16) ∧
  decodeSlot (0#64 ++ 0x900C2800#32 ++ 0#32) .b = .ok (.stSp 0#7 12#6 10#6 0#11) ∧
  decodeSlot (0#64 ++ 0xC00528B0#32 ++ 0#32) .b = .ok (.bfDecl 0#7 5#6 10#6 11#6 0#1 0#2) ∧
  decodeSlot (0#64 ++ 0x98071882#32 ++ 0#32) .b = .ok (.tsSt 0#7 7#6 6#6 2#11 1#2) ∧
  decodeSlot (0#32 ++ 0xA0108C00#32 ++ 0#64) .c = .ok (.stb 0#7 2#3 4#6 1#2 1#1) ∧
  decodeSlot (0x0800A423#32 ++ 0#96) .d = .ok (.mm 0#7 5#9 (.s 8#6) 1#2 0#1 1#1 1#1) ∧
  decodeSlot (0x20011051#32 ++ 0#96) .d = .ok (.paOpen 0#7 1#2 4#6 5#6 .add) ∧
  decodeSlot (0x24010000#32 ++ 0#96) .d = .ok (.paClose 0#7 1#2)

/-- Step, the group check and the fetch (spec/02 R24, R29, spec/07 R162). The order in which a step serves agenda, latch and cursor is the
model's choice (log 1). -/
def Obligations.StepRunsTheDecodedInstruction : Prop :=
  (∀ s : State, s.owed = [] → s.elapse.agenda = s.agenda ∧ s.elapse.latch = s.latch ∧ s.elapse.cur = s.cur) ∧
  (∀ (s : State) (n : Nat) (e : Win), let u := s.elapse
    let q := u.cur.seq
    s.cur.seq < 16384 → u.agenda = [] → u.latch = some (q, n) → (u.seq q).c.mode = .running → (u.seq q).regionReady = false →
    (u.seq q).shadowDue = false → (u.seq q).nextOf n = some e → u.mayIssue q e n = true →
    (∀ i, (u.seq q).whole e = false → decodeSlot e.bits (slotOf n) = .ok i →
      step s = exec i { u with latch := none, cur := { seq := q, slot := n, bn := e.bn, addr := e.addr, skip := u.cur.skip } }) ∧
    ((u.seq q).whole e = true → step s = ({ u with latch := none } : State).issueWhole q e)) ∧
  (∀ (s : State) (q : Nat) (e : Win) (i : Nat → Instr), (∀ n, n < 4 → decodeSlot e.bits (slotOf n) = .ok (i n)) →
    s.firstStall q e = none → ∃ t : Nat → State, t 0 = s ∧ s.issueWhole q e = .next (t 4) ∧ ∀ n, n < 4 →
      (((t n).seq q).due e n = false → t (n + 1) = t n) ∧
      (((t n).seq q).due e n = true → exec (i n) ({ t n with
        latch := none, cur := { seq := q, slot := n, bn := e.bn, addr := e.addr, skip := [] } } : State) = .next (t (n + 1)))) ∧
  (∀ (s : State) (i : Instr) (rest : List Instr), s.cur.seq < 16384 → s.elapse.agenda = i :: rest →
    step s = exec i { s.elapse with agenda := rest }) ∧
  (∀ (s s1 : State) (q n fuel : Nat) (loops : List Loop) (pc : Word) (earlier : List Uses) (done bs : List (Word × BitVec 128)),
    s.checkGroup q loops pc n earlier done (fuel + 1) = .ok s1 (.good bs) → ∃ u b, s.fetch q pc = .ok u b ∧
      bs[done.length]? = some (pc, b)) ∧
  (∀ (s : State) (q : Nat) (pc : Word) (tr : Tr), let l := lineOf tr.pa
    inAperture pc = false → s.needsWalk (dieOf q) (s.ctxOf q) pc false = false → s.translate (dieOf q) (s.ctxOf q) pc { cls := pcFetch, fetch := true } = (s, .ok tr) →
    eNc tr.e2 = false → s.keyOf l = (s.kid (eKsl tr.e2)).getD 0 → s.gate l false = none →
    s.homeBad l = false → tr.pa % 16 = 0 →
    Tab.get? (s.core (coreOf q)).icache (l * 65536 + s.ctxOf q) = none → s.l2Full (clusterOf q) l = true ∨
      (s.l2 (clusterOf q) l = none ∧ ((s.cluster (clusterOf q)).l2.filter fun e => e.1 % 8192 == l % 8192).length < 16) →
    ∃ t b, s.fetch q pc = .ok t b ∧ t.seqs = s.seqs ∧ ∀ k, k < 16 →
      b.extractLsb' (8 * k) 8 = (s.l2Seen (clusterOf q) l).extractLsb' (8 * (tr.pa % 64 + k)) 8)

/-- No instruction faults or is refused; the cursor is the model's own (log 1). -/
def Obligations.NothingStopsTheMachine : Prop :=
  (∀ (i : Instr) (s : State), ∃ t, exec i s = .next t) ∧
  (∀ s : State, s.cur.seq < 16384 → ∃ t, step s = .next t) ∧
  ∀ s : State, 16384 ≤ s.cur.seq → step s = .fault .noSuchSequencer

/-- spec/02 R22, and R45 for a nop, whose guard has no effect. A gr.done that waits was found on in the state before
its group (spec/03 R75). -/
def Obligations.GuardedOffInstructionsHaveNoEffect : Prop :=
  (∀ (i : Instr) (s : State), (encode i).isSome = true → i.isNop = true ∨ s.guardOn (guardOf i) = false →
    (∀ g, i = .grDone g → ∀ l ∈ s.me.c.late, ¬(l.bn = s.cur.bn ∧ l.slot = s.cur.slot)) →
    ∃ t, exec i s = .next t ∧ s.onlyRegs t [] [] [] []) ∧
  ∀ s : State, s.guardOn 0#7 = true

/-- Equal memories are equal data; the form is the model's own (log 4). -/
def Obligations.MemoriesStayCanonical : Prop :=
  (∀ (i : Instr) (s t : State), s.memOk = true → exec i s = .next t → t.memOk = true) ∧
  ∀ s t : State, s.memOk = true → step s = .next t → t.memOk = true

/-- The reset values of the spec; zeros elsewhere are the model's choice (logs 3, 4). -/
def Obligations.ResetLeavesTheStatedValues : Prop :=
  let s := State.reset
  s.memOk = true ∧ s.mast.stage = 0#4 ∧ s.mast.berr = 0#8 ∧ s.mast.ready = false ∧
  (∀ q, (s.seq q).c.mode = .idle ∧ (s.seq q).r.getP 0#7 = 0xFFFFFFFF#32 ∧
    (∀ n, (s.seq q).c.fmt.bitsAt n = 0#14 ∧ (s.seq q).c.fmt.flagsAt n = 0#4) ∧
    (∀ n, (s.seq q).r.getC n = { ctl := 0#5, estride := 4#24, count0 := 1#24, count1 := 1#24, count2 := 1#24, count3 := 1#24,
                                 stride0 := 0#40, stride1 := 0#40, stride2 := 0#40, stride3 := 0#40 } ∧
      (s.seq q).r.getCsh n = (s.seq q).r.getC n) ∧
    (∀ n, (s.seq q).r.getK n = { ctl := 0#2, rows := 32#6, row0 := 0#5, col0 := 0#1, rstride := 0#40, scale := 0x3F800000#32,
                                 clip := 0x7F800000#32 } ∧ (s.seq q).r.getKsh n = (s.seq q).r.getK n) ∧
    (∀ n, (s.seq q).r.getS n = 0#64) ∧ (∀ n, n ≠ 0#7 → (s.seq q).r.getP n = 0#32) ∧ ∀ n, (s.seq q).r.getV n = 0#1024) ∧
  (∀ h, (s.group h).mode = .absent) ∧ (∀ c, (s.ctx c).mode = .free) ∧ (∀ n, (s.queue n).mode = .free) ∧
  (∀ d, (s.die d).fr = 0 ∧ (s.die d).promo = []) ∧ ∀ a, Mem.get s.mem.dram a = 0#8
end

