-- ==== Sys2Proof/Laws/Exec.lean ====
section
/-! SUPPORT. exec of each constructor is its meaning. -/

namespace Sys2Proof.Machine

theorem exec_groupCheck (q : Nat) (m1 : State) : exec (.groupCheck q) m1 = execGroupCheck q m1 :=
    rfl
theorem exec_bundleIssue (q : Nat) (slot : Nat) (m1 : State) : exec (.bundleIssue q slot) m1 = execBundleIssue q slot m1 :=
    rfl
theorem exec_fmtSetEffect (q : Nat) (m1 : State) : exec (.fmtSetEffect q) m1 = execFmtSetEffect q m1 :=
    rfl
theorem exec_divComplete (q : Nat) (m1 : State) : exec (.divComplete q) m1 = execDivComplete q m1 :=
    rfl
theorem exec_loadDataReturn (q : Nat) (k : Nat) (m1 : State) : exec (.loadDataReturn q k) m1 = execLoadDataReturn q k m1 :=
    rfl
theorem exec_storePerform (q : Nat) (slot : Nat) (m1 : State) : exec (.storePerform q slot) m1 = execStorePerform q slot m1 :=
    rfl
theorem exec_pageWalkComplete (die : Nat) (ctx : Nat) (va : Word) (m1 : State) : exec (.pageWalkComplete die ctx va) m1 = execPageWalkComplete die ctx va m1 :=
    rfl
theorem exec_cacheFill (kind : CacheKind) (inst : Nat) (ctx : Nat) (line : Nat) (m1 : State) : exec (.cacheFill kind inst ctx line) m1 = execCacheFill kind inst ctx line m1 :=
    rfl
theorem exec_streamFill (q : Nat) (n : Nat) (m1 : State) : exec (.streamFill q n) m1 = execStreamFill q n m1 :=
    rfl
theorem exec_streamDrain (q : Nat) (n : Nat) (m1 : State) : exec (.streamDrain q n) m1 = execStreamDrain q n m1 :=
    rfl
theorem exec_matrixCompletion (q : Nat) (m1 : State) : exec (.matrixCompletion q) m1 = execMatrixCompletion q m1 :=
    rfl
theorem exec_shadowEntryApply (q : Nat) (m1 : State) : exec (.shadowEntryApply q) m1 = execShadowEntryApply q m1 :=
    rfl
theorem exec_bufferStateChange (q : Nat) (m1 : State) : exec (.bufferStateChange q) m1 = execBufferStateChange q m1 :=
    rfl
theorem exec_bufferZeroingDone (core : Nat) (d : Nat) (m1 : State) : exec (.bufferZeroingDone core d) m1 = execBufferZeroingDone core d m1 :=
    rfl
theorem exec_specRegionEnd (q : Nat) (m1 : State) : exec (.specRegionEnd q) m1 = execSpecRegionEnd q m1 :=
    rfl
theorem exec_fenceComplete (q : Nat) (m1 : State) : exec (.fenceComplete q) m1 = execFenceComplete q m1 :=
    rfl
theorem exec_haltStop (q : Nat) (m1 : State) : exec (.haltStop q) m1 = execHaltStop q m1 :=
    rfl
theorem exec_faultRecordRetry (q : Nat) (m1 : State) : exec (.faultRecordRetry q) m1 = execFaultRecordRetry q m1 :=
    rfl
theorem exec_scopedAtomicExecute (q : Nat) (m1 : State) : exec (.scopedAtomicExecute q) m1 = execScopedAtomicExecute q m1 :=
    rfl
theorem exec_scopedCopyWriteback (cl : Nat) (line : Nat) (m1 : State) : exec (.scopedCopyWriteback cl line) m1 = execScopedCopyWriteback cl line m1 :=
    rfl
theorem exec_halyardAtomicExecute (k : Nat) (m1 : State) : exec (.halyardAtomicExecute k) m1 = execHalyardAtomicExecute k m1 :=
    rfl
theorem exec_atomicResultReturn (q : Nat) (k : Nat) (m1 : State) : exec (.atomicResultReturn q k) m1 = execAtomicResultReturn q k m1 :=
    rfl
theorem exec_pennantAdd (k : Nat) (m1 : State) : exec (.pennantAdd k) m1 = execPennantAdd k m1 :=
    rfl
theorem exec_waiterWake (q : Nat) (m1 : State) : exec (.waiterWake q) m1 = execWaiterWake q m1 :=
    rfl
theorem exec_waiterPoll (q : Nat) (m1 : State) : exec (.waiterPoll q) m1 = execWaiterPoll q m1 :=
    rfl
theorem exec_mcasLockGrant (q : Nat) (m1 : State) : exec (.mcasLockGrant q) m1 = execMcasLockGrant q m1 :=
    rfl
theorem exec_mcasWindowExpire (q : Nat) (m1 : State) : exec (.mcasWindowExpire q) m1 = execMcasWindowExpire q m1 :=
    rfl
theorem exec_mcasBackoffExpire (q : Nat) (m1 : State) : exec (.mcasBackoffExpire q) m1 = execMcasBackoffExpire q m1 :=
    rfl
theorem exec_mcasResultReturn (q : Nat) (m1 : State) : exec (.mcasResultReturn q) m1 = execMcasResultReturn q m1 :=
    rfl
theorem exec_patchEngineComplete (q : Nat) (m1 : State) : exec (.patchEngineComplete q) m1 = execPatchEngineComplete q m1 :=
    rfl
theorem exec_copyStart (q : Nat) (m1 : State) : exec (.copyStart q) m1 = execCopyStart q m1 :=
    rfl
theorem exec_copyChunk (ch : Nat) (m1 : State) : exec (.copyChunk ch) m1 = execCopyChunk ch m1 :=
    rfl
theorem exec_copyComplete (ch : Nat) (m1 : State) : exec (.copyComplete ch) m1 = execCopyComplete ch m1 :=
    rfl
theorem exec_remoteCopyPennantAdd (h : BitVec 32) (v : Word) (ctx : Nat) (m1 : State) : exec (.remoteCopyPennantAdd h v ctx) m1 = execRemoteCopyPennantAdd h v ctx m1 :=
    rfl
theorem exec_queueTailWrite (n : Nat) (tail : BitVec 32) (m1 : State) : exec (.queueTailWrite n tail) m1 = execQueueTailWrite n tail m1 :=
    rfl
theorem exec_launchDispatch (n : Nat) (m1 : State) : exec (.launchDispatch n) m1 = execLaunchDispatch n m1 :=
    rfl
theorem exec_nodeFire (l : Nat) (n : Nat) (m1 : State) : exec (.nodeFire l n) m1 = execNodeFire l n m1 :=
    rfl
theorem exec_launchEnd (l : Nat) (m1 : State) : exec (.launchEnd l) m1 = execLaunchEnd l m1 :=
    rfl
theorem exec_schedDecision (gh : Nat) (m1 : State) : exec (.schedDecision gh) m1 = execSchedDecision gh m1 :=
    rfl
theorem exec_preemptRequest (gh : Nat) (m1 : State) : exec (.preemptRequest gh) m1 = execPreemptRequest gh m1 :=
    rfl
theorem exec_saveStart (gh : Nat) (m1 : State) : exec (.saveStart gh) m1 = execSaveStart gh m1 :=
    rfl
theorem exec_graceTimerExpire (gh : Nat) (m1 : State) : exec (.graceTimerExpire gh) m1 = execGraceTimerExpire gh m1 :=
    rfl
theorem exec_killTimerExpire (gh : Nat) (m1 : State) : exec (.killTimerExpire gh) m1 = execKillTimerExpire gh m1 :=
    rfl
theorem exec_killComplete (ctx : Nat) (m1 : State) : exec (.killComplete ctx) m1 = execKillComplete ctx m1 :=
    rfl
theorem exec_contextSaveComplete (gh : Nat) (m1 : State) : exec (.contextSaveComplete gh) m1 = execContextSaveComplete gh m1 :=
    rfl
theorem exec_contextLoadComplete (gh : Nat) (m1 : State) : exec (.contextLoadComplete gh) m1 = execContextLoadComplete gh m1 :=
    rfl
theorem exec_groupScrubComplete (gh : Nat) (m1 : State) : exec (.groupScrubComplete gh) m1 = execGroupScrubComplete gh m1 :=
    rfl
theorem exec_contextScrubComplete (ctx : Nat) (m1 : State) : exec (.contextScrubComplete ctx) m1 = execContextScrubComplete ctx m1 :=
    rfl
theorem exec_homeRds (line : Nat) (cl : Nat) (m1 : State) : exec (.homeRds line cl) m1 = execHomeRds line cl m1 :=
    rfl
theorem exec_homeRdx (line : Nat) (cl : Nat) (m1 : State) : exec (.homeRdx line cl) m1 = execHomeRdx line cl m1 :=
    rfl
theorem exec_homeHal (line : Nat) (m1 : State) : exec (.homeHal line) m1 = execHomeHal line m1 :=
    rfl
theorem exec_homeWb (line : Nat) (cl : Nat) (m1 : State) : exec (.homeWb line cl) m1 = execHomeWb line cl m1 :=
    rfl
theorem exec_engineHomeRead (line : Nat) (m1 : State) : exec (.engineHomeRead line) m1 = execEngineHomeRead line m1 :=
    rfl
theorem exec_engineHomeWrite (line : Nat) (data : BitVec 512) (mask : BitVec 64) (m1 : State) : exec (.engineHomeWrite line data mask) m1 = execEngineHomeWrite line data mask m1 :=
    rfl
theorem exec_snoopInvalidate (cl : Nat) (line : Nat) (m1 : State) : exec (.snoopInvalidate cl line) m1 = execSnoopInvalidate cl line m1 :=
    rfl
theorem exec_movedResponse (q : Nat) (m1 : State) : exec (.movedResponse q) m1 = execMovedResponse q m1 :=
    rfl
theorem exec_pennantValueReturn (q : Nat) (m1 : State) : exec (.pennantValueReturn q) m1 = execPennantValueReturn q m1 :=
    rfl
theorem exec_segmentUnitsComplete (q : Nat) (m1 : State) : exec (.segmentUnitsComplete q) m1 = execSegmentUnitsComplete q m1 :=
    rfl
theorem exec_conditionWordWrite (k : Nat) (m1 : State) : exec (.conditionWordWrite k) m1 = execConditionWordWrite k m1 :=
    rfl
theorem exec_nopA (g : BitVec 4) (m1 : State) : exec (.nopA g) m1 = execNopA g m1 :=
    rfl
theorem exec_br (g : BitVec 4) (off : BitVec 19) (m1 : State) : exec (.br g off) m1 = execBr g off m1 :=
    rfl
theorem exec_jmp (g : BitVec 4) (d a : BitVec 6) (m1 : State) : exec (.jmp g d a) m1 = execJmp g d a m1 :=
    rfl
theorem exec_call (g : BitVec 4) (off : BitVec 19) (m1 : State) : exec (.call g off) m1 = execCall g off m1 :=
    rfl
theorem exec_ret (g : BitVec 4) (a : BitVec 6) (m1 : State) : exec (.ret g a) m1 = execRet g a m1 :=
    rfl
theorem exec_trap (g : BitVec 4) (code : BitVec 19) (m1 : State) : exec (.trap g code) m1 = execTrap g code m1 :=
    rfl
theorem exec_halt (g : BitVec 4) (code : BitVec 19) (m1 : State) : exec (.halt g code) m1 = execHalt g code m1 :=
    rfl
theorem exec_lbrk (g : BitVec 4) (k : BitVec 3) (off : BitVec 16) (m1 : State) : exec (.lbrk g k off) m1 = execLbrk g k off m1 :=
    rfl
theorem exec_loop (g : BitVec 4) (a : BitVec 6) (len : BitVec 9) (m1 : State) : exec (.loop g a len) m1 = execLoop g a len m1 :=
    rfl
theorem exec_loopSp (g : BitVec 4) (a : BitVec 6) (len : BitVec 9) (aux : BitVec 4) (m1 : State) : exec (.loopSp g a len aux) m1 = execLoopSp g a len aux m1 :=
    rfl
theorem exec_specBegin (g : BitVec 4) (m1 : State) : exec (.specBegin g) m1 = execSpecBegin g m1 :=
    rfl
theorem exec_specCommit (g : BitVec 4) (m1 : State) : exec (.specCommit g) m1 = execSpecCommit g m1 :=
    rfl
theorem exec_specAbort (g : BitVec 4) (m1 : State) : exec (.specAbort g) m1 = execSpecAbort g m1 :=
    rfl
theorem exec_fmtSet (g : BitVec 4) (hsz : BitVec 2) (ofmt wfmt afmt : BitVec 4) (m1 : State) : exec (.fmtSet g hsz ofmt wfmt afmt) m1 = execFmtSet g hsz ofmt wfmt afmt m1 :=
    rfl
theorem exec_shf (g : BitVec 4) (code : BitVec 3) (field : BitVec 4) (a : BitVec 6) (m1 : State) : exec (.shf g code field a) m1 = execShf g code field a m1 :=
    rfl
theorem exec_addAr (g : BitVec 4) (d a b : BitVec 6) (m1 : State) : exec (.addAr g d a b) m1 = execAddAr g d a b m1 :=
    rfl
theorem exec_subAr (g : BitVec 4) (d a b : BitVec 6) (m1 : State) : exec (.subAr g d a b) m1 = execSubAr g d a b m1 :=
    rfl
theorem exec_mul (g : BitVec 4) (d a b : BitVec 6) (m1 : State) : exec (.mul g d a b) m1 = execMul g d a b m1 :=
    rfl
theorem exec_mulh (g : BitVec 4) (d a b : BitVec 6) (m1 : State) : exec (.mulh g d a b) m1 = execMulh g d a b m1 :=
    rfl
theorem exec_mulhu (g : BitVec 4) (d a b : BitVec 6) (m1 : State) : exec (.mulhu g d a b) m1 = execMulhu g d a b m1 :=
    rfl
theorem exec_div (g : BitVec 4) (d a b : BitVec 6) (m1 : State) : exec (.div g d a b) m1 = execDiv g d a b m1 :=
    rfl
theorem exec_divu (g : BitVec 4) (d a b : BitVec 6) (m1 : State) : exec (.divu g d a b) m1 = execDivu g d a b m1 :=
    rfl
theorem exec_clz (g : BitVec 4) (d a : BitVec 6) (m1 : State) : exec (.clz g d a) m1 = execClz g d a m1 :=
    rfl
theorem exec_andAr (g : BitVec 4) (d a b : BitVec 6) (m1 : State) : exec (.andAr g d a b) m1 = execAndAr g d a b m1 :=
    rfl
theorem exec_orAr (g : BitVec 4) (d a b : BitVec 6) (m1 : State) : exec (.orAr g d a b) m1 = execOrAr g d a b m1 :=
    rfl
theorem exec_xorAr (g : BitVec 4) (d a b : BitVec 6) (m1 : State) : exec (.xorAr g d a b) m1 = execXorAr g d a b m1 :=
    rfl
theorem exec_shlAr (g : BitVec 4) (d a b : BitVec 6) (m1 : State) : exec (.shlAr g d a b) m1 = execShlAr g d a b m1 :=
    rfl
theorem exec_shrAr (g : BitVec 4) (d a b : BitVec 6) (m1 : State) : exec (.shrAr g d a b) m1 = execShrAr g d a b m1 :=
    rfl
theorem exec_sraAr (g : BitVec 4) (d a b : BitVec 6) (m1 : State) : exec (.sraAr g d a b) m1 = execSraAr g d a b m1 :=
    rfl
theorem exec_popc (g : BitVec 4) (d a : BitVec 6) (m1 : State) : exec (.popc g d a) m1 = execPopc g d a m1 :=
    rfl
theorem exec_min (g : BitVec 4) (d a b : BitVec 6) (m1 : State) : exec (.min g d a b) m1 = execMin g d a b m1 :=
    rfl
theorem exec_max (g : BitVec 4) (d a b : BitVec 6) (m1 : State) : exec (.max g d a b) m1 = execMax g d a b m1 :=
    rfl
theorem exec_minu (g : BitVec 4) (d a b : BitVec 6) (m1 : State) : exec (.minu g d a b) m1 = execMinu g d a b m1 :=
    rfl
theorem exec_maxu (g : BitVec 4) (d a b : BitVec 6) (m1 : State) : exec (.maxu g d a b) m1 = execMaxu g d a b m1 :=
    rfl
theorem exec_addAi (g : BitVec 4) (d a : BitVec 6) (imm : BitVec 7) (m1 : State) : exec (.addAi g d a imm) m1 = execAddAi g d a imm m1 :=
    rfl
theorem exec_andAi (g : BitVec 4) (d a : BitVec 6) (imm : BitVec 7) (m1 : State) : exec (.andAi g d a imm) m1 = execAndAi g d a imm m1 :=
    rfl
theorem exec_orAi (g : BitVec 4) (d a : BitVec 6) (imm : BitVec 7) (m1 : State) : exec (.orAi g d a imm) m1 = execOrAi g d a imm m1 :=
    rfl
theorem exec_xorAi (g : BitVec 4) (d a : BitVec 6) (imm : BitVec 7) (m1 : State) : exec (.xorAi g d a imm) m1 = execXorAi g d a imm m1 :=
    rfl
theorem exec_shlAi (g : BitVec 4) (d a : BitVec 6) (imm : BitVec 7) (m1 : State) : exec (.shlAi g d a imm) m1 = execShlAi g d a imm m1 :=
    rfl
theorem exec_shrAi (g : BitVec 4) (d a : BitVec 6) (imm : BitVec 7) (m1 : State) : exec (.shrAi g d a imm) m1 = execShrAi g d a imm m1 :=
    rfl
theorem exec_sraAi (g : BitVec 4) (d a : BitVec 6) (imm : BitVec 7) (m1 : State) : exec (.sraAi g d a imm) m1 = execSraAi g d a imm m1 :=
    rfl
theorem exec_cmpEqAr (g : BitVec 4) (n a b : BitVec 6) (m1 : State) : exec (.cmpEqAr g n a b) m1 = execCmpEqAr g n a b m1 :=
    rfl
theorem exec_cmpNeAr (g : BitVec 4) (n a b : BitVec 6) (m1 : State) : exec (.cmpNeAr g n a b) m1 = execCmpNeAr g n a b m1 :=
    rfl
theorem exec_cmpLtAr (g : BitVec 4) (n a b : BitVec 6) (m1 : State) : exec (.cmpLtAr g n a b) m1 = execCmpLtAr g n a b m1 :=
    rfl
theorem exec_cmpLeAr (g : BitVec 4) (n a b : BitVec 6) (m1 : State) : exec (.cmpLeAr g n a b) m1 = execCmpLeAr g n a b m1 :=
    rfl
theorem exec_cmpLtuAr (g : BitVec 4) (n a b : BitVec 6) (m1 : State) : exec (.cmpLtuAr g n a b) m1 = execCmpLtuAr g n a b m1 :=
    rfl
theorem exec_cmpLeuAr (g : BitVec 4) (n a b : BitVec 6) (m1 : State) : exec (.cmpLeuAr g n a b) m1 = execCmpLeuAr g n a b m1 :=
    rfl
theorem exec_sysRd (g : BitVec 4) (d : BitVec 6) (num : BitVec 13) (m1 : State) : exec (.sysRd g d num) m1 = execSysRd g d num m1 :=
    rfl
theorem exec_sysWr (g : BitVec 4) (d : BitVec 6) (num : BitVec 13) (m1 : State) : exec (.sysWr g d num) m1 = execSysWr g d num m1 :=
    rfl
theorem exec_moviAw (g : BitVec 4) (d : BitVec 6) (imm : BitVec 13) (m1 : State) : exec (.moviAw g d imm) m1 = execMoviAw g d imm m1 :=
    rfl
theorem exec_nopB (g : BitVec 7) (m1 : State) : exec (.nopB g) m1 = execNopB g m1 :=
    rfl
theorem exec_addB3 (g : BitVec 7) (x y z : BitVec 6) (m1 : State) : exec (.addB3 g x y z) m1 = execAddB3 g x y z m1 :=
    rfl
theorem exec_subB3 (g : BitVec 7) (x y z : BitVec 6) (m1 : State) : exec (.subB3 g x y z) m1 = execSubB3 g x y z m1 :=
    rfl
theorem exec_andB3 (g : BitVec 7) (x y z : BitVec 6) (m1 : State) : exec (.andB3 g x y z) m1 = execAndB3 g x y z m1 :=
    rfl
theorem exec_orB3 (g : BitVec 7) (x y z : BitVec 6) (m1 : State) : exec (.orB3 g x y z) m1 = execOrB3 g x y z m1 :=
    rfl
theorem exec_xorB3 (g : BitVec 7) (x y z : BitVec 6) (m1 : State) : exec (.xorB3 g x y z) m1 = execXorB3 g x y z m1 :=
    rfl
theorem exec_shlB3 (g : BitVec 7) (x y z : BitVec 6) (m1 : State) : exec (.shlB3 g x y z) m1 = execShlB3 g x y z m1 :=
    rfl
theorem exec_shrB3 (g : BitVec 7) (x y z : BitVec 6) (m1 : State) : exec (.shrB3 g x y z) m1 = execShrB3 g x y z m1 :=
    rfl
theorem exec_sraB3 (g : BitVec 7) (x y z : BitVec 6) (m1 : State) : exec (.sraB3 g x y z) m1 = execSraB3 g x y z m1 :=
    rfl
theorem exec_lea (g : BitVec 7) (x y z : BitVec 6) (sh : BitVec 4) (m1 : State) : exec (.lea g x y z sh) m1 = execLea g x y z sh m1 :=
    rfl
theorem exec_sel (g : BitVec 7) (x : BitVec 6) (n : BitVec 7) (y z : BitVec 6) (m1 : State) : exec (.sel g x n y z) m1 = execSel g x n y z m1 :=
    rfl
theorem exec_extB (g : BitVec 7) (x y pos wm1 : BitVec 6) (m1 : State) : exec (.extB g x y pos wm1) m1 = execExtB g x y pos wm1 m1 :=
    rfl
theorem exec_insB (g : BitVec 7) (x y pos wm1 : BitVec 6) (m1 : State) : exec (.insB g x y pos wm1) m1 = execInsB g x y pos wm1 m1 :=
    rfl
theorem exec_addBi (g : BitVec 7) (x y : BitVec 6) (imm : BitVec 16) (m1 : State) : exec (.addBi g x y imm) m1 = execAddBi g x y imm m1 :=
    rfl
theorem exec_moviBw (g : BitVec 7) (x : BitVec 6) (imm : BitVec 22) (m1 : State) : exec (.moviBw g x imm) m1 = execMoviBw g x imm m1 :=
    rfl
theorem exec_movhi (g : BitVec 7) (x : BitVec 6) (imm : BitVec 16) (m1 : State) : exec (.movhi g x imm) m1 = execMovhi g x imm m1 :=
    rfl
theorem exec_cmpB3 (g : BitVec 7) (n y z : BitVec 6) (cond : Cond) (m1 : State) : exec (.cmpB3 g n y z cond) m1 = execCmpB3 g n y z cond m1 :=
    rfl
theorem exec_cmpBc (g : BitVec 7) (n y : BitVec 6) (cond : Cond) (imm : BitVec 13) (m1 : State) : exec (.cmpBc g n y cond imm) m1 = execCmpBc g n y cond imm m1 :=
    rfl
theorem exec_fcmp (g : BitVec 7) (n y z : BitVec 6) (cond : FCond) (m1 : State) : exec (.fcmp g n y z cond) m1 = execFcmp g n y z cond m1 :=
    rfl
theorem exec_pand (g : BitVec 7) (x y z : BitVec 7) (inv : BitVec 1) (m1 : State) : exec (.pand g x y z inv) m1 = execPand g x y z inv m1 :=
    rfl
theorem exec_por (g : BitVec 7) (x y z : BitVec 7) (inv : BitVec 1) (m1 : State) : exec (.por g x y z inv) m1 = execPor g x y z inv m1 :=
    rfl
theorem exec_pxor (g : BitVec 7) (x y z : BitVec 7) (inv : BitVec 1) (m1 : State) : exec (.pxor g x y z inv) m1 = execPxor g x y z inv m1 :=
    rfl
theorem exec_pnot (g : BitVec 7) (x y : BitVec 7) (m1 : State) : exec (.pnot g x y) m1 = execPnot g x y m1 :=
    rfl
theorem exec_pmov (g : BitVec 7) (x y : BitVec 7) (m1 : State) : exec (.pmov g x y) m1 = execPmov g x y m1 :=
    rfl
theorem exec_pset (g : BitVec 7) (x lo hi : BitVec 7) (inv : BitVec 1) (m1 : State) : exec (.pset g x lo hi inv) m1 = execPset g x lo hi inv m1 :=
    rfl
theorem exec_ldB (g : BitVec 7) (x base : BitVec 6) (off : BitVec 11) (acq : Option Scope) (m1 : State) : exec (.ldB g x base off acq) m1 = execLdB g x base off acq m1 :=
    rfl
theorem exec_ldH (g : BitVec 7) (x base : BitVec 6) (off : BitVec 11) (acq : Option Scope) (m1 : State) : exec (.ldH g x base off acq) m1 = execLdH g x base off acq m1 :=
    rfl
theorem exec_ldW (g : BitVec 7) (x base : BitVec 6) (off : BitVec 11) (acq : Option Scope) (m1 : State) : exec (.ldW g x base off acq) m1 = execLdW g x base off acq m1 :=
    rfl
theorem exec_ldD (g : BitVec 7) (x base : BitVec 6) (off : BitVec 11) (acq : Option Scope) (m1 : State) : exec (.ldD g x base off acq) m1 = execLdD g x base off acq m1 :=
    rfl
theorem exec_stB (g : BitVec 7) (x base : BitVec 6) (off : BitVec 11) (rel : Option Scope) (m1 : State) : exec (.stB g x base off rel) m1 = execStB g x base off rel m1 :=
    rfl
theorem exec_stH (g : BitVec 7) (x base : BitVec 6) (off : BitVec 11) (rel : Option Scope) (m1 : State) : exec (.stH g x base off rel) m1 = execStH g x base off rel m1 :=
    rfl
theorem exec_stW (g : BitVec 7) (x base : BitVec 6) (off : BitVec 11) (rel : Option Scope) (m1 : State) : exec (.stW g x base off rel) m1 = execStW g x base off rel m1 :=
    rfl
theorem exec_stD (g : BitVec 7) (x base : BitVec 6) (off : BitVec 11) (rel : Option Scope) (m1 : State) : exec (.stD g x base off rel) m1 = execStD g x base off rel m1 :=
    rfl
theorem exec_pf (g : BitVec 7) (lvl : CacheKind) (base : BitVec 6) (off : BitVec 11) (m1 : State) : exec (.pf g lvl base off) m1 = execPf g lvl base off m1 :=
    rfl
theorem exec_lqPop (g : BitVec 7) (x : BitVec 6) (m1 : State) : exec (.lqPop g x) m1 = execLqPop g x m1 :=
    rfl
theorem exec_ldSp (g : BitVec 7) (x base : BitVec 6) (off : BitVec 11) (m1 : State) : exec (.ldSp g x base off) m1 = execLdSp g x base off m1 :=
    rfl
theorem exec_stSp (g : BitVec 7) (x base : BitVec 6) (off : BitVec 11) (m1 : State) : exec (.stSp g x base off) m1 = execStSp g x base off m1 :=
    rfl
theorem exec_tsLd (g : BitVec 7) (x base : BitVec 6) (off : BitVec 11) (cut : BitVec 1) (port : BitVec 2) (m1 : State) : exec (.tsLd g x base off cut port) m1 = execTsLd g x base off cut port m1 :=
    rfl
theorem exec_tsSt (g : BitVec 7) (x base : BitVec 6) (off : BitVec 11) (port : BitVec 2) (m1 : State) : exec (.tsSt g x base off port) m1 = execTsSt g x base off port m1 :=
    rfl
theorem exec_atR (g : BitVec 7) (x base : BitVec 6) (scope : Scope) (op : AtOp) (m1 : State) : exec (.atR g x base scope op) m1 = execAtR g x base scope op m1 :=
    rfl
theorem exec_atCas (g : BitVec 7) (x base y : BitVec 6) (scope : Scope) (m1 : State) : exec (.atCas g x base y scope) m1 = execAtCas g x base y scope m1 :=
    rfl
theorem exec_red (g : BitVec 7) (x base : BitVec 6) (scope : Scope) (op : AtOp) (m1 : State) : exec (.red g x base scope op) m1 = execRed g x base scope op m1 :=
    rfl
theorem exec_mcas (g : BitVec 7) (y z : BitVec 6) (m1 : State) : exec (.mcas g y z) m1 = execMcas g y z m1 :=
    rfl
theorem exec_fence (g : BitVec 7) (scope : Scope) (m1 : State) : exec (.fence g scope) m1 = execFence g scope m1 :=
    rfl
theorem exec_xfence (g : BitVec 7) (a b : PClass) (m1 : State) : exec (.xfence g a b) m1 = execXfence g a b m1 :=
    rfl
theorem exec_bfDecl (g : BitVec 7) (x y z : BitVec 6) (spec : BitVec 1) (own : BitVec 2) (m1 : State) : exec (.bfDecl g x y z spec own) m1 = execBfDecl g x y z spec own m1 :=
    rfl
theorem exec_bfFill (g : BitVec 7) (x : BitVec 6) (m1 : State) : exec (.bfFill g x) m1 = execBfFill g x m1 :=
    rfl
theorem exec_bfDone (g : BitVec 7) (x : BitVec 6) (m1 : State) : exec (.bfDone g x) m1 = execBfDone g x m1 :=
    rfl
theorem exec_bfDrain (g : BitVec 7) (x : BitVec 6) (m1 : State) : exec (.bfDrain g x) m1 = execBfDrain g x m1 :=
    rfl
theorem exec_bfFree (g : BitVec 7) (x : BitVec 6) (m1 : State) : exec (.bfFree g x) m1 = execBfFree g x m1 :=
    rfl
theorem exec_bfState (g : BitVec 7) (x y : BitVec 6) (m1 : State) : exec (.bfState g x y) m1 = execBfState g x y m1 :=
    rfl
theorem exec_pnAdd (g : BitVec 7) (clr : BitVec 1) (rel : Option Scope) (y z : BitVec 6) (m1 : State) : exec (.pnAdd g clr rel y z) m1 = execPnAdd g clr rel y z m1 :=
    rfl
theorem exec_pnWait (g : BitVec 7) (acq : Option Scope) (y z : BitVec 6) (n : BitVec 7) (m1 : State) : exec (.pnWait g acq y z n) m1 = execPnWait g acq y z n m1 :=
    rfl
theorem exec_pnTest (g : BitVec 7) (pair y z : BitVec 6) (n : BitVec 7) (m1 : State) : exec (.pnTest g pair y z n) m1 = execPnTest g pair y z n m1 :=
    rfl
theorem exec_pnRead (g : BitVec 7) (x y : BitVec 6) (st : BitVec 1) (m1 : State) : exec (.pnRead g x y st) m1 = execPnRead g x y st m1 :=
    rfl
theorem exec_rbAwait (g : BitVec 7) (x y z : BitVec 6) (n : BitVec 7) (m1 : State) : exec (.rbAwait g x y z n) m1 = execRbAwait g x y z n m1 :=
    rfl
theorem exec_rbRelease (g : BitVec 7) (x y z : BitVec 6) (m1 : State) : exec (.rbRelease g x y z) m1 = execRbRelease g x y z m1 :=
    rfl
theorem exec_nopC (g : BitVec 7) (m1 : State) : exec (.nopC g) m1 = execNopC g m1 :=
    rfl
theorem exec_vld (g : BitVec 7) (v : BitVec 5) (base : BitVec 6) (c : BitVec 2) (sw : BitVec 1) (lp : BitVec 7) (off : BitVec 7) (m1 : State) : exec (.vld g v base c sw lp off) m1 = execVld g v base c sw lp off m1 :=
    rfl
theorem exec_vst (g : BitVec 7) (v : BitVec 5) (base : BitVec 6) (c : BitVec 2) (sw : BitVec 1) (lp : BitVec 7) (off : BitVec 7) (m1 : State) : exec (.vst g v base c sw lp off) m1 = execVst g v base c sw lp off m1 :=
    rfl
theorem exec_vaddC3 (g : BitVec 7) (ty : VTy) (vd va vb : VOp) (lp : BitVec 7) (m1 : State) : exec (.vaddC3 g ty vd va vb lp) m1 = execVaddC3 g ty vd va vb lp m1 :=
    rfl
theorem exec_vsubC3 (g : BitVec 7) (ty : VTy) (vd va vb : VOp) (lp : BitVec 7) (m1 : State) : exec (.vsubC3 g ty vd va vb lp) m1 = execVsubC3 g ty vd va vb lp m1 :=
    rfl
theorem exec_vmulC3 (g : BitVec 7) (ty : VTy) (vd va vb : VOp) (lp : BitVec 7) (m1 : State) : exec (.vmulC3 g ty vd va vb lp) m1 = execVmulC3 g ty vd va vb lp m1 :=
    rfl
theorem exec_vfmaC3 (g : BitVec 7) (ty : VTy) (vd va vb : VOp) (lp : BitVec 7) (m1 : State) : exec (.vfmaC3 g ty vd va vb lp) m1 = execVfmaC3 g ty vd va vb lp m1 :=
    rfl
theorem exec_vminC3 (g : BitVec 7) (ty : VTy) (vd va vb : VOp) (lp : BitVec 7) (m1 : State) : exec (.vminC3 g ty vd va vb lp) m1 = execVminC3 g ty vd va vb lp m1 :=
    rfl
theorem exec_vmaxC3 (g : BitVec 7) (ty : VTy) (vd va vb : VOp) (lp : BitVec 7) (m1 : State) : exec (.vmaxC3 g ty vd va vb lp) m1 = execVmaxC3 g ty vd va vb lp m1 :=
    rfl
theorem exec_vand (g : BitVec 7) (vd va vb : VOp) (lp : BitVec 7) (m1 : State) : exec (.vand g vd va vb lp) m1 = execVand g vd va vb lp m1 :=
    rfl
theorem exec_vor (g : BitVec 7) (vd va vb : VOp) (lp : BitVec 7) (m1 : State) : exec (.vor g vd va vb lp) m1 = execVor g vd va vb lp m1 :=
    rfl
theorem exec_vxor (g : BitVec 7) (vd va vb : VOp) (lp : BitVec 7) (m1 : State) : exec (.vxor g vd va vb lp) m1 = execVxor g vd va vb lp m1 :=
    rfl
theorem exec_vshlC3 (g : BitVec 7) (ty : VTy) (vd va vb : VOp) (lp : BitVec 7) (m1 : State) : exec (.vshlC3 g ty vd va vb lp) m1 = execVshlC3 g ty vd va vb lp m1 :=
    rfl
theorem exec_vshrC3 (g : BitVec 7) (ty : VTy) (vd va vb : VOp) (lp : BitVec 7) (m1 : State) : exec (.vshrC3 g ty vd va vb lp) m1 = execVshrC3 g ty vd va vb lp m1 :=
    rfl
theorem exec_vsel (g : BitVec 7) (vd va vb : VOp) (lp : BitVec 7) (m1 : State) : exec (.vsel g vd va vb lp) m1 = execVsel g vd va vb lp m1 :=
    rfl
theorem exec_vcmp (g : BitVec 7) (pair : BitVec 6) (va vb : VOp) (cond : BitVec 3) (fp : Bool) (m1 : State) : exec (.vcmp g pair va vb cond fp) m1 = execVcmp g pair va vb cond fp m1 :=
    rfl
theorem exec_vaddCs (g : BitVec 7) (ty : VTy2) (vd va : VOp) (s : BitVec 6) (lp : BitVec 7) (m1 : State) : exec (.vaddCs g ty vd va s lp) m1 = execVaddCs g ty vd va s lp m1 :=
    rfl
theorem exec_vsubCs (g : BitVec 7) (ty : VTy2) (vd va : VOp) (s : BitVec 6) (lp : BitVec 7) (m1 : State) : exec (.vsubCs g ty vd va s lp) m1 = execVsubCs g ty vd va s lp m1 :=
    rfl
theorem exec_vmulCs (g : BitVec 7) (ty : VTy2) (vd va : VOp) (s : BitVec 6) (lp : BitVec 7) (m1 : State) : exec (.vmulCs g ty vd va s lp) m1 = execVmulCs g ty vd va s lp m1 :=
    rfl
theorem exec_vfmaCs (g : BitVec 7) (ty : VTy2) (vd va : VOp) (s : BitVec 6) (lp : BitVec 7) (m1 : State) : exec (.vfmaCs g ty vd va s lp) m1 = execVfmaCs g ty vd va s lp m1 :=
    rfl
theorem exec_vminCs (g : BitVec 7) (ty : VTy2) (vd va : VOp) (s : BitVec 6) (lp : BitVec 7) (m1 : State) : exec (.vminCs g ty vd va s lp) m1 = execVminCs g ty vd va s lp m1 :=
    rfl
theorem exec_vmaxCs (g : BitVec 7) (ty : VTy2) (vd va : VOp) (s : BitVec 6) (lp : BitVec 7) (m1 : State) : exec (.vmaxCs g ty vd va s lp) m1 = execVmaxCs g ty vd va s lp m1 :=
    rfl
theorem exec_vshlCs (g : BitVec 7) (ty : VTy2) (vd va : VOp) (s : BitVec 6) (lp : BitVec 7) (m1 : State) : exec (.vshlCs g ty vd va s lp) m1 = execVshlCs g ty vd va s lp m1 :=
    rfl
theorem exec_vshrCs (g : BitVec 7) (ty : VTy2) (vd va : VOp) (s : BitVec 6) (lp : BitVec 7) (m1 : State) : exec (.vshrCs g ty vd va s lp) m1 = execVshrCs g ty vd va s lp m1 :=
    rfl
theorem exec_vcvt (g : BitVec 7) (vd va : VOp) (src tgt : Fmt) (rnd : Rnd) (had : Had) (m1 : State) : exec (.vcvt g vd va src tgt rnd had) m1 = execVcvt g vd va src tgt rnd had m1 :=
    rfl
theorem exec_vhad (g : BitVec 7) (fp : Bool) (vd va : VOp) (h16 : Bool) (lp : BitVec 7) (m1 : State) : exec (.vhad g fp vd va h16 lp) m1 = execVhad g fp vd va h16 lp m1 :=
    rfl
theorem exec_vred (g : BitVec 7) (fp : Bool) (op : RedOp) (vd va : VOp) (lp : BitVec 7) (m1 : State) : exec (.vred g fp op vd va lp) m1 = execVred g fp op vd va lp m1 :=
    rfl
theorem exec_vperm (g : BitVec 7) (vd va vb : VOp) (lp : BitVec 7) (m1 : State) : exec (.vperm g vd va vb lp) m1 = execVperm g vd va vb lp m1 :=
    rfl
theorem exec_vbcast (g : BitVec 7) (ty : VTy2) (vd : VOp) (s : BitVec 6) (lp : BitVec 7) (m1 : State) : exec (.vbcast g ty vd s lp) m1 = execVbcast g ty vd s lp m1 :=
    rfl
theorem exec_vrcp (g : BitVec 7) (vd va : VOp) (lp : BitVec 7) (m1 : State) : exec (.vrcp g vd va lp) m1 = execVrcp g vd va lp m1 :=
    rfl
theorem exec_vrsqrt (g : BitVec 7) (vd va : VOp) (lp : BitVec 7) (m1 : State) : exec (.vrsqrt g vd va lp) m1 = execVrsqrt g vd va lp m1 :=
    rfl
theorem exec_vexp2 (g : BitVec 7) (vd va : VOp) (lp : BitVec 7) (m1 : State) : exec (.vexp2 g vd va lp) m1 = execVexp2 g vd va lp m1 :=
    rfl
theorem exec_vlog2 (g : BitVec 7) (vd va : VOp) (lp : BitVec 7) (m1 : State) : exec (.vlog2 g vd va lp) m1 = execVlog2 g vd va lp m1 :=
    rfl
theorem exec_stb (g : BitVec 7) (n : BitVec 3) (base : BitVec 6) (c : BitVec 2) (sw : BitVec 1) (m1 : State) : exec (.stb g n base c sw) m1 = execStb g n base c sw m1 :=
    rfl
theorem exec_stu (g : BitVec 7) (n : BitVec 3) (m1 : State) : exec (.stu g n) m1 = execStu g n m1 :=
    rfl
theorem exec_nopD (g : BitVec 7) (m1 : State) : exec (.nopD g) m1 = execNopD g m1 :=
    rfl
theorem exec_mmLdw (g : BitVec 7) (x : MOp) (west : Bool) (k : BitVec 2) (sw : BitVec 1) (m1 : State) : exec (.mmLdw g x west k sw) m1 = execMmLdw g x west k sw m1 :=
    rfl
theorem exec_mm (g : BitVec 7) (tile : BitVec 9) (x : MOp) (k : BitVec 2) (sw : BitVec 1) (z k16 : BitVec 1) (m1 : State) : exec (.mm g tile x k sw z k16) m1 = execMm g tile x k sw z k16 m1 :=
    rfl
theorem exec_mmChain (g : BitVec 7) (td ta : BitVec 9) (k : BitVec 2) (sw : BitVec 1) (k16 : BitVec 1) (m1 : State) : exec (.mmChain g td ta k sw k16) m1 = execMmChain g td ta k sw k16 m1 :=
    rfl
theorem exec_mmZero (g : BitVec 7) (tile : BitVec 9) (i : BitVec 1) (m1 : State) : exec (.mmZero g tile i) m1 = execMmZero g tile i m1 :=
    rfl
theorem exec_mmWb (g : BitVec 7) (tile : BitVec 9) (x : MOp) (k : BitVec 2) (sw : BitVec 1) (clr : BitVec 1) (m1 : State) : exec (.mmWb g tile x k sw clr) m1 = execMmWb g tile x k sw clr m1 :=
    rfl
theorem exec_mmRd (g : BitVec 7) (tile : BitVec 9) (x : MOp) (k : BitVec 2) (sw : BitVec 1) (m1 : State) : exec (.mmRd g tile x k sw) m1 = execMmRd g tile x k sw m1 :=
    rfl
theorem exec_mmRdSt (g : BitVec 7) (tile : BitVec 9) (x : BitVec 6) (clr : BitVec 1) (m1 : State) : exec (.mmRdSt g tile x clr) m1 = execMmRdSt g tile x clr m1 :=
    rfl
theorem exec_mmFuse (g : BitVec 7) (join : BitVec 1) (m1 : State) : exec (.mmFuse g join) m1 = execMmFuse g join m1 :=
    rfl
theorem exec_paOpen (g : BitVec 7) (port : BitVec 2) (y z : BitVec 6) (kind : PaKind) (m1 : State) : exec (.paOpen g port y z kind) m1 = execPaOpen g port y z kind m1 :=
    rfl
theorem exec_paClose (g : BitVec 7) (port : BitVec 2) (m1 : State) : exec (.paClose g port) m1 = execPaClose g port m1 :=
    rfl
theorem exec_paApply (g : BitVec 7) (y z : BitVec 6) (m1 : State) : exec (.paApply g y z) m1 = execPaApply g y z m1 :=
    rfl
theorem exec_paInv (g : BitVec 7) (y z : BitVec 6) (m1 : State) : exec (.paInv g y z) m1 = execPaInv g y z m1 :=
    rfl
theorem exec_paComm (g : BitVec 7) (y z : BitVec 6) (m1 : State) : exec (.paComm g y z) m1 = execPaComm g y z m1 :=
    rfl
theorem exec_paXplant (g : BitVec 7) (x y z : BitVec 6) (m1 : State) : exec (.paXplant g x y z) m1 = execPaXplant g x y z m1 :=
    rfl
theorem exec_paSquash (g : BitVec 7) (y z : BitVec 6) (m1 : State) : exec (.paSquash g y z) m1 = execPaSquash g y z m1 :=
    rfl
theorem exec_paSnap (g : BitVec 7) (y : BitVec 6) (clr : BitVec 1) (m1 : State) : exec (.paSnap g y clr) m1 = execPaSnap g y clr m1 :=
    rfl
theorem exec_paDropPort (g : BitVec 7) (port : BitVec 2) (m1 : State) : exec (.paDropPort g port) m1 = execPaDropPort g port m1 :=
    rfl
theorem exec_paDropClosed (g : BitVec 7) (y z : BitVec 6) (m1 : State) : exec (.paDropClosed g y z) m1 = execPaDropClosed g y z m1 :=
    rfl
theorem exec_paQuery (g : BitVec 7) (x y z : BitVec 6) (m1 : State) : exec (.paQuery g x y z) m1 = execPaQuery g x y z m1 :=
    rfl
theorem exec_paNorm (g : BitVec 7) (x y : BitVec 6) (f : BitVec 4) (m1 : State) : exec (.paNorm g x y f) m1 = execPaNorm g x y f m1 :=
    rfl
theorem exec_grLaunch (g : BitVec 7) (scope : Scope) (y : BitVec 6) (m1 : State) : exec (.grLaunch g scope y) m1 = execGrLaunch g scope y m1 :=
    rfl
theorem exec_grArrive (g : BitVec 7) (m : BitVec 4) (m1 : State) : exec (.grArrive g m) m1 = execGrArrive g m m1 :=
    rfl
theorem exec_grCond (g : BitVec 7) (y z : BitVec 6) (m1 : State) : exec (.grCond g y z) m1 = execGrCond g y z m1 :=
    rfl
theorem exec_grDone (g : BitVec 7) (m1 : State) : exec (.grDone g) m1 = execGrDone g m1 :=
    rfl
theorem exec_segPromote (g : BitVec 7) (x y z : BitVec 6) (m1 : State) : exec (.segPromote g x y z) m1 = execSegPromote g x y z m1 :=
    rfl
theorem exec_segPin (g : BitVec 7) (x y z : BitVec 6) (m1 : State) : exec (.segPin g x y z) m1 = execSegPin g x y z m1 :=
    rfl
theorem exec_segUnpin (g : BitVec 7) (x y z : BitVec 6) (m1 : State) : exec (.segUnpin g x y z) m1 = execSegUnpin g x y z m1 :=
    rfl
theorem exec_segDemote (g : BitVec 7) (x y z : BitVec 6) (m1 : State) : exec (.segDemote g x y z) m1 = execSegDemote g x y z m1 :=
    rfl
theorem exec_segQuery (g : BitVec 7) (x y : BitVec 6) (m1 : State) : exec (.segQuery g x y) m1 = execSegQuery g x y m1 :=
    rfl
theorem exec_bringupStage (err : BitVec 8) (m1 : State) : exec (.bringupStage err) m1 = execBringupStage err m1 :=
    rfl
theorem exec_clockReplan (mhz : Nat) (m1 : State) : exec (.clockReplan mhz) m1 = execClockReplan mhz m1 :=
    rfl
theorem exec_registerWrite (f : Nat) (off : Nat) (v : Word) (m1 : State) : exec (.registerWrite f off v) m1 = execRegisterWrite f off v m1 :=
    rfl
theorem exec_hostMemRd (dec : Nat) (addr : Word) (m1 : State) : exec (.hostMemRd dec addr) m1 = execHostMemRd dec addr m1 :=
    rfl
theorem exec_hostMemWr (dec : Nat) (addr : Word) (data : BitVec 512) (m1 : State) : exec (.hostMemWr dec addr data) m1 = execHostMemWr dec addr data m1 :=
    rfl
theorem exec_hostMemWrPtl (dec : Nat) (addr : Word) (data : BitVec 512) (mask : BitVec 64) (m1 : State) : exec (.hostMemWrPtl dec addr data mask) m1 = execHostMemWrPtl dec addr data mask m1 :=
    rfl
theorem exec_hostBisnpinvResponse (line : Nat) (m1 : State) : exec (.hostBisnpinvResponse line) m1 = execHostBisnpinvResponse line m1 :=
    rfl
theorem exec_hostCacheSnoop (addr : Word) (m1 : State) : exec (.hostCacheSnoop addr) m1 = execHostCacheSnoop addr m1 :=
    rfl
theorem exec_tdispLockInterface (vf : Nat) (m1 : State) : exec (.tdispLockInterface vf) m1 = execTdispLockInterface vf m1 :=
    rfl
theorem exec_tdispStartInterface (vf : Nat) (m1 : State) : exec (.tdispStartInterface vf) m1 = execTdispStartInterface vf m1 :=
    rfl
theorem exec_tdispStopInterface (vf : Nat) (m1 : State) : exec (.tdispStopInterface vf) m1 = execTdispStopInterface vf m1 :=
    rfl
theorem exec_tdiLockedRegisterWrite (vf : Nat) (reg : Nat) (v : Word) (m1 : State) : exec (.tdiLockedRegisterWrite vf reg v) m1 = execTdiLockedRegisterWrite vf reg v m1 :=
    rfl
theorem exec_portTrained (port : Nat) (peer : Peer) (m1 : State) : exec (.portTrained port peer) m1 = execPortTrained port peer m1 :=
    rfl
theorem exec_portPeerSilent (port : Nat) (m1 : State) : exec (.portPeerSilent port) m1 = execPortPeerSilent port m1 :=
    rfl
theorem exec_flitCrcReplay (port : Nat) (m1 : State) : exec (.flitCrcReplay port) m1 = execFlitCrcReplay port m1 :=
    rfl
theorem exec_deviceUnreachable (dev : Nat) (m1 : State) : exec (.deviceUnreachable dev) m1 = execDeviceUnreachable dev m1 :=
    rfl
theorem exec_swredContribution (grp : Nat) (off : Nat) (data : BitVec 512) (m1 : State) : exec (.swredContribution grp off data) m1 = execSwredContribution grp off data m1 :=
    rfl
theorem exec_warmReset (m1 : State) : exec (.warmReset) m1 = execWarmReset m1 :=
    rfl
theorem exec_coldReset (m1 : State) : exec (.coldReset) m1 = execColdReset m1 :=
    rfl
theorem exec_hostLinkTraining (width : LinkWidth) (rate : LinkRate) (m1 : State) : exec (.hostLinkTraining width rate) m1 = execHostLinkTraining width rate m1 :=
    rfl
theorem exec_spdmSessionMessage (msg : Word) (m1 : State) : exec (.spdmSessionMessage msg) m1 = execSpdmSessionMessage msg m1 :=
    rfl
theorem exec_ccreate (f : Nat) (ctx owner fring flog notify grace kill ksl : Word) (m1 : State) : exec (.ccreate f ctx owner fring flog notify grace kill ksl) m1 = execCcreate f ctx owner fring flog notify grace kill ksl m1 :=
    rfl
theorem exec_cset (f : Nat) (ctx grace kill : Word) (m1 : State) : exec (.cset f ctx grace kill) m1 = execCset f ctx grace kill m1 :=
    rfl
theorem exec_carea (f : Nat) (ctx gh addr : Word) (m1 : State) : exec (.carea f ctx gh addr) m1 = execCarea f ctx gh addr m1 :=
    rfl
theorem exec_cwin (f : Nat) (ctx die base count : Word) (m1 : State) : exec (.cwin f ctx die base count) m1 = execCwin f ctx die base count m1 :=
    rfl
theorem exec_climit (f : Nat) (ctx kind lines : Word) (m1 : State) : exec (.climit f ctx kind lines) m1 = execClimit f ctx kind lines m1 :=
    rfl
theorem exec_cpreempt (f : Nat) (ctx gh grace : Word) (m1 : State) : exec (.cpreempt f ctx gh grace) m1 = execCpreempt f ctx gh grace m1 :=
    rfl
theorem exec_cresume (f : Nat) (ctx seq pc : Word) (m1 : State) : exec (.cresume f ctx seq pc) m1 = execCresume f ctx seq pc m1 :=
    rfl
theorem exec_ckill (f : Nat) (ctx : Word) (m1 : State) : exec (.ckill f ctx) m1 = execCkill f ctx m1 :=
    rfl
theorem exec_ckey (f : Nat) (slot keys : Word) (m1 : State) : exec (.ckey f slot keys) m1 = execCkey f slot keys m1 :=
    rfl
theorem exec_cdestroy (f : Nat) (ctx list count : Word) (m1 : State) : exec (.cdestroy f ctx list count) m1 = execCdestroy f ctx list count m1 :=
    rfl
theorem exec_cread (f : Nat) (ctx : Word) (m1 : State) : exec (.cread f ctx) m1 = execCread f ctx m1 :=
    rfl
theorem exec_qcreate (f : Nat) (n ctx prio ring lsize cpool : Word) (m1 : State) : exec (.qcreate f n ctx prio ring lsize cpool) m1 = execQcreate f n ctx prio ring lsize cpool m1 :=
    rfl
theorem exec_qset (f : Nat) (n prio : Word) (m1 : State) : exec (.qset f n prio) m1 = execQset f n prio m1 :=
    rfl
theorem exec_qpause (f : Nat) (n : Word) (m1 : State) : exec (.qpause f n) m1 = execQpause f n m1 :=
    rfl
theorem exec_qresume (f : Nat) (n : Word) (m1 : State) : exec (.qresume f n) m1 = execQresume f n m1 :=
    rfl
theorem exec_qreset (f : Nat) (n : Word) (m1 : State) : exec (.qreset f n) m1 = execQreset f n m1 :=
    rfl
theorem exec_qdestroy (f : Nat) (n : Word) (m1 : State) : exec (.qdestroy f n) m1 = execQdestroy f n m1 :=
    rfl
theorem exec_ownset (f : Nat) (owner w : Word) (m1 : State) : exec (.ownset f owner w) m1 = execOwnset f owner w m1 :=
    rfl
theorem exec_qread (f : Nat) (n : Word) (m1 : State) : exec (.qread f n) m1 = execQread f n m1 :=
    rfl
theorem exec_gcreate (f : Nat) (core mask owner : Word) (m1 : State) : exec (.gcreate f core mask owner) m1 = execGcreate f core mask owner m1 :=
    rfl
theorem exec_gdestroy (f : Nat) (gh : Word) (m1 : State) : exec (.gdestroy f gh) m1 = execGdestroy f gh m1 :=
    rfl
theorem exec_gbind (f : Nat) (gh ctx : Word) (m1 : State) : exec (.gbind f gh ctx) m1 = execGbind f gh ctx m1 :=
    rfl
theorem exec_gunbind (f : Nat) (gh ctx : Word) (m1 : State) : exec (.gunbind f gh ctx) m1 = execGunbind f gh ctx m1 :=
    rfl
theorem exec_lend (f : Nat) (gh borrower : Word) (m1 : State) : exec (.lend f gh borrower) m1 = execLend f gh borrower m1 :=
    rfl
theorem exec_recallGroup (f : Nat) (gh : Word) (m1 : State) : exec (.recallGroup f gh) m1 = execRecall f gh m1 :=
    rfl
theorem exec_gread (f : Nat) (gh : Word) (m1 : State) : exec (.gread f gh) m1 = execGread f gh m1 :=
    rfl
theorem exec_vmroot (f : Nat) (ctx root1 root2 : Word) (m1 : State) : exec (.vmroot f ctx root1 root2) m1 = execVmroot f ctx root1 root2 m1 :=
    rfl
theorem exec_s2map (f : Nat) (ctx ipa pa size r w x nc ksl : Word) (m1 : State) : exec (.s2map f ctx ipa pa size r w x nc ksl) m1 = execS2map f ctx ipa pa size r w x nc ksl m1 :=
    rfl
theorem exec_s2unmap (f : Nat) (ctx ipa size : Word) (m1 : State) : exec (.s2unmap f ctx ipa size) m1 = execS2unmap f ctx ipa size m1 :=
    rfl
theorem exec_s2clean (f : Nat) (ctx ipa size : Word) (m1 : State) : exec (.s2clean f ctx ipa size) m1 = execS2clean f ctx ipa size m1 :=
    rfl
theorem exec_tlbinv (f : Nat) (ctx stage base len : Word) (m1 : State) : exec (.tlbinv f ctx stage base len) m1 = execTlbinv f ctx stage base len m1 :=
    rfl
theorem exec_frset (f : Nat) (stack size : Word) (m1 : State) : exec (.frset f stack size) m1 = execFrset f stack size m1 :=
    rfl
theorem exec_segquota (f : Nat) (ctx quota : Word) (m1 : State) : exec (.segquota f ctx quota) m1 = execSegquota f ctx quota m1 :=
    rfl
theorem exec_mscset (f : Nat) (die vd cls mask rp wp ap : Word) (m1 : State) : exec (.mscset f die vd cls mask rp wp ap) m1 = execMscset f die vd cls mask rp wp ap m1 :=
    rfl
theorem exec_hmove (f : Nat) (leaf pa : Word) (m1 : State) : exec (.hmove f leaf pa) m1 = execHmove f leaf pa m1 :=
    rfl
theorem exec_hdmset (f : Nat) (dec hbase size pa vd tdi : Word) (m1 : State) : exec (.hdmset f dec hbase size pa vd tdi) m1 = execHdmset f dec hbase size pa vd tdi m1 :=
    rfl
theorem exec_tdibind (f : Nat) (vf ctx : Word) (m1 : State) : exec (.tdibind f vf ctx) m1 = execTdibind f vf ctx m1 :=
    rfl
theorem exec_lnkdom (f : Nat) (dev table : Word) (m1 : State) : exec (.lnkdom f dev table) m1 = execLnkdom f dev table m1 :=
    rfl
theorem exec_poolset (f : Nat) (win kind target size vd : Word) (m1 : State) : exec (.poolset f win kind target size vd) m1 = execPoolset f win kind target size vd m1 :=
    rfl
theorem exec_swred (f : Nat) (switch grp n span dest handle : Word) (m1 : State) : exec (.swred f switch grp n span dest handle) m1 = execSwred f switch grp n span dest handle m1 :=
    rfl
theorem exec_domfault (f : Nat) (dev : Word) (m1 : State) : exec (.domfault f dev) m1 = execDomfault f dev m1 :=
    rfl
theorem exec_ownnew (f : Nat) (owner vf : Word) (m1 : State) : exec (.ownnew f owner vf) m1 = execOwnnew f owner vf m1 :=
    rfl
theorem exec_owndel (f : Nat) (owner : Word) (m1 : State) : exec (.owndel f owner) m1 = execOwndel f owner m1 :=
    rfl
theorem exec_readback (f : Nat) (cls inst off len buf : Word) (m1 : State) : exec (.readback f cls inst off len buf) m1 = execReadback f cls inst off len buf m1 :=
    rfl
theorem exec_usage (f : Nat) (owner nonce buf : Word) (m1 : State) : exec (.usage f owner nonce buf) m1 = execUsage f owner nonce buf m1 :=
    rfl
theorem exec_idget (f : Nat) (buf len : Word) (m1 : State) : exec (.idget f buf len) m1 = execIdget f buf len m1 :=
    rfl
theorem exec_attest (f : Nat) (nonce buf : Word) (m1 : State) : exec (.attest f nonce buf) m1 = execAttest f nonce buf m1 :=
    rfl
theorem exec_keyx (f : Nat) (key buf : Word) (m1 : State) : exec (.keyx f key buf) m1 = execKeyx f key buf m1 :=
    rfl
theorem exec_margin (f : Nat) (buf : Word) (m1 : State) : exec (.margin f buf) m1 = execMargin f buf m1 :=
    rfl
theorem exec_errlog (f : Nat) (buf len clear : Word) (m1 : State) : exec (.errlog f buf len clear) m1 = execErrlog f buf len clear m1 :=
    rfl
theorem exec_scrread (f : Nat) (die : Word) (m1 : State) : exec (.scrread f die) m1 = execScrread f die m1 :=
    rfl
theorem exec_fwinfo (f : Nat) (m1 : State) : exec (.fwinfo f) m1 = execFwinfo f m1 :=
    rfl
theorem exec_halovf (f : Nat) (die pa count : Word) (m1 : State) : exec (.halovf f die pa count) m1 = execHalovf f die pa count m1 :=
    rfl

end Sys2Proof.Machine
end

