-- ==== Sys2Proof/Laws/State.lean ====
section
/-! SUPPORT. What the updates of the state leave alone: one lemma per update and field, and what an access reads after an
update of a table. -/

namespace Sys2Proof

/-! ### Tables -/

@[simp] theorem Tab.get?_put_same {α : Type} (t : Tab α) (n : Nat) (x : α) : Tab.get? (Tab.put t n x) n = some x := by
  induction t with
  | nil => simp [Tab.put, Tab.get?]
  | cons e t ih =>
    obtain ⟨k, v⟩ := e
    simp only [Tab.put]
    split
    · simp [Tab.get?]
    · split
      · simp [Tab.get?]
      · simp [Tab.get?, *]

theorem Tab.get?_put_other {α : Type} (t : Tab α) {n m : Nat} (x : α) (h : m ≠ n) :
    Tab.get? (Tab.put t n x) m = Tab.get? t m := by
  induction t with
  | nil => simp [Tab.put, Tab.get?, h]
  | cons e t ih =>
    obtain ⟨k, v⟩ := e
    simp only [Tab.put]
    split
    · subst_vars; simp [Tab.get?, h]
    · split
      · simp [Tab.get?, h]
      · simp only [Tab.get?, ih]

@[simp] theorem Tab.getD_put_same {α : Type} (t : Tab α) (n : Nat) (x d : α) : Tab.getD (Tab.put t n x) n d = x := by
  simp [Tab.getD]

theorem Tab.getD_put_other {α : Type} (t : Tab α) {n m : Nat} (x d : α) (h : m ≠ n) :
    Tab.getD (Tab.put t n x) m d = Tab.getD t m d := by
  simp [Tab.getD, Tab.get?_put_other t x h]

theorem Tab.getD_put {α : Type} (t : Tab α) (n m : Nat) (x d : α) :
    Tab.getD (Tab.put t n x) m d = if m = n then x else Tab.getD t m d := by
  split
  · subst_vars; simp
  · exact Tab.getD_put_other t x d ‹_›

end Sys2Proof

namespace Sys2Proof.Machine

/-! ### Updates and fields -/

@[simp] theorem State.setSeq_owed (s : State) (q : Nat) (x : Seq) : (s.setSeq q x).owed = s.owed := rfl
@[simp] theorem State.setSeq_clock (s : State) (q : Nat) (x : Seq) : (s.setSeq q x).clock = s.clock := rfl
@[simp] theorem State.setSeq_agenda (s : State) (q : Nat) (x : Seq) : (s.setSeq q x).agenda = s.agenda := rfl
@[simp] theorem State.setSeq_latch (s : State) (q : Nat) (x : Seq) : (s.setSeq q x).latch = s.latch := rfl
@[simp] theorem State.setSeq_cur (s : State) (q : Nat) (x : Seq) : (s.setSeq q x).cur = s.cur := rfl
@[simp] theorem State.setSeq_tick (s : State) (q : Nat) (x : Seq) : (s.setSeq q x).tick = s.tick := rfl
@[simp] theorem State.setSeq_cores (s : State) (q : Nat) (x : Seq) : (s.setSeq q x).cores = s.cores := rfl
@[simp] theorem State.setSeq_clusters (s : State) (q : Nat) (x : Seq) : (s.setSeq q x).clusters = s.clusters := rfl
@[simp] theorem State.setSeq_dies (s : State) (q : Nat) (x : Seq) : (s.setSeq q x).dies = s.dies := rfl
@[simp] theorem State.setSeq_mem (s : State) (q : Nat) (x : Seq) : (s.setSeq q x).mem = s.mem := rfl
@[simp] theorem State.setSeq_hal (s : State) (q : Nat) (x : Seq) : (s.setSeq q x).hal = s.hal := rfl
@[simp] theorem State.setSeq_ctxs (s : State) (q : Nat) (x : Seq) : (s.setSeq q x).ctxs = s.ctxs := rfl
@[simp] theorem State.setSeq_groups (s : State) (q : Nat) (x : Seq) : (s.setSeq q x).groups = s.groups := rfl
@[simp] theorem State.setSeq_queues (s : State) (q : Nat) (x : Seq) : (s.setSeq q x).queues = s.queues := rfl
@[simp] theorem State.setSeq_owners (s : State) (q : Nat) (x : Seq) : (s.setSeq q x).owners = s.owners := rfl
@[simp] theorem State.setSeq_cursors (s : State) (q : Nat) (x : Seq) : (s.setSeq q x).cursors = s.cursors := rfl
@[simp] theorem State.setSeq_served (s : State) (q : Nat) (x : Seq) : (s.setSeq q x).served = s.served := rfl
@[simp] theorem State.setSeq_launches (s : State) (q : Nat) (x : Seq) : (s.setSeq q x).launches = s.launches := rfl
@[simp] theorem State.setSeq_mast (s : State) (q : Nat) (x : Seq) : (s.setSeq q x).mast = s.mast := rfl
@[simp] theorem State.setSeq_link (s : State) (q : Nat) (x : Seq) : (s.setSeq q x).link = s.link := rfl

@[simp] theorem State.setCore_owed (s : State) (c : Nat) (x : CoreSt) : (s.setCore c x).owed = s.owed := rfl
@[simp] theorem State.setCore_clock (s : State) (c : Nat) (x : CoreSt) : (s.setCore c x).clock = s.clock := rfl
@[simp] theorem State.setCore_agenda (s : State) (c : Nat) (x : CoreSt) : (s.setCore c x).agenda = s.agenda := rfl
@[simp] theorem State.setCore_latch (s : State) (c : Nat) (x : CoreSt) : (s.setCore c x).latch = s.latch := rfl
@[simp] theorem State.setCore_cur (s : State) (c : Nat) (x : CoreSt) : (s.setCore c x).cur = s.cur := rfl
@[simp] theorem State.setCore_tick (s : State) (c : Nat) (x : CoreSt) : (s.setCore c x).tick = s.tick := rfl
@[simp] theorem State.setCore_seqs (s : State) (c : Nat) (x : CoreSt) : (s.setCore c x).seqs = s.seqs := rfl
@[simp] theorem State.setCore_clusters (s : State) (c : Nat) (x : CoreSt) : (s.setCore c x).clusters = s.clusters := rfl
@[simp] theorem State.setCore_dies (s : State) (c : Nat) (x : CoreSt) : (s.setCore c x).dies = s.dies := rfl
@[simp] theorem State.setCore_mem (s : State) (c : Nat) (x : CoreSt) : (s.setCore c x).mem = s.mem := rfl
@[simp] theorem State.setCore_hal (s : State) (c : Nat) (x : CoreSt) : (s.setCore c x).hal = s.hal := rfl
@[simp] theorem State.setCore_ctxs (s : State) (c : Nat) (x : CoreSt) : (s.setCore c x).ctxs = s.ctxs := rfl
@[simp] theorem State.setCore_groups (s : State) (c : Nat) (x : CoreSt) : (s.setCore c x).groups = s.groups := rfl
@[simp] theorem State.setCore_queues (s : State) (c : Nat) (x : CoreSt) : (s.setCore c x).queues = s.queues := rfl
@[simp] theorem State.setCore_owners (s : State) (c : Nat) (x : CoreSt) : (s.setCore c x).owners = s.owners := rfl
@[simp] theorem State.setCore_cursors (s : State) (c : Nat) (x : CoreSt) : (s.setCore c x).cursors = s.cursors := rfl
@[simp] theorem State.setCore_served (s : State) (c : Nat) (x : CoreSt) : (s.setCore c x).served = s.served := rfl
@[simp] theorem State.setCore_launches (s : State) (c : Nat) (x : CoreSt) : (s.setCore c x).launches = s.launches := rfl
@[simp] theorem State.setCore_mast (s : State) (c : Nat) (x : CoreSt) : (s.setCore c x).mast = s.mast := rfl
@[simp] theorem State.setCore_link (s : State) (c : Nat) (x : CoreSt) : (s.setCore c x).link = s.link := rfl

@[simp] theorem State.setCluster_owed (s : State) (c : Nat) (x : Cluster) : (s.setCluster c x).owed = s.owed := rfl
@[simp] theorem State.setCluster_clock (s : State) (c : Nat) (x : Cluster) : (s.setCluster c x).clock = s.clock := rfl
@[simp] theorem State.setCluster_agenda (s : State) (c : Nat) (x : Cluster) : (s.setCluster c x).agenda = s.agenda := rfl
@[simp] theorem State.setCluster_latch (s : State) (c : Nat) (x : Cluster) : (s.setCluster c x).latch = s.latch := rfl
@[simp] theorem State.setCluster_cur (s : State) (c : Nat) (x : Cluster) : (s.setCluster c x).cur = s.cur := rfl
@[simp] theorem State.setCluster_tick (s : State) (c : Nat) (x : Cluster) : (s.setCluster c x).tick = s.tick := rfl
@[simp] theorem State.setCluster_seqs (s : State) (c : Nat) (x : Cluster) : (s.setCluster c x).seqs = s.seqs := rfl
@[simp] theorem State.setCluster_cores (s : State) (c : Nat) (x : Cluster) : (s.setCluster c x).cores = s.cores := rfl
@[simp] theorem State.setCluster_dies (s : State) (c : Nat) (x : Cluster) : (s.setCluster c x).dies = s.dies := rfl
@[simp] theorem State.setCluster_mem (s : State) (c : Nat) (x : Cluster) : (s.setCluster c x).mem = s.mem := rfl
@[simp] theorem State.setCluster_hal (s : State) (c : Nat) (x : Cluster) : (s.setCluster c x).hal = s.hal := rfl
@[simp] theorem State.setCluster_ctxs (s : State) (c : Nat) (x : Cluster) : (s.setCluster c x).ctxs = s.ctxs := rfl
@[simp] theorem State.setCluster_groups (s : State) (c : Nat) (x : Cluster) : (s.setCluster c x).groups = s.groups := rfl
@[simp] theorem State.setCluster_queues (s : State) (c : Nat) (x : Cluster) : (s.setCluster c x).queues = s.queues := rfl
@[simp] theorem State.setCluster_owners (s : State) (c : Nat) (x : Cluster) : (s.setCluster c x).owners = s.owners := rfl
@[simp] theorem State.setCluster_cursors (s : State) (c : Nat) (x : Cluster) : (s.setCluster c x).cursors = s.cursors := rfl
@[simp] theorem State.setCluster_served (s : State) (c : Nat) (x : Cluster) : (s.setCluster c x).served = s.served := rfl
@[simp] theorem State.setCluster_launches (s : State) (c : Nat) (x : Cluster) : (s.setCluster c x).launches = s.launches := rfl
@[simp] theorem State.setCluster_mast (s : State) (c : Nat) (x : Cluster) : (s.setCluster c x).mast = s.mast := rfl
@[simp] theorem State.setCluster_link (s : State) (c : Nat) (x : Cluster) : (s.setCluster c x).link = s.link := rfl

@[simp] theorem State.setDie_owed (s : State) (d : Nat) (x : Die) : (s.setDie d x).owed = s.owed := rfl
@[simp] theorem State.setDie_clock (s : State) (d : Nat) (x : Die) : (s.setDie d x).clock = s.clock := rfl
@[simp] theorem State.setDie_agenda (s : State) (d : Nat) (x : Die) : (s.setDie d x).agenda = s.agenda := rfl
@[simp] theorem State.setDie_latch (s : State) (d : Nat) (x : Die) : (s.setDie d x).latch = s.latch := rfl
@[simp] theorem State.setDie_cur (s : State) (d : Nat) (x : Die) : (s.setDie d x).cur = s.cur := rfl
@[simp] theorem State.setDie_tick (s : State) (d : Nat) (x : Die) : (s.setDie d x).tick = s.tick := rfl
@[simp] theorem State.setDie_seqs (s : State) (d : Nat) (x : Die) : (s.setDie d x).seqs = s.seqs := rfl
@[simp] theorem State.setDie_cores (s : State) (d : Nat) (x : Die) : (s.setDie d x).cores = s.cores := rfl
@[simp] theorem State.setDie_clusters (s : State) (d : Nat) (x : Die) : (s.setDie d x).clusters = s.clusters := rfl
@[simp] theorem State.setDie_mem (s : State) (d : Nat) (x : Die) : (s.setDie d x).mem = s.mem := rfl
@[simp] theorem State.setDie_hal (s : State) (d : Nat) (x : Die) : (s.setDie d x).hal = s.hal := rfl
@[simp] theorem State.setDie_ctxs (s : State) (d : Nat) (x : Die) : (s.setDie d x).ctxs = s.ctxs := rfl
@[simp] theorem State.setDie_groups (s : State) (d : Nat) (x : Die) : (s.setDie d x).groups = s.groups := rfl
@[simp] theorem State.setDie_queues (s : State) (d : Nat) (x : Die) : (s.setDie d x).queues = s.queues := rfl
@[simp] theorem State.setDie_owners (s : State) (d : Nat) (x : Die) : (s.setDie d x).owners = s.owners := rfl
@[simp] theorem State.setDie_cursors (s : State) (d : Nat) (x : Die) : (s.setDie d x).cursors = s.cursors := rfl
@[simp] theorem State.setDie_served (s : State) (d : Nat) (x : Die) : (s.setDie d x).served = s.served := rfl
@[simp] theorem State.setDie_launches (s : State) (d : Nat) (x : Die) : (s.setDie d x).launches = s.launches := rfl
@[simp] theorem State.setDie_mast (s : State) (d : Nat) (x : Die) : (s.setDie d x).mast = s.mast := rfl
@[simp] theorem State.setDie_link (s : State) (d : Nat) (x : Die) : (s.setDie d x).link = s.link := rfl

@[simp] theorem State.setCtx_owed (s : State) (c : Nat) (x : Ctx) : (s.setCtx c x).owed = s.owed := rfl
@[simp] theorem State.setCtx_clock (s : State) (c : Nat) (x : Ctx) : (s.setCtx c x).clock = s.clock := rfl
@[simp] theorem State.setCtx_agenda (s : State) (c : Nat) (x : Ctx) : (s.setCtx c x).agenda = s.agenda := rfl
@[simp] theorem State.setCtx_latch (s : State) (c : Nat) (x : Ctx) : (s.setCtx c x).latch = s.latch := rfl
@[simp] theorem State.setCtx_cur (s : State) (c : Nat) (x : Ctx) : (s.setCtx c x).cur = s.cur := rfl
@[simp] theorem State.setCtx_tick (s : State) (c : Nat) (x : Ctx) : (s.setCtx c x).tick = s.tick := rfl
@[simp] theorem State.setCtx_seqs (s : State) (c : Nat) (x : Ctx) : (s.setCtx c x).seqs = s.seqs := rfl
@[simp] theorem State.setCtx_cores (s : State) (c : Nat) (x : Ctx) : (s.setCtx c x).cores = s.cores := rfl
@[simp] theorem State.setCtx_clusters (s : State) (c : Nat) (x : Ctx) : (s.setCtx c x).clusters = s.clusters := rfl
@[simp] theorem State.setCtx_dies (s : State) (c : Nat) (x : Ctx) : (s.setCtx c x).dies = s.dies := rfl
@[simp] theorem State.setCtx_mem (s : State) (c : Nat) (x : Ctx) : (s.setCtx c x).mem = s.mem := rfl
@[simp] theorem State.setCtx_hal (s : State) (c : Nat) (x : Ctx) : (s.setCtx c x).hal = s.hal := rfl
@[simp] theorem State.setCtx_groups (s : State) (c : Nat) (x : Ctx) : (s.setCtx c x).groups = s.groups := rfl
@[simp] theorem State.setCtx_queues (s : State) (c : Nat) (x : Ctx) : (s.setCtx c x).queues = s.queues := rfl
@[simp] theorem State.setCtx_owners (s : State) (c : Nat) (x : Ctx) : (s.setCtx c x).owners = s.owners := rfl
@[simp] theorem State.setCtx_cursors (s : State) (c : Nat) (x : Ctx) : (s.setCtx c x).cursors = s.cursors := rfl
@[simp] theorem State.setCtx_served (s : State) (c : Nat) (x : Ctx) : (s.setCtx c x).served = s.served := rfl
@[simp] theorem State.setCtx_launches (s : State) (c : Nat) (x : Ctx) : (s.setCtx c x).launches = s.launches := rfl
@[simp] theorem State.setCtx_mast (s : State) (c : Nat) (x : Ctx) : (s.setCtx c x).mast = s.mast := rfl
@[simp] theorem State.setCtx_link (s : State) (c : Nat) (x : Ctx) : (s.setCtx c x).link = s.link := rfl

@[simp] theorem State.setGroup_owed (s : State) (g : Nat) (x : Group) : (s.setGroup g x).owed = s.owed := rfl
@[simp] theorem State.setGroup_clock (s : State) (g : Nat) (x : Group) : (s.setGroup g x).clock = s.clock := rfl
@[simp] theorem State.setGroup_agenda (s : State) (g : Nat) (x : Group) : (s.setGroup g x).agenda = s.agenda := rfl
@[simp] theorem State.setGroup_latch (s : State) (g : Nat) (x : Group) : (s.setGroup g x).latch = s.latch := rfl
@[simp] theorem State.setGroup_cur (s : State) (g : Nat) (x : Group) : (s.setGroup g x).cur = s.cur := rfl
@[simp] theorem State.setGroup_tick (s : State) (g : Nat) (x : Group) : (s.setGroup g x).tick = s.tick := rfl
@[simp] theorem State.setGroup_seqs (s : State) (g : Nat) (x : Group) : (s.setGroup g x).seqs = s.seqs := rfl
@[simp] theorem State.setGroup_cores (s : State) (g : Nat) (x : Group) : (s.setGroup g x).cores = s.cores := rfl
@[simp] theorem State.setGroup_clusters (s : State) (g : Nat) (x : Group) : (s.setGroup g x).clusters = s.clusters := rfl
@[simp] theorem State.setGroup_dies (s : State) (g : Nat) (x : Group) : (s.setGroup g x).dies = s.dies := rfl
@[simp] theorem State.setGroup_mem (s : State) (g : Nat) (x : Group) : (s.setGroup g x).mem = s.mem := rfl
@[simp] theorem State.setGroup_hal (s : State) (g : Nat) (x : Group) : (s.setGroup g x).hal = s.hal := rfl
@[simp] theorem State.setGroup_ctxs (s : State) (g : Nat) (x : Group) : (s.setGroup g x).ctxs = s.ctxs := rfl
@[simp] theorem State.setGroup_queues (s : State) (g : Nat) (x : Group) : (s.setGroup g x).queues = s.queues := rfl
@[simp] theorem State.setGroup_owners (s : State) (g : Nat) (x : Group) : (s.setGroup g x).owners = s.owners := rfl
@[simp] theorem State.setGroup_cursors (s : State) (g : Nat) (x : Group) : (s.setGroup g x).cursors = s.cursors := rfl
@[simp] theorem State.setGroup_served (s : State) (g : Nat) (x : Group) : (s.setGroup g x).served = s.served := rfl
@[simp] theorem State.setGroup_launches (s : State) (g : Nat) (x : Group) : (s.setGroup g x).launches = s.launches := rfl
@[simp] theorem State.setGroup_mast (s : State) (g : Nat) (x : Group) : (s.setGroup g x).mast = s.mast := rfl
@[simp] theorem State.setGroup_link (s : State) (g : Nat) (x : Group) : (s.setGroup g x).link = s.link := rfl

@[simp] theorem State.setQueue_owed (s : State) (n : Nat) (x : Queue) : (s.setQueue n x).owed = s.owed := rfl
@[simp] theorem State.setQueue_clock (s : State) (n : Nat) (x : Queue) : (s.setQueue n x).clock = s.clock := rfl
@[simp] theorem State.setQueue_agenda (s : State) (n : Nat) (x : Queue) : (s.setQueue n x).agenda = s.agenda := rfl
@[simp] theorem State.setQueue_latch (s : State) (n : Nat) (x : Queue) : (s.setQueue n x).latch = s.latch := rfl
@[simp] theorem State.setQueue_cur (s : State) (n : Nat) (x : Queue) : (s.setQueue n x).cur = s.cur := rfl
@[simp] theorem State.setQueue_tick (s : State) (n : Nat) (x : Queue) : (s.setQueue n x).tick = s.tick := rfl
@[simp] theorem State.setQueue_seqs (s : State) (n : Nat) (x : Queue) : (s.setQueue n x).seqs = s.seqs := rfl
@[simp] theorem State.setQueue_cores (s : State) (n : Nat) (x : Queue) : (s.setQueue n x).cores = s.cores := rfl
@[simp] theorem State.setQueue_clusters (s : State) (n : Nat) (x : Queue) : (s.setQueue n x).clusters = s.clusters := rfl
@[simp] theorem State.setQueue_dies (s : State) (n : Nat) (x : Queue) : (s.setQueue n x).dies = s.dies := rfl
@[simp] theorem State.setQueue_mem (s : State) (n : Nat) (x : Queue) : (s.setQueue n x).mem = s.mem := rfl
@[simp] theorem State.setQueue_hal (s : State) (n : Nat) (x : Queue) : (s.setQueue n x).hal = s.hal := rfl
@[simp] theorem State.setQueue_ctxs (s : State) (n : Nat) (x : Queue) : (s.setQueue n x).ctxs = s.ctxs := rfl
@[simp] theorem State.setQueue_groups (s : State) (n : Nat) (x : Queue) : (s.setQueue n x).groups = s.groups := rfl
@[simp] theorem State.setQueue_owners (s : State) (n : Nat) (x : Queue) : (s.setQueue n x).owners = s.owners := rfl
@[simp] theorem State.setQueue_cursors (s : State) (n : Nat) (x : Queue) : (s.setQueue n x).cursors = s.cursors := rfl
@[simp] theorem State.setQueue_served (s : State) (n : Nat) (x : Queue) : (s.setQueue n x).served = s.served := rfl
@[simp] theorem State.setQueue_launches (s : State) (n : Nat) (x : Queue) : (s.setQueue n x).launches = s.launches := rfl
@[simp] theorem State.setQueue_mast (s : State) (n : Nat) (x : Queue) : (s.setQueue n x).mast = s.mast := rfl
@[simp] theorem State.setQueue_link (s : State) (n : Nat) (x : Queue) : (s.setQueue n x).link = s.link := rfl

@[simp] theorem State.setOwner_owed (s : State) (n : Nat) (x : Owner) : (s.setOwner n x).owed = s.owed := rfl
@[simp] theorem State.setOwner_clock (s : State) (n : Nat) (x : Owner) : (s.setOwner n x).clock = s.clock := rfl
@[simp] theorem State.setOwner_agenda (s : State) (n : Nat) (x : Owner) : (s.setOwner n x).agenda = s.agenda := rfl
@[simp] theorem State.setOwner_latch (s : State) (n : Nat) (x : Owner) : (s.setOwner n x).latch = s.latch := rfl
@[simp] theorem State.setOwner_cur (s : State) (n : Nat) (x : Owner) : (s.setOwner n x).cur = s.cur := rfl
@[simp] theorem State.setOwner_tick (s : State) (n : Nat) (x : Owner) : (s.setOwner n x).tick = s.tick := rfl
@[simp] theorem State.setOwner_seqs (s : State) (n : Nat) (x : Owner) : (s.setOwner n x).seqs = s.seqs := rfl
@[simp] theorem State.setOwner_cores (s : State) (n : Nat) (x : Owner) : (s.setOwner n x).cores = s.cores := rfl
@[simp] theorem State.setOwner_clusters (s : State) (n : Nat) (x : Owner) : (s.setOwner n x).clusters = s.clusters := rfl
@[simp] theorem State.setOwner_dies (s : State) (n : Nat) (x : Owner) : (s.setOwner n x).dies = s.dies := rfl
@[simp] theorem State.setOwner_mem (s : State) (n : Nat) (x : Owner) : (s.setOwner n x).mem = s.mem := rfl
@[simp] theorem State.setOwner_hal (s : State) (n : Nat) (x : Owner) : (s.setOwner n x).hal = s.hal := rfl
@[simp] theorem State.setOwner_ctxs (s : State) (n : Nat) (x : Owner) : (s.setOwner n x).ctxs = s.ctxs := rfl
@[simp] theorem State.setOwner_groups (s : State) (n : Nat) (x : Owner) : (s.setOwner n x).groups = s.groups := rfl
@[simp] theorem State.setOwner_queues (s : State) (n : Nat) (x : Owner) : (s.setOwner n x).queues = s.queues := rfl
@[simp] theorem State.setOwner_cursors (s : State) (n : Nat) (x : Owner) : (s.setOwner n x).cursors = s.cursors := rfl
@[simp] theorem State.setOwner_served (s : State) (n : Nat) (x : Owner) : (s.setOwner n x).served = s.served := rfl
@[simp] theorem State.setOwner_launches (s : State) (n : Nat) (x : Owner) : (s.setOwner n x).launches = s.launches := rfl
@[simp] theorem State.setOwner_mast (s : State) (n : Nat) (x : Owner) : (s.setOwner n x).mast = s.mast := rfl
@[simp] theorem State.setOwner_link (s : State) (n : Nat) (x : Owner) : (s.setOwner n x).link = s.link := rfl

@[simp] theorem State.setMe_owed (s : State) (x : Seq) : (s.setMe x).owed = s.owed := rfl
@[simp] theorem State.setMe_clock (s : State) (x : Seq) : (s.setMe x).clock = s.clock := rfl
@[simp] theorem State.setMe_agenda (s : State) (x : Seq) : (s.setMe x).agenda = s.agenda := rfl
@[simp] theorem State.setMe_latch (s : State) (x : Seq) : (s.setMe x).latch = s.latch := rfl
@[simp] theorem State.setMe_cur (s : State) (x : Seq) : (s.setMe x).cur = s.cur := rfl
@[simp] theorem State.setMe_tick (s : State) (x : Seq) : (s.setMe x).tick = s.tick := rfl
@[simp] theorem State.setMe_cores (s : State) (x : Seq) : (s.setMe x).cores = s.cores := rfl
@[simp] theorem State.setMe_clusters (s : State) (x : Seq) : (s.setMe x).clusters = s.clusters := rfl
@[simp] theorem State.setMe_dies (s : State) (x : Seq) : (s.setMe x).dies = s.dies := rfl
@[simp] theorem State.setMe_mem (s : State) (x : Seq) : (s.setMe x).mem = s.mem := rfl
@[simp] theorem State.setMe_hal (s : State) (x : Seq) : (s.setMe x).hal = s.hal := rfl
@[simp] theorem State.setMe_ctxs (s : State) (x : Seq) : (s.setMe x).ctxs = s.ctxs := rfl
@[simp] theorem State.setMe_groups (s : State) (x : Seq) : (s.setMe x).groups = s.groups := rfl
@[simp] theorem State.setMe_queues (s : State) (x : Seq) : (s.setMe x).queues = s.queues := rfl
@[simp] theorem State.setMe_owners (s : State) (x : Seq) : (s.setMe x).owners = s.owners := rfl
@[simp] theorem State.setMe_cursors (s : State) (x : Seq) : (s.setMe x).cursors = s.cursors := rfl
@[simp] theorem State.setMe_served (s : State) (x : Seq) : (s.setMe x).served = s.served := rfl
@[simp] theorem State.setMe_launches (s : State) (x : Seq) : (s.setMe x).launches = s.launches := rfl
@[simp] theorem State.setMe_mast (s : State) (x : Seq) : (s.setMe x).mast = s.mast := rfl
@[simp] theorem State.setMe_link (s : State) (x : Seq) : (s.setMe x).link = s.link := rfl

@[simp] theorem State.ws_owed (s : State) (n : BitVec 6) (w : Word) : (s.ws n w).owed = s.owed := rfl
@[simp] theorem State.ws_clock (s : State) (n : BitVec 6) (w : Word) : (s.ws n w).clock = s.clock := rfl
@[simp] theorem State.ws_agenda (s : State) (n : BitVec 6) (w : Word) : (s.ws n w).agenda = s.agenda := rfl
@[simp] theorem State.ws_latch (s : State) (n : BitVec 6) (w : Word) : (s.ws n w).latch = s.latch := rfl
@[simp] theorem State.ws_cur (s : State) (n : BitVec 6) (w : Word) : (s.ws n w).cur = s.cur := rfl
@[simp] theorem State.ws_tick (s : State) (n : BitVec 6) (w : Word) : (s.ws n w).tick = s.tick := rfl
@[simp] theorem State.ws_cores (s : State) (n : BitVec 6) (w : Word) : (s.ws n w).cores = s.cores := rfl
@[simp] theorem State.ws_clusters (s : State) (n : BitVec 6) (w : Word) : (s.ws n w).clusters = s.clusters := rfl
@[simp] theorem State.ws_dies (s : State) (n : BitVec 6) (w : Word) : (s.ws n w).dies = s.dies := rfl
@[simp] theorem State.ws_mem (s : State) (n : BitVec 6) (w : Word) : (s.ws n w).mem = s.mem := rfl
@[simp] theorem State.ws_hal (s : State) (n : BitVec 6) (w : Word) : (s.ws n w).hal = s.hal := rfl
@[simp] theorem State.ws_ctxs (s : State) (n : BitVec 6) (w : Word) : (s.ws n w).ctxs = s.ctxs := rfl
@[simp] theorem State.ws_groups (s : State) (n : BitVec 6) (w : Word) : (s.ws n w).groups = s.groups := rfl
@[simp] theorem State.ws_queues (s : State) (n : BitVec 6) (w : Word) : (s.ws n w).queues = s.queues := rfl
@[simp] theorem State.ws_owners (s : State) (n : BitVec 6) (w : Word) : (s.ws n w).owners = s.owners := rfl
@[simp] theorem State.ws_cursors (s : State) (n : BitVec 6) (w : Word) : (s.ws n w).cursors = s.cursors := rfl
@[simp] theorem State.ws_served (s : State) (n : BitVec 6) (w : Word) : (s.ws n w).served = s.served := rfl
@[simp] theorem State.ws_launches (s : State) (n : BitVec 6) (w : Word) : (s.ws n w).launches = s.launches := rfl
@[simp] theorem State.ws_mast (s : State) (n : BitVec 6) (w : Word) : (s.ws n w).mast = s.mast := rfl
@[simp] theorem State.ws_link (s : State) (n : BitVec 6) (w : Word) : (s.ws n w).link = s.link := rfl

@[simp] theorem State.wp_owed (s : State) (n : BitVec 7) (x : BitVec 32) : (s.wp n x).owed = s.owed := rfl
@[simp] theorem State.wp_clock (s : State) (n : BitVec 7) (x : BitVec 32) : (s.wp n x).clock = s.clock := rfl
@[simp] theorem State.wp_agenda (s : State) (n : BitVec 7) (x : BitVec 32) : (s.wp n x).agenda = s.agenda := rfl
@[simp] theorem State.wp_latch (s : State) (n : BitVec 7) (x : BitVec 32) : (s.wp n x).latch = s.latch := rfl
@[simp] theorem State.wp_cur (s : State) (n : BitVec 7) (x : BitVec 32) : (s.wp n x).cur = s.cur := rfl
@[simp] theorem State.wp_tick (s : State) (n : BitVec 7) (x : BitVec 32) : (s.wp n x).tick = s.tick := rfl
@[simp] theorem State.wp_cores (s : State) (n : BitVec 7) (x : BitVec 32) : (s.wp n x).cores = s.cores := rfl
@[simp] theorem State.wp_clusters (s : State) (n : BitVec 7) (x : BitVec 32) : (s.wp n x).clusters = s.clusters := rfl
@[simp] theorem State.wp_dies (s : State) (n : BitVec 7) (x : BitVec 32) : (s.wp n x).dies = s.dies := rfl
@[simp] theorem State.wp_mem (s : State) (n : BitVec 7) (x : BitVec 32) : (s.wp n x).mem = s.mem := rfl
@[simp] theorem State.wp_hal (s : State) (n : BitVec 7) (x : BitVec 32) : (s.wp n x).hal = s.hal := rfl
@[simp] theorem State.wp_ctxs (s : State) (n : BitVec 7) (x : BitVec 32) : (s.wp n x).ctxs = s.ctxs := rfl
@[simp] theorem State.wp_groups (s : State) (n : BitVec 7) (x : BitVec 32) : (s.wp n x).groups = s.groups := rfl
@[simp] theorem State.wp_queues (s : State) (n : BitVec 7) (x : BitVec 32) : (s.wp n x).queues = s.queues := rfl
@[simp] theorem State.wp_owners (s : State) (n : BitVec 7) (x : BitVec 32) : (s.wp n x).owners = s.owners := rfl
@[simp] theorem State.wp_cursors (s : State) (n : BitVec 7) (x : BitVec 32) : (s.wp n x).cursors = s.cursors := rfl
@[simp] theorem State.wp_served (s : State) (n : BitVec 7) (x : BitVec 32) : (s.wp n x).served = s.served := rfl
@[simp] theorem State.wp_launches (s : State) (n : BitVec 7) (x : BitVec 32) : (s.wp n x).launches = s.launches := rfl
@[simp] theorem State.wp_mast (s : State) (n : BitVec 7) (x : BitVec 32) : (s.wp n x).mast = s.mast := rfl
@[simp] theorem State.wp_link (s : State) (n : BitVec 7) (x : BitVec 32) : (s.wp n x).link = s.link := rfl

@[simp] theorem State.wv_owed (s : State) (n : BitVec 5) (x : BitVec 1024) : (s.wv n x).owed = s.owed := rfl
@[simp] theorem State.wv_clock (s : State) (n : BitVec 5) (x : BitVec 1024) : (s.wv n x).clock = s.clock := rfl
@[simp] theorem State.wv_agenda (s : State) (n : BitVec 5) (x : BitVec 1024) : (s.wv n x).agenda = s.agenda := rfl
@[simp] theorem State.wv_latch (s : State) (n : BitVec 5) (x : BitVec 1024) : (s.wv n x).latch = s.latch := rfl
@[simp] theorem State.wv_cur (s : State) (n : BitVec 5) (x : BitVec 1024) : (s.wv n x).cur = s.cur := rfl
@[simp] theorem State.wv_tick (s : State) (n : BitVec 5) (x : BitVec 1024) : (s.wv n x).tick = s.tick := rfl
@[simp] theorem State.wv_cores (s : State) (n : BitVec 5) (x : BitVec 1024) : (s.wv n x).cores = s.cores := rfl
@[simp] theorem State.wv_clusters (s : State) (n : BitVec 5) (x : BitVec 1024) : (s.wv n x).clusters = s.clusters := rfl
@[simp] theorem State.wv_dies (s : State) (n : BitVec 5) (x : BitVec 1024) : (s.wv n x).dies = s.dies := rfl
@[simp] theorem State.wv_mem (s : State) (n : BitVec 5) (x : BitVec 1024) : (s.wv n x).mem = s.mem := rfl
@[simp] theorem State.wv_hal (s : State) (n : BitVec 5) (x : BitVec 1024) : (s.wv n x).hal = s.hal := rfl
@[simp] theorem State.wv_ctxs (s : State) (n : BitVec 5) (x : BitVec 1024) : (s.wv n x).ctxs = s.ctxs := rfl
@[simp] theorem State.wv_groups (s : State) (n : BitVec 5) (x : BitVec 1024) : (s.wv n x).groups = s.groups := rfl
@[simp] theorem State.wv_queues (s : State) (n : BitVec 5) (x : BitVec 1024) : (s.wv n x).queues = s.queues := rfl
@[simp] theorem State.wv_owners (s : State) (n : BitVec 5) (x : BitVec 1024) : (s.wv n x).owners = s.owners := rfl
@[simp] theorem State.wv_cursors (s : State) (n : BitVec 5) (x : BitVec 1024) : (s.wv n x).cursors = s.cursors := rfl
@[simp] theorem State.wv_served (s : State) (n : BitVec 5) (x : BitVec 1024) : (s.wv n x).served = s.served := rfl
@[simp] theorem State.wv_launches (s : State) (n : BitVec 5) (x : BitVec 1024) : (s.wv n x).launches = s.launches := rfl
@[simp] theorem State.wv_mast (s : State) (n : BitVec 5) (x : BitVec 1024) : (s.wv n x).mast = s.mast := rfl
@[simp] theorem State.wv_link (s : State) (n : BitVec 5) (x : BitVec 1024) : (s.wv n x).link = s.link := rfl

@[simp] theorem State.setCtl_owed (s : State) (c : Ctl) : (s.setCtl c).owed = s.owed := rfl
@[simp] theorem State.setCtl_clock (s : State) (c : Ctl) : (s.setCtl c).clock = s.clock := rfl
@[simp] theorem State.setCtl_agenda (s : State) (c : Ctl) : (s.setCtl c).agenda = s.agenda := rfl
@[simp] theorem State.setCtl_latch (s : State) (c : Ctl) : (s.setCtl c).latch = s.latch := rfl
@[simp] theorem State.setCtl_cur (s : State) (c : Ctl) : (s.setCtl c).cur = s.cur := rfl
@[simp] theorem State.setCtl_tick (s : State) (c : Ctl) : (s.setCtl c).tick = s.tick := rfl
@[simp] theorem State.setCtl_cores (s : State) (c : Ctl) : (s.setCtl c).cores = s.cores := rfl
@[simp] theorem State.setCtl_clusters (s : State) (c : Ctl) : (s.setCtl c).clusters = s.clusters := rfl
@[simp] theorem State.setCtl_dies (s : State) (c : Ctl) : (s.setCtl c).dies = s.dies := rfl
@[simp] theorem State.setCtl_mem (s : State) (c : Ctl) : (s.setCtl c).mem = s.mem := rfl
@[simp] theorem State.setCtl_hal (s : State) (c : Ctl) : (s.setCtl c).hal = s.hal := rfl
@[simp] theorem State.setCtl_ctxs (s : State) (c : Ctl) : (s.setCtl c).ctxs = s.ctxs := rfl
@[simp] theorem State.setCtl_groups (s : State) (c : Ctl) : (s.setCtl c).groups = s.groups := rfl
@[simp] theorem State.setCtl_queues (s : State) (c : Ctl) : (s.setCtl c).queues = s.queues := rfl
@[simp] theorem State.setCtl_owners (s : State) (c : Ctl) : (s.setCtl c).owners = s.owners := rfl
@[simp] theorem State.setCtl_cursors (s : State) (c : Ctl) : (s.setCtl c).cursors = s.cursors := rfl
@[simp] theorem State.setCtl_served (s : State) (c : Ctl) : (s.setCtl c).served = s.served := rfl
@[simp] theorem State.setCtl_launches (s : State) (c : Ctl) : (s.setCtl c).launches = s.launches := rfl
@[simp] theorem State.setCtl_mast (s : State) (c : Ctl) : (s.setCtl c).mast = s.mast := rfl
@[simp] theorem State.setCtl_link (s : State) (c : Ctl) : (s.setCtl c).link = s.link := rfl

@[simp] theorem State.setFlight_owed (s : State) (f : Flight) : (s.setFlight f).owed = s.owed := rfl
@[simp] theorem State.setFlight_clock (s : State) (f : Flight) : (s.setFlight f).clock = s.clock := rfl
@[simp] theorem State.setFlight_agenda (s : State) (f : Flight) : (s.setFlight f).agenda = s.agenda := rfl
@[simp] theorem State.setFlight_latch (s : State) (f : Flight) : (s.setFlight f).latch = s.latch := rfl
@[simp] theorem State.setFlight_cur (s : State) (f : Flight) : (s.setFlight f).cur = s.cur := rfl
@[simp] theorem State.setFlight_tick (s : State) (f : Flight) : (s.setFlight f).tick = s.tick := rfl
@[simp] theorem State.setFlight_cores (s : State) (f : Flight) : (s.setFlight f).cores = s.cores := rfl
@[simp] theorem State.setFlight_clusters (s : State) (f : Flight) : (s.setFlight f).clusters = s.clusters := rfl
@[simp] theorem State.setFlight_dies (s : State) (f : Flight) : (s.setFlight f).dies = s.dies := rfl
@[simp] theorem State.setFlight_mem (s : State) (f : Flight) : (s.setFlight f).mem = s.mem := rfl
@[simp] theorem State.setFlight_hal (s : State) (f : Flight) : (s.setFlight f).hal = s.hal := rfl
@[simp] theorem State.setFlight_ctxs (s : State) (f : Flight) : (s.setFlight f).ctxs = s.ctxs := rfl
@[simp] theorem State.setFlight_groups (s : State) (f : Flight) : (s.setFlight f).groups = s.groups := rfl
@[simp] theorem State.setFlight_queues (s : State) (f : Flight) : (s.setFlight f).queues = s.queues := rfl
@[simp] theorem State.setFlight_owners (s : State) (f : Flight) : (s.setFlight f).owners = s.owners := rfl
@[simp] theorem State.setFlight_cursors (s : State) (f : Flight) : (s.setFlight f).cursors = s.cursors := rfl
@[simp] theorem State.setFlight_served (s : State) (f : Flight) : (s.setFlight f).served = s.served := rfl
@[simp] theorem State.setFlight_launches (s : State) (f : Flight) : (s.setFlight f).launches = s.launches := rfl
@[simp] theorem State.setFlight_mast (s : State) (f : Flight) : (s.setFlight f).mast = s.mast := rfl
@[simp] theorem State.setFlight_link (s : State) (f : Flight) : (s.setFlight f).link = s.link := rfl

@[simp] theorem State.setRegs_owed (s : State) (r : Regs) : (s.setRegs r).owed = s.owed := rfl
@[simp] theorem State.setRegs_clock (s : State) (r : Regs) : (s.setRegs r).clock = s.clock := rfl
@[simp] theorem State.setRegs_agenda (s : State) (r : Regs) : (s.setRegs r).agenda = s.agenda := rfl
@[simp] theorem State.setRegs_latch (s : State) (r : Regs) : (s.setRegs r).latch = s.latch := rfl
@[simp] theorem State.setRegs_cur (s : State) (r : Regs) : (s.setRegs r).cur = s.cur := rfl
@[simp] theorem State.setRegs_tick (s : State) (r : Regs) : (s.setRegs r).tick = s.tick := rfl
@[simp] theorem State.setRegs_cores (s : State) (r : Regs) : (s.setRegs r).cores = s.cores := rfl
@[simp] theorem State.setRegs_clusters (s : State) (r : Regs) : (s.setRegs r).clusters = s.clusters := rfl
@[simp] theorem State.setRegs_dies (s : State) (r : Regs) : (s.setRegs r).dies = s.dies := rfl
@[simp] theorem State.setRegs_mem (s : State) (r : Regs) : (s.setRegs r).mem = s.mem := rfl
@[simp] theorem State.setRegs_hal (s : State) (r : Regs) : (s.setRegs r).hal = s.hal := rfl
@[simp] theorem State.setRegs_ctxs (s : State) (r : Regs) : (s.setRegs r).ctxs = s.ctxs := rfl
@[simp] theorem State.setRegs_groups (s : State) (r : Regs) : (s.setRegs r).groups = s.groups := rfl
@[simp] theorem State.setRegs_queues (s : State) (r : Regs) : (s.setRegs r).queues = s.queues := rfl
@[simp] theorem State.setRegs_owners (s : State) (r : Regs) : (s.setRegs r).owners = s.owners := rfl
@[simp] theorem State.setRegs_cursors (s : State) (r : Regs) : (s.setRegs r).cursors = s.cursors := rfl
@[simp] theorem State.setRegs_served (s : State) (r : Regs) : (s.setRegs r).served = s.served := rfl
@[simp] theorem State.setRegs_launches (s : State) (r : Regs) : (s.setRegs r).launches = s.launches := rfl
@[simp] theorem State.setRegs_mast (s : State) (r : Regs) : (s.setRegs r).mast = s.mast := rfl
@[simp] theorem State.setRegs_link (s : State) (r : Regs) : (s.setRegs r).link = s.link := rfl

@[simp] theorem State.setDram_owed (s : State) (m : Mem) : (s.setDram m).owed = s.owed := rfl
@[simp] theorem State.setDram_clock (s : State) (m : Mem) : (s.setDram m).clock = s.clock := rfl
@[simp] theorem State.setDram_agenda (s : State) (m : Mem) : (s.setDram m).agenda = s.agenda := rfl
@[simp] theorem State.setDram_latch (s : State) (m : Mem) : (s.setDram m).latch = s.latch := rfl
@[simp] theorem State.setDram_cur (s : State) (m : Mem) : (s.setDram m).cur = s.cur := rfl
@[simp] theorem State.setDram_tick (s : State) (m : Mem) : (s.setDram m).tick = s.tick := rfl
@[simp] theorem State.setDram_seqs (s : State) (m : Mem) : (s.setDram m).seqs = s.seqs := rfl
@[simp] theorem State.setDram_cores (s : State) (m : Mem) : (s.setDram m).cores = s.cores := rfl
@[simp] theorem State.setDram_clusters (s : State) (m : Mem) : (s.setDram m).clusters = s.clusters := rfl
@[simp] theorem State.setDram_dies (s : State) (m : Mem) : (s.setDram m).dies = s.dies := rfl
@[simp] theorem State.setDram_hal (s : State) (m : Mem) : (s.setDram m).hal = s.hal := rfl
@[simp] theorem State.setDram_ctxs (s : State) (m : Mem) : (s.setDram m).ctxs = s.ctxs := rfl
@[simp] theorem State.setDram_groups (s : State) (m : Mem) : (s.setDram m).groups = s.groups := rfl
@[simp] theorem State.setDram_queues (s : State) (m : Mem) : (s.setDram m).queues = s.queues := rfl
@[simp] theorem State.setDram_owners (s : State) (m : Mem) : (s.setDram m).owners = s.owners := rfl
@[simp] theorem State.setDram_cursors (s : State) (m : Mem) : (s.setDram m).cursors = s.cursors := rfl
@[simp] theorem State.setDram_served (s : State) (m : Mem) : (s.setDram m).served = s.served := rfl
@[simp] theorem State.setDram_launches (s : State) (m : Mem) : (s.setDram m).launches = s.launches := rfl
@[simp] theorem State.setDram_mast (s : State) (m : Mem) : (s.setDram m).mast = s.mast := rfl
@[simp] theorem State.setDram_link (s : State) (m : Mem) : (s.setDram m).link = s.link := rfl

@[simp] theorem State.retireOcc_owed (s : State) (occ : Nat) : (s.retireOcc occ).owed = s.owed := rfl
@[simp] theorem State.retireOcc_clock (s : State) (occ : Nat) : (s.retireOcc occ).clock = s.clock := rfl
@[simp] theorem State.retireOcc_agenda (s : State) (occ : Nat) : (s.retireOcc occ).agenda = s.agenda := rfl
@[simp] theorem State.retireOcc_latch (s : State) (occ : Nat) : (s.retireOcc occ).latch = s.latch := rfl
@[simp] theorem State.retireOcc_tick (s : State) (occ : Nat) : (s.retireOcc occ).tick = s.tick := rfl
@[simp] theorem State.retireOcc_cores (s : State) (occ : Nat) : (s.retireOcc occ).cores = s.cores := rfl
@[simp] theorem State.retireOcc_clusters (s : State) (occ : Nat) : (s.retireOcc occ).clusters = s.clusters := rfl
@[simp] theorem State.retireOcc_dies (s : State) (occ : Nat) : (s.retireOcc occ).dies = s.dies := rfl
@[simp] theorem State.retireOcc_mem (s : State) (occ : Nat) : (s.retireOcc occ).mem = s.mem := rfl
@[simp] theorem State.retireOcc_hal (s : State) (occ : Nat) : (s.retireOcc occ).hal = s.hal := rfl
@[simp] theorem State.retireOcc_ctxs (s : State) (occ : Nat) : (s.retireOcc occ).ctxs = s.ctxs := rfl
@[simp] theorem State.retireOcc_groups (s : State) (occ : Nat) : (s.retireOcc occ).groups = s.groups := rfl
@[simp] theorem State.retireOcc_queues (s : State) (occ : Nat) : (s.retireOcc occ).queues = s.queues := rfl
@[simp] theorem State.retireOcc_owners (s : State) (occ : Nat) : (s.retireOcc occ).owners = s.owners := rfl
@[simp] theorem State.retireOcc_cursors (s : State) (occ : Nat) : (s.retireOcc occ).cursors = s.cursors := rfl
@[simp] theorem State.retireOcc_served (s : State) (occ : Nat) : (s.retireOcc occ).served = s.served := rfl
@[simp] theorem State.retireOcc_launches (s : State) (occ : Nat) : (s.retireOcc occ).launches = s.launches := rfl
@[simp] theorem State.retireOcc_mast (s : State) (occ : Nat) : (s.retireOcc occ).mast = s.mast := rfl
@[simp] theorem State.retireOcc_link (s : State) (occ : Nat) : (s.retireOcc occ).link = s.link := rfl

@[simp] theorem State.retire_owed (s : State) : (s.retire).owed = s.owed := rfl
@[simp] theorem State.retire_clock (s : State) : (s.retire).clock = s.clock := rfl
@[simp] theorem State.retire_agenda (s : State) : (s.retire).agenda = s.agenda := rfl
@[simp] theorem State.retire_latch (s : State) : (s.retire).latch = s.latch := rfl
@[simp] theorem State.retire_tick (s : State) : (s.retire).tick = s.tick := rfl
@[simp] theorem State.retire_cores (s : State) : (s.retire).cores = s.cores := rfl
@[simp] theorem State.retire_clusters (s : State) : (s.retire).clusters = s.clusters := rfl
@[simp] theorem State.retire_dies (s : State) : (s.retire).dies = s.dies := rfl
@[simp] theorem State.retire_mem (s : State) : (s.retire).mem = s.mem := rfl
@[simp] theorem State.retire_hal (s : State) : (s.retire).hal = s.hal := rfl
@[simp] theorem State.retire_ctxs (s : State) : (s.retire).ctxs = s.ctxs := rfl
@[simp] theorem State.retire_groups (s : State) : (s.retire).groups = s.groups := rfl
@[simp] theorem State.retire_queues (s : State) : (s.retire).queues = s.queues := rfl
@[simp] theorem State.retire_owners (s : State) : (s.retire).owners = s.owners := rfl
@[simp] theorem State.retire_cursors (s : State) : (s.retire).cursors = s.cursors := rfl
@[simp] theorem State.retire_served (s : State) : (s.retire).served = s.served := rfl
@[simp] theorem State.retire_launches (s : State) : (s.retire).launches = s.launches := rfl
@[simp] theorem State.retire_mast (s : State) : (s.retire).mast = s.mast := rfl
@[simp] theorem State.retire_link (s : State) : (s.retire).link = s.link := rfl

@[simp] theorem State.transfer_owed (s : State) (t : Word) : (s.transfer t).owed = s.owed := rfl
@[simp] theorem State.transfer_clock (s : State) (t : Word) : (s.transfer t).clock = s.clock := rfl
@[simp] theorem State.transfer_agenda (s : State) (t : Word) : (s.transfer t).agenda = s.agenda := rfl
@[simp] theorem State.transfer_latch (s : State) (t : Word) : (s.transfer t).latch = s.latch := rfl
@[simp] theorem State.transfer_cur (s : State) (t : Word) : (s.transfer t).cur = s.cur := rfl
@[simp] theorem State.transfer_tick (s : State) (t : Word) : (s.transfer t).tick = s.tick := rfl
@[simp] theorem State.transfer_cores (s : State) (t : Word) : (s.transfer t).cores = s.cores := rfl
@[simp] theorem State.transfer_clusters (s : State) (t : Word) : (s.transfer t).clusters = s.clusters := rfl
@[simp] theorem State.transfer_dies (s : State) (t : Word) : (s.transfer t).dies = s.dies := rfl
@[simp] theorem State.transfer_mem (s : State) (t : Word) : (s.transfer t).mem = s.mem := rfl
@[simp] theorem State.transfer_hal (s : State) (t : Word) : (s.transfer t).hal = s.hal := rfl
@[simp] theorem State.transfer_ctxs (s : State) (t : Word) : (s.transfer t).ctxs = s.ctxs := rfl
@[simp] theorem State.transfer_groups (s : State) (t : Word) : (s.transfer t).groups = s.groups := rfl
@[simp] theorem State.transfer_queues (s : State) (t : Word) : (s.transfer t).queues = s.queues := rfl
@[simp] theorem State.transfer_owners (s : State) (t : Word) : (s.transfer t).owners = s.owners := rfl
@[simp] theorem State.transfer_cursors (s : State) (t : Word) : (s.transfer t).cursors = s.cursors := rfl
@[simp] theorem State.transfer_served (s : State) (t : Word) : (s.transfer t).served = s.served := rfl
@[simp] theorem State.transfer_launches (s : State) (t : Word) : (s.transfer t).launches = s.launches := rfl
@[simp] theorem State.transfer_mast (s : State) (t : Word) : (s.transfer t).mast = s.mast := rfl
@[simp] theorem State.transfer_link (s : State) (t : Word) : (s.transfer t).link = s.link := rfl

@[simp] theorem State.writePair_owed (s : State) (n : BitVec 6) (c : Bool) : (s.writePair n c).owed = s.owed := rfl
@[simp] theorem State.writePair_clock (s : State) (n : BitVec 6) (c : Bool) : (s.writePair n c).clock = s.clock := rfl
@[simp] theorem State.writePair_agenda (s : State) (n : BitVec 6) (c : Bool) : (s.writePair n c).agenda = s.agenda := rfl
@[simp] theorem State.writePair_latch (s : State) (n : BitVec 6) (c : Bool) : (s.writePair n c).latch = s.latch := rfl
@[simp] theorem State.writePair_cur (s : State) (n : BitVec 6) (c : Bool) : (s.writePair n c).cur = s.cur := rfl
@[simp] theorem State.writePair_tick (s : State) (n : BitVec 6) (c : Bool) : (s.writePair n c).tick = s.tick := rfl
@[simp] theorem State.writePair_cores (s : State) (n : BitVec 6) (c : Bool) : (s.writePair n c).cores = s.cores := rfl
@[simp] theorem State.writePair_clusters (s : State) (n : BitVec 6) (c : Bool) : (s.writePair n c).clusters = s.clusters := rfl
@[simp] theorem State.writePair_dies (s : State) (n : BitVec 6) (c : Bool) : (s.writePair n c).dies = s.dies := rfl
@[simp] theorem State.writePair_mem (s : State) (n : BitVec 6) (c : Bool) : (s.writePair n c).mem = s.mem := rfl
@[simp] theorem State.writePair_hal (s : State) (n : BitVec 6) (c : Bool) : (s.writePair n c).hal = s.hal := rfl
@[simp] theorem State.writePair_ctxs (s : State) (n : BitVec 6) (c : Bool) : (s.writePair n c).ctxs = s.ctxs := rfl
@[simp] theorem State.writePair_groups (s : State) (n : BitVec 6) (c : Bool) : (s.writePair n c).groups = s.groups := rfl
@[simp] theorem State.writePair_queues (s : State) (n : BitVec 6) (c : Bool) : (s.writePair n c).queues = s.queues := rfl
@[simp] theorem State.writePair_owners (s : State) (n : BitVec 6) (c : Bool) : (s.writePair n c).owners = s.owners := rfl
@[simp] theorem State.writePair_cursors (s : State) (n : BitVec 6) (c : Bool) : (s.writePair n c).cursors = s.cursors := rfl
@[simp] theorem State.writePair_served (s : State) (n : BitVec 6) (c : Bool) : (s.writePair n c).served = s.served := rfl
@[simp] theorem State.writePair_launches (s : State) (n : BitVec 6) (c : Bool) : (s.writePair n c).launches = s.launches := rfl
@[simp] theorem State.writePair_mast (s : State) (n : BitVec 6) (c : Bool) : (s.writePair n c).mast = s.mast := rfl
@[simp] theorem State.writePair_link (s : State) (n : BitVec 6) (c : Bool) : (s.writePair n c).link = s.link := rfl

@[simp] theorem State.awaitS_owed (s : State) (d : BitVec 6) (w : Word) : (s.awaitS d w).owed = s.owed := rfl
@[simp] theorem State.awaitS_clock (s : State) (d : BitVec 6) (w : Word) : (s.awaitS d w).clock = s.clock := rfl
@[simp] theorem State.awaitS_agenda (s : State) (d : BitVec 6) (w : Word) : (s.awaitS d w).agenda = s.agenda := rfl
@[simp] theorem State.awaitS_latch (s : State) (d : BitVec 6) (w : Word) : (s.awaitS d w).latch = s.latch := rfl
@[simp] theorem State.awaitS_cur (s : State) (d : BitVec 6) (w : Word) : (s.awaitS d w).cur = s.cur := rfl
@[simp] theorem State.awaitS_tick (s : State) (d : BitVec 6) (w : Word) : (s.awaitS d w).tick = s.tick := rfl
@[simp] theorem State.awaitS_cores (s : State) (d : BitVec 6) (w : Word) : (s.awaitS d w).cores = s.cores := rfl
@[simp] theorem State.awaitS_clusters (s : State) (d : BitVec 6) (w : Word) : (s.awaitS d w).clusters = s.clusters := rfl
@[simp] theorem State.awaitS_dies (s : State) (d : BitVec 6) (w : Word) : (s.awaitS d w).dies = s.dies := rfl
@[simp] theorem State.awaitS_mem (s : State) (d : BitVec 6) (w : Word) : (s.awaitS d w).mem = s.mem := rfl
@[simp] theorem State.awaitS_hal (s : State) (d : BitVec 6) (w : Word) : (s.awaitS d w).hal = s.hal := rfl
@[simp] theorem State.awaitS_ctxs (s : State) (d : BitVec 6) (w : Word) : (s.awaitS d w).ctxs = s.ctxs := rfl
@[simp] theorem State.awaitS_groups (s : State) (d : BitVec 6) (w : Word) : (s.awaitS d w).groups = s.groups := rfl
@[simp] theorem State.awaitS_queues (s : State) (d : BitVec 6) (w : Word) : (s.awaitS d w).queues = s.queues := rfl
@[simp] theorem State.awaitS_owners (s : State) (d : BitVec 6) (w : Word) : (s.awaitS d w).owners = s.owners := rfl
@[simp] theorem State.awaitS_cursors (s : State) (d : BitVec 6) (w : Word) : (s.awaitS d w).cursors = s.cursors := rfl
@[simp] theorem State.awaitS_served (s : State) (d : BitVec 6) (w : Word) : (s.awaitS d w).served = s.served := rfl
@[simp] theorem State.awaitS_launches (s : State) (d : BitVec 6) (w : Word) : (s.awaitS d w).launches = s.launches := rfl
@[simp] theorem State.awaitS_mast (s : State) (d : BitVec 6) (w : Word) : (s.awaitS d w).mast = s.mast := rfl
@[simp] theorem State.awaitS_link (s : State) (d : BitVec 6) (w : Word) : (s.awaitS d w).link = s.link := rfl

@[simp] theorem State.await_owed (s : State) (d : Dst) (v act : BitVec 1024) : (s.await d v act).owed = s.owed := rfl
@[simp] theorem State.await_clock (s : State) (d : Dst) (v act : BitVec 1024) : (s.await d v act).clock = s.clock := rfl
@[simp] theorem State.await_agenda (s : State) (d : Dst) (v act : BitVec 1024) : (s.await d v act).agenda = s.agenda := rfl
@[simp] theorem State.await_latch (s : State) (d : Dst) (v act : BitVec 1024) : (s.await d v act).latch = s.latch := rfl
@[simp] theorem State.await_cur (s : State) (d : Dst) (v act : BitVec 1024) : (s.await d v act).cur = s.cur := rfl
@[simp] theorem State.await_tick (s : State) (d : Dst) (v act : BitVec 1024) : (s.await d v act).tick = s.tick := rfl
@[simp] theorem State.await_cores (s : State) (d : Dst) (v act : BitVec 1024) : (s.await d v act).cores = s.cores := rfl
@[simp] theorem State.await_clusters (s : State) (d : Dst) (v act : BitVec 1024) : (s.await d v act).clusters = s.clusters := rfl
@[simp] theorem State.await_dies (s : State) (d : Dst) (v act : BitVec 1024) : (s.await d v act).dies = s.dies := rfl
@[simp] theorem State.await_mem (s : State) (d : Dst) (v act : BitVec 1024) : (s.await d v act).mem = s.mem := rfl
@[simp] theorem State.await_hal (s : State) (d : Dst) (v act : BitVec 1024) : (s.await d v act).hal = s.hal := rfl
@[simp] theorem State.await_ctxs (s : State) (d : Dst) (v act : BitVec 1024) : (s.await d v act).ctxs = s.ctxs := rfl
@[simp] theorem State.await_groups (s : State) (d : Dst) (v act : BitVec 1024) : (s.await d v act).groups = s.groups := rfl
@[simp] theorem State.await_queues (s : State) (d : Dst) (v act : BitVec 1024) : (s.await d v act).queues = s.queues := rfl
@[simp] theorem State.await_owners (s : State) (d : Dst) (v act : BitVec 1024) : (s.await d v act).owners = s.owners := rfl
@[simp] theorem State.await_cursors (s : State) (d : Dst) (v act : BitVec 1024) : (s.await d v act).cursors = s.cursors := rfl
@[simp] theorem State.await_served (s : State) (d : Dst) (v act : BitVec 1024) : (s.await d v act).served = s.served := rfl
@[simp] theorem State.await_launches (s : State) (d : Dst) (v act : BitVec 1024) : (s.await d v act).launches = s.launches := rfl
@[simp] theorem State.await_mast (s : State) (d : Dst) (v act : BitVec 1024) : (s.await d v act).mast = s.mast := rfl
@[simp] theorem State.await_link (s : State) (d : Dst) (v act : BitVec 1024) : (s.await d v act).link = s.link := rfl

@[simp] theorem State.sendHal_owed (s : State) (q c : Nat) (op : HalOp) : (s.sendHal q c op).owed = s.owed := rfl
@[simp] theorem State.sendHal_clock (s : State) (q c : Nat) (op : HalOp) : (s.sendHal q c op).clock = s.clock := rfl
@[simp] theorem State.sendHal_agenda (s : State) (q c : Nat) (op : HalOp) : (s.sendHal q c op).agenda = s.agenda := rfl
@[simp] theorem State.sendHal_latch (s : State) (q c : Nat) (op : HalOp) : (s.sendHal q c op).latch = s.latch := rfl
@[simp] theorem State.sendHal_cur (s : State) (q c : Nat) (op : HalOp) : (s.sendHal q c op).cur = s.cur := rfl
@[simp] theorem State.sendHal_tick (s : State) (q c : Nat) (op : HalOp) : (s.sendHal q c op).tick = s.tick := rfl
@[simp] theorem State.sendHal_seqs (s : State) (q c : Nat) (op : HalOp) : (s.sendHal q c op).seqs = s.seqs := rfl
@[simp] theorem State.sendHal_cores (s : State) (q c : Nat) (op : HalOp) : (s.sendHal q c op).cores = s.cores := rfl
@[simp] theorem State.sendHal_clusters (s : State) (q c : Nat) (op : HalOp) : (s.sendHal q c op).clusters = s.clusters := rfl
@[simp] theorem State.sendHal_dies (s : State) (q c : Nat) (op : HalOp) : (s.sendHal q c op).dies = s.dies := rfl
@[simp] theorem State.sendHal_mem (s : State) (q c : Nat) (op : HalOp) : (s.sendHal q c op).mem = s.mem := rfl
@[simp] theorem State.sendHal_ctxs (s : State) (q c : Nat) (op : HalOp) : (s.sendHal q c op).ctxs = s.ctxs := rfl
@[simp] theorem State.sendHal_groups (s : State) (q c : Nat) (op : HalOp) : (s.sendHal q c op).groups = s.groups := rfl
@[simp] theorem State.sendHal_queues (s : State) (q c : Nat) (op : HalOp) : (s.sendHal q c op).queues = s.queues := rfl
@[simp] theorem State.sendHal_owners (s : State) (q c : Nat) (op : HalOp) : (s.sendHal q c op).owners = s.owners := rfl
@[simp] theorem State.sendHal_cursors (s : State) (q c : Nat) (op : HalOp) : (s.sendHal q c op).cursors = s.cursors := rfl
@[simp] theorem State.sendHal_served (s : State) (q c : Nat) (op : HalOp) : (s.sendHal q c op).served = s.served := rfl
@[simp] theorem State.sendHal_launches (s : State) (q c : Nat) (op : HalOp) : (s.sendHal q c op).launches = s.launches := rfl
@[simp] theorem State.sendHal_mast (s : State) (q c : Nat) (op : HalOp) : (s.sendHal q c op).mast = s.mast := rfl
@[simp] theorem State.sendHal_link (s : State) (q c : Nat) (op : HalOp) : (s.sendHal q c op).link = s.link := rfl

@[simp] theorem State.setPennant_owed (s : State) (h : BitVec 32) (p : Pennant) : (s.setPennant h p).owed = s.owed := by
  unfold State.setPennant; split <;> rfl
@[simp] theorem State.setPennant_clock (s : State) (h : BitVec 32) (p : Pennant) : (s.setPennant h p).clock = s.clock := by
  unfold State.setPennant; split <;> rfl
@[simp] theorem State.setPennant_agenda (s : State) (h : BitVec 32) (p : Pennant) : (s.setPennant h p).agenda = s.agenda := by
  unfold State.setPennant; split <;> rfl
@[simp] theorem State.setPennant_latch (s : State) (h : BitVec 32) (p : Pennant) : (s.setPennant h p).latch = s.latch := by
  unfold State.setPennant; split <;> rfl
@[simp] theorem State.setPennant_cur (s : State) (h : BitVec 32) (p : Pennant) : (s.setPennant h p).cur = s.cur := by
  unfold State.setPennant; split <;> rfl
@[simp] theorem State.setPennant_tick (s : State) (h : BitVec 32) (p : Pennant) : (s.setPennant h p).tick = s.tick := by
  unfold State.setPennant; split <;> rfl
@[simp] theorem State.setPennant_seqs (s : State) (h : BitVec 32) (p : Pennant) : (s.setPennant h p).seqs = s.seqs := by
  unfold State.setPennant; split <;> rfl
@[simp] theorem State.setPennant_cores (s : State) (h : BitVec 32) (p : Pennant) : (s.setPennant h p).cores = s.cores := by
  unfold State.setPennant; split <;> rfl
@[simp] theorem State.setPennant_clusters (s : State) (h : BitVec 32) (p : Pennant) : (s.setPennant h p).clusters = s.clusters := by
  unfold State.setPennant; split <;> rfl
@[simp] theorem State.setPennant_hal (s : State) (h : BitVec 32) (p : Pennant) : (s.setPennant h p).hal = s.hal := by
  unfold State.setPennant; split <;> rfl
@[simp] theorem State.setPennant_ctxs (s : State) (h : BitVec 32) (p : Pennant) : (s.setPennant h p).ctxs = s.ctxs := by
  unfold State.setPennant; split <;> rfl
@[simp] theorem State.setPennant_groups (s : State) (h : BitVec 32) (p : Pennant) : (s.setPennant h p).groups = s.groups := by
  unfold State.setPennant; split <;> rfl
@[simp] theorem State.setPennant_queues (s : State) (h : BitVec 32) (p : Pennant) : (s.setPennant h p).queues = s.queues := by
  unfold State.setPennant; split <;> rfl
@[simp] theorem State.setPennant_owners (s : State) (h : BitVec 32) (p : Pennant) : (s.setPennant h p).owners = s.owners := by
  unfold State.setPennant; split <;> rfl
@[simp] theorem State.setPennant_cursors (s : State) (h : BitVec 32) (p : Pennant) : (s.setPennant h p).cursors = s.cursors := by
  unfold State.setPennant; split <;> rfl
@[simp] theorem State.setPennant_served (s : State) (h : BitVec 32) (p : Pennant) : (s.setPennant h p).served = s.served := by
  unfold State.setPennant; split <;> rfl
@[simp] theorem State.setPennant_launches (s : State) (h : BitVec 32) (p : Pennant) : (s.setPennant h p).launches = s.launches := by
  unfold State.setPennant; split <;> rfl
@[simp] theorem State.setPennant_mast (s : State) (h : BitVec 32) (p : Pennant) : (s.setPennant h p).mast = s.mast := by
  unfold State.setPennant; split <;> rfl
@[simp] theorem State.setPennant_link (s : State) (h : BitVec 32) (p : Pennant) : (s.setPennant h p).link = s.link := by
  unfold State.setPennant; split <;> rfl

@[simp] theorem State.setLaunch_owed (s : State) (l : Nat) (x : Launch) : (s.setLaunch l x).owed = s.owed := rfl
@[simp] theorem State.setLaunch_clock (s : State) (l : Nat) (x : Launch) : (s.setLaunch l x).clock = s.clock := rfl
@[simp] theorem State.setLaunch_agenda (s : State) (l : Nat) (x : Launch) : (s.setLaunch l x).agenda = s.agenda := rfl
@[simp] theorem State.setLaunch_latch (s : State) (l : Nat) (x : Launch) : (s.setLaunch l x).latch = s.latch := rfl
@[simp] theorem State.setLaunch_cur (s : State) (l : Nat) (x : Launch) : (s.setLaunch l x).cur = s.cur := rfl
@[simp] theorem State.setLaunch_tick (s : State) (l : Nat) (x : Launch) : (s.setLaunch l x).tick = s.tick := rfl
@[simp] theorem State.setLaunch_seqs (s : State) (l : Nat) (x : Launch) : (s.setLaunch l x).seqs = s.seqs := rfl
@[simp] theorem State.setLaunch_cores (s : State) (l : Nat) (x : Launch) : (s.setLaunch l x).cores = s.cores := rfl
@[simp] theorem State.setLaunch_clusters (s : State) (l : Nat) (x : Launch) : (s.setLaunch l x).clusters = s.clusters := rfl
@[simp] theorem State.setLaunch_dies (s : State) (l : Nat) (x : Launch) : (s.setLaunch l x).dies = s.dies := rfl
@[simp] theorem State.setLaunch_mem (s : State) (l : Nat) (x : Launch) : (s.setLaunch l x).mem = s.mem := rfl
@[simp] theorem State.setLaunch_hal (s : State) (l : Nat) (x : Launch) : (s.setLaunch l x).hal = s.hal := rfl
@[simp] theorem State.setLaunch_ctxs (s : State) (l : Nat) (x : Launch) : (s.setLaunch l x).ctxs = s.ctxs := rfl
@[simp] theorem State.setLaunch_groups (s : State) (l : Nat) (x : Launch) : (s.setLaunch l x).groups = s.groups := rfl
@[simp] theorem State.setLaunch_queues (s : State) (l : Nat) (x : Launch) : (s.setLaunch l x).queues = s.queues := rfl
@[simp] theorem State.setLaunch_owners (s : State) (l : Nat) (x : Launch) : (s.setLaunch l x).owners = s.owners := rfl
@[simp] theorem State.setLaunch_cursors (s : State) (l : Nat) (x : Launch) : (s.setLaunch l x).cursors = s.cursors := rfl
@[simp] theorem State.setLaunch_served (s : State) (l : Nat) (x : Launch) : (s.setLaunch l x).served = s.served := rfl
@[simp] theorem State.setLaunch_mast (s : State) (l : Nat) (x : Launch) : (s.setLaunch l x).mast = s.mast := rfl
@[simp] theorem State.setLaunch_link (s : State) (l : Nat) (x : Launch) : (s.setLaunch l x).link = s.link := rfl

@[simp] theorem State.setMail_owed (s : State) (f : Nat) (m : Mail) : (s.setMail f m).owed = s.owed := rfl
@[simp] theorem State.setMail_clock (s : State) (f : Nat) (m : Mail) : (s.setMail f m).clock = s.clock := rfl
@[simp] theorem State.setMail_agenda (s : State) (f : Nat) (m : Mail) : (s.setMail f m).agenda = s.agenda := rfl
@[simp] theorem State.setMail_latch (s : State) (f : Nat) (m : Mail) : (s.setMail f m).latch = s.latch := rfl
@[simp] theorem State.setMail_cur (s : State) (f : Nat) (m : Mail) : (s.setMail f m).cur = s.cur := rfl
@[simp] theorem State.setMail_tick (s : State) (f : Nat) (m : Mail) : (s.setMail f m).tick = s.tick := rfl
@[simp] theorem State.setMail_seqs (s : State) (f : Nat) (m : Mail) : (s.setMail f m).seqs = s.seqs := rfl
@[simp] theorem State.setMail_cores (s : State) (f : Nat) (m : Mail) : (s.setMail f m).cores = s.cores := rfl
@[simp] theorem State.setMail_clusters (s : State) (f : Nat) (m : Mail) : (s.setMail f m).clusters = s.clusters := rfl
@[simp] theorem State.setMail_dies (s : State) (f : Nat) (m : Mail) : (s.setMail f m).dies = s.dies := rfl
@[simp] theorem State.setMail_mem (s : State) (f : Nat) (m : Mail) : (s.setMail f m).mem = s.mem := rfl
@[simp] theorem State.setMail_hal (s : State) (f : Nat) (m : Mail) : (s.setMail f m).hal = s.hal := rfl
@[simp] theorem State.setMail_ctxs (s : State) (f : Nat) (m : Mail) : (s.setMail f m).ctxs = s.ctxs := rfl
@[simp] theorem State.setMail_groups (s : State) (f : Nat) (m : Mail) : (s.setMail f m).groups = s.groups := rfl
@[simp] theorem State.setMail_queues (s : State) (f : Nat) (m : Mail) : (s.setMail f m).queues = s.queues := rfl
@[simp] theorem State.setMail_owners (s : State) (f : Nat) (m : Mail) : (s.setMail f m).owners = s.owners := rfl
@[simp] theorem State.setMail_cursors (s : State) (f : Nat) (m : Mail) : (s.setMail f m).cursors = s.cursors := rfl
@[simp] theorem State.setMail_served (s : State) (f : Nat) (m : Mail) : (s.setMail f m).served = s.served := rfl
@[simp] theorem State.setMail_launches (s : State) (f : Nat) (m : Mail) : (s.setMail f m).launches = s.launches := rfl
@[simp] theorem State.setMail_link (s : State) (f : Nat) (m : Mail) : (s.setMail f m).link = s.link := rfl

@[simp] theorem State.setTdi_owed (s : State) (vf : Nat) (x : Tdi) : (s.setTdi vf x).owed = s.owed := rfl
@[simp] theorem State.setTdi_clock (s : State) (vf : Nat) (x : Tdi) : (s.setTdi vf x).clock = s.clock := rfl
@[simp] theorem State.setTdi_agenda (s : State) (vf : Nat) (x : Tdi) : (s.setTdi vf x).agenda = s.agenda := rfl
@[simp] theorem State.setTdi_latch (s : State) (vf : Nat) (x : Tdi) : (s.setTdi vf x).latch = s.latch := rfl
@[simp] theorem State.setTdi_cur (s : State) (vf : Nat) (x : Tdi) : (s.setTdi vf x).cur = s.cur := rfl
@[simp] theorem State.setTdi_tick (s : State) (vf : Nat) (x : Tdi) : (s.setTdi vf x).tick = s.tick := rfl
@[simp] theorem State.setTdi_seqs (s : State) (vf : Nat) (x : Tdi) : (s.setTdi vf x).seqs = s.seqs := rfl
@[simp] theorem State.setTdi_cores (s : State) (vf : Nat) (x : Tdi) : (s.setTdi vf x).cores = s.cores := rfl
@[simp] theorem State.setTdi_clusters (s : State) (vf : Nat) (x : Tdi) : (s.setTdi vf x).clusters = s.clusters := rfl
@[simp] theorem State.setTdi_dies (s : State) (vf : Nat) (x : Tdi) : (s.setTdi vf x).dies = s.dies := rfl
@[simp] theorem State.setTdi_mem (s : State) (vf : Nat) (x : Tdi) : (s.setTdi vf x).mem = s.mem := rfl
@[simp] theorem State.setTdi_hal (s : State) (vf : Nat) (x : Tdi) : (s.setTdi vf x).hal = s.hal := rfl
@[simp] theorem State.setTdi_ctxs (s : State) (vf : Nat) (x : Tdi) : (s.setTdi vf x).ctxs = s.ctxs := rfl
@[simp] theorem State.setTdi_groups (s : State) (vf : Nat) (x : Tdi) : (s.setTdi vf x).groups = s.groups := rfl
@[simp] theorem State.setTdi_queues (s : State) (vf : Nat) (x : Tdi) : (s.setTdi vf x).queues = s.queues := rfl
@[simp] theorem State.setTdi_owners (s : State) (vf : Nat) (x : Tdi) : (s.setTdi vf x).owners = s.owners := rfl
@[simp] theorem State.setTdi_cursors (s : State) (vf : Nat) (x : Tdi) : (s.setTdi vf x).cursors = s.cursors := rfl
@[simp] theorem State.setTdi_served (s : State) (vf : Nat) (x : Tdi) : (s.setTdi vf x).served = s.served := rfl
@[simp] theorem State.setTdi_launches (s : State) (vf : Nat) (x : Tdi) : (s.setTdi vf x).launches = s.launches := rfl
@[simp] theorem State.setTdi_mast (s : State) (vf : Nat) (x : Tdi) : (s.setTdi vf x).mast = s.mast := rfl

@[simp] theorem State.putOff_owed (s : State) (b : Bool) : (s.putOff b).owed = s.owed := rfl
@[simp] theorem State.putOff_clock (s : State) (b : Bool) : (s.putOff b).clock = s.clock := rfl
@[simp] theorem State.putOff_agenda (s : State) (b : Bool) : (s.putOff b).agenda = s.agenda := rfl
@[simp] theorem State.putOff_latch (s : State) (b : Bool) : (s.putOff b).latch = s.latch := rfl
@[simp] theorem State.putOff_cur (s : State) (b : Bool) : (s.putOff b).cur = s.cur := rfl
@[simp] theorem State.putOff_tick (s : State) (b : Bool) : (s.putOff b).tick = s.tick := rfl
@[simp] theorem State.putOff_cores (s : State) (b : Bool) : (s.putOff b).cores = s.cores := rfl
@[simp] theorem State.putOff_clusters (s : State) (b : Bool) : (s.putOff b).clusters = s.clusters := rfl
@[simp] theorem State.putOff_dies (s : State) (b : Bool) : (s.putOff b).dies = s.dies := rfl
@[simp] theorem State.putOff_mem (s : State) (b : Bool) : (s.putOff b).mem = s.mem := rfl
@[simp] theorem State.putOff_hal (s : State) (b : Bool) : (s.putOff b).hal = s.hal := rfl
@[simp] theorem State.putOff_ctxs (s : State) (b : Bool) : (s.putOff b).ctxs = s.ctxs := rfl
@[simp] theorem State.putOff_groups (s : State) (b : Bool) : (s.putOff b).groups = s.groups := rfl
@[simp] theorem State.putOff_queues (s : State) (b : Bool) : (s.putOff b).queues = s.queues := rfl
@[simp] theorem State.putOff_owners (s : State) (b : Bool) : (s.putOff b).owners = s.owners := rfl
@[simp] theorem State.putOff_cursors (s : State) (b : Bool) : (s.putOff b).cursors = s.cursors := rfl
@[simp] theorem State.putOff_served (s : State) (b : Bool) : (s.putOff b).served = s.served := rfl
@[simp] theorem State.putOff_launches (s : State) (b : Bool) : (s.putOff b).launches = s.launches := rfl
@[simp] theorem State.putOff_mast (s : State) (b : Bool) : (s.putOff b).mast = s.mast := rfl
@[simp] theorem State.putOff_link (s : State) (b : Bool) : (s.putOff b).link = s.link := rfl

@[simp] theorem State.seq_setSeq_same (s : State) (n : Nat) (x : Seq) : (s.setSeq n x).seq n = x := by
  simp [State.seq, State.setSeq]
theorem State.seq_setSeq_other (s : State) {n m : Nat} (x : Seq) (h : m ≠ n) : (s.setSeq n x).seq m = s.seq m :=
  Tab.getD_put_other _ _ _ h
theorem State.seq_setSeq (s : State) (n m : Nat) (x : Seq) : (s.setSeq n x).seq m = if m = n then x else s.seq m :=
  Tab.getD_put ..

@[simp] theorem State.core_setCore_same (s : State) (n : Nat) (x : CoreSt) : (s.setCore n x).core n = x := by
  simp [State.core, State.setCore]
theorem State.core_setCore_other (s : State) {n m : Nat} (x : CoreSt) (h : m ≠ n) : (s.setCore n x).core m = s.core m :=
  Tab.getD_put_other _ _ _ h
theorem State.core_setCore (s : State) (n m : Nat) (x : CoreSt) : (s.setCore n x).core m = if m = n then x else s.core m :=
  Tab.getD_put ..

@[simp] theorem State.cluster_setCluster_same (s : State) (n : Nat) (x : Cluster) : (s.setCluster n x).cluster n = x := by
  simp [State.cluster, State.setCluster]
theorem State.cluster_setCluster_other (s : State) {n m : Nat} (x : Cluster) (h : m ≠ n) : (s.setCluster n x).cluster m = s.cluster m :=
  Tab.getD_put_other _ _ _ h
theorem State.cluster_setCluster (s : State) (n m : Nat) (x : Cluster) : (s.setCluster n x).cluster m = if m = n then x else s.cluster m :=
  Tab.getD_put ..

@[simp] theorem State.die_setDie_same (s : State) (n : Nat) (x : Die) : (s.setDie n x).die n = x := by
  simp [State.die, State.setDie]
theorem State.die_setDie_other (s : State) {n m : Nat} (x : Die) (h : m ≠ n) : (s.setDie n x).die m = s.die m :=
  Tab.getD_put_other _ _ _ h
theorem State.die_setDie (s : State) (n m : Nat) (x : Die) : (s.setDie n x).die m = if m = n then x else s.die m :=
  Tab.getD_put ..

@[simp] theorem State.ctx_setCtx_same (s : State) (n : Nat) (x : Ctx) : (s.setCtx n x).ctx n = x := by
  simp [State.ctx, State.setCtx]
theorem State.ctx_setCtx_other (s : State) {n m : Nat} (x : Ctx) (h : m ≠ n) : (s.setCtx n x).ctx m = s.ctx m :=
  Tab.getD_put_other _ _ _ h
theorem State.ctx_setCtx (s : State) (n m : Nat) (x : Ctx) : (s.setCtx n x).ctx m = if m = n then x else s.ctx m :=
  Tab.getD_put ..

@[simp] theorem State.group_setGroup_same (s : State) (n : Nat) (x : Group) : (s.setGroup n x).group n = x := by
  simp [State.group, State.setGroup]
theorem State.group_setGroup_other (s : State) {n m : Nat} (x : Group) (h : m ≠ n) : (s.setGroup n x).group m = s.group m :=
  Tab.getD_put_other _ _ _ h
theorem State.group_setGroup (s : State) (n m : Nat) (x : Group) : (s.setGroup n x).group m = if m = n then x else s.group m :=
  Tab.getD_put ..

@[simp] theorem State.queue_setQueue_same (s : State) (n : Nat) (x : Queue) : (s.setQueue n x).queue n = x := by
  simp [State.queue, State.setQueue]
theorem State.queue_setQueue_other (s : State) {n m : Nat} (x : Queue) (h : m ≠ n) : (s.setQueue n x).queue m = s.queue m :=
  Tab.getD_put_other _ _ _ h
theorem State.queue_setQueue (s : State) (n m : Nat) (x : Queue) : (s.setQueue n x).queue m = if m = n then x else s.queue m :=
  Tab.getD_put ..

@[simp] theorem State.owner_setOwner_same (s : State) (n : Nat) (x : Owner) : (s.setOwner n x).owner n = x := by
  simp [State.owner, State.setOwner]
theorem State.owner_setOwner_other (s : State) {n m : Nat} (x : Owner) (h : m ≠ n) : (s.setOwner n x).owner m = s.owner m :=
  Tab.getD_put_other _ _ _ h
theorem State.owner_setOwner (s : State) (n m : Nat) (x : Owner) : (s.setOwner n x).owner m = if m = n then x else s.owner m :=
  Tab.getD_put ..

@[simp] theorem State.core_setSeq (s : State) (q1 : Nat) (x : Seq) (m : Nat) : (s.setSeq q1 x).core m = s.core m := rfl
@[simp] theorem State.cluster_setSeq (s : State) (q1 : Nat) (x : Seq) (m : Nat) : (s.setSeq q1 x).cluster m = s.cluster m := rfl
@[simp] theorem State.die_setSeq (s : State) (q1 : Nat) (x : Seq) (m : Nat) : (s.setSeq q1 x).die m = s.die m := rfl
@[simp] theorem State.ctx_setSeq (s : State) (q1 : Nat) (x : Seq) (m : Nat) : (s.setSeq q1 x).ctx m = s.ctx m := rfl
@[simp] theorem State.group_setSeq (s : State) (q1 : Nat) (x : Seq) (m : Nat) : (s.setSeq q1 x).group m = s.group m := rfl
@[simp] theorem State.queue_setSeq (s : State) (q1 : Nat) (x : Seq) (m : Nat) : (s.setSeq q1 x).queue m = s.queue m := rfl
@[simp] theorem State.owner_setSeq (s : State) (q1 : Nat) (x : Seq) (m : Nat) : (s.setSeq q1 x).owner m = s.owner m := rfl
@[simp] theorem State.seq_setCore (s : State) (q1 : Nat) (x : CoreSt) (m : Nat) : (s.setCore q1 x).seq m = s.seq m := rfl
@[simp] theorem State.cluster_setCore (s : State) (q1 : Nat) (x : CoreSt) (m : Nat) : (s.setCore q1 x).cluster m = s.cluster m := rfl
@[simp] theorem State.die_setCore (s : State) (q1 : Nat) (x : CoreSt) (m : Nat) : (s.setCore q1 x).die m = s.die m := rfl
@[simp] theorem State.ctx_setCore (s : State) (q1 : Nat) (x : CoreSt) (m : Nat) : (s.setCore q1 x).ctx m = s.ctx m := rfl
@[simp] theorem State.group_setCore (s : State) (q1 : Nat) (x : CoreSt) (m : Nat) : (s.setCore q1 x).group m = s.group m := rfl
@[simp] theorem State.queue_setCore (s : State) (q1 : Nat) (x : CoreSt) (m : Nat) : (s.setCore q1 x).queue m = s.queue m := rfl
@[simp] theorem State.owner_setCore (s : State) (q1 : Nat) (x : CoreSt) (m : Nat) : (s.setCore q1 x).owner m = s.owner m := rfl
@[simp] theorem State.seq_setCluster (s : State) (q1 : Nat) (x : Cluster) (m : Nat) : (s.setCluster q1 x).seq m = s.seq m := rfl
@[simp] theorem State.core_setCluster (s : State) (q1 : Nat) (x : Cluster) (m : Nat) : (s.setCluster q1 x).core m = s.core m := rfl
@[simp] theorem State.die_setCluster (s : State) (q1 : Nat) (x : Cluster) (m : Nat) : (s.setCluster q1 x).die m = s.die m := rfl
@[simp] theorem State.ctx_setCluster (s : State) (q1 : Nat) (x : Cluster) (m : Nat) : (s.setCluster q1 x).ctx m = s.ctx m := rfl
@[simp] theorem State.group_setCluster (s : State) (q1 : Nat) (x : Cluster) (m : Nat) : (s.setCluster q1 x).group m = s.group m := rfl
@[simp] theorem State.queue_setCluster (s : State) (q1 : Nat) (x : Cluster) (m : Nat) : (s.setCluster q1 x).queue m = s.queue m := rfl
@[simp] theorem State.owner_setCluster (s : State) (q1 : Nat) (x : Cluster) (m : Nat) : (s.setCluster q1 x).owner m = s.owner m := rfl
@[simp] theorem State.seq_setDie (s : State) (q1 : Nat) (x : Die) (m : Nat) : (s.setDie q1 x).seq m = s.seq m := rfl
@[simp] theorem State.core_setDie (s : State) (q1 : Nat) (x : Die) (m : Nat) : (s.setDie q1 x).core m = s.core m := rfl
@[simp] theorem State.cluster_setDie (s : State) (q1 : Nat) (x : Die) (m : Nat) : (s.setDie q1 x).cluster m = s.cluster m := rfl
@[simp] theorem State.ctx_setDie (s : State) (q1 : Nat) (x : Die) (m : Nat) : (s.setDie q1 x).ctx m = s.ctx m := rfl
@[simp] theorem State.group_setDie (s : State) (q1 : Nat) (x : Die) (m : Nat) : (s.setDie q1 x).group m = s.group m := rfl
@[simp] theorem State.queue_setDie (s : State) (q1 : Nat) (x : Die) (m : Nat) : (s.setDie q1 x).queue m = s.queue m := rfl
@[simp] theorem State.owner_setDie (s : State) (q1 : Nat) (x : Die) (m : Nat) : (s.setDie q1 x).owner m = s.owner m := rfl
@[simp] theorem State.seq_setCtx (s : State) (q1 : Nat) (x : Ctx) (m : Nat) : (s.setCtx q1 x).seq m = s.seq m := rfl
@[simp] theorem State.core_setCtx (s : State) (q1 : Nat) (x : Ctx) (m : Nat) : (s.setCtx q1 x).core m = s.core m := rfl
@[simp] theorem State.cluster_setCtx (s : State) (q1 : Nat) (x : Ctx) (m : Nat) : (s.setCtx q1 x).cluster m = s.cluster m := rfl
@[simp] theorem State.die_setCtx (s : State) (q1 : Nat) (x : Ctx) (m : Nat) : (s.setCtx q1 x).die m = s.die m := rfl
@[simp] theorem State.group_setCtx (s : State) (q1 : Nat) (x : Ctx) (m : Nat) : (s.setCtx q1 x).group m = s.group m := rfl
@[simp] theorem State.queue_setCtx (s : State) (q1 : Nat) (x : Ctx) (m : Nat) : (s.setCtx q1 x).queue m = s.queue m := rfl
@[simp] theorem State.owner_setCtx (s : State) (q1 : Nat) (x : Ctx) (m : Nat) : (s.setCtx q1 x).owner m = s.owner m := rfl
@[simp] theorem State.seq_setGroup (s : State) (q1 : Nat) (x : Group) (m : Nat) : (s.setGroup q1 x).seq m = s.seq m := rfl
@[simp] theorem State.core_setGroup (s : State) (q1 : Nat) (x : Group) (m : Nat) : (s.setGroup q1 x).core m = s.core m := rfl
@[simp] theorem State.cluster_setGroup (s : State) (q1 : Nat) (x : Group) (m : Nat) : (s.setGroup q1 x).cluster m = s.cluster m := rfl
@[simp] theorem State.die_setGroup (s : State) (q1 : Nat) (x : Group) (m : Nat) : (s.setGroup q1 x).die m = s.die m := rfl
@[simp] theorem State.ctx_setGroup (s : State) (q1 : Nat) (x : Group) (m : Nat) : (s.setGroup q1 x).ctx m = s.ctx m := rfl
@[simp] theorem State.queue_setGroup (s : State) (q1 : Nat) (x : Group) (m : Nat) : (s.setGroup q1 x).queue m = s.queue m := rfl
@[simp] theorem State.owner_setGroup (s : State) (q1 : Nat) (x : Group) (m : Nat) : (s.setGroup q1 x).owner m = s.owner m := rfl
@[simp] theorem State.seq_setQueue (s : State) (q1 : Nat) (x : Queue) (m : Nat) : (s.setQueue q1 x).seq m = s.seq m := rfl
@[simp] theorem State.core_setQueue (s : State) (q1 : Nat) (x : Queue) (m : Nat) : (s.setQueue q1 x).core m = s.core m := rfl
@[simp] theorem State.cluster_setQueue (s : State) (q1 : Nat) (x : Queue) (m : Nat) : (s.setQueue q1 x).cluster m = s.cluster m := rfl
@[simp] theorem State.die_setQueue (s : State) (q1 : Nat) (x : Queue) (m : Nat) : (s.setQueue q1 x).die m = s.die m := rfl
@[simp] theorem State.ctx_setQueue (s : State) (q1 : Nat) (x : Queue) (m : Nat) : (s.setQueue q1 x).ctx m = s.ctx m := rfl
@[simp] theorem State.group_setQueue (s : State) (q1 : Nat) (x : Queue) (m : Nat) : (s.setQueue q1 x).group m = s.group m := rfl
@[simp] theorem State.owner_setQueue (s : State) (q1 : Nat) (x : Queue) (m : Nat) : (s.setQueue q1 x).owner m = s.owner m := rfl
@[simp] theorem State.seq_setOwner (s : State) (q1 : Nat) (x : Owner) (m : Nat) : (s.setOwner q1 x).seq m = s.seq m := rfl
@[simp] theorem State.core_setOwner (s : State) (q1 : Nat) (x : Owner) (m : Nat) : (s.setOwner q1 x).core m = s.core m := rfl
@[simp] theorem State.cluster_setOwner (s : State) (q1 : Nat) (x : Owner) (m : Nat) : (s.setOwner q1 x).cluster m = s.cluster m := rfl
@[simp] theorem State.die_setOwner (s : State) (q1 : Nat) (x : Owner) (m : Nat) : (s.setOwner q1 x).die m = s.die m := rfl
@[simp] theorem State.ctx_setOwner (s : State) (q1 : Nat) (x : Owner) (m : Nat) : (s.setOwner q1 x).ctx m = s.ctx m := rfl
@[simp] theorem State.group_setOwner (s : State) (q1 : Nat) (x : Owner) (m : Nat) : (s.setOwner q1 x).group m = s.group m := rfl
@[simp] theorem State.queue_setOwner (s : State) (q1 : Nat) (x : Owner) (m : Nat) : (s.setOwner q1 x).queue m = s.queue m := rfl

/-! ### The registers of the running sequencer -/

@[simp] theorem State.me_setMe (s : State) (x : Seq) : (s.setMe x).me = x := State.seq_setSeq_same s s.cur.seq x
@[simp] theorem State.me_setCtl (s : State) (c : Ctl) : (s.setCtl c).me = { s.me with c := c } := by simp [State.setCtl]
@[simp] theorem State.me_setRegs (s : State) (r : Regs) : (s.setRegs r).me = { s.me with r := r } := by simp [State.setRegs]
@[simp] theorem State.me_setFlight (s : State) (f : Flight) : (s.setFlight f).me = { s.me with f := f } := by
  simp [State.setFlight]
@[simp] theorem State.me_ws (s : State) (n : BitVec 6) (w : Word) : (s.ws n w).me = { s.me with r := s.me.r.setS n w } := by
  simp [State.ws]
@[simp] theorem State.me_wp (s : State) (n : BitVec 7) (x : BitVec 32) :
    (s.wp n x).me = { s.me with r := s.me.r.setP n x } := by simp [State.wp]
@[simp] theorem State.me_wv (s : State) (n : BitVec 5) (x : BitVec 1024) :
    (s.wv n x).me = { s.me with r := s.me.r.setV n x } := by simp [State.wv]
@[simp] theorem State.me_retireOcc (s : State) (occ : Nat) :
    (s.retireOcc occ).me = s.me.retire s.cur.bn s.cur.slot occ := State.seq_setSeq_same _ _ _
@[simp] theorem State.me_retire (s : State) : s.retire.me = s.me.retire s.cur.bn s.cur.slot 1 := State.me_retireOcc s 1
@[simp] theorem State.me_transfer (s : State) (t : Word) :
    (s.transfer t).me = { s.me with c := { s.me.c with redirect := some t } } := by simp [State.transfer]

theorem State.seq_setMe_other (s : State) (x : Seq) {q : Nat} (h : q ≠ s.cur.seq) : (s.setMe x).seq q = s.seq q :=
  State.seq_setSeq_other s x h
theorem State.seq_ws_other (s : State) (n : BitVec 6) (w : Word) {q : Nat} (h : q ≠ s.cur.seq) :
    (s.ws n w).seq q = s.seq q := State.seq_setMe_other s _ h
theorem State.seq_wp_other (s : State) (n : BitVec 7) (x : BitVec 32) {q : Nat} (h : q ≠ s.cur.seq) :
    (s.wp n x).seq q = s.seq q := State.seq_setMe_other s _ h
theorem State.seq_retireOcc_other (s : State) (occ : Nat) {q : Nat} (h : q ≠ s.cur.seq) :
    (s.retireOcc occ).seq q = s.seq q := State.seq_setSeq_other _ _ h
theorem State.seq_retire_other (s : State) {q : Nat} (h : q ≠ s.cur.seq) : s.retire.seq q = s.seq q :=
  State.seq_retireOcc_other s 1 h

@[simp] theorem Seq.retire_r (x : Seq) (bn slot occ : Nat) : (x.retire bn slot occ).r = x.r := rfl

theorem Regs.getS_setS (r : Regs) (n m : BitVec 6) (w : Word) :
    (r.setS n w).getS m = if m = n then (if n = 0#6 then 0#64 else w) else r.getS m := by
  unfold Regs.setS Regs.getS
  by_cases hn : n = 0#6
  · subst hn; by_cases hm : m = 0#6 <;> simp [hm]
  · by_cases hm : m = n
    · subst hm; simp [hn]
    · have h : m.toNat ≠ n.toNat := fun h => hm (BitVec.eq_of_toNat_eq h)
      simp [hn, hm, Tab.getD_put_other _ _ _ h]

theorem Regs.getP_setP (r : Regs) (n m : BitVec 7) (x : BitVec 32) :
    (r.setP n x).getP m = if m = n then (if n = 0#7 then 0xFFFFFFFF#32 else x) else r.getP m := by
  unfold Regs.setP Regs.getP
  by_cases hn : n = 0#7
  · subst hn; by_cases hm : m = 0#7 <;> simp [hm]
  · by_cases hm : m = n
    · subst hm; simp [hn]
    · have h : m.toNat ≠ n.toNat := fun h => hm (BitVec.eq_of_toNat_eq h)
      simp [hn, hm, Tab.getD_put_other _ _ _ h]

theorem Regs.getV_setV (r : Regs) (n m : BitVec 5) (x : BitVec 1024) :
    (r.setV n x).getV m = if m = n then x else r.getV m := by
  unfold Regs.setV Regs.getV
  by_cases hm : m = n
  · subst hm; simp
  · have h : m.toNat ≠ n.toNat := fun h => hm (BitVec.eq_of_toNat_eq h)
    simp [hm, Tab.getD_put_other _ _ _ h]

@[simp] theorem Regs.getP_setS (r : Regs) (n : BitVec 6) (m : BitVec 7) (w : Word) : (r.setS n w).getP m = r.getP m := by
  unfold Regs.setS; split <;> rfl
@[simp] theorem Regs.getV_setS (r : Regs) (n : BitVec 6) (m : BitVec 5) (w : Word) : (r.setS n w).getV m = r.getV m := by
  unfold Regs.setS; split <;> rfl
@[simp] theorem Regs.getS_setP (r : Regs) (n : BitVec 7) (m : BitVec 6) (x : BitVec 32) : (r.setP n x).getS m = r.getS m := by
  unfold Regs.setP; split <;> rfl
@[simp] theorem Regs.getV_setP (r : Regs) (n : BitVec 7) (m : BitVec 5) (x : BitVec 32) : (r.setP n x).getV m = r.getV m := by
  unfold Regs.setP; split <;> rfl
@[simp] theorem Regs.getS_setV (r : Regs) (n : BitVec 5) (m : BitVec 6) (x : BitVec 1024) : (r.setV n x).getS m = r.getS m := rfl
@[simp] theorem Regs.getP_setV (r : Regs) (n : BitVec 5) (m : BitVec 7) (x : BitVec 1024) : (r.setV n x).getP m = r.getP m := rfl

end Sys2Proof.Machine
end

