-- ==== Sys2Proof/Laws/Memory.lean ====
section
/-! SUPPORT. Every operation on a memory keeps its canonical form; what a read finds after a write. -/

namespace Sys2Proof

/-! ### Keys that rise -/

theorem Tab.rising_lower {α : Type} {lo lo' : Option Nat} (t : Tab α) (h : Tab.rising lo t = true)
    (hl : ∀ l', lo' = some l' → ∃ l, lo = some l ∧ l' ≤ l) : Tab.rising lo' t = true := by
  cases t with
  | nil => rfl
  | cons e t =>
    obtain ⟨k, v⟩ := e
    simp only [Tab.rising, Bool.and_eq_true] at h ⊢
    refine ⟨?_, h.2⟩
    cases lo' with
    | none => rfl
    | some l' =>
      obtain ⟨l, rfl, hle⟩ := hl l' rfl
      simp only [decide_eq_true_eq] at h ⊢
      omega

theorem Tab.rising_put {α : Type} {lo : Option Nat} (t : Tab α) (n : Nat) (x : α) (h : Tab.rising lo t = true)
    (hn : ∀ l, lo = some l → l < n) : Tab.rising lo (Tab.put t n x) = true := by
  induction t generalizing lo with
  | nil =>
    cases lo with
    | none => simp [Tab.put, Tab.rising]
    | some l => simp [Tab.put, Tab.rising, hn l rfl]
  | cons e t ih =>
    obtain ⟨k, v⟩ := e
    simp only [Tab.rising, Bool.and_eq_true] at h
    simp only [Tab.put]
    split
    · subst_vars
      simp only [Tab.rising, Bool.and_eq_true]; exact h
    · split
      · simp only [Tab.rising, Bool.and_eq_true, decide_eq_true_eq]
        refine ⟨?_, by assumption, h.2⟩
        cases lo with
        | none => rfl
        | some l => simpa using hn l rfl
      · simp only [Tab.rising, Bool.and_eq_true]
        exact ⟨h.1, ih h.2 (fun l hl => by cases hl; omega)⟩

theorem Tab.rising_filter {α : Type} {lo : Option Nat} (t : Tab α) (p : Nat × α → Bool) (h : Tab.rising lo t = true) :
    Tab.rising lo (t.filter p) = true := by
  induction t generalizing lo with
  | nil => exact h
  | cons e t ih =>
    obtain ⟨k, v⟩ := e
    simp only [Tab.rising, Bool.and_eq_true] at h
    by_cases hp : p (k, v) = true
    · rw [List.filter_cons_of_pos hp]
      simp only [Tab.rising, Bool.and_eq_true]
      exact ⟨h.1, ih h.2⟩
    · rw [List.filter_cons_of_neg hp]
      refine ih (Tab.rising_lower t h.2 fun l' hl' => ⟨k, rfl, ?_⟩)
      subst hl'
      simp only [decide_eq_true_eq] at h
      omega

theorem Tab.rising_erase {α : Type} {lo : Option Nat} (t : Tab α) (n : Nat) (h : Tab.rising lo t = true) :
    Tab.rising lo (Tab.erase t n) = true := by
  induction t generalizing lo with
  | nil => exact h
  | cons e t ih =>
    obtain ⟨k, v⟩ := e
    simp only [Tab.rising, Bool.and_eq_true] at h
    simp only [Tab.erase]
    split
    · refine Tab.rising_lower _ (ih h.2) fun l' hl' => ⟨k, rfl, ?_⟩
      subst hl'
      simp only [decide_eq_true_eq] at h
      omega
    · simp only [Tab.rising, Bool.and_eq_true]
      exact ⟨h.1, ih h.2⟩

theorem Tab.mem_put {α : Type} {t : Tab α} {n : Nat} {x : α} {e : Nat × α} (h : e ∈ Tab.put t n x) :
    e = (n, x) ∨ e ∈ t := by
  induction t with
  | nil => simpa [Tab.put] using h
  | cons d t ih =>
    obtain ⟨k, v⟩ := d
    simp only [Tab.put] at h
    split at h
    · rcases List.mem_cons.1 h with h | h
      · exact .inl h
      · exact .inr (List.mem_cons_of_mem _ h)
    · split at h
      · rcases List.mem_cons.1 h with h | h
        · exact .inl h
        · exact .inr h
      · rcases List.mem_cons.1 h with h | h
        · exact .inr (h ▸ List.mem_cons_self)
        · exact (ih h).imp id (List.mem_cons_of_mem _)

theorem Tab.mem_erase {α : Type} {t : Tab α} {n : Nat} {e : Nat × α} (h : e ∈ Tab.erase t n) : e ∈ t := by
  induction t with
  | nil => exact h
  | cons d t ih =>
    obtain ⟨k, v⟩ := d
    simp only [Tab.erase] at h
    split at h
    · exact List.mem_cons_of_mem _ (ih h)
    · rcases List.mem_cons.1 h with h | h
      · exact h ▸ List.mem_cons_self
      · exact List.mem_cons_of_mem _ (ih h)

/-- A key below the bound is not listed. -/
theorem Tab.get?_below {α : Type} (t : Tab α) {n l : Nat} (h : Tab.rising (some l) t = true) (hn : n ≤ l) :
    Tab.get? t n = none := by
  induction t generalizing l with
  | nil => rfl
  | cons e t ih =>
    obtain ⟨k, v⟩ := e
    simp only [Tab.rising, Bool.and_eq_true, decide_eq_true_eq] at h
    simp only [Tab.get?]
    rw [if_neg (by omega)]
    exact ih h.2 (by omega)

theorem Tab.get?_erase {α : Type} (t : Tab α) (n m : Nat) :
    Tab.get? (Tab.erase t n) m = if m = n then none else Tab.get? t m := by
  induction t with
  | nil => simp [Tab.erase, Tab.get?]
  | cons e t ih =>
    obtain ⟨k, v⟩ := e
    simp only [Tab.erase]
    by_cases hn : n = k
    · subst hn
      rw [if_pos rfl, ih]
      by_cases hm : m = n
      · rw [if_pos hm, if_pos hm]
      · rw [if_neg hm, if_neg hm]; simp [Tab.get?, hm]
    · rw [if_neg hn]
      simp only [Tab.get?]
      by_cases hm : m = k
      · subst hm; simp [Ne.symm hn]
      · rw [if_neg hm, if_neg hm, ih]

theorem Tab.getD_erase {α : Type} (t : Tab α) (n m : Nat) (d : α) :
    Tab.getD (Tab.erase t n) m d = if m = n then d else Tab.getD t m d := by
  simp only [Tab.getD, Tab.get?_erase]
  split <;> rfl

/-! ### Memories in canonical form -/

theorem Mem.wf_iff (m : Mem) : Mem.wf m = true ↔ Tab.rising none m = true ∧ ∀ e ∈ m, e.2 ≠ 0#8 := by
  simp [Mem.wf]

theorem Mem.wf_nil : Mem.wf [] = true := rfl

theorem Mem.wf_set (m : Mem) (a : Nat) (b : Byte) (h : Mem.wf m = true) : Mem.wf (Mem.set m a b) = true := by
  rw [Mem.wf_iff] at h ⊢
  unfold Mem.set
  split
  · exact ⟨Tab.rising_erase m a h.1, fun e he => h.2 e (Tab.mem_erase he)⟩
  · refine ⟨Tab.rising_put m a b h.1 (fun l hl => by cases hl), fun e he => ?_⟩
    rcases Tab.mem_put he with rfl | he
    · assumption
    · exact h.2 e he

theorem Mem.wf_write (m : Mem) (a : Nat) (bs : List Byte) (h : Mem.wf m = true) : Mem.wf (Mem.write m a bs) = true := by
  induction bs generalizing m a with
  | nil => exact h
  | cons b bs ih => exact ih _ _ (Mem.wf_set m a b h)

theorem Mem.wf_filter (m : Mem) (p : Nat × Byte → Bool) (h : Mem.wf m = true) : Mem.wf (m.filter p) = true := by
  rw [Mem.wf_iff] at h ⊢
  exact ⟨Tab.rising_filter m p h.1, fun e he => h.2 e (List.mem_filter.1 he).1⟩

theorem Mem.wf_zero (m : Mem) (a n : Nat) (h : Mem.wf m = true) : Mem.wf (Mem.zero m a n) = true := Mem.wf_filter m _ h

theorem Mem.wf_setWord (m : Mem) (a : Nat) (w : Word) (h : Mem.wf m = true) : Mem.wf (Mem.setWord m a w) = true :=
  Mem.wf_write m a _ h

theorem Mem.wf_setLineFrom (m : Mem) (l d mask i n : Nat) (h : Mem.wf m = true) :
    Mem.wf (Mem.setLineFrom m l d mask i n) = true := by
  induction n generalizing m d mask i with
  | zero => exact h
  | succ n ih =>
    simp only [Mem.setLineFrom]
    split
    · exact ih _ _ _ _ (Mem.wf_set m _ _ h)
    · exact ih _ _ _ _ h

theorem Mem.wf_setLine (m : Mem) (l : Nat) (d : BitVec 512) (mask : BitVec 64) (h : Mem.wf m = true) :
    Mem.wf (Mem.setLine m l d mask) = true := Mem.wf_setLineFrom m l _ _ _ _ h

/-! ### Reading after writing -/

theorem Mem.get_set (m : Mem) (a b : Nat) (x : Byte) :
    Mem.get (Mem.set m a x) b = if b = a then x else Mem.get m b := by
  unfold Mem.set Mem.get
  split
  · subst_vars
    exact Tab.getD_erase m a b 0#8
  · exact Tab.getD_put m a b x 0#8

theorem Mem.get_write_other (m : Mem) (a b : Nat) (bs : List Byte) (hb : b < a ∨ a + bs.length ≤ b) :
    Mem.get (Mem.write m a bs) b = Mem.get m b := by
  induction bs generalizing m a with
  | nil => rfl
  | cons x bs ih =>
    simp only [List.length_cons] at hb
    simp only [Mem.write]
    rw [ih _ _ (by omega), Mem.get_set m a b x, if_neg (by omega)]

theorem Mem.get_write_at (m : Mem) (a i : Nat) (bs : List Byte) (hi : i < bs.length) :
    Mem.get (Mem.write m a bs) (a + i) = bs[i] := by
  induction bs generalizing m a i with
  | nil => simp at hi
  | cons x bs ih =>
    simp only [Mem.write]
    cases i with
    | zero =>
      rw [Mem.get_write_other _ _ _ _ (by omega), Mem.get_set m a _ x]
      simp
    | succ i =>
      have := ih (Mem.set m a x) (a + 1) i (by simpa using hi)
      rw [show a + (i + 1) = a + 1 + i by omega, this]
      rfl

namespace Machine

/-- Every memory of the machine is canonical after reset. -/
theorem State.reset_memOk : State.reset.mem.dram = [] ∧ State.reset.mem.host = [] ∧ State.reset.mem.pool = [] :=
  ⟨rfl, rfl, rfl⟩

end Machine

end Sys2Proof
end

