-- ==== Sys2Proof/Laws/Slots.lean ====
section
/-! SUPPORT. The frame of a slot instruction: what its issue, and a write of one register, leave alone. -/

namespace Sys2Proof.Machine

/-! ### Guards -/

theorem slotOp_on {g : BitVec 7} {s : State} {body : State → Res} (h : s.guardOn g = true) :
    slotOp g s body = (body s).finish := by simp [slotOp, h]

theorem slotOp_off {g : BitVec 7} {s : State} {body : State → Res} (h : s.guardOn g = false) :
    slotOp g s body = .next s.retire := by simp [slotOp, h]

theorem slotDo_on {g : BitVec 7} {s : State} {f : State → State} (h : s.guardOn g = true) :
    slotDo g s f = .next (f s).retire := by simp [slotDo, h]

theorem slotDo_off {g : BitVec 7} {s : State} {f : State → State} (h : s.guardOn g = false) :
    slotDo g s f = .next s.retire := by simp [slotDo, h]

/-- A slot instruction always goes on. -/
theorem Res.finish_next (r : Res) : ∃ t, r.finish = .next t := by
  cases r with
  | done s occ => exact ⟨_, rfl⟩
  | hold s => exact ⟨_, rfl⟩
  | trap s t =>
    simp only [Res.finish, State.raise]
    split
    · exact ⟨_, rfl⟩
    · split <;> exact ⟨_, rfl⟩
  | wait s evs => exact ⟨_, rfl⟩

theorem slotOp_next (g : BitVec 7) (s : State) (body : State → Res) : ∃ t, slotOp g s body = .next t := by
  unfold slotOp
  split
  · exact Res.finish_next _
  · exact ⟨_, rfl⟩

theorem slotDo_next (g : BitVec 7) (s : State) (f : State → State) : ∃ t, slotDo g s f = .next t := by
  unfold slotDo
  split <;> exact ⟨_, rfl⟩

/-! ### Reading a byte -/

/-- What a core reads depends on cores, clusters and memory alone. -/
theorem State.byteSeen_congr {s t : State} (hc : t.cores = s.cores) (hl : t.clusters = s.clusters) (hm : t.mem = s.mem)
    (core ctx pa : Nat) : t.byteSeen core ctx pa = s.byteSeen core ctx pa := by
  cases s
  cases t
  cases hc
  cases hl
  cases hm
  rfl

theorem State.sameModule_of {s t : State} (cores : t.cores = s.cores) (clusters : t.clusters = s.clusters)
    (dies : t.dies = s.dies) (mem : t.mem = s.mem) (hal : t.hal = s.hal) (ctxs : t.ctxs = s.ctxs)
    (groups : t.groups = s.groups) (queues : t.queues = s.queues) (owners : t.owners = s.owners)
    (cursors : t.cursors = s.cursors) (served : t.served = s.served) (launches : t.launches = s.launches)
    (mast : t.mast = s.mast) (link : t.link = s.link) : s.sameModule t :=
  ⟨cores, clusters, dies, mem, hal, ctxs, groups, queues, owners, cursors, served, launches, mast, link,
    fun c x a => State.byteSeen_congr cores clusters mem c x a⟩

theorem State.sameModule_setSeq (s : State) (q : Nat) (x : Seq) : s.sameModule (s.setSeq q x) :=
  State.sameModule_of rfl rfl rfl rfl rfl rfl rfl rfl rfl rfl rfl rfl rfl rfl

theorem State.sameModule_refl (s : State) : s.sameModule s :=
  State.sameModule_of rfl rfl rfl rfl rfl rfl rfl rfl rfl rfl rfl rfl rfl rfl

theorem State.sameModule_trans {s t u : State} (h : s.sameModule t) (k : t.sameModule u) : s.sameModule u :=
  State.sameModule_of (k.cores.trans h.cores) (k.clusters.trans h.clusters) (k.dies.trans h.dies) (k.mem.trans h.mem)
    (k.hal.trans h.hal) (k.ctxs.trans h.ctxs) (k.groups.trans h.groups) (k.queues.trans h.queues)
    (k.owners.trans h.owners) (k.cursors.trans h.cursors) (k.served.trans h.served) (k.launches.trans h.launches)
    (k.mast.trans h.mast) (k.link.trans h.link)

/-! ### Registers -/

theorem Regs.sameBut_refl (r : Regs) (ss : List (BitVec 6)) (ps : List (BitVec 7)) (vs : List (BitVec 5))
    (qs : List (BitVec 3)) : r.sameBut r ss ps vs qs :=
  ⟨fun _ _ => rfl, fun _ _ => rfl, fun _ _ => rfl, fun _ _ => rfl, fun _ => rfl, fun _ => rfl, fun _ => rfl, fun _ => rfl⟩

theorem Regs.sameBut_setS (r : Regs) (d : BitVec 6) (w : Word) : r.sameBut (r.setS d w) [d] [] [] [] := by
  refine ⟨fun n h => ?_, fun n _ => Regs.getP_setS r d n w, fun n _ => Regs.getV_setS r d n w, fun n _ => ?_,
    fun n => ?_, fun n => ?_, fun n => ?_, fun n => ?_⟩
  · rw [Regs.getS_setS, if_neg (by simpa using h)]
  all_goals (unfold Regs.setS; split <;> rfl)

theorem Regs.sameBut_setP (r : Regs) (d : BitVec 7) (w : BitVec 32) : r.sameBut (r.setP d w) [] [d] [] [] := by
  refine ⟨fun n _ => Regs.getS_setP r d n w, fun n h => ?_, fun n _ => Regs.getV_setP r d n w, fun n _ => ?_,
    fun n => ?_, fun n => ?_, fun n => ?_, fun n => ?_⟩
  · rw [Regs.getP_setP, if_neg (by simpa using h)]
  all_goals (unfold Regs.setP; split <;> rfl)

theorem Regs.sameBut_setV (r : Regs) (d : BitVec 5) (w : BitVec 1024) : r.sameBut (r.setV d w) [] [] [d] [] := by
  refine ⟨fun n _ => rfl, fun n _ => rfl, fun n h => ?_, fun n _ => rfl, fun n => rfl, fun n => rfl, fun n => rfl,
    fun n => rfl⟩
  rw [Regs.getV_setV, if_neg (by simpa using h)]

/-! ### The issue of a slot -/

/-- Registers change, and the slot issues. -/
theorem State.onlyRegs_issue {s : State} {r : Regs} {ss : List (BitVec 6)} {ps : List (BitVec 7)} {vs : List (BitVec 5)}
    {qs : List (BitVec 3)} (h : s.me.r.sameBut r ss ps vs qs) (occ : Nat) :
    s.onlyRegs ((s.setRegs r).retireOcc occ) ss ps vs qs := by
  have me : ((s.setRegs r).retireOcc occ).me = Seq.retire { s.me with r := r } s.cur.bn s.cur.slot occ := by
    rw [State.me_retireOcc, State.me_setRegs]; rfl
  refine ⟨by rw [me]; exact h, by rw [me]; rfl, by rw [me]; rfl, by rw [me]; rfl, fun p hp => ?_, rfl,
    State.sameModule_of rfl rfl rfl rfl rfl rfl rfl rfl rfl rfl rfl rfl rfl rfl⟩
  exact (State.seq_retireOcc_other (s.setRegs r) occ hp).trans (State.seq_setMe_other s _ hp)

theorem State.onlyRegs_ws (s : State) (d : BitVec 6) (w : Word) : s.onlyRegs (s.ws d w).retire [d] [] [] [] :=
  State.onlyRegs_issue (Regs.sameBut_setS _ d w) 1

theorem State.onlyRegs_wp (s : State) (d : BitVec 7) (w : BitVec 32) : s.onlyRegs (s.wp d w).retire [] [d] [] [] :=
  State.onlyRegs_issue (Regs.sameBut_setP _ d w) 1

theorem State.onlyRegs_wv (s : State) (d : BitVec 5) (w : BitVec 1024) : s.onlyRegs (s.wv d w).retire [] [] [d] [] :=
  State.onlyRegs_issue (Regs.sameBut_setV _ d w) 1

theorem State.onlyRegs_retire (s : State) : s.onlyRegs s.retire [] [] [] [] := by
  have h := State.onlyRegs_issue (s := s) (Regs.sameBut_refl s.me.r [] [] [] []) 1
  have me : s.retire.me = s.me.retire s.cur.bn s.cur.slot 1 := State.me_retire s
  refine ⟨by rw [me]; exact Regs.sameBut_refl _ _ _ _ _, by rw [me]; rfl, by rw [me]; rfl, by rw [me], fun p hp => ?_, rfl,
    State.sameModule_of rfl rfl rfl rfl rfl rfl rfl rfl rfl rfl rfl rfl rfl rfl⟩
  exact State.seq_retire_other s hp

theorem State.rs_retire (s : State) (n : BitVec 6) : s.retire.rs n = s.rs n := by simp [State.rs]
theorem State.rp_retire (s : State) (n : BitVec 7) : s.retire.rp n = s.rp n := by simp [State.rp]
theorem State.rv_retire (s : State) (n : BitVec 5) : s.retire.rv n = s.rv n := by simp [State.rv]

theorem State.rs_ws (s : State) (d n : BitVec 6) (w : Word) :
    (s.ws d w).rs n = if n = d then (if d = 0#6 then 0#64 else w) else s.rs n := by
  simp [State.rs, Regs.getS_setS]

theorem State.rp_wp (s : State) (d n : BitVec 7) (w : BitVec 32) :
    (s.wp d w).rp n = if n = d then (if d = 0#7 then 0xFFFFFFFF#32 else w) else s.rp n := by
  simp [State.rp, Regs.getP_setP]

theorem State.rv_wv (s : State) (d n : BitVec 5) (w : BitVec 1024) :
    (s.wv d w).rv n = if n = d then w else s.rv n := by
  simp [State.rv, Regs.getV_setV]

end Sys2Proof.Machine
end

