-- ==== Sys2Proof/Laws/MemOk.lean ====
section
/-! SUPPORT. The shared operations keep the canonical form of memory: one lemma for each. -/

namespace Sys2Proof

/-! ### Memories rebuilt byte by byte -/

theorem Mem.wf_foldl_set {α : Type} (f : α → Nat) (g : α → Byte) (l : List α) {m : Mem} (h : Mem.wf m = true) :
    Mem.wf (l.foldl (fun t e => Mem.set t (f e) (g e)) m) = true := by
  induction l generalizing m with
  | nil => exact h
  | cons a t ih => exact ih (Mem.wf_set m _ _ h)

theorem Mem.wf_put (m : Mem) (a : Nat) (b : Byte) (hb : b ≠ 0#8) (h : Mem.wf m = true) : Mem.wf (Tab.put m a b) = true := by
  have := Mem.wf_set m a b h
  simpa [Mem.set, hb] using this

theorem Mem.wf_foldl_put (f : Nat → Nat) (l : List (Nat × Byte)) (hl : ∀ e ∈ l, e.2 ≠ 0#8) {m : Mem} (h : Mem.wf m = true) :
    Mem.wf (l.foldl (fun t e => Tab.put t (f e.1) e.2) m) = true := by
  induction l generalizing m with
  | nil => exact h
  | cons a t ih =>
    exact ih (fun e he => hl e (List.mem_cons_of_mem _ he)) (Mem.wf_put m _ _ (hl a List.mem_cons_self) h)

namespace Machine

/-! ### What decides the form -/

/-- A change that leaves the bytes of all three memories alone keeps their form. -/
theorem State.memOk_same {s t : State} (hd : t.mem.dram = s.mem.dram) (hh : t.mem.host = s.mem.host)
    (hp : t.mem.pool = s.mem.pool) (h : s.memOk = true) : t.memOk = true := by
  simpa [State.memOk, hd, hh, hp] using h

theorem State.memOk_of_mem {s t : State} (hm : t.mem = s.mem) (h : s.memOk = true) : t.memOk = true :=
  State.memOk_same (by rw [hm]) (by rw [hm]) (by rw [hm]) h

theorem State.memOk_dram {s : State} (h : s.memOk = true) : Mem.wf s.mem.dram = true := by
  simp only [State.memOk, Bool.and_eq_true] at h; exact h.1.1

theorem State.memOk_host {s : State} (h : s.memOk = true) : Mem.wf s.mem.host = true := by
  simp only [State.memOk, Bool.and_eq_true] at h; exact h.1.2

theorem State.memOk_pool {s : State} (h : s.memOk = true) : Mem.wf s.mem.pool = true := by
  simp only [State.memOk, Bool.and_eq_true] at h; exact h.2

theorem State.memOk_intro {s : State} (hd : Mem.wf s.mem.dram = true) (hh : Mem.wf s.mem.host = true)
    (hp : Mem.wf s.mem.pool = true) : s.memOk = true := by simp [State.memOk, hd, hh, hp]

theorem State.memOk_setDram {s : State} {m : Mem} (hm : Mem.wf m = true) (h : s.memOk = true) : (s.setDram m).memOk = true :=
  State.memOk_intro (s := s.setDram m) hm (State.memOk_host (s := s) h) (State.memOk_pool (s := s) h)

/-- A fold of a change that keeps the form keeps it. -/
theorem State.memOk_foldl {α : Type} {f : State → α → State} (hf : ∀ s a, s.memOk = true → (f s a).memOk = true)
    (l : List α) {s : State} (h : s.memOk = true) : (l.foldl f s).memOk = true := by
  induction l generalizing s with
  | nil => exact h
  | cons a t ih => exact ih (hf s a h)

/-! ### Operations that leave memory alone -/

@[simp] theorem State.count_mem (s : State) (ctx : Nat) (k : Traffic) (n : Nat) : (s.count ctx k n).mem = s.mem := by
  unfold State.count; split <;> simp

@[simp] theorem State.setPromo_mem (s : State) (d b : Nat) (rs : List PromoRow) : (s.setPromo d b rs).mem = s.mem := rfl

@[simp] theorem State.activate_mem (s : State) (pa : Nat) (w : Bool) : (s.activate pa w).mem = s.mem := by
  unfold State.activate; dsimp only; (repeat' split) <;> simp

@[simp] theorem State.rowWrote_mem (s : State) (pa : Nat) : (s.rowWrote pa).mem = s.mem := by
  unfold State.rowWrote; split <;> simp

@[simp] theorem State.sideWrote_mem (s : State) (l : Nat) : (s.sideWrote l).mem = s.mem := by
  unfold State.sideWrote; dsimp only; (repeat' split) <;> simp

@[simp] theorem State.setL2_mem (s : State) (c l : Nat) (x : CLine) : (s.setL2 c l x).mem = s.mem := rfl
@[simp] theorem State.dropL2_mem (s : State) (c l : Nat) : (s.dropL2 c l).mem = s.mem := rfl
@[simp] theorem State.invalidateL2_mem (s : State) (l : Nat) (b : Option Nat) : (s.invalidateL2 l b).mem = s.mem := rfl
@[simp] theorem State.setL1_mem (s : State) (c l ctx : Nat) (x : CLine) : (s.setL1 c l ctx x).mem = s.mem := rfl
@[simp] theorem State.tlbAdd_mem (s : State) (d ctx : Nat) (va : Word) (t : Tr) : (s.tlbAdd d ctx va t).mem = s.mem := rfl
@[simp] theorem State.logError_mem (s : State) (c : Nat) (i : Word) : (s.logError c i).mem = s.mem := rfl

@[simp] theorem State.dropMsc_mem (s : State) (d r : Nat) : (s.dropMsc d r).mem = s.mem := by
  unfold State.dropMsc
  generalize d * 2 ^ 45 + r * 2 ^ 11 = pa
  cases Tab.get? (s.die d).msc r with
  | none => rfl
  | some x =>
    dsimp only
    rw [State.count_mem, State.setDie_mem]
    by_cases h : x.dirty = 0#32
    · rw [if_pos h]
    · rw [if_neg h, State.activate_mem]

@[simp] theorem State.sendLink_mem (s : State) (vd ctx pa m : Nat) : (s.sendLink vd ctx pa m).mem = s.mem := rfl

@[simp] theorem State.winTraffic_mem (s : State) (ctx pa n : Nat) : (s.winTraffic ctx pa n).mem = s.mem := by
  unfold State.winTraffic; split <;> simp

@[simp] theorem State.owe_mem (s : State) (ctx : Nat) (t : Trap) : (s.owe ctx t).mem = s.mem := by
  unfold State.owe; split <;> rfl

@[simp] theorem State.mscAt_mem (s : State) (d l vd ctx cls : Nat) (w a : Bool) : (s.mscAt d l vd ctx cls w a).mem = s.mem := by
  unfold State.mscAt
  (repeat' split) <;> (try simp) <;> (repeat' split) <;> simp

@[simp] theorem State.mscAccess_mem (s : State) (l vd ctx cls : Nat) (w a : Bool) : (s.mscAccess l vd ctx cls w a).mem = s.mem := by
  unfold State.mscAccess
  dsimp only
  split <;> simp

@[simp] theorem State.rowsWrote_mem (s : State) (pa n : Nat) : (s.rowsWrote pa n).mem = s.mem := rfl

@[simp] theorem State.mscTouch_mem (s : State) (l ctx cls : Nat) (w a : Bool) : (s.mscTouch l ctx cls w a).mem = s.mem := by
  simp [State.mscTouch]

@[simp] theorem State.touchPath_mem (s : State) (ctx : Nat) (t : Tr) : (s.touchPath ctx t).mem = s.mem := by
  unfold State.touchPath
  generalize t.path = l
  induction l generalizing s with
  | nil => rfl
  | cons a l ih => rw [List.foldl_cons, ih, State.mscTouch_mem]

@[simp] theorem State.walked_mem (s : State) (d ctx : Nat) (va : Word) : (s.walked d ctx va).1.mem = s.mem := by
  unfold State.walked; split <;> simp

@[simp] theorem State.lookup_mem (s : State) (d ctx : Nat) (va : Word) (w : Bool) : (s.lookup d ctx va w).1.mem = s.mem := by
  unfold State.lookup; (repeat' split) <;> simp

/-! ### The home of a line -/

theorem State.memOk_setSide {s : State} (l : Nat) (x : Side) (h : s.memOk = true) : (s.setSide l x).memOk = true :=
  State.memOk_same (by simp [State.setSide]) (by simp [State.setSide]) (by simp [State.setSide]) h

theorem State.memOk_setInvalid {s : State} (l : Nat) (h : s.memOk = true) : (s.setInvalid l).memOk = true :=
  State.memOk_same (by simp [State.setInvalid]) (by simp [State.setInvalid]) (by simp [State.setInvalid]) h

theorem State.memOk_clearPoison {s : State} (l : Nat) (h : s.memOk = true) : (s.clearPoison l).memOk = true :=
  State.memOk_same rfl rfl rfl h

theorem State.memOk_writeBack {s : State} (l : Nat) (d : BitVec 512) (m : BitVec 64) (h : s.memOk = true) :
    (s.writeBack l d m).memOk = true := by
  unfold State.writeBack
  dsimp only
  split
  · exact h
  · have h1 := State.memOk_setDram (Mem.wf_setLine _ l d m (State.memOk_dram h)) h
    split
    · exact State.memOk_clearPoison l h1
    · exact h1

theorem State.memOk_ownerBack {s : State} (l : Nat) (d : BitVec 512) (m : BitVec 64) (h : s.memOk = true) :
    (s.ownerBack l d m).memOk = true := by
  have h1 := State.memOk_writeBack l d m h
  unfold State.ownerBack
  dsimp only
  split
  · exact State.memOk_same rfl rfl rfl h1
  · exact h1

theorem State.memOk_homeHal {s : State} (l : Nat) (h : s.memOk = true) : (s.homeHal l).memOk = true := by
  unfold State.homeHal
  exact State.memOk_setInvalid l (State.memOk_of_mem (State.invalidateL2_mem _ _ _) (State.memOk_ownerBack _ _ _ h))

theorem State.memOk_engWrite {s : State} (a : Nat) (bs : List Byte) (h : s.memOk = true) : (s.engWrite a bs).memOk = true :=
  State.memOk_setDram (Mem.wf_write _ _ _ (State.memOk_dram (State.memOk_homeHal _ h))) (State.memOk_homeHal _ h)

theorem State.memOk_engSetWord {s : State} (a : Nat) (w : Word) (h : s.memOk = true) : (s.engSetWord a w).memOk = true :=
  State.memOk_engWrite a _ h

theorem State.memOk_engWords {s : State} (a : Nat) (ws : List Word) (h : s.memOk = true) : (s.engWords a ws).memOk = true := by
  induction ws generalizing s a with
  | nil => exact h
  | cons w t ih => exact ih _ (State.memOk_engSetWord a w h)

theorem State.memOk_engLine {s : State} (l : Nat) (d : BitVec 512) (m : BitVec 64) (h : s.memOk = true) :
    (s.engLine l d m).memOk = true := by
  unfold State.engLine
  have h1 : (if m = BitVec.allOnes 64 then (s.homeHal l).clearPoison l else s.homeHal l).memOk = true := by
    split
    · exact State.memOk_clearPoison l (State.memOk_homeHal l h)
    · exact State.memOk_homeHal l h
  exact State.memOk_setDram (Mem.wf_setLine _ _ _ _ (State.memOk_dram h1)) h1

theorem State.memOk_rekey {s : State} (l k : Nat) (h : s.memOk = true) : (s.rekey l k).memOk = true := by
  unfold State.rekey
  split
  · exact h
  · have h1 := State.memOk_setDram
      (Mem.wf_setLine _ l (decrypt k l (crypt (s.keyOf l) l (Mem.line s.mem.dram l))) (BitVec.allOnes 64) (State.memOk_dram h)) h
    exact State.memOk_same rfl rfl rfl h1

theorem State.memOk_useKey {s : State} (t : Tr) (h : s.memOk = true) : (s.useKey t).memOk = true := by
  unfold State.useKey
  split
  · exact h
  · exact State.memOk_rekey _ _ h

/-! ### Errors met at a home -/

theorem State.memOk_recoverSide {s : State} (l : Nat) (h : s.memOk = true) : (s.recoverSide l).1.memOk = true := by
  have h0 : ({ s with mem := { s.mem with badSide := s.mem.badSide.filter (· != l) } } : State).memOk = true :=
    State.memOk_same rfl rfl rfl h
  unfold State.recoverSide
  dsimp only
  split
  · exact State.memOk_setInvalid l (State.memOk_of_mem rfl (State.memOk_writeBack _ _ _ h0))
  · exact State.memOk_setInvalid l (State.memOk_same rfl rfl rfl h)

theorem State.memOk_meetHome {s : State} (l : Nat) (h : s.memOk = true) : (s.meetHome l).1.memOk = true := by
  unfold State.meetHome
  dsimp only
  have hr := State.memOk_recoverSide l h
  (repeat' split) <;> first
    | exact h
    | exact State.memOk_same rfl rfl rfl h
    | (rename_i e; rw [e] at hr; exact State.memOk_of_mem rfl hr)

theorem State.memOk_homeErr {s : State} (l : Nat) (a : Acc) (h : s.memOk = true) : (s.homeErr l a).1.memOk = true :=
  State.memOk_meetHome l h

theorem State.memOk_meetQuiet {s : State} (l ctx : Nat) (h : s.memOk = true) : (s.meetQuiet l ctx).memOk = true := by
  unfold State.meetQuiet
  have hr := State.memOk_meetHome l h
  split <;> rename_i e <;> rw [e] at hr
  · exact State.memOk_of_mem (State.owe_mem _ _ _) hr
  · exact hr

/-! ### Requests of an L2 -/

theorem State.memOk_homeRdS {s : State} (l r : Nat) (h : s.memOk = true) : (s.homeRdS l r).1.memOk = true := by
  unfold State.homeRdS
  dsimp only
  (repeat' split) <;> exact State.memOk_setSide _ _ h

theorem State.memOk_homeRdX {s : State} (l r ctx : Nat) (h : s.memOk = true) : (s.homeRdX l r ctx).memOk = true := by
  unfold State.homeRdX
  have hq := State.memOk_meetQuiet l ctx h
  generalize s.meetQuiet l ctx = u at hq ⊢
  dsimp only
  have h1 : ∀ (c : CLine) (x : Side),
      ((((u.invalidateL2 l (some r)).setL2 r l c).setSide l x).mscTouch l ctx 0 false false).memOk = true := fun c x =>
    State.memOk_of_mem (State.mscTouch_mem ..) (State.memOk_setSide l x (State.memOk_of_mem (by simp) hq))
  exact State.memOk_same rfl rfl rfl (h1 _ _)

theorem State.memOk_ownPend {s : State} (l r ctx : Nat) (h : s.memOk = true) : (s.ownPend l r ctx).memOk = true := by
  unfold State.ownPend; split
  · exact h
  · exact State.memOk_homeRdX _ _ _ h

theorem State.memOk_homeWb {s : State} (l r : Nat) (h : s.memOk = true) : (s.homeWb l r).memOk = true := by
  unfold State.homeWb
  split
  · exact h
  · rename_i c _
    dsimp only
    have h1 : (((s.ownerBack l c.data c.dirty).dropL2 r l).mscTouch l c.ctx 0 true false).memOk = true :=
      State.memOk_of_mem (by simp) (State.memOk_ownerBack l c.data c.dirty h)
    (repeat' split)
    · exact State.memOk_setSide _ _ h1
    · exact State.memOk_setInvalid _ h1
    · exact h

/-! ### The L2 and the L1 -/

@[simp] theorem State.loseL2_mem (s : State) (r l : Nat) : (s.loseL2 r l).mem = s.mem := by
  unfold State.loseL2; split <;> simp

@[simp] theorem State.parkL2_mem (s : State) (r l : Nat) : (s.parkL2 r l).mem = s.mem := by
  unfold State.parkL2; split <;> simp

theorem State.memOk_askHost {s : State} (l : Nat) (h : s.memOk = true) : (s.askHost l).memOk = true :=
  State.memOk_same rfl rfl rfl h

theorem State.memOk_evictL2 {s : State} (r l : Nat) (h : s.memOk = true) : (s.evictL2 r l).memOk = true := by
  unfold State.evictL2
  (repeat' split)
  · exact h
  · exact State.memOk_of_mem rfl h
  · exact State.memOk_of_mem (by simp) h
  · exact State.memOk_of_mem rfl (State.memOk_homeWb l r (State.memOk_ownPend l r _ h))

theorem State.memOk_putOut {s : State} (r k : Nat) (c : CLine) (h : s.memOk = true) : (s.putOut r k c).memOk = true := by
  unfold State.putOut
  (repeat' split)
  · exact State.memOk_evictL2 _ _ h
  · exact State.memOk_of_mem (by simp) h
  · exact State.memOk_of_mem (State.parkL2_mem _ _ _) (State.memOk_askHost k h)
  · exact State.memOk_evictL2 _ _ h

theorem State.memOk_evictOne {s : State} (r l ctx : Nat) (h : s.memOk = true) : (s.evictOne r l ctx).memOk = true := by
  unfold State.evictOne
  dsimp only
  split
  · exact h
  · exact State.memOk_putOut _ _ _ h

theorem State.memOk_roomL2 {s : State} (r l ctx : Nat) (h : s.memOk = true) : (s.roomL2 r l ctx).memOk = true :=
  State.memOk_foldl (fun _ _ hs => State.memOk_evictOne r l ctx hs) _ h

theorem State.memOk_takeL2 {s : State} (l r ctx : Nat) (h : s.memOk = true) : (s.takeL2 l r ctx).memOk = true := by
  unfold State.takeL2
  refine State.memOk_homeRdX l r ctx ?_
  split
  · exact h
  · exact State.memOk_roomL2 r l ctx h

theorem State.memOk_own {s : State} (l r ctx : Nat) (h : s.memOk = true) : (s.own l r ctx).memOk = true := by
  unfold State.own; split
  · exact h
  · exact State.memOk_takeL2 _ _ _ h

theorem State.memOk_l2Read {s : State} (r l ctx : Nat) (h : s.memOk = true) : (s.l2Read r l ctx).1.memOk = true := by
  unfold State.l2Read
  dsimp only
  split
  · split
    · exact State.memOk_of_mem rfl h
    · exact State.memOk_of_mem (by simp) (State.memOk_homeRdS l r h)
  · exact State.memOk_of_mem (by simp) (State.memOk_homeRdS l r (State.memOk_roomL2 r l ctx h))

theorem State.memOk_overCopy {s : State} (r l : Nat) (d : BitVec 512) (m : BitVec 64) (h : s.memOk = true) :
    (s.overCopy r l d m).memOk = true := by
  unfold State.overCopy
  split
  · exact h
  · exact State.memOk_of_mem rfl h

theorem State.memOk_l2Merge {s : State} (r l ctx : Nat) (d : BitVec 512) (m : BitVec 64) (h : s.memOk = true) :
    (s.l2Merge r l ctx d m).memOk = true := by
  unfold State.l2Merge
  split
  · exact h
  · refine State.memOk_of_mem (State.setL2_mem _ _ _ _) (State.memOk_overCopy r l d m ?_)
    split
    · exact h
    · exact State.memOk_roomL2 _ _ _ h

theorem State.memOk_evictL1 {s : State} (c k : Nat) (h : s.memOk = true) : (s.evictL1 c k).memOk = true := by
  unfold State.evictL1
  split
  · exact h
  · exact State.memOk_of_mem rfl (State.memOk_l2Merge _ _ _ _ _ h)

theorem State.memOk_roomL1 {s : State} (c l ctx : Nat) (h : s.memOk = true) : (s.roomL1 c l ctx).memOk = true := by
  unfold State.roomL1
  dsimp only
  split
  · exact h
  · split
    · exact h
    · exact State.memOk_evictL1 _ _ h

theorem State.memOk_l1Fill {s : State} (c l ctx : Nat) (n : BitVec 64) (h : s.memOk = true) : (s.l1Fill c l ctx n).memOk = true := by
  unfold State.l1Fill
  dsimp only
  split
  · split
    · exact State.memOk_of_mem rfl h
    · exact State.memOk_of_mem rfl (State.memOk_l2Read _ l ctx h)
  · exact State.memOk_of_mem rfl (State.memOk_l2Read _ l ctx (State.memOk_roomL1 c l ctx h))

theorem State.memOk_l1Read {s : State} (c ctx pa n : Nat) (h : s.memOk = true) : (s.l1Read c ctx pa n).1.memOk = true := by
  unfold State.l1Read
  dsimp only
  split <;> exact State.memOk_l1Fill _ _ _ _ h

theorem State.memOk_l1Write {s : State} (c ctx pa n : Nat) (v : Word) (h : s.memOk = true) : (s.l1Write c ctx pa n v).memOk = true := by
  unfold State.l1Write
  refine State.memOk_of_mem (State.setL1_mem _ _ _ _ _) ?_
  split
  · exact h
  · exact State.memOk_roomL1 _ _ _ h

theorem State.memOk_acqRead {s : State} (c ctx pa n : Nat) (h : s.memOk = true) : (s.acqRead c ctx pa n).1.memOk = true :=
  State.memOk_l2Read _ _ _ h

/-! ### Releases and acquires -/

theorem State.memOk_pushL1 {s : State} (c ctx : Nat) (h : s.memOk = true) : (s.pushL1 c ctx).memOk = true := by
  unfold State.pushL1
  refine State.memOk_of_mem rfl (State.memOk_foldl (fun s e hs => ?_) _ h)
  split
  · exact State.memOk_l2Merge _ _ _ _ _ hs
  · exact hs

theorem State.memOk_retireCopy {s : State} (r l : Nat) (c : CLine) (f : CLine → CLine) (h : s.memOk = true) :
    (s.retireCopy r l c f).memOk = true := by
  unfold State.retireCopy
  refine State.memOk_of_mem (s := if _ then _ else _) rfl ?_
  split
  · exact h
  · exact State.memOk_roomL2 _ _ _ h

theorem State.memOk_scopedBack {s : State} (r l : Nat) (h : s.memOk = true) : (s.scopedBack r l).memOk = true := by
  unfold State.scopedBack
  (repeat' split)
  · exact h
  · exact State.memOk_of_mem (by simp) h
  · exact State.memOk_retireCopy _ _ _ _ (State.memOk_own _ _ _ h)

theorem State.memOk_parkCopy {s : State} (r l : Nat) (h : s.memOk = true) : (s.parkCopy r l).memOk = true := by
  unfold State.parkCopy
  split
  · exact h
  · exact State.memOk_retireCopy _ _ _ _ h

theorem State.memOk_putOutCopy {s : State} (r k : Nat) (h : s.memOk = true) : (s.putOutCopy r k).memOk = true := by
  unfold State.putOutCopy
  (repeat' split)
  · exact State.memOk_scopedBack _ _ h
  · exact State.memOk_parkCopy _ _ h
  · exact State.memOk_parkCopy _ _ (State.memOk_askHost k h)
  · exact State.memOk_scopedBack _ _ h

theorem State.memOk_pushL2 {s : State} (r : Nat) (h : s.memOk = true) : (s.pushL2 r).memOk = true := by
  unfold State.pushL2
  refine State.memOk_foldl (fun s e hs => State.memOk_scopedBack _ _ hs) _ (State.memOk_foldl (fun s e hs => ?_) _ h)
  (repeat' split)
  · exact hs
  · exact State.memOk_of_mem (by simp) hs
  · exact State.memOk_ownPend _ _ _ hs

theorem State.memOk_release {s : State} (c ctx : Nat) (k : Scope) (h : s.memOk = true) : (s.release c ctx k).memOk = true := by
  cases k
  · exact h
  · exact State.memOk_pushL1 _ _ h
  all_goals exact State.memOk_pushL2 _ (State.memOk_pushL1 _ _ h)

theorem State.memOk_flushL1 {s : State} (c : Nat) (h : s.memOk = true) : (s.flushL1 c).memOk = true :=
  State.memOk_of_mem rfl (State.memOk_foldl (fun _ _ hs => State.memOk_l2Merge _ _ _ _ _ hs) _ h)

theorem State.memOk_bump {s : State} (c : Nat) (k : Scope) (h : s.memOk = true) : (s.bump c k).memOk = true := by
  unfold State.bump
  split
  · exact h
  · dsimp only
    refine State.memOk_of_mem rfl (s := if _ then _ else _) ?_
    split
    · exact State.memOk_flushL1 _ h
    · exact h

/-! ### Translation -/

theorem State.memOk_translateN {s : State} (d ctx : Nat) (va : Word) (a : Acc) (n : Nat) (h : s.memOk = true) :
    (s.translateN d ctx va a n).1.memOk = true := by
  induction n generalizing s with
  | zero => exact h
  | succ n ih =>
    have hl := State.memOk_of_mem (State.lookup_mem s d ctx va a.write) h
    unfold State.translateN
    split <;> rename_i e <;> rw [e] at hl
    · exact hl
    · exact hl
    · exact hl
    · rename_i l
      have he := State.memOk_homeErr l { a with write := false } hl
      split <;> rename_i e1 <;> rw [e1] at he
      · exact he
      · exact ih (State.memOk_of_mem (State.owe_mem _ _ _) he)
      · exact ih he
    · split <;> exact hl

theorem State.memOk_translate {s : State} (d ctx : Nat) (va : Word) (a : Acc) (h : s.memOk = true) :
    (s.translate d ctx va a).1.memOk = true := by
  unfold State.translate
  (repeat' split) <;> first
    | exact h
    | exact State.memOk_translateN d ctx va a 32 h

/-! ### Records, traps, the frame of a slot instruction -/

theorem State.memOk_setDirty {s : State} (d ctx : Nat) (va : Word) (t : Tr) (h : s.memOk = true) :
    (s.setDirty d ctx va t).memOk = true := by
  unfold State.setDirty
  split
  · exact h
  · exact State.memOk_of_mem rfl (State.memOk_engSetWord _ _ (State.memOk_of_mem (State.mscTouch_mem ..) h))

theorem State.memOk_gate {s s1 : State} {l : Nat} {x : Bool} {evs : List Instr} (h : s.memOk = true)
    (hg : s.gate l x = some (s1, evs)) : s1.memOk = true := by
  unfold State.gate at hg
  (repeat' split at hg) <;> simp only [Option.some.injEq, Prod.mk.injEq, reduceCtorEq] at hg <;> obtain ⟨rfl, _⟩ := hg
  · exact h
  · exact h
  · exact State.memOk_askHost _ h

theorem State.memOk_rangeGate {s s1 : State} {pa n : Nat} {evs : List Instr} (h : s.memOk = true)
    (hg : s.rangeGate pa n = some (s1, evs)) : s1.memOk = true := by
  obtain ⟨l, _, hl⟩ := List.exists_of_findSome?_eq_some hg
  exact State.memOk_gate h hl

theorem State.memOk_dirtyGate {s s1 : State} {t : Tr} {evs : List Instr} (h : s.memOk = true)
    (hg : s.dirtyGate t = some (s1, evs)) : s1.memOk = true := by
  unfold State.dirtyGate at hg
  split at hg
  · simp at hg
  · exact State.memOk_gate h hg

theorem State.memOk_relGate {s s1 : State} {c ctx : Nat} {evs : List Instr} (h : s.memOk = true)
    (hg : s.relGate c ctx = some (s1, evs)) : s1.memOk = true := by
  unfold State.relGate at hg
  obtain ⟨l, _, hl⟩ := List.exists_of_findSome?_eq_some hg
  split at hl
  · simp at hl
  · exact State.memOk_gate h hl

theorem orElse_some {α : Type} {x : Option α} {f : Unit → Option α} {a : α} (h : (x.orElse f) = some a) :
    x = some a ∨ f () = some a := by
  cases x
  · exact Or.inr h
  · exact Or.inl h

theorem State.memOk_ringGate {s s1 : State} {q ctx : Nat} {evs : List Instr} (h : s.memOk = true)
    (hg : s.ringGate q ctx = some (s1, evs)) : s1.memOk = true := by
  unfold State.ringGate at hg
  dsimp only at hg
  have keep : ∀ (t : Tr) (k : Unit → Option (State × List Instr)), (k () = some (s1, evs) → s1.memOk = true) →
      ((s.dirtyGate t).orElse fun _ => s.gate (lineOf t.pa) true).orElse k = some (s1, evs) → s1.memOk = true := by
    intro t k hk e
    obtain e | e := orElse_some e
    · obtain e | e := orElse_some e
      · exact State.memOk_dirtyGate h e
      · exact State.memOk_gate h e
    · exact hk e
  have self : ∀ {e : List Instr}, some (s, e) = some (s1, evs) → s1.memOk = true := by
    intro e he
    simp only [Option.some.injEq, Prod.mk.injEq] at he
    exact he.1 ▸ h
  split at hg
  · exact self hg
  · split at hg
    · simp at hg
    · refine keep _ _ (fun e => ?_) hg
      split at e
      · exact self e
      · split at e
        · simp at e
        · exact keep _ _ (fun e => State.memOk_relGate h e) e

theorem State.memOk_beforeStop {s s1 : State} {q : Nat} {l evs : List Instr} (h : s.memOk = true)
    (hg : s.beforeStop q l = some (s1, evs)) : s1.memOk = true := by
  unfold State.beforeStop at hg
  dsimp only at hg
  split at hg
  · exact State.memOk_relGate h hg
  · simp only [Option.some.injEq, Prod.mk.injEq] at hg
    obtain ⟨rfl, _⟩ := hg
    exact h

theorem State.memOk_recAddr {s : State} (d ctx : Nat) (va : Word) (w : Bool) (h : s.memOk = true) :
    (s.recAddr d ctx va w).1.memOk = true := by
  unfold State.recAddr
  dsimp only
  have ht := State.memOk_translate d ctx va { cls := pcMem, write := w } h
  split <;> rename_i e <;> rw [e] at ht
  · rename_i s1 t
    split
    · exact ht
    · have hu : ((if w then s1.setDirty d ctx va t else s1).useKey t).memOk = true := by
        refine State.memOk_useKey _ ?_
        split
        · exact State.memOk_setDirty _ _ _ _ ht
        · exact ht
      have he := State.memOk_homeErr (lineOf t.pa) { cls := pcMem, write := w } hu
      split <;> rename_i e1 <;> rw [e1] at he
      · exact State.memOk_of_mem (State.mscTouch_mem ..) he
      · exact State.memOk_of_mem (by simp) he
      · exact he
  · exact ht

theorem State.memOk_recAddr_to {s s1 : State} {d ctx : Nat} {va : Word} {w : Bool} {o : Option Nat} (h : s.memOk = true)
    (e : s.recAddr d ctx va w = (s1, o)) : s1.memOk = true := by
  have := State.memOk_recAddr d ctx va w h
  rwa [e] at this

theorem State.memOk_tryRecord {s : State} (q ctx src : Nat) (r : Record) (h : s.memOk = true) :
    (s.tryRecord q ctx src r).1.memOk = true := by
  unfold State.tryRecord
  dsimp only
  split <;> rename_i e1
  · exact State.memOk_of_mem (State.logError_mem _ _ _) (State.memOk_recAddr_to h e1)
  · have h1 := State.memOk_recAddr_to h e1
    split <;> rename_i e2
    · exact State.memOk_of_mem (State.logError_mem _ _ _) (State.memOk_recAddr_to h1 e2)
    · have h2 := State.memOk_recAddr_to h1 e2
      split
      · exact h2
      · split <;> rename_i e3
        · exact State.memOk_of_mem (State.logError_mem _ _ _) (State.memOk_recAddr_to h2 e3)
        · have h3 := State.memOk_recAddr_to h2 e3
          have h5 := fun pr ws pt w => State.memOk_release (coreOf q) ctx .sy
            (State.memOk_engSetWord pt w (State.memOk_engWords pr ws h3))
          dsimp only
          split
          · exact h5 _ _ _ _
          · exact State.memOk_of_mem (State.sendHal_mem _ _ _ _) (h5 _ _ _ _)

theorem State.memOk_tryRecord_to {s s1 : State} {q ctx src : Nat} {r : Record} {b : Bool} (h : s.memOk = true)
    (e : s.tryRecord q ctx src r = (s1, b)) : s1.memOk = true := by
  have := State.memOk_tryRecord q ctx src r h
  rwa [e] at this

theorem State.memOk_retryHeld {s : State} (ctx n : Nat) (h : s.memOk = true) : (s.retryHeld ctx n).memOk = true := by
  induction n generalizing s with
  | zero => exact h
  | succ n ih =>
    simp only [State.retryHeld]
    split
    · exact h
    · rename_i q r _
      split
      · rename_i e
        exact State.memOk_ringGate h e
      · have h1 := State.memOk_tryRecord q ctx 0 r h
        split <;> rename_i e <;> rw [e] at h1
        · exact h1
        · exact ih (State.memOk_of_mem rfl h1)

theorem State.memOk_retryRecords {s : State} (ctx : Nat) (h : s.memOk = true) : (s.retryRecords ctx).memOk = true :=
  State.memOk_retryHeld _ _ h

theorem State.memOk_putRecord {s : State} (q : Nat) (r : Record) (h : s.memOk = true) : (s.putRecord q r).memOk = true :=
  State.memOk_retryRecords _ (State.memOk_of_mem rfl h)

theorem State.memOk_countLost {s : State} (q ctx : Nat) (h : s.memOk = true) : (s.countLost q ctx).memOk = true := by
  unfold State.countLost
  split <;> rename_i e
  · exact State.memOk_engSetWord _ _ (State.memOk_recAddr_to h e)
  · exact State.memOk_recAddr_to h e

theorem State.memOk_writeStatus {s : State} (o : Owed) (h : s.memOk = true) : (s.writeStatus o).memOk = true := by
  unfold State.writeStatus
  split
  · exact State.memOk_countLost _ _ h
  · split <;> rename_i e
    · exact State.memOk_tryRecord_to (State.memOk_retryRecords _ h) e
    · exact State.memOk_countLost _ _ (State.memOk_tryRecord_to (State.memOk_retryRecords _ h) e)

theorem State.memOk_putStatus {s : State} (q ctx src slot : Nat) (p : Word) (k : Nat) (t : Trap) (h : s.memOk = true) :
    (s.putStatus q ctx src slot p k t).memOk = true := by
  unfold State.putStatus
  dsimp only
  split
  · rename_i e
    have h1 := State.memOk_ringGate h e
    exact State.memOk_of_mem rfl h1
  · exact State.memOk_writeStatus _ h

theorem State.memOk_payOwed {s : State} (h : s.memOk = true) : s.payOwed.memOk = true := by
  unfold State.payOwed
  refine State.memOk_foldl (fun s o hs => ?_) _ (State.memOk_of_mem rfl h)
  split
  · rename_i e
    have h1 := State.memOk_ringGate hs e
    exact State.memOk_of_mem rfl h1
  · exact State.memOk_writeStatus _ hs

theorem State.memOk_withdraw {s : State} (q : Nat) (h : s.memOk = true) : (s.withdraw q).memOk = true := by
  unfold State.withdraw
  dsimp only
  (repeat' split) <;> exact State.memOk_of_mem rfl h

theorem State.memOk_stopSeq {s : State} (q k slot : Nat) (t : Trap) (p : Word) (h : s.memOk = true) :
    (s.stopSeq q k slot t p).memOk = true :=
  State.memOk_putRecord _ _ (State.memOk_of_mem rfl (State.memOk_withdraw q h))

/-- Whatever a result answers keeps the form. -/
def Res.memOk : Res → Bool
  | .done s _ | .hold s | .trap s _ | .wait s _ => s.memOk

/-- Whatever an operation answers keeps the form. -/
def Try.memOk {α : Type} : Try α → Bool
  | .ok s _ | .trap s _ | .wait s _ => s.memOk

theorem Try.memOk_bind {α β : Type} {x : Try α} {f : State → α → Try β} (hx : x.memOk = true)
    (hf : ∀ s a, s.memOk = true → (f s a).memOk = true) : (x.bind f).memOk = true := by
  cases x with
  | ok s a => exact hf s a hx
  | trap s t => exact hx
  | wait s e => exact hx

theorem Try.memOk_res {α : Type} {x : Try α} {f : State → α → Res} (hx : x.memOk = true)
    (hf : ∀ s a, s.memOk = true → (f s a).memOk = true) : (x.res f).memOk = true := by
  cases x with
  | ok s a => exact hf s a hx
  | trap s t => exact hx
  | wait s e => exact hx

theorem tryList_memOk {α : Type} {f : State → α → Try Unit} (hf : ∀ s a, s.memOk = true → (f s a).memOk = true)
    (l : List α) {s : State} (h : s.memOk = true) : (tryList l s f).memOk = true := by
  induction l generalizing s with
  | nil => exact h
  | cons a t ih => exact Try.memOk_bind (hf s a h) fun s _ hs => ih hs

theorem Res.memOk_finish {r : Res} {t : State} (h : r.memOk = true) (hf : r.finish = .next t) : t.memOk = true := by
  cases r with
  | done s occ => simp only [Res.finish, Host.Outcome.next.injEq] at hf; subst hf; exact State.memOk_of_mem rfl h
  | hold s => simp only [Res.finish, Host.Outcome.next.injEq] at hf; subst hf; exact h
  | wait s e => simp only [Res.finish, Host.Outcome.next.injEq] at hf; subst hf; exact State.memOk_of_mem rfl h
  | trap s tr =>
    simp only [Res.finish, State.raise] at hf
    split at hf
    · simp only [Host.Outcome.next.injEq] at hf; subst hf; exact State.memOk_of_mem rfl h
    · split at hf <;> simp only [Host.Outcome.next.injEq] at hf <;> subst hf
      · rename_i e
        have h1 := State.memOk_beforeStop h e
        exact State.memOk_of_mem rfl h1
      · exact State.memOk_stopSeq _ _ _ _ _ h

/-- A slot instruction keeps the form of memory when its body does. -/
theorem slotOp_memOk {g : BitVec 7} {s t : State} {body : State → Res} (hb : (body s).memOk = true) (h : s.memOk = true)
    (ht : slotOp g s body = .next t) : t.memOk = true := by
  unfold slotOp at ht
  split at ht
  · exact Res.memOk_finish hb ht
  · simp only [Host.Outcome.next.injEq] at ht; subst ht; exact State.memOk_of_mem rfl h

theorem slotDo_memOk {g : BitVec 7} {s t : State} {f : State → State} (hf : (f s).memOk = true) (h : s.memOk = true)
    (ht : slotDo g s f = .next t) : t.memOk = true := by
  unfold slotDo at ht
  split at ht <;> simp only [Host.Outcome.next.injEq] at ht <;> subst ht
  · exact State.memOk_of_mem rfl hf
  · exact State.memOk_of_mem rfl h

/-! ### Plain accesses -/

theorem State.memOk_ncWrite {s : State} (pa : Nat) (bs : List Byte) (h : s.memOk = true) : (s.ncWrite pa bs).memOk = true := by
  have hd := State.memOk_dram h
  have hh := State.memOk_host h
  have hp := State.memOk_pool h
  unfold State.ncWrite
  split
  · exact h
  · dsimp only
    (repeat' split)
    · exact State.memOk_intro hd (Mem.wf_write _ _ _ hh) hp
    · exact State.memOk_intro hd hh (Mem.wf_write _ _ _ hp)
    · exact h

theorem State.memOk_meetErrors {s : State} (q ctx l : Nat) (a : Acc) (h : s.memOk = true) :
    (s.meetErrors q ctx l a).memOk = true := by
  unfold State.meetErrors
  have h1 := State.memOk_homeErr l a h
  split <;> rename_i e <;> rw [e] at h1
  · exact h1
  · exact h1
  · exact State.memOk_putStatus _ _ _ _ _ _ _ h1

theorem State.memOk_find {s : State} (q : Nat) (va : Word) (a : Acc) (h : s.memOk = true) : (s.find q va a).memOk = true := by
  unfold State.find
  dsimp only
  have h1 := State.memOk_translate (dieOf q) (s.ctxOf q) va a h
  split
  · exact h
  · split <;> rename_i e <;> rw [e] at h1
    · exact h1
    · (repeat' split) <;> first
        | exact h1
        | (rename_i e1; exact State.memOk_dirtyGate h1 e1)

theorem State.memOk_windowUp {s : State} (t : Tr) (h : s.memOk = true) : (s.windowUp t).memOk = true := by
  unfold State.windowUp; split <;> exact h

theorem State.memOk_reach {s : State} (q : Nat) (va : Word) (a : Acc) (h : s.memOk = true) : (s.reach q va a).memOk = true :=
  Try.memOk_bind (State.memOk_find q va a h) fun _ _ hs => State.memOk_windowUp _ hs

theorem State.memOk_plainRead {s : State} (q : Nat) (va : Word) (n : Nat) (acq : Bool) (a : Acc) (h : s.memOk = true) :
    (s.plainRead q va n acq a).memOk = true := by
  unfold State.plainRead
  refine Try.memOk_bind (State.memOk_reach q va a h) fun s1 t h1 => ?_
  have hread : ∀ s2 : State, s2.memOk = true →
      (Try.ok (if acq then s2.acqRead (coreOf q) (s.ctxOf q) t.pa n else s2.l1Read (coreOf q) (s.ctxOf q) t.pa n).1
        (if acq then s2.acqRead (coreOf q) (s.ctxOf q) t.pa n else s2.l1Read (coreOf q) (s.ctxOf q) t.pa n).2).memOk = true := by
    intro s2 h2
    cases acq
    · exact State.memOk_l1Read _ _ _ _ h2
    · exact State.memOk_acqRead _ _ _ _ h2
  have h2 := State.memOk_useKey t h1
  split
  · exact State.memOk_of_mem (State.winTraffic_mem _ _ _ _) h1
  · dsimp only
    split
    · split
      · rename_i e
        exact State.memOk_gate h2 e
      · exact Try.memOk_bind (State.memOk_meetErrors _ _ _ _ h2) fun s3 _ h3 => hread s3 h3
    · exact hread _ h2

theorem State.memOk_storeCheck {s : State} (q : Nat) (va : Word) (a : Acc) (h : s.memOk = true) :
    (s.storeCheck q va a).memOk = true := by
  unfold State.storeCheck
  refine Try.memOk_bind (State.memOk_find q va a h) fun s1 t h1 => ?_
  split
  · exact h1
  · exact State.memOk_windowUp t h1

@[simp] theorem State.oweLost_mem (s : State) (ctx : Nat) (t : Trap) : (s.oweLost ctx t).mem = s.mem := by
  unfold State.oweLost; split <;> simp

theorem State.memOk_storePlain {s : State} (q : Nat) (e : Elem) (h : s.memOk = true) : (s.storePlain q e).memOk = true := by
  unfold State.storePlain
  dsimp only
  have h1 := State.memOk_translate (dieOf q) (s.ctxOf q) (BitVec.ofNat 64 e.addr) { cls := pcMem, write := true } h
  split <;> rename_i e1 <;> rw [e1] at h1
  · exact State.memOk_of_mem (by simp) h1
  · split
    · exact State.memOk_ncWrite _ _ (State.memOk_of_mem (State.winTraffic_mem _ _ _ _) h1)
    · exact State.memOk_l1Write _ _ _ _ _ (State.memOk_useKey _ (State.memOk_setDirty _ _ _ _ h1))

theorem State.memOk_relErrors {s : State} (q : Nat) (h : s.memOk = true) : (s.relErrors q).memOk = true :=
  tryList_memOk (fun _ _ hs => by split <;> first | exact hs | exact State.memOk_meetErrors _ _ _ _ hs) _ h

theorem State.memOk_tryRelease {s : State} (q : Nat) (k : Scope) (h : s.memOk = true) : (s.tryRelease q k).memOk = true := by
  unfold State.tryRelease
  dsimp only
  (repeat' split)
  · exact h
  · exact State.memOk_release _ _ _ h
  · rename_i e
    exact State.memOk_relGate h e
  · exact Try.memOk_bind (State.memOk_relErrors q h) fun s _ hs => State.memOk_release _ _ _ hs

/-! ### Masthead -/

theorem State.memOk_hostWrite {s : State} (a : Nat) (bs : List Byte) (h : s.memOk = true) : (s.hostWrite a bs).memOk = true := by
  have hd := State.memOk_dram h
  have hp := State.memOk_pool h
  exact State.memOk_intro (s := s.hostWrite a bs) hd (Mem.wf_write _ _ _ (State.memOk_host h)) hp

theorem State.memOk_respond {s : State} (f st : Nat) (rs : List Word) (h : s.memOk = true) : (s.respond f st rs).memOk = true := by
  unfold State.respond
  dsimp only
  split
  · exact h
  · refine State.memOk_of_mem (State.setMail_mem _ _ _) ?_
    split
    · exact State.memOk_hostWrite _ _ h
    · exact State.memOk_hostWrite _ _ (State.memOk_hostWrite _ _ h)

/-- Whatever a reply leaves keeps the form. -/
def Reply.memOk : Reply → Bool
  | .done s _ _ | .wait s _ | .later s _ => s.memOk

theorem Reply.memOk_guard {s : State} {c : Bool} {r : Reply} (h : s.memOk = true) (hr : r.memOk = true) :
    (Reply.guard s c r).memOk = true := by
  unfold Reply.guard; split
  · exact hr
  · exact h

theorem runCommand_next (f : Nat) (mine : Option (State → Nat → Bool)) (range : Bool) (body : State → Reply) (s : State) :
    ∃ t, runCommand f mine range body s = .next t := by
  unfold runCommand
  dsimp only
  (repeat' split) <;> exact ⟨_, rfl⟩

/-- A command keeps the form of memory when its body does. -/
theorem runCommand_memOk {f : Nat} {mine : Option (State → Nat → Bool)} {range : Bool} {body : State → Reply} {s t : State}
    (hb : (body s).memOk = true) (h : s.memOk = true) (ht : runCommand f mine range body s = .next t) : t.memOk = true := by
  have respond : ∀ k, Host.Outcome.next (s.respond f k []) = (Host.Outcome.next t : Result) → t.memOk = true := by
    intro k e
    injection e with e
    exact e ▸ State.memOk_respond f k [] h
  have finish : (match body s with
      | .done s1 st rs => (.next (s1.respond f st rs) : Result)
      | .wait s1 evs => .next { s1 with agenda := evs ++ s1.agenda }
      | .later s1 w => .next (s1.setMail f { s1.mail f with pend := some w })) = .next t → t.memOk = true := by
    intro e
    cases hr : body s with
    | done s1 st rs =>
      rw [hr] at e hb
      injection e with e
      exact e ▸ State.memOk_respond f st rs hb
    | wait s1 evs =>
      rw [hr] at e hb
      injection e with e
      exact e ▸ State.memOk_of_mem (s := s1) rfl hb
    | later s1 w =>
      rw [hr] at e hb
      injection e with e
      exact e ▸ State.memOk_of_mem (s := s1) rfl hb
  unfold runCommand at ht
  dsimp only at ht
  split at ht
  · exact respond _ ht
  · split at ht
    · split at ht
      · exact respond _ ht
      · split at ht
        · exact respond _ ht
        · exact finish ht
    · split at ht
      · exact respond _ ht
      · split at ht
        · exact respond _ ht
        · exact finish ht

/-! ### Pages and modules -/

theorem State.memOk_scrubRange {s : State} (pa n : Nat) (h : s.memOk = true) : (s.scrubRange pa n).memOk = true := by
  have hh := State.memOk_host h
  have hp := State.memOk_pool h
  exact State.memOk_intro (s := s.scrubRange pa n) (Mem.wf_zero _ _ _ (State.memOk_dram h)) hh hp

theorem State.memOk_recall {s : State} (l : Nat) (h : s.memOk = true) : (s.recall l).memOk = true := by
  unfold State.recall
  refine State.memOk_homeHal l ?_
  split
  · exact State.memOk_meetQuiet _ _ h
  · exact h

theorem State.memOk_entrySet {s : State} (a : Nat) (w : Word) (h : s.memOk = true) : (s.entrySet a w).memOk = true :=
  State.memOk_engSetWord _ _ (State.memOk_meetQuiet _ _ h)

theorem State.memOk_movePage {s : State} (old new n : Nat) (h : s.memOk = true) : (s.movePage old new n).memOk = true := by
  unfold State.movePage
  dsimp only
  have h1 : (((s.heldLines new n).foldl State.recall ((s.heldLines old n).foldl State.recall s)).rowsWrote new n).memOk = true :=
    State.memOk_of_mem rfl
      (State.memOk_foldl (fun _ _ hs => State.memOk_recall _ hs) _ (State.memOk_foldl (fun _ _ hs => State.memOk_recall _ hs) _ h))
  have hh := State.memOk_host h1
  have hp := State.memOk_pool h1
  exact State.memOk_intro (Mem.wf_foldl_set _ _ _ (Mem.wf_zero _ _ _ (State.memOk_dram h1))) hh hp

theorem State.memOk_emptyCaches {s : State} (h : s.memOk = true) : s.emptyCaches.memOk = true := by
  unfold State.emptyCaches
  refine State.memOk_foldl (fun _ _ hs => ?_) _ (State.memOk_foldl (fun _ _ hs => State.memOk_flushL1 _ hs) _ h)
  exact State.memOk_foldl (fun _ _ hs => State.memOk_evictL2 _ _ hs) _ (State.memOk_foldl (fun _ _ hs => State.memOk_scopedBack _ _ hs) _ hs)

theorem State.memOk_renumber {s : State} (new : BitVec 3) (h : s.memOk = true) : (s.renumber new).memOk = true := by
  unfold State.renumber
  dsimp only
  have h1 := State.memOk_emptyCaches h
  have hh := State.memOk_host h1
  have hp := State.memOk_pool h1
  refine State.memOk_intro ?_ hh hp
  exact Mem.wf_foldl_put _ _ ((Mem.wf_iff _).1 (State.memOk_dram h1)).2 Mem.wf_nil

/-! ### Pennants in memory, and save areas -/

theorem State.memOk_setPennant {s : State} (h : BitVec 32) (p : Pennant) (hs : s.memOk = true) : (s.setPennant h p).memOk = true := by
  unfold State.setPennant
  split
  · exact State.memOk_setDram (Mem.wf_write _ _ _ (State.memOk_dram hs)) hs
  · exact State.memOk_of_mem rfl hs

theorem State.memOk_zeroPens {s : State} (d lo hi : Nat) (h : s.memOk = true) : (s.zeroPens d lo hi).memOk = true := by
  unfold State.zeroPens
  dsimp only
  (repeat' split)
  · exact State.memOk_setDram (Mem.wf_zero _ _ _ (State.memOk_dram h)) h
  · exact State.memOk_of_mem rfl h
  · exact State.memOk_of_mem rfl h

theorem Mem.wf_foldl_write (f : Nat × List Byte → Nat) (l : List (Nat × List Byte)) {m : Mem} (h : Mem.wf m = true) :
    Mem.wf (l.foldl (fun m e => Mem.write m (f e) e.2) m) = true := by
  induction l generalizing m with
  | nil => exact h
  | cons a t ih => exact ih (Mem.wf_write m _ _ h)

theorem State.memOk_writeArea {s : State} (pa ctx gh : Nat) (v : GroupView) (xs : List Seq) (h : s.memOk = true) :
    (s.writeArea pa ctx gh v xs).memOk = true := by
  unfold State.writeArea
  dsimp only
  have h1 := State.memOk_scrubRange pa (areaSize gh) h
  have h2 : ∀ u : State, u.memOk = true → (u.setDram ((v.areaBytes gh xs).foldl
      (fun m e => Mem.write m (pa + e.1) e.2) u.mem.dram)).memOk = true := fun u hu =>
    State.memOk_setDram (Mem.wf_foldl_write (fun e => pa + e.1) _ (State.memOk_dram hu)) hu
  refine h2 _ ?_
  split
  · split
    · exact h1
    · exact State.memOk_same rfl rfl rfl h1
  · exact h1

end Machine

end Sys2Proof
end

