-- ==== Sys2Proof/Tests/Slice0.lean ====
section
/-! SUPPORT. Tests: ill-formed terms, words written out from the spec's encodings, single steps, and for every statement states and
operands that meet its hypotheses. -/

namespace Sys2Proof.Tests

set_option Elab.async false

open Sys2Proof.Machine

/-! ### Ill-formed terms (spec/02 R47) -/

theorem test_wf_lbrk : (Instr.lbrk 0#4 6#3 0#16).wf = false := by decide
theorem test_wf_loop_sp : (Instr.loopSp 0#4 0#6 0#9 8#4).wf = false := by decide
theorem test_wf_fmt_set_mixed_families : (Instr.fmtSet 0#4 0#2 0#4 4#4 0#4).wf = false := by decide
theorem test_wf_fmt_set_mixed_16_bit : (Instr.fmtSet 0#4 0#2 0#4 1#4 0#4).wf = false := by decide
theorem test_wf_fmt_set_ofmt : (Instr.fmtSet 0#4 0#2 10#4 0#4 0#4).wf = false := by decide
theorem test_wf_fmt_set_hsz : (Instr.fmtSet 0#4 3#2 0#4 0#4 0#4).wf = false := by decide
theorem test_wf_fmt_set_reserved : (Instr.fmtSet 0#4 0#2 0#4 8#4 8#4).wf = false := by decide
theorem test_wf_shf_c : (Instr.shf 0#4 3#3 10#4 0#6).wf = false := by decide
theorem test_wf_shf_k : (Instr.shf 0#4 4#3 7#4 0#6).wf = false := by decide
theorem test_wf_shifts : (Instr.shlAi 0#4 1#6 1#6 64#7).wf = false ∧ (Instr.shrAi 0#4 1#6 1#6 64#7).wf = false ∧
    (Instr.sraAi 0#4 1#6 1#6 64#7).wf = false := by decide
theorem test_wf_sys_rd : (Instr.sysRd 0#4 1#6 1#13).wf = false := by decide
theorem test_wf_sys_wr : (Instr.sysWr 0#4 1#6 0x10#13).wf = false := by decide
theorem test_wf_lea : (Instr.lea 0#7 1#6 1#6 1#6 8#4).wf = false := by decide
theorem test_wf_bit_field : (Instr.extB 0#7 1#6 1#6 63#6 1#6).wf = false ∧ (Instr.insB 0#7 1#6 1#6 63#6 1#6).wf = false := by decide
theorem test_wf_pset : (Instr.pset 0#7 1#7 32#7 0#7 0#1).wf = false ∧ (Instr.pset 0#7 1#7 0#7 32#7 0#1).wf = false := by decide
theorem test_wf_red : (Instr.red 0#7 1#6 1#6 .cr .swap).wf = false := by decide
theorem test_wf_bf_decl : (Instr.bfDecl 0#7 1#6 1#6 1#6 0#1 1#2).wf = false := by decide
theorem test_wf_vector_shifts : (Instr.vshlC3 0#7 .fp32 (.v 1#5) (.v 1#5) (.v 1#5) 0#7).wf = false ∧
    (Instr.vshrC3 0#7 .bf16 (.v 1#5) (.v 1#5) (.v 1#5) 0#7).wf = false ∧
    (Instr.vshlCs 0#7 .fp32 (.v 1#5) (.v 1#5) 1#6 0#7).wf = false ∧
    (Instr.vshrCs 0#7 .fp32 (.v 1#5) (.v 1#5) 1#6 0#7).wf = false := by decide
theorem test_wf_pa_open_view : (Instr.paOpen 0#7 0#2 1#6 1#6 .view).wf = false := by decide
theorem test_wf_mm_chain : (Instr.mmChain 0#7 5#9 5#9 0#2 0#1 0#1).wf = false := by decide
theorem test_wf_pa_norm : (Instr.paNorm 0#7 1#6 1#6 6#4).wf = false ∧ (Instr.paNorm 0#7 1#6 1#6 7#4).wf = false := by decide
theorem test_wf_gr_arrive : (Instr.grArrive 0#7 0#4).wf = false := by decide
theorem test_wf_vcvt_same : (Instr.vcvt 0#7 (.v 1#5) (.v 1#5) .fp32 .fp32 .rne .none).wf = false := by decide
theorem test_wf_vcvt_transform : (Instr.vcvt 0#7 (.v 1#5) (.v 1#5) .fp32 .int8 .rne .h16).wf = false := by decide
theorem test_wf_vcmp : (Instr.vcmp 0#7 1#6 (.v 1#5) (.v 1#5) 5#3 true).wf = false ∧
    (Instr.vcmp 0#7 1#6 (.v 1#5) (.v 1#5) 6#3 false).wf = false := by decide
theorem test_wf_vred : (Instr.vred 0#7 true .xor (.v 1#5) (.v 1#5) 0#7).wf = false := by decide

/-! ### Words of the spec, and words written out bit by bit from its encodings -/

/-- A bundle that holds one word in a slot, a header or word in slot 0, and nops elsewhere. -/
def inSlot (sl : Slot) (h w : BitVec 32) : BitVec 128 :=
  match sl with
  | .a => 0#96 ++ w
  | .b => 0#64 ++ w ++ h
  | .c => 0#32 ++ w ++ 0#32 ++ h
  | .d => w ++ 0#64 ++ h

/-- spec/04 R99: `fmt.set bx7, bx7, e4m3, 32`, STOP = 1. -/
theorem test_decode_fmt_set : decodeSlot (inSlot .a 0#32 0x46802355#32) .a = .ok (.fmtSet 0#4 2#2 3#4 5#4 5#4) := by decide +kernel
/-- spec/05 R124: `shf c1.sh, 2, s9`: 0x40000000 + (0x0E << 23) + (1 << 16) + (2 << 12) + (9 << 6). -/
theorem test_decode_shf :
    decodeSlot (inSlot .a 0#32 0b010_001110_0000_001_0010_001001_000000#32) .a = .ok (.shf 0#4 1#3 2#4 9#6) := by decide +kernel
/-- spec/02 R41 to R44, the worked bundle: vadd in slot C with its lane predicate's high bits in ext2. -/
theorem test_decode_vadd : decodeSlot (inSlot .c 0xC0001000#32 0b000011_0000_00011_00100_00101_0100_000#32) .c =
    .ok (.vaddC3 0#7 .fp32 (.v 3#5) (.v 4#5) (.v 5#5) 20#7) := by decide +kernel
/-- spec/04: `vcvt.bx4.fp32.h32 v6, v2`. -/
theorem test_decode_vcvt : decodeSlot (inSlot .c 0#32 0x600C2082#32) .c =
    .ok (.vcvt 0#7 (.v 6#5) (.v 2#5) .fp32 .bx4 .rne .h32) := by decide +kernel
/-- spec/06: `mm.ldw.w s12, k0` and `mm.chain.k16 acc40, acc7, k2`. -/
theorem test_decode_mm_ldw : decodeSlot (inSlot .d 0#32 0x040C8000#32) .d = .ok (.mmLdw 0#7 (.s 12#6) true 0#2 0#1) := by decide +kernel
theorem test_decode_mm_chain : decodeSlot (inSlot .d 0#32 0x0C050079#32) .d = .ok (.mmChain 0#7 40#9 7#9 2#2 0#1 1#1) := by decide +kernel
/-- spec/07: `bf.fill b5`, `bf.done b5`, and a load that acquires at .cl with offset 25. -/
theorem test_decode_bf_fill : decodeSlot (inSlot .b 0#32 0xC4050000#32) .b = .ok (.bfFill 0#7 5#6) := by decide +kernel
theorem test_decode_bf_done : decodeSlot (inSlot .b 0#32 0xC8050000#32) .b = .ok (.bfDone 0#7 5#6) := by decide +kernel
/-- spec/08: `fence.mo` and `xfence copy, mxs`. -/
theorem test_decode_fence : decodeSlot (inSlot .b 0#32 0xB0180000#32) .b = .ok (.fence 0#7 .mo) := by decide +kernel
theorem test_decode_xfence : decodeSlot (inSlot .b 0#32 0xB40A0000#32) .b = .ok (.xfence 0#7 .copy .mxs) := by decide +kernel
/-- spec/10: `ts.st s11, 8(s23), port1` and `pa.comm s2, s25`. -/
theorem test_decode_ts_st : decodeSlot (inSlot .b 0#32 0x980B5C81#32) .b = .ok (.tsSt 0#7 11#6 23#6 1#11 1#2) := by decide +kernel
theorem test_decode_pa_comm : decodeSlot (inSlot .d 0#32 0x30000990#32) .d = .ok (.paComm 0#7 2#6 25#6) := by decide +kernel
/-- spec/12 R287: gr.arrive is opcode 0x19 with its raise mask in the fn field. -/
theorem test_decode_gr_arrive :
    decodeSlot (inSlot .d 0#32 0b011001_0000_000000_000000_000000_0101#32) .d = .ok (.grArrive 0#7 5#4) := by decide +kernel
/-- spec/18 R383: seg.pin is opcode 0x21, x = 1, y = 2, z = 3. -/
theorem test_decode_seg_pin :
    decodeSlot (inSlot .d 0#32 0b100001_0000_000001_000010_000011_0000#32) .d = .ok (.segPin 0#7 1#6 2#6 3#6) := by decide +kernel
/-- spec/02 R45: an all-zero bundle is four nops. -/
theorem test_decode_nops : decodeSlot 0#128 .a = .ok (.nopA 0#4) ∧ decodeSlot 0#128 .b = .ok (.nopB 0#7) ∧
    decodeSlot 0#128 .c = .ok (.nopC 0#7) ∧ decodeSlot 0#128 .d = .ok (.nopD 0#7) := by decide +kernel
/-- spec/22 R416, R419: opcodes of Masthead's commands. -/
theorem test_decode_commands : decodeCmd 0 0x22 [3#64] = some (.qpause 0 3#64) ∧ decodeCmd 0 0x30 [1#64, 15#64, 2#64] =
    some (.gcreate 0 1#64 15#64 2#64) ∧ decodeCmd 0 0x6A [] = some (.fwinfo 0) ∧ decodeCmd 0 0x1B [1#64] = none := by decide
/-- spec/02 R45, R47: a nonzero operand bit of a nop is refused. -/
theorem test_decode_refuses_nop_operands :
    (match decodeSlot (inSlot .b 0#32 1#32) .b with | .ok _ => false | .error _ => true) = true := by decide +kernel

/-! ### Small states -/

/-- Sequencer 0 with given parts; its core is group 15, which runs context 1 of owner 0. -/
def st (r : Regs) (c : Ctl) (f : Flight) : State :=
  { State.reset with
    seqs := [(0, { r := r, c := { c with mode := .running }, f := f })], ctxs := [(1, { mode := .active })]
    groups := [(15, { mode := .running, ctx := 1, bound := [1] })], owners := [(0, { used := true })] }

/-- A leaf that permits everything and is dirty. -/
abbrev leaf : Nat := 0x3D

/-- The page at 0x10000, of 64 KiB, stands in DRAM at 0x10000, and its translation is cached on die 0. -/
def tlb0 : TlbEnt :=
  { ctx := 1, va := 0x10000, size := 65536, ipa := 0x10000, pa := 0x10000, e1 := BitVec.ofNat 64 (0x10000 + 0x1D),
    e2 := BitVec.ofNat 64 (0x10000 + leaf), e2at := 0x20000 }

/-- The same state with that translation, and a fresh line of zeros at 0x10000 in the L1 of core 0. -/
def mst (r : Regs) (c : Ctl) (f : Flight) : State :=
  { st r c f with
    dies := [(0, { tlb := [tlb0] })]
    cores := [(0, { l1 := [(0x400 * 65536 + 1, { data := 0#512, have_ := BitVec.allOnes 64, dirty := 0#64, ctx := 1 })] })] }

/-- A bundle of the window, its bits and the queues that have issued it. -/
def win (bits : BitVec 128) (mask : BitVec 4) : Win := { bn := 0, addr := 0x10000#64, bits := bits, mask := mask }

/-- s1 = 0x10008, s2 = 8, s3 = -2^63, s4 = -1. -/
def rg : Regs := { s := [(1, 0x10008#64), (2, 8#64), (3, 0x8000000000000000#64), (4, BitVec.allOnes 64)] }

def good {α : Type} : Try α → Bool
  | .ok _ _ => true
  | _ => false

theorem good_ok {α : Type} {x : Try α} (h : good x = true) : ∃ s a, x = .ok s a := by
  cases x with
  | ok s a => exact ⟨s, a, rfl⟩
  | trap => cases h
  | wait => cases h

/-- A translation that changes no state and answers a place that meets a test. -/
def maps (s : State) (x : State × Except Trap Tr) (f : Tr → Bool) : Bool :=
  match x.2 with
  | .ok tr => decide (x.1 = s) && f tr
  | .error _ => false

/-! ### Operands and states that meet the hypotheses: scalar work and control -/

theorem witness_scalar_writes : Stmt.scalarResult (st rg {} {}) (.addAr 0#4 5#6 1#6 2#6) = some (0#7, 5#6, 0x10010#64) ∧
    Stmt.scalarResult (st rg {} {}) (.shlAi 0#4 0#6 2#6 63#7) = some (0#7, 0#6, 0#64) ∧ (st rg {} {}).guardOn 0#7 = true := by
  decide +kernel

theorem witness_high_products : (st rg {} {}).guardA 0#4 = true := by decide +kernel

theorem witness_bit_fields : (st rg {} {}).guardOn 0#7 = true ∧ (0#6).toNat + (63#6).toNat + 1 ≤ 64 ∧
    (63#6).toNat + (0#6).toNat + 1 ≤ 64 := by decide +kernel

/-- A divide under way: by zero, of -2^63 by -1, signed, unsigned. -/
def dst (a b : Word) (signed : Bool) : State := st {} {} { divu := some { dividend := a, divisor := b, signed := signed, dest := 5#6 } }

theorem witness_divide : (st rg {} {}).guardA 0#4 = true ∧ (st rg {} {}).me.f.divu = none ∧
    ((dst 7#64 0#64 true).seq 0).f.divu = some { dividend := 7#64, divisor := 0#64, signed := true, dest := 5#6 } ∧
    (0x8000000000000000#64).toInt = -2 ^ 63 ∧ (BitVec.allOnes 64).toInt = -1 := by decide +kernel
theorem test_divide_by_zero : (match exec (.divComplete 0) (dst 7#64 0#64 true) with
    | .next t => (t.seq 0).r.getS 5#6 | _ => 0#64) = BitVec.allOnes 64 := by decide +kernel
theorem test_divide_truncates : (match exec (.divComplete 0) (dst (-7#64) 2#64 true) with
    | .next t => (t.seq 0).r.getS 5#6 | _ => 0#64) = -3#64 := by decide +kernel

theorem witness_predicate_logic : Stmt.predicateResult (st rg {} {}) (.pand 0#7 1#7 0#7 0#7 1#1) = some (0#7, 1#7, 0#32) ∧
    Stmt.predicateResult (st rg {} {}) (.pmov 0#7 0#7 1#7) = some (0#7, 0#7, 0#32) ∧ (st rg {} {}).guardOn 0#7 = true ∧
    (31#7).toNat ≤ 31 := by decide +kernel

theorem witness_compares : Stmt.compareResult (st rg {} {}) (.cmpLtAr 0#4 0#6 3#6 4#6) = some (0#7, 0#6, true) ∧
    Stmt.compareResult (st rg {} {}) (.cmpLtuAr 0#4 1#6 4#6 3#6) = some (0#7, 1#6, false) ∧ (st rg {} {}).guardOn 0#7 = true := by
  decide +kernel

theorem witness_transfers : (st rg {} {}).guardA 0#4 = true ∧ ((st rg {} {}).rs 0#6).extractLsb' 0 4 = 0#4 ∧
    (∃ x : Seq, x.c.turn = some 0 ∧ x.c.redirect = some 0x10000#64) :=
  ⟨by decide +kernel, by decide +kernel, { c := { turn := some 0, redirect := some 0x10000#64 } }, rfl, rfl⟩

/-- A sequencer whose window's only bundle has issued in every queue but A. -/
def lone (bits : BitVec 128) (r : Regs) (f : Flight) : State :=
  { st r { window := [win bits 0xE#4], turn := some 0, pc := 0x10010#64, bn := 1 } f with cur := { addr := 0x10000#64 } }

/-- The oldest slot with nothing under way; the oldest with a result under way; and a younger one. -/
theorem witness_traps : (lone 0#128 rg {}).me.isOldest 0 0 false = true ∧ (lone 0#128 rg {}).settleTo 0 0 = [] ∧
    (lone 0#128 rg { divu := some { dividend := 1#64, divisor := 1#64, signed := false, dest := 1#6 } }).settleTo 0 0 ≠ [] ∧
    (st {} { window := [win 0#128 0#4] } {}).me.isOldest 0 1 false = false ∧ (lone 0#128 rg {}).guardA 0#4 = true ∧
    ((lone 0#128 rg {}).rs 1#6).extractLsb' 0 4 ≠ 0#4 ∧ (0x100#13) ≠ 0#13 ∧ (lone 0#128 rg {}).me.isOldest 0 0 true = true ∧
    (lone 0#128 rg {}).drainAll 0 0 = [] ∧ (lone 0#128 rg {}).drainStreams 0 = [] ∧ ((lone 0#128 rg {}).relGate 0 1).isNone = true ∧
    (lone 0#128 rg {}).ctxOf 0 = 1 ∧ (lone 0#128 rg {}).me.c.window ≠ [] := by decide +kernel
/-- A dirty line of the L1 whose home an mcas has locked keeps the release that comes with a trap. -/
theorem witness_trap_held : (({ lone 0#128 rg {} with
    dies := [(0, { locks := [(0x400, 5)] })]
    cores := [(0, { l1 := [(0x400 * 65536 + 1, { data := 0#512, have_ := BitVec.allOnes 64, dirty := 1#64, ctx := 1 })] })] }
    : State).relGate 0 1).isSome = true := by decide +kernel
/-- spec/03 R71: a halt in slot A of the oldest bundle. -/
theorem witness_halt_stop : (match ((lone (inSlot .a 0#32 (0b010_000110_0000_0000000000000000101#32)) {} {}).seq 0).haltCode with
    | some (e, code) => decide (e.bn = 0) && code == 5#19 | none => false) = true := by decide +kernel

def lev (n t : Word) (stages : Nat) (saved : List (BitVec 32)) : Loop :=
  { start := 0x10000#64, last := 0x10000#64, n := n, stages := stages, t := t, saved := saved }

theorem witness_loops : (lone 0#128 rg {}).guardA 0#4 = true ∧ (lone 0#128 rg {}).rs 0#6 = 0#64 ∧ (lone 0#128 rg {}).rs 2#6 ≠ 0#64 ∧
    (7#4).toNat ≤ 7 ∧ (lone 0#128 rg {}).me.isOldest 0 0 true = true ∧ (lone 0#128 rg {}).askEvents 0 = [] := by decide +kernel
/-- A level that counts on, and one that ends, with stages and without. -/
theorem witness_back_edge : ∃ x : Seq, x.c.turn = some 0 ∧ x.c.redirect = none ∧ x.c.pushed = false ∧
    x.c.loops = [lev 2#64 0#64 1 [7#32]] ∧ (lev 2#64 0#64 1 [7#32]).last = x.c.pc - 16#64 ∧
    (lev 2#64 0#64 1 [7#32]).t.toNat + 1 < (lev 2#64 0#64 1 [7#32]).n.toNat + 1 - 1 ∧
    ¬ (lev 1#64 0#64 0 []).t.toNat + 1 < (lev 1#64 0#64 0 []).n.toNat :=
  ⟨{ c := { turn := some 0, loops := [lev 2#64 0#64 1 [7#32]], pc := 0x10010#64 } }, rfl, rfl, rfl, rfl, by decide, by decide, by decide⟩

theorem witness_regions : (st rg {} {}).guardA 0#4 = true ∧ (st rg {} {}).me.c.region.fin = none ∧
    ((st {} { region := { isOpen := true, fin := some (0, true) }, bn := 1 } {}).seq 0).issuedTo 0 = true ∧
    ((st {} { region := { isOpen := true, fin := some (0, true) }, bn := 1 } {}).seq 0).coveredLeft 0 = false := by decide +kernel

theorem witness_format_writes : (st {} { fmt := { writes := [(0, 3#14, none)] } } {}).guardA 0#4 = true ∧
    (∀ w ∈ ({ st {} { fmt := { writes := [(0, 3#14, none)] } } {} with cur := { bn := 1 } } : State).me.c.fmt.writes, w.1 < 1) ∧
    ((st {} { fmt := { writes := [(0, 3#14, none), (1, 4#14, some 1#4)] } } {}).seq 0).c.fmt.writes.Pairwise (fun a b => a.1 ≤ b.1) := by
  decide +kernel

theorem witness_control_writes : (st rg {} {}).guardA 0#4 = true := by decide +kernel

/-- Whether an attempt answers a state and a value, and whether it answers a value that meets a test. -/
def tryIs {α : Type} [DecidableEq α] (x : Try α) (s : State) (a : α) : Bool :=
  match x with
  | .ok t b => decide (t = s) && decide (b = a)
  | _ => false
def goodWith {α : Type} (x : Try α) (f : State → α → Bool) : Bool :=
  match x with
  | .ok s a => f s a
  | _ => false

theorem tryIs_eq {α : Type} [DecidableEq α] {x : Try α} {s : State} {a : α} (h : tryIs x s a = true) : x = .ok s a := by
  cases x with
  | ok t b => simp [tryIs] at h; rw [h.1, h.2]
  | trap => cases h
  | wait => cases h

/-- Where the page of tlb0 puts 0x10008. -/
def tr0 : Tr := { pa := 0x10008, ipa := 0x10008, e1 := BitVec.ofNat 64 (0x10000 + 0x1D), e2 := BitVec.ofNat 64 (0x10000 + leaf),
                  e2at := 0x20000, size := 65536 }

/-! ### Memory -/

/-- LD_D of the word at 0x10008: permitted, readable, and served by the L1. -/
theorem witness_load_form : Stmt.loadForm (.ldD 0#7 5#6 1#6 0#11 none) = some (8, 0#7, 5#6, 1#6, 0#11, none) := rfl
theorem witness_loads : (mst rg {} {}).guardOn 0#7 = true ∧ addrBad 0x10008#64 8 { cls := pcMem } = none ∧
    (mst rg {} {}).meetEvents false 0x10008 8 = [] ∧
    good ((mst rg {} {}).plainRead 0 0x10008#64 8 (acqOuter none) { cls := pcMem }) = true ∧
    maps (mst rg {} {}) ((mst rg {} {}).translate 0 1 0x10008#64 { cls := pcMem }) (fun tr => !eNc tr.e2 &&
      (mst rg {} {}).keyOf (lineOf tr.pa) == ((mst rg {} {}).kid (eKsl tr.e2)).getD 0 &&
      (match (mst rg {} {}).l1 0 (lineOf tr.pa) 1 with
        | some ln => ln.fresh ((mst rg {} {}).core 0).gen && byteMask (tr.pa % 64) 8 &&& ~~~ ln.have_ == 0#64
        | none => false)) = true ∧ (mst rg {} {}).needsWalk 0 1 0x10008#64 false = false ∧
    (mst rg {} {}).needsWalk 0 1 0x10008#64 true = false := by decide +kernel
/-- A channel's status word in the copy aperture: spec/12 R296. -/
theorem witness_loads_channel : ∃ a : Word, a.toNat / 2 ^ 56 = 0 ∧ inAperture a = true ∧ a.toNat % 64 = 8 ∧ a.toNat % 65536 < 1024 :=
  ⟨0x00FF000000000008#64, by decide +kernel⟩
theorem test_ld_sign_is_zero : (match exec (.ldB 0#7 5#6 1#6 0#11 none)
    { mst rg {} {} with cores := [(0, { l1 := [(0x400 * 65536 + 1, { data := 0xFF#512 <<< 64, have_ := BitVec.allOnes 64, dirty := 0#64, ctx := 1 })] })] } with
    | .next t => t.me.f.outs.map (fun o => o.v) | _ => []) = [0xFF#1024] := by decide +kernel

def out (d : Dst) (v act : BitVec 1024) : Out := { k := 0, dst := d, v := v, act := act }

theorem witness_results : ((st {} {} { outs := [out (.s 0#6) 7#1024 (BitVec.allOnes 1024)] }).seq 0).f.outs.find? (fun o => o.k == 0) =
      some (out (.s 0#6) 7#1024 (BitVec.allOnes 1024)) ∧
    ((st {} {} { outs := [out (.v 3#5) 7#1024 0xFF#1024] }).seq 0).f.outs.find? (fun o => o.k == 0) = some (out (.v 3#5) 7#1024 0xFF#1024) ∧
    ((st {} {} { outs := [out .drop 7#1024 0#1024] }).seq 0).f.outs.find? (fun o => o.k == 0) = some (out .drop 7#1024 0#1024) := by
  decide +kernel
theorem witness_load_queue : ((st {} {} { lq := [{ id := 2, coming := some 7#64 }] }).seq 0).f.lq.find? (fun e => e.id == 2) =
      some { id := 2, coming := some 7#64 } ∧
    ((st {} {} { lq := [{ id := 2, coming := some 7#64, pop := some 0#6 }] }).seq 0).f.lq.find? (fun e => e.id == 2) =
      some { id := 2, coming := some 7#64, pop := some 0#6 } ∧
    (st {} {} {}).me.f.reserved = [] ∧ (st {} {} { lq := [{ id := 2, val := some 7#64 }] }).me.f.reserved = [{ id := 2, val := some 7#64 }] ∧
    (st {} {} { lq := [{ id := 2 }] }).me.f.reserved = [{ id := 2 }] := by decide +kernel

theorem witness_store_form : Stmt.storeForm (.stD 0#7 5#6 1#6 0#11 none) = some (8, 0#7, 5#6, 1#6, 0#11, none) := rfl
theorem witness_stores : startsCopy 0x10008#64 8 = false ∧ addrBad 0x10008#64 8 { cls := pcMem, write := true } = none ∧
    good ((mst rg {} {}).storeCheck 0 0x10008#64 { cls := pcMem, write := true }) = true ∧
    (match (mst rg {} {}).storeCheck 0 0x10008#64 { cls := pcMem, write := true } with
      | .ok s1 _ => !s1.fullB && (s1.streamMeets false 0x10008 8).isEmpty && good (s1.releaseFirst none) && good (s1.releaseFirst (some .cr))
      | _ => false) = true := by decide +kernel

/-- A store of 0x1122334455667788 to 0x10008, at the head of a queue. -/
def sent : StoreEnt := { bn := 0, act := .plain [{ addr := 0x10008, size := 8, data := 0x1122334455667788#64 }] }

theorem witness_store_perform : ((mst {} {} { storeB := [sent] }).seq 0).f.storeB = [sent] ∧ sent.rel = none ∧
    (mst {} {} { storeB := [sent] }).olderClash 0 1 sent = false ∧ (mst {} {} { storeB := [sent] }).atFirst 0 sent = false ∧
    (mst {} {} { storeC := [sent] }).atFirst 0 sent = false ∧ (mst {} {} { storeB := [sent] }).ctxOf 0 = 1 ∧
    (mst {} {} { storeC := [sent] }).olderClash 0 2 sent = false ∧
    maps (mst {} {} { storeB := [sent] }) ((mst {} {} { storeB := [sent] }).translate 0 1 0x10008#64 { cls := pcMem, write := true })
      (fun tr => !eNc tr.e2 && eD tr.e2 && (mst {} {} {}).keyOf (lineOf tr.pa) == ((mst {} {} {}).kid (eKsl tr.e2)).getD 0 &&
        decide (tr.pa % 64 + 8 ≤ 64) && ((mst {} {} {}).l1 0 (lineOf tr.pa) 1).isSome) = true := by decide +kernel
theorem test_store_bytes : (match exec (.storePerform 0 1) (mst {} {} { storeB := [sent] }) with
    | .next t => [t.byteSeen 0 1 0x10007, t.byteSeen 0 1 0x10008, t.byteSeen 0 1 0x1000F, t.byteSeen 0 1 0x10010] | _ => []) =
    [0#8, 0x88#8, 0x11#8, 0#8] := by decide +kernel

/-- Local accesses: s5 = the scratchpad's offset 64 of the own core (spec/07 R157). -/
def lrg : Regs := { s := [(5, 64#64)] }
def lent : StoreEnt := { bn := 0, act := .loc [{ addr := 64, size := 8, data := 7#64 }] false }

/-- With buffer 0 over the first 1024 bytes of the scratchpad, in a state. -/
def lst (b : BitVec 3) (f : Flight) : State := { st lrg {} f with cores := [(0, { descs := [(0, { lines := 16#15, state := b })] })] }
theorem witness_local : (lst bfFull {}).guardOn 0#7 = true ∧ (lst bfFull {}).locCheck 0 1 64#64 8 opRead pcMem = .ok (.spad 0 64) ∧
    (lst bfFull {}).meetEvents true 64 8 = [] ∧ (lst bfFull {}).regionWait = false ∧ ((lst bfFull {}).core 0).marked 64 = none ∧
    (lst bfFilling {}).locCheck 0 1 64#64 8 opWrite pcMem = .ok (.spad 0 64) ∧ (lst bfFilling {}).fullB = false ∧
    (lst bfFilling {}).streamMeets true 64 8 = [] := by decide +kernel
theorem witness_local_store : ((st {} {} { storeB := [lent] }).seq 0).f.storeB = [lent] ∧ lent.rel = none ∧
    (st {} {} { storeB := [lent] }).olderClash 0 1 lent = false ∧ locOf 0 64#64 = some (.spad 0 64) ∧
    ((st {} {} {}).core 0).marked 64 = none := by decide +kernel

/-! ### Pennants -/

/-- Context 1 has pennants 0 to 15 of die 0; s5 = pennant 5, s6 = 0, s7 = the cursor of a ring of four slots at .cl (spec/11 R255). -/
def prg : Regs := { s := [(5, 5#64), (6, 0#64), (7, 0x0003200000000000#64), (8, 0x0000000500000005#64)] }
def pst (p : Pennant) (c : Ctl) (f : Flight) : State :=
  { st prg c f with ctxs := [(1, { mode := .active, wins := [(0, (0, 16))] })], dies := [(0, { pen := [(5, p)] })] }

theorem witness_pennant_adds : (pst {} {} {}).guardOn 0#7 = true ∧ (pst {} {} {}).penOk 1 5#32 = true ∧ (pst {} {} {}).fullB = false ∧
    good ((pst {} {} {}).releaseHal .cl) = true ∧ scopeOf (((pst {} {} {}).rs 7#6).extractLsb' 45 3) = some .cl ∧
    (pst {} {} {}).penOk 1 (((pst {} {} {}).rs 8#6).extractLsb' 32 32) = true := by decide +kernel
def addSt (count v : Word) (clr : Bool) : State :=
  { pst { count := count } {} {} with hal := [{ k := 0, q := 0, ctx := 1, op := .add 5#32 v clr }] }
theorem witness_pennant_add : (addSt 1#64 1#64 true).hal.find? (fun e => e.k == 0) = some { k := 0, q := 0, ctx := 1, op := .add 5#32 1#64 true } ∧
    (addSt 1#64 1#64 true).earlierHal { k := 0, q := 0, ctx := 1, op := .add 5#32 1#64 true } = none ∧
    (BitVec.allOnes 64).toNat + (1#64).toNat = 2 ^ 64 := by decide +kernel
/-- Pennant 65 536 + 1 of die 0, in an overflow area of 16 pennants at 0x20000. -/
def ovfSt : State := { st prg {} {} with
  dies := [(0, { ovf := some (0x20000, 16) })]
  hal := [{ k := 0, q := 0, ctx := 1, op := .add 0x10001#32 3#64 false }] }
theorem witness_overflow_pennant : ovfSt.penAt 0x10001#32 = some 0x20010 ∧
    ovfSt.earlierHal { k := 0, q := 0, ctx := 1, op := .add 0x10001#32 3#64 false } = none := by decide +kernel
theorem test_overflow_pennant : (match exec (.pennantAdd 0) ovfSt with
    | .next t => [Mem.get t.mem.dram 0x20010, Mem.get t.mem.dram 0x20018] | _ => []) = [3#8, 0#8] := by decide +kernel
theorem test_pennant_add_saturates : (match exec (.pennantAdd 0) (addSt (BitVec.allOnes 64) 1#64 false) with
    | .next t => ((t.pennant 5#32).count, (t.pennant 5#32).sat) | _ => (0#64, false)) = (BitVec.allOnes 64, true) := by decide +kernel
theorem test_pennant_add_reaches_the_top : (match exec (.pennantAdd 0) (addSt (BitVec.allOnes 64) 0#64 false) with
    | .next t => ((t.pennant 5#32).count, (t.pennant 5#32).sat) | _ => (0#64, true)) = (BitVec.allOnes 64, false) := by decide +kernel

theorem witness_pennant_reads : (pst {} {} {}).penOk 1 (((pst {} {} {}).rs 5#6).setWidth 32) = true ∧ (pst {} {} {}).earlierHalEvents = [] ∧
    ((pst {} {} {}).pennant 5#32).latch = false ∧ ((pst { latch := true } {} {}).pennant 5#32).latch = true ∧
    ((st {} {} { asks := [.reg 0#6 7#64] }).seq 0).f.asks = [.reg 0#6 7#64] ∧
    ((st {} {} { asks := [.pair 0#6 true 0#7 true] }).seq 0).f.asks = [.pair 0#6 true 0#7 true] ∧ (0#7) ≠ 0#6 ++ 1#1 ∧
    ((st {} {} { asks := [.pair 2#6 true 9#7 false] }).seq 0).f.asks = [.pair 2#6 true 9#7 false] ∧ 9#7 ≠ 2#6 ++ 0#1 ∧ 9#7 ≠ 2#6 ++ 1#1 := by
  decide +kernel

def heldAsk (n : BitVec 7) (target : Word) (slot : Option (BitVec 6 × Word)) : HoldB :=
  { bn := 0, addr := 0x10000#64, what := .wait { h := 5#32, target := target, acq := none, n := n, slot := slot } false }

theorem witness_waits : Stmt.askOf (pst {} {} {}) (.pnWait 0#7 none 5#6 6#6 0#7) =
      some (0#7, { h := 5#32, target := 0#64, acq := none, n := 0#7, slot := none }) ∧
    Stmt.askOf (pst {} {} {}) (.rbAwait 0#7 9#6 5#6 7#6 0#7) =
      some (0#7, { h := 5#32, target := 1#64, acq := some .cl, n := 0#7, slot := some (9#6, 0#64) }) ∧
    (pst {} {} {}).penOk 1 5#32 = true ∧ (pst {} {} {}).earlierHalEvents = [] ∧
    ((pst {} {} { holdB := some (heldAsk 3#7 0#64 none) }).seq 0).f.holdB = some (heldAsk 3#7 0#64 none) ∧
    ((pst {} {} { holdB := some (heldAsk 3#7 0#64 none) }).seq 0).f.asks = [] ∧
    ((pst {} {} {}).pennant 5#32).latch = false ∧ (0#64).toNat ≤ ((pst {} {} {}).pennant 5#32).count.toNat ∧
    ((pst {} {} {}).pennant 5#32).count.toNat < (1#64).toNat ∧ 0 ∉ ((pst {} {} {}).die 0).waiters ∧
    ((pst {} {} {}).die 0).waiters.length < 4096 := by decide +kernel

/-! ### Atomics, mcas, fences, buffers -/

theorem witness_atomic_form : Stmt.atomicForm (mst rg {} {}) (.atR 0#7 2#6 1#6 .sy .add) =
    some (0#7, .sy, 1#6, true, some .add, 8#64, 0#64) ∧ Stmt.atomicForm (mst rg {} {}) (.red 0#7 2#6 1#6 .cl .add) =
    some (0#7, .cl, 1#6, false, some .add, 8#64, 0#64) := ⟨rfl, rfl⟩
theorem witness_atomics : (mst rg {} {}).guardOn 0#7 = true ∧ tryIs ((mst rg {} {}).atomicCheck .sy 0x10008#64) (mst rg {} {}) tr0 = true ∧
    tryIs ((mst rg {} {}).atomicCheck .cl 0x10008#64) (mst rg {} {}) tr0 = true ∧ (mst rg {} {}).beforeAtomic .sy 0x10008#64 = [] ∧
    (mst rg {} {}).beforeAtomic .cl 0x10008#64 = [] ∧ (mst rg {} {}).me.f.reserved.length < 64 ∧ (mst rg {} {}).fullB = false := by
  decide +kernel

/-- An atomic on its way to its Halyard. -/
def hent : HalEnt := { k := 0, q := 0, ctx := 1, op := .atomic 0x10008#64 0x10008 .max 5#64 (some 0) }
def hst : State := { mst rg {} { lq := [{ id := 0 }] } with hal := [hent] }
theorem witness_hal_quiet : Stmt.quiet hst 0 1 0x10008#64 pcHal tr0 :=
  ⟨by decide +kernel, by decide +kernel, by decide +kernel, by decide +kernel, by decide +kernel⟩
theorem witness_hal_atomic : hst.hal.find? (fun e => e.k == 0) = some hent ∧ hst.earlierHal hent = none ∧
    (hst.gate (lineOf 0x10008) true).isNone = true := by decide +kernel
theorem witness_hal_form : Stmt.halForm hent.op = some (0x10008#64, some .max, 5#64, 0#64, some 0) := rfl
/-- The entry is in the load queue of the launch that runs, or no other launch's queue is kept. -/
theorem witness_result_stays : Stmt.resultStays hst 0 0 := Or.inl (by decide +kernel)
theorem witness_result_stays_held : Stmt.resultStays { hst with
    seqs := [(0, { r := rg, c := { kept := [(0, { r := rg, fmt := {}, ports := [], lq := [] })] }, f := { lq := [{ id := 0 }] } })] } 0 0 :=
  Or.inr ⟨{ id := 0 }, by decide +kernel, rfl⟩
theorem test_atomic_max_is_signed : (match exec (.halyardAtomicExecute 0)
    { hst with mem := { dram := Mem.setWord [] 0x10008 (BitVec.allOnes 64) } } with
    | .next t => (t.engWord 0x10008, (t.seq 0).f.lq.map (·.coming)) | _ => (0#64, [])) = (5#64, [some (BitVec.allOnes 64)]) := by decide +kernel

def sat : ScopedAt := { bn := 0, va := 0x10008#64, op := none, x := 0#64, y := 9#64, lq := 0 }
def full (d : BitVec 512) : CLine := { data := d, have_ := BitVec.allOnes 64, dirty := 0#64, ctx := 1 }
/-- No L1 line; the cluster's L2 holds line 0x400 whole, with a scoped copy of it or none. -/
def sst (copies : Tab CLine) : State :=
  { mst rg {} { lq := [{ id := 0 }], scopedAts := [sat] } with
    cores := [], clusters := [(0, { l2 := [(0x400, full 0#512)], scopedCopies := copies })] }
theorem witness_scoped : ((sst []).seq 0).f.scopedAts = [sat] ∧ ((sst []).seq 0).f.storeBefore sat = false ∧ (sst []).vstBefore 0 sat = false ∧ ((sst []).l1 0 0x400 1).isNone = true ∧
    Tab.get? ((sst []).cluster 0).scopedCopies 0x400 = none ∧ (sst []).l2 0 0x400 = some (full 0#512) ∧
    Tab.get? ((sst [(0x400, full 0#512)]).cluster 0).scopedCopies 0x400 = some (full 0#512) := by decide +kernel
theorem witness_scoped_quiet : Stmt.quiet (sst []) 0 1 0x10008#64 pcMem tr0 ∧ Stmt.quiet (sst [(0x400, full 0#512)]) 0 1 0x10008#64 pcMem tr0 :=
  ⟨⟨by decide +kernel, by decide +kernel, by decide +kernel, by decide +kernel, by decide +kernel⟩,
    ⟨by decide +kernel, by decide +kernel, by decide +kernel, by decide +kernel, by decide +kernel⟩⟩
theorem test_scoped_cas : (match exec (.scopedAtomicExecute 0) (sst []) with
    | .next t => ((Tab.get? (t.cluster 0).scopedCopies 0x400).map fun c => takeAt c.data 8 8) | _ => none) = some 9#64 := by decide +kernel
/-- The cluster owns the line of its scoped copy. -/
def own : State := (sst [(0x400, { full 7#512 with dirty := 1#64 })]).own 0x400 0 1
theorem witness_scoped_writeback : (own.gate 0x400 true).isNone = true ∧ own.lost 0x400 = false ∧ (Tab.get? (own.cluster 0).scopedCopies 0x400).isSome = true ∧
    own.ownsM 0x400 0 = true ∧ (own.l2 0 0x400).isSome = true := by decide +kernel

/-- s5 = 0x10040, where one entry names the word at 0x10080, expects 0 and writes 5; s6 = 1, s7 = 17. -/
def arg : Regs := { s := [(5, 0x10040#64), (6, 1#64), (7, 17#64)] }
def ast : State := { mst arg {} {} with mem := { dram := Mem.setWord (Mem.setWord [] 0x10040 0x10080#64) 0x10050 5#64 } }
theorem witness_mcas : ast.guardOn 0#7 = true ∧ 16 < (ast.rs 7#6).toNat ∧ (ast.rs 0#6).toNat = 0 ∧ (ast.rs 6#6).toNat = 1 ∧
    ast.drainStreams 0 = [] ∧ ast.streamFault.isNone = true ∧
    goodWith (ast.tryRelease 0 .sy) (fun s1 _ => goodWith (s1.tryHalDone 0) fun s2 _ =>
      goodWith (s2.mcasRead 0 (ast.rs 5#6) 0 1) fun s3 es => goodWith (s3.mcasCheck 0 (ast.rs 5#6) es) fun s4 fs =>
        decide (fs.Pairwise (fun a b => lineOf a.pa ≠ lineOf b.pa)) && decide (s4.me.f.reserved.length < 64) &&
          decide (fs.map (fun e => (e.pa, e.x, e.y)) = [(0x10080, 0#64, 5#64)])) = true := by decide +kernel

def ment (x : Word) : McasEnt := { idx := 0, va := 0x10008#64, pa := 0x10008, x := x, y := 5#64 }
def mment : McasEnt := { idx := 1, va := 0x10048#64, pa := 0x10048, x := 0#64, y := 6#64 }
def mheld (m : Mcas) : State := mst rg {} { lq := [{ id := 0 }], holdB := some { bn := 0, addr := 0x10000#64, what := .mcas m } }
theorem witness_mcas_locks : (mheld { ents := [ment 0#64, mment], lq := 0 }).gate (lineOf 0x10008) true = none ∧
    Tab.get? ((mheld { ents := [ment 0#64], lq := 0 }).die ((mheld { ents := [ment 0#64], lq := 0 }).homeDie 0x10008)).locks (lineOf 0x10008) = none ∧
    ((mheld { ents := [ment 0#64], lq := 0 }).die ((mheld { ents := [ment 0#64], lq := 0 }).homeDie 0x10008)).locks.length < 256 ∧
    (mheld { ents := [ment 0#64], lq := 0 }).tlbFind 0 1 0x10008#64 = some tlb0 ∧ eD tlb0.e2 = true ∧ eNc tlb0.e2 = false ∧ (mheld { ents := [ment 0#64], lq := 0 }).routed (paDev 0x10008) = true ∧
    (mheld { ents := [ment 0#64], lq := 0 }).engWord 0x10008 = (ment 0#64).x ∧
    (mheld { ents := [ment 1#64], lq := 0 }).engWord 0x10008 ≠ (ment 1#64).x ∧
    (mheld { ents := [ment 0#64], lq := 0 }).keyOf (lineOf (tlb0.tr 0x10008#64).pa) =
      ((mheld { ents := [ment 0#64], lq := 0 }).kid (eKsl tlb0.e2)).getD 0 ∧
    maps (mheld { ents := [ment 0#64], lq := 0 }) ((mheld { ents := [ment 0#64], lq := 0 }).translate (dieOf 0)
      ((mheld { ents := [ment 0#64], lq := 0 }).ctxOf 0) 0x10008#64 { cls := pcHal, write := true }) (fun tr => tr.pa == (ment 0#64).pa) = true ∧
    (mheld { ents := [ment 0#64], lq := 0 }).clock < ({ ents := [ment 0#64], lq := 0 } : Mcas).since + 4096 ∧
    [ment 0#64, mment].all (fun e => e.pa / 2 ^ 49 % 8 == (mheld { ents := [], lq := 0 }).link.dev.toNat) = true := by decide +kernel
/-- The window and the wait between attempts are over at 5 000 cycles. -/
def late (m : Mcas) : State := { mheld m with clock := 5000 }
theorem witness_mcas_windows : ({ ents := [ment 0#64], lq := 0 } : Mcas).since + 4096 ≤ (late { ents := [ment 0#64], lq := 0 }).clock ∧
    ({ ents := [ment 0#64], lq := 0, attempt := 15, backoff := true } : Mcas).since + 64 * 15 ≤ (late { ents := [], lq := 0 }).clock ∧
    ({ ents := [ment 0#64], lq := 0, since := 1 } : Mcas).since + 32768 > (late { ents := [], lq := 0 }).clock := by decide +kernel
theorem test_mcas_writes : (match exec (.mcasLockGrant 0) (mheld { ents := [ment 0#64], lq := 0 }) with
    | .next t => (t.engWord 0x10008, (t.seq 0).mcas.map fun m => m.2.result) | _ => (0#64, none)) = (5#64, some (some 0#64)) := by decide +kernel
theorem test_mcas_differs : (match exec (.mcasLockGrant 0) (mheld { ents := [ment 1#64], lq := 0 }) with
    | .next t => (t.engWord 0x10008, (t.seq 0).mcas.map fun m => m.2.result) | _ => (7#64, none)) = (0#64, some (some 1#64)) := by decide +kernel
theorem witness_mcas_attempts : ((mheld { ents := [ment 0#64], lq := 0, attempt := 15 }).seq 0).f.holdB =
      some { bn := 0, addr := 0x10000#64, what := .mcas { ents := [ment 0#64], lq := 0, attempt := 15 } } ∧
    ((mheld { ents := [ment 0#64], lq := 0, attempt := 14 }).seq 0).f.holdB =
      some { bn := 0, addr := 0x10000#64, what := .mcas { ents := [ment 0#64], lq := 0, attempt := 14 } } ∧
    ((mheld { ents := [], lq := 0, result := some 0#64 }).seq 0).f.lq.find? (fun d => d.id == 0) = some { id := 0 } := by decide +kernel

theorem witness_moved : ((mst rg {} { storeB := [sent] }).seq 0).mcas.isNone = true ∧
    ((mst rg {} { storeB := [sent] }).oldestRequest 0) = some 0x10008#64 ∧
    ((mheld { ents := [ment 0#64], lq := 0, attempt := 1, backoff := true }).seq 0).f.holdB =
      some { bn := 0, addr := 0x10000#64, what := .mcas { ents := [ment 0#64], lq := 0, attempt := 1, backoff := true } } := by decide +kernel

theorem witness_fences : (st rg {} {}).guardOn 0#7 = true ∧ (st rg {} {}).drainStreams 0 = [] ∧ (st rg {} {}).streamFault.isNone = true ∧
    (st { q := [(0, { bound := true, pat := { ctl := 1#5 }, fault := some { code := 0x10 } })] } {} {}).streamFault =
      some { code := 0x10 } := by decide +kernel
def fst (h : Hold) : State := mst rg {} { holdB := some { bn := 0, addr := 0x10000#64, what := h } }
theorem witness_fence_complete : good ((fst (.fence .sy)).tryRelease 0 .sy) = true ∧ good ((fst (.xfence .copy .mxs)).classDone 0 .copy) = true ∧
    (mst rg {} { storeB := [sent] }).storeEvents 0 ++ (mst rg {} { storeB := [sent] }).drainStreams 0 ≠ [] := by decide +kernel

/-- s5 = 0, s6 = 2^19, s7 = 2^20: a buffer whose two banks are the whole scratchpad, and one of a single bank. -/
def brg : Regs := { s := [(5, 0#64), (6, 0x80000#64), (7, 0x100000#64)] }
theorem witness_buffers : (st brg {} {}).guardOn 0#7 = true ∧ (st brg {} {}).descOk 0 63 = true ∧ State.reset.descOk 0 0 = false ∧
    ((st brg {} {}).rs 5#6).toNat + 2 * ((st brg {} {}).rs 6#6).toNat ≤ 2 ^ 20 ∧ ((st brg {} {}).rs 5#6).toNat + ((st brg {} {}).rs 7#6).toNat ≤ 2 ^ 20 ∧
    (∀ b, b < 4 → (st brg {} {}).quadRuns 0 b 1 = true) := by decide +kernel
def bst (op : BufOp) (b : BitVec 3) (zeroing : Bool) : State :=
  { st {} {} { holdB := some { bn := 0, addr := 0x10000#64, what := .buf 2#6 op } } with
    cores := [(0, { descs := [(2, { lines := 2#15, base := 1#14, state := b, zeroing := zeroing })], spad := [(64, 5#8), (192, 6#8)] })] }
theorem witness_buffer_change : Stmt.changeDue (bst .fill bfEmpty false) 0 { bn := 0, addr := 0x10000#64, what := .buf 2#6 .fill } 2#6 .fill ∧
    Stmt.changeDue (bst .done bfFull false) 0 { bn := 0, addr := 0x10000#64, what := .buf 2#6 .done } 2#6 .done :=
  ⟨⟨by decide +kernel, rfl, by decide +kernel, by decide +kernel, by decide +kernel, fun _ => by decide +kernel⟩,
    ⟨by decide +kernel, rfl, by decide +kernel, by decide +kernel, by decide +kernel, fun h => BufOp.noConfusion h⟩⟩
theorem witness_buffer_decl : Stmt.changeDue (bst (.decl 64 128 true 1#2) bfFree false) 0
      { bn := 0, addr := 0x10000#64, what := .buf 2#6 (.decl 64 128 true 1#2) } 2#6 (.decl 64 128 true 1#2) ∧
    (∀ e ∈ ((bst (.decl 64 128 true 1#2) bfFree false).core 0).descs, e.2.meets 64 (2 * (64 * (BitVec.ofNat 15 (128 / 64)).toNat)) = false) :=
  ⟨⟨by decide +kernel, rfl, by decide +kernel, by decide +kernel, by decide +kernel, fun h => BufOp.noConfusion h⟩, by decide +kernel⟩
/-- The descriptor and the banks are still of the context's groups; and a group that has gone. -/
theorem witness_buffer_banks : (bst .fill bfEmpty false).descOk 0 2 = true ∧ (bst .fill bfEmpty false).declLost 0 .fill = false ∧
    (bst .fill bfEmpty false).declLost 0 (.decl 64 128 true 1#2) = false ∧
    ({ bst .fill bfEmpty false with groups := [] } : State).descOk 0 2 = false ∧
    ({ bst .fill bfEmpty false with groups := [] } : State).declLost 0 (.decl 64 128 true 1#2) = true := by decide +kernel
theorem test_buffer_fill : (match exec (.bufferStateChange 0) (bst .fill bfEmpty false) with
    | .next t => ((t.core 0).desc 2).state | _ => 7#3) = bfFilling := by decide +kernel
theorem witness_buffer_zeroing : (((bst .fill bfEmpty true).core 0).desc 2).zeroing = true := by decide +kernel
theorem test_buffer_zeroing : (match exec (.bufferZeroingDone 0 2) (bst .fill bfEmpty true) with
    | .next t => (t.core 0).spad | _ => []) = [(192, 6#8)] := by decide +kernel

/-! ### Vector work and streams -/

/-- s1 = 0x10008, p1 = two lanes, c1 = plain memory; q0 reads and q1 writes plain memory. -/
def vrg : Regs :=
  { rg with p := [(1, 3#32)], c := [(1, { ctl := 2#5 })], v := [(2, 0x80000000FFFFFFFF#1024)] }
def pat (ctl : BitVec 5) : CShape := { ctl := ctl, count0 := 2#24, stride0 := 8#40 }
def two : BitVec 128 := 0xFF#128

theorem witness_vector_forms :
    (Stmt.vectorForm (st vrg {} {}) (.vaddC3 0#7 .fp32 (.v 1#5) (.v 2#5) (.v 3#5) 0#7)).isSome = true ∧
    (Stmt.vectorForm (st vrg {} {}) (.vshrC3 0#7 .int8 (.v 1#5) (.v 2#5) (.v 3#5) 1#7)).isSome = true ∧
    (Stmt.vectorForm (st vrg {} {}) (.vmaxCs 0#7 .int16 (.q 3#3) (.q 1#3) 3#6 1#7)).isSome = true ∧
    (Stmt.vectorForm (st vrg {} {}) (.vfmaC3 0#7 .int8 (.q 3#3) (.q 1#3) (.q 2#3) 0#7)).isSome = true := ⟨rfl, rfl, rfl, rfl⟩
theorem witness_vectors : (st vrg {} {}).guardOn 0#7 = true ∧ (Stmt.typeOf .int8).2 = none ∧ (Stmt.typeOf .fp16).2 = some fp16F := by
  decide +kernel
theorem test_vector_add_wraps_each_lane : (match exec (.vaddC3 0#7 .int32 (.v 3#5) (.v 2#5) (.v 2#5) 1#7) (st vrg {} {}) with
    | .next t => t.rv 3#5 | _ => 0#1024) = 0x00000000FFFFFFFE#1024 := by decide +kernel

theorem witness_vector_compares : (5#3).toNat ≤ 5 ∧ (4#3).toNat ≤ 4 ∧ (st vrg {} {}).guardOn 0#7 = true := by decide +kernel
/-- q1 and q2 read, each with one vector filled; q3 is a write stream with room. -/
def vst2 : State :=
  let x : Stream := { bound := true, pat := { ctl := 2#5, count0 := 2#24 }, queue := [{ v := 0x3F800000C0000000#1024, act := BitVec.allOnes 128 }] }
  st { vrg with q := [(1, x), (2, { x with queue := [{ v := 0x3F80000040000000#1024, act := BitVec.allOnes 128 }] }),
                      (3, { bound := true, pat := { ctl := 3#5, count0 := 2#24 } })] } {} {}
/-- Every operand form of a source and of a destination (spec/05 R130). -/
theorem witness_vector_sources : Stmt.srcReady vst2 (.v 2#5) ∧ Stmt.srcReady vst2 (.q 1#3) ∧ Stmt.srcReady vst2 (.q 2#3) ∧
    Stmt.dstReady vst2 (.v 1#5) ∧ Stmt.dstReady vst2 (.q 3#3) ∧
    vst2.guardOn 0#7 = true ∧ (vst2.me.r.getQ 3#3).bound = true ∧ (vst2.me.r.getQ 3#3).pat.ctl.getLsbD 0 = true ∧
    (vst2.me.r.getQ 3#3).taken < (vst2.me.r.getQ 3#3).pat.steps ∧ (vst2.me.r.getQ 3#3).fault = none ∧
    (vst2.me.r.getQ 3#3).queue.length < 8 :=
  ⟨trivial, ⟨by decide +kernel, by decide +kernel, by decide +kernel, by decide +kernel⟩, ⟨by decide +kernel, by decide +kernel, by decide +kernel, by decide +kernel⟩,
    trivial, ⟨by decide +kernel, by decide +kernel, by decide +kernel, by decide +kernel, by decide +kernel⟩, by decide +kernel, by decide +kernel, by decide +kernel, by decide +kernel, by decide +kernel, by decide +kernel⟩
/-- 1.0 + 1.0 in lane 0, -2.0 + 2.0 in lane 1 (spec/05 R112). -/
theorem test_vadd_of_streams : (match exec (.vaddC3 0#7 .fp32 (.q 3#3) (.q 1#3) (.q 2#3) 3#7) { vst2 with
      seqs := vst2.seqs.mapv fun _ x => { x with r := { x.r with p := [(3, 3#32)] } } } with
    | .next t => ((t.me.r.getQ 3#3).queue.map fun v => (v.v.extractLsb' 0 64, v.act)) | _ => []) = [(0x4000000000000000#64, 0xFF#128)] := by decide +kernel
theorem test_vfma_of_a_marked_destination : (match exec (.vfmaC3 0#7 .fp32 (.q 3#3) (.q 1#3) (.q 2#3) 0#7) vst2 with
    | .next t => (t.me.c.mode, (t.me.r.getQ 1#3).taken) | _ => (.idle, 9)) = (.stopped, 0) := by decide +kernel
theorem test_vcmp_of_streams : (match exec (.vcmp 0#7 4#6 (.q 1#3) (.q 2#3) 2#3 true) vst2 with
    | .next t => (t.rp 8#7, t.rp 9#7, (t.me.r.getQ 1#3).taken, (t.me.r.getQ 2#3).queue.length) | _ => (0#32, 0#32, 0, 9)) =
    (1#32, 0xFFFFFFFE#32, 1, 0) := by decide +kernel
theorem test_vred_of_a_stream : (match exec (.vred 0#7 true .add (.q 3#3) (.q 1#3) 1#7) vst2 with
    | .next t => ((t.me.r.getQ 3#3).queue.map (·.v), (t.me.r.getQ 1#3).taken, t.me.c.fmt.raises) | _ => ([], 9, [])) =
    ([0xBF800000#1024], 1, []) := by decide +kernel
theorem witness_vector_functions : (Stmt.funForm (.vlog2 0#7 (.q 3#3) (.q 1#3) 0#7)).isSome = true ∧ Fmt.bx .fp32 = none ∧
    Fmt.bx .int8 = none ∧ (Fmt.bx .bx7).isSome = true := ⟨rfl, rfl, rfl, rfl⟩
/-- A 1.0 in lane 0 alone is the sum of every lane (spec/04 R95). -/
theorem test_vhad_of_floats : (match exec (.vhad 0#7 true (.v 3#5) (.v 2#5) true 0#7) (st { v := [(2, 0x3F800000#1024)] } {} {}) with
    | .next t => [t.rv 3#5 |>.extractLsb' 0 32, t.rv 3#5 |>.extractLsb' 480 32, t.rv 3#5 |>.extractLsb' 512 32] | _ => []) =
    [0x3F800000#32, 0x3F800000#32, 0#32] := by decide +kernel

theorem witness_vector_load : (st vrg {} {}).guardOn 0#7 = true ∧
    (∀ e ∈ Stmt.elements (vrg.getC 1#2) 0x10008#64 ((mst vrg {} {}).rp 1#7), (mst vrg {} {}).meetEvents false e.2.toNat 4 = []) ∧
    good ((mst vrg {} {}).readElems 0 0 (mst vrg {} {}).curSync true false 4
      (Stmt.elements (vrg.getC 1#2) 0x10008#64 ((mst vrg {} {}).rp 1#7)) 0) = true := by decide +kernel
theorem witness_vector_store : goodWith (tryList (Stmt.elements (vrg.getC 1#2) 0x10008#64 ((mst vrg {} {}).rp 1#7)) (mst vrg {} {})
    fun s e => s.checkE 0 true false 4 e.2) (fun s1 _ => decide (s1.cur = (mst vrg {} {}).cur) && decide (s1.me.f.storeC.length < 16) &&
      (Stmt.elements (vrg.getC 1#2) 0x10008#64 ((mst vrg {} {}).rp 1#7)).all fun e => (s1.streamMeets false e.2.toNat 4).isEmpty) = true := by
  decide +kernel
theorem test_vector_store_queues_active_elements : (match exec (.vst 0#7 2#5 1#6 1#2 0#1 1#7 0#7) (mst vrg {} {}) with
    | .next t => t.me.f.storeC.map (·.act) | _ => []) =
    [.plain [{ addr := 0x10008, size := 4, data := 0xFFFFFFFF#64 }, { addr := 0x1000C, size := 4, data := 0x80000000#64 }]] := by
  decide +kernel

def strm (ctl : BitVec 5) (vs : List SVec) (f : Option Trap) : Stream := { bound := true, pat := pat ctl, base := 0x10008#64, queue := vs, fault := f }
def qst (x : Stream) : State := mst { q := [(1, x)] } {} {}
theorem witness_streams : (qst (strm 2#5 [] none)).guardOn 0#7 = true ∧ ((qst {}).me.r.getQ 1#3).bound = false ∧
    ((qst (strm 3#5 [] none)).me.r.getQ 1#3).queue = [] ∧ (vrg.getC 1#2).ctl.getLsbD 1 = true ∧ (vrg.getCsh 0#2).ctl.getLsbD 1 = false ∧
    (qst {}).me.f.storeC = [] ∧ (qst {}).regionWait = false ∧ ((qst (strm 3#5 [{ v := 1#1024, act := two }] none)).me.r.getQ 1#3).queue =
      [{ v := 1#1024, act := two }] := by decide +kernel
theorem witness_stream_fill : ((qst (strm 2#5 [] none)).me.r.getQ 1#3).pos < ((qst (strm 2#5 [] none)).me.r.getQ 1#3).pat.steps ∧
    (qst (strm 2#5 [] none)).hasRoom 0 2 = true ∧
    good ((qst (strm 2#5 [] none)).readElems 0 1 false true false 4 (Stmt.elements (pat 2#5) ((pat 2#5).stepAddr 0x10008#64 0) 0xFFFFFFFF#32) 0) = true := by
  decide +kernel
/-- A read stream whose base has no translation latches a fault. -/
theorem witness_stream_fault : (match (st { q := [(1, { strm 2#5 [] none with base := BitVec.allOnes 64 })] } {} {}).readElems 0 1 false true false 4
    (Stmt.elements (pat 2#5) ((pat 2#5).stepAddr (BitVec.allOnes 64) 0) 0xFFFFFFFF#32) 0 with
    | .trap _ tr => !tr.filling | _ => false) = true := by decide +kernel
theorem witness_stream_drain : good (tryList ((pat 3#5).active ((pat 3#5).stepAddr 0x10008#64 0) two) (qst (strm 3#5 [{ v := 1#1024, act := two }] none))
    fun s e => s.checkE 0 true false 4 e.2) = true ∧ (qst (strm 3#5 [{ v := 1#1024, act := two }] none)).hasRoom 0 2 = true ∧
    (((pat 3#5).active ((pat 3#5).stepAddr 0x10008#64 0) two).all fun e =>
      !(qst (strm 3#5 [{ v := 1#1024, act := two }] none)).atMeets 0 0 e.2.toNat 4) = true ∧ ((qst (strm 3#5 [{ v := 1#1024, act := two }] none)).seq 0).f.storeB = [] ∧
    ((qst (strm 3#5 [{ v := 1#1024, act := two }] none)).seq 0).f.storeC = [] := by decide +kernel

/-! ### The matrix engine -/

/-- s5 = 0; k0 takes one row from the scratchpad, under buffer 0 of 4 KiB. -/
def mrg : Regs := { s := [(5, 0#64)], k := [(0, { rows := 1#6 })] }
def xst (b : BitVec 3) (f : Flight) : State := { st mrg {} f with cores := [(0, { descs := [(0, { lines := 64#15, state := b })] })] }
/-- The array that sequencer 0 drives in its group. -/
def arr : Arr := ((xst bfFull {}).array 0 []).getD { h := 0, w := 0, lat := 0 }

theorem witness_drives : Stmt.drives (xst bfFull {}) 0#7 [5#9] arr ∧ Stmt.drives (xst bfFull {}) 0#7 [5#9, 6#9] arr ∧
    (arr.h = 16 ∨ arr.h = 32) ∧ (arr.w = 16 ∨ arr.w = 32) ∧ 1 ≤ arr.lat ∧ (xst bfFull {}).me.f.tiles.length < 48 ∧
    (xst bfFull {}).mxDrains 0 = [] :=
  ⟨⟨by decide +kernel, by decide +kernel, by decide +kernel⟩, ⟨by decide +kernel, by decide +kernel, by decide +kernel⟩, by decide +kernel,
    by decide +kernel, by decide +kernel, by decide +kernel, by decide +kernel⟩
theorem witness_matrix_rows : good ((xst bfFull {}).srcRows 0 (.s 5#6) (mrg.getK 0#2) false (xst bfFull {}).wfmt arr.w 0 1) = true ∧
    good ((xst bfFull {}).srcRows 0 (.s 5#6) (mrg.getK 0#2) false (xst bfFull {}).wfmt arr.h 0 1) = true ∧
    (Fmt.bx (xst bfFull {}).wfmt).isSome = false ∧
    goodWith ((xst bfFull {}).srcRows 0 (.s 5#6) (mrg.getK 0#2) false (xst bfFull {}).afmt arr.h 0 1) (fun s1 rows =>
      rows.length == 1 && decide (s1.me.f = (xst bfFull {}).me.f) && decide (s1.me.c.fmt = (xst bfFull {}).me.c.fmt) &&
        decide (s1.cur = (xst bfFull {}).cur) && s1.me.f.weights.fam.isNone) = true := by decide +kernel
/-- q1 gives two rows, q2 takes them; weights of another family. -/
def xqs : State := { xst bfFull { weights := { fam := some .int, w := [] } } with
  seqs := [(0, { r := { mrg with q := [(1, { bound := true, pat := { ctl := 2#5, count0 := 2#24 }, queue := [{ v := 1#1024, act := BitVec.allOnes 128 }] }),
      (2, { bound := true, pat := { ctl := 3#5, count0 := 2#24 } })] }, c := { mode := .running }, f := { weights := { fam := some .int, w := [] } } })] }
theorem witness_matrix_streams : good (xqs.srcRows 0 (.q 1#3) (mrg.getK 0#2) false xqs.afmt arr.h 0 1) = true ∧
    good (xqs.srcRows 0 (.q 1#3) (mrg.getK 0#2) true xqs.wfmt arr.h 0 1) = true ∧ (xqs.me.r.getQ 2#3).bound = true ∧
    (xqs.me.r.getQ 2#3).pat.ctl.getLsbD 0 = true ∧ (xqs.me.r.getQ 2#3).taken + 1 ≤ (xqs.me.r.getQ 2#3).pat.steps ∧
    (xqs.me.r.getQ 2#3).fault = none ∧ (xqs.me.r.getQ 2#3).queue.length + 1 ≤ 8 ∧ xqs.mxBefore 0 (.q 2#3) = [] ∧
    goodWith (xqs.srcRows 0 (.q 1#3) (mrg.getK 0#2) false xqs.afmt arr.h 0 1) (fun s1 rows => rows.length == 1 &&
      decide (s1.me.f.weights.fam = some .int) && decide (Fmt.family s1.afmt ≠ .int)) = true := by decide +kernel
/-- BX weights cannot be loaded west (spec/06 R141). -/
theorem witness_west_bx : let s : State := { xst bfFull {} with seqs := [(0, { r := mrg, c := { mode := .running, fmt := { base := 0x70#14 } } })] }
    (Fmt.bx s.wfmt).isSome = true ∧ s.guardOn 0#7 = true := by decide +kernel
theorem test_mm_zero : (match exec (.mmZero 0#7 5#9 1#1) { xst bfFull {} with
      cores := [(0, { acc := [(5 * 1024, 7#32), (6 * 1024, 8#32)] })] } with
    | .next t => ((t.core 0).elem (5 * 1024), (t.core 0).elem (6 * 1024), (t.core 0).stat 5) | _ => (1#32, 1#32, 0#4)) = (0#32, 8#32, 8#4) := by
  decide +kernel

def shd : Shadow := { tile := 5, row0 := 0, rows := 1, col0 := 31, cols := 1, vals := [9#32], fin := 0 }
theorem witness_shadow : ((xst bfFull { shadow := [shd] }).seq 0).f.shadow = [shd] ∧ 1 ≤ shd.cols ∧ shd.col0 + shd.cols ≤ 32 ∧
    shd.row0 + shd.rows ≤ 32 ∧ shd.vals.length = shd.rows * shd.cols ∧ ((xst bfFull {}).seq 0).f.shadow = [] ∧
    (xst bfFull {}).early 0 0 0 false 0 = [] ∧ (xst bfFull {}).cur.slot = 0 := by decide +kernel
theorem test_shadow_entry : (match exec (.shadowEntryApply 0) (xst bfFull { shadow := [shd] }) with
    | .next t => (t.core 0).elem (5 * 1024 + 31) | _ => 0#32) = 9#32 := by decide +kernel

theorem witness_matrix_results : goodWith ((xst bfFilling {}).dstRows 0 5#6 (mrg.getK 0#2) (4 * arr.w) 4 0 1) (fun s1 _ => decide (s1.cur = (xst bfFilling {}).cur)) = true ∧
    goodWith ((xst bfFilling {}).dstRows 0 5#6 (mrg.getK 0#2) (rowBytes (xst bfFilling {}).ofmt arr.w) (rowAlign (xst bfFilling {}).ofmt) 0 1)
      (fun s1 _ => decide (s1.cur = (xst bfFilling {}).cur) && decide (s1.me.c.fmt = (xst bfFilling {}).me.c.fmt)) = true := by decide +kernel
theorem witness_matrix_fuse : (xst bfFull {}).groupOf 0 = some (15, (xst bfFull {}).group 15) ∧ (groupSeqs 15).head? = some 0 ∧
    (∀ q ∈ groupSeqs 15, (xst bfFull {}).tileEvents q = []) ∧ 1 < (groupSeqs 15).length ∧ (groupSeqs 1).length = 1 ∧
    (xst bfFull {}).groupOf 1 = some (15, (xst bfFull {}).group 15) ∧ (groupSeqs 15).head? ≠ some 1 := by decide +kernel
theorem witness_final : Stmt.drives { xst bfFull {} with cur := { slot := 3 } } 0#7 [5#9] arr ∧
    ({ xst bfFull {} with cur := { slot := 3 } } : State).cur.slot = 3 := ⟨⟨by decide +kernel, by decide +kernel, by decide +kernel⟩, rfl⟩

/-! ### Patched tensors -/

def p1 : PEnt := { num := 1, name := 11, kind := 1, closed := true, pos := 1, ostamp := 0, cctx := 1, cstamp := 1,
                   slots := [{ idx := 0, cell := 0, pay := 1#512, pre := 0#512, mask := 0xF#64 }] }
def p2 : PEnt := { p1 with num := 2, name := 12, pos := 2, cstamp := 2,
                           slots := [{ idx := 1, cell := 0, pay := 2#512, pre := 0#512, mask := 0xF#64 }] }
def p3 : PEnt := { num := 3, name := 13, kind := 0, closed := false, ostamp := 2, cctx := 1 }

/-- A tensor of one row of four int32 at 0x20000, with cells of 16 bytes; its record at 0x10100, its table at 0x10400, its map at
0x19000, its pool of four slots, two of them never used, at 0x1A000 (spec/09 R204 to R207). -/
def pmemOf (base ctl : Nat) (ents : List PEnt) : Mem :=
  let w (m : Mem) (a : Nat) (n k : Nat) := Mem.write m a (leBytes n k)
  let m := w (w (w (w [] 0x10100 base 8) 0x10108 (1 + 4 * 2 ^ 32) 8) 0x10110 ctl 8) 0x10118 0x10400 8
  let m := w (w (w m 0x10120 0x19000 8) 0x10128 0x1A000 8) 0x10130 4 8
  let m := w (w m 0x101A0 ((ents.filter (·.closed)).length + 2 ^ 21 * (ents.filter (!·.closed)).length + 2 * 2 ^ 64) 16) 0x101B8 (2 * 2 ^ 32) 8
  let m := ents.foldl (fun m p => Mem.write m (0x10400 + 32 * p.num) p.bytes) m
  (ents.flatMap fun p => slotBytes p.slots).foldl (fun m e => Mem.write m (0x1A000 + 144 * e.1) e.2) m
def pmem : Mem := pmemOf 0x20000 6 [p1, p2, p3]

/-- s5 = the record, s6 = the names 11 and 12, s7 = the new name 20 over 11, s8 = 0x20000, s9 = the new name 21 alone. -/
def parg : Regs := { s := [(5, 0x10100#64), (6, 0x0000000C0000000B#64), (7, 0x000000140000000B#64), (8, 0x20000#64), (9, 21#64)] }
def tst (mem : Mem) (ports : Tab Port) : State :=
  { st parg {} { ports := ports } with
    dies := [(0, { tlb := [tlb0, { ctx := 1, va := 0x20000, size := 65536, ipa := 0x20000, pa := 0x20000,
                                   e1 := BitVec.ofNat 64 (0x20000 + 0x3D), e2 := BitVec.ofNat 64 (0x20000 + leaf), e2at := 0x30000 }] })]
    mem := { dram := mem } }
def tsr : State := tst pmem [(1, { record := 0x10100#64, entry := 3, view := false }), (2, { record := 0x10100#64, entry := 0, view := true })]

theorem witness_patch_values : p1.slotOf 0 = some { idx := 0, cell := 0, pay := 1#512, pre := 0#512, mask := 0xF#64 } ∧ p1.kind ≠ 0 ∧
    p3.kind = 0 ∧ p1.slotOf 1 = none := by decide +kernel
/-- The picture that a load of the record takes. -/
def pic : State × Tensor :=
  match tsr.paLoad 0 0x10100#64 with
  | .ok s t => (s, t)
  | _ => (tsr, { rec_ := 0#64, base := 0#64, rows := 0, cols := 0, fmt := .fp32, cb := 0, strict := false, canon := false, keep := false,
                 autosq := false, table := 0#64, map := 0#64, pool := 0#64, nslots := 0, normrec := 0#64, cut := none, sflags := 0, stamp := 0, free := [], mark := 0, ents := [] })
theorem witness_patch_load : good (tsr.paLoad 0 0x10100#64) = true := by decide +kernel
theorem witness_patch_picture : pic.2.ents = [p1, p2, p3] ∧ pic.2.chain.map (·.num) = [1, 2] ∧ pic.2.cut = none ∧ pic.2.strict = false ∧ (pic.2.free, pic.2.mark) = ([], 2) ∧
    pic.2.canon = false := by decide +kernel
theorem witness_tensor_load : goodWith (tsr.tsReach (tsr.port 1#2) 0x20000#64 false) (fun s1 r =>
    good (s1.cellValue 0 r.2.1 0 r.2.1.chain.length)) = true := by decide +kernel
theorem witness_tensor_store : tsr.fullB = false ∧ goodWith (tsr.tsReach (tsr.port 1#2) 0x20000#64 true) (fun s1 r =>
    match r.2.1.entry r.1.entry, r.2.1.freeSlot with
    | some e, some i => (e.slotOf 0).isNone && good (s1.paSave 0 r.2.1 (r.2.1.put { e with
        slots := [{ idx := i, cell := 0, pay := 0#512, pre := 0#512, mask := 0xFF#64 }] }) [])
    | _, _ => false) = true := by decide +kernel
theorem witness_patch_open : tsr.guardOn 0#7 = true ∧ (tsr.port 0#2).isNone = true ∧ (tsr.port 1#2).isSome = true ∧
    good (pic.1.basePages 0 pic.2) = true ∧ (pic.2.named 21).isNone = true ∧ pic.2.freeEnt = some 4 ∧
    good (pic.1.paSave 0 pic.2 (pic.2.put { num := 4, name := 21, kind := 0, closed := false, ostamp := 2, cctx := 1 }) []) = true := by
  decide +kernel
/-- A base on a page that is no tensor page. -/
theorem witness_patch_open_plain : goodWith ((tst (pmemOf 0x10000 6 [p1, p2, p3]) []).paLoad 0 0x10100#64) (fun s1 T =>
    match s1.basePages 0 T with
    | .trap _ tr => tr.code == 0x11 && tr.w4 == T.base
    | _ => false) = true := by decide +kernel
/-- A strict tensor, whose closed patch of context 2 is newer than the open one and shares a cell with it. -/
theorem witness_patch_strict : goodWith ((tst (pmemOf 0x20000 0x106 [{ p1 with cctx := 2, cstamp := 5, kind := 0 },
      { p3 with slots := p2.slots }]) []).paLoad 0 0x10100#64) (fun _ T => T.strict &&
    match T.chain, T.entry 3 with
    | [r], some p => decide (p.ostamp < r.cstamp) && decide (r.cctx ≠ p.cctx) && T.clash p r == some 0
    | _, _ => false) = true := by decide +kernel
theorem witness_patch_close : pic.2.entry 3 = some p3 ∧ (match tsr.port 2#2 with | some pt => pt.view | none => false) = true ∧
    goodWith (pic.1.closeAs 0 pic.2 p3 p3 false) (fun s2 T1 => good (s2.paSave 0 pic.2 T1 [])) = true ∧
    good (pic.1.paSave 0 pic.2 { pic.2 with ents := [p1, p2] } []) = true := by decide +kernel
theorem witness_patch_drop : pic.2.closedNamed 11 = some p1 ∧ pic.2.atCut p1 = false ∧ pic.2.clash p1 p2 = none ∧
    goodWith (pic.1.paNorm 0 pic.2 p1 true) (fun s2 _ => good (s2.paSave 0 pic.2 (pic.2.remove [1]) [])) = true ∧
    ({ tsr with seqs := [(0, { f := { holdD := some .patch } })] } : State).me.f.holdD = some .patch := by decide +kernel
theorem witness_patch_comm : pic.2.closedNamed (Stmt.high tsr 6#6) = some p2 ∧ p2.pos = p1.pos + 1 ∧ p1.pos ≠ p2.pos + 1 ∧
    good (pic.1.paSave 0 pic.2 ((pic.2.put { p1 with pos := 2 }).put { p2 with pos := 1 }) []) = true := by decide +kernel
/-- With an OVR patch in its place, the two do not commute. -/
theorem witness_patch_clash : pic.2.clash { p1 with kind := 0 } p2 ≠ none := by decide +kernel
theorem witness_patch_apply : goodWith (pic.1.applyOne 0 pic.2 p1 p1.slots) (fun s2 cells =>
    good (s2.paSave 0 pic.2 (pic.2.remove [1]) cells)) = true := by decide +kernel
theorem witness_patch_squash : goodWith (pic.1.cellValues 0 pic.2 2 [0]) (fun s2 cells =>
    good (s2.paSave 0 pic.2 (pic.2.remove [1, 2]) cells)) = true := by decide +kernel
/-- A strict tensor, of whose two closed patches the first alone stands before the opening of the open one. -/
theorem witness_patch_squash_strict : goodWith ((tst (pmemOf 0x20000 0x106 [p1, p2, { p3 with ostamp := 1 }]) []).paLoad 0 0x10100#64)
    (fun s1 T => T.strict && decide ((T.chain.takeWhile fun p => T.opens.all fun o => decide (p.cstamp ≤ o.ostamp)).length = 1) &&
      goodWith (s1.cellValues 0 T 1 [0]) (fun s2 cells => good (s2.paSave 0 T (T.remove [1]) cells))) = true := by decide +kernel
theorem witness_patch_snap : good (pic.1.paSave 0 pic.2 { pic.2 with cut := some 2 } []) = true ∧
    good (pic.1.paSave 0 pic.2 { pic.2 with cut := none } []) = true := by decide +kernel
theorem witness_patch_inv : (match pic.2.newName (Stmt.high tsr 7#6) with | .ok n => n == 4 | .error _ => false) = true ∧
    pic.2.takeSlots 1 = [2] ∧ (Fmt.flt pic.2.fmt).isNone = true ∧
    goodWith (pic.1.closeAs 0 pic.2 { p1 with num := 4, name := 20, closed := false, target := 1, inv := true, slots := [] } p1 true)
      (fun s2 T1 => good (s2.paSave 0 pic.2 T1 [])) = true := by decide +kernel
/-- A float tensor: a patch with a kept pre-image, and one without. -/
theorem witness_patch_inv_float : goodWith ((tst (pmemOf 0x20000 0 [{ p1 with kept := true }, p2]) []).paLoad 0 0x10100#64) (fun s1 T =>
    (Fmt.flt T.fmt).isSome && !T.canon && (T.closedNamed 11).isSome && (T.closedNamed 12).isSome &&
      goodWith (s1.closeAs 0 T { p1 with num := 4, name := 20, kind := 0, closed := false, target := 1, inv := true, slots := [] } p1 true)
        (fun s2 T1 => good (s2.paSave 0 T T1 []))) = true := by decide +kernel
theorem witness_patch_xplant : goodWith (pic.1.paLoad 0 0x10100#64) (fun s1 t => decide (t.rows = pic.2.rows) && decide (t.cols = pic.2.cols) &&
    goodWith (s1.closeAs 0 pic.2 { p1 with num := 4, name := 20, closed := false, slots := [] } p1 false) fun s2 D1 => good (s2.paSave 0 pic.2 D1 [])) = true := by
  decide +kernel
theorem witness_patch_queries : pic.2.chain.length < 2 ^ 10 ∧ pic.2.opens.length < 2 ^ 10 ∧ pic.2.sflags < 8 ∧
    goodWith (pic.1.paRead 0 false (pic.2.normrec + 0x40#64) 48) (fun s2 _ => goodWith (s2.paRead 0 false (pic.2.normrec + 0x80#64) 32) fun s3 _ =>
      goodWith (s3.paWrite 0 false (pic.2.normrec + 0x80#64) (leBytes 0 32)) fun s4 _ =>
      goodWith (s4.paWrite 0 false (pic.2.normrec + 0x68#64) (leBytes 0 8)) fun s5 _ =>
      good (s5.paWrite 0 false (pic.2.normrec + 0x40#64) (leBytes 0 40))) = true := by decide +kernel
theorem test_ts_ld_adds_the_chain : (match exec (.tsLd 0#7 3#6 8#6 0#11 0#1 2#2) tsr with
    | .next t => t.me.f.outs.map (·.v) | _ => []) = [3#1024] := by decide +kernel

/-! ### Graphs, launches and copies -/

def nd (kind pred : Nat) (succ : List Nat) : Node :=
  { kind := kind, core := 0, die := 0, q := 0, pred := pred, scope := .cr, succ := succ, arg := 0#64 }
def noSuccs : List Nat := [0xFFFF, 0xFFFF, 0xFFFF, 0xFFFF]
/-- A launch of a compute node, a join, a cond, a while and a copy; the compute node raises the join, and the join is the exit. -/
def gl : Launch :=
  { queue := 0, ctx := 1, params := 7#64, code := 0x11100#64, abase := 0, tmpl := 0x10000#64, done := 0x100000003#64, r := 1, exit := 1,
    nodes := [nd 0 0 [1, 0xFFFF, 0xFFFF, 0xFFFF], nd 4 1 noSuccs, nd 2 1 noSuccs, nd 3 1 noSuccs, nd 1 1 noSuccs], cores := [0] }
/-- A kernel image at 0x11000 with one graph of one compute node, and its launch block at 0x10000 (spec/12 R272 to R275). -/
def gdram : Mem :=
  [(0x10000, 0x11000), (0x10008, 7), (0x11000, 0x1314E5844), (0x11008, 0x100), (0x11010, 0x100), (0x11018, 0x40), (0x11020, 1),
   (0x11040, 0x100000080), (0x11048, 1), (0x11080, 0x80), (0x11088, 0xFFFFFFFFFFFFFFFF)].foldl
    (fun m e => Mem.write m e.1 (leBytes e.2 8)) []
def gst (c : Ctl) (l : Launch) : State :=
  { mst { s := [(5, 0x10000#64), (6, 2#64), (7, 1#64)] } c {} with
    cores := []
    launches := [(0, l)]
    queues := [(0, { mode := .active, ctx := 1, ring := 0x10000#64, cpool := 4, tail := 1#32 })]
    ctxs := [(1, { mode := .active, fring := 0x12000#64, wins := [(0, (0, 64))] })]
    mem := { dram := gdram } }
def gnode : Ctl := { node := some { launch := 0, node := 0, f := 0 } }

theorem witness_graph_instructions : (gst gnode gl).myNode = some ({ launch := 0, node := 0, f := 0 }, gl, nd 0 0 [1, 0xFFFF, 0xFFFF, 0xFFFF]) ∧
    (gst gnode gl).guardOn 0#7 = true ∧ gl.used < gl.r ∧ ({ gl with used := 1 } : Launch).r ≤ ({ gl with used := 1 } : Launch).used ∧
    addrBad ((gst gnode gl).rs 5#6) 64 { cls := pcMem } = none ∧
    goodWith ((gst gnode gl).ldWords ((gst gnode gl).rs 5#6) 8) (fun s1 blk => decide (blk.take 2 = [0x11000#64, 7#64]) &&
      good (s1.tryRelease s1.cur.seq .cr (some s1.cur.bn))) = true ∧ good ((gst gnode gl).releaseHal .cr) = true ∧
    (gl.nodes[((gst gnode gl).rs 6#6).toNat % 65536]?).map (·.kind) = some 2 ∧
    (gl.nodes[((gst gnode gl).rs 7#6).toNat % 65536]?).map (·.kind) = some 4 := by decide +kernel

/-- A compute node whose bundle holds nothing but gr.done, with another firing queued behind it. -/
def gdone : State :=
  let c : Ctl := { gnode with window := [win 0#128 0x7#4], turn := some 0, pc := 0x10010#64, bn := 1
                              queued := [{ launch := 0, node := 0, f := 1 }] }
  { gst c gl with cur := { slot := 3, addr := 0x10000#64 } }
theorem witness_gr_done : gdone.guardOn 0#7 = true ∧ gdone.myNode.isSome = true ∧ gdone.me.isOldest gdone.cur.bn gdone.cur.slot true = true ∧
    gdone.drainStreams gdone.cur.seq = [] ∧ gdone.streamFault = none ∧
    gdone.outEvents 0 = [] ∧ gdone.askEvents 0 = [] ∧
    goodWith (gdone.releaseHal .cr) (fun s1 _ => decide (s1.cur = gdone.cur) && decide (s1.launch? 0 = some gl) && s1.dueStop.isNone &&
      decide (s1.me.c.queued = gdone.me.c.queued)) = true := by decide +kernel
/-- The same bundle on a sequencer that runs no node. -/
theorem witness_no_node : ({ gdone with seqs := [(0, { gdone.me with c := { gdone.me.c with node := none } })] } : State).myNode = none ∧
    ({ gdone with seqs := [(0, { gdone.me with c := { gdone.me.c with node := none } })] } : State).me.isOldest gdone.cur.bn gdone.cur.slot true = true := by
  decide +kernel
/-- What a launch left on a sequencer: its own last node's registers, those kept while another launch ran there, or none. -/
theorem witness_left : Stmt.leftBy { r := rg, c := { lastLaunch := some 3 } } 3 = rg ∧
    Stmt.leftBy { c := { kept := [(3, { r := rg, fmt := {}, ports := [], lq := [] })] } } 3 = rg ∧ Stmt.leftBy { r := rg } 3 = {} := ⟨rfl, rfl, rfl⟩
theorem test_gr_done_begins_the_next_firing : (match exec (.grDone 0#7) gdone with
    | .next t => (t.me.c.node.map (·.f), t.me.r.getS 1#6, t.me.r.getS 3#6, t.hal.length) | _ => (none, 0#64, 0#64, 0)) =
      (some 1, 7#64, 1#64, 1) := by decide +kernel

theorem witness_tail_write : ((gst {} gl).queue 0).mode ≠ .free ∧ (gst {} gl).queueVf ((gst {} gl).queue 0) = none ∧
    (5#32 - ((gst {} gl).queue 0).head).toNat ≤ 2 ^ ((gst {} gl).queue 0).lsize ∧
    ¬ (17#32 - ((gst {} gl).queue 0).head).toNat ≤ 2 ^ ((gst {} gl).queue 0).lsize := by decide +kernel

/-- The block in the ring, and the same with an image that is not there. -/
def gblk (img : Word) : List Word := [img, 7#64, 0#64, 0#64, 0#64, 0#64, 0#64, 0#64]
def gidle : State := { gst {} gl with launches := [] }
/-- The same, its context chosen for its group. -/
def gchosen : State := { gidle with groups := gidle.groups.mapv fun _ g => { g with held := true } }
theorem witness_dispatch_chosen : (gidle.headBlock 0).isSome = true ∧ gidle.csMeetHead 0 = gidle ∧ gidle.unchosen 1 = some 15 ∧
    gchosen.csMeetHead 0 = gchosen ∧ gchosen.unchosen 1 = none ∧ gchosen.headBlock 0 = some (false, some (gblk 0x11000#64)) ∧
    (match gchosen.plan 0 1 (gblk 0x11000#64) (some 4) with
      | .ok l => decide ((l.r : Int) ≤ gchosen.freeSlots 0) && gchosen.walkersHaveRoom l
      | .error _ => false) = true ∧ gchosen.loadedAll 1 = true ∧ gchosen.waitReached 1 (gblk 0x11000#64) = true ∧
    gidle.headHeld 0 = false ∧ gchosen.headHeld 0 = false := by decide +kernel
theorem witness_dispatch : gidle.headBlock 0 = some (false, some (gblk 0x11000#64)) ∧ gidle.waitReached 1 (gblk 0x11000#64) = true ∧
    (match gidle.plan 0 1 (gblk 0x11000#64) (some 4) with
      | .ok l => decide ((l.r : Int) ≤ gidle.freeSlots 0) && gidle.walkersHaveRoom l && decide (l.nodes.length = 1) && l.params == 7#64
      | .error _ => false) = true ∧ gidle.loadedAll 1 = true := by decide +kernel
theorem witness_dispatch_refused : (match gidle.plan 0 1 (gblk 0x10000#64) (some 4) with | .ok _ => 0 | .error c => c) = 1 ∧
    ({ gidle with queues := gidle.queues.mapv fun _ q => { q with children := [gblk 0x10000#64] } } : State).headBlock 0 =
      some (true, some (gblk 0x10000#64)) := by decide +kernel
theorem test_dispatch_of_an_absent_image : (match exec (.launchDispatch 0) { gidle with mem := { dram := Mem.setWord [] 0x10000 0x900000#64 } } with
    | .next t => ((t.queue 0).rcode, (t.queue 0).head) | _ => (0#8, 0#32)) = (8#8, 1#32) := by decide +kernel

/-- The same launch with every arrival in. -/
def gready : State := { gst {} gl with dies := [(0, { pen := [1, 2, 3, 4].map fun n => (n, { count := 1#64 }), tlb := [tlb0] })] }
theorem witness_node_fire : (gl.nodes.all fun n => !n.reported) = true ∧ gready.launch? 0 = some gl ∧
    ((List.range 5).all fun i => match gl.nodes[i]? with
      | some n => !gready.arrivalLatched gl i n && gready.arrived gl i n && gready.mayFire gl n | none => false) = true ∧
    ({ gready with seqs := [] } : State).seq 0 = {} ∧ (gready.seq 0).c.mode ≠ .idle ∧ (gready.lowGroup 1 0).isSome = true := by decide +kernel
/-- The exit has completed, and nothing is active. -/
def gover : Launch := { gl with nodes := gl.nodes.set 1 { nd 4 1 noSuccs with f := 1, done := 1 } }
theorem witness_node_latched : ({ gready with dies := [(0, { pen := [(1, { latch := true })], tlb := [tlb0] })] } : State).arrivalLatched gl 1
      (nd 4 1 noSuccs) = true ∧ (gready.retryRecords 1).heldRecords 1 = [] ∧ ((gready.retryRecords 1).tryRecord 0 1 1 (gready.latchedRecord gl 1 (nd 4 1 noSuccs))).2 = true ∧ gready.relGate 0 1 = none := by
  decide +kernel
/-- A latch found earlier, whose record is written now, and one whose record cannot be: its launch does not end. -/
def gfound : Launch := { gover with nodes := gover.nodes.set 1 { nd 4 1 noSuccs with f := 1, done := 1, found := some (gready.latchedRecord gl 1 (nd 4 1 noSuccs)) } }
theorem witness_node_found : (gfound.nodes[1]?.bind (·.found)).isSome = true ∧ gover.over = true ∧ gfound.over = false ∧
    (({ gready with dies := [] } : State).tryRecord 0 1 1 (gready.latchedRecord gl 1 (nd 4 1 noSuccs))).2 = false := by decide +kernel
theorem test_join_fires : (match exec (.nodeFire 0 1) gready with
    | .next t => ((t.launch? 0).bind fun l => (l.nodes[1]?).map fun n => (n.f, n.act, n.done)) | _ => none) = some (1, 0, 1) := by decide +kernel

def gcond : State := { gready with hal := [{ k := 0, q := 0, ctx := 1, op := .cond 0 2 5#64 }] }
theorem witness_condition_word : (gcond.hal.find? fun e => e.k == 0) = some { k := 0, q := 0, ctx := 1, op := .cond 0 2 5#64 } ∧
    gcond.earlierHal { k := 0, q := 0, ctx := 1, op := .cond 0 2 5#64 } = none ∧ gcond.launch? 0 = some gl := by decide +kernel

theorem witness_launch_end : gover.over = true ∧ gover.cores = [0] ∧ (gst {} gover).relGate 0 1 = none ∧
    (gst {} gover).penOk 1 3#32 = true := by decide +kernel
theorem test_launch_end_adds : (match exec (.launchEnd 0) (gst {} gover) with
    | .next t => (t.launches.length, t.hal.map (·.op)) | _ => (9, [])) = (0, [.add 3#32 1#64 false]) := by decide +kernel

/-! ### Copies and fast rows -/

/-- Template 0 copies eight bytes of the scratchpad from 0 to 0x100 and ends in an add of 2 to pennant 3; 0x100000000 more in word 6 is
the addend, bit 51 the binding (spec/12 R290, R291). -/
def ctmpl : List Word := [0x0#64, 0x100#64, 7#64, 0#64, 0#64, 0#64, 0x8000200000003#64, 5#64]
def cp : Copy := { ctx := 1, queue := 0, launch := 0, node := none, q := 0, words := ctmpl, jsrc := 0, jdst := 0 }
/-- Buffer 0 at 0 is full, buffer 1 at 0x100 is filling; some copies are in channel 0 of group 15. -/
def cst (cs : List Copy) : State :=
  let s := gst gnode gl
  { s with
    cores := [(0, { descs := [(0, { lines := 1#15, state := bfFull }), (1, { lines := 1#15, base := 4#14, state := bfFilling })]
                    spad := [(0, 9), (7, 8)], chans := if cs.isEmpty then [] else [(240, { copies := cs })] })]
    mem := { dram := ctmpl.zipIdx.foldl (fun m e => Mem.write m (0x10000 + 8 * e.2) (leBytes e.1.toNat 8)) [] } }
def apRegs : Regs := { s := [(1, 0xFF000000000000#64), (2, 0#64)] }

theorem witness_copy_chunk : ((cst [cp]).park 0).chanOf 240 = { copies := [cp] } ∧ cp.words ≠ [] ∧ cp.pos < cp.total ∧
    (cst [cp]).mustPark 0 240 cp = false ∧ cp.templateOk = true ∧ (cst [cp]).mcastHeld cp 0 = false ∧
    goodWith (((cst [cp]).park 0).copyBegin cp 0) (fun s1 _ => goodWith (s1.deliver cp 0) fun s2 c1 =>
      decide (c1.pos = 8) && Mem.get (s2.core 0).spad 0x100 == 9#8 && Mem.get (s2.core 0).spad 0x107 == 8#8) = true := by
  decide +kernel
/-- A copy of a lower queue than another channel's, its owner without credit. -/
theorem witness_copy_parks : (let s := cst [cp]
    let c2 : Copy := { cp with queue := 1 }
    let s1 := s.setChan 0 241 { copies := [c2] }
    ({ s1 with queues := s1.queues ++ [(1, { mode := .active, prio := 1 })] } : State).mustPark 0 240 cp) = true := by decide +kernel
/-- A reserved bit in word 7, bound and unbound. -/
theorem witness_copy_refused : ({ cp with words := cp.words.set 7 0x200005#64 } : Copy).templateOk = false ∧ cp.bound = true ∧
    (cst [cp]).copyRemote cp = false ∧ ({ cp with words := (cp.words.set 7 0x200005#64).set 6 0#64 } : Copy).bound = false := by decide +kernel
theorem witness_copy_places : cp.sspace = 1 ∧ cp.dspace = 1 ∧ cp.mcast = 0 ∧ cp.zfill = false ∧ (cp.from_ 0).toNat % 64 + cp.total ≤ 64 ∧
    (cp.to_ 0).toNat % 64 + cp.total ≤ 64 ∧ locOf 0 (cp.from_ 0) = some (.spad 0 0) ∧ locOf 0 (cp.to_ 0) = some (.spad 0 0x100) ∧
    0 + cp.total ≤ 0x100 ∧ ((cst [cp]).core 0).marked 0 = none ∧ ((cst [cp]).core 0).marked 0x100 = none ∧
    good ((cst [cp]).deliver cp 0) = true := by decide +kernel
theorem witness_copy_complete : cp.total ≤ ({ cp with pos := 8 } : Copy).pos ∧ good ((cst [cp]).endActs { cp with pos := 8 } 0) = true ∧
    ((cst [cp]).launch? 0).isSome = true ∧ (gl.nodes[4]?).map (·.kind) = some 1 := by decide +kernel
theorem test_copy_complete_adds_its_addend : (match exec (.copyComplete 240) (cst [{ cp with pos := 8 }]) with
    | .next t => (t.hal.map (·.op), ((t.chanOf 240).copies).length) | _ => ([], 9)) = ([.add 3#32 2#64 false], 0) := by decide +kernel
theorem witness_remote_add : (cst []).penOk 1 3#32 = true ∧ (cst []).penOk 1 64#32 = false := by decide +kernel

/-- A start store in slot B: st.d to channel 0 of the aperture. -/
def ccode : BitVec 128 :=
  match encode (.stD 0#7 2#6 1#6 0#11 none) with
  | some (_, b) => b
  | none => 0#128
def cstart : State := (cst []).setSeq 0
  { r := apRegs, c := { gnode with mode := .running, window := [win ccode 0xD#4], turn := some 0, pc := 0x10010#64, bn := 1 } }
theorem witness_copy_start : (cstart.seq 0).nextOf 1 = some (win ccode 0xD#4) ∧ (win ccode 0xD#4).instr 1 = .stD 0#7 2#6 1#6 0#11 none ∧
    (cstart.seq 0).ready (win ccode 0xD#4) 1 = true ∧ cstart.guardOn 0#7 = true ∧ startsCopy ((cstart.aim 0 1 (win ccode 0xD#4)).eaBM 1#6 0#11 8) 8 = true ∧
    (cstart.seq 0).f.storeB = [] ∧ cstart.myTemplates 0 = (0, 0, 0x10000#64) ∧
    goodWith ((cstart.aim 0 1 (win ccode 0xD#4)).ldWords 0x10000#64 8) (fun s2 ws => decide (ws = ctmpl) &&
      decide (s2.cur = (cstart.aim 0 1 (win ccode 0xD#4)).cur) && s2.penOk 1 3#32 && !s2.copyRemote cp) = true := by decide +kernel
/-- The channel holds eight copies; and a start store that waits in the store queue, the channel with room again. -/
theorem witness_copy_start_waits : (({ cstart with cores := (cst (List.replicate 8 cp)).cores } : State).chan 0 240).copies.length = 8 ∧
    (({ cstart with cores := (cst (List.replicate 8 cp)).cores } : State).chan 0 240).fault = none := by decide +kernel
def cwait : State := (cst [cp]).setSeq 0
  { r := apRegs, c := { gnode with mode := .running }, f := { storeB := [{ bn := 0, act := .start 0#64 240 0x10000#64 ccode, rel := none }] } }
theorem witness_copy_start_queued : (cwait.chan 0 240).fault = none ∧ (cwait.chan 0 240).copies.length < 8 ∧
    goodWith (cwait.newCopy 0 0#64) (fun s1 c => decide (c = cp) && decide ((s1.seq 0).f.storeB = (cwait.seq 0).f.storeB)) = true := by decide +kernel
/-- Its channel has recorded a fault, and nothing older is left on the sequencer. -/
def cfault : State := { cwait with cores := (cst []).cores.mapv fun _ c => { c with chans := [(240, { fault := some { code := 0x10 } })] } }
theorem witness_copy_start_faults : (cfault.chan 0 240).fault.isSome = true ∧ cfault.issues 0 = true ∧ (cfault.seq 0).c.window = [] ∧
    (cfault.beforeStop 0 (cfault.beforeStart 0 0)).isNone = true := by decide +kernel
theorem test_start_store_traps : (match exec (.copyStart 0) cfault with
    | .next t => ((t.seq 0).c.mode, (t.chan 0 240).fault.isNone, (t.chan 0 240).copies.length, (t.seq 0).f.storeB.length) | _ => (.idle, false, 9, 9)) =
    (.stopped, true, 0, 0) := by decide +kernel
theorem test_copy_start : (match exec (.copyStart 0) cstart with | .next t => (t.chanOf 240).copies | _ => []) = [cp] := by decide +kernel

/-- Row 0 of bank 32 holds 0x10000; its context has a quota of one row. -/
def sgst (rows : List PromoRow) : State :=
  let s := mst { s := [(5, 0x10000#64), (6, 1#64)] } {} {}
  { s with ctxs := [(1, { mode := .active, quota := 1 })]
           dies := [(0, { tlb := [tlb0], promo := if rows.isEmpty then [] else [(32, rows)] })] }
def prow (ctx : Nat) : PromoRow := { row := 0, fast := 0, ctx := ctx, pin := false, dirty := false }
theorem witness_segments : (sgst []).guardOn 0#7 = true ∧ ((sgst []).rs 5#6).toNat % 2048 = 0 ∧ (sgst []).rs 6#6 = 1#64 ∧
    good ((sgst []).segUnits .promote ((sgst []).rs 5#6) 0 1) = true ∧
    goodWith ((sgst []).segReach ((sgst []).rs 5#6)) (fun s1 tr => decide (s1.cur = (sgst []).cur) && !paFast tr.pa && paBank tr.pa == 32 &&
      paRow tr.pa == 0 && (s1.promo (s1.homeDie tr.pa) 32).isEmpty && decide (s1.charged (s1.homeDie tr.pa) 32 1 < (s1.ctx 1).quota) &&
      (s1.freeFast (s1.homeDie tr.pa) 32).isSome) = true ∧
    ((sgst [prow 1]).promo 0 32).find? (fun r => r.row == 0) = some (prow 1) ∧ ((sgst [prow 2]).promo 0 32).find? (fun r => r.row == 0) = some (prow 2) ∧
    good ((sgst [prow 1]).segReach ((sgst []).rs 5#6)) = true ∧ paFast (2 ^ 44) = true := by decide +kernel
theorem witness_segments_complete : (({ sgst [] with seqs := [(0, { f := { holdD := some .segment } })] } : State).seq 0).f.holdD = some .segment := by
  decide +kernel
theorem test_promote_counts_one : (match exec (.segPromote 0#7 9#6 5#6 6#6) (sgst []) with
    | .next t => (t.me.f.outs.map (·.v), (t.promo 0 32).map (·.row)) | _ => ([], [])) = ([1#1024], [0]) := by decide +kernel
theorem test_query_of_own_row : (match exec (.segQuery 0#7 9#6 5#6) (sgst [prow 1]) with
    | .next t => t.me.f.outs.map (fun o => o.v.extractLsb' 0 29) | _ => []) = [0x1000009#29] := by decide +kernel

/-! ### Fetch, issue, walks and held records -/

/-- Tables that map the first GiB to itself: stage 2 from 0x30000, stage 1 from 0x40000 (spec/18 R370). -/
def wst : State :=
  { mst { s := [(5, 0x10000#64)] } { pc := 0x10000#64 } {} with
    ctxs := [(1, { mode := .active, root1 := 0x40000#64, root2 := 0x30000#64, fring := 0x12000#64 })]
    mem := { dram := [(0x10003, 0x40), (0x30000, 0x3), (0x30001, 0x10), (0x30002, 0x3), (0x31000, 0x3), (0x31001, 0x20), (0x31002, 0x3), (0x32000, 0xD), (0x40000, 0x3),
                      (0x40001, 0x10), (0x40002, 0x4), (0x41000, 0x3), (0x41001, 0x20), (0x41002, 0x4), (0x42000, 0xD)] } }
theorem witness_walk : (match wst.walk 1 0x12345#64 with | .ok tr => tr.pa == 0x12345 && tr.size == 2 ^ 30 | .error _ => false) = true ∧
    (match wst.walk 1 0x80000000000000#64 with | .ok _ => false | .error _ => true) = true := by decide +kernel

/-- The bundle of nops that ends its group. -/
def nops : BitVec 128 := 0x40000000#128
theorem witness_group : (wst.seq 0).c.replay = none ∧ (wst.seq 0).canFetch = true ∧
    goodWith ((wst.setSeq 0 (wst.seq 0).turnOver).checkGroup 0 [] 0x10000#64 1 [] [] 8) (fun s1 v => decide (v = .good [(0x10000#64, nops)]) &&
      decide ((s1.seq 0).c = (wst.seq 0).turnOver.c)) = true := by decide +kernel
/-- A word of slot A with a reserved opcode. -/
theorem witness_bad_group : (bundleBad [] 1 0x10000#64 0x7F000000#128 []).isSome = true ∧
    goodWith ((({ wst with mem := { dram := [(0x10003, 0x7F)] } } : State).setSeq 0 (wst.seq 0).turnOver).checkGroup 0 [] 0x10000#64 1 [] [] 8) (fun s1 v =>
      (match v with | .bad _ _ => true | .good _ => false) && (s1.seq 0).c.window.isEmpty && (s1.settle 0).isEmpty &&
        (s1.drainStreams 0).isEmpty && (s1.relGate 0 1).isNone) = true := by decide +kernel
theorem witness_prefetch : wst.guardOn 0#7 = true ∧ inAperture 0x10000#64 = false ∧ eNc (tlb0.tr 0x10000#64).e2 = false ∧
    maps wst (wst.translate 0 1 0x10000#64 { cls := pcMem }) (fun tr => tr.pa == 0x10000) = true ∧
    wst.keyOf (lineOf 0x10000) = (wst.kid (eKsl tlb0.e2)).getD 0 ∧ wst.gate (lineOf 0x10000) false = none ∧
    wst.homeBad (lineOf 0x10000) = false ∧ wst.requests 0 < 4096 ∧ wst.needsWalk 0 1 0x10000#64 false = false ∧
    wst.needsWalk 0 1 0x20000#64 false = true ∧ (wst.die 0).walks.length < 64 ∧
    (({ wst with dies := [(0, { walks := List.replicate 64 { q := 0, ctx := 1, va := 0#64, lvl := .l1 } })] } : State).die 0).walks.length = 64 := by decide +kernel
/-- A line that an L2 holds whole and an L1 of its cluster does not; one that no L2 holds; a memory-side cache with every way free. -/
theorem witness_fills : (sst []).l1 0 0x400 1 = none ∧ (((sst []).core 0).l1.filter fun e => e.1 / 65536 % 256 == 0x400 % 256).length < 8 ∧
    (sst []).l2 0 0x400 = some (full 0#512) ∧ (full 0#512).have_ = BitVec.allOnes 64 ∧ wst.l2 0 0x401 = none ∧
    ((wst.cluster 0).l2.filter fun e => e.1 % 8192 == 0x401 % 8192).length < 16 ∧
    (wst.pol 0 0 pcMem).mask ≠ 0#16 ∧ (wst.pol 0 0 pcMem).rp ≠ 2#2 ∧
    (freeWay (((wst.die 0).msc.filter fun e => e.1 % 3072 == mscRow 0x401 % 3072).map fun e => e.2.way) (wst.pol 0 0 pcMem).mask).isSome = true := by
  decide +kernel
def halted : State := { st {} {} {} with seqs := [(0, { c := { mode := .halted, window := [win nops 0#4] } })] }
theorem witness_issue : ((lone nops {} {}).seq 0).nextOf 0 = some (win nops 0xE#4) ∧ ((lone nops {} {}).seq 0).ready (win nops 0xE#4) 0 = true ∧
    (halted.seq 0).nextOf 0 = some (win nops 0#4) ∧ (lone nops {} {}).mayIssue 0 (win nops 0xE#4) 0 = true ∧
    halted.mayIssue 0 (win nops 0#4) 0 = false := by decide +kernel
theorem test_nops_issue_one_by_one : (match exec (.nopB 0#7) { st {} { window := [win nops 0#4] } {} with cur := { slot := 1, addr := 0x10000#64 } } with
    | .next t => t.me.c.window.map (·.mask) | _ => []) = [2#4] := by decide +kernel

def rcd : Record := { kind := 0, slot := 0, trap := { code := 0x13 }, place := 0x10000#64, resume := 0x10000#64, cycle := 0#32 }
def rst : State := wst.setSeq 0 { c := { records := [rcd] } }
theorem witness_record : rst.heldRecords (rst.ctxOf 0) = [rcd] ∧ rst.firstHeld (rst.ctxOf 0) [rcd] = some (0, rcd) ∧
    (rst.tryRecord 0 (rst.ctxOf 0) 0 rcd).2 = true ∧ (rst.ringGate 0 (rst.ctxOf 0)).isNone = true ∧ rcd.slot < 2 ^ 7 ∧ rcd.kind < 2 ^ 8 ∧ rcd.trap.code < 2 ^ 8 := by decide +kernel
/-- The record's first word stands in slot 0 of the ring, and the tail has moved (spec/16 R346, R347). -/
theorem test_record_is_written : (match exec (.faultRecordRetry 0) rst with
    | .next t => (t.engWord 0x12040, t.engWord 0x12008) | _ => (0#64, 0#64)) = (0x1000000000013#64, 1#64) := by decide +kernel

/-! ### Scheduling, pre-emption, save, load, scrub -/

/-- Queue 0 of context 1 has a dispatchable head of class 1; group 15 as given. -/
def hst2 (g : Group) (d : Int) : State :=
  { gidle with
    queues := gidle.queues.mapv fun _ q => { q with prio := 1 }
    groups := [(15, g)], owners := [(0, { used := true, d := d })]
    ctxs := [(1, { mode := .ready, fring := 0x12000#64, wins := [(0, (0, 64))], areas := [(15, 0x50000#64)] }), (2, { mode := .active })] }
def idleG : Group := { mode := .idle, bound := [1] }
/-- A change of class waits for the decision; a context that is held for its other groups; one with credit and work. -/
theorem witness_decision_held : ((hst2 idleG 0).adoptPrios.queue 0).prio = 1 ∧
    (({ hst2 idleG 0 with queues := [(0, { (hst2 idleG 0).queue 0 with prioNext := some 5 })] } : State).adoptPrios.queue 0).prio = 5 ∧
    (hst2 idleG 0).reserved 15 idleG = none ∧
    (hst2 { idleG with next := [(1, 1)] } 0).reserved 15 { idleG with next := [(1, 1)] } = some (1, 1) ∧
    (hst2 { idleG with mode := .running, ctx := 1, held := true, cls := 1 } 0).holds 15 { idleG with mode := .running, ctx := 1, held := true, cls := 1 } = true ∧
    (hst2 { idleG with mode := .running, ctx := 1 } 5).holds 15 { idleG with mode := .running, ctx := 1 } = false ∧
    0 < ((hst2 { idleG with mode := .running, ctx := 1 } 5).owner ((hst2 { idleG with mode := .running, ctx := 1 } 5).payer { idleG with mode := .running, ctx := 1 })).d ∧
    (((hst2 { idleG with mode := .running, ctx := 1 } 5).work 15 { idleG with mode := .running, ctx := 1 }).filter fun v => v.ctx == 1) ≠ [] := by
  decide +kernel
theorem witness_decision_idle : ((hst2 { idleG with next := [(1, 1)] } 0).group 15).next = [(1, 1)] ∧
    (hst2 { idleG with next := [(1, 1)] } 0).mayLoad 15 { idleG with next := [(1, 1)] } 1 = true ∧
    ((hst2 { idleG with next := [(1, 1)] } 0).work 15 { idleG with next := [(1, 1)] }).all (·.cls ≤ 1) = true ∧
    ((hst2 idleG 0).work 15 idleG).map (·.ctx) = [1] ∧
    ((hst2 idleG 0).choose ((hst2 idleG 0).work 15 idleG)).2 = some { cls := 1, queue := 0, ctx := 1, owner := 0, ready := true } := by
  decide +kernel
/-- Context 2, of owner 0 and class 0, runs there; context 1 has work of class 1. -/
def runG : Group := { mode := .running, ctx := 2, bound := [1, 2] }
theorem witness_decision_running : (hst2 runG 1).hasLaunch 2 = false ∧ ((hst2 runG 1).work 15 runG).map (fun w => (w.cls, w.ctx)) = [(1, 1)] ∧
    ((hst2 runG 1).choose ((hst2 runG 1).work 15 runG)).2.isSome = true ∧ (hst2 runG 1).mustPreempt 15 runG = true ∧
    ((hst2 runG 0).owner ((hst2 runG 0).payer runG)).d ≤ 0 := by decide +kernel
theorem test_decision_loads : (match exec (.schedDecision 15) (hst2 idleG 0) with
    | .next t => ((t.group 15).mode, (t.group 15).ctx, (t.owner 0).d) | _ => (.absent, 0, 0)) = (.loading, 1, 262144) := by decide +kernel
/-- A group at the first rung, all of its sequencers idle, both timers run out. -/
def rungG : Group := { runG with rung := 1, grace := 5, kill := 9, age := 9 }
theorem witness_rungs : ((hst2 rungG 0).setSeq 0 {}).group 15 = rungG ∧
    ((groupSeqs 15).all fun q => (((hst2 rungG 0).setSeq 0 {}).seq q).atBoundary) = true ∧ rungG.grace ≤ rungG.age ∧ rungG.kill ≤ rungG.age ∧
    rungG.ctx ∈ rungG.bound ∧ groupSeqs 15 = [0, 1, 2, 3] := by decide +kernel
theorem test_grace_halts_the_running : (match exec (.graceTimerExpire 15) (hst2 rungG 0) with
    | .next t => ((t.seq 0).c.mode, (t.seq 1).c.mode, (t.group 15).rung) | _ => (.idle, .idle, 0)) = (.halted, .idle, 2) := by decide +kernel
theorem test_kill_halts_the_queues : (match exec (.killTimerExpire 15) { hst2 { rungG with ctx := 1 } 0 with seqs := [] } with
    | .next t => ((t.queue 0).mode, (t.queue 0).rcode, (t.ctx 1).mode) | _ => (.free, 0#8, .free)) = (.halted, 9#8, .killing) := by decide +kernel
theorem witness_kill_drops : let s : State := { hst2 idleG 0 with ctxs := [(1, { mode := .killing })] }
    (s.dropAll 1 (s.ctx 1).drops).2 = [] := by decide +kernel
theorem witness_kill_complete : (({ hst2 idleG 0 with ctxs := [(1, { mode := .killing })] } : State).ctx 1).mode = .killing ∧
    (({ hst2 idleG 0 with ctxs := [(1, { mode := .killing })] } : State).ctx 1).destroy = false ∧
    (({ hst2 idleG 0 with ctxs := [(1, { mode := .killing, destroy := true, ksl := 3 })] } : State).ctx 1).ksl ≠ 0 := by decide +kernel

def saving : State := (hst2 { rungG with mode := .saving } 0).setSeq 0 { r := rg, c := { mode := .halted } }
theorem witness_save : (saving.group 15).mode = .saving ∧ saving.saveEvents 15 = [] ∧ saving.relGate 0 2 = none ∧
    saving.runsGate ((Tab.get? (saving.ctx 2).areas 15).toList.map fun a => (a.toNat, areaSize 15)) = none := by decide +kernel
/-- A sequencer on which another launch's node left its registers, with nothing in its window. -/
theorem witness_kept : (({ c := { kept := [(3, { r := rg, fmt := {}, ports := [], lq := [] })] } } : Seq).passEnd.c.kept.map (·.1)) = [3] ∧
    ({ c := { window := [win 0#128 0#4] } } : Seq).c.window ≠ [] := by decide +kernel
theorem test_save_keeps_registers : (match exec (.contextSaveComplete 15) saving with
    | .next t => ((Tab.get? (t.ctx 2).images 15).map fun i => i.seqs.map fun x => x.r.getS 2#6, (t.group 15).mode) | _ => (none, .absent)) =
      (some [8#64, 0#64, 0#64, 0#64], .idle) := by decide +kernel
def img : Image := { mask := 15#4, seqs := [{ r := rg, c := { mode := .halted } }, {}, {}, {}], spad := [(0, 1)], rung := 2 }
def loading : State := { hst2 { idleG with mode := .loading, ctx := 1 } 0 with seqs := [], ctxs := [(1, { mode := .active, images := [(15, img)] })] }
theorem witness_load : (loading.group 15).mode = .loading ∧ loading.migrate 1 = loading ∧ Tab.get? (loading.ctx 1).images 15 = some img ∧
    (loading.group 15).asked = none ∧ (loading.group 15).dpend = false ∧ Mem.wf img.spad = true ∧ Tab.rising none img.acc = true ∧
    Tab.rising none img.descs = true ∧ img.seqs.length = (groupSeqs 15).length := by decide +kernel
theorem test_load_resumes : (match exec (.contextLoadComplete 15) loading with
    | .next t => ((t.seq 0).c.mode, (t.seq 0).c.rsm, (t.seq 0).r.getS 2#6) | _ => (.idle, 0#32, 0#64)) = (.running, 1#32, 8#64) := by decide +kernel
theorem witness_group_scrub : ((hst2 { idleG with mode := .scrubbing } 0).group 15).mode = .scrubbing ∧
    ((hst2 { idleG with mode := .scrubbing, dpend := true } 0).group 15).dpend = true ∧
    ((hst2 { idleG with mode := .scrubbing, rpend := true } 0).group 15).rpend = true := by decide +kernel
/-- A context under teardown, with a block to scrub. -/
def tearing : State :=
  { hst2 idleG 0 with
    ctxs := [(1, { mode := .teardown, wins := [(0, (0, 64))], scrubList := [(0x10000, 1)] })]
    mem := { dram := [(0x10000, 5), (0x20000, 6)] }, dies := [(0, { pen := [(3, { count := 1#64 })] })] }
theorem witness_context_scrub : (tearing.ctx 1).mode = .teardown ∧ (tearing.ctx 1).scrubList = [(0x10000, 1)] ∧
    Tab.get? (tearing.ctx 1).wins 0 = some (0, 64) ∧
    (tearing.runsGate (((tearing.ctx 1).scrubList ++ tearing.ovfRuns (tearing.ctx 1)).map fun r => (r.1, 65536 * r.2))).isNone = true := by decide +kernel
theorem test_context_scrub : (match exec (.contextScrubComplete 1) tearing with
    | .next t => (Mem.get t.mem.dram 0x10000, Mem.get t.mem.dram 0x20000, (t.die 0).pen.length, (t.group 15).bound, (t.ctx 1).mode)
    | _ => (9#8, 9#8, 9, [], .ready)) = (0#8, 6#8, 0, [], .free) := by decide +kernel

/-! ### Requests at the home -/

/-- Line 0x400 in a cluster's L2 and its side-band. -/
def homest (side : BitVec 16) (cls : Tab Cluster) : State :=
  { st {} {} {} with clusters := cls, mem := { dram := [(0x10000, 1)], side := if side = 0#16 then [] else [(0x400, side)] } }
def clean : Cluster := { l2 := [(0x400, full 1#512)] }
def dirty : Cluster := { l2 := [(0x400, { full 7#512 with dirty := 1#64 })] }
/-- Owner and state codes: cluster 0 of die 0 in S, E, O and M. -/
theorem witness_home : (homest 0#16 []).gate 0x400 false = none ∧ (homest 0#16 []).gate 0x400 true = none ∧ (homest 0#16 []).sideBad 0x400 = false ∧ (homest 0#16 []).homeBad 0x400 = false ∧
    (homest 0#16 []).l2 1 0x400 = none ∧ ((homest 0#16 []).side 0x400).st = 0 ∧ ((homest 1#16 [(0, clean)]).side 0x400).st = 1 ∧
    ((homest 2#16 [(0, clean)]).side 0x400).st = 2 ∧ ((homest 3#16 [(0, dirty)]).side 0x400).st = 3 ∧ ((homest 4#16 [(0, dirty)]).side 0x400).st = 4 ∧
    ((homest 4#16 [(0, dirty)]).side 0x400).dev = (homest 4#16 [(0, dirty)]).link.dev.toNat ∧ ((homest 4#16 [(0, dirty)]).side 0x400).owner = 0 ∧
    (homest 4#16 [(0, dirty)]).ownsM 0x400 1 = false ∧ (homest 4#16 [(0, dirty)]).l2 0 0x400 = some { full 7#512 with dirty := 1#64 } ∧
    (homest 1#16 [(1, clean)]).l2 1 0x400 = some (full 1#512) ∧ ((homest 1#16 [(1, clean)]).side 0x400).owner ≠ 1 ∧
    (((homest 0#16 []).cluster 1).l2.filter fun e => e.1 % 8192 == 0x400 % 8192).length < 16 := by decide +kernel
theorem witness_home_sound : [homest 1#16 [(0, clean)], homest 2#16 [(0, clean)], homest 3#16 [(0, dirty)], homest 4#16 [(0, dirty)],
    homest 1#16 [(1, clean)]].all (fun s => !s.sideBad 0x400 && !s.homeBad 0x400 && (s.gate 0x400 true).isNone) = true := by decide +kernel
/-- Owners in E, O and M whose stores are pushed, and one in O with a store that is not. -/
theorem witness_home_back : [homest 2#16 [(0, clean)], homest 3#16 [(0, dirty)], homest 4#16 [(0, dirty)]].all (fun s =>
      !s.unpushed 0x400 0 && !s.lost 0x400 && (s.l2 0 0x400).any fun c => !c.out) = true ∧
    (homest 3#16 [(0, { l2 := [(0x400, { full 7#512 with dirty := 1#64, pend := true })] })]).unpushed 0x400 0 = true := by decide +kernel
theorem test_back_of_an_unpushed_store : (match exec (.homeWb 0x400 0)
      (homest 3#16 [(0, { l2 := [(0x400, { full 7#512 with dirty := 1#64, pend := true })] }), (1, clean)]) with
    | .next t => (t.engByte 0x10000, (t.l2 0 0x400).isNone, (t.l2 1 0x400).isNone, t.sideBits 0x400) | _ => (0#8, false, false, 1#16)) =
    (7#8, true, true, 0#16) := by decide +kernel
theorem test_rdx_takes_the_owner_s_bytes : (match exec (.homeRdx 0x400 1) (homest 4#16 [(0, dirty)]) with
    | .next t => ((t.l2 1 0x400).map (·.data), (t.l2 0 0x400).isNone, t.sideBits 0x400) | _ => (none, false, 0#16)) =
      (some 7#512, true, 0xC#16) := by decide +kernel
theorem test_engine_write_invalidates : (match exec (.engineHomeWrite 0x400 9#512 1#64) (homest 1#16 [(0, clean)]) with
    | .next t => (t.engByte 0x10000, t.l2 0 0x400, t.sideBits 0x400) | _ => (0#8, none, 1#16)) = (9#8, none, 0#16) := by decide +kernel

/-! ### Inputs from outside -/

/-- Decoder 0 maps host addresses from 2^40 on to physical addresses from 0x10000 on, in any mode of its TDI. -/
def hdm0 : Hdm := { hbase := 0x10000000000#64, size := 0x100000#64, pa := 0x10000#64, vd := 0, tdi := some 1 }
def kst (side : BitVec 16) : State :=
  let s := homest side []
  { s with link := { s.link with hdm := [(0, hdm0)] } }
/-- The first host address of the range that falls on this module, wherever the host's interleaving places it (spec/20 R397). -/
def place0 : Nat := Config.hdmPlace 0 % 2 ^ (Config.hdmWays 0 % 4)
def khost : Word := BitVec.ofNat 64 (0x10000000000 + 4096 * place0)
theorem place0_lt : place0 < 2 ^ (Config.hdmWays 0 % 4) ∧ place0 < 8 := by
  have h : place0 < 2 ^ (Config.hdmWays 0 % 4) := Nat.mod_lt _ (Nat.two_pow_pos _)
  exact ⟨h, Nat.lt_of_lt_of_le h (Nat.pow_le_pow_right (by omega) (by omega) : 2 ^ (Config.hdmWays 0 % 4) ≤ 2 ^ 3)⟩
theorem hdmOff_place0 : hdmOff 0 (4096 * place0) = some 0 := by
  have h := place0_lt.1
  have e : place0 % 2 ^ (Config.hdmWays 0 % 4) = Config.hdmPlace 0 % 2 ^ (Config.hdmWays 0 % 4) := Nat.mod_mod _ _
  simp [hdmOff, Nat.div_eq_of_lt h, e]
theorem khost_hostPa (s : State) (h : Tab.get? s.link.hdm 0 = some hdm0) : s.hostPa 0 khost = some (hdm0, 0x10000) := by
  have k : khost.toNat = 0x10000000000 + 4096 * place0 := by
    have := place0_lt.2
    simp [khost, BitVec.toNat_ofNat]
    omega
  have b : khost.toNat - hdm0.hbase.toNat = 4096 * place0 := by rw [k]; simp [hdm0]
  have f : paFast 65536 = false ∧ paRsv 65536 = 0 := by decide
  have c : hdm0.hbase.toNat ≤ khost.toNat ∧ khost.toNat < hdm0.hbase.toNat + hdm0.size.toNat := by
    have := place0_lt.2
    rw [k]; simp [hdm0]; omega
  simp only [State.hostPa, h, num, b, c, hdmOff_place0]
  simp [hdm0, f]
theorem witness_host : (kst 0#16).hostPa 0 khost = some (hdm0, 0x10000) ∧ (kst 4#16).hostPa 0 khost = some (hdm0, 0x10000) :=
  ⟨khost_hostPa _ rfl, khost_hostPa _ rfl⟩
theorem witness_host_served : (kst 0#16).hostKey hdm0 0x10000 = some ((kst 0#16).keyOf 0x400) ∧ (kst 0#16).sideBad 0x400 = false ∧
    (kst 0#16).homeBad 0x400 = false ∧ (kst 0#16).gate 0x400 true = none ∧ (kst 0#16).gate 0x400 true = none ∧ (kst 0#16).gate 0x400 false = none ∧ (kst 0#16).link.held = [] ∧
    ((kst 0#16).side 0x400).st ≠ 3 ∧ ((kst 4#16).side 0x400).st = 4 := by
  decide +kernel
/-- A page of a context with a key slot, mapped under it, while the decoder's TDI does not run. -/
def sealed : State :=
  let s := kst 0#16
  { s with
    ctxs := [(1, { mode := .active, ksl := 3, root2 := 0x30000#64 })]
    mem := { s.mem with dram := [(0x10000, 1), (0x30000, 0x3), (0x30001, 0x10), (0x30002, 0x3), (0x31000, 0x3), (0x31001, 0x20), (0x31002, 0x3),
                                 (0x32000, 0xD), (0x32006, 0x30)] } }
theorem witness_host_refused : sealed.hostPa 0 khost = some (hdm0, 0x10000) ∧ sealed.hostKey hdm0 0x10000 = none :=
  ⟨khost_hostPa _ rfl, by decide +kernel⟩
theorem test_host_read_shares : (match exec (.hostMemRd 0 khost) (kst 0#16) with
    | .next t => (t.link.answers, t.sideBits 0x400) | _ => ([], 0#16)) = ([.data 1#512], 0x8001#16) := by
  simp only [exec, execHostMemRd, khost_hostPa ((kst 0#16).takeHost (.hostMemRd 0 khost)) rfl]
  decide +kernel
theorem witness_bisnp : 0x400 ∈ ({ homest 0#16 [] with mem := { bisnp := [0x400] } } : State).mem.bisnp := by decide +kernel
theorem test_tdisp_start_needs_locked : (match exec (.tdispStartInterface 5) State.reset with
    | .next t => (t.link.answers, (t.tdi 5).mode) | _ => ([], .run)) = ([.tdisp false], .unlocked) := by decide +kernel
/-- A running TDI bound to a loaded context. -/
theorem witness_tdi : ((gidle.setTdi 5 { mode := .run, ctx := some 1 }).tdi 5).mode = .run ∧ (gidle.ctx 1).mode = .active ∧
    ((gidle.setTdi 5 { mode := .run, ctx := some 1 }).tdi 5).ctx = some 1 := by decide +kernel

theorem witness_ports : (homest 0#16 []).peerOk .switch = true ∧ (homest 0#16 []).cutOff 3 = false ∧
    ({ homest 0#16 [] with link := { domain := some 7, routes := [0#16, 0#16, 0#16, 2#16] } } : State).cutOff 3 = true := by decide +kernel
/-- An undecided mcas with a home on device 3, which no trained port leads to. -/
def cut : State :=
  let s := mheld { ents := [{ ment 0#64 with pa := 3 * 2 ^ 49 }], lq := 0 }
  { s with link := { domain := some 7, routes := [0#16, 0#16, 0#16, 2#16] } }
theorem witness_unreachable : cut.cutOff 3 = true ∧ cut.seqs = [(0, cut.seq 0)] ∧ ((cut.seq 0).mcas.map fun m => m.2.result) = some none ∧
    paDev (3 * 2 ^ 49) = 3 := by decide +kernel
/-- A group of two contributions to one line of 0x10000. -/
def red (lines : Tab (Nat × BitVec 512)) : State :=
  { homest 0#16 [] with
    link := { red := [(0, { n := 2, span := 64#64, dest := 0x10000#64, handle := 3#32, lines := lines, written := [] })] } }
theorem witness_swred : (red []).gate 0x400 true = none ∧ (red []).sideBad 0x400 = false ∧ paDev 0x10000 = (red []).link.dev.toNat ∧ 0 + 64 ≤ (64#64).toNat ∧ (Tab.get? (red []).link.red 0).isSome = true ∧
    ((Tab.get? (red [(0, (1, 5#512))]).link.red 0).map fun g => Tab.get? g.lines 0) = some (some (1, 5#512)) := by decide +kernel
theorem test_swred_sums : (match exec (.swredContribution 0 0 7#512) (red [(0, (1, 5#512))]) with
    | .next t => (t.engByte 0x10000, t.hal.map (·.op)) | _ => (0#8, [])) = (12#8, [.add 3#32 1#64 false]) := by decide +kernel
/-- A queue of an owner of function 5; a clock that a recall holds up. -/
theorem witness_doorbell : ({ gidle with owners := [(0, { used := true, fn := 5 })] } : State).ownerOf 5 =
      some (gidle.ctx (gidle.queue 0).ctx).owner ∧ (gidle.queue 0).mode ≠ .free := by decide +kernel
theorem witness_clock : 1000 ≤ 1300 ∧ 1300 ≤ 1400 ∧ 1300 % 25 = 0 ∧ 1300 < 1320 ∧ 1300 < State.reset.mast.clk ∧
    ({ State.reset with groups := [(15, { rpend := true })] } : State).groups.any (fun e => e.2.rpend) = true := by decide +kernel
theorem witness_bringup : State.reset.mast.ready = false ∧ State.reset.mast.berr = 0#8 ∧ State.reset.mast.stage = 0#4 ∧
    ({ State.reset with mast := { State.reset.mast with stage := 3#4, cold := true } } : State).mast.cold = true ∧
    (let s : State := { State.reset with mast := { State.reset.mast with stage := 3#4, cold := false, journal := [(1, [(0x10000, 2)])] } }
     s.runsAtReset = [(0x10000, 0x20000)] ∧ (s.runsGate s.runsAtReset).isNone = true) ∧
    (let s : State := { State.reset with mast := { State.reset.mast with stage := 3#4, cold := true } }
     s.runsAtReset = [(0, 2 ^ 49)] ∧ (s.runsGate s.runsAtReset).isNone = true) := by decide +kernel
theorem test_bringup_stage_five : (match exec (.bringupStage 0#8) { State.reset with mast := { stage := 5#4 } } with
    | .next t => t.mast.ready | _ => false) = true := by decide +kernel

/-! ### Commands of Masthead -/

/-- Masthead is ready, and PF0 and function 5, to which owner 0 is bound, each have a descriptor in their ring; context 1 of owner 0 is
free of any group. -/
def mh (ctx1 : Ctx) (seqs : Tab Seq) (groups : Tab Group) : State :=
  { State.reset with
    seqs := seqs, groups := groups, ctxs := [(1, ctx1)], owners := [(0, { used := true, fn := 5 }), (1, { used := true })]
    mast := { ready := true, mail := [(0, { base := 0x1000#64, tail := 1#32 }), (5, { base := 0x2000#64, tail := 1#32 })]
              keys := [(3, .loaded 1)] } }
def mready : State := mh { mode := .ready } [] []
theorem witness_may : mready.mast.ready = true ∧ mready.ownerOf 5 = some 0 ∧ (mready.mail 5).head ≠ (mready.mail 5).tail ∧
    (mready.mail 7).head = (mready.mail 7).tail ∧ (mready.owner 2).used = false ∧ (mready.owner 1).used = true ∧
    (mready.owners.all fun e => e.2.used && e.2.fn != 9) = true ∧ (mready.ctxs.all fun e => e.2.owner != 1) = true ∧
    mready.mast.seqno ≠ BitVec.allOnes 64 := by decide +kernel
theorem test_owner_command_of_a_function : (match exec (.ownset 5 0#64 9#64) mready with
    | .next t => (t.hostWord 0x2060, (t.owner 0).w, (t.mail 5).head) | _ => (0#64, 0, 0#32)) = (4#64, 1, 1#32) := by decide +kernel
theorem witness_readback : (match mready.item 11 0 with | some x => decide (8 + 16 ≤ x.size) | none => false) = true ∧ mready.itemSealed 0 11 0 = false := by
  decide +kernel
theorem witness_overflow : mready.inStack 0x10000 (16 * 65536) = true ∧ paDie 0x10000 = 0 ∧ paFast 0x10000 = false ∧ (65536 : Nat) % 65536 = 0 ∧
    (mready.ctxs.all fun e => e.2.wins.isEmpty) = true ∧ (mready.ctxLeaves 1).isEmpty = true ∧
    (mready.rangeGate 0x10000 (16 * 65536)).isNone = true := by decide +kernel

theorem witness_ccreate : (mready.ctx 2).mode = .free ∧ (mready.owner 0).used = true ∧ mready.ctxs.length < 4096 ∧
    Tab.get? mready.mast.keys 3 = some (.loaded 1) ∧ (mready.ctxs.all fun e => e.2.ksl != 3) = true ∧ Tab.get? mready.mast.keys 4 = none := by
  decide +kernel
theorem test_ccreate : (match exec (.ccreate 5 2#64 0#64 0x40#64 4#64 0#64 5#64 6#64 3#64) mready with
    | .next t => (t.hostWord 0x2060, (t.ctx 2).mode, (t.ctx 2).kill) | _ => (9#64, .free, 0#32)) = (0#64, .ready, 6#32) := by decide +kernel
theorem witness_context_commands : (mready.ctx 1).mode = .ready ∧ (mready.ctx 1).owner = 0 ∧ (mready.ctx 1).ksl = 0 ∧
    (mready.ctx 7).mode = .free ∧ mready.inStack 0x40000 (areaSize 15) = true ∧ paDie 0x40000 = dieOfCore (15 / 16) ∧
    ((mh {} [] [(15, idleG)]).group 15).mode ≠ .absent ∧ ((mh {} [] [(15, idleG)]).group 15).has 1 = false ∧ mready.blocked 0x40000 (areaSize 15) = false ∧
    (mready.ctxLeaves 1).isEmpty = true ∧ Tab.get? (mready.ctx 1).wins 0 = none ∧ mready.readRuns 0 0 = [] ∧
    ((mh {} [] [(15, idleG)]).group 15).owner = (mready.ctx 1).owner ∧ ((mh {} [] [(15, { idleG with owner := 1 })]).group 15).lent = false ∧
    ((mh {} [] [(15, { idleG with owner := 1 })]).group 15).owner ≠ (mready.ctx 1).owner := by decide +kernel
/-- The context runs on group 15, and sequencer 1 is stopped. -/
def mrun : State := mh { mode := .active } [(1, { c := { mode := .stopped, pc := 0x20#64 } })] [(15, { mode := .running, ctx := 1, bound := [1] })]
theorem witness_context_ends : (mready.ctx 1).destroy = false ∧ (mready.dropAll 1 ((mready.ctx 1).openPorts ++ (mready.ctx 1).left)).2 = [] ∧
    ((mh { mode := .killing } [] []).ctx 1).mode = .killing := by decide +kernel
theorem witness_preempt_resume : (mrun.group 15).mode = .running ∧ 1 ∈ (mrun.group 15).bound ∧ (mrun.group 15).rung = 0 ∧
    mrun.groupOf 1 = some (15, { mode := .running, ctx := 1, bound := [1] }) ∧ (mrun.seq 1).c.mode = .stopped ∧ (mrun.seq 0).c.mode ≠ .stopped ∧
    (mrun.ctx 1).mode ≠ .killing ∧ (mrun.group 15).owner = (mrun.ctx 1).owner ∧
    (({ mrun with groups := [(15, { mode := .running, ctx := 1, bound := [1], owner := 1 })] } : State).group 15).owner ≠ (mrun.ctx 1).owner := by decide +kernel
theorem test_cresume_at : (match exec (.cresume 5 1#64 1#64 0x10000#64) mrun with
    | .next t => ((t.seq 1).c.mode, (t.seq 1).c.pc) | _ => (.idle, 0#64)) = (.running, 0x10000#64) := by decide +kernel

def mgrp (g : Group) : State := mh { mode := .ready } [] [(15, g)]
theorem witness_group_commands : (mgrp idleG).quadTaken 0 4 = true ∧ mready.quadTaken 0 4 = false ∧ (mgrp idleG).group 15 = idleG ∧
    (mgrp idleG).group 31 = {} ∧ idleG.has 1 = false ∧ 2 ∉ idleG.bound ∧ idleG.lent = false ∧ idleG.owner ≠ 1 ∧ idleG.rpend = false ∧
    ((mgrp { idleG with mode := .running, ctx := 1, lent := true, borrower := 1, rpend := true, rung := 1 }).group 15).rpend = true ∧
    ((mgrp { idleG with lent := true, borrower := 1 }).group 15).lent = true ∧ (mrun.group 15).mode = .running ∧
    ({ mrun with groups := [(15, { mode := .running, ctx := 1, bound := [1], lent := true, owner := 1 })] } : State).ownerOf 5 = some 0 := by
  decide +kernel
/-- A lent group whose load no CPREEMPT waits for; a group that binds the contexts of its holder. -/
theorem witness_group_lent : ((mgrp { idleG with mode := .loading, ctx := 1, lent := true, borrower := 1 }).mast.mail.all fun e =>
      e.2.pend != some (.save 15)) = true ∧ ((mgrp { mode := .idle }).ctx 1).owner = ((mgrp { mode := .idle }).group 15).owner ∧
    1 ∉ ((mgrp { mode := .idle }).group 15).bound ∧ ((mgrp idleG).group 15).bound.length < 16 ∧ ((mgrp idleG).group 15).bound.getD 0 0 < 65536 := by
  decide +kernel
theorem test_gcreate_takes_quadrants_once : (match exec (.gcreate 0 0#64 4#64 0#64) (mgrp idleG) with
    | .next t => t.hostWord 0x1060 | _ => 0#64) = 2#64 := by decide +kernel
theorem test_recall_of_an_idle_group : (match exec (.recallGroup 5 15#64) (mgrp { idleG with lent := true, borrower := 1 }) with
    | .next t => ((t.group 15).mode, (t.mail 5).head) | _ => (.absent, 9#32)) = (.scrubbing, 0#32) := by decide +kernel
def mq (m : QMode) : State := { mready with queues := [(0, { mode := m, ctx := 1, rcode := 9#8, eidx := 2#32 })] }
theorem witness_queue_commands : ((mq .active).queue 0).mode = .active ∧ ((mq .halted).queue 0).mode = .halted ∧ (mq .active).launchesOf 0 = [] ∧
    (mq .active).pools + 4 ≤ 16384 ∧ ((mq .active).queue 1).mode = .free ∧ ((mq .active).ctx ((mq .active).queue 0).ctx).owner = 0 := by decide +kernel
theorem test_qreset_of_an_active_queue : (match exec (.qreset 5 0#64) (mq .active) with
    | .next t => (t.hostWord 0x2060, (t.queue 0).mode, (t.queue 0).rcode) | _ => (0#64, .free, 0#8)) = (2#64, .active, 9#8) := by decide +kernel

/-- Second-stage tables whose one leaf maps the page at 0x10000 to itself; the leaf stands at 0x34008. -/
def mmap : State :=
  { mh { mode := .ready, root2 := 0x30000#64 } [] [] with
    dies := [(0, { tlb := [{ tlb0 with e2at := 0x34008 }] })]
    mem := { dram := [(0x10000, 7), (0x30000, 0x3), (0x30001, 0x10), (0x30002, 0x3), (0x31000, 0x3), (0x31001, 0x20), (0x31002, 0x3), (0x32000, 0x3),
                      (0x32001, 0x30), (0x32002, 0x3), (0x33000, 0x3), (0x33001, 0x40), (0x33002, 0x3), (0x34008, 0x3D), (0x3400A, 0x1)] } }
theorem witness_vmroot : mmap.loadedAny 1 = false ∧ mrun.loadedAny 1 = true ∧
    ((mmap.leaves 0x30000 0 0 5).all fun e => !mmap.ownArea 1 (eAddr e.2.2.1) e.2.1 && !mmap.meetsOverflow (eAddr e.2.2.1) e.2.1) = true ∧
    (({ mmap with dies := [(0, { ovf := some (0x10000, 16) })] } : State).leaves 0x30000 0 0 5).any (fun e => !eNc e.2.2.1 &&
      ({ mmap with dies := [(0, { ovf := some (0x10000, 16) })] } : State).meetsOverflow (eAddr e.2.2.1) e.2.1) = true := by decide +kernel
theorem witness_s2map : mmap.placeIn 0x30000 0x20000 0 4 5 = some 0x34010 ∧ mmap.gate (lineOf 0x34010) true = none ∧ mmap.lost (lineOf 0x34010) = false ∧ mmap.homeBad (lineOf 0x34010) = false ∧ eT (mmap.engWord 0x34010) = false ∧ mmap.blocked 0x20000 65536 = false ∧
    mmap.meetsOverflow 0x20000 65536 = false ∧ paFast 0x20000 = false ∧ mmap.mapsOwnArea 0x34010 0x20000 65536 = false := by decide +kernel
theorem test_s2map_writes_its_leaf : (match exec (.s2map 0 1#64 0x20000#64 0x50000#64 0x10000#64 1#64 0#64 1#64 0#64 0#64) mmap with
    | .next t => t.engWord 0x34010 | _ => 0#64) = 0x50015#64 := by decide +kernel
/-- A page of 1 GiB, for the tables to be few. -/
def mgib : State :=
  { mh { mode := .ready, root2 := 0x30000#64 } [] [] with
    mem := { dram := [(0x30000, 0x3), (0x30001, 0x10), (0x30002, 0x3), (0x31000, 0x3), (0x31001, 0x20), (0x31002, 0x3), (0x32000, 0x3D)] } }
theorem witness_s2unmap : mgib.wholeLeaves 1 0 (2 ^ 30) = some [(0, 2 ^ 30, 0x3D#64, 0x32000)] ∧
    tryIs (mgib.quiesce (fun c => c == 1 || (mgib.sharers [0x32000]).contains c) true) mgib () = true := by decide +kernel
theorem witness_writable : Stmt.writable mgib (lineOf 0x32000) ∧ Stmt.writable mmap (lineOf 0x34008) :=
  ⟨⟨by decide +kernel, by decide +kernel, by decide +kernel⟩, ⟨by decide +kernel, by decide +kernel, by decide +kernel⟩⟩
theorem witness_quiesce : tryIs (mmap.quiesce (fun c => c == 1) true) mmap () = true ∧
    tryIs (mmap.quiesce (fun c => (1 : Nat) == 0 || c == 1) true) mmap () = true ∧ tryIs (mmap.quiesce (fun c => (mmap.sharers [0x34008]).contains c) false) mmap () = true ∧
    ((mmap.recallGates 0x10000 0x80000 65536).all fun l => (mmap.gate l true).isNone && !mmap.lost l) = true ∧
    ((mmap.sharers [0x34008]).all fun c => !mmap.ownArea c 0x80000 65536) = true ∧
    ((mmap.heldLines 0x10000 65536 ++ mmap.heldLines 0x80000 65536).all fun l => !mmap.sideBad l) = true := by decide +kernel
theorem witness_hdmset : paDev (0x10000#64).toNat = mmap.link.dev.toNat ∧
    paDev ((0x10000#64).toNat + ((0x100000#64).toNat / 2 ^ (Config.hdmWays 0 % 4) - 1)) = mmap.link.dev.toNat := by
  refine ⟨by decide, ?_⟩
  have h : (0x100000#64).toNat / 2 ^ (Config.hdmWays 0 % 4) ≤ 0x100000 := Nat.div_le_self _ _
  have e : mmap.link.dev.toNat = 0 := rfl
  have p : (0x10000#64).toNat = 65536 := rfl
  rw [e, p]
  show (65536 + _) / 2 ^ 49 % 8 = 0
  omega
theorem witness_hmove : mmap.leafAt 0x34008 = some (1, 65536, 0x1003D#64) ∧ eNc 0x1003D#64 = false ∧ eAddr 0x1003D#64 = 0x10000 ∧
    mmap.pinnedIn 0x10000 65536 = false ∧ mmap.blocked 0x80000 65536 = false ∧ mmap.meetsOverflow 0x80000 65536 = false ∧ paFast 0x80000 = false ∧
    overlap 0x10000 65536 0x80000 65536 = false ∧ overlap 0x34008 8 0x80000 65536 = false ∧ overlap 0x34008 8 0x10000 65536 = false ∧
    Mem.wf mmap.mem.dram = true := by decide +kernel
theorem test_hmove : (match exec (.hmove 0 0x34008#64 0x80000#64) mmap with
    | .next t => (t.engWord 0x34008, t.engByte 0x80000, (t.die 0).tlb.length) | _ => (0#64, 0#8, 9)) = (0x8003D#64, 7#8, 0) := by decide +kernel
theorem witness_frset : (mmap.die 0).fr ≤ 2 ∧ (mmap.groups.all fun e => e.2.mode == .idle) = true ∧
    ((({ mmap with dies := [(0, { promo := [(3, [prow 1])] })] } : State).promo 0 3).all fun r => decide (r.fast < 128 * 2) && !r.pin &&
      overlap (mmap.rowPa 0 3 r) 2048 (mmap.fastPa 0 0) (2 * 2 ^ 28) == false) = true ∧ (mmap.rangeGate (mmap.fastPa 0 0) (2 * 2 ^ 28)).isNone = true := by
  decide +kernel
theorem witness_link_commands : Tab.get? mmap.link.hdm 0 = none ∧ paDev 0x10000 = mmap.link.dev.toNat ∧ (mmap.tdi 5).mode = .unlocked ∧
    ((mh { mode := .ready, ksl := 3 } [] []).ctx 1).ksl ≠ 0 ∧ (mready.ctxLeaves 1).isEmpty = true ∧
    Tab.get? mmap.link.red (2 * 256 + 1) = none ∧ (3#64).toNat ≠ mmap.link.dev.toNat := by decide +kernel
/-- A dirty line whose home is open to be written, and a decoder of this device. -/
theorem witness_lnkdom : (let s : State := { mmap with
      clusters := [(0, { l2 := [(0x400, { data := 0#512, have_ := BitVec.allOnes 64, dirty := 1#64 })] })]
      link := { mmap.link with hdm := [(0, { hbase := 0#64, size := 64#64, pa := 0x40#64, vd := 0, tdi := none })] } }
    s.unwritten = [0x400] ∧ (s.unwritten.all fun l => (s.gate l true).isNone) = true ∧ paDev 0x40 = s.link.dev.toNat ∧
    (s.renumber 3#3).link.dev = 3#3) := by decide +kernel
/-- A context with a leaf on device 3. -/
theorem witness_domfault : (({ mmap with mem := { mmap.mem with dram := Mem.write mmap.mem.dram 0x3400E [6#8] } } : State).ctxLeaves 1).any
    (fun e => !eNc e.2.2.1 && paDev (eAddr e.2.2.1) == 3) = true := by decide +kernel

/-! ### The machine as a whole -/

/-- A bundle of fmt.set alone, of nops with STOP, and an add in slot A. -/
def addA : BitVec 128 := 0x54008208#128
def ready : State := { st rg { window := [win addA 0#4], turn := some 0, pc := 0x10010#64, bn := 1 } {} with latch := some (0, 0) }
theorem witness_step : ready.cur.seq < 16384 ∧ ready.agenda = [] ∧ (ready.elapse.seq 0).regionReady = false ∧ (ready.elapse.seq 0).shadowDue = false ∧
    ready.owed = [] ∧ ready.elapse.latch = some (0, 0) ∧ (ready.elapse.seq 0).c.mode = .running ∧ (ready.elapse.seq 0).whole (win addA 0#4) = false ∧
    ready.elapse.mayIssue 0 (win addA 0#4) 0 = true ∧
    (ready.elapse.seq 0).nextOf 0 = some (win addA 0#4) ∧ (ready.elapse.seq 0).ready (win addA 0#4) 0 = true ∧
    decodeSlot addA (slotOf 0) = .ok (.addAi 0#4 4#6 4#6 8#7) ∧ ({ ready with agenda := [.bundleIssue 0 0] } : State).agenda = [.bundleIssue 0 0] ∧
    16384 ≤ ({ ready with cur := { seq := 16384 } } : State).cur.seq := by decide +kernel
/-- A SYNC bundle of an add and nops: all four slots issue in one step (spec/02 R31). -/
def syncAdd : BitVec 128 := addA ||| 0x20000000#128
def whole : State := { ready with seqs := [(0, { r := rg, c := { mode := .running, window := [win syncAdd 0#4], turn := some 0, pc := 0x10010#64, bn := 1 } })] }
theorem witness_whole : (whole.elapse.seq 0).whole (win syncAdd 0#4) = true ∧ whole.elapse.mayIssue 0 (win syncAdd 0#4) 0 = true ∧
    (whole.elapse.seq 0).nextOf 0 = some (win syncAdd 0#4) ∧ whole.elapse.firstStall 0 (win syncAdd 0#4) = none ∧
    [0, 1, 2, 3].all (fun n => match decodeSlot syncAdd (slotOf n) with | .ok _ => true | .error _ => false) = true := by decide +kernel
theorem test_whole_bundle : (match step whole with | .next t => (t.me.r.getS 4#6, t.me.c.window.length) | _ => (0#64, 9)) = (7#64, 0) := by
  decide +kernel
/-- The fetch of witness_group's bundle: a page that translates, no lock, no cached line. -/
theorem witness_fetch : inAperture 0x10000#64 = false ∧ maps wst (wst.translate 0 1 0x10000#64 { cls := pcFetch, fetch := true }) (fun tr => tr.pa % 16 == 0) = true ∧
    eNc tlb0.e2 = false ∧ wst.keyOf 0x400 = (wst.kid (eKsl tlb0.e2)).getD 0 ∧ wst.gate 0x400 false = none ∧
    wst.homeBad 0x400 = false ∧ wst.needsWalk 0 1 0x10000#64 false = false ∧
    Tab.get? (wst.core 0).icache (0x400 * 65536 + wst.ctxOf 0) = none ∧ wst.l2 0 0x400 = none ∧
    ((wst.cluster 0).l2.filter fun e => e.1 % 8192 == 0x400 % 8192).length < 16 := by decide +kernel
theorem witness_guarded_off : (st {} {} {}).guardOn (guardOf (.addAr 5#4 1#6 2#6 3#6)) = false ∧ (Instr.nopC 3#7).isNop = true ∧
    (st {} {} {}).me.c.late = [] := by decide +kernel
theorem witness_encoding : (Instr.addAr 0#4 5#6 1#6 2#6).wf = true ∧ (encode (.addAr 0#4 5#6 1#6 2#6)).isSome = true ∧
    (Instr.s2unmap 0 1#64 0x10000#64 0x10000#64).wf = true ∧ (encodeCmd (.s2unmap 0 1#64 0x10000#64 0x10000#64)).isSome = true := by decide +kernel
theorem witness_memories : State.reset.memOk = true ∧ wst.memOk = true := by decide +kernel

/-- A table word: an add in slot A at its opcode row, and what its first step does. -/
theorem test_table_word : decodeTableWord 32 0x14008208 = some (.addAi 0#4 4#6 4#6 8#7) := by decide +kernel
theorem test_first_step : (match step (State.reset.withFetchWord 32 0x14008208) with
    | .next t => (t.seq 0).r.getS 4#6 | _ => 0#64) = 8#64 := by decide +kernel

end Sys2Proof.Tests
end

section
/-! PROOFS. Every step keeps the canonical form of memory: one lemma for each operation that the rows are made of, in the order of the
model. What an answer keeps, control flow, and fetch. -/

namespace Sys2Proof.Machine

/-! ### Answers of every kind -/

/-- Whatever an instruction answers keeps the form. -/
def Result.memOk : Result → Bool
  | .next s => s.memOk
  | .fault _ | .refused _ => true

theorem Result.memOk_next {r : Result} {t : State} (hr : Result.memOk r = true) (e : r = .next t) : t.memOk = true := by
  subst e; exact hr

theorem State.memOk_fst {α : Type} {p : State × α} {s : State} {a : α} (hp : p.1.memOk = true) (e : p = (s, a)) :
    s.memOk = true := by subst e; exact hp

theorem Try.memOk_ok {α : Type} {x : Try α} {s : State} {a : α} (hx : x.memOk = true) (e : x = .ok s a) :
    s.memOk = true := by subst e; exact hx

theorem Try.memOk_trap {α : Type} {x : Try α} {s : State} {t : Trap} (hx : x.memOk = true) (e : x = .trap s t) :
    s.memOk = true := by subst e; exact hx

theorem Try.memOk_wait {α : Type} {x : Try α} {s : State} {l : List Instr} (hx : x.memOk = true) (e : x = .wait s l) :
    s.memOk = true := by subst e; exact hx

/-- The finish of a slot instruction. -/
theorem Res.finish_memOk {r : Res} (h : r.memOk = true) : Result.memOk r.finish = true := by
  obtain ⟨t, e⟩ := Res.finish_next r
  rw [e]
  exact Res.memOk_finish h e

/-- A slot instruction keeps the form when its body does. -/
theorem slotOp_keeps {g : BitVec 7} {s : State} {body : State → Res} (h : s.memOk = true)
    (hb : ∀ s, s.memOk = true → (body s).memOk = true) : Result.memOk (slotOp g s body) = true := by
  obtain ⟨t, e⟩ := slotOp_next g s body
  rw [e]
  exact slotOp_memOk (hb s h) h e

theorem slotDo_keeps {g : BitVec 7} {s : State} {f : State → State} (h : s.memOk = true)
    (hf : ∀ s, s.memOk = true → (f s).memOk = true) : Result.memOk (slotDo g s f) = true := by
  obtain ⟨t, e⟩ := slotDo_next g s f
  rw [e]
  exact slotDo_memOk (hf s h) h e

/-- A slot instruction that leaves memory alone. -/
theorem slotDo_keeps_mem {g : BitVec 7} {s : State} {f : State → State} (h : s.memOk = true)
    (hf : ∀ s, (f s).mem = s.mem) : Result.memOk (slotDo g s f) = true :=
  slotDo_keeps h fun s hs => State.memOk_of_mem (hf s) hs

theorem State.memOk_stallOn {s : State} (l : List Instr) (h : s.memOk = true) : (s.stallOn l).memOk = true :=
  State.memOk_of_mem rfl h

theorem State.raise_memOk {s : State} (t : Trap) (h : s.memOk = true) : Result.memOk (s.raise t) = true :=
  Res.finish_memOk (r := .trap s t) h

/-! ### Control -/

theorem State.memOk_alone {s : State} {f : State → Res} (h : s.memOk = true)
    (hf : ∀ s, s.memOk = true → (f s).memOk = true) : (s.alone f).memOk = true := by
  unfold State.alone
  split
  · exact hf s h
  · exact State.memOk_of_mem rfl h

theorem State.memOk_stopAfter {s : State} (q bn k : Nat) (p : Word) (t : Word → Trap) (h : s.memOk = true) :
    (s.stopAfter q bn k p t).memOk = true :=
  State.memOk_stopSeq q k 0 _ p (State.memOk_of_mem rfl h)

theorem jumpTo_memOk {s : State} (g : BitVec 4) (d a : BitVec 6) (h : s.memOk = true) : Result.memOk (jumpTo g d a s) = true :=
  slotOp_keeps h fun s hs => by
    dsimp only
    split
    · exact hs
    · exact State.memOk_of_mem rfl hs

theorem execTrap_memOk {s : State} (g : BitVec 4) (code : BitVec 19) (h : s.memOk = true) :
    Result.memOk (execTrap g code s) = true :=
  slotOp_keeps h fun s hs => State.memOk_alone hs fun s hs => by
    split
    · exact State.memOk_beforeStop hs ‹_›
    · exact State.memOk_stopAfter _ _ _ _ _ hs

theorem execHalt_memOk {s : State} (g : BitVec 4) (code : BitVec 19) (h : s.memOk = true) :
    Result.memOk (execHalt g code s) = true :=
  slotOp_keeps h fun s hs => State.memOk_alone hs fun s hs => by
    split
    · exact State.memOk_beforeStop hs ‹_›
    · exact State.memOk_of_mem rfl hs

theorem execHaltStop_memOk {s : State} (q : Nat) (h : s.memOk = true) : Result.memOk (execHaltStop q s) = true := by
  unfold execHaltStop
  split
  · exact h
  · split
    · exact State.memOk_stopAfter _ _ _ _ _ h
    · exact h

theorem execLbrk_memOk {s : State} (g : BitVec 4) (k : BitVec 3) (off : BitVec 16) (h : s.memOk = true) :
    Result.memOk (execLbrk g k off s) = true :=
  slotOp_keeps h fun s hs => by
    dsimp only
    split
    · refine State.memOk_alone hs fun s hs => ?_
      split
      · exact State.memOk_of_mem rfl hs
      · exact hs
    · exact State.memOk_of_mem rfl hs

theorem State.pushLoop_mem (s : State) (n : Word) (len : BitVec 9) (k : Nat) : (s.pushLoop n len k).mem = s.mem := by
  unfold State.pushLoop; split <;> rfl

theorem execLoopSp_memOk {s : State} (g : BitVec 4) (a : BitVec 6) (len : BitVec 9) (aux : BitVec 4) (h : s.memOk = true) :
    Result.memOk (execLoopSp g a len aux s) = true :=
  slotOp_keeps h fun s hs => State.memOk_alone hs fun s hs => by
    dsimp only
    split
    · exact State.memOk_of_mem (State.pushLoop_mem s _ _ _) hs
    · exact hs

theorem execSpecBegin_memOk {s : State} (g : BitVec 4) (h : s.memOk = true) : Result.memOk (execSpecBegin g s) = true :=
  slotOp_keeps h fun s hs => by
    dsimp only
    (repeat' split)
    · exact hs
    · exact hs
    · exact State.memOk_of_mem rfl hs

theorem endRegion_memOk {s : State} (b : Bool) (g : BitVec 4) (h : s.memOk = true) : Result.memOk (endRegion b g s) = true :=
  slotDo_keeps_mem h fun s => by dsimp only; split <;> rfl

theorem execSpecRegionEnd_memOk {s : State} (q : Nat) (h : s.memOk = true) : Result.memOk (execSpecRegionEnd q s) = true := by
  unfold execSpecRegionEnd
  dsimp only
  split
  · exact h
  · split
    · exact State.memOk_of_mem rfl h
    · exact h

theorem execSysWr_memOk {s : State} (g : BitVec 4) (d : BitVec 6) (num : BitVec 13) (h : s.memOk = true) :
    Result.memOk (execSysWr g d num s) = true :=
  slotOp_keeps h fun s hs => by
    split
    · exact State.memOk_of_mem rfl hs
    · exact hs

/-! ### Fetch and issue -/

theorem State.memOk_fetch {s : State} (q : Nat) (pc : Word) (h : s.memOk = true) : (s.fetch q pc).memOk = true := by
  unfold State.fetch
  dsimp only
  split
  · exact h
  · split
    · exact h
    · split
      · exact State.memOk_fst (State.memOk_translate _ _ _ _ h) ‹_›
      · rename_i s1 t e
        have h2 : (s1.useKey t).memOk = true := State.memOk_useKey t (State.memOk_fst (State.memOk_translate _ _ _ _ h) e)
        have fill : ∀ s2 : State, s2.memOk = true → (s2.l2Read (clusterOf q) (lineOf t.pa) (s.ctxOf q)).1.memOk = true :=
          fun s2 hs => State.memOk_l2Read _ _ _ hs
        split
        · exact State.memOk_of_mem rfl h2
        · split
          · exact State.memOk_of_mem rfl (fill _ h2)
          · split
            · exact State.memOk_gate h2 ‹_›
            · exact Try.memOk_bind (State.memOk_meetErrors _ _ _ _ h2) fun s3 _ h3 => State.memOk_of_mem rfl (fill _ h3)

theorem State.memOk_checkGroup {s : State} (q : Nat) (ls : List Loop) (pc : Word) (n : Nat) (us : List Uses)
    (bs : List (Word × BitVec 128)) (fuel : Nat) (h : s.memOk = true) : (s.checkGroup q ls pc n us bs fuel).memOk = true := by
  induction fuel generalizing s pc n us bs with
  | zero => exact h
  | succ fuel ih =>
    have hf := State.memOk_fetch q pc h
    unfold State.checkGroup
    split
    · exact Try.memOk_wait hf ‹_›
    · exact Try.memOk_trap hf ‹_›
    · have h1 := Try.memOk_ok hf ‹_›
      split
      · exact h1
      · split
        · exact h1
        · exact ih _ _ _ _ h1

theorem State.memOk_stallFetch {s : State} (l : List Instr) (h : s.memOk = true) : (s.stallFetch l).memOk = true :=
  State.memOk_of_mem rfl h

theorem State.groupTrap_memOk {s : State} (q slot : Nat) (t : Trap) (p : Word) (h : s.memOk = true) :
    Result.memOk (s.groupTrap q slot t p) = true := by
  unfold State.groupTrap
  dsimp only
  split
  · exact State.memOk_stallFetch _ h
  · split
    · exact State.memOk_stallFetch _ (State.memOk_beforeStop h ‹_›)
    · exact State.memOk_stopSeq _ _ _ _ _ h

theorem State.refetch_memOk {s : State} (q r : Nat) (h : s.memOk = true) : Result.memOk (s.refetch q r) = true := by
  unfold State.refetch
  dsimp only
  split
  · exact State.memOk_of_mem rfl h
  · rename_i e _
    have hf := State.memOk_fetch q e.addr h
    split
    · exact State.memOk_stallFetch _ (Try.memOk_wait hf ‹_›)
    · have h1 := Try.memOk_ok hf ‹_›
      exact State.memOk_of_mem rfl h1
    · have h1 := Try.memOk_trap hf ‹_›
      split
      · exact State.memOk_stallFetch _ h1
      · split
        · exact State.memOk_stallFetch _ (State.memOk_beforeStop h1 ‹_›)
        · exact State.memOk_putRecord _ _ (State.memOk_of_mem rfl h1)

theorem execGroupCheck_memOk {s : State} (q : Nat) (h : s.memOk = true) : Result.memOk (execGroupCheck q s) = true := by
  unfold execGroupCheck
  split
  · split
    · exact State.refetch_memOk _ _ h
    · exact h
  · split
    · dsimp only
      have hc := State.memOk_checkGroup q (s.seq q).turnOver.c.loops (s.seq q).turnOver.c.pc 1 [] [] 8
        (State.memOk_of_mem (State.setSeq_mem s q (s.seq q).turnOver) h)
      split
      · exact State.memOk_stallFetch _ (Try.memOk_wait hc ‹_›)
      · exact State.groupTrap_memOk _ _ _ _ (Try.memOk_trap hc ‹_›)
      · exact State.groupTrap_memOk _ _ _ _ (Try.memOk_ok hc ‹_›)
      · have h1 := Try.memOk_ok hc ‹_›
        exact State.memOk_of_mem rfl h1
    · exact h

/-- A fold of a change that leaves memory alone leaves it alone. -/
theorem State.foldl_mem {α : Type} {f : State → α → State} (hf : ∀ s a, (f s a).mem = s.mem) (l : List α) (s : State) :
    (l.foldl f s).mem = s.mem := by
  induction l generalizing s with
  | nil => rfl
  | cons a l ih => exact (ih _).trans (hf s a)

theorem State.passOn_mem (n : Nat) (s : State) (e : Nat × Group) : (State.passOn n s e).mem = s.mem := by
  unfold State.passOn
  split
  · rfl
  · split
    · refine (State.foldl_mem (fun _ _ => State.setSeq_mem _ _ _) _ _).trans ?_
      split <;> rfl
    · rfl

theorem State.memOk_elapse {s : State} (h : s.memOk = true) : s.elapse.memOk = true := by
  have h0 := State.memOk_of_mem (State.foldl_mem (State.passOn_mem (Config.freeCycles s.tick)) s.groups s) h
  refine State.memOk_of_mem (s := if _ then _ else _) rfl ?_
  split
  · exact h0
  · exact State.memOk_payOwed h0

end Sys2Proof.Machine
end

section
/-! PROOFS. The canonical form of memory: memory accesses, pennants and mcas. -/

namespace Sys2Proof.Machine

/-! ### Loads, stores and prefetches -/

theorem State.memOk_acquire {s : State} (k : Option Scope) (h : s.memOk = true) : (s.acquire k).memOk = true := by
  unfold State.acquire
  split
  · exact h
  · exact State.memOk_bump _ _ h

theorem State.memOk_awaitS {s : State} (d : BitVec 6) (w : Word) (n : Nat) (h : s.memOk = true) : (s.awaitS d w n).memOk = true :=
  State.memOk_of_mem rfl h

theorem loadOp_memOk {s : State} (z : Nat) (g : BitVec 7) (x b : BitVec 6) (off : BitVec 11) (k : Option Scope)
    (h : s.memOk = true) : Result.memOk (loadOp z g x b off k s) = true :=
  slotOp_keeps h fun s hs => by
    dsimp only
    split
    · exact State.memOk_awaitS _ _ _ (State.memOk_acquire _ hs)
    · split
      · exact hs
      · split
        · exact hs
        · exact Try.memOk_res (State.memOk_plainRead _ _ _ _ _ hs) fun s _ hs =>
            State.memOk_awaitS _ _ _ (State.memOk_acquire _ hs)

theorem execLoadDataReturn_memOk {s : State} (q k : Nat) (h : s.memOk = true) :
    Result.memOk (execLoadDataReturn q k s) = true := by
  unfold execLoadDataReturn
  dsimp only
  split
  · exact h
  · exact State.memOk_of_mem rfl h

theorem State.memOk_pushB {s : State} (a : StoreAct) (k : Option Scope) (h : s.memOk = true) : (s.pushB a k).memOk = true :=
  State.memOk_of_mem rfl h

theorem State.memOk_toCopyStart {s : State} (h : s.memOk = true) : s.toCopyStart.memOk = true := by
  unfold State.toCopyStart
  dsimp only
  split
  · exact State.memOk_of_mem rfl h
  · exact h

theorem State.memOk_releaseFirst {s : State} (k : Option Scope) (h : s.memOk = true) : (s.releaseFirst k).memOk = true := by
  unfold State.releaseFirst
  split
  · exact h
  · exact State.memOk_tryRelease _ _ h

theorem storeOp_memOk {s : State} (z : Nat) (g : BitVec 7) (x b : BitVec 6) (off : BitVec 11) (k : Option Scope)
    (h : s.memOk = true) : Result.memOk (storeOp z g x b off k s) = true :=
  slotOp_keeps h fun s hs => by
    dsimp only
    split
    · exact Try.memOk_res (State.memOk_releaseFirst k hs) fun s _ hs => State.memOk_toCopyStart hs
    · split
      · exact hs
      · refine Try.memOk_res (State.memOk_storeCheck _ _ _ hs) fun s1 _ hs => ?_
        split
        · exact hs
        · split
          · exact hs
          · exact Try.memOk_res (State.memOk_releaseFirst k hs) fun s _ hs => State.memOk_pushB _ _ hs

theorem State.memOk_prefetch {s : State} (q ctx : Nat) (va : Word) (k : CacheKind) (h : s.memOk = true) :
    (s.prefetch q ctx va k).memOk = true := by
  unfold State.prefetch
  have ht := State.memOk_translate (dieOf q) ctx va { cls := pcMem } h
  split
  · exact State.memOk_fst ht ‹_›
  · have h1 := State.memOk_fst ht ‹_›
    dsimp only
    split
    · exact h1
    · split
      · exact h1
      · have h2 := fun t => State.memOk_useKey t h1
        split
        · exact State.memOk_l1Fill _ _ _ _ (h2 _)
        · exact State.memOk_l2Read _ _ _ (h2 _)
        · exact State.memOk_of_mem (State.mscTouch_mem _ _ _ _ _ _) (h2 _)

theorem State.beginWalk_mem (s : State) (q ctx : Nat) (va : Word) (k : CacheKind) : (s.beginWalk q ctx va k).mem = s.mem := by
  unfold State.beginWalk
  dsimp only
  split <;> rfl

theorem execPf_memOk {s : State} (g : BitVec 7) (k : CacheKind) (b : BitVec 6) (off : BitVec 11) (h : s.memOk = true) :
    Result.memOk (execPf g k b off s) = true :=
  slotDo_keeps h fun s hs => by
    dsimp only
    split
    · exact hs
    · split
      · exact State.memOk_of_mem (State.beginWalk_mem _ _ _ _ _) hs
      · exact State.memOk_prefetch _ _ _ _ hs

theorem execLqPop_memOk {s : State} (g : BitVec 7) (x : BitVec 6) (h : s.memOk = true) : Result.memOk (execLqPop g x s) = true :=
  slotDo_keeps_mem h fun s => by
    dsimp only
    split
    · rfl
    · split <;> rfl

theorem execAtomicResultReturn_memOk {s : State} (q k : Nat) (h : s.memOk = true) :
    Result.memOk (execAtomicResultReturn q k s) = true := by
  unfold execAtomicResultReturn
  dsimp only
  split
  · split
    · exact State.memOk_of_mem rfl h
    · exact h
  · exact h

@[simp] theorem State.sendResult_mem (s : State) (q k : Nat) (w : Word) : (s.sendResult q k w).mem = s.mem := by
  unfold State.sendResult
  dsimp only
  split <;> rfl

@[simp] theorem State.readElem_mem (s : State) (c r t : Nat) (b : Bool) (e : Nat) : (s.readElem c r t b e).1.mem = s.mem := by
  unfold State.readElem
  dsimp only
  split <;> rfl

@[simp] theorem State.locRead_mem (s : State) (q bn : Nat) (b : Bool) (l : Loc) (n : Nat) :
    (s.locRead q bn b l n).1.mem = s.mem := by
  unfold State.locRead
  split
  · rfl
  · dsimp only
    split
    · exact (State.readElem_mem ..).trans (State.readElem_mem ..)
    · exact State.readElem_mem ..

@[simp] theorem State.locWrite_mem (s : State) (q : Nat) (b : Bool) (l : Loc) (n : Nat) (v : Word) :
    (s.locWrite q b l n v).mem = s.mem := by
  cases l <;> rfl

theorem execLdSp_memOk {s : State} (g : BitVec 7) (x b : BitVec 6) (off : BitVec 11) (h : s.memOk = true) :
    Result.memOk (execLdSp g x b off s) = true :=
  slotOp_keeps h fun s hs => by
    dsimp only
    split
    · exact hs
    · split
      · exact hs
      · split
        · exact hs
        · exact State.memOk_awaitS _ _ _ (State.memOk_of_mem (State.locRead_mem ..) hs)

theorem execStSp_memOk {s : State} (g : BitVec 7) (x b : BitVec 6) (off : BitVec 11) (h : s.memOk = true) :
    Result.memOk (execStSp g x b off s) = true :=
  slotOp_keeps h fun s hs => by
    dsimp only
    (repeat' split) <;> exact hs

/-! ### Gates of writes, and atomics in the cluster L2 -/

theorem State.memOk_writeGate {s s1 : State} {d ctx : Nat} {va : Word} {evs : List Instr} (h : s.memOk = true)
    (e : s.writeGate d ctx va = some (s1, evs)) : s1.memOk = true := by
  have ht := State.memOk_translate d ctx va { cls := pcMem, write := true } h
  unfold State.writeGate at e
  split at e
  · cases e; exact h
  · split at e
    · have h1 := State.memOk_fst ht ‹_›
      split at e
      · cases e; exact h1
      · exact State.memOk_dirtyGate h1 e
    · cases e

theorem State.memOk_relGateLine {s s1 : State} {l : Nat} {evs : List Instr} (h : s.memOk = true)
    (e : s.relGateLine l = some (s1, evs)) : s1.memOk = true := by
  unfold State.relGateLine at e
  split at e
  · cases e
  · exact State.memOk_gate h e

theorem State.memOk_scopedGate {s s1 : State} {q : Nat} {va : Word} {evs : List Instr} (h : s.memOk = true)
    (e : s.scopedGate q va = some (s1, evs)) : s1.memOk = true := by
  have ht := State.memOk_translate (dieOf q) (s.ctxOf q) va { cls := pcMem, write := true } h
  rcases orElse_some e with e | e
  · exact State.memOk_writeGate h e
  · split at e
    · split at e
      · cases e
      · exact State.memOk_gate (State.memOk_fst ht ‹_›) e
    · cases e

theorem State.memOk_staleL1 {s : State} (c l ctx : Nat) (h : s.memOk = true) : (s.staleL1 c l ctx).memOk = true := by
  unfold State.staleL1
  split
  · exact h
  · exact State.memOk_of_mem rfl (State.memOk_l2Merge _ _ _ _ _ h)

/-- A translation that writes: the leaf's dirty bit, then the line's key. -/
theorem State.memOk_dirtyKey {s : State} (d ctx : Nat) (va : Word) (t : Tr) (h : s.memOk = true) :
    ((s.setDirty d ctx va t).useKey t).memOk = true := State.memOk_useKey _ (State.memOk_setDirty _ _ _ _ h)

theorem State.memOk_onScoped {s : State} (q : Nat) (va : Word) (f : Word → Word) (h : s.memOk = true) :
    (s.onScoped q va f).1.memOk = true := by
  have ht := State.memOk_translate (dieOf q) (s.ctxOf q) va { cls := pcMem, write := true } h
  unfold State.onScoped
  dsimp only
  split
  · exact State.memOk_of_mem (State.oweLost_mem _ _ _) (State.memOk_fst ht ‹_›)
  · have h1 := State.memOk_fst ht ‹_›
    exact State.memOk_of_mem rfl
      (State.memOk_l2Read _ _ _ (State.memOk_staleL1 (coreOf q) _ _ (State.memOk_dirtyKey (dieOf q) (s.ctxOf q) va _ h1)))

theorem State.memOk_scopedAtStep {s : State} (q : Nat) (h : s.memOk = true) : (s.scopedAtStep q).memOk = true := by
  unfold State.scopedAtStep
  dsimp only
  split
  · exact h
  · exact State.memOk_of_mem (State.sendResult_mem _ _ _ _) (State.memOk_onScoped _ _ _ (State.memOk_of_mem rfl h))

theorem execScopedAtomicExecute_memOk {s : State} (q : Nat) (h : s.memOk = true) :
    Result.memOk (execScopedAtomicExecute q s) = true := by
  unfold execScopedAtomicExecute
  dsimp only
  split
  · exact h
  · split
    · exact State.memOk_of_mem rfl h
    · split
      · exact State.memOk_of_mem rfl h
      · split
        · exact State.memOk_stallOn _ (State.memOk_scopedGate h ‹_›)
        · exact State.memOk_scopedAtStep q h

theorem execScopedCopyWriteback_memOk {s : State} (r l : Nat) (h : s.memOk = true) :
    Result.memOk (execScopedCopyWriteback r l s) = true := by
  unfold execScopedCopyWriteback
  split
  · exact State.memOk_stallOn _ (State.memOk_relGateLine h ‹_›)
  · exact State.memOk_scopedBack _ _ h

@[simp] theorem State.dropStore_mem (s : State) (q k : Nat) : (s.dropStore q k).mem = s.mem := rfl

@[simp] theorem State.storeLoc_mem (s : State) (q : Nat) (b : Bool) (e : Elem) : (s.storeLoc q b e).mem = s.mem := by
  unfold State.storeLoc
  split
  · rfl
  · exact State.locWrite_mem ..

/-! ### Pennants and Halyards -/

theorem State.memOk_latchPennant {s : State} (p : BitVec 32) (c k : Nat) (h : s.memOk = true) :
    (s.latchPennant p c k).memOk = true :=
  State.memOk_of_mem rfl (State.memOk_setPennant p { s.pennant p with
    latch := true, lcode := BitVec.ofNat 8 c, lsrc := BitVec.ofNat 4 k } h)

theorem State.memOk_addPennant {s : State} (p : BitVec 32) (v : Word) (b : Bool) (h : s.memOk = true) :
    (s.addPennant p v b).memOk = true :=
  State.memOk_of_mem rfl (State.memOk_setPennant p ((s.pennant p).add v b) h)

theorem State.runHal_memOk {s : State} {k : Nat} {f : State → HalEnt → Result} (h : s.memOk = true)
    (hf : ∀ e, Result.memOk (f s e) = true) : Result.memOk (s.runHal k f) = true := by
  unfold State.runHal
  split
  · exact h
  · split
    · exact State.memOk_of_mem rfl h
    · exact hf _

theorem execPennantAdd_memOk {s : State} (k : Nat) (h : s.memOk = true) : Result.memOk (execPennantAdd k s) = true :=
  State.runHal_memOk h fun e => by
    split
    · exact State.memOk_addPennant _ _ _ (State.memOk_of_mem rfl h)
    · exact h

theorem State.memOk_halPlace {s : State} (e : HalEnt) (va : Word) (pa : Nat) (h : s.memOk = true) :
    (s.halPlace e va pa).1.memOk = true := by
  have ht := State.memOk_translate (dieOf e.q % 16) e.ctx va { cls := pcHal, write := true } h
  unfold State.halPlace
  split
  · exact State.memOk_dirtyKey _ _ _ _ (State.memOk_fst ht ‹_›)
  · exact State.memOk_fst ht ‹_›

theorem State.halLost_mem (s : State) (e : HalEnt) (p : Nat) (o : Option Nat) : (s.halLost e p o).mem = s.mem := by
  unfold State.halLost
  dsimp only
  split
  · exact (State.sendResult_mem ..).trans (State.owe_mem ..)
  · exact State.owe_mem ..

theorem State.memOk_halGate {s s1 : State} {e : HalEnt} {va : Word} {pa : Nat} {evs : List Instr} (h : s.memOk = true)
    (hg : s.halGate e va pa = some (s1, evs)) : s1.memOk = true := by
  rcases orElse_some hg with hg | hg
  · exact State.memOk_writeGate h hg
  · dsimp only at hg
    split at hg
    · cases hg
    · exact State.memOk_gate h hg

theorem State.halWord_memOk {s : State} (e : HalEnt) (va : Word) (pa : Nat) (f : Word → Word) (o : Option Nat)
    (h : s.memOk = true) : Result.memOk (s.halWord e va pa f o) = true := by
  have hp := State.memOk_halPlace e va pa h
  unfold State.halWord
  split
  · have h1 := State.memOk_halGate h ‹_›
    exact State.memOk_of_mem rfl h1
  · generalize s.halPlace e va pa = r at hp
    obtain ⟨s1, p⟩ := r
    dsimp only at hp ⊢
    split
    · exact State.memOk_of_mem (State.halLost_mem s1 e p o) hp
    · have h2 : (((s1.dropHal e.k).homeHal (lineOf p)).mscTouch (lineOf p) e.ctx pcHal true true).memOk = true :=
        State.memOk_of_mem (State.mscTouch_mem _ _ _ _ _ _) (State.memOk_homeHal _ (State.memOk_of_mem rfl hp))
      have h3 := fun w => State.memOk_engSetWord p w h2
      cases o
      · exact h3 _
      · exact State.memOk_of_mem (State.sendResult_mem _ _ _ _) (h3 _)

theorem execHalyardAtomicExecute_memOk {s : State} (k : Nat) (h : s.memOk = true) :
    Result.memOk (execHalyardAtomicExecute k s) = true :=
  State.runHal_memOk h fun e => by
    split
    · exact State.halWord_memOk _ _ _ _ _ h
    · exact State.halWord_memOk _ _ _ _ _ h
    · exact h

theorem State.memOk_atomicCheck {s : State} (k : Scope) (a : Word) (h : s.memOk = true) : (s.atomicCheck k a).memOk = true := by
  unfold State.atomicCheck
  dsimp only
  split
  · exact h
  · refine Try.memOk_bind (State.memOk_find _ _ _ h) fun s1 t h1 => ?_
    have h2 := State.memOk_useKey t h1
    split
    · exact h1
    · split
      · exact h2
      · split
        · exact State.memOk_gate h2 ‹_›
        · exact Try.memOk_bind (State.memOk_meetErrors _ _ _ _ h2) fun _ _ h3 => h3

theorem atomicOp_memOk {s : State} (g : BitVec 7) (b : BitVec 6) (k : Scope) (o : Option AtOp) (x y : State → Word)
    (h : s.memOk = true) : Result.memOk (atomicOp g b k s o x y) = true :=
  slotOp_keeps h fun s hs => by
    refine Try.memOk_res (State.memOk_atomicCheck _ _ hs) fun s t hs => ?_
    dsimp only
    (repeat' split) <;> exact State.memOk_of_mem rfl hs

theorem execRed_memOk {s : State} (g : BitVec 7) (x b : BitVec 6) (k : Scope) (o : AtOp) (h : s.memOk = true) :
    Result.memOk (execRed g x b k o s) = true :=
  slotOp_keeps h fun s hs => by
    refine Try.memOk_res (State.memOk_atomicCheck _ _ hs) fun s t hs => ?_
    (repeat' split) <;> exact State.memOk_of_mem rfl hs

theorem State.memOk_tryHalDone {s : State} (q : Nat) (h : s.memOk = true) : (s.tryHalDone q).memOk = true := by
  unfold State.tryHalDone
  dsimp only
  split <;> exact h

/-- The release of a bundle, as `State.memOk_tryRelease` has it for one of no bundle. -/
theorem State.memOk_tryReleaseAt {s : State} (q : Nat) (k : Scope) (bn : Option Nat) (h : s.memOk = true) :
    (s.tryRelease q k bn).memOk = true := by
  unfold State.tryRelease
  dsimp only
  split
  · exact h
  · split
    · exact State.memOk_release _ _ _ h
    · split
      · exact State.memOk_relGate h ‹_›
      · exact Try.memOk_bind (State.memOk_relErrors q h) fun _ _ hs => State.memOk_release _ _ _ hs

theorem State.memOk_releaseHal {s : State} (k : Scope) (h : s.memOk = true) : (s.releaseHal k).memOk = true :=
  Try.memOk_bind (State.memOk_tryReleaseAt _ _ _ h) fun _ _ hs => State.memOk_tryHalDone _ hs

theorem execPnAdd_memOk {s : State} (g : BitVec 7) (clr : BitVec 1) (k : Option Scope) (y z : BitVec 6) (h : s.memOk = true) :
    Result.memOk (execPnAdd g clr k y z s) = true :=
  slotOp_keeps h fun s hs => by
    dsimp only
    split
    · exact hs
    · split
      · exact hs
      · refine Try.memOk_res ?_ fun s _ hs => State.memOk_pushB _ _ hs
        split
        · exact State.memOk_releaseHal _ hs
        · exact hs

theorem execPnTest_memOk {s : State} (g : BitVec 7) (p y z : BitVec 6) (n : BitVec 7) (h : s.memOk = true) :
    Result.memOk (execPnTest g p y z n s) = true :=
  slotOp_keeps h fun s hs => by
    dsimp only
    (repeat' split) <;> exact State.memOk_of_mem rfl hs

theorem execPnRead_memOk {s : State} (g : BitVec 7) (x y : BitVec 6) (b : BitVec 1) (h : s.memOk = true) :
    Result.memOk (execPnRead g x y b s) = true :=
  slotOp_keeps h fun s hs => by
    dsimp only
    (repeat' split) <;> exact State.memOk_of_mem rfl hs

theorem State.memOk_holdWait {s : State} (a : Ask) (h : s.memOk = true) : (s.holdWait a).memOk = true := by
  unfold State.holdWait
  dsimp only
  (repeat' split) <;> exact State.memOk_of_mem rfl h

theorem execRbAwait_memOk {s : State} (g : BitVec 7) (x y z : BitVec 6) (n : BitVec 7) (h : s.memOk = true) :
    Result.memOk (execRbAwait g x y z n s) = true :=
  slotOp_keeps h fun s hs => by
    dsimp only
    split
    · exact hs
    · exact State.memOk_holdWait _ hs

theorem execRbRelease_memOk {s : State} (g : BitVec 7) (x y z : BitVec 6) (h : s.memOk = true) :
    Result.memOk (execRbRelease g x y z s) = true :=
  slotOp_keeps h fun s hs => by
    dsimp only
    split
    · exact hs
    · split
      · exact hs
      · split
        · exact hs
        · exact Try.memOk_res (State.memOk_releaseHal _ hs) fun s _ hs => State.memOk_of_mem rfl hs

@[simp] theorem State.endHold_mem (s : State) (q bn : Nat) : (s.endHold q bn).mem = s.mem := rfl

theorem State.answerWait_memOk {s : State} (q : Nat) (hb : HoldB) (a : Ask) (h : s.memOk = true) :
    Result.memOk (s.answerWait q hb a) = true := by
  unfold State.answerWait
  dsimp only
  split
  · split
    · split
      · exact State.raise_memOk _ (State.memOk_of_mem rfl h)
      · exact State.memOk_of_mem rfl h
    · show State.memOk _ = true
      split
      · exact State.memOk_bump _ _ (State.memOk_of_mem rfl h)
      · exact State.memOk_of_mem rfl h
  · split
    · exact h
    · split <;> exact State.memOk_of_mem rfl h

theorem execPennantValueReturn_memOk {s : State} (q : Nat) (h : s.memOk = true) :
    Result.memOk (execPennantValueReturn q s) = true := by
  unfold execPennantValueReturn
  dsimp only
  split
  · exact State.memOk_of_mem rfl h
  · exact State.memOk_of_mem rfl h
  · split
    · exact State.answerWait_memOk _ _ _ h
    · exact h

theorem execWaiterWake_memOk {s : State} (q : Nat) (h : s.memOk = true) : Result.memOk (execWaiterWake q s) = true := by
  unfold execWaiterWake
  split
  · split
    · exact State.answerWait_memOk _ _ _ h
    · exact h
  · exact h

theorem execWaiterPoll_memOk {s : State} (q : Nat) (h : s.memOk = true) : Result.memOk (execWaiterPoll q s) = true := by
  unfold execWaiterPoll
  split
  · exact State.answerWait_memOk _ _ _ h
  · exact h

/-! ### Fences and mcas -/

theorem State.memOk_holdFence {s : State} (w : Hold) (b : Bool) (h : s.memOk = true) : (s.holdFence w b).memOk = true := by
  unfold State.holdFence
  dsimp only
  generalize (if b then s.drainStreams s.cur.seq else []) = evs
  generalize (if b then s.streamFault else none) = fault
  split
  · exact h
  · cases fault
    · exact State.memOk_of_mem rfl h
    · exact h

theorem State.memOk_classDone {s : State} (q : Nat) (a : PClass) (h : s.memOk = true) : (s.classDone q a).memOk = true := by
  have wait : ∀ evs : List Instr, (if evs.isEmpty then Try.ok s () else .wait s evs).memOk = true := fun evs => by
    split <;> exact h
  unfold State.classDone
  dsimp only
  cases a with
  | mem => exact State.memOk_tryRelease _ _ h
  | copy | link =>
    dsimp only
    split
    · exact h
    · exact wait _
  | mxs | patch | hal => exact wait _

theorem execFenceComplete_memOk {s : State} (q : Nat) (h : s.memOk = true) : Result.memOk (execFenceComplete q s) = true := by
  unfold execFenceComplete
  dsimp only
  split
  · exact h
  · split
    · have hr := State.memOk_tryRelease q ‹Scope› h
      split
      · exact State.memOk_of_mem (State.endHold_mem _ _ _) (State.memOk_bump _ _ (Try.memOk_ok hr ‹_›))
      · exact State.memOk_stallOn _ (Try.memOk_wait hr ‹_›)
      · have h1 := Try.memOk_trap hr ‹_›
        exact State.raise_memOk _ (State.memOk_of_mem rfl h1)
    · have hr := fun a => State.memOk_classDone q a h
      split
      · refine State.memOk_of_mem (State.endHold_mem _ _ _) ?_
        split
        · exact State.memOk_bump _ _ (Try.memOk_ok (hr _) ‹_›)
        · exact Try.memOk_ok (hr _) ‹_›
      · exact State.memOk_stallOn _ (Try.memOk_wait (hr _) ‹_›)
      · have h1 := Try.memOk_trap (hr _) ‹_›
        exact State.raise_memOk _ (State.memOk_of_mem rfl h1)
    · exact h

theorem State.memOk_mcasRead {s : State} (q : Nat) (y : Word) (i n : Nat) (h : s.memOk = true) :
    (s.mcasRead q y i n).memOk = true := by
  induction n generalizing s i with
  | zero => exact h
  | succ n ih =>
    have read : ∀ (s : State) (a : Word), s.memOk = true → (match addrBad a 8 { cls := pcMem } with
        | some t => Try.trap s t
        | none => s.plainRead q a 8 false { cls := pcMem }).memOk = true := fun s a hs => by
      split
      · exact hs
      · exact State.memOk_plainRead _ _ _ _ _ hs
    exact Try.memOk_bind (read _ _ h) fun _ _ h1 => Try.memOk_bind (read _ _ h1) fun _ _ h2 =>
      Try.memOk_bind (read _ _ h2) fun _ _ h3 => Try.memOk_bind (ih (i + 1) h3) fun _ _ h4 => h4

theorem State.memOk_mcasCheck {s : State} (q : Nat) (y : Word) (es : List McasEnt) (h : s.memOk = true) :
    (s.mcasCheck q y es).memOk = true := by
  induction es generalizing s with
  | nil => exact h
  | cons e t ih =>
    unfold State.mcasCheck
    dsimp only
    split
    · exact h
    · refine Try.memOk_bind (State.memOk_find _ _ _ h) fun s1 tr h1 => ?_
      split
      · exact h1
      · exact Try.memOk_bind (State.memOk_meetErrors _ _ _ _ (State.memOk_useKey _ h1)) fun _ _ h2 =>
          Try.memOk_bind (ih h2) fun _ _ h3 => h3

theorem execMcas_memOk {s : State} (g : BitVec 7) (y z : BitVec 6) (h : s.memOk = true) :
    Result.memOk (execMcas g y z s) = true :=
  slotOp_keeps h fun s hs => by
    dsimp only
    split
    · exact hs
    · split
      · exact hs
      · split
        · exact hs
        · refine Try.memOk_res (Try.memOk_bind (State.memOk_tryRelease _ _ hs) fun _ _ h1 => State.memOk_tryHalDone _ h1)
            fun _ _ h2 => Try.memOk_res (Try.memOk_bind (State.memOk_mcasRead _ _ _ _ h2) fun _ _ h3 =>
              State.memOk_mcasCheck _ _ _ h3) fun _ _ h4 => ?_
          split
          · exact h4
          · split <;> exact State.memOk_of_mem rfl h4

@[simp] theorem State.setMcas_mem (s : State) (q : Nat) (b : HoldB) (m : Mcas) : (s.setMcas q b m).mem = s.mem := rfl
@[simp] theorem State.unlock_mem (s : State) (q : Nat) : (s.unlock q).mem = s.mem := rfl
@[simp] theorem State.forget_mem (s : State) (d ctx : Nat) (va : Word) : (s.forget d ctx va).mem = s.mem := rfl

@[simp] theorem State.mcasFail_mem (s : State) (q : Nat) (b : HoldB) (m : Mcas) : (s.mcasFail q b m).mem = s.mem := by
  unfold State.mcasFail
  dsimp only
  split <;> rfl

theorem State.memOk_mcasDecide {s : State} (q : Nat) (m : Mcas) (h : s.memOk = true) : (s.mcasDecide q m).1.memOk = true := by
  have h0 := State.memOk_of_mem
    (State.foldl_mem (fun u (e : McasEnt) => State.mscTouch_mem u (lineOf e.pa) (s.ctxOf q) pcHal false true) m.ents s) h
  unfold State.mcasDecide
  dsimp only
  split
  · refine State.memOk_foldl (fun s e hs => State.memOk_engSetWord _ _ (State.memOk_of_mem (State.mscTouch_mem ..) ?_)) _ h0
    have ht := fun ctx => State.memOk_translate (dieOf q) ctx e.va { cls := pcHal, write := true } hs
    split
    · exact State.memOk_dirtyKey _ _ _ _ (State.memOk_fst (ht _) ‹_›)
    · exact State.memOk_fst (ht _) ‹_›
  · exact h0

theorem State.memOk_mcasLock {s : State} (q : Nat) (b : HoldB) (m : Mcas) (e : McasEnt) (h : s.memOk = true) :
    (s.mcasLock q b m e).memOk = true := by
  have h1 := State.memOk_homeHal (lineOf e.pa) h
  unfold State.mcasLock
  dsimp only
  split
  · exact State.memOk_of_mem rfl h1
  · exact State.memOk_of_mem rfl (State.memOk_mcasDecide q { m with held := m.held + 1 } (State.memOk_of_mem rfl h1))

theorem execMcasLockGrant_memOk {s : State} (q : Nat) (h : s.memOk = true) :
    Result.memOk (execMcasLockGrant q s) = true := by
  have fail : ∀ {s : State} (b : HoldB) (m : Mcas), s.memOk = true → (s.mcasFail q b m).memOk = true := fun b m hs =>
    State.memOk_of_mem (State.mcasFail_mem _ q b m) hs
  unfold execMcasLockGrant
  split
  · exact h
  · split
    · exact h
    · split
      · exact fail _ _ h
      · split
        · exact h
        · dsimp only
          split
          · split
            · exact h
            · exact State.memOk_of_mem rfl h
          · split
            · exact State.memOk_of_mem rfl h
            · split
              · rename_i s1 _ e
                have h1 : s1.memOk = true := by
                  rcases orElse_some e with e | e
                  · exact State.memOk_gate h e
                  · obtain ⟨d, _, hd⟩ := List.exists_of_findSome?_eq_some e
                    split at hd
                    · cases hd; exact h
                    · exact State.memOk_writeGate h hd
                exact State.memOk_of_mem rfl h1
              · have ht := fun va => State.memOk_translate (dieOf q) (s.ctxOf q) va { cls := pcHal, write := true } h
                split
                · exact fail _ _ (State.memOk_fst (ht _) ‹_›)
                · have h1 := State.memOk_fst (ht _) ‹_›
                  split
                  · exact State.memOk_mcasLock _ _ _ _ h1
                  · exact fail _ _ h1

theorem execMcasWindowExpire_memOk {s : State} (q : Nat) (h : s.memOk = true) :
    Result.memOk (execMcasWindowExpire q s) = true := by
  unfold execMcasWindowExpire
  split
  · split
    · exact h
    · exact State.memOk_of_mem (State.mcasFail_mem ..) h
  · exact h

/-- A fold that carries a state beside something else. -/
theorem State.memOk_foldl_fst {α β : Type} {f : State × β → α → State × β}
    (hf : ∀ p a, p.1.memOk = true → (f p a).1.memOk = true) (l : List α) {p : State × β} (h : p.1.memOk = true) :
    (l.foldl f p).1.memOk = true := by
  induction l generalizing p with
  | nil => exact h
  | cons a l ih => exact ih (hf p a h)

theorem State.memOk_mcasRefresh {s : State} (q : Nat) (m : Mcas) (h : s.memOk = true) : (s.mcasRefresh q m).1.memOk = true := by
  refine State.memOk_foldl_fst (fun p e hp => ?_) _ (State.memOk_of_mem (State.foldl_mem (fun u (e : McasEnt) => State.forget_mem u (dieOf q) (s.ctxOf q) e.va) m.ents s) h)
  have ht := State.memOk_translate (dieOf q) (s.ctxOf q) e.va { cls := pcHal, write := true } hp
  split <;> exact State.memOk_fst ht ‹_›

theorem execMcasBackoffExpire_memOk {s : State} (q : Nat) (h : s.memOk = true) :
    Result.memOk (execMcasBackoffExpire q s) = true := by
  unfold execMcasBackoffExpire
  split
  · split
    · exact State.memOk_of_mem rfl (State.memOk_mcasRefresh q _ h)
    · exact h
  · exact h

theorem execMcasResultReturn_memOk {s : State} (q : Nat) (h : s.memOk = true) :
    Result.memOk (execMcasResultReturn q s) = true := by
  unfold execMcasResultReturn
  split
  · split
    · exact State.memOk_of_mem (State.endHold_mem ..) (State.memOk_bump _ _ (State.memOk_of_mem rfl h))
    · exact h
  · exact h

theorem execMovedResponse_memOk {s : State} (q : Nat) (h : s.memOk = true) : Result.memOk (execMovedResponse q s) = true := by
  unfold execMovedResponse
  dsimp only
  split
  · split
    · exact h
    · have h1 := State.memOk_mcasRefresh q (s := s) ‹Mcas› h
      show State.memOk _ = true
      split
      · exact State.memOk_of_mem rfl h1
      · exact State.memOk_of_mem (State.mcasFail_mem ..) h1
  · split
    · exact State.memOk_of_mem rfl h
    · exact h

end Sys2Proof.Machine
end

section
/-! PROOFS. The canonical form of memory: vectors, pieces of ranges, and streams. -/

namespace Sys2Proof.Machine

/-! ### Vector instructions -/

@[simp] theorem State.raiseFlags_mem (s : State) (b : BitVec 4) : (s.raiseFlags b).mem = s.mem := by
  unfold State.raiseFlags
  split <;> rfl

@[simp] theorem State.takeStep_mem (s : State) (n : BitVec 3) : (s.takeStep n).mem = s.mem := by
  unfold State.takeStep
  dsimp only
  split <;> rfl

@[simp] theorem State.writeV_mem (s : State) (d : VOp) (o : VOut) : (s.writeV d o).mem = s.mem := by cases d <;> rfl

theorem State.memOk_streamOk {s : State} (n : BitVec 3) (a b : Bool) (h : s.memOk = true) : (s.streamOk n a b).memOk = true := by
  unfold State.streamOk
  dsimp only
  (repeat' split) <;> exact h

theorem State.memOk_streamsOk {s : State} (d : Option VOp) (l : List VOp) (h : s.memOk = true) : (s.streamsOk d l).memOk = true := by
  refine Try.memOk_bind ?_ fun s1 _ h1 => tryList_memOk (fun _ _ hs => State.memOk_streamOk _ _ _ hs) _ h1
  split
  · exact State.memOk_streamOk _ _ _ h
  · exact h

theorem State.memOk_takeSteps {s : State} (l : List (BitVec 3)) (h : s.memOk = true) : (l.foldl State.takeStep s).memOk = true :=
  State.memOk_of_mem (State.foldl_mem State.takeStep_mem l s) h

theorem vecOp_memOk {s : State} (g : BitVec 7) (d : VOp) (l : List VOp) (f : State → List (BitVec 1024) → VOut)
    (h : s.memOk = true) : Result.memOk (vecOp g d l s f) = true :=
  slotOp_keeps h fun _ hs => Try.memOk_res (State.memOk_streamsOk _ _ hs) fun _ _ hs =>
    State.memOk_of_mem ((State.raiseFlags_mem _ _).trans (State.writeV_mem _ _ _)) (State.memOk_takeSteps (streamsIn l) hs)

theorem execVcmp_memOk {s : State} (g : BitVec 7) (p : BitVec 6) (a b : VOp) (c : BitVec 3) (fp : Bool) (h : s.memOk = true) :
    Result.memOk (execVcmp g p a b c fp s) = true :=
  slotOp_keeps h fun _ hs => Try.memOk_res (State.memOk_streamsOk _ _ hs) fun _ _ hs =>
    State.memOk_of_mem rfl (State.memOk_takeSteps (streamsIn [a, b]) hs)

/-! ### Engines and reduction groups -/

theorem State.memOk_redWrite {s : State} (g : RedGroup) (o : Nat) (d : BitVec 512) (h : s.memOk = true) :
    (s.redWrite g o d).memOk = true := by
  unfold State.redWrite
  dsimp only
  split
  · refine State.memOk_engLine _ _ _ ?_
    split
    · exact State.memOk_meetQuiet _ _ h
    · exact h
  · have hd := State.memOk_dram h
    have hh := State.memOk_host h
    exact State.memOk_intro hd hh (Mem.wf_write _ _ _ (State.memOk_pool h))

theorem State.memOk_redGate {s s1 : State} {g : RedGroup} {o : Nat} {evs : List Instr} (h : s.memOk = true)
    (e : s.redGate g o = some (s1, evs)) : s1.memOk = true := by
  unfold State.redGate at e
  split at e
  · exact State.memOk_gate h e
  · cases e

theorem State.memOk_contribute {s : State} (k o : Nat) (d : BitVec 512) (h : s.memOk = true) : (s.contribute k o d).memOk = true := by
  have hw := fun g x => State.memOk_redWrite g o x h
  unfold State.contribute
  split
  · exact h
  · dsimp only
    split
    all_goals
      dsimp only
      split
      · exact State.memOk_of_mem rfl h
      · (repeat' split) <;> exact State.memOk_of_mem rfl (hw _ _)

theorem State.memOk_pieceErr {s : State} (q ctx : Nat) (p : Piece) (a : Acc) (h : s.memOk = true) :
    (s.pieceErr q ctx p a).memOk = true := by
  unfold State.pieceErr
  dsimp only
  split
  · exact h
  · exact State.memOk_meetErrors _ _ _ _ h

theorem State.memOk_reachPiece {s : State} (q : Nat) (a : Acc) (va : Word) (n : Nat) (h : s.memOk = true) :
    (s.reachPiece q a va n).memOk = true := by
  refine Try.memOk_bind (State.memOk_reach _ _ _ h) fun s1 t h1 => ?_
  have h2 := State.memOk_useKey t h1
  dsimp only
  split
  · split
    · split
      · split
        · split
          · exact State.memOk_redGate h1 ‹_›
          · exact h1
        · exact h1
      · exact h1
    · exact h1
  · split
    · exact State.memOk_gate h2 ‹_›
    · exact Try.memOk_bind (State.memOk_pieceErr _ _ _ _ h2) fun _ _ h3 => h3

theorem State.memOk_reachAll {s : State} (q : Nat) (a : Acc) (l : List (Nat × Nat)) (ps : List Piece) (h : s.memOk = true) :
    (s.reachAll q a l ps).memOk = true := by
  induction l generalizing s ps with
  | nil => exact h
  | cons e l ih => exact Try.memOk_bind (State.memOk_reachPiece _ _ _ _ h) fun _ _ h1 => ih _ h1

theorem State.memOk_reachRange {s : State} (q : Nat) (a : Acc) (va : Word) (n : Nat) (h : s.memOk = true) :
    (s.reachRange q a va n).memOk = true := State.memOk_reachAll _ _ _ _ h

theorem State.memOk_readPiece {s : State} (ctx k : Nat) (p : Piece) (h : s.memOk = true) : (s.readPiece ctx k p).1.memOk = true := by
  unfold State.readPiece
  dsimp only
  split
  · exact State.memOk_of_mem (State.winTraffic_mem ..) h
  · exact State.memOk_of_mem (State.mscTouch_mem ..) (State.memOk_useKey p.tr h)

theorem State.memOk_readPieces {s : State} (ctx k : Nat) (ps : List Piece) (h : s.memOk = true) :
    (s.readPieces ctx k ps).1.memOk = true := by
  induction ps generalizing s with
  | nil => exact h
  | cons p ps ih => exact ih (State.memOk_readPiece _ _ _ h)

theorem State.memOk_writePiece {s : State} (d ctx k : Nat) (p : Piece) (bs : List Byte) (h : s.memOk = true) :
    (s.writePiece d ctx k p bs).memOk = true := by
  unfold State.writePiece
  dsimp only
  split
  · have h1 := State.memOk_of_mem (State.winTraffic_mem s ctx p.tr.pa p.n) h
    split
    · exact State.memOk_contribute _ _ _ h1
    · exact State.memOk_ncWrite _ _ h1
  · have h1 : (((s.setDirty d ctx p.va p.tr).useKey p.tr).mscTouch (lineOf p.tr.pa) ctx k true false).memOk = true :=
      State.memOk_of_mem (State.mscTouch_mem ..) (State.memOk_dirtyKey d ctx p.va p.tr h)
    split
    · exact State.memOk_engLine _ _ _ h1
    · exact State.memOk_engWrite _ _ h1

theorem State.memOk_writePieces {s : State} (d ctx k : Nat) (ps : List Piece) (bs : List Byte) (h : s.memOk = true) :
    (s.writePieces d ctx k ps bs).memOk = true := by
  induction ps generalizing s bs with
  | nil => exact h
  | cons p ps ih => exact ih _ (State.memOk_writePiece _ _ _ _ _ h)

/-! ### Elements and streams -/

theorem State.memOk_readE {s : State} (q bn : Nat) (y pl mx : Bool) (z : Nat) (a : Word) (h : s.memOk = true) :
    (s.readE q bn y pl mx z a).memOk = true := by
  unfold State.readE
  dsimp only
  split
  · split
    · exact h
    · split
      · exact Try.memOk_bind (State.memOk_reachPiece _ _ _ _ h) fun _ _ h1 => State.memOk_readPiece _ _ _ h1
      · exact State.memOk_plainRead _ _ _ _ _ h
  · split
    · exact h
    · split
      · exact h
      · exact State.memOk_of_mem (State.locRead_mem ..) h

theorem State.memOk_checkE {s : State} (q : Nat) (pl mx : Bool) (z : Nat) (a : Word) (h : s.memOk = true) :
    (s.checkE q pl mx z a).memOk = true := by
  unfold State.checkE
  dsimp only
  split
  · split
    · exact h
    · split
      · exact Try.memOk_bind (State.memOk_reachPiece _ _ _ _ h) fun _ _ h1 => h1
      · exact Try.memOk_bind (State.memOk_storeCheck _ _ _ h) fun _ _ h1 => h1
  · split
    · exact h
    · split <;> exact h

theorem State.memOk_writeE {s : State} (q : Nat) (pl mx c : Bool) (d : Elem) (h : s.memOk = true) :
    (s.writeE q pl mx c d).memOk = true := by
  have hr := State.memOk_reachPiece q { cls := pcMxs, write := true } (BitVec.ofNat 64 d.addr) d.size h
  unfold State.writeE
  split
  · exact State.memOk_of_mem (State.storeLoc_mem ..) h
  · split
    · exact State.memOk_storePlain _ _ h
    · split
      · exact State.memOk_writePiece _ _ _ _ _ (Try.memOk_ok hr ‹_›)
      · exact Try.memOk_trap hr ‹_›
      · exact Try.memOk_wait hr ‹_›

theorem State.memOk_readElems {s : State} (q bn : Nat) (y pl mx : Bool) (z : Nat) (es : List (Nat × Word)) (n : Nat)
    (h : s.memOk = true) : (s.readElems q bn y pl mx z es n).memOk = true := by
  induction es generalizing s n with
  | nil => exact h
  | cons e es ih => exact Try.memOk_bind (State.memOk_readE _ _ _ _ _ _ _ h) fun _ _ h1 => ih _ h1

theorem State.memOk_awaitRegion {s : State} (h : s.memOk = true) : s.awaitRegion.memOk = true := h

theorem execVld_memOk {s : State} (g : BitVec 7) (v : BitVec 5) (b : BitVec 6) (c : BitVec 2) (sw : BitVec 1)
    (lp off : BitVec 7) (h : s.memOk = true) : Result.memOk (execVld g v b c sw lp off s) = true :=
  slotOp_keeps h fun s hs => by
    dsimp only
    split
    · exact hs
    · split
      · exact hs
      · exact Try.memOk_res (State.memOk_readElems _ _ _ _ _ _ _ _ hs) fun _ _ h1 => State.memOk_of_mem rfl h1

theorem execVst_memOk {s : State} (g : BitVec 7) (v : BitVec 5) (b : BitVec 6) (c : BitVec 2) (sw : BitVec 1)
    (lp off : BitVec 7) (h : s.memOk = true) : Result.memOk (execVst g v b c sw lp off s) = true :=
  slotOp_keeps h fun s hs => by
    refine Try.memOk_res (tryList_memOk (fun _ _ hs => State.memOk_checkE _ _ _ _ _ hs) _ hs) fun s1 _ h1 => ?_
    dsimp only
    (repeat' split) <;> exact State.memOk_of_mem rfl h1

theorem State.memOk_unbind {s : State} (n : BitVec 3) (h : s.memOk = true) : (s.unbind n).memOk = true := by
  unfold State.unbind
  dsimp only
  (repeat' split) <;> exact State.memOk_of_mem rfl h

theorem execStb_memOk {s : State} (g : BitVec 7) (n : BitVec 3) (b : BitVec 6) (c : BitVec 2) (sw : BitVec 1)
    (h : s.memOk = true) : Result.memOk (execStb g n b c sw s) = true :=
  slotOp_keeps h fun s hs => by
    refine Try.memOk_res (State.memOk_unbind _ hs) fun s1 _ h1 => ?_
    dsimp only
    split
    · exact hs
    · split
      · exact hs
      · show State.memOk _ = true
        split <;> exact State.memOk_of_mem rfl h1

theorem execStu_memOk {s : State} (g : BitVec 7) (n : BitVec 3) (h : s.memOk = true) : Result.memOk (execStu g n s) = true :=
  slotOp_keeps h fun _ hs => Try.memOk_res (State.memOk_unbind _ hs) fun _ _ h1 => h1

theorem execStreamFill_memOk {s : State} (q n : Nat) (h : s.memOk = true) : Result.memOk (execStreamFill q n s) = true := by
  unfold execStreamFill
  dsimp only
  split
  · exact h
  · split
    · exact State.memOk_stallOn _ h
    · have hr := fun bn y pl mx z es k => State.memOk_readElems q bn y pl mx z es k h
      split
      · have h1 := Try.memOk_ok (hr _ _ _ _ _ _ _) ‹_›
        exact State.memOk_of_mem rfl h1
      · exact State.memOk_stallOn _ (Try.memOk_wait (hr _ _ _ _ _ _ _) ‹_›)
      · have h1 := Try.memOk_trap (hr _ _ _ _ _ _ _) ‹_›
        split <;> exact State.memOk_of_mem rfl h1

@[simp] theorem State.refresh_mem (s : State) (q : Nat) : (s.refresh q).mem = s.mem := rfl

theorem execStreamDrain_memOk {s : State} (q n : Nat) (h : s.memOk = true) : Result.memOk (execStreamDrain q n s) = true := by
  have hc := fun (es : List (Nat × Word)) pl mx z =>
    tryList_memOk (f := fun s (e : Nat × Word) => s.checkE q pl mx z e.2) (fun _ _ hs => State.memOk_checkE _ _ _ _ _ hs) es h
  unfold execStreamDrain
  extract_lets x
  split
  · exact h
  · split
    · exact h
    · extract_lets es f meets after evs
      split
      · exact State.memOk_stallOn _ h
      · split
        · exact State.memOk_stallOn _ h
        · split
          · exact State.memOk_stallOn _ (Try.memOk_wait (hc _ _ _ _) ‹_›)
          · have h1 := Try.memOk_trap (hc _ _ _ _) ‹_›
            exact State.memOk_of_mem rfl h1
          · have h1 := Try.memOk_ok (hc _ _ _ _) ‹_›
            have h2 := fun (ds : List Elem) pl mx c =>
              State.memOk_foldl (f := fun s d => s.writeE q pl mx c d) (fun _ _ hs => State.memOk_writeE _ _ _ _ _ hs) ds h1
            show State.memOk _ = true
            split <;> exact State.memOk_of_mem rfl (h2 _ _ _ _)

end Sys2Proof.Machine
end

section
/-! PROOFS. The canonical form of memory: matrices and buffers. -/

namespace Sys2Proof.Machine

/-! ### Rows of the matrix engine -/

theorem State.memOk_localPieces {s : State} (q op : Nat) (l : List (Nat × Nat)) (ps : List (Nat × Nat × Nat))
    (h : s.memOk = true) : (s.localPieces q op l ps).memOk = true := by
  induction l generalizing ps with
  | nil => exact h
  | cons e l ih =>
    unfold State.localPieces
    split
    · exact h
    · exact ih _
    · exact h

theorem State.memOk_rowCheck {s : State} (q : Nat) (pl : Bool) (a : Word) (n k : Nat) (w : Bool) (h : s.memOk = true) :
    (s.rowCheck q pl a n k w).memOk = true := by
  unfold State.rowCheck
  dsimp only
  split
  · split
    · exact h
    · split
      · exact h
      · exact Try.memOk_bind (State.memOk_reachRange _ _ _ _ h) fun _ _ h1 => h1
  · split
    · exact h
    · split
      · exact h
      · split
        · exact h
        · exact State.memOk_localPieces _ _ _ _ h

theorem State.memOk_rowRead {s : State} (q : Nat) (r : RowAt) (h : s.memOk = true) : (s.rowRead q r).1.memOk = true := by
  cases r with
  | plain ps => exact State.memOk_readPieces _ _ _ h
  | spad ps => exact h

theorem State.memOk_rowWrite {s : State} (q : Nat) (r : RowAt) (bs : List Byte) (h : s.memOk = true) :
    (s.rowWrite q r bs).memOk = true := by
  cases r with
  | plain ps => exact State.memOk_writePieces _ _ _ _ _ h
  | spad ps =>
    refine State.memOk_foldl_fst (p := (s, bs)) (fun p a hp => ?_) ps h
    exact State.memOk_of_mem rfl hp

theorem State.memOk_rowGet {s : State} (q : Nat) (pl : Bool) (a : Word) (n k : Nat) (h : s.memOk = true) :
    (s.rowGet q pl a n k).memOk = true :=
  Try.memOk_bind (State.memOk_rowCheck _ _ _ _ _ _ h) fun _ _ h1 => State.memOk_rowRead _ _ h1

theorem State.memOk_rowUnpack {s : State} (q : Nat) (a : Word) (n k fuel : Nat) (h : s.memOk = true) :
    (s.rowUnpack q a n k fuel).memOk = true := by
  induction fuel generalizing s a n k with
  | zero => exact h
  | succ fuel ih =>
    unfold State.rowUnpack
    split
    · exact h
    · refine Try.memOk_bind (State.memOk_rowGet _ _ _ _ _ h) fun s1 _ h1 =>
        Try.memOk_bind ?_ fun _ _ h2 => Try.memOk_bind (ih _ _ _ h2) fun _ _ h3 => h3
      split
      · exact h1
      · exact State.memOk_rowGet _ _ _ _ _ h1

theorem State.memOk_streamPeek {s : State} (q : Nat) (n : BitVec 3) (i : Nat) (h : s.memOk = true) :
    (s.streamPeek q n i).memOk = true := by
  have late : ∀ (s1 : State) (b : Bool) (t : Trap) (evs : List Instr), s1.memOk = true →
      (if b then Try.trap (α := Nat) s1 t else .wait s1 evs).memOk = true := fun s1 b t evs h1 => by
    split <;> exact h1
  unfold State.streamPeek
  dsimp only
  split
  · exact h
  · split
    · exact h
    · split
      · split <;> exact h
      · split
        · exact h
        · split
          · exact late _ _ _ _ h
          · have hr := fun bn y pl mx z es k => State.memOk_readElems q bn y pl mx z es k h
            split
            · exact Try.memOk_ok (hr _ _ _ _ _ _ _) ‹_›
            · exact late _ _ _ _ (Try.memOk_wait (hr _ _ _ _ _ _ _) ‹_›)
            · have h1 := Try.memOk_trap (hr _ _ _ _ _ _ _) ‹_›
              split
              · exact late _ _ _ _ h1
              · exact h1

theorem State.memOk_srcRow {s : State} (q : Nat) (x : MOp) (k : KShape) (d : Bool) (f : Fmt) (n i : Nat) (h : s.memOk = true) :
    (s.srcRow q x k d f n i).memOk = true := by
  cases x with
  | q m => exact Try.memOk_bind (State.memOk_streamPeek _ _ _ h) fun _ _ h1 => h1
  | s b =>
    refine Try.memOk_bind ?_ fun _ _ h1 => h1
    split
    · exact State.memOk_rowUnpack _ _ _ _ _ h
    · exact State.memOk_rowGet _ _ _ _ _ h

theorem State.memOk_srcRows {s : State} (q : Nat) (x : MOp) (k : KShape) (d : Bool) (f : Fmt) (n i m : Nat) (h : s.memOk = true) :
    (s.srcRows q x k d f n i m).memOk = true := by
  induction m generalizing s i with
  | zero => exact h
  | succ m ih => exact Try.memOk_bind (State.memOk_srcRow _ _ _ _ _ _ _ h) fun _ _ h1 => Try.memOk_bind (ih _ h1) fun _ _ h2 => h2

@[simp] theorem State.tookRows_mem (s : State) (x : MOp) (m : Nat) : (s.tookRows x m).mem = s.mem := by
  unfold State.tookRows
  dsimp only
  split
  · rfl
  · split <;> rfl

theorem State.memOk_dstRows {s : State} (q : Nat) (b : BitVec 6) (k : KShape) (nb al i m : Nat) (h : s.memOk = true) :
    (s.dstRows q b k nb al i m).memOk = true := by
  induction m generalizing s i with
  | zero => exact h
  | succ m ih => exact Try.memOk_bind (State.memOk_rowCheck _ _ _ _ _ _ h) fun _ _ h1 => Try.memOk_bind (ih _ h1) fun _ _ h2 => h2

theorem State.memOk_dstStream {s : State} (q : Nat) (n : BitVec 3) (m : Nat) (h : s.memOk = true) :
    (s.dstStream q n m).memOk = true := by
  unfold State.dstStream
  extract_lets x es
  split
  · exact h
  · split
    · exact h
    · split
      · exact h
      · split
        · exact h
        · split
          · exact h
          · split
            · exact h
            · split
              · exact h
              · exact tryList_memOk (fun _ _ hs => tryList_memOk (fun _ _ hs => State.memOk_checkE _ _ _ _ _ hs) _ hs) _ h

theorem State.memOk_putStream {s : State} (q : Nat) (n : BitVec 3) (rows : List (List Byte)) (h : s.memOk = true) :
    (s.putStream q n rows).memOk = true := by
  unfold State.putStream
  dsimp only
  split
  · exact State.memOk_of_mem rfl h
  · refine State.memOk_of_mem rfl (State.memOk_foldl (fun _ _ hs => ?_) _ h)
    exact State.memOk_foldl (fun _ _ hs => State.memOk_writeE _ _ _ _ _ hs) _ hs

theorem State.memOk_withDst {s : State} (q : Nat) (x : MOp) (k : KShape) (nb al m : Nat)
    {f : State → List (List Byte) × State} {fin : State → Res} (h : s.memOk = true)
    (hf : ∀ s, s.memOk = true → (f s).2.memOk = true) (hfin : ∀ s, s.memOk = true → (fin s).memOk = true) :
    (s.withDst q x k nb al m f fin).memOk = true := by
  unfold State.withDst
  split
  · exact h
  · split
    · exact Try.memOk_res (State.memOk_dstRows _ _ _ _ _ _ _ h) fun s1 rs h1 =>
        hfin _ (State.memOk_of_mem (State.refresh_mem _ _)
          (State.memOk_foldl (fun _ _ hs => State.memOk_rowWrite _ _ _ hs) _ (hf s1 h1)))
    · exact Try.memOk_res (State.memOk_dstStream _ _ _ h) fun s1 _ h1 => hfin _ (State.memOk_putStream _ _ _ (hf s1 h1))

theorem State.memOk_readOperand {s : State} (q : Nat) (x : MOp) (k : KShape) (d : Bool) (f : Fmt) (n m : Nat) (h : s.memOk = true) :
    (s.readOperand q x k d f n m).memOk = true := by
  unfold State.readOperand
  split
  · exact h
  · exact State.memOk_srcRows _ _ _ _ _ _ _ _ h

/-! ### Tiles -/

@[simp] theorem State.applyShadow_mem (s : State) (q : Nat) : (s.applyShadow q).mem = s.mem := by
  unfold State.applyShadow
  dsimp only
  split <;> rfl

@[simp] theorem State.applyFor_mem (s : State) (q t n : Nat) : (s.applyFor q t n).mem = s.mem := by
  induction n generalizing s with
  | zero => rfl
  | succ n ih =>
    unfold State.applyFor
    split
    · exact (ih _).trans (State.applyShadow_mem s q)
    · rfl

@[simp] theorem State.interlock_mem (s : State) (q t : Nat) : (s.interlock q t).mem = s.mem := State.applyFor_mem _ _ _ _

@[simp] theorem State.writeTile_mem (s : State) (t : Nat) (st : BitVec 4) (r n c k o l : Nat) (v : List (List (BitVec 32))) :
    (s.writeTile t st r n c k o l v).mem = s.mem := rfl

@[simp] theorem State.accumulate_mem (s : State) (a : Arr) (t : Nat) (rows : List (List Num)) (r f : Nat) (z k : Bool) (o : Nat) :
    (s.accumulate a t rows r f z k o).mem = s.mem := by
  unfold State.accumulate
  extract_lets
  split <;> exact State.writeTile_mem _ _ _ _ _ _ _ _ _ _

theorem execMatrixCompletion_memOk {s : State} (q : Nat) (h : s.memOk = true) :
    Result.memOk (execMatrixCompletion q s) = true := by
  unfold execMatrixCompletion
  dsimp only
  split
  · exact State.memOk_of_mem rfl h
  · exact State.memOk_of_mem (State.applyShadow_mem s q) h

theorem mxOp_memOk {s : State} (g : BitVec 7) (ts : List (BitVec 9)) {f : State → Arr → Res} (h : s.memOk = true)
    (hf : ∀ s a, s.memOk = true → (f s a).memOk = true) : Result.memOk (mxOp g ts s f) = true :=
  slotOp_keeps h fun s hs => by
    split
    · exact hs
    · exact hf _ _ (State.memOk_of_mem (State.foldl_mem (fun _ _ => State.interlock_mem _ _ _) _ _) hs)

theorem execMmLdw_memOk {s : State} (g : BitVec 7) (x : MOp) (w : Bool) (k : BitVec 2) (sw : BitVec 1) (h : s.memOk = true) :
    Result.memOk (execMmLdw g x w k sw s) = true :=
  mxOp_memOk g _ h fun s a hs => by
    dsimp only
    split
    · exact hs
    · exact Try.memOk_res (State.memOk_readOperand _ _ _ _ _ _ _ hs) fun _ _ h1 =>
        State.memOk_of_mem (State.tookRows_mem _ _ _) (State.memOk_of_mem rfl h1)

theorem execMm_memOk {s : State} (g : BitVec 7) (t : BitVec 9) (x : MOp) (k : BitVec 2) (sw z k16 : BitVec 1)
    (h : s.memOk = true) : Result.memOk (execMm g t x k sw z k16 s) = true :=
  mxOp_memOk g _ h fun s a hs => by
    dsimp only
    split
    · exact hs
    · refine Try.memOk_res (State.memOk_readOperand _ _ _ _ _ _ _ hs) fun s1 _ h1 =>
        State.memOk_of_mem (State.accumulate_mem _ _ _ _ _ _ _ _ _) ?_
      split
      · exact h1
      · exact State.memOk_of_mem (State.tookRows_mem _ _ _) (State.memOk_of_mem rfl h1)

theorem execMmChain_memOk {s : State} (g : BitVec 7) (td ta : BitVec 9) (k : BitVec 2) (sw k16 : BitVec 1)
    (h : s.memOk = true) : Result.memOk (execMmChain g td ta k sw k16 s) = true :=
  mxOp_memOk g _ h fun s a hs => by
    dsimp only
    split
    · exact hs
    · show State.memOk _ = true
      split
      · exact State.memOk_of_mem (State.accumulate_mem _ _ _ _ _ _ _ _ _) hs
      · exact State.memOk_of_mem ((State.raiseFlags_mem _ _).trans (State.accumulate_mem _ _ _ _ _ _ _ _ _))
          (State.memOk_of_mem rfl hs)

theorem execMmZero_memOk {s : State} (g : BitVec 7) (t : BitVec 9) (i : BitVec 1) (h : s.memOk = true) :
    Result.memOk (execMmZero g t i s) = true :=
  mxOp_memOk g _ h fun s a hs => by
    split
    · exact hs
    · exact State.memOk_of_mem (State.writeTile_mem _ _ _ _ _ _ _ _ _ _) hs

theorem execMmWb_memOk {s : State} (g : BitVec 7) (t : BitVec 9) (x : MOp) (k : BitVec 2) (sw c : BitVec 1)
    (h : s.memOk = true) : Result.memOk (execMmWb g t x k sw c s) = true :=
  mxOp_memOk g _ h fun s a hs => by
    dsimp only
    split
    · exact hs
    · refine State.memOk_withDst _ _ _ _ _ _ hs (fun _ h1 => State.memOk_of_mem (State.raiseFlags_mem _ _)
        (State.memOk_of_mem rfl h1)) fun _ h1 => ?_
      split
      · exact State.memOk_of_mem (State.writeTile_mem _ _ _ _ _ _ _ _ _ _) h1
      · exact h1

theorem execMmRd_memOk {s : State} (g : BitVec 7) (t : BitVec 9) (x : MOp) (k : BitVec 2) (sw : BitVec 1)
    (h : s.memOk = true) : Result.memOk (execMmRd g t x k sw s) = true :=
  mxOp_memOk g _ h fun _ _ hs => State.memOk_withDst _ _ _ _ _ _ hs (fun _ h1 => State.memOk_of_mem rfl h1) fun _ h1 => h1

theorem execMmRdSt_memOk {s : State} (g : BitVec 7) (t : BitVec 9) (x : BitVec 6) (c : BitVec 1) (h : s.memOk = true) :
    Result.memOk (execMmRdSt g t x c s) = true :=
  mxOp_memOk g _ h fun s a hs => by
    dsimp only
    split
    · exact hs
    · refine State.memOk_awaitS _ _ _ ?_
      split <;> exact State.memOk_of_mem rfl hs

theorem execMmFuse_memOk {s : State} (g : BitVec 7) (j : BitVec 1) (h : s.memOk = true) :
    Result.memOk (execMmFuse g j s) = true :=
  slotOp_keeps h fun s hs => by
    dsimp only
    split
    · exact hs
    · split
      · exact hs
      · split
        · exact hs
        · show State.memOk _ = true
          split
          · exact hs
          · exact State.memOk_of_mem (State.foldl_mem (fun _ _ => State.setSeq_mem _ _ _) _ _) (State.memOk_of_mem rfl hs)

/-! ### Buffers -/

theorem State.memOk_holdBuf {s : State} (x : BitVec 6) (op : BufOp) (h : s.memOk = true) : (s.holdBuf x op).memOk = true :=
  State.memOk_of_mem rfl h

theorem execBfDecl_memOk {s : State} (g : BitVec 7) (x y z : BitVec 6) (sp : BitVec 1) (own : BitVec 2) (h : s.memOk = true) :
    Result.memOk (execBfDecl g x y z sp own s) = true :=
  slotOp_keeps h fun s hs => by
    extract_lets
    split
    · exact hs
    · split
      · exact hs
      · split
        · exact hs
        · exact State.memOk_holdBuf _ _ hs

theorem bufOp_memOk {s : State} (op : BufOp) (g : BitVec 7) (x : BitVec 6) (h : s.memOk = true) :
    Result.memOk (bufOp op g x s) = true :=
  slotOp_keeps h fun s hs => by
    split
    · exact State.memOk_holdBuf _ _ hs
    · exact hs

theorem execBfState_memOk {s : State} (g : BitVec 7) (x y : BitVec 6) (h : s.memOk = true) :
    Result.memOk (execBfState g x y s) = true :=
  slotOp_keeps h fun s hs => by
    split
    · exact State.memOk_awaitS _ _ _ hs
    · exact hs

theorem execBufferZeroingDone_memOk {s : State} (c d : Nat) (h : s.memOk = true) :
    Result.memOk (execBufferZeroingDone c d s) = true := by
  show State.memOk _ = true
  split
  · exact State.memOk_of_mem rfl h
  · exact h

theorem execBufferStateChange_memOk {s : State} (q : Nat) (h : s.memOk = true) :
    Result.memOk (execBufferStateChange q s) = true := by
  have refuse : ∀ (x : Seq) (c : Cur) (t : Trap), Result.memOk (({ s.setSeq q x with cur := c } : State).raise t) = true :=
    fun x c t => State.raise_memOk t (State.memOk_of_mem rfl h)
  unfold execBufferStateChange
  extract_lets x
  split
  · exact h
  · split
    · split
      · exact h
      · extract_lets c evs
        split
        · exact State.memOk_stallOn _ h
        · split
          · exact refuse _ _ _
          · split
            · exact State.memOk_of_mem rfl h
            · exact refuse _ _ _
    · exact h

end Sys2Proof.Machine
end

section
/-! PROOFS. The canonical form of memory: patches and the store queue. -/

namespace Sys2Proof.Machine

/-! ### Accesses of the patch engine -/

theorem State.memOk_paRead {s : State} (q : Nat) (b : Bool) (a : Word) (n : Nat) (h : s.memOk = true) :
    (s.paRead q b a n).memOk = true :=
  Try.memOk_bind (State.memOk_reachRange _ _ _ _ h) fun _ _ h1 => State.memOk_readPieces _ _ _ h1

theorem State.memOk_paWrite {s : State} (q : Nat) (b : Bool) (a : Word) (bs : List Byte) (h : s.memOk = true) :
    (s.paWrite q b a bs).memOk = true :=
  Try.memOk_bind (State.memOk_reachRange _ _ _ _ h) fun _ _ h1 => State.memOk_writePieces _ _ _ _ _ h1

theorem State.memOk_paSlots {s : State} (q : Nat) (p : Word) (k c i n : Nat) (h : s.memOk = true) :
    (s.paSlots q p k c i n).memOk = true := by
  induction n generalizing s i with
  | zero => exact h
  | succ n ih =>
    unfold State.paSlots
    split
    · exact h
    · exact Try.memOk_bind (State.memOk_paRead _ _ _ _ h) fun _ _ h1 => Try.memOk_bind (ih _ h1) fun _ _ h2 => h2

theorem State.memOk_paFree {s : State} (q : Nat) (p : Word) (m i n : Nat) (h : s.memOk = true) :
    (s.paFree q p m i n).memOk = true := by
  induction n generalizing s i with
  | zero => exact h
  | succ n ih =>
    unfold State.paFree
    split
    · exact h
    · exact Try.memOk_bind (State.memOk_paRead _ _ _ _ h) fun _ _ h1 => Try.memOk_bind (ih _ h1) fun _ _ h2 => h2

theorem State.memOk_paEnts {s : State} (q : Nat) (t p : Word) (k c i l n : Nat) (h : s.memOk = true) :
    (s.paEnts q t p k c i l n).memOk = true := by
  induction n generalizing s i l with
  | zero => exact h
  | succ n ih =>
    unfold State.paEnts
    split
    · exact h
    · refine Try.memOk_bind (State.memOk_paRead _ _ _ _ h) fun _ _ h1 => ?_
      dsimp only
      split
      · exact ih _ _ h1
      · exact Try.memOk_bind (State.memOk_paSlots _ _ _ _ _ _ h1) fun _ _ h2 => Try.memOk_bind (ih _ _ h2) fun _ _ h3 => h3

theorem State.memOk_paLoad {s : State} (q : Nat) (r : Word) (h : s.memOk = true) : (s.paLoad q r).memOk = true := by
  unfold State.paLoad
  split
  · exact h
  · refine Try.memOk_bind (State.memOk_paRead _ _ _ _ h) fun _ _ h1 => Try.memOk_bind (State.memOk_paRead _ _ _ _ h1) fun _ _ h2 => ?_
    extract_lets
    split
    · exact h2
    · exact Try.memOk_bind (State.memOk_paEnts _ _ _ _ _ _ _ _ h2) fun _ _ h3 => Try.memOk_bind (State.memOk_paFree _ _ _ _ _ h3)
        fun _ _ h4 => Try.memOk_bind (State.memOk_paRead _ _ _ _ h4) fun _ _ h5 => h5

theorem State.memOk_cellValue {s : State} (q : Nat) (t : Tensor) (c k : Nat) (h : s.memOk = true) :
    (s.cellValue q t c k).memOk = true := Try.memOk_bind (State.memOk_paRead _ _ _ _ h) fun _ _ h1 => h1

theorem State.memOk_paSave {s : State} (q : Nat) (o n : Tensor) (cs : List (Nat × BitVec 512)) (h : s.memOk = true) :
    (s.paSave q o n cs).memOk = true :=
  Try.memOk_bind (tryList_memOk (fun _ _ hs => State.memOk_paWrite _ _ _ _ hs) _ h) fun _ _ h1 =>
    tryList_memOk (fun _ _ hs => State.memOk_paWrite _ _ _ _ hs) _ h1

theorem State.memOk_paNorm {s : State} (q : Nat) (t : Tensor) (p : PEnt) (b : Bool) (h : s.memOk = true) :
    (s.paNorm q t p b).memOk = true := by
  unfold State.paNorm
  split
  · exact h
  · exact Try.memOk_bind (State.memOk_paRead _ _ _ _ h) fun _ _ h1 => State.memOk_paWrite _ _ _ _ h1

theorem State.memOk_preImages {s : State} (q : Nat) (t : Tensor) (l : List PSlot) (h : s.memOk = true) :
    (s.preImages q t l).memOk = true := by
  induction l generalizing s with
  | nil => exact h
  | cons e l ih => exact Try.memOk_bind (State.memOk_cellValue _ _ _ _ h) fun _ _ h1 => Try.memOk_bind (ih h1) fun _ _ h2 => h2

theorem State.memOk_closeAs {s : State} (q : Nat) (t : Tensor) (p k : PEnt) (b : Bool) (h : s.memOk = true) :
    (s.closeAs q t p k b).memOk = true := by
  refine Try.memOk_bind ?_ fun _ _ h1 => Try.memOk_bind (State.memOk_paNorm _ _ _ _ h1) fun _ _ h2 => h2
  split
  · exact Try.memOk_bind (State.memOk_preImages _ _ _ h) fun _ _ h1 => h1
  · exact h

/-! ### Patch instructions -/

theorem paDo_memOk {α : Type} {s : State} {x : Try α} {f : State → α → Res} (h : s.memOk = true) (hx : x.memOk = true)
    (hf : ∀ s a, s.memOk = true → (f s a).memOk = true) : (paDo s x f).memOk = true := by
  cases x with
  | ok s1 a => exact hf s1 a hx
  | trap s1 t => exact h
  | wait s1 l => exact State.memOk_same rfl rfl rfl h

theorem State.memOk_toEngine {s : State} (h : s.memOk = true) : s.toEngine.memOk = true := State.memOk_of_mem rfl h

theorem paOp_memOk {s : State} (g : BitVec 7) {f : State → Try Unit} (h : s.memOk = true)
    (hf : ∀ s, s.memOk = true → (f s).memOk = true) : Result.memOk (paOp g s f) = true :=
  slotOp_keeps h fun s hs => paDo_memOk hs (hf s hs) fun _ _ h1 => State.memOk_toEngine h1

theorem execPatchEngineComplete_memOk {s : State} (q : Nat) (h : s.memOk = true) :
    Result.memOk (execPatchEngineComplete q s) = true := by
  show State.memOk _ = true
  split
  · exact State.memOk_of_mem rfl h
  · exact h

theorem State.memOk_bindPort {s : State} (n : BitVec 2) (p : Option Port) (h : s.memOk = true) : (s.bindPort n p).memOk = true :=
  State.memOk_of_mem rfl h

theorem State.memOk_tsReach {s : State} (p : Option Port) (a : Word) (w : Bool) (h : s.memOk = true) :
    (s.tsReach p a w).memOk = true := by
  unfold State.tsReach
  dsimp only
  split
  · exact h
  · split
    · exact h
    · split
      · exact h
      · refine Try.memOk_bind (State.memOk_reach _ _ _ h) fun _ _ h1 => Try.memOk_bind (State.memOk_paLoad _ _ h1) fun _ _ h2 => ?_
        split <;> exact h2

theorem execTsSt_memOk {s : State} (g : BitVec 7) (x b : BitVec 6) (off : BitVec 11) (p : BitVec 2) (h : s.memOk = true) :
    Result.memOk (execTsSt g x b off p s) = true :=
  slotOp_keeps h fun s hs => by
    dsimp only
    split
    · exact hs
    · refine paDo_memOk hs (Try.memOk_bind (State.memOk_tsReach _ _ _ hs) fun s1 _ h1 => ?_) fun _ _ h2 => h2
      split
      · exact h1
      · split
        · exact State.memOk_paSave _ _ _ _ h1
        · split
          · exact h1
          · exact State.memOk_paSave _ _ _ _ h1

theorem execTsLd_memOk {s : State} (g : BitVec 7) (x b : BitVec 6) (off : BitVec 11) (cut : BitVec 1) (p : BitVec 2)
    (h : s.memOk = true) : Result.memOk (execTsLd g x b off cut p s) = true :=
  slotOp_keeps h fun s hs => by
    refine paDo_memOk hs (Try.memOk_bind (State.memOk_tsReach _ _ _ hs) fun s1 _ h1 => ?_) fun _ _ h2 => State.memOk_awaitS _ _ _ h2
    have value := fun c k => State.memOk_cellValue s.cur.seq ‹Port × Tensor × Nat›.2.1 c k h1
    dsimp only
    split
    · split
      · exact h1
      · exact Try.memOk_bind (value _ _) fun _ _ h2 => h2
    · exact Try.memOk_bind (value _ _) fun _ _ h2 => h2

theorem State.memOk_cellValues {s : State} (q : Nat) (t : Tensor) (k : Nat) (l : List Nat) (h : s.memOk = true) :
    (s.cellValues q t k l).memOk = true := by
  induction l generalizing s with
  | nil => exact h
  | cons e l ih => exact Try.memOk_bind (State.memOk_cellValue _ _ _ _ h) fun _ _ h1 => Try.memOk_bind (ih h1) fun _ _ h2 => h2

theorem State.memOk_squash {s : State} (q : Nat) (t : Tensor) (n : Nat) (h : s.memOk = true) : (s.squash q t n).memOk = true :=
  Try.memOk_bind (State.memOk_cellValues _ _ _ _ h) fun _ _ h1 => h1

theorem State.memOk_basePages {s : State} (q : Nat) (t : Tensor) (h : s.memOk = true) : (s.basePages q t).memOk = true :=
  tryList_memOk (fun s i hs => by
    have hr := fun va a => State.memOk_reach q va a hs
    split
    · exact Try.memOk_wait (hr _ _) ‹_›
    · exact Try.memOk_trap (hr _ _) ‹_›
    · exact Try.memOk_ok (hr _ _) ‹_›) _ h

theorem execPaOpen_memOk {s : State} (g : BitVec 7) (p : BitVec 2) (y z : BitVec 6) (k : PaKind) (h : s.memOk = true) :
    Result.memOk (execPaOpen g p y z k s) = true :=
  paOp_memOk g h fun s hs => by
    dsimp only
    split
    · exact hs
    · refine Try.memOk_bind (State.memOk_paLoad _ _ hs) fun s1 t h1 => Try.memOk_bind (State.memOk_basePages _ _ h1) fun s2 _ h2 => ?_
      split
      · exact State.memOk_bindPort _ _ h2
      all_goals
        split
        · exact h2
        · split
          · exact h2
          · refine Try.memOk_bind ?_ fun s3 r h3 => ?_
            · split
              · exact State.memOk_squash _ _ _ h2
              · exact h2
            · dsimp only
              split
              · exact h3
              · exact Try.memOk_bind (State.memOk_paSave _ _ _ _ h3) fun _ _ h4 => State.memOk_bindPort _ _ h4

theorem execPaClose_memOk {s : State} (g : BitVec 7) (p : BitVec 2) (h : s.memOk = true) :
    Result.memOk (execPaClose g p s) = true :=
  paOp_memOk g h fun s hs => by
    extract_lets q
    split
    · exact hs
    · split
      · exact State.memOk_bindPort _ _ hs
      · refine Try.memOk_bind (State.memOk_paLoad _ _ hs) fun s1 t h1 => ?_
        split
        · exact h1
        · extract_lets bad
          clear_value bad
          split
          · exact h1
          · exact Try.memOk_bind (State.memOk_closeAs _ _ _ _ _ h1) fun _ _ h2 =>
              Try.memOk_bind (State.memOk_paSave _ _ _ _ h2) fun _ _ h3 => State.memOk_bindPort _ _ h3

theorem State.memOk_dropOpen {s : State} (q : Nat) (p : Port) (h : s.memOk = true) : (s.dropOpen q p).memOk = true :=
  Try.memOk_bind (State.memOk_paLoad _ _ h) fun s1 t h1 => by
    split
    · exact h1
    · exact State.memOk_paSave _ _ _ _ h1

theorem execPaDropPort_memOk {s : State} (g : BitVec 7) (p : BitVec 2) (h : s.memOk = true) :
    Result.memOk (execPaDropPort g p s) = true :=
  paOp_memOk g h fun s hs => by
    split
    · exact hs
    · split
      · exact hs
      · exact Try.memOk_bind (State.memOk_dropOpen _ _ hs) fun _ _ h1 => State.memOk_bindPort _ _ h1

theorem State.memOk_withClosed {s : State} (y z : BitVec 6) {f : State → Tensor → PEnt → Try Unit} (h : s.memOk = true)
    (hf : ∀ s t p, s.memOk = true → (f s t p).memOk = true) : (s.withClosed y z f).memOk = true :=
  Try.memOk_bind (State.memOk_paLoad _ _ h) fun s1 t h1 => by
    split
    · exact h1
    · exact hf _ _ _ h1

theorem execPaDropClosed_memOk {s : State} (g : BitVec 7) (y z : BitVec 6) (h : s.memOk = true) :
    Result.memOk (execPaDropClosed g y z s) = true :=
  paOp_memOk g h fun s hs => State.memOk_withClosed y z hs fun s1 t p h1 => by
    split
    · exact h1
    · split
      · exact h1
      · exact Try.memOk_bind (State.memOk_paNorm _ _ _ _ h1) fun _ _ h2 => State.memOk_paSave _ _ _ _ h2

theorem execPaInv_memOk {s : State} (g : BitVec 7) (y z : BitVec 6) (h : s.memOk = true) :
    Result.memOk (execPaInv g y z s) = true :=
  paOp_memOk g h fun s hs => State.memOk_withClosed y z hs fun s1 t p h1 => by
    split
    · exact h1
    · extract_lets free
      split
      · exact h1
      · split
        · exact h1
        · exact Try.memOk_bind (State.memOk_closeAs _ _ _ _ _ h1) fun _ _ h2 => State.memOk_paSave _ _ _ _ h2

theorem execPaComm_memOk {s : State} (g : BitVec 7) (y z : BitVec 6) (h : s.memOk = true) :
    Result.memOk (execPaComm g y z s) = true :=
  paOp_memOk g h fun s hs => State.memOk_withClosed y z hs fun s1 t p h1 => by
    split
    · exact h1
    · split
      · exact h1
      · split
        · exact h1
        · split
          · exact h1
          · exact State.memOk_paSave _ _ _ _ h1

theorem State.memOk_applyOne {s : State} (q : Nat) (t : Tensor) (p : PEnt) (l : List PSlot) (h : s.memOk = true) :
    (s.applyOne q t p l).memOk = true := by
  induction l generalizing s with
  | nil => exact h
  | cons e l ih => exact Try.memOk_bind (State.memOk_cellValue _ _ _ _ h) fun _ _ h1 => Try.memOk_bind (ih h1) fun _ _ h2 => h2

theorem execPaApply_memOk {s : State} (g : BitVec 7) (y z : BitVec 6) (h : s.memOk = true) :
    Result.memOk (execPaApply g y z s) = true :=
  paOp_memOk g h fun s hs => State.memOk_withClosed y z hs fun s1 t p h1 => by
    split
    · exact h1
    · extract_lets held
      clear_value held
      split
      · exact h1
      · split
        · exact h1
        · exact Try.memOk_bind (State.memOk_applyOne _ _ _ _ h1) fun _ _ h2 => State.memOk_paSave _ _ _ _ h2

theorem execPaSquash_memOk {s : State} (g : BitVec 7) (y z : BitVec 6) (h : s.memOk = true) :
    Result.memOk (execPaSquash g y z s) = true :=
  paOp_memOk g h fun _ hs => Try.memOk_bind (State.memOk_paLoad _ _ hs) fun _ _ h1 =>
    Try.memOk_bind (State.memOk_squash _ _ _ h1) fun _ _ h2 => State.memOk_paSave _ _ _ _ h2

theorem execPaSnap_memOk {s : State} (g : BitVec 7) (y : BitVec 6) (c : BitVec 1) (h : s.memOk = true) :
    Result.memOk (execPaSnap g y c s) = true :=
  paOp_memOk g h fun _ hs => Try.memOk_bind (State.memOk_paLoad _ _ hs) fun _ _ h1 => State.memOk_paSave _ _ _ _ h1

theorem execPaXplant_memOk {s : State} (g : BitVec 7) (x y z : BitVec 6) (h : s.memOk = true) :
    Result.memOk (execPaXplant g x y z s) = true :=
  paOp_memOk g h fun s hs => by
    refine Try.memOk_bind (State.memOk_paLoad _ _ hs) fun s0 d h0 => Try.memOk_bind (State.memOk_paLoad _ _ h0) fun s1 t h1 => ?_
    split
    · exact h1
    · split
      · exact h1
      · split
        · exact h1
        · extract_lets free
          split
          · exact h1
          · exact Try.memOk_bind (State.memOk_closeAs _ _ _ _ _ h1) fun _ _ h2 => State.memOk_paSave _ _ _ _ h2

theorem execPaNorm_memOk {s : State} (g : BitVec 7) (x y : BitVec 6) (f : BitVec 4) (h : s.memOk = true) :
    Result.memOk (execPaNorm g x y f s) = true :=
  slotOp_keeps h fun s hs => by
    refine paDo_memOk hs (Try.memOk_bind (State.memOk_paLoad _ _ hs) fun s1 t h1 => Try.memOk_bind (State.memOk_paRead _ _ _ _ h1)
      fun s2 _ h2 => Try.memOk_bind (State.memOk_paRead _ _ _ _ h2) fun s3 _ h3 => ?_)
      fun _ _ h4 => State.memOk_toEngine (State.memOk_awaitS _ _ _ h4)
    dsimp only
    split
    · exact h3
    · split
      · exact h3
      · split
        · exact h3
        · refine Try.memOk_bind (State.memOk_paWrite _ _ _ _ h3) fun _ _ h4 => Try.memOk_bind (State.memOk_paWrite _ _ _ _ h4)
            fun _ _ h5 => ?_
          split
          · exact Try.memOk_bind (State.memOk_paWrite _ _ _ _ h5) fun _ _ h6 => h6
          · exact h5

theorem execPaQuery_memOk {s : State} (g : BitVec 7) (x y z : BitVec 6) (h : s.memOk = true) :
    Result.memOk (execPaQuery g x y z s) = true :=
  slotOp_keeps h fun _ hs => paDo_memOk hs (Try.memOk_bind (State.memOk_paLoad _ _ hs) fun _ _ h1 => h1)
    fun _ _ h2 => State.memOk_toEngine (State.memOk_awaitS _ _ _ h2)

/-! ### Performing stores -/

theorem State.memOk_performAct {s : State} (q : Nat) (a : StoreAct) (h : s.memOk = true) : (s.performAct q a).memOk = true := by
  cases a with
  | plain es => exact State.memOk_foldl (fun _ _ hs => State.memOk_storePlain _ _ hs) _ h
  | loc es c => exact State.memOk_of_mem (State.foldl_mem (fun _ _ => State.storeLoc_mem _ _ _ _) _ _) h
  | red va op v => exact State.memOk_onScoped _ _ _ h
  | hal op => exact State.memOk_of_mem rfl h
  | start _ _ _ _ => exact h

theorem State.memOk_actGate {s s1 : State} {q : Nat} {a : StoreAct} {evs : List Instr} (h : s.memOk = true)
    (e : s.actGate q a = some (s1, evs)) : s1.memOk = true := by
  unfold State.actGate at e
  dsimp only at e
  split at e
  · obtain ⟨_, _, hl⟩ := List.exists_of_findSome?_eq_some e
    exact State.memOk_writeGate h hl
  · exact State.memOk_scopedGate h e
  all_goals cases e

theorem State.performHead_memOk {s : State} (q k : Nat) (e : StoreEnt) (h : s.memOk = true) :
    Result.memOk (s.performHead q k e) = true := by
  have h1 := State.memOk_performAct q e.act h
  unfold State.performHead
  dsimp only
  split
  · exact State.memOk_of_mem rfl h1
  · exact State.memOk_of_mem rfl h1
  · have released := fun k => State.memOk_release (coreOf q) (s.ctxOf q) k h1
    split
    · exact State.memOk_same (s := s) rfl rfl rfl h
    · exact State.memOk_of_mem rfl (released _)

theorem execStorePerform_memOk {s : State} (q k : Nat) (h : s.memOk = true) : Result.memOk (execStorePerform q k s) = true := by
  unfold execStorePerform
  extract_lets f
  split
  · exact h
  · extract_lets isStart
    clear_value isStart
    split
    · exact State.memOk_of_mem rfl h
    · split
      · exact State.memOk_of_mem rfl h
      · split
        · exact State.memOk_of_mem rfl h
        · split
          · exact State.memOk_stallOn _ (State.memOk_actGate h ‹_›)
          · exact State.performHead_memOk _ _ _ h

end Sys2Proof.Machine
end

section
/-! PROOFS. The canonical form of memory: launches and nodes. -/

namespace Sys2Proof.Machine

/-! ### The command stream -/

theorem State.memOk_csMeet {s : State} (ctx : Nat) (va : Word) (h : s.memOk = true) : (s.csMeet ctx va).memOk = true := by
  have ht := State.memOk_translate 0 ctx va { cls := pcMem } h
  unfold State.csMeet
  split
  · split
    · exact State.memOk_meetQuiet _ _ (State.memOk_fst ht ‹_›)
    · exact h
  · exact h

theorem State.memOk_csRead {s : State} (ctx : Nat) (r : Word × Nat) (h : s.memOk = true) : (s.csRead ctx r).memOk = true := by
  refine State.memOk_foldl (fun s i hs => ?_) _ h
  have ht := fun va => State.memOk_translate 0 ctx va { cls := pcMem } hs
  dsimp only
  split
  · have h1 := State.memOk_fst (ht _) ‹_›
    split
    · exact State.memOk_of_mem (State.winTraffic_mem ..) h1
    · exact State.memOk_of_mem (State.mscTouch_mem ..) h1
  · exact hs

@[simp] theorem State.workEnded_mem (s b : State) : (s.workEnded b).mem = s.mem := by
  refine State.foldl_mem (fun t e => ?_) _ _
  split <;> rfl

@[simp] theorem State.refuseLaunch_mem (s : State) (n : Nat) (b : Bool) (c : Nat) : (s.refuseLaunch n b c).mem = s.mem :=
  State.workEnded_mem _ _

theorem State.memOk_dispatch {s : State} (n : Nat) (b : Bool) (l : Launch) (h : s.memOk = true) : (s.dispatch n b l).memOk = true := by
  unfold State.dispatch
  refine State.memOk_foldl (fun s c hs => State.memOk_bump _ _ (State.memOk_of_mem (State.setCore_mem _ _ _) hs)) _ ?_
  exact State.memOk_of_mem (s := s) rfl h

theorem State.memOk_csTook {s : State} (n : Nat) (b : Bool) (k : List Word) (h : s.memOk = true) : (s.csTook n b k).memOk = true :=
  State.memOk_foldl (fun _ _ hs => State.memOk_csRead _ _ hs) _ h

theorem State.memOk_csMeetHead {s : State} (n : Nat) (h : s.memOk = true) : (s.csMeetHead n).memOk = true := by
  unfold State.csMeetHead
  dsimp only
  have h1 := fun va => State.memOk_csMeet (s.queue n).ctx va h
  split
  · exact State.memOk_csMeet _ _ (h1 _)
  · exact h1 _

theorem execLaunchDispatch_memOk {s : State} (n : Nat) (h : s.memOk = true) : Result.memOk (execLaunchDispatch n s) = true := by
  unfold execLaunchDispatch
  extract_lets u
  have hu : u.memOk = true := by
    show State.memOk (if _ then _ else _) = true
    split
    · exact State.memOk_csMeetHead _ h
    · exact h
  clear_value u
  have took := fun b k => State.memOk_csTook n b k hu
  split
  · exact hu
  · show State.memOk _ = true
    split
    · exact hu
    · exact State.memOk_of_mem (State.refuseLaunch_mem _ _ _ _) hu
  · split
    · exact hu
    · split
      · exact State.memOk_of_mem (State.refuseLaunch_mem _ _ _ _) (took _ _)
      · split
        · split
          · exact State.memOk_of_mem rfl hu
          · exact State.memOk_of_mem (State.workEnded_mem _ _) (State.memOk_dispatch _ _ _ (took _ _))
        · exact hu

@[simp] theorem State.tdiError_mem (s : State) (v : Nat) : (s.tdiError v).mem = s.mem := State.workEnded_mem _ _

theorem State.memOk_lockedWrite {s : State} (v : Nat) {f : State → State} (h : s.memOk = true) (hf : (f s).memOk = true) :
    (s.lockedWrite v f).memOk = true := by
  unfold State.lockedWrite
  split
  · exact hf
  · exact State.memOk_of_mem (State.tdiError_mem _ _) h
  · exact State.memOk_of_mem (State.tdiError_mem _ _) h
  · exact h

theorem execQueueTailWrite_memOk {s : State} (n : Nat) (t : BitVec 32) (h : s.memOk = true) :
    Result.memOk (execQueueTailWrite n t s) = true := by
  unfold execQueueTailWrite
  extract_lets q
  split_ifs
  · exact h
  · exact State.memOk_lockedWrite (f := id) _ h h
  · exact h
  · exact State.memOk_of_mem (State.workEnded_mem _ _) (State.memOk_of_mem rfl h)

/-! ### Nodes -/

@[simp] theorem State.closeRegion_mem (s : State) (q : Nat) : (s.closeRegion q).mem = s.mem := rfl

@[simp] theorem State.leave_mem (s : State) (ctx gh : Nat) (ps : Tab Port) : (s.leave ctx gh ps).mem = s.mem := by
  unfold State.leave
  dsimp only
  split <;> rfl

@[simp] theorem State.leavePorts_mem (s : State) (ctx q : Nat) : (s.leavePorts ctx q).mem = s.mem := by
  unfold State.leavePorts
  split
  · split
    · exact State.leave_mem _ _ _ _
    · rfl
  · rfl

@[simp] theorem State.beginNode_mem (s : State) (q : Nat) (r : NodeRun) : (s.beginNode q r).mem = s.mem := by
  unfold State.beginNode
  split
  · rfl
  · dsimp only
    rw [State.setSeq_mem]
    split
    · exact (State.closeRegion_mem _ _).trans (State.leavePorts_mem _ _ _)
    · rfl

@[simp] theorem State.beginNext_mem (s : State) (q : Nat) : (s.beginNext q).mem = s.mem := by
  unfold State.beginNext
  dsimp only
  split
  · exact State.beginNode_mem _ _ _
  · rfl

@[simp] theorem State.raiseAll_mem (s : State) (b : Nat) (l : Launch) (ts : List Nat) : (s.raiseAll b l ts).mem = s.mem := by
  refine State.foldl_mem (fun s t => ?_) _ _
  split <;> rfl

@[simp] theorem State.nodeComplete_mem (s : State) (l n : Nat) : (s.nodeComplete l n).mem = s.mem := by
  unfold State.nodeComplete
  split
  · rfl
  · split <;> rfl

theorem State.fire_memOk {s : State} (li : Nat) (l : Launch) (i : Nat) (n : Node) (h : s.memOk = true) :
    Result.memOk (s.fire li l i n) = true := by
  unfold State.fire
  extract_lets u
  have hu : u.memOk = true := State.memOk_of_mem rfl (State.memOk_bump n.core n.scope h)
  clear_value u
  split
  · show State.memOk _ = true
    split
    · exact State.memOk_of_mem (State.beginNode_mem _ _ _) hu
    · exact State.memOk_of_mem rfl hu
  · exact State.memOk_of_mem rfl hu
  · split
    · rename_i e
      refine State.memOk_stallOn _ ?_
      split at e
      · cases e
      · exact State.memOk_relGate h e
    · exact State.memOk_of_mem ((State.nodeComplete_mem _ _ _).trans (State.raiseAll_mem _ _ _ _)) (State.memOk_release _ _ _ hu)

theorem execNodeFire_memOk {s : State} (l n : Nat) (h : s.memOk = true) : Result.memOk (execNodeFire l n s) = true := by
  unfold execNodeFire
  split
  · exact h
  · split
    · exact h
    · split
      · exact h
      · split
        · have h1 := fun y => State.memOk_retryRecords (s := s.setLaunch l y) ‹Launch›.ctx (State.memOk_of_mem rfl h)
          dsimp only
          split
          · have h2 := fun q y r => State.memOk_tryRecord q ‹Launch›.ctx 1 r (h1 y)
            split
            · have h3 := State.memOk_fst (h2 _ _ _) ‹_›
              exact State.memOk_of_mem rfl h3
            · exact State.memOk_fst (h2 _ _ _) ‹_›
          · exact h1 _
        · split
          · exact State.fire_memOk _ _ _ _ h
          · exact h

theorem execConditionWordWrite_memOk {s : State} (k : Nat) (h : s.memOk = true) :
    Result.memOk (execConditionWordWrite k s) = true :=
  State.runHal_memOk h fun e => by
    split
    · show State.memOk _ = true
      split
      · exact State.memOk_of_mem rfl h
      · split <;> exact State.memOk_of_mem rfl h
    · exact h

/-! ### Graph instructions -/

theorem State.memOk_ldWords {s : State} (a : Word) (n : Nat) (h : s.memOk = true) : (s.ldWords a n).memOk = true := by
  induction n generalizing s a with
  | zero => exact h
  | succ n ih =>
    unfold State.ldWords
    split
    · exact h
    · dsimp only
      split
      · exact h
      · exact Try.memOk_bind (State.memOk_plainRead _ _ _ _ _ h) fun _ _ h1 => Try.memOk_bind (ih _ h1) fun _ _ h2 => h2

theorem execGrLaunch_memOk {s : State} (g : BitVec 7) (k : Scope) (y : BitVec 6) (h : s.memOk = true) :
    Result.memOk (execGrLaunch g k y s) = true :=
  slotOp_keeps h fun s hs => by
    split
    · exact hs
    · split
      · exact hs
      · dsimp only
        split
        · exact hs
        · refine Try.memOk_res (State.memOk_ldWords _ _ hs) fun s1 _ h1 =>
            Try.memOk_res (State.memOk_tryReleaseAt _ _ _ h1) fun s2 _ h2 =>
              State.memOk_of_mem (State.workEnded_mem _ _) (State.memOk_of_mem (State.setLaunch_mem _ _ _) ?_)
          split <;> exact State.memOk_of_mem rfl h2

theorem execGrCond_memOk {s : State} (g : BitVec 7) (y z : BitVec 6) (h : s.memOk = true) :
    Result.memOk (execGrCond g y z s) = true :=
  slotOp_keeps h fun s hs => by
    split
    · exact hs
    · dsimp only
      split
      · exact hs
      · split <;> exact State.memOk_of_mem rfl hs

theorem execGrArrive_memOk {s : State} (g : BitVec 7) (m : BitVec 4) (h : s.memOk = true) :
    Result.memOk (execGrArrive g m s) = true :=
  slotOp_keeps h fun s hs => by
    split
    · exact hs
    · exact Try.memOk_res (State.memOk_releaseHal _ hs) fun s1 _ h1 =>
        State.memOk_of_mem rfl (State.memOk_of_mem (State.raiseAll_mem s1 _ _ _) h1)

@[simp] theorem State.endNode_mem (s : State) (r : NodeRun) (l : Launch) (n : Node) : (s.endNode r l n).mem = s.mem := by
  unfold State.endNode
  dsimp only
  rw [State.beginNext_mem, State.setCtl_mem, State.nodeComplete_mem, State.retire_mem, State.raiseAll_mem]

theorem State.memOk_stopNode {s : State} (k : Nat) (t : Word → Trap) (a : Word) (h : s.memOk = true) : (s.stopNode k t a).memOk = true := by
  unfold State.stopNode
  dsimp only
  split
  · exact State.memOk_stopSeq _ _ _ _ _ h
  · exact State.memOk_putRecord _ _ h

theorem execGrDone_memOk {s : State} (g : BitVec 7) (h : s.memOk = true) : Result.memOk (execGrDone g s) = true :=
  slotOp_keeps h fun s hs => State.memOk_alone hs fun s hs => by
    have ended : ∀ {s : State} r l n, s.memOk = true → (s.endNode r l n).memOk = true := fun r l n hs =>
      State.memOk_of_mem (State.endNode_mem _ r l n) hs
    dsimp only
    split
    · exact hs
    · split
      · exact hs
      · split
        · exact hs
        · refine Try.memOk_res (State.memOk_releaseHal _ hs) fun s1 _ h1 => ?_
          split
          · exact ended _ _ _ h1
          · split
            · exact State.memOk_beforeStop h1 ‹_›
            · exact State.memOk_stopNode _ _ _ (ended _ _ _ h1)

/-! ### The end of a launch -/

@[simp] theorem State.freeDrained_mem (s : State) (n : Nat) : (s.freeDrained n).mem = s.mem := by
  unfold State.freeDrained
  split <;> rfl

@[simp] theorem State.dropLaunch_mem (s : State) (li : Nat) (l : Launch) : (s.dropLaunch li l).mem = s.mem := by
  have left := State.foldl_mem (fun s (e : Nat × Tab Port) => State.leave_mem s l.ctx e.1 e.2) (s.keptPorts li l.ctx) s
  refine (State.workEnded_mem _ _).trans ((State.freeDrained_mem _ _).trans ?_)
  split <;> exact left

theorem execLaunchEnd_memOk {s : State} (l : Nat) (h : s.memOk = true) : Result.memOk (execLaunchEnd l s) = true := by
  unfold execLaunchEnd
  split
  · exact h
  · split
    · exact h
    · extract_lets sc gated s1 p s2
      have gate : ∀ s1 evs, gated = some (s1, evs) → s1.memOk = true := fun s1 evs e => by
        change (if _ then none else _) = _ at e
        split at e
        · cases e
        · obtain ⟨_, _, hg⟩ := List.exists_of_findSome?_eq_some e
          exact State.memOk_relGate h hg
      have h1 : s1.memOk = true := State.memOk_foldl (fun _ _ hs => State.memOk_release _ _ _ hs) _ h
      have h2 : s2.memOk = true := by
        show State.memOk (if _ then _ else _) = true
        split <;> exact State.memOk_of_mem rfl h1
      clear_value gated s2
      split
      · exact State.memOk_stallOn _ (gate _ _ rfl)
      · exact State.memOk_of_mem (State.dropLaunch_mem _ _ _) h2

end Sys2Proof.Machine
end

section
/-! PROOFS. The canonical form of memory: copies, segments, and the choice of a context. -/

namespace Sys2Proof.Machine

/-! ### Copies -/

theorem State.park_mem (s : State) (c : Nat) : (s.park c).mem = s.mem := rfl

/-- A fold of tries keeps the form when each of its steps does. -/
theorem Try.memOk_foldl {α β : Type} {f : State → α → β → Try α} (hf : ∀ s a b, s.memOk = true → (f s a b).memOk = true)
    (l : List β) {x : Try α} (hx : x.memOk = true) : (l.foldl (fun r e => r.bind fun s a => f s a e) x).memOk = true := by
  induction l generalizing x with
  | nil => exact hx
  | cons b t ih => exact ih (Try.memOk_bind hx fun s a hs => hf s a b hs)

theorem State.memOk_copyReach {s : State} (c : Copy) (core : Nat) (l w m : Bool) (a : Word) (n : Nat) (h : s.memOk = true) :
    (s.copyReach c core l w m a n).memOk = true := by
  unfold State.copyReach
  dsimp only
  split
  · refine Try.memOk_foldl (fun s ps e hs => ?_) _ h
    split
    · exact hs
    · split <;> exact hs
  · split
    · exact h
    · exact Try.memOk_bind (State.memOk_reachRange _ _ _ _ h) fun _ _ hs => hs

theorem State.memOk_copyReachAll {s : State} (c : Copy) (core : Nat) (l w m : Bool) (f : Nat → Word) (rs : List (Nat × Nat))
    (ps : List Place) (h : s.memOk = true) : (s.copyReachAll c core l w m f rs ps).memOk = true := by
  induction rs generalizing s ps with
  | nil => exact h
  | cons r t ih => exact Try.memOk_bind (State.memOk_copyReach _ _ _ _ _ _ _ h) fun _ _ hs => ih _ hs

theorem State.memOk_readPlace {s : State} (ctx : Nat) (p : Place) (h : s.memOk = true) : (s.readPlace ctx p).1.memOk = true := by
  cases p with
  | mem x => exact State.memOk_readPiece _ _ _ h
  | spad c o n => exact h

theorem State.memOk_readPlaces {s : State} (ctx : Nat) (ps : List Place) (h : s.memOk = true) :
    (s.readPlaces ctx ps).1.memOk = true := by
  induction ps generalizing s with
  | nil => exact h
  | cons p t ih => exact ih (State.memOk_readPlace _ _ h)

theorem State.memOk_writePlaces {s : State} (die ctx : Nat) (ps : List Place) (bs : List Byte) (h : s.memOk = true) :
    (s.writePlaces die ctx ps bs).memOk = true := by
  induction ps generalizing s bs with
  | nil => exact h
  | cons p t ih =>
    refine ih _ ?_
    cases p with
    | mem x => exact State.memOk_writePiece _ _ _ _ _ h
    | spad c o n => exact State.memOk_of_mem (State.setCore_mem _ _ _) h

theorem State.setChanOf_mem (s : State) (ch : Nat) (x : Channel) : (s.setChanOf ch x).mem = s.mem := rfl

theorem State.memOk_copyFault {s : State} (ch : Nat) (c : Copy) (r : Bool) (t : Trap) (h : s.memOk = true) :
    (s.copyFault ch c r t).memOk = true := by
  have h1 := State.memOk_of_mem (State.setChanOf_mem s ch
    { s.chanOf ch with copies := (s.chanOf ch).copies.drop 1, parked := false }) h
  unfold State.copyFault
  dsimp only
  split
  · exact State.memOk_foldl (fun _ _ hs => State.memOk_latchPennant _ _ _ hs) _ h1
  · split
    · split
      · exact h1
      · exact State.memOk_latchPennant _ _ _ h1
    · exact State.memOk_of_mem (State.setChanOf_mem _ _ _) h1

theorem State.copyBreak_mem (s : State) (c : Copy) (core : Nat) : (s.copyBreak c core).mem = s.mem := by
  unfold State.copyBreak
  split
  · refine State.foldl_mem (fun s k => ?_) _ _
    split
    · split <;> rfl
    · rfl
  · rfl

theorem State.memOk_copyAct {s : State} (c : Copy) (core d : Nat) (op : BufOp) (h : s.memOk = true) :
    (s.copyAct c core d op).memOk = true := by
  unfold State.copyAct
  split
  · exact h
  · extract_lets evs
    clear_value evs
    split
    · exact h
    · split
      · exact h
      · exact State.memOk_of_mem rfl h

theorem State.memOk_startActs {s : State} (c : Copy) (core : Nat) (h : s.memOk = true) : (s.startActs c core).memOk = true := by
  refine Try.memOk_bind (tryList_memOk (fun _ _ hs => State.memOk_copyAct _ _ _ _ hs) _ h) fun s _ hs => ?_
  split
  · exact State.memOk_copyAct _ _ _ _ hs
  · exact hs

theorem State.memOk_endActs {s : State} (c : Copy) (core : Nat) (h : s.memOk = true) : (s.endActs c core).memOk = true := by
  refine Try.memOk_bind ?_ fun s _ hs => tryList_memOk (fun _ _ hs => State.memOk_copyAct _ _ _ _ hs) _ hs
  split
  · exact State.memOk_copyAct _ _ _ _ h
  · exact h

theorem State.memOk_copyBegin {s : State} (c : Copy) (core : Nat) (h : s.memOk = true) : (s.copyBegin c core).memOk = true := by
  unfold State.copyBegin
  split
  · exact h
  · split
    · exact h
    · exact State.memOk_startActs _ _ h

theorem State.memOk_deliver {s : State} (c : Copy) (core : Nat) (h : s.memOk = true) : (s.deliver c core).memOk = true := by
  unfold State.deliver
  dsimp only
  have hsrc : (if c.zfill = true then Try.ok s [] else
      s.copyReachAll c core (c.sspace == 1) false false c.from_ (c.runs c.pos (min (c.pos + 2048) c.total) 2048) []).memOk = true := by
    split
    · exact h
    · exact State.memOk_copyReachAll _ _ _ _ _ _ _ _ h
  refine Try.memOk_bind hsrc fun s ss hs => ?_
  refine Try.memOk_bind (Try.memOk_foldl (fun s ps k hs => ?_) _ hs) fun s dss hs => ?_
  · exact Try.memOk_bind (State.memOk_copyReachAll _ _ _ _ _ _ _ _ hs) fun _ _ hs => hs
  have hread : (if c.zfill = true then (s, List.replicate (min (c.pos + 2048) c.total - c.pos) 0#8)
      else s.readPlaces c.ctx ss).1.memOk = true := by
    split
    · exact hs
    · exact State.memOk_readPlaces _ _ hs
  exact State.memOk_of_mem (State.setOwner_mem _ _ _)
    (State.memOk_foldl (fun _ _ hs => State.memOk_writePlaces _ _ _ _ hs) _ (State.memOk_of_mem rfl hread))

theorem State.memOk_nodeTemplate {s : State} (c : Copy) (h : s.memOk = true) : (s.nodeTemplate c).memOk = true := by
  unfold State.nodeTemplate
  split
  · split
    · dsimp only
      split
      · exact h
      · exact Try.memOk_bind (State.memOk_reachRange _ _ _ _ h) fun _ _ hs => State.memOk_readPieces _ _ _ hs
    · exact h
  · exact h

theorem execCopyChunk_memOk {s : State} (ch : Nat) (h : s.memOk = true) : Result.memOk (execCopyChunk ch s) = true := by
  have hp := State.memOk_of_mem (State.park_mem s (ch / 256)) h
  unfold execCopyChunk
  dsimp only
  split
  · exact hp
  · split
    · exact hp
    · split
      · have ht := State.memOk_nodeTemplate ‹Copy› hp
        split
        · exact State.memOk_of_mem (State.setChanOf_mem _ _ _) (Try.memOk_ok ht ‹_›)
        · exact State.memOk_stallOn _ (Try.memOk_wait ht ‹_›)
        · exact State.memOk_copyFault _ _ _ _ (Try.memOk_trap ht ‹_›)
      · split
        · exact hp
        · have hd : ∀ c : Copy, ((if c.pos = 0 then (s.park (ch / 256)).copyBegin c (ch / 256) else .ok (s.park (ch / 256)) ()).bind
              fun s _ => s.deliver c (ch / 256)).memOk = true := fun c => by
            refine Try.memOk_bind ?_ fun _ _ hs => State.memOk_deliver _ _ hs
            split
            · exact State.memOk_copyBegin _ _ hp
            · exact hp
          split
          · exact State.memOk_of_mem (State.setChanOf_mem _ _ _) (Try.memOk_ok (hd _) ‹_›)
          · exact State.memOk_stallOn _ hp
          · have h1 := Try.memOk_trap (hd _) ‹_›
            split
            · exact State.memOk_copyFault _ _ _ _ (State.memOk_of_mem rfl h1)
            · exact State.memOk_copyFault _ _ _ _ (State.memOk_of_mem (State.copyBreak_mem _ _ _) h1)

theorem execCopyComplete_memOk {s : State} (ch : Nat) (h : s.memOk = true) : Result.memOk (execCopyComplete ch s) = true := by
  unfold execCopyComplete
  dsimp only
  split
  · exact h
  · have he := fun c => State.memOk_endActs c (ch / 256) h
    split
    · exact h
    · split
      · exact State.memOk_stallOn _ h
      · exact State.memOk_copyFault _ _ _ _ (State.memOk_of_mem (State.copyBreak_mem _ _ _) h)
      · have h1 := Try.memOk_ok (he _) ‹_›
        split
        · split
          · exact State.memOk_of_mem (State.nodeComplete_mem _ _ _) (State.memOk_of_mem (State.raiseAll_mem _ _ _ _)
              (State.memOk_of_mem (State.setChanOf_mem _ _ _) h1))
          · exact State.memOk_of_mem (State.setChanOf_mem _ _ _) h1
        · show State.memOk _ = true
          split
          · exact State.memOk_of_mem (State.sendHal_mem _ _ _ _) (State.memOk_of_mem (State.setChanOf_mem _ _ _) h1)
          · exact State.memOk_of_mem (State.setChanOf_mem _ _ _) h1

/-! ### The start store -/

theorem State.memOk_newCopy {s : State} (q : Nat) (w : Word) (h : s.memOk = true) : (s.newCopy q w).memOk = true := by
  unfold State.newCopy
  generalize s.myTemplates q = p
  obtain ⟨queue, launch, tmpl⟩ := p
  refine Try.memOk_bind (State.memOk_ldWords _ _ (State.memOk_of_mem rfl h)) fun s _ hs => ?_
  extract_lets c
  clear_value c
  split <;> exact hs

theorem State.enqueue_mem (s : State) (core key : Nat) (c : Copy) : (s.enqueue core key c).mem = s.mem := rfl

theorem State.memOk_startCopy {s : State} (a w : Word) (bits : BitVec 128) (h : s.memOk = true) :
    (s.startCopy a w bits).memOk = true := by
  unfold State.startCopy
  dsimp only
  split
  · split
    · exact State.memOk_of_mem (State.putOff_mem _ _) h
    · split
      · exact State.memOk_beforeStop h ‹_›
      · exact State.memOk_of_mem rfl h
  · refine Try.memOk_res (State.memOk_newCopy _ _ h) fun s1 c h1 => ?_
    split
    · exact State.memOk_of_mem (State.enqueue_mem _ _ _ _) h1
    · split
      · exact h
      · exact State.memOk_pushB _ _ h

theorem State.memOk_startTrap {s : State} (q bn key : Nat) (addr : Word) (bits : BitVec 128) (t : Trap) (h : s.memOk = true) :
    (s.startTrap q bn key addr bits t).memOk = true := by
  unfold State.startTrap
  dsimp only
  split
  · exact State.memOk_of_mem (State.setSeq_mem _ _ _) h
  · split
    · exact h
    · split
      · exact State.memOk_stallOn _ (State.memOk_beforeStop h ‹_›)
      · exact State.memOk_stopSeq _ _ _ _ _ (State.memOk_of_mem rfl h)

theorem State.memOk_startQueued {s : State} (q : Nat) (w : Word) (bn key : Nat) (addr : Word) (bits : BitVec 128) (h : s.memOk = true) :
    (s.startQueued q w bn key addr bits).memOk = true := by
  have hn := State.memOk_newCopy q w h
  unfold State.startQueued
  dsimp only
  split
  · exact State.memOk_startTrap _ _ _ _ _ _ h
  · split
    · exact State.memOk_of_mem rfl h
    · split
      · have h1 := Try.memOk_ok hn ‹_›
        exact State.memOk_of_mem rfl h1
      · have h1 := Try.memOk_wait hn ‹_›
        exact State.memOk_of_mem rfl h1
      · have h1 := Try.memOk_trap hn ‹_›
        exact State.memOk_of_mem rfl h1

theorem execCopyStart_memOk {s : State} (q : Nat) (h : s.memOk = true) : Result.memOk (execCopyStart q s) = true := by
  unfold execCopyStart
  dsimp only
  split
  · exact State.memOk_startQueued _ _ _ _ _ _ h
  · split
    · exact h
    · split
      · split
        · exact Res.finish_memOk (State.memOk_startCopy _ _ _ (State.memOk_of_mem rfl h))
        · exact h
      · exact h

/-! ### The end of copies -/

theorem State.memOk_endCopies {s : State} (core mask : Nat) (h : s.memOk = true) : (s.endCopies core mask).memOk = true := by
  unfold State.endCopies
  dsimp only
  refine State.memOk_foldl (fun s e hs => State.memOk_foldl (fun s c hs => ?_) _ hs) _
    (State.memOk_of_mem (State.foldl_mem (fun _ _ => by rfl) _ _) h)
  split
  · exact State.memOk_foldl (fun _ _ hs => State.memOk_latchPennant _ _ _ hs) _ hs
  · split
    · exact State.memOk_latchPennant _ _ _ hs
    · exact hs

theorem State.memOk_portLatch {s : State} (p : BitVec 32) (c : Nat) (h : s.memOk = true) : (s.portLatch p c).memOk = true :=
  State.memOk_latchPennant _ _ _ h

theorem execRemoteCopyPennantAdd_memOk {s : State} (p : BitVec 32) (v : Word) (ctx : Nat) (h : s.memOk = true) :
    Result.memOk (execRemoteCopyPennantAdd p v ctx s) = true := by
  show State.memOk _ = true
  split
  · exact State.memOk_addPennant _ _ _ h
  · exact State.memOk_portLatch _ _ h

/-! ### Segments -/

theorem State.placeRow_mem {s s1 : State} {die bank row ctx : Nat} {b : Bool} (e : s.placeRow die bank row ctx = some (s1, b)) :
    s1.mem = s.mem := by
  unfold State.placeRow at e
  extract_lets rs put instead at e
  have hput : ∀ u s1, put u = some s1 → s1.mem = u.mem := fun u s1 e => by
    obtain ⟨_, _, rfl⟩ := Option.map_eq_some_iff.1 e
    rfl
  have hins : ∀ v, instead v = some (s1, b) → s1.mem = s.mem := fun v e => by
    obtain ⟨_, _, e⟩ := Option.bind_eq_some_iff.1 e
    obtain ⟨_, he, e⟩ := Option.map_eq_some_iff.1 e
    have hm := hput _ _ he
    cases e
    exact hm
  clear_value put instead
  split at e
  · exact hins _ e
  · split at e
    · obtain ⟨_, he, e⟩ := Option.map_eq_some_iff.1 e
      cases e
      exact hput _ _ he
    · exact hins _ e

theorem State.segUnit_mem (s : State) (op : SegOp) (ctx pa : Nat) : (s.segUnit op ctx pa).1.mem = s.mem := by
  unfold State.segUnit
  dsimp only
  split
  · rfl
  · split
    · split
      · exact State.placeRow_mem ‹_›
      · rfl
    · rfl
    · split
      · exact (State.setPromo_mem _ _ _ _).trans (State.placeRow_mem ‹_›)
      · rfl
    · split <;> rfl
    · rfl
    · split
      · rfl
      · split <;> rfl
    · rfl
    · split <;> rfl

theorem State.memOk_segReach {s : State} (a : Word) (h : s.memOk = true) : (s.segReach a).memOk = true := by
  unfold State.segReach
  dsimp only
  split
  · exact h
  · refine Try.memOk_bind (State.memOk_find _ _ _ h) fun s1 t h1 => ?_
    split
    · exact h1
    · split <;> exact h1

theorem State.memOk_segUnits {s : State} (op : SegOp) (a : Word) (sum n : Nat) (h : s.memOk = true) :
    (s.segUnits op a sum n).memOk = true := by
  induction n generalizing s a sum with
  | zero => exact h
  | succ n ih =>
    exact Try.memOk_bind (State.memOk_segReach _ h) fun s1 t h1 => ih _ _ (State.memOk_of_mem (State.segUnit_mem _ _ _ _) h1)

theorem State.memOk_segAll {s : State} (op : SegOp) (a : Word) (n : Nat) (h : s.memOk = true) : (s.segAll op a n).memOk = true := by
  unfold State.segAll
  split
  · exact h
  · exact State.memOk_segUnits _ _ _ _ h

theorem segOp_memOk {s : State} (op : SegOp) (g : BitVec 7) (x y z : BitVec 6) (h : s.memOk = true) :
    Result.memOk (segOp op g x y z s) = true :=
  slotOp_keeps h fun s hs => by
    dsimp only
    split
    · exact hs
    · exact Try.memOk_res (State.memOk_segAll _ _ _ hs) fun s1 w h1 =>
        State.memOk_of_mem (State.setFlight_mem _ _) (State.memOk_awaitS _ _ _ h1)

theorem execSegmentUnitsComplete_memOk {s : State} (q : Nat) (h : s.memOk = true) :
    Result.memOk (execSegmentUnitsComplete q s) = true := by
  show State.memOk _ = true
  split
  · exact State.memOk_of_mem (State.setSeq_mem _ _ _) h
  · exact h

theorem execSegQuery_memOk {s : State} (g : BitVec 7) (x y : BitVec 6) (h : s.memOk = true) :
    Result.memOk (execSegQuery g x y s) = true :=
  slotOp_keeps h fun _ hs => Try.memOk_res (State.memOk_segReach _ hs) fun _ _ h1 => State.memOk_awaitS _ _ _ h1

/-! ### Commands and the choice of a context -/

/-- A command keeps the form of memory when its body does. -/
theorem runCommand_keeps {f : Nat} {mine : Option (State → Nat → Bool)} {range : Bool} {body : State → Reply} {s : State}
    (h : s.memOk = true) (hb : (body s).memOk = true) : Result.memOk (runCommand f mine range body s) = true := by
  obtain ⟨t, e⟩ := runCommand_next f mine range body s
  rw [e]
  exact runCommand_memOk hb h e

theorem State.memOk_answerAll {s : State} (w : MailWait) (st : Nat) (h : s.memOk = true) : (s.answerAll w st).memOk = true :=
  State.memOk_foldl (fun _ _ hs => State.memOk_respond _ _ _ hs) _ h

@[simp] theorem State.visit_mem (s : State) (os : List Nat) (o : Option Nat) (k : Nat) : (s.visit os o k).1.mem = s.mem := by
  induction k generalizing s o with
  | zero => rfl
  | succ k ih =>
    unfold State.visit
    split
    · rfl
    · dsimp only
      split
      · rfl
      · exact (ih _ _).trans (State.setOwner_mem _ _ _)

@[simp] theorem State.choose_mem (s : State) (ws : List Work) : (s.choose ws).1.mem = s.mem := by
  unfold State.choose
  extract_lets cls here os cur stay
  have hp : (if stay then (s, cur) else s.visit os cur (s.visits os)).1.mem = s.mem := by
    split
    · rfl
    · exact State.visit_mem _ _ _ _
  clear_value stay cur os
  generalize (if stay then (s, cur) else s.visit os cur (s.visits os)) = p at hp ⊢
  obtain ⟨s1, o⟩ := p
  cases o with
  | none => exact hp
  | some o =>
    dsimp only
    split <;> exact hp

theorem State.mem_of_choose {s s1 : State} {ws : List Work} {o : Option Work} (e : s.choose ws = (s1, o)) : s1.mem = s.mem := by
  have := State.choose_mem s ws
  rwa [e] at this

@[simp] theorem State.requestRung_mem (s : State) (gh a b : Nat) : (s.requestRung gh a b).mem = s.mem := by
  unfold State.requestRung
  dsimp only
  split
  · rfl
  · exact (State.foldl_mem (fun _ _ => by rfl) _ _).trans (State.setGroup_mem _ _ _)

@[simp] theorem State.requestOwn_mem (s : State) (gh : Nat) : (s.requestOwn gh).mem = s.mem := State.requestRung_mem _ _ _ _

@[simp] theorem State.beginLoad_mem (s : State) (gh ctx cls : Nat) : (s.beginLoad gh ctx cls).mem = s.mem := rfl

@[simp] theorem State.choseFor_mem (s : State) (gh : Nat) (g : Group) (ctx cls : Nat) : (s.choseFor gh g ctx cls).mem = s.mem := rfl

@[simp] theorem State.chooseCtx_mem (s : State) (ctx cls : Nat) : (s.chooseCtx ctx cls).mem = s.mem := by
  refine State.foldl_mem (fun s e => ?_) _ _
  dsimp only
  (repeat' split) <;> simp

@[simp] theorem State.decideLoaded_mem (s : State) (gh : Nat) (g : Group) (ws : List Work) : (s.decideLoaded gh g ws).mem = s.mem := by
  unfold State.decideLoaded
  dsimp only
  split
  · (repeat' split) <;> simp
  · split
    · have h1 := State.mem_of_choose ‹_›
      split <;> simp [h1]
    · exact State.mem_of_choose ‹_›

theorem execSchedDecision_memOk {s : State} (gh : Nat) (h : s.memOk = true) : Result.memOk (execSchedDecision gh s) = true := by
  unfold execSchedDecision
  split
  · exact h
  · extract_lets u g ahead ws
    have hu : u.memOk = true := State.memOk_of_mem (s := s) rfl h
    clear_value ws ahead g u
    refine State.memOk_of_mem (s := u) ?_ hu
    split
    · split
      · split <;> simp
      · split
        · have h1 := State.mem_of_choose ‹_›
          simp [h1]
        · exact State.mem_of_choose ‹_›
    · split <;> simp

theorem execPreemptRequest_memOk {s : State} (gh : Nat) (h : s.memOk = true) : Result.memOk (execPreemptRequest gh s) = true := by
  refine State.memOk_of_mem (s := s) ?_ h
  split <;> simp

end Sys2Proof.Machine
end

section
/-! PROOFS. The canonical form of memory: saves, loads and teardowns. -/

namespace Sys2Proof.Machine

/-! ### Saves and loads -/

theorem State.memOk_runsGate {s s1 : State} {rs : List (Nat × Nat)} {evs : List Instr} (h : s.memOk = true)
    (e : s.runsGate rs = some (s1, evs)) : s1.memOk = true := by
  obtain ⟨_, _, he⟩ := List.exists_of_findSome?_eq_some e
  exact State.memOk_rangeGate h he

theorem execSaveStart_memOk {s : State} (gh : Nat) (h : s.memOk = true) : Result.memOk (execSaveStart gh s) = true := by
  show State.memOk _ = true
  split
  · exact State.memOk_of_mem (State.setGroup_mem _ _ _) h
  · exact h

theorem State.memOk_haltSeq {s : State} (q : Nat) (h : s.memOk = true) : (s.haltSeq q).memOk = true := by
  unfold State.haltSeq
  split
  · exact State.memOk_of_mem (State.setSeq_mem _ _ _) (State.memOk_withdraw q h)
  · exact h

theorem execGraceTimerExpire_memOk {s : State} (gh : Nat) (h : s.memOk = true) :
    Result.memOk (execGraceTimerExpire gh s) = true := by
  show State.memOk _ = true
  split
  · exact State.memOk_of_mem (State.setGroup_mem _ _ _) (State.memOk_foldl (fun _ _ hs => State.memOk_haltSeq _ hs) _ h)
  · exact h

@[simp] theorem State.moveTiles_mem (s : State) (q : Nat) : (s.moveTiles q).mem = s.mem := rfl

theorem State.memOk_putPreempted {s : State} (gh rung ctx : Nat) (h : s.memOk = true) : (s.putPreempted gh rung ctx).memOk = true :=
  State.memOk_putStatus _ _ _ _ _ _ _ h

theorem State.memOk_finishSave {s : State} (gh : Nat) (h : s.memOk = true) : (s.finishSave gh).memOk = true := by
  unfold State.finishSave
  extract_lets g ctx core stopped s1 s2 seqs s3 base img c s4 s5 core5 s6 o s7 s8 still c8 s9
  have h1 : s1.memOk = true := by
    show State.memOk (if _ then _ else _) = true
    split
    · exact State.memOk_putPreempted _ _ _ h
    · exact h
  have h2 : s2.memOk = true := State.memOk_of_mem (State.foldl_mem (fun _ _ => State.moveTiles_mem _ _) _ _) h1
  have h3 : s3.memOk = true := by
    unfold s3
    split
    · exact State.memOk_of_mem (State.count_mem _ _ _ _) (State.memOk_writeArea _ _ _ _ _ h2)
    · exact h2
  have h4 : s4.memOk = true := State.memOk_of_mem (State.setCtx_mem _ _ _) h3
  clear_value s4 c
  have h5 : s5.memOk = true := State.memOk_of_mem (s := s4) rfl h4
  clear_value s5
  have h8 : s8.memOk = true := State.memOk_of_mem (State.setGroup_mem _ _ _)
    (State.memOk_of_mem (State.setOwner_mem _ _ _) (State.memOk_of_mem (State.setCore_mem _ _ _) h5))
  clear_value c8 s8
  refine State.memOk_answerAll _ _ ?_
  show State.memOk (if _ then _ else _) = true
  split
  · exact h8
  · exact State.memOk_of_mem (State.setCtx_mem _ _ _) h8

theorem execContextSaveComplete_memOk {s : State} (gh : Nat) (h : s.memOk = true) :
    Result.memOk (execContextSaveComplete gh s) = true := by
  unfold execContextSaveComplete
  extract_lets g evs area
  clear_value area evs
  split
  · exact h
  · split
    · exact State.memOk_stallOn _ h
    · split
      · rename_i e
        refine State.memOk_stallOn _ ?_
        rcases orElse_some e with e | e
        · exact State.memOk_relGate h e
        · exact State.memOk_runsGate h e
      · exact State.memOk_finishSave _ (State.memOk_release _ _ _ h)

@[simp] theorem State.migrate_mem (s : State) (ctx : Nat) : (s.migrate ctx).mem = s.mem := by
  unfold State.migrate
  split <;> rfl

theorem State.memOk_bumpAll {s : State} (c : Nat) (h : s.memOk = true) : (s.bumpAll c).memOk = true :=
  State.memOk_bump _ _ (State.memOk_bump _ _ (State.memOk_bump _ _ (State.memOk_bump _ _ h)))

theorem execContextLoadComplete_memOk {s : State} (gh : Nat) (h : s.memOk = true) :
    Result.memOk (execContextLoadComplete gh s) = true := by
  unfold execContextLoadComplete
  extract_lets g s0 c img core s1 s2 s2a s3 s4 s5
  split
  · exact h
  · have h0 : s0.memOk = true := State.memOk_of_mem (State.migrate_mem _ _) h
    have h2 : s2.memOk = true := State.memOk_of_mem (State.foldl_mem (fun _ _ => by rfl) _ _) (State.memOk_of_mem (s := s0) (t := s1) rfl h0)
    have h3 : s3.memOk = true := by
      show State.memOk (if _ then _ else _) = true
      split
      · exact State.memOk_of_mem (State.count_mem _ _ _ _) (State.memOk_bumpAll _ (State.memOk_of_mem rfl h2))
      · exact State.memOk_of_mem rfl h2
    have h5 : s5.memOk = true := State.memOk_of_mem (State.workEnded_mem _ _)
      (State.memOk_retryRecords _ (State.memOk_of_mem (s := s3) (t := s4) rfl h3))
    clear_value s5
    refine State.memOk_of_mem (s := s5) ?_ h5
    split
    · exact State.requestRung_mem _ _ _ _
    · split
      · exact State.requestOwn_mem _ _
      · rfl

/-! ### The kill -/

theorem State.memOk_dropFor {s : State} (ctx gh : Nat) (p : Port) (h : s.memOk = true) : (s.dropFor ctx gh p).memOk = true := by
  unfold State.dropFor
  dsimp only
  refine Try.memOk_bind (State.memOk_paLoad _ _ (State.memOk_of_mem rfl h)) fun s1 t h1 => ?_
  refine Try.memOk_bind ?_ fun s2 _ h2 => State.memOk_of_mem rfl h2
  split
  · split
    · exact h1
    · exact State.memOk_dropOpen _ _ h1
  · exact h1

theorem State.memOk_dropAll {s : State} (ctx : Nat) (ds : List (Nat × Port)) (h : s.memOk = true) : (s.dropAll ctx ds).1.memOk = true := by
  induction ds generalizing s with
  | nil => exact State.memOk_of_mem (State.setCtx_mem _ _ _) h
  | cons d t ih =>
    have hd := State.memOk_dropFor ctx d.1 d.2 h
    unfold State.dropAll
    split
    · exact ih (Try.memOk_ok hd ‹_›)
    · exact ih h
    · exact State.memOk_same rfl rfl rfl h

theorem State.memOk_killSeq {s : State} (ctx gh q : Nat) (h : s.memOk = true) : (s.killSeq ctx gh q).memOk = true := by
  have h1 := fun c : Ctx => State.memOk_withdraw q (State.memOk_of_mem (State.setCtx_mem s ctx c) h)
  exact State.memOk_of_mem rfl (h1 _)

theorem State.memOk_killGroup {s : State} (ctx gh : Nat) (h : s.memOk = true) : (s.killGroup ctx gh).memOk = true := by
  unfold State.killGroup
  dsimp only
  split
  · exact State.memOk_answerAll _ _ (State.memOk_of_mem (State.setGroup_mem _ _ _) (State.memOk_pushL1 _ _
      (State.memOk_endCopies _ _ (State.memOk_foldl (fun _ _ hs => State.memOk_killSeq _ _ _ hs) _ h))))
  · exact h

@[simp] theorem State.killQueues_mem (s : State) (ctx : Nat) (b : State) : (s.killQueues ctx b).mem = s.mem :=
  (State.workEnded_mem _ _).trans (State.foldl_mem (fun _ _ => State.freeDrained_mem _ _) _ _)

theorem State.memOk_beginKill {s : State} (ctx : Nat) (d : Bool) (h : s.memOk = true) : (s.beginKill ctx d).memOk = true := by
  unfold State.beginKill
  extract_lets s1 s2 c s3
  have h1 : s1.memOk = true := State.memOk_foldl (fun _ _ hs => State.memOk_killGroup _ _ hs) _ h
  have h2 : s2.memOk = true := State.memOk_of_mem (State.killQueues_mem _ _ _) h1
  exact State.memOk_of_mem (State.setCtx_mem _ _ _) (State.memOk_of_mem (s := s2) (t := s3) rfl h2)

theorem execKillTimerExpire_memOk {s : State} (gh : Nat) (h : s.memOk = true) : Result.memOk (execKillTimerExpire gh s) = true := by
  show State.memOk _ = true
  split
  · exact State.memOk_beginKill _ _ h
  · exact h

/-! ### Teardown -/

@[simp] theorem State.startScrub_mem (s : State) (ctx : Nat) (rs : List (Nat × Nat)) : (s.startScrub ctx rs).mem = s.mem :=
  State.foldl_mem (fun _ _ => by rfl) _ _

theorem State.memOk_dropLines {s : State} (ctx : Nat) (h : s.memOk = true) : (s.dropLines ctx).memOk = true := by
  unfold State.dropLines
  dsimp only
  refine State.memOk_foldl (fun s e hs => State.memOk_foldl (fun s l hs => ?_) _ hs) _
    (State.memOk_foldl (fun s e hs => State.memOk_foldl (fun s l hs => ?_) _
      (State.memOk_foldl (fun s c hs => ?_) _ hs)) _ (State.memOk_foldl (fun s e hs => ?_) _ h))
  · split
    · exact State.memOk_of_mem (State.dropMsc_mem _ _ _) hs
    · exact hs
  · split
    · exact State.memOk_putOut _ _ _ hs
    · exact hs
  · split
    · exact State.memOk_putOutCopy _ _ hs
    · exact hs
  · exact State.memOk_of_mem (State.setCore_mem _ _ _) (State.memOk_pushL1 _ _ hs)

theorem State.memOk_beginTeardown {s : State} (ctx : Nat) (h : s.memOk = true) : (s.beginTeardown ctx).memOk = true := by
  unfold State.beginTeardown
  extract_lets c mast s1 s2 runs all s3 mast4 s4
  have h1 : s1.memOk = true := by
    show State.memOk (if _ then _ else _) = true
    split
    · exact h
    · exact State.memOk_of_mem rfl h
  have h2 : s2.memOk = true := State.memOk_dropLines _ h1
  have h3 : s3.memOk = true := State.memOk_of_mem (State.setCtx_mem _ _ _) (State.memOk_of_mem (State.startScrub_mem _ _ _) h2)
  clear_value s3
  exact State.memOk_answerAll _ _ (State.memOk_of_mem (s := s3) (t := s4) rfl h3)

theorem execKillComplete_memOk {s : State} (ctx : Nat) (h : s.memOk = true) : Result.memOk (execKillComplete ctx s) = true := by
  have hd := fun ds => State.memOk_dropAll ctx ds h
  unfold execKillComplete
  dsimp only
  split
  · exact h
  · split
    · have h0 := State.memOk_fst (hd _) ‹_›
      refine State.memOk_answerAll _ _ ?_
      split
      · exact State.memOk_beginTeardown _ (State.memOk_of_mem (State.setCtx_mem _ _ _) h0)
      · exact State.memOk_of_mem (State.setCtx_mem _ _ _) h0
    · exact State.memOk_stallOn _ (State.memOk_fst (hd _) ‹_›)

theorem State.memOk_scrubCtx {s : State} (ctx : Nat) (c : Ctx) (rs : List (Nat × Nat)) (h : s.memOk = true) :
    (s.scrubCtx ctx c rs).memOk = true := by
  have h0 := State.memOk_foldl (fun s (r : Nat × Nat) hs => State.memOk_scrubRange r.1 (65536 * r.2) hs) rs h
  have h1 := State.memOk_foldl (fun s (w : Nat × Nat × Nat) hs => State.memOk_zeroPens w.1 w.2.1 (w.2.1 + w.2.2) hs) c.wins h0
  exact State.memOk_of_mem rfl h1

theorem execContextScrubComplete_memOk {s : State} (ctx : Nat) (h : s.memOk = true) :
    Result.memOk (execContextScrubComplete ctx s) = true := by
  unfold execContextScrubComplete
  dsimp only
  split
  · exact h
  · split
    · exact State.memOk_stallOn _ (State.memOk_runsGate h ‹_›)
    · have h1 := State.memOk_scrubCtx ctx (s.ctx ctx) (s.ctx ctx).scrubList h
      exact State.memOk_of_mem rfl h1

/-! ### The context commands -/

theorem execCcreate_memOk {s : State} (f : Nat) (ctx owner fring flog notify grace kill ksl : Word) (h : s.memOk = true) :
    Result.memOk (execCcreate f ctx owner fring flog notify grace kill ksl s) = true :=
  runCommand_keeps h (Reply.memOk_guard h (State.memOk_of_mem (State.setCtx_mem _ _ _) h))

theorem execCset_memOk {s : State} (f : Nat) (ctx grace kill : Word) (h : s.memOk = true) :
    Result.memOk (execCset f ctx grace kill s) = true :=
  runCommand_keeps h (Reply.memOk_guard h (State.memOk_of_mem (State.setCtx_mem _ _ _) h))

theorem execCarea_memOk {s : State} (f : Nat) (ctx gh addr : Word) (h : s.memOk = true) :
    Result.memOk (execCarea f ctx gh addr s) = true :=
  runCommand_keeps h (Reply.memOk_guard h (State.memOk_of_mem (State.setCtx_mem _ _ _) h))

theorem execCwin_memOk {s : State} (f : Nat) (ctx die base count : Word) (h : s.memOk = true) :
    Result.memOk (execCwin f ctx die base count s) = true := by
  refine runCommand_keeps h (Reply.memOk_guard h (State.memOk_of_mem (State.workEnded_mem _ _) (State.memOk_of_mem (State.setCtx_mem _ _ _) ?_)))
  split
  · exact State.memOk_zeroPens _ _ _ (State.memOk_zeroPens _ _ _ h)
  · exact State.memOk_zeroPens _ _ _ h

theorem execClimit_memOk {s : State} (f : Nat) (ctx kind lines : Word) (h : s.memOk = true) :
    Result.memOk (execClimit f ctx kind lines s) = true :=
  runCommand_keeps h (Reply.memOk_guard h (State.memOk_of_mem (State.setCtx_mem _ _ _) h))

theorem execCpreempt_memOk {s : State} (f : Nat) (ctx gh grace : Word) (h : s.memOk = true) :
    Result.memOk (execCpreempt f ctx gh grace s) = true := by
  refine runCommand_keeps h (Reply.memOk_guard h ?_)
  split
  · exact h
  · split
    · exact State.memOk_of_mem (State.requestRung_mem _ _ _ _) h
    · split
      · exact State.memOk_of_mem (State.setGroup_mem _ _ _) h
      · exact h

theorem execCresume_memOk {s : State} (f : Nat) (ctx seq pc : Word) (h : s.memOk = true) :
    Result.memOk (execCresume f ctx seq pc s) = true := by
  refine runCommand_keeps h ?_
  dsimp only
  split
  · exact h
  · split
    · exact Reply.memOk_guard h (State.memOk_of_mem (State.setSeq_mem _ _ _) h)
    · split
      · exact Reply.memOk_guard h (State.memOk_of_mem (State.setSeq_mem _ _ _) h)
      · split
        · exact h
        · exact Reply.memOk_guard h (State.memOk_of_mem (State.setCtx_mem _ _ _) h)

theorem execCkill_memOk {s : State} (f : Nat) (ctx : Word) (h : s.memOk = true) : Result.memOk (execCkill f ctx s) = true := by
  refine runCommand_keeps h (Reply.memOk_guard h ?_)
  show State.memOk (if _ then _ else _) = true
  split
  · exact h
  · exact State.memOk_beginKill _ _ h

theorem execCkey_memOk {s : State} (f : Nat) (slot keys : Word) (h : s.memOk = true) : Result.memOk (execCkey f slot keys s) = true := by
  refine runCommand_keeps h (Reply.memOk_guard h ?_)
  split
  · exact State.memOk_of_mem rfl h
  · exact h

theorem execCdestroy_memOk {s : State} (f : Nat) (ctx list count : Word) (h : s.memOk = true) :
    Result.memOk (execCdestroy f ctx list count s) = true := by
  unfold execCdestroy
  extract_lets runs
  refine runCommand_keeps h (Reply.memOk_guard h ?_)
  have hc := fun c : Ctx => State.memOk_of_mem (State.setCtx_mem s (num ctx) c) h
  dsimp only
  split
  · split
    · exact State.memOk_beginTeardown _ (State.memOk_of_mem (State.killQueues_mem _ _ _) (State.memOk_dropAll _ _ (hc _)))
    · exact State.memOk_same rfl rfl rfl h
  · exact State.memOk_of_mem (State.setCtx_mem _ _ _) (hc _)
  · exact State.memOk_beginKill _ _ (hc _)

theorem execCread_memOk {s : State} (f : Nat) (ctx : Word) (h : s.memOk = true) : Result.memOk (execCread f ctx s) = true :=
  runCommand_keeps h h

end Sys2Proof.Machine
end

section
/-! PROOFS. The canonical form of memory: groups, queues, and the home of a line. -/

namespace Sys2Proof.Machine

/-! ### Groups, queues and owners -/

@[simp] theorem State.settleCtx_mem (s : State) (ctx : Nat) : (s.settleCtx ctx).mem = s.mem := by
  unfold State.settleCtx
  split <;> rfl

@[simp] theorem State.settleMove_mem (s : State) (ctx : Nat) : (s.settleMove ctx).mem = s.mem := by
  unfold State.settleMove
  dsimp only
  split <;> simp

theorem State.memOk_scrubGroup {s : State} (gh : Nat) (h : s.memOk = true) : (s.scrubGroup gh).memOk = true := by
  unfold State.scrubGroup
  extract_lets core s1 s2 s3 c
  have h2 : s2.memOk = true := State.memOk_foldl (fun _ _ hs => State.memOk_withdraw _ hs) _ (State.memOk_endCopies _ _ h)
  exact State.memOk_of_mem (State.setCore_mem _ _ _) (State.memOk_of_mem (s := s2) (t := s3) rfl h2)

@[simp] theorem State.settleClock_mem (s : State) : s.settleClock.mem = s.mem := by
  unfold State.settleClock
  split <;> rfl

theorem execGroupScrubComplete_memOk {s : State} (gh : Nat) (h : s.memOk = true) :
    Result.memOk (execGroupScrubComplete gh s) = true := by
  unfold execGroupScrubComplete
  extract_lets g s1 idle s2 s3
  split
  · exact h
  · have h1 : s1.memOk = true := State.memOk_scrubGroup _ h
    clear_value s1
    have h2 : s2.memOk = true := by
      refine State.memOk_of_mem (s := s1) ?_ h1
      unfold s2
      split
      · rfl
      · split <;> rfl
    have h3 : s3.memOk = true := by
      unfold s3
      split
      · exact State.memOk_answerAll _ _ (State.memOk_of_mem (State.settleClock_mem _) h2)
      · exact h2
    refine State.memOk_of_mem (State.workEnded_mem _ _) ?_
    split
    · exact State.memOk_answerAll _ _ h3
    · exact h3

theorem execGcreate_memOk {s : State} (f : Nat) (core mask owner : Word) (h : s.memOk = true) :
    Result.memOk (execGcreate f core mask owner s) = true :=
  runCommand_keeps h (Reply.memOk_guard h (State.memOk_of_mem (s := s) rfl h))

theorem execGdestroy_memOk {s : State} (f : Nat) (gh : Word) (h : s.memOk = true) : Result.memOk (execGdestroy f gh s) = true := by
  have ended : ∀ t : State, t.mem = s.mem → (t.workEnded s).memOk = true := fun t e =>
    State.memOk_of_mem ((State.workEnded_mem _ _).trans e) h
  refine runCommand_keeps h ?_
  extract_lets k base g
  split
  · exact h
  · exact ended _ (State.setGroup_mem _ _ _)
  · exact ended _ ((State.requestOwn_mem _ _).trans (State.setGroup_mem _ _ _))
  all_goals exact ended _ (State.setGroup_mem _ _ _)

theorem execGbind_memOk {s : State} (f : Nat) (gh ctx : Word) (h : s.memOk = true) : Result.memOk (execGbind f gh ctx s) = true := by
  refine runCommand_keeps h ?_
  dsimp only
  split
  · exact h
  · exact Reply.memOk_guard h (State.memOk_of_mem (State.setGroup_mem _ _ _) h)

theorem execGunbind_memOk {s : State} (f : Nat) (gh ctx : Word) (h : s.memOk = true) :
    Result.memOk (execGunbind f gh ctx s) = true :=
  runCommand_keeps h (Reply.memOk_guard h (State.memOk_of_mem (State.workEnded_mem _ _) (State.memOk_of_mem (State.setGroup_mem _ _ _) h)))

theorem execLend_memOk {s : State} (f : Nat) (gh borrower : Word) (h : s.memOk = true) :
    Result.memOk (execLend f gh borrower s) = true :=
  runCommand_keeps h (Reply.memOk_guard h (State.memOk_of_mem (State.setGroup_mem _ _ _) h))

@[simp] theorem State.recallGroup_mem (s : State) (gh : Nat) : (s.recallGroup gh).mem = s.mem := by
  unfold State.recallGroup
  dsimp only
  split
  · rfl
  · exact (State.setGroup_mem _ _ _).trans (State.requestRung_mem _ _ _ _)

theorem execRecall_memOk {s : State} (f : Nat) (gh : Word) (h : s.memOk = true) : Result.memOk (execRecall f gh s) = true := by
  have ended : ∀ t : State, t.mem = s.mem → (t.workEnded s).memOk = true := fun t e =>
    State.memOk_of_mem ((State.workEnded_mem _ _).trans e) h
  refine runCommand_keeps h ?_
  extract_lets k g
  split
  · exact h
  · split
    · exact ended _ (State.setGroup_mem _ _ _)
    · exact State.memOk_answerAll _ _ (ended _ ((State.settleMove_mem _ _).trans (State.setGroup_mem _ _ _)))
    · exact ended _ (State.recallGroup_mem _ _)
    · exact ended _ (State.recallGroup_mem _ _)
    all_goals exact h

theorem execGread_memOk {s : State} (f : Nat) (gh : Word) (h : s.memOk = true) : Result.memOk (execGread f gh s) = true :=
  runCommand_keeps h h

theorem execQcreate_memOk {s : State} (f : Nat) (n ctx prio ring lsize cpool : Word) (h : s.memOk = true) :
    Result.memOk (execQcreate f n ctx prio ring lsize cpool s) = true :=
  runCommand_keeps h (Reply.memOk_guard h (State.memOk_of_mem (State.setQueue_mem _ _ _) h))

theorem queueCommand_memOk {s : State} (f : Nat) (n : Word) (move : Queue → Option Queue) (h : s.memOk = true) :
    Result.memOk (queueCommand f n move s) = true := by
  refine runCommand_keeps h ?_
  dsimp only
  split
  · exact h
  · exact State.memOk_of_mem (State.workEnded_mem _ _) (State.memOk_of_mem (State.freeDrained_mem _ _)
      (State.memOk_of_mem (State.setQueue_mem _ _ _) h))

theorem execQset_memOk {s : State} (f : Nat) (n prio : Word) (h : s.memOk = true) : Result.memOk (execQset f n prio s) = true :=
  runCommand_keeps h (Reply.memOk_guard h (State.memOk_of_mem (State.setQueue_mem _ _ _) h))

theorem execQread_memOk {s : State} (f : Nat) (n : Word) (h : s.memOk = true) : Result.memOk (execQread f n s) = true :=
  runCommand_keeps h h

theorem execOwnset_memOk {s : State} (f : Nat) (o w : Word) (h : s.memOk = true) : Result.memOk (execOwnset f o w s) = true :=
  runCommand_keeps h (State.memOk_of_mem (State.setOwner_mem _ _ _) h)

theorem execOwnnew_memOk {s : State} (f : Nat) (o vf : Word) (h : s.memOk = true) : Result.memOk (execOwnnew f o vf s) = true :=
  runCommand_keeps h (Reply.memOk_guard h (State.memOk_of_mem (State.setOwner_mem _ _ _) h))

theorem execOwndel_memOk {s : State} (f : Nat) (o : Word) (h : s.memOk = true) : Result.memOk (execOwndel f o s) = true :=
  runCommand_keeps h (Reply.memOk_guard h (State.memOk_of_mem (State.setOwner_mem _ _ _) h))

/-! ### Walks, and requests at the home of a line -/

theorem State.memOk_endWalk {s : State} (die ctx : Nat) (va : Word) (h : s.memOk = true) : (s.endWalk die ctx va).memOk = true := by
  have hw := State.memOk_of_mem (State.walked_mem s die ctx va) h
  unfold State.endWalk
  split
  · exact h
  · split
    · exact State.memOk_meetQuiet _ _ (State.memOk_fst hw ‹_›)
    · exact State.memOk_fst hw ‹_›

theorem execPageWalkComplete_memOk {s : State} (die ctx : Nat) (va : Word) (h : s.memOk = true) :
    Result.memOk (execPageWalkComplete die ctx va s) = true := by
  have h1 := State.memOk_endWalk die ctx va h
  show State.memOk _ = true
  dsimp only
  split
  · exact h
  · refine State.memOk_foldl (fun s w hs => ?_) _ (State.memOk_of_mem (State.setDie_mem _ _ _) h1)
    split
    · exact State.memOk_prefetch _ _ _ _ hs
    · exact hs

theorem State.memOk_atHome {s : State} (l : Nat) (r x : Bool) (ctx : Nat) (h : s.memOk = true) : (s.atHome l r x ctx).1.memOk = true := by
  have h0 : (if r || s.sideBad l then s.meetQuiet l ctx else s).memOk = true := by
    split
    · exact State.memOk_meetQuiet _ _ h
    · exact h
  unfold State.atHome
  dsimp only
  split
  · exact State.memOk_gate h0 ‹_›
  · exact h0

theorem homeRequest_memOk {s : State} (l : Nat) (r x : Bool) (ctx : Nat) {f : State → State} (h : s.memOk = true)
    (hf : ∀ s, s.memOk = true → (f s).memOk = true) : Result.memOk (homeRequest l r x ctx f s) = true := by
  have h0 := State.memOk_atHome l r x ctx h
  unfold homeRequest
  split
  · have h1 := State.memOk_fst h0 ‹_›
    show State.memOk _ = true
    split
    · exact h1
    · exact hf _ h1
  · exact State.memOk_fst h0 ‹_›

theorem execCacheFill_memOk {s : State} (k : CacheKind) (inst ctx line : Nat) (h : s.memOk = true) :
    Result.memOk (execCacheFill k inst ctx line s) = true :=
  homeRequest_memOk _ _ _ _ h fun s hs => by
    cases k with
    | l1 => exact State.memOk_l1Fill _ _ _ _ hs
    | l2 => exact State.memOk_l2Read _ _ _ hs
    | msc => exact State.memOk_of_mem (State.mscTouch_mem ..) hs

theorem execHomeRds_memOk {s : State} (l cl : Nat) (h : s.memOk = true) : Result.memOk (execHomeRds l cl s) = true :=
  homeRequest_memOk _ _ _ _ h fun s hs => by
    split
    · exact hs
    · exact State.memOk_l2Read _ _ _ hs

theorem execHomeRdx_memOk {s : State} (l cl : Nat) (h : s.memOk = true) : Result.memOk (execHomeRdx l cl s) = true :=
  homeRequest_memOk _ _ _ _ h fun _ hs => State.memOk_own _ _ _ hs

theorem execHomeHal_memOk {s : State} (l : Nat) (h : s.memOk = true) : Result.memOk (execHomeHal l s) = true :=
  homeRequest_memOk _ _ _ _ h fun _ hs => State.memOk_homeHal _ hs

theorem State.memOk_lineOut {s : State} (l cl : Nat) (h : s.memOk = true) : (s.lineOut l cl).memOk = true := by
  unfold State.lineOut
  split
  · exact h
  · split
    · exact State.memOk_evictL2 _ _ h
    · split
      · refine State.memOk_homeWb _ _ ?_
        split
        · exact State.memOk_ownPend _ _ _ h
        · exact h
      · exact h

theorem wbRequest_memOk {s : State} (l cl : Nat) (h : s.memOk = true) : Result.memOk (wbRequest l cl s) = true := by
  unfold wbRequest
  split
  · show State.memOk _ = true
    split
    · exact State.memOk_evictL2 _ _ h
    · exact h
  · exact homeRequest_memOk _ _ _ _ h fun _ hs => State.memOk_lineOut _ _ hs

theorem execEngineHomeRead_memOk {s : State} (l : Nat) (h : s.memOk = true) : Result.memOk (execEngineHomeRead l s) = true :=
  homeRequest_memOk _ _ _ _ h fun _ hs => hs

theorem execEngineHomeWrite_memOk {s : State} (l : Nat) (d : BitVec 512) (m : BitVec 64) (h : s.memOk = true) :
    Result.memOk (execEngineHomeWrite l d m s) = true :=
  homeRequest_memOk _ _ _ _ h fun _ hs => State.memOk_engLine _ _ _ hs

theorem execSnoopInvalidate_memOk {s : State} (cl l : Nat) (h : s.memOk = true) : Result.memOk (execSnoopInvalidate cl l s) = true := by
  unfold execSnoopInvalidate
  split
  · exact h
  · split
    · exact wbRequest_memOk _ _ h
    · split
      · exact State.memOk_of_mem (State.dropL2_mem _ _ _) h
      · exact State.memOk_of_mem (State.setL2_mem _ _ _ _) h

/-! ### Page commands -/

theorem State.memOk_quiesce {s : State} (sel : Nat → Bool) (m : Bool) (h : s.memOk = true) : (s.quiesce sel m).memOk = true := by
  unfold State.quiesce
  extract_lets gs evs
  clear_value evs
  split
  · exact h
  · refine tryList_memOk (fun s e hs => ?_) _ h
    split
    · exact State.memOk_relGate hs ‹_›
    · exact State.memOk_release _ _ _ hs

theorem State.memOk_afterQuiet {s : State} (sel : Nat → Bool) {f : State → Reply} (m : Bool) (h : s.memOk = true)
    (hf : ∀ s, s.memOk = true → (f s).memOk = true) : (s.afterQuiet sel f m).memOk = true := by
  have hq := State.memOk_quiesce sel m h
  unfold State.afterQuiet
  split
  · exact hf _ (Try.memOk_ok hq ‹_›)
  · exact Try.memOk_wait hq ‹_›
  · exact Try.memOk_trap hq ‹_›

theorem State.memOk_afterGates {s : State} (ls : List Nat) {f : State → Reply} (h : s.memOk = true)
    (hf : (f s).memOk = true) : (s.afterGates ls f).memOk = true := by
  unfold State.afterGates
  split
  · exact h
  · split
    · rename_i e
      obtain ⟨_, _, e⟩ := List.exists_of_findSome?_eq_some e
      exact State.memOk_gate h e
    · exact hf

@[simp] theorem State.dropTlb_mem (s : State) (p : TlbEnt → Bool) : (s.dropTlb p).mem = s.mem := rfl
@[simp] theorem State.demoteIn_mem (s : State) (pa n : Nat) : (s.demoteIn pa n).mem = s.mem := rfl

theorem execVmroot_memOk {s : State} (f : Nat) (ctx r1 r2 : Word) (h : s.memOk = true) : Result.memOk (execVmroot f ctx r1 r2 s) = true :=
  runCommand_keeps h (Reply.memOk_guard h (State.memOk_of_mem (State.setCtx_mem _ _ _) h))

theorem execS2map_memOk {s : State} (f : Nat) (ctx ipa pa size r w x nc ksl : Word) (h : s.memOk = true) :
    Result.memOk (execS2map f ctx ipa pa size r w x nc ksl s) = true := by
  unfold execS2map
  extract_lets n
  refine runCommand_keeps h ?_
  extract_lets c bad
  clear_value bad
  split
  · exact h
  · exact Reply.memOk_guard h (State.memOk_afterGates _ h (State.memOk_entrySet _ _ h))

theorem leafCommand_memOk {s : State} (f : Nat) (ctx ipa size : Word) (new : Word → Word) (h : s.memOk = true) :
    Result.memOk (leafCommand f ctx ipa size new s) = true := by
  refine runCommand_keeps h ?_
  dsimp only
  split
  · exact h
  · refine Reply.memOk_guard h (State.memOk_afterQuiet _ _ h fun s hs => State.memOk_afterGates _ hs ?_)
    exact State.memOk_of_mem (State.dropTlb_mem _ _) (State.memOk_foldl (fun _ _ hs => State.memOk_entrySet _ _ hs) _ hs)

theorem execTlbinv_memOk {s : State} (f : Nat) (ctx st base len : Word) (h : s.memOk = true) :
    Result.memOk (execTlbinv f ctx st base len s) = true :=
  runCommand_keeps h (State.memOk_afterQuiet _ _ h fun _ hs => State.memOk_of_mem (State.dropTlb_mem _ _) hs)

theorem execFrset_memOk {s : State} (f : Nat) (stack size : Word) (h : s.memOk = true) : Result.memOk (execFrset f stack size s) = true := by
  unfold execFrset
  extract_lets d new
  refine runCommand_keeps h ?_
  extract_lets x joins pinned loaded lo hi
  clear_value pinned loaded
  refine Reply.memOk_guard h ?_
  split
  · exact State.memOk_rangeGate h ‹_›
  · exact State.memOk_scrubRange _ _ (State.memOk_of_mem (State.setDie_mem _ _ _) h)

theorem execSegquota_memOk {s : State} (f : Nat) (ctx quota : Word) (h : s.memOk = true) : Result.memOk (execSegquota f ctx quota s) = true :=
  runCommand_keeps h (Reply.memOk_guard h (State.memOk_of_mem (State.setCtx_mem _ _ _) h))

theorem execMscset_memOk {s : State} (f : Nat) (die vd cls mask rp wp ap : Word) (h : s.memOk = true) :
    Result.memOk (execMscset f die vd cls mask rp wp ap s) = true :=
  runCommand_keeps h (State.memOk_of_mem (State.foldl_mem (fun _ _ => by rfl) _ _) h)

theorem execHmove_memOk {s : State} (f : Nat) (leaf pa : Word) (h : s.memOk = true) : Result.memOk (execHmove f leaf pa s) = true := by
  refine runCommand_keeps h ?_
  split
  · exact h
  · extract_lets old new who out
    clear_value out
    refine Reply.memOk_guard h (State.memOk_afterQuiet _ _ h fun s hs => State.memOk_afterGates _ hs ?_)
    extract_lets moved s1 e e1 s2
    have h1 : s1.memOk = true := State.memOk_movePage _ _ _ (State.memOk_of_mem (State.demoteIn_mem _ _ _) hs)
    have h2 : s2.memOk = true := State.memOk_of_mem (State.dropTlb_mem _ _) (State.memOk_entrySet _ _ h1)
    clear_value s2
    exact State.memOk_of_mem (s := s2) rfl h2

end Sys2Proof.Machine
end

section
/-! PROOFS. The canonical form of memory: the host, the links and Masthead. -/

namespace Sys2Proof.Machine

/-! ### The host and the links -/

@[simp] theorem State.answer_mem (s : State) (a : HostAnswer) : (s.answer a).mem = s.mem := rfl
@[simp] theorem State.holdHost_mem (s : State) (i : Instr) : (s.holdHost i).mem = s.mem := rfl
@[simp] theorem State.takeHost_mem (s : State) (i : Instr) : (s.takeHost i).mem = s.mem := rfl
@[simp] theorem State.refuseHost_mem (s : State) (pa : Nat) : (s.refuseHost pa).mem = s.mem := rfl

theorem State.memOk_hostRd {s : State} (l vd : Nat) (h : s.memOk = true) : (s.hostRd l vd).memOk = true := by
  unfold State.hostRd
  extract_lets x d s1 mem s2
  have h1 : s1.memOk = true := by
    unfold s1
    split
    · exact h
    · exact State.memOk_setSide _ _ h
  have h2 : s2.memOk = true := State.memOk_same (s := s1) rfl rfl rfl h1
  exact State.memOk_of_mem (State.answer_mem _ _) (State.memOk_of_mem (State.mscAccess_mem ..) h2)

theorem execHostMemRd_memOk {s : State} (dec : Nat) (a : Word) (h : s.memOk = true) : Result.memOk (execHostMemRd dec a s) = true := by
  unfold execHostMemRd
  extract_lets i u
  have hu : u.memOk = true := State.memOk_of_mem (State.takeHost_mem _ _) h
  clear_value u
  split
  · exact hu
  · split
    · exact State.memOk_of_mem (s := u) rfl hu
    · extract_lets l
      have hh := State.memOk_atHome l false false 0 hu
      split
      · exact State.memOk_of_mem (State.holdHost_mem _ _) (State.memOk_fst hh ‹_›)
      · have he := fun k => State.memOk_homeErr l { cls := pcLink } (State.memOk_rekey l k (State.memOk_fst hh ‹_›))
        split
        · exact State.memOk_of_mem (State.answer_mem _ _) (State.memOk_fst (he _) ‹_›)
        · exact State.memOk_hostRd _ _ (State.memOk_fst (he _) ‹_›)

theorem hostWrite_memOk {s : State} (i : Instr) (dec : Nat) (a : Word) (d : BitVec 512) (m : BitVec 64) (h : s.memOk = true) :
    Result.memOk (hostWrite i dec a d m s) = true := by
  unfold hostWrite
  extract_lets u
  have hu : u.memOk = true := State.memOk_of_mem (State.takeHost_mem _ _) h
  clear_value u
  split
  · exact hu
  · split
    · exact State.memOk_of_mem (State.refuseHost_mem _ _) hu
    · extract_lets l
      have hh := fun r => State.memOk_atHome l r true 0 hu
      split
      · exact State.memOk_of_mem (State.holdHost_mem _ _) (State.memOk_fst (hh _) ‹_›)
      · exact State.memOk_engLine _ _ _ (State.memOk_of_mem (State.mscAccess_mem ..)
          (State.memOk_rekey _ _ (State.memOk_fst (hh _) ‹_›)))

theorem execHostBisnpinvResponse_memOk {s : State} (l : Nat) (h : s.memOk = true) :
    Result.memOk (execHostBisnpinvResponse l s) = true := by
  show State.memOk _ = true
  split
  · exact State.memOk_same rfl rfl rfl h
  · exact h

@[simp] theorem State.tdispMove_mem (s : State) (vf : Nat) (m : TdiMode) : (s.tdispMove vf m).mem = s.mem := rfl
@[simp] theorem State.tdispError_mem (s : State) : s.tdispError.mem = s.mem := rfl

theorem execTdispLockInterface_memOk {s : State} (vf : Nat) (h : s.memOk = true) :
    Result.memOk (execTdispLockInterface vf s) = true := by
  refine State.memOk_of_mem (s := s) ?_ h
  split <;> simp

theorem execTdispStartInterface_memOk {s : State} (vf : Nat) (h : s.memOk = true) :
    Result.memOk (execTdispStartInterface vf s) = true := by
  refine State.memOk_of_mem (s := s) ?_ h
  split <;> simp

theorem State.memOk_killIfOpen {s : State} (ctx : Nat) (h : s.memOk = true) : (s.killIfOpen ctx).memOk = true := by
  unfold State.killIfOpen
  split
  · exact State.memOk_beginKill _ _ h
  · exact State.memOk_beginKill _ _ h
  all_goals exact h

theorem execTdispStopInterface_memOk {s : State} (vf : Nat) (h : s.memOk = true) :
    Result.memOk (execTdispStopInterface vf s) = true := by
  have h1 := State.memOk_of_mem (State.tdispMove_mem s vf .unlocked) h
  show State.memOk _ = true
  split
  · exact State.memOk_of_mem (State.tdispError_mem _) h
  · dsimp only
    split
    · exact State.memOk_killIfOpen _ h1
    · exact State.memOk_killIfOpen _ h1
    · exact h1

theorem execTdiLockedRegisterWrite_memOk {s : State} (vf reg : Nat) (v : Word) (h : s.memOk = true) :
    Result.memOk (execTdiLockedRegisterWrite vf reg v s) = true := by
  show State.memOk _ = true
  split
  · exact State.memOk_lockedWrite _ h (State.memOk_of_mem (State.setTdi_mem _ _ _) h)
  · exact h

theorem execPortTrained_memOk {s : State} (p : Nat) (x : Peer) (h : s.memOk = true) : Result.memOk (execPortTrained p x s) = true := by
  refine State.memOk_of_mem (s := s) ?_ h
  split <;> rfl

@[simp] theorem State.abandonMcas_mem (s : State) (d : Nat) : (s.abandonMcas d).mem = s.mem := by
  refine State.foldl_mem (fun s e => ?_) _ _
  split
  · split <;> rfl
  · rfl

theorem execDeviceUnreachable_memOk {s : State} (d : Nat) (h : s.memOk = true) : Result.memOk (execDeviceUnreachable d s) = true := by
  refine State.memOk_of_mem (s := s) ?_ h
  split
  · exact State.abandonMcas_mem _ _
  · rfl

theorem execSwredContribution_memOk {s : State} (grp off : Nat) (d : BitVec 512) (h : s.memOk = true) :
    Result.memOk (execSwredContribution grp off d s) = true := by
  unfold execSwredContribution
  split
  · exact h
  · split
    · exact h
    · split
      · have hh := fun l => State.memOk_atHome l false true 0 h
        split
        · exact State.memOk_fst (hh _) ‹_›
        · exact State.memOk_contribute _ _ _ (State.memOk_fst (hh _) ‹_›)
      · exact State.memOk_contribute _ _ _ h

theorem execHdmset_memOk {s : State} (f : Nat) (dec hbase size pa vd tdi : Word) (h : s.memOk = true) :
    Result.memOk (execHdmset f dec hbase size pa vd tdi s) = true :=
  runCommand_keeps h (Reply.memOk_guard h (State.memOk_of_mem (s := s) rfl h))

theorem execTdibind_memOk {s : State} (f : Nat) (vf ctx : Word) (h : s.memOk = true) : Result.memOk (execTdibind f vf ctx s) = true :=
  runCommand_keeps h (Reply.memOk_guard h (State.memOk_of_mem (State.setTdi_mem _ _ _) h))

theorem execLnkdom_memOk {s : State} (f : Nat) (dev table : Word) (h : s.memOk = true) : Result.memOk (execLnkdom f dev table s) = true := by
  refine runCommand_keeps h (Reply.memOk_guard h ?_)
  extract_lets masks take
  have ht : ∀ u, u.memOk = true → (take u).memOk = true := fun u hu => State.memOk_of_mem (s := u) rfl hu
  clear_value take
  split
  · exact ht _ h
  · split
    · rename_i e
      obtain ⟨_, _, e⟩ := List.exists_of_findSome?_eq_some e
      exact State.memOk_gate h e
    · exact ht _ (State.memOk_renumber _ h)

theorem execPoolset_memOk {s : State} (f : Nat) (win kind target size vd : Word) (h : s.memOk = true) :
    Result.memOk (execPoolset f win kind target size vd s) = true :=
  runCommand_keeps h (Reply.memOk_guard h (State.memOk_of_mem (s := s) rfl h))

theorem execSwred_memOk {s : State} (f : Nat) (sw grp n span dest handle : Word) (h : s.memOk = true) :
    Result.memOk (execSwred f sw grp n span dest handle s) = true :=
  runCommand_keeps h (Reply.memOk_guard h (State.memOk_of_mem (s := s) rfl h))

theorem execDomfault_memOk {s : State} (f : Nat) (dev : Word) (h : s.memOk = true) : Result.memOk (execDomfault f dev s) = true := by
  unfold execDomfault
  extract_lets d
  refine runCommand_keeps h (Reply.memOk_guard h ?_)
  extract_lets lost s1 s2
  have h1 : s1.memOk = true := State.memOk_of_mem (State.abandonMcas_mem _ _) (State.memOk_of_mem (s := s) rfl h)
  have h2 : s2.memOk = true := State.memOk_foldl (fun _ _ hs => State.memOk_killIfOpen _ hs) _ h1
  clear_value s2
  exact State.memOk_of_mem (s := s2) rfl h2

/-! ### Masthead -/

theorem execRegisterWrite_memOk {s : State} (f off : Nat) (v : Word) (h : s.memOk = true) :
    Result.memOk (execRegisterWrite f off v s) = true := by
  refine State.memOk_of_mem (s := s) ?_ h
  dsimp only
  (repeat' split) <;> rfl

theorem execReadback_memOk {s : State} (f : Nat) (cls inst off len buf : Word) (h : s.memOk = true) :
    Result.memOk (execReadback f cls inst off len buf s) = true := by
  unfold execReadback
  extract_lets it fits
  clear_value it
  refine runCommand_keeps h ?_
  split
  · exact h
  · split
    · exact h
    · exact State.memOk_hostWrite _ _ h

theorem State.memOk_signReport {s : State} (buf : Nat) (b : List Byte) (h : s.memOk = true) : (s.signReport buf b).memOk = true := by
  have h1 := State.memOk_hostWrite buf (b ++ bytesOf 64 (Config.signature b)) h
  exact State.memOk_of_mem rfl h1

theorem execUsage_memOk {s : State} (f : Nat) (owner nonce buf : Word) (h : s.memOk = true) : Result.memOk (execUsage f owner nonce buf s) = true :=
  runCommand_keeps h (State.memOk_signReport _ _ h)

theorem execIdget_memOk {s : State} (f : Nat) (buf len : Word) (h : s.memOk = true) : Result.memOk (execIdget f buf len s) = true :=
  runCommand_keeps h (State.memOk_hostWrite _ _ h)

theorem execAttest_memOk {s : State} (f : Nat) (nonce buf : Word) (h : s.memOk = true) : Result.memOk (execAttest f nonce buf s) = true :=
  runCommand_keeps h (State.memOk_signReport _ _ h)

theorem execKeyx_memOk {s : State} (f : Nat) (key buf : Word) (h : s.memOk = true) : Result.memOk (execKeyx f key buf s) = true :=
  runCommand_keeps h (State.memOk_of_mem (State.setMail_mem _ _ _) (State.memOk_hostWrite _ _ h))

theorem execMargin_memOk {s : State} (f : Nat) (buf : Word) (h : s.memOk = true) : Result.memOk (execMargin f buf s) = true :=
  runCommand_keeps h (State.memOk_hostWrite _ _ h)

theorem execErrlog_memOk {s : State} (f : Nat) (buf len clear : Word) (h : s.memOk = true) : Result.memOk (execErrlog f buf len clear s) = true := by
  refine runCommand_keeps h ?_
  have h1 := fun bs => State.memOk_hostWrite (num buf) bs h
  show State.memOk (if _ then _ else _) = true
  split
  · exact State.memOk_of_mem (s := s.hostWrite _ _) rfl (h1 _)
  · exact h1 _

theorem execScrread_memOk {s : State} (f : Nat) (die : Word) (h : s.memOk = true) : Result.memOk (execScrread f die s) = true :=
  runCommand_keeps h h

theorem execFwinfo_memOk {s : State} (f : Nat) (h : s.memOk = true) : Result.memOk (execFwinfo f s) = true :=
  runCommand_keeps h h

theorem execHalovf_memOk {s : State} (f : Nat) (die pa count : Word) (h : s.memOk = true) : Result.memOk (execHalovf f die pa count s) = true := by
  unfold execHalovf
  extract_lets d n p
  refine runCommand_keeps h (Reply.memOk_guard h ?_)
  split
  · rename_i e
    split at e
    · cases e
    · exact State.memOk_rangeGate h e
  · show State.memOk (if _ then _ else _) = true
    split
    · exact State.memOk_of_mem (State.setDie_mem _ _ _) h
    · exact State.memOk_scrubRange _ _ (State.memOk_of_mem (State.setDie_mem _ _ _) h)

theorem execClockReplan_memOk {s : State} (mhz : Nat) (h : s.memOk = true) : Result.memOk (execClockReplan mhz s) = true := by
  refine State.memOk_of_mem (s := s) ?_ h
  split
  · dsimp only
    split
    · exact State.settleClock_mem _
    · rfl
  · rfl

theorem State.memOk_scrubAtReset {s : State} (h : s.memOk = true) : s.scrubAtReset.memOk = true := by
  have h1 := State.memOk_foldl (fun s (r : Nat × Nat) hs => State.memOk_scrubRange r.1 r.2 hs) s.runsAtReset h
  unfold State.scrubAtReset
  dsimp only
  split
  · exact h1
  · exact State.memOk_of_mem rfl h1

theorem execBringupStage_memOk {s : State} (err : BitVec 8) (h : s.memOk = true) : Result.memOk (execBringupStage err s) = true := by
  show State.memOk _ = true
  split
  · exact h
  · split
    · exact State.memOk_of_mem (s := s) rfl h
    · split
      · rename_i e
        split at e
        · exact State.memOk_stallOn _ (State.memOk_runsGate h e)
        · cases e
      · extract_lets s1
        have h1 : s1.memOk = true := by
          unfold s1
          split
          · exact State.memOk_of_mem (s := s) rfl h
          · exact State.memOk_scrubAtReset h
          · exact h
        clear_value s1
        split <;> exact State.memOk_of_mem (s := s1) rfl h1

theorem execWarmReset_memOk {s : State} (h : s.memOk = true) : Result.memOk (execWarmReset s) = true :=
  State.memOk_same (s := s) rfl rfl rfl h

theorem execColdReset_memOk {s : State} (h : s.memOk = true) : Result.memOk (execColdReset s) = true :=
  State.memOk_same (s := s) rfl rfl rfl h

/-! ### The service of a mailbox -/

/-- Whatever command a descriptor names keeps the form of memory. -/
theorem execCmd_memOk {s : State} (f op : Nat) (ops : List Word) (h : s.memOk = true) :
    (execCmd f op ops s).all Result.memOk = true := by
  unfold execCmd
  extract_lets o
  split
  · exact execCcreate_memOk _ _ _ _ _ _ _ _ _ h
  · exact execCset_memOk _ _ _ _ h
  · exact execCarea_memOk _ _ _ _ h
  · exact execCwin_memOk _ _ _ _ _ h
  · exact execClimit_memOk _ _ _ _ h
  · exact execCpreempt_memOk _ _ _ _ h
  · exact execCresume_memOk _ _ _ _ h
  · exact execCkill_memOk _ _ h
  · exact execCkey_memOk _ _ _ h
  · exact execCdestroy_memOk _ _ _ _ h
  · exact execCread_memOk _ _ h
  · exact execQcreate_memOk _ _ _ _ _ _ _ h
  · exact execQset_memOk _ _ _ h
  · exact queueCommand_memOk _ _ _ h
  · exact queueCommand_memOk _ _ _ h
  · exact queueCommand_memOk _ _ _ h
  · exact queueCommand_memOk _ _ _ h
  · exact execOwnset_memOk _ _ _ h
  · exact execQread_memOk _ _ h
  · exact execGcreate_memOk _ _ _ _ h
  · exact execGdestroy_memOk _ _ h
  · exact execGbind_memOk _ _ _ h
  · exact execGunbind_memOk _ _ _ h
  · exact execLend_memOk _ _ _ h
  · exact execRecall_memOk _ _ h
  · exact execGread_memOk _ _ h
  · exact execVmroot_memOk _ _ _ _ h
  · exact execS2map_memOk _ _ _ _ _ _ _ _ _ _ h
  · exact leafCommand_memOk _ _ _ _ _ h
  · exact leafCommand_memOk _ _ _ _ _ h
  · exact execTlbinv_memOk _ _ _ _ _ h
  · exact execFrset_memOk _ _ _ h
  · exact execSegquota_memOk _ _ _ h
  · exact execMscset_memOk _ _ _ _ _ _ _ _ h
  · exact execHmove_memOk _ _ _ h
  · exact execHdmset_memOk _ _ _ _ _ _ _ h
  · exact execTdibind_memOk _ _ _ h
  · exact execLnkdom_memOk _ _ _ h
  · exact execPoolset_memOk _ _ _ _ _ _ h
  · exact execSwred_memOk _ _ _ _ _ _ _ h
  · exact execDomfault_memOk _ _ h
  · exact execOwnnew_memOk _ _ _ h
  · exact execOwndel_memOk _ _ h
  · exact execReadback_memOk _ _ _ _ _ _ h
  · exact execUsage_memOk _ _ _ _ h
  · exact execIdget_memOk _ _ _ h
  · exact execAttest_memOk _ _ _ h
  · exact execKeyx_memOk _ _ _ h
  · exact execMargin_memOk _ _ h
  · exact execErrlog_memOk _ _ _ _ h
  · exact execScrread_memOk _ _ h
  · exact execFwinfo_memOk _ h
  · exact execHalovf_memOk _ _ _ _ h
  · rfl

theorem execCmd_memOk_some {s : State} {f op : Nat} {ops : List Word} {r : Result} (h : s.memOk = true)
    (e : execCmd f op ops s = some r) : Result.memOk r = true := by
  have hc := execCmd_memOk f op ops h
  rwa [e] at hc

theorem State.serveMail_memOk {s : State} (f : Nat) (h : s.memOk = true) : Result.memOk (s.serveMail f) = true := by
  unfold State.serveMail
  dsimp only
  split
  · exact h
  · split
    · exact State.memOk_respond _ _ _ h
    · split
      · exact State.memOk_respond _ _ _ h
      · split
        · exact State.memOk_respond _ _ _ h
        · split
          · exact execCmd_memOk_some h ‹_›
          · exact State.memOk_respond _ _ _ h

end Sys2Proof.Machine
end

section
/-! PROOFS. The canonical form of memory: every row and every step. -/

namespace Sys2Proof.Machine

/-! ### Scalar instructions -/

theorem aluA_memOk {s : State} (f : Word → Word → Word) (g : BitVec 4) (d a b : BitVec 6) (h : s.memOk = true) :
    Result.memOk (aluA f g d a b s) = true := slotDo_keeps_mem h fun _ => rfl

theorem immA_memOk {s : State} (f : Word → Word → Word) (g : BitVec 4) (d a : BitVec 6) (imm : BitVec 7) (h : s.memOk = true) :
    Result.memOk (immA f g d a imm s) = true := slotDo_keeps_mem h fun _ => rfl

theorem aluB_memOk {s : State} (f : Word → Word → Word) (g : BitVec 7) (x y z : BitVec 6) (h : s.memOk = true) :
    Result.memOk (aluB f g x y z s) = true := slotDo_keeps_mem h fun _ => rfl

theorem cmpA_memOk {s : State} (c : Cond) (g : BitVec 4) (n a b : BitVec 6) (h : s.memOk = true) :
    Result.memOk (cmpA c g n a b s) = true := slotDo_keeps_mem h fun _ => State.writePair_mem _ _ _

theorem predOp_memOk {s : State} (f : BitVec 32 → BitVec 32 → BitVec 32) (g x y z : BitVec 7) (inv : BitVec 1) (h : s.memOk = true) :
    Result.memOk (predOp f g x y z inv s) = true := slotDo_keeps_mem h fun _ => rfl

theorem startDiv_memOk {s : State} (b : Bool) (g : BitVec 4) (d x y : BitVec 6) (h : s.memOk = true) :
    Result.memOk (startDiv b g d x y s) = true :=
  slotOp_keeps h fun s hs => by
    split
    · exact hs
    · exact State.memOk_of_mem (State.setFlight_mem _ _) hs

theorem execDivComplete_memOk {s : State} (q : Nat) (h : s.memOk = true) : Result.memOk (execDivComplete q s) = true := by
  unfold execDivComplete
  dsimp only
  split
  · exact h
  · exact State.memOk_of_mem (State.setSeq_mem _ _ _) h

theorem execBundleIssue_memOk {s : State} (q slot : Nat) (h : s.memOk = true) : Result.memOk (execBundleIssue q slot s) = true := by
  unfold execBundleIssue
  split
  · exact h
  · split
    · exact State.memOk_of_mem (s := s) rfl h
    · exact h

theorem nop_memOk {s : State} (h : s.memOk = true) : Result.memOk (.next s.retire) = true :=
  State.memOk_of_mem (State.retire_mem _) h

theorem execPset_memOk {s : State} (g : BitVec 7) (x lo hi : BitVec 7) (inv : BitVec 1) (h : s.memOk = true) :
    Result.memOk (execPset g x lo hi inv s) = true := slotDo_keeps_mem h fun _ => State.wp_mem _ _ _

theorem execFence_memOk {s : State} (g : BitVec 7) (scope : Scope) (h : s.memOk = true) :
    Result.memOk (execFence g scope s) = true := slotOp_keeps h fun _ hs => State.memOk_holdFence _ _ hs

theorem execXfence_memOk {s : State} (g : BitVec 7) (a b : PClass) (h : s.memOk = true) :
    Result.memOk (execXfence g a b s) = true := slotOp_keeps h fun _ hs => State.memOk_holdFence _ _ hs

theorem execPnWait_memOk {s : State} (g : BitVec 7) (acq : Option Scope) (y z : BitVec 6) (n : BitVec 7) (h : s.memOk = true) :
    Result.memOk (execPnWait g acq y z n s) = true := slotOp_keeps h fun _ hs => State.memOk_holdWait _ hs

theorem execBr_memOk {s : State} (g : BitVec 4) (off : BitVec 19) (h : s.memOk = true) :
    Result.memOk (execBr g off s) = true := slotDo_keeps_mem h fun _ => rfl

theorem execCall_memOk {s : State} (g : BitVec 4) (off : BitVec 19) (h : s.memOk = true) :
    Result.memOk (execCall g off s) = true := slotDo_keeps_mem h fun _ => rfl

theorem execLoop_memOk {s : State} (g : BitVec 4) (a : BitVec 6) (len : BitVec 9) (h : s.memOk = true) :
    Result.memOk (execLoop g a len s) = true := slotDo_keeps_mem h fun _ => State.pushLoop_mem _ _ _ _

theorem execFmtSet_memOk {s : State} (g : BitVec 4) (hsz : BitVec 2) (ofmt wfmt afmt : BitVec 4) (h : s.memOk = true) :
    Result.memOk (execFmtSet g hsz ofmt wfmt afmt s) = true := slotDo_keeps_mem h fun _ => State.setCtl_mem _ _

theorem execShf_memOk {s : State} (g : BitVec 4) (code : BitVec 3) (field : BitVec 4) (a : BitVec 6) (h : s.memOk = true) :
    Result.memOk (execShf g code field a s) = true := slotDo_keeps_mem h fun _ => State.setRegs_mem _ _

theorem execPnot_memOk {s : State} (g : BitVec 7) (x y : BitVec 7) (h : s.memOk = true) :
    Result.memOk (execPnot g x y s) = true := slotDo_keeps_mem h fun _ => State.wp_mem _ _ _

theorem execPmov_memOk {s : State} (g : BitVec 7) (x y : BitVec 7) (h : s.memOk = true) :
    Result.memOk (execPmov g x y s) = true := slotDo_keeps_mem h fun _ => State.wp_mem _ _ _

theorem execClz_memOk {s : State} (g : BitVec 4) (d a : BitVec 6) (h : s.memOk = true) :
    Result.memOk (execClz g d a s) = true := slotDo_keeps_mem h fun _ => State.ws_mem _ _ _

theorem execPopc_memOk {s : State} (g : BitVec 4) (d a : BitVec 6) (h : s.memOk = true) :
    Result.memOk (execPopc g d a s) = true := slotDo_keeps_mem h fun _ => State.ws_mem _ _ _

theorem execSysRd_memOk {s : State} (g : BitVec 4) (d : BitVec 6) (num : BitVec 13) (h : s.memOk = true) :
    Result.memOk (execSysRd g d num s) = true := slotDo_keeps_mem h fun _ => State.ws_mem _ _ _

theorem execMoviAw_memOk {s : State} (g : BitVec 4) (d : BitVec 6) (imm : BitVec 13) (h : s.memOk = true) :
    Result.memOk (execMoviAw g d imm s) = true := slotDo_keeps_mem h fun _ => State.ws_mem _ _ _

theorem execSel_memOk {s : State} (g : BitVec 7) (x : BitVec 6) (n : BitVec 7) (y z : BitVec 6) (h : s.memOk = true) :
    Result.memOk (execSel g x n y z s) = true := slotDo_keeps_mem h fun _ => State.ws_mem _ _ _

theorem execExtB_memOk {s : State} (g : BitVec 7) (x y pos wm1 : BitVec 6) (h : s.memOk = true) :
    Result.memOk (execExtB g x y pos wm1 s) = true := slotDo_keeps_mem h fun _ => State.ws_mem _ _ _

theorem execInsB_memOk {s : State} (g : BitVec 7) (x y pos wm1 : BitVec 6) (h : s.memOk = true) :
    Result.memOk (execInsB g x y pos wm1 s) = true := slotDo_keeps_mem h fun _ => State.ws_mem _ _ _

theorem execAddBi_memOk {s : State} (g : BitVec 7) (x y : BitVec 6) (imm : BitVec 16) (h : s.memOk = true) :
    Result.memOk (execAddBi g x y imm s) = true := slotDo_keeps_mem h fun _ => State.ws_mem _ _ _

theorem execMoviBw_memOk {s : State} (g : BitVec 7) (x : BitVec 6) (imm : BitVec 22) (h : s.memOk = true) :
    Result.memOk (execMoviBw g x imm s) = true := slotDo_keeps_mem h fun _ => State.ws_mem _ _ _

theorem execMovhi_memOk {s : State} (g : BitVec 7) (x : BitVec 6) (imm : BitVec 16) (h : s.memOk = true) :
    Result.memOk (execMovhi g x imm s) = true := slotDo_keeps_mem h fun _ => State.ws_mem _ _ _

theorem execCmpB3_memOk {s : State} (g : BitVec 7) (n y z : BitVec 6) (cond : Cond) (h : s.memOk = true) :
    Result.memOk (execCmpB3 g n y z cond s) = true := slotDo_keeps_mem h fun _ => State.writePair_mem _ _ _

theorem execCmpBc_memOk {s : State} (g : BitVec 7) (n y : BitVec 6) (cond : Cond) (imm : BitVec 13) (h : s.memOk = true) :
    Result.memOk (execCmpBc g n y cond imm s) = true := slotDo_keeps_mem h fun _ => State.writePair_mem _ _ _

theorem execFcmp_memOk {s : State} (g : BitVec 7) (n y z : BitVec 6) (cond : FCond) (h : s.memOk = true) :
    Result.memOk (execFcmp g n y z cond s) = true := slotDo_keeps_mem h fun _ => State.writePair_mem _ _ _

theorem execS2unmap_memOk {s : State} (f : Nat) (ctx ipa size : Word) (h : s.memOk = true) :
    Result.memOk (execS2unmap f ctx ipa size s) = true := leafCommand_memOk _ _ _ _ _ h

theorem execS2clean_memOk {s : State} (f : Nat) (ctx ipa size : Word) (h : s.memOk = true) :
    Result.memOk (execS2clean f ctx ipa size s) = true := leafCommand_memOk _ _ _ _ _ h

/-! ### Vector instructions -/

theorem c3Op_memOk {s : State} (op : VFun) (g : BitVec 7) (ty : VTy) (vd va vb : VOp) (lp : BitVec 7) (h : s.memOk = true) :
    Result.memOk (c3Op op g ty vd va vb lp s) = true := vecOp_memOk _ _ _ _ h

theorem csOp_memOk {s : State} (op : VFun) (g : BitVec 7) (ty : VTy2) (vd va : VOp) (x : BitVec 6) (lp : BitVec 7) (h : s.memOk = true) :
    Result.memOk (csOp op g ty vd va x lp s) = true := vecOp_memOk _ _ _ _ h

theorem bitOp_memOk {s : State} (f : BitVec 1024 → BitVec 1024 → BitVec 1024) (g : BitVec 7) (vd va vb : VOp) (lp : BitVec 7)
    (h : s.memOk = true) : Result.memOk (bitOp f g vd va vb lp s) = true := vecOp_memOk _ _ _ _ h

theorem funOp_memOk {s : State} (f : Num → Flagged Num) (g : BitVec 7) (vd va : VOp) (lp : BitVec 7) (h : s.memOk = true) :
    Result.memOk (funOp f g vd va lp s) = true := vecOp_memOk _ _ _ _ h

theorem execVfmaC3_memOk {s : State} (g : BitVec 7) (ty : VTy) (vd va vb : VOp) (lp : BitVec 7) (h : s.memOk = true) :
    Result.memOk (execVfmaC3 g ty vd va vb lp s) = true := vecOp_memOk _ _ _ _ h

theorem execVsel_memOk {s : State} (g : BitVec 7) (vd va vb : VOp) (lp : BitVec 7) (h : s.memOk = true) :
    Result.memOk (execVsel g vd va vb lp s) = true := vecOp_memOk _ _ _ _ h

theorem execVfmaCs_memOk {s : State} (g : BitVec 7) (ty : VTy2) (vd va : VOp) (x : BitVec 6) (lp : BitVec 7) (h : s.memOk = true) :
    Result.memOk (execVfmaCs g ty vd va x lp s) = true := vecOp_memOk _ _ _ _ h

theorem execVcvt_memOk {s : State} (g : BitVec 7) (vd va : VOp) (src tgt : Fmt) (rnd : Rnd) (had : Had) (h : s.memOk = true) :
    Result.memOk (execVcvt g vd va src tgt rnd had s) = true := vecOp_memOk _ _ _ _ h

theorem execVhad_memOk {s : State} (g : BitVec 7) (fp : Bool) (vd va : VOp) (h16 : Bool) (lp : BitVec 7) (h : s.memOk = true) :
    Result.memOk (execVhad g fp vd va h16 lp s) = true := vecOp_memOk _ _ _ _ h

theorem execVred_memOk {s : State} (g : BitVec 7) (fp : Bool) (op : RedOp) (vd va : VOp) (lp : BitVec 7) (h : s.memOk = true) :
    Result.memOk (execVred g fp op vd va lp s) = true := vecOp_memOk _ _ _ _ h

theorem execVperm_memOk {s : State} (g : BitVec 7) (vd va vb : VOp) (lp : BitVec 7) (h : s.memOk = true) :
    Result.memOk (execVperm g vd va vb lp s) = true := vecOp_memOk _ _ _ _ h

theorem execVbcast_memOk {s : State} (g : BitVec 7) (ty : VTy2) (vd : VOp) (x : BitVec 6) (lp : BitVec 7) (h : s.memOk = true) :
    Result.memOk (execVbcast g ty vd x lp s) = true := vecOp_memOk _ _ _ _ h

/-! ### Every row, and every step -/

/-- Every row of the opcode table keeps the canonical form of memory, each by the lemma about its meaning. -/
theorem exec_memOk {s : State} (h : s.memOk = true) : ∀ i : Instr, Result.memOk (exec i s) = true
  | .groupCheck _ => execGroupCheck_memOk _ h
  | .bundleIssue _ _ => execBundleIssue_memOk _ _ h
  | .fmtSetEffect _ => State.memOk_of_mem (State.setSeq_mem _ _ _) h
  | .divComplete _ => execDivComplete_memOk _ h
  | .loadDataReturn _ _ => execLoadDataReturn_memOk _ _ h
  | .storePerform _ _ => execStorePerform_memOk _ _ h
  | .pageWalkComplete _ _ _ => execPageWalkComplete_memOk _ _ _ h
  | .cacheFill _ _ _ _ => execCacheFill_memOk _ _ _ _ h
  | .streamFill _ _ => execStreamFill_memOk _ _ h
  | .streamDrain _ _ => execStreamDrain_memOk _ _ h
  | .matrixCompletion _ => execMatrixCompletion_memOk _ h
  | .shadowEntryApply _ => State.memOk_of_mem (State.applyShadow_mem _ _) h
  | .bufferStateChange _ => execBufferStateChange_memOk _ h
  | .bufferZeroingDone _ _ => execBufferZeroingDone_memOk _ _ h
  | .specRegionEnd _ => execSpecRegionEnd_memOk _ h
  | .fenceComplete _ => execFenceComplete_memOk _ h
  | .haltStop _ => execHaltStop_memOk _ h
  | .faultRecordRetry _ => State.memOk_retryRecords _ h
  | .scopedAtomicExecute _ => execScopedAtomicExecute_memOk _ h
  | .scopedCopyWriteback _ _ => execScopedCopyWriteback_memOk _ _ h
  | .halyardAtomicExecute _ => execHalyardAtomicExecute_memOk _ h
  | .atomicResultReturn _ _ => execAtomicResultReturn_memOk _ _ h
  | .pennantAdd _ => execPennantAdd_memOk _ h
  | .waiterWake _ => execWaiterWake_memOk _ h
  | .waiterPoll _ => execWaiterPoll_memOk _ h
  | .mcasLockGrant _ => execMcasLockGrant_memOk _ h
  | .mcasWindowExpire _ => execMcasWindowExpire_memOk _ h
  | .mcasBackoffExpire _ => execMcasBackoffExpire_memOk _ h
  | .mcasResultReturn _ => execMcasResultReturn_memOk _ h
  | .patchEngineComplete _ => execPatchEngineComplete_memOk _ h
  | .copyStart _ => execCopyStart_memOk _ h
  | .copyChunk _ => execCopyChunk_memOk _ h
  | .copyComplete _ => execCopyComplete_memOk _ h
  | .remoteCopyPennantAdd _ _ _ => execRemoteCopyPennantAdd_memOk _ _ _ h
  | .queueTailWrite _ _ => execQueueTailWrite_memOk _ _ h
  | .launchDispatch _ => execLaunchDispatch_memOk _ h
  | .nodeFire _ _ => execNodeFire_memOk _ _ h
  | .launchEnd _ => execLaunchEnd_memOk _ h
  | .schedDecision _ => execSchedDecision_memOk _ h
  | .preemptRequest _ => execPreemptRequest_memOk _ h
  | .saveStart _ => execSaveStart_memOk _ h
  | .graceTimerExpire _ => execGraceTimerExpire_memOk _ h
  | .killTimerExpire _ => execKillTimerExpire_memOk _ h
  | .killComplete _ => execKillComplete_memOk _ h
  | .contextSaveComplete _ => execContextSaveComplete_memOk _ h
  | .contextLoadComplete _ => execContextLoadComplete_memOk _ h
  | .groupScrubComplete _ => execGroupScrubComplete_memOk _ h
  | .contextScrubComplete _ => execContextScrubComplete_memOk _ h
  | .homeRds _ _ => execHomeRds_memOk _ _ h
  | .homeRdx _ _ => execHomeRdx_memOk _ _ h
  | .homeHal _ => execHomeHal_memOk _ h
  | .homeWb _ _ => wbRequest_memOk _ _ h
  | .engineHomeRead _ => execEngineHomeRead_memOk _ h
  | .engineHomeWrite _ _ _ => execEngineHomeWrite_memOk _ _ _ h
  | .snoopInvalidate _ _ => execSnoopInvalidate_memOk _ _ h
  | .movedResponse _ => execMovedResponse_memOk _ h
  | .pand _ _ _ _ _ => predOp_memOk (· &&& ·) _ _ _ _ _ h
  | .por _ _ _ _ _ => predOp_memOk (· ||| ·) _ _ _ _ _ h
  | .pxor _ _ _ _ _ => predOp_memOk (· ^^^ ·) _ _ _ _ _ h
  | .pset _ _ _ _ _ => execPset_memOk _ _ _ _ _ h
  | .ldB _ _ _ _ _ => loadOp_memOk 1 _ _ _ _ _ h
  | .ldH _ _ _ _ _ => loadOp_memOk 2 _ _ _ _ _ h
  | .ldW _ _ _ _ _ => loadOp_memOk 4 _ _ _ _ _ h
  | .ldD _ _ _ _ _ => loadOp_memOk 8 _ _ _ _ _ h
  | .stB _ _ _ _ _ => storeOp_memOk 1 _ _ _ _ _ h
  | .stH _ _ _ _ _ => storeOp_memOk 2 _ _ _ _ _ h
  | .stW _ _ _ _ _ => storeOp_memOk 4 _ _ _ _ _ h
  | .stD _ _ _ _ _ => storeOp_memOk 8 _ _ _ _ _ h
  | .pf _ _ _ _ => execPf_memOk _ _ _ _ h
  | .lqPop _ _ => execLqPop_memOk _ _ h
  | .ldSp _ _ _ _ => execLdSp_memOk _ _ _ _ h
  | .stSp _ _ _ _ => execStSp_memOk _ _ _ _ h
  | .tsLd _ _ _ _ _ _ => execTsLd_memOk _ _ _ _ _ _ h
  | .tsSt _ _ _ _ _ => execTsSt_memOk _ _ _ _ _ h
  | .atR _ _ _ _ _ => atomicOp_memOk _ _ _ _ _ _ h
  | .atCas _ _ _ _ _ => atomicOp_memOk _ _ _ _ _ _ h
  | .red _ _ _ _ _ => execRed_memOk _ _ _ _ _ h
  | .mcas _ _ _ => execMcas_memOk _ _ _ h
  | .fence _ _ => execFence_memOk _ _ h
  | .xfence _ _ _ => execXfence_memOk _ _ _ h
  | .bfDecl _ _ _ _ _ _ => execBfDecl_memOk _ _ _ _ _ _ h
  | .bfFill _ _ => bufOp_memOk .fill _ _ h
  | .bfDone _ _ => bufOp_memOk .done _ _ h
  | .bfDrain _ _ => bufOp_memOk .drain _ _ h
  | .bfFree _ _ => bufOp_memOk .free _ _ h
  | .bfState _ _ _ => execBfState_memOk _ _ _ h
  | .pnAdd _ _ _ _ _ => execPnAdd_memOk _ _ _ _ _ h
  | .pnWait _ _ _ _ _ => execPnWait_memOk _ _ _ _ _ h
  | .pnTest _ _ _ _ _ => execPnTest_memOk _ _ _ _ _ h
  | .pnRead _ _ _ _ => execPnRead_memOk _ _ _ _ h
  | .rbAwait _ _ _ _ _ => execRbAwait_memOk _ _ _ _ _ h
  | .rbRelease _ _ _ _ => execRbRelease_memOk _ _ _ _ h
  | .nopC _ => nop_memOk h
  | .vld _ _ _ _ _ _ _ => execVld_memOk _ _ _ _ _ _ _ h
  | .vst _ _ _ _ _ _ _ => execVst_memOk _ _ _ _ _ _ _ h
  | .vaddC3 _ _ _ _ _ _ => c3Op_memOk vAdd _ _ _ _ _ _ h
  | .vsubC3 _ _ _ _ _ _ => c3Op_memOk vSub _ _ _ _ _ _ h
  | .vmulC3 _ _ _ _ _ _ => c3Op_memOk vMul _ _ _ _ _ _ h
  | .vfmaC3 _ _ _ _ _ _ => execVfmaC3_memOk _ _ _ _ _ _ h
  | .vminC3 _ _ _ _ _ _ => c3Op_memOk vMin _ _ _ _ _ _ h
  | .vmaxC3 _ _ _ _ _ _ => c3Op_memOk vMax _ _ _ _ _ _ h
  | .vand _ _ _ _ _ => bitOp_memOk (· &&& ·) _ _ _ _ _ h
  | .vor _ _ _ _ _ => bitOp_memOk (· ||| ·) _ _ _ _ _ h
  | .vxor _ _ _ _ _ => bitOp_memOk (· ^^^ ·) _ _ _ _ _ h
  | .vshlC3 _ _ _ _ _ _ => c3Op_memOk vShl _ _ _ _ _ _ h
  | .vshrC3 _ _ _ _ _ _ => c3Op_memOk vShr _ _ _ _ _ _ h
  | .vsel _ _ _ _ _ => execVsel_memOk _ _ _ _ _ h
  | .vcmp _ _ _ _ _ _ => execVcmp_memOk _ _ _ _ _ _ h
  | .vaddCs _ _ _ _ _ _ => csOp_memOk vAdd _ _ _ _ _ _ h
  | .vsubCs _ _ _ _ _ _ => csOp_memOk vSub _ _ _ _ _ _ h
  | .vmulCs _ _ _ _ _ _ => csOp_memOk vMul _ _ _ _ _ _ h
  | .vfmaCs _ _ _ _ _ _ => execVfmaCs_memOk _ _ _ _ _ _ h
  | .vminCs _ _ _ _ _ _ => csOp_memOk vMin _ _ _ _ _ _ h
  | .vmaxCs _ _ _ _ _ _ => csOp_memOk vMax _ _ _ _ _ _ h
  | .vshlCs _ _ _ _ _ _ => csOp_memOk vShl _ _ _ _ _ _ h
  | .vshrCs _ _ _ _ _ _ => csOp_memOk vShr _ _ _ _ _ _ h
  | .vcvt _ _ _ _ _ _ _ => execVcvt_memOk _ _ _ _ _ _ _ h
  | .vhad _ _ _ _ _ _ => execVhad_memOk _ _ _ _ _ _ h
  | .vred _ _ _ _ _ _ => execVred_memOk _ _ _ _ _ _ h
  | .vperm _ _ _ _ _ => execVperm_memOk _ _ _ _ _ h
  | .vbcast _ _ _ _ _ => execVbcast_memOk _ _ _ _ _ h
  | .vrcp _ _ _ _ => funOp_memOk vrcpF _ _ _ _ h
  | .vrsqrt _ _ _ _ => funOp_memOk vrsqrtF _ _ _ _ h
  | .vexp2 _ _ _ _ => funOp_memOk vexp2F _ _ _ _ h
  | .vlog2 _ _ _ _ => funOp_memOk vlog2F _ _ _ _ h
  | .stb _ _ _ _ _ => execStb_memOk _ _ _ _ _ h
  | .stu _ _ => execStu_memOk _ _ h
  | .nopD _ => nop_memOk h
  | .mmLdw _ _ _ _ _ => execMmLdw_memOk _ _ _ _ _ h
  | .mm _ _ _ _ _ _ _ => execMm_memOk _ _ _ _ _ _ _ h
  | .mmChain _ _ _ _ _ _ => execMmChain_memOk _ _ _ _ _ _ h
  | .mmZero _ _ _ => execMmZero_memOk _ _ _ h
  | .mmWb _ _ _ _ _ _ => execMmWb_memOk _ _ _ _ _ _ h
  | .mmRd _ _ _ _ _ => execMmRd_memOk _ _ _ _ _ h
  | .mmRdSt _ _ _ _ => execMmRdSt_memOk _ _ _ _ h
  | .mmFuse _ _ => execMmFuse_memOk _ _ h
  | .paOpen _ _ _ _ _ => execPaOpen_memOk _ _ _ _ _ h
  | .paClose _ _ => execPaClose_memOk _ _ h
  | .paApply _ _ _ => execPaApply_memOk _ _ _ h
  | .paInv _ _ _ => execPaInv_memOk _ _ _ h
  | .paComm _ _ _ => execPaComm_memOk _ _ _ h
  | .paXplant _ _ _ _ => execPaXplant_memOk _ _ _ _ h
  | .paSquash _ _ _ => execPaSquash_memOk _ _ _ h
  | .paSnap _ _ _ => execPaSnap_memOk _ _ _ h
  | .paDropPort _ _ => execPaDropPort_memOk _ _ h
  | .paDropClosed _ _ _ => execPaDropClosed_memOk _ _ _ h
  | .paQuery _ _ _ _ => execPaQuery_memOk _ _ _ _ h
  | .paNorm _ _ _ _ => execPaNorm_memOk _ _ _ _ h
  | .grLaunch _ _ _ => execGrLaunch_memOk _ _ _ h
  | .grArrive _ _ => execGrArrive_memOk _ _ h
  | .grCond _ _ _ => execGrCond_memOk _ _ _ h
  | .grDone _ => execGrDone_memOk _ h
  | .segPromote _ _ _ _ => segOp_memOk .promote _ _ _ _ h
  | .segPin _ _ _ _ => segOp_memOk .pin _ _ _ _ h
  | .segUnpin _ _ _ _ => segOp_memOk .unpin _ _ _ _ h
  | .segDemote _ _ _ _ => segOp_memOk .demote _ _ _ _ h
  | .segQuery _ _ _ => execSegQuery_memOk _ _ _ h
  | .bringupStage _ => execBringupStage_memOk _ h
  | .clockReplan _ => execClockReplan_memOk _ h
  | .registerWrite _ _ _ => execRegisterWrite_memOk _ _ _ h
  | .hostMemRd _ _ => execHostMemRd_memOk _ _ h
  | .hostMemWr _ _ _ => hostWrite_memOk _ _ _ _ _ h
  | .hostMemWrPtl _ _ _ _ => hostWrite_memOk _ _ _ _ _ h
  | .hostBisnpinvResponse _ => execHostBisnpinvResponse_memOk _ h
  | .hostCacheSnoop _ => State.memOk_of_mem (State.answer_mem _ _) h
  | .tdispLockInterface _ => execTdispLockInterface_memOk _ h
  | .tdispStartInterface _ => execTdispStartInterface_memOk _ h
  | .tdispStopInterface _ => execTdispStopInterface_memOk _ h
  | .tdiLockedRegisterWrite _ _ _ => execTdiLockedRegisterWrite_memOk _ _ _ h
  | .portTrained _ _ => execPortTrained_memOk _ _ h
  | .portPeerSilent _ => State.memOk_of_mem (s := s) rfl h
  | .flitCrcReplay _ => h
  | .deviceUnreachable _ => execDeviceUnreachable_memOk _ h
  | .swredContribution _ _ _ => execSwredContribution_memOk _ _ _ h
  | .warmReset => execWarmReset_memOk h
  | .coldReset => execColdReset_memOk h
  | .hostLinkTraining _ _ => State.memOk_of_mem (s := s) rfl h
  | .spdmSessionMessage _ => State.memOk_of_mem (s := s) rfl h
  | .ccreate _ _ _ _ _ _ _ _ _ => execCcreate_memOk _ _ _ _ _ _ _ _ _ h
  | .cset _ _ _ _ => execCset_memOk _ _ _ _ h
  | .carea _ _ _ _ => execCarea_memOk _ _ _ _ h
  | .cwin _ _ _ _ _ => execCwin_memOk _ _ _ _ _ h
  | .climit _ _ _ _ => execClimit_memOk _ _ _ _ h
  | .cpreempt _ _ _ _ => execCpreempt_memOk _ _ _ _ h
  | .cresume _ _ _ _ => execCresume_memOk _ _ _ _ h
  | .ckill _ _ => execCkill_memOk _ _ h
  | .ckey _ _ _ => execCkey_memOk _ _ _ h
  | .cdestroy _ _ _ _ => execCdestroy_memOk _ _ _ _ h
  | .cread _ _ => execCread_memOk _ _ h
  | .qcreate _ _ _ _ _ _ _ => execQcreate_memOk _ _ _ _ _ _ _ h
  | .qset _ _ _ => execQset_memOk _ _ _ h
  | .qpause _ _ => queueCommand_memOk _ _ Queue.pause h
  | .qresume _ _ => queueCommand_memOk _ _ Queue.resume h
  | .qreset _ _ => queueCommand_memOk _ _ Queue.reset h
  | .qdestroy _ _ => queueCommand_memOk _ _ Queue.destroy h
  | .ownset _ _ _ => execOwnset_memOk _ _ _ h
  | .qread _ _ => execQread_memOk _ _ h
  | .gcreate _ _ _ _ => execGcreate_memOk _ _ _ _ h
  | .gdestroy _ _ => execGdestroy_memOk _ _ h
  | .gbind _ _ _ => execGbind_memOk _ _ _ h
  | .gunbind _ _ _ => execGunbind_memOk _ _ _ h
  | .lend _ _ _ => execLend_memOk _ _ _ h
  | .recallGroup _ _ => execRecall_memOk _ _ h
  | .gread _ _ => execGread_memOk _ _ h
  | .vmroot _ _ _ _ => execVmroot_memOk _ _ _ _ h
  | .s2map _ _ _ _ _ _ _ _ _ _ => execS2map_memOk _ _ _ _ _ _ _ _ _ _ h
  | .s2unmap _ _ _ _ => execS2unmap_memOk _ _ _ _ h
  | .s2clean _ _ _ _ => execS2clean_memOk _ _ _ _ h
  | .tlbinv _ _ _ _ _ => execTlbinv_memOk _ _ _ _ _ h
  | .frset _ _ _ => execFrset_memOk _ _ _ h
  | .segquota _ _ _ => execSegquota_memOk _ _ _ h
  | .mscset _ _ _ _ _ _ _ _ => execMscset_memOk _ _ _ _ _ _ _ _ h
  | .hmove _ _ _ => execHmove_memOk _ _ _ h
  | .hdmset _ _ _ _ _ _ _ => execHdmset_memOk _ _ _ _ _ _ _ h
  | .tdibind _ _ _ => execTdibind_memOk _ _ _ h
  | .lnkdom _ _ _ => execLnkdom_memOk _ _ _ h
  | .poolset _ _ _ _ _ _ => execPoolset_memOk _ _ _ _ _ _ h
  | .swred _ _ _ _ _ _ _ => execSwred_memOk _ _ _ _ _ _ _ h
  | .domfault _ _ => execDomfault_memOk _ _ h
  | .ownnew _ _ _ => execOwnnew_memOk _ _ _ h
  | .owndel _ _ => execOwndel_memOk _ _ h
  | .readback _ _ _ _ _ _ => execReadback_memOk _ _ _ _ _ _ h
  | .usage _ _ _ _ => execUsage_memOk _ _ _ _ h
  | .idget _ _ _ => execIdget_memOk _ _ _ h
  | .attest _ _ _ => execAttest_memOk _ _ _ h
  | .keyx _ _ _ => execKeyx_memOk _ _ _ h
  | .margin _ _ => execMargin_memOk _ _ h
  | .errlog _ _ _ _ => execErrlog_memOk _ _ _ _ h
  | .scrread _ _ => execScrread_memOk _ _ h
  | .fwinfo _ => execFwinfo_memOk _ h
  | .halovf _ _ _ _ => execHalovf_memOk _ _ _ _ h
  | .pennantValueReturn _ => execPennantValueReturn_memOk _ h
  | .segmentUnitsComplete _ => execSegmentUnitsComplete_memOk _ h
  | .conditionWordWrite _ => execConditionWordWrite_memOk _ h
  | .nopA _ => nop_memOk h
  | .br _ _ => execBr_memOk _ _ h
  | .jmp _ _ _ => jumpTo_memOk _ _ _ h
  | .call _ _ => execCall_memOk _ _ h
  | .ret _ _ => jumpTo_memOk _ _ _ h
  | .trap _ _ => execTrap_memOk _ _ h
  | .halt g code => execHalt_memOk g code h
  | .lbrk _ _ _ => execLbrk_memOk _ _ _ h
  | .loop _ _ _ => execLoop_memOk _ _ _ h
  | .loopSp _ _ _ _ => execLoopSp_memOk _ _ _ _ h
  | .specBegin _ => execSpecBegin_memOk _ h
  | .specCommit _ => endRegion_memOk true _ h
  | .specAbort _ => endRegion_memOk false _ h
  | .fmtSet _ _ _ _ _ => execFmtSet_memOk _ _ _ _ _ h
  | .shf _ _ _ _ => execShf_memOk _ _ _ _ h
  | .addAr _ _ _ _ => aluA_memOk (· + ·) _ _ _ _ h
  | .pnot _ _ _ => execPnot_memOk _ _ _ h
  | .pmov _ _ _ => execPmov_memOk _ _ _ h
  | .subAr _ _ _ _ => aluA_memOk (· - ·) _ _ _ _ h
  | .mul _ _ _ _ => aluA_memOk (· * ·) _ _ _ _ h
  | .mulh _ _ _ _ => aluA_memOk mulhW _ _ _ _ h
  | .mulhu _ _ _ _ => aluA_memOk mulhuW _ _ _ _ h
  | .div _ _ _ _ => startDiv_memOk true _ _ _ _ h
  | .divu _ _ _ _ => startDiv_memOk false _ _ _ _ h
  | .clz _ _ _ => execClz_memOk _ _ _ h
  | .andAr _ _ _ _ => aluA_memOk (· &&& ·) _ _ _ _ h
  | .orAr _ _ _ _ => aluA_memOk (· ||| ·) _ _ _ _ h
  | .xorAr _ _ _ _ => aluA_memOk (· ^^^ ·) _ _ _ _ h
  | .shlAr _ _ _ _ => aluA_memOk shlW _ _ _ _ h
  | .shrAr _ _ _ _ => aluA_memOk shrW _ _ _ _ h
  | .sraAr _ _ _ _ => aluA_memOk sraW _ _ _ _ h
  | .popc _ _ _ => execPopc_memOk _ _ _ h
  | .min _ _ _ _ => aluA_memOk minW _ _ _ _ h
  | .max _ _ _ _ => aluA_memOk maxW _ _ _ _ h
  | .minu _ _ _ _ => aluA_memOk minuW _ _ _ _ h
  | .maxu _ _ _ _ => aluA_memOk maxuW _ _ _ _ h
  | .addAi _ _ _ _ => immA_memOk (· + ·) _ _ _ _ h
  | .andAi _ _ _ _ => immA_memOk (· &&& ·) _ _ _ _ h
  | .orAi _ _ _ _ => immA_memOk (· ||| ·) _ _ _ _ h
  | .xorAi _ _ _ _ => immA_memOk (· ^^^ ·) _ _ _ _ h
  | .shlAi _ _ _ _ => immA_memOk shlW _ _ _ _ h
  | .shrAi _ _ _ _ => immA_memOk shrW _ _ _ _ h
  | .sraAi _ _ _ _ => immA_memOk sraW _ _ _ _ h
  | .cmpEqAr _ _ _ _ => cmpA_memOk .eq _ _ _ _ h
  | .cmpNeAr _ _ _ _ => cmpA_memOk .ne _ _ _ _ h
  | .cmpLtAr _ _ _ _ => cmpA_memOk .lt _ _ _ _ h
  | .cmpLeAr _ _ _ _ => cmpA_memOk .le _ _ _ _ h
  | .cmpLtuAr _ _ _ _ => cmpA_memOk .ltu _ _ _ _ h
  | .cmpLeuAr _ _ _ _ => cmpA_memOk .leu _ _ _ _ h
  | .sysRd _ _ _ => execSysRd_memOk _ _ _ h
  | .sysWr _ _ _ => execSysWr_memOk _ _ _ h
  | .moviAw _ _ _ => execMoviAw_memOk _ _ _ h
  | .nopB _ => nop_memOk h
  | .addB3 _ _ _ _ => aluB_memOk (· + ·) _ _ _ _ h
  | .subB3 _ _ _ _ => aluB_memOk (· - ·) _ _ _ _ h
  | .andB3 _ _ _ _ => aluB_memOk (· &&& ·) _ _ _ _ h
  | .orB3 _ _ _ _ => aluB_memOk (· ||| ·) _ _ _ _ h
  | .xorB3 _ _ _ _ => aluB_memOk (· ^^^ ·) _ _ _ _ h
  | .shlB3 _ _ _ _ => aluB_memOk shlW _ _ _ _ h
  | .shrB3 _ _ _ _ => aluB_memOk shrW _ _ _ _ h
  | .sraB3 _ _ _ _ => aluB_memOk sraW _ _ _ _ h
  | .lea _ _ _ _ sh => aluB_memOk (fun a b => a + b <<< sh.toNat) _ _ _ _ h
  | .sel _ _ _ _ _ => execSel_memOk _ _ _ _ _ h
  | .extB _ _ _ _ _ => execExtB_memOk _ _ _ _ _ h
  | .insB _ _ _ _ _ => execInsB_memOk _ _ _ _ _ h
  | .addBi _ _ _ _ => execAddBi_memOk _ _ _ _ h
  | .moviBw _ _ _ => execMoviBw_memOk _ _ _ h
  | .movhi _ _ _ => execMovhi_memOk _ _ _ h
  | .cmpB3 _ _ _ _ _ => execCmpB3_memOk _ _ _ _ _ h
  | .cmpBc _ _ _ _ _ => execCmpBc_memOk _ _ _ _ _ h
  | .fcmp _ _ _ _ _ => execFcmp_memOk _ _ _ _ _ h

/-! ### Every step -/

theorem State.tryAt_memOk {s : State} (q : Nat) (e : Win) (n : Nat) (h : s.memOk = true) : Result.memOk (s.tryAt q e n) = true := by
  unfold State.tryAt
  refine exec_memOk ?_ _
  exact State.memOk_of_mem (s := s) rfl h

theorem State.memOk_firstStall {s t : State} {q : Nat} {e : Win} (h : s.memOk = true) (ht : s.firstStall q e = some t) :
    t.memOk = true := by
  obtain ⟨n, _, hn⟩ := List.exists_of_findSome?_eq_some ht
  have hs := State.tryAt_memOk q e n h
  split at hn
  · split at hn
    · cases hn
      exact Result.memOk_next hs ‹_›
    · cases hn
  · cases hn

/-- A fold over results keeps the form when each of its steps does. -/
theorem Result.memOk_foldl {α : Type} {f : Result → α → Result} (hf : ∀ r a, Result.memOk r = true → Result.memOk (f r a) = true)
    (l : List α) {r : Result} (h : Result.memOk r = true) : Result.memOk (l.foldl f r) = true := by
  induction l generalizing r with
  | nil => exact h
  | cons a t ih => exact ih (hf r a h)

theorem State.issueWhole_memOk {s : State} (q : Nat) (e : Win) (h : s.memOk = true) : Result.memOk (s.issueWhole q e) = true := by
  unfold State.issueWhole
  split
  · have ht := State.memOk_firstStall h ‹_›
    exact State.memOk_of_mem rfl ht
  · refine Result.memOk_foldl (fun r n hr => ?_) _ (r := .next s) h
    split
    · split
      · exact State.tryAt_memOk _ _ _ hr
      · exact hr
    · exact hr

/-- The state in which an action begins. -/
def Action.start : Action → State
  | .run s _ | .whole s _ _ | .mail s _ | .rest s => s

theorem Turn.act_start (t : Turn) (s : State) : (t.act s).start = s := by
  cases t <;> rfl

@[simp] theorem State.yield_mem (s : State) : s.yield.mem = s.mem := rfl

/-- The turn of a sequencer begins with the memory as it stands. -/
theorem State.seqTurn_mem {s : State} {a : Action} (e : s.seqTurn = some a) : a.start.mem = s.mem := by
  unfold State.seqTurn at e
  extract_lets q x s0 at e
  split at e
  · cases e
  · split at e
    · cases e; rfl
    · split at e
      · cases e; rfl
      · split at e
        · cases e
          split <;> rfl
        · split at e
          · cases e; rfl
          · split at e
            · cases e; rfl
            · split at e
              · cases e; rfl
              · cases e

/-- The next action begins with the memory as it stands. -/
theorem State.nextAction_mem (s : State) : s.nextAction.start.mem = s.mem := by
  unfold State.nextAction
  split
  · exact congrArg State.mem (Turn.act_start _ _)
  · split
    · exact State.seqTurn_mem ‹_›
    · dsimp only
      split
      · exact (congrArg State.mem (Turn.act_start _ _)).trans (State.yield_mem _)
      · exact State.yield_mem _

theorem step_memOk {s : State} (h : s.memOk = true) : Result.memOk (step s) = true := by
  have he := State.memOk_elapse h
  unfold step
  extract_lets u
  have hu : u.memOk = true := he
  have ha := State.memOk_of_mem (State.nextAction_mem u) hu
  clear_value u
  split
  · rfl
  · split
    · refine exec_memOk ?_ _
      exact State.memOk_of_mem (s := u) rfl hu
    · split <;> rename_i e <;> rw [e] at ha
      · exact exec_memOk ha _
      · exact State.issueWhole_memOk _ _ ha
      · exact State.serveMail_memOk _ ha
      · exact ha

/-- Settles O59: each row of the opcode table keeps the form, by a lemma for every operation that it is made of; a step runs rows, from a
state whose memories are those before it. -/
theorem memoriesStayCanonical : Obligations.MemoriesStayCanonical := by
  unfold Obligations.MemoriesStayCanonical
  constructor
  · exact fun i s t h e => Result.memOk_next (exec_memOk h i) e
  · exact fun s t h e => Result.memOk_next (step_memOk h) e

end Sys2Proof.Machine
end

section
/-! PROOFS. The state after reset. -/

namespace Sys2Proof.Machine

/-! ### The state after reset -/

/-- Nothing is listed after reset, so a sequencer reads as one that nothing has written. -/
theorem State.reset_seq (q : Nat) : State.reset.seq q = {} := rfl

theorem Regs.getS_empty (n : BitVec 6) : ({} : Regs).getS n = 0#64 := ite_self _

theorem Regs.getP_empty {n : BitVec 7} (hn : n ≠ 0#7) : ({} : Regs).getP n = 0#32 := if_neg hn

/-- Settles O60: each table is empty after reset, and what a table does not list reads as the default of its kind. -/
theorem resetLeavesTheStatedValues : Obligations.ResetLeavesTheStatedValues := by
  unfold Obligations.ResetLeavesTheStatedValues
  refine ⟨rfl, rfl, rfl, rfl, fun q => ?_, fun _ => rfl, fun _ => rfl, fun _ => rfl, fun _ => ⟨rfl, rfl⟩, fun _ => rfl⟩
  rw [State.reset_seq]
  exact ⟨rfl, rfl, fun _ => ⟨rfl, rfl⟩, fun _ => ⟨rfl, rfl⟩, fun _ => ⟨rfl, rfl⟩, Regs.getS_empty, fun _ => Regs.getP_empty, fun _ => rfl⟩

end Sys2Proof.Machine
end

section
/-! PROOFS. A fill that passes the memory-side cache by. -/

namespace Sys2Proof.Machine

/-! ### A miss under a policy that allocates nothing -/

/-- A memory-side cache that holds the row of line 0 with another sector of it, under a policy by which reads allocate nothing (spec/18
R391). -/
def fillPassedBy : State :=
  { dies := [(0, { msc := [(0, { way := 0, ctx := 1, valid := 2#32, dirty := 0#32, use_ := 0 })], pol := [(0, { rp := 2#2 })] })] }

/-- The fill of line 0 goes past the cache: the row keeps the one sector that it had. -/
theorem cacheFill_of_fillPassedBy {t : State} (ht : exec (.cacheFill .msc 0 1 0) fillPassedBy = .next t) :
    (Tab.get? (t.die 0).msc 0).map MscLine.valid = some 2#32 := by
  injection ht with ht
  subst ht
  decide

/-- Refutes O44: a row of the memory-side cache that is present without the sector of the line satisfies the premise of the fill whatever
the policy; under read policy 2 CACHE_FILL brings nothing in, and the sector stays invalid. -/
theorem not_fetchIssueAndFillsKeepRegisters : ¬ Obligations.FetchIssueAndFillsKeepRegisters := by
  unfold Obligations.FetchIssueAndFillsKeepRegisters
  intro ⟨_, _, fills, _⟩
  obtain ⟨t, ht, _, filled⟩ := fills fillPassedBy .msc 0 1 0 (by decide) (by decide)
  obtain ⟨x, hx, hvalid⟩ := filled (by decide) (.inl (by decide))
  have hrow : (Tab.get? (t.die 0).msc 0).map MscLine.valid = some 2#32 := cacheFill_of_fillPassedBy ht
  have hx0 : Tab.get? (t.die 0).msc 0 = some x := hx
  rw [hx0, Option.map_some, Option.some.injEq] at hrow
  rw [hrow] at hvalid
  exact absurd hvalid (by decide)

end Sys2Proof.Machine
end

section
/-! PROOFS. Encodings: every well-formed instruction is decoded from its encoding, and the words that the spec writes out (spec/02 R18 to
R21, R36 to R47; spec/22 R416, R419). -/

namespace Sys2Proof

open Machine

/-! ### Every row of the opcode table -/

/-- Each row, by the law about its constructor. -/
theorem decode_encode : ∀ i : Instr, Laws.Codec.Statement i
  | .groupCheck _ => Laws.Codec.groupCheck _
  | .bundleIssue _ _ => Laws.Codec.bundleIssue _ _
  | .fmtSetEffect _ => Laws.Codec.fmtSetEffect _
  | .divComplete _ => Laws.Codec.divComplete _
  | .loadDataReturn _ _ => Laws.Codec.loadDataReturn _ _
  | .storePerform _ _ => Laws.Codec.storePerform _ _
  | .pageWalkComplete _ _ _ => Laws.Codec.pageWalkComplete _ _ _
  | .cacheFill _ _ _ _ => Laws.Codec.cacheFill _ _ _ _
  | .streamFill _ _ => Laws.Codec.streamFill _ _
  | .streamDrain _ _ => Laws.Codec.streamDrain _ _
  | .matrixCompletion _ => Laws.Codec.matrixCompletion _
  | .shadowEntryApply _ => Laws.Codec.shadowEntryApply _
  | .bufferStateChange _ => Laws.Codec.bufferStateChange _
  | .bufferZeroingDone _ _ => Laws.Codec.bufferZeroingDone _ _
  | .specRegionEnd _ => Laws.Codec.specRegionEnd _
  | .fenceComplete _ => Laws.Codec.fenceComplete _
  | .haltStop _ => Laws.Codec.haltStop _
  | .faultRecordRetry _ => Laws.Codec.faultRecordRetry _
  | .scopedAtomicExecute _ => Laws.Codec.scopedAtomicExecute _
  | .scopedCopyWriteback _ _ => Laws.Codec.scopedCopyWriteback _ _
  | .halyardAtomicExecute _ => Laws.Codec.halyardAtomicExecute _
  | .atomicResultReturn _ _ => Laws.Codec.atomicResultReturn _ _
  | .pennantAdd _ => Laws.Codec.pennantAdd _
  | .waiterWake _ => Laws.Codec.waiterWake _
  | .waiterPoll _ => Laws.Codec.waiterPoll _
  | .mcasLockGrant _ => Laws.Codec.mcasLockGrant _
  | .mcasWindowExpire _ => Laws.Codec.mcasWindowExpire _
  | .mcasBackoffExpire _ => Laws.Codec.mcasBackoffExpire _
  | .mcasResultReturn _ => Laws.Codec.mcasResultReturn _
  | .patchEngineComplete _ => Laws.Codec.patchEngineComplete _
  | .copyStart _ => Laws.Codec.copyStart _
  | .copyChunk _ => Laws.Codec.copyChunk _
  | .copyComplete _ => Laws.Codec.copyComplete _
  | .remoteCopyPennantAdd _ _ _ => Laws.Codec.remoteCopyPennantAdd _ _ _
  | .queueTailWrite _ _ => Laws.Codec.queueTailWrite _ _
  | .launchDispatch _ => Laws.Codec.launchDispatch _
  | .nodeFire _ _ => Laws.Codec.nodeFire _ _
  | .launchEnd _ => Laws.Codec.launchEnd _
  | .schedDecision _ => Laws.Codec.schedDecision _
  | .preemptRequest _ => Laws.Codec.preemptRequest _
  | .saveStart _ => Laws.Codec.saveStart _
  | .graceTimerExpire _ => Laws.Codec.graceTimerExpire _
  | .killTimerExpire _ => Laws.Codec.killTimerExpire _
  | .killComplete _ => Laws.Codec.killComplete _
  | .contextSaveComplete _ => Laws.Codec.contextSaveComplete _
  | .contextLoadComplete _ => Laws.Codec.contextLoadComplete _
  | .groupScrubComplete _ => Laws.Codec.groupScrubComplete _
  | .contextScrubComplete _ => Laws.Codec.contextScrubComplete _
  | .homeRds _ _ => Laws.Codec.homeRds _ _
  | .homeRdx _ _ => Laws.Codec.homeRdx _ _
  | .homeHal _ => Laws.Codec.homeHal _
  | .homeWb _ _ => Laws.Codec.homeWb _ _
  | .engineHomeRead _ => Laws.Codec.engineHomeRead _
  | .engineHomeWrite _ _ _ => Laws.Codec.engineHomeWrite _ _ _
  | .snoopInvalidate _ _ => Laws.Codec.snoopInvalidate _ _
  | .movedResponse _ => Laws.Codec.movedResponse _
  | .pennantValueReturn _ => Laws.Codec.pennantValueReturn _
  | .segmentUnitsComplete _ => Laws.Codec.segmentUnitsComplete _
  | .conditionWordWrite _ => Laws.Codec.conditionWordWrite _
  | .nopA _ => Laws.Codec.nopA _
  | .br _ _ => Laws.Codec.br _ _
  | .jmp _ _ _ => Laws.Codec.jmp _ _ _
  | .call _ _ => Laws.Codec.call _ _
  | .ret _ _ => Laws.Codec.ret _ _
  | .trap _ _ => Laws.Codec.trap _ _
  | .halt _ _ => Laws.Codec.halt _ _
  | .lbrk _ _ _ => Laws.Codec.lbrk _ _ _
  | .loop _ _ _ => Laws.Codec.loop _ _ _
  | .loopSp _ _ _ _ => Laws.Codec.loopSp _ _ _ _
  | .specBegin _ => Laws.Codec.specBegin _
  | .specCommit _ => Laws.Codec.specCommit _
  | .specAbort _ => Laws.Codec.specAbort _
  | .fmtSet _ _ _ _ _ => Laws.Codec.fmtSet _ _ _ _ _
  | .shf _ _ _ _ => Laws.Codec.shf _ _ _ _
  | .addAr _ _ _ _ => Laws.Codec.addAr _ _ _ _
  | .subAr _ _ _ _ => Laws.Codec.subAr _ _ _ _
  | .mul _ _ _ _ => Laws.Codec.mul _ _ _ _
  | .mulh _ _ _ _ => Laws.Codec.mulh _ _ _ _
  | .mulhu _ _ _ _ => Laws.Codec.mulhu _ _ _ _
  | .div _ _ _ _ => Laws.Codec.div _ _ _ _
  | .divu _ _ _ _ => Laws.Codec.divu _ _ _ _
  | .clz _ _ _ => Laws.Codec.clz _ _ _
  | .andAr _ _ _ _ => Laws.Codec.andAr _ _ _ _
  | .orAr _ _ _ _ => Laws.Codec.orAr _ _ _ _
  | .xorAr _ _ _ _ => Laws.Codec.xorAr _ _ _ _
  | .shlAr _ _ _ _ => Laws.Codec.shlAr _ _ _ _
  | .shrAr _ _ _ _ => Laws.Codec.shrAr _ _ _ _
  | .sraAr _ _ _ _ => Laws.Codec.sraAr _ _ _ _
  | .popc _ _ _ => Laws.Codec.popc _ _ _
  | .min _ _ _ _ => Laws.Codec.min _ _ _ _
  | .max _ _ _ _ => Laws.Codec.max _ _ _ _
  | .minu _ _ _ _ => Laws.Codec.minu _ _ _ _
  | .maxu _ _ _ _ => Laws.Codec.maxu _ _ _ _
  | .addAi _ _ _ _ => Laws.Codec.addAi _ _ _ _
  | .andAi _ _ _ _ => Laws.Codec.andAi _ _ _ _
  | .orAi _ _ _ _ => Laws.Codec.orAi _ _ _ _
  | .xorAi _ _ _ _ => Laws.Codec.xorAi _ _ _ _
  | .shlAi _ _ _ _ => Laws.Codec.shlAi _ _ _ _
  | .shrAi _ _ _ _ => Laws.Codec.shrAi _ _ _ _
  | .sraAi _ _ _ _ => Laws.Codec.sraAi _ _ _ _
  | .cmpEqAr _ _ _ _ => Laws.Codec.cmpEqAr _ _ _ _
  | .cmpNeAr _ _ _ _ => Laws.Codec.cmpNeAr _ _ _ _
  | .cmpLtAr _ _ _ _ => Laws.Codec.cmpLtAr _ _ _ _
  | .cmpLeAr _ _ _ _ => Laws.Codec.cmpLeAr _ _ _ _
  | .cmpLtuAr _ _ _ _ => Laws.Codec.cmpLtuAr _ _ _ _
  | .cmpLeuAr _ _ _ _ => Laws.Codec.cmpLeuAr _ _ _ _
  | .sysRd _ _ _ => Laws.Codec.sysRd _ _ _
  | .sysWr _ _ _ => Laws.Codec.sysWr _ _ _
  | .moviAw _ _ _ => Laws.Codec.moviAw _ _ _
  | .nopB _ => Laws.Codec.nopB _
  | .addB3 _ _ _ _ => Laws.Codec.addB3 _ _ _ _
  | .subB3 _ _ _ _ => Laws.Codec.subB3 _ _ _ _
  | .andB3 _ _ _ _ => Laws.Codec.andB3 _ _ _ _
  | .orB3 _ _ _ _ => Laws.Codec.orB3 _ _ _ _
  | .xorB3 _ _ _ _ => Laws.Codec.xorB3 _ _ _ _
  | .shlB3 _ _ _ _ => Laws.Codec.shlB3 _ _ _ _
  | .shrB3 _ _ _ _ => Laws.Codec.shrB3 _ _ _ _
  | .sraB3 _ _ _ _ => Laws.Codec.sraB3 _ _ _ _
  | .lea _ _ _ _ _ => Laws.Codec.lea _ _ _ _ _
  | .sel _ _ _ _ _ => Laws.Codec.sel _ _ _ _ _
  | .extB _ _ _ _ _ => Laws.Codec.extB _ _ _ _ _
  | .insB _ _ _ _ _ => Laws.Codec.insB _ _ _ _ _
  | .addBi _ _ _ _ => Laws.Codec.addBi _ _ _ _
  | .moviBw _ _ _ => Laws.Codec.moviBw _ _ _
  | .movhi _ _ _ => Laws.Codec.movhi _ _ _
  | .cmpB3 _ _ _ _ _ => Laws.Codec.cmpB3 _ _ _ _ _
  | .cmpBc _ _ _ _ _ => Laws.Codec.cmpBc _ _ _ _ _
  | .fcmp _ _ _ _ _ => Laws.Codec.fcmp _ _ _ _ _
  | .pand _ _ _ _ _ => Laws.Codec.pand _ _ _ _ _
  | .por _ _ _ _ _ => Laws.Codec.por _ _ _ _ _
  | .pxor _ _ _ _ _ => Laws.Codec.pxor _ _ _ _ _
  | .pnot _ _ _ => Laws.Codec.pnot _ _ _
  | .pmov _ _ _ => Laws.Codec.pmov _ _ _
  | .pset _ _ _ _ _ => Laws.Codec.pset _ _ _ _ _
  | .ldB _ _ _ _ _ => Laws.Codec.ldB _ _ _ _ _
  | .ldH _ _ _ _ _ => Laws.Codec.ldH _ _ _ _ _
  | .ldW _ _ _ _ _ => Laws.Codec.ldW _ _ _ _ _
  | .ldD _ _ _ _ _ => Laws.Codec.ldD _ _ _ _ _
  | .stB _ _ _ _ _ => Laws.Codec.stB _ _ _ _ _
  | .stH _ _ _ _ _ => Laws.Codec.stH _ _ _ _ _
  | .stW _ _ _ _ _ => Laws.Codec.stW _ _ _ _ _
  | .stD _ _ _ _ _ => Laws.Codec.stD _ _ _ _ _
  | .pf _ _ _ _ => Laws.Codec.pf _ _ _ _
  | .lqPop _ _ => Laws.Codec.lqPop _ _
  | .ldSp _ _ _ _ => Laws.Codec.ldSp _ _ _ _
  | .stSp _ _ _ _ => Laws.Codec.stSp _ _ _ _
  | .tsLd _ _ _ _ _ _ => Laws.Codec.tsLd _ _ _ _ _ _
  | .tsSt _ _ _ _ _ => Laws.Codec.tsSt _ _ _ _ _
  | .atR _ _ _ _ _ => Laws.Codec.atR _ _ _ _ _
  | .atCas _ _ _ _ _ => Laws.Codec.atCas _ _ _ _ _
  | .red _ _ _ _ _ => Laws.Codec.red _ _ _ _ _
  | .mcas _ _ _ => Laws.Codec.mcas _ _ _
  | .fence _ _ => Laws.Codec.fence _ _
  | .xfence _ _ _ => Laws.Codec.xfence _ _ _
  | .bfDecl _ _ _ _ _ _ => Laws.Codec.bfDecl _ _ _ _ _ _
  | .bfFill _ _ => Laws.Codec.bfFill _ _
  | .bfDone _ _ => Laws.Codec.bfDone _ _
  | .bfDrain _ _ => Laws.Codec.bfDrain _ _
  | .bfFree _ _ => Laws.Codec.bfFree _ _
  | .bfState _ _ _ => Laws.Codec.bfState _ _ _
  | .pnAdd _ _ _ _ _ => Laws.Codec.pnAdd _ _ _ _ _
  | .pnWait _ _ _ _ _ => Laws.Codec.pnWait _ _ _ _ _
  | .pnTest _ _ _ _ _ => Laws.Codec.pnTest _ _ _ _ _
  | .pnRead _ _ _ _ => Laws.Codec.pnRead _ _ _ _
  | .rbAwait _ _ _ _ _ => Laws.Codec.rbAwait _ _ _ _ _
  | .rbRelease _ _ _ _ => Laws.Codec.rbRelease _ _ _ _
  | .nopC _ => Laws.Codec.nopC _
  | .vld _ _ _ _ _ _ _ => Laws.Codec.vld _ _ _ _ _ _ _
  | .vst _ _ _ _ _ _ _ => Laws.Codec.vst _ _ _ _ _ _ _
  | .vaddC3 _ _ _ _ _ _ => Laws.Codec.vaddC3 _ _ _ _ _ _
  | .vsubC3 _ _ _ _ _ _ => Laws.Codec.vsubC3 _ _ _ _ _ _
  | .vmulC3 _ _ _ _ _ _ => Laws.Codec.vmulC3 _ _ _ _ _ _
  | .vfmaC3 _ _ _ _ _ _ => Laws.Codec.vfmaC3 _ _ _ _ _ _
  | .vminC3 _ _ _ _ _ _ => Laws.Codec.vminC3 _ _ _ _ _ _
  | .vmaxC3 _ _ _ _ _ _ => Laws.Codec.vmaxC3 _ _ _ _ _ _
  | .vand _ _ _ _ _ => Laws.Codec.vand _ _ _ _ _
  | .vor _ _ _ _ _ => Laws.Codec.vor _ _ _ _ _
  | .vxor _ _ _ _ _ => Laws.Codec.vxor _ _ _ _ _
  | .vshlC3 _ _ _ _ _ _ => Laws.Codec.vshlC3 _ _ _ _ _ _
  | .vshrC3 _ _ _ _ _ _ => Laws.Codec.vshrC3 _ _ _ _ _ _
  | .vsel _ _ _ _ _ => Laws.Codec.vsel _ _ _ _ _
  | .vcmp _ _ _ _ _ _ => Laws.Codec.vcmp _ _ _ _ _ _
  | .vaddCs _ _ _ _ _ _ => Laws.Codec.vaddCs _ _ _ _ _ _
  | .vsubCs _ _ _ _ _ _ => Laws.Codec.vsubCs _ _ _ _ _ _
  | .vmulCs _ _ _ _ _ _ => Laws.Codec.vmulCs _ _ _ _ _ _
  | .vfmaCs _ _ _ _ _ _ => Laws.Codec.vfmaCs _ _ _ _ _ _
  | .vminCs _ _ _ _ _ _ => Laws.Codec.vminCs _ _ _ _ _ _
  | .vmaxCs _ _ _ _ _ _ => Laws.Codec.vmaxCs _ _ _ _ _ _
  | .vshlCs _ _ _ _ _ _ => Laws.Codec.vshlCs _ _ _ _ _ _
  | .vshrCs _ _ _ _ _ _ => Laws.Codec.vshrCs _ _ _ _ _ _
  | .vcvt _ _ _ _ _ _ _ => Laws.Codec.vcvt _ _ _ _ _ _ _
  | .vhad _ _ _ _ _ _ => Laws.Codec.vhad _ _ _ _ _ _
  | .vred _ _ _ _ _ _ => Laws.Codec.vred _ _ _ _ _ _
  | .vperm _ _ _ _ _ => Laws.Codec.vperm _ _ _ _ _
  | .vbcast _ _ _ _ _ => Laws.Codec.vbcast _ _ _ _ _
  | .vrcp _ _ _ _ => Laws.Codec.vrcp _ _ _ _
  | .vrsqrt _ _ _ _ => Laws.Codec.vrsqrt _ _ _ _
  | .vexp2 _ _ _ _ => Laws.Codec.vexp2 _ _ _ _
  | .vlog2 _ _ _ _ => Laws.Codec.vlog2 _ _ _ _
  | .stb _ _ _ _ _ => Laws.Codec.stb _ _ _ _ _
  | .stu _ _ => Laws.Codec.stu _ _
  | .nopD _ => Laws.Codec.nopD _
  | .mmLdw _ _ _ _ _ => Laws.Codec.mmLdw _ _ _ _ _
  | .mm _ _ _ _ _ _ _ => Laws.Codec.mm _ _ _ _ _ _ _
  | .mmChain _ _ _ _ _ _ => Laws.Codec.mmChain _ _ _ _ _ _
  | .mmZero _ _ _ => Laws.Codec.mmZero _ _ _
  | .mmWb _ _ _ _ _ _ => Laws.Codec.mmWb _ _ _ _ _ _
  | .mmRd _ _ _ _ _ => Laws.Codec.mmRd _ _ _ _ _
  | .mmRdSt _ _ _ _ => Laws.Codec.mmRdSt _ _ _ _
  | .mmFuse _ _ => Laws.Codec.mmFuse _ _
  | .paOpen _ _ _ _ _ => Laws.Codec.paOpen _ _ _ _ _
  | .paClose _ _ => Laws.Codec.paClose _ _
  | .paApply _ _ _ => Laws.Codec.paApply _ _ _
  | .paInv _ _ _ => Laws.Codec.paInv _ _ _
  | .paComm _ _ _ => Laws.Codec.paComm _ _ _
  | .paXplant _ _ _ _ => Laws.Codec.paXplant _ _ _ _
  | .paSquash _ _ _ => Laws.Codec.paSquash _ _ _
  | .paSnap _ _ _ => Laws.Codec.paSnap _ _ _
  | .paDropPort _ _ => Laws.Codec.paDropPort _ _
  | .paDropClosed _ _ _ => Laws.Codec.paDropClosed _ _ _
  | .paQuery _ _ _ _ => Laws.Codec.paQuery _ _ _ _
  | .paNorm _ _ _ _ => Laws.Codec.paNorm _ _ _ _
  | .grLaunch _ _ _ => Laws.Codec.grLaunch _ _ _
  | .grArrive _ _ => Laws.Codec.grArrive _ _
  | .grCond _ _ _ => Laws.Codec.grCond _ _ _
  | .grDone _ => Laws.Codec.grDone _
  | .segPromote _ _ _ _ => Laws.Codec.segPromote _ _ _ _
  | .segPin _ _ _ _ => Laws.Codec.segPin _ _ _ _
  | .segUnpin _ _ _ _ => Laws.Codec.segUnpin _ _ _ _
  | .segDemote _ _ _ _ => Laws.Codec.segDemote _ _ _ _
  | .segQuery _ _ _ => Laws.Codec.segQuery _ _ _
  | .bringupStage _ => Laws.Codec.bringupStage _
  | .clockReplan _ => Laws.Codec.clockReplan _
  | .registerWrite _ _ _ => Laws.Codec.registerWrite _ _ _
  | .hostMemRd _ _ => Laws.Codec.hostMemRd _ _
  | .hostMemWr _ _ _ => Laws.Codec.hostMemWr _ _ _
  | .hostMemWrPtl _ _ _ _ => Laws.Codec.hostMemWrPtl _ _ _ _
  | .hostBisnpinvResponse _ => Laws.Codec.hostBisnpinvResponse _
  | .hostCacheSnoop _ => Laws.Codec.hostCacheSnoop _
  | .tdispLockInterface _ => Laws.Codec.tdispLockInterface _
  | .tdispStartInterface _ => Laws.Codec.tdispStartInterface _
  | .tdispStopInterface _ => Laws.Codec.tdispStopInterface _
  | .tdiLockedRegisterWrite _ _ _ => Laws.Codec.tdiLockedRegisterWrite _ _ _
  | .portTrained _ _ => Laws.Codec.portTrained _ _
  | .portPeerSilent _ => Laws.Codec.portPeerSilent _
  | .flitCrcReplay _ => Laws.Codec.flitCrcReplay _
  | .deviceUnreachable _ => Laws.Codec.deviceUnreachable _
  | .swredContribution _ _ _ => Laws.Codec.swredContribution _ _ _
  | .warmReset => Laws.Codec.warmReset
  | .coldReset => Laws.Codec.coldReset
  | .hostLinkTraining _ _ => Laws.Codec.hostLinkTraining _ _
  | .spdmSessionMessage _ => Laws.Codec.spdmSessionMessage _
  | .ccreate _ _ _ _ _ _ _ _ _ => Laws.Codec.ccreate _ _ _ _ _ _ _ _ _
  | .cset _ _ _ _ => Laws.Codec.cset _ _ _ _
  | .carea _ _ _ _ => Laws.Codec.carea _ _ _ _
  | .cwin _ _ _ _ _ => Laws.Codec.cwin _ _ _ _ _
  | .climit _ _ _ _ => Laws.Codec.climit _ _ _ _
  | .cpreempt _ _ _ _ => Laws.Codec.cpreempt _ _ _ _
  | .cresume _ _ _ _ => Laws.Codec.cresume _ _ _ _
  | .ckill _ _ => Laws.Codec.ckill _ _
  | .ckey _ _ _ => Laws.Codec.ckey _ _ _
  | .cdestroy _ _ _ _ => Laws.Codec.cdestroy _ _ _ _
  | .cread _ _ => Laws.Codec.cread _ _
  | .qcreate _ _ _ _ _ _ _ => Laws.Codec.qcreate _ _ _ _ _ _ _
  | .qset _ _ _ => Laws.Codec.qset _ _ _
  | .qpause _ _ => Laws.Codec.qpause _ _
  | .qresume _ _ => Laws.Codec.qresume _ _
  | .qreset _ _ => Laws.Codec.qreset _ _
  | .qdestroy _ _ => Laws.Codec.qdestroy _ _
  | .ownset _ _ _ => Laws.Codec.ownset _ _ _
  | .qread _ _ => Laws.Codec.qread _ _
  | .gcreate _ _ _ _ => Laws.Codec.gcreate _ _ _ _
  | .gdestroy _ _ => Laws.Codec.gdestroy _ _
  | .gbind _ _ _ => Laws.Codec.gbind _ _ _
  | .gunbind _ _ _ => Laws.Codec.gunbind _ _ _
  | .lend _ _ _ => Laws.Codec.lend _ _ _
  | .recallGroup _ _ => Laws.Codec.recallGroup _ _
  | .gread _ _ => Laws.Codec.gread _ _
  | .vmroot _ _ _ _ => Laws.Codec.vmroot _ _ _ _
  | .s2map _ _ _ _ _ _ _ _ _ _ => Laws.Codec.s2map _ _ _ _ _ _ _ _ _ _
  | .s2unmap _ _ _ _ => Laws.Codec.s2unmap _ _ _ _
  | .s2clean _ _ _ _ => Laws.Codec.s2clean _ _ _ _
  | .tlbinv _ _ _ _ _ => Laws.Codec.tlbinv _ _ _ _ _
  | .frset _ _ _ => Laws.Codec.frset _ _ _
  | .segquota _ _ _ => Laws.Codec.segquota _ _ _
  | .mscset _ _ _ _ _ _ _ _ => Laws.Codec.mscset _ _ _ _ _ _ _ _
  | .hmove _ _ _ => Laws.Codec.hmove _ _ _
  | .hdmset _ _ _ _ _ _ _ => Laws.Codec.hdmset _ _ _ _ _ _ _
  | .tdibind _ _ _ => Laws.Codec.tdibind _ _ _
  | .lnkdom _ _ _ => Laws.Codec.lnkdom _ _ _
  | .poolset _ _ _ _ _ _ => Laws.Codec.poolset _ _ _ _ _ _
  | .swred _ _ _ _ _ _ _ => Laws.Codec.swred _ _ _ _ _ _ _
  | .domfault _ _ => Laws.Codec.domfault _ _
  | .ownnew _ _ _ => Laws.Codec.ownnew _ _ _
  | .owndel _ _ => Laws.Codec.owndel _ _
  | .readback _ _ _ _ _ _ => Laws.Codec.readback _ _ _ _ _ _
  | .usage _ _ _ _ => Laws.Codec.usage _ _ _ _
  | .idget _ _ _ => Laws.Codec.idget _ _ _
  | .attest _ _ _ => Laws.Codec.attest _ _ _
  | .keyx _ _ _ => Laws.Codec.keyx _ _ _
  | .margin _ _ => Laws.Codec.margin _ _
  | .errlog _ _ _ _ => Laws.Codec.errlog _ _ _ _
  | .scrread _ _ => Laws.Codec.scrread _ _
  | .fwinfo _ => Laws.Codec.fwinfo _
  | .halovf _ _ _ _ => Laws.Codec.halovf _ _ _ _

/-- A row is an event, a slot instruction or a command. -/
theorem event_or_encoded (i : Instr) : (Stmt.isEvent i || (encode i).isSome || (encodeCmd i).isSome) = true := by
  cases i <;> rfl

/-- Settles O54: each constructor decodes from what it encodes to, by its own law; every row that is no event is encoded. -/
theorem instructionsSurviveTheirEncoding : Obligations.InstructionsSurviveTheirEncoding := by
  unfold Obligations.InstructionsSurviveTheirEncoding
  intro i hwf
  refine ⟨fun hEvent => ?_, decode_encode i hwf⟩
  have h := event_or_encoded i
  rw [hEvent, Bool.false_or, Bool.or_eq_true] at h
  exact h

/-- Settles O55: the decoder is run on each word. -/
theorem specWordsDecode : Obligations.SpecWordsDecode := by
  unfold Obligations.SpecWordsDecode
  exact ⟨rfl, rfl, rfl, rfl, rfl, rfl, rfl, rfl, rfl, rfl, rfl⟩

end Sys2Proof
end

section
/-! PROOFS. Guards, and that nothing stops the machine (spec/02 R22, R45; spec/22 R416). -/

namespace Sys2Proof.Machine

/-! ### Slot instructions act under their guard -/

/-- What a guard decides of an answer: with the guard off the slot only issues, and the machine goes on either way (spec/02 R22). -/
structure Guarded (g : BitVec 7) (s : State) (r : Result) : Prop where
  off : s.guardOn g = false → r = .next s.retire
  next : ∃ t, r = .next t

theorem slotOp_guarded (g : BitVec 7) (s : State) (body : State → Res) : Guarded g s (slotOp g s body) :=
  ⟨slotOp_off, slotOp_next g s body⟩

theorem slotDo_guarded (g : BitVec 7) (s : State) (f : State → State) : Guarded g s (slotDo g s f) :=
  ⟨slotDo_off, slotDo_next g s f⟩

theorem aluA_guarded (f : Word → Word → Word) (g : BitVec 4) (d a b : BitVec 6) (s : State) :
    Guarded (g.setWidth 7) s (aluA f g d a b s) := slotDo_guarded ..
theorem immA_guarded (f : Word → Word → Word) (g : BitVec 4) (d a : BitVec 6) (imm : BitVec 7) (s : State) :
    Guarded (g.setWidth 7) s (immA f g d a imm s) := slotDo_guarded ..
theorem aluB_guarded (f : Word → Word → Word) (g : BitVec 7) (x y z : BitVec 6) (s : State) :
    Guarded g s (aluB f g x y z s) := slotDo_guarded ..
theorem cmpA_guarded (c : Cond) (g : BitVec 4) (n a b : BitVec 6) (s : State) :
    Guarded (g.setWidth 7) s (cmpA c g n a b s) := slotDo_guarded ..
theorem predOp_guarded (f : BitVec 32 → BitVec 32 → BitVec 32) (g x y z : BitVec 7) (inv : BitVec 1) (s : State) :
    Guarded g s (predOp f g x y z inv s) := slotDo_guarded ..
theorem startDiv_guarded (b : Bool) (g : BitVec 4) (d x y : BitVec 6) (s : State) :
    Guarded (g.setWidth 7) s (startDiv b g d x y s) := slotOp_guarded ..
theorem jumpTo_guarded (g : BitVec 4) (d a : BitVec 6) (s : State) :
    Guarded (g.setWidth 7) s (jumpTo g d a s) := slotOp_guarded ..
theorem endRegion_guarded (b : Bool) (g : BitVec 4) (s : State) :
    Guarded (g.setWidth 7) s (endRegion b g s) := slotDo_guarded ..
theorem loadOp_guarded (z : Nat) (g : BitVec 7) (x b : BitVec 6) (off : BitVec 11) (acq : Option Scope) (s : State) :
    Guarded g s (loadOp z g x b off acq s) := slotOp_guarded ..
theorem storeOp_guarded (z : Nat) (g : BitVec 7) (x b : BitVec 6) (off : BitVec 11) (rel : Option Scope) (s : State) :
    Guarded g s (storeOp z g x b off rel s) := slotOp_guarded ..
theorem atomicOp_guarded (g : BitVec 7) (b : BitVec 6) (sc : Scope) (s : State) (op : Option AtOp) (x y : State → Word) :
    Guarded g s (atomicOp g b sc s op x y) := slotOp_guarded ..
theorem bufOp_guarded (op : BufOp) (g : BitVec 7) (x : BitVec 6) (s : State) : Guarded g s (bufOp op g x s) := slotOp_guarded ..
theorem vecOp_guarded (g : BitVec 7) (d : VOp) (l : List VOp) (s : State) (f : State → List (BitVec 1024) → VOut) :
    Guarded g s (vecOp g d l s f) := slotOp_guarded ..
theorem c3Op_guarded (op : VFun) (g : BitVec 7) (ty : VTy) (d a b : VOp) (lp : BitVec 7) (s : State) :
    Guarded g s (c3Op op g ty d a b lp s) := vecOp_guarded ..
theorem csOp_guarded (op : VFun) (g : BitVec 7) (ty : VTy2) (d a : VOp) (x : BitVec 6) (lp : BitVec 7) (s : State) :
    Guarded g s (csOp op g ty d a x lp s) := vecOp_guarded ..
theorem bitOp_guarded (f : BitVec 1024 → BitVec 1024 → BitVec 1024) (g : BitVec 7) (d a b : VOp) (lp : BitVec 7) (s : State) :
    Guarded g s (bitOp f g d a b lp s) := vecOp_guarded ..
theorem funOp_guarded (f : Num → Flagged Num) (g : BitVec 7) (d a : VOp) (lp : BitVec 7) (s : State) :
    Guarded g s (funOp f g d a lp s) := vecOp_guarded ..
theorem mxOp_guarded (g : BitVec 7) (tiles : List (BitVec 9)) (s : State) (f : State → Arr → Res) :
    Guarded g s (mxOp g tiles s f) := slotOp_guarded ..
theorem paOp_guarded (g : BitVec 7) (s : State) (f : State → Try Unit) : Guarded g s (paOp g s f) := slotOp_guarded ..
theorem segOp_guarded (op : SegOp) (g : BitVec 7) (x y z : BitVec 6) (s : State) : Guarded g s (segOp op g x y z s) :=
  slotOp_guarded ..

/-- The guard under which a slot instruction is tried: its own, but for a gr.done that was put off (spec/03 R75). -/
def guardTried (i : Instr) (s : State) : BitVec 7 :=
  match i with
  | .grDone g => s.firstGuard g
  | i => guardOf i

/-- Every slot instruction but the nops acts under its guard, each by the shape of its meaning. -/
theorem exec_guarded (i : Instr) (s : State) (hi : (encode i).isSome = true) (hn : i.isNop = false) :
    Guarded (guardTried i s) s (exec i s) := by
  cases i
  all_goals dsimp only [exec, guardTried, guardOf]
  case pand | por | pxor => exact predOp_guarded ..
  case pset | pf | lqPop | br | call | loop | fmtSet | shf | pnot | pmov | clz | popc | sysRd | moviAw | sel | extB | insB |
    addBi | moviBw | movhi | cmpB3 | cmpBc | fcmp => exact slotDo_guarded ..
  case ldB | ldH | ldW | ldD => exact loadOp_guarded ..
  case stB | stH | stW | stD => exact storeOp_guarded ..
  case ldSp | stSp | tsLd | tsSt | red | mcas | fence | xfence | bfDecl | bfState | pnAdd | pnWait | pnTest | pnRead | rbAwait |
    rbRelease | vld | vst | vcmp | stb | stu | mmFuse | paQuery | paNorm | grLaunch | grArrive | grCond | grDone | segQuery |
    trap | halt | lbrk | loopSp | specBegin | sysWr => exact slotOp_guarded ..
  case atR | atCas => exact atomicOp_guarded ..
  case bfFill | bfDone | bfDrain | bfFree => exact bufOp_guarded ..
  case nopC | nopD | nopA | nopB => exact nomatch hn
  case vaddC3 | vsubC3 | vmulC3 | vminC3 | vmaxC3 | vshlC3 | vshrC3 => exact c3Op_guarded ..
  case vfmaC3 | vsel | vfmaCs | vcvt | vhad | vred | vperm | vbcast => exact vecOp_guarded ..
  case vand | vor | vxor => exact bitOp_guarded ..
  case vaddCs | vsubCs | vmulCs | vminCs | vmaxCs | vshlCs | vshrCs => exact csOp_guarded ..
  case vrcp | vrsqrt | vexp2 | vlog2 => exact funOp_guarded ..
  case mmLdw | mm | mmChain | mmZero | mmWb | mmRd | mmRdSt => exact mxOp_guarded ..
  case paOpen | paClose | paApply | paInv | paComm | paXplant | paSquash | paSnap | paDropPort | paDropClosed =>
    exact paOp_guarded ..
  case segPromote | segPin | segUnpin | segDemote => exact segOp_guarded ..
  case jmp | ret => exact jumpTo_guarded ..
  case specCommit | specAbort => exact endRegion_guarded ..
  case addAr | subAr | mul | mulh | mulhu | andAr | orAr | xorAr | shlAr | shrAr | sraAr | min | max | minu | maxu =>
    exact aluA_guarded ..
  case div | divu => exact startDiv_guarded ..
  case addAi | andAi | orAi | xorAi | shlAi | shrAi | sraAi => exact immA_guarded ..
  case cmpEqAr | cmpNeAr | cmpLtAr | cmpLeAr | cmpLtuAr | cmpLeuAr => exact cmpA_guarded ..
  case addB3 | subB3 | andB3 | orB3 | xorB3 | shlB3 | shrB3 | sraB3 | lea => exact aluB_guarded ..
  all_goals cases hi

/-- Without a put-off of its own, a slot instruction is tried under the guard that it names. -/
theorem guardTried_eq (i : Instr) (s : State)
    (h : ∀ g, i = .grDone g → ∀ l ∈ s.me.c.late, ¬(l.bn = s.cur.bn ∧ l.slot = s.cur.slot)) : guardTried i s = guardOf i := by
  unfold guardTried
  split
  next g =>
    unfold State.firstGuard
    refine if_neg fun hl => ?_
    obtain ⟨l, hmem, hl⟩ := List.any_eq_true.1 hl
    exact h g rfl l hmem (by simpa using hl)
  next => rfl

/-- p0 is all ones, so its guard is on (spec/02 R22). -/
theorem State.guardOn_p0 (s : State) : s.guardOn 0#7 = true := by
  simp [State.guardOn, State.rp, Regs.getP]

/-- A nop only issues, whatever its guard (spec/02 R45). -/
theorem exec_nop (i : Instr) (s : State) (h : i.isNop = true) : exec i s = .next s.retire := by
  cases i
  case nopA | nopB | nopC | nopD => rfl
  all_goals cases h

/-- Settles O58: a nop and a slot instruction whose guard is off answer the state in which their slot has issued, which is all that changes. -/
theorem guardedOffInstructionsHaveNoEffect : Obligations.GuardedOffInstructionsHaveNoEffect := by
  unfold Obligations.GuardedOffInstructionsHaveNoEffect
  refine ⟨fun i s hi hoff hlate => ⟨s.retire, ?_, State.onlyRegs_retire s⟩, State.guardOn_p0⟩
  cases hn : i.isNop with
  | true => exact exec_nop i s hn
  | false =>
    refine (exec_guarded i s hi hn).off ?_
    rw [guardTried_eq i s hlate]
    exact hoff.resolve_left (by simp [hn])

theorem exec_slot_next (i : Instr) (s : State) (hi : (encode i).isSome = true) : ∃ t, exec i s = .next t := by
  cases hn : i.isNop with
  | true => exact ⟨_, exec_nop i s hn⟩
  | false => exact (exec_guarded i s hi hn).next

/-! ### Commands -/

theorem queueCommand_next (f : Nat) (n : Word) (move : Queue → Option Queue) (s : State) :
    ∃ t, queueCommand f n move s = .next t := runCommand_next ..

theorem leafCommand_next (f : Nat) (ctx ipa size : Word) (new : Word → Word) (s : State) :
    ∃ t, leafCommand f ctx ipa size new s = .next t := runCommand_next ..

/-- Every command is run by one operation, which answers it or lets it wait (spec/22 R416, R417). -/
theorem exec_command_next (i : Instr) (s : State) (hi : (encodeCmd i).isSome = true) : ∃ t, exec i s = .next t := by
  cases i
  all_goals dsimp only [exec, execCdestroy, execS2map, execFrset, execDomfault, execReadback, execHalovf]
  case ccreate | cset | carea | cwin | climit | cpreempt | cresume | ckill | ckey | cread | qcreate | qset | ownset | qread |
    gcreate | gdestroy | gbind | gunbind | lend | recallGroup | gread | vmroot | tlbinv | segquota | mscset | hmove | hdmset |
    tdibind | lnkdom | poolset | swred | ownnew | owndel | usage | idget | attest | keyx | margin | errlog | scrread | fwinfo =>
    exact runCommand_next ..
  case cdestroy | s2map | frset | domfault | readback | halovf => exact runCommand_next ..
  case qpause | qresume | qreset | qdestroy => exact queueCommand_next ..
  case s2unmap | s2clean => exact leafCommand_next ..
  all_goals cases hi

/-- What runs for a descriptor is the row that its opcode names. -/
theorem execCmd_eq_exec {s : State} {f op : Nat} {ops : List Word} {r : Result} (h : execCmd f op ops s = some r) :
    ∃ i, (encodeCmd i).isSome = true ∧ r = exec i s := by
  unfold execCmd at h
  extract_lets o at h
  split at h <;> cases h
  · exact ⟨.ccreate _ _ _ _ _ _ _ _ _, rfl, rfl⟩
  · exact ⟨.cset _ _ _ _, rfl, rfl⟩
  · exact ⟨.carea _ _ _ _, rfl, rfl⟩
  · exact ⟨.cwin _ _ _ _ _, rfl, rfl⟩
  · exact ⟨.climit _ _ _ _, rfl, rfl⟩
  · exact ⟨.cpreempt _ _ _ _, rfl, rfl⟩
  · exact ⟨.cresume _ _ _ _, rfl, rfl⟩
  · exact ⟨.ckill _ _, rfl, rfl⟩
  · exact ⟨.ckey _ _ _, rfl, rfl⟩
  · exact ⟨.cdestroy _ _ _ _, rfl, rfl⟩
  · exact ⟨.cread _ _, rfl, rfl⟩
  · exact ⟨.qcreate _ _ _ _ _ _ _, rfl, rfl⟩
  · exact ⟨.qset _ _ _, rfl, rfl⟩
  · exact ⟨.qpause _ _, rfl, rfl⟩
  · exact ⟨.qresume _ _, rfl, rfl⟩
  · exact ⟨.qreset _ _, rfl, rfl⟩
  · exact ⟨.qdestroy _ _, rfl, rfl⟩
  · exact ⟨.ownset _ _ _, rfl, rfl⟩
  · exact ⟨.qread _ _, rfl, rfl⟩
  · exact ⟨.gcreate _ _ _ _, rfl, rfl⟩
  · exact ⟨.gdestroy _ _, rfl, rfl⟩
  · exact ⟨.gbind _ _ _, rfl, rfl⟩
  · exact ⟨.gunbind _ _ _, rfl, rfl⟩
  · exact ⟨.lend _ _ _, rfl, rfl⟩
  · exact ⟨.recallGroup _ _, rfl, rfl⟩
  · exact ⟨.gread _ _, rfl, rfl⟩
  · exact ⟨.vmroot _ _ _ _, rfl, rfl⟩
  · exact ⟨.s2map _ _ _ _ _ _ _ _ _ _, rfl, rfl⟩
  · exact ⟨.s2unmap _ _ _ _, rfl, rfl⟩
  · exact ⟨.s2clean _ _ _ _, rfl, rfl⟩
  · exact ⟨.tlbinv _ _ _ _ _, rfl, rfl⟩
  · exact ⟨.frset _ _ _, rfl, rfl⟩
  · exact ⟨.segquota _ _ _, rfl, rfl⟩
  · exact ⟨.mscset _ _ _ _ _ _ _ _, rfl, rfl⟩
  · exact ⟨.hmove _ _ _, rfl, rfl⟩
  · exact ⟨.hdmset _ _ _ _ _ _ _, rfl, rfl⟩
  · exact ⟨.tdibind _ _ _, rfl, rfl⟩
  · exact ⟨.lnkdom _ _ _, rfl, rfl⟩
  · exact ⟨.poolset _ _ _ _ _ _, rfl, rfl⟩
  · exact ⟨.swred _ _ _ _ _ _ _, rfl, rfl⟩
  · exact ⟨.domfault _ _, rfl, rfl⟩
  · exact ⟨.ownnew _ _ _, rfl, rfl⟩
  · exact ⟨.owndel _ _, rfl, rfl⟩
  · exact ⟨.readback _ _ _ _ _ _, rfl, rfl⟩
  · exact ⟨.usage _ _ _ _, rfl, rfl⟩
  · exact ⟨.idget _ _ _, rfl, rfl⟩
  · exact ⟨.attest _ _ _, rfl, rfl⟩
  · exact ⟨.keyx _ _ _, rfl, rfl⟩
  · exact ⟨.margin _ _, rfl, rfl⟩
  · exact ⟨.errlog _ _ _ _, rfl, rfl⟩
  · exact ⟨.scrread _ _, rfl, rfl⟩
  · exact ⟨.fwinfo _, rfl, rfl⟩
  · exact ⟨.halovf _ _ _ _, rfl, rfl⟩

theorem State.serveMail_next (s : State) (f : Nat) : ∃ t, s.serveMail f = .next t := by
  unfold State.serveMail
  repeat' first | split | extract_lets | exact ⟨_, rfl⟩
  next h =>
    obtain ⟨i, hi, rfl⟩ := execCmd_eq_exec h
    exact exec_command_next i s hi

/-! ### Answers of the shared operations -/

theorem State.raise_next (s : State) (t : Trap) : ∃ u, s.raise t = .next u := Res.finish_next (.trap s t)

theorem State.groupTrap_next (s : State) (q slot : Nat) (t : Trap) (p : Word) : ∃ u, s.groupTrap q slot t p = .next u := by
  unfold State.groupTrap
  repeat' first | split | extract_lets | exact ⟨_, rfl⟩

theorem State.refetch_next (s : State) (q r : Nat) : ∃ u, s.refetch q r = .next u := by
  unfold State.refetch
  repeat' first | split | extract_lets | exact ⟨_, rfl⟩

theorem State.performHead_next (s : State) (q slot : Nat) (e : StoreEnt) : ∃ u, s.performHead q slot e = .next u := by
  unfold State.performHead
  repeat' first | split | extract_lets | exact ⟨_, rfl⟩

theorem State.halWord_next (s : State) (e : HalEnt) (va : Word) (pa : Nat) (f : Word → Word) (lq : Option Nat) :
    ∃ u, s.halWord e va pa f lq = .next u := by
  unfold State.halWord
  repeat' first | split | extract_lets | exact ⟨_, rfl⟩

theorem State.runHal_next (s : State) (k : Nat) {f : State → HalEnt → Result} (hf : ∀ s e, ∃ u, f s e = .next u) :
    ∃ u, s.runHal k f = .next u := by
  unfold State.runHal
  repeat' first | split | exact ⟨_, rfl⟩
  exact hf ..

theorem State.answerWait_next (s : State) (q : Nat) (hb : HoldB) (a : Ask) : ∃ u, s.answerWait q hb a = .next u := by
  unfold State.answerWait
  repeat' first | split | extract_lets | exact State.raise_next .. | exact ⟨_, rfl⟩

theorem homeRequest_next (l : Nat) (r x : Bool) (ctx : Nat) (f : State → State) (s : State) :
    ∃ u, homeRequest l r x ctx f s = .next u := by
  unfold homeRequest
  split <;> exact ⟨_, rfl⟩

theorem wbRequest_next (l cl : Nat) (s : State) : ∃ u, wbRequest l cl s = .next u := by
  unfold wbRequest
  split
  · exact ⟨_, rfl⟩
  · exact homeRequest_next ..

theorem hostWrite_next (i : Instr) (dec : Nat) (a : Word) (d : BitVec 512) (m : BitVec 64) (s : State) :
    ∃ u, hostWrite i dec a d m s = .next u := by
  unfold hostWrite
  repeat' first | split | extract_lets | exact ⟨_, rfl⟩

theorem State.fire_next (s : State) (li : Nat) (l : Launch) (i : Nat) (n : Node) : ∃ u, s.fire li l i n = .next u := by
  unfold State.fire
  repeat' first | split | extract_lets | exact ⟨_, rfl⟩

theorem execGroupCheck_next (q : Nat) (s : State) : ∃ u, execGroupCheck q s = .next u := by
  unfold execGroupCheck
  repeat' first | split | extract_lets | exact State.refetch_next .. | exact State.groupTrap_next .. | exact ⟨_, rfl⟩

theorem execStorePerform_next (q slot : Nat) (s : State) : ∃ u, execStorePerform q slot s = .next u := by
  unfold execStorePerform
  extract_lets f
  generalize (if slot = 1 then f.storeB else if slot = 2 then f.storeC else []) = l
  repeat' first | split | extract_lets | exact State.performHead_next .. | exact ⟨_, rfl⟩

theorem execBufferStateChange_next (q : Nat) (s : State) : ∃ u, execBufferStateChange q s = .next u := by
  unfold execBufferStateChange
  repeat' first | split | extract_lets | exact State.raise_next .. | exact ⟨_, rfl⟩

theorem execFenceComplete_next (q : Nat) (s : State) : ∃ u, execFenceComplete q s = .next u := by
  unfold execFenceComplete
  dsimp only
  repeat' first | split | extract_lets | exact State.raise_next .. | exact ⟨_, rfl⟩

theorem execCopyStart_next (q : Nat) (s : State) : ∃ u, execCopyStart q s = .next u := by
  unfold execCopyStart
  repeat' first | split | extract_lets | exact Res.finish_next .. | exact ⟨_, rfl⟩

theorem execLaunchEnd_next (l : Nat) (s : State) : ∃ u, execLaunchEnd l s = .next u := by
  unfold execLaunchEnd
  repeat' first | split | (extract_lets _ gated; clear_value gated) | exact ⟨_, rfl⟩

theorem execNodeFire_next (l n : Nat) (s : State) : ∃ u, execNodeFire l n s = .next u := by
  unfold execNodeFire
  repeat' first | split | extract_lets | exact State.fire_next .. | exact ⟨_, rfl⟩

theorem execHalyardAtomicExecute_next (k : Nat) (s : State) : ∃ u, execHalyardAtomicExecute k s = .next u := by
  refine State.runHal_next s k fun s e => ?_
  split
  · exact State.halWord_next ..
  · exact State.halWord_next ..
  · exact ⟨_, rfl⟩
theorem execPennantAdd_next (k : Nat) (s : State) : ∃ u, execPennantAdd k s = .next u := by
  refine State.runHal_next s k fun s e => ?_
  split <;> exact ⟨_, rfl⟩
theorem execConditionWordWrite_next (k : Nat) (s : State) : ∃ u, execConditionWordWrite k s = .next u := by
  refine State.runHal_next s k fun s e => ?_
  split <;> exact ⟨_, rfl⟩

theorem execPennantValueReturn_next (q : Nat) (s : State) : ∃ u, execPennantValueReturn q s = .next u := by
  unfold execPennantValueReturn
  repeat' first | split | extract_lets | exact State.answerWait_next .. | exact ⟨_, rfl⟩
theorem execWaiterWake_next (q : Nat) (s : State) : ∃ u, execWaiterWake q s = .next u := by
  unfold execWaiterWake
  repeat' first | split | exact State.answerWait_next .. | exact ⟨_, rfl⟩
theorem execWaiterPoll_next (q : Nat) (s : State) : ∃ u, execWaiterPoll q s = .next u := by
  unfold execWaiterPoll
  repeat' first | split | exact State.answerWait_next .. | exact ⟨_, rfl⟩
theorem execSnoopInvalidate_next (cl l : Nat) (s : State) : ∃ u, execSnoopInvalidate cl l s = .next u := by
  unfold execSnoopInvalidate
  repeat' first | split | exact wbRequest_next .. | exact ⟨_, rfl⟩

/-! ### Events -/

/-- Every event goes on: each branch of its meaning ends in a state. -/
theorem exec_event_next (i : Instr) (s : State) (hi : Stmt.isEvent i = true) : ∃ t, exec i s = .next t := by
  cases i
  all_goals dsimp -zeta only [exec, execBundleIssue, execDivComplete, execLoadDataReturn, execStreamFill, execStreamDrain,
    execMatrixCompletion, execSpecRegionEnd, execHaltStop, execScopedAtomicExecute, execScopedCopyWriteback,
    execAtomicResultReturn, execMcasLockGrant, execMcasWindowExpire, execMcasBackoffExpire, execMcasResultReturn, execCopyChunk,
    execCopyComplete, execQueueTailWrite, execLaunchDispatch, execSchedDecision, execKillComplete, execContextSaveComplete,
    execContextLoadComplete, execGroupScrubComplete, execContextScrubComplete, execMovedResponse, execHostMemRd,
    execSwredContribution]
  case fmtSetEffect | pageWalkComplete | shadowEntryApply | bufferZeroingDone | faultRecordRetry | patchEngineComplete |
    remoteCopyPennantAdd | preemptRequest | saveStart | graceTimerExpire | killTimerExpire | bringupStage | clockReplan |
    registerWrite | hostBisnpinvResponse | hostCacheSnoop | tdispLockInterface | tdispStartInterface | tdispStopInterface |
    tdiLockedRegisterWrite | portTrained | portPeerSilent | flitCrcReplay | deviceUnreachable | warmReset | coldReset |
    hostLinkTraining | spdmSessionMessage | segmentUnitsComplete =>
    exact ⟨_, rfl⟩
  case bundleIssue | divComplete | loadDataReturn | streamFill | streamDrain | matrixCompletion | specRegionEnd | haltStop |
    scopedAtomicExecute | scopedCopyWriteback | atomicResultReturn | mcasLockGrant | mcasWindowExpire | mcasBackoffExpire |
    mcasResultReturn | copyChunk | copyComplete | queueTailWrite | launchDispatch | schedDecision | killComplete |
    contextSaveComplete | contextLoadComplete | groupScrubComplete | contextScrubComplete | movedResponse | hostMemRd |
    swredContribution =>
    repeat' first | split | extract_lets | exact ⟨_, rfl⟩
  case groupCheck => exact execGroupCheck_next ..
  case storePerform => exact execStorePerform_next ..
  case bufferStateChange => exact execBufferStateChange_next ..
  case fenceComplete => exact execFenceComplete_next ..
  case copyStart => exact execCopyStart_next ..
  case launchEnd => exact execLaunchEnd_next ..
  case nodeFire => exact execNodeFire_next ..
  case halyardAtomicExecute => exact execHalyardAtomicExecute_next ..
  case pennantAdd => exact execPennantAdd_next ..
  case conditionWordWrite => exact execConditionWordWrite_next ..
  case pennantValueReturn => exact execPennantValueReturn_next ..
  case waiterWake => exact execWaiterWake_next ..
  case waiterPoll => exact execWaiterPoll_next ..
  case cacheFill | homeRds | homeRdx | homeHal | engineHomeRead | engineHomeWrite => exact homeRequest_next ..
  case homeWb => exact wbRequest_next ..
  case snoopInvalidate => exact execSnoopInvalidate_next ..
  case hostMemWr | hostMemWrPtl => exact hostWrite_next ..
  all_goals cases hi

/-! ### Every row, and every step -/

theorem exec_next (i : Instr) (s : State) : ∃ t, exec i s = .next t := by
  have h := event_or_encoded i
  rw [Bool.or_eq_true, Bool.or_eq_true] at h
  obtain (h | h) | h := h
  · exact exec_event_next i s h
  · exact exec_slot_next i s h
  · exact exec_command_next i s h

/-- A run over slots that each go on goes on. -/
theorem Result.foldl_next {α : Type} {f : Result → α → Result} (hf : ∀ t a, ∃ u, f (.next t) a = .next u) (l : List α) (s : State) :
    ∃ t, l.foldl f (.next s) = .next t := by
  induction l generalizing s with
  | nil => exact ⟨s, rfl⟩
  | cons a l ih =>
    obtain ⟨u, hu⟩ := hf s a
    rw [List.foldl_cons, hu]
    exact ih u

theorem State.issueWhole_next (s : State) (q : Nat) (e : Win) : ∃ t, s.issueWhole q e = .next t := by
  unfold State.issueWhole
  split
  · exact ⟨_, rfl⟩
  · refine Result.foldl_next (fun t n => ?_) _ s
    dsimp only
    split
    · exact exec_next ..
    · exact ⟨_, rfl⟩

theorem step_next {s : State} (h : s.cur.seq < 16384) : ∃ t, step s = .next t := by
  unfold step
  rw [if_neg (by omega)]
  dsimp only
  split
  · exact exec_next ..
  · split
    · exact exec_next ..
    · exact State.issueWhole_next ..
    · exact State.serveMail_next ..
    · exact ⟨_, rfl⟩

/-- Settles O57: a row is an event, a slot instruction or a command, and each of them goes on; a step runs one of them. -/
theorem nothingStopsTheMachine : Obligations.NothingStopsTheMachine := by
  unfold Obligations.NothingStopsTheMachine
  exact ⟨exec_next, fun _ => step_next, fun _ h => if_pos h⟩

end Sys2Proof.Machine
end

section
/-! PROOFS. The compares (O6): a condition on words and on FP32 values, and the predicate pair that a compare writes. -/

namespace Sys2Proof.Machine

/-! ### Conditions -/

/-- The conditions of the model are those of the integers and the naturals that the words stand for. -/
theorem holdsOf_eq (c : Cond) (a b : Word) : Stmt.holdsOf c a b = condHolds c a b := by
  cases c
  case eq => rfl
  case ne => rfl
  case lt => rfl
  case le => exact (BitVec.sle_eq_decide (x := a) (y := b)).symm
  case ltu => exact (BitVec.ult_eq_decide (x := a) (y := b)).symm
  case leu => exact (BitVec.ule_eq_decide (x := a) (y := b)).symm

/-- The magnitude of the FP32 value with an exponent and a fraction field, as a multiple of 2^-149. -/
def f32MagOf (e f : Nat) : Nat := if e = 0 then f else (2 ^ 23 + f) * 2 ^ (e - 1)

/-- The magnitude of the FP32 value whose bits below the sign are v. -/
def f32Mag (v : Nat) : Nat := f32MagOf (v / 2 ^ 23) (v % 2 ^ 23)

theorem f32MagOf_lt_same (e f : Nat) : f32MagOf e f < f32MagOf e (f + 1) := by
  unfold f32MagOf
  split
  · exact Nat.lt_succ_self f
  · exact Nat.mul_lt_mul_of_pos_right (by omega) (Nat.two_pow_pos _)

theorem f32MagOf_lt_next (e : Nat) : f32MagOf e (2 ^ 23 - 1) < f32MagOf (e + 1) 0 := by
  cases e with
  | zero => decide
  | succ e =>
    have hp := Nat.two_pow_pos e
    have h2 : 2 ^ (e + 1) = 2 ^ e * 2 := Nat.pow_succ 2 e
    simp only [f32MagOf, Nat.succ_ne_zero, if_false, Nat.add_sub_cancel, h2]
    omega

theorem f32Mag_strictMono : StrictMono f32Mag := by
  refine strictMono_nat_of_lt_succ fun v => ?_
  unfold f32Mag
  by_cases hf : v % 2 ^ 23 = 2 ^ 23 - 1
  · rw [hf, show (v + 1) / 2 ^ 23 = v / 2 ^ 23 + 1 by omega, show (v + 1) % 2 ^ 23 = 0 by omega]
    exact f32MagOf_lt_next _
  · rw [show (v + 1) / 2 ^ 23 = v / 2 ^ 23 by omega, show (v + 1) % 2 ^ 23 = v % 2 ^ 23 + 1 by omega]
    exact f32MagOf_lt_same _ _

/-- A strictly monotone magnitude that is 0 at 0 keeps the order of signed values. -/
theorem signed_lt_iff {m : Nat → Nat} (hm : StrictMono m) (h0 : m 0 = 0) (p q : Bool) (a b : Nat) :
    ((if p then -(m a : Int) else m a) < if q then -(m b : Int) else m b) ↔
      ((if p then -(a : Int) else a) < if q then -(b : Int) else b) := by
  have hab : m a < m b ↔ a < b := hm.lt_iff_lt
  have hba : m b < m a ↔ b < a := hm.lt_iff_lt
  have ha : m 0 < m a ↔ 0 < a := hm.lt_iff_lt
  have hb : m 0 < m b ↔ 0 < b := hm.lt_iff_lt
  rw [h0] at ha hb
  cases p <;> cases q <;> simp only [if_true, if_false, Bool.false_eq_true] <;> omega

theorem f32Scaled_eq (x : BitVec 32) :
    Stmt.f32Scaled x = if x.getLsbD 31 then -(f32Mag (x.toNat % 2 ^ 31) : Int) else f32Mag (x.toNat % 2 ^ 31) := by
  have he : (x.extractLsb' 23 8).toNat = x.toNat % 2 ^ 31 / 2 ^ 23 := by
    rw [BitVec.extractLsb'_toNat, Nat.shiftRight_eq_div_pow]; omega
  have hf : (x.extractLsb' 0 23).toNat = x.toNat % 2 ^ 31 % 2 ^ 23 := by
    rw [BitVec.extractLsb'_toNat, Nat.shiftRight_zero]; omega
  simp only [Stmt.f32Scaled, he, hf, f32Mag, f32MagOf, Nat.cast_ite]

theorem f32Key_eq (x : BitVec 32) :
    f32Key x = if x.getLsbD 31 then -((x.toNat % 2 ^ 31 : Nat) : Int) else ((x.toNat % 2 ^ 31 : Nat) : Int) := by
  have hm : x.msb = x.getLsbD 31 := BitVec.msb_eq_getLsbD_last x
  rw [f32Key, ← hm]
  cases h : x.msb
  · have hlt := BitVec.msb_eq_false_iff_two_mul_lt.mp h
    have : x.toNat % 2 ^ 31 = x.toNat := Nat.mod_eq_of_lt (by omega)
    rw [this]
  · rfl

theorem f32Scaled_lt_iff (a b : BitVec 32) : Stmt.f32Scaled a < Stmt.f32Scaled b ↔ f32Key a < f32Key b := by
  rw [f32Scaled_eq, f32Scaled_eq, f32Key_eq, f32Key_eq]
  exact signed_lt_iff f32Mag_strictMono rfl _ _ _ _

theorem f32Scaled_eq_iff (a b : BitVec 32) : Stmt.f32Scaled a = Stmt.f32Scaled b ↔ f32Key a = f32Key b := by
  have hab := f32Scaled_lt_iff a b
  have hba := f32Scaled_lt_iff b a
  omega

theorem f32Scaled_le_iff (a b : BitVec 32) : Stmt.f32Scaled a ≤ Stmt.f32Scaled b ↔ f32Key a ≤ f32Key b := by
  have hba := f32Scaled_lt_iff b a
  omega

theorem f32NaN_eq (x : BitVec 32) : Stmt.f32NaN x = f32IsNaN x := by
  have he : (x.extractLsb' 23 8).toNat = x.toNat / 2 ^ 23 % 2 ^ 8 := by
    rw [BitVec.extractLsb'_toNat, Nat.shiftRight_eq_div_pow]
  have hf : (x.extractLsb' 0 23).toNat = x.toNat % 2 ^ 23 := by
    rw [BitVec.extractLsb'_toNat, Nat.shiftRight_zero]
  rw [Bool.eq_iff_iff]
  simp only [Stmt.f32NaN, f32IsNaN, Bool.and_eq_true, beq_iff_eq, bne_iff_ne, ne_eq, decide_eq_true_eq,
    ← BitVec.toNat_inj, he, hf]
  simp only [BitVec.toNat_ofNat]
  omega

/-! ### The pair -/

theorem pairHi_ne_zero (n : BitVec 6) : pairHi n ≠ 0#7 := by unfold pairHi; revert n; decide
theorem pairLo_ne_pairHi (n : BitVec 6) : pairLo n ≠ pairHi n := by unfold pairLo pairHi; revert n; decide
theorem pairLo_eq_zero (n : BitVec 6) : pairLo n = 0#7 ↔ n = 0#6 := by unfold pairLo; revert n; decide

theorem Regs.sameBut_setP_setP (r : Regs) (d e : BitVec 7) (v w : BitVec 32) :
    r.sameBut ((r.setP d v).setP e w) [] [d, e] [] [] := by
  have hd := Regs.sameBut_setP r d v
  have he := Regs.sameBut_setP (r.setP d v) e w
  refine ⟨fun n h => (he.scalar n h).trans (hd.scalar n h), fun n h => ?_, fun n h => (he.vector n h).trans (hd.vector n h),
    fun n h => (he.stream n h).trans (hd.stream n h), fun n => (he.shapeC n).trans (hd.shapeC n),
    fun n => (he.shadowC n).trans (hd.shadowC n), fun n => (he.shapeK n).trans (hd.shapeK n),
    fun n => (he.shadowK n).trans (hd.shadowK n)⟩
  have h' : n ≠ d ∧ n ≠ e := by simpa using h
  exact (he.predicate n (by simpa using h'.2)).trans (hd.predicate n (by simpa using h'.1))

/-- A compare that holds or not leaves its pair so, and has issued. -/
theorem State.pairWritten_writePair (s : State) (n : BitVec 6) (c : Bool) :
    Stmt.pairWritten s (s.writePair n c).retire n c := by
  have me : (s.writePair n c).retire.me = Seq.retire
      { s.me with r := (s.me.r.setP (pairLo n) (allIf c)).setP (pairHi n) (allIf !c) } s.cur.bn s.cur.slot 1 := by
    rw [State.me_retire, State.writePair, State.me_wp, State.me_wp]; rfl
  refine ⟨?_, ?_, ⟨?_, ?_, ?_, ?_, fun p hp => ?_, rfl, ?_⟩⟩
  · rw [State.rp_retire, State.writePair]
    change State.rp _ (pairLo n) = _
    rw [State.rp_wp, if_neg (pairLo_ne_pairHi n), State.rp_wp, if_pos rfl]
    simp only [pairLo_eq_zero, allIf]
  · rw [State.rp_retire, State.writePair]
    change State.rp _ (pairHi n) = _
    rw [State.rp_wp, if_pos rfl, if_neg (pairHi_ne_zero n)]
    cases c <;> rfl
  · rw [me]; exact Regs.sameBut_setP_setP _ _ _ _ _
  · rw [me]; rfl
  · rw [me]; rfl
  · rw [me]; rfl
  · exact (State.seq_retire_other (s.writePair n c) hp).trans
      ((State.seq_wp_other (s.wp (pairLo n) (allIf c)) _ _ hp).trans (State.seq_wp_other s _ _ hp))
  · exact State.sameModule_of rfl rfl rfl rfl rfl rfl rfl rfl rfl rfl rfl rfl rfl rfl

/-- What a slot instruction does that writes a pair. -/
theorem slotDo_writePair {g : BitVec 7} {s : State} (h : s.guardOn g = true) (n : BitVec 6) (c : State → Bool) :
    ∃ t, slotDo g s (fun s => s.writePair n (c s)) = .next t ∧ Stmt.pairWritten s t n (c s) :=
  ⟨_, slotDo_on h, State.pairWritten_writePair s n (c s)⟩

theorem cmpA_pair (k : Cond) {g : BitVec 4} {s : State} (h : s.guardOn (g.setWidth 7) = true) (n a b : BitVec 6) :
    ∃ t, cmpA k g n a b s = .next t ∧ Stmt.pairWritten s t n (Stmt.holdsOf k (s.rs a) (s.rs b)) := by
  rw [holdsOf_eq]
  exact slotDo_writePair h n _

theorem execCmpB3_pair (k : Cond) {g : BitVec 7} {s : State} (h : s.guardOn g = true) (n y z : BitVec 6) :
    ∃ t, execCmpB3 g n y z k s = .next t ∧ Stmt.pairWritten s t n (Stmt.holdsOf k (s.rs y) (s.rs z)) := by
  rw [holdsOf_eq]
  exact slotDo_writePair h n _

theorem execCmpBc_pair (k : Cond) {g : BitVec 7} {s : State} (h : s.guardOn g = true) (n y : BitVec 6) (imm : BitVec 13) :
    ∃ t, execCmpBc g n y k imm s = .next t ∧ Stmt.pairWritten s t n (Stmt.holdsOf k (s.rs y) (imm.signExtend 64)) := by
  rw [holdsOf_eq]
  exact slotDo_writePair h n _

theorem exec_compare {s : State} {i : Instr} {g : BitVec 7} {n : BitVec 6} {c : Bool}
    (hc : Stmt.compareResult s i = some (g, n, c)) (hg : s.guardOn g = true) :
    ∃ t, exec i s = .next t ∧ Stmt.pairWritten s t n c := by
  cases i
  case cmpEqAr | cmpNeAr | cmpLtAr | cmpLeAr | cmpLtuAr | cmpLeuAr => cases hc; exact cmpA_pair _ hg _ _ _
  case cmpB3 => cases hc; exact execCmpB3_pair _ hg _ _ _
  case cmpBc => cases hc; exact execCmpBc_pair _ hg _ _ _
  all_goals cases hc

theorem setWidth_eq_extractLsb' (w : Word) : w.setWidth 32 = w.extractLsb' 0 32 :=
  BitVec.eq_of_toNat_eq (by rw [BitVec.toNat_setWidth, BitVec.extractLsb'_toNat, Nat.shiftRight_zero])

/-- Settles O6: a condition of the model says what it says of the numbers, and writePair writes both members of the pair. -/
theorem comparesWriteTheirPair : Obligations.ComparesWriteTheirPair := by
  refine ⟨fun i s g n c hc hg => exec_compare hc hg, fun s g n y z c hg => ?_⟩
  obtain ⟨t, ht, hp⟩ := slotDo_writePair hg n fun s => fcondHolds c ((s.rs y).setWidth 32) ((s.rs z).setWidth 32)
  refine ⟨t, ht, ?_⟩
  convert hp using 1
  simp only [setWidth_eq_extractLsb', fcondHolds, f32NaN_eq, f32Scaled_eq_iff, f32Scaled_lt_iff, f32Scaled_le_iff, ne_eq]
  cases c
  case eq => rfl
  case ne => simp [bne, decide_not]; rfl
  case lt => rfl
  case le => rfl
  case un => rfl

end Sys2Proof.Machine
end

section
/-! PROOFS. Writes of cr.fmt (O11): when fmt.set takes effect, and why the writes that every unissued bundle sees can be folded. -/

namespace Sys2Proof.Machine

/-! ### One more write -/

theorem FmtState.inEffect_append (f : FmtState) (w : Nat × BitVec 14 × Option (BitVec 4)) (n : Nat) :
    { f with writes := f.writes ++ [w] }.inEffect n = f.inEffect n ++ if w.1 + 4 ≤ n then [w] else [] := by
  by_cases h : w.1 + 4 ≤ n <;> simp [FmtState.inEffect, List.filter_append, h]

/-- A fmt.set is the last write that a bundle four or more after it sees. -/
theorem FmtState.bitsAt_append_late (f : FmtState) {k n : Nat} (v : BitVec 14) (h : k + 4 ≤ n) :
    { f with writes := f.writes ++ [(k, v, none)] }.bitsAt n = v := by
  rw [FmtState.bitsAt, FmtState.inEffect_append, if_pos h, List.foldl_append]
  rfl

theorem FmtState.bitsAt_append_early (f : FmtState) {k n : Nat} (v : BitVec 14) (h : n < k + 4) :
    { f with writes := f.writes ++ [(k, v, none)] }.bitsAt n = f.bitsAt n := by
  rw [FmtState.bitsAt, FmtState.inEffect_append, if_neg (by omega), List.append_nil]
  rfl

/-! ### Folding -/

theorem lastFlagWrite_append (a b : List (Nat × BitVec 14 × Option (BitVec 4))) :
    lastFlagWrite (a ++ b) = (lastFlagWrite b).or (lastFlagWrite a) := by
  induction a with
  | nil => simp [lastFlagWrite]
  | cons w ws ih =>
    simp only [List.cons_append, lastFlagWrite, ih]
    cases lastFlagWrite b <;> rfl

theorem lastFlagWrite_mem {l : List (Nat × BitVec 14 × Option (BitVec 4))} {k : Nat} {fl : BitVec 4}
    (h : lastFlagWrite l = some (k, fl)) : ∃ w ∈ l, w.1 = k := by
  induction l with
  | nil => cases h
  | cons w ws ih =>
    rw [lastFlagWrite] at h
    split at h
    next r hr =>
      obtain ⟨v, hv, hk⟩ := ih (hr.trans h)
      exact ⟨v, List.mem_cons_of_mem _ hv, hk⟩
    next =>
      split at h
      · cases h
        exact ⟨w, List.mem_cons_self, rfl⟩
      · cases h

/-- The writes that a bundle sees but the fold for an earlier one leaves. -/
def FmtState.lateIn (f : FmtState) (bn n : Nat) : List (Nat × BitVec 14 × Option (BitVec 4)) :=
  (f.writes.filter fun w => !(w.1 + 4 ≤ bn)).filter fun w => decide (w.1 + 4 ≤ n)

/-- What a later bundle sees are the writes that an earlier one sees, and then the late ones: the writes are in order. -/
theorem FmtState.inEffect_split (f : FmtState) (hs : f.writes.Pairwise fun a b => a.1 ≤ b.1) {bn n : Nat} (h : bn ≤ n) :
    f.inEffect n = f.inEffect bn ++ f.lateIn bn n := by
  unfold FmtState.inEffect FmtState.lateIn
  generalize f.writes = writes at hs
  induction writes with
  | nil => rfl
  | cons w ws ih =>
    obtain ⟨hw, hws⟩ := List.pairwise_cons.mp hs
    by_cases hb : w.1 + 4 ≤ bn
    · simp [hb, show w.1 + 4 ≤ n by omega, ih hws]
    · have none_early : (ws.filter fun v => decide (v.1 + 4 ≤ bn)) = [] :=
        List.filter_eq_nil_iff.mpr fun v hv => by have := hw v hv; simp; omega
      have all_late : (ws.filter fun v => !decide (v.1 + 4 ≤ bn)) = ws :=
        List.filter_eq_self.mpr fun v hv => by have := hw v hv; simp; omega
      simp [hb, none_early, all_late]

theorem FmtState.fold_inEffect (f : FmtState) (bn n : Nat) : (f.fold bn).inEffect n = f.lateIn bn n := by
  unfold FmtState.fold
  dsimp only
  split <;> rfl

theorem FmtState.fold_base (f : FmtState) (bn : Nat) : (f.fold bn).base = f.bitsAt bn := by
  unfold FmtState.fold
  dsimp only
  split <;> rfl

/-- A bundle that no fold has passed sees the same format bits. -/
theorem FmtState.bitsAt_fold (f : FmtState) (hs : f.writes.Pairwise fun a b => a.1 ≤ b.1) {bn n : Nat} (h : bn ≤ n) :
    (f.fold bn).bitsAt n = f.bitsAt n := by
  rw [FmtState.bitsAt, FmtState.fold_inEffect, FmtState.fold_base, FmtState.bitsAt, FmtState.bitsAt,
    FmtState.inEffect_split f hs h, List.foldl_append]

/-- A bundle that no fold has passed sees the same flags. -/
theorem FmtState.flagsAt_fold (f : FmtState) (hs : f.writes.Pairwise fun a b => a.1 ≤ b.1) {bn n : Nat} (h : bn ≤ n) :
    (f.fold bn).flagsAt n = f.flagsAt n := by
  have last : lastFlagWrite (f.inEffect n) = (lastFlagWrite (f.lateIn bn n)).or (lastFlagWrite (f.inEffect bn)) := by
    rw [FmtState.inEffect_split f hs h, lastFlagWrite_append]
  simp only [FmtState.flagsAt, FmtState.fold_inEffect, last]
  unfold FmtState.fold
  dsimp only
  cases he : lastFlagWrite (f.inEffect bn) with
  | none => rw [Option.or_none]
  | some r =>
    obtain ⟨k, fl⟩ := r
    cases hl : lastFlagWrite (f.lateIn bn n) with
    | none => simp only [Option.none_or, List.filter_filter, Bool.decide_eq_true, Bool.and_comm]
    | some r' =>
      obtain ⟨k', fl'⟩ := r'
      obtain ⟨w, hw, rfl⟩ := lastFlagWrite_mem he
      obtain ⟨w', hw', rfl⟩ := lastFlagWrite_mem hl
      have early : w.1 + 4 ≤ bn := by simpa using (List.mem_filter.mp hw).2
      have late : ¬ w'.1 + 4 ≤ bn := by simpa using (List.mem_filter.mp (List.mem_filter.mp hw').1).2
      simp only [Option.some_or, List.filter_filter]
      congr 2
      funext r
      by_cases hr : w'.1 < r.1
      · simp [hr, show w.1 < r.1 by omega]
      · simp [hr]

theorem exec_fmtSet_on {s : State} {g : BitVec 4} (hg : s.guardA g = true) (hsz : BitVec 2) (ofmt wfmt afmt : BitVec 4) :
    exec (.fmtSet g hsz ofmt wfmt afmt) s = .next (s.setCtl { s.me.c with fmt := { s.me.c.fmt with
      writes := s.me.c.fmt.writes ++ [(s.cur.bn, hsz ++ ofmt ++ wfmt ++ afmt, none)] } }).retire := by
  rw [exec_fmtSet]
  exact slotDo_on hg

theorem State.me_setCtl_retire (s : State) (c : Ctl) :
    (s.setCtl c).retire.me = Seq.retire { s.me with c := c } s.cur.bn s.cur.slot 1 := by
  rw [State.me_retire, State.me_setCtl]; rfl

/-- Settles O11: one more write is the last that a bundle four after it sees, and the fold keeps what each bundle to come sees. -/
theorem formatWritesTakeEffectLate : Obligations.FormatWritesTakeEffectLate := by
  refine ⟨fun s g hsz ofmt wfmt afmt hg _ => ⟨_, exec_fmtSet_on hg hsz ofmt wfmt afmt, ?_⟩, fun s q hs => ?_⟩
  · rw [State.me_setCtl_retire]
    exact ⟨rfl, State.sameModule_of rfl rfl rfl rfl rfl rfl rfl rfl rfl rfl rfl rfl rfl rfl,
      fun p hp => (State.seq_retire_other (s.setCtl _) hp).trans (State.seq_setMe_other s _ hp), rfl, rfl,
      fun n hn => FmtState.bitsAt_append_late _ _ hn, fun n hn => FmtState.bitsAt_append_early _ _ hn⟩
  · refine ⟨_, rfl, ?_⟩
    rw [State.seq_setSeq_same]
    exact ⟨rfl, rfl, State.sameModule_setSeq _ _ _, fun p hp => State.seq_setSeq_other s _ hp,
      fun n hn => ⟨FmtState.bitsAt_fold _ hs hn, FmtState.flagsAt_fold _ hs hn⟩⟩

end Sys2Proof.Machine
end

section
/-! PROOFS. The step (O56, first part): what time leaves, which instruction a step runs, and the bundles of a checked group. -/

namespace Sys2Proof.Machine

/-! ### Time -/

/-- What decides whose turn it is, and the status records that are owed, stand. -/
structure State.sameTurn (s t : State) : Prop where
  owed : t.owed = s.owed
  agenda : t.agenda = s.agenda
  latch : t.latch = s.latch
  cur : t.cur = s.cur

theorem State.sameTurn.refl (s : State) : s.sameTurn s := ⟨rfl, rfl, rfl, rfl⟩

theorem State.sameTurn.trans {s t u : State} (h : s.sameTurn t) (k : t.sameTurn u) : s.sameTurn u :=
  ⟨k.owed.trans h.owed, k.agenda.trans h.agenda, k.latch.trans h.latch, k.cur.trans h.cur⟩

theorem State.sameTurn_foldl {α : Type} {f : State → α → State} (hf : ∀ (s : State) a, s.sameTurn (f s a)) (l : List α)
    (s : State) : s.sameTurn (l.foldl f s) := by
  induction l generalizing s with
  | nil => exact State.sameTurn.refl s
  | cons a l ih => exact (hf s a).trans (ih _)

theorem State.sameTurn_setGroup (s : State) (h : Nat) (g : Group) : s.sameTurn (s.setGroup h g) := ⟨rfl, rfl, rfl, rfl⟩
theorem State.sameTurn_setSeq (s : State) (q : Nat) (x : Seq) : s.sameTurn (s.setSeq q x) := ⟨rfl, rfl, rfl, rfl⟩
theorem State.sameTurn_charge (s : State) (o n : Nat) : s.sameTurn (s.charge o n) := ⟨rfl, rfl, rfl, rfl⟩

theorem State.sameTurn_passOn (n : Nat) (s : State) (e : Nat × Group) : s.sameTurn (s.passOn n e) := by
  unfold State.passOn
  split
  · exact s.sameTurn_setGroup _ _
  · split
    · have aged : s.sameTurn (if e.2.rung = 0 then s else s.setGroup e.1 { e.2 with age := e.2.age + n }) := by
        split
        · exact State.sameTurn.refl s
        · exact s.sameTurn_setGroup _ _
      exact (aged.trans (State.sameTurn_foldl (fun s q => s.sameTurn_setSeq q _) _ _)).trans
        (State.sameTurn_charge _ _ _)
    · exact State.sameTurn.refl s

theorem State.elapse_sameTurn {s : State} (h : s.owed = []) :
    s.elapse.agenda = s.agenda ∧ s.elapse.latch = s.latch ∧ s.elapse.cur = s.cur := by
  have hp := State.sameTurn_foldl (State.sameTurn_passOn (Config.freeCycles s.tick)) s.groups s
  have none_owed : (s.groups.foldl (State.passOn (Config.freeCycles s.tick)) s).owed.isEmpty = true := by
    rw [hp.owed, h]; rfl
  unfold State.elapse
  simp only [none_owed, if_true]
  exact ⟨hp.agenda, hp.latch, hp.cur⟩

/-! ### What a step runs -/

theorem step_event {s : State} {i : Instr} {rest : List Instr} (hc : s.cur.seq < 16384) (ha : s.elapse.agenda = i :: rest) :
    step s = exec i { s.elapse with agenda := rest } := by
  unfold step
  rw [if_neg (by omega)]
  dsimp only
  rw [ha]

theorem step_run {s u : State} {i : Instr} (hc : s.cur.seq < 16384) (ha : s.elapse.agenda = [])
    (h : s.elapse.nextAction = .run u i) : step s = exec i u := by
  unfold step
  rw [if_neg (by omega)]
  dsimp only
  rw [ha, h]

theorem step_whole {s u : State} {q : Nat} {e : Win} (hc : s.cur.seq < 16384) (ha : s.elapse.agenda = [])
    (h : s.elapse.nextAction = .whole u q e) : step s = u.issueWhole q e := by
  unfold step
  rw [if_neg (by omega)]
  dsimp only
  rw [ha, h]

/-- A picked slot that may issue is the one that issues. -/
theorem State.pickSlot_latch {u : State} {n : Nat} {e : Win} (hl : u.latch = some (u.cur.seq, n))
    (hn : (u.seq u.cur.seq).nextOf n = some e) (hm : u.mayIssue u.cur.seq e n = true) : u.pickSlot = some (e, n) := by
  simp [State.pickSlot, hl, hn, hm]

/-- A picked slot that may issue is the next action of the machine. -/
theorem State.nextAction_latch {u : State} {n : Nat} {e : Win} (hl : u.latch = some (u.cur.seq, n))
    (hr : (u.seq u.cur.seq).c.mode = .running) (hg : (u.seq u.cur.seq).regionReady = false)
    (hd : (u.seq u.cur.seq).shadowDue = false) (hn : (u.seq u.cur.seq).nextOf n = some e)
    (hm : u.mayIssue u.cur.seq e n = true) :
    u.nextAction = if (u.seq u.cur.seq).whole e then .whole { u with latch := none } u.cur.seq e
      else .run (u.aim u.cur.seq n e) (e.instr n) := by
  have turn : u.seqTurn = some (if (u.seq u.cur.seq).whole e then .whole { u with latch := none } u.cur.seq e
      else .run (u.aim u.cur.seq n e) (e.instr n)) := by
    simp only [State.seqTurn, hr, hg, hd, State.pickSlot_latch hl hn hm, ne_eq, not_true, if_false, Bool.false_eq_true]
  simp only [State.nextAction, hl, turn, Option.isNone_some, Bool.false_and, Bool.false_eq_true, if_false]

theorem Win.instr_of_decode {e : Win} {n : Nat} {i : Instr} (h : decodeSlot e.bits (slotOf n) = .ok i) : e.instr n = i := by
  rw [Win.instr, h]

/-! ### A bundle that issues whole -/

/-- The state after the first n slots of a bundle that issues whole have had their turn. -/
def State.issued (s : State) (q : Nat) (e : Win) : Nat → State
  | 0 => s
  | n + 1 =>
    let t := s.issued q e n
    if (t.seq q).due e n then
      match t.tryAt q e n with
      | .next u => u
      | _ => t
    else t

theorem State.issued_succ_not_due {s : State} {q : Nat} {e : Win} {n : Nat} (h : ((s.issued q e n).seq q).due e n = false) :
    s.issued q e (n + 1) = s.issued q e n := by
  rw [State.issued, h]
  rfl

theorem State.tryAt_issued {s : State} {q : Nat} {e : Win} {n : Nat} (h : ((s.issued q e n).seq q).due e n = true) :
    (s.issued q e n).tryAt q e n = .next (s.issued q e (n + 1)) := by
  obtain ⟨u, hu⟩ : ∃ u, (s.issued q e n).tryAt q e n = .next u := exec_next _ _
  rw [State.issued, h, hu]
  rfl

/-- One turn of the fold of `issueWhole`. -/
theorem State.issued_turn (s : State) (q : Nat) (e : Win) (n : Nat) :
    (if ((s.issued q e n).seq q).due e n then (s.issued q e n).tryAt q e n else .next (s.issued q e n)) =
      .next (s.issued q e (n + 1)) := by
  cases h : ((s.issued q e n).seq q).due e n
  · rw [State.issued_succ_not_due h]; rfl
  · rw [State.tryAt_issued h]; rfl

theorem State.issueWhole_issued {s : State} {q : Nat} {e : Win} (h : s.firstStall q e = none) :
    s.issueWhole q e = .next (s.issued q e 4) := by
  have first : (if (s.seq q).due e 0 then s.tryAt q e 0 else .next s) = .next (s.issued q e 1) := State.issued_turn s q e 0
  simp only [State.issueWhole, h, List.foldl_cons, List.foldl_nil, first, State.issued_turn]

/-! ### The bundles of a checked group -/

/-- The bundles that a check has accepted stay at the head of what it accepts. -/
theorem State.checkGroup_prefix {q : Nat} {loops : List Loop} {bs : List (Word × BitVec 128)} {s1 : State} (fuel : Nat) :
    ∀ {s : State} {pc : Word} {n : Nat} {earlier : List Uses} {done : List (Word × BitVec 128)},
      s.checkGroup q loops pc n earlier done fuel = .ok s1 (.good bs) → done <+: bs := by
  induction fuel with
  | zero =>
    intro s pc n earlier done h
    cases h
    exact List.prefix_rfl
  | succ fuel ih =>
    intro s pc n earlier done h
    rw [State.checkGroup] at h
    split at h
    next => cases h
    next => cases h
    next =>
      split at h
      · cases h
      · split at h
        · cases h
          exact List.prefix_append _ _
        · exact (List.prefix_append _ _).trans (ih h)

/-- The first bundle of a check that goes well is the one that the fetch gives at its address. -/
theorem State.checkGroup_first {s s1 : State} {q n fuel : Nat} {loops : List Loop} {pc : Word} {earlier : List Uses}
    {done bs : List (Word × BitVec 128)} (h : s.checkGroup q loops pc n earlier done (fuel + 1) = .ok s1 (.good bs)) :
    ∃ u b, s.fetch q pc = .ok u b ∧ bs[done.length]? = some (pc, b) := by
  rw [State.checkGroup] at h
  split at h
  next => cases h
  next => cases h
  next u b hf =>
    refine ⟨u, b, hf, ?_⟩
    have head : done ++ [(pc, b)] <+: bs := by
      split at h
      · cases h
      · split at h
        · cases h
          exact List.prefix_rfl
        · exact State.checkGroup_prefix fuel h
    obtain ⟨rest, rfl⟩ := head
    simp

end Sys2Proof.Machine
end

section
/-! PROOFS. The fetch through the instruction cache (O56, second part): what a read of an L2 line gives and leaves, and the step. -/

namespace Sys2Proof.Machine

/-! ### What the caches and homes leave of the sequencers -/

@[simp] theorem State.count_seqs (s : State) (ctx : Nat) (k : Traffic) (n : Nat) : (s.count ctx k n).seqs = s.seqs := by
  unfold State.count
  split
  · rfl
  · exact State.setOwner_seqs ..

@[simp] theorem State.setPromo_seqs (s : State) (d b : Nat) (rs : List PromoRow) : (s.setPromo d b rs).seqs = s.seqs := rfl

@[simp] theorem State.activate_seqs (s : State) (pa : Nat) (w : Bool) : (s.activate pa w).seqs = s.seqs := by
  unfold State.activate
  dsimp only
  repeat' split
  all_goals simp

@[simp] theorem State.rowWrote_seqs (s : State) (pa : Nat) : (s.rowWrote pa).seqs = s.seqs := by
  unfold State.rowWrote
  split <;> simp

@[simp] theorem State.sideWrote_seqs (s : State) (l : Nat) : (s.sideWrote l).seqs = s.seqs := by
  unfold State.sideWrote
  dsimp only
  repeat' split
  all_goals simp

@[simp] theorem State.setSide_seqs (s : State) (l : Nat) (x : Side) : (s.setSide l x).seqs = s.seqs := State.sideWrote_seqs s l
@[simp] theorem State.setL2_seqs (s : State) (c l : Nat) (x : CLine) : (s.setL2 c l x).seqs = s.seqs := rfl
@[simp] theorem State.sendLink_seqs (s : State) (vd ctx pa m : Nat) : (s.sendLink vd ctx pa m).seqs = s.seqs := rfl

@[simp] theorem State.dropMsc_seqs (s : State) (d r : Nat) : (s.dropMsc d r).seqs = s.seqs := by
  unfold State.dropMsc
  split
  · rfl
  · rw [State.count_seqs, State.setDie_seqs]
    split
    · rfl
    · exact State.activate_seqs ..

@[simp] theorem State.mscAt_seqs (s : State) (d l vd ctx cls : Nat) (w a : Bool) :
    (s.mscAt d l vd ctx cls w a).seqs = s.seqs := by
  unfold State.mscAt
  dsimp only
  repeat' split
  all_goals simp

@[simp] theorem State.mscAccess_seqs (s : State) (l vd ctx cls : Nat) (w a : Bool) :
    (s.mscAccess l vd ctx cls w a).seqs = s.seqs := by
  unfold State.mscAccess
  dsimp only
  split <;> simp

@[simp] theorem State.mscTouch_seqs (s : State) (l ctx cls : Nat) (w a : Bool) : (s.mscTouch l ctx cls w a).seqs = s.seqs :=
  State.mscAccess_seqs ..

@[simp] theorem State.homeRdS_seqs (s : State) (l r : Nat) : (s.homeRdS l r).1.seqs = s.seqs := by
  unfold State.homeRdS
  dsimp only
  repeat' split
  all_goals exact State.setSide_seqs ..

/-! ### A read of a line through an L2 -/

/-- A set with a free way evicts nothing. -/
theorem State.roomL2_free {s : State} {r l : Nat} (ctx : Nat)
    (h : ((s.cluster r).l2.filter fun e => e.1 % 8192 == l % 8192).length < 16) : s.roomL2 r l ctx = s := by
  have used : (s.setOfL2 r l).length ≤ ((s.cluster r).l2.filter fun e => e.1 % 8192 == l % 8192).length :=
    (List.monotone_filter_right _ fun e he => (Bool.and_eq_true_iff.mp he).1).length_le
  have none_over : (s.setOfL2 r l).length - 15 = 0 := by omega
  rw [State.roomL2, none_over]
  rfl

/-- A line that an L2 holds whole is read there. -/
theorem State.l2Read_full {s : State} {r l : Nat} (ctx : Nat) (h : s.l2Full r l = true) :
    (s.l2Read r l ctx).2 = s.l2Seen r l ∧ (s.l2Read r l ctx).1.seqs = s.seqs := by
  unfold State.l2Full at h
  split at h
  next c hc =>
    have full : c.have_ = BitVec.allOnes 64 := eq_of_beq h
    have hc' : Tab.get? (s.cluster r).l2 l = some c := hc
    simp only [State.l2Read, State.l2Seen, hc, hc', full, if_true, State.setL2_seqs, and_self]
  next => cases h

/-- A line that an L2 does not hold is filled from its home, when its set has room. -/
theorem State.l2Read_fill {s : State} {r l : Nat} (ctx : Nat) (hn : s.l2 r l = none)
    (h : ((s.cluster r).l2.filter fun e => e.1 % 8192 == l % 8192).length < 16) :
    (s.l2Read r l ctx).2 = s.l2Seen r l ∧ (s.l2Read r l ctx).1.seqs = s.seqs := by
  have hn' : Tab.get? (s.cluster r).l2 l = none := hn
  simp only [State.l2Read, State.l2Seen, hn, hn', State.roomL2_free ctx h, State.setL2_seqs, State.mscTouch_seqs,
    State.homeRdS_seqs, and_true]
  rfl

/-! ### What an access finds in order -/

theorem State.noWalker_of_cached {s : State} {die ctx : Nat} {va : Word} (h : s.needsWalk die ctx va false = false) :
    s.noWalker die ctx va false = false := by
  simp [State.noWalker, State.walkHeld, h]

theorem State.useKey_same {s : State} {t : Tr} (h : s.keyOf (lineOf t.pa) = (s.kid (eKsl t.e2)).getD 0) : s.useKey t = s := by
  unfold State.useKey
  split
  · rfl
  · rw [State.rekey, if_pos h]

theorem State.meetHome_clean {s : State} {l : Nat} (h : s.homeBad l = false) : s.meetHome l = (s, .clean) := by
  simp only [State.homeBad, Bool.or_eq_false_iff, Bool.and_eq_false_iff, Bool.not_eq_false'] at h
  obtain ⟨⟨side, data⟩, poison⟩ := h
  unfold State.meetHome
  dsimp only
  rw [side, poison]
  rcases data with hd | ho
  · rw [hd]; rfl
  · rw [ho]; simp

theorem State.meetErrors_clean {s : State} {l : Nat} (q ctx : Nat) (acc : Acc) (h : s.homeBad l = false) :
    s.meetErrors q ctx l acc = .ok s () := by
  simp only [State.meetErrors, State.homeErr, State.meetHome_clean h, State.errTrap]

/-! ### The fetch -/

/-- The bundle of a line at an address. -/
def bundleAt (pa : Nat) (d : BitVec 512) : BitVec 128 := BitVec.ofNat 128 (d.toNat / 2 ^ (8 * (pa % 64)))

theorem bundleAt_byte {pa k : Nat} (d : BitVec 512) (hk : k < 16) :
    (bundleAt pa d).extractLsb' (8 * k) 8 = d.extractLsb' (8 * (pa % 64 + k)) 8 := by
  refine BitVec.eq_of_getLsbD_eq fun i hi => ?_
  have low : 8 * k + i < 128 := by omega
  have sum : 8 * k + i + 8 * (pa % 64) = 8 * (pa % 64 + k) + i := by ring
  calc ((bundleAt pa d).extractLsb' (8 * k) 8).getLsbD i = (d.toNat / 2 ^ (8 * (pa % 64))).testBit (8 * k + i) := by
        simp only [bundleAt, BitVec.getLsbD_extractLsb', hi, BitVec.getLsbD_ofNat, low, decide_true, Bool.true_and]
    _ = d.getLsbD (8 * (pa % 64 + k) + i) := by rw [Nat.testBit_div_two_pow, sum, BitVec.testBit_toNat]
    _ = (d.extractLsb' (8 * (pa % 64 + k)) 8).getLsbD i := by
        simp only [BitVec.getLsbD_extractLsb', hi, decide_true, Bool.true_and]

/-- A fetch that the instruction cache does not serve reads the L2: at once when it holds the line whole, else when nothing keeps it from
the home and no error meets it. -/
theorem State.fetch_miss {s : State} {q : Nat} {pc : Word} {tr : Tr} (ha : inAperture pc = false)
    (hw : s.needsWalk (dieOf q) (s.ctxOf q) pc false = false)
    (ht : s.translate (dieOf q) (s.ctxOf q) pc { cls := pcFetch, fetch := true } = (s, .ok tr))
    (hk : s.keyOf (lineOf tr.pa) = (s.kid (eKsl tr.e2)).getD 0) (hg : s.gate (lineOf tr.pa) false = none)
    (hb : s.homeBad (lineOf tr.pa) = false)
    (hi : Tab.get? (s.core (coreOf q)).icache (l1Key (lineOf tr.pa) (s.ctxOf q)) = none) :
    ∃ t, s.fetch q pc = .ok t (bundleAt tr.pa (s.l2Read (clusterOf q) (lineOf tr.pa) (s.ctxOf q)).2) ∧
      t.seqs = (s.l2Read (clusterOf q) (lineOf tr.pa) (s.ctxOf q)).1.seqs := by
  simp only [State.fetch, ha, State.noWalker_of_cached hw, ht, State.useKey_same hk, hi, hg, State.meetErrors_clean _ _ _ hb,
    Try.bind, Bool.false_eq_true, if_false, ite_self]
  exact ⟨_, rfl, rfl⟩

/-- Settles O56: time leaves the turn, a step is the picked slot, the picked bundle or the event, a checked group is fetched, and a
fetch reads the line as the L2 shows it. -/
theorem stepRunsTheDecodedInstruction : Obligations.StepRunsTheDecodedInstruction := by
  refine ⟨fun s => State.elapse_sameTurn, ?_, ?_, fun s i rest => step_event, fun s s1 q n fuel loops pc earlier done bs =>
    State.checkGroup_first, ?_⟩
  · intro s n e u q hc ha hl hr hg hd hn hm
    have next := State.nextAction_latch hl hr hg hd hn hm
    refine ⟨fun i hw hi => ?_, fun hw => ?_⟩
    · rw [hw] at next
      rw [step_run hc ha next, Win.instr_of_decode hi]
      rfl
    · rw [hw] at next
      exact step_whole hc ha next
  · intro s q e i hi hs
    refine ⟨s.issued q e, rfl, State.issueWhole_issued hs, fun n hn => ⟨State.issued_succ_not_due, fun hd => ?_⟩⟩
    rw [← Win.instr_of_decode (hi n hn)]
    exact State.tryAt_issued hd
  · intro s q pc tr l ha hw ht _ hk hg hb _ hi hl
    have read := hl.elim (State.l2Read_full (s.ctxOf q)) fun h => State.l2Read_fill (s.ctxOf q) h.1 h.2
    obtain ⟨t, hf, seqs⟩ := State.fetch_miss ha hw ht hk hg hb hi
    refine ⟨t, _, hf, seqs.trans read.2, fun k hk => ?_⟩
    rw [bundleAt_byte _ hk, read.1]

end Sys2Proof.Machine
end

section
/-! PROOFS. Scalar values (O1 to O3): the tables of spec/03 R56 to R62 in the words of the model, and the write of one scalar
register. -/

namespace Sys2Proof.Machine

/-! ### The write of one register -/

/-- What a slot instruction does that writes one scalar register. -/
theorem slotDo_writesScalar {g : BitVec 7} {s : State} (hg : s.guardOn g = true) (d : BitVec 6) (f : State → Word) :
    ∃ t, slotDo g s (fun s => s.ws d (f s)) = .next t ∧ t.rs d = (if d = 0#6 then 0#64 else f s) ∧ s.onlyRegs t [d] [] [] [] := by
  refine ⟨_, slotDo_on hg, ?_, State.onlyRegs_ws s d _⟩
  rw [State.rs_retire, State.rs_ws, if_pos rfl]

/-! ### Values of the tables (spec/03 R56, R58 to R60, R62) -/

theorem cnt_eq_low (b : Word) : cnt b = (b.extractLsb' 0 6).toNat := by
  rw [BitVec.extractLsb'_toNat, Nat.shiftRight_zero]; rfl

/-- A shift count in an immediate below 64 is the count of its sign extension. -/
theorem cnt_signExtend {i : BitVec 7} (hi : i.toNat < 64) : cnt (i.signExtend 64) = i.toNat := by
  have pos : i.msb = false := BitVec.msb_eq_false_iff_two_mul_lt.mpr (by omega)
  rw [cnt, BitVec.signExtend_eq_setWidth_of_msb_false pos, BitVec.toNat_setWidth]
  omega

theorem minW_eq (a b : Word) : minW a b = if a.toInt ≤ b.toInt then a else b := by
  by_cases h : a.toInt ≤ b.toInt
  · simp [minW, BitVec.slt_iff_toInt_lt, h, not_lt.mpr h]
  · simp [minW, BitVec.slt_iff_toInt_lt, h, not_le.mp h]

theorem maxW_eq (a b : Word) : maxW a b = if b.toInt ≤ a.toInt then a else b := by
  by_cases h : b.toInt ≤ a.toInt
  · simp [maxW, BitVec.slt_iff_toInt_lt, h, not_lt.mpr h]
  · simp [maxW, BitVec.slt_iff_toInt_lt, h, not_le.mp h]

theorem minuW_eq (a b : Word) : minuW a b = if a.toNat ≤ b.toNat then a else b := by
  by_cases h : a.toNat ≤ b.toNat
  · simp [minuW, BitVec.ult_iff_toNat_lt, h, not_lt.mpr h]
  · simp [minuW, BitVec.ult_iff_toNat_lt, h, not_le.mp h]

theorem maxuW_eq (a b : Word) : maxuW a b = if b.toNat ≤ a.toNat then a else b := by
  by_cases h : b.toNat ≤ a.toNat
  · simp [maxuW, BitVec.ult_iff_toNat_lt, h, not_lt.mpr h]
  · simp [maxuW, BitVec.ult_iff_toNat_lt, h, not_le.mp h]

theorem shiftLeft_eq_mul_ofNat (b : Word) (n : Nat) : b <<< n = b * BitVec.ofNat 64 (2 ^ n) := by
  rw [BitVec.shiftLeft_eq_mul_twoPow]
  congr 1
  exact BitVec.eq_of_toNat_eq (by rw [BitVec.toNat_twoPow, BitVec.toNat_ofNat])

/-- movhi moves the low 48 bits up and sets the low sixteen. -/
theorem shiftLeft_or_setWidth_eq_append (x : Word) (i : BitVec 16) :
    (x <<< 16) ||| i.setWidth 64 = x.extractLsb' 0 48 ++ i := by
  refine BitVec.eq_of_getLsbD_eq fun n hn => ?_
  rw [BitVec.getLsbD_or, BitVec.getLsbD_shiftLeft, BitVec.getLsbD_setWidth, BitVec.getLsbD_append]
  by_cases h : n < 16
  · simp [h, hn]
  · simp [h, hn, BitVec.getLsbD_of_ge i n (by omega), show n - 16 < 48 by omega]

/-- The slot-A forms that take two registers (spec/03 R56). -/
theorem aluA_writes (f : Word → Word → Word) {g : BitVec 4} {s : State} (hg : s.guardOn (g.setWidth 7) = true) (d a b : BitVec 6) :
    ∃ t, aluA f g d a b s = .next t ∧ t.rs d = (if d = 0#6 then 0#64 else f (s.rs a) (s.rs b)) ∧ s.onlyRegs t [d] [] [] [] :=
  slotDo_writesScalar hg d _

/-- The slot-A forms that take an immediate (spec/03 R58). -/
theorem immA_writes (f : Word → Word → Word) {g : BitVec 4} {s : State} (hg : s.guardOn (g.setWidth 7) = true) (d a : BitVec 6)
    (i : BitVec 7) :
    ∃ t, immA f g d a i s = .next t ∧ t.rs d = (if d = 0#6 then 0#64 else f (s.rs a) (i.signExtend 64)) ∧
      s.onlyRegs t [d] [] [] [] := slotDo_writesScalar hg d _

/-- The slot-B forms that take two registers (spec/03 R59). -/
theorem aluB_writes (f : Word → Word → Word) {g : BitVec 7} {s : State} (hg : s.guardOn g = true) (x y z : BitVec 6) :
    ∃ t, aluB f g x y z s = .next t ∧ t.rs x = (if x = 0#6 then 0#64 else f (s.rs y) (s.rs z)) ∧ s.onlyRegs t [x] [] [] [] :=
  slotDo_writesScalar hg x _

/-- Settles O1: each row of the tables writes its value, by the shape of its meaning. -/
theorem scalarWritesOneRegister : Obligations.ScalarWritesOneRegister := by
  intro i s g d w hr hg
  cases i
  case addAr | subAr | mul | andAr | orAr | xorAr => cases hr; exact aluA_writes _ hg _ _ _
  case shlAr | shrAr | sraAr => cases hr; rw [← cnt_eq_low]; exact aluA_writes _ hg _ _ _
  case min => cases hr; rw [← minW_eq]; exact aluA_writes _ hg _ _ _
  case max => cases hr; rw [← maxW_eq]; exact aluA_writes _ hg _ _ _
  case minu => cases hr; rw [← minuW_eq]; exact aluA_writes _ hg _ _ _
  case maxu => cases hr; rw [← maxuW_eq]; exact aluA_writes _ hg _ _ _
  case addAi | andAi | orAi | xorAi => cases hr; exact immA_writes _ hg _ _ _
  case shlAi | shrAi | sraAi =>
    rw [Stmt.scalarResult] at hr
    split at hr
    next hi => cases hr; rw [← cnt_signExtend hi]; exact immA_writes _ hg _ _ _
    next => cases hr
  case addB3 | subB3 | andB3 | orB3 | xorB3 => cases hr; exact aluB_writes _ hg _ _ _
  case shlB3 | shrB3 | sraB3 => cases hr; rw [← cnt_eq_low]; exact aluB_writes _ hg _ _ _
  case lea sh => cases hr; rw [← shiftLeft_eq_mul_ofNat]; exact aluB_writes (fun a b => a + b <<< sh.toNat) hg _ _ _
  case movhi => cases hr; rw [← shiftLeft_or_setWidth_eq_append, exec_movhi]; exact slotDo_writesScalar hg _ _
  case moviAw => cases hr; rw [exec_moviAw]; exact slotDo_writesScalar hg _ _
  case sel => cases hr; rw [exec_sel]; exact slotDo_writesScalar hg _ _
  case addBi => cases hr; rw [exec_addBi]; exact slotDo_writesScalar hg _ _
  case moviBw => cases hr; rw [exec_moviBw]; exact slotDo_writesScalar hg _ _
  case sysRd => cases hr; rw [exec_sysRd]; exact slotDo_writesScalar hg _ _
  all_goals cases hr

/-! ### Products and counts (O2; spec/03 R56) -/

theorem toInt_extractLsb'_high (p : BitVec 128) : (p.extractLsb' 64 64).toInt = p.toInt / 2 ^ 64 := by
  have low : (p.extractLsb' 64 64).toNat = p.toNat / 2 ^ 64 := by
    rw [BitVec.extractLsb'_toNat, Nat.shiftRight_eq_div_pow]
    omega
  rw [BitVec.toInt_eq_toNat_cond, BitVec.toInt_eq_toNat_cond, low]
  omega

theorem mulhW_toInt (a b : Word) : (mulhW a b).toInt = a.toInt * b.toInt / 2 ^ 64 := by
  have low := BitVec.le_toInt_mul_toInt (x := a) (y := b)
  have high := BitVec.toInt_mul_toInt_le (x := a) (y := b)
  have exact_product : (a.signExtend 128 * b.signExtend 128).toInt = a.toInt * b.toInt := by
    rw [BitVec.toInt_mul, BitVec.toInt_signExtend_of_le (by omega), BitVec.toInt_signExtend_of_le (by omega)]
    exact Int.bmod_eq_of_le (by omega) (by omega)
  rw [mulhW, toInt_extractLsb'_high, exact_product]

theorem mulhuW_toNat (a b : Word) : (mulhuW a b).toNat = a.toNat * b.toNat / 2 ^ 64 := by
  have bound := BitVec.toNat_mul_toNat_lt (x := a) (y := b)
  rw [mulhuW, BitVec.extractLsb'_toNat, BitVec.toNat_mul, BitVec.toNat_setWidth_of_le (by omega),
    BitVec.toNat_setWidth_of_le (by omega), Nat.mod_eq_of_lt bound, Nat.shiftRight_eq_div_pow]
  omega

/-- The number of leading zeros among the low n bits bounds their value from both sides. -/
theorem clzFrom_bounds (a : Word) (n : Nat) :
    clzFrom a n ≤ n ∧ a.toNat % 2 ^ n < 2 ^ (n - clzFrom a n) ∧
      (clzFrom a n < n → 2 ^ (n - 1 - clzFrom a n) ≤ a.toNat % 2 ^ n) := by
  induction n with
  | zero => simp [clzFrom, Nat.mod_one]
  | succ n ih =>
    obtain ⟨le, above, below⟩ := ih
    have split_top : a.toNat % 2 ^ (n + 1) = a.toNat % 2 ^ n + 2 ^ n * (a.toNat / 2 ^ n % 2) := Nat.mod_pow_succ
    have top_bit : a.getLsbD n = decide (a.toNat / 2 ^ n % 2 = 1) := Nat.testBit_eq_decide_div_mod_eq
    by_cases top : a.getLsbD n
    · have set : a.toNat / 2 ^ n % 2 = 1 := by simpa [top] using top_bit
      rw [set, Nat.mul_one] at split_top
      refine ⟨by simp [clzFrom, top], ?_, fun _ => ?_⟩
      · simpa [clzFrom, top] using Nat.mod_lt a.toNat (Nat.two_pow_pos (n + 1))
      · simp [clzFrom, top, split_top]
    · have clear : a.toNat / 2 ^ n % 2 = 0 := by simpa [top] using top_bit
      have value : a.toNat % 2 ^ (n + 1) = a.toNat % 2 ^ n := by rw [split_top, clear, Nat.mul_zero, Nat.add_zero]
      have count : clzFrom a (n + 1) = clzFrom a n + 1 := by simp [clzFrom, top]
      rw [count, value, Nat.add_sub_add_right, Nat.add_sub_cancel, show n - (clzFrom a n + 1) = n - 1 - clzFrom a n by omega]
      exact ⟨by omega, above, fun h => below (by omega)⟩

theorem popFrom_eq_length (a : Word) (n : Nat) : popFrom a n = ((List.range n).filter fun k => a.getLsbD k).length := by
  induction n with
  | zero => rfl
  | succ n ih =>
    rw [popFrom, ih, List.range_succ, List.filter_append, List.length_append]
    by_cases h : a.getLsbD n <;> simp [h]

theorem clzW_toNat (a : Word) : (clzW a).toNat = clzFrom a 64 := by
  have := (clzFrom_bounds a 64).1
  rw [clzW, BitVec.toNat_ofNat]
  omega

theorem popcW_toNat (a : Word) : (popcW a).toNat = ((List.range 64).filter fun k => a.getLsbD k).length := by
  have bound := List.length_filter_le (fun k => a.getLsbD k) (List.range 64)
  rw [List.length_range] at bound
  rw [popcW, popFrom_eq_length, BitVec.toNat_ofNat]
  omega

/-- The number that clz gives counts the leading zeros: it is the only one between these bounds. -/
theorem clzW_bounds (a : Word) :
    (clzW a).toNat ≤ 64 ∧ a.toNat < 2 ^ (64 - (clzW a).toNat) ∧ ((clzW a).toNat < 64 → 2 ^ (63 - (clzW a).toNat) ≤ a.toNat) := by
  have bounds := clzFrom_bounds a 64
  rwa [Nat.mod_eq_of_lt a.isLt, ← clzW_toNat] at bounds

/-- A destination other than s0 reads the value. -/
theorem writesScalar_nonzero {r : Result} {s : State} {d : BitVec 6} {w : Word}
    (h : ∃ t, r = .next t ∧ t.rs d = (if d = 0#6 then 0#64 else w) ∧ s.onlyRegs t [d] [] [] []) :
    ∃ t, r = .next t ∧ s.onlyRegs t [d] [] [] [] ∧ (d ≠ 0#6 → t.rs d = w) := by
  obtain ⟨t, next, value, frame⟩ := h
  exact ⟨t, next, frame, fun hd => by rw [value, if_neg hd]⟩

/-- Settles O2: the products are exact in 128 bits, and the counts are those of the recursion over the bits. -/
theorem highProductsAndBitCounts : Obligations.HighProductsAndBitCounts := by
  intro s g d a b hg
  refine ⟨?_, ?_, ?_, ?_⟩
  · obtain ⟨t, next, frame, value⟩ := writesScalar_nonzero (aluA_writes mulhW hg d a b)
    exact ⟨t, next, frame, fun hd => by rw [value hd, mulhW_toInt]⟩
  · obtain ⟨t, next, frame, value⟩ := writesScalar_nonzero (aluA_writes mulhuW hg d a b)
    exact ⟨t, next, frame, fun hd => by rw [value hd, mulhuW_toNat]⟩
  · obtain ⟨t, next, frame, value⟩ := writesScalar_nonzero (slotDo_writesScalar hg d fun s => clzW (s.rs a))
    exact ⟨t, next, frame, fun hd => by rw [value hd]; exact clzW_bounds _⟩
  · obtain ⟨t, next, frame, value⟩ := writesScalar_nonzero (slotDo_writesScalar hg d fun s => popcW (s.rs a))
    exact ⟨t, next, frame, fun hd => by rw [value hd, popcW_toNat]⟩

/-! ### Bit fields (O3; spec/03 R61) -/

theorem getLsbD_extW (y : Word) (pos w n : Nat) :
    (extW y pos w).getLsbD n = (decide (n < w) && y.getLsbD (pos + n)) := by
  rw [extW, BitVec.getLsbD_and, BitVec.getLsbD_ushiftRight, BitVec.getLsbD_ofNat, Nat.testBit_two_pow_sub_one, Bool.and_comm]
  by_cases hn : n < 64
  · simp [hn]
  · simp [BitVec.getLsbD_of_ge y (pos + n) (by omega)]

theorem getLsbD_insW (x y : Word) (pos w : Nat) {n : Nat} (hn : n < 64) :
    (insW x y pos w).getLsbD n = if pos ≤ n ∧ n < pos + w then y.getLsbD (n - pos) else x.getLsbD n := by
  have mask : (BitVec.ofNat 64 ((2 ^ w - 1) * 2 ^ pos)).getLsbD n = decide (pos ≤ n ∧ n < pos + w) := by
    rw [BitVec.getLsbD_ofNat, Nat.testBit_mul_two_pow, Nat.testBit_two_pow_sub_one]
    by_cases hp : pos ≤ n
    · simp [hn, hp, show n - pos < w ↔ n < pos + w by omega]
    · simp [hp]
  simp only [insW, BitVec.getLsbD_or, BitVec.getLsbD_and, BitVec.getLsbD_not, BitVec.getLsbD_shiftLeft, mask]
  by_cases hf : pos ≤ n ∧ n < pos + w
  · simp [hf, hn, show ¬ n < pos by omega]
  · simp [hf, hn]

/-- Settles O3: a mask of w bits, in place for ext and shifted to the field for ins. -/
theorem bitFieldMoves : Obligations.BitFieldMoves := by
  intro s g x y pos wm1 hg _
  constructor
  · obtain ⟨t, next, frame, value⟩ :=
      writesScalar_nonzero (slotDo_writesScalar hg x fun s => extW (s.rs y) pos.toNat (wm1.toNat + 1))
    refine ⟨t, next, frame, fun hd n => ?_⟩
    rw [value hd, getLsbD_extW]
    simp only [Nat.lt_succ_iff]
  · obtain ⟨t, next, frame, value⟩ :=
      writesScalar_nonzero (slotDo_writesScalar hg x fun s => insW (s.rs x) (s.rs y) pos.toNat (wm1.toNat + 1))
    refine ⟨t, next, frame, fun hd n hn => ?_⟩
    rw [value hd, getLsbD_insW _ _ _ _ hn]
    simp only [← Nat.add_assoc, Nat.lt_succ_iff]

end Sys2Proof.Machine
end

section
/-! PROOFS. Transfers (O7) and writes of control registers and shadows (O12). -/

namespace Sys2Proof.Machine

/-! ### Frames of the running sequencer's updates -/

theorem State.sameOthers.trans {s t u : State} {q : Nat} (h : s.sameOthers t q) (k : t.sameOthers u q) : s.sameOthers u q :=
  fun p hp => (k p hp).trans (h p hp)

theorem State.sameOthers_setMe (s : State) (x : Seq) : s.sameOthers (s.setMe x) s.cur.seq :=
  fun _ hp => State.seq_setMe_other s x hp

theorem State.sameOthers_retire (s : State) : s.sameOthers s.retire s.cur.seq := fun _ hp => State.seq_retire_other s hp

/-- An update of the running sequencer, and its issue, leave the others alone. -/
theorem State.sameOthers_setMe_retire (s : State) (x : Seq) : s.sameOthers (s.setMe x).retire s.cur.seq :=
  (s.sameOthers_setMe x).trans (s.setMe x).sameOthers_retire

theorem State.sameModule_setMe (s : State) (x : Seq) : s.sameModule (s.setMe x) := State.sameModule_setSeq s _ x

theorem State.sameModule_retire (s : State) : s.sameModule s.retire :=
  State.sameModule_of rfl rfl rfl rfl rfl rfl rfl rfl rfl rfl rfl rfl rfl rfl

/-- An update of the running sequencer, and its issue, leave the module alone. -/
theorem State.sameModule_setMe_retire (s : State) (x : Seq) : s.sameModule (s.setMe x).retire :=
  State.sameModule_trans (s.sameModule_setMe x) (s.setMe x).sameModule_retire

/-! ### Transfers (spec/03 R67) -/

/-- A transfer alone changes no register. -/
theorem State.transferred_transfer (s : State) (target : Word) : Stmt.transferred s (s.transfer target).retire target [] := by
  have me : (s.transfer target).retire.me =
      Seq.retire { s.me with c := { s.me.c with redirect := some target } } s.cur.bn s.cur.slot 1 := by
    rw [State.me_retire, State.me_transfer]; rfl
  refine ⟨by rw [me]; rfl, by rw [me]; exact Regs.sameBut_refl _ _ _ _ _, by rw [me]; rfl, by rw [me]; rfl, ?_, ?_⟩
  · exact s.sameOthers_setMe_retire _
  · exact s.sameModule_setMe_retire _

/-- A transfer that writes a link changes the registers as the write does. -/
theorem State.transferred_link (s : State) (d : BitVec 6) (w target : Word) {ss : List (BitVec 6)}
    (h : s.me.r.sameBut (s.me.r.setS d w) ss [] [] []) : Stmt.transferred s ((s.ws d w).transfer target).retire target ss := by
  have me : ((s.ws d w).transfer target).retire.me =
      Seq.retire { s.me with r := s.me.r.setS d w, c := { s.me.c with redirect := some target } } s.cur.bn s.cur.slot 1 := by
    rw [State.me_retire, State.me_transfer, State.me_ws]; rfl
  refine ⟨by rw [me]; rfl, by rw [me]; exact h, by rw [me]; rfl, by rw [me]; rfl, ?_, ?_⟩
  · exact (s.sameOthers_setMe _).trans ((s.ws d w).sameOthers_setMe_retire _)
  · exact State.sameModule_trans (s.sameModule_setMe _) ((s.ws d w).sameModule_setMe_retire _)

theorem State.rs_link (s : State) (d : BitVec 6) (w target : Word) :
    ((s.ws d w).transfer target).retire.rs d = if d = 0#6 then 0#64 else w := by
  have same : ((s.ws d w).transfer target).rs d = (s.ws d w).rs d := by rw [State.rs, State.me_transfer]; rfl
  rw [State.rs_retire, same, State.rs_ws, if_pos rfl]

theorem exec_br_on {s : State} {g : BitVec 4} (hg : s.guardA g = true) (off : BitVec 19) :
    exec (.br g off) s = .next (s.transfer (s.cur.addr + bundles off)).retire := by
  rw [exec_br]
  exact slotDo_on hg

theorem exec_call_on {s : State} {g : BitVec 4} (hg : s.guardA g = true) (off : BitVec 19) :
    exec (.call g off) s = .next ((s.ws 63#6 (s.cur.addr + 16#64)).transfer (s.cur.addr + bundles off)).retire := by
  rw [exec_call]
  exact slotDo_on hg

/-- A target that is a multiple of sixteen is read before the link is written. -/
theorem jumpTo_aligned {s : State} {g : BitVec 4} (hg : s.guardA g = true) (d : BitVec 6) {a : BitVec 6}
    (ha : (s.rs a).extractLsb' 0 4 = 0#4) :
    jumpTo g d a s = .next ((s.ws d (s.cur.addr + 16#64)).transfer (s.rs a)).retire := by
  have aligned : ¬ (s.rs a).toNat % 16 ≠ 0 := by
    have low : ((s.rs a).extractLsb' 0 4).toNat = 0 := by rw [ha]; rfl
    rw [BitVec.extractLsb'_toNat, Nat.shiftRight_zero] at low
    exact not_not.mpr low
  rw [jumpTo, slotOp_on hg]
  simp only [aligned, if_false]
  rfl

/-- A taken transfer wins over a back edge (spec/03 R69, R78). -/
theorem Seq.turnOver_transfer {x : Seq} {bn : Nat} {target : Word} (ht : x.c.turn = some bn) (hr : x.c.redirect = some target) :
    x.turnOver.c.pc = target ∧ x.turnOver.c.loops = x.c.loops ∧ x.turnOver.r = x.r := by
  simp only [Seq.turnOver, ht, hr, and_self]

/-- Settles O7: each transfer is one redirect, with or without the write of a link. -/
theorem transfersLinkAndRedirect : Obligations.TransfersLinkAndRedirect := by
  refine ⟨fun s g off hg => ⟨⟨_, exec_br_on hg off, s.transferred_transfer _⟩, ?_⟩, fun s g d a hg ha => ⟨?_, ?_⟩,
    fun x bn target ht hr => Seq.turnOver_transfer ht hr⟩
  · exact ⟨_, exec_call_on hg off, s.transferred_link _ _ _ (Regs.sameBut_setS _ _ _), s.rs_link _ _ _⟩
  · exact ⟨_, jumpTo_aligned hg d ha, s.transferred_link _ _ _ (Regs.sameBut_setS _ _ _), s.rs_link _ _ _⟩
  · exact ⟨_, jumpTo_aligned hg 0#6 ha, s.transferred_link _ _ _ (Regs.sameBut_refl _ _ _ _ _)⟩

/-! ### cr.fmt and the shape shadows (spec/03 R85, spec/04 R100, spec/05 R124, spec/06 R137) -/

theorem exec_sysWr_fmt {s : State} {g : BitVec 4} (hg : s.guardA g = true) (d : BitVec 6) :
    exec (.sysWr g d 0#13) s = .next (s.setCtl { s.me.c with fmt := { s.me.c.fmt with writes := s.me.c.fmt.writes ++
      [(s.cur.bn, (s.rs d).setWidth 14, some ((s.rs d).extractLsb' 32 4))] } }).retire := by
  rw [exec_sysWr, execSysWr, slotOp_on hg, if_pos rfl]
  rfl

theorem exec_shf_on {s : State} {g : BitVec 4} (hg : s.guardA g = true) (code : BitVec 3) (field : BitVec 4) (a : BitVec 6) :
    exec (.shf g code field a) s = .next (s.setRegs (s.me.r.shf code field.toNat (s.rs a))).retire := by
  rw [exec_shf]
  exact slotDo_on hg

theorem State.me_setRegs_retire (s : State) (r : Regs) :
    (s.setRegs r).retire.me = Seq.retire { s.me with r := r } s.cur.bn s.cur.slot 1 := by
  rw [State.me_retire, State.me_setRegs]; rfl

/-- shf changes shadow shapes only. -/
theorem Regs.shf_shadows (r : Regs) (code : BitVec 3) (field : Nat) (w : Word) :
    ∃ csh ksh, r.shf code field w = { r with csh := csh, ksh := ksh } := by
  unfold Regs.shf
  dsimp only
  split <;> exact ⟨_, _, rfl⟩

theorem Regs.getCsh_put (r : Regs) (n m : BitVec 2) (c : CShape) :
    { r with csh := Tab.put r.csh n.toNat c }.getCsh m = if m = n then c else r.getCsh m := by
  simp only [Regs.getCsh, Tab.getD_put, BitVec.toNat_inj]

theorem Regs.getKsh_put (r : Regs) (n m : BitVec 2) (k : KShape) :
    { r with ksh := Tab.put r.ksh n.toNat k }.getKsh m = if m = n then k else r.getKsh m := by
  simp only [Regs.getKsh, Tab.getD_put, BitVec.toNat_inj]

/-- Codes below four name a shadow of a c shape. -/
theorem Regs.getCsh_shf (r : Regs) (code : BitVec 3) (field : Nat) (w : Word) (n : BitVec 2) :
    (r.shf code field w).getCsh n =
      if code.toNat < 4 ∧ n = code.extractLsb' 0 2 then (r.getCsh n).put field w else r.getCsh n := by
  have msb_iff : code.toNat < 4 ↔ code.msb = false := by revert code; decide
  rw [← BitVec.setWidth_eq_extractLsb' (by omega)]
  simp only [msb_iff]
  cases h : code.msb
  · simp only [Regs.shf, h, if_false, Bool.false_eq_true, Regs.getCsh_put, true_and]
    split <;> simp [*]
  · simp only [Regs.shf, h, if_true, Bool.true_eq_false, false_and, if_false]
    rfl

/-- The other codes name a shadow of a k shape. -/
theorem Regs.getKsh_shf (r : Regs) (code : BitVec 3) (field : Nat) (w : Word) (n : BitVec 2) :
    (r.shf code field w).getKsh n =
      if 4 ≤ code.toNat ∧ n = code.extractLsb' 0 2 then (r.getKsh n).put field w else r.getKsh n := by
  have msb_iff : 4 ≤ code.toNat ↔ code.msb = true := by revert code; decide
  rw [← BitVec.setWidth_eq_extractLsb' (by omega)]
  simp only [msb_iff]
  cases h : code.msb
  · simp only [Regs.shf, h, if_false, Bool.false_eq_true, false_and]
    rfl
  · simp only [Regs.shf, h, if_true, true_and, Regs.getKsh_put]
    split <;> simp [*]

/-- Settles O12: sys.wr of cr.fmt is one more write of its list, and shf one field of one shadow. -/
theorem controlWritesAndShadows : Obligations.ControlWritesAndShadows := by
  refine ⟨fun s g d hg => ⟨_, exec_sysWr_fmt hg d, ?_⟩, fun s g code field a hg => ⟨_, exec_shf_on hg code field a, ?_⟩⟩
  · rw [State.me_setCtl_retire]
    exact ⟨rfl, s.sameModule_setMe_retire _, s.sameOthers_setMe_retire _, by
      rw [← BitVec.setWidth_eq_extractLsb' (by omega)]; rfl, rfl, rfl⟩
  · have regs : (s.setRegs (s.me.r.shf code field.toNat (s.rs a))).retire.me.r = s.me.r.shf code field.toNat (s.rs a) := by
      rw [State.me_setRegs_retire]; rfl
    obtain ⟨csh, ksh, shadows⟩ := s.me.r.shf_shadows code field.toNat (s.rs a)
    have same : (s.setRegs (s.me.r.shf code field.toNat (s.rs a))).retire.me.r = { s.me.r with csh := csh, ksh := ksh } :=
      regs.trans shadows
    refine ⟨s.sameModule_setMe_retire _, s.sameOthers_setMe_retire _, fun n => ?_, fun n => ?_, fun n => ?_, ?_, ?_, ?_,
      fun n => ?_, fun n => ?_⟩
    · rw [State.rs, same]; rfl
    · rw [State.rp, same]; rfl
    · rw [State.rv, same]; rfl
    · rw [same]
    · rw [same]
    · rw [same]
    · rw [regs, Regs.getCsh_shf]
    · rw [regs, Regs.getKsh_shf]

end Sys2Proof.Machine
end

section
/-! PROOFS. The divide unit (O4) and predicate logic (O5). -/

namespace Sys2Proof.Machine

/-! ### The divide unit (spec/03 R57) -/

theorem State.me_setFlight_retire (s : State) (f : Flight) :
    (s.setFlight f).retire.me = Seq.retire { s.me with f := f } s.cur.bn s.cur.slot 1 := by
  rw [State.me_retire, State.me_setFlight]; rfl

/-- A divide of an idle unit goes into it, and the slot issues. -/
theorem startDiv_idle {g : BitVec 4} {s : State} (hg : s.guardA g = true) (idle : s.me.f.divu = none) (signed : Bool)
    (d a b : BitVec 6) :
    startDiv signed g d a b s = .next (s.setFlight { s.me.f with
      divu := some { dividend := s.rs a, divisor := s.rs b, signed := signed, dest := d } }).retire := by
  rw [startDiv, slotOp_on hg, idle]
  rfl

/-- What the start of a divide leaves alone. -/
theorem State.divideStarted (s : State) (u : DivUnit) :
    let t := (s.setFlight { s.me.f with divu := some u }).retire
    t.me.f.divu = some u ∧ t.me.r = s.me.r ∧ s.me.c.sameBut t.me.c ∧ s.sameOthers t s.cur.seq ∧ s.sameModule t := by
  intro t
  have me : t.me = Seq.retire { s.me with f := { s.me.f with divu := some u } } s.cur.bn s.cur.slot 1 :=
    State.me_setFlight_retire s _
  rw [me]
  exact ⟨rfl, rfl, rfl, s.sameOthers_setMe_retire _, s.sameModule_setMe_retire _⟩

theorem exec_divComplete_busy {s : State} {q : Nat} {u : DivUnit} (h : (s.seq q).f.divu = some u) :
    exec (.divComplete q) s = .next (s.setSeq q { s.seq q with
      r := (s.seq q).r.setS u.dest (divW u.signed u.dividend u.divisor), f := { (s.seq q).f with divu := none } }) := by
  simp only [exec_divComplete, execDivComplete, h]

theorem divW_zero (signed : Bool) (a : Word) : divW signed a 0#64 = 0xFFFFFFFFFFFFFFFF#64 := rfl

theorem divW_unsigned {b : Word} (h : b ≠ 0#64) (a : Word) : (divW false a b).toNat = a.toNat / b.toNat := by
  simp only [divW, h, if_false, Bool.false_eq_true, BitVec.udiv_eq, BitVec.toNat_udiv]

theorem divW_signed {a b : Word} (h : b ≠ 0#64) (hc : ¬(a.toInt = -2 ^ 63 ∧ b.toInt = -1)) :
    (divW true a b).toInt = a.toInt.tdiv b.toInt := by
  have no_wrap : a ≠ BitVec.intMin 64 ∨ b ≠ -1#64 := by
    by_contra both
    obtain ⟨ha, hb⟩ := not_or.mp both
    exact hc ⟨by rw [not_not.mp ha]; rfl, by rw [not_not.mp hb]; rfl⟩
  simp only [divW, h, if_false, if_true, BitVec.toInt_sdiv_of_ne_or_ne _ _ no_wrap]

theorem divW_wraps {a b : Word} (ha : a.toInt = -2 ^ 63) (hb : b.toInt = -1) : (divW true a b).toInt = -2 ^ 63 := by
  have a_min : a = BitVec.intMin 64 := BitVec.eq_of_toInt_eq ha
  have b_neg : b = -1#64 := BitVec.eq_of_toInt_eq hb
  rw [a_min, b_neg]
  rfl

/-- Settles O4: the unit takes the operands, and DIV_COMPLETE writes the quotient in its four cases. -/
theorem divideDeliversQuotient : Obligations.DivideDeliversQuotient := by
  refine ⟨fun s g d a b hg idle i signed hi => ?_, fun s q u hu => ⟨_, exec_divComplete_busy hu, ?_⟩⟩
  · have start : exec i s = startDiv signed g d a b s := by
      simp only [List.mem_cons, Prod.mk.injEq, List.not_mem_nil, or_false] at hi
      obtain ⟨rfl, rfl⟩ | ⟨rfl, rfl⟩ := hi <;> rfl
    exact ⟨_, start.trans (startDiv_idle hg idle signed d a b), State.divideStarted s _⟩
  · rw [State.seq_setSeq_same]
    refine ⟨rfl, rfl, Regs.sameBut_setS _ _ _, fun p hp => State.seq_setSeq_other s _ hp, State.sameModule_setSeq _ _ _,
      fun hd => ?_⟩
    rw [Regs.getS_setS, if_pos rfl, if_neg hd]
    exact ⟨fun h => by rw [h]; exact divW_zero _ _, fun h hs => by rw [hs]; exact divW_unsigned h _,
      fun h hs hc => by rw [hs]; exact divW_signed h hc, fun hs ha hb => by rw [hs]; exact divW_wraps ha hb⟩

/-! ### Predicate logic (spec/03 R66) -/

/-- What a slot instruction does that writes one predicate. -/
theorem slotDo_writesPredicate {g : BitVec 7} {s : State} (hg : s.guardOn g = true) (x : BitVec 7) (f : State → BitVec 32) :
    ∃ t, slotDo g s (fun s => s.wp x (f s)) = .next t ∧ t.rp x = (if x = 0#7 then 0xFFFFFFFF#32 else f s) ∧
      s.onlyRegs t [] [x] [] [] := by
  refine ⟨_, slotDo_on hg, ?_, State.onlyRegs_wp s x _⟩
  rw [State.rp_retire, State.rp_wp, if_pos rfl]

theorem predOp_writes (f : BitVec 32 → BitVec 32 → BitVec 32) {g : BitVec 7} {s : State} (hg : s.guardOn g = true)
    (x y z : BitVec 7) (inv : BitVec 1) :
    ∃ t, predOp f g x y z inv s = .next t ∧
      t.rp x = (if x = 0#7 then 0xFFFFFFFF#32 else f (s.rp y) (if inv = 1#1 then ~~~ s.rp z else s.rp z)) ∧
      s.onlyRegs t [] [x] [] [] := slotDo_writesPredicate hg x _

theorem exec_predicate {i : Instr} {s : State} {g x : BitVec 7} {v : BitVec 32} (hr : Stmt.predicateResult s i = some (g, x, v))
    (hg : s.guardOn g = true) :
    ∃ t, exec i s = .next t ∧ t.rp x = (if x = 0#7 then 0xFFFFFFFF#32 else v) ∧ s.onlyRegs t [] [x] [] [] := by
  cases i
  case pand | por | pxor => cases hr; exact predOp_writes _ hg _ _ _ _
  case pnot => cases hr; rw [exec_pnot]; exact slotDo_writesPredicate hg _ _
  case pmov => cases hr; rw [exec_pmov]; exact slotDo_writesPredicate hg _ _
  all_goals cases hr

/-- The lanes from lo to hi are the bits of a difference of two powers. -/
theorem getLsbD_laneRange (lo hi : Nat) {n : Nat} (hn : n < 32) :
    (laneRange lo hi).getLsbD n = decide (lo ≤ n ∧ n ≤ hi) := by
  rw [laneRange, BitVec.getLsbD_ofNat]
  by_cases h : lo ≤ hi
  · have block : 2 ^ (hi + 1) - 2 ^ lo = (2 ^ (hi + 1 - lo) - 1) * 2 ^ lo := by
      rw [Nat.sub_mul, Nat.one_mul, ← Nat.pow_add, Nat.sub_add_cancel (by omega)]
    rw [if_pos h, block, Nat.testBit_mul_two_pow, Nat.testBit_two_pow_sub_one, ← Bool.decide_and]
    simp only [hn, decide_true, Bool.true_and, decide_eq_decide]
    omega
  · simp [h, show ¬(lo ≤ n ∧ n ≤ hi) by omega]

/-- Settles O5: each operation is one write of a predicate, and pset's range is read lane by lane. -/
theorem predicateLogicWritesAllLanes : Obligations.PredicateLogicWritesAllLanes := by
  refine ⟨fun i s g x v hr hg => exec_predicate hr hg, fun s g x lo hi f hg _ _ => ?_⟩
  obtain ⟨t, next, value, frame⟩ := slotDo_writesPredicate hg x fun _ =>
    if f = 1#1 then ~~~ laneRange lo.toNat hi.toNat else laneRange lo.toNat hi.toNat
  refine ⟨t, next, frame, fun hx n hn => ?_⟩
  rw [value, if_neg hx]
  by_cases hf : f = 1#1
  · rw [if_pos hf, BitVec.getLsbD_not, getLsbD_laneRange _ _ hn]
    simp [hf, hn]
  · rw [if_neg hf, getLsbD_laneRange _ _ hn]
    simp [hf]

end Sys2Proof.Machine
end

section
/-! PROOFS. Hardware loops (O9; spec/03 R73 to R78): what a push, a pop and a back edge do to the levels and to the stage
predicates p8 to p15. -/

namespace Sys2Proof.Machine

/-! ### Stage predicates -/

theorem stage_toNat {j : Nat} (h : j < 120) : (BitVec.ofNat 7 (8 + j)).toNat = 8 + j := by
  rw [BitVec.toNat_ofNat]
  omega

theorem stage_ne_zero {j : Nat} (h : j < 120) : BitVec.ofNat 7 (8 + j) ≠ 0#7 := by
  intro eq
  have := stage_toNat h
  rw [eq, BitVec.toNat_ofNat] at this
  omega

theorem eq_stage_iff {j : Nat} (h : j < 120) (n : BitVec 7) : n = BitVec.ofNat 7 (8 + j) ↔ n.toNat = 8 + j := by
  rw [← BitVec.toNat_inj, stage_toNat h]

theorem Regs.getP_set_stage (r : Regs) {j : Nat} (h : j < 120) (n : BitVec 7) (v : BitVec 32) :
    (r.setP (BitVec.ofNat 7 (8 + j)) v).getP n = if n.toNat = 8 + j then v else r.getP n := by
  simp only [Regs.getP_setP, eq_stage_iff h, stage_ne_zero h, if_false]

/-- Stages 0 to k - 1 are written, each with whether it has work, and no other predicate. -/
theorem getP_setStage (r : Regs) (l : Loop) {k : Nat} (hk : k ≤ 8) (n : BitVec 7) :
    (setStage r l k).getP n =
      if 8 ≤ n.toNat ∧ n.toNat < 8 + k then allIf (stageOn (n.toNat - 8) l.n l.t) else r.getP n := by
  induction k with
  | zero => simp [setStage]
  | succ k ih =>
    rw [setStage, Regs.getP_set_stage _ (by omega), ih (by omega)]
    by_cases here : n.toNat = 8 + k
    · simp [here, allIf]
    · simp only [here, if_false, show n.toNat < 8 + (k + 1) ↔ n.toNat < 8 + k by omega]

theorem getS_setStage (r : Regs) (l : Loop) (k : Nat) (n : BitVec 6) : (setStage r l k).getS n = r.getS n := by
  induction k with
  | zero => rfl
  | succ k ih => rw [setStage, Regs.getS_setP, ih]

theorem getS_restoreStage (r : Regs) (j : Nat) (xs : List (BitVec 32)) (n : BitVec 6) :
    (restoreStage r j xs).getS n = r.getS n := by
  induction xs generalizing r j with
  | nil => rfl
  | cons x xs ih => rw [restoreStage, ih, Regs.getS_setP]

theorem getP_restoreStage_before (r : Regs) {j : Nat} {xs : List (BitVec 32)} (h : j + xs.length ≤ 120) {n : BitVec 7}
    (hn : n.toNat < 8 + j) : (restoreStage r j xs).getP n = r.getP n := by
  induction xs generalizing r j with
  | nil => rfl
  | cons x xs ih =>
    rw [List.length_cons] at h
    rw [restoreStage, ih _ (by omega) (by omega), Regs.getP_set_stage _ (by omega), if_neg (by omega)]

/-- A restored stage predicate has its saved value. -/
theorem getP_restoreStage (r : Regs) {j : Nat} {xs : List (BitVec 32)} (h : j + xs.length ≤ 120) {i : Nat} (hi : i < xs.length) :
    (restoreStage r j xs).getP (BitVec.ofNat 7 (8 + (j + i))) = xs[i] := by
  induction xs generalizing r j i with
  | nil => cases hi
  | cons x xs ih =>
    rw [List.length_cons] at h
    rw [restoreStage]
    cases i with
    | zero =>
      have first : (BitVec.ofNat 7 (8 + (j + 0))).toNat = 8 + j := stage_toNat (by omega)
      rw [getP_restoreStage_before _ (by omega) (by omega), Regs.getP_set_stage _ (by omega), if_pos first]
      rfl
    | succ i =>
      rw [List.length_cons] at hi
      have later := ih (r.setP (BitVec.ofNat 7 (8 + j)) x) (j := j + 1) (by omega) (i := i) (by omega)
      rwa [show j + 1 + i = j + (i + 1) by omega] at later

/-- A level whose predicates are restored from p8 on. -/
theorem getP_restoreStage_zero (r : Regs) {xs : List (BitVec 32)} (h : xs.length ≤ 120) {i : Nat} (hi : i < xs.length) :
    (restoreStage r 0 xs).getP (BitVec.ofNat 7 (8 + i)) = xs[i] := by
  have restored := getP_restoreStage r (j := 0) (by omega) hi
  rwa [Nat.zero_add] at restored

theorem savedStages_eq_map (r : Regs) (k : Nat) :
    savedStages r k = (List.range k).map fun j => r.getP (BitVec.ofNat 7 (8 + j)) := by
  induction k with
  | zero => rfl
  | succ k ih => rw [savedStages, ih, List.range_succ, List.map_append]; rfl

/-! ### loop and loop.sp -/

/-- The level that a loop or loop.sp pushes (spec/03 R75). -/
def State.newLevel (s : State) (n : Word) (len : BitVec 9) (stages : Nat) : Loop :=
  { start := s.cur.addr + 16#64, last := s.cur.addr + 16#64 * BitVec.ofNat 64 (len.toNat + 1), n := n, stages := stages, t := 0#64,
    saved := savedStages s.me.r stages }

theorem ofNat_len_add (len : BitVec 9) (k : Nat) : BitVec.ofNat 64 (len.toNat + k) = len.setWidth 64 + BitVec.ofNat 64 k := by
  rw [BitVec.ofNat_add, BitVec.ofNat_toNat]

theorem State.pushLoop_zero (s : State) (len : BitVec 9) (stages : Nat) :
    s.pushLoop 0#64 len stages = s.transfer (s.cur.addr + 16#64 * BitVec.ofNat 64 (len.toNat + 2)) := by
  rw [State.pushLoop, ofNat_len_add]; rfl

theorem State.me_pushLoop_retire (s : State) {n : Word} (hn : n ≠ 0#64) (len : BitVec 9) (stages : Nat) :
    (s.pushLoop n len stages).retire.me = Seq.retire { s.me with
      r := setStage s.me.r (s.newLevel n len stages) stages
      c := { s.me.c with loops := s.newLevel n len stages :: s.me.c.loops, pushed := true } } s.cur.bn s.cur.slot 1 := by
  rw [State.me_retire, State.pushLoop, if_neg hn, State.me_setCtl, State.me_setRegs, State.newLevel, ofNat_len_add]
  rfl

theorem State.sameOthers_pushLoop_retire (s : State) {n : Word} (hn : n ≠ 0#64) (len : BitVec 9) (stages : Nat) :
    s.sameOthers (s.pushLoop n len stages).retire s.cur.seq := by
  rw [State.pushLoop, if_neg hn]
  exact (s.sameOthers_setMe _).trans (State.sameOthers_setMe_retire (s.setRegs _) _)

theorem State.sameModule_pushLoop_retire (s : State) {n : Word} (hn : n ≠ 0#64) (len : BitVec 9) (stages : Nat) :
    s.sameModule (s.pushLoop n len stages).retire := by
  rw [State.pushLoop, if_neg hn]
  exact State.sameModule_trans (s.sameModule_setMe _) (State.sameModule_setMe_retire (s.setRegs _) _)

theorem exec_loop_on {s : State} {g : BitVec 4} (hg : s.guardA g = true) (a : BitVec 6) (len : BitVec 9) :
    exec (.loop g a len) s = .next (s.pushLoop (s.rs a) len 0).retire := by
  rw [exec_loop]
  exact slotDo_on hg

/-- loop.sp whose other slots have issued, and no answer to a predicate on its way. -/
theorem exec_loopSp_on {s : State} {g : BitVec 4} (hg : s.guardA g = true) (alone : s.me.isOldest s.cur.bn s.cur.slot true = true)
    (quiet : s.askEvents s.cur.seq = []) (a : BitVec 6) (len : BitVec 9) (aux : BitVec 4) :
    exec (.loopSp g a len aux) s = .next (s.pushLoop (s.rs a) len (aux.toNat + 1)).retire := by
  rw [exec_loopSp, execLoopSp, slotOp_on hg, State.alone, if_pos alone]
  simp only [quiet]
  rfl

/-- At its push a level has work for stage 0 alone. -/
theorem stageOn_first {n : Word} (hn : n ≠ 0#64) (j : Nat) : stageOn j n 0#64 = decide (j = 0) := by
  have pos : 0 < n.toNat := Nat.pos_of_ne_zero fun h => hn (BitVec.eq_of_toNat_eq h)
  cases j with
  | zero => simp [stageOn, pos]
  | succ j => simp [stageOn]

/-! ### lbrk -/

theorem popLoops_loops (k : Nat) (r : Regs) (ls : List Loop) : (popLoops k r ls).2 = ls.drop k := by
  induction k generalizing r ls with
  | zero => rfl
  | succ k ih =>
    cases ls with
    | nil => rfl
    | cons l ls => exact ih _ ls

theorem getS_popLoops (k : Nat) (r : Regs) (ls : List Loop) (n : BitVec 6) : (popLoops k r ls).1.getS n = r.getS n := by
  induction k generalizing r ls with
  | zero => rfl
  | succ k ih =>
    cases ls with
    | nil => rfl
    | cons l ls => rw [popLoops, ih, getS_restoreStage]

/-- The state after a pop of k levels and a transfer. -/
def State.breakLoops (s : State) (k : Nat) (target : Word) : State :=
  let s1 := s.setRegs (popLoops k s.me.r s.me.c.loops).1
  (s1.setCtl { s1.me.c with loops := (popLoops k s.me.r s.me.c.loops).2 }).transfer target

/-- lbrk goes on whether or not the levels that it pops restore predicates. -/
theorem exec_lbrk_on {s : State} {g : BitVec 4} (hg : s.guardA g = true) (alone : s.me.isOldest s.cur.bn s.cur.slot true = true)
    (quiet : s.askEvents s.cur.seq = []) (k : BitVec 3) (off : BitVec 16) :
    exec (.lbrk g k off) s = .next (s.breakLoops (k.toNat + 1) (s.cur.addr + bundles off)).retire := by
  rw [exec_lbrk, execLbrk, slotOp_on hg]
  simp only [State.alone, alone, if_true, quiet, List.isEmpty_nil, ite_self]
  rfl

theorem State.me_breakLoops_retire (s : State) (k : Nat) (target : Word) :
    (s.breakLoops k target).retire.me = Seq.retire { s.me with
      r := (popLoops k s.me.r s.me.c.loops).1
      c := { s.me.c with loops := s.me.c.loops.drop k, redirect := some target } } s.cur.bn s.cur.slot 1 := by
  rw [State.me_retire, State.breakLoops, State.me_transfer, State.me_setCtl, State.me_setRegs, popLoops_loops]
  rfl

theorem State.sameOthers_breakLoops_retire (s : State) (k : Nat) (target : Word) :
    s.sameOthers (s.breakLoops k target).retire s.cur.seq :=
  ((s.sameOthers_setMe _).trans (State.sameOthers_setMe (s.setRegs _) _)).trans
    (State.sameOthers_setMe_retire ((s.setRegs _).setCtl _) _)

theorem State.sameModule_breakLoops_retire (s : State) (k : Nat) (target : Word) : s.sameModule (s.breakLoops k target).retire :=
  State.sameModule_trans (State.sameModule_trans (s.sameModule_setMe _) (State.sameModule_setMe (s.setRegs _) _))
    (State.sameModule_setMe_retire ((s.setRegs _).setCtl _) _)

/-! ### The back edge -/

/-- The level with one more iteration counted. -/
def Loop.counted (l : Loop) : Loop := { l with t := l.t + 1#64 }

theorem Loop.counted_toNat {l : Loop} (h : l.t.toNat + 1 < 2 ^ 64) : l.counted.t.toNat = l.t.toNat + 1 := by
  rw [Loop.counted, BitVec.toNat_add]
  exact Nat.mod_eq_of_lt h

theorem Loop.counted_n (l : Loop) : l.counted.n = l.n := rfl

theorem stageOn_iff (j : Nat) (n t : Word) : stageOn j n t = true ↔ j ≤ t.toNat ∧ t.toNat - j < n.toNat := by
  simp [stageOn]

theorem backEdge_goes_on {b : Word} {l : Loop} (hb : l.last = b) (h : l.counted.t.toNat < l.iters) (r : Regs) (ls : List Loop) :
    backEdge b r (l :: ls) = (setStage r l.counted l.stages, l.counted :: ls, some l.start) := by
  have no_stage : (if l.stages = 0 then r else setStage r l.counted l.stages) = setStage r l.counted l.stages := by
    split
    next h0 => rw [h0]; rfl
    next => rfl
  have go : (l.t + 1#64).toNat < l.iters := h
  rw [backEdge, if_pos hb]
  simp only [go, if_true]
  rw [← no_stage]
  rfl

theorem backEdge_pops {b : Word} {l : Loop} (hb : l.last = b) (h : ¬ l.counted.t.toNat < l.iters) (r : Regs) (ls : List Loop) :
    backEdge b r (l :: ls) = backEdge b (restoreStage r 0 l.saved) ls := by
  rw [backEdge, if_pos hb]
  exact if_neg h

theorem backEdge_elsewhere {b : Word} {ls : List Loop} (h : ∀ m ms, ls = m :: ms → m.last ≠ b) (r : Regs) :
    backEdge b r ls = (r, ls, none) := by
  cases ls with
  | nil => rfl
  | cons m ms => rw [backEdge, if_neg (h m ms rfl)]

/-- Without a transfer or a push the levels that end at the last bundle count. -/
theorem Seq.turnOver_backEdge {x : Seq} {bn : Nat} {r : Regs} {ls : List Loop} {t : Option Word} (ht : x.c.turn = some bn)
    (hr : x.c.redirect = none) (hp : x.c.pushed = false) (hb : backEdge (x.c.pc - 16#64) x.r x.c.loops = (r, ls, t)) :
    x.turnOver.c.pc = t.getD x.c.pc ∧ x.turnOver.c.loops = ls ∧ x.turnOver.r = r := by
  simp only [Seq.turnOver, ht, hr, hp, hb, Bool.false_eq_true, if_false, and_self]

/-- A level that goes on. -/
theorem Seq.turnOver_goes_on {x : Seq} {bn : Nat} {l : Loop} {ls : List Loop} (ht : x.c.turn = some bn) (hr : x.c.redirect = none)
    (hp : x.c.pushed = false) (hl : x.c.loops = l :: ls) (hb : l.last = x.c.pc - 16#64) (h : l.counted.t.toNat < l.iters) :
    x.turnOver.c.pc = l.start ∧ x.turnOver.c.loops = l.counted :: ls ∧ x.turnOver.r = setStage x.r l.counted l.stages := by
  have edge := backEdge_goes_on hb h x.r ls
  rw [← hl] at edge
  exact Seq.turnOver_backEdge ht hr hp edge

/-- A level that is finished, with no other that ends at its last bundle. -/
theorem Seq.turnOver_pops {x : Seq} {bn : Nat} {l : Loop} {ls : List Loop} (ht : x.c.turn = some bn) (hr : x.c.redirect = none)
    (hp : x.c.pushed = false) (hl : x.c.loops = l :: ls) (hb : l.last = x.c.pc - 16#64) (h : ¬ l.counted.t.toNat < l.iters)
    (ho : ∀ m ms, ls = m :: ms → m.last ≠ l.last) :
    x.turnOver.c.pc = x.c.pc ∧ x.turnOver.c.loops = ls ∧ x.turnOver.r = restoreStage x.r 0 l.saved := by
  have edge : backEdge (x.c.pc - 16#64) x.r x.c.loops = (restoreStage x.r 0 l.saved, ls, none) := by
    rw [hl, backEdge_pops hb h, backEdge_elsewhere fun m ms hm => hb ▸ ho m ms hm]
  exact Seq.turnOver_backEdge ht hr hp edge

/-! ### The clauses of the pseudocode -/

theorem loop_pushes_or_skips {s : State} {g : BitVec 4} (hg : s.guardA g = true) (a : BitVec 6) (len : BitVec 9) :
    (s.rs a = 0#64 → ∃ t, exec (.loop g a len) s = .next t ∧
      Stmt.transferred s t (s.cur.addr + 16#64 * BitVec.ofNat 64 (len.toNat + 2)) []) ∧
    (s.rs a ≠ 0#64 → ∃ t, exec (.loop g a len) s = .next t ∧ s.me.r.sameBut t.me.r [] [] [] [] ∧ s.sameModule t ∧
      s.sameOthers t s.cur.seq ∧ t.me.c.pushed = true ∧ t.me.c.loops = s.newLevel (s.rs a) len 0 :: s.me.c.loops) := by
  refine ⟨fun h0 => ⟨_, exec_loop_on hg a len, ?_⟩, fun hn => ⟨_, exec_loop_on hg a len, ?_⟩⟩
  · rw [h0, State.pushLoop_zero]
    exact s.transferred_transfer _
  · rw [State.me_pushLoop_retire s hn]
    exact ⟨Regs.sameBut_refl _ _ _ _ _, s.sameModule_pushLoop_retire hn _ _, s.sameOthers_pushLoop_retire hn _ _, rfl, rfl⟩

/-- The predicates after the push of a level with stages: p8 set, the others of its stages clear, all else as it was. -/
theorem State.rp_pushLoop_retire (s : State) {n : Word} (hn : n ≠ 0#64) (len : BitVec 9) {stages : Nat} (hs : stages ≤ 8)
    (p : BitVec 7) : (s.pushLoop n len stages).retire.rp p =
      if 8 ≤ p.toNat ∧ p.toNat < 8 + stages then allIf (decide (p.toNat = 8)) else s.rp p := by
  have regs : (s.pushLoop n len stages).retire.me.r = setStage s.me.r (s.newLevel n len stages) stages := by
    rw [State.me_pushLoop_retire s hn]; rfl
  rw [State.rp, regs, getP_setStage _ _ hs]
  split
  next hp =>
    have first : stageOn (p.toNat - 8) n 0#64 = decide (p.toNat = 8) := by
      rw [stageOn_first hn, decide_eq_decide]
      omega
    exact congrArg allIf first
  next => rfl

theorem State.rs_pushLoop_retire (s : State) {n : Word} (hn : n ≠ 0#64) (len : BitVec 9) (stages : Nat) (r : BitVec 6) :
    (s.pushLoop n len stages).retire.rs r = s.rs r := by
  rw [State.rs, State.me_pushLoop_retire s hn]
  exact getS_setStage _ _ _ r

theorem State.rs_breakLoops_retire (s : State) (k : Nat) (target : Word) (n : BitVec 6) :
    (s.breakLoops k target).retire.rs n = s.rs n := by
  rw [State.rs, State.me_breakLoops_retire]
  exact getS_popLoops _ _ _ n

/-- The pop of one level restores its predicates. -/
theorem State.rp_breakLoops_one {s : State} {l : Loop} {ls : List Loop} (hl : s.me.c.loops = l :: ls) (h : l.saved.length ≤ 8)
    (target : Word) {j : Nat} (hj : j < l.saved.length) :
    (s.breakLoops 1 target).retire.rp (BitVec.ofNat 7 (8 + j)) = l.saved[j] := by
  have popped : (popLoops 1 s.me.r s.me.c.loops).1 = restoreStage s.me.r 0 l.saved := by rw [hl]; rfl
  rw [State.rp, State.me_breakLoops_retire, Seq.retire_r]
  dsimp only
  rw [popped]
  exact getP_restoreStage_zero _ (by omega) hj

/-- Settles O9: a push, a pop and a back edge, each by its levels and by its stage predicates. -/
theorem loopsPushPopAndCount : Obligations.LoopsPushPopAndCount := by
  refine ⟨fun s g a len hg => loop_pushes_or_skips hg a len, ?_, ?_, ?_⟩
  · intro s g a len aux hg haux alone quiet
    have issue := exec_loopSp_on hg alone quiet a len aux
    refine ⟨fun h0 => ⟨_, issue, ?_⟩, fun hn => ⟨_, issue, ?_⟩⟩
    · rw [h0, State.pushLoop_zero]
      exact s.transferred_transfer _
    · have predicate := s.rp_pushLoop_retire hn len (stages := aux.toNat + 1) (by omega)
      refine ⟨s.sameModule_pushLoop_retire hn _ _, s.sameOthers_pushLoop_retire hn _ _,
        ⟨s.newLevel (s.rs a) len (aux.toNat + 1), _, by rw [State.me_pushLoop_retire s hn]; rfl, rfl, rfl, rfl, rfl, rfl, rfl,
          savedStages_eq_map _ _⟩, ?_, fun j h1 hj => ?_, fun p hp => ?_, s.rs_pushLoop_retire hn _ _⟩
      · rw [predicate, if_pos ⟨by decide, by simp⟩]
        rfl
      · have number := stage_toNat (j := j) (by omega)
        rw [predicate, number, if_pos ⟨by omega, by omega⟩, decide_eq_false (by omega)]
        rfl
      · rw [predicate, if_neg (by omega)]
  · intro s g k off hg alone quiet
    refine ⟨_, exec_lbrk_on hg alone quiet k off, by rw [State.me_breakLoops_retire]; rfl, by rw [State.me_breakLoops_retire]; rfl,
      s.sameModule_breakLoops_retire _ _, s.sameOthers_breakLoops_retire _ _, s.rs_breakLoops_retire _ _, ?_⟩
    rintro rfl l ls hl hs j hj
    exact State.rp_breakLoops_one hl hs _ hj
  · intro x bn l ls ht hr hp hl hb hw hst hsv
    have counted := Loop.counted_toNat hw
    refine ⟨fun more => ?_, fun done others => ?_⟩
    · obtain ⟨pc, loops, regs⟩ := Seq.turnOver_goes_on ht hr hp hl hb (by rw [counted]; exact more)
      refine ⟨pc, loops, fun j hj => ?_⟩
      rw [regs, getP_setStage _ _ hst, stage_toNat (by omega), if_pos ⟨by omega, by omega⟩, Nat.add_sub_cancel_left]
      simp only [allIf, stageOn_iff, counted, Loop.counted_n]
    · obtain ⟨pc, loops, regs⟩ := Seq.turnOver_pops ht hr hp hl hb (by rw [counted]; exact done) others
      refine ⟨pc, loops, fun j hj => ?_⟩
      rw [regs]
      exact getP_restoreStage_zero _ (by omega) hj

end Sys2Proof.Machine
end

section
/-! PROOFS. Speculative regions (O10; spec/03 R81, R82). -/

namespace Sys2Proof.Machine

theorem exec_specBegin_open {s : State} {g : BitVec 4} (hg : s.guardA g = true) (hf : s.me.c.region.fin = none)
    (ho : s.me.c.region.isOpen = true) : exec (.specBegin g) s = .next s.retire := by
  rw [exec_specBegin, execSpecBegin, slotOp_on hg]
  simp only [hf, ho, Option.isSome_none, Bool.false_eq_true, if_false, if_true]
  rfl

theorem exec_specBegin_closed {s : State} {g : BitVec 4} (hg : s.guardA g = true) (hf : s.me.c.region.fin = none)
    (ho : s.me.c.region.isOpen = false) :
    exec (.specBegin g) s = .next (s.setCtl { s.me.c with region := { isOpen := true, since := s.cur.bn } }).retire := by
  rw [exec_specBegin, execSpecBegin, slotOp_on hg]
  simp only [hf, ho, Option.isSome_none, Bool.false_eq_true, if_false]
  rfl

/-- A commit or abort is recorded when a region is open and no other end is; else the slot only issues. -/
theorem endRegion_on {s : State} {g : BitVec 4} (hg : s.guardA g = true) (commit : Bool) :
    endRegion commit g s = .next (if s.me.c.region.isOpen && s.me.c.region.fin.isNone then
      s.setCtl { s.me.c with region := { s.me.c.region with fin := some (s.cur.bn, commit) } } else s).retire := slotDo_on hg

/-- What an instruction does that changes the region of its sequencer and no more. -/
structure State.regionSet (s t : State) (x : Region) : Prop where
  regs : t.me.r = s.me.r
  module : s.sameModule t
  others : s.sameOthers t s.cur.seq
  region : t.me.c.region = x

theorem State.regionSet_retire (s : State) : s.regionSet s.retire s.me.c.region :=
  ⟨by rw [State.me_retire]; rfl, s.sameModule_retire, s.sameOthers_retire, by rw [State.me_retire]; rfl⟩

theorem State.regionSet_setCtl (s : State) (x : Region) : s.regionSet (s.setCtl { s.me.c with region := x }).retire x :=
  ⟨by rw [State.me_setCtl_retire]; rfl, s.sameModule_setMe_retire _, s.sameOthers_setMe_retire _,
    by rw [State.me_setCtl_retire]; rfl⟩

theorem specBegin_region {s : State} {g : BitVec 4} (hg : s.guardA g = true) (hf : s.me.c.region.fin = none) :
    ∃ t, exec (.specBegin g) s = .next t ∧ s.regionSet t
      (if s.me.c.region.isOpen then s.me.c.region else { isOpen := true, since := s.cur.bn, fin := none }) := by
  cases ho : s.me.c.region.isOpen
  case true => exact ⟨_, exec_specBegin_open hg hf ho, s.regionSet_retire⟩
  case false => exact ⟨_, exec_specBegin_closed hg hf ho, s.regionSet_setCtl _⟩

theorem endRegion_region {s : State} {g : BitVec 4} (hg : s.guardA g = true) (commit : Bool) :
    ∃ t, endRegion commit g s = .next t ∧ s.regionSet t (if s.me.c.region.isOpen && s.me.c.region.fin.isNone then
      { s.me.c.region with fin := some (s.cur.bn, commit) } else s.me.c.region) := by
  refine ⟨_, endRegion_on hg commit, ?_⟩
  cases s.me.c.region.isOpen && s.me.c.region.fin.isNone
  case true => exact s.regionSet_setCtl _
  case false => exact s.regionSet_retire

/-! ### The end of a region -/

theorem mem_toggle (live ls : List Nat) (l : Nat) : l ∈ toggle live ls ↔ (l ∈ live ∧ l ∉ ls) ∨ (l ∈ ls ∧ l ∉ live) := by
  simp [toggle]

/-- A core after the region of some of its lines has ended: their marks are cleared, and a commit flips their live banks. -/
def CoreSt.endRegion (c : CoreSt) (ls : List Nat) (commit : Bool) : CoreSt :=
  { c with live := if commit then toggle c.live ls else c.live, region := c.region.filter fun l => !ls.contains l }

theorem CoreSt.mem_region_endRegion (c : CoreSt) (ls : List Nat) (commit : Bool) (l : Nat) :
    l ∈ (c.endRegion ls commit).region ↔ l ∈ c.region ∧ l ∉ ls := by
  simp [CoreSt.endRegion]

theorem CoreSt.mem_live_endRegion_in (c : CoreSt) {ls : List Nat} (commit : Bool) {l : Nat} (h : l ∈ ls) :
    l ∈ (c.endRegion ls commit).live ↔ if commit then l ∉ c.live else l ∈ c.live := by
  cases commit <;> simp [CoreSt.endRegion, mem_toggle, h]

theorem CoreSt.mem_live_endRegion_out (c : CoreSt) {ls : List Nat} (commit : Bool) {l : Nat} (h : l ∉ ls) :
    l ∈ (c.endRegion ls commit).live ↔ l ∈ c.live := by
  cases commit <;> simp [CoreSt.endRegion, mem_toggle, h]

theorem exec_specRegionEnd_due {s : State} {q e : Nat} {commit : Bool} (hf : (s.seq q).c.region.fin = some (e, commit))
    (hi : (s.seq q).issuedTo e = true) (hc : (s.seq q).coveredLeft e = false) :
    exec (.specRegionEnd q) s = .next ((s.setCore (coreOf q) ((s.core (coreOf q)).endRegion (s.regionLines q) commit)).setSeq q
      { s.seq q with c := { (s.seq q).c with region := {} } }) := by
  simp only [exec_specRegionEnd, execSpecRegionEnd, hf, hi, hc, Bool.not_false, Bool.and_self, if_true]
  rfl

/-- Settles O10: begin, commit and abort set the region of their sequencer, and its end clears the marks and flips
or keeps the banks. -/
theorem regionsOpenCommitAbort : Obligations.RegionsOpenCommitAbort := by
  refine ⟨fun s g hg => ⟨fun hf => ?_, fun i commit hi => ?_⟩, fun s q e commit hf hi hc =>
    ⟨_, exec_specRegionEnd_due hf hi hc, ?_⟩⟩
  · obtain ⟨t, next, regs, module, others, region⟩ := specBegin_region hg hf
    exact ⟨t, next, regs, module, others, region⟩
  · have shape : exec i s = endRegion commit g s := by
      simp only [List.mem_cons, Prod.mk.injEq, List.not_mem_nil, or_false] at hi
      obtain ⟨rfl, rfl⟩ | ⟨rfl, rfl⟩ := hi <;> rfl
    obtain ⟨t, next, regs, module, others, region⟩ := endRegion_region hg commit
    exact ⟨t, shape.trans next, regs, module, others, region⟩
  · rw [State.seq_setSeq_same, State.core_setSeq, State.core_setCore_same]
    refine ⟨rfl, rfl, rfl, fun l hl => ⟨?_, CoreSt.mem_live_endRegion_in _ _ hl⟩,
      fun l hl => ⟨?_, CoreSt.mem_live_endRegion_out _ _ hl⟩⟩
    · rw [CoreSt.mem_region_endRegion]
      exact fun h => h.2 hl
    · rw [CoreSt.mem_region_endRegion]
      exact and_iff_left hl

end Sys2Proof.Machine
end

section
/-! PROOFS. The views of a vector register (spec/05 R107): its elements, packed elements, and masks of lanes and bytes. -/

namespace Sys2Proof.Machine

/-! ### Elements of a number -/

theorem elemsN_eq_map (w x n : Nat) : elemsN w x n = (List.range n).map fun e => x / 2 ^ (w * e) % 2 ^ w := by
  induction n generalizing x with
  | zero => rfl
  | succ n ih =>
    rw [List.range_succ_eq_map, List.map_cons, List.map_map, elemsN, ih]
    refine congrArg₂ _ (by simp) (List.map_congr_left fun e _ => ?_)
    simp only [Function.comp_apply, Nat.div_div_eq_div_mul, ← Nat.pow_add, Nat.mul_succ, Nat.add_comm]

theorem elems_eq_map (w : Nat) (x : BitVec 1024) : elems w x = (List.range (1024 / w)).map (Stmt.elemV w x) :=
  elemsN_eq_map w x.toNat _

theorem elemV_lt (w : Nat) (x : BitVec 1024) (e : Nat) : Stmt.elemV w x e < 2 ^ w := Nat.mod_lt _ (Nat.two_pow_pos w)

theorem zip_elems (w : Nat) (x y : BitVec 1024) :
    (elems w x).zip (elems w y) = (List.range (1024 / w)).map fun e => (Stmt.elemV w x e, Stmt.elemV w y e) := by
  rw [elems_eq_map, elems_eq_map, List.zip_map']

/-- A bit of a number lies in one of its parts of w bits. -/
theorem testBit_part {w : Nat} (hw : 0 < w) (x b : Nat) :
    x.testBit b = (x / 2 ^ (w * (b / w)) % 2 ^ w).testBit (b % w) := by
  rw [Nat.testBit_mod_two_pow, decide_eq_true (Nat.mod_lt b hw), Bool.true_and, Nat.testBit_div_two_pow, Nat.mod_add_div]

/-! ### Packed elements -/

theorem packN_lt (w : Nat) (l : List Nat) : packN w l < 2 ^ (w * l.length) := by
  induction l with
  | nil => exact Nat.zero_lt_one
  | cons a t ih =>
    have ha : a % 2 ^ w < 2 ^ w := Nat.mod_lt _ (Nat.two_pow_pos w)
    calc packN w (a :: t) < 2 ^ w + 2 ^ w * packN w t := Nat.add_lt_add_right ha _
      _ = 2 ^ w * (packN w t + 1) := by ring
      _ ≤ 2 ^ w * 2 ^ (w * t.length) := Nat.mul_le_mul_left _ ih
      _ = 2 ^ (w * (a :: t).length) := by rw [List.length_cons, Nat.mul_succ, Nat.pow_add, Nat.mul_comm]

theorem packN_part (w : Nat) (l : List Nat) (e : Nat) : packN w l / 2 ^ (w * e) % 2 ^ w = l.getD e 0 % 2 ^ w := by
  induction l generalizing e with
  | nil => simp [packN]
  | cons a t ih =>
    have hp := Nat.two_pow_pos w
    cases e with
    | zero => simp [packN]
    | succ e =>
      rw [packN, Nat.mul_succ, Nat.add_comm (w * e) w, Nat.pow_add, ← Nat.div_div_eq_div_mul, Nat.add_mul_div_left _ _ hp,
        Nat.div_eq_of_lt (Nat.mod_lt a hp), Nat.zero_add, ih, List.getD_cons_succ]

theorem getD_map_range (f : Nat → Nat) {n e : Nat} (he : e < n) (d : Nat) : ((List.range n).map f).getD e d = f e := by
  simp [List.getD, he]

theorem elemV_ofNat_packN {w : Nat} {l : List Nat} (hl : w * l.length ≤ 1024) (e : Nat) :
    Stmt.elemV w (BitVec.ofNat 1024 (packN w l)) e = l.getD e 0 % 2 ^ w := by
  rw [Stmt.elemV, BitVec.toNat_ofNat, Nat.mod_eq_of_lt ((packN_lt w l).trans_le (Nat.pow_le_pow_right Nat.zero_lt_two hl)),
    packN_part]

/-- An element of a register that was put together. -/
theorem elemV_pack (w : Nat) (f : Nat → Nat) {e : Nat} (he : e < 1024 / w) :
    Stmt.elemV w (pack w ((List.range (1024 / w)).map f)) e = f e % 2 ^ w := by
  rw [pack, elemV_ofNat_packN, getD_map_range f he]
  rw [List.length_map, List.length_range]
  exact Nat.mul_div_le 1024 w

/-! ### Masks -/

theorem testBit_packN_mask {w : Nat} (hw : 0 < w) (n : Nat) (on : Nat → Bool) (b : Nat) :
    (packN w ((List.range n).map fun i => if on i then 2 ^ w - 1 else 0)).testBit b = (decide (b < w * n) && on (b / w)) := by
  rw [testBit_part hw, packN_part, Nat.testBit_mod_two_pow, decide_eq_true (Nat.mod_lt b hw), Bool.true_and]
  by_cases hb : b < w * n
  · rw [getD_map_range _ (Nat.div_lt_of_lt_mul hb), decide_eq_true hb, Bool.true_and]
    cases on (b / w)
    · simp
    · simp [Nat.testBit_two_pow_sub_one, Nat.mod_lt b hw]
  · have : ¬ b / w < n := fun h => hb (by rw [Nat.mul_comm]; exact (Nat.div_lt_iff_lt_mul hw).mp h)
    simp [List.getD, this, hb]

theorem spreadBits_eq_packN (w m n : Nat) :
    spreadBits w m n = packN w ((List.range n).map fun i => if m.testBit i then 2 ^ w - 1 else 0) := by
  induction n generalizing m with
  | zero => rfl
  | succ n ih =>
    have hp := Nat.two_pow_pos w
    rw [List.range_succ_eq_map, List.map_cons, List.map_map, spreadBits, ih, packN]
    congr 1
    · rw [Nat.testBit_zero]
      by_cases hm : m % 2 = 1
      · simp only [hm, if_true, decide_true]; exact (Nat.mod_eq_of_lt (by omega)).symm
      · simp [hm]
    · simp only [Function.comp_def, Nat.testBit_succ]

theorem testBit_spreadBits {w : Nat} (hw : 0 < w) (m n b : Nat) :
    (spreadBits w m n).testBit b = (decide (b < w * n) && m.testBit (b / w)) := by
  rw [spreadBits_eq_packN, testBit_packN_mask hw n m.testBit]

theorem getLsbD_spreadBits {w N n b : Nat} (hw : 0 < w) (m : Nat) (hb : b < N) (hN : N ≤ w * n) :
    (BitVec.ofNat N (spreadBits w m n)).getLsbD b = m.testBit (b / w) := by
  rw [BitVec.getLsbD_ofNat, testBit_spreadBits hw, decide_eq_true hb, decide_eq_true (hb.trans_le hN)]
  rfl

theorem getLsbD_laneMask (p : BitVec 32) {n : Nat} (hn : n < 1024) : (laneMask p).getLsbD n = p.getLsbD (n / 32) :=
  getLsbD_spreadBits (by decide) _ hn (by decide)

theorem getLsbD_laneBytes (p : BitVec 32) {b : Nat} (hb : b < 128) : (laneBytes p).getLsbD b = p.getLsbD (b / 4) :=
  getLsbD_spreadBits (by decide) _ hb (by decide)

theorem getLsbD_bytesMask (m : BitVec 128) {n : Nat} (hn : n < 1024) : (bytesMask m).getLsbD n = m.getLsbD (n / 8) :=
  getLsbD_spreadBits (by decide) _ hn (by decide)

/-- What a write under a lane mask leaves of each bit. -/
theorem getLsbD_laneMerge (v x : BitVec 1024) (p : BitVec 32) {n : Nat} (hn : n < 1024) :
    ((v &&& laneMask p) ||| (x &&& ~~~ laneMask p)).getLsbD n = if p.getLsbD (n / 32) then v.getLsbD n else x.getLsbD n := by
  simp only [BitVec.getLsbD_or, BitVec.getLsbD_and, BitVec.getLsbD_not, getLsbD_laneMask p hn, hn, decide_true, Bool.true_and]
  cases p.getLsbD (n / 32) <;> simp

/-- A lane that is on covers its elements. -/
theorem laneOn_iff (p : BitVec 32) (w e : Nat) : laneOn p w e = true ↔ Stmt.laneOf p w e := Iff.rfl

end Sys2Proof.Machine
end

section
/-! PROOFS. The frame of a vector instruction (spec/05 R107, R130): its streams are ready, take their steps, and its result is written. -/

namespace Sys2Proof.Machine

/-! ### Registers -/

theorem Regs.getQ_setQ (r : Regs) (n m : BitVec 3) (x : Stream) : (r.setQ n x).getQ m = if m = n then x else r.getQ m := by
  rw [Regs.getQ, Regs.setQ, Tab.getD_put]
  simp only [BitVec.toNat_inj]
  rfl

theorem Regs.sameBut_setQ (r : Regs) (n : BitVec 3) (x : Stream) : r.sameBut (r.setQ n x) [] [] [] [n] :=
  ⟨fun _ _ => rfl, fun _ _ => rfl, fun _ _ => rfl, fun m h => by rw [Regs.getQ_setQ, if_neg (by simpa using h)],
    fun _ => rfl, fun _ => rfl, fun _ => rfl, fun _ => rfl⟩

theorem Regs.sameBut.mono {r u : Regs} {ss ss' : List (BitVec 6)} {ps ps' : List (BitVec 7)} {vs vs' : List (BitVec 5)}
    {qs qs' : List (BitVec 3)} (h : r.sameBut u ss ps vs qs) (hs : ss ⊆ ss') (hp : ps ⊆ ps') (hv : vs ⊆ vs') (hq : qs ⊆ qs') :
    r.sameBut u ss' ps' vs' qs' :=
  ⟨fun n k => h.scalar n fun m => k (hs m), fun n k => h.predicate n fun m => k (hp m), fun n k => h.vector n fun m => k (hv m),
    fun n k => h.stream n fun m => k (hq m), h.shapeC, h.shadowC, h.shapeK, h.shadowK⟩

theorem Regs.sameBut.trans {r u v : Regs} {ss : List (BitVec 6)} {ps : List (BitVec 7)} {vs : List (BitVec 5)}
    {qs : List (BitVec 3)} (h : r.sameBut u ss ps vs qs) (k : u.sameBut v ss ps vs qs) : r.sameBut v ss ps vs qs :=
  ⟨fun n m => (k.scalar n m).trans (h.scalar n m), fun n m => (k.predicate n m).trans (h.predicate n m),
    fun n m => (k.vector n m).trans (h.vector n m), fun n m => (k.stream n m).trans (h.stream n m),
    fun n => (k.shapeC n).trans (h.shapeC n), fun n => (k.shadowC n).trans (h.shadowC n),
    fun n => (k.shapeK n).trans (h.shapeK n), fun n => (k.shadowK n).trans (h.shadowK n)⟩

/-! ### A state whose running sequencer alone has other registers -/

/-- A state that differs in the registers of the running sequencer, and in nothing else that a program sees (its agenda may differ). -/
structure State.withRegs (s t : State) (r : Regs) : Prop where
  me : t.me = { s.me with r := r }
  cur : t.cur = s.cur
  others : s.sameOthers t s.cur.seq
  module : s.sameModule t

theorem State.withRegs_refl (s : State) : s.withRegs s s.me.r := ⟨rfl, rfl, fun _ _ => rfl, s.sameModule_refl⟩

theorem State.withRegs.trans {s t u : State} {r r' : Regs} (h : s.withRegs t r) (k : t.withRegs u r') : s.withRegs u r' := by
  refine ⟨by rw [k.me, h.me], k.cur.trans h.cur, fun p hp => ?_, State.sameModule_trans h.module k.module⟩
  exact (k.others p (by rw [h.cur]; exact hp)).trans (h.others p hp)

theorem State.withRegs_setRegs (s : State) (r : Regs) : s.withRegs (s.setRegs r) r :=
  ⟨State.me_setRegs s r, rfl, s.sameOthers_setMe _, s.sameModule_setMe _⟩

theorem State.withRegs_agenda {s t : State} {r : Regs} (h : s.withRegs t r) (l : List Instr) :
    s.withRegs { t with agenda := l } r :=
  ⟨h.me, h.cur, h.others, State.sameModule_trans h.module
    (State.sameModule_of rfl rfl rfl rfl rfl rfl rfl rfl rfl rfl rfl rfl rfl rfl)⟩

/-- The instruction issues: only the registers named have changed. -/
theorem State.withRegs.onlyRegs {s t : State} {r : Regs} {ss : List (BitVec 6)} {ps : List (BitVec 7)} {vs : List (BitVec 5)}
    {qs : List (BitVec 3)} (h : s.withRegs t r) (k : s.me.r.sameBut r ss ps vs qs) : s.onlyRegs t.retire ss ps vs qs := by
  have me : t.retire.me = Seq.retire { s.me with r := r } s.cur.bn s.cur.slot 1 := by rw [State.me_retire, h.me, h.cur]
  refine ⟨by rw [me]; exact k, by rw [me]; rfl, by rw [me]; rfl, by rw [me]; rfl, fun p hp => ?_, ?_,
    State.sameModule_trans h.module t.sameModule_retire⟩
  · exact (State.seq_retire_other t (by rw [h.cur]; exact hp)).trans (h.others p hp)
  · change t.cur.seq = s.cur.seq
    rw [h.cur]

theorem State.me_raiseFlags (s : State) (fl : BitVec 4) : (s.raiseFlags fl).me = { s.me with c := { s.me.c with
    fmt := if fl = 0#4 then s.me.c.fmt else { s.me.c.fmt with raises := s.me.c.fmt.raises ++ [(s.cur.bn, fl)] } } } := by
  unfold State.raiseFlags
  by_cases h : fl = 0#4
  · rw [if_pos h, if_pos h]
  · rw [if_neg h, if_neg h, State.me_setCtl]

theorem State.cur_raiseFlags (s : State) (fl : BitVec 4) : (s.raiseFlags fl).cur = s.cur := by
  unfold State.raiseFlags
  split <;> rfl

theorem State.sameOthers_raiseFlags (s : State) (fl : BitVec 4) : s.sameOthers (s.raiseFlags fl) s.cur.seq := by
  unfold State.raiseFlags
  split
  · exact fun _ _ => rfl
  · exact s.sameOthers_setMe _

theorem State.sameModule_raiseFlags (s : State) (fl : BitVec 4) : s.sameModule (s.raiseFlags fl) := by
  unfold State.raiseFlags
  split
  · exact s.sameModule_refl
  · exact s.sameModule_setMe _

/-- Flags are raised and the instruction issues. -/
theorem State.withRegs.vecDone {s t : State} {r : Regs} {vs : List (BitVec 5)} {qs : List (BitVec 3)} (h : s.withRegs t r)
    (k : s.me.r.sameBut r [] [] vs qs) (fl : BitVec 4) : Stmt.vecDone s (t.raiseFlags fl).retire vs qs fl := by
  have me : (t.raiseFlags fl).retire.me = Seq.retire { s.me with r := r, c := { s.me.c with
      fmt := if fl = 0#4 then s.me.c.fmt else { s.me.c.fmt with raises := s.me.c.fmt.raises ++ [(s.cur.bn, fl)] } } }
      s.cur.bn s.cur.slot 1 := by
    rw [State.me_retire, State.me_raiseFlags, State.cur_raiseFlags, h.me, h.cur]
  refine ⟨by rw [me]; exact k, by rw [me]; rfl, by rw [me]; rfl, by rw [me]; rfl, fun p hp => ?_,
    State.sameModule_trans h.module (State.sameModule_trans (t.sameModule_raiseFlags fl) (State.sameModule_retire _))⟩
  rw [← h.cur] at hp
  exact (State.seq_retire_other _ (by rw [State.cur_raiseFlags]; exact hp)).trans
    ((t.sameOthers_raiseFlags fl p hp).trans (h.others p (h.cur ▸ hp)))

theorem State.withRegs.me_r {s t : State} {r : Regs} (h : s.withRegs t r) (fl : BitVec 4) :
    (t.raiseFlags fl).retire.me.r = r := by
  rw [State.me_retire, Seq.retire_r, State.me_raiseFlags, h.me]

/-! ### The streams of an instruction -/

theorem mem_streamsIn (n : BitVec 3) (os : List VOp) : n ∈ streamsIn os ↔ VOp.q n ∈ os := by
  induction os with
  | nil => simp [streamsIn]
  | cons o os ih =>
    cases o with
    | v m => simp [streamsIn, ih]
    | q m => by_cases h : n = m <;> simp [streamsIn, ih, h]

theorem nodup_streamsIn (os : List VOp) : (streamsIn os).Nodup := by
  induction os with
  | nil => exact List.nodup_nil
  | cons o os ih =>
    cases o with
    | v m => exact ih
    | q m => exact List.nodup_cons.2 ⟨by simp, ih.filter _⟩

theorem mem_streamsOf (n : BitVec 3) (os : List VOp) : n ∈ Stmt.streamsOf os ↔ VOp.q n ∈ os := by
  rw [Stmt.streamsOf, List.mem_filterMap]
  constructor
  · rintro ⟨o, ho, hn⟩
    cases o with
    | v m => cases hn
    | q m => cases hn; exact ho
  · exact fun h => ⟨_, h, rfl⟩

/-- The stream after a step of a source. -/
def Stream.step (x : Stream) : Stream := { x with taken := x.taken + 1, queue := x.queue.drop 1 }

/-- The registers after a step of each of some streams. -/
def Regs.takeSteps (r : Regs) (ns : List (BitVec 3)) : Regs := ns.foldl (fun r n => r.setQ n (r.getQ n).step) r

theorem State.withRegs_takeStep (s : State) (n : BitVec 3) :
    s.withRegs (s.takeStep n) (s.me.r.setQ n (s.me.r.getQ n).step) := by
  unfold State.takeStep
  dsimp only
  split
  · exact State.withRegs_agenda (s.withRegs_setRegs _) _
  · exact s.withRegs_setRegs _

theorem State.withRegs_takeSteps (s : State) (ns : List (BitVec 3)) :
    s.withRegs (ns.foldl State.takeStep s) (s.me.r.takeSteps ns) := by
  induction ns generalizing s with
  | nil => exact s.withRegs_refl
  | cons n ns ih =>
    have first := s.withRegs_takeStep n
    have rest := ih (s.takeStep n)
    rw [first.me] at rest
    exact first.trans rest

theorem Regs.sameBut_takeSteps (r : Regs) (ns : List (BitVec 3)) : r.sameBut (r.takeSteps ns) [] [] [] ns := by
  induction ns generalizing r with
  | nil => exact Regs.sameBut_refl _ _ _ _ _
  | cons n ns ih =>
    exact ((r.sameBut_setQ n _).mono (List.Subset.refl _) (List.Subset.refl _) (List.Subset.refl _) (by simp)).trans
      ((ih _).mono (List.Subset.refl _) (List.Subset.refl _) (List.Subset.refl _) (List.subset_cons_self _ _))

theorem Regs.getQ_takeSteps (r : Regs) {ns : List (BitVec 3)} (hd : ns.Nodup) {n : BitVec 3} (hn : n ∈ ns) :
    (r.takeSteps ns).getQ n = (r.getQ n).step := by
  induction ns generalizing r with
  | nil => cases hn
  | cons m ns ih =>
    obtain ⟨hm, hd⟩ := List.nodup_cons.1 hd
    rw [Regs.takeSteps, List.foldl_cons]
    by_cases h : n = m
    · subst h
      exact ((Regs.sameBut_takeSteps _ ns).stream n hm).trans (by rw [Regs.getQ_setQ, if_pos rfl])
    · refine (ih _ hd ((List.mem_cons.1 hn).resolve_left h)).trans ?_
      rw [Regs.getQ_setQ, if_neg h]

/-! ### Streams that are ready -/

theorem State.streamOk_src {s : State} {n : BitVec 3} (h : Stmt.srcReady s (.q n)) (d : Bool) :
    s.streamOk n false d = .ok s () := by
  obtain ⟨bound, dir, left, filled⟩ := h
  have dirW : (s.me.r.getQ n).pat.dirW = false := dir
  have notEmpty : (s.me.r.getQ n).queue.isEmpty = false := by simpa using filled
  simp [State.streamOk, bound, Nat.not_le.2 left, dirW, notEmpty]

theorem State.streamOk_dst {s : State} {n : BitVec 3} (h : Stmt.dstReady s (.q n)) (d : Bool) :
    s.streamOk n true d = .ok s () := by
  obtain ⟨bound, dir, left, noFault, room⟩ := h
  have dirW : (s.me.r.getQ n).pat.dirW = true := dir
  simp [State.streamOk, bound, Nat.not_le.2 left, dirW, noFault, Nat.not_le.2 room]

theorem tryList_ok {α : Type} {l : List α} {s : State} {f : State → α → Try Unit} (h : ∀ a ∈ l, f s a = .ok s ()) :
    tryList l s f = .ok s () := by
  induction l with
  | nil => rfl
  | cons a l ih =>
    rw [tryList, h a List.mem_cons_self]
    exact ih fun b hb => h b (List.mem_cons_of_mem _ hb)

/-- One trap among operations that change nothing is the trap of the whole. -/
theorem tryList_trap {α : Type} {l : List α} {s : State} {f : State → α → Try Unit} {t : Trap}
    (h : ∀ a ∈ l, f s a = .ok s () ∨ f s a = .trap s t) {a : α} (ha : a ∈ l) (ht : f s a = .trap s t) :
    tryList l s f = .trap s t := by
  induction l with
  | nil => cases ha
  | cons b l ih =>
    rw [tryList]
    rcases h b List.mem_cons_self with hb | hb
    · rw [hb]
      rcases List.mem_cons.1 ha with rfl | ha
      · rw [hb] at ht; cases ht
      · exact ih (fun c hc => h c (List.mem_cons_of_mem _ hc)) ha
    · rw [hb]; rfl

theorem State.streamsOk_srcs {s : State} {srcs : List VOp} (h : ∀ o ∈ srcs, Stmt.srcReady s o) :
    s.streamsOk none srcs = .ok s () :=
  tryList_ok fun n hn => State.streamOk_src (h _ ((mem_streamsIn n srcs).1 hn)) false

theorem State.streamsOk_ready {s : State} {vd : VOp} {srcs : List VOp} (hd : Stmt.dstReady s vd)
    (h : ∀ o ∈ srcs, Stmt.srcReady s o) : s.streamsOk (some vd) srcs = .ok s () := by
  cases vd with
  | v n => exact State.streamsOk_srcs h
  | q n =>
    rw [State.streamsOk, State.streamOk_dst hd]
    exact State.streamsOk_srcs h

/-- A stream that can be written is none that can be read. -/
theorem dstReady_not_src {s : State} {n : BitVec 3} (h : Stmt.dstReady s (.q n)) : ¬ Stmt.srcReady s (.q n) := by
  intro k
  exact Bool.false_ne_true (k.2.1.symm.trans h.2.1)

/-! ### The result -/

/-- The vector that a write stream is given. -/
def VOut.vec (o : VOut) (cov : Bool) : SVec := { v := o.v, act := laneBytes o.lanes, cov := cov }

/-- The registers after a vector result has been written. -/
def Regs.give (r : Regs) (vd : VOp) (o : VOut) (cov : Bool) : Regs :=
  match vd with
  | .v n => r.setV n ((o.v &&& laneMask o.lanes) ||| (r.getV n &&& ~~~ laneMask o.lanes))
  | .q n => r.setQ n { r.getQ n with taken := (r.getQ n).taken + 1, queue := (r.getQ n).queue ++ [o.vec cov] }

theorem State.withRegs_writeV (s : State) (vd : VOp) (o : VOut) :
    s.withRegs (s.writeV vd o) (s.me.r.give vd o (s.me.covers s.cur.bn)) := by
  cases vd with
  | v n => exact s.withRegs_setRegs _
  | q n => exact s.withRegs_setRegs _

theorem Regs.sameBut_give (r : Regs) (vd : VOp) (o : VOut) (cov : Bool) :
    r.sameBut (r.give vd o cov) [] [] (Stmt.regsOf [vd]) (Stmt.streamsOf [vd]) := by
  cases vd with
  | v n => exact r.sameBut_setV n _
  | q n => exact r.sameBut_setQ n _

/-- A vector instruction whose streams are ready reads its sources, takes their steps, writes its result and raises its flags. -/
theorem vecOp_ready {g : BitVec 7} {s : State} {vd : VOp} {srcs : List VOp} (hg : s.guardOn g = true) (hd : Stmt.dstReady s vd)
    (h : ∀ o ∈ srcs, Stmt.srcReady s o) (f : State → List (BitVec 1024) → VOut) :
    vecOp g vd srcs s f = .next ((((streamsIn srcs).foldl State.takeStep s).writeV vd (f s (srcs.map s.peek))).raiseFlags
      (f s (srcs.map s.peek)).fl.bits).retire := by
  rw [vecOp, slotOp_on hg, State.streamsOk_ready hd h]
  rfl

theorem vecOp_trap {g : BitVec 7} {s : State} {vd : VOp} {srcs : List VOp} {t : Trap} (hg : s.guardOn g = true)
    (h : s.streamsOk (some vd) srcs = .trap s t) (f : State → List (BitVec 1024) → VOut) : vecOp g vd srcs s f = s.raise t := by
  rw [vecOp, slotOp_on hg, h]
  rfl

/-- What a vector instruction whose streams are ready leaves behind. The statement may name fewer sources than the instruction reads: a
register that is read again adds no stream. -/
theorem vecOp_gives {g : BitVec 7} {s : State} {vd : VOp} {l srcs : List VOp} (hg : s.guardOn g = true) (hd : Stmt.dstReady s vd)
    (hl : ∀ o ∈ l, Stmt.srcReady s o) (hq : ∀ n, VOp.q n ∈ l ↔ VOp.q n ∈ srcs) {f : State → List (BitVec 1024) → VOut} {o : VOut}
    (ho : f s (l.map s.peek) = o) {ok : BitVec 1024 → Prop} (hok : ok o.v) :
    ∃ t, vecOp g vd l s f = .next t ∧ Stmt.vecGives s t vd srcs o.fl.bits o.lanes ok := by
  refine ⟨_, vecOp_ready hg hd hl f, ?_⟩
  rw [ho]
  have steps := s.withRegs_takeSteps (streamsIn l)
  have all := steps.trans (State.withRegs_writeV _ vd o)
  rw [steps.me, steps.cur] at all
  have covers : Seq.covers { s.me with r := s.me.r.takeSteps (streamsIn l) } s.cur.bn = s.me.covers s.cur.bn := rfl
  rw [covers] at all
  dsimp only at all
  have stepsFrame := s.me.r.sameBut_takeSteps (streamsIn l)
  have notStepped : ∀ n, vd = .q n → n ∉ streamsIn l := fun n e hn =>
    dstReady_not_src (e ▸ hd) (hl _ ((mem_streamsIn n l).1 hn))
  refine ⟨all.vecDone ?_ _, fun n hn => ?_, fun d e => ⟨o.v, hok, fun n hn => ?_⟩, fun n e =>
    ⟨o.vec (s.me.covers s.cur.bn), hok, rfl, rfl, fun b hb => getLsbD_laneBytes _ hb, ?_⟩⟩
  · refine (stepsFrame.mono (List.Subset.refl _) (List.Subset.refl _) (List.nil_subset _) fun n hn => ?_).trans
      ((Regs.sameBut_give _ vd o _).mono (List.Subset.refl _) (List.Subset.refl _) (List.Subset.refl _) fun n hn => ?_)
    · rw [mem_streamsOf]
      exact List.mem_cons_of_mem _ ((hq n).1 ((mem_streamsIn n l).1 hn))
    · rw [mem_streamsOf] at hn ⊢
      exact List.mem_of_mem_take (i := 1) hn
  · have hn' : n ∈ streamsIn l := (mem_streamsIn n l).2 ((hq n).2 ((mem_streamsOf n srcs).1 hn))
    have other : n ∉ Stmt.streamsOf [vd] := fun h =>
      notStepped n (List.mem_singleton.1 ((mem_streamsOf n [vd]).1 h)).symm hn'
    rw [Stmt.stepped, all.me_r, (Regs.sameBut_give _ vd o _).stream n other, Regs.getQ_takeSteps _ (nodup_streamsIn l) hn']
    rfl
  · subst e
    rw [State.rv, all.me_r, Regs.give, Regs.getV_setV, if_pos rfl, getLsbD_laneMerge _ _ _ hn,
      stepsFrame.vector d List.not_mem_nil]
    rfl
  · subst e
    rw [all.me_r, Regs.give, Regs.getQ_setQ, if_pos rfl, stepsFrame.stream n (notStepped n rfl)]

/-- The same for an instruction whose statement names every source, with its outcome given. -/
theorem vecOp_gives_out {r : Result} {g : BitVec 7} {s : State} {vd : VOp} {srcs : List VOp} {f : State → List (BitVec 1024) → VOut}
    (hr : r = vecOp g vd srcs s f) (hg : s.guardOn g = true) (hd : Stmt.dstReady s vd) (hl : ∀ o ∈ srcs, Stmt.srcReady s o)
    {v : BitVec 1024} {lanes : BitVec 32} {fl : FlagSet} (ho : f s (srcs.map s.peek) = ⟨v, lanes, fl⟩) {ok : BitVec 1024 → Prop}
    (hok : ok v) : ∃ t, r = .next t ∧ Stmt.vecGives s t vd srcs fl.bits lanes ok := by
  rw [hr]
  exact vecOp_gives hg hd hl (fun _ => Iff.rfl) ho hok

/-! ### Flags -/

theorem FlagSet.getLsbD_bits (f : FlagSet) : f.bits.getLsbD 0 = f.invalid ∧ f.bits.getLsbD 1 = f.overflow ∧
    f.bits.getLsbD 2 = f.underflow ∧ f.bits.getLsbD 3 = f.inexact := by
  obtain ⟨a, b, c, d⟩ := f
  revert a b c d
  decide

/-- A flag of a set of flags. -/
structure FlagSet.Reads (π : FlagSet → Bool) : Prop where
  none : π {} = false
  or : ∀ a b, π (a.or b) = (π a || π b)

theorem FlagSet.reads_invalid : FlagSet.Reads FlagSet.invalid := ⟨rfl, fun _ _ => rfl⟩
theorem FlagSet.reads_overflow : FlagSet.Reads FlagSet.overflow := ⟨rfl, fun _ _ => rfl⟩
theorem FlagSet.reads_underflow : FlagSet.Reads FlagSet.underflow := ⟨rfl, fun _ _ => rfl⟩
theorem FlagSet.reads_inexact : FlagSet.Reads FlagSet.inexact := ⟨rfl, fun _ _ => rfl⟩

/-- The flags gathered from the elements that are on. -/
theorem FlagSet.Reads.foldl {π : FlagSet → Bool} (h : FlagSet.Reads π) (on : Nat → Bool) (fls : Nat → FlagSet) (l : List Nat)
    (a : FlagSet) : π (l.foldl (fun a e => if on e then a.or (fls e) else a) a) = true ↔
      π a = true ∨ ∃ e ∈ l, on e = true ∧ π (fls e) = true := by
  induction l generalizing a with
  | nil => simp
  | cons e l ih =>
    rw [List.foldl_cons, ih]
    by_cases he : on e = true
    · simp [he, h.or, or_assoc]
    · simp [he]

/-! ### Elements with their flags -/

theorem gather_range_fl (w : Nat) (p : BitVec 32) (n : Nat) (r : Nat → Flagged Nat) :
    (gather w p ((List.range n).map r)).fl =
      (List.range n).foldl (fun a e => if laneOn p w e then a.or (r e).2 else a) {} := by
  have zip : ((List.range n).map r).zipIdx = (List.range n).map fun e => (r e, e) := by
    apply List.ext_getElem <;> simp
  rw [gather, zip, List.foldl_map]

theorem gather_elem (w : Nat) (p : BitVec 32) (r : Nat → Flagged Nat) {e : Nat} (he : e < 1024 / w) :
    Stmt.elemV w (gather w p ((List.range (1024 / w)).map r)).v e = (r e).1 % 2 ^ w := by
  rw [gather, List.map_map]
  exact elemV_pack w _ he

/-- The flags of an elementwise result are those of its written elements. -/
theorem gather_flagsOf (w : Nat) (p : BitVec 32) (n : Nat) (r : Nat → Flagged Nat) :
    Stmt.flagsOf (gather w p ((List.range n).map r)).fl.bits n (Stmt.laneOf p w) fun e => (r e).2 := by
  have read : ∀ {π : FlagSet → Bool}, FlagSet.Reads π → (π (gather w p ((List.range n).map r)).fl = true ↔
      ∃ e, e < n ∧ Stmt.laneOf p w e ∧ π (r e).2 = true) := fun h => by
    rw [gather_range_fl, h.foldl, h.none]
    simp only [Bool.false_eq_true, false_or, List.mem_range, laneOn_iff]
  obtain ⟨h0, h1, h2, h3⟩ := (gather w p ((List.range n).map r)).fl.getLsbD_bits
  exact ⟨h0 ▸ read FlagSet.reads_invalid, h1 ▸ read FlagSet.reads_overflow, h2 ▸ read FlagSet.reads_underflow,
    h3 ▸ read FlagSet.reads_inexact⟩

theorem gather_noFlags (w : Nat) (p : BitVec 32) (n : Nat) (r : Nat → Flagged Nat) (h : ∀ e < n, (r e).2 = {}) :
    (gather w p ((List.range n).map r)).fl.bits = 0#4 := by
  have keep : ∀ l : List Nat, (∀ e ∈ l, (r e).2 = {}) →
      l.foldl (fun (a : FlagSet) e => if laneOn p w e then a.or (r e).2 else a) {} = {} := by
    intro l hl
    induction l with
    | nil => rfl
    | cons e l ih =>
      rw [List.foldl_cons, hl e List.mem_cons_self]
      have same : (if laneOn p w e then FlagSet.or {} {} else ({} : FlagSet)) = {} := by split <;> rfl
      rw [same]
      exact ih fun d hd => hl d (List.mem_cons_of_mem _ hd)
  rw [gather_range_fl, keep _ fun e he => h e (List.mem_range.1 he)]
  rfl

end Sys2Proof.Machine
end

section
/-! PROOFS. Elementwise vector instructions (O27; spec/05 R107, R112, R114): one element, whole registers, and the operand forms. -/

namespace Sys2Proof.Machine

/-! ### One element -/

theorem VTy.typeOf_eq (ty : VTy) : Stmt.typeOf ty = (VTy.width ty, VTy.flt ty) := by cases ty <;> rfl

theorem VTy.width_pos (ty : VTy) : 0 < VTy.width ty := by cases ty <;> decide

/-- The operations in the order of the statement. -/
def vFunOf : Nat → VFun
  | 0 => vAdd
  | 1 => vSub
  | 2 => vMul
  | 3 => vFma
  | 4 => vMin
  | 5 => vMax
  | 6 => vShl
  | _ => vShr

theorem sInt_eq_toInt {w a : Nat} (hw : 0 < w) (ha : a < 2 ^ w) : sInt w a = (BitVec.ofNat w a).toInt := by
  obtain ⟨v, rfl⟩ : ∃ v, w = v + 1 := ⟨w - 1, by omega⟩
  have hp : 2 ^ (v + 1) = 2 * 2 ^ v := by ring
  rw [sInt, BitVec.toInt_eq_toNat_cond, BitVec.toNat_ofNat, Nat.mod_eq_of_lt ha, Nat.add_sub_cancel]
  push_cast
  split <;> split <;> omega

/-- The integer operations are those of the spec. -/
theorem vFunOf_i (k : Nat) {w a b : Nat} (hw : 0 < w) (ha : a < 2 ^ w) (hb : b < 2 ^ w) (c : Nat) :
    (vFunOf k).i w a b c = Stmt.intOp w k a b c := by
  have sa := sInt_eq_toInt hw ha
  have sb := sInt_eq_toInt hw hb
  match k with
  | 0 | 1 | 2 | 3 | 6 | _ + 7 => rfl
  | 4 =>
    change (if sInt w b < sInt w a then b else a) = if _ ≤ _ then a else b
    rw [sa, sb]
    split <;> split <;> omega
  | 5 =>
    change (if sInt w a < sInt w b then b else a) = if _ ≤ _ then a else b
    rw [sa, sb]
    split <;> split <;> omega

/-- The floating operations are those of the spec. -/
theorem vFunOf_f {k : Nat} (hk : k < 6) (f : Flt) (a b c : Num) : (vFunOf k).f f a b c = Stmt.fltOp f k a b c := by
  match k, hk with
  | 0, _ | 1, _ | 2, _ | 3, _ | 4, _ | 5, _ => rfl

/-- Only vfma reads a third operand. -/
theorem vFunOf_third {k : Nat} (hk : k ≠ 3) (ty : VTy) (a b c d : Nat) :
    (vFunOf k).elem ty a b c = (vFunOf k).elem ty a b d := by
  unfold VFun.elem
  match k with
  | 0 | 1 | 2 | 4 | 5 | 6 | _ + 7 => rfl
  | 3 => exact absurd rfl hk

/-! ### Whole registers -/

theorem VFun.run_eq_gather (op : VFun) (ty : VTy) (p : BitVec 32) (a b d : BitVec 1024) :
    op.run ty p a b d = gather (VTy.width ty) p ((List.range (1024 / VTy.width ty)).map fun e =>
      op.elem ty (Stmt.elemV (VTy.width ty) a e) (Stmt.elemV (VTy.width ty) b e) (Stmt.elemV (VTy.width ty) d e)) := by
  rw [VFun.run, elems_eq_map, elems_eq_map, elems_eq_map, List.zip_map', List.zip_map', List.map_map]
  rfl

theorem VFun.elem_int (op : VFun) {ty : VTy} (h : VTy.flt ty = none) (a b d : Nat) :
    op.elem ty a b d = (op.i (VTy.width ty) a b d % 2 ^ VTy.width ty, {}) := by
  rw [VFun.elem, h]

theorem VFun.elem_flt (op : VFun) {ty : VTy} {f : Flt} (h : VTy.flt ty = some f) (a b d : Nat) :
    op.elem ty a b d = (f.enc (op.f f (f.dec a) (f.dec b) (f.dec d)).1, (op.f f (f.dec a) (f.dec b) (f.dec d)).2) := by
  rw [VFun.elem, h]

/-- A scalar in every element. -/
theorem elemV_broadcast (ty : VTy) (x : Word) {e : Nat} (he : e < 1024 / VTy.width ty) :
    Stmt.elemV (VTy.width ty) (broadcast ty x) e = x.toNat % 2 ^ VTy.width ty := by
  have const : List.replicate (1024 / VTy.width ty) x.toNat = (List.range (1024 / VTy.width ty)).map fun _ => x.toNat := by
    simp
  rw [broadcast, const]
  exact elemV_pack _ _ he

/-! ### The operand forms -/

/-- The sources that an elementwise instruction reads: vfma reads its destination as well. -/
def vSources (k : Nat) (vd va : VOp) (vb : List VOp) : List VOp := va :: vb ++ if k = 3 then [vd] else []

/-- An instruction of a form does the operation of its place on the elements of its operands. -/
structure VForm (s : State) (i : Instr) (g : BitVec 7) (ty : VTy) (vd va : VOp) (vb : List VOp) (b : Nat → Nat → Nat)
    (lp : BitVec 7) (k : Nat) : Prop where
  run : ∃ (f : State → List (BitVec 1024) → VOut) (y d : BitVec 1024), exec i s = vecOp g vd (vSources k vd va vb) s f ∧
    f s ((vSources k vd va vb).map s.peek) = (vFunOf k).run ty (s.rp lp) (s.peek va) y d ∧
    (∀ e, e < 1024 / VTy.width ty → Stmt.elemV (VTy.width ty) y e = b (VTy.width ty) e) ∧ (k = 3 → d = s.peek vd)
  second : ∀ e, b (VTy.width ty) e < 2 ^ VTy.width ty

theorem vSources_other {k : Nat} (hk : k ≠ 3) (vd va : VOp) (vb : List VOp) : vSources k vd va vb = va :: vb := by
  rw [vSources, if_neg hk, List.append_nil]

/-- The forms of R112, their second operand a vector. -/
theorem VForm.of_c3 {s : State} {i : Instr} {g : BitVec 7} {ty : VTy} {vd va vb : VOp} {lp : BitVec 7} {k : Nat} (hk : k ≠ 3)
    (he : exec i s = c3Op (vFunOf k) g ty vd va vb lp s) :
    VForm s i g ty vd va [vb] (fun w e => Stmt.elemV w (s.peek vb) e) lp k := by
  refine ⟨⟨fun s l => (vFunOf k).run ty (s.rp lp) (nth l 0) (nth l 1) 0#1024, s.peek vb, 0#1024, ?_, ?_, fun _ _ => rfl,
    fun h => absurd h hk⟩, fun _ => elemV_lt _ _ _⟩
  · rw [vSources_other hk]; exact he
  · rw [vSources_other hk]; rfl

theorem VForm.of_vfmaC3 {s : State} {i : Instr} {g : BitVec 7} {ty : VTy} {vd va vb : VOp} {lp : BitVec 7}
    (he : exec i s = execVfmaC3 g ty vd va vb lp s) :
    VForm s i g ty vd va [vb] (fun w e => Stmt.elemV w (s.peek vb) e) lp 3 :=
  ⟨⟨_, s.peek vb, s.peek vd, he, rfl, fun _ _ => rfl, fun _ => rfl⟩, fun _ => elemV_lt _ _ _⟩

/-- The forms of R114, their second operand a scalar in every element. -/
theorem VForm.of_cs {s : State} {i : Instr} {g : BitVec 7} {ty : VTy2} {vd va : VOp} {x : BitVec 6} {lp : BitVec 7} {k : Nat}
    (hk : k ≠ 3) (he : exec i s = csOp (vFunOf k) g ty vd va x lp s) :
    VForm s i g (VTy2.ty ty) vd va [] (fun w _ => (s.rs x).toNat % 2 ^ w) lp k := by
  refine ⟨⟨fun s l => (vFunOf k).run (VTy2.ty ty) (s.rp lp) (nth l 0) (broadcast (VTy2.ty ty) (s.rs x)) 0#1024,
    broadcast (VTy2.ty ty) (s.rs x), 0#1024, ?_, ?_, fun _ h => elemV_broadcast _ _ h, fun h => absurd h hk⟩,
    fun _ => Nat.mod_lt _ (Nat.two_pow_pos _)⟩
  · rw [vSources_other hk]; exact he
  · rw [vSources_other hk]; rfl

theorem VForm.of_vfmaCs {s : State} {i : Instr} {g : BitVec 7} {ty : VTy2} {vd va : VOp} {x : BitVec 6} {lp : BitVec 7}
    (he : exec i s = execVfmaCs g ty vd va x lp s) :
    VForm s i g (VTy2.ty ty) vd va [] (fun w _ => (s.rs x).toNat % 2 ^ w) lp 3 :=
  ⟨⟨_, broadcast (VTy2.ty ty) (s.rs x), s.peek vd, he, rfl, fun _ h => elemV_broadcast _ _ h, fun _ => rfl⟩,
    fun _ => Nat.mod_lt _ (Nat.two_pow_pos _)⟩

theorem vectorForm_sound {s : State} {i : Instr} {g : BitVec 7} {ty : VTy} {vd va : VOp} {vb : List VOp} {b : Nat → Nat → Nat}
    {lp : BitVec 7} {k : Nat} (h : Stmt.vectorForm s i = some (g, ty, vd, va, vb, b, lp, k)) :
    VForm s i g ty vd va vb b lp k := by
  cases i
  case vaddC3 => cases h; exact VForm.of_c3 (by decide) (exec_vaddC3 ..)
  case vsubC3 => cases h; exact VForm.of_c3 (by decide) (exec_vsubC3 ..)
  case vmulC3 => cases h; exact VForm.of_c3 (by decide) (exec_vmulC3 ..)
  case vfmaC3 => cases h; exact VForm.of_vfmaC3 (exec_vfmaC3 ..)
  case vminC3 => cases h; exact VForm.of_c3 (by decide) (exec_vminC3 ..)
  case vmaxC3 => cases h; exact VForm.of_c3 (by decide) (exec_vmaxC3 ..)
  case vshlC3 => cases h; exact VForm.of_c3 (by decide) (exec_vshlC3 ..)
  case vshrC3 => cases h; exact VForm.of_c3 (by decide) (exec_vshrC3 ..)
  case vaddCs => cases h; exact VForm.of_cs (by decide) (exec_vaddCs ..)
  case vsubCs => cases h; exact VForm.of_cs (by decide) (exec_vsubCs ..)
  case vmulCs => cases h; exact VForm.of_cs (by decide) (exec_vmulCs ..)
  case vfmaCs => cases h; exact VForm.of_vfmaCs (exec_vfmaCs ..)
  case vminCs => cases h; exact VForm.of_cs (by decide) (exec_vminCs ..)
  case vmaxCs => cases h; exact VForm.of_cs (by decide) (exec_vmaxCs ..)
  case vshlCs => cases h; exact VForm.of_cs (by decide) (exec_vshlCs ..)
  case vshrCs => cases h; exact VForm.of_cs (by decide) (exec_vshrCs ..)
  all_goals cases h

/-! ### The sources of vfma -/

theorem mem_vSources_stream {k : Nat} {vd va : VOp} {vb : List VOp} (h : k = 3 → ∃ n, vd = .v n) (n : BitVec 3) :
    VOp.q n ∈ vSources k vd va vb ↔ VOp.q n ∈ va :: vb := by
  unfold vSources
  split
  · obtain ⟨m, rfl⟩ := h ‹_›
    simp
  · simp

theorem vSources_ready {s : State} {k : Nat} {vd va : VOp} {vb : List VOp} (h : k = 3 → ∃ n, vd = .v n)
    (hr : ∀ o ∈ va :: vb, Stmt.srcReady s o) : ∀ o ∈ vSources k vd va vb, Stmt.srcReady s o := by
  intro o ho
  cases o with
  | v n => trivial
  | q n => exact hr _ ((mem_vSources_stream h n).1 ho)

/-- The old value of a destination, as vfma reads it. -/
def oldDst (s : State) (vd : VOp) : BitVec 1024 :=
  match vd with
  | .v n => s.rv n
  | .q _ => 0#1024

/-- What an elementwise instruction leaves, in terms of its elements; `r` is the operation on the elements of its operands. -/
theorem VForm.gives {s : State} {i : Instr} {g : BitVec 7} {ty : VTy} {vd va : VOp} {vb : List VOp} {b : Nat → Nat → Nat}
    {lp : BitVec 7} {k : Nat} (h : VForm s i g ty vd va vb b lp k) (hg : s.guardOn g = true)
    (hr : ∀ o ∈ va :: vb, Stmt.srcReady s o) (hd : Stmt.dstReady s vd) (hk : k = 3 → ∃ n, vd = .v n) :
    let r := fun e => (vFunOf k).elem ty (Stmt.elemV (VTy.width ty) (s.peek va) e) (b (VTy.width ty) e)
      (Stmt.elemV (VTy.width ty) (oldDst s vd) e)
    let o := gather (VTy.width ty) (s.rp lp) ((List.range (1024 / VTy.width ty)).map r)
    ∃ t, exec i s = .next t ∧ Stmt.vecGives s t vd (va :: vb) o.fl.bits (s.rp lp) fun v =>
      ∀ e, e < 1024 / VTy.width ty → Stmt.elemV (VTy.width ty) v e = (r e).1 % 2 ^ VTy.width ty := by
  intro r o
  obtain ⟨f, y, d, he, hf, hy, h3⟩ := h.run
  have same : (vFunOf k).run ty (s.rp lp) (s.peek va) y d = o := by
    rw [VFun.run_eq_gather]
    refine congrArg _ (List.map_congr_left fun e hm => ?_)
    rw [hy e (List.mem_range.1 hm)]
    by_cases hk3 : k = 3
    · obtain ⟨n, rfl⟩ := hk hk3
      rw [h3 hk3]
      rfl
    · exact vFunOf_third hk3 ty _ _ _ _
  rw [he]
  exact vecOp_gives hg hd (vSources_ready hk hr) (mem_vSources_stream hk) (hf.trans same) fun e hm => gather_elem _ _ _ hm

/-! ### A marked destination of vfma (spec/05 R130) -/

/-- The refusal of vfma's marked destination: not bound or exhausted before a wrong direction. -/
def dstRefusal (s : State) (n : BitVec 3) : Trap :=
  let x := s.me.r.getQ n
  streamTrap n false (if x.bound = true ∧ x.taken < x.pat.steps then 3 else 2) x.taken

theorem dstRefusal_w4 (s : State) (n : BitVec 3) : (dstRefusal s n).w4.toNat =
    n.toNat + 16 * (if (s.me.r.getQ n).bound = true ∧ (s.me.r.getQ n).taken < (s.me.r.getQ n).pat.steps then 3 else 2) := by
  have small : n.toNat < 8 := n.isLt
  simp only [dstRefusal, streamTrap, Bool.false_eq_true, if_false, Nat.add_zero, BitVec.toNat_ofNat]
  split <;> omega

/-- A stream that is not bound or has no steps left is refused in either direction. -/
theorem State.streamOk_unbound {s : State} {n : BitVec 3}
    (h : ¬((s.me.r.getQ n).bound = true ∧ (s.me.r.getQ n).taken < (s.me.r.getQ n).pat.steps)) (asDst : Bool) :
    s.streamOk n asDst false = .trap s (dstRefusal s n) := by
  have refused : (!(s.me.r.getQ n).bound || decide ((s.me.r.getQ n).pat.steps ≤ (s.me.r.getQ n).taken)) = true := by
    by_contra hc
    simp only [Bool.or_eq_true, Bool.not_eq_true', decide_eq_true_eq, not_or, Bool.not_eq_false, not_le] at hc
    exact h hc
  rw [State.streamOk, dstRefusal, if_neg h]
  exact if_pos refused

/-- A stream of the other direction is refused with reason 3. -/
theorem State.streamOk_direction {s : State} {n : BitVec 3}
    (h : (s.me.r.getQ n).bound = true ∧ (s.me.r.getQ n).taken < (s.me.r.getQ n).pat.steps) {asDst : Bool}
    (hd : (s.me.r.getQ n).pat.ctl.getLsbD 0 ≠ asDst) : s.streamOk n asDst false = .trap s (dstRefusal s n) := by
  have on : (!(s.me.r.getQ n).bound || decide ((s.me.r.getQ n).pat.steps ≤ (s.me.r.getQ n).taken)) = false := by
    simp [h.1, h.2]
  have dir : ((s.me.r.getQ n).pat.dirW != asDst) = true := by simpa [CShape.dirW] using hd
  simp only [State.streamOk, dstRefusal, if_pos h, on, dir, Bool.false_eq_true, if_false, if_true]

/-- The streams of vfma with a marked destination are refused: as a destination, or else as the source that it is too. -/
theorem State.streamsOk_markedDst {s : State} {n : BitVec 3} {os : List VOp} (hr : ∀ o ∈ os, Stmt.srcReady s o)
    (hw : (s.me.r.getQ n).pat.ctl.getLsbD 0 = true → (s.me.r.getQ n).fault = none ∧ (s.me.r.getQ n).queue.length < 8) :
    s.streamsOk (some (.q n)) (os ++ [.q n]) = .trap s (dstRefusal s n) := by
  rw [State.streamsOk]
  by_cases h : (s.me.r.getQ n).bound = true ∧ (s.me.r.getQ n).taken < (s.me.r.getQ n).pat.steps
  · cases dir : (s.me.r.getQ n).pat.ctl.getLsbD 0 with
    | false => rw [State.streamOk_direction h (asDst := true) (by rw [dir]; decide)]; rfl
    | true =>
      have asSrc : s.streamOk n false false = .trap s (dstRefusal s n) :=
        State.streamOk_direction h (by rw [dir]; decide)
      rw [State.streamOk_dst ⟨h.1, dir, h.2, hw dir⟩]
      refine tryList_trap (fun m hm => ?_) ((mem_streamsIn n _).2 (by simp)) asSrc
      rcases List.mem_append.1 ((mem_streamsIn m _).1 hm) with hm | hm
      · exact .inl (State.streamOk_src (hr _ hm) false)
      · cases List.mem_singleton.1 hm
        exact .inr asSrc
  · rw [State.streamOk_unbound h]; rfl

/-- Settles O27: each form runs its operation on the elements; vfma with a marked destination is refused. -/
theorem vectorElementsAreIndependent : Obligations.VectorElementsAreIndependent := by
  intro i s g ty vd va vb b lp k hform hg hr w a d
  have form := vectorForm_sound hform
  have hw : w = VTy.width ty := congrArg Prod.fst (VTy.typeOf_eq ty)
  have hf : (Stmt.typeOf ty).2 = VTy.flt ty := congrArg Prod.snd (VTy.typeOf_eq ty)
  clear_value w
  subst hw
  refine ⟨fun hd hk => ⟨fun hint => ?_, fun f hflt h6 => ?_⟩, fun n hk hn => ?_⟩
  · obtain ⟨t, ht, gives⟩ := form.gives hg hr hd hk
    simp only [VFun.elem_int _ (hf ▸ hint), Nat.mod_mod, vFunOf_i k (VTy.width_pos ty) (elemV_lt _ _ _) (form.second _)] at gives
    rw [gather_noFlags _ _ _ _ fun _ _ => rfl] at gives
    exact ⟨t, ht, gives⟩
  · obtain ⟨t, ht, gives⟩ := form.gives hg hr hd hk
    simp only [VFun.elem_flt _ (hf ▸ hflt), vFunOf_f h6] at gives
    exact ⟨t, _, ht, gather_flagsOf _ _ _ _, gives⟩
  · subst hk hn
    intro x hw
    obtain ⟨f, y, d, he, -⟩ := form.run
    exact ⟨dstRefusal s n, rfl, dstRefusal_w4 s n, he.trans (vecOp_trap hg (State.streamsOk_markedDst hr hw) f)⟩

end Sys2Proof.Machine
end

section
/-! PROOFS. Lanes as bits (O28; spec/05 R112, R113, R115, R117). -/

namespace Sys2Proof.Machine

theorem pair_ready {s : State} {a b : VOp} (ha : Stmt.srcReady s a) (hb : Stmt.srcReady s b) :
    ∀ o ∈ [a, b], Stmt.srcReady s o := by
  rintro o (_ | ⟨_, _ | ⟨_, ⟨⟩⟩⟩)
  · exact ha
  · exact hb

/-- A bitwise form combines the bits of its sources. -/
theorem bitOp_gives {g : BitVec 7} {s : State} {d a b : VOp} {lp : BitVec 7} (hg : s.guardOn g = true) (hd : Stmt.dstReady s d)
    (ha : Stmt.srcReady s a) (hb : Stmt.srcReady s b) {op : BitVec 1024 → BitVec 1024 → BitVec 1024} {f : Bool → Bool → Bool}
    (hf : ∀ x y n, (op x y).getLsbD n = f (x.getLsbD n) (y.getLsbD n)) :
    ∃ t, bitOp op g d a b lp s = .next t ∧ Stmt.vecGives s t d [a, b] 0#4 (s.rp lp) fun v => ∀ n, n < 1024 →
      v.getLsbD n = f ((s.peek a).getLsbD n) ((s.peek b).getLsbD n) :=
  vecOp_gives_out rfl hg hd (pair_ready ha hb) (v := op (s.peek a) (s.peek b)) (lanes := s.rp lp) (fl := {}) rfl
    fun n _ => hf _ _ n

theorem vsel_gives {g : BitVec 7} {s : State} {d a b : VOp} (lp : BitVec 7) (hg : s.guardOn g = true) (hd : Stmt.dstReady s d)
    (ha : Stmt.srcReady s a) (hb : Stmt.srcReady s b) :
    ∃ t, exec (.vsel g d a b lp) s = .next t ∧ Stmt.vecGives s t d [a, b] 0#4 0xFFFFFFFF#32 fun v => ∀ n, n < 1024 →
      v.getLsbD n = if (s.rp lp).getLsbD (n / 32) then (s.peek a).getLsbD n else (s.peek b).getLsbD n :=
  vecOp_gives_out (exec_vsel ..) hg hd (pair_ready ha hb) (lanes := 0xFFFFFFFF#32) (fl := {})
    (v := (s.peek a &&& laneMask (s.rp lp)) ||| (s.peek b &&& ~~~ laneMask (s.rp lp))) rfl
    fun _ hn => getLsbD_laneMerge _ _ _ hn

theorem vperm_gives {g : BitVec 7} {s : State} {d a b : VOp} (lp : BitVec 7) (hg : s.guardOn g = true) (hd : Stmt.dstReady s d)
    (ha : Stmt.srcReady s a) (hb : Stmt.srcReady s b) :
    ∃ t, exec (.vperm g d a b lp) s = .next t ∧ Stmt.vecGives s t d [a, b] 0#4 (s.rp lp) fun v => ∀ i, i < 32 →
      Stmt.elemV 32 v i = Stmt.elemV 32 (s.peek a) (Stmt.elemV 32 (s.peek b) i % 32) := by
  refine vecOp_gives_out (exec_vperm ..) hg hd (pair_ready ha hb) (lanes := s.rp lp) (fl := {})
    (v := pack 32 ((elems 32 (s.peek b)).map fun i => (elems 32 (s.peek a)).getD (i % 32) 0)) rfl fun i hi => ?_
  rw [elems_eq_map, elems_eq_map, List.map_map, elemV_pack 32 _ hi, Function.comp_apply,
    getD_map_range _ (Nat.mod_lt _ (by decide)), Nat.mod_eq_of_lt (elemV_lt _ _ _)]

theorem vbcast_gives {g : BitVec 7} {s : State} {d : VOp} (lp : BitVec 7) (x : BitVec 6) (ty : VTy2) (hg : s.guardOn g = true)
    (hd : Stmt.dstReady s d) :
    ∃ t, exec (.vbcast g ty d x lp) s = .next t ∧ Stmt.vecGives s t d [] 0#4 (s.rp lp) fun v =>
      ∀ e, e < 1024 / (Stmt.typeOf (VTy2.ty ty)).1 →
        Stmt.elemV (Stmt.typeOf (VTy2.ty ty)).1 v e = (s.rs x).toNat % 2 ^ (Stmt.typeOf (VTy2.ty ty)).1 := by
  rw [VTy.typeOf_eq]
  exact vecOp_gives_out (exec_vbcast ..) hg hd (fun _ h => absurd h List.not_mem_nil) (lanes := s.rp lp) (fl := {})
    (v := broadcast (VTy2.ty ty) (s.rs x)) rfl fun e he => elemV_broadcast _ _ he

/-- Settles O28: bitwise forms bit by bit, vsel by the mask of its predicate, vperm and vbcast element by element. -/
theorem vectorLanesMoveAsBits : Obligations.VectorLanesMoveAsBits := by
  intro s g d a b lp x hg hd
  refine ⟨fun ha hb => ⟨fun i f hi => ?_, vsel_gives lp hg hd ha hb, vperm_gives lp hg hd ha hb⟩,
    fun ty => vbcast_gives lp x ty hg hd⟩
  simp only [List.mem_cons, Prod.mk.injEq, List.not_mem_nil, or_false] at hi
  obtain ⟨rfl, rfl⟩ | ⟨rfl, rfl⟩ | ⟨rfl, rfl⟩ := hi
  · exact bitOp_gives hg hd ha hb fun _ _ _ => BitVec.getLsbD_and
  · exact bitOp_gives hg hd ha hb fun _ _ _ => BitVec.getLsbD_or
  · exact bitOp_gives hg hd ha hb fun _ _ _ => BitVec.getLsbD_xor

end Sys2Proof.Machine
end

section
/-! PROOFS. vcmp (O29, first part; spec/05 R116): the condition of a lane and the pair of predicates. -/

namespace Sys2Proof.Machine

/-! ### The condition of a lane -/

/-- The condition of a vcmp as the spec writes it, on two lanes. -/
def laneHolds (fp : Bool) (cond : Nat) (x y : BitVec 32) : Bool :=
  let nan := Stmt.f32NaN x || Stmt.f32NaN y
  match fp, cond with
  | false, 0 => x == y
  | false, 1 => x != y
  | false, 2 => decide (x.toInt < y.toInt)
  | false, 3 => decide (x.toInt ≤ y.toInt)
  | false, 4 => decide (x.toNat < y.toNat)
  | false, _ => decide (x.toNat ≤ y.toNat)
  | true, 0 => !nan && decide (Stmt.f32Scaled x = Stmt.f32Scaled y)
  | true, 1 => nan || decide (Stmt.f32Scaled x ≠ Stmt.f32Scaled y)
  | true, 2 => !nan && decide (Stmt.f32Scaled x < Stmt.f32Scaled y)
  | true, 3 => !nan && decide (Stmt.f32Scaled x ≤ Stmt.f32Scaled y)
  | true, _ => nan

theorem vcmpHolds_int (cond : Nat) (x y : BitVec 32) : vcmpHolds false cond x y = laneHolds false cond x y := by
  match cond with
  | 0 | 1 => rfl
  | 2 => exact BitVec.slt_eq_decide
  | 3 => exact BitVec.sle_eq_decide
  | 4 => exact BitVec.ult_eq_decide
  | _ + 5 => exact BitVec.ule_eq_decide

/-- A condition on FP32 values, through the integers that they are multiples of. -/
theorem fcondHolds_eq_scaled (c : FCond) (x y : BitVec 32) : fcondHolds c x y =
    match c with
    | .eq => !(Stmt.f32NaN x || Stmt.f32NaN y) && decide (Stmt.f32Scaled x = Stmt.f32Scaled y)
    | .ne => (Stmt.f32NaN x || Stmt.f32NaN y) || decide (Stmt.f32Scaled x ≠ Stmt.f32Scaled y)
    | .lt => !(Stmt.f32NaN x || Stmt.f32NaN y) && decide (Stmt.f32Scaled x < Stmt.f32Scaled y)
    | .le => !(Stmt.f32NaN x || Stmt.f32NaN y) && decide (Stmt.f32Scaled x ≤ Stmt.f32Scaled y)
    | .un => Stmt.f32NaN x || Stmt.f32NaN y := by
  simp only [f32NaN_eq, f32Scaled_eq_iff, f32Scaled_lt_iff, f32Scaled_le_iff, ne_eq, decide_not]
  cases c <;> rfl

theorem vcmpHolds_fp32 (cond : Nat) (x y : BitVec 32) : vcmpHolds true cond x y = laneHolds true cond x y := by
  match cond with
  | 0 => exact fcondHolds_eq_scaled .eq x y
  | 1 => exact fcondHolds_eq_scaled .ne x y
  | 2 => exact fcondHolds_eq_scaled .lt x y
  | 3 => exact fcondHolds_eq_scaled .le x y
  | _ + 4 => exact fcondHolds_eq_scaled .un x y

theorem vcmpHolds_eq (fp : Bool) (cond : Nat) (x y : BitVec 32) : vcmpHolds fp cond x y = laneHolds fp cond x y := by
  cases fp
  · exact vcmpHolds_int cond x y
  · exact vcmpHolds_fp32 cond x y

/-! ### Bits from truth values -/

theorem testBit_packBits (l : List Bool) (n : Nat) : (packBits l).testBit n = l.getD n false := by
  induction l generalizing n with
  | nil => simp [packBits]
  | cons b l ih =>
    cases n with
    | zero => cases b <;> simp [packBits, Nat.testBit_zero]
    | succ n =>
      have half : (packBits (b :: l)) / 2 = packBits l := by simp only [packBits]; split <;> omega
      rw [Nat.testBit_succ, half, ih, List.getD_cons_succ]

theorem getLsbD_packBits (f : Nat → Bool) {l : Nat} (hl : l < 32) :
    (BitVec.ofNat 32 (packBits ((List.range 32).map f))).getLsbD l = f l := by
  rw [BitVec.getLsbD_ofNat, testBit_packBits, decide_eq_true hl, Bool.true_and]
  simp [List.getD, hl]

/-! ### The pair -/

theorem State.withRegs_wp (s : State) (n : BitVec 7) (x : BitVec 32) : s.withRegs (s.wp n x) (s.me.r.setP n x) :=
  s.withRegs_setRegs _

/-- The predicate that a vcmp writes. -/
def vcmpMask (fp : Bool) (cond : Nat) (x y : BitVec 1024) : BitVec 32 :=
  BitVec.ofNat 32 (packBits ((List.range 32).map fun l =>
    vcmpHolds fp cond (BitVec.ofNat 32 (Stmt.elemV 32 x l)) (BitVec.ofNat 32 (Stmt.elemV 32 y l))))

theorem exec_vcmp_ready {g : BitVec 7} {s : State} {a b : VOp} (hg : s.guardOn g = true) (ha : Stmt.srcReady s a)
    (hb : Stmt.srcReady s b) (n : BitVec 6) (cond : BitVec 3) (fp : Bool) :
    exec (.vcmp g n a b cond fp) s = .next (((((streamsIn [a, b]).foldl State.takeStep s).wp (pairLo n)
      (vcmpMask fp cond.toNat (s.peek a) (s.peek b))).wp (pairHi n)
      (~~~ vcmpMask fp cond.toNat (s.peek a) (s.peek b))).retire) := by
  rw [exec_vcmp, execVcmp, slotOp_on hg, State.streamsOk_srcs (pair_ready ha hb), vcmpMask]
  simp only [Try.res, Res.finish, zip_elems, List.map_map]
  rfl

/-- A compare leaves its mask and the complement in its pair, and its source streams one step on. -/
theorem vcmp_writes {g : BitVec 7} {s : State} {a b : VOp} (hg : s.guardOn g = true) (ha : Stmt.srcReady s a)
    (hb : Stmt.srcReady s b) (n : BitVec 6) (cond : BitVec 3) (fp : Bool) :
    ∃ t, exec (.vcmp g n a b cond fp) s = .next t ∧ s.onlyRegs t [] [pairLo n, pairHi n] [] (Stmt.streamsOf [a, b]) ∧
      Stmt.allStepped s t [a, b] ∧
      (n ≠ 0#6 → t.rp (pairLo n) = vcmpMask fp cond.toNat (s.peek a) (s.peek b)) ∧
      t.rp (pairHi n) = ~~~ vcmpMask fp cond.toNat (s.peek a) (s.peek b) := by
  refine ⟨_, exec_vcmp_ready hg ha hb n cond fp, ?_⟩
  generalize vcmpMask fp cond.toNat (s.peek a) (s.peek b) = m
  have steps := s.withRegs_takeSteps (streamsIn [a, b])
  have lo := steps.trans (State.withRegs_wp _ (pairLo n) m)
  have all := lo.trans (State.withRegs_wp _ (pairHi n) (~~~ m))
  rw [lo.me, steps.me] at all
  dsimp only at all
  have stepsFrame := s.me.r.sameBut_takeSteps (streamsIn [a, b])
  have pairFrame := Regs.sameBut_setP_setP (s.me.r.takeSteps (streamsIn [a, b])) (pairLo n) (pairHi n) m (~~~ m)
  refine ⟨all.onlyRegs ?_, fun k hk => ?_, fun hn => ?_, ?_⟩
  · refine (stepsFrame.mono (List.Subset.refl _) (List.nil_subset _) (List.Subset.refl _) fun k hk => ?_).trans
      (pairFrame.mono (List.Subset.refl _) (List.Subset.refl _) (List.Subset.refl _) (List.nil_subset _))
    exact (mem_streamsOf k _).2 ((mem_streamsIn k _).1 hk)
  · have hk' : k ∈ streamsIn [a, b] := (mem_streamsIn k _).2 ((mem_streamsOf k _).1 hk)
    rw [Stmt.stepped, State.me_retire, Seq.retire_r, all.me, pairFrame.stream k List.not_mem_nil,
      Regs.getQ_takeSteps _ (nodup_streamsIn _) hk']
    rfl
  · rw [State.rp_retire, State.rp_wp, if_neg (pairLo_ne_pairHi n), State.rp_wp, if_pos rfl,
      if_neg fun h => hn ((pairLo_eq_zero n).1 h)]
  · rw [State.rp_retire, State.rp_wp, if_pos rfl, if_neg (pairHi_ne_zero n)]

end Sys2Proof.Machine
end

section
/-! PROOFS. Every fp32 value that an operation of slot C gives has a field of 32 bits (spec/04 R87, spec/05 R110). -/

namespace Sys2Proof.Machine

/-- A value whose magnitude is below 2^128, which fp32 can encode. -/
def Num.inFp32 : Num → Prop
  | .fin _ m e => m = 0 ∨ dyLog m e ≤ 127
  | _ => True

theorem shiftNat_lt {m j : Nat} {k : Int} (h : (Nat.log2 m : Int) + k < j) : shiftNat m k < 2 ^ j := by
  have hm : m < 2 ^ (Nat.log2 m + 1) := Nat.lt_log2_self
  unfold shiftNat
  split
  · calc m * 2 ^ k.toNat < 2 ^ (Nat.log2 m + 1) * 2 ^ k.toNat := Nat.mul_lt_mul_of_pos_right hm (Nat.two_pow_pos _)
      _ = 2 ^ (Nat.log2 m + 1 + k.toNat) := (Nat.pow_add ..).symm
      _ ≤ 2 ^ j := Nat.pow_le_pow_right (by decide) (by omega)
  · refine Nat.div_lt_of_lt_mul (hm.trans_le ?_)
    rw [← Nat.pow_add]
    exact Nat.pow_le_pow_right (by decide) (by omega)

theorem Num.enc_lt {x : Num} (h : x.inFp32) : fp32F.enc x < 2 ^ 32 := by
  cases x with
  | nan => decide
  | inf neg => cases neg <;> decide
  | fin neg m e =>
    have sign : (if neg then 2 ^ (fp32F.fb + fp32F.eb) else 0) ≤ 2 ^ 31 := by cases neg <;> decide
    rw [Flt.enc]
    dsimp only
    generalize (if neg then 2 ^ (fp32F.fb + fp32F.eb) else 0) = sgn at sign ⊢
    by_cases hm : m = 0
    · rw [if_pos hm]; omega
    · rw [if_neg hm]
      have top : dyLog m e ≤ 127 := h.resolve_left hm
      have emin : fp32F.emin = -126 := rfl
      have fb : fp32F.fb = 23 := rfl
      have bias : fp32F.bias = 127 := rfl
      rw [emin, fb, bias]
      unfold dyLog at top ⊢
      by_cases hs : (Nat.log2 m : Int) + e < -126
      · have small : shiftNat m (e - (-126 - (23 : Nat))) < 2 ^ 23 := shiftNat_lt (by omega)
        rw [if_pos hs]
        omega
      · have fraction : shiftNat m (e - (Nat.log2 m + e - (23 : Nat))) < 2 ^ 24 := shiftNat_lt (by omega)
        have exponent : (Nat.log2 m + e + (127 : Nat)).toNat ≤ 254 := by omega
        rw [if_neg hs]
        omega

theorem Num.inFp32_dec (b : Nat) : (fp32F.dec b).inFp32 := by
  have fr : b % 2 ^ 23 < 2 ^ 23 := Nat.mod_lt _ (by decide)
  have ex : b / 2 ^ 23 % 2 ^ 8 < 2 ^ 8 := Nat.mod_lt _ (by decide)
  have fb : fp32F.fb = 23 := rfl
  have eb : fp32F.eb = 8 := rfl
  have emin : fp32F.emin = -126 := rfl
  have emax : fp32F.emax = 255 := rfl
  have bias : fp32F.bias = 127 := rfl
  have log : ∀ m : Nat, m < 2 ^ 24 → Nat.log2 m ≤ 23 := fun m hm => by
    by_cases h0 : m = 0
    · subst h0; decide
    · have := (Nat.log2_lt h0).2 hm; omega
  rw [Flt.dec, fb, eb, emin, emax, bias]
  split
  · split <;> trivial
  · split
    · trivial
    · split
      · refine .inr ?_
        have := log (b % 2 ^ 23) (by omega)
        rw [dyLog]
        omega
      · rename_i infinite _ _
        refine .inr ?_
        have := log (b % 2 ^ 23 + 2 ^ 23) (by omega)
        have finite : b / 2 ^ 23 % 2 ^ 8 ≠ 255 := fun h => infinite (by simp only [h]; rfl)
        rw [dyLog]
        omega

/-- What is not above the largest finite value is below 2^128. -/
theorem dyLog_le_of_not_above {r : Nat} {u : Int} (hr : r ≠ 0) (h : dyLt fp32F.max.1 fp32F.max.2 r u = false) :
    dyLog r u ≤ 127 := by
  have max : fp32F.max = (2 ^ 24 - 1, 104) := by decide
  rw [max] at h
  dsimp only [dyLt] at h
  generalize hg : min 104 u = g at h
  have le : r * 2 ^ (u - g).toNat ≤ (2 ^ 24 - 1) * 2 ^ (104 - g).toNat := Nat.not_lt.1 (of_decide_eq_false h)
  have pow : 2 ^ (Nat.log2 r + (u - g).toNat) < 2 ^ (24 + (104 - g).toNat) := by
    calc 2 ^ (Nat.log2 r + (u - g).toNat) = 2 ^ Nat.log2 r * 2 ^ (u - g).toNat := Nat.pow_add ..
      _ ≤ r * 2 ^ (u - g).toNat := Nat.mul_le_mul_right _ (Nat.log2_self_le hr)
      _ ≤ (2 ^ 24 - 1) * 2 ^ (104 - g).toNat := le
      _ < 2 ^ 24 * 2 ^ (104 - g).toNat := Nat.mul_lt_mul_of_pos_right (by decide) (Nat.two_pow_pos _)
      _ = 2 ^ (24 + (104 - g).toNat) := (Nat.pow_add ..).symm
  have := (Nat.pow_lt_pow_iff_right (by decide)).1 pow
  rw [dyLog]
  omega

theorem Num.inFp32_vround (x : Num) : (fp32F.vround x).1.inFp32 := by
  cases x with
  | nan => trivial
  | inf neg => trivial
  | fin neg m e =>
    rw [Flt.vround]
    dsimp only
    by_cases hm : m = 0
    · rw [if_pos hm]; exact .inl hm
    · rw [if_neg hm]
      generalize roundSig m e fp32F.p fp32F.emin .rne neg = ru
      obtain ⟨r, u⟩ := ru
      dsimp only
      cases above : dyLt fp32F.max.1 fp32F.max.2 r u with
      | true => rw [if_pos rfl]; trivial
      | false =>
        rw [if_neg Bool.false_ne_true]
        exact (Decidable.em (r = 0)).imp id fun hr => dyLog_le_of_not_above hr above

theorem Num.inFp32_add (x y : Num) : (fp32F.add x y).1.inFp32 := Num.inFp32_vround _

theorem Num.inFp32_minX {x y : Num} (hx : x.inFp32) (hy : y.inFp32) : (x.minX y).inFp32 := by
  unfold Num.minX
  split
  · trivial
  · split
    · exact hy
    · exact hx

theorem Num.inFp32_maxX {x y : Num} (hx : x.inFp32) (hy : y.inFp32) : (x.maxX y).inFp32 := by
  unfold Num.maxX
  split
  · trivial
  · split
    · exact hy
    · exact hx

end Sys2Proof.Machine
end

section
/-! PROOFS. vred (O29, second part; spec/05 R118): one step, the tree over the lanes, and its flags. -/

namespace Sys2Proof.Machine

/-! ### One step -/

theorem redIdentity_eq (fp : Bool) (op : RedOp) : redIdentity fp op = Stmt.redUnit fp op := by cases op <;> rfl

theorem redUnit_lt (fp : Bool) (op : RedOp) : Stmt.redUnit fp op < 2 ^ 32 := by
  cases fp <;> cases op <;> decide

/-- A step of a reduction on lanes gives a lane. -/
theorem redOp_lt {fp : Bool} {op : RedOp} {a b : Nat} (ha : a < 2 ^ 32) (hb : b < 2 ^ 32) : Stmt.redOp fp op a b < 2 ^ 32 := by
  have da := Num.inFp32_dec a
  have db := Num.inFp32_dec b
  match op, fp with
  | .add, false => exact Nat.mod_lt _ (by decide)
  | .min, false => simp only [Stmt.redOp]; split <;> assumption
  | .max, false => simp only [Stmt.redOp]; split <;> assumption
  | .and, _ => exact Nat.and_lt_two_pow _ hb
  | .or, _ => exact Nat.or_lt_two_pow ha hb
  | .xor, _ => exact Nat.xor_lt_two_pow ha hb
  | .add, true => exact Num.enc_lt (Num.inFp32_add _ _)
  | .min, true => exact Num.enc_lt (Num.inFp32_minX da db)
  | .max, true => exact Num.enc_lt (Num.inFp32_maxX da db)

/-- The integer steps: an operation of R112 on lanes. -/
theorem vFunOf_int32 (k : Nat) {a b : Nat} (ha : a < 2 ^ 32) (hb : b < 2 ^ 32) :
    (vFunOf k).elem .int32 a b 0 = (Stmt.intOp 32 k a b 0 % 2 ^ 32, {}) := by
  rw [VFun.elem_int _ rfl]
  exact congrArg (fun n => (n % 2 ^ 32, ({} : FlagSet))) (vFunOf_i k (by decide) ha hb 0)

/-- A step of the model is a step of the spec, with the flags of both halves and its own. -/
theorem redStep_eq {fp : Bool} {op : RedOp} (hop : fp = true → op = .add ∨ op = .min ∨ op = .max) {a b : Flagged Nat}
    (ha : a.1 < 2 ^ 32) (hb : b.1 < 2 ^ 32) :
    redStep fp op a b = (Stmt.redOp fp op a.1 b.1, (a.2.or b.2).or (Stmt.redFlags fp op a.1 b.1)) := by
  cases fp with
  | true => obtain rfl | rfl | rfl := hop rfl <;> rfl
  | false =>
    cases op with
    | add =>
      have := vFunOf_int32 0 ha hb
      exact congrArg (fun r : Flagged Nat => (r.1, (a.2.or b.2).or r.2)) this
    | min =>
      have := vFunOf_int32 4 ha hb
      have lane : Stmt.intOp 32 4 a.1 b.1 0 < 2 ^ 32 := redOp_lt (fp := false) (op := .min) ha hb
      rw [Nat.mod_eq_of_lt lane] at this
      exact congrArg (fun r : Flagged Nat => (r.1, (a.2.or b.2).or r.2)) this
    | max =>
      have := vFunOf_int32 5 ha hb
      have lane : Stmt.intOp 32 5 a.1 b.1 0 < 2 ^ 32 := redOp_lt (fp := false) (op := .max) ha hb
      rw [Nat.mod_eq_of_lt lane] at this
      exact congrArg (fun r : Flagged Nat => (r.1, (a.2.or b.2).or r.2)) this
    | and | or | xor => rfl

/-! ### The tree -/

theorem treeAt_lt {fp : Bool} {op : RedOp} {x : Nat → Nat} (hx : ∀ l, x l < 2 ^ 32) (k i : Nat) :
    Stmt.treeAt (Stmt.redOp fp op) x k i < 2 ^ 32 := by
  induction k generalizing i with
  | zero => exact hx i
  | succ k ih => exact redOp_lt (ih _) (ih _)

/-- The flags of the step that joins elements i and i + 2^(4 - k) after k halvings. -/
def stepFlags (fp : Bool) (op : RedOp) (x : Nat → Nat) (k i : Nat) : FlagSet :=
  Stmt.redFlags fp op (Stmt.treeAt (Stmt.redOp fp op) x k i) (Stmt.treeAt (Stmt.redOp fp op) x k (i + 2 ^ (4 - k)))

/-- The flags that element i of the tree has gathered after k halvings. -/
def treeFlagsAt (fp : Bool) (op : RedOp) (x : Nat → Nat) : Nat → Nat → FlagSet
  | 0, _ => {}
  | k + 1, i =>
    ((treeFlagsAt fp op x k i).or (treeFlagsAt fp op x k (i + 2 ^ (4 - k)))).or (stepFlags fp op x k i)

/-- The elements of the tree after k halvings, with their flags. -/
def treeRow (fp : Bool) (op : RedOp) (x : Nat → Nat) (k n : Nat) : List (Flagged Nat) :=
  (List.range n).map fun i => (Stmt.treeAt (Stmt.redOp fp op) x k i, treeFlagsAt fp op x k i)

theorem redHalf_map_range (fp : Bool) (op : RedOp) (w : Nat) (f : Nat → Flagged Nat) :
    redHalf fp op ((List.range (2 * w)).map f) = (List.range w).map fun i => redStep fp op (f i) (f (i + w)) := by
  have half : 2 * w / 2 = w := Nat.mul_div_cancel_left w Nat.zero_lt_two
  rw [redHalf, List.length_map, List.length_range, half]
  apply List.ext_getElem
  · simp; omega
  · intro i hi _
    simp [Nat.add_comm]

/-- One halving goes to the next row. -/
theorem redHalf_treeRow {fp : Bool} {op : RedOp} (hop : fp = true → op = .add ∨ op = .min ∨ op = .max) {x : Nat → Nat}
    (hx : ∀ l, x l < 2 ^ 32) (k : Nat) :
    redHalf fp op (treeRow fp op x k (2 * 2 ^ (4 - k))) = treeRow fp op x (k + 1) (2 ^ (4 - k)) := by
  rw [treeRow, redHalf_map_range]
  exact List.map_congr_left fun i _ => redStep_eq hop (treeAt_lt hx _ _) (treeAt_lt hx _ _)

theorem redTree_treeRow {fp : Bool} {op : RedOp} (hop : fp = true → op = .add ∨ op = .min ∨ op = .max) {x : Nat → Nat}
    (hx : ∀ l, x l < 2 ^ 32) {n : Nat} (hn : n ≤ 5) :
    redTree fp op n (treeRow fp op x (5 - n) (2 ^ n)) = treeRow fp op x 5 1 := by
  induction n with
  | zero => rfl
  | succ n ih =>
    have exponent : n = 4 - (5 - (n + 1)) := by omega
    have row : treeRow fp op x (5 - (n + 1)) (2 ^ (n + 1)) =
        treeRow fp op x (5 - (n + 1)) (2 * 2 ^ (4 - (5 - (n + 1)))) := by
      rw [← exponent, Nat.pow_succ, Nat.mul_comm]
    rw [redTree, row, redHalf_treeRow hop hx, ← exponent, show 5 - (n + 1) + 1 = 5 - n by omega]
    exact ih (by omega)

/-! ### The flags of the tree -/

/-- A flag of a row is one of the row before or one of a step between them. -/
theorem FlagSet.Reads.treeRow_succ {π : FlagSet → Bool} (h : FlagSet.Reads π) (fp : Bool) (op : RedOp) (x : Nat → Nat) (k : Nat) :
    (∃ i, i < 2 ^ (4 - k) ∧ π (treeFlagsAt fp op x (k + 1) i) = true) ↔
      (∃ i, i < 2 * 2 ^ (4 - k) ∧ π (treeFlagsAt fp op x k i) = true) ∨
      ∃ i, i < 2 ^ (4 - k) ∧ π (stepFlags fp op x k i) = true := by
  simp only [treeFlagsAt, h.or, Bool.or_eq_true]
  constructor
  · rintro ⟨i, hi, (lower | upper) | step⟩
    · exact .inl ⟨i, by omega, lower⟩
    · exact .inl ⟨i + 2 ^ (4 - k), by omega, upper⟩
    · exact .inr ⟨i, hi, step⟩
  · rintro (⟨i, hi, flag⟩ | ⟨i, hi, step⟩)
    · by_cases lower : i < 2 ^ (4 - k)
      · exact ⟨i, lower, .inl (.inl flag)⟩
      · refine ⟨i - 2 ^ (4 - k), by omega, .inl (.inr ?_)⟩
        rwa [Nat.sub_add_cancel (Nat.le_of_not_lt lower)]
    · exact ⟨i, hi, .inr step⟩

/-- The flags of a row are those of the steps before it. -/
theorem FlagSet.Reads.treeRow {π : FlagSet → Bool} (h : FlagSet.Reads π) (fp : Bool) (op : RedOp) (x : Nat → Nat) {m : Nat}
    (hm : m ≤ 5) :
    (∃ i, i < 2 ^ (5 - m) ∧ π (treeFlagsAt fp op x m i) = true) ↔
      ∃ k i, k < m ∧ i < 2 ^ (4 - k) ∧ π (stepFlags fp op x k i) = true := by
  induction m with
  | zero => simp [treeFlagsAt, h.none]
  | succ m ih =>
    have double : 2 * 2 ^ (4 - m) = 2 ^ (5 - m) := by
      rw [show 5 - m = (4 - m) + 1 by omega, Nat.pow_succ, Nat.mul_comm]
    rw [show 5 - (m + 1) = 4 - m by omega, h.treeRow_succ, double, ih (by omega)]
    constructor
    · rintro (⟨k, i, hk, rest⟩ | ⟨i, rest⟩)
      · exact ⟨k, i, by omega, rest⟩
      · exact ⟨m, i, by omega, rest⟩
    · rintro ⟨k, i, hk, rest⟩
      rcases Nat.lt_succ_iff_lt_or_eq.1 hk with hk | rfl
      · exact .inl ⟨k, i, hk, rest⟩
      · exact .inr ⟨i, rest⟩

/-- The flags at the root are those that some step raises. -/
theorem treeFlags_root (fp : Bool) (op : RedOp) (x : Nat → Nat) :
    Stmt.treeFlags (treeFlagsAt fp op x 5 0).bits (stepFlags fp op x) := by
  have root : ∀ {π : FlagSet → Bool}, FlagSet.Reads π → (π (treeFlagsAt fp op x 5 0) = true ↔ ∃ k i, k < 5 ∧ i < 2 ^ (4 - k) ∧
      π (stepFlags fp op x k i) = true) := fun h => by
    rw [← h.treeRow fp op x (Nat.le_refl 5)]
    constructor
    · exact fun flag => ⟨0, by decide, flag⟩
    · rintro ⟨i, hi, flag⟩
      rwa [Nat.lt_one_iff.1 hi] at flag
  obtain ⟨h0, h1, h2, h3⟩ := (treeFlagsAt fp op x 5 0).getLsbD_bits
  exact ⟨h0 ▸ root FlagSet.reads_invalid, h1 ▸ root FlagSet.reads_overflow, h2 ▸ root FlagSet.reads_underflow,
    h3 ▸ root FlagSet.reads_inexact⟩

/-! ### The instruction -/

/-- The lanes that a reduction starts from: those outside the predicate hold the identity. -/
def redLanes (fp : Bool) (op : RedOp) (p : BitVec 32) (v : BitVec 1024) (l : Nat) : Nat :=
  if p.getLsbD l then Stmt.elemV 32 v l else Stmt.redUnit fp op

theorem redLanes_lt (fp : Bool) (op : RedOp) (p : BitVec 32) (v : BitVec 1024) (l : Nat) : redLanes fp op p v l < 2 ^ 32 := by
  unfold redLanes
  split
  · exact elemV_lt 32 v l
  · exact redUnit_lt fp op

theorem treeRow_zero (fp : Bool) (op : RedOp) (p : BitVec 32) (v : BitVec 1024) :
    ((elems 32 v).zipIdx.map fun e => (if p.getLsbD e.2 then e.1 else redIdentity fp op, ({} : FlagSet))) =
      treeRow fp op (redLanes fp op p v) 0 32 := by
  rw [elems_eq_map, treeRow]
  apply List.ext_getElem
  · simp
  · intro i _ _
    simp [redLanes, redIdentity_eq, Stmt.treeAt, treeFlagsAt]

/-- What vred gives: the root of the tree in lane 0, with its flags. -/
def redOut (fp : Bool) (op : RedOp) (p : BitVec 32) (v : BitVec 1024) : VOut :=
  { v := BitVec.ofNat 1024 (Stmt.treeAt (Stmt.redOp fp op) (redLanes fp op p v) 5 0)
    fl := treeFlagsAt fp op (redLanes fp op p v) 5 0 }

theorem elemV_ofNat_lane {r : Nat} (hr : r < 2 ^ 32) (l : Nat) :
    Stmt.elemV 32 (BitVec.ofNat 1024 r) l = if l = 0 then r else 0 := by
  have value : packN 32 [r] = r := Nat.mod_eq_of_lt hr
  have part := elemV_ofNat_packN (w := 32) (l := [r]) (show 32 * 1 ≤ 1024 by decide) l
  rw [value] at part
  rw [part]
  cases l with
  | zero => exact Nat.mod_eq_of_lt hr
  | succ l => rfl

/-- What vred leaves, whatever its destination. -/
theorem vred_gives {g : BitVec 7} {s : State} {fp : Bool} {op : RedOp} {d a : VOp} (lp : BitVec 7) (hg : s.guardOn g = true)
    (hop : fp = true → op = .add ∨ op = .min ∨ op = .max) (hd : Stmt.dstReady s d) (ha : Stmt.srcReady s a) :
    ∃ t, exec (.vred g fp op d a lp) s = .next t ∧
      Stmt.vecGives s t d [a] (redOut fp op (s.rp lp) (s.peek a)).fl.bits 0xFFFFFFFF#32
        fun v => v = (redOut fp op (s.rp lp) (s.peek a)).v := by
  have lanes := redLanes_lt fp op (s.rp lp) (s.peek a)
  have tree := redTree_treeRow hop lanes (Nat.le_refl 5)
  refine vecOp_gives_out (exec_vred ..) hg hd (fun o ho => List.mem_singleton.1 ho ▸ ha)
    (v := (redOut fp op (s.rp lp) (s.peek a)).v) (fl := (redOut fp op (s.rp lp) (s.peek a)).fl) ?_ rfl
  change (match redTree fp op 5 ((elems 32 (s.peek a)).zipIdx.map fun e =>
    (if (s.rp lp).getLsbD e.2 then e.1 else redIdentity fp op, ({} : FlagSet))) with
    | (r, fl) :: _ => ({ v := BitVec.ofNat 1024 r, fl := fl } : VOut)
    | [] => { v := 0#1024 }) = _
  rw [treeRow_zero]
  exact congrArg (fun l : List (Flagged Nat) => match l with
    | (r, fl) :: _ => ({ v := BitVec.ofNat 1024 r, fl := fl } : VOut)
    | [] => { v := 0#1024 }) tree

theorem getLsbD_allLanes {l : Nat} (hl : l < 32) : (0xFFFFFFFF#32).getLsbD l = true := by
  rw [show 0xFFFFFFFF#32 = BitVec.allOnes 32 from rfl, BitVec.getLsbD_allOnes, decide_eq_true hl]

/-- Settles O29: a compare writes its mask and the complement; a reduction gives the root of its tree with the flags of all its steps. -/
theorem vectorComparesAndReductions : Obligations.VectorComparesAndReductions := by
  refine ⟨fun s g n a b cond fp hg h5 h4 ha hb => ?_, fun s g fp op a lp hg hop ha => ?_⟩
  · intro holds
    obtain ⟨t, ht, only, steps, lo, hi⟩ := vcmp_writes hg ha hb n cond fp
    have mask : ∀ l, l < 32 → (vcmpMask fp cond.toNat (s.peek a) (s.peek b)).getLsbD l = holds l := fun l hl =>
      (getLsbD_packBits _ hl).trans (vcmpHolds_eq fp cond.toNat _ _)
    refine ⟨t, ht, only, steps, fun l hl => ⟨fun hn => (congrArg (·.getLsbD l) (lo hn)).trans (mask l hl), ?_⟩⟩
    refine (congrArg (·.getLsbD l) hi).trans ?_
    rw [BitVec.getLsbD_not, decide_eq_true hl, Bool.true_and, mask l hl]
  · intro x tree flags reduced
    have root : tree 5 0 < 2 ^ 32 := treeAt_lt (redLanes_lt fp op (s.rp lp) (s.peek a)) 5 0
    have reducedOut : reduced (redOut fp op (s.rp lp) (s.peek a)).v :=
      ⟨elemV_ofNat_lane root 0, fun l hl _ => (elemV_ofNat_lane root l).trans (if_neg (by omega))⟩
    have flagsOut : flags (redOut fp op (s.rp lp) (s.peek a)).fl.bits := treeFlags_root fp op _
    constructor
    · intro d
      obtain ⟨t, ht, gives⟩ := vred_gives (d := .v d) lp hg hop trivial ha
      obtain ⟨v, rfl, bits⟩ := gives.reg d rfl
      have value : t.rv d = (redOut fp op (s.rp lp) (s.peek a)).v := BitVec.eq_of_getLsbD_eq fun i hi =>
        (bits i hi).trans (if_pos (getLsbD_allLanes (by omega)))
      exact ⟨t, _, ht, gives.done, flagsOut, gives.steps, value ▸ reducedOut⟩
    · intro n y bound dir left noFault room
      obtain ⟨t, ht, gives⟩ := vred_gives (d := .q n) lp hg hop ⟨bound, dir, left, noFault, room⟩ ha
      obtain ⟨v, hv, cov, mxs, act, stream⟩ := gives.stream n rfl
      refine ⟨t, _, v, ht, gives.done, flagsOut, gives.steps, hv ▸ reducedOut, ?_, cov, mxs, stream⟩
      refine BitVec.eq_of_getLsbD_eq fun i hi => ?_
      rw [act i hi, getLsbD_allLanes (by omega), BitVec.getLsbD_allOnes, decide_eq_true hi]

end Sys2Proof.Machine
end

section
/-! PROOFS. A store of slot C touches no sequencer, and its check leaves the cursor too: the frame of the homes, the caches and
translation over `seqs` and `cur`. -/

namespace Sys2Proof.Machine

theorem State.foldl_seqs {α : Type} {f : State → α → State} (hf : ∀ s a, (f s a).seqs = s.seqs) (l : List α) (s : State) :
    (l.foldl f s).seqs = s.seqs := by
  induction l generalizing s with
  | nil => rfl
  | cons a l ih => exact (ih (f s a)).trans (hf s a)

theorem State.foldl_cur {α : Type} {f : State → α → State} (hf : ∀ s a, (f s a).cur = s.cur) (l : List α) (s : State) :
    (l.foldl f s).cur = s.cur := by
  induction l generalizing s with
  | nil => rfl
  | cons a l ih => exact (ih (f s a)).trans (hf s a)

/-! ### The memory-side cache leaves the cursor -/

@[simp] theorem State.count_cur (s : State) (ctx : Nat) (k : Traffic) (n : Nat) : (s.count ctx k n).cur = s.cur := by
  unfold State.count
  split
  · rfl
  · exact State.setOwner_cur ..

@[simp] theorem State.setPromo_cur (s : State) (d b : Nat) (rs : List PromoRow) : (s.setPromo d b rs).cur = s.cur := rfl

@[simp] theorem State.activate_cur (s : State) (pa : Nat) (w : Bool) : (s.activate pa w).cur = s.cur := by
  unfold State.activate
  dsimp only
  repeat' split
  all_goals simp

@[simp] theorem State.rowWrote_cur (s : State) (pa : Nat) : (s.rowWrote pa).cur = s.cur := by
  unfold State.rowWrote
  split <;> simp

@[simp] theorem State.sideWrote_cur (s : State) (l : Nat) : (s.sideWrote l).cur = s.cur := by
  unfold State.sideWrote
  dsimp only
  repeat' split
  all_goals simp

@[simp] theorem State.sendLink_cur (s : State) (vd ctx pa m : Nat) : (s.sendLink vd ctx pa m).cur = s.cur := rfl

@[simp] theorem State.dropMsc_cur (s : State) (d r : Nat) : (s.dropMsc d r).cur = s.cur := by
  unfold State.dropMsc
  split
  · rfl
  · rw [State.count_cur, State.setDie_cur]
    split
    · rfl
    · exact State.activate_cur ..

@[simp] theorem State.mscAt_cur (s : State) (d l vd ctx cls : Nat) (w a : Bool) : (s.mscAt d l vd ctx cls w a).cur = s.cur := by
  unfold State.mscAt
  dsimp only
  repeat' split
  all_goals simp

@[simp] theorem State.mscTouch_cur (s : State) (l ctx cls : Nat) (w a : Bool) : (s.mscTouch l ctx cls w a).cur = s.cur := by
  unfold State.mscTouch State.mscAccess
  dsimp only
  split <;> simp

/-! ### Errors met at a home -/

@[simp] theorem State.setInvalid_frame (s : State) (l : Nat) : (s.setInvalid l).seqs = s.seqs ∧ (s.setInvalid l).cur = s.cur :=
  ⟨State.sideWrote_seqs s l, State.sideWrote_cur s l⟩

@[simp] theorem State.logError_frame (s : State) (c : Nat) (w : Word) :
    (s.logError c w).seqs = s.seqs ∧ (s.logError c w).cur = s.cur := ⟨rfl, rfl⟩

@[simp] theorem State.owe_frame (s : State) (ctx : Nat) (t : Trap) : (s.owe ctx t).seqs = s.seqs ∧ (s.owe ctx t).cur = s.cur := by
  unfold State.owe
  split <;> exact ⟨rfl, rfl⟩

@[simp] theorem State.writeBack_frame (s : State) (l : Nat) (d : BitVec 512) (m : BitVec 64) :
    (s.writeBack l d m).seqs = s.seqs ∧ (s.writeBack l d m).cur = s.cur := by
  unfold State.writeBack
  split
  · exact ⟨rfl, rfl⟩
  · dsimp only
    split <;> exact ⟨rfl, rfl⟩

@[simp] theorem State.recoverSide_frame (s : State) (l : Nat) :
    (s.recoverSide l).1.seqs = s.seqs ∧ (s.recoverSide l).1.cur = s.cur := by
  unfold State.recoverSide
  dsimp only
  split <;> simp

@[simp] theorem State.meetHome_frame (s : State) (l : Nat) :
    (s.meetHome l).1.seqs = s.seqs ∧ (s.meetHome l).1.cur = s.cur := by
  have side := s.recoverSide_frame l
  unfold State.meetHome
  dsimp only
  split
  · split <;> simp_all
  · split
    · split <;> exact ⟨rfl, rfl⟩
    · split <;> exact ⟨rfl, rfl⟩

/-! ### Translation -/

@[simp] theorem State.touchPath_frame (s : State) (ctx : Nat) (t : Tr) :
    (s.touchPath ctx t).seqs = s.seqs ∧ (s.touchPath ctx t).cur = s.cur :=
  ⟨State.foldl_seqs (fun s _ => s.mscTouch_seqs _ ctx pcMem false false) _ s,
    State.foldl_cur (fun s _ => s.mscTouch_cur _ ctx pcMem false false) _ s⟩

@[simp] theorem State.tlbAdd_frame (s : State) (die ctx : Nat) (va : Word) (t : Tr) :
    (s.tlbAdd die ctx va t).seqs = s.seqs ∧ (s.tlbAdd die ctx va t).cur = s.cur := ⟨rfl, rfl⟩

@[simp] theorem State.walked_frame (s : State) (die ctx : Nat) (va : Word) :
    (s.walked die ctx va).1.seqs = s.seqs ∧ (s.walked die ctx va).1.cur = s.cur := by
  unfold State.walked
  split
  · simp
  · exact ⟨rfl, rfl⟩

@[simp] theorem State.lookup_frame (s : State) (die ctx : Nat) (va : Word) (w : Bool) :
    (s.lookup die ctx va w).1.seqs = s.seqs ∧ (s.lookup die ctx va w).1.cur = s.cur := by
  unfold State.lookup
  split
  · split
    · exact State.walked_frame ..
    · exact ⟨rfl, rfl⟩
  · exact State.walked_frame ..

@[simp] theorem State.homeErr_frame (s : State) (l : Nat) (acc : Acc) :
    (s.homeErr l acc).1.seqs = s.seqs ∧ (s.homeErr l acc).1.cur = s.cur := State.meetHome_frame s l

@[simp] theorem State.translateN_frame (s : State) (die ctx : Nat) (va : Word) (acc : Acc) (n : Nat) :
    (s.translateN die ctx va acc n).1.seqs = s.seqs ∧ (s.translateN die ctx va acc n).1.cur = s.cur := by
  induction n generalizing s with
  | zero => exact ⟨rfl, rfl⟩
  | succ n ih =>
    have found := s.lookup_frame die ctx va acc.write
    unfold State.translateN
    split
    · simp_all
    · simp_all
    · simp_all
    · rename_i s1 l heq
      have home := s1.homeErr_frame l { acc with write := false }
      rw [heq] at found
      split <;> simp_all
    · rw [‹s.lookup die ctx va acc.write = _›] at found
      split <;> exact found

@[simp] theorem State.translate_frame (s : State) (die ctx : Nat) (va : Word) (acc : Acc) :
    (s.translate die ctx va acc).1.seqs = s.seqs ∧ (s.translate die ctx va acc).1.cur = s.cur := by
  unfold State.translate
  split
  · exact ⟨rfl, rfl⟩
  · split
    · exact ⟨rfl, rfl⟩
    · exact State.translateN_frame ..

/-! ### The check of a store -/

theorem State.find_cur {s s1 : State} {q : Nat} {va : Word} {acc : Acc} {t : Tr} (h : s.find q va acc = .ok s1 t) :
    s1.cur = s.cur := by
  have cur := (s.translate_frame (dieOf q) (s.ctxOf q) va acc).2
  unfold State.find at h
  dsimp only at h
  split at h
  · cases h
  · split at h
    · cases h
    · next heq =>
      rw [heq] at cur
      split at h
      · split at h
        · cases h
        · cases h; exact cur
      · cases h; exact cur

theorem Try.bind_eq_ok {α β : Type} {x : Try α} {f : State → α → Try β} {s : State} {b : β} (h : x.bind f = .ok s b) :
    ∃ s1 a, x = .ok s1 a ∧ f s1 a = .ok s b := by
  cases x with
  | ok s1 a => exact ⟨s1, a, rfl, h⟩
  | trap s1 t => cases h
  | wait s1 evs => cases h

theorem State.storeCheck_cur {s s1 : State} {q : Nat} {va : Word} {acc : Acc} {t : Tr} (h : s.storeCheck q va acc = .ok s1 t) :
    s1.cur = s.cur := by
  obtain ⟨s2, t2, found, rest⟩ := Try.bind_eq_ok h
  unfold State.windowUp at rest
  split at rest
  · cases rest
  · split at rest
    · cases rest
    · cases rest; exact State.find_cur found

/-- The check of an element of slot C, when it passes, leaves the cursor. -/
theorem State.checkE_cur {s s1 : State} {q : Nat} {plain : Bool} {z : Nat} {a : Word}
    (h : s.checkE q plain false z a = .ok s1 ()) : s1.cur = s.cur := by
  unfold State.checkE at h
  cases plain with
  | false =>
    rw [if_neg Bool.false_ne_true] at h
    dsimp only at h
    split at h
    · cases h
    · cases h; rfl
  | true =>
    dsimp only at h
    rw [if_pos rfl] at h
    split at h
    · cases h
    · rw [if_neg Bool.false_ne_true] at h
      obtain ⟨s2, t, checked, rest⟩ := Try.bind_eq_ok h
      cases rest
      exact State.storeCheck_cur checked

/-! ### What a home does for its caches -/

@[simp] theorem State.dropL2_seqs (s : State) (r l : Nat) : (s.dropL2 r l).seqs = s.seqs := rfl
@[simp] theorem State.clearPoison_seqs (s : State) (l : Nat) : (s.clearPoison l).seqs = s.seqs := rfl
@[simp] theorem State.invalidateL2_seqs (s : State) (l : Nat) (but : Option Nat) : (s.invalidateL2 l but).seqs = s.seqs := rfl

@[simp] theorem State.loseL2_seqs (s : State) (r l : Nat) : (s.loseL2 r l).seqs = s.seqs := by
  unfold State.loseL2
  split
  · rfl
  · exact (State.owe_frame ..).1

@[simp] theorem State.ownerBack_seqs (s : State) (l : Nat) (d : BitVec 512) (m : BitVec 64) :
    (s.ownerBack l d m).seqs = s.seqs := by
  unfold State.ownerBack
  dsimp only
  split <;> exact (State.writeBack_frame ..).1

@[simp] theorem State.homeHal_seqs (s : State) (l : Nat) : (s.homeHal l).seqs = s.seqs := by simp [State.homeHal]

@[simp] theorem State.engWrite_seqs (s : State) (a : Nat) (bs : List Byte) : (s.engWrite a bs).seqs = s.seqs := by
  simp [State.engWrite]

@[simp] theorem State.engSetWord_seqs (s : State) (a : Nat) (w : Word) : (s.engSetWord a w).seqs = s.seqs :=
  State.engWrite_seqs ..

@[simp] theorem State.meetQuiet_seqs (s : State) (l ctx : Nat) : (s.meetQuiet l ctx).seqs = s.seqs := by
  have home := s.meetHome_frame l
  unfold State.meetQuiet
  split <;> simp_all

@[simp] theorem State.homeRdX_seqs (s : State) (l r ctx : Nat) : (s.homeRdX l r ctx).seqs = s.seqs := by
  simp [State.homeRdX]

@[simp] theorem State.ownPend_seqs (s : State) (l r ctx : Nat) : (s.ownPend l r ctx).seqs = s.seqs := by
  unfold State.ownPend
  split
  · rfl
  · exact State.homeRdX_seqs ..

@[simp] theorem State.homeWb_seqs (s : State) (l r : Nat) : (s.homeWb l r).seqs = s.seqs := by
  unfold State.homeWb
  dsimp only
  split
  · rfl
  · split
    · split <;> simp
    · rfl

/-! ### The L2 -/

@[simp] theorem State.evictL2_seqs (s : State) (r l : Nat) : (s.evictL2 r l).seqs = s.seqs := by
  unfold State.evictL2
  split
  · rfl
  · split
    · rfl
    · split <;> simp

@[simp] theorem State.parkL2_seqs (s : State) (r l : Nat) : (s.parkL2 r l).seqs = s.seqs := by
  unfold State.parkL2
  split <;> rfl

@[simp] theorem State.askHost_seqs (s : State) (l : Nat) : (s.askHost l).seqs = s.seqs := rfl

@[simp] theorem State.putOut_seqs (s : State) (r k : Nat) (c : CLine) : (s.putOut r k c).seqs = s.seqs := by
  unfold State.putOut
  repeat' split
  all_goals simp

@[simp] theorem State.evictOne_seqs (s : State) (r l ctx : Nat) : (s.evictOne r l ctx).seqs = s.seqs := by
  unfold State.evictOne
  dsimp only
  split
  · rfl
  · exact State.putOut_seqs ..

@[simp] theorem State.roomL2_seqs (s : State) (r l ctx : Nat) : (s.roomL2 r l ctx).seqs = s.seqs :=
  State.foldl_seqs (fun s _ => s.evictOne_seqs r l ctx) _ s

@[simp] theorem State.overCopy_seqs (s : State) (r l : Nat) (d : BitVec 512) (m : BitVec 64) :
    (s.overCopy r l d m).seqs = s.seqs := by
  unfold State.overCopy
  split <;> rfl

@[simp] theorem State.l2Merge_seqs (s : State) (r l ctx : Nat) (d : BitVec 512) (m : BitVec 64) :
    (s.l2Merge r l ctx d m).seqs = s.seqs := by
  unfold State.l2Merge
  split
  · rfl
  · dsimp only
    split <;> simp

/-! ### The L1 -/

@[simp] theorem State.setL1_seqs (s : State) (c l ctx : Nat) (x : CLine) : (s.setL1 c l ctx x).seqs = s.seqs := rfl

@[simp] theorem State.evictL1_seqs (s : State) (c key : Nat) : (s.evictL1 c key).seqs = s.seqs := by
  unfold State.evictL1
  split
  · rfl
  · simp

@[simp] theorem State.roomL1_seqs (s : State) (c l ctx : Nat) : (s.roomL1 c l ctx).seqs = s.seqs := by
  unfold State.roomL1
  dsimp only
  split
  · rfl
  · split
    · rfl
    · exact State.evictL1_seqs ..

@[simp] theorem State.l1Write_seqs (s : State) (c ctx pa n : Nat) (v : Word) : (s.l1Write c ctx pa n v).seqs = s.seqs := by
  unfold State.l1Write
  dsimp only
  split <;> simp

/-! ### What precedes a write -/

@[simp] theorem State.setDirty_seqs (s : State) (die ctx : Nat) (va : Word) (t : Tr) : (s.setDirty die ctx va t).seqs = s.seqs := by
  unfold State.setDirty
  split
  · rfl
  · simp

@[simp] theorem State.rekey_seqs (s : State) (l k : Nat) : (s.rekey l k).seqs = s.seqs := by
  unfold State.rekey
  split <;> rfl

@[simp] theorem State.useKey_seqs (s : State) (t : Tr) : (s.useKey t).seqs = s.seqs := by
  unfold State.useKey
  split
  · rfl
  · exact State.rekey_seqs ..

@[simp] theorem State.winTraffic_seqs (s : State) (ctx pa n : Nat) : (s.winTraffic ctx pa n).seqs = s.seqs := by
  unfold State.winTraffic
  split
  · rfl
  · simp

@[simp] theorem State.ncWrite_seqs (s : State) (pa : Nat) (bs : List Byte) : (s.ncWrite pa bs).seqs = s.seqs := by
  unfold State.ncWrite
  dsimp only
  repeat' split
  all_goals rfl

/-! ### Stores -/

@[simp] theorem State.oweLost_seqs (s : State) (ctx : Nat) (t : Trap) : (s.oweLost ctx t).seqs = s.seqs := by
  unfold State.oweLost
  split
  · exact (State.owe_frame ..).1
  · rfl

@[simp] theorem State.storePlain_seqs (s : State) (q : Nat) (e : Elem) : (s.storePlain q e).seqs = s.seqs := by
  have tr := s.translate_frame (dieOf q) (s.ctxOf q) (BitVec.ofNat 64 e.addr) { cls := pcMem, write := true }
  unfold State.storePlain
  dsimp only
  split
  · simp_all
  · split <;> simp_all

@[simp] theorem State.locWrite_seqs (s : State) (q : Nat) (cov : Bool) (loc : Loc) (n : Nat) (v : Word) :
    (s.locWrite q cov loc n v).seqs = s.seqs := by cases loc <;> rfl

@[simp] theorem State.storeLoc_seqs (s : State) (q : Nat) (cov : Bool) (e : Elem) : (s.storeLoc q cov e).seqs = s.seqs := by
  unfold State.storeLoc
  split
  · rfl
  · exact State.locWrite_seqs ..

/-- A store of slot C, plain or local, leaves every sequencer. -/
theorem State.writeE_seqs (s : State) (q : Nat) (plain cov : Bool) (d : Elem) : (s.writeE q plain false cov d).seqs = s.seqs := by
  cases plain
  · exact State.storeLoc_seqs ..
  · exact State.storePlain_seqs ..

end Sys2Proof.Machine
end

section
/-! PROOFS. vld and vst (O31, first part; spec/05 R126, R127): the active elements, and what the two instructions leave. -/

namespace Sys2Proof.Machine

/-! ### The active elements of an access -/

theorem CShape.size_cases (c : CShape) : c.size = 4 ∨ c.size = 2 ∨ c.size = 1 := by
  unfold CShape.size
  split <;> simp

theorem CShape.size_pos (c : CShape) : 0 < c.size := by rcases c.size_cases with h | h | h <;> rw [h] <;> decide

theorem CShape.size_mul_elements (c : CShape) : c.size * (128 / c.size) = 128 := by
  rcases c.size_cases with h | h | h <;> rw [h]

theorem CShape.getLsbD_actBytes (c : CShape) (p : BitVec 32) {b : Nat} (hb : b < 128) :
    (c.actBytes p).getLsbD b = laneOn p (8 * c.size) (b / c.size) := by
  have inside : b < c.size * (128 / c.size) := by rw [c.size_mul_elements]; exact hb
  rw [CShape.actBytes, BitVec.getLsbD_ofNat, decide_eq_true hb, Bool.true_and,
    testBit_packN_mask c.size_pos _ (laneOn p (8 * c.size)), decide_eq_true inside, Bool.true_and]

/-- The first byte of an element lies in the vector. -/
theorem CShape.element_in_vector (c : CShape) {e : Nat} (he : e < 128 / c.size) : e * c.size < 128 := by
  rw [← c.size_mul_elements, Nat.mul_comm]
  exact Nat.mul_lt_mul_of_pos_left he c.size_pos

/-- The elements that a predicate activates. -/
theorem CShape.active_actBytes (c : CShape) (a : Word) (p : BitVec 32) : c.active a (c.actBytes p) = Stmt.elements c a p := by
  unfold CShape.active Stmt.elements
  refine congrArg (List.map _) (List.filter_congr fun e he => ?_)
  rw [c.getLsbD_actBytes p (c.element_in_vector (List.mem_range.1 he)), Nat.mul_div_cancel _ c.size_pos]
  rfl

/-- The elements of a whole vector. -/
theorem CShape.active_allOnes (c : CShape) (a : Word) :
    c.active a (BitVec.allOnes 128) = Stmt.elements c a 0xFFFFFFFF#32 := by
  unfold CShape.active Stmt.elements
  refine congrArg (List.map _) (List.filter_congr fun e he => ?_)
  have byte := c.element_in_vector (List.mem_range.1 he)
  have lane : e * (8 * c.size) / 32 < 32 := by
    rw [Nat.mul_left_comm]
    omega
  rw [BitVec.getLsbD_allOnes, decide_eq_true byte, getLsbD_allLanes lane]

/-- The bits that a load sets are those of its active lanes. -/
theorem CShape.getLsbD_bytesMask_actBytes (c : CShape) (p : BitVec 32) {m : Nat} (hm : m < 1024) :
    (bytesMask (c.actBytes p)).getLsbD m = p.getLsbD (m / 32) := by
  rw [getLsbD_bytesMask _ hm, c.getLsbD_actBytes p (by omega), laneOn]
  congr 1
  rcases c.size_cases with h | h | h <;> rw [h] <;> omega

/-! ### vld -/

theorem flatMap_isEmpty {α β : Type} {l : List α} {f : α → List β} (h : ∀ a ∈ l, f a = []) : (l.flatMap f).isEmpty = true := by
  rw [List.flatMap_eq_nil_iff.2 h]
  rfl

/-- A local access waits for no region's end. -/
theorem noRegionWait {s : State} {plain : Bool} (h : plain = true ∨ s.regionWait = false) : (!plain && s.regionWait) = false := by
  rcases h with h | h <;> simp [h]

/-- The state in which vld has its vector under way. -/
def State.vldDone (s : State) (v : BitVec 5) (c : BitVec 2) (sw : BitVec 1) (n : Nat) (act : BitVec 1024) (k : Nat) : State :=
  ((s.setRegs (s.me.r.swapIf c sw)).await (.v v) (BitVec.ofNat 1024 n) act k).retire

theorem exec_vld_reads {s s1 : State} {g : BitVec 7} {b : BitVec 6} {c : BitVec 2} {sw : BitVec 1} {lp off : BitVec 7} {n : Nat}
    (hg : s.guardOn g = true) {sh : CShape} (hsh : s.me.r.useC c sw = sh) {es : List (Nat × Word)}
    (hes : Stmt.elements sh (s.eaBM b (off.signExtend 11) 128) (s.rp lp) = es)
    (hm : ∀ e ∈ es, s.meetEvents (!sh.plain) e.2.toNat sh.size = []) (hw : sh.plain = true ∨ s.regionWait = false)
    (hr : s.readElems s.cur.seq s.cur.bn s.curSync sh.plain false sh.size es 0 = .ok s1 n) (v : BitVec 5) :
    exec (.vld g v b c sw lp off) s = .next (s1.vldDone v c sw n (bytesMask (sh.actBytes (s.rp lp)))
      (if sh.plain then es.length else 0)) := by
  rw [exec_vld, execVld, slotOp_on hg]
  simp only [hsh, CShape.active_actBytes, hes, flatMap_isEmpty hm, noRegionWait hw, hr, Bool.not_true, Bool.false_eq_true,
    if_false]
  rfl

theorem State.me_vldDone (s : State) (v : BitVec 5) (c : BitVec 2) (sw : BitVec 1) (n : Nat) (act : BitVec 1024) (k : Nat) :
    ∃ id, (s.vldDone v c sw n act k).me = Seq.retire { s.me with
      r := s.me.r.swapIf c sw
      f := { s.me.f with outs := s.me.f.outs ++ [{ k := id, dst := .v v, v := BitVec.ofNat 1024 n, act := act, n := k }] } }
      s.cur.bn s.cur.slot 1 := by
  refine ⟨s.me.f.outs.foldl (fun m o => max m (o.k + 1)) 0, ?_⟩
  rw [State.vldDone, State.me_retire, State.await, State.me_setFlight, State.me_setRegs]
  rfl

theorem State.sameOthers_vldDone (s : State) (v : BitVec 5) (c : BitVec 2) (sw : BitVec 1) (n : Nat) (act : BitVec 1024) (k : Nat) :
    s.sameOthers (s.vldDone v c sw n act k) s.cur.seq :=
  (s.sameOthers_setMe _).trans ((State.sameOthers_setMe (s.setRegs _) _).trans (State.sameOthers_retire _))

/-! ### vst -/

/-- Checks that read the cursor for its sequencer, where none of them moves it. -/
theorem tryList_congr_cur {α : Type} {f g : State → α → Try Unit} (keep : ∀ t t1 a, f t a = .ok t1 () → t1.cur = t.cur)
    (l : List α) {s : State} {c : Cur} (hs : s.cur = c) (same : ∀ t a, t.cur = c → f t a = g t a) :
    tryList l s f = tryList l s g := by
  induction l generalizing s with
  | nil => rfl
  | cons a l ih =>
    rw [tryList, tryList, ← same s a hs]
    cases h : f s a with
    | ok s1 u => exact ih ((keep s s1 a h).trans hs)
    | trap s1 t => rfl
    | wait s1 evs => rfl

/-- The state in which vst has its entry in the store queue. -/
def State.vstDone (s : State) (c : BitVec 2) (sw : BitVec 1) (e : StoreEnt) : State :=
  let s1 := s.setRegs (s.me.r.swapIf c sw)
  (s1.setFlight { s1.me.f with storeC := s1.me.f.storeC ++ [e] }).retire

/-- The entry that vst appends. -/
def State.vstEntry (s : State) (v : BitVec 5) (bn : Nat) (sh : CShape) (es : List (Nat × Word)) : StoreEnt :=
  { bn := bn, act := if sh.plain then .plain (elemsToStore sh.size (s.rv v) es)
      else .loc (elemsToStore sh.size (s.rv v) es) (s.me.covers bn) }

theorem exec_vst_stores {s s1 : State} {g : BitVec 7} {b : BitVec 6} {c : BitVec 2} {sw : BitVec 1} {lp off : BitVec 7}
    (hg : s.guardOn g = true) {sh : CShape} (hsh : s.me.r.useC c sw = sh) {es : List (Nat × Word)}
    (hes : Stmt.elements sh (s.eaBM b (off.signExtend 11) 128) (s.rp lp) = es)
    (hc : tryList es s (fun s e => s.checkE s.cur.seq sh.plain false sh.size e.2) = .ok s1 ()) (hcur : s1.cur = s.cur)
    (hroom : s1.me.f.storeC.length < 16) (hm : ∀ e ∈ es, s1.streamMeets (!sh.plain) e.2.toNat sh.size = [])
    (hw : sh.plain = true ∨ s1.regionWait = false) (v : BitVec 5) :
    exec (.vst g v b c sw lp off) s = .next (s1.vstDone c sw (s1.vstEntry v s.cur.bn sh es)) := by
  have check : tryList es s (fun t e => t.checkE s.cur.seq sh.plain false sh.size e.2) = .ok s1 () := by
    rw [← hc]
    refine (tryList_congr_cur (fun t t1 e => State.checkE_cur) es rfl fun t e ht => ?_).symm
    rw [ht]
  rw [exec_vst, execVst, slotOp_on hg]
  simp only [hsh, CShape.active_actBytes, hes, check, Try.res, Nat.not_le.2 hroom, flatMap_isEmpty hm, noRegionWait hw,
    Bool.not_true, Bool.false_eq_true, if_false, hcur]
  rw [State.vstEntry, ← hcur]
  rfl

theorem State.me_vstDone (s : State) (c : BitVec 2) (sw : BitVec 1) (e : StoreEnt) : (s.vstDone c sw e).me =
    Seq.retire { s.me with r := s.me.r.swapIf c sw, f := { s.me.f with storeC := s.me.f.storeC ++ [e] } }
      s.cur.bn s.cur.slot 1 := by
  simp only [State.vstDone, State.me_retire, State.me_setFlight, State.me_setRegs]
  rfl

theorem State.sameOthers_vstDone (s : State) (c : BitVec 2) (sw : BitVec 1) (e : StoreEnt) :
    s.sameOthers (s.vstDone c sw e) s.cur.seq :=
  (s.sameOthers_setMe _).trans ((State.sameOthers_setMe (s.setRegs _) _).trans (State.sameOthers_retire _))

end Sys2Proof.Machine
end

section
/-! PROOFS. Binding, filling and draining of streams (O31, second part; spec/05 R129 to R132). -/

namespace Sys2Proof.Machine

/-! ### Unbinding -/

/-- A stream that has been unbound. -/
def Stream.unbound (x : Stream) : Stream := { x with bound := false, queue := [], fault := none }

/-- A stream that is not bound, is read, or has drained without a fault, can be let go: what stays bound of it is nothing. -/
theorem State.unbind_free {s : State} {n : BitVec 3}
    (h : (s.me.r.getQ n).bound = false ∨ (s.me.r.getQ n).pat.ctl.getLsbD 0 = false ∨
      ((s.me.r.getQ n).fault = none ∧ (s.me.r.getQ n).queue = [])) :
    ∃ s1 r, s.unbind n = .ok s1 () ∧ s.withRegs s1 r ∧ s.me.r.sameBut r [] [] [] [n] ∧ (r.getQ n).bound = false ∧
      ((s.me.r.getQ n).bound = false → r.getQ n = s.me.r.getQ n) := by
  cases bound : (s.me.r.getQ n).bound with
  | false =>
    refine ⟨s, s.me.r, ?_, s.withRegs_refl, Regs.sameBut_refl _ _ _ _ _, bound, fun _ => rfl⟩
    simp only [State.unbind, bound, Bool.not_false, if_true]
  | true =>
    refine ⟨s.setRegs (s.me.r.setQ n (s.me.r.getQ n).unbound), _, ?_, s.withRegs_setRegs _, s.me.r.sameBut_setQ n _,
      by rw [Regs.getQ_setQ, if_pos rfl]; rfl, fun h => by cases h⟩
    simp only [State.unbind, bound, Bool.not_true, Bool.false_eq_true, if_false]
    rcases h.resolve_left (by rw [bound]; decide) with dir | ⟨noFault, empty⟩
    · rw [show (s.me.r.getQ n).pat.dirW = false from dir]
      rfl
    · simp only [noFault, empty, List.isEmpty_nil, if_true]
      split <;> rfl

theorem State.unbind_waits {s : State} {n : BitVec 3} {v : SVec} {vs : List SVec} (bound : (s.me.r.getQ n).bound = true)
    (dir : (s.me.r.getQ n).pat.ctl.getLsbD 0 = true) (noFault : (s.me.r.getQ n).fault = none)
    (queue : (s.me.r.getQ n).queue = v :: vs) : s.unbind n = .wait s [.streamDrain s.cur.seq n.toNat] := by
  have dirW : (s.me.r.getQ n).pat.dirW = true := dir
  simp [State.unbind, bound, dirW, noFault, queue]

/-- stu of a stream that can be let go. -/
theorem stu_unbinds {s : State} {g : BitVec 7} {n : BitVec 3} (hg : s.guardOn g = true)
    (h : (s.me.r.getQ n).bound = false ∨ (s.me.r.getQ n).pat.ctl.getLsbD 0 = false ∨
      ((s.me.r.getQ n).fault = none ∧ (s.me.r.getQ n).queue = [])) :
    ∃ t, exec (.stu g n) s = .next t ∧ s.onlyRegs t [] [] [] [n] ∧ (t.me.r.getQ n).bound = false ∧
      ((s.me.r.getQ n).bound = false → t.me.r.getQ n = s.me.r.getQ n) := by
  obtain ⟨s1, r, unbind, regs, frame, bound, same⟩ := State.unbind_free h
  have me : s1.retire.me.r = r := by rw [State.me_retire, Seq.retire_r, regs.me]
  refine ⟨s1.retire, ?_, regs.onlyRegs frame, by rw [me]; exact bound, by rw [me]; exact same⟩
  rw [exec_stu, execStu, slotOp_on hg, unbind]
  rfl

/-- stu of a write stream with vectors pending waits for its drain. -/
theorem stu_waits {s : State} {g : BitVec 7} {n : BitVec 3} {v : SVec} {vs : List SVec} (hg : s.guardOn g = true)
    (bound : (s.me.r.getQ n).bound = true) (dir : (s.me.r.getQ n).pat.ctl.getLsbD 0 = true)
    (noFault : (s.me.r.getQ n).fault = none) (queue : (s.me.r.getQ n).queue = v :: vs) :
    exec (.stu g n) s = .next (s.stallOn [.streamDrain s.cur.seq n.toNat]) := by
  rw [exec_stu, execStu, slotOp_on hg, State.unbind_waits bound dir noFault queue]
  rfl

theorem State.sameModule_stallOn (s : State) (evs : List Instr) : s.sameModule (s.stallOn evs) :=
  State.sameModule_of rfl rfl rfl rfl rfl rfl rfl rfl rfl rfl rfl rfl rfl rfl

/-! ### Binding -/

/-- The stream that stb binds. -/
def boundStream (sh : CShape) (base : Word) : Stream := { bound := true, pat := sh, base := base }

/-- The registers after stb. -/
def Regs.bind (r : Regs) (n : BitVec 3) (c : BitVec 2) (sw : BitVec 1) (x : Stream) : Regs := (r.swapIf c sw).setQ n x

theorem Regs.getC_swapIf (r : Regs) (c : BitVec 2) (sw : BitVec 1) :
    (r.swapIf c sw).getC c = if sw = 1#1 then r.getCsh c else r.getC c := by
  unfold Regs.swapIf
  split
  · exact Tab.getD_put_same ..
  · rfl

theorem Regs.getCsh_swapIf (r : Regs) (c : BitVec 2) (sw : BitVec 1) :
    (r.swapIf c sw).getCsh c = if sw = 1#1 then r.getC c else r.getCsh c := by
  unfold Regs.swapIf
  split
  · exact Tab.getD_put_same ..
  · rfl

theorem Regs.getQ_swapIf (r : Regs) (c : BitVec 2) (sw : BitVec 1) (m : BitVec 3) : (r.swapIf c sw).getQ m = r.getQ m := by
  unfold Regs.swapIf
  split <;> rfl

theorem Regs.getS_swapIf (r : Regs) (c : BitVec 2) (sw : BitVec 1) (m : BitVec 6) : (r.swapIf c sw).getS m = r.getS m := by
  unfold Regs.swapIf
  split <;> rfl

theorem Regs.getV_swapIf (r : Regs) (c : BitVec 2) (sw : BitVec 1) (m : BitVec 5) : (r.swapIf c sw).getV m = r.getV m := by
  unfold Regs.swapIf
  split <;> rfl

/-- The registers after stb, one by one, where letting the stream go touched that stream alone. -/
theorem Regs.bind_reads {r0 r : Regs} {n : BitVec 3} (h : r0.sameBut r [] [] [] [n]) (c : BitVec 2) (sw : BitVec 1) (x : Stream) :
    (r.bind n c sw x).getQ n = x ∧ (∀ m, m ≠ n → (r.bind n c sw x).getQ m = r0.getQ m) ∧
    (∀ m, (r.bind n c sw x).getS m = r0.getS m) ∧ (∀ m, (r.bind n c sw x).getV m = r0.getV m) ∧
    (r.bind n c sw x).getC c = (if sw = 1#1 then r0.getCsh c else r0.getC c) ∧
    (r.bind n c sw x).getCsh c = if sw = 1#1 then r0.getC c else r0.getCsh c := by
  refine ⟨?_, fun m hm => ?_, fun m => ?_, fun m => ?_, ?_, ?_⟩
  · rw [Regs.bind, Regs.getQ_setQ, if_pos rfl]
  · rw [Regs.bind, Regs.getQ_setQ, if_neg hm, Regs.getQ_swapIf, h.stream m (by simpa using hm)]
  · exact (Regs.getS_swapIf r c sw m).trans (h.scalar m List.not_mem_nil)
  · exact (Regs.getV_swapIf r c sw m).trans (h.vector m List.not_mem_nil)
  · exact (Regs.getC_swapIf r c sw).trans (by rw [h.shapeC, h.shadowC])
  · exact (Regs.getCsh_swapIf r c sw).trans (by rw [h.shapeC, h.shadowC])

/-- stb of a stream that can be let go, with nothing to wait for, binds it. -/
theorem stb_binds {s : State} {g : BitVec 7} {n : BitVec 3} (b : BitVec 6) {c : BitVec 2} {sw : BitVec 1} (hg : s.guardOn g = true)
    (free : (s.me.r.getQ n).bound = false ∨ (s.me.r.getQ n).pat.ctl.getLsbD 0 = false ∨
      ((s.me.r.getQ n).fault = none ∧ (s.me.r.getQ n).queue = [])) {sh : CShape} (hsh : s.me.r.useC c sw = sh)
    (hw : sh.dirW = true ∨ (s.me.f.storeC = [] ∧ (sh.plain = true ∨ s.regionWait = false))) :
    ∃ t r, exec (.stb g n b c sw) s = .next t ∧ s.sameOthers t s.cur.seq ∧ s.sameModule t ∧ s.me.r.sameBut r [] [] [] [n] ∧
      t.me.r = r.bind n c sw (boundStream sh (s.rs b)) := by
  have noStore : (!sh.dirW && !s.me.f.storeC.isEmpty) = false := by
    rcases hw with h | ⟨h, -⟩ <;> simp [h]
  have noEnd : (!sh.dirW && !sh.plain && s.regionWait) = false := by
    rcases hw with h | ⟨-, h | h⟩ <;> simp [h]
  obtain ⟨s1, r, unbind, regs, frame, -, -⟩ := State.unbind_free free
  have me : s1.me.r = r := congrArg Seq.r regs.me
  have set := regs.trans (s1.withRegs_setRegs (r.bind n c sw (boundStream sh (s.rs b))))
  obtain ⟨s2, next, bind⟩ : ∃ s2, exec (.stb g n b c sw) s = .next s2.retire ∧
      s.withRegs s2 (r.bind n c sw (boundStream sh (s.rs b))) := by
    refine ⟨if sh.nostall && !sh.dirW then
        { s1.setRegs (r.bind n c sw (boundStream sh (s.rs b))) with agenda := s1.agenda ++ [.streamFill s.cur.seq n.toNat] }
      else s1.setRegs (r.bind n c sw (boundStream sh (s.rs b))), ?_, ?_⟩
    · rw [exec_stb, execStb, slotOp_on hg, unbind]
      simp only [Try.res, hsh, noStore, noEnd, Bool.false_eq_true, if_false, me]
      rfl
    · split
      · exact State.withRegs_agenda set _
      · exact set
  refine ⟨s2.retire, r, next, fun p hp => ?_, State.sameModule_trans bind.module s2.sameModule_retire, frame, ?_⟩
  · exact (State.seq_retire_other s2 (by rw [bind.cur]; exact hp)).trans (bind.others p hp)
  · rw [State.me_retire, Seq.retire_r, bind.me]

/-! ### The stream of another sequencer's registers -/

theorem ofNat_toNat_stream (n : BitVec 3) : BitVec.ofNat 3 n.toNat = n := by simp

theorem State.seq_setStream (s : State) (q : Nat) (n : BitVec 3) (x : Stream) :
    (s.setStream q n.toNat x).seq q = { s.seq q with r := (s.seq q).r.setQ n x } := State.seq_setSeq_same s q _

theorem State.getQ_setStream (s : State) (q : Nat) (n : BitVec 3) (x : Stream) :
    ((s.setStream q n.toNat x).seq q).r.getQ n = x := by
  rw [State.seq_setStream, Regs.getQ_setQ, if_pos rfl]

theorem State.sameOthers_setStream (s : State) (q : Nat) (n : BitVec 3) (x : Stream) : s.sameOthers (s.setStream q n.toNat x) q :=
  fun _ hp => State.seq_setSeq_other s _ hp

/-! ### STREAM_FILL -/

/-- What a fill does with its read: the vector is appended, the read waits, or its fault is latched. -/
def afterFill (q : Nat) (n : BitVec 3) (x : Stream) (es : List (Nat × Word)) : Try Nat → Result
  | .ok s1 v => .next (s1.setStream q n.toNat { x with pos := x.pos + 1, queue := x.queue ++ [{
      v := BitVec.ofNat 1024 v, act := BitVec.allOnes 128
      live := BitVec.ofNat 1024 (s1.liveView q x.pat.plain x.pat.size es v) }] })
  | .wait s1 evs => .next (s1.stallOn evs)
  | .trap s1 t => if t.filling then .next (s1.stallOn []) else .next (s1.setStream q n.toNat { x with fault := some t })

/-- A fill that may go on reads the elements of its next step. -/
theorem exec_streamFill_reads {s : State} {q : Nat} {n : BitVec 3} {x : Stream} (hx : (s.seq q).r.getQ n = x)
    {es : List (Nat × Word)} (hes : Stmt.elements x.pat (x.pat.stepAddr x.base x.pos) 0xFFFFFFFF#32 = es)
    (bound : x.bound = true) (dir : x.pat.dirW = false) (noFault : x.fault = none) (left : x.pos < x.pat.steps)
    (room : x.queue.length < 8) (coreRoom : x.pat.plain = false ∨ s.hasRoom q es.length = true) :
    exec (.streamFill q n.toNat) s =
      afterFill q n x es (s.readElems q (s.seq q).fillBn false x.pat.plain false x.pat.size es 0) := by
  have goesOn : (!x.bound || x.pat.dirW || x.fault.isSome || decide (x.pat.steps ≤ x.pos) || decide (8 ≤ x.queue.length)) = false := by
    simp [bound, dir, noFault, left, room]
  have enters : (x.pat.plain && !s.hasRoom q es.length) = false := by
    rcases coreRoom with h | h <;> simp [h]
  rw [exec_streamFill, execStreamFill]
  simp only [ofNat_toNat_stream, hx, CShape.active_allOnes, hes, goesOn, enters, Bool.false_eq_true, if_false]
  cases s.readElems q (s.seq q).fillBn false x.pat.plain false x.pat.size es 0 <;> rfl

/-! ### STREAM_DRAIN -/

theorem Tab.get?_mapv {α β : Type} (t : Tab α) (f : Nat → α → β) (n : Nat) :
    Tab.get? (Tab.mapv t f) n = (Tab.get? t n).map (f n) := by
  induction t with
  | nil => rfl
  | cons e t ih =>
    obtain ⟨k, v⟩ := e
    rw [Tab.mapv, List.map_cons, Tab.get?, Tab.get?]
    split
    · next h => rw [h]; rfl
    · exact ih

/-- What mm.wb and mm.rd refresh is no write stream. -/
theorem State.getQ_refresh {s : State} {q : Nat} {n : BitVec 3} (h : ((s.seq q).r.getQ n).pat.dirW = true) :
    ((s.refresh q).seq q).r.getQ n = (s.seq q).r.getQ n := by
  unfold State.refresh
  dsimp only
  rw [State.seq_setSeq_same]
  unfold Regs.getQ Tab.getD at h ⊢
  rw [Tab.get?_mapv]
  cases found : Tab.get? (s.seq q).r.q n.toNat with
  | none => rfl
  | some x =>
    rw [found] at h
    have notRead : (x.bound && !x.pat.dirW) = false := by
      rw [show x.pat.dirW = true from h]
      exact Bool.and_false _
    simp only [Option.map_some, Option.getD_some, notRead, Bool.false_eq_true, if_false]

/-- The state after a vector has been stored and taken out of its queue. -/
def State.drained (s : State) (q : Nat) (n : BitVec 3) (x : Stream) (v : SVec) (vs : List SVec) (es : List (Nat × Word)) : State :=
  let s2 := (elemsToStore x.pat.size v.v es).foldl (fun s d => s.writeE q x.pat.plain v.mxs v.cov d) s
  let s3 := s2.setStream q n.toNat { x with pos := x.pos + 1, queue := vs }
  if v.mxs then s3.refresh q else s3

/-- What a drain does with the check of its vector: the vector is stored, the check waits, or its fault is latched. -/
def afterCheck (q : Nat) (n : BitVec 3) (x : Stream) (v : SVec) (vs : List SVec) (es : List (Nat × Word)) : Try Unit → Result
  | .ok s1 _ => .next (s1.drained q n x v vs es)
  | .wait s1 evs => .next (s1.stallOn evs)
  | .trap s1 t => .next (s1.setStream q n.toNat { x with fault := some t })

/-- A drain whose vector meets no earlier access checks its elements, then stores them or latches the fault. -/
theorem exec_streamDrain_checks {s : State} {q : Nat} {n : BitVec 3} {x : Stream} (hx : (s.seq q).r.getQ n = x) {v : SVec}
    {vs : List SVec} {es : List (Nat × Word)} (hes : x.pat.active (x.pat.stepAddr x.base x.pos) v.act = es)
    (bound : x.bound = true) (dir : x.pat.dirW = true) (noFault : x.fault = none) (queue : x.queue = v :: vs)
    (freeB : ∀ d ∈ (s.seq q).f.storeB, ∀ e ∈ es, s.entMeets q d (!x.pat.plain) e.2.toNat x.pat.size = false)
    (freeC : ∀ d ∈ (s.seq q).f.storeC, ∀ e ∈ es, s.entMeets q d (!x.pat.plain) e.2.toNat x.pat.size = false)
    (plain : x.pat.plain = false ∨ (s.hasRoom q es.length = true ∧
      ∀ e ∈ es, s.atMeets q (s.seq q).c.bn e.2.toNat x.pat.size = false)) :
    exec (.streamDrain q n.toNat) s =
      afterCheck q n x v vs es (tryList es s fun s e => s.checkE q x.pat.plain v.mxs x.pat.size e.2) := by
  have goesOn : (!x.bound || !x.pat.dirW || x.fault.isSome) = false := by simp [bound, dir, noFault]
  have meets : ∀ l : List StoreEnt, (∀ d ∈ l, ∀ e ∈ es, s.entMeets q d (!x.pat.plain) e.2.toNat x.pat.size = false) →
      (l.any fun d => es.any fun e => s.entMeets q d (!x.pat.plain) e.2.toNat x.pat.size) = false := fun l h =>
    List.any_eq_false.2 fun d hd => Bool.not_eq_true _ ▸ List.any_eq_false.2 fun e he => Bool.not_eq_true _ ▸ h d hd e he
  have after : (x.pat.plain && es.any fun e => s.atMeets q (s.seq q).c.bn e.2.toNat x.pat.size) = false := by
    rcases plain with h | ⟨-, h⟩
    · rw [h, Bool.false_and]
    · rw [List.any_eq_false.2 fun e he => Bool.not_eq_true _ ▸ h e he, Bool.and_false]
  have enters : (x.pat.plain && !s.hasRoom q es.length) = false := by
    rcases plain with h | ⟨h, -⟩ <;> simp [h]
  rw [exec_streamDrain, execStreamDrain]
  simp only [ofNat_toNat_stream, hx, queue, hes, goesOn, meets _ freeB, meets _ freeC, after, enters, Bool.false_eq_true, if_false,
    List.append_nil, List.isEmpty_nil, Bool.not_true]
  cases tryList es s fun s e => s.checkE q x.pat.plain v.mxs x.pat.size e.2 with
  | ok s1 u => rfl
  | wait s1 evs => rfl
  | trap s1 t =>
    rw [← queue]
    rfl

theorem State.getQ_drained (s : State) (q : Nat) (n : BitVec 3) {x : Stream} (dir : x.pat.dirW = true) (v : SVec) (vs : List SVec)
    (es : List (Nat × Word)) :
    ((s.drained q n x v vs es).seq q).r.getQ n = { x with pos := x.pos + 1, queue := vs } := by
  unfold State.drained
  dsimp only
  split
  · rw [State.getQ_refresh (by rw [State.getQ_setStream]; exact dir), State.getQ_setStream]
  · exact State.getQ_setStream ..

theorem State.f_drained (s : State) (q : Nat) (n : BitVec 3) (x : Stream) {v : SVec} (hv : v.mxs = false) (vs : List SVec)
    (es : List (Nat × Word)) : ((s.drained q n x v vs es).seq q).f = (s.seq q).f := by
  have stores := State.foldl_seqs (fun s d => s.writeE_seqs q x.pat.plain v.cov d) (elemsToStore x.pat.size v.v es) s
  unfold State.drained
  dsimp only
  rw [hv, if_neg Bool.false_ne_true, State.seq_setStream]
  exact congrArg (fun t => (Tab.getD t q ({} : Seq)).f) stores

theorem State.mem_drained (s : State) (q : Nat) (n : BitVec 3) (x : Stream) (v : SVec) (vs : List SVec) (es : List (Nat × Word)) :
    (s.drained q n x v vs es).mem =
      ((elemsToStore x.pat.size v.v es).foldl (fun s d => s.writeE q x.pat.plain v.mxs v.cov d) s).mem := by
  unfold State.drained
  dsimp only
  split
  · exact State.refresh_mem ..
  · rfl

/-- Settles O31: each access and each event of a stream goes the one way that its premises leave open, and the frame of that way is
read off. -/
theorem vectorAccessesAndStreams : Obligations.VectorAccessesAndStreams := by
  refine ⟨?_, ?_, ?_, ?_, ?_⟩
  · intro s s1 g v b c sw lp off n hg sh es hm hw hr
    obtain ⟨id, me⟩ := s1.me_vldDone v c sw n (bytesMask (sh.actBytes (s.rp lp))) (if sh.plain then es.length else 0)
    refine ⟨_, id, bytesMask (sh.actBytes (s.rp lp)), exec_vld_reads hg (sh := sh) rfl (es := es) rfl hm hw hr v,
      rfl, rfl, by rw [me]; rfl, s1.sameOthers_vldDone v c sw n _ _, by rw [me]; rfl, fun m hm => sh.getLsbD_bytesMask_actBytes _ hm⟩
  · intro s s1 g v b c sw lp off hg sh es hc hcur hroom hm hw value ds
    have me := s1.me_vstDone c sw (s1.vstEntry v s.cur.bn sh es)
    refine ⟨_, (s1.vstEntry v s.cur.bn sh es).act, exec_vst_stores hg (sh := sh) rfl (es := es) rfl hc hcur hroom
      hm hw v, rfl, rfl, rfl, by rw [me]; rfl, s1.sameOthers_vstDone c sw _, by rw [me]; rfl, fun h => if_pos h, fun h => if_neg ?_⟩
    rw [show sh.plain = false from h]
    decide
  · intro s g n b c sw hg x
    refine ⟨fun free => ⟨?_, stu_unbinds hg free⟩, fun v vs bound dir noFault queue =>
      ⟨_, stu_waits hg bound dir noFault queue, rfl, s.sameModule_stallOn _, rfl⟩⟩
    intro sh hw
    obtain ⟨t, r, next, others, module, frame, me⟩ := stb_binds b hg free (sh := sh) rfl hw
    have reads := Regs.bind_reads frame c sw (boundStream sh (s.rs b))
    rw [← me] at reads
    exact ⟨t, next, others, module, reads⟩
  · intro s s1 q n v tr x es read bound dir noFault left room coreRoom
    have fill : exec (.streamFill q n.toNat) s = afterFill q n x es read :=
      exec_streamFill_reads rfl rfl bound dir noFault left room coreRoom
    refine ⟨fun hr => ⟨_, fill.trans (congrArg _ hr), State.getQ_setStream .., ?_, rfl, s1.sameOthers_setStream q n _⟩,
      fun hr notFilling => ⟨s1.setStream q n.toNat { x with fault := some tr }, fill.trans ?_, State.getQ_setStream .., rfl⟩⟩
    · rw [State.seq_setStream]
      exact Regs.sameBut_setQ _ n _
    · rw [hr, afterFill, notFilling, if_neg Bool.false_ne_true]
  · intro s s1 q n v vs tr x es check free bound dir noFault queue freeB freeC plain
    have drain : exec (.streamDrain q n.toNat) s = afterCheck q n x v vs es check :=
      exec_streamDrain_checks rfl rfl bound dir noFault queue freeB freeC plain
    exact ⟨fun hc => ⟨_, drain.trans (congrArg _ hc), s1.getQ_drained q n dir v vs es,
      fun hv => s1.f_drained q n x hv vs es, s1.mem_drained q n x v vs es⟩,
      fun hc => ⟨_, drain.trans (congrArg _ hc), State.getQ_setStream .., rfl⟩⟩

end Sys2Proof.Machine
end

section
/-! PROOFS. Tiles (spec/06 R143, R147): elements and status words, regions, and what a tile write leaves. -/

namespace Sys2Proof.Machine

/-! ### Elements and status words -/

theorem CoreSt.elem_setElem (c : CoreSt) (e n : Nat) (v : BitVec 32) :
    (c.setElem e v).elem n = if n = e then v else c.elem n := by
  unfold CoreSt.setElem CoreSt.elem
  by_cases hv : v = 0#32
  · rw [if_pos hv, Tab.getD_erase, hv]
  · rw [if_neg hv, Tab.getD_put]

theorem CoreSt.stat_setStat (c : CoreSt) (t n : Nat) (b : BitVec 4) :
    (c.setStat t b).stat n = if n = t then b else c.stat n := by
  unfold CoreSt.setStat CoreSt.stat
  by_cases hb : b = 0#4
  · rw [if_pos hb, Tab.getD_erase, hb]
  · rw [if_neg hb, Tab.getD_put]

/-! ### Grids: lists in row order -/

/-- The values of m rows of w columns, in row order. -/
def grid {α : Type} (m w : Nat) (f : Nat → Nat → α) : List α := (List.range m).flatMap fun i => (List.range w).map (f i)

theorem grid_succ {α : Type} (m w : Nat) (f : Nat → Nat → α) :
    grid (m + 1) w f = (List.range w).map (f 0) ++ grid m w fun i => f (i + 1) := by
  rw [grid, List.range_succ_eq_map, List.flatMap_cons, List.flatMap_map]
  rfl

@[simp] theorem length_grid {α : Type} (m w : Nat) (f : Nat → Nat → α) : (grid m w f).length = m * w := by
  simp [grid]

theorem map_grid {α β : Type} (g : α → β) (m w : Nat) (f : Nat → Nat → α) :
    (grid m w f).map g = grid m w fun i j => g (f i j) := by
  simp [grid, List.map_flatMap, Function.comp_def]

theorem getD_grid {α : Type} (d : α) {m w i j : Nat} (f : Nat → Nat → α) (hi : i < m) (hj : j < w) :
    (grid m w f).getD (i * w + j) d = f i j := by
  induction m generalizing f i with
  | zero => omega
  | succ m ih =>
    rw [grid_succ]
    cases i with
    | zero => rw [Nat.zero_mul, Nat.zero_add, List.getD_append _ _ _ _ (by simpa using hj)]; simp [List.getD, hj]
    | succ i =>
      rw [List.getD_append_right _ _ _ _ (by simp [Nat.succ_mul]; omega), List.length_map, List.length_range, Nat.succ_mul,
        show i * w + w + j - w = i * w + j by omega, ih _ (by omega)]

/-! ### Regions -/

/-- The element that the n-th value of a region goes to. -/
def regionAt (tile row0 col0 cols n : Nat) : Nat := elemAt tile (row0 + n / cols) (col0 + n % cols)

theorem regionAt_cell (tile row0 col0 i : Nat) {cols j : Nat} (hj : j < cols) :
    regionAt tile row0 col0 cols (i * cols + j) = tile * 1024 + (row0 + i) * 32 + (col0 + j) := by
  rw [regionAt, Nat.mul_comm i cols, Nat.mul_add_div (by omega), Nat.mul_add_mod, Nat.div_eq_of_lt hj, Nat.mod_eq_of_lt hj, Nat.add_zero]
  rfl

/-- Rows of a tile do not overlap. -/
theorem regionAt_inj {tile row0 col0 cols n m : Nat} (hc : 0 < cols) (hw : col0 + cols ≤ 32)
    (e : regionAt tile row0 col0 cols n = regionAt tile row0 col0 cols m) : n = m := by
  have hn := Nat.mod_lt n hc
  have hm := Nat.mod_lt m hc
  unfold regionAt elemAt at e
  have rows : n / cols = m / cols := by omega
  rw [← Nat.div_add_mod n cols, ← Nat.div_add_mod m cols, rows]
  omega

/-- Elements set one after another, the first at place k. -/
def CoreSt.setFrom (c : CoreSt) (at_ : Nat → Nat) (k : Nat) (vs : List (BitVec 32)) : CoreSt :=
  (vs.zipIdx k).foldl (fun c e => c.setElem (at_ e.2) e.1) c

theorem CoreSt.setFrom_cons (c : CoreSt) (at_ : Nat → Nat) (k : Nat) (v : BitVec 32) (vs : List (BitVec 32)) :
    c.setFrom at_ k (v :: vs) = (c.setElem (at_ k) v).setFrom at_ (k + 1) vs := rfl

theorem CoreSt.setRegion_eq_setFrom (c : CoreSt) (tile row0 col0 cols : Nat) (vs : List (BitVec 32)) :
    c.setRegion tile row0 col0 cols vs = c.setFrom (regionAt tile row0 col0 cols) 0 vs := rfl

/-- Only the elements of the accumulator store change. -/
theorem CoreSt.setFrom_frame (c : CoreSt) (at_ : Nat → Nat) (k : Nat) (vs : List (BitVec 32)) :
    c.setFrom at_ k vs = { c with acc := (c.setFrom at_ k vs).acc } := by
  induction vs generalizing c k with
  | nil => rfl
  | cons v vs ih => rw [CoreSt.setFrom_cons, ih]; rfl

theorem CoreSt.elem_setFrom_outside (c : CoreSt) (at_ : Nat → Nat) (k : Nat) (vs : List (BitVec 32)) {m : Nat}
    (h : ∀ n, n < vs.length → m ≠ at_ (k + n)) : (c.setFrom at_ k vs).elem m = c.elem m := by
  induction vs generalizing c k with
  | nil => rfl
  | cons v vs ih =>
    have rest : ∀ n, n < vs.length → m ≠ at_ (k + 1 + n) := fun n hn => by
      rw [Nat.add_assoc, Nat.add_comm 1 n]
      exact h (n + 1) (by simpa using hn)
    rw [CoreSt.setFrom_cons, ih _ _ rest, CoreSt.elem_setElem]
    exact if_neg (h 0 (Nat.succ_pos _))

theorem CoreSt.elem_setFrom_inside (c : CoreSt) {at_ : Nat → Nat} (inj : Function.Injective at_) (k : Nat)
    (vs : List (BitVec 32)) {n : Nat} (hn : n < vs.length) : (c.setFrom at_ k vs).elem (at_ (k + n)) = vs[n] := by
  induction vs generalizing c k n with
  | nil => simp at hn
  | cons v vs ih =>
    rw [CoreSt.setFrom_cons]
    cases n with
    | zero =>
      rw [CoreSt.elem_setFrom_outside _ _ _ _ fun n _ e => by have := inj e; omega, CoreSt.elem_setElem]
      simp
    | succ n =>
      rw [show k + (n + 1) = k + 1 + n by omega, ih _ _ (by simpa using hn)]
      rfl

theorem CoreSt.setRegion_frame (c : CoreSt) (tile row0 col0 cols : Nat) (vs : List (BitVec 32)) :
    c.setRegion tile row0 col0 cols vs = { c with acc := (c.setRegion tile row0 col0 cols vs).acc } := by
  rw [CoreSt.setRegion_eq_setFrom]
  exact c.setFrom_frame _ 0 vs

theorem CoreSt.elem_setRegion_outside (c : CoreSt) (tile row0 col0 cols : Nat) (vs : List (BitVec 32)) {m : Nat}
    (h : ∀ n, n < vs.length → m ≠ regionAt tile row0 col0 cols n) : (c.setRegion tile row0 col0 cols vs).elem m = c.elem m := by
  rw [CoreSt.setRegion_eq_setFrom]
  exact c.elem_setFrom_outside _ 0 vs fun n hn => by rw [Nat.zero_add]; exact h n hn

theorem CoreSt.elem_setRegion_inside (c : CoreSt) (tile row0 : Nat) {col0 cols : Nat} (hc : 0 < cols) (hw : col0 + cols ≤ 32)
    (vs : List (BitVec 32)) {n : Nat} (hn : n < vs.length) :
    (c.setRegion tile row0 col0 cols vs).elem (regionAt tile row0 col0 cols n) = vs[n] := by
  have := c.elem_setFrom_inside (fun _ _ => regionAt_inj (tile := tile) (row0 := row0) hc hw) 0 vs hn
  rwa [Nat.zero_add] at this

/-! ### A tile write -/

/-- Sequencers and parts of the module that a tile write of the running sequencer leaves alone, with its registers and control. -/
theorem State.writeTile_frame (s : State) (tile : Nat) (st : BitVec 4) (row0 rows col0 cols occ lat : Nat)
    (vals : List (List (BitVec 32))) :
    let t := s.writeTile tile st row0 rows col0 cols occ lat vals
    t.me.r = s.me.r ∧ t.me.c = s.me.c ∧ t.cur = s.cur ∧ s.sameOthers t s.cur.seq := by
  intro t
  have me : t.me = { s.me with f := t.me.f } := by rw [show t.me = _ from State.me_setFlight _ _]; rfl
  exact ⟨by rw [me], by rw [me], rfl, State.sameOthers_setMe (s.setCore _ _) _⟩

theorem State.core_writeTile (s : State) (tile : Nat) (st : BitVec 4) (row0 rows col0 cols occ lat : Nat)
    (vals : List (List (BitVec 32))) (d : Nat) : (s.writeTile tile st row0 rows col0 cols occ lat vals).core d =
      if d = coreOf s.cur.seq then
        ((s.core d).setRegion tile row0 col0 cols (vals.map fun l => l.getLastD 0#32)).setStat tile st
      else s.core d := by
  refine (State.core_setCore s (coreOf s.cur.seq) d _).trans ?_
  by_cases h : d = coreOf s.cur.seq
  · rw [if_pos h, if_pos h, h]
  · rw [if_neg h, if_neg h]

theorem State.stat_writeTile (s : State) (tile : Nat) (st : BitVec 4) (row0 rows col0 cols occ lat : Nat)
    (vals : List (List (BitVec 32))) :
    ((s.writeTile tile st row0 rows col0 cols occ lat vals).core (coreOf s.cur.seq)).stat tile = st := by
  rw [State.core_writeTile, if_pos rfl, CoreSt.stat_setStat, if_pos rfl]

/-- A tile write gives each element of its region the last of its values, and no other element another. -/
theorem State.tileWritten_writeTile (s : State) (tile : BitVec 9) (st : BitVec 4) (row0 m occ lat : Nat) {col0 w : Nat}
    (hc : 0 < w) (hw : col0 + w ≤ 32) (f : Nat → Nat → List (BitVec 32)) :
    Stmt.tileWritten s (s.writeTile tile.toNat st row0 m col0 w occ lat (grid m w f)) (coreOf s.cur.seq) tile row0 m col0 w
      fun i j => (f i j).getLastD 0#32 := by
  have own := s.core_writeTile tile.toNat st row0 m col0 w occ lat (grid m w f) (coreOf s.cur.seq)
  rw [if_pos rfl, map_grid] at own
  refine ⟨fun i j hi hj => ?_, fun n hn => ?_, fun n hn => ?_, ?_, ?_, fun d hd => ?_, rfl, rfl⟩
  · have lt : i * w + j < (grid m w fun i j => (f i j).getLastD 0#32).length := by
      rw [length_grid]
      calc i * w + j < i * w + w := by omega
        _ = (i + 1) * w := (Nat.succ_mul i w).symm
        _ ≤ m * w := Nat.mul_le_mul_right w hi
    rw [Stmt.tileAt, own, ← regionAt_cell _ _ _ _ hj]
    exact (CoreSt.elem_setRegion_inside _ _ _ hc hw _ lt).trans
      ((List.getD_eq_getElem _ 0#32 lt).symm.trans (getD_grid _ _ hi hj))
  · rw [own]
    refine CoreSt.elem_setRegion_outside _ _ _ _ _ _ fun k hk => hn (k / w) (k % w) ?_ (Nat.mod_lt k hc)
    rw [length_grid] at hk
    exact Nat.div_lt_of_lt_mul (by rwa [Nat.mul_comm])
  · rw [own, CoreSt.stat_setStat, if_neg hn, CoreSt.setRegion_frame]
    rfl
  · rw [own, CoreSt.setRegion_frame]
    rfl
  · rw [own, CoreSt.setRegion_frame]
    rfl
  · rw [State.core_writeTile, if_neg hd]

theorem State.tileWritten_of_sameModule {s s' t t' : State} {core : Nat} {tile : BitVec 9} {row0 m col0 w : Nat}
    {v : Nat → Nat → BitVec 32} (hs : s.sameModule s') (ht : t.sameModule t') (h : Stmt.tileWritten s' t core tile row0 m col0 w v) :
    Stmt.tileWritten s t' core tile row0 m col0 w v := by
  have cs : ∀ d, s'.core d = s.core d := fun d => by rw [State.core, hs.cores]; rfl
  have ct : ∀ d, t'.core d = t.core d := fun d => by rw [State.core, ht.cores]; rfl
  refine ⟨?_, ?_, ?_, ?_, ?_, ?_, ht.mem.trans (h.mem.trans hs.mem), ht.clusters.trans (h.clusters.trans hs.clusters)⟩
  all_goals simp only [← cs, Stmt.tileAt, ct]
  · exact h.inside
  · exact h.outside
  · exact h.stats
  · exact h.spad
  · exact h.descs
  · exact h.cores

end Sys2Proof.Machine
end

section
/-! PROOFS. When results become final (O33; spec/06 R147, spec/16 R342): the frame of a matrix instruction, mm.zero, completions and the
shadow result buffer. -/

namespace Sys2Proof.Machine

/-! ### The frame of a matrix instruction -/

/-- No entry is pending, so none is applied. -/
theorem State.interlock_of_no_shadow {s : State} {q : Nat} (h : (s.seq q).f.shadow = []) (tile : Nat) : s.interlock q tile = s := by
  rw [State.interlock, h]
  rfl

/-- A matrix instruction that goes on its way acts on the state as it finds it. -/
theorem mxOp_drives {s : State} {g : BitVec 7} {tiles : List (BitVec 9)} {a : Arr} (h : Stmt.drives s g tiles a)
    (f : State → Arr → Res) : mxOp g tiles s f = (f s a).finish := by
  have stands : ∀ l : List (BitVec 9), l.foldl (fun s t => s.interlock s.cur.seq t.toNat) s = s := fun l => by
    induction l with
    | nil => rfl
    | cons t l ih => rw [List.foldl_cons, State.interlock_of_no_shadow h.shadow, ih]
  rw [mxOp, slotOp_on h.guard, h.array]
  exact congrArg (fun u => (f u a).finish) (stands tiles)

theorem State.tilesFull_eq_false {s : State} (h : s.me.f.tiles.length < 48) : s.tilesFull = false :=
  decide_eq_false (by omega)

/-! ### mm.zero (spec/06 R151) -/

/-- The elements of a region of a tile, in row order. -/
theorem CoreSt.tile_eq_grid {α : Type} (c : CoreSt) (tile row0 col0 m w : Nat) (f : BitVec 32 → α) :
    ((List.range m).flatMap fun i => (c.tileRow tile (row0 + i) col0 w).map f) =
      grid m w fun i j => f (c.elem (tile * 1024 + (row0 + i) * 32 + (col0 + j))) := by
  simp only [CoreSt.tileRow, List.map_map]
  rfl

/-- The values that an early read of a cleared tile may see: each element's own, and zero. -/
def State.zeroVals (s : State) (tile : BitVec 9) : List (List (BitVec 32)) :=
  grid 32 32 fun r j => [Stmt.tileAt s (coreOf s.cur.seq) tile r j, 0#32]

/-- What mm.zero leaves before it issues. -/
def State.zeroed (s : State) (a : Arr) (tile : BitVec 9) (i : BitVec 1) : State :=
  s.writeTile tile.toNat (if i = 1#1 then 8#4 else 0#4) 0 32 0 32 1 a.lat (s.zeroVals tile)

/-- The tile write of mm.zero. -/
def State.zeroWrite (s : State) (a : Arr) (tile : BitVec 9) : TileW :=
  { fin := s.me.f.dtime + 1 + a.lat, tile := tile.toNat, row0 := 0, rows := 32, col0 := 0, cols := 32, vals := s.zeroVals tile }

theorem State.flight_zeroed (s : State) (a : Arr) (tile : BitVec 9) (i : BitVec 1) : (s.zeroed a tile i).me.f =
    ({ s.me.f with tiles := s.me.f.tiles ++ [s.zeroWrite a tile] } : Flight).pruneTiles := by
  rw [show (s.zeroed a tile i).me = _ from State.me_setFlight _ _]
  rfl

theorem exec_mmZero_drives {s : State} {g : BitVec 7} {tile : BitVec 9} {a : Arr} (h : Stmt.drives s g [tile] a)
    (room : s.me.f.tiles.length < 48) (i : BitVec 1) :
    exec (.mmZero g tile i) s = .next ((s.zeroed a tile i).retireOcc 1) := by
  have old := (s.core (coreOf s.cur.seq)).tile_eq_grid tile.toNat 0 0 32 32 fun b => [b, 0#32]
  simp only [Nat.zero_add] at old
  rw [exec_mmZero, execMmZero, mxOp_drives h, State.tilesFull_eq_false room, if_neg Bool.false_ne_true]
  dsimp only
  rw [old]
  rfl

/-! ### D-time -/

/-- The issue of slot D adds the occupancy to D-time. -/
theorem Seq.dtime_retire (x : Seq) (bn occ : Nat) {slot : Nat} (h : slot = 3) :
    (x.retire bn slot occ).f.dtime = x.f.dtime + occ := if_pos h

@[simp] theorem Seq.tiles_retire (x : Seq) (bn slot occ : Nat) : (x.retire bn slot occ).f.tiles = x.f.tiles := rfl

/-- A write that is not complete stands at the end of the list. -/
theorem getLast?_tiles (f : Flight) (w : TileW) (hw : w.complete = false) (rest : List TileW) :
    ({ f with tiles := rest ++ [w] } : Flight).pruneTiles.tiles.getLast? = some w := by
  rw [Flight.pruneTiles, List.filter_append, List.filter_cons, hw]
  simp

/-- The place of an element in a write of its whole tile. -/
theorem TileW.at_whole {w : TileW} {t n : Nat} (ht : w.tile = t) (hr : w.row0 = 0) (hrs : w.rows = 32) (hc : w.col0 = 0)
    (hcs : w.cols = 32) (hn : n < 1024) : w.at (t * 1024 + n) = some (w.vals.getD (n / 32 * 32 + n % 32) []) := by
  have tile : (t * 1024 + n) / 1024 = t := by omega
  have row : (t * 1024 + n) / 32 % 32 = n / 32 := by omega
  have col : (t * 1024 + n) % 32 = n % 32 := by omega
  simp [TileW.at, tile, row, col, ht, hr, hrs, hc, hcs]
  omega

theorem State.zeroWrite_at (s : State) (a : Arr) (tile : BitVec 9) {n : Nat} (hn : n < 1024) :
    (s.zeroWrite a tile).at (tile.toNat * 1024 + n) =
      some [(s.core (coreOf s.cur.seq)).elem (tile.toNat * 1024 + n), 0#32] := by
  rw [TileW.at_whole (t := tile.toNat) rfl rfl rfl rfl rfl hn, State.zeroWrite, State.zeroVals,
    getD_grid _ _ (by omega) (Nat.mod_lt n (by omega)), Stmt.tileAt, Nat.add_assoc, Nat.div_add_mod']

/-- mm.zero counts its own occupancy, and its write ends the list of writes under way. -/
theorem State.zeroed_issues (s : State) (a : Arr) (tile : BitVec 9) (i : BitVec 1) (slot : s.cur.slot = 3) :
    ((s.zeroed a tile i).retireOcc 1).me.f.dtime = s.me.f.dtime + 1 ∧
      ((s.zeroed a tile i).retireOcc 1).me.f.tiles.getLast? = some (s.zeroWrite a tile) := by
  rw [State.me_retireOcc, Seq.tiles_retire, State.flight_zeroed]
  refine ⟨(Seq.dtime_retire _ _ _ slot).trans ?_, getLast?_tiles _ _ rfl _⟩
  rw [State.flight_zeroed]
  rfl

/-! ### Completions -/

/-- Of the writes that are not complete, a completion takes the oldest. -/
theorem incomplete_completeFirst (ts : List TileW) :
    (completeFirst ts).filter (fun w => !w.complete) = (ts.filter fun w => !w.complete).drop 1 := by
  induction ts with
  | nil => rfl
  | cons w ts ih =>
    rw [completeFirst]
    by_cases hw : w.complete = true
    · rw [if_pos hw, List.filter_cons_of_neg (by simp [hw]), List.filter_cons_of_neg (by simp [hw]), ih]
    · rw [if_neg hw, List.filter_cons_of_neg (by simp), List.filter_cons_of_pos (by simpa using hw), List.drop_one, List.tail_cons]

/-- A write is dropped only when it is complete. -/
theorem incomplete_pruneTiles (f : Flight) :
    f.pruneTiles.tiles.filter (fun w => !w.complete) = f.tiles.filter fun w => !w.complete := by
  rw [Flight.pruneTiles, List.filter_filter]
  refine List.filter_congr fun w _ => ?_
  cases w.complete <;> rfl

theorem matrixCompletion_completes {s : State} {q : Nat} (h : (s.seq q).f.shadow = []) :
    ∃ t, exec (.matrixCompletion q) s = .next t ∧ t.cores = s.cores ∧ t.mem = s.mem ∧ (t.seq q).r = (s.seq q).r ∧
      (t.seq q).c = (s.seq q).c ∧ s.sameOthers t q ∧
      (t.seq q).f.tiles.filter (fun w => !w.complete) = ((s.seq q).f.tiles.filter fun w => !w.complete).drop 1 := by
  let x := s.seq q
  let t := s.setSeq q { x with f := ({ x.f with tiles := completeFirst x.f.tiles } : Flight).pruneTiles }
  have next : exec (.matrixCompletion q) s = .next t := by
    rw [exec_matrixCompletion, execMatrixCompletion]
    exact if_pos (by rw [h]; rfl)
  have own : t.seq q = _ := State.seq_setSeq_same ..
  refine ⟨t, next, rfl, rfl, ?_, ?_, fun p hp => State.seq_setSeq_other _ _ hp, ?_⟩ <;> rw [own]
  rw [incomplete_pruneTiles, incomplete_completeFirst]

/-! ### The shadow result buffer (spec/16 R342) -/

theorem exec_applies_shadow {s : State} {q : Nat} {e : Shadow} {rest : List Shadow} (h : (s.seq q).f.shadow = e :: rest) {i : Instr}
    (hi : i ∈ [Instr.shadowEntryApply q, Instr.matrixCompletion q]) : exec i s = .next (s.applyShadow q) := by
  rcases List.mem_pair.mp hi with rfl | rfl
  · rfl
  · rw [exec_matrixCompletion, execMatrixCompletion]
    exact if_neg (by rw [h]; exact Bool.false_ne_true)

/-- What an entry leaves: its region in its tile, its place in the buffer, and the writes that it completes. -/
theorem State.applyShadow_cons {s : State} {q : Nat} {e : Shadow} {rest : List Shadow} (h : (s.seq q).f.shadow = e :: rest) :
    s.applyShadow q = (s.setCore (coreOf q) ((s.core (coreOf q)).setRegion e.tile e.row0 e.col0 e.cols e.vals)).setSeq q
      { s.seq q with f := { (s.seq q).f with
        shadow := rest
        tiles := (s.seq q).f.tiles.map fun w => if w.fin = e.fin && w.tile = e.tile then { w with complete := true } else w } } := by
  rw [State.applyShadow]
  simp only [h]
  rfl

theorem shadow_stands {s : State} {q : Nat} {e : Shadow} {rest : List Shadow} {i : Instr} (h : (s.seq q).f.shadow = e :: rest)
    (hi : i ∈ [Instr.shadowEntryApply q, Instr.matrixCompletion q]) (hc : 1 ≤ e.cols) (hw : e.col0 + e.cols ≤ 32) :
    ∃ t, exec i s = .next t ∧ (t.seq q).f.shadow = rest ∧ (t.seq q).r = (s.seq q).r ∧
      (t.seq q).c = (s.seq q).c ∧ s.sameOthers t q ∧ t.mem = s.mem ∧ (t.core (coreOf q)).spad = (s.core (coreOf q)).spad ∧
      (∀ n (h : n < e.vals.length), (t.core (coreOf q)).elem
        (e.tile * 1024 + (e.row0 + n / e.cols) * 32 + (e.col0 + n % e.cols)) = e.vals[n]) ∧
      (∀ m, (∀ n, n < e.vals.length → m ≠ e.tile * 1024 + (e.row0 + n / e.cols) * 32 + (e.col0 + n % e.cols)) →
        (t.core (coreOf q)).elem m = (s.core (coreOf q)).elem m) := by
  have next := exec_applies_shadow h hi
  rw [State.applyShadow_cons h] at next
  refine ⟨_, next, ?_⟩
  rw [State.seq_setSeq_same, State.core_setSeq, State.core_setCore_same]
  refine ⟨rfl, rfl, rfl, fun p hp => State.seq_setSeq_other _ _ hp, rfl, ?_,
    fun n hn => CoreSt.elem_setRegion_inside _ _ _ hc hw _ hn, fun m hm => CoreSt.elem_setRegion_outside _ _ _ _ _ _ hm⟩
  rw [CoreSt.setRegion_frame]

/-- Settles O33: mm.zero puts its write at the end of the list; a completion takes the oldest write that is not complete or the oldest
shadow entry; an element that no unfinished write touches is read as it stands. -/
theorem resultsBecomeFinalByDTime : Obligations.ResultsBecomeFinalByDTime := by
  refine ⟨fun s g a tile i drives room slot _ => ?_, fun s q h => matrixCompletion_completes h,
    fun s q e rest i h hi hc hw _ _ => shadow_stands h hi hc hw, fun s core reader time e sync h => ?_⟩
  · obtain ⟨dtime, last⟩ := s.zeroed_issues a tile i slot
    exact ⟨_, _, exec_mmZero_drives drives room i, dtime, last, rfl, rfl, rfl, fun n hn => s.zeroWrite_at a tile hn⟩
  · rw [State.readElem, h]

end Sys2Proof.Machine
end

section
/-! PROOFS. The arithmetic of an accumulation (spec/06 R144, R145): chunks, their sum in the integer family, and status flags. -/

namespace Sys2Proof.Machine

/-! ### Chunks -/

theorem length_parts {α : Type} (k : Nat) (l : List α) (n : Nat) : (parts k l n).length = n := by
  induction n generalizing l with
  | zero => rfl
  | succ n ih => rw [parts, List.length_cons, ih]

/-- The chunks are the list itself, cut. -/
theorem flatten_parts {α : Type} (k : Nat) (l : List α) (n : Nat) : (parts k l n).flatten = l.take (k * n) := by
  induction n generalizing l with
  | zero => rfl
  | succ n ih => rw [parts, List.flatten_cons, ih, Nat.mul_succ, Nat.add_comm, List.take_add]

/-- The last of the chunk values is a value, once there is a chunk. -/
theorem getLastD_macElem (fam : Family) (t d : BitVec 32) {ls : List (List (Num × Num))} (h : ls ≠ []) :
    (macElem fam t ls).1.getLastD d = (macElem fam t ls).1.getLastD t := by
  cases ls with
  | nil => exact absurd rfl h
  | cons l ls => rfl

/-! ### The integer family -/

/-- The exact product of a pair. -/
def intProd (e : Num × Num) : Int := e.1.int * e.2.int

theorem foldl_intProd (l : List (Num × Num)) (c : Int) :
    l.foldl (fun a e => a + e.1.int * e.2.int) c = c + (l.map intProd).sum := by
  induction l generalizing c with
  | nil => simp
  | cons e l ih => rw [List.foldl_cons, ih, List.map_cons, List.sum_cons, intProd, Int.add_assoc]

/-- Wrapping chunk by chunk is wrapping the whole sum. -/
theorem macElem_int (t : BitVec 32) (ls : List (List (Num × Num))) :
    (macElem .int t ls).1.getLastD t = BitVec.ofInt 32 (t.toInt + (ls.flatten.map intProd).sum) := by
  induction ls generalizing t with
  | nil => simp [macElem]
  | cons l ls ih =>
    have first : (addChunk .int t l).1 = BitVec.ofInt 32 (t.toInt + (l.map intProd).sum) := by
      rw [addChunk, foldl_intProd, Int.zero_add]
    calc (macElem .int t (l :: ls)).1.getLastD t
        = (macElem .int (addChunk .int t l).1 ls).1.getLastD (addChunk .int t l).1 := List.getLastD_cons ..
      _ = (addChunk .int t l).1 + BitVec.ofInt 32 (ls.flatten.map intProd).sum := by
          rw [ih, BitVec.ofInt_add, BitVec.ofInt_toInt]
      _ = BitVec.ofInt 32 (t.toInt + ((l :: ls).flatten.map intProd).sum) := by
          rw [first, ← BitVec.ofInt_add, Int.add_assoc, List.flatten_cons, List.map_append, List.sum_append]

/-! ### Status flags -/

theorem getLsbD_stBits (fl : FlagSet) : (stBits fl).getLsbD 3 = false := by
  unfold stBits
  cases fl.overflow <;> cases fl.invalid <;> rfl

/-- An accumulation's flags are the three sticky ones. -/
theorem getLsbD_addChunk (fam : Family) (t : BitVec 32) (l : List (Num × Num)) : (addChunk fam t l).2.getLsbD 3 = false := by
  cases fam
  case int =>
    rw [addChunk]
    dsimp only
    split <;> rfl
  all_goals exact getLsbD_stBits _

theorem getLsbD_macElem (fam : Family) (t : BitVec 32) (ls : List (List (Num × Num))) : (macElem fam t ls).2.getLsbD 3 = false := by
  induction ls generalizing t with
  | nil => simp [macElem]
  | cons l ls ih =>
    rw [show (macElem fam t (l :: ls)).2 = (addChunk fam t l).2 ||| (macElem fam (addChunk fam t l).1 ls).2 from rfl,
      BitVec.getLsbD_or, getLsbD_addChunk, ih, Bool.or_false]

theorem getLsbD_foldl_or {α : Type} {f : α → BitVec 4} {l : List α} (h : ∀ e ∈ l, (f e).getLsbD 3 = false) {c : BitVec 4}
    (hc : c.getLsbD 3 = false) : (l.foldl (fun a e => a ||| f e) c).getLsbD 3 = false := by
  induction l generalizing c with
  | nil => exact hc
  | cons e l ih =>
    refine ih (fun d hd => h d (List.mem_cons_of_mem e hd)) ?_
    rw [BitVec.getLsbD_or, hc, h e List.mem_cons_self, Bool.or_false]

/-- ityp of a family, as the bits of a status word. -/
def itypBits (fam : Family) : BitVec 4 := if fam = .int then 8#4 else 0#4

theorem getLsbD_itypBits (fam : Family) : (itypBits fam).getLsbD 3 = decide (fam = .int) := by cases fam <;> rfl

/-- ityp is set by the family alone. -/
theorem itypBits_tells (fam : Family) (old : BitVec 4) {fl : BitVec 4} (h : fl.getLsbD 3 = false) :
    (itypBits fam ||| (old &&& 7#4) ||| fl).getLsbD 3 = decide (fam = .int) := by
  rw [BitVec.getLsbD_or, BitVec.getLsbD_or, BitVec.getLsbD_and, getLsbD_itypBits, h]
  simp

/-- A sticky bit stays set. -/
theorem sticky_stays (fam : Family) {old : BitVec 4} (fl : BitVec 4) {b : Nat} (hb : b < 3) (h : old.getLsbD b = true) :
    (itypBits fam ||| (old &&& 7#4) ||| fl).getLsbD b = true := by
  have seven : (7#4).getLsbD b = true := by
    obtain rfl | rfl | rfl : b = 0 ∨ b = 1 ∨ b = 2 := by omega
    all_goals rfl
  rw [BitVec.getLsbD_or, BitVec.getLsbD_or, BitVec.getLsbD_and, h, seven]
  simp

end Sys2Proof.Machine
end

section
/-! PROOFS. Operand rows (spec/06 R138, R139) and the region that an accumulation leaves (spec/06 R142, R145). -/

namespace Sys2Proof.Machine

/-! ### Rows of an operand -/

/-- A row has as many elements as were asked for; in a block format these are whole blocks. -/
theorem length_decRow (f : Fmt) {n : Nat} (hn : n / 16 * 16 = n) (x : Nat) : (decRow f n x).length = n := by
  unfold decRow
  split
  · simp [bxDec, hn]
  · rw [List.length_map, elemsN_eq_map, List.length_map, List.length_range]

theorem State.length_srcRow {s s1 : State} {q : Nat} {x : MOp} {k : KShape} {dec : Bool} {f : Fmt} {n i : Nat} {r : List Num}
    (hn : n / 16 * 16 = n) (h : s.srcRow q x k dec f n i = .ok s1 r) : r.length = n := by
  unfold State.srcRow at h
  cases x
  all_goals
    obtain ⟨u, a, -, row⟩ := Try.bind_eq_ok h
    cases row
    exact length_decRow f hn _

theorem State.length_of_mem_srcRows {s s1 : State} {q : Nat} {x : MOp} {k : KShape} {dec : Bool} {f : Fmt} {n i m : Nat}
    {rows : List (List Num)} (hn : n / 16 * 16 = n) (h : s.srcRows q x k dec f n i m = .ok s1 rows) :
    ∀ r ∈ rows, r.length = n := by
  induction m generalizing s i rows with
  | zero => cases h; exact fun r hr => absurd hr List.not_mem_nil
  | succ m ih =>
    obtain ⟨u, r, first, more⟩ := Try.bind_eq_ok h
    obtain ⟨v, rs, rest, all⟩ := Try.bind_eq_ok more
    cases all
    exact List.forall_mem_cons.mpr ⟨State.length_srcRow hn first, ih rest⟩

/-- With nothing of the engine's left to drain, an operand is its rows. -/
theorem State.readOperand_drained {s : State} {q : Nat} (h : s.mxDrains q = []) (x : MOp) (k : KShape) (dec : Bool) (f : Fmt)
    (n m : Nat) : s.readOperand q x k dec f n m = s.srcRows q x k dec f n 0 m := by
  rw [State.readOperand, h]
  rfl

theorem State.withRegs_tookRows (s : State) (x : MOp) (m : Nat) : s.withRegs (s.tookRows x m) (Stmt.tookRows s.me.r x m) := by
  cases x with
  | s b => exact s.withRegs_refl
  | q n =>
    unfold State.tookRows
    dsimp only
    split
    · exact State.withRegs_agenda (s.withRegs_setRegs _) _
    · exact s.withRegs_setRegs _

/-- A shape is swapped and its operand's rows are taken. -/
theorem State.withRegs_took (s : State) (x : MOp) (k : BitVec 2) (sw : BitVec 1) (m : Nat) :
    s.withRegs ((s.setRegs (s.me.r.swapKIf k sw)).tookRows x m) (Stmt.tookRows (s.me.r.swapKIf k sw) x m) := by
  have set := s.withRegs_setRegs (s.me.r.swapKIf k sw)
  have took := set.trans (State.withRegs_tookRows _ x m)
  rwa [set.me] at took

/-! ### Lists in row order -/

theorem zip_map_range {α β : Type} (d : α) (l : List α) (g : Nat → β) :
    l.zip ((List.range l.length).map g) = (List.range l.length).map fun i => (l.getD i d, g i) := by
  refine List.ext_getElem (by simp) fun i h _ => ?_
  have hi : i < l.length := by simp at h; exact h
  simp [hi]

theorem eq_grid {α : Type} (d : α) {m w : Nat} {l : List α} (h : l.length = m * w) (hw : 0 < w) :
    l = grid m w fun i j => l.getD (i * w + j) d := by
  refine List.ext_getElem (by rw [length_grid, h]) fun k hk hg => ?_
  have row : k / w < m := Nat.div_lt_of_lt_mul (by rw [Nat.mul_comm, ← h]; exact hk)
  have cell := getD_grid d (fun i j => l.getD (i * w + j) d) row (Nat.mod_lt k hw)
  rw [Nat.div_add_mod'] at cell
  rw [← List.getD_eq_getElem _ d hk, ← List.getD_eq_getElem _ d hg, cell]

/-! ### An accumulation -/

/-- The length of a chunk. -/
def Arr.chunk (a : Arr) (k16 : Bool) : Nat := if k16 || a.h = 16 then 16 else 32

/-- The pairs of an element, along K. -/
def State.macPairs (s : State) (a : Arr) (rows : List (List Num)) (i n : Nat) : List (Num × Num) :=
  (List.range a.h).map fun k => (Stmt.entry rows i k, Stmt.entry s.me.f.weights.w k n)

/-- The value that an accumulation starts from, in row i and column n of its region. -/
def State.macStart (s : State) (tile : BitVec 9) (row0 f0 : Nat) (z : Bool) (i n : Nat) : BitVec 32 :=
  if z then 0#32 else Stmt.tileAt s (coreOf s.cur.seq) tile (row0 + i) (f0 + n)

/-- The values of an element after each chunk, and its flags. -/
def State.macAt (s : State) (a : Arr) (tile : BitVec 9) (rows : List (List Num)) (row0 f0 : Nat) (z k16 : Bool) (i n : Nat) :
    List (BitVec 32) × BitVec 4 :=
  macElem (Fmt.family s.afmt) (s.macStart tile row0 f0 z i n) (parts (a.chunk k16) (s.macPairs a rows i n) (a.h / a.chunk k16))

/-- What an element of the region may be read as, its old value first, and the flags of its additions. -/
def State.macCell (s : State) (a : Arr) (tile : BitVec 9) (rows : List (List Num)) (row0 f0 : Nat) (z k16 : Bool) (i n : Nat) :
    List (BitVec 32) × BitVec 4 :=
  (Stmt.tileAt s (coreOf s.cur.seq) tile (row0 + i) (f0 + n) :: (s.macAt a tile rows row0 f0 z k16 i n).1,
    (s.macAt a tile rows row0 f0 z k16 i n).2)

/-- The flags of all elements. -/
def State.macFlags (s : State) (a : Arr) (tile : BitVec 9) (rows : List (List Num)) (row0 f0 : Nat) (z k16 : Bool) : BitVec 4 :=
  (grid rows.length a.w (s.macCell a tile rows row0 f0 z k16)).foldl (fun c e => c ||| e.2) 0#4

theorem State.getLsbD_macFlags (s : State) (a : Arr) (tile : BitVec 9) (rows : List (List Num)) (row0 f0 : Nat) (z k16 : Bool) :
    (s.macFlags a tile rows row0 f0 z k16).getLsbD 3 = false := by
  refine getLsbD_foldl_or (fun e he => ?_) rfl
  obtain ⟨i, -, row⟩ := List.mem_flatMap.mp he
  obtain ⟨n, -, rfl⟩ := List.mem_map.mp row
  exact getLsbD_macElem ..

/-- A column of the weights, paired with a whole row. -/
theorem zip_col (s : State) (a : Arr) {rows : List (List Num)} {i : Nat} (h : (rows.getD i []).length = a.h) (n : Nat) :
    (rows.getD i []).zip (s.me.f.weights.col a.h n) = s.macPairs a rows i n := by
  rw [Weights.col, State.macPairs, ← h, zip_map_range (.fin false 0 0)]
  rfl

/-- The rows of a region zipped with the operand's, and each element with its column of the weights, are the cells in row order. -/
theorem State.cells_eq_grid (s : State) (a : Arr) {rows : List (List Num)} (whole : ∀ r ∈ rows, r.length = a.h) (tile : BitVec 9)
    (row0 f0 : Nat) (z k16 : Bool) :
    ((rows.zip ((List.range rows.length).map fun i =>
      (s.core (coreOf s.cur.seq)).tileRow tile.toNat (row0 + i) f0 a.w)).flatMap fun e =>
        (((List.range a.w).map fun n => s.me.f.weights.col a.h n).zip e.2).map fun d =>
          let r := macElem (Fmt.family s.afmt) (if z then 0#32 else d.2) (parts (a.chunk k16) (e.1.zip d.1) (a.h / a.chunk k16))
          (d.2 :: r.1, r.2)) = grid rows.length a.w (s.macCell a tile rows row0 f0 z k16) := by
  rw [zip_map_range [], List.flatMap_map]
  refine List.flatMap_congr fun i hi => ?_
  have row : (rows.getD i []).length = a.h := by
    have lt := List.mem_range.mp hi
    rw [List.getD_eq_getElem _ _ lt]
    exact whole _ (List.getElem_mem lt)
  rw [CoreSt.tileRow, List.zip_map', List.map_map]
  refine List.map_congr_left fun n _ => ?_
  simp only [Function.comp_apply, zip_col s a row]
  rfl

/-- An accumulation is a tile write of its region: the values of each cell, and the status. -/
theorem State.accumulate_eq {s : State} {a : Arr} {rows : List (List Num)} (hm : s.mismatch = false)
    (whole : ∀ r ∈ rows, r.length = a.h) (tile : BitVec 9) (row0 f0 : Nat) (z k16 : Bool) (occ : Nat) :
    s.accumulate a tile.toNat rows row0 f0 z k16 occ = s.writeTile tile.toNat
      (itypBits (Fmt.family s.afmt) ||| ((s.core (coreOf s.cur.seq)).stat tile.toNat &&& 7#4) ||| s.macFlags a tile rows row0 f0 z k16)
      row0 rows.length f0 a.w occ a.lat (grid rows.length a.w fun i n => (s.macCell a tile rows row0 f0 z k16 i n).1) := by
  unfold State.accumulate
  extract_lets c fam wts m kc stat ityp old free vals cols res fl
  have cells : res = grid rows.length a.w (s.macCell a tile rows row0 f0 z k16) := s.cells_eq_grid a whole tile row0 f0 z k16
  have flags : fl = s.macFlags a tile rows row0 f0 z k16 := congrArg (List.foldl _ 0#4) cells
  rw [if_neg (by rw [hm]; exact Bool.false_ne_true), flags, cells, map_grid]
  rfl

/-- Weights of another family leave values of no use. -/
theorem State.accumulate_mismatch {s : State} (hm : s.mismatch = true) (a : Arr) (tile : BitVec 9) (rows : List (List Num))
    (row0 f0 : Nat) (z k16 : Bool) (occ : Nat) : ∃ junk vals,
      s.accumulate a tile.toNat rows row0 f0 z k16 occ =
        s.writeTile tile.toNat (itypBits (Fmt.family s.afmt) ||| (junk &&& 7#4)) row0 rows.length f0 a.w occ a.lat vals ∧
      vals.length = rows.length * a.w := by
  unfold State.accumulate
  extract_lets c fam wts m kc stat ityp old free vals cols res fl
  refine ⟨_, vals, if_pos hm, ?_⟩
  simp [vals, old, CoreSt.tileRow, List.length_flatten, m, Function.comp_def]

end Sys2Proof.Machine
end

section
/-! PROOFS. The matrix instructions that load weights, accumulate and clear (O32; spec/06 R141, R142, R145, R150, R151). -/

namespace Sys2Proof.Machine

/-! ### What an accumulation leaves -/

theorem State.sameModule_retireOcc (s : State) (occ : Nat) : s.sameModule (s.retireOcc occ) :=
  State.sameModule_of rfl rfl rfl rfl rfl rfl rfl rfl rfl rfl rfl rfl rfl rfl

theorem State.sameOthers_retireOcc (s : State) (occ : Nat) : s.sameOthers (s.retireOcc occ) s.cur.seq :=
  fun _ hp => State.seq_retireOcc_other s occ hp

/-- Whatever weights are held, an accumulation is a tile write. -/
theorem State.accumulate_writes (s : State) (a : Arr) (tile : Nat) (rows : List (List Num)) (row0 f0 : Nat) (z k16 : Bool) (occ : Nat) :
    ∃ st vals, s.accumulate a tile rows row0 f0 z k16 occ = s.writeTile tile st row0 rows.length f0 a.w occ a.lat vals := by
  unfold State.accumulate
  extract_lets
  split <;> exact ⟨_, _, rfl⟩

theorem State.sameOthers_setMe_retireOcc (s : State) (x : Seq) (occ : Nat) : s.sameOthers ((s.setMe x).retireOcc occ) s.cur.seq :=
  (s.sameOthers_setMe x).trans ((s.setMe x).sameOthers_retireOcc occ)

theorem State.accumulate_frame (s : State) (a : Arr) (tile : Nat) (rows : List (List Num)) (row0 f0 : Nat) (z k16 : Bool) (occ : Nat) :
    let t := s.accumulate a tile rows row0 f0 z k16 occ
    t.me.r = s.me.r ∧ t.me.c = s.me.c ∧ t.cur = s.cur ∧ s.sameOthers t s.cur.seq := by
  obtain ⟨st, vals, written⟩ := s.accumulate_writes a tile rows row0 f0 z k16 occ
  rw [written]
  exact State.writeTile_frame ..

theorem Arr.chunk_fits {a : Arr} (hh : a.h = 16 ∨ a.h = 32) (k16 : Bool) :
    a.chunk k16 * (a.h / a.chunk k16) = a.h ∧ a.h / a.chunk k16 ≠ 0 := by
  unfold Arr.chunk
  rcases hh with h | h <;> cases k16 <;> simp [h]

/-- The last value of a cell, when the array's height is cut into chunks that exhaust it. -/
theorem State.macCell_last {a : Arr} (hh : a.h = 16 ∨ a.h = 32) (s : State) (tile : BitVec 9) (rows : List (List Num))
    (row0 f0 : Nat) (z k16 : Bool) (i n : Nat) :
    (s.macCell a tile rows row0 f0 z k16 i n).1.getLastD 0#32 =
      (s.macAt a tile rows row0 f0 z k16 i n).1.getLastD (s.macStart tile row0 f0 z i n) := by
  rw [State.macCell, List.getLastD_cons]
  refine getLastD_macElem _ _ _ fun none => (Arr.chunk_fits hh k16).2 ?_
  rw [← length_parts (a.chunk k16) (s.macPairs a rows i n) (a.h / a.chunk k16), none, List.length_nil]

/-- In the integer family the chunks add up to the whole sum of products. -/
theorem State.macAt_int {s : State} {a : Arr} (hh : a.h = 16 ∨ a.h = 32) (hf : Fmt.family s.afmt = .int) (tile : BitVec 9)
    (rows : List (List Num)) (row0 f0 : Nat) (z k16 : Bool) (i n : Nat) :
    (s.macAt a tile rows row0 f0 z k16 i n).1.getLastD (s.macStart tile row0 f0 z i n) =
      BitVec.ofInt 32 ((s.macStart tile row0 f0 z i n).toInt +
        ((List.range a.h).map fun k => (Stmt.entry rows i k).int * (Stmt.entry s.me.f.weights.w k n).int).sum) := by
  rw [State.macAt, hf, macElem_int, flatten_parts, (Arr.chunk_fits hh k16).1, List.take_of_length_le (by simp [State.macPairs]),
    State.macPairs, List.map_map]
  rfl

theorem State.accumulated_accumulate {s : State} {a : Arr} {rows : List (List Num)} (hm : s.mismatch = false)
    (whole : ∀ r ∈ rows, r.length = a.h) (hh : a.h = 16 ∨ a.h = 32) (hw : 0 < a.w) {f0 : Nat} (fit : f0 + a.w ≤ 32)
    (tile : BitVec 9) (row0 : Nat) (z k16 : Bool) (occ : Nat) :
    Stmt.accumulated s (s.accumulate a tile.toNat rows row0 f0 z k16 occ) a tile rows row0 f0 z (a.chunk k16) := by
  rw [State.accumulate_eq hm whole]
  refine ⟨_, State.tileWritten_writeTile s tile _ row0 rows.length occ a.lat hw fit _, ?_, fun b hb h => ?_, fun hf i n _ _ => ?_,
    fun _ i n _ _ => State.macCell_last hh ..⟩
  · rw [State.stat_writeTile]
    exact itypBits_tells _ _ (State.getLsbD_macFlags ..)
  · rw [State.stat_writeTile]
    exact sticky_stays _ _ hb h
  · exact (State.macCell_last hh ..).trans (State.macAt_int hh hf ..)

/-- A region of no use, and ityp. -/
theorem State.tileWritten_mismatch {s : State} (hm : s.mismatch = true) (a : Arr) (tile : BitVec 9) (rows : List (List Num))
    (row0 : Nat) {f0 : Nat} (hw : 0 < a.w) (fit : f0 + a.w ≤ 32) (z k16 : Bool) (occ : Nat) :
    let t := s.accumulate a tile.toNat rows row0 f0 z k16 occ
    (∃ v, Stmt.tileWritten s t (coreOf s.cur.seq) tile row0 rows.length f0 a.w v) ∧
      ((t.core (coreOf s.cur.seq)).stat tile.toNat).getLsbD 3 = decide (Fmt.family s.afmt = .int) := by
  obtain ⟨junk, vals, written, len⟩ := State.accumulate_mismatch hm a tile rows row0 f0 z k16 occ
  rw [written]
  refine ⟨?_, ?_⟩
  · rw [eq_grid [] len hw]
    exact ⟨_, State.tileWritten_writeTile s tile _ row0 rows.length occ a.lat hw fit _⟩
  · rw [State.stat_writeTile]
    simpa using itypBits_tells (Fmt.family s.afmt) junk (fl := 0#4) rfl

/-! ### The states around an accumulation -/

theorem State.withRegs.afmt {s t : State} {r : Regs} (h : s.withRegs t r) : t.afmt = s.afmt := by
  unfold State.afmt State.fmtBits
  rw [h.me, h.cur]

theorem State.withRegs.mismatch {s t : State} {r : Regs} (h : s.withRegs t r) : t.mismatch = s.mismatch := by
  unfold State.mismatch
  rw [h.afmt, h.me]

theorem State.sameModule.core {s t : State} (h : s.sameModule t) (d : Nat) : t.core d = s.core d := by
  rw [State.core, h.cores]
  rfl

/-- The registers before an accumulation, and what follows its tile write, are no part of what it leaves. -/
theorem State.withRegs.accumulated {s s' t t' : State} {r : Regs} (h : s.withRegs s' r) (ht : t.sameModule t') {a : Arr} {tile : BitVec 9}
    {rows : List (List Num)} {row0 f0 : Nat} {z : Bool} {kc : Nat} (acc : Stmt.accumulated s' t a tile rows row0 f0 z kc) :
    Stmt.accumulated s t' a tile rows row0 f0 z kc := by
  have flight : s'.me.f = s.me.f := by rw [h.me]
  unfold Stmt.accumulated at acc ⊢
  simp only [Stmt.tileAt, h.afmt, h.cur, h.module.core, flight] at acc
  simp only [Stmt.tileAt, ht.core]
  obtain ⟨v, written, rest⟩ := acc
  exact ⟨v, State.tileWritten_of_sameModule h.module ht written, rest⟩

theorem State.mismatch_eq_false {s : State} (h : s.me.f.weights.fam = none ∨ s.me.f.weights.fam = some (Fmt.family s.afmt)) :
    s.mismatch = false := by
  unfold State.mismatch
  rcases h with h | h <;> simp [h]

theorem State.mismatch_eq_true {s : State} {fam : Family} (h : s.me.f.weights.fam = some fam) (hf : fam ≠ Fmt.family s.afmt) :
    s.mismatch = true := by
  simp [State.mismatch, h, hf]

/-- The columns of an array lie in a tile (spec/06 R138). -/
theorem KShape.f0_fits (k : KShape) {a : Arr} (hw : a.w = 16 ∨ a.w = 32) : k.f0 a + a.w ≤ 32 := by
  have := k.col0.isLt
  unfold KShape.f0
  rcases hw with w | w
  · rw [if_pos w, w]
    omega
  · rw [if_neg (by omega), w]

/-! ### mm.ldw -/

/-- The weights that a load leaves. -/
def loadedWeights (a : Arr) (west : Bool) (f : Fmt) (rows : List (List Num)) : Weights :=
  { fam := some (Fmt.family f), w := if west then rows else transpose rows a.h a.w, fmt := f }

theorem entry_loadedWeights (a : Arr) (west : Bool) (f : Fmt) (rows : List (List Num)) {k n : Nat} (hk : k < a.h) (hn : n < a.w) :
    Stmt.entry (loadedWeights a west f rows).w k n = if west then Stmt.entry rows k n else Stmt.entry rows n k := by
  cases west with
  | true => rfl
  | false => simp [loadedWeights, transpose, Stmt.entry, hk, hn]

/-- A load that finds its rows holds them as weights. -/
theorem exec_mmLdw_reads {s s1 : State} {g : BitVec 7} {a : Arr} {x : MOp} {west : Bool} {k : BitVec 2} {sw : BitVec 1}
    {rows : List (List Num)} (h : Stmt.drives s g [] a) (hb : ¬(west = true ∧ (Fmt.bx s.wfmt).isSome = true))
    (drained : s.mxDrains s.cur.seq = []) {sh : KShape} (hsh : sh = s.me.r.useK k sw) {j : Nat}
    (hj : j = min sh.rows.toNat (if west then a.h else a.w))
    (reads : s.srcRows s.cur.seq x sh sh.dec s.wfmt (if west then a.w else a.h) 0 j = .ok s1 rows) :
    let u := (s1.setRegs (s1.me.r.swapKIf k sw)).tookRows x j
    exec (.mmLdw g x west k sw) s =
      .next ((u.setFlight { u.me.f with weights := loadedWeights a west s.wfmt rows }).retireOcc (max 1 j)) := by
  subst hsh hj
  rw [exec_mmLdw, execMmLdw, mxOp_drives h]
  dsimp only
  rw [if_neg (by simpa using hb), State.readOperand_drained drained, reads]
  rfl

theorem exec_mmLdw_west_block {s : State} {g : BitVec 7} {a : Arr} (h : Stmt.drives s g [] a) (hb : (Fmt.bx s.wfmt).isSome = true)
    (x : MOp) (k : BitVec 2) (sw : BitVec 1) : exec (.mmLdw g x true k sw) s = s.raise (westTrap s.cur.addr) := by
  rw [exec_mmLdw, execMmLdw, mxOp_drives h]
  dsimp only
  rw [if_pos (by simpa using hb)]
  rfl

/-! ### mm and mm.chain -/

/-- The state in which mm accumulates: with weights of another family no register changes (spec/06 R142). -/
def State.mmTook (s : State) (x : MOp) (k : BitVec 2) (sw : BitVec 1) (m : Nat) : State :=
  if s.mismatch then s else (s.setRegs (s.me.r.swapKIf k sw)).tookRows x m

theorem exec_mm_reads {s s1 : State} {g : BitVec 7} {a : Arr} {tile : BitVec 9} {x : MOp} {k : BitVec 2} {sw : BitVec 1}
    {rows : List (List Num)} (h : Stmt.drives s g [tile] a) (room : s.me.f.tiles.length < 48) (drained : s.mxDrains s.cur.seq = [])
    {sh : KShape} (hsh : sh = s.me.r.useK k sw) (reads : s.srcRows s.cur.seq x sh false s.afmt a.h 0 sh.m = .ok s1 rows)
    (z k16 : BitVec 1) : exec (.mm g tile x k sw z k16) s =
      .next (((s1.mmTook x k sw sh.m).accumulate a tile.toNat rows sh.row0.toNat (sh.f0 a) (z = 1#1) (k16 = 1#1)
        (mmOcc s1.afmt s1.wfmt sh.m)).retireOcc (mmOcc s1.afmt s1.wfmt sh.m)) := by
  subst hsh
  rw [exec_mm, execMm, mxOp_drives h]
  dsimp only
  rw [State.tilesFull_eq_false room, if_neg Bool.false_ne_true, State.readOperand_drained drained, reads]
  rfl

/-- The rows of a source tile, narrowed (spec/06 R150). -/
def State.chainRow (s : State) (a : Arr) (ta : BitVec 9) (sh : KShape) (i : Nat) : Nat × FlagSet :=
  narrowRow ((List.range a.h).map fun n => tileNum (((s.core (coreOf s.cur.seq)).stat ta.toNat).getLsbD 3)
    (Stmt.tileAt s (coreOf s.cur.seq) ta (sh.row0.toNat + i) n)) sh 0 s.afmt

/-- The flags of the narrowing. -/
def State.chainFlags (s : State) (a : Arr) (ta : BitVec 9) (sh : KShape) : FlagSet :=
  ((List.range sh.m).map (s.chainRow a ta sh)).foldl (fun b e => b.or e.2) {}

theorem State.chainRows_eq (s : State) (a : Arr) (ta : BitVec 9) (sh : KShape) :
    ((List.range sh.m).map fun m => narrowRow (((s.core (coreOf s.cur.seq)).tileRow ta.toNat (sh.row0.toNat + m) 0 a.h).map
      (tileNum (((s.core (coreOf s.cur.seq)).stat ta.toNat).getLsbD 3))) sh 0 s.afmt) =
      (List.range sh.m).map (s.chainRow a ta sh) := by
  simp only [CoreSt.tileRow, List.map_map, Nat.zero_add]
  rfl

theorem exec_mmChain_matched {s : State} {g : BitVec 7} {a : Arr} {td ta : BitVec 9} {k : BitVec 2} {sw : BitVec 1}
    (h : Stmt.drives s g [td, ta] a) (room : s.me.f.tiles.length < 48) (hm : s.mismatch = false)
    {sh : KShape} (hsh : sh = s.me.r.useK k sw) (k16 : BitVec 1) : exec (.mmChain g td ta k sw k16) s =
      .next ((((s.setRegs (s.me.r.swapKIf k sw)).accumulate a td.toNat
        ((List.range sh.m).map fun i => decRow s.afmt a.h (s.chainRow a ta sh i).1) sh.row0.toNat (sh.f0 a) false (k16 = 1#1)
        (mmOcc s.afmt s.wfmt sh.m)).raiseFlags (s.chainFlags a ta sh).bits).retireOcc (mmOcc s.afmt s.wfmt sh.m)) := by
  subst hsh
  rw [exec_mmChain, execMmChain, mxOp_drives h]
  dsimp only
  rw [State.tilesFull_eq_false room, if_neg Bool.false_ne_true, hm, if_neg Bool.false_ne_true, State.chainRows_eq, List.map_map]
  rfl

/-! ### The clauses of the pseudocode -/

/-- A whole number of blocks. -/
theorem Arr.whole_blocks {a : Arr} (hh : a.h = 16 ∨ a.h = 32) : a.h / 16 * 16 = a.h := by
  rcases hh with h | h <;> rw [h]

theorem Arr.width_pos {a : Arr} (hw : a.w = 16 ∨ a.w = 32) : 0 < a.w := by omega

theorem Arr.chunk_eq (a : Arr) (k16 : BitVec 1) : a.chunk (k16 = 1#1) = if k16 = 1#1 ∨ a.h = 16 then 16 else 32 := by
  unfold Arr.chunk
  simp

theorem State.withRegs_mmTook {s : State} (hm : s.mismatch = false) (x : MOp) (k : BitVec 2) (sw : BitVec 1) (m : Nat) :
    s.withRegs (s.mmTook x k sw m) (Stmt.tookRows (s.me.r.swapKIf k sw) x m) := by
  rw [State.mmTook, hm, if_neg Bool.false_ne_true]
  exact s.withRegs_took x k sw m

/-- What the issue of an accumulation leaves of the sequencers. -/
theorem State.withRegs.accumulates {s s' : State} {r : Regs} (h : s.withRegs s' r) (a : Arr) (tile : Nat) (rows : List (List Num))
    (row0 f0 : Nat) (z k16 : Bool) (occ : Nat) (fl : BitVec 4) :
    let t := ((s'.accumulate a tile rows row0 f0 z k16 occ).raiseFlags fl).retireOcc occ
    t.me.r = r ∧ s.sameOthers t s.cur.seq := by
  intro t
  obtain ⟨regs, -, cur, others⟩ := s'.accumulate_frame a tile rows row0 f0 z k16 occ
  have flags := (s'.accumulate a tile rows row0 f0 z k16 occ).sameOthers_raiseFlags fl
  have issue := ((s'.accumulate a tile rows row0 f0 z k16 occ).raiseFlags fl).sameOthers_retireOcc occ
  rw [State.cur_raiseFlags, cur, h.cur] at issue
  rw [cur, h.cur] at flags
  rw [h.cur] at others
  refine ⟨?_, ((h.others.trans others).trans flags).trans issue⟩
  rw [State.me_retireOcc, Seq.retire_r, State.me_raiseFlags, regs, h.me]

/-- Raising no flag leaves the state. -/
theorem State.raiseFlags_zero (s : State) : s.raiseFlags 0#4 = s := if_pos rfl

/-- An accumulation after its registers have changed, with the flags of its operand and its issue. -/
theorem State.withRegs.accumulated_issued {s s' : State} {r : Regs} (h : s.withRegs s' r) {a : Arr} {rows : List (List Num)}
    (hm : s.mismatch = false) (whole : ∀ r ∈ rows, r.length = a.h) (hh : a.h = 16 ∨ a.h = 32) (hw : a.w = 16 ∨ a.w = 32) {f0 : Nat}
    (fit : f0 + a.w ≤ 32) (tile : BitVec 9) (row0 : Nat) (z : Bool) (k16 : BitVec 1) (occ : Nat) (fl : BitVec 4) :
    Stmt.accumulated s (((s'.accumulate a tile.toNat rows row0 f0 z (k16 = 1#1) occ).raiseFlags fl).retireOcc occ) a tile rows row0 f0 z
      (if k16 = 1#1 ∨ a.h = 16 then 16 else 32) := by
  rw [← Arr.chunk_eq]
  exact h.accumulated (State.sameModule_trans (State.sameModule_raiseFlags _ fl) (State.sameModule_retireOcc _ occ))
    (State.accumulated_accumulate (h.mismatch.trans hm) whole hh (Arr.width_pos hw) fit tile row0 z _ occ)

theorem mmLdw_loads {s s1 : State} {g : BitVec 7} {a : Arr} {x : MOp} {west : Bool} {k : BitVec 2} {sw : BitVec 1}
    {rows : List (List Num)} (h : Stmt.drives s g [] a) (hb : ¬(west = true ∧ (Fmt.bx s.wfmt).isSome = true))
    (drained : s.mxDrains s.cur.seq = []) {sh : KShape} (hsh : sh = s.me.r.useK k sw) {j : Nat}
    (hj : j = min sh.rows.toNat (if west then a.h else a.w))
    (reads : s.srcRows s.cur.seq x sh sh.dec s.wfmt (if west then a.w else a.h) 0 j = .ok s1 rows) :
    ∃ t, exec (.mmLdw g x west k sw) s = .next t ∧ t.me.r = Stmt.tookRows (s1.me.r.swapKIf k sw) x j ∧
      t.mem = s1.mem ∧ t.cores = s1.cores ∧ s1.sameOthers t s1.cur.seq ∧ t.me.f.weights = loadedWeights a west s.wfmt rows := by
  have took := s1.withRegs_took x k sw j
  refine ⟨_, exec_mmLdw_reads h hb drained hsh hj reads, ?_, took.module.mem, took.module.cores, ?_, ?_⟩
  · rw [State.me_retireOcc, Seq.retire_r, State.me_setFlight, took.me]
  · have load := fun y => State.sameOthers_setMe_retireOcc ((s1.setRegs (s1.me.r.swapKIf k sw)).tookRows x j) y (max 1 j)
    rw [took.cur] at load
    exact took.others.trans (load _)
  · rw [State.me_retireOcc, State.me_setFlight]
    rfl

/-- With weights of another family mm leaves a region of no use and ityp, and no register changes. -/
theorem State.accumulate_mismatch_issued {s : State} (hm : s.mismatch = true) (a : Arr) (tile : BitVec 9) (rows : List (List Num))
    (row0 : Nat) {f0 : Nat} (hw : a.w = 16 ∨ a.w = 32) (fit : f0 + a.w ≤ 32) (z k16 : Bool) (occ : Nat) :
    let t := (s.accumulate a tile.toNat rows row0 f0 z k16 occ).retireOcc occ
    ∃ v, t.me.r = s.me.r ∧ t.me.c.fmt = s.me.c.fmt ∧ s.sameOthers t s.cur.seq ∧
      Stmt.tileWritten s t (coreOf s.cur.seq) tile row0 rows.length f0 a.w v ∧
      ((t.core (coreOf s.cur.seq)).stat tile.toNat).getLsbD 3 = decide (Fmt.family s.afmt = .int) := by
  obtain ⟨regs, ctl, cur, others⟩ := s.accumulate_frame a tile.toNat rows row0 f0 z k16 occ
  obtain ⟨⟨v, written⟩, ityp⟩ := State.tileWritten_mismatch hm a tile rows row0 (Arr.width_pos hw) fit z k16 occ
  have issue := (s.accumulate a tile.toNat rows row0 f0 z k16 occ).sameOthers_retireOcc occ
  have module := (s.accumulate a tile.toNat rows row0 f0 z k16 occ).sameModule_retireOcc occ
  rw [cur] at issue
  refine ⟨v, ?_, ?_, others.trans issue, State.tileWritten_of_sameModule s.sameModule_refl module written, ?_⟩
  · rw [State.me_retireOcc, Seq.retire_r, regs]
  · rw [State.me_retireOcc, ← ctl]
    rfl
  · rw [module.core, ityp]

theorem mmZero_clears {s : State} {g : BitVec 7} {a : Arr} {tile : BitVec 9} (h : Stmt.drives s g [tile] a)
    (room : s.me.f.tiles.length < 48) (i : BitVec 1) : ∃ t, exec (.mmZero g tile i) s = .next t ∧ t.me.r = s.me.r ∧
      s.sameOthers t s.cur.seq ∧ Stmt.tileWritten s t (coreOf s.cur.seq) tile 0 32 0 32 (fun _ _ => 0#32) ∧
      (t.core (coreOf s.cur.seq)).stat tile.toNat = if i = 1#1 then 8#4 else 0#4 := by
  have module := State.sameModule_retireOcc (s.zeroed a tile i) 1
  obtain ⟨regs, -, -, others⟩ := s.writeTile_frame tile.toNat (if i = 1#1 then 8#4 else 0#4) 0 32 0 32 1 a.lat (s.zeroVals tile)
  refine ⟨_, exec_mmZero_drives h room i, ?_, others.trans (State.sameOthers_retireOcc (s.zeroed a tile i) 1),
    State.tileWritten_of_sameModule s.sameModule_refl module
      (State.tileWritten_writeTile s tile _ 0 32 1 a.lat (by omega) (by omega) _), ?_⟩
  · rw [State.me_retireOcc, Seq.retire_r]
    exact regs
  · rw [module.core]
    exact State.stat_writeTile ..

/-- Settles O32: each instruction is brought to the state it leaves; what an accumulation leaves is one fact about its tile write, used
for mm and mm.chain alike. -/
theorem matrixAccumulatesInOrder : Obligations.MatrixAccumulatesInOrder := by
  refine ⟨?_, ?_, ?_, ?_, fun s g a tile i drives room => mmZero_clears drives room i⟩
  · intro s s1 g a x west k sw rows drives hb drained sh j reads
    obtain ⟨t, next, regs, mem, cores, others, weights⟩ := mmLdw_loads drives hb drained (sh := sh) rfl rfl reads
    refine ⟨t, next, regs, mem, cores, others, by rw [weights]; rfl, fun kk n hk hn => ?_⟩
    rw [weights]
    exact entry_loadedWeights a west s.wfmt rows hk hn
  · intro s g a x k sw drives hb
    exact ⟨westTrap s.cur.addr, rfl, rfl, rfl, exec_mmLdw_west_block drives hb x k sw⟩
  · intro s s1 g a tile x k sw z k16 rows drives room hh hw drained sh m reads len _ _ _ f0
    have next := exec_mm_reads drives room drained (sh := sh) rfl reads z k16
    have whole := State.length_of_mem_srcRows (Arr.whole_blocks hh) reads
    refine ⟨fun served => ?_, fun fam held other => ?_⟩
    · have hm := State.mismatch_eq_false served
      have took := State.withRegs_mmTook hm x k sw m
      rw [← State.raiseFlags_zero (State.accumulate ..)] at next
      obtain ⟨regs, others⟩ := took.accumulates a tile.toNat rows sh.row0.toNat f0 (z = 1#1) (k16 = 1#1)
        (mmOcc s1.afmt s1.wfmt m) 0#4
      exact ⟨_, next, regs, others, took.accumulated_issued hm whole hh hw (sh.f0_fits hw) ..⟩
    · have hm := State.mismatch_eq_true held other
      rw [show s1.mmTook x k sw sh.m = s1 from if_pos hm] at next
      obtain ⟨v, junk⟩ := State.accumulate_mismatch_issued hm a tile rows sh.row0.toNat hw (sh.f0_fits hw) (z = 1#1) (k16 = 1#1)
        (mmOcc s1.afmt s1.wfmt m)
      rw [len] at junk
      exact ⟨_, v, next, junk⟩
  · intro s g a td ta k sw k16 drives room hh hw served sh isInt m row rows
    have hm := State.mismatch_eq_false served
    have set := s.withRegs_setRegs (s.me.r.swapKIf k sw)
    obtain ⟨regs, others⟩ := set.accumulates a td.toNat rows sh.row0.toNat (sh.f0 a) false (k16 = 1#1)
      (mmOcc s.afmt s.wfmt m) (s.chainFlags a ta sh).bits
    refine ⟨_, exec_mmChain_matched drives room hm (sh := sh) rfl k16, regs, others,
      set.accumulated_issued hm (fun r hr => ?_) hh hw (sh.f0_fits hw) ..⟩
    obtain ⟨i, -, rfl⟩ := List.mem_map.mp hr
    exact length_decRow _ (Arr.whole_blocks hh) _

end Sys2Proof.Machine
end

section
/-! PROOFS. Awaited results (O14; spec/07 R163, R181): delivery to a register, and the load queue. -/

namespace Sys2Proof.Machine

/-! ### LOAD_DATA_RETURN -/

theorem exec_loadDataReturn_found {s : State} {q k : Nat} {o : Out} (h : (s.seq q).f.outs.find? (fun o => o.k == k) = some o) :
    exec (.loadDataReturn q k) s = .next (s.setSeq q { s.seq q with
      r := (s.seq q).r.deliver o, f := { (s.seq q).f with outs := (s.seq q).f.outs.filter fun o => o.k != k } }) := by
  simp only [exec_loadDataReturn, execLoadDataReturn, h]

theorem Regs.deliver_scalar {o : Out} {n : BitVec 6} (h : o.dst = .s n) (r : Regs) :
    r.deliver o = r.setS n (o.v.setWidth 64) := by
  rw [Regs.deliver, h]

theorem Regs.deliver_vector {o : Out} {n : BitVec 5} (h : o.dst = .v n) (r : Regs) :
    r.deliver o = r.setV n ((o.v &&& o.act) ||| (r.getV n &&& ~~~ o.act)) := by
  rw [Regs.deliver, h]

theorem Regs.deliver_drop {o : Out} (h : o.dst = .drop) (r : Regs) : r.deliver o = r := by
  rw [Regs.deliver, h]

/-- What a merge under a mask has in each bit. -/
theorem getLsbD_merge {w : Nat} (v m x : BitVec w) {b : Nat} (hb : b < w) :
    ((v &&& m) ||| (x &&& ~~~ m)).getLsbD b = if m.getLsbD b then v.getLsbD b else x.getLsbD b := by
  simp only [BitVec.getLsbD_or, BitVec.getLsbD_and, BitVec.getLsbD_not, hb, decide_true, Bool.true_and]
  cases m.getLsbD b <;> simp

/-! ### The load queue -/

/-- A result on its way arrives. -/
theorem exec_atomicResultReturn_coming {s : State} {q id : Nat} {e : LqEnt} {w : Word}
    (h : (s.seq q).f.lq.find? (fun e => e.id == id) = some e) (hw : e.coming = some w) :
    exec (.atomicResultReturn q id) s = .next (s.setSeq q ((s.seq q).arrive id w)) := by
  simp only [exec_atomicResultReturn, execAtomicResultReturn, h, hw]

theorem Seq.arrive_c (x : Seq) (id : Nat) (w : Word) : (x.arrive id w).c = x.c := by
  unfold Seq.arrive
  repeat' split
  all_goals rfl

/-- It stays in an entry that no lq.pop has taken. -/
theorem Seq.arrive_waiting {x : Seq} {id : Nat} {e : LqEnt} (h : x.f.lq.find? (fun e => e.id == id) = some e)
    (hp : e.pop = none) (w : Word) : x.arrive id w = { x with f := { x.f with
      lq := x.f.lq.map fun d => if d.id = id then { d with val := some w, coming := none } else d } } := by
  simp only [Seq.arrive, h, hp]

/-- It goes on to the register of the lq.pop that took its entry. -/
theorem Seq.arrive_popped {x : Seq} {id : Nat} {e : LqEnt} {r : BitVec 6} (h : x.f.lq.find? (fun e => e.id == id) = some e)
    (hp : e.pop = some r) (w : Word) : x.arrive id w =
      { x with r := x.r.setS r w, f := { x.f with lq := x.f.lq.filter fun d => d.id != id } } := by
  simp only [Seq.arrive, h, hp]

theorem exec_lqPop_empty {s : State} {g : BitVec 7} (hg : s.guardOn g = true) (h : s.me.f.reserved = []) (x : BitVec 6) :
    exec (.lqPop g x) s = .next (s.ws x 0#64).retire := by
  simp only [exec_lqPop, execLqPop, slotDo_on hg, h]

theorem exec_lqPop_arrived {s : State} {g : BitVec 7} (hg : s.guardOn g = true) {e : LqEnt} {es : List LqEnt}
    (h : s.me.f.reserved = e :: es) {w : Word} (hw : e.val = some w) (x : BitVec 6) : exec (.lqPop g x) s =
      .next ((s.setFlight { s.me.f with lq := s.me.f.lq.filter fun d => d.id != e.id }).ws x w).retire := by
  simp only [exec_lqPop, execLqPop, slotDo_on hg, h, hw]

theorem exec_lqPop_awaits {s : State} {g : BitVec 7} (hg : s.guardOn g = true) {e : LqEnt} {es : List LqEnt}
    (h : s.me.f.reserved = e :: es) (hw : e.val = none) (x : BitVec 6) : exec (.lqPop g x) s = .next (s.setFlight { s.me.f with
      lq := s.me.f.lq.map fun d => if d.id = e.id then { d with pop := some x } else d }).retire := by
  simp only [exec_lqPop, execLqPop, slotDo_on hg, h, hw]

/-- A change of what is under way, then a scalar write, and the issue. -/
theorem State.me_setFlight_ws_retire (s : State) (f : Flight) (x : BitVec 6) (w : Word) : ((s.setFlight f).ws x w).retire.me =
    Seq.retire { s.me with f := f, r := s.me.r.setS x w } s.cur.bn s.cur.slot 1 := by
  rw [State.me_retire, State.me_ws, State.me_setFlight]
  rfl

theorem State.sameOthers_setFlight_ws_retire (s : State) (f : Flight) (x : BitVec 6) (w : Word) :
    s.sameOthers ((s.setFlight f).ws x w).retire s.cur.seq :=
  (s.sameOthers_setMe _).trans ((s.setFlight f).sameOthers_setMe_retire _)

theorem State.sameModule_setFlight_ws_retire (s : State) (f : Flight) (x : BitVec 6) (w : Word) :
    s.sameModule ((s.setFlight f).ws x w).retire :=
  State.sameModule_trans (s.sameModule_setMe _) ((s.setFlight f).sameModule_setMe_retire _)

/-- Settles O14: a delivery writes the register that the result awaits, an arrival the entry or the register of its lq.pop, and
lq.pop takes the first entry that is reserved. -/
theorem resultsReachTheirRegister : Obligations.ResultsReachTheirRegister := by
  refine ⟨fun s q k o ho => ⟨_, exec_loadDataReturn_found ho, ?_⟩, fun s q id e w he hw =>
    ⟨_, exec_atomicResultReturn_coming he hw, ?_⟩, fun s g x hg => ⟨fun none_reserved => ?_, fun e es first => ?_⟩⟩
  · rw [State.seq_setSeq_same]
    refine ⟨rfl, fun p hp => State.seq_setSeq_other s _ hp, State.sameModule_setSeq .., rfl, fun n hn => ?_, fun n hn => ?_,
      fun hd => Regs.deliver_drop hd _⟩
    · simp only [Regs.deliver_scalar hn]
      exact ⟨Regs.sameBut_setS .., by rw [Regs.getS_setS, if_pos rfl]⟩
    · simp only [Regs.deliver_vector hn]
      refine ⟨Regs.sameBut_setV .., fun b hb => ?_⟩
      rw [Regs.getV_setV, if_pos rfl, getLsbD_merge _ _ _ hb]
  · rw [State.seq_setSeq_same]
    refine ⟨Seq.arrive_c .., fun p hp => State.seq_setSeq_other s _ hp, State.sameModule_setSeq .., fun hp => ?_,
      fun r hr => ?_⟩
    · rw [Seq.arrive_waiting he hp]
      exact ⟨rfl, rfl⟩
    · rw [Seq.arrive_popped he hr]
      exact ⟨Regs.sameBut_setS .., by rw [Regs.getS_setS, if_pos rfl], rfl⟩
  · refine ⟨_, exec_lqPop_empty hg none_reserved x, s.onlyRegs_ws x 0#64, ?_⟩
    rw [State.rs_retire, State.rs_ws, if_pos rfl, ite_self]
  · cases hv : e.val with
    | some w =>
      refine ⟨_, exec_lqPop_arrived hg first hv x, s.sameOthers_setFlight_ws_retire _ x w, s.sameModule_setFlight_ws_retire _ x w,
        fun w' hw => ?_, nofun⟩
      cases hw
      rw [State.rs, State.me_setFlight_ws_retire]
      exact ⟨Regs.sameBut_setS .., by rw [Seq.retire_r, Regs.getS_setS, if_pos rfl], rfl⟩
    | none =>
      refine ⟨_, exec_lqPop_awaits hg first hv x, s.sameOthers_setMe_retire _, s.sameModule_setMe_retire _,
        fun _ => nofun, fun _ => ?_⟩
      rw [State.me_setFlight_retire]
      exact ⟨rfl, rfl⟩

end Sys2Proof.Machine
end

section
/-! PROOFS. The store queue and local accesses (O17; spec/07 R157, R178, R180): what an issue that changes what is under way leaves, and
what the head of a store queue does. -/

namespace Sys2Proof

/-! ### Little-endian bytes -/

@[simp] theorem length_leBytes (v n : Nat) : (leBytes v n).length = n := by
  induction n generalizing v with
  | zero => rfl
  | succ n ih => rw [leBytes, List.length_cons, ih]

theorem getElem_leBytes (v : Nat) {n i : Nat} (h : i < (leBytes v n).length) : (leBytes v n)[i] = BitVec.ofNat 8 (v / 256 ^ i) := by
  induction n generalizing v i with
  | zero => exact absurd h (Nat.not_lt_zero i)
  | succ n ih =>
    cases i with
    | zero => simp [leBytes]
    | succ i => simp only [leBytes, List.getElem_cons_succ, ih, Nat.div_div_eq_div_mul, Nat.pow_succ']

namespace Machine

/-! ### The issue of a slot that sets something under way -/

/-- A change of what is under way that leaves the D-time, and the issue of the slot. -/
theorem State.issuedWith_setFlight (s : State) {f : Flight} (h : f.dtime = s.me.f.dtime) :
    Stmt.issuedWith s (s.setFlight f).retire s.me.r f := by
  have me := s.me_setFlight_retire f
  refine ⟨by rw [me]; rfl, by rw [me]; rfl, by rw [me]; rfl, ?_, rfl⟩
  rw [me]
  simp only [Seq.retire, h]

/-- A result is set under way, and the slot issues. -/
theorem State.awaits_awaitS_retire (s : State) (x : BitVec 6) (w : Word) (n : Nat) :
    Stmt.awaits s.me.f (s.awaitS x w n).retire.me.f x w := by
  rw [State.awaitS, State.await, State.me_setFlight_retire]
  exact ⟨_, n, rfl⟩

theorem State.me_r_awaitS_retire (s : State) (x : BitVec 6) (w : Word) (n : Nat) : (s.awaitS x w n).retire.me.r = s.me.r := by
  rw [State.awaitS, State.await, State.me_setFlight_retire]
  rfl

theorem State.sameOthers_awaitS_retire (s : State) (x : BitVec 6) (w : Word) (n : Nat) :
    s.sameOthers (s.awaitS x w n).retire s.cur.seq := s.sameOthers_setMe_retire _

theorem State.sameModule_awaitS_retire (s : State) (x : BitVec 6) (w : Word) (n : Nat) :
    s.sameModule (s.awaitS x w n).retire := s.sameModule_setMe_retire _

/-! ### ld.sp and st.sp -/

/-- A place of the scratchpad outside marked buffers is read where it lies. -/
theorem State.locRead_unmarked {s : State} {c o : Nat} (h : (s.core c).marked o = none) (q bn : Nat) (sync : Bool) (n : Nat) :
    s.locRead q bn sync (.spad c o) n = (s, BitVec.ofNat 64 (leNat (Mem.bytes (s.core c).spad o n))) := by
  simp only [State.locRead, CoreSt.spadRead, readOff, h]

theorem exec_ldSp_reads {s : State} {g : BitVec 7} {b : BitVec 6} {off : BitVec 11} {c o : Nat} (hg : s.guardOn g = true)
    (check : s.locCheck (coreOf s.cur.seq) (s.ctxOf s.cur.seq) (s.eaBM b off 8) 8 opRead pcMem = .ok (.spad c o))
    (free : s.meetEvents true (s.eaBM b off 8).toNat 8 = []) (noEnd : s.regionWait = false)
    (unmarked : (s.core c).marked o = none) (x : BitVec 6) :
    exec (.ldSp g x b off) s = .next (s.awaitS x (BitVec.ofNat 64 (leNat (Mem.bytes (s.core c).spad o 8)))).retire := by
  rw [exec_ldSp, execLdSp, slotOp_on hg]
  simp only [check, free, noEnd, State.locRead_unmarked unmarked, List.isEmpty_nil, Bool.not_true, Bool.false_eq_true, if_false]
  rfl

theorem exec_stSp_queues {s : State} {g : BitVec 7} {b : BitVec 6} {off : BitVec 11} {loc : Loc} (hg : s.guardOn g = true)
    (check : s.locCheck (coreOf s.cur.seq) (s.ctxOf s.cur.seq) (s.eaBM b off 8) 8 opWrite pcMem = .ok loc)
    (room : s.fullB = false) (free : s.streamMeets true (s.eaBM b off 8).toNat 8 = []) (noEnd : s.regionWait = false)
    (x : BitVec 6) : exec (.stSp g x b off) s = .next (s.pushB
      (.loc [{ addr := (s.eaBM b off 8).toNat, size := 8, data := s.rs x }] (s.me.covers s.cur.bn)) none).retire := by
  rw [exec_stSp, execStSp, slotOp_on hg]
  simp only [check, room, free, noEnd, List.isEmpty_nil, Bool.not_true, Bool.false_eq_true, if_false]
  rfl

/-! ### STORE_PERFORM -/

/-- The head of a queue that is a plain or local store without release, and waits for nothing, acts and leaves its queue. -/
theorem exec_storePerform_head {s : State} {q slot : Nat} {e : StoreEnt} {es : List StoreEnt}
    (head : slot = 1 ∧ (s.seq q).f.storeB = e :: es ∨ slot = 2 ∧ (s.seq q).f.storeC = e :: es)
    (act : (∃ ds, e.act = .plain ds) ∨ ∃ ds cov, e.act = .loc ds cov) (rel : e.rel = none)
    (noOlder : s.olderClash q slot e = false) (noAtomic : s.atFirst q e = false) (noGate : s.actGate q e.act = none) :
    exec (.storePerform q slot) s = .next ((s.performAct q e.act).dropStore q slot) := by
  have first : (if slot = 1 then (s.seq q).f.storeB else if slot = 2 then (s.seq q).f.storeC else []) = e :: es := by
    obtain ⟨rfl, h⟩ | ⟨rfl, h⟩ := head <;> exact h
  have perform : s.performHead q slot e = .next ((s.performAct q e.act).dropStore q slot) := by
    simp only [State.performHead, rel]
  rw [exec_storePerform, execStorePerform]
  obtain ⟨ds, h⟩ | ⟨ds, cov, h⟩ := act
  all_goals
    rw [h] at noGate
    simp only [first, h, noOlder, noAtomic, noGate, perform, Bool.false_eq_true, if_false]

theorem State.seq_dropStore (s : State) (q slot : Nat) : (s.dropStore q slot).seq q = { s.seq q with
    f := if slot = 1 then { (s.seq q).f with storeB := (s.seq q).f.storeB.drop 1 }
      else { (s.seq q).f with storeC := (s.seq q).f.storeC.drop 1 } } := State.seq_setSeq_same ..

/-- What has left the sequencers leaves them so with an entry less. -/
theorem State.seq_dropStore_congr {s t : State} (h : t.seqs = s.seqs) (q slot p : Nat) :
    (t.dropStore q slot).seq p = (s.dropStore q slot).seq p := by
  simp only [State.dropStore, State.seq, State.setSeq, h]

theorem State.sameOthers_dropStore {s t : State} (h : t.seqs = s.seqs) (q slot : Nat) : s.sameOthers (t.dropStore q slot) q :=
  fun p hp => (State.seq_dropStore_congr h q slot p).trans (State.seq_setSeq_other s _ hp)

/-! ### A local store that is performed -/

theorem CoreSt.spadWrite_unmarked {c : CoreSt} {o : Nat} (h : c.marked o = none) (bs : List Byte) (inside : Bool) :
    c.spadWrite o bs inside = { c with spad := Mem.write c.spad o bs } := by
  simp only [CoreSt.spadWrite, h]

/-- An element at a scratchpad offset outside marked buffers is written where it lies. -/
theorem State.storeLoc_unmarked {s : State} {q c o : Nat} {el : Elem}
    (loc : locOf (coreOf q) (BitVec.ofNat 64 el.addr) = some (.spad c o)) (h : (s.core c).marked o = none) (cov : Bool) :
    s.storeLoc q cov el =
      s.setCore c { s.core c with spad := Mem.write (s.core c).spad o (leBytes el.data.toNat el.size) } := by
  simp only [State.storeLoc, loc, State.locWrite, CoreSt.spadWrite_unmarked h]

/-- Settles O17: ld.sp reads its place, st.sp appends its entry, and the head of a queue writes its bytes at its place. -/
theorem localAccessesReadAndWriteTheScratchpad : Obligations.LocalAccessesReadAndWriteTheScratchpad := by
  refine ⟨fun s g x b off c o hg => ⟨fun check free noEnd unmarked => ?_, fun check room free noEnd => ?_⟩, ?_⟩
  · exact ⟨_, exec_ldSp_reads hg check free noEnd unmarked x, s.me_r_awaitS_retire .., s.sameOthers_awaitS_retire x _ 0,
      s.sameModule_awaitS_retire .., s.awaits_awaitS_retire ..⟩
  · exact ⟨_, exec_stSp_queues hg check room free noEnd x, s.issuedWith_setFlight rfl, s.sameOthers_setMe_retire _,
      s.sameModule_setMe_retire _⟩
  · intro s q slot e el es cov c o head act rel noOlder loc unmarked
    have noAtomic : s.atFirst q e = false := by simp only [State.atFirst, act]
    have next := exec_storePerform_head head (.inr ⟨_, _, act⟩) rel noOlder noAtomic (by rw [act]; rfl)
    have stored : s.performAct q e.act =
        s.setCore c { s.core c with spad := Mem.write (s.core c).spad o (leBytes el.data.toNat el.size) } := by
      rw [act]
      exact State.storeLoc_unmarked loc unmarked cov
    rw [stored] at next
    refine ⟨_, next, by rw [State.seq_dropStore_congr]; rfl, by rw [State.seq_dropStore]; rfl,
      State.sameOthers_dropStore rfl q slot, rfl, rfl, fun d hd => State.core_setCore_other s _ hd, ?_⟩
    rw [show ∀ t : State, (t.dropStore q slot).core c = t.core c from fun _ => rfl, State.core_setCore_same]
    refine ⟨rfl, fun n hn => ?_, fun n hn => Mem.get_write_other _ _ _ _ (by rw [length_leBytes]; exact hn)⟩
    rw [Mem.get_write_at _ _ _ _ (by rw [length_leBytes]; exact hn), getElem_leBytes]

end Machine

end Sys2Proof
end

section
/-! PROOFS. Scratchpad buffers (O26; spec/07 R166 to R173): a descriptor's word and its update, the operations at issue, and what
BUFFER_STATE_CHANGE and BUFFER_ZEROING_DONE leave. -/

namespace Sys2Proof

/-! ### Ranges that are zeroed -/

/-- What a table that is filtered by its keys has at a key. -/
theorem Tab.get?_filter_key {α : Type} (t : Tab α) (p : Nat → Bool) (n : Nat) :
    Tab.get? (t.filter fun e => p e.1) n = if p n then Tab.get? t n else none := by
  induction t with
  | nil => simp [Tab.get?]
  | cons e t ih =>
    obtain ⟨k, v⟩ := e
    cases hk : p k
    · rw [List.filter_cons_of_neg (by simp [hk]), ih, Tab.get?]
      by_cases hn : n = k
      · simp [hn, hk]
      · rw [if_neg hn]
    · rw [List.filter_cons_of_pos (by simp [hk]), Tab.get?, Tab.get?, ih]
      by_cases hn : n = k
      · simp [hn, hk]
      · rw [if_neg hn, if_neg hn]

theorem Mem.get_zero (m : Mem) (a n o : Nat) : Mem.get (Mem.zero m a n) o = if a ≤ o ∧ o < a + n then 0#8 else Mem.get m o := by
  have kept := Tab.get?_filter_key m (fun k => !(decide (a ≤ k) && decide (k < a + n))) o
  unfold Mem.get Mem.zero Tab.getD
  rw [kept]
  by_cases h : a ≤ o ∧ o < a + n
  · simp [h]
  · rw [if_neg h, if_pos]
    simp only [Bool.not_eq_true', Bool.and_eq_false_iff, decide_eq_false_iff_not]
    omega

/-! ### Fields of a word as a sum -/

theorem toNat_append_add {m n : Nat} (a : BitVec m) (b : BitVec n) : (a ++ b).toNat = a.toNat * 2 ^ n + b.toNat := by
  rw [BitVec.toNat_append, ← Nat.shiftLeft_add_eq_or_of_lt b.isLt, Nat.shiftLeft_eq]

namespace Machine

/-! ### Descriptors -/

theorem CoreSt.desc_setDesc (c : CoreSt) (n m : Nat) (d : Desc) : (c.setDesc n d).desc m = if m = n then d else c.desc m := by
  unfold CoreSt.setDesc CoreSt.desc
  by_cases h : d = {}
  · rw [if_pos h, Tab.getD_erase, h]
  · rw [if_neg h, Tab.getD_put]

/-- The word of R167 is its fields in a row. -/
theorem Desc.word_eq_append (d : Desc) : d.word = 0#16 ++ d.lines ++ d.base ++ 0#3 ++ BitVec.ofBool d.zeroing ++
    BitVec.ofBool d.spec ++ d.owner ++ 0#9 ++ d.state := by
  have flag : ∀ b : Bool, (BitVec.ofBool b).toNat = if b then 1 else 0 := by decide
  have fits : d.lines.toNat * 2 ^ 33 + d.base.toNat * 2 ^ 19 + (if d.zeroing then 2 ^ 15 else 0) +
      (if d.spec then 2 ^ 14 else 0) + d.owner.toNat * 2 ^ 12 + d.state.toNat < 2 ^ 64 := by
    have h1 := d.lines.isLt
    have h2 := d.base.isLt
    have h3 := d.owner.isLt
    have h4 := d.state.isLt
    split <;> split <;> omega
  refine BitVec.eq_of_toNat_eq ?_
  rw [Desc.word, BitVec.toNat_ofNat, Nat.mod_eq_of_lt fits]
  simp only [toNat_append_add, flag, BitVec.toNat_ofNat, Nat.zero_mod]
  split <;> split <;> omega

/-- A core in which one descriptor has changed, and neither store, nor the L1. -/
structure CoreSt.describes (c c1 : CoreSt) (n : Nat) (d : Desc) : Prop where
  spad : c1.spad = c.spad
  acc : c1.acc = c.acc
  l1 : c1.l1 = c.l1
  others : ∀ m, m ≠ n → c1.desc m = c.desc m
  desc : c1.desc n = d

theorem CoreSt.describes_setDesc (c : CoreSt) (n : Nat) (d : Desc) : c.describes (c.setDesc n d) n d :=
  ⟨rfl, rfl, rfl, fun m hm => by rw [CoreSt.desc_setDesc, if_neg hm], by rw [CoreSt.desc_setDesc, if_pos rfl]⟩

/-- Marks of banks and regions are no part of it. -/
theorem CoreSt.describes.marks {c c1 : CoreSt} {n : Nat} {d : Desc} (h : c.describes c1 n d) (live region : List Nat) :
    c.describes { c1 with live := live, region := region } n d := ⟨h.spad, h.acc, h.l1, h.others, h.desc⟩

/-! ### The matrix of R168 -/

theorem state_cases (st : BitVec 3) :
    st = 0#3 ∨ st = 1#3 ∨ st = 2#3 ∨ st = 3#3 ∨ st = 4#3 ∨ st = 5#3 ∨ st = 6#3 ∨ st = 7#3 := by
  revert st
  decide

/-- The model's matrix is that of R168. -/
theorem BufOp.next_eq_bufNext (op : BufOp) (st : BitVec 3) : op.next st = Stmt.bufNext op st.toNat := by
  obtain rfl | rfl | rfl | rfl | rfl | rfl | rfl | rfl := state_cases st
  all_goals cases op <;> rfl

/-- The descriptor that an operation leaves. -/
def BufOp.result (op : BufOp) (d : Desc) (st : BitVec 3) : Desc :=
  match op with
  | .decl base size spec own =>
    { lines := BitVec.ofNat 15 (size / 64), base := BitVec.ofNat 14 (base / 64), zeroing := true, spec := spec, owner := own,
      state := st }
  | .free => {}
  | .fill | .done | .drain => { d with state := st }

/-- An operation that the matrix allows, a declaration of a range that meets no other, changes its descriptor. -/
theorem CoreSt.bufApply_allowed {c : CoreSt} {n : Nat} {op : BufOp} {st : BitVec 3} (next : op.next (c.desc n).state = some st)
    (free : ∀ base size spec own, op = .decl base size spec own →
      ∀ e ∈ c.descs, e.2.meets base (op.result (c.desc n) st).span = false) :
    ∃ c1, c.bufApply n op = .ok c1 ∧ c.describes c1 n (op.result (c.desc n) st) := by
  cases op with
  | decl base size spec own =>
    have apart : (c.descs.any fun e => e.2.meets base ((BufOp.decl base size spec own).result (c.desc n) st).span) = false :=
      List.any_eq_false.2 fun e he => Bool.not_eq_true _ ▸ free base size spec own rfl e he
    rw [BufOp.result] at apart
    simp only [CoreSt.bufApply, next, apart, Bool.false_eq_true, if_false]
    exact ⟨_, rfl, (c.describes_setDesc n _).marks _ _⟩
  | free =>
    simp only [CoreSt.bufApply, next]
    refine ⟨_, rfl, ?_⟩
    split
    · exact (c.describes_setDesc n {}).marks _ _
    · exact c.describes_setDesc n {}
  | fill | done | drain =>
    simp only [CoreSt.bufApply, next]
    exact ⟨_, rfl, c.describes_setDesc n _⟩

theorem CoreSt.bufApply_refused {c : CoreSt} {n : Nat} {op : BufOp} (next : op.next (c.desc n).state = none) :
    c.bufApply n op = .error (c.bufRefuse n op 2) := by
  simp only [CoreSt.bufApply, next]

/-- The state and the reason in the word of the trap 0x12 (spec/07 R170). -/
theorem bufTrap_fields {n st op reason : Nat} (addr : Nat) (ho : op < 16) (hr : reason < 8) :
    (bufTrap n st op reason addr).w4.extractLsb' 55 3 = BitVec.ofNat 3 st ∧
    (bufTrap n st op reason addr).w4.extractLsb' 48 3 = BitVec.ofNat 3 reason := by
  constructor
  all_goals
    refine BitVec.eq_of_toNat_eq ?_
    rw [BitVec.extractLsb'_toNat, bufTrap, BitVec.toNat_ofNat, BitVec.toNat_ofNat, Nat.shiftRight_eq_div_pow]
    omega

theorem CoreSt.bufRefuse_fields (c : CoreSt) (n : BitVec 6) (op : BufOp) :
    (c.bufRefuse n.toNat op 2).w4.extractLsb' 55 3 = (c.desc n.toNat).state ∧
    (c.bufRefuse n.toNat op 2).w4.extractLsb' 48 3 = 2#3 := by
  have code : op.code < 16 := by cases op <;> simp [BufOp.code]
  have state : BitVec.ofNat 3 (c.desc n.toNat).state.toNat = (c.desc n.toNat).state := by rw [BitVec.ofNat_toNat, BitVec.setWidth_eq]
  unfold CoreSt.bufRefuse
  exact ⟨(bufTrap_fields _ code (by decide)).1.trans state, (bufTrap_fields _ code (by decide)).2⟩

/-! ### The operations at issue -/

/-- A change of what is under way alone. -/
theorem State.setFlight_frame (s : State) (f : Flight) : (s.setFlight f).me.r = s.me.r ∧ (s.setFlight f).me.c = s.me.c ∧
    s.sameOthers (s.setFlight f) s.cur.seq ∧ s.sameModule (s.setFlight f) ∧ (s.setFlight f).me.f = f := by
  rw [State.me_setFlight]
  exact ⟨rfl, rfl, s.sameOthers_setMe _, s.sameModule_setMe _, rfl⟩

theorem bufOp_holds {s : State} {g : BitVec 7} {x : BitVec 6} (hg : s.guardOn g = true) (ok : s.descOk s.cur.seq x.toNat = true)
    (op : BufOp) : bufOp op g x s =
      .next (s.setFlight { s.me.f with holdB := some { bn := s.cur.bn, addr := s.cur.addr, what := .buf x op } }) := by
  rw [bufOp, slotOp_on hg, if_pos ok]
  rfl

theorem bufOp_refused {s : State} {g : BitVec 7} {x : BitVec 6} (hg : s.guardOn g = true)
    (bad : s.descOk s.cur.seq x.toNat = false) (op : BufOp) : bufOp op g x s = s.raise descTrap := by
  rw [bufOp, slotOp_on hg, bad]
  rfl

/-- An operation other than a declaration is refused, or holds queue B, as its descriptor is the context's or not. -/
theorem bufOp_goes {s : State} {g : BitVec 7} {x : BitVec 6} (hg : s.guardOn g = true) (op : BufOp) {i : Instr}
    (hi : exec i s = bufOp op g x s) :
    (s.descOk s.cur.seq x.toNat = false → ∃ tr : Trap, tr.code = 0x11 ∧ exec i s = s.raise tr) ∧
    ∀ o, some op = some o → s.descOk s.cur.seq x.toNat = true → ∃ t, exec i s = .next t ∧ t.me.r = s.me.r ∧ t.me.c = s.me.c ∧
      s.sameOthers t s.cur.seq ∧ s.sameModule t ∧ t.me.f = { s.me.f with
        holdB := some { bn := s.cur.bn, addr := s.cur.addr, what := .buf x o } } := by
  refine ⟨fun bad => ⟨descTrap, rfl, hi.trans (bufOp_refused hg bad op)⟩, fun o ho ok => ?_⟩
  cases ho
  exact ⟨_, hi.trans (bufOp_holds hg ok op), s.setFlight_frame _⟩

theorem exec_bfState_reads {s : State} {g : BitVec 7} {y : BitVec 6} (hg : s.guardOn g = true)
    (ok : s.descOk s.cur.seq y.toNat = true) (x : BitVec 6) :
    exec (.bfState g x y) s = .next (s.awaitS x ((s.core (coreOf s.cur.seq)).desc y.toNat).word).retire := by
  rw [exec_bfState, execBfState, slotOp_on hg, if_pos ok]
  rfl

theorem exec_bfState_refused {s : State} {g : BitVec 7} {y : BitVec 6} (hg : s.guardOn g = true)
    (bad : s.descOk s.cur.seq y.toNat = false) (x : BitVec 6) : exec (.bfState g x y) s = s.raise descTrap := by
  rw [exec_bfState, execBfState, slotOp_on hg, bad]
  rfl

/-- A declaration whose banks run the context is the context's. -/
theorem State.declLost_eq_false {s : State} {q base size : Nat} {spec : Bool} {own : BitVec 2}
    (banks : ∀ b, b < 4 → b * 2 ^ 18 < base + (if spec then 2 * size else size) → base < (b + 1) * 2 ^ 18 →
      s.quadRuns (coreOf q) b (s.ctxOf q) = true)
    (owner : spec = true → s.quadRuns (coreOf q) own.toNat (s.ctxOf q) = true) :
    s.declLost q (.decl base size spec own) = false := by
  have run : (banksOf base (if spec then 2 * size else size)).any (fun b => !s.quadRuns (coreOf q) b (s.ctxOf q)) = false := by
    refine List.any_eq_false.2 fun b hb => ?_
    obtain ⟨four, meets⟩ := List.mem_filter.1 hb
    have lt : b < 4 := by
      simp only [List.mem_cons, List.not_mem_nil, or_false] at four
      omega
    simp only [overlap, Bool.and_eq_true, decide_eq_true_eq] at meets
    simp [banks b lt meets.1 (by omega)]
  have owned : (spec && !s.quadRuns (coreOf q) own.toNat (s.ctxOf q)) = false := by
    cases spec with
    | false => rfl
    | true => rw [owner rfl]; rfl
  rw [State.declLost, run, owned]
  rfl

theorem exec_bfDecl_holds {s : State} {g : BitVec 7} {x y z : BitVec 6} {spec : BitVec 1} {own : BitVec 2}
    (hg : s.guardOn g = true) (ok : s.descOk s.cur.seq x.toNat = true) {base size : Nat} (hb : (s.rs y).toNat = base)
    (hz : (s.rs z).toNat = size) (line : base % 64 = 0) (nonempty : 0 < size) (lines : size % 64 = 0)
    (fits : base + (if spec = 1#1 then 2 * size else size) ≤ 2 ^ 20)
    (mine : s.declLost s.cur.seq (.decl base size (spec == 1#1) own) = false) :
    exec (.bfDecl g x y z spec own) s = .next (s.setFlight { s.me.f with
      holdB := some { bn := s.cur.bn, addr := s.cur.addr, what := .buf x (.decl base size (spec == 1#1) own) } }) := by
  have span : (if (spec == 1#1) = true then 2 * size else size) = if spec = 1#1 then 2 * size else size := by
    simp only [beq_iff_eq]
  have below : base / 2 ^ 20 = 0 := Nat.div_eq_of_lt (by split at fits <;> omega)
  rw [exec_bfDecl, execBfDecl, slotOp_on hg]
  simp only [hb, hz, ok, span, below, line, lines, Nat.not_lt.2 fits, Nat.pos_iff_ne_zero.1 nonempty, mine, ne_eq, not_true_eq_false,
    decide_false, Bool.or_false, Bool.not_true, Bool.false_eq_true, if_false]
  rfl

theorem exec_bfDecl_refused {s : State} {g : BitVec 7} {x : BitVec 6} (hg : s.guardOn g = true)
    (bad : s.descOk s.cur.seq x.toNat = false) (y z : BitVec 6) (spec : BitVec 1) (own : BitVec 2) :
    exec (.bfDecl g x y z spec own) s = s.raise descTrap := by
  rw [exec_bfDecl, execBfDecl, slotOp_on hg]
  simp only [bad, Bool.not_false, if_true]
  rfl

/-! ### BUFFER_STATE_CHANGE -/

/-- The state in which a refused change traps: queue B is free, and the cursor is back at its slot. -/
def State.unheld (s : State) (q : Nat) (hb : HoldB) : State :=
  { s.setSeq q { s.seq q with f := { (s.seq q).f with holdB := none } } with
    cur := { seq := q, slot := 1, bn := hb.bn, addr := hb.addr } }

theorem State.unheld_frame (s : State) (q : Nat) (hb : HoldB) : (s.unheld q hb).cores = s.cores ∧ (s.unheld q hb).mem = s.mem ∧
    ((s.unheld q hb).seq q).r = (s.seq q).r ∧ ((s.unheld q hb).seq q).f = { (s.seq q).f with holdB := none } ∧
    (s.unheld q hb).cur.seq = q ∧ (s.unheld q hb).cur.slot = 1 ∧ (s.unheld q hb).cur.bn = hb.bn := by
  have seq : (s.unheld q hb).seq q = { s.seq q with f := { (s.seq q).f with holdB := none } } := State.seq_setSeq_same ..
  rw [seq]
  exact ⟨rfl, rfl, rfl, rfl, rfl, rfl, rfl⟩

/-- A change that waits for nothing is refused, or takes effect, as its descriptor says. -/
theorem exec_bufferStateChange_due {s : State} {q : Nat} {hb : HoldB} {n : BitVec 6} {op : BufOp}
    (due : Stmt.changeDue s q hb n op) : exec (.bufferStateChange q) s =
      if !s.descOk q n.toNat || s.declLost q op then (s.unheld q hb).raise descTrap
      else match (s.core (coreOf q)).bufApply n.toNat op with
        | .ok c1 => .next ((s.setCore (coreOf q) c1).endHold q hb.bn)
        | .error t => (s.unheld q hb).raise t := by
  have zeroed : (decide (op = .fill) && ((s.core (coreOf q)).desc n.toNat).zeroing) = false := by
    by_cases h : op = .fill
    · rw [due.zeroed h, Bool.and_false]
    · rw [decide_eq_false h, Bool.false_and]
  rw [exec_bufferStateChange, execBufferStateChange]
  simp only [due.held, due.what, due.issued, due.locals, due.streams, zeroed, List.append_nil, List.isEmpty_nil, Bool.not_true,
    Bool.false_eq_true, if_false]
  rfl

theorem exec_bufferStateChange_lost {s : State} {q : Nat} {hb : HoldB} {n : BitVec 6} {op : BufOp}
    (due : Stmt.changeDue s q hb n op) (lost : s.descOk q n.toNat = false ∨ s.declLost q op = true) :
    exec (.bufferStateChange q) s = (s.unheld q hb).raise descTrap := by
  rw [exec_bufferStateChange_due due, if_pos]
  rcases lost with h | h <;> simp [h]

theorem exec_bufferStateChange_refused {s : State} {q : Nat} {hb : HoldB} {n : BitVec 6} {op : BufOp}
    (due : Stmt.changeDue s q hb n op) (ok : s.descOk q n.toNat = true) (mine : s.declLost q op = false)
    (next : op.next ((s.core (coreOf q)).desc n.toNat).state = none) :
    exec (.bufferStateChange q) s = (s.unheld q hb).raise ((s.core (coreOf q)).bufRefuse n.toNat op 2) := by
  rw [exec_bufferStateChange_due due, ok, mine, CoreSt.bufApply_refused next]
  rfl

theorem exec_bufferStateChange_applied {s : State} {q : Nat} {hb : HoldB} {n : BitVec 6} {op : BufOp}
    (due : Stmt.changeDue s q hb n op) (ok : s.descOk q n.toNat = true) (mine : s.declLost q op = false) {c1 : CoreSt}
    (applied : (s.core (coreOf q)).bufApply n.toNat op = .ok c1) :
    exec (.bufferStateChange q) s = .next ((s.setCore (coreOf q) c1).endHold q hb.bn) := by
  rw [exec_bufferStateChange_due due, ok, mine, applied]
  rfl

theorem State.seq_endHold (s : State) (q bn : Nat) :
    (s.endHold q bn).seq q = Seq.retire { s.seq q with f := { (s.seq q).f with holdB := none } } bn 1 1 :=
  State.seq_setSeq_same ..

theorem State.core_endHold (s : State) (q bn c : Nat) : (s.endHold q bn).core c = s.core c := rfl

/-! ### BUFFER_ZEROING_DONE -/

theorem exec_bufferZeroingDone_zeroing {s : State} {k n : Nat} (h : ((s.core k).desc n).zeroing = true) :
    exec (.bufferZeroingDone k n) s = .next (s.setCore k { (s.core k).setDesc n { (s.core k).desc n with zeroing := false } with
      spad := Mem.zero (s.core k).spad ((s.core k).desc n).lo ((s.core k).desc n).span }) := by
  rw [exec_bufferZeroingDone, execBufferZeroingDone]
  simp only [h, if_true]

theorem Desc.span_eq (d : Desc) : d.span = (if d.spec then 2 else 1) * (64 * d.lines.toNat) := by
  unfold Desc.span Desc.size
  split
  · rfl
  · rw [Nat.one_mul]

/-- Settles O26: the operations hold queue B or are refused; a change that is due gives the descriptor what the matrix says, or traps;
zeroing clears the reserved range. -/
theorem buffersFollowTheirMatrix : Obligations.BuffersFollowTheirMatrix := by
  refine ⟨?_, ?_, ?_, ?_, ?_⟩
  · intro s g x y z spec own hg ok c base size span _ line nonempty lines fits banks owner
    have mine : s.declLost s.cur.seq (.decl base size (spec == 1#1) own) = false := by
      refine State.declLost_eq_false (fun b hb lo hi => banks b hb ?_ hi) fun h => owner (beq_iff_eq.1 h)
      simpa only [beq_iff_eq] using lo
    exact ⟨_, exec_bfDecl_holds hg ok rfl rfl line nonempty lines fits mine, s.setFlight_frame _⟩
  · intro s g x y z spec own i op hg hi
    simp only [List.mem_cons, Prod.mk.injEq, List.not_mem_nil, or_false] at hi
    obtain ⟨rfl, rfl⟩ | ⟨rfl, rfl⟩ | ⟨rfl, rfl⟩ | ⟨rfl, rfl⟩ | ⟨rfl, rfl⟩ | ⟨rfl, rfl⟩ := hi
    · exact bufOp_goes hg .fill rfl
    · exact bufOp_goes hg .done rfl
    · exact bufOp_goes hg .drain rfl
    · exact bufOp_goes hg .free rfl
    · exact ⟨fun bad => ⟨descTrap, rfl, exec_bfState_refused hg bad y⟩, nofun⟩
    · exact ⟨fun bad => ⟨descTrap, rfl, exec_bfDecl_refused hg bad y z spec own⟩, nofun⟩
  · intro s g x y hg ok d
    exact ⟨_, d.word, exec_bfState_reads hg ok x, s.awaits_awaitS_retire .., s.me_r_awaitS_retire ..,
      s.sameOthers_awaitS_retire x _ 0, s.sameModule_awaitS_retire .., d.word_eq_append⟩
  · intro s q hb n op due c d
    refine ⟨fun st ok mine next free => ?_, fun lost => ?_, fun ok mine next => ?_⟩
    · rw [← BufOp.next_eq_bufNext] at next
      have apart : ∀ base size spec own, op = .decl base size spec own →
          ∀ e ∈ c.descs, e.2.meets base (op.result d st).span = false := by
        rintro base size spec own rfl e he
        exact free base size spec own rfl e he
      obtain ⟨c1, applied, changed⟩ := CoreSt.bufApply_allowed next apart
      refine ⟨_, exec_bufferStateChange_applied due ok mine applied, ?_⟩
      rw [State.seq_endHold, State.core_endHold, State.core_setCore_same]
      refine ⟨rfl, rfl, rfl, fun p hp => State.seq_setSeq_other _ _ hp, rfl, rfl, fun k hk => State.core_setCore_other s _ hk,
        changed.spad, changed.acc, changed.l1, changed.others, changed.desc.trans ?_⟩
      cases op with
      | decl base size spec own =>
        have empty : st = 1#3 := by
          simp only [BufOp.next] at next
          split at next
          · exact (Option.some.inj next).symm
          · cases next
        rw [empty]
        rfl
      | free | fill | done | drain => rfl
    · exact ⟨s.unheld q hb, descTrap, exec_bufferStateChange_lost due lost, rfl, s.unheld_frame q hb⟩
    · rw [← BufOp.next_eq_bufNext] at next
      obtain ⟨state, reason⟩ := c.bufRefuse_fields n op
      exact ⟨s.unheld q hb, _, exec_bufferStateChange_refused due ok mine next, rfl, state, reason, s.unheld_frame q hb⟩
  · intro s k n zeroing d
    refine ⟨_, exec_bufferZeroingDone_zeroing zeroing, fun j hj => State.core_setCore_other s _ hj, rfl, rfl, ?_⟩
    rw [State.core_setCore_same]
    have changed := (s.core k).describes_setDesc n { d with zeroing := false }
    refine ⟨changed.acc, changed.desc, changed.others, fun o => ?_⟩
    rw [← d.span_eq]
    exact Mem.get_zero ..

end Machine

end Sys2Proof
end

section
/-! PROOFS. The bytes of a line (spec/07 R160, spec/08 R187): masks, and what a core reads while its L1 changes one line. -/

namespace Sys2Proof

/-! ### Masks of bytes -/

theorem spreadNat_eq_spreadBits (m n : Nat) : spreadNat m n = Machine.spreadBits 8 m n := by
  induction n generalizing m with
  | zero => rfl
  | succ n ih => rw [spreadNat, Machine.spreadBits, ih]; rfl

theorem getLsbD_spread (m : BitVec 64) {b : Nat} (hb : b < 512) : (spread m).getLsbD b = m.getLsbD (b / 8) := by
  rw [spread, spreadNat_eq_spreadBits]
  exact Machine.getLsbD_spreadBits (by decide) _ hb (by decide)

theorem getLsbD_byteMask (lo n : Nat) {b : Nat} (hb : b < 64) : (byteMask lo n).getLsbD b = decide (lo ≤ b ∧ b < lo + n) := by
  rw [byteMask, BitVec.getLsbD_ofNat, decide_eq_true hb, Bool.true_and, ← Nat.shiftLeft_eq, Nat.testBit_shiftLeft,
    Nat.testBit_two_pow_sub_one, ← Bool.decide_and]
  exact decide_eq_decide.2 (by omega)

/-! ### Bytes of a line -/

/-- A byte of a line. -/
def byteOf (d : BitVec 512) (o : Nat) : Byte := d.extractLsb' (8 * o) 8

theorem takeAt_one (d : BitVec 512) (o : Nat) : (takeAt d o 1).setWidth 8 = byteOf d o := by
  refine BitVec.eq_of_toNat_eq ?_
  rw [byteOf, BitVec.extractLsb'_toNat, Nat.shiftRight_eq_div_pow, BitVec.toNat_setWidth, takeAt, BitVec.toNat_ofNat]
  omega

theorem byteOf_blend (m : BitVec 64) (x y : BitVec 512) {o : Nat} (ho : o < 64) :
    byteOf (blend m x y) o = if m.getLsbD o then byteOf x o else byteOf y o := by
  refine BitVec.eq_of_getLsbD_eq fun i hi => ?_
  have inside : 8 * o + i < 512 := by omega
  have byte : (8 * o + i) / 8 = o := by omega
  rw [byteOf, BitVec.getLsbD_extractLsb', blend, Machine.getLsbD_merge _ _ _ inside, getLsbD_spread m inside, byte]
  cases m.getLsbD o <;> simp [byteOf, hi]

/-- The bytes of a word that has been placed. -/
theorem byteOf_placeAt (lo : Nat) (v : Word) {n : Nat} (hn : n < 8) (h : lo + n < 64) :
    byteOf (placeAt lo v) (lo + n) = v.extractLsb' (8 * n) 8 := by
  refine BitVec.eq_of_getLsbD_eq fun i hi => ?_
  have inside : 8 * (lo + n) + i < 512 := by omega
  have above : ¬ 8 * (lo + n) + i < 8 * lo := by omega
  have bit : 8 * (lo + n) + i - 8 * lo = 8 * n + i := by omega
  have low : 8 * n + i < 512 := by omega
  simp only [byteOf, placeAt, BitVec.getLsbD_extractLsb', BitVec.getLsbD_shiftLeft, BitVec.getLsbD_setWidth, hi, inside, above,
    bit, low, decide_true, decide_false, Bool.true_and, Bool.not_false]

namespace Machine

/-! ### What a core reads -/

/-- Whether a line of an L1 shows a byte of its own. -/
def CLine.shows (x : CLine) (gen : BitVec 16) (o : Nat) : Bool := (x.fresh gen && x.have_.getLsbD o) || x.dirty.getLsbD o

theorem State.byteSeen_hit {s : State} {core ctx pa : Nat} {x : CLine} (h : s.l1 core (lineOf pa) ctx = some x) :
    s.byteSeen core ctx pa = if x.shows (s.core core).gen (pa % 64) then byteOf x.data (pa % 64)
      else byteOf (s.l2Seen (clusterOfCore core) (lineOf pa)) (pa % 64) := by
  rw [State.byteSeen, takeAt_one, CLine.shows]
  simp only [State.l1Seen, h]
  split
  · rfl
  · next own =>
    have clean : x.dirty.getLsbD (pa % 64) = false := (Bool.or_eq_false_iff.1 (Bool.eq_false_iff.2 own)).2
    rw [byteOf_blend _ _ _ (Nat.mod_lt _ (by decide)), clean]
    rfl

theorem State.byteSeen_miss {s : State} {core ctx pa : Nat} (h : s.l1 core (lineOf pa) ctx = none) :
    s.byteSeen core ctx pa = byteOf (s.l2Seen (clusterOfCore core) (lineOf pa)) (pa % 64) := by
  rw [State.byteSeen, takeAt_one]
  simp only [State.l1Seen, h]

/-- What an L2 shows depends on clusters and memory alone. -/
theorem State.l2Seen_congr {s t : State} (hl : t.clusters = s.clusters) (hm : t.mem = s.mem) (r l : Nat) :
    t.l2Seen r l = s.l2Seen r l := by
  cases s
  cases t
  cases hl
  cases hm
  rfl

/-- A core whose generation and line stand reads as before. -/
theorem State.byteSeen_of_l1 {s t : State} {core ctx pa : Nat} (hl : t.clusters = s.clusters) (hm : t.mem = s.mem)
    (gen : (t.core core).gen = (s.core core).gen) (line : t.l1 core (lineOf pa) ctx = s.l1 core (lineOf pa) ctx) :
    t.byteSeen core ctx pa = s.byteSeen core ctx pa := by
  cases h : s.l1 core (lineOf pa) ctx with
  | some x => rw [State.byteSeen_hit h, State.byteSeen_hit (line.trans h), gen, State.l2Seen_congr hl hm]
  | none => rw [State.byteSeen_miss h, State.byteSeen_miss (line.trans h), State.l2Seen_congr hl hm]

/-! ### A line of an L1 is written -/

theorem l1Key_inj {l m ctx x : Nat} (hc : ctx < 65536) (hx : x < 65536) (h : l1Key l ctx = l1Key m x) : l = m ∧ ctx = x := by
  unfold l1Key at h
  omega

theorem State.gen_setL1 (s : State) (c l ctx : Nat) (x : CLine) (core : Nat) :
    ((s.setL1 c l ctx x).core core).gen = (s.core core).gen := by
  rw [State.setL1, State.core_setCore]
  split
  · next h => rw [h]
  · rfl

theorem State.l2Seen_setL1 (s : State) (c l ctx : Nat) (x : CLine) (r m : Nat) :
    (s.setL1 c l ctx x).l2Seen r m = s.l2Seen r m := State.l2Seen_congr rfl rfl r m

theorem State.l1_setL1_same (s : State) (c l ctx : Nat) (x : CLine) : (s.setL1 c l ctx x).l1 c l ctx = some x := by
  rw [State.l1, State.setL1, State.core_setCore_same]
  exact Tab.get?_put_same ..

theorem State.l1_setL1_other (s : State) {c l ctx : Nat} (x : CLine) {core m y : Nat} (hc : ctx < 65536) (hy : y < 65536)
    (h : ¬(core = c ∧ m = l ∧ y = ctx)) : (s.setL1 c l ctx x).l1 core m y = s.l1 core m y := by
  rw [State.l1, State.l1, State.setL1, State.core_setCore]
  split
  · next hcore =>
    rw [hcore]
    refine Tab.get?_put_other _ _ fun key => h ⟨hcore, l1Key_inj hy hc key⟩
  · rfl

/-- A line put into an L1 changes no byte of another line, core or context. -/
theorem State.byteSeen_setL1_other (s : State) {c l ctx : Nat} (x : CLine) {core y pa : Nat} (hc : ctx < 65536)
    (hy : y < 65536) (h : ¬(core = c ∧ lineOf pa = l ∧ y = ctx)) :
    (s.setL1 c l ctx x).byteSeen core y pa = s.byteSeen core y pa :=
  State.byteSeen_of_l1 rfl rfl (s.gen_setL1 c l ctx x core) (s.l1_setL1_other x hc hy h)

/-- A line put into an L1 changes no byte that it leaves as the line had it. -/
theorem State.byteSeen_setL1_hit {s : State} {c pa ctx : Nat} {x x' : CLine} (hit : s.l1 c (lineOf pa) ctx = some x)
    (shows : x'.shows (s.core c).gen (pa % 64) = x.shows (s.core c).gen (pa % 64))
    (data : byteOf x'.data (pa % 64) = byteOf x.data (pa % 64)) :
    (s.setL1 c (lineOf pa) ctx x').byteSeen c ctx pa = s.byteSeen c ctx pa := by
  rw [State.byteSeen_hit hit, State.byteSeen_hit (s.l1_setL1_same c (lineOf pa) ctx x'), State.gen_setL1, shows, data,
    State.l2Seen_setL1]

/-! ### A write into an L1 -/

/-- A set with a free way evicts nothing. -/
theorem State.roomL1_free {s : State} {c l : Nat} (ctx : Nat)
    (h : ((s.core c).l1.filter fun x => x.1 / 65536 % l1Sets == l % l1Sets).length < 8) : s.roomL1 c l ctx = s := by
  simp only [State.roomL1, h, if_true]

/-- The line that a write finds: the L1's own, or an empty one. -/
def State.lineFor (s : State) (c l ctx : Nat) : CLine :=
  (s.l1 c l ctx).getD { data := 0#512, have_ := 0#64, dirty := 0#64, tag := (s.core c).gen, ctx := ctx }

/-- A line with some bytes of a word written, and dirty. -/
def CLine.wrote (x : CLine) (o n : Nat) (v : Word) (use_ : Nat) : CLine :=
  { x with data := blend (byteMask o n) (placeAt o v) x.data, have_ := x.have_ ||| byteMask o n,
           dirty := x.dirty ||| byteMask o n, use_ := use_ }

theorem State.l1Write_room {s : State} {c ctx pa : Nat} (n : Nat) (v : Word) (room : (s.l1 c (lineOf pa) ctx).isSome = true ∨
      ((s.core c).l1.filter fun x => x.1 / 65536 % l1Sets == lineOf pa % l1Sets).length < 8) :
    s.l1Write c ctx pa n v = s.setL1 c (lineOf pa) ctx
      ((s.lineFor c (lineOf pa) ctx).wrote (pa % 64) n v (nextUse (s.core c).l1)) := by
  have same : (if (s.l1 c (lineOf pa) ctx).isSome then s else s.roomL1 c (lineOf pa) ctx) = s := by
    split
    · rfl
    · next h => exact State.roomL1_free ctx (room.resolve_left h)
  simp only [State.l1Write, same]
  rfl

theorem CLine.shows_wrote_inside (x : CLine) (gen : BitVec 16) (o n : Nat) (v : Word) (u : Nat) {b : Nat} (hb : b < 64)
    (h : o ≤ b ∧ b < o + n) : (x.wrote o n v u).shows gen b = true := by
  rw [CLine.shows, CLine.wrote, BitVec.getLsbD_or, BitVec.getLsbD_or, getLsbD_byteMask o n hb, decide_eq_true h]
  simp

theorem CLine.shows_wrote_outside (x : CLine) (gen : BitVec 16) (o n : Nat) (v : Word) (u : Nat) {b : Nat} (hb : b < 64)
    (h : ¬(o ≤ b ∧ b < o + n)) : (x.wrote o n v u).shows gen b = x.shows gen b := by
  rw [CLine.shows, CLine.wrote, BitVec.getLsbD_or, BitVec.getLsbD_or, getLsbD_byteMask o n hb, decide_eq_false h,
    Bool.or_false, Bool.or_false]
  rfl

theorem CLine.byteOf_wrote_inside (x : CLine) (o n : Nat) (v : Word) (u : Nat) {i : Nat} (hi : i < n) (hn : n ≤ 8)
    (ho : o + n ≤ 64) : byteOf (x.wrote o n v u).data (o + i) = v.extractLsb' (8 * i) 8 := by
  rw [CLine.wrote, byteOf_blend _ _ _ (by omega), getLsbD_byteMask o n (by omega), decide_eq_true (by omega), if_pos rfl,
    byteOf_placeAt o v (by omega) (by omega)]

theorem CLine.byteOf_wrote_outside (x : CLine) (o n : Nat) (v : Word) (u : Nat) {b : Nat} (hb : b < 64)
    (h : ¬(o ≤ b ∧ b < o + n)) : byteOf (x.wrote o n v u).data b = byteOf x.data b := by
  rw [CLine.wrote, byteOf_blend _ _ _ hb, getLsbD_byteMask o n hb, decide_eq_false h]
  rfl

section
variable {s : State} {c ctx pa n : Nat} (v : Word) (room : (s.l1 c (lineOf pa) ctx).isSome = true ∨
  ((s.core c).l1.filter fun x => x.1 / 65536 % l1Sets == lineOf pa % l1Sets).length < 8)
include room

/-- The bytes written read as the word. -/
theorem State.byteSeen_l1Write_inside (hn : n ≤ 8) (line : pa % 64 + n ≤ 64) {i : Nat} (hi : i < n) :
    (s.l1Write c ctx pa n v).byteSeen c ctx (pa + i) = v.extractLsb' (8 * i) 8 := by
  have sameLine : lineOf (pa + i) = lineOf pa := by unfold lineOf; omega
  have place : (pa + i) % 64 = pa % 64 + i := by omega
  have hit := s.l1_setL1_same c (lineOf pa) ctx ((s.lineFor c (lineOf pa) ctx).wrote (pa % 64) n v (nextUse (s.core c).l1))
  rw [← sameLine] at hit
  rw [State.l1Write_room n v room, ← sameLine, State.byteSeen_hit hit, place,
    CLine.shows_wrote_inside _ _ _ _ _ _ (by omega) ⟨Nat.le_add_right .., by omega⟩, if_pos rfl,
    CLine.byteOf_wrote_inside _ _ _ _ _ hi hn line]

/-- Every other byte reads as before. -/
theorem State.byteSeen_l1Write_outside (hc : ctx < 65536) {core y a : Nat} (hy : y < 65536)
    (h : ¬(core = c ∧ y = ctx ∧ pa ≤ a ∧ a < pa + n)) :
    (s.l1Write c ctx pa n v).byteSeen core y a = s.byteSeen core y a := by
  rw [State.l1Write_room n v room]
  by_cases here : core = c ∧ lineOf a = lineOf pa ∧ y = ctx
  · obtain ⟨rfl, sameLine, rfl⟩ := here
    have inLine : a % 64 < 64 := Nat.mod_lt _ (by decide)
    have outside : ¬(pa % 64 ≤ a % 64 ∧ a % 64 < pa % 64 + n) := by
      intro between
      unfold lineOf at sameLine
      exact h ⟨rfl, rfl, by omega, by omega⟩
    rw [← sameLine]
    cases hit : s.l1 core (lineOf a) y with
    | some x =>
      refine State.byteSeen_setL1_hit hit ?_ ?_
      · rw [CLine.shows_wrote_outside _ _ _ _ _ _ inLine outside, State.lineFor, hit, Option.getD_some]
      · rw [CLine.byteOf_wrote_outside _ _ _ _ _ inLine outside, State.lineFor, hit, Option.getD_some]
    | none =>
      have empty : ((s.lineFor core (lineOf a) y).wrote (pa % 64) n v (nextUse (s.core core).l1)).shows (s.core core).gen
          (a % 64) = false := by
        rw [CLine.shows_wrote_outside _ _ _ _ _ _ inLine outside, State.lineFor, hit, Option.getD_none]
        simp [CLine.shows]
      rw [State.byteSeen_miss hit, State.byteSeen_hit (State.l1_setL1_same ..), State.gen_setL1, empty,
        State.l2Seen_setL1]
      rfl
  · exact s.byteSeen_setL1_other _ hc hy here

end

end Machine

end Sys2Proof
end

section
/-! PROOFS. Performing a plain store (O16; spec/07 R176, R180, spec/18 R371, R372): cached translations, and the store's bytes. -/

namespace Sys2Proof.Machine

/-! ### Cached translations -/

/-- An access that needs a walk is looked up by its walk. -/
theorem State.lookup_walks {s : State} {die ctx : Nat} {va : Word} {w : Bool} (h : s.needsWalk die ctx va w = true) :
    s.lookup die ctx va w = s.walked die ctx va := by
  unfold State.needsWalk at h
  unfold State.lookup
  cases found : s.tlbFind die ctx va with
  | none => rfl
  | some e =>
    simp only [found] at h
    simp only [h, if_true]

/-- An access that needs none is looked up without a change. -/
theorem State.lookup_cached {s : State} {die ctx : Nat} {va : Word} {w : Bool} (h : s.needsWalk die ctx va w = false) :
    ∃ t, s.lookup die ctx va w = (s, .ok t) := by
  unfold State.needsWalk at h
  unfold State.lookup
  cases found : s.tlbFind die ctx va with
  | none => simp [found] at h
  | some e =>
    simp only [found] at h
    simp only [h, Bool.false_eq_true, if_false]
    exact ⟨_, rfl⟩

/-- A translation that is cached changes nothing. -/
theorem State.translate_cached {s : State} {die ctx : Nat} {va : Word} {acc : Acc}
    (h : s.needsWalk die ctx va acc.write = false) : (s.translate die ctx va acc).1 = s := by
  obtain ⟨t, found⟩ := State.lookup_cached h
  unfold State.translate
  split
  · rfl
  · split
    · rfl
    · simp only [State.translateN, found]
      split <;> rfl

/-- A translation that succeeds waits for no port. -/
theorem State.walkHeld_of_translate {s s1 : State} {die ctx : Nat} {va : Word} {acc : Acc} {tr : Tr}
    (h : s.translate die ctx va acc = (s1, .ok tr)) : s.walkHeld die ctx va acc.write = false := by
  unfold State.walkHeld
  cases needs : s.needsWalk die ctx va acc.write with
  | false => rfl
  | true =>
    rw [Bool.true_and]
    split
    · next pa held =>
      have found : s.lookup die ctx va acc.write = (s, .error (.held pa)) := by
        rw [State.lookup_walks needs, State.walked, held]
      exfalso
      unfold State.translate at h
      split at h
      · cases h
      · split at h
        · cases h
        · simp only [State.translateN, found] at h
          cases h
    · rfl

/-! ### What a store does -/

theorem State.setDirty_same {s : State} {t : Tr} (h : eD t.e2 = true) (die ctx : Nat) (va : Word) : s.setDirty die ctx va t = s := by
  rw [State.setDirty, h, Bool.or_true, if_pos rfl]

/-- A write whose translation is found, and its leaf dirty, waits for nothing. -/
theorem State.writeGate_none {s : State} {die ctx : Nat} {va : Word} {tr : Tr}
    (ht : s.translate die ctx va { cls := pcMem, write := true } = (s, .ok tr)) (plain : eNc tr.e2 = false)
    (dirty : eD tr.e2 = true) : s.writeGate die ctx va = none := by
  have free : s.walkHeld die ctx va true = false := State.walkHeld_of_translate ht
  simp only [State.writeGate, free, ht, plain, State.dirtyGate, dirty, Bool.false_and, Bool.or_true, Bool.false_eq_true, if_false,
    if_true]

/-- A store to memory whose translation is found, its leaf dirty, and its line under its key, is a write into the L1. -/
theorem State.storePlain_found {s : State} {q : Nat} {el : Elem} {tr : Tr}
    (ht : s.translate (dieOf q) (s.ctxOf q) (BitVec.ofNat 64 el.addr) { cls := pcMem, write := true } = (s, .ok tr))
    (plain : eNc tr.e2 = false) (dirty : eD tr.e2 = true) (key : s.keyOf (lineOf tr.pa) = (s.kid (eKsl tr.e2)).getD 0) :
    s.storePlain q el = s.l1Write (coreOf q) (s.ctxOf q) tr.pa el.size el.data := by
  simp only [State.storePlain, ht, plain, State.setDirty_same dirty, State.useKey_same key, Bool.false_eq_true, if_false]

/-- Settles O16: the head of the queue is one write into the L1, whose bytes its core and context read, and nobody else. -/
theorem storePerformWritesItsBytes : Obligations.StorePerformWritesItsBytes := by
  intro s q slot e el es tr head act rel noOlder noAtomic ctx c l hc ht plain dirty key _ size line room
  have noGate : s.actGate q e.act = none := by
    have free : s.writeGate (dieOf q) (s.ctxOf q) (BitVec.ofNat 64 el.addr) = none := State.writeGate_none ht plain dirty
    simp only [act, State.actGate, List.findSome?, free]
  have stored : s.performAct q e.act = s.l1Write c ctx tr.pa el.size el.data := by
    rw [act]
    exact State.storePlain_found ht plain dirty key
  have next := exec_storePerform_head head (.inl ⟨_, act⟩) rel noOlder noAtomic noGate
  rw [stored] at next
  have seqs := s.l1Write_seqs c ctx tr.pa el.size el.data
  have kept := State.seq_dropStore_congr seqs q slot q
  have reads : ∀ core x pa, ((s.l1Write c ctx tr.pa el.size el.data).dropStore q slot).byteSeen core x pa =
      (s.l1Write c ctx tr.pa el.size el.data).byteSeen core x pa := State.byteSeen_congr rfl rfl rfl
  have module : (s.l1Write c ctx tr.pa el.size el.data).mem = s.mem ∧
      (s.l1Write c ctx tr.pa el.size el.data).clusters = s.clusters := by
    rw [State.l1Write_room el.size el.data room]
    exact ⟨rfl, rfl⟩
  refine ⟨_, next, by rw [kept], by rw [kept, State.seq_dropStore], by rw [kept, State.seq_dropStore],
    State.sameOthers_dropStore seqs q slot, module.1, module.2, fun n hn => ?_,
    fun core x pa hx h => ?_⟩
  · rw [reads, State.byteSeen_l1Write_inside _ room size line hn]
  · rw [reads, State.byteSeen_l1Write_outside _ room hc hx h]

end Sys2Proof.Machine
end

section
/-! PROOFS. A load, and the release and acquire that go with an access, leave the cursor and what the sequencers hold: the frame of the
homes, the caches, translation and the writers of records over `seqs` and `cur`. -/

namespace Sys2Proof.Machine

/-! ### What a home does for its caches -/

@[simp] theorem State.setSide_cur (s : State) (l : Nat) (x : Side) : (s.setSide l x).cur = s.cur := State.sideWrote_cur s l
@[simp] theorem State.setL2_cur (s : State) (c l : Nat) (x : CLine) : (s.setL2 c l x).cur = s.cur := rfl
@[simp] theorem State.dropL2_cur (s : State) (r l : Nat) : (s.dropL2 r l).cur = s.cur := rfl
@[simp] theorem State.invalidateL2_cur (s : State) (l : Nat) (but : Option Nat) : (s.invalidateL2 l but).cur = s.cur := rfl

@[simp] theorem State.homeRdS_cur (s : State) (l r : Nat) : (s.homeRdS l r).1.cur = s.cur := by
  unfold State.homeRdS
  dsimp only
  repeat' split
  all_goals exact State.setSide_cur ..

@[simp] theorem State.loseL2_cur (s : State) (r l : Nat) : (s.loseL2 r l).cur = s.cur := by
  unfold State.loseL2
  split
  · rfl
  · exact (State.owe_frame ..).2

@[simp] theorem State.ownerBack_cur (s : State) (l : Nat) (d : BitVec 512) (m : BitVec 64) : (s.ownerBack l d m).cur = s.cur := by
  unfold State.ownerBack
  dsimp only
  split <;> exact (State.writeBack_frame ..).2

@[simp] theorem State.homeHal_cur (s : State) (l : Nat) : (s.homeHal l).cur = s.cur := by simp [State.homeHal]

@[simp] theorem State.engWrite_cur (s : State) (a : Nat) (bs : List Byte) : (s.engWrite a bs).cur = s.cur := by
  simp [State.engWrite]

@[simp] theorem State.engSetWord_cur (s : State) (a : Nat) (w : Word) : (s.engSetWord a w).cur = s.cur := State.engWrite_cur ..

@[simp] theorem State.meetQuiet_cur (s : State) (l ctx : Nat) : (s.meetQuiet l ctx).cur = s.cur := by
  have home := s.meetHome_frame l
  unfold State.meetQuiet
  split <;> simp_all

@[simp] theorem State.homeRdX_cur (s : State) (l r ctx : Nat) : (s.homeRdX l r ctx).cur = s.cur := by simp [State.homeRdX]

@[simp] theorem State.ownPend_cur (s : State) (l r ctx : Nat) : (s.ownPend l r ctx).cur = s.cur := by
  unfold State.ownPend
  split
  · rfl
  · exact State.homeRdX_cur ..

@[simp] theorem State.homeWb_cur (s : State) (l r : Nat) : (s.homeWb l r).cur = s.cur := by
  unfold State.homeWb
  dsimp only
  split
  · rfl
  · split
    · split <;> simp
    · rfl

/-! ### The L2 -/

@[simp] theorem State.evictL2_cur (s : State) (r l : Nat) : (s.evictL2 r l).cur = s.cur := by
  unfold State.evictL2
  split
  · rfl
  · split
    · rfl
    · split <;> simp

@[simp] theorem State.parkL2_cur (s : State) (r l : Nat) : (s.parkL2 r l).cur = s.cur := by
  unfold State.parkL2
  split <;> rfl

@[simp] theorem State.askHost_cur (s : State) (l : Nat) : (s.askHost l).cur = s.cur := rfl

@[simp] theorem State.putOut_cur (s : State) (r k : Nat) (c : CLine) : (s.putOut r k c).cur = s.cur := by
  unfold State.putOut
  repeat' split
  all_goals simp

@[simp] theorem State.evictOne_cur (s : State) (r l ctx : Nat) : (s.evictOne r l ctx).cur = s.cur := by
  unfold State.evictOne
  dsimp only
  split
  · rfl
  · exact State.putOut_cur ..

@[simp] theorem State.roomL2_cur (s : State) (r l ctx : Nat) : (s.roomL2 r l ctx).cur = s.cur :=
  State.foldl_cur (fun s _ => s.evictOne_cur r l ctx) _ s

@[simp] theorem State.overCopy_cur (s : State) (r l : Nat) (d : BitVec 512) (m : BitVec 64) : (s.overCopy r l d m).cur = s.cur := by
  unfold State.overCopy
  split <;> rfl

@[simp] theorem State.l2Merge_cur (s : State) (r l ctx : Nat) (d : BitVec 512) (m : BitVec 64) :
    (s.l2Merge r l ctx d m).cur = s.cur := by
  unfold State.l2Merge
  split
  · rfl
  · dsimp only
    split <;> simp

@[simp] theorem State.l2Read_frame (s : State) (r l ctx : Nat) :
    (s.l2Read r l ctx).1.seqs = s.seqs ∧ (s.l2Read r l ctx).1.cur = s.cur := by
  unfold State.l2Read
  dsimp only
  split
  · split <;> simp
  · simp

/-! ### The L1 -/

@[simp] theorem State.setL1_cur (s : State) (c l ctx : Nat) (x : CLine) : (s.setL1 c l ctx x).cur = s.cur := rfl

@[simp] theorem State.evictL1_cur (s : State) (c key : Nat) : (s.evictL1 c key).cur = s.cur := by
  unfold State.evictL1
  split
  · rfl
  · simp

@[simp] theorem State.roomL1_cur (s : State) (c l ctx : Nat) : (s.roomL1 c l ctx).cur = s.cur := by
  unfold State.roomL1
  dsimp only
  split
  · rfl
  · split
    · rfl
    · exact State.evictL1_cur ..

@[simp] theorem State.l1Fill_frame (s : State) (c l ctx : Nat) (need : BitVec 64) :
    (s.l1Fill c l ctx need).seqs = s.seqs ∧ (s.l1Fill c l ctx need).cur = s.cur := by
  unfold State.l1Fill
  dsimp only
  split
  · split <;> simp
  · simp

@[simp] theorem State.l1Read_frame (s : State) (c ctx pa n : Nat) :
    (s.l1Read c ctx pa n).1.seqs = s.seqs ∧ (s.l1Read c ctx pa n).1.cur = s.cur := by
  unfold State.l1Read
  dsimp only
  split <;> exact State.l1Fill_frame ..

@[simp] theorem State.acqRead_frame (s : State) (c ctx pa n : Nat) :
    (s.acqRead c ctx pa n).1.seqs = s.seqs ∧ (s.acqRead c ctx pa n).1.cur = s.cur := s.l2Read_frame ..

@[simp] theorem State.flushL1_frame (s : State) (c : Nat) : (s.flushL1 c).seqs = s.seqs ∧ (s.flushL1 c).cur = s.cur := by
  unfold State.flushL1
  simp only [State.setCore_seqs, State.setCore_cur]
  exact ⟨State.foldl_seqs (fun s e => s.l2Merge_seqs _ _ _ _ _) _ s, State.foldl_cur (fun s e => s.l2Merge_cur _ _ _ _ _) _ s⟩

/-- An acquire leaves the sequencers and the cursor. -/
@[simp] theorem State.bump_frame (s : State) (c : Nat) (sc : Scope) : (s.bump c sc).seqs = s.seqs ∧ (s.bump c sc).cur = s.cur := by
  unfold State.bump
  dsimp only
  split
  · exact ⟨rfl, rfl⟩
  · split <;> simp

/-! ### Releases -/

@[simp] theorem State.pushL1_frame (s : State) (c ctx : Nat) : (s.pushL1 c ctx).seqs = s.seqs ∧ (s.pushL1 c ctx).cur = s.cur := by
  unfold State.pushL1
  simp only [State.setCore_seqs, State.setCore_cur]
  refine ⟨State.foldl_seqs (fun s e => ?_) _ s, State.foldl_cur (fun s e => ?_) _ s⟩
  all_goals split <;> simp

@[simp] theorem State.retireCopy_frame (s : State) (r l : Nat) (c : CLine) (f : CLine → CLine) :
    (s.retireCopy r l c f).seqs = s.seqs ∧ (s.retireCopy r l c f).cur = s.cur := by
  unfold State.retireCopy
  dsimp only
  split <;> simp

@[simp] theorem State.own_frame (s : State) (l r ctx : Nat) : (s.own l r ctx).seqs = s.seqs ∧ (s.own l r ctx).cur = s.cur := by
  unfold State.own State.takeL2
  repeat' split
  all_goals simp

@[simp] theorem State.scopedBack_frame (s : State) (r l : Nat) :
    (s.scopedBack r l).seqs = s.seqs ∧ (s.scopedBack r l).cur = s.cur := by
  unfold State.scopedBack
  repeat' split
  all_goals simp

@[simp] theorem State.pushL2_frame (s : State) (r : Nat) : (s.pushL2 r).seqs = s.seqs ∧ (s.pushL2 r).cur = s.cur := by
  unfold State.pushL2
  refine ⟨(State.foldl_seqs (fun s (e : Nat × CLine) => (s.scopedBack_frame r e.1).1) _ _).trans (State.foldl_seqs (fun s e => ?_) _ s),
    (State.foldl_cur (fun s (e : Nat × CLine) => (s.scopedBack_frame r e.1).2) _ _).trans (State.foldl_cur (fun s e => ?_) _ s)⟩
  all_goals
    repeat' split
    all_goals simp

/-- The outward part of a release leaves the sequencers and the cursor. -/
@[simp] theorem State.release_frame (s : State) (c ctx : Nat) (sc : Scope) :
    (s.release c ctx sc).seqs = s.seqs ∧ (s.release c ctx sc).cur = s.cur := by
  cases sc <;> simp [State.release]

/-! ### What precedes an access -/

@[simp] theorem State.rekey_cur (s : State) (l k : Nat) : (s.rekey l k).cur = s.cur := by
  unfold State.rekey
  split <;> rfl

@[simp] theorem State.useKey_cur (s : State) (t : Tr) : (s.useKey t).cur = s.cur := by
  unfold State.useKey
  split
  · rfl
  · exact State.rekey_cur ..

@[simp] theorem State.setDirty_cur (s : State) (die ctx : Nat) (va : Word) (t : Tr) : (s.setDirty die ctx va t).cur = s.cur := by
  unfold State.setDirty
  split
  · rfl
  · simp

@[simp] theorem State.winTraffic_cur (s : State) (ctx pa n : Nat) : (s.winTraffic ctx pa n).cur = s.cur := by
  unfold State.winTraffic
  split
  · rfl
  · simp

/-! ### What a sequencer holds -/

/-- The cursor stands, and of every sequencer the registers, what it has under way, and its loops: what the writers of records
leave, who take records out of a sequencer. -/
structure State.keepsWork (s t : State) : Prop where
  cur : t.cur = s.cur
  regs : ∀ p, (t.seq p).r = (s.seq p).r
  flight : ∀ p, (t.seq p).f = (s.seq p).f
  loops : ∀ p, (t.seq p).c.loops = (s.seq p).c.loops

theorem State.keepsWork.refl (s : State) : s.keepsWork s := ⟨rfl, fun _ => rfl, fun _ => rfl, fun _ => rfl⟩

theorem State.keepsWork.trans {s t u : State} (h : s.keepsWork t) (k : t.keepsWork u) : s.keepsWork u :=
  ⟨k.cur.trans h.cur, fun p => (k.regs p).trans (h.regs p), fun p => (k.flight p).trans (h.flight p),
    fun p => (k.loops p).trans (h.loops p)⟩

theorem State.keepsWork_of_frame {s t : State} (h : t.seqs = s.seqs ∧ t.cur = s.cur) : s.keepsWork t := by
  have seq : ∀ p, t.seq p = s.seq p := fun p => by rw [State.seq, State.seq, h.1]
  exact ⟨h.2, fun p => by rw [seq], fun p => by rw [seq], fun p => by rw [seq]⟩

theorem State.keepsWork.me_r {s t : State} (h : s.keepsWork t) : t.me.r = s.me.r := by rw [State.me, h.cur]; exact h.regs _
theorem State.keepsWork.me_f {s t : State} (h : s.keepsWork t) : t.me.f = s.me.f := by rw [State.me, h.cur]; exact h.flight _
theorem State.keepsWork.me_loops {s t : State} (h : s.keepsWork t) : t.me.c.loops = s.me.c.loops := by
  rw [State.me, h.cur]; exact h.loops _

/-- Every register stands where only the running sequencer changes after that, and not its registers. -/
theorem State.keepsWork.regs_of_issue {s t u : State} (h : s.keepsWork t) (others : t.sameOthers u t.cur.seq)
    (me : (u.seq t.cur.seq).r = t.me.r) (p : Nat) : (u.seq p).r = (s.seq p).r := by
  by_cases hp : p = t.cur.seq
  · rw [hp]
    exact me.trans (h.regs _)
  · exact (congrArg Seq.r (others p hp)).trans (h.regs p)

/-- Records of one sequencer change. -/
theorem State.keepsWork_setRecords (s : State) (q : Nat) (rs : List Record) :
    s.keepsWork (s.setSeq q { s.seq q with c := { (s.seq q).c with records := rs } }) := by
  refine ⟨rfl, fun p => ?_, fun p => ?_, fun p => ?_⟩
  all_goals
    rw [State.seq_setSeq]
    split
    · next h => rw [h]
    · rfl

/-! ### What keeps an access from its home -/

/-- What keeps an access from its home leaves the sequencers and the cursor. -/
def State.gateKeeps (s : State) (x : Option (State × List Instr)) : Prop := ∀ u, x = some u → u.1.seqs = s.seqs ∧ u.1.cur = s.cur

theorem State.gateKeeps_none (s : State) : s.gateKeeps none := nofun

theorem State.gateKeeps_here (s : State) (evs : List Instr) : s.gateKeeps (some (s, evs)) := fun u h => by
  cases h
  exact ⟨rfl, rfl⟩

theorem State.gateKeeps_orElse {s : State} {x : Option (State × List Instr)} {f : Unit → Option (State × List Instr)}
    (hx : s.gateKeeps x) (hf : s.gateKeeps (f ())) : s.gateKeeps (x.orElse f) := by
  cases x with
  | some u => exact hx
  | none => exact hf

/-- Nothing, or the host is asked. -/
theorem State.gateKeeps_gate (s : State) (l : Nat) (x : Bool) : s.gateKeeps (s.gate l x) := by
  unfold State.gate
  split
  · exact s.gateKeeps_here _
  · split
    · exact s.gateKeeps_here _
    · split
      · intro u h
        cases h
        exact ⟨rfl, rfl⟩
      · exact s.gateKeeps_none

theorem State.gateKeeps_dirtyGate (s : State) (t : Tr) : s.gateKeeps (s.dirtyGate t) := by
  unfold State.dirtyGate
  split
  · exact s.gateKeeps_none
  · exact s.gateKeeps_gate _ _

theorem State.gateKeeps_relGate (s : State) (c ctx : Nat) : s.gateKeeps (s.relGate c ctx) := by
  intro u h
  obtain ⟨l, -, hl⟩ := List.exists_of_findSome?_eq_some h
  split at hl
  · cases hl
  · exact s.gateKeeps_gate _ _ u hl

theorem State.gateKeeps_ringGate (s : State) (q ctx : Nat) : s.gateKeeps (s.ringGate q ctx) := by
  have kept : ∀ t : Tr, s.gateKeeps ((s.dirtyGate t).orElse fun _ => s.gate (lineOf t.pa) true) := fun t =>
    State.gateKeeps_orElse (s.gateKeeps_dirtyGate t) (s.gateKeeps_gate _ _)
  unfold State.ringGate
  dsimp only
  split
  · exact s.gateKeeps_here _
  · split
    · exact s.gateKeeps_none
    · refine State.gateKeeps_orElse (kept _) ?_
      split
      · exact s.gateKeeps_here _
      · split
        · exact s.gateKeeps_none
        · exact State.gateKeeps_orElse (kept _) (s.gateKeeps_relGate _ _)

/-! ### The writers of records -/

@[simp] theorem State.engWords_frame (s : State) (pa : Nat) (ws : List Word) :
    (s.engWords pa ws).seqs = s.seqs ∧ (s.engWords pa ws).cur = s.cur := by
  induction ws generalizing s pa with
  | nil => exact ⟨rfl, rfl⟩
  | cons w ws ih => simpa [State.engWords] using ih (s.engSetWord pa w) (pa + 8)

/-- A writer of records finds an address, whatever it meets. -/
theorem State.recAddr_keeps (s : State) (die ctx : Nat) (va : Word) (w : Bool) : s.keepsWork (s.recAddr die ctx va w).1 := by
  refine State.keepsWork_of_frame ?_
  have found := s.translate_frame die ctx va { cls := pcMem, write := w }
  unfold State.recAddr
  dsimp only
  split
  · next s1 t heq =>
    rw [heq] at found
    split
    · exact found
    · have home := ((if w then s1.setDirty die ctx va t else s1).useKey t).homeErr_frame (lineOf t.pa) { cls := pcMem, write := w }
      have reached : ((if w then s1.setDirty die ctx va t else s1).useKey t).seqs = s.seqs ∧
          ((if w then s1.setDirty die ctx va t else s1).useKey t).cur = s.cur := by
        split <;> simpa using found
      rw [reached.1, reached.2] at home
      split
      all_goals
        next heq => rw [heq] at home; simpa using home
  · next heq => rw [heq] at found; exact found

theorem State.keepsWork_logError (s : State) (code : Nat) (w : Word) : s.keepsWork (s.logError code w) :=
  State.keepsWork_of_frame (s.logError_frame code w)

/-- A record is written, or not. -/
theorem State.tryRecord_keeps (s : State) (q ctx src : Nat) (r : Record) : s.keepsWork (s.tryRecord q ctx src r).1 := by
  have head := s.recAddr_keeps (dieOf q) ctx (s.ctx ctx).fring false
  unfold State.tryRecord
  dsimp only
  split
  · next s1 h1 =>
    rw [h1] at head
    exact head.trans (s1.keepsWork_logError ..)
  · next s1 ph h1 =>
    rw [h1] at head
    have tail := s1.recAddr_keeps (dieOf q) ctx ((s.ctx ctx).fring + 8#64) true
    split
    · next s2 h2 =>
      rw [h2] at tail
      exact head.trans (tail.trans (s2.keepsWork_logError ..))
    · next s2 pt h2 =>
      rw [h2] at tail
      split
      · exact head.trans tail
      · have slot := s2.recAddr_keeps (dieOf q) ctx ((s.ctx ctx).fring + 64#64 +
          BitVec.ofNat 64 (64 * ((s2.engWord pt).toNat % 2 ^ (s.ctx ctx).flog))) true
        split
        · next s3 h3 =>
          rw [h3] at slot
          exact head.trans (tail.trans (slot.trans (s3.keepsWork_logError ..)))
        · next s3 pr h3 =>
          rw [h3] at slot
          refine head.trans (tail.trans (slot.trans (State.keepsWork_of_frame ?_)))
          dsimp only
          split <;> simp

theorem State.retryHeld_keeps (s : State) (ctx n : Nat) : s.keepsWork (s.retryHeld ctx n) := by
  induction n generalizing s with
  | zero => exact .refl s
  | succ n ih =>
    unfold State.retryHeld
    split
    · exact .refl s
    · next q r _ =>
      split
      · next s1 evs h => exact State.keepsWork_of_frame (s.gateKeeps_ringGate _ _ _ h)
      · have record := s.tryRecord_keeps q ctx 0 r
        split
        · next s1 h => rw [h] at record; exact record
        · next s1 h =>
          rw [h] at record
          exact record.trans ((s1.keepsWork_setRecords q _).trans (ih _))

theorem State.countLost_keeps (s : State) (q ctx : Nat) : s.keepsWork (s.countLost q ctx) := by
  have found := s.recAddr_keeps (dieOf q) ctx ((s.ctx ctx).fring + 16#64) true
  unfold State.countLost
  split
  · next s1 p h =>
    rw [h] at found
    exact found.trans (State.keepsWork_of_frame ⟨State.engSetWord_seqs .., State.engSetWord_cur ..⟩)
  · next s1 h =>
    rw [h] at found
    exact found

theorem State.writeStatus_keeps (s : State) (o : Owed) : s.keepsWork (s.writeStatus o) := by
  unfold State.writeStatus
  split
  · exact s.countLost_keeps ..
  · have retried := s.retryHeld_keeps o.ctx (s.heldRecords o.ctx).length
    have record := (s.retryRecords o.ctx).tryRecord_keeps o.q o.ctx o.src o.r
    split
    · next s1 h => rw [h] at record; exact retried.trans record
    · next s1 h => rw [h] at record; exact retried.trans (record.trans (s1.countLost_keeps ..))

theorem State.putStatus_keeps (s : State) (q ctx src slot : Nat) (place : Word) (kind : Nat) (t : Trap) :
    s.keepsWork (s.putStatus q ctx src slot place kind t) := by
  unfold State.putStatus
  dsimp only
  split
  · next s1 evs h => exact State.keepsWork_of_frame (s.gateKeeps_ringGate _ _ _ h)
  · exact s.writeStatus_keeps _

/-! ### Accesses -/

/-- An access goes on after the errors of its line. -/
theorem State.meetErrors_keeps {s s1 : State} {q ctx l : Nat} {acc : Acc} (h : s.meetErrors q ctx l acc = .ok s1 ()) :
    s.keepsWork s1 := by
  have home := s.homeErr_frame l acc
  unfold State.meetErrors at h
  split at h
  · next heq =>
    rw [heq] at home
    cases h
    exact State.keepsWork_of_frame home
  · cases h
  · next heq =>
    rw [heq] at home
    cases h
    exact (State.keepsWork_of_frame home).trans (State.putStatus_keeps ..)

/-- What is found is the translation. -/
theorem State.find_ok {s s1 : State} {q : Nat} {va : Word} {acc : Acc} {t : Tr} (h : s.find q va acc = .ok s1 t) :
    s.translate (dieOf q) (s.ctxOf q) va acc = (s1, .ok t) := by
  unfold State.find at h
  dsimp only at h
  split at h
  · cases h
  · split at h
    · cases h
    · next found =>
      split at h
      · split at h
        · cases h
        · cases h; exact found
      · cases h; exact found

theorem State.windowUp_ok {s s1 : State} {t t1 : Tr} (h : s.windowUp t = .ok s1 t1) : s1 = s ∧ t1 = t := by
  unfold State.windowUp at h
  split at h
  · cases h
  · cases h; exact ⟨rfl, rfl⟩

/-- The check of a store translates, and no more. -/
theorem State.storeCheck_ok {s s1 : State} {q : Nat} {va : Word} {acc : Acc} {t : Tr} (h : s.storeCheck q va acc = .ok s1 t) :
    s.translate (dieOf q) (s.ctxOf q) va acc = (s1, .ok t) := by
  obtain ⟨u, t1, found, rest⟩ := Try.bind_eq_ok h
  split at rest
  · cases rest
  · obtain ⟨rfl, rfl⟩ := State.windowUp_ok rest
    exact State.find_ok found

theorem State.translate_keeps {s s1 : State} {die ctx : Nat} {va : Word} {acc : Acc} {x : Except Trap Tr}
    (h : s.translate die ctx va acc = (s1, x)) : s.keepsWork s1 := by
  have frame := s.translate_frame die ctx va acc
  rw [h] at frame
  exact State.keepsWork_of_frame frame

/-- A read that is served leaves what the sequencers hold. -/
theorem State.plainRead_keeps {s s1 : State} {q : Nat} {va : Word} {n : Nat} {acq : Bool} {acc : Acc} {w : Word}
    (h : s.plainRead q va n acq acc = .ok s1 w) : s.keepsWork s1 := by
  obtain ⟨u, t, reached, rest⟩ := Try.bind_eq_ok h
  obtain ⟨v, t1, found, up⟩ := Try.bind_eq_ok reached
  obtain ⟨rfl, rfl⟩ := State.windowUp_ok up
  have toLine := State.translate_keeps (State.find_ok found)
  have read : ∀ u : State, u.keepsWork (if acq then u.acqRead (coreOf q) (s.ctxOf q) t.pa n
      else u.l1Read (coreOf q) (s.ctxOf q) t.pa n).1 := fun u => by
    split
    · exact State.keepsWork_of_frame (u.acqRead_frame ..)
    · exact State.keepsWork_of_frame (u.l1Read_frame ..)
  have key : u.keepsWork (u.useKey t) := State.keepsWork_of_frame ⟨u.useKey_seqs t, u.useKey_cur t⟩
  refine toLine.trans ?_
  dsimp only at rest
  split at rest
  · cases rest
    exact State.keepsWork_of_frame ⟨u.winTraffic_seqs .., u.winTraffic_cur ..⟩
  · split at rest
    · split at rest
      · cases rest
      · obtain ⟨x, _, met, last⟩ := Try.bind_eq_ok rest
        cases last
        exact key.trans ((State.meetErrors_keeps met).trans (read x))
    · cases rest
      exact key.trans (read _)

/-- The check of a store whose translation is cached changes nothing. -/
theorem State.storeCheck_cached {s s1 : State} {q : Nat} {va : Word} {acc : Acc} {t : Tr} (h : s.storeCheck q va acc = .ok s1 t)
    (cached : s.needsWalk (dieOf q) (s.ctxOf q) va acc.write = false) : s1 = s := by
  have found := State.translate_cached cached
  rwa [State.storeCheck_ok h] at found

/-! ### The release that comes before an access -/

theorem tryList_keeps {α : Type} {f : State → α → Try Unit} (hf : ∀ {t t1 : State} {a : α}, f t a = .ok t1 () → t.keepsWork t1)
    (l : List α) {s s1 : State} (h : tryList l s f = .ok s1 ()) : s.keepsWork s1 := by
  induction l generalizing s with
  | nil => cases h; exact .refl _
  | cons a l ih =>
    obtain ⟨t, _, first, rest⟩ := Try.bind_eq_ok h
    exact (hf first).trans (ih rest)

theorem State.relErrors_keeps {s s1 : State} {q : Nat} (h : s.relErrors q = .ok s1 ()) : s.keepsWork s1 := by
  refine tryList_keeps (fun {u u1 l} hu => ?_) _ h
  split at hu
  · cases hu
  · exact State.meetErrors_keeps hu

/-- A release that is done leaves what the sequencers hold. -/
theorem State.tryRelease_keeps {s s1 : State} {q : Nat} {sc : Scope} {bn : Option Nat} (h : s.tryRelease q sc bn = .ok s1 ()) :
    s.keepsWork s1 := by
  have outward : ∀ u : State, u.keepsWork (u.release (coreOf q) (s.ctxOf q) sc) := fun u => State.keepsWork_of_frame (u.release_frame ..)
  unfold State.tryRelease at h
  dsimp only at h
  split at h
  · cases h
  · split at h
    · cases h; exact outward s
    · split at h
      · cases h
      · obtain ⟨t, _, errors, rest⟩ := Try.bind_eq_ok h
        cases rest
        exact (State.relErrors_keeps errors).trans (outward t)

theorem State.releaseFirst_keeps {s s1 : State} {rel : Option Scope} (h : s.releaseFirst rel = .ok s1 ()) : s.keepsWork s1 := by
  cases rel with
  | none => cases h; exact .refl s
  | some sc => exact State.tryRelease_keeps h

theorem State.acquire_keeps (s : State) (acq : Option Scope) : s.keepsWork (s.acquire acq) := by
  cases acq with
  | none => exact .refl s
  | some sc => exact State.keepsWork_of_frame (s.bump_frame ..)

end Sys2Proof.Machine
end

section
/-! PROOFS. Loads and stores at issue (O13, O15; spec/07 R163, R175, R176, R180). -/

namespace Sys2Proof.Machine

/-! ### Stores -/

theorem exec_storeForm {i : Instr} {z : Nat} {g : BitVec 7} {x b : BitVec 6} {off : BitVec 11} {rel : Option Scope}
    (h : Stmt.storeForm i = some (z, g, x, b, off, rel)) (s : State) : exec i s = storeOp z g x b off rel s := by
  unfold Stmt.storeForm at h
  split at h
  all_goals cases h
  all_goals rfl

/-- A store that passes its checks and meets nothing enters the store queue after its release. -/
theorem storeOp_queues {s s1 s2 : State} {z : Nat} {g : BitVec 7} {b : BitVec 6} {off : BitVec 11} {rel : Option Scope} {tr : Tr}
    (hg : s.guardOn g = true) (noStart : startsCopy (s.eaBM b off z) z = false)
    (sound : addrBad (s.eaBM b off z) z { cls := pcMem, write := true } = none)
    (check : s.storeCheck s.cur.seq (s.eaBM b off z) { cls := pcMem, write := true } = .ok s1 tr) (room : s1.fullB = false)
    (free : s1.streamMeets false (s.eaBM b off z).toNat z = []) (release : s1.releaseFirst rel = .ok s2 ()) (x : BitVec 6) :
    storeOp z g x b off rel s =
      .next (s2.pushB (.plain [{ addr := (s.eaBM b off z).toNat, size := z, data := s2.rs x }]) rel).retire := by
  rw [storeOp, slotOp_on hg]
  simp only [noStart, sound, check, Try.res, room, free, release, List.isEmpty_nil, Bool.not_true, Bool.false_eq_true, if_false]
  rfl

/-- Settles O15: the entry goes to the end of the queue in the state that the check and the release leave; a cached translation makes
the check leave all as it was. -/
theorem storesEnterTheStoreQueue : Obligations.StoresEnterTheStoreQueue := by
  intro i s z g x b off rel s1 s2 tr form hg a q noStart sound check room free release f
  have kept := (State.translate_keeps (State.storeCheck_ok check)).trans (State.releaseFirst_keeps release)
  have queued : s2.pushB (.plain [{ addr := a.toNat, size := z, data := s2.rs x }]) rel = s2.setFlight (f s2.me.f) := by
    rw [State.pushB, State.rs, kept.me_r, kept.cur]
    rfl
  have next : exec i s = .next (s2.setFlight (f s2.me.f)).retire := by
    rw [exec_storeForm form, storeOp_queues hg noStart sound check room free release, ← queued]
    rfl
  have issued : Stmt.issuedWith s2 (s2.setFlight (f s2.me.f)).retire s2.me.r (f s2.me.f) := s2.issuedWith_setFlight rfl
  have others : s2.sameOthers (s2.setFlight (f s2.me.f)).retire s2.cur.seq := s2.sameOthers_setMe_retire _
  have module : s2.sameModule (s2.setFlight (f s2.me.f)).retire := s2.sameModule_setMe_retire _
  refine ⟨_, next, issued.regs.trans kept.me_r, issued, kept.regs_of_issue others issued.regs, ?_, module, fun noRel cached => ?_⟩
  · rw [kept.cur] at others
    exact others
  · have same : s1 = s := State.storeCheck_cached check cached
    subst noRel
    cases release
    rw [same] at issued others module ⊢
    exact ⟨issued, others, module⟩

/-! ### Loads -/

theorem exec_loadForm {i : Instr} {z : Nat} {g : BitVec 7} {x b : BitVec 6} {off : BitVec 11} {acq : Option Scope}
    (h : Stmt.loadForm i = some (z, g, x, b, off, acq)) (s : State) : exec i s = loadOp z g x b off acq s := by
  unfold Stmt.loadForm at h
  split at h
  all_goals cases h
  all_goals rfl

theorem inAperture_of_addrBad {a : Word} {z : Nat} {acc : Acc} (h : addrBad a z acc = none) : inAperture a = false := by
  unfold addrBad at h
  split at h
  · cases h
  · split at h
    · cases h
    · next outside => exact Bool.eq_false_iff.2 outside

/-- A load that is sound, meets no own store and is served sets its value under way. -/
theorem loadOp_reads {s s1 : State} {z : Nat} {g : BitVec 7} {b : BitVec 6} {off : BitVec 11} {acq : Option Scope} {w : Word}
    (hg : s.guardOn g = true) (sound : addrBad (s.eaBM b off z) z { cls := pcMem } = none)
    (free : s.meetEvents false (s.eaBM b off z).toNat z = [])
    (read : s.plainRead s.cur.seq (s.eaBM b off z) z (acqOuter acq) { cls := pcMem } = .ok s1 w) (x : BitVec 6) :
    loadOp z g x b off acq s = .next ((s1.acquire acq).awaitS x w 1).retire := by
  rw [loadOp, slotOp_on hg]
  simp only [inAperture_of_addrBad sound, sound, free, read, Try.res, Bool.and_false, Bool.false_and, List.isEmpty_nil,
    Bool.not_true, Bool.false_eq_true, if_false]
  rfl

/-- A load of a channel's status word sets it under way. -/
theorem loadOp_status {s : State} {g : BitVec 7} {b : BitVec 6} {off : BitVec 11} (hg : s.guardOn g = true)
    (low : (s.eaBM b off 8).toNat / 2 ^ 56 = 0) (aperture : inAperture (s.eaBM b off 8) = true)
    (word : (s.eaBM b off 8).toNat % 64 = 8) (channel : (s.eaBM b off 8).toNat % 65536 < 1024) (x : BitVec 6) :
    loadOp 8 g x b off none s = .next (s.awaitS x
      (s.chan (coreOf s.cur.seq) (s.chanKey s.cur.seq ((s.eaBM b off 8).toNat % 65536 / 64))).word 1).retire := by
  rw [loadOp, slotOp_on hg]
  simp only [low, aperture, word, channel, decide_true, BEq.rfl, Bool.and_true, if_true]
  rfl

/-- A hit in the L1 touches the recency of its line alone. -/
theorem State.plainRead_hit {s : State} {q : Nat} {va : Word} {n : Nat} {tr : Tr} {x : CLine}
    (cached : s.needsWalk (dieOf q) (s.ctxOf q) va false = false)
    (ht : s.translate (dieOf q) (s.ctxOf q) va { cls := pcMem } = (s, .ok tr)) (plain : eNc tr.e2 = false)
    (key : s.keyOf (lineOf tr.pa) = (s.kid (eKsl tr.e2)).getD 0) (hit : s.l1 (coreOf q) (lineOf tr.pa) (s.ctxOf q) = some x)
    (fresh : x.fresh (s.core (coreOf q)).gen = true) (has : byteMask (tr.pa % 64) n &&& ~~~ x.have_ = 0#64) :
    s.plainRead q va n false { cls := pcMem } = .ok (s.setL1 (coreOf q) (lineOf tr.pa) (s.ctxOf q)
      { x with use_ := nextUse (s.core (coreOf q)).l1 }) (takeAt x.data (tr.pa % 64) n) := by
  have found : s.find q va { cls := pcMem } = .ok s tr := by
    simp only [State.find, State.noWalker_of_cached cached, ht, Bool.false_eq_true, if_false]
  have reached : s.reach q va { cls := pcMem } = .ok s tr := by
    simp only [State.reach, found, Try.bind, State.windowUp, plain, Bool.false_and, Bool.false_eq_true, if_false]
  have serves : s.l1Serves (coreOf q) (lineOf tr.pa) (s.ctxOf q) (byteMask (tr.pa % 64) n) = true := by
    simp only [State.l1Serves, hit, fresh, has, BEq.rfl, Bool.and_true, Bool.true_or]
  have fill : s.l1Fill (coreOf q) (lineOf tr.pa) (s.ctxOf q) (byteMask (tr.pa % 64) n) =
      s.setL1 (coreOf q) (lineOf tr.pa) (s.ctxOf q) { x with use_ := nextUse (s.core (coreOf q)).l1 } := by
    rw [State.l1] at hit
    simp only [State.l1Fill, hit, fresh, has, BEq.rfl, Bool.and_true, Bool.true_or, if_true]
  simp only [State.plainRead, reached, Try.bind, plain, State.useKey_same key, serves, Bool.not_true, Bool.or_false, Bool.and_false,
    Bool.false_eq_true, if_false, State.l1Read, fill, State.l1_setL1_same]

/-- A change of the recency of a line changes no byte. -/
theorem State.byteSeen_setL1_use {s : State} {c l ctx : Nat} {x : CLine} (hit : s.l1 c l ctx = some x) (u : Nat)
    {core y pa : Nat} (hc : ctx < 65536) (hy : y < 65536) :
    (s.setL1 c l ctx { x with use_ := u }).byteSeen core y pa = s.byteSeen core y pa := by
  by_cases here : core = c ∧ lineOf pa = l ∧ y = ctx
  · obtain ⟨rfl, rfl, rfl⟩ := here
    exact State.byteSeen_setL1_hit hit rfl rfl
  · exact s.byteSeen_setL1_other _ hc hy here

/-- Setting a result under way leaves the loops and the store queue of slot B. -/
theorem State.me_loops_awaitS_retire (s : State) (x : BitVec 6) (w : Word) (n : Nat) :
    (s.awaitS x w n).retire.me.c.loops = s.me.c.loops ∧ (s.awaitS x w n).retire.me.f.storeB = s.me.f.storeB := by
  rw [State.awaitS, State.await, State.me_setFlight_retire]
  exact ⟨rfl, rfl⟩

/-- Settles O13: the value of the read is set under way, from wherever it comes; a hit leaves every byte. -/
theorem loadsAwaitTheirValue : Obligations.LoadsAwaitTheirValue := by
  intro i s z g x b off acq form hg a q ctx
  refine ⟨fun s1 w sound free read => ?_, fun tr ln noAcq sound free cached ht plain key hit fresh has => ?_,
    fun eight low aperture word channel noAcq => ?_⟩
  · have kept := (State.plainRead_keeps read).trans (s1.acquire_keeps acq)
    have awaiting := (s1.acquire acq).awaits_awaitS_retire x w 1
    have regs := (s1.acquire acq).me_r_awaitS_retire x w 1
    obtain ⟨loops, storeB⟩ := (s1.acquire acq).me_loops_awaitS_retire x w 1
    rw [kept.me_f] at awaiting
    refine ⟨_, (exec_loadForm form s).trans (loadOp_reads hg sound free read x), regs.trans kept.me_r, loops.trans kept.me_loops,
      awaiting, storeB.trans (congrArg Flight.storeB kept.me_f), ?_⟩
    exact kept.regs_of_issue ((s1.acquire acq).sameOthers_awaitS_retire x w 1) regs
  · subst noAcq
    have next := (exec_loadForm form s).trans
      (loadOp_reads (acq := none) hg sound free (State.plainRead_hit cached ht plain key hit fresh has) x)
    refine ⟨_, next, State.awaits_awaitS_retire _ x _ 1, State.me_r_awaitS_retire _ x _ 1, State.sameOthers_awaitS_retire _ x _ 1,
      rfl, rfl, fun core c pa hc hctx => ?_⟩
    exact (State.byteSeen_congr rfl rfl rfl core c pa).trans (State.byteSeen_setL1_use hit _ hctx hc)
  · subst eight noAcq
    exact ⟨_, (exec_loadForm form s).trans (loadOp_status hg low aperture word channel x), s.me_r_awaitS_retire ..,
      s.sameOthers_awaitS_retire x _ 1, s.sameModule_awaitS_retire .., s.awaits_awaitS_retire ..⟩

end Sys2Proof.Machine
end

section
/-! PROOFS. The homes and the L2s leave the cores, and no writer of records moves a generation: the frame of the homes, the caches,
translation and the writers of records over `cores`. -/

namespace Sys2Proof.Machine

theorem State.foldl_cores {α : Type} {f : State → α → State} (hf : ∀ s a, (f s a).cores = s.cores) (l : List α) (s : State) :
    (l.foldl f s).cores = s.cores := by
  induction l generalizing s with
  | nil => rfl
  | cons a l ih => exact (ih (f s a)).trans (hf s a)

/-! ### The banks and the memory-side cache -/

@[simp] theorem State.count_caches (s : State) (ctx : Nat) (k : Traffic) (n : Nat) :
    (s.count ctx k n).cores = s.cores ∧ (s.count ctx k n).clusters = s.clusters := by
  unfold State.count
  split <;> exact ⟨rfl, rfl⟩

@[simp] theorem State.setPromo_caches (s : State) (d b : Nat) (rs : List PromoRow) :
    (s.setPromo d b rs).cores = s.cores ∧ (s.setPromo d b rs).clusters = s.clusters := ⟨rfl, rfl⟩

@[simp] theorem State.activate_caches (s : State) (pa : Nat) (w : Bool) :
    (s.activate pa w).cores = s.cores ∧ (s.activate pa w).clusters = s.clusters := by
  unfold State.activate
  dsimp only
  repeat' split
  all_goals exact ⟨rfl, rfl⟩

@[simp] theorem State.rowWrote_caches (s : State) (pa : Nat) :
    (s.rowWrote pa).cores = s.cores ∧ (s.rowWrote pa).clusters = s.clusters := by
  unfold State.rowWrote
  split <;> exact ⟨rfl, rfl⟩

@[simp] theorem State.sideWrote_caches (s : State) (l : Nat) :
    (s.sideWrote l).cores = s.cores ∧ (s.sideWrote l).clusters = s.clusters := by
  unfold State.sideWrote
  dsimp only
  repeat' split
  all_goals simp

@[simp] theorem State.sendLink_caches (s : State) (vd ctx pa m : Nat) :
    (s.sendLink vd ctx pa m).cores = s.cores ∧ (s.sendLink vd ctx pa m).clusters = s.clusters := ⟨rfl, rfl⟩

@[simp] theorem State.dropMsc_caches (s : State) (d r : Nat) :
    (s.dropMsc d r).cores = s.cores ∧ (s.dropMsc d r).clusters = s.clusters := by
  unfold State.dropMsc
  split
  · exact ⟨rfl, rfl⟩
  · dsimp only
    split <;> simp

@[simp] theorem State.mscAt_caches (s : State) (d l vd ctx cls : Nat) (w a : Bool) :
    (s.mscAt d l vd ctx cls w a).cores = s.cores ∧ (s.mscAt d l vd ctx cls w a).clusters = s.clusters := by
  unfold State.mscAt
  dsimp only
  repeat' split
  all_goals simp

@[simp] theorem State.mscTouch_caches (s : State) (l ctx cls : Nat) (w a : Bool) :
    (s.mscTouch l ctx cls w a).cores = s.cores ∧ (s.mscTouch l ctx cls w a).clusters = s.clusters := by
  unfold State.mscTouch State.mscAccess
  dsimp only
  split <;> simp

@[simp] theorem State.setSide_caches (s : State) (l : Nat) (x : Side) :
    (s.setSide l x).cores = s.cores ∧ (s.setSide l x).clusters = s.clusters := s.sideWrote_caches l

@[simp] theorem State.setInvalid_caches (s : State) (l : Nat) :
    (s.setInvalid l).cores = s.cores ∧ (s.setInvalid l).clusters = s.clusters := s.sideWrote_caches l

@[simp] theorem State.owe_caches (s : State) (ctx : Nat) (t : Trap) :
    (s.owe ctx t).cores = s.cores ∧ (s.owe ctx t).clusters = s.clusters := by
  unfold State.owe
  split <;> exact ⟨rfl, rfl⟩

@[simp] theorem State.logError_caches (s : State) (c : Nat) (w : Word) :
    (s.logError c w).cores = s.cores ∧ (s.logError c w).clusters = s.clusters := ⟨rfl, rfl⟩

@[simp] theorem State.writeBack_caches (s : State) (l : Nat) (d : BitVec 512) (m : BitVec 64) :
    (s.writeBack l d m).cores = s.cores ∧ (s.writeBack l d m).clusters = s.clusters := by
  unfold State.writeBack
  dsimp only
  repeat' split
  all_goals exact ⟨rfl, rfl⟩

@[simp] theorem State.ownerBack_caches (s : State) (l : Nat) (d : BitVec 512) (m : BitVec 64) :
    (s.ownerBack l d m).cores = s.cores ∧ (s.ownerBack l d m).clusters = s.clusters := by
  unfold State.ownerBack
  dsimp only
  split <;> exact State.writeBack_caches ..

/-! ### Requests at the home -/

@[simp] theorem State.setL2_cores (s : State) (c l : Nat) (x : CLine) : (s.setL2 c l x).cores = s.cores := rfl
@[simp] theorem State.dropL2_cores (s : State) (r l : Nat) : (s.dropL2 r l).cores = s.cores := rfl
@[simp] theorem State.invalidateL2_cores (s : State) (l : Nat) (but : Option Nat) : (s.invalidateL2 l but).cores = s.cores := rfl

@[simp] theorem State.homeHal_cores (s : State) (l : Nat) : (s.homeHal l).cores = s.cores := by simp [State.homeHal]

@[simp] theorem State.engSetWord_cores (s : State) (a : Nat) (w : Word) : (s.engSetWord a w).cores = s.cores := by
  simp [State.engSetWord, State.engWrite]

@[simp] theorem State.recoverSide_cores (s : State) (l : Nat) : (s.recoverSide l).1.cores = s.cores := by
  unfold State.recoverSide
  dsimp only
  split <;> simp

@[simp] theorem State.meetHome_cores (s : State) (l : Nat) : (s.meetHome l).1.cores = s.cores := by
  have side := s.recoverSide_cores l
  unfold State.meetHome
  dsimp only
  split
  · split <;> simp_all
  · split
    · split <;> rfl
    · split <;> rfl

@[simp] theorem State.homeErr_cores (s : State) (l : Nat) (acc : Acc) : (s.homeErr l acc).1.cores = s.cores := s.meetHome_cores l

@[simp] theorem State.meetQuiet_cores (s : State) (l ctx : Nat) : (s.meetQuiet l ctx).cores = s.cores := by
  have home := s.meetHome_cores l
  unfold State.meetQuiet
  split <;> simp_all

@[simp] theorem State.homeRdX_cores (s : State) (l r ctx : Nat) : (s.homeRdX l r ctx).cores = s.cores := by simp [State.homeRdX]

@[simp] theorem State.ownPend_cores (s : State) (l r ctx : Nat) : (s.ownPend l r ctx).cores = s.cores := by
  unfold State.ownPend
  split
  · rfl
  · exact State.homeRdX_cores ..

@[simp] theorem State.homeWb_cores (s : State) (l r : Nat) : (s.homeWb l r).cores = s.cores := by
  unfold State.homeWb
  dsimp only
  repeat' split
  all_goals simp

/-! ### The L2 -/

@[simp] theorem State.loseL2_cores (s : State) (r l : Nat) : (s.loseL2 r l).cores = s.cores := by
  unfold State.loseL2
  split <;> simp

@[simp] theorem State.evictL2_cores (s : State) (r l : Nat) : (s.evictL2 r l).cores = s.cores := by
  unfold State.evictL2
  repeat' split
  all_goals simp

@[simp] theorem State.parkL2_cores (s : State) (r l : Nat) : (s.parkL2 r l).cores = s.cores := by
  unfold State.parkL2
  split <;> rfl

@[simp] theorem State.askHost_cores (s : State) (l : Nat) : (s.askHost l).cores = s.cores := rfl

@[simp] theorem State.evictOne_cores (s : State) (r l ctx : Nat) : (s.evictOne r l ctx).cores = s.cores := by
  unfold State.evictOne State.putOut
  dsimp only
  repeat' split
  all_goals simp

@[simp] theorem State.roomL2_cores (s : State) (r l ctx : Nat) : (s.roomL2 r l ctx).cores = s.cores :=
  State.foldl_cores (fun s _ => s.evictOne_cores r l ctx) _ s

@[simp] theorem State.l2Merge_cores (s : State) (r l ctx : Nat) (d : BitVec 512) (m : BitVec 64) :
    (s.l2Merge r l ctx d m).cores = s.cores := by
  unfold State.l2Merge State.overCopy
  dsimp only
  repeat' split
  all_goals simp

@[simp] theorem State.retireCopy_cores (s : State) (r l : Nat) (c : CLine) (f : CLine → CLine) :
    (s.retireCopy r l c f).cores = s.cores := by
  unfold State.retireCopy
  dsimp only
  split <;> simp

@[simp] theorem State.scopedBack_cores (s : State) (r l : Nat) : (s.scopedBack r l).cores = s.cores := by
  unfold State.scopedBack State.own State.takeL2
  repeat' split
  all_goals simp

@[simp] theorem State.pushL2_cores (s : State) (r : Nat) : (s.pushL2 r).cores = s.cores := by
  unfold State.pushL2
  refine (State.foldl_cores (fun s (e : Nat × CLine) => s.scopedBack_cores r e.1) _ _).trans (State.foldl_cores (fun s e => ?_) _ s)
  repeat' split
  all_goals simp

/-! ### Translation -/

@[simp] theorem State.walked_cores (s : State) (die ctx : Nat) (va : Word) : (s.walked die ctx va).1.cores = s.cores := by
  unfold State.walked State.touchPath
  split
  · exact State.foldl_cores (fun s _ => (s.mscTouch_caches _ ctx pcMem false false).1) _ s
  · rfl

@[simp] theorem State.lookup_cores (s : State) (die ctx : Nat) (va : Word) (w : Bool) : (s.lookup die ctx va w).1.cores = s.cores := by
  unfold State.lookup
  repeat' split
  all_goals simp

@[simp] theorem State.translateN_cores (s : State) (die ctx : Nat) (va : Word) (acc : Acc) (n : Nat) :
    (s.translateN die ctx va acc n).1.cores = s.cores := by
  induction n generalizing s with
  | zero => rfl
  | succ n ih =>
    have found := s.lookup_cores die ctx va acc.write
    unfold State.translateN
    split
    · simp_all
    · simp_all
    · simp_all
    · next s1 l heq =>
      have home := s1.homeErr_cores l { acc with write := false }
      rw [heq] at found
      split <;> simp_all
    · next heq =>
      rw [heq] at found
      split <;> exact found

@[simp] theorem State.translate_cores (s : State) (die ctx : Nat) (va : Word) (acc : Acc) :
    (s.translate die ctx va acc).1.cores = s.cores := by
  unfold State.translate
  split
  · rfl
  · split
    · rfl
    · exact State.translateN_cores ..

@[simp] theorem State.useKey_cores (s : State) (t : Tr) : (s.useKey t).cores = s.cores := by
  unfold State.useKey State.rekey
  repeat' split
  all_goals rfl

@[simp] theorem State.setDirty_cores (s : State) (die ctx : Nat) (va : Word) (t : Tr) : (s.setDirty die ctx va t).cores = s.cores := by
  unfold State.setDirty
  split
  · rfl
  · simp

/-! ### Generations -/

/-- Every generation word stands. -/
def State.keepsGens (s t : State) : Prop := ∀ c, (t.core c).gen = (s.core c).gen

theorem State.keepsGens_of_cores {s t : State} (h : t.cores = s.cores) : s.keepsGens t := fun c => by
  rw [State.core, State.core, h]

theorem State.keepsGens.trans {s t u : State} (h : s.keepsGens t) (k : t.keepsGens u) : s.keepsGens u :=
  fun c => (k c).trans (h c)

/-- Bytes that a context left in an L1 go to the L2, and leave the cores. -/
theorem State.core_mergeL1 (s : State) (t : Tab CLine) (r ctx d : Nat) :
    (t.foldl (fun (s : State) e => if e.2.ctx == ctx then s.l2Merge r (e.1 / 65536) ctx e.2.data e.2.dirty else s) s).core d =
      s.core d := by
  rw [State.core, State.core, State.foldl_cores]
  intro s e
  split
  · exact State.l2Merge_cores ..
  · rfl

/-- A release changes lines of an L1, not its generations. -/
theorem State.release_keepsGens (s : State) (c ctx : Nat) (sc : Scope) : s.keepsGens (s.release c ctx sc) := by
  have pushed : s.keepsGens (s.pushL1 c ctx) := fun d => by
    unfold State.pushL1
    dsimp only
    rw [State.core_setCore]
    split
    · next h => rw [h, s.core_mergeL1]
    · rw [s.core_mergeL1]
  cases sc with
  | cr => exact State.keepsGens_of_cores rfl
  | cl => exact pushed
  | di | mo | sy => exact pushed.trans (State.keepsGens_of_cores (State.pushL2_cores ..))

/-- What an acquire makes of a generation word depends on nothing else. -/
theorem State.gen_bump_congr {s t : State} {c : Nat} (h : (t.core c).gen = (s.core c).gen) (sc : Scope) :
    ((t.bump c sc).core c).gen = ((s.bump c sc).core c).gen := by
  unfold State.bump
  cases genShift sc with
  | none => exact h
  | some k => simp only [State.core_setCore_same, h]

/-! ### The writers of records -/

/-- What keeps an access from its home changes nothing but to ask the host. -/
def State.gateAsks (s : State) (x : Option (State × List Instr)) : Prop := ∀ u, x = some u → u.1 = s ∨ ∃ l, u.1 = s.askHost l

theorem State.gateAsks.cores {s : State} {x : Option (State × List Instr)} (h : s.gateAsks x) {u : State × List Instr}
    (hu : x = some u) : u.1.cores = s.cores := by
  obtain hs | ⟨l, hl⟩ := h u hu
  · rw [hs]
  · rw [hl]; rfl

theorem State.gateAsks_none (s : State) : s.gateAsks none := nofun

theorem State.gateAsks_here (s : State) (evs : List Instr) : s.gateAsks (some (s, evs)) := fun u h => by
  cases h
  exact .inl rfl

theorem State.gateAsks_orElse {s : State} {x : Option (State × List Instr)} {f : Unit → Option (State × List Instr)}
    (hx : s.gateAsks x) (hf : s.gateAsks (f ())) : s.gateAsks (x.orElse f) := by
  cases x with
  | some u => exact hx
  | none => exact hf

theorem State.gateAsks_gate (s : State) (l : Nat) (x : Bool) : s.gateAsks (s.gate l x) := by
  unfold State.gate
  split
  · exact s.gateAsks_here _
  · split
    · exact s.gateAsks_here _
    · split
      · intro u h
        cases h
        exact .inr ⟨l, rfl⟩
      · exact s.gateAsks_none

theorem State.gateAsks_dirtyGate (s : State) (t : Tr) : s.gateAsks (s.dirtyGate t) := by
  unfold State.dirtyGate
  split
  · exact s.gateAsks_none
  · exact s.gateAsks_gate _ _

theorem State.gateAsks_relGate (s : State) (c ctx : Nat) : s.gateAsks (s.relGate c ctx) := by
  intro u h
  obtain ⟨l, -, hl⟩ := List.exists_of_findSome?_eq_some h
  split at hl
  · cases hl
  · exact s.gateAsks_gate _ _ u hl

theorem State.gateAsks_ringGate (s : State) (q ctx : Nat) : s.gateAsks (s.ringGate q ctx) := by
  have kept : ∀ t : Tr, s.gateAsks ((s.dirtyGate t).orElse fun _ => s.gate (lineOf t.pa) true) := fun t =>
    State.gateAsks_orElse (s.gateAsks_dirtyGate t) (s.gateAsks_gate _ _)
  unfold State.ringGate
  dsimp only
  split
  · exact s.gateAsks_here _
  · split
    · exact s.gateAsks_none
    · refine State.gateAsks_orElse (kept _) ?_
      split
      · exact s.gateAsks_here _
      · split
        · exact s.gateAsks_none
        · exact State.gateAsks_orElse (kept _) (s.gateAsks_relGate _ _)

@[simp] theorem State.engWords_cores (s : State) (pa : Nat) (ws : List Word) : (s.engWords pa ws).cores = s.cores := by
  induction ws generalizing s pa with
  | nil => rfl
  | cons w ws ih => simpa [State.engWords] using ih (s.engSetWord pa w) (pa + 8)

@[simp] theorem State.recAddr_cores (s : State) (die ctx : Nat) (va : Word) (w : Bool) : (s.recAddr die ctx va w).1.cores = s.cores := by
  have found := s.translate_cores die ctx va { cls := pcMem, write := w }
  unfold State.recAddr
  dsimp only
  split
  · next s1 t heq =>
    rw [heq] at found
    split
    · exact found
    · have home := ((if w then s1.setDirty die ctx va t else s1).useKey t).homeErr_cores (lineOf t.pa) { cls := pcMem, write := w }
      have reached : ((if w then s1.setDirty die ctx va t else s1).useKey t).cores = s.cores := by
        split <;> simpa using found
      rw [reached] at home
      split
      all_goals
        next heq => rw [heq] at home; simpa using home
  · next heq => rw [heq] at found; exact found

/-- A record is written, and then the tail of its ring. -/
theorem State.recorded_cores (s : State) (pr pt : Nat) (ws : List Word) (w : Word) :
    ((s.engWords pr ws).engSetWord pt w).cores = s.cores := by simp

theorem State.tryRecord_keepsGens (s : State) (q ctx src : Nat) (r : Record) : s.keepsGens (s.tryRecord q ctx src r).1 := by
  have head := s.recAddr_cores (dieOf q) ctx (s.ctx ctx).fring false
  unfold State.tryRecord
  dsimp only
  split
  · next s1 h1 =>
    rw [h1] at head
    exact State.keepsGens_of_cores head
  · next s1 ph h1 =>
    rw [h1] at head
    have tail := s1.recAddr_cores (dieOf q) ctx ((s.ctx ctx).fring + 8#64) true
    split
    · next s2 h2 =>
      rw [h2] at tail
      exact State.keepsGens_of_cores (tail.trans head)
    · next s2 pt h2 =>
      rw [h2] at tail
      split
      · exact State.keepsGens_of_cores (tail.trans head)
      · have slot := s2.recAddr_cores (dieOf q) ctx ((s.ctx ctx).fring + 64#64 +
          BitVec.ofNat 64 (64 * ((s2.engWord pt).toNat % 2 ^ (s.ctx ctx).flog))) true
        split
        · next s3 h3 =>
          rw [h3] at slot
          exact State.keepsGens_of_cores (slot.trans (tail.trans head))
        · next s3 pr h3 =>
          rw [h3] at slot
          refine (State.keepsGens_of_cores (slot.trans (tail.trans head))).trans ?_
          have sent := (State.keepsGens_of_cores (s3.recorded_cores pr pt (recordWords ctx (s.ctx ctx).owner s.link.dev q src r
            (s2.engWord pt).toNat) (s2.engWord pt + 1#64))).trans (State.release_keepsGens _ (coreOf q) ctx .sy)
          dsimp only
          split
          · exact sent
          · exact sent.trans (State.keepsGens_of_cores (State.sendHal_cores ..))

theorem State.retryHeld_keepsGens (s : State) (ctx n : Nat) : s.keepsGens (s.retryHeld ctx n) := by
  induction n generalizing s with
  | zero => exact State.keepsGens_of_cores rfl
  | succ n ih =>
    unfold State.retryHeld
    split
    · exact State.keepsGens_of_cores rfl
    · next q r _ =>
      split
      · next s1 evs h => exact State.keepsGens_of_cores ((s.gateAsks_ringGate _ _).cores h)
      · have record := s.tryRecord_keepsGens q ctx 0 r
        split
        · next s1 h => rw [h] at record; exact record
        · next s1 h =>
          rw [h] at record
          exact record.trans (ih _)

theorem State.countLost_cores (s : State) (q ctx : Nat) : (s.countLost q ctx).cores = s.cores := by
  have found := s.recAddr_cores (dieOf q) ctx ((s.ctx ctx).fring + 16#64) true
  unfold State.countLost
  split
  all_goals
    next h => rw [h] at found; simpa using found

theorem State.writeStatus_keepsGens (s : State) (o : Owed) : s.keepsGens (s.writeStatus o) := by
  unfold State.writeStatus
  split
  · exact State.keepsGens_of_cores (s.countLost_cores ..)
  · have retried := s.retryHeld_keepsGens o.ctx (s.heldRecords o.ctx).length
    have record := (s.retryRecords o.ctx).tryRecord_keepsGens o.q o.ctx o.src o.r
    split
    · next s1 h => rw [h] at record; exact retried.trans record
    · next s1 h => rw [h] at record; exact retried.trans (record.trans (State.keepsGens_of_cores (s1.countLost_cores ..)))

/-- The errors that a release meets are recorded. -/
theorem State.meetErrors_keepsGens {s s1 : State} {q ctx l : Nat} {acc : Acc} (h : s.meetErrors q ctx l acc = .ok s1 ()) :
    s.keepsGens s1 := by
  have home := s.homeErr_cores l acc
  unfold State.meetErrors at h
  split at h
  · next heq =>
    rw [heq] at home
    cases h
    exact State.keepsGens_of_cores home
  · cases h
  · next heq =>
    rw [heq] at home
    cases h
    refine (State.keepsGens_of_cores home).trans ?_
    unfold State.putStatus
    dsimp only
    split
    · next h => exact State.keepsGens_of_cores ((State.gateAsks_ringGate _ _ _).cores h)
    · exact State.writeStatus_keepsGens _ _

theorem tryList_keepsGens {α : Type} {f : State → α → Try Unit} (hf : ∀ {t t1 : State} {a : α}, f t a = .ok t1 () → t.keepsGens t1)
    (l : List α) {s s1 : State} (h : tryList l s f = .ok s1 ()) : s.keepsGens s1 := by
  induction l generalizing s with
  | nil => cases h; exact State.keepsGens_of_cores rfl
  | cons a l ih =>
    obtain ⟨t, _, first, rest⟩ := Try.bind_eq_ok h
    exact (hf first).trans (ih rest)

theorem State.relErrors_keepsGens {s s1 : State} {q : Nat} (h : s.relErrors q = .ok s1 ()) : s.keepsGens s1 := by
  refine tryList_keepsGens (fun {u u1 l} hu => ?_) _ h
  split at hu
  · cases hu
  · exact State.meetErrors_keepsGens hu

end Sys2Proof.Machine
end

section
/-! PROOFS. Fences (O25; spec/08 R186 to R189, R197 to R199): the hold at issue, what a release leaves in an L1, and FENCE_COMPLETE. -/

namespace Sys2Proof.Machine

/-! ### At issue -/

theorem exec_fence_or_xfence {i : Instr} {g : BitVec 7} {what : Hold} {mem : Bool}
    (form : (∃ sc, i = .fence g sc ∧ what = .fence sc ∧ mem = true) ∨
      (∃ a b, i = .xfence g a b ∧ what = .xfence a b ∧ mem = decide (a = .mem ∨ b = .mem))) (s : State) :
    exec i s = slotOp g s fun s => s.holdFence what mem := by
  obtain ⟨sc, rfl, rfl, rfl⟩ | ⟨a, b, rfl, rfl, rfl⟩ := form
  · rfl
  · have same : (a == .mem || b == .mem) = decide (a = .mem ∨ b = .mem) := (Bool.decide_or (a = .mem) (b = .mem)).symm
    rw [exec_xfence, execXfence, same]

/-- Past its streams, with no fault latched, a fence holds. -/
theorem State.holdFence_holds {s : State} {mem : Bool} (drained : mem = true → s.drainStreams s.cur.seq = [])
    (clean : mem = false ∨ s.streamFault = none) (what : Hold) : s.holdFence what mem =
      .hold (s.setFlight { s.me.f with holdB := some { bn := s.cur.bn, addr := s.cur.addr, what := what } }) := by
  cases mem with
  | false => rfl
  | true =>
    have none_latched : s.streamFault = none := clean.resolve_left nofun
    simp only [State.holdFence, drained rfl, none_latched, if_true, List.isEmpty_nil, Bool.not_true, Bool.false_eq_true, if_false]

/-- A latched fault is raised. -/
theorem State.holdFence_faults {s : State} {tr : Trap} (drained : s.drainStreams s.cur.seq = []) (latched : s.streamFault = some tr)
    (what : Hold) : s.holdFence what true = .trap s tr := by
  simp only [State.holdFence, drained, latched, if_true, List.isEmpty_nil, Bool.not_true, Bool.false_eq_true, if_false]

/-! ### What a release leaves in an L1 -/

/-- No line of an L1 holds dirty bytes of a context. -/
def State.cleanL1 (s : State) (c ctx : Nat) : Prop := ∀ l x, s.l1 c l ctx = some x → x.ctx = ctx → x.dirty = 0#64

theorem State.cleanL1_of_core {s t : State} {c ctx : Nat} (h : (t.core c).l1 = (s.core c).l1) (k : s.cleanL1 c ctx) :
    t.cleanL1 c ctx := fun l x hx => k l x (by rwa [State.l1, ← h])

theorem State.cleanL1_pushL1 (s : State) (c ctx : Nat) : (s.pushL1 c ctx).cleanL1 c ctx := by
  intro l x hx mine
  unfold State.l1 State.pushL1 at hx
  dsimp only at hx
  rw [State.core_setCore_same, s.core_mergeL1, Tab.get?_mapv] at hx
  obtain ⟨y, -, rfl⟩ := Option.map_eq_some_iff.mp hx
  by_cases own : y.ctx = ctx
  · simp [own]
  · simp [own] at mine

theorem State.cleanL1_release (s : State) (c ctx : Nat) {sc : Scope} (h : sc ≠ .cr) : (s.release c ctx sc).cleanL1 c ctx := by
  have pushed := s.cleanL1_pushL1 c ctx
  cases sc with
  | cr => exact absurd rfl h
  | cl => exact pushed
  | di | mo | sy =>
    exact State.cleanL1_of_core (by rw [State.release, State.core, State.pushL2_cores]; rfl) pushed

/-- An acquire leaves the lines of an L1, or none of them. -/
theorem State.cleanL1_bump {s : State} {c ctx : Nat} (h : s.cleanL1 c ctx) (sc : Scope) : (s.bump c sc).cleanL1 c ctx := by
  unfold State.bump
  cases genShift sc with
  | none => exact h
  | some k =>
    dsimp only
    split
    · intro l x hx
      rw [State.l1, State.core_setCore_same, State.flushL1] at hx
      simp only [State.core_setCore_same] at hx
      cases hx
    · exact State.cleanL1_of_core (by rw [State.core_setCore_same]) h

/-! ### What is released when a fence completes -/

/-- A release that is done ends with its bytes outward. -/
theorem State.tryRelease_ok {s s1 : State} {q : Nat} {sc : Scope} {bn : Option Nat} (h : s.tryRelease q sc bn = .ok s1 ()) :
    ∃ u, s.keepsGens u ∧ s1 = u.release (coreOf q) (s.ctxOf q) sc := by
  unfold State.tryRelease at h
  dsimp only at h
  split at h
  · cases h
  · split at h
    · cases h
      exact ⟨s, fun _ => rfl, rfl⟩
    · split at h
      · cases h
      · obtain ⟨u, _, errors, rest⟩ := Try.bind_eq_ok h
        cases rest
        exact ⟨u, State.relErrors_keepsGens errors, rfl⟩

/-- Stores in the queues, and streams that have not drained, come first. -/
theorem State.tryRelease_waits {s : State} {q : Nat} (sc : Scope) (h : s.storeEvents q ++ s.drainStreams q ≠ []) :
    s.tryRelease q sc = .wait s (s.storeEvents q ++ s.drainStreams q) := by
  have some_left : (s.storeEvents q ++ s.drainStreams q).isEmpty = false := by
    rw [Bool.eq_false_iff]
    exact fun e => h (List.isEmpty_iff.mp e)
  simp only [State.tryRelease, some_left, Bool.not_false, Bool.true_or, if_true]

/-! ### FENCE_COMPLETE -/

/-- The hold ends in a state that has the sequencers of another one: the slot has issued, and no register has changed. -/
theorem State.endHold_issues {s t : State} (h : t.seqs = s.seqs) (q bn : Nat) :
    ((t.endHold q bn).seq q).f.holdB = none ∧ ((t.endHold q bn).seq q).r = (s.seq q).r ∧
      ((t.endHold q bn).seq q).c.window = ((s.seq q).retire bn 1 1).c.window ∧ s.sameOthers (t.endHold q bn) q := by
  have seq : ∀ p, t.seq p = s.seq p := fun p => by rw [State.seq, State.seq, h]
  rw [State.seq_endHold, seq]
  exact ⟨rfl, rfl, rfl, fun p hp => (State.seq_setSeq_other _ _ hp).trans (seq p)⟩

section
variable {s s1 : State} {q : Nat} {hb : HoldB}

theorem exec_fenceComplete_fence {sc : Scope} (held : (s.seq q).f.holdB = some hb) (what : hb.what = .fence sc)
    (released : s.tryRelease q sc = .ok s1 ()) :
    exec (.fenceComplete q) s = .next ((s1.bump (coreOf q) sc).endHold q hb.bn) := by
  simp only [exec_fenceComplete, execFenceComplete, held, what, released]

theorem exec_fenceComplete_waits {sc : Scope} (held : (s.seq q).f.holdB = some hb) (what : hb.what = .fence sc)
    (left : s.storeEvents q ++ s.drainStreams q ≠ []) :
    exec (.fenceComplete q) s = .next (s.stallOn (s.storeEvents q ++ s.drainStreams q)) := by
  simp only [exec_fenceComplete, execFenceComplete, held, what, State.tryRelease_waits sc left]

theorem exec_fenceComplete_xfence {a b : PClass} (held : (s.seq q).f.holdB = some hb) (what : hb.what = .xfence a b)
    (done : s.classDone q a = .ok s1 ()) :
    exec (.fenceComplete q) s = .next ((if a = .mem ∨ b = .mem then s1.bump (coreOf q) .sy else s1).endHold q hb.bn) := by
  simp only [exec_fenceComplete, execFenceComplete, held, what, done, Bool.or_eq_true, decide_eq_true_eq]
  by_cases mem : a = .mem ∨ b = .mem
  · simp only [mem, if_true]
  · simp only [mem, if_false]

end

/-- Settles O25: at issue a fence raises a latched fault or holds; when it completes, its release has emptied the L1 of dirty bytes, the
acquire moves the generation that the release left alone, and the slot issues. -/
theorem fencesReleaseThenAcquire : Obligations.FencesReleaseThenAcquire := by
  unfold Obligations.FencesReleaseThenAcquire
  refine ⟨fun i s g what mem hg form drained => ?_, fun s q hb sc held what => ⟨fun s1 released => ?_, fun left => ?_⟩,
    fun s q hb a b s1 held what done => ?_⟩
  · rw [exec_fence_or_xfence form, slotOp_on hg]
    refine ⟨fun clean => ?_, fun tr hm latched => ?_⟩
    · obtain ⟨regs, ctl, others, module, flight⟩ :=
        s.setFlight_frame { s.me.f with holdB := some { bn := s.cur.bn, addr := s.cur.addr, what := what } }
      rw [State.holdFence_holds drained clean]
      exact ⟨_, rfl, regs, ctl, flight, others, module⟩
    · subst hm
      rw [State.holdFence_faults (drained rfl) latched]
      rfl
  · obtain ⟨u, gens, rfl⟩ := State.tryRelease_ok released
    obtain ⟨free, regs, window, others⟩ := State.endHold_issues (State.bump_frame _ (coreOf q) sc).1 q hb.bn
    have gen := (gens.trans (u.release_keepsGens (coreOf q) (s.ctxOf q) sc)) (coreOf q)
    refine ⟨_, exec_fenceComplete_fence held what released, free, regs, window, others, ?_, fun wide => ?_⟩
    · rw [State.core_endHold]
      exact State.gen_bump_congr gen sc
    · exact State.cleanL1_of_core (by rw [State.core_endHold])
        (State.cleanL1_bump (u.cleanL1_release (coreOf q) (s.ctxOf q) wide) sc)
  · exact ⟨_, exec_fenceComplete_waits held what left, rfl, s.sameModule_stallOn _, rfl⟩
  · have seqs : (if a = .mem ∨ b = .mem then s1.bump (coreOf q) .sy else s1).seqs = s1.seqs := by
      split
      · exact (s1.bump_frame (coreOf q) .sy).1
      · rfl
    obtain ⟨free, regs, window, others⟩ := State.endHold_issues seqs q hb.bn
    refine ⟨_, exec_fenceComplete_xfence held what done, free, regs, window, others, ?_⟩
    rw [State.core_endHold]
    split <;> rfl

end Sys2Proof.Machine
end

section
/-! PROOFS. A line at its home (spec/18 R374 to R379): its side-band, its copies in the L2s, and its bytes in DRAM. -/

namespace Sys2Proof

/-! ### Tables and lines of memory -/

/-- A change of the entries of a table that leaves their keys. -/
theorem Tab.get?_map_entries {α β : Type} (t : Tab α) {f : Nat × α → Nat × β} (hf : ∀ e, (f e).1 = e.1) (n : Nat) :
    Tab.get? (t.map f : Tab β) n = (Tab.get? t n).map fun x => (f (n, x)).2 := by
  induction t with
  | nil => rfl
  | cons e t ih =>
    obtain ⟨k, v⟩ := e
    rw [List.map_cons, show f (k, v) = (k, (f (k, v)).2) from Prod.ext (hf _) rfl, Tab.get?, Tab.get?]
    split
    · next h => rw [h]; rfl
    · exact ih

theorem Mem.get_setLineFrom_outside (m : Mem) (l d mask i n : Nat) {a : Nat} (h : a < 64 * l + i ∨ 64 * l + i + n ≤ a) :
    Mem.get (Mem.setLineFrom m l d mask i n) a = Mem.get m a := by
  induction n generalizing m d mask i with
  | zero => rfl
  | succ n ih =>
    rw [Mem.setLineFrom, ih _ _ _ _ (by omega)]
    split
    · rw [Mem.get_set, if_neg (by omega)]
    · rfl

theorem Mem.get_setLineFrom_inside (m : Mem) (l d mask i n : Nat) {k : Nat} (hk : k < n) :
    Mem.get (Mem.setLineFrom m l d mask i n) (64 * l + i + k) =
      if mask.testBit k then BitVec.ofNat 8 (d / 256 ^ k) else Mem.get m (64 * l + i + k) := by
  induction n generalizing m d mask i k with
  | zero => cases hk
  | succ n ih =>
    rw [Mem.setLineFrom]
    cases k with
    | zero =>
      rw [Mem.get_setLineFrom_outside _ _ _ _ _ _ (by omega), Nat.testBit_zero]
      by_cases odd : mask % 2 = 1
      · simp [odd, Mem.get_set]
      · simp [odd]
    | succ k =>
      rw [show 64 * l + i + (k + 1) = 64 * l + (i + 1) + k by omega, ih _ _ _ _ (by omega), Nat.testBit_succ, Nat.div_div_eq_div_mul,
        ← Nat.pow_succ']
      split
      · rfl
      · split
        · rw [Mem.get_set, if_neg (by omega)]
        · rfl

/-- A masked write of a line. -/
theorem Mem.get_setLine (m : Mem) (l : Nat) (d : BitVec 512) (mask : BitVec 64) (a : Nat) : Mem.get (Mem.setLine m l d mask) a =
    if a / 64 = l ∧ mask.getLsbD (a % 64) then byteOf d (a % 64) else Mem.get m a := by
  have byte : ∀ k, BitVec.ofNat 8 (d.toNat / 256 ^ k) = byteOf d k := fun k => by
    refine BitVec.eq_of_toNat_eq ?_
    rw [byteOf, BitVec.extractLsb'_toNat, Nat.shiftRight_eq_div_pow, BitVec.toNat_ofNat, Nat.pow_mul]
  by_cases here : a / 64 = l
  · have at_ : a = 64 * l + 0 + a % 64 := by omega
    conv_lhs => rw [at_]
    rw [Mem.setLine, Mem.get_setLineFrom_inside _ _ _ _ _ _ (Nat.mod_lt a (by decide)), byte, ← at_]
    exact if_congr (by simp [here, BitVec.getLsbD]) rfl rfl
  · rw [if_neg (fun h => here h.1)]
    exact Mem.get_setLineFrom_outside _ _ _ _ _ _ (by omega)

theorem blend_zero (x y : BitVec 512) : blend 0#64 x y = y := by
  refine BitVec.eq_of_getLsbD_eq fun i hi => ?_
  rw [blend, Machine.getLsbD_merge _ _ _ hi, getLsbD_spread _ hi]
  simp

namespace Machine

/-! ### The side-band (spec/18 R374) -/

/-- Every field of a side-band fits its width. -/
structure Side.fits (x : Side) : Prop where
  ext : x.ext < 4
  dev : x.dev < 8
  die : x.die < 16
  cl : x.cl < 16
  st : x.st < 8

theorem Side.fits_ofBits (b : BitVec 16) : (Side.ofBits b).fits := by
  have := b.isLt
  refine ⟨?_, ?_, ?_, ?_, ?_⟩ <;> simp only [Side.ofBits] <;> omega

theorem Side.fits.withSt {x : Side} (h : x.fits) {st : Nat} (hs : st < 8) : ({ x with st := st } : Side).fits :=
  ⟨h.ext, h.dev, h.die, h.cl, hs⟩

theorem Side.bits_toNat {x : Side} (h : x.fits) : x.bits.toNat = x.ext * 2 ^ 14 + x.dev * 2 ^ 11 + x.die * 2 ^ 7 + x.cl * 8 + x.st := by
  obtain ⟨ext, dev, die, cl, st⟩ := h
  rw [Side.bits, BitVec.toNat_ofNat]
  omega

theorem Side.ofBits_bits {x : Side} (h : x.fits) : Side.ofBits x.bits = x := by
  have value := Side.bits_toNat h
  obtain ⟨ext, dev, die, cl, st⟩ := h
  cases x
  simp only [Side.ofBits, value, Side.mk.injEq] at *
  omega

theorem Side.bits_eq_append {x : Side} (h : x.fits) : x.bits =
    BitVec.ofNat 2 x.ext ++ BitVec.ofNat 3 x.dev ++ BitVec.ofNat 4 x.die ++ BitVec.ofNat 4 x.cl ++ BitVec.ofNat 3 x.st := by
  refine BitVec.eq_of_toNat_eq ?_
  have value := Side.bits_toNat h
  obtain ⟨ext, dev, die, cl, st⟩ := h
  simp only [value, toNat_append_add, BitVec.toNat_ofNat]
  omega

theorem Side.owner_lt {x : Side} (h : x.fits) : x.owner < 256 := by
  obtain ⟨-, -, die, cl, -⟩ := h
  rw [Side.owner]
  omega

/-- A side-band that names a cluster of this module. -/
theorem State.fits_ownedBy (s : State) {r ext st : Nat} (hr : r < 256) (he : ext < 4) (hs : st < 8) : (s.ownedBy r ext st).fits :=
  ⟨he, s.link.dev.isLt, by simp only [State.ownedBy]; omega, by simp only [State.ownedBy]; omega, hs⟩

theorem State.owner_ownedBy (s : State) (r ext st : Nat) : (s.ownedBy r ext st).owner = r := by
  simp only [State.ownedBy, Side.owner]
  omega

theorem State.fits_side (s : State) (l : Nat) : (s.side l).fits := Side.fits_ofBits _

theorem State.sideBits_setSide (s : State) (l : Nat) (x : Side) (m : Nat) :
    (s.setSide l x).sideBits m = if m = l then x.bits else s.sideBits m := by
  have mem := s.sideWrote_mem l
  simp only [State.sideBits, State.setSide, mem]
  split
  · next zero => rw [Tab.getD_erase, zero]
  · exact Tab.getD_put ..

theorem State.sideBits_setInvalid (s : State) (l m : Nat) :
    (s.setInvalid l).sideBits m = if m = l then 0#16 else s.sideBits m := by
  have mem := s.sideWrote_mem l
  simp only [State.sideBits, State.setInvalid, mem]
  exact Tab.getD_erase ..

theorem State.sideBits_congr {s t : State} (h : t.mem.side = s.mem.side) (m : Nat) : t.sideBits m = s.sideBits m := by
  rw [State.sideBits, State.sideBits, h]

theorem State.side_congr {s t : State} {l : Nat} (h : t.sideBits l = s.sideBits l) : t.side l = s.side l := by
  rw [State.side, State.side, h]

/-- The side-band of a line field by field. -/
theorem State.sideIs_of_bits {t : State} {l : Nat} {x : Side} (h : t.sideBits l = x.bits) (hx : x.fits) :
    Stmt.sideIs t l x.ext x.dev x.die x.cl x.st := h.trans (Side.bits_eq_append hx)

theorem State.sideIs_ownedBy {s t : State} {l r ext st : Nat} (h : t.sideBits l = (s.ownedBy r ext st).bits)
    (hx : (s.ownedBy r ext st).fits) : Stmt.sideIs t l ext s.link.dev.toNat (r / 16) (r % 16) st :=
  State.sideIs_of_bits (x := s.ownedBy r ext st) h hx

@[simp] theorem State.setSide_dram (s : State) (l : Nat) (x : Side) : (s.setSide l x).mem.dram = s.mem.dram :=
  congrArg (·.dram) (s.sideWrote_mem l)

@[simp] theorem State.setInvalid_dram (s : State) (l : Nat) : (s.setInvalid l).mem.dram = s.mem.dram :=
  congrArg (·.dram) (s.sideWrote_mem l)

/-! ### Copies in the L2s -/

theorem State.l2_congr {s t : State} (h : t.clusters = s.clusters) (d m : Nat) : t.l2 d m = s.l2 d m := by
  rw [State.l2, State.l2, State.cluster, State.cluster, h]

theorem State.l2_setL2 (s : State) (r l : Nat) (x : CLine) (d m : Nat) :
    (s.setL2 r l x).l2 d m = if d = r ∧ m = l then some x else s.l2 d m := by
  rw [State.l2, State.setL2, State.cluster_setCluster]
  by_cases hd : d = r
  · subst hd
    by_cases hm : m = l
    · rw [if_pos rfl, if_pos ⟨rfl, hm⟩, hm, Tab.get?_put_same]
    · rw [if_pos rfl, if_neg (fun h => hm h.2), Tab.get?_put_other _ _ hm, State.l2]
  · rw [if_neg hd, if_neg (fun h => hd h.1), State.l2]

theorem State.l2_dropL2 (s : State) (r l d m : Nat) : (s.dropL2 r l).l2 d m = if d = r ∧ m = l then none else s.l2 d m := by
  rw [State.l2, State.dropL2, State.cluster_setCluster]
  by_cases hd : d = r
  · subst hd
    simp only [if_true, true_and, Tab.get?_erase, State.l2]
  · rw [if_neg hd, if_neg (fun h => hd h.1), State.l2]

/-- What an invalidation leaves of the copy of a cluster. -/
def State.leftOf (s : State) (l d : Nat) : Option CLine :=
  (s.l2 d l).bind (invalidateLine (((s.side l).st = csM || (s.side l).st = csO) && (s.side l).owner == d))

theorem State.l2_invalidateL2 (s : State) (l : Nat) (but : Option Nat) (d m : Nat) :
    (s.invalidateL2 l but).l2 d m = if m = l ∧ some d ≠ but then s.leftOf l d else s.l2 d m := by
  rw [State.l2, State.cluster, Tab.getD, State.invalidateL2, Tab.get?_map_entries]
  · rw [State.leftOf, State.l2, State.l2, State.cluster, Tab.getD]
    cases Tab.get? s.clusters d with
    | none => simp [Tab.get?]
    | some k =>
      simp only [Option.map_some, Option.getD_some]
      by_cases kept : some d = but
      · rw [if_pos kept, if_neg (fun h => h.2 kept)]
      · rw [if_neg kept]
        cases hc : Tab.get? k.l2 l with
        | none =>
          simp only [Option.bind_none]
          split
          · next h => rw [h.1, hc]
          · rfl
        | some c =>
          simp only [Option.bind_some]
          cases invalidateLine (((s.side l).st = csM || (s.side l).st = csO) && (s.side l).owner == d) c with
          | none => simp [Tab.get?_erase, kept]
          | some c1 =>
            by_cases hm : m = l
            · rw [if_pos ⟨hm, kept⟩, hm, Tab.get?_put_same]
            · rw [if_neg (fun h => hm h.1), Tab.get?_put_other _ _ hm]
  · intro e
    dsimp only
    repeat' split
    all_goals rfl

/-- A copy that an invalidation leaves holds stores that no scope has seen, and nothing else (spec/08 R189). -/
theorem State.leftOf_dirty {s : State} {l d : Nat} {y : CLine} (h : s.leftOf l d = some y) : y.dirty ≠ 0#64 ∧ y.have_ = y.dirty := by
  obtain ⟨x, -, hx⟩ := Option.bind_eq_some_iff.mp h
  unfold invalidateLine at hx
  split at hx
  · cases hx
  · next keeps =>
    cases hx
    rw [Bool.or_eq_true, decide_eq_true_eq] at keeps
    exact ⟨fun clean => keeps (.inr clean), rfl⟩

/-! ### Bytes at the home -/

theorem State.ownerDirty_congr {s t : State} {l : Nat} (side : t.sideBits l = s.sideBits l) (l2 : ∀ d, t.l2 d l = s.l2 d l) :
    t.ownerDirty l = s.ownerDirty l := by
  rw [State.ownerDirty, State.ownerDirty, State.side_congr side, l2]

theorem State.engByte_eq (s : State) (a : Nat) : s.engByte a =
    if (s.ownerDirty (a / 64)).2.getLsbD (a % 64) then byteOf (s.ownerDirty (a / 64)).1 (a % 64) else Mem.get s.mem.dram a := rfl

theorem State.engByte_congr {s t : State} {a : Nat} (side : t.sideBits (a / 64) = s.sideBits (a / 64))
    (l2 : ∀ d, t.l2 d (a / 64) = s.l2 d (a / 64)) (dram : Mem.get t.mem.dram a = Mem.get s.mem.dram a) :
    t.engByte a = s.engByte a := by
  rw [State.engByte_eq, State.engByte_eq, State.ownerDirty_congr side l2, dram]

/-- A line in I is read in DRAM. -/
theorem State.engByte_invalid {s : State} {a : Nat} (h : s.sideBits (a / 64) = 0#16) : s.engByte a = Mem.get s.mem.dram a := by
  have clean : s.ownerDirty (a / 64) = (0#512, 0#64) := by
    rw [State.ownerDirty, State.side, h]
    rfl
  rw [State.engByte_eq, clean]
  simp

theorem State.get_writeBack (s : State) (l : Nat) (d : BitVec 512) (m : BitVec 64) (a : Nat) :
    Mem.get (s.writeBack l d m).mem.dram a =
      if a / 64 = l ∧ m.getLsbD (a % 64) then byteOf d (a % 64) else Mem.get s.mem.dram a := by
  unfold State.writeBack
  dsimp only
  split
  · next zero => simp [zero]
  · split <;> exact Mem.get_setLine ..

theorem State.writeBack_side (s : State) (l : Nat) (d : BitVec 512) (m : BitVec 64) : (s.writeBack l d m).mem.side = s.mem.side := by
  unfold State.writeBack
  dsimp only
  repeat' split
  all_goals rfl

theorem State.get_ownerBack (s : State) (l : Nat) (d : BitVec 512) (m : BitVec 64) (a : Nat) :
    Mem.get (s.ownerBack l d m).mem.dram a =
      if a / 64 = l ∧ m.getLsbD (a % 64) then byteOf d (a % 64) else Mem.get s.mem.dram a := by
  unfold State.ownerBack
  dsimp only
  split <;> exact State.get_writeBack ..

theorem State.ownerBack_side (s : State) (l : Nat) (d : BitVec 512) (m : BitVec 64) : (s.ownerBack l d m).mem.side = s.mem.side := by
  unfold State.ownerBack
  dsimp only
  split <;> exact State.writeBack_side ..

end Machine
end Sys2Proof
end

section
/-! PROOFS. Requests at the home of a line (O47; spec/18 R375 to R377): what RdS, RdX, Hal, WB and a non-caching write leave. -/

namespace Sys2Proof.Machine

/-! ### Served -/

/-- A request that nothing keeps from the home of a sound line is served. -/
theorem homeRequest_served {s : State} {l : Nat} {read exclusive : Bool} (ctx : Nat) (f : State → State)
    (served : Stmt.open_ s l exclusive) (sound : read = true → s.homeBad l = false) :
    homeRequest l read exclusive ctx f s = .next (f s) := by
  obtain ⟨gate, side⟩ := served
  have met : (if read || s.sideBad l then s.meetQuiet l ctx else s) = s := by
    cases read with
    | false => rw [side]; rfl
    | true => rw [State.meetQuiet, State.meetHome_clean (sound rfl)]; rfl
  have brings : (read && s.homeBad l) = false := by
    cases read with
    | false => rfl
    | true => exact sound rfl
  simp only [homeRequest, State.atHome, met, gate, brings, Bool.false_eq_true, if_false]

/-! ### RdS -/

/-- The side-band after a fill by cluster r. -/
def State.rdsSide (s : State) (l r : Nat) : Side :=
  let x := s.side l
  let ext := max x.ext (distCl x.owner r)
  if x.st = csI then s.ownedBy r 0 csE
  else if x.st = csS || x.st = csE then s.ownedBy r ext csS
  else { x with ext := ext, st := csO }

theorem State.homeRdS_eq (s : State) (l r : Nat) : s.homeRdS l r = (s.setSide l (s.rdsSide l r), s.homeData l) := by
  unfold State.homeRdS State.rdsSide
  dsimp only
  split
  · rfl
  · split <;> rfl

theorem distCl_owner {x : Side} (h : x.fits) (r : Nat) : distCl x.owner r = if x.die = r / 16 then 0 else 1 := by
  have die : x.owner / 16 = x.die := by
    have := h.cl
    rw [Side.owner]
    omega
  rw [distCl, die]

theorem distCl_lt (a r : Nat) : distCl a r < 4 := by
  unfold distCl
  split <;> decide

/-- A miss of an L2 with a free way. -/
theorem State.l2Read_miss {s : State} {r l : Nat} (ctx : Nat) (miss : s.l2 r l = none)
    (room : ((s.cluster r).l2.filter fun e => e.1 % 8192 == l % 8192).length < 16) :
    (s.l2Read r l ctx).1 = (((s.setSide l (s.rdsSide l r)).mscTouch l ctx 0 false false).setL2 r l
      { data := s.homeData l, have_ := BitVec.allOnes 64, dirty := 0#64, ctx := ctx, use_ := nextUse (s.cluster r).l2 }) := by
  rw [State.l2] at miss
  simp only [State.l2Read, miss, State.roomL2_free ctx room, State.homeRdS_eq]

theorem exec_homeRds_miss {s : State} {l cl : Nat} (served : Stmt.open_ s l false) (sound : s.homeBad l = false)
    (miss : s.l2 cl l = none) : exec (.homeRds l cl) s = .next (s.l2Read cl l 0).1 := by
  have whole : s.l2Full cl l = false := by rw [State.l2Full, miss]
  rw [exec_homeRds, execHomeRds, homeRequest_served _ _ served fun _ => sound, State.asker, miss, whole]
  rfl

/-! ### RdX -/

/-- Nothing is met at a home without an error. -/
theorem State.meetQuiet_sound {s : State} {l : Nat} (h : s.homeBad l = false) (ctx : Nat) : s.meetQuiet l ctx = s := by
  rw [State.meetQuiet, State.meetHome_clean h]

/-- The line of a cluster, or an empty one, as RdX finds it. -/
def State.ownLine (s : State) (l r ctx : Nat) : CLine :=
  (s.l2 r l).getD { data := 0#512, have_ := 0#64, dirty := 0#64, ctx := ctx, use_ := nextUse (s.cluster r).l2 }

/-- The line as RdX leaves it: its own dirty bytes over those of the home, which an owner's dirty bytes are among. -/
def State.tookLine (s : State) (l r ctx : Nat) : CLine :=
  let mine := s.ownLine l r ctx
  let handed := if (s.side l).owner = r then 0#64 else (s.ownerDirty l).2
  { mine with data := blend mine.dirty mine.data (s.homeData l), dirty := mine.dirty ||| handed, pend := false,
              have_ := if s.mem.poison.contains l then mine.dirty ||| handed else BitVec.allOnes 64 }

/-- What RdX leaves of a line whose errors have been met. -/
structure State.tookM (s t : State) (l r ctx : Nat) : Prop where
  dram : t.mem.dram = s.mem.dram
  side : ∀ m, t.sideBits m = if m = l then (s.ownedBy r 0 csM).bits else s.sideBits m
  line : t.l2 r l = some (s.tookLine l r ctx)
  others : ∀ d, d ≠ r → t.l2 d l = s.leftOf l d

theorem State.cluster_invalidateL2_but (s : State) (l r : Nat) : (s.invalidateL2 l (some r)).cluster r = s.cluster r := by
  rw [State.cluster, State.cluster, Tab.getD, Tab.getD, State.invalidateL2, Tab.get?_map_entries]
  · cases Tab.get? s.clusters r <;> simp
  · intro e
    dsimp only
    repeat' split
    all_goals rfl

theorem State.homeRdX_eq (s : State) (l r ctx : Nat) : s.homeRdX l r ctx =
    let u := s.meetQuiet l ctx
    let v := (((u.invalidateL2 l (some r)).setL2 r l (u.tookLine l r ctx)).setSide l (u.ownedBy r 0 csM)).mscTouch l ctx 0 false false
    { v with mem := { v.mem with acked := v.mem.acked.filter (· != l) } } := by
  unfold State.homeRdX
  generalize s.meetQuiet l ctx = u
  have mine : ((u.invalidateL2 l (some r)).l2 r l).getD
      { data := 0#512, have_ := 0#64, dirty := 0#64, ctx := ctx, use_ := nextUse ((u.invalidateL2 l (some r)).cluster r).l2 } =
      u.ownLine l r ctx := by
    rw [State.l2, u.cluster_invalidateL2_but]
    rfl
  dsimp only
  rw [mine]
  rfl

theorem State.homeRdX_tookM (s : State) (l r ctx : Nat) : (s.meetQuiet l ctx).tookM (s.homeRdX l r ctx) l r ctx := by
  rw [State.homeRdX_eq]
  generalize s.meetQuiet l ctx = u
  let w := (u.invalidateL2 l (some r)).setL2 r l (u.tookLine l r ctx)
  have copies := fun d => (State.l2_congr ((State.mscTouch_caches (w.setSide l (u.ownedBy r 0 csM)) l ctx 0 false false).2.trans
    (w.setSide_caches l _).2) d l).trans (State.l2_setL2 ..)
  have mem := State.mscTouch_mem (w.setSide l (u.ownedBy r 0 csM)) l ctx 0 false false
  refine ⟨congrArg (·.dram) mem |>.trans (w.setSide_dram l _),
    fun m => (State.sideBits_congr (congrArg (·.side) mem) m).trans (w.sideBits_setSide l _ m), (copies r).trans (if_pos ⟨rfl, rfl⟩),
    fun d hd => (copies d).trans ?_⟩
  rw [if_neg (fun h => hd h.1), State.l2_invalidateL2, if_pos ⟨rfl, fun h => hd (Option.some.inj h)⟩]

theorem State.own_homeRdX {s : State} {l cl : Nat} (ctx : Nat) (other : s.ownsM l cl = false)
    (room : s.l2 cl l = none → ((s.cluster cl).l2.filter fun e => e.1 % 8192 == l % 8192).length < 16) :
    s.own l cl ctx = s.homeRdX l cl ctx := by
  have free : (if (s.l2 cl l).isSome then s else s.roomL2 cl l ctx) = s := by
    split
    · rfl
    · next h => exact State.roomL2_free ctx (room (Option.not_isSome_iff_eq_none.mp h))
  rw [State.own, other, State.takeL2, free]
  rfl

/-! ### Hal -/

/-- What Hal leaves: the line in I, with its bytes in DRAM, and of the copies only the stores that no scope has seen. -/
structure State.tookHal (s t : State) (l : Nat) : Prop where
  side : ∀ m, t.sideBits m = if m = l then 0#16 else s.sideBits m
  l2 : ∀ d m, t.l2 d m = if m = l then s.leftOf l d else s.l2 d m
  dram : ∀ a, Mem.get t.mem.dram a = if a / 64 = l then s.engByte a else Mem.get s.mem.dram a

theorem State.homeHal_tookHal (s : State) (l : Nat) : s.tookHal (s.homeHal l) l := by
  have back : ∀ (d : BitVec 512) (m : BitVec 64) (k : Nat), (s.ownerBack l d m).sideBits k = s.sideBits k := fun d m k =>
    State.sideBits_congr (s.ownerBack_side l d m) k
  refine ⟨fun m => ?_, fun d m => ?_, fun a => ?_⟩
  · rw [State.homeHal, State.sideBits_setInvalid]
    split
    · rfl
    · exact back _ _ m
  · have copies : (s.ownerBack l (s.ownerDirty l).1 (s.ownerDirty l).2).leftOf l d = s.leftOf l d := by
      rw [State.leftOf, State.leftOf, State.side_congr (back _ _ l), State.l2_congr (State.ownerBack_caches ..).2]
    rw [State.homeHal, State.l2_congr (State.setInvalid_caches ..).2, State.l2_invalidateL2, copies,
      State.l2_congr (State.ownerBack_caches ..).2]
    simp
  · rw [State.homeHal, State.setInvalid_dram, State.invalidateL2_mem, State.get_ownerBack, State.engByte_eq]
    by_cases here : a / 64 = l
    · simp [here]
    · simp [here]

theorem State.tookHal.engByte {s t : State} {l : Nat} (h : s.tookHal t l) (a : Nat) : t.engByte a = s.engByte a := by
  by_cases here : a / 64 = l
  · rw [State.engByte_invalid (by rw [h.side, if_pos here]), h.dram, if_pos here]
  · exact State.engByte_congr (by rw [h.side, if_neg here]) (fun d => by rw [h.l2, if_neg here]) (by rw [h.dram, if_neg here])

/-- A write of a non-caching agent, after Hal. -/
theorem State.engLine_mem (s : State) (l : Nat) (data : BitVec 512) (mask : BitVec 64) :
    (s.engLine l data mask).mem.dram = Mem.setLine (s.homeHal l).mem.dram l data mask ∧
      (s.engLine l data mask).mem.side = (s.homeHal l).mem.side ∧ (s.engLine l data mask).clusters = (s.homeHal l).clusters ∧
      (s.engLine l data mask).cores = s.cores ∧ (s.engLine l data mask).seqs = s.seqs ∧
      (mask = BitVec.allOnes 64 → l ∉ (s.engLine l data mask).mem.poison ∧ l ∉ (s.engLine l data mask).mem.badData) := by
  unfold State.engLine
  dsimp only
  split
  · exact ⟨rfl, rfl, rfl, s.homeHal_cores l, s.homeHal_seqs l, fun _ => by simp [State.setDram, State.clearPoison]⟩
  · next h => exact ⟨rfl, rfl, rfl, s.homeHal_cores l, s.homeHal_seqs l, fun full => absurd full h⟩

/-! ### WB -/

/-- What WB leaves: the owner has dropped the line, and its dirty bytes are in DRAM. -/
structure State.wroteBack (s t : State) (l r : Nat) (c : CLine) : Prop where
  l2 : t.l2 r l = none
  side : t.sideBits l = if (s.side l).st = csO then { s.side l with st := csS }.bits else 0#16
  dram : ∀ a, Mem.get t.mem.dram a = if a / 64 = l ∧ c.dirty.getLsbD (a % 64) then byteOf c.data (a % 64) else Mem.get s.mem.dram a

theorem State.ownedIn_iff (s : State) (l r : Nat) : s.ownedIn l r = true ↔
    (s.side l).owner = r ∧ ((s.side l).st = 2 ∨ (s.side l).st = 3 ∨ (s.side l).st = 4) := by
  simp only [State.ownedIn, Bool.and_eq_true, Bool.or_eq_true, beq_iff_eq]
  tauto

theorem State.homeWb_wroteBack {s : State} {l r : Nat} {c : CLine} (held : s.l2 r l = some c) (owned : s.ownedIn l r = true) :
    s.wroteBack (s.homeWb l r) l r c := by
  obtain ⟨owner, st⟩ := (s.ownedIn_iff l r).mp owned
  have owns : (((s.side l).st = csM || (s.side l).st = csO || (s.side l).st = csE) && (s.side l).owner = r) = true := by
    simp only [owner, decide_true, Bool.and_true, Bool.or_eq_true, decide_eq_true_eq]
    tauto
  unfold State.homeWb
  dsimp only
  rw [held]
  dsimp only
  rw [if_pos owns]
  refine ⟨?_, ?_, fun a => ?_⟩
  · split
    · rw [State.l2_congr (State.setSide_caches ..).2, State.l2_congr (State.mscTouch_caches ..).2, State.l2_dropL2, if_pos ⟨rfl, rfl⟩]
    · rw [State.l2_congr (State.setInvalid_caches ..).2, State.l2_congr (State.mscTouch_caches ..).2, State.l2_dropL2, if_pos ⟨rfl, rfl⟩]
  · split
    · rw [State.sideBits_setSide, if_pos rfl]
    · rw [State.sideBits_setInvalid, if_pos rfl]
  · rw [← State.get_ownerBack]
    split <;> simp

/-- What a home meets on a line with a good side-band leaves the copies, the side-band and DRAM. -/
theorem State.meetQuiet_goodSide {s : State} {l : Nat} (h : s.sideBad l = false) (ctx : Nat) :
    (s.meetQuiet l ctx).clusters = s.clusters ∧ (s.meetQuiet l ctx).mem.side = s.mem.side ∧
      (s.meetQuiet l ctx).mem.dram = s.mem.dram := by
  unfold State.meetQuiet State.meetHome
  dsimp only
  rw [h, if_neg Bool.false_ne_true]
  by_cases data : s.mem.badData.contains l
  · rw [if_pos data]
    by_cases supplied : s.ownerSupplies l
    · rw [if_pos supplied]
      exact ⟨rfl, rfl, rfl⟩
    · rw [if_neg supplied]
      exact ⟨rfl, rfl, rfl⟩
  · rw [if_neg data]
    by_cases poison : s.mem.poison.contains l
    · rw [if_pos poison]
      exact ⟨rfl, rfl, rfl⟩
    · rw [if_neg poison]
      exact ⟨rfl, rfl, rfl⟩

/-- What a line's way out of its owner leaves: as WB does, but for I where stores take ownership first (spec/08 R189). -/
structure State.wentOut (s t : State) (l r : Nat) (c : CLine) : Prop where
  l2 : t.l2 r l = none
  side : t.sideBits l = if (s.side l).st = csO ∧ s.unpushed l r = false then { s.side l with st := csS }.bits else 0#16
  dram : ∀ a, Mem.get t.mem.dram a = if a / 64 = l ∧ c.dirty.getLsbD (a % 64) then byteOf c.data (a % 64) else Mem.get s.mem.dram a

theorem State.ownPend_unpushed {s : State} {l r : Nat} (h : s.unpushed l r = true) (ctx : Nat) : s.ownPend l r ctx = s.homeRdX l r ctx := by
  unfold State.unpushed at h
  split at h
  · rw [Bool.and_eq_true, Bool.not_eq_true'] at h
    rw [State.ownPend, h.2]
    rfl
  · cases h

/-- Stores that are not pushed take ownership, and go to DRAM with the owner's bytes. -/
theorem State.homeRdX_homeWb {s : State} {l r : Nat} {c : CLine} (good : s.sideBad l = false) (held : s.l2 r l = some c)
    (owner : (s.side l).owner = r) (ctx : Nat) :
    ((s.homeRdX l r ctx).homeWb l r).l2 r l = none ∧ ((s.homeRdX l r ctx).homeWb l r).sideBits l = 0#16 ∧
      ∀ a, Mem.get ((s.homeRdX l r ctx).homeWb l r).mem.dram a =
        if a / 64 = l ∧ c.dirty.getLsbD (a % 64) then byteOf c.data (a % 64) else Mem.get s.mem.dram a := by
  obtain ⟨clusters, side, dram⟩ := State.meetQuiet_goodSide good ctx
  have took := s.homeRdX_tookM l r ctx
  have small : r < 256 := owner ▸ Side.owner_lt (s.fits_side l)
  have sideM : (s.homeRdX l r ctx).side l = (s.meetQuiet l ctx).ownedBy r 0 csM := by
    rw [State.side, took.side, if_pos rfl, Side.ofBits_bits (State.fits_ownedBy _ small (by decide) (by decide))]
  have owned : (s.homeRdX l r ctx).ownedIn l r = true := by
    rw [State.ownedIn_iff, sideM]
    exact ⟨State.owner_ownedBy .., .inr (.inr rfl)⟩
  have mine : (s.meetQuiet l ctx).ownLine l r ctx = c := by
    rw [State.ownLine, State.l2_congr clusters, held, Option.getD_some]
  have owner' : ((s.meetQuiet l ctx).side l).owner = r := by
    rw [State.side_congr (State.sideBits_congr side l), owner]
  have dirty : ((s.meetQuiet l ctx).tookLine l r ctx).dirty = c.dirty := by
    simp only [State.tookLine, mine, owner', if_true, BitVec.or_zero]
  have data : ((s.meetQuiet l ctx).tookLine l r ctx).data = blend c.dirty c.data ((s.meetQuiet l ctx).homeData l) := by
    simp only [State.tookLine, mine]
  have back := State.homeWb_wroteBack took.line owned
  refine ⟨back.l2, ?_, fun a => ?_⟩
  · rw [back.side, sideM]
    rfl
  · rw [back.dram, took.dram, dram, dirty, data]
    split
    · next h => rw [byteOf_blend _ _ _ (Nat.mod_lt a (by decide)), if_pos h.2]
    · rfl

theorem State.lineOut_wentOut {s : State} {l r : Nat} {c : CLine} (good : s.sideBad l = false) (held : s.l2 r l = some c)
    (inWay : c.out = false) (owned : s.ownedIn l r = true) : s.wentOut (s.lineOut l r) l r c := by
  have out : s.lineOut l r = (if s.unpushed l r then s.ownPend l r c.ctx else s).homeWb l r := by
    rw [State.lineOut, held]
    dsimp only
    rw [inWay, owned]
    rfl
  rw [out]
  cases push : s.unpushed l r with
  | false =>
    obtain ⟨l2, side, dram⟩ := State.homeWb_wroteBack held owned
    exact ⟨l2, side.trans (by simp [push]), dram⟩
  | true =>
    rw [if_pos rfl, State.ownPend_unpushed push]
    obtain ⟨l2, side, dram⟩ := State.homeRdX_homeWb good held ((s.ownedIn_iff l r).mp owned).1 c.ctx
    exact ⟨l2, side.trans (by simp [push]), dram⟩

@[simp] theorem State.lineOut_frame (s : State) (l r : Nat) : (s.lineOut l r).seqs = s.seqs ∧ (s.lineOut l r).cores = s.cores := by
  unfold State.lineOut
  repeat' split
  all_goals simp

theorem wbRequest_served {s : State} {l cl : Nat} (served : Stmt.open_ s l (s.unpushed l cl)) (reached : s.lost l = false) :
    wbRequest l cl s = .next (s.lineOut l cl) := by
  rw [wbRequest, reached, if_neg Bool.false_ne_true]
  exact homeRequest_served _ _ served Bool.noConfusion

/-! ### The requests, one by one -/

theorem State.wentOut.bytes {s t : State} {l r : Nat} {c : CLine} (h : s.wentOut t l r c) {b : Nat} (hb : b < 64) :
    Mem.get t.mem.dram (64 * l + b) =
      if c.dirty.getLsbD b then c.data.extractLsb' (8 * b) 8 else Mem.get s.mem.dram (64 * l + b) := by
  have line : (64 * l + b) / 64 = l := by omega
  have byte : (64 * l + b) % 64 = b := by omega
  rw [h.dram, line, byte]
  simp only [true_and]
  rfl

/-- The side-band after a fill, by the state it finds. -/
theorem State.rdsSide_cases (s : State) (l : Nat) {cl : Nat} (hcl : cl < 256) :
    (s.rdsSide l cl).fits ∧ ((s.side l).st = 0 → s.rdsSide l cl = s.ownedBy cl 0 2) ∧
    ((s.side l).st = 1 ∨ (s.side l).st = 2 →
      s.rdsSide l cl = s.ownedBy cl (max (s.side l).ext (if (s.side l).die = cl / 16 then 0 else 1)) 1) ∧
    ((s.side l).st = 3 ∨ (s.side l).st = 4 → s.rdsSide l cl =
      { s.side l with ext := max (s.side l).ext (if (s.side l).die = cl / 16 then 0 else 1), st := 3 }) := by
  have fits := s.fits_side l
  have dist := distCl_owner fits cl
  have ext : max (s.side l).ext (distCl (s.side l).owner cl) < 4 := Nat.max_lt.mpr ⟨fits.ext, distCl_lt _ _⟩
  unfold State.rdsSide
  dsimp only
  refine ⟨?_, fun h => ?_, fun h => ?_, fun h => ?_⟩
  · split
    · exact s.fits_ownedBy hcl (by decide) (by decide)
    · split
      · exact s.fits_ownedBy hcl ext (by decide)
      · exact ⟨ext, fits.dev, fits.die, fits.cl, show 3 < 8 by decide⟩
  · rw [if_pos h]
  · have busy : (s.side l).st ≠ csI := by rcases h with h | h <;> rw [h] <;> decide
    have unowned : ((s.side l).st = csS || (s.side l).st = csE) = true := by simpa using h
    rw [if_neg busy, if_pos unowned, dist]
  · have busy : (s.side l).st ≠ csI := by rcases h with h | h <;> rw [h] <;> decide
    have owned : ¬ ((s.side l).st = csS || (s.side l).st = csE) = true := by rcases h with h | h <;> rw [h] <;> decide
    rw [if_neg busy, if_neg owned, dist]

theorem homeRds_fills {s : State} {l cl : Nat} (served : Stmt.open_ s l false) (sound : s.homeBad l = false)
    (miss : s.l2 cl l = none) (room : ((s.cluster cl).l2.filter fun e => e.1 % 8192 == l % 8192).length < 16) :
    ∃ t x, exec (.homeRds l cl) s = .next t ∧ t.seqs = s.seqs ∧ t.cores = s.cores ∧ t.mem.dram = s.mem.dram ∧
      t.l2 cl l = some x ∧ x.data = s.homeData l ∧ x.have_ = BitVec.allOnes 64 ∧ x.dirty = 0#64 ∧
      ∀ m, t.sideBits m = if m = l then (s.rdsSide l cl).bits else s.sideBits m := by
  refine ⟨_, _, (exec_homeRds_miss served sound miss).trans (by rw [State.l2Read_miss 0 miss room]), ?_, ?_, ?_,
    (State.l2_setL2 ..).trans (if_pos ⟨rfl, rfl⟩), rfl, rfl, rfl, fun m => ?_⟩
  · simp
  · simp
  · simp
  · exact (State.sideBits_congr (congrArg (·.side) (State.mscTouch_mem ..)) m).trans (State.sideBits_setSide ..)

theorem homeRdx_takes {s : State} {l cl : Nat} (served : Stmt.open_ s l true) (sound : s.homeBad l = false)
    (other : s.ownsM l cl = false)
    (room : s.l2 cl l = none → ((s.cluster cl).l2.filter fun e => e.1 % 8192 == l % 8192).length < 16) :
    exec (.homeRdx l cl) s = .next (s.homeRdX l cl (s.asker cl l)) ∧
      s.tookM (s.homeRdX l cl (s.asker cl l)) l cl (s.asker cl l) := by
  have took := s.homeRdX_tookM l cl (s.asker cl l)
  rw [State.meetQuiet_sound sound] at took
  refine ⟨?_, took⟩
  rw [exec_homeRdx, execHomeRdx, homeRequest_served _ _ served Bool.noConfusion, State.own_homeRdX _ other room]

/-- The line that RdX of a line without poison leaves holds every byte. -/
theorem State.tookLine_sound {s : State} {l : Nat} (sound : s.homeBad l = false) (cl ctx : Nat) :
    (s.tookLine l cl ctx).have_ = BitVec.allOnes 64 ∧ (s.tookLine l cl ctx).pend = false ∧
      (s.l2 cl l = none → (s.tookLine l cl ctx).data = s.homeData l) ∧
      ∀ c, s.l2 cl l = some c → (s.tookLine l cl ctx).data = blend c.dirty c.data (s.homeData l) := by
  have clean : s.mem.poison.contains l = false := (Bool.or_eq_false_iff.mp sound).2
  refine ⟨?_, rfl, fun miss => ?_, fun c held => ?_⟩
  · simp only [State.tookLine, clean, Bool.false_eq_true, if_false]
  · simp only [State.tookLine, State.ownLine, miss, Option.getD_none, blend_zero]
  · simp only [State.tookLine, State.ownLine, held, Option.getD_some]

section
variable {s : State} {l : Nat}

theorem exec_homeHal_served (served : Stmt.open_ s l true) : exec (.homeHal l) s = .next (s.homeHal l) := by
  rw [exec_homeHal, execHomeHal, homeRequest_served _ _ served Bool.noConfusion]

theorem exec_homeWb_served {cl : Nat} (served : Stmt.open_ s l (s.unpushed l cl)) (reached : s.lost l = false) :
    exec (.homeWb l cl) s = .next (s.lineOut l cl) := by
  rw [exec_homeWb, execHomeWb, wbRequest_served served reached]

theorem exec_engineHomeRead_served (served : Stmt.open_ s l false) (sound : s.homeBad l = false) :
    exec (.engineHomeRead l) s = .next s := by
  rw [exec_engineHomeRead, execEngineHomeRead, homeRequest_served _ _ served fun _ => sound]
  rfl

theorem exec_engineHomeWrite_served (served : Stmt.open_ s l true) (data : BitVec 512) (mask : BitVec 64) :
    exec (.engineHomeWrite l data mask) s = .next (s.engLine l data mask) := by
  rw [exec_engineHomeWrite, execEngineHomeWrite, homeRequest_served _ _ served Bool.noConfusion]

theorem exec_snoopInvalidate_owner {cl : Nat} {c : CLine} (held : s.l2 cl l = some c) (owned : s.ownedIn l cl = true) :
    exec (.snoopInvalidate cl l) s = exec (.homeWb l cl) s := by
  simp only [exec_snoopInvalidate, execSnoopInvalidate, held, owned, if_true, exec_homeWb, execHomeWb]

theorem exec_snoopInvalidate_clean {cl : Nat} {c : CLine} (held : s.l2 cl l = some c) (clean : c.dirty = 0#64)
    (other : (s.side l).owner ≠ cl) : exec (.snoopInvalidate cl l) s = .next (s.dropL2 cl l) := by
  have unowned : s.ownedIn l cl = false := Bool.eq_false_iff.mpr fun h => other ((s.ownedIn_iff l cl).mp h).1
  have dropped : invalidateLine false c = none := by simp [invalidateLine, clean]
  simp only [exec_snoopInvalidate, execSnoopInvalidate, held, unowned, dropped, Bool.false_eq_true, if_false]

end

/-- Settles O47: each request is one operation at the home, whose rule says what it leaves of the side-band, the copies and the bytes. -/
theorem homesServeRequests : Obligations.HomesServeRequests := by
  unfold Obligations.HomesServeRequests
  refine ⟨fun s l cl served sound miss hcl room => ?_, fun s l cl served sound other hcl room => ?_, fun s l served => ?_,
    fun s l cl c served reached held inWay owner st => ?_, fun s l served sound => ?_, fun s l data mask served => ?_,
    fun s cl l => ⟨fun miss => ?_, fun c held clean other => ?_, fun c held owner st served reached inWay => ?_⟩⟩
  · obtain ⟨t, x, next, seqs, cores, dram, line, data, whole, clean, side⟩ := homeRds_fills served sound miss room
    obtain ⟨fits, invalid, unowned, owned⟩ := s.rdsSide_cases l hcl
    have mine : t.sideBits l = (s.rdsSide l cl).bits := (side l).trans (if_pos rfl)
    refine ⟨t, x, next, seqs, cores, dram, line, data, whole, clean, fun m hm => (side m).trans (if_neg hm), fun st => ?_,
      fun _ st => ?_, fun _ st => ?_⟩
    · rw [invalid st] at mine fits
      exact State.sideIs_ownedBy mine fits
    · rw [unowned st] at mine fits
      exact State.sideIs_ownedBy mine fits
    · rw [owned st] at mine fits
      exact (State.sideIs_of_bits mine fits :)
  · obtain ⟨next, took⟩ := homeRdx_takes served sound other room
    obtain ⟨whole, pend, filled, merged⟩ := State.tookLine_sound sound cl (s.asker cl l)
    refine ⟨_, _, next, State.homeRdX_seqs .., State.homeRdX_cores .., took.dram,
      State.sideIs_ownedBy ((took.side l).trans (if_pos rfl)) (s.fits_ownedBy hcl (by decide) (by decide)), took.line, whole, pend,
      filled, fun c held b hb => ?_, fun d y hd copy => State.leftOf_dirty ((took.others d hd).symm.trans copy),
      fun m hm => (took.side m).trans (if_neg hm)⟩
    rw [merged c held]
    exact byteOf_blend _ _ _ hb
  · have took := s.homeHal_tookHal l
    refine ⟨_, exec_homeHal_served served, s.homeHal_seqs l, s.homeHal_cores l,
      (took.side l).trans (if_pos rfl), took.engByte, fun b hb => (took.dram _).trans (if_pos (by omega)),
      fun d y copy => State.leftOf_dirty (((took.l2 d l).trans (if_pos rfl)).symm.trans copy)⟩
  · have out := State.lineOut_wentOut served.side held inWay ((s.ownedIn_iff l cl).mpr ⟨owner, st⟩)
    obtain ⟨seqs, cores⟩ := s.lineOut_frame l cl
    refine ⟨_, exec_homeWb_served served reached, seqs, cores, out.l2, fun shared pushed => ?_,
      fun gone => out.side.trans (if_neg fun h => ?_), fun b hb => out.bytes hb, fun a ha => (out.dram a).trans (if_neg fun h => ha h.1)⟩
    · rw [State.side, out.side, if_pos ⟨shared, pushed⟩]
      exact congrArg Side.st (Side.ofBits_bits ((s.fits_side l).withSt (by decide)))
    · obtain ⟨shared, pushed⟩ := h
      rcases gone with other | left
      · exact other shared
      · rw [pushed] at left
        cases left
  · exact exec_engineHomeRead_served served sound
  · have took := s.homeHal_tookHal l
    obtain ⟨dram, side, clusters, cores, seqs, whole⟩ := s.engLine_mem l data mask
    have side' := fun m => State.sideBits_congr side m
    refine ⟨_, exec_engineHomeWrite_served served data mask, seqs, cores,
      (side' l).trans ((took.side l).trans (if_pos rfl)), fun b hb => ?_, fun a ha => ?_, whole⟩
    · have line : (64 * l + b) / 64 = l := by omega
      have byte : (64 * l + b) % 64 = b := by omega
      rw [State.engByte_invalid (by rw [line, side', took.side, if_pos rfl]), dram, Mem.get_setLine, line, byte, took.dram, if_pos line]
      simp only [true_and]
      rfl
    · rw [← took.engByte a]
      exact State.engByte_congr (side' _) (fun d => State.l2_congr clusters d _)
        (by rw [dram, Mem.get_setLine, if_neg fun h => ha h.1])
  · rw [exec_snoopInvalidate, execSnoopInvalidate, miss]
  · exact ⟨s.dropL2 cl l, exec_snoopInvalidate_clean held clean other, (State.l2_dropL2 ..).trans (if_pos ⟨rfl, rfl⟩), rfl, rfl, rfl,
      fun m hm => (State.l2_dropL2 ..).trans (if_neg fun h => hm h.2)⟩
  · have owned : s.ownedIn l cl = true := (s.ownedIn_iff l cl).mpr ⟨owner, .inr (.inr st)⟩
    have pushed : s.unpushed l cl = false := by
      simp [State.unpushed, held, State.pushed, owner, st]
    have out := State.lineOut_wentOut served.side held inWay owned
    obtain ⟨seqs, cores⟩ := s.lineOut_frame l cl
    rw [← pushed] at served
    refine ⟨_, (exec_snoopInvalidate_owner held owned).trans (exec_homeWb_served served reached), out.l2, seqs, cores,
      out.side.trans (if_neg fun h => ?_), fun b hb => out.bytes hb⟩
    rw [st] at h
    exact absurd h.1 (by decide)

end Sys2Proof.Machine
end

section
/-! PROOFS. Values of patched tensors (O35; spec/09 R209, R212, R213, R226, R229): one patch applied to the elements of a cell, lists
of patches, and the chain after a removal. -/

namespace Sys2Proof.Machine

/-! ### Elements of a cell -/

/-- Element e of z bytes of a cell. -/
def cellElem (z : Nat) (x : BitVec 512) (e : Nat) : BitVec (8 * z) := x.extractLsb' (8 * z * e) (8 * z)

theorem elemGet_eq (x : BitVec 512) (z e : Nat) : elemGet x z e = (cellElem z x e).toNat := by
  rw [cellElem, BitVec.extractLsb'_toNat, Nat.shiftRight_eq_div_pow, elemGet]

/-- The bytes of an element are those of no other. -/
theorem byte_of_elem_iff {z : Nat} (e k : Nat) {b : Nat} (hb : b < z) : z * e ≤ z * k + b ∧ z * k + b < z * e + z ↔ e = k := by
  constructor
  · rintro ⟨low, high⟩
    by_contra ne
    rcases Nat.lt_or_gt_of_ne ne with h | h
    · have := Nat.mul_le_mul_left z (Nat.succ_le_of_lt h)
      rw [Nat.mul_succ] at this
      omega
    · have := Nat.mul_le_mul_left z (Nat.succ_le_of_lt h)
      rw [Nat.mul_succ] at this
      omega
  · rintro rfl
    omega

theorem elem_inside {z e : Nat} (he : e < 64 / z) : z * e + z ≤ 64 :=
  calc z * e + z = z * (e + 1) := (Nat.mul_succ z e).symm
    _ ≤ z * (64 / z) := Nat.mul_le_mul_left z he
    _ ≤ 64 := Nat.mul_div_le 64 z

/-- Writing one element gives it its value and leaves every other one. -/
theorem cellElem_elemPut {z e k : Nat} (hz : z ≤ 8) (he : e < 64 / z) (hk : k < 64 / z) (x : BitVec 512) (v : Nat) :
    cellElem z (elemPut x z e v) k = if e = k then BitVec.ofNat (8 * z) v else cellElem z x k := by
  refine BitVec.eq_of_getLsbD_eq fun i hi => ?_
  have inE := elem_inside he
  have inK := elem_inside hk
  have place : 8 * z * k + i = 8 * (z * k) + i := by rw [Nat.mul_assoc]
  have byte : (8 * (z * k) + i) / 8 = z * k + i / 8 := by omega
  have inside : 8 * (z * k) + i < 512 := by omega
  simp only [cellElem, elemPut, blend, BitVec.getLsbD_extractLsb', place, getLsbD_merge _ _ _ inside, getLsbD_spread _ inside, byte,
    getLsbD_byteMask _ _ (show z * k + i / 8 < 64 by omega), byte_of_elem_iff e k (show i / 8 < z by omega), decide_eq_true_eq]
  split
  · next same =>
    subst same
    have bit : 8 * (z * e) + i - 8 * (z * e) = i := by omega
    have low : ¬ 8 * (z * e) + i < 8 * (z * e) := by omega
    simp only [placeAt, BitVec.getLsbD_shiftLeft, BitVec.getLsbD_setWidth, BitVec.getLsbD_ofNat, inside, low, bit, hi,
      show i < 512 by omega, show i < 64 by omega, decide_true, decide_false, Bool.not_false, Bool.true_and]
  · simp only [BitVec.getLsbD_extractLsb', place]

/-! ### One patch -/

/-- Each byte of an element is masked. -/
theorem mem_full {sl : PSlot} {z e : Nat} :
    e ∈ sl.full z ↔ e < 64 / z ∧ ∀ b, b < z → sl.mask.getLsbD (z * e + b) = true := by
  rw [PSlot.full, List.mem_filter, List.mem_range, beq_iff_eq]
  refine and_congr_right fun he => ⟨fun h b hb => ?_, fun h => BitVec.eq_of_getLsbD_eq fun i hi => ?_⟩
  · have inE := elem_inside he
    have bit := congrArg (·.getLsbD (z * e + b)) h
    simpa [getLsbD_byteMask (z * e) z (show z * e + b < 64 by omega), hb, show z * e + b < 64 by omega] using bit
  · rw [BitVec.getLsbD_and, getLsbD_byteMask _ _ hi, BitVec.getLsbD_not]
    by_cases at_ : z * e ≤ i ∧ i < z * e + z
    · have masked := h (i - z * e) (by omega)
      rw [show z * e + (i - z * e) = i by omega] at masked
      simp [masked]
    · simp [at_]

theorem full_nodup (sl : PSlot) (z : Nat) : (sl.full z).Nodup := List.nodup_range.filter _

/-- Adding deltas to the elements of a list without repetition. -/
theorem cellElem_addDeltas {f : Fmt} {z : Nat} (int : Fmt.flt f = none) (width : Fmt.bits f = 8 * z) (hz : z ≤ 8) (d : BitVec 512)
    {l : List Nat} (once : l.Nodup) (inside : ∀ e ∈ l, e < 64 / z) {k : Nat} (hk : k < 64 / z) (x : BitVec 512) :
    cellElem z ((l.map fun e => (e, elemGet d z e)).foldl (fun x e => elemPut x z e.1 (padd f (elemGet x z e.1) e.2)) x) k =
      if k ∈ l then cellElem z x k + cellElem z d k else cellElem z x k := by
  induction l generalizing x with
  | nil => simp
  | cons e l ih =>
    obtain ⟨fresh, once⟩ := List.nodup_cons.mp once
    have he := inside e (List.mem_cons_self ..)
    have sum : BitVec.ofNat (8 * z) (padd f (elemGet x z e) (elemGet d z e)) = cellElem z x e + cellElem z d e := by
      refine BitVec.eq_of_toNat_eq ?_
      rw [padd, int, width, elemGet_eq, elemGet_eq, BitVec.toNat_ofNat, BitVec.toNat_add, Nat.mod_mod]
    rw [List.map_cons, List.foldl_cons, ih once (fun e he => inside e (List.mem_cons_of_mem _ he)), cellElem_elemPut hz he hk, sum]
    by_cases same : e = k
    · subst same
      simp [fresh]
    · simp [same, Ne.symm same]

theorem PEnt.apply_none {p : PEnt} {c : Nat} (h : p.slotOf c = none) (f : Fmt) (x : BitVec 512) : p.apply f c x = x := by
  rw [PEnt.apply, h]

/-- An OVR patch replaces the masked bytes. -/
theorem PEnt.byteOf_apply_ovr {p : PEnt} {c : Nat} {sl : PSlot} (slot : p.slotOf c = some sl) (ovr : p.kind = 0) (f : Fmt)
    (x : BitVec 512) {n : Nat} (hn : n < 64) :
    byteOf (p.apply f c x) n = if sl.mask.getLsbD n then byteOf sl.pay n else byteOf x n := by
  simp only [PEnt.apply, slot, ovr, if_true]
  exact byteOf_blend _ _ _ hn

/-- An ADD or ADDN patch adds its whole deltas. -/
theorem PEnt.cellElem_apply_add {p : PEnt} {c : Nat} {sl : PSlot} (slot : p.slotOf c = some sl) (add : p.kind ≠ 0) {f : Fmt} {z : Nat}
    (int : Fmt.flt f = none) (width : Fmt.bits f = 8 * z) (hz : z ≤ 8) (x : BitVec 512) {e : Nat} (he : e < 64 / z) :
    cellElem z (p.apply f c x) e =
      if ∀ b, b < z → sl.mask.getLsbD (z * e + b) = true then cellElem z x e + cellElem z sl.pay e else cellElem z x e := by
  have bytes : Fmt.bits f / 8 = z := by omega
  simp only [PEnt.apply, slot, if_neg add, bytes, PSlot.deltas]
  rw [cellElem_addDeltas int width hz sl.pay (full_nodup sl z) (fun e h => (mem_full.mp h).1) he]
  simp only [mem_full, he, true_and]

/-! ### Lists of patches -/

theorem Tensor.applyAll_nil (t : Tensor) (c : Nat) (x : BitVec 512) (plain : t.canon = false) : t.applyAll c [] x = x := by
  simp [Tensor.applyAll, plain]

theorem Tensor.applyAll_append_one (t : Tensor) (c : Nat) (ps : List PEnt) (p : PEnt) (x : BitVec 512) (plain : t.canon = false) :
    t.applyAll c (ps ++ [p]) x = if p.touches c then p.apply t.fmt c (t.applyAll c ps x) else t.applyAll c ps x := by
  cases h : p.touches c <;> simp [Tensor.applyAll, plain, h]

/-! ### Insertion by position and by number -/

theorem insPos_eq_orderedInsert (p : PEnt) (l : List PEnt) : insPos p l = l.orderedInsert (fun a b => a.pos < b.pos) p := by
  induction l with
  | nil => rfl
  | cons e l ih => rw [insPos, List.orderedInsert_cons, ih]

theorem insNum_eq_orderedInsert (p : PEnt) (l : List PEnt) : insNum p l = l.orderedInsert (fun a b => a.num < b.num) p := by
  induction l with
  | nil => rfl
  | cons e l ih => rw [insNum, List.orderedInsert_cons, ih]

theorem perm_insPos (p : PEnt) (l : List PEnt) : (insPos p l).Perm (p :: l) := by
  rw [insPos_eq_orderedInsert]
  exact List.perm_orderedInsert _ p l

theorem perm_insNum (p : PEnt) (l : List PEnt) : (insNum p l).Perm (p :: l) := by
  rw [insNum_eq_orderedInsert]
  exact List.perm_orderedInsert _ p l

/-- What is inserted one by one is there, whatever the place. -/
theorem perm_foldr_insert {ins : PEnt → List PEnt → List PEnt} (h : ∀ p l, (ins p l).Perm (p :: l)) (l : List PEnt) :
    (l.foldr ins []).Perm l := by
  induction l with
  | nil => exact .refl _
  | cons p l ih => exact (h p _).trans (ih.cons p)

/-- Positions do not fall. -/
def Rising (l : List PEnt) : Prop := l.Pairwise fun a b => a.pos ≤ b.pos

theorem rising_insPos (p : PEnt) {l : List PEnt} (h : Rising l) : Rising (insPos p l) := by
  induction l with
  | nil => exact List.pairwise_singleton ..
  | cons e l ih =>
    obtain ⟨above, rest⟩ := List.pairwise_cons.mp h
    rw [insPos]
    split
    · next lt =>
      refine List.pairwise_cons.mpr ⟨fun a ha => ?_, h⟩
      rcases List.mem_cons.mp ha with rfl | ha
      · exact lt.le
      · exact lt.le.trans (above a ha)
    · next ge =>
      refine List.pairwise_cons.mpr ⟨fun a ha => ?_, ih rest⟩
      rcases List.mem_cons.mp ((perm_insPos p l).mem_iff.mp ha) with rfl | ha
      · exact Nat.le_of_not_lt ge
      · exact above a ha

theorem rising_foldr_insPos (l : List PEnt) : Rising (l.foldr insPos []) := by
  induction l with
  | nil => exact List.Pairwise.nil
  | cons p l ih => exact rising_insPos p ih

theorem insPos_before {p : PEnt} {l : List PEnt} (h : ∀ a ∈ l, p.pos < a.pos) : insPos p l = p :: l := by
  cases l with
  | nil => rfl
  | cons e l => exact if_pos (h e (List.mem_cons_self ..))

/-- Dropping entries and inserting by position commute. -/
theorem filter_insPos (f : PEnt → Bool) (p : PEnt) {l : List PEnt} (h : Rising l) :
    (insPos p l).filter f = if f p then insPos p (l.filter f) else l.filter f := by
  induction l with
  | nil => cases h : f p <;> simp [insPos, h]
  | cons e l ih =>
    obtain ⟨above, rest⟩ := List.pairwise_cons.mp h
    rw [insPos]
    split
    · next lt =>
      have after : ∀ a ∈ (e :: l).filter f, p.pos < a.pos := fun a ha => by
        rcases List.mem_cons.mp (List.mem_filter.mp ha).1 with rfl | ha
        · exact lt
        · exact lt.trans_le (above a ha)
      rw [List.filter_cons, insPos_before after]
    · next ge =>
      rw [List.filter_cons, ih rest, List.filter_cons]
      cases f e <;> cases f p <;> simp [insPos, ge]

theorem filter_foldr_insPos (f : PEnt → Bool) (l : List PEnt) : (l.foldr insPos []).filter f = (l.filter f).foldr insPos [] := by
  induction l with
  | nil => rfl
  | cons p l ih =>
    rw [List.foldr_cons, filter_insPos f p (rising_foldr_insPos l), ih, List.filter_cons]
    split <;> rfl

/-- Entries whose positions rise strictly are in their one order, in whatever order they are inserted. -/
theorem foldr_insPos_of_perm {l m : List PEnt} (strict : m.Pairwise fun a b => a.pos < b.pos) (perm : l.Perm m) :
    l.foldr insPos [] = m := by
  have same := (perm_foldr_insert perm_insPos l).trans perm
  have distinct : (m.map (·.pos)).Nodup := List.pairwise_map.mpr (strict.imp fun h => h.ne)
  refine List.Perm.eq_of_pairwise (le := fun a b => a.pos ≤ b.pos) (fun a b ha hb ab ba => ?_) ?_
    (strict.imp fun h => h.le) same
  · exact List.inj_on_of_nodup_map distinct (same.mem_iff.mp ha) hb (Nat.le_antisymm ab ba)
  · exact rising_foldr_insPos l

/-! ### The chain after a removal -/

theorem closed_of_mem_chain {t : Tensor} {p : PEnt} (h : p ∈ t.chain) : p.closed = true :=
  (List.mem_filter.mp ((perm_foldr_insert perm_insPos _).mem_iff.mp h)).2

/-- A patch forgets a target that is not among some numbers. -/
def PEnt.forget (nums : List Nat) (p : PEnt) : PEnt :=
  if p.target != 0 && !nums.contains p.target then { p with target := 0 } else p

@[simp] theorem PEnt.forget_num (nums : List Nat) (p : PEnt) : (p.forget nums).num = p.num := by
  unfold PEnt.forget; split <;> rfl
@[simp] theorem PEnt.forget_pos (nums : List Nat) (p : PEnt) : (p.forget nums).pos = p.pos := by
  unfold PEnt.forget; split <;> rfl
@[simp] theorem PEnt.forget_closed (nums : List Nat) (p : PEnt) : (p.forget nums).closed = p.closed := by
  unfold PEnt.forget; split <;> rfl

/-- A list of patches with positions from 1 on. -/
def numbered (nums : List Nat) (ch : List PEnt) : List PEnt :=
  ch.zipIdx.map fun e => ({ e.1 with pos := e.2 + 1 } : PEnt).forget nums

theorem Tensor.setChain_ents (t : Tensor) (ch : List PEnt) :
    let nums := (ch ++ t.opens).map (·.num)
    (t.setChain ch).ents = (numbered nums ch ++ t.opens.map (PEnt.forget nums)).foldr insNum [] := rfl

theorem num_numbered (nums : List Nat) (ch : List PEnt) : (numbered nums ch).map (·.num) = ch.map (·.num) := by
  calc (numbered nums ch).map (·.num) = (ch.zipIdx.map Prod.fst).map (·.num) := by
        rw [numbered, List.map_map, List.map_map]
        exact List.map_congr_left fun e _ => PEnt.forget_num nums _
    _ = ch.map (·.num) := by rw [List.zipIdx_map_fst]

theorem pos_numbered (nums : List Nat) (ch : List PEnt) (n : Nat) (h : n < (numbered nums ch).length) :
    (numbered nums ch)[n].pos = n + 1 := by
  simp [numbered]

theorem closed_of_mem_numbered {nums : List Nat} {ch : List PEnt} (hc : ∀ p ∈ ch, p.closed = true) {p : PEnt}
    (h : p ∈ numbered nums ch) : p.closed = true := by
  obtain ⟨e, he, rfl⟩ := List.mem_map.mp h
  rw [PEnt.forget_closed]
  exact hc e.1 (List.fst_mem_of_mem_zipIdx he)

theorem numbered_strict (nums : List Nat) (ch : List PEnt) : (numbered nums ch).Pairwise fun a b => a.pos < b.pos :=
  List.pairwise_iff_getElem.mpr fun i j hi hj lt => by
    rw [pos_numbered, pos_numbered]
    omega

/-- The chain that was set, in its order. -/
theorem Tensor.chain_setChain (t : Tensor) {ch : List PEnt} (hc : ∀ p ∈ ch, p.closed = true) :
    (t.setChain ch).chain = numbered ((ch ++ t.opens).map (·.num)) ch := by
  let nums := (ch ++ t.opens).map (·.num)
  have chain : (numbered nums ch).filter (·.closed) = numbered nums ch :=
    List.filter_eq_self.mpr fun p hp => closed_of_mem_numbered hc hp
  have opens : (t.opens.map (PEnt.forget nums)).filter (·.closed) = [] :=
    List.filter_eq_nil_iff.mpr fun p hp => by
      obtain ⟨e, he, rfl⟩ := List.mem_map.mp hp
      simpa using (List.mem_filter.mp he).2
  have perm := (perm_foldr_insert perm_insNum (numbered nums ch ++ t.opens.map (PEnt.forget nums))).filter (·.closed)
  rw [List.filter_append, chain, opens, List.append_nil] at perm
  exact foldr_insPos_of_perm (numbered_strict _ _) perm

/-- Before positions are closed up, the entries that stay stand in chain order. -/
theorem Tensor.chain_filter (t : Tensor) (f : PEnt → Bool) (cut : Option Nat) :
    ({ t with ents := t.ents.filter f, cut := cut } : Tensor).chain = t.chain.filter f := by
  rw [Tensor.chain, Tensor.chain, filter_foldr_insPos, List.filter_filter, List.filter_filter]
  simp only [Bool.and_comm]

theorem Tensor.chain_remove (t : Tensor) (nums : List Nat) :
    ∃ left, (t.remove nums).chain = numbered left (t.chain.filter fun p => !nums.contains p.num) := by
  rw [← t.chain_filter (fun p => !nums.contains p.num)]
  exact ⟨_, Tensor.chain_setChain _ fun _ => closed_of_mem_chain⟩

theorem Tensor.cut_remove (t : Tensor) (nums : List Nat) {k : Nat} (cut : t.cut = some k) : (t.remove nums).cut =
    some (k - (t.chain.filter fun p => nums.contains p.num && decide (p.pos ≤ k)).length) := by
  show t.cut.map _ = _
  simp [Tensor.atCut, cut]

/-- Settles O35: a patch acts on the bytes or the whole elements that it masks, patches act one after the other, and a removal
closes the gaps. -/
theorem patchesComposeIntoValues : Obligations.PatchesComposeIntoValues := by
  refine ⟨fun p f c x sl slot => ⟨fun ovr n hn => PEnt.byteOf_apply_ovr slot ovr f x hn, fun add w int e he => ?_⟩,
    fun p f c x noSlot => PEnt.apply_none noSlot f x,
    fun t c ps p x plain => ⟨t.applyAll_nil c x plain, t.applyAll_append_one c ps p x plain⟩, fun t nums => ?_⟩
  · obtain ⟨rfl, rfl⟩ | ⟨rfl, rfl⟩ := int
    · exact PEnt.cellElem_apply_add slot add rfl rfl (by decide) x he
    · exact PEnt.cellElem_apply_add slot add rfl rfl (by decide) x he
  · obtain ⟨left, chain⟩ := t.chain_remove nums
    rw [chain]
    exact ⟨num_numbered _ _, fun n h => pos_numbered _ _ n h, fun k cut => t.cut_remove nums cut⟩

end Sys2Proof.Machine
end

section
/-! PROOFS. Accesses of tensor memory (O36; spec/09 R214, R221, R222): what ts.ld reads through its port, and the slot that ts.st
changes. -/

namespace Sys2Proof.Machine

/-! ### ts.ld -/

/-- What a port sees of a cell whose chain value is given: its open patch comes last, a view has none (spec/09 R214). -/
def Tensor.portValue (t : Tensor) (p : Port) (c : Nat) (v : BitVec 512) : BitVec 512 :=
  match p.view, t.entry p.entry with
  | false, some e => e.apply t.fmt c v
  | _, _ => v

theorem Tensor.portValue_eq (t : Tensor) (p : Port) (c : Nat) (v : BitVec 512) : t.portValue p c v =
    if p.view then v else match t.entry p.entry with | some e => e.apply t.fmt c v | none => v := by
  unfold Tensor.portValue
  cases p.view <;> cases t.entry p.entry <;> rfl

section
variable {g : BitVec 7} {s s1 s2 : State} (hg : s.guardOn g = true) {b : BitVec 6} {off : BitVec 11} {port : BitVec 2} {p : Port}
  {T : Tensor} {o : Nat} (reach : s.tsReach (s.port port) (s.eaBM b off 8) false = .ok s1 (p, T, o)) (x : BitVec 6)
include hg reach

theorem exec_tsLd_head {v : BitVec 512} (value : s1.cellValue s.cur.seq T (T.cellOf o).1 T.chain.length = .ok s2 v) :
    exec (.tsLd g x b off 0#1 port) s =
      .next (s2.awaitS x (takeAt (T.portValue p (T.cellOf o).1 v) (T.cellOf o).2 8)).retire := by
  rw [exec_tsLd, execTsLd, slotOp_on hg, Tensor.portValue_eq]
  simp only [reach, value, Try.bind, paDo, show ¬ (0#1 : BitVec 1) = 1#1 by decide, if_false]
  rfl

theorem exec_tsLd_cut {k : Nat} (cut : T.cut = some k) {v : BitVec 512}
    (value : s1.cellValue s.cur.seq T (T.cellOf o).1 k = .ok s2 v) :
    exec (.tsLd g x b off 1#1 port) s = .next (s2.awaitS x (takeAt v (T.cellOf o).2 8)).retire := by
  rw [exec_tsLd, execTsLd, slotOp_on hg]
  simp only [reach, value, cut, Try.bind, paDo, if_true]
  rfl

theorem exec_tsLd_noCut (cut : T.cut = none) :
    exec (.tsLd g x b off 1#1 port) s = s.raise (addrTrap 0x11 (s.eaBM b off 8) (paAcc false true) 0 0 0) := by
  rw [exec_tsLd, execTsLd, slotOp_on hg]
  simp only [reach, cut, Try.bind, paDo, if_true]
  rfl

end

/-- What is left by the issue of an instruction that sets a value under way. -/
theorem State.awaitS_retire_frame (s : State) (x : BitVec 6) (w : Word) : (s.awaitS x w).retire.me.r = s.me.r ∧
    (s.awaitS x w).retire.mem = s.mem ∧ s.sameOthers (s.awaitS x w).retire s.cur.seq ∧
    Stmt.awaits s.me.f (s.awaitS x w).retire.me.f x w :=
  ⟨s.me_r_awaitS_retire x w 0, rfl, s.sameOthers_awaitS_retire x w 0, s.awaits_awaitS_retire x w 0⟩

/-! ### ts.st -/

/-- A slot after a store of n bytes at byte b of its cell. -/
def PSlot.stored (sl : PSlot) (b n : Nat) (w : Word) : PSlot :=
  { sl with pay := blend (byteMask b n) (placeAt b w) sl.pay, mask := sl.mask ||| byteMask b n }

theorem PSlot.mask_stored (sl : PSlot) (b n : Nat) (w : Word) {k : Nat} (hk : k < 64) :
    (sl.stored b n w).mask.getLsbD k = (decide (b ≤ k ∧ k < b + n) || sl.mask.getLsbD k) := by
  rw [PSlot.stored, BitVec.getLsbD_or, getLsbD_byteMask b n hk, Bool.or_comm]

theorem PSlot.byteOf_stored (sl : PSlot) {b n : Nat} (hn : n ≤ 8) (w : Word) {k : Nat} (hk : k < 64) :
    byteOf (sl.stored b n w).pay k =
      if b ≤ k ∧ k < b + n then w.extractLsb' (8 * (k - b)) 8 else byteOf sl.pay k := by
  rw [PSlot.stored, byteOf_blend _ _ _ hk, getLsbD_byteMask b n hk]
  simp only [decide_eq_true_eq]
  split
  · next inside =>
    have placed := byteOf_placeAt b w (n := k - b) (by omega) (by omega)
    rwa [Nat.add_sub_cancel' inside.1] at placed
  · rfl

/-- The slots of a patch after a store, through a slot that it had or through a new one before the others. -/
def PEnt.storedSlots (e : PEnt) (c : Nat) (new : PSlot) : List PSlot :=
  if (e.slotOf c).isSome then e.slots.map fun d => if d.cell = c then new else d else new :: e.slots

section
variable {g : BitVec 7} {s s1 u : State} (hg : s.guardOn g = true) (room : s.fullB = false) {b : BitVec 6} {off : BitVec 11}
  {port : BitVec 2} {p : Port} {T : Tensor} {o : Nat} (reach : s.tsReach (s.port port) (s.eaBM b off 8) true = .ok s1 (p, T, o))
  {e : PEnt} (entry : T.entry p.entry = some e) (x : BitVec 6)
include hg room reach entry

theorem exec_tsSt_slot {old : PSlot} (slot : e.slotOf (T.cellOf o).1 = some old)
    {slots : List PSlot} (changed : slots = e.slots.map fun d =>
      if d.cell = (T.cellOf o).1 then d.stored (T.cellOf o).2 (min 8 (T.rb - o % T.pitch)) (s.rs x) else d)
    (save : s1.paSave s.cur.seq T (T.put { e with slots := slots }) [] = .ok u ()) :
    exec (.tsSt g x b off port) s = .next u.retire := by
  rw [exec_tsSt, execTsSt, slotOp_on hg]
  subst changed
  unfold PSlot.stored at save
  simp only [room, reach, entry, slot, save, Try.bind, paDo, Bool.false_eq_true, if_false]
  rfl

theorem exec_tsSt_new {i : Nat} (noSlot : e.slotOf (T.cellOf o).1 = none) (free : T.freeSlot = some i)
    {new : PSlot} (made : new = PSlot.stored { idx := i, cell := (T.cellOf o).1, pay := 0#512, pre := 0#512, mask := 0#64 }
      (T.cellOf o).2 (min 8 (T.rb - o % T.pitch)) (s.rs x))
    (save : s1.paSave s.cur.seq T (T.put { e with slots := new :: e.slots }) [] = .ok u ()) :
    exec (.tsSt g x b off port) s = .next u.retire := by
  rw [exec_tsSt, execTsSt, slotOp_on hg]
  subst made
  unfold PSlot.stored at save
  simp only [room, reach, entry, noSlot, free, save, Try.bind, paDo, Bool.false_eq_true, if_false]
  rfl

end

/-- The issue of an instruction that has written memory leaves registers, awaited results and the other sequencers. -/
theorem State.retire_frame (u : State) :
    u.retire.mem = u.mem ∧ u.retire.me.r = u.me.r ∧ u.retire.me.f.outs = u.me.f.outs ∧ u.sameOthers u.retire u.cur.seq := by
  rw [State.me_retire]
  exact ⟨rfl, rfl, rfl, u.sameOthers_retireOcc 1⟩

/-- Settles O36: ts.ld reads its port's view, and ts.st changes the bytes of one slot. -/
theorem tensorAccessesUsePortViews : Obligations.TensorAccessesUsePortViews := by
  refine ⟨fun s s1 s2 g x b off port p T o v hg reach => ⟨fun value => ?_, fun k cut value => ?_,
    fun cut => ⟨_, rfl, exec_tsLd_noCut hg reach x cut⟩⟩, ?_⟩
  · exact ⟨_, exec_tsLd_head hg reach x value, State.awaitS_retire_frame ..⟩
  · exact ⟨_, exec_tsLd_cut hg reach x cut value, State.awaitS_retire_frame ..⟩
  · intro s s1 g x b off port p T o e old hg room q c at_ n reach entry inside slot
    have few : n ≤ 8 := Nat.min_le_left ..
    have cell : old.cell = c := by
      obtain ⟨had, -⟩ | ⟨-, i, -, rfl⟩ := slot
      · exact beq_iff_eq.mp (List.find?_some (p := fun d : PSlot => d.cell == c) had)
      · rfl
    refine ⟨old.stored at_ n (s.rs x), e.storedSlots c (old.stored at_ n (s.rs x)), rfl, cell, rfl,
      fun k hk => PSlot.mask_stored old at_ n _ hk, fun k hk => PSlot.byteOf_stored old few _ hk, fun lacks => ?_, fun has => ?_,
      fun u save => ?_⟩
    · rw [PEnt.storedSlots, lacks]
      rfl
    · rw [PEnt.storedSlots, has]
      rfl
    · refine ⟨u.retire, ?_, u.retire_frame⟩
      obtain ⟨had, only⟩ | ⟨noSlot, i, free, rfl⟩ := slot
      · rw [PEnt.storedSlots, had] at save
        refine exec_tsSt_slot hg room reach entry x had (List.map_congr_left fun d hd => ?_) save
        by_cases here : d.cell = c
        · have same : d ∈ e.slots.filter fun d => d.cell == c := List.mem_filter.mpr ⟨hd, beq_iff_eq.mpr here⟩
          rw [only, List.mem_singleton] at same
          rw [same]
          rfl
        · exact (if_neg here).trans (if_neg here).symm
      · rw [PEnt.storedSlots, noSlot] at save
        exact exec_tsSt_new hg room reach entry x noSlot free rfl save

end Sys2Proof.Machine
end

section
/-! PROOFS. Opening, closing and dropping patches (O37; spec/09 R210, R211, R224 to R226): what the issue of a patch instruction leaves,
and the three instructions. -/

namespace Sys2Proof.Machine

/-! ### The frame of a patch instruction -/

theorem paTrap_code : paTrap.code = 0x11 := rfl

/-- The issue of an instruction that holds queue D for the patch engine. -/
theorem State.engineBusy_toEngine (u : State) :
    Stmt.engineBusy u (u.setFlight { u.me.f with holdD := some .patch }).retire u.me.f.ports := by
  have issued := u.issuedWith_setFlight (f := { u.me.f with holdD := some .patch }) rfl
  exact ⟨issued.regs, issued.ctl, issued.flight, rfl, rfl, rfl, rfl, u.sameOthers_setMe_retire _⟩

/-- A change of the ports before the issue is one of its effects. -/
theorem engineBusy_of_setPorts {u t : State} {ports : Tab Port}
    (h : Stmt.engineBusy (u.setFlight { u.me.f with ports := ports }) t ports) : Stmt.engineBusy u t ports := by
  obtain ⟨regs, ctl, flight, mem, cores, clusters, dies, others⟩ := h
  rw [State.me_setFlight] at regs ctl flight
  exact ⟨regs, ctl, flight, mem, cores, clusters, dies, (u.sameOthers_setMe _).trans others⟩

section
variable {g : BitVec 7} {s : State} (hg : s.guardOn g = true) {f : State → Try Unit}
include hg

/-- A patch instruction whose operation is done issues, and holds queue D. -/
theorem paOp_done {u : State} (h : f s = .ok u ()) : ∃ t, paOp g s f = .next t ∧ Stmt.engineBusy u t u.me.f.ports :=
  ⟨_, by rw [paOp, slotOp_on hg, h]; rfl, u.engineBusy_toEngine⟩

theorem paOp_binds {u : State} {n : BitVec 2} {pt : Port} (h : f s = .ok (u.bindPort n (some pt)) ()) :
    ∃ t, paOp g s f = .next t ∧ Stmt.engineBusy u t (Tab.put u.me.f.ports n.toNat pt) := by
  obtain ⟨t, next, busy⟩ := paOp_done hg h
  simp only [State.bindPort, State.me_setFlight] at busy
  exact ⟨t, next, engineBusy_of_setPorts busy⟩

theorem paOp_unbinds {u : State} {n : BitVec 2} (h : f s = .ok (u.bindPort n none) ()) :
    ∃ t, paOp g s f = .next t ∧ Stmt.engineBusy u t (Tab.erase u.me.f.ports n.toNat) := by
  obtain ⟨t, next, busy⟩ := paOp_done hg h
  simp only [State.bindPort, State.me_setFlight] at busy
  exact ⟨t, next, engineBusy_of_setPorts busy⟩

theorem paOp_refused {s1 : State} {tr : Trap} (h : f s = .trap s1 tr) : paOp g s f = s.raise tr := by
  rw [paOp, slotOp_on hg, h]
  rfl

end

/-! ### Entries -/

theorem find_insNum {p : PEnt} {l : List PEnt} (h : ∀ e ∈ l, e.num ≠ p.num) : (insNum p l).find? (fun e => e.num == p.num) = some p := by
  induction l with
  | nil => simp [insNum]
  | cons e l ih =>
    have other := h e (List.mem_cons_self ..)
    rw [insNum]
    split
    · simp
    · rw [List.find?_cons_of_neg (by simpa using other), ih fun e he => h e (List.mem_cons_of_mem _ he)]

theorem Tensor.entry_put_same (t : Tensor) (p : PEnt) : (t.put p).entry p.num = some p :=
  find_insNum fun e he => by simpa using (List.mem_filter.mp he).2

/-- What a close leaves of the patch: its number, name and kind, at the end of the chain with the next stamp (spec/09 R225). -/
theorem State.closeAs_closed {s s1 : State} {q : Nat} {t t1 : Tensor} {p sq : PEnt} {sub : Bool}
    (h : s.closeAs q t p sq sub = .ok s1 t1) : t1.stamp = t.stamp + 1 ∧ ∃ p1, t1.entry p.num = some p1 ∧ p1.closed = true ∧
      p1.pos = t.chain.length + 1 ∧ p1.name = p.name ∧ p1.kind = p.kind ∧ p1.cstamp = t.stamp + 1 := by
  obtain ⟨u, p1, made, h⟩ := Try.bind_eq_ok h
  obtain ⟨v, _, _, h⟩ := Try.bind_eq_ok h
  have same : p1.num = p.num ∧ p1.name = p.name ∧ p1.kind = p.kind := by
    split at made
    · obtain ⟨w, sl, _, made⟩ := Try.bind_eq_ok made
      cases made
      exact ⟨rfl, rfl, rfl⟩
    · cases made
      exact ⟨rfl, rfl, rfl⟩
  obtain ⟨num, name, kind⟩ := same
  cases h
  refine ⟨rfl, { p1 with closed := true, cstamp := t.stamp + 1, pos := t.chain.length + 1 }, ?_, rfl, rfl, name, kind, rfl⟩
  rw [← num]
  exact Tensor.entry_put_same _ _

/-! ### pa.open -/

/-- A property of every trap of some operations is one of the trap of the whole. -/
theorem tryList_trap_of {α : Type} {f : State → α → Try Unit} {tr : Trap} {P : Trap → Prop}
    (hf : ∀ {t t1 : State} {a : α} {tr : Trap}, f t a = .trap t1 tr → P tr) {l : List α} {s s1 : State}
    (h : tryList l s f = .trap s1 tr) : P tr := by
  induction l generalizing s with
  | nil => cases h
  | cons a l ih =>
    rw [tryList] at h
    cases first : f s a with
    | ok s2 _ =>
      rw [first] at h
      exact ih h
    | trap s2 tr2 =>
      rw [first] at h
      cases h
      exact hf first
    | wait s2 evs =>
      rw [first] at h
      cases h

theorem State.basePages_trap {s s1 : State} {q : Nat} {t : Tensor} {tr : Trap} (h : s.basePages q t = .trap s1 tr) :
    tr = addrTrap 0x11 t.base (paAcc false true) 0 0 0 := by
  refine tryList_trap_of (P := (· = addrTrap 0x11 t.base (paAcc false true) 0 0 0)) (fun {u u1 i tr} step => ?_) h
  split at step
  · cases step
  · cases step
    rfl
  · cases step

section
variable {g : BitVec 7} {s s1 s2 : State} (hg : s.guardOn g = true) {port : BitVec 2} {y z : BitVec 6} {T : Tensor}
include hg

theorem exec_paOpen_bound {pt : Port} (bound : s.port port = some pt) (kind : PaKind) :
    exec (.paOpen g port y z kind) s = s.raise paTrap := by
  rw [exec_paOpen]
  unfold execPaOpen
  refine paOp_refused (s1 := s) hg ?_
  simp only [bound, Option.isSome_some, if_true]

variable (bare : s.port port = none) (load : s.paLoad s.cur.seq (s.rs y) = .ok s1 T)
include bare load

theorem exec_paOpen_noTensorPage {tr : Trap} (pages : s1.basePages s.cur.seq T = .trap s2 tr) (kind : PaKind) :
    exec (.paOpen g port y z kind) s = s.raise tr := by
  rw [exec_paOpen]
  unfold execPaOpen
  refine paOp_refused (s1 := s2) hg ?_
  simp only [bare, load, pages, Try.bind, Option.isSome_none, Bool.false_eq_true, if_false]

variable (pages : s1.basePages s.cur.seq T = .ok s2 ())
include pages

theorem exec_paOpen_view : ∃ t, exec (.paOpen g port y z .view) s = .next t ∧ Stmt.engineBusy s2 t
    (Tab.put s2.me.f.ports port.toNat { record := T.rec_, entry := 0, view := true }) := by
  rw [exec_paOpen]
  unfold execPaOpen
  refine paOp_binds hg ?_
  simp only [bare, load, pages, Try.bind, Option.isSome_none, Bool.false_eq_true, if_false]

/-- The new entry is written, and the port is bound to it. -/
theorem exec_paOpen_patch {kind : PaKind} {k n : Nat} (code : (kind, k) ∈ [(PaKind.ovr, 0), (PaKind.add, 1), (PaKind.addn, 2)])
    (given : (s.rs z).toNat % 2 ^ 32 ≠ 0) (unused : T.named ((s.rs z).toNat % 2 ^ 32) = none) (free : T.freeEnt = some n) {u : State}
    (save : s2.paSave s.cur.seq T (T.put
      { num := n, name := (s.rs z).toNat % 2 ^ 32, kind := k, closed := false, ostamp := T.stamp, cctx := s.ctxOf s.cur.seq }) [] =
        .ok u ()) :
    ∃ t, exec (.paOpen g port y z kind) s = .next t ∧ Stmt.engineBusy u t
      (Tab.put u.me.f.ports port.toNat { record := T.rec_, entry := n, view := false }) := by
  rw [exec_paOpen]
  unfold execPaOpen
  refine paOp_binds hg ?_
  simp only [List.mem_cons, Prod.mk.injEq, List.not_mem_nil, or_false] at code
  obtain ⟨rfl, rfl⟩ | ⟨rfl, rfl⟩ | ⟨rfl, rfl⟩ := code
  all_goals
    simp only [bare, load, pages, given, unused, free, save, Try.bind, Option.isSome_none, Option.isNone_some, Bool.false_and,
      Bool.false_eq_true, if_false]

end

/-! ### Patches that do not commute with one -/

theorem Tensor.firstClash_none {t : Tensor} {p : PEnt} {l : List PEnt} (h : ∀ r ∈ l, t.clash p r = none) :
    t.firstClash p l = none :=
  List.findSome?_eq_none_iff.mpr fun r hr => by rw [h r hr]; rfl

theorem Tensor.firstClash_laterThan {t : Tensor} {p : PEnt} (h : ∀ r ∈ t.chain, p.pos < r.pos → t.clash p r = none) :
    t.firstClash p (t.laterThan p) = none :=
  Tensor.firstClash_none fun r hr => h r (List.mem_filter.mp hr).1 (of_decide_eq_true (List.mem_filter.mp hr).2)

/-- The patch that refuses a close, and the lowest cell that it shares with the closing one: closed since that one's opening, by another
context (spec/09 R217). -/
def Tensor.strictClash (t : Tensor) (p r : PEnt) : Option (PEnt × Nat) :=
  if p.ostamp < r.cstamp && r.cctx != p.cctx then (t.clash p r).map fun c => (r, c) else none

theorem Tensor.strictClash_none {t : Tensor} {p r : PEnt} (h : p.ostamp < r.cstamp → r.cctx ≠ p.cctx → t.clash p r = none) :
    t.strictClash p r = none := by
  unfold Tensor.strictClash
  split
  · next both =>
    simp only [Bool.and_eq_true, decide_eq_true_eq, bne_iff_ne] at both
    rw [h both.1 both.2]
    rfl
  · rfl

theorem Tensor.strictClash_some {t : Tensor} {p r : PEnt} {c : Nat} (newer : p.ostamp < r.cstamp) (other : r.cctx ≠ p.cctx)
    (clash : t.clash p r = some c) : t.strictClash p r = some (r, c) := by
  simp only [Tensor.strictClash, newer, bne_iff_ne.mpr other, clash, decide_true, Bool.and_self, if_true, Option.map_some]

/-- What refuses a close. -/
def Tensor.refuses (t : Tensor) (p : PEnt) : Option (PEnt × Nat) := if t.strict then t.chain.findSome? (t.strictClash p) else none

theorem Tensor.refuses_none {t : Tensor} {p : PEnt}
    (h : t.strict = true → ∀ r ∈ t.chain, p.ostamp < r.cstamp → r.cctx ≠ p.cctx → t.clash p r = none) : t.refuses p = none := by
  unfold Tensor.refuses
  split
  · next strict => exact List.findSome?_eq_none_iff.mpr fun r hr => Tensor.strictClash_none (h strict r hr)
  · rfl

/-! ### pa.close and pa.drop -/

section
variable {g : BitVec 7} {s s1 s2 : State} (hg : s.guardOn g = true) {port : BitVec 2} {pt : Port} {T : Tensor} {p : PEnt}
include hg

theorem exec_paClose_bare (bare : s.port port = none) :
    exec (.paClose g port) s = s.raise paTrap ∧ exec (.paDropPort g port) s = s.raise paTrap := by
  rw [exec_paClose, exec_paDropPort]
  unfold execPaClose execPaDropPort
  exact ⟨paOp_refused (s1 := s) hg (by simp only [bare]), paOp_refused (s1 := s) hg (by simp only [bare])⟩

variable (bound : s.port port = some pt)
include bound

theorem exec_paClose_view (view : pt.view = true) :
    ∃ t, exec (.paClose g port) s = .next t ∧ Stmt.engineBusy s t (Tab.erase s.me.f.ports port.toNat) := by
  rw [exec_paClose]
  unfold execPaClose
  exact paOp_unbinds hg (by simp only [bound, view, if_true])

variable (patch : pt.view = false) (load : s.paLoad s.cur.seq pt.record = .ok s1 T) (entry : T.entry pt.entry = some p)
include patch load entry

theorem exec_paClose_closes (free : T.refuses p = none) {T1 : Tensor} (close : s1.closeAs s.cur.seq T p p false = .ok s2 T1) {u : State}
    (save : s2.paSave s.cur.seq T T1 [] = .ok u ()) :
    ∃ t, exec (.paClose g port) s = .next t ∧ Stmt.engineBusy u t (Tab.erase u.me.f.ports port.toNat) := by
  unfold Tensor.refuses Tensor.strictClash at free
  rw [exec_paClose]
  unfold execPaClose
  refine paOp_unbinds hg ?_
  simp only [bound, patch, load, entry, free, close, save, Try.bind, Bool.false_eq_true, if_false]

theorem exec_paClose_refused {r : PEnt} {c : Nat} (held : T.refuses p = some (r, c)) :
    exec (.paClose g port) s = s.raise (T.conflict 2 p.name r.name c) := by
  unfold Tensor.refuses Tensor.strictClash at held
  rw [exec_paClose]
  unfold execPaClose
  refine paOp_refused (s1 := s1) hg ?_
  simp only [bound, patch, load, entry, held, Try.bind, Bool.false_eq_true, if_false]

theorem exec_paDropPort_drops {u : State}
    (save : s1.paSave s.cur.seq T { T with ents := T.ents.filter fun e => e.num != p.num } [] = .ok u ()) :
    ∃ t, exec (.paDropPort g port) s = .next t ∧ Stmt.engineBusy u t (Tab.erase u.me.f.ports port.toNat) := by
  rw [exec_paDropPort]
  unfold execPaDropPort
  refine paOp_unbinds hg ?_
  simp only [bound, patch, State.dropOpen, load, entry, save, Try.bind, Bool.false_eq_true, if_false]

end

/-- The closed patch that a register names in its low word. -/
theorem State.withClosed_named {s s1 : State} {y z : BitVec 6} {T : Tensor} {p : PEnt} (h : Stmt.named s s1 y z T p)
    (f : State → Tensor → PEnt → Try Unit) : s.withClosed y z f = f s1 T p := by
  have named := h.low
  rw [BitVec.toNat_setWidth] at named
  simp only [State.withClosed, h.loaded, named, Try.bind]

theorem exec_paDropClosed_drops {g : BitVec 7} {s s1 s2 u : State} (hg : s.guardOn g = true) {y z : BitVec 6} {T : Tensor} {p : PEnt}
    (named : Stmt.named s s1 y z T p) (behind : T.atCut p = false) (commutes : ∀ r ∈ T.chain, p.pos < r.pos → T.clash p r = none)
    (norm : s1.paNorm s.cur.seq T p true = .ok s2 ()) (save : s2.paSave s.cur.seq T (T.remove [p.num]) [] = .ok u ()) :
    ∃ t, exec (.paDropClosed g y z) s = .next t ∧ Stmt.engineBusy u t u.me.f.ports := by
  rw [exec_paDropClosed]
  refine paOp_done hg ?_
  simp only [State.withClosed_named named, behind, Tensor.firstClash_laterThan commutes, norm, save, Try.bind, Bool.false_eq_true,
    if_false]

/-- PATCH_ENGINE_COMPLETE frees queue D and leaves the rest. -/
theorem exec_patchEngineComplete_frees {s : State} {q : Nat} (held : (s.seq q).f.holdD = some .patch) :
    exec (.patchEngineComplete q) s = .next (s.setSeq q { s.seq q with f := { (s.seq q).f with holdD := none } }) := by
  rw [exec_patchEngineComplete, execPatchEngineComplete, held]

/-- Settles O37: a port is bound by pa.open and freed by pa.close and pa.drop, with what each writes back. -/
theorem patchesOpenAndClose : Obligations.PatchesOpenAndClose := by
  refine ⟨fun s s1 s2 g port y z T hg => ⟨fun kind pt bound => ⟨_, paTrap_code, exec_paOpen_bound hg bound kind⟩,
      fun kind tr bare load pages => ?_, fun bare load pages => ⟨exec_paOpen_view hg bare load pages, ?_⟩⟩,
    fun s g port hg => ⟨fun bare => ⟨_, paTrap_code, exec_paClose_bare hg bare⟩, fun pt bound view => exec_paClose_view hg bound view,
      fun pt s1 T p bound patch load entry => ⟨fun s2 T1 u free close save => ?_, fun r c strict one newer other clash => ?_,
        fun u save => exec_paDropPort_drops hg bound patch load entry save⟩⟩,
    fun s s1 s2 u g y z T p hg load named behind commutes norm save =>
      exec_paDropClosed_drops hg ⟨load, named⟩ behind commutes norm save, fun s q held => ?_⟩
  · have trap := State.basePages_trap pages
    subst trap
    exact ⟨rfl, rfl, exec_paOpen_noTensorPage hg bare load pages kind⟩
  · intro kind k n u code given unused free save
    rw [BitVec.toNat_setWidth] at given unused save
    exact exec_paOpen_patch hg bare load pages code given unused free save
  · exact ⟨exec_paClose_closes hg bound patch load entry (Tensor.refuses_none free) close save, State.closeAs_closed close⟩
  · have held : T.refuses p = some (r, c) := by
      simp only [Tensor.refuses, strict, if_true, one, List.findSome?_cons, Tensor.strictClash_some newer other clash]
    exact ⟨_, rfl, rfl, rfl, rfl, exec_paClose_refused hg bound patch load entry held⟩
  · exact ⟨_, exec_patchEngineComplete_frees held, by rw [State.seq_setSeq_same], by rw [State.seq_setSeq_same],
      by rw [State.seq_setSeq_same], fun p hp => State.seq_setSeq_other s _ hp, s.sameModule_setSeq q _⟩

end Sys2Proof.Machine
end

section
/-! PROOFS. Moving and folding patches (O38; spec/09 R227 to R232): pa.comm, pa.apply, pa.squash, pa.snap, pa.inv and pa.xplant. -/

namespace Sys2Proof.Machine

theorem Stmt.high_eq (s : State) (z : BitVec 6) : Stmt.high s z = (s.rs z).toNat / 2 ^ 32 := by
  rw [Stmt.high, BitVec.extractLsb'_toNat, Nat.shiftRight_eq_div_pow]
  have := (s.rs z).isLt
  omega

/-! ### pa.comm -/

section
variable {g : BitVec 7} {s s1 : State} (hg : s.guardOn g = true) {y z : BitVec 6} {T : Tensor} {p r : PEnt}
  (named : Stmt.named s s1 y z T p) (other : T.closedNamed (Stmt.high s z) = some r)
include hg named other

theorem exec_paComm_exchanges (next : r.pos = p.pos + 1) (cut : T.cut ≠ some p.pos) (commutes : T.clash p r = none) {u : State}
    (save : s1.paSave s.cur.seq T ((T.put { p with pos := r.pos }).put { r with pos := p.pos }) [] = .ok u ()) :
    ∃ t, exec (.paComm g y z) s = .next t ∧ Stmt.engineBusy u t u.me.f.ports := by
  rw [Stmt.high_eq] at other
  rw [exec_paComm]
  unfold execPaComm
  refine paOp_done hg ?_
  rw [State.withClosed_named named, other, ← save]
  simp only [next, cut, commutes, ne_eq, not_true, if_false]

theorem exec_paComm_refused {reason : Nat}
    (why : (r.pos ≠ p.pos + 1 ∧ reason = 7) ∨ (r.pos = p.pos + 1 ∧ T.cut = some p.pos ∧ reason = 6) ∨
      (r.pos = p.pos + 1 ∧ T.cut ≠ some p.pos ∧ T.clash p r ≠ none ∧ reason = 1)) :
    ∃ cell, exec (.paComm g y z) s = s.raise (T.conflict reason r.name p.name cell) := by
  rw [Stmt.high_eq] at other
  rw [exec_paComm]
  unfold execPaComm
  obtain ⟨apart, rfl⟩ | ⟨next, cut, rfl⟩ | ⟨next, cut, clash, rfl⟩ := why
  · refine ⟨0xFFFFFFFF, paOp_refused (s1 := s1) hg ?_⟩
    simp only [State.withClosed_named named, other, ne_eq, apart, not_false_eq_true, if_true]
  · refine ⟨0xFFFFFFFF, paOp_refused (s1 := s1) hg ?_⟩
    simp only [State.withClosed_named named, other, ne_eq, next, cut, not_true, if_false, if_true]
  · obtain ⟨c, clash⟩ := Option.ne_none_iff_exists'.mp clash
    refine ⟨c, paOp_refused (s1 := s1) hg ?_⟩
    simp only [State.withClosed_named named, other, ne_eq, next, cut, clash, not_true, if_false]

end

/-! ### pa.apply, pa.squash and pa.snap -/

theorem Tensor.firstClash_earlierThan {t : Tensor} {p : PEnt} (h : ∀ r ∈ t.chain, r.pos < p.pos → t.clash p r = none) :
    t.firstClash p (t.earlierThan p) = none :=
  Tensor.firstClash_none fun r hr => h r (List.mem_filter.mp hr).1 (of_decide_eq_true (List.mem_filter.mp hr).2)

/-- The open patch that holds back the folding of a closed one (spec/09 R229). -/
def Tensor.holder (t : Tensor) (p : PEnt) : Option PEnt :=
  if t.strict then t.opens.find? fun o => o.cctx != p.cctx && o.ostamp < p.cstamp else none

theorem Tensor.holder_none {t : Tensor} {p : PEnt} (h : t.strict = true → ∀ o ∈ t.opens, o.cctx ≠ p.cctx → p.cstamp ≤ o.ostamp) :
    t.holder p = none := by
  unfold Tensor.holder
  split
  · next strict =>
    refine List.find?_eq_none.mpr fun o ho both => ?_
    simp only [Bool.and_eq_true, decide_eq_true_eq, bne_iff_ne] at both
    exact absurd both.2 (Nat.not_lt.mpr (h strict o ho both.1))
  · rfl

/-- How many leading patches pa.squash folds (spec/09 R230). -/
def Tensor.squashes (t : Tensor) (n : Nat) : Nat :=
  let window := t.chain.takeWhile fun p => t.opens.all fun o => decide (p.cstamp ≤ o.ostamp)
  let most := min (if t.strict then window.length else t.chain.length) (t.cut.getD t.chain.length)
  if n = 0 then most else min n most

theorem Tensor.squashes_eq (t : Tensor) (n : Nat) : t.squashes n =
    (let lead := if t.strict then (t.chain.takeWhile fun p => t.opens.all fun o => p.cstamp ≤ o.ostamp).length else t.chain.length
     let k0 := min t.chain.length lead
     let k1 := match t.cut with | some c => min k0 c | none => k0
     if n = 0 then k1 else min k1 n) := by
  let lead := if t.strict then (t.chain.takeWhile fun p => t.opens.all fun o => decide (p.cstamp ≤ o.ostamp)).length else t.chain.length
  have short : lead ≤ t.chain.length := by
    unfold lead
    split
    · exact (List.takeWhile_sublist _).length_le
    · exact le_rfl
  have most : min lead (t.cut.getD t.chain.length) =
      match t.cut with | some c => min (min t.chain.length lead) c | none => min t.chain.length lead := by
    rw [Nat.min_eq_right short]
    cases t.cut with
    | none => exact Nat.min_eq_left short
    | some c => rfl
  show (if n = 0 then min lead _ else min n (min lead _)) = _
  rw [most, Nat.min_comm n]

theorem State.squash_eq (s : State) (q : Nat) (t : Tensor) (n : Nat) :
    let lead := t.chain.take (t.squashes n)
    s.squash q t n = (s.cellValues q t (t.squashes n) ((lead.flatMap fun p => p.slots.map (·.cell)).dedup)).bind fun s1 l =>
      .ok s1 (t.remove (lead.map (·.num)), l) := by
  rw [t.squashes_eq n]
  rfl

section
variable {g : BitVec 7} {s s1 s2 u : State} (hg : s.guardOn g = true) {y z : BitVec 6} {T : Tensor} {p : PEnt}
  {cells : List (Nat × BitVec 512)}
include hg

theorem exec_paApply_folds (named : Stmt.named s s1 y z T p) (cut : T.cut = none ∨ T.atCut p = true) (free : T.holder p = none)
    (commutes : ∀ r ∈ T.chain, r.pos < p.pos → T.clash p r = none) (values : s1.applyOne s.cur.seq T p p.slots = .ok s2 cells)
    (save : s2.paSave s.cur.seq T (T.remove [p.num]) cells = .ok u ()) :
    ∃ t, exec (.paApply g y z) s = .next t ∧ Stmt.engineBusy u t u.me.f.ports := by
  have within : (T.cut.isSome && !T.atCut p) = false := by
    obtain noCut | at_ := cut
    · rw [noCut]; rfl
    · rw [at_]; exact Bool.and_false _
  unfold Tensor.holder at free
  rw [exec_paApply]
  unfold execPaApply
  refine paOp_done hg ?_
  simp only [State.withClosed_named named, within, free, Tensor.firstClash_earlierThan commutes, values, save, Try.bind,
    Bool.false_eq_true, if_false]

theorem exec_paSquash_folds (load : s.paLoad s.cur.seq (s.rs y) = .ok s1 T) {lead : List PEnt}
    (leading : lead = T.chain.take (T.squashes (s.rs z).toNat))
    (values : s1.cellValues s.cur.seq T (T.squashes (s.rs z).toNat) ((lead.flatMap fun p => p.slots.map (·.cell)).dedup) = .ok s2 cells)
    (save : s2.paSave s.cur.seq T (T.remove (lead.map (·.num))) cells = .ok u ()) :
    ∃ t, exec (.paSquash g y z) s = .next t ∧ Stmt.engineBusy u t u.me.f.ports := by
  subst leading
  rw [exec_paSquash]
  refine paOp_done hg ?_
  simp only [load, State.squash_eq, values, save, Try.bind]

theorem exec_paSnap_sets (load : s.paLoad s.cur.seq (s.rs y) = .ok s1 T) {clr : BitVec 1}
    (save : s1.paSave s.cur.seq T { T with cut := if clr = 1#1 then none else some T.chain.length } [] = .ok u ()) :
    ∃ t, exec (.paSnap g y clr) s = .next t ∧ Stmt.engineBusy u t u.me.f.ports := by
  rw [exec_paSnap]
  refine paOp_done hg ?_
  simp only [load, save, Try.bind]

end

/-! ### pa.inv -/

theorem negElem_eq (f : Fmt) (d : Nat) :
    negElem f d = if (Fmt.flt f).isSome then d ^^^ 2 ^ (Fmt.bits f - 1) else (2 ^ Fmt.bits f - d) % 2 ^ Fmt.bits f := by
  unfold negElem
  cases Fmt.flt f <;> rfl

/-- Whether the inverse of a patch puts values back, and not negated deltas (spec/09 R227). -/
def Tensor.restores (t : Tensor) (p : PEnt) : Bool := p.kind = 0 || ((Fmt.flt t.fmt).isSome && !t.canon && p.kept)

theorem Tensor.restores_iff (t : Tensor) (p : PEnt) :
    t.restores p = true ↔ p.kind = 0 ∨ ((Fmt.flt t.fmt).isSome = true ∧ t.canon = false ∧ p.kept = true) := by
  simp only [Tensor.restores, Bool.or_eq_true, decide_eq_true_eq, Bool.and_eq_true, Bool.not_eq_true', and_assoc]

/-- A slot of the inverse, in a slot taken from the free list. -/
def Tensor.inverseSlot (t : Tensor) (restore : Bool) (e : PSlot × Nat) : PSlot :=
  { e.1 with
    idx := e.2, pre := 0#512,
    pay := if restore then e.1.pre
      else (e.1.deltas t.z).foldl (fun x d => elemPut x t.z d.1 (negElem t.fmt d.2)) e.1.pay }

/-- The tensor marked as having an inverse that rounding makes inexact. -/
def Tensor.markInverse (t : Tensor) (restore : Bool) : Tensor :=
  if (Fmt.flt t.fmt).isSome && !t.canon && !restore then { t with sflags := t.sflags ||| 1 } else t

theorem Tensor.markInverse_eq (t : Tensor) (p : PEnt) (ovr : Prop) [Decidable ovr] (h : t.restores p = true ↔ ovr) :
    t.markInverse (t.restores p) =
      { t with sflags := if (Fmt.flt t.fmt).isSome = true ∧ t.canon = false ∧ ¬ovr then t.sflags ||| 1 else t.sflags } := by
  simp only [Tensor.markInverse, Bool.and_eq_true, Bool.not_eq_true', ← Bool.not_eq_true, h, and_assoc]
  split <;> rfl

theorem exec_paInv_closes {g : BitVec 7} {s s1 s2 u : State} (hg : s.guardOn g = true) {y z : BitVec 6} {T T1 : Tensor} {p : PEnt}
    (named : Stmt.named s s1 y z T p) {n : Nat} (new : T.newName (Stmt.high s z) = .ok n)
    (room : (T.takeSlots p.slots.length).length = p.slots.length)
    (commutes : ∀ r ∈ T.chain, p.pos < r.pos → T.clash p r = none)
    (close : s1.closeAs s.cur.seq (T.markInverse (T.restores p))
      { num := n, name := Stmt.high s z, kind := if T.restores p then 0 else p.kind, closed := false, target := p.num, inv := true,
        ostamp := T.stamp, cctx := s.ctxOf s.cur.seq,
        slots := (p.slots.zip (T.takeSlots p.slots.length)).map (T.inverseSlot (T.restores p)) } p true = .ok s2 T1)
    (save : s2.paSave s.cur.seq T T1 [] = .ok u ()) :
    ∃ t, exec (.paInv g y z) s = .next t ∧ Stmt.engineBusy u t u.me.f.ports := by
  rw [Stmt.high_eq] at new close
  unfold Tensor.markInverse Tensor.inverseSlot Tensor.restores at close
  rw [exec_paInv]
  unfold execPaInv
  refine paOp_done hg ?_
  simp only [State.withClosed_named named, new, room, Tensor.firstClash_laterThan commutes, close, save, Try.bind, lt_self_iff_false,
    if_false]

/-! ### pa.xplant -/

/-- The flags that a transplant sets: 2 for an inexact or torn element, 4 for a saturated one (spec/09 R232). -/
def carryFlags (p : PEnt) (z : Nat) (cs : List (PSlot × Bool × Bool)) : Nat :=
  (if (p.kind = 0 && p.slots.any fun sl => sl.torn z) || cs.any (·.2.1) then 2 else 0) ||| (if cs.any (·.2.2) then 4 else 0)

theorem exec_paXplant_closes {g : BitVec 7} {s s0 s1 s2 u : State} (hg : s.guardOn g = true) {x y z : BitVec 6} {D D1 T : Tensor}
    {p : PEnt} (dst : s.paLoad s.cur.seq (s.rs x) = .ok s0 D) (src : s0.paLoad s.cur.seq (s.rs y) = .ok s1 T)
    (rows : D.rows = T.rows) (cols : D.cols = T.cols) (cells : D.cb / D.z = T.cb / T.z)
    (named : T.closedNamed ((s.rs z).toNat % 2 ^ 32) = some p) {n : Nat} (new : D.newName (Stmt.high s z) = .ok n)
    (room : (D.takeSlots p.slots.length).length = p.slots.length) {cs : List (PSlot × Bool × Bool)}
    (carried : cs = (p.slots.zip (D.takeSlots p.slots.length)).map fun e => e.1.carry T.fmt D.fmt e.2) {e : PEnt}
    (made : e =
      { num := n, name := Stmt.high s z, kind := p.kind, closed := false, ostamp := D.stamp, cctx := s.ctxOf s.cur.seq,
        slots := cs.map (·.1) })
    (close : s1.closeAs s.cur.seq { D with sflags := D.sflags ||| carryFlags p T.z cs } e e false = .ok s2 D1)
    (save : s2.paSave s.cur.seq D D1 [] = .ok u ()) :
    ∃ t, exec (.paXplant g x y z) s = .next t ∧ Stmt.engineBusy u t u.me.f.ports := by
  subst carried made
  rw [Stmt.high_eq] at new close
  unfold carryFlags at close
  rw [exec_paXplant]
  unfold execPaXplant
  refine paOp_done hg ?_
  have shape : (decide (D.rows ≠ T.rows) || decide (D.cols ≠ T.cols) || decide (D.cb / D.z ≠ T.cb / T.z)) = false := by
    simp [rows, cols, cells]
  simp only [dst, src, shape, named, new, room, close, save, Try.bind, lt_self_iff_false, Bool.false_eq_true, if_false]

/-- Settles O38: each instruction writes back the tensor of its rule, and pa.comm refuses what it may not exchange. -/
theorem patchesMoveAndFold : Obligations.PatchesMoveAndFold := by
  refine ⟨fun s s1 g y z T p r hg named other => ⟨fun u next cut commutes save =>
        exec_paComm_exchanges hg named other next cut commutes save, fun reason why => ?_⟩,
    fun s s1 s2 u g y z T p cells hg named cut free commutes values save =>
      exec_paApply_folds hg named cut (Tensor.holder_none free) commutes values save, ?_,
    fun s s1 u g y clr T hg load save => exec_paSnap_sets hg load save, ?_, ?_⟩
  · obtain ⟨cell, refused⟩ := exec_paComm_refused hg named other why
    exact ⟨_, rfl, rfl, refused⟩
  · intro s s1 s2 u g y z T k cells hg load n window most count lead values save
    have count : k = T.squashes (s.rs z).toNat := count
    subst count
    exact exec_paSquash_folds hg load rfl values save
  · intro s s1 s2 u g y z T T1 p n free slots hg named new taken room commutes isF ovr neg kind close save
    subst taken
    have restores : T.restores p = true ↔ ovr := T.restores_iff p
    refine exec_paInv_closes hg named new room commutes ?_ save
    rw [T.markInverse_eq p ovr restores, ← close]
    obtain ⟨yes, rfl⟩ | ⟨no, rfl⟩ := kind
    · simp only [restores.mpr yes, if_pos yes, if_true]
      rfl
    · have plain : T.restores p = false := Bool.eq_false_iff.mpr fun h => no (restores.mp h)
      simp only [plain, if_neg no, Bool.false_eq_true, if_false]
      unfold Tensor.inverseSlot
      simp only [negElem_eq, Bool.false_eq_true, if_false]
      rfl
  · intro s s0 s1 s2 u g x y z D D1 T p n free cs hg dst src rows cols cells named new taken room carried torn e close save
    subst taken
    rw [BitVec.toNat_setWidth] at named
    refine exec_paXplant_closes hg dst src rows cols cells named new room carried rfl ?_ save
    simp only [carryFlags, Bool.or_eq_true, Bool.and_eq_true, decide_eq_true_eq]
    exact close

end Sys2Proof.Machine
end

section
/-! PROOFS. Queries and the norm register (O39; spec/09 R233, R234): the words of pa.query field by field, and what pa.norm reads and
writes. -/

namespace Sys2Proof.Machine

/-! ### Fields of a word -/

theorem extractLsb'_ofNat_field {n lo w v : Nat} (inside : lo + w ≤ 64) (h : n / 2 ^ lo % 2 ^ w = v % 2 ^ w) :
    (BitVec.ofNat 64 n).extractLsb' lo w = BitVec.ofNat w v := by
  refine BitVec.eq_of_getLsbD_eq fun i hi => ?_
  have bit := congrArg (Nat.testBit · i) h
  simp only [Nat.testBit_mod_two_pow, Nat.testBit_div_two_pow, hi, decide_true, Bool.true_and] at bit
  simp only [BitVec.getLsbD_extractLsb', BitVec.getLsbD_ofNat, hi, show lo + i < 64 by omega, decide_true, Bool.true_and]
  rw [← bit, Nat.add_comm]

theorem getLsbD_ofNat_bit {n k : Nat} {b : Bool} (inside : k < 64) (h : n / 2 ^ k % 2 = b.toNat) :
    (BitVec.ofNat 64 n).getLsbD k = b := by
  rw [BitVec.getLsbD_ofNat, decide_eq_true inside, Bool.true_and, Nat.testBit_eq_decide_div_mod_eq, h]
  cases b <;> rfl

theorem ite_eq_toNat_mul (b : Bool) (n : Nat) : (if b then n else 0) = b.toNat * n := by
  cases b <;> simp

/-! ### pa.query -/

/-- The tensor word of R233, as a sum of its fields. -/
theorem Tensor.statusWord_eq (t : Tensor) : t.statusWord =
    t.chain.length + t.cut.getD 0 * 2 ^ 10 + t.cut.isSome.toNat * 2 ^ 20 + t.opens.length * 2 ^ 21 + t.sflags * 2 ^ 32 := by
  unfold Tensor.statusWord
  cases t.cut with
  | none => simp
  | some c => simp [Nat.add_assoc]

theorem Tensor.patchWord_eq (t : Tensor) (p : PEnt) : t.patchWord p =
    p.slots.length * 2 ^ 32 + (p.closed && t.atCut p).toNat * 2 ^ 17 + p.inv.toNat * 2 ^ 16 + p.kept.toNat * 2 ^ 15 +
      p.kind * 2 ^ 13 + (p.closed.toNat + 1) * 2 ^ 10 + p.pos := by
  rw [Tensor.patchWord, ite_eq_toNat_mul, ite_eq_toNat_mul, ite_eq_toNat_mul]
  cases p.closed <;> rfl

theorem Tensor.statusWord_fields {t : Tensor} (chain : t.chain.length < 2 ^ 10) (opens : t.opens.length < 2 ^ 10)
    (flags : t.sflags < 8) (cut : ∀ k, t.cut = some k → k < 2 ^ 10) :
    let w := BitVec.ofNat 64 t.statusWord
    w.extractLsb' 0 10 = BitVec.ofNat 10 t.chain.length ∧ w.extractLsb' 10 10 = BitVec.ofNat 10 (t.cut.getD 0) ∧
      w.getLsbD 20 = t.cut.isSome ∧ w.extractLsb' 21 10 = BitVec.ofNat 10 t.opens.length ∧
      w.extractLsb' 32 3 = BitVec.ofNat 3 t.sflags ∧ w.getLsbD 31 = false ∧ w.extractLsb' 35 29 = 0#29 := by
  have at_ : t.cut.getD 0 < 2 ^ 10 := by
    cases h : t.cut with
    | none => decide
    | some k => exact cut k h
  have one := t.cut.isSome.toNat_lt
  have zero : false.toNat = 0 := rfl
  rw [t.statusWord_eq]
  refine ⟨extractLsb'_ofNat_field (by decide) ?_, extractLsb'_ofNat_field (by decide) ?_, getLsbD_ofNat_bit (by decide) ?_,
    extractLsb'_ofNat_field (by decide) ?_, extractLsb'_ofNat_field (by decide) ?_, getLsbD_ofNat_bit (by decide) ?_,
    extractLsb'_ofNat_field (by decide) ?_⟩
  all_goals omega

theorem Tensor.patchWord_fields {t : Tensor} {p : PEnt} (pos : p.pos < 2 ^ 10) (kind : p.kind < 3) :
    let w := BitVec.ofNat 64 (t.patchWord p)
    w.extractLsb' 32 32 = BitVec.ofNat 32 p.slots.length ∧ w.getLsbD 17 = (p.closed && t.atCut p) ∧ w.getLsbD 16 = p.inv ∧
      w.getLsbD 15 = p.kept ∧ w.extractLsb' 13 2 = BitVec.ofNat 2 p.kind ∧
      w.extractLsb' 10 3 = (if p.closed then 2#3 else 1#3) ∧ w.extractLsb' 0 10 = BitVec.ofNat 10 p.pos := by
  have within := (p.closed && t.atCut p).toNat_lt
  have inv := p.inv.toNat_lt
  have kept := p.kept.toNat_lt
  have closed := p.closed.toNat_lt
  have state : (if p.closed then 2#3 else 1#3) = BitVec.ofNat 3 (p.closed.toNat + 1) := by
    cases p.closed <;> rfl
  rw [t.patchWord_eq, state]
  refine ⟨extractLsb'_ofNat_field (by decide) ?_, getLsbD_ofNat_bit (by decide) ?_, getLsbD_ofNat_bit (by decide) ?_,
    getLsbD_ofNat_bit (by decide) ?_, extractLsb'_ofNat_field (by decide) ?_, extractLsb'_ofNat_field (by decide) ?_,
    extractLsb'_ofNat_field (by decide) ?_⟩
  all_goals omega

/-- The word that pa.query gives for a name. -/
def Tensor.queryWord (t : Tensor) (name : Nat) : Word :=
  BitVec.ofNat 64 (if name = 0 then t.statusWord else match t.named name with | some p => t.patchWord p | none => 0)

/-! ### Values that come from the engine -/

/-- A value has been set under way by an instruction that holds queue D for the patch engine. -/
structure EngineAwaits (u t : State) (x : BitVec 6) (w : Word) : Prop where
  awaits : Stmt.awaits u.me.f t.me.f x w
  held : t.me.f.holdD = some .patch
  regs : t.me.r = u.me.r
  mem : t.mem = u.mem
  others : u.sameOthers t u.cur.seq

theorem State.engineAwaits_toEngine (u : State) (x : BitVec 6) (w : Word) :
    EngineAwaits u ((u.awaitS x w).setFlight { (u.awaitS x w).me.f with holdD := some .patch }).retire x w := by
  obtain ⟨regs, -, flight, mem, -, -, -, others⟩ := (u.awaitS x w).engineBusy_toEngine
  have me : (u.awaitS x w).me = _ := u.me_setFlight _
  refine ⟨?_, congrArg Flight.holdD flight, ?_, mem, (u.sameOthers_setMe _).trans others⟩
  · exact ⟨_, _, (congrArg Flight.outs flight).trans (congrArg (fun m => m.f.outs) me)⟩
  · rw [regs, me]

theorem paAwait_done {g : BitVec 7} {s u : State} (hg : s.guardOn g = true) {f : State → Try Word} {w : Word} (h : f s = .ok u w)
    (x : BitVec 6) : ∃ t, slotOp g s (fun s => paDo s (f s) fun s1 w => (s1.awaitS x w).toEngine) = .next t ∧ EngineAwaits u t x w :=
  ⟨_, by rw [slotOp_on hg, h]; rfl, u.engineAwaits_toEngine x w⟩

theorem exec_paQuery_awaits {g : BitVec 7} {s s1 : State} (hg : s.guardOn g = true) {y z : BitVec 6} {T : Tensor}
    (load : s.paLoad s.cur.seq (s.rs y) = .ok s1 T) (x : BitVec 6) :
    ∃ t, exec (.paQuery g x y z) s = .next t ∧ EngineAwaits s1 t x (T.queryWord ((s.rs z).toNat % 2 ^ 32)) := by
  rw [exec_paQuery]
  refine paAwait_done hg ?_ x
  rw [load]
  rfl

/-! ### pa.norm -/

section
variable {g : BitVec 7} {s s1 s2 s3 : State} (hg : s.guardOn g = true) {y : BitVec 6} {T : Tensor} {v l : Nat}
  (load : s.paLoad s.cur.seq (s.rs y) = .ok s1 T) (register : s1.paRead s.cur.seq false (T.normrec + 0x40#64) 48 = .ok s2 v)
  (latch : s2.paRead s.cur.seq false (T.normrec + 0x80#64) 32 = .ok s3 l) {f : BitVec 4} (x : BitVec 6)
include hg load register latch

theorem exec_paNorm_reads (field : f.toNat ≤ 5) : ∃ t, exec (.paNorm g x y f) s = .next t ∧ EngineAwaits s3 t x
    (if f.toNat < 4 then BitVec.ofNat 64 (l / 2 ^ (64 * f.toNat)) else if f.toNat = 4 then BitVec.ofNat 64 (v / 2 ^ 320)
      else BitVec.ofNat 64 (fp32F.enc (fp32F.cvt (.fin false l (-128)) .rne).1)) := by
  rw [exec_paNorm]
  refine paAwait_done hg ?_ x
  simp only [load, register, latch, Try.bind]
  split
  · rfl
  · split
    · rfl
    · rw [if_pos (show f.toNat = 5 by omega)]

/-- pa.norm.lat writes the latch and its flags; pa.norm.latclr clears the register after it. -/
theorem exec_paNorm_latches {s4 s5 s6 : State}
    (value : s3.paWrite s.cur.seq false (T.normrec + 0x80#64) (leBytes v 32) = .ok s4 ())
    (flags : s4.paWrite s.cur.seq false (T.normrec + 0x68#64) (leBytes (v / 2 ^ 256 % 2 ^ 64) 8) = .ok s5 ())
    (clear : s5.paWrite s.cur.seq false (T.normrec + 0x40#64) (leBytes 0 40) = .ok s6 ()) {u : State}
    (form : (f = 8#4 ∧ u = s5) ∨ (f = 9#4 ∧ u = s6)) :
    ∃ t, exec (.paNorm g x y f) s = .next t ∧ EngineAwaits u t x (BitVec.ofNat 64 (v / 2 ^ 256 % 2 ^ 64)) := by
  rw [exec_paNorm]
  refine paAwait_done hg ?_ x
  obtain ⟨rfl, rfl⟩ | ⟨rfl, rfl⟩ := form
  · have field : (8#4 : BitVec 4).toNat = 8 := rfl
    simp only [load, register, latch, value, flags, field, Try.bind, Nat.reduceLT, Nat.reduceEqDiff, if_false, -Nat.reducePow]
  · have field : (9#4 : BitVec 4).toNat = 9 := rfl
    simp only [load, register, latch, value, flags, clear, field, Try.bind, Nat.reduceLT, Nat.reduceEqDiff, if_false, if_true,
      -Nat.reducePow]

end

/-- Settles O39: each query sets its word under way, and the latching forms write the norm register's latch. -/
theorem patchQueriesReturnTheirWords : Obligations.PatchQueriesReturnTheirWords := by
  refine ⟨fun s s1 g x y z T hg load chain opens flags cut => ?_, fun s s1 s2 s3 g x y f T v l hg load register latch =>
    ⟨fun field => ?_, fun s4 s5 s6 value nflags clear u form => ?_⟩⟩
  · obtain ⟨t, next, sent⟩ := exec_paQuery_awaits hg load x
    rw [← BitVec.toNat_setWidth] at sent
    refine ⟨t, _, next, sent.awaits, sent.held, sent.regs, sent.mem, sent.others, fun zero => ?_, fun given unused => ?_,
      fun p given used pos kind _ => ?_⟩
    · rw [Tensor.queryWord, if_pos zero]
      exact Tensor.statusWord_fields chain opens flags cut
    · rw [Tensor.queryWord, if_neg given, unused]
    · rw [Tensor.queryWord, if_neg given, used]
      exact Tensor.patchWord_fields pos kind
  · obtain ⟨t, next, sent⟩ := exec_paNorm_reads hg load register latch x field
    exact ⟨t, next, sent.mem, sent.regs, sent.held, sent.others, sent.awaits⟩
  · obtain ⟨t, next, sent⟩ := exec_paNorm_latches hg load register latch x value nflags clear form
    exact ⟨t, next, sent.mem, sent.regs, sent.held, sent.others, sent.awaits⟩

end Sys2Proof.Machine
end

section
/-! PROOFS. Pennants (O18; spec/11 R242 to R248, R255, R257): what a pennant reads as once one has been set, adds at issue, and PENNANT_ADD. -/

namespace Sys2Proof

/-! ### Bytes read after a write -/

@[simp] theorem Mem.length_bytes (m : Mem) (a n : Nat) : (Mem.bytes m a n).length = n := by
  induction n generalizing a with
  | zero => rfl
  | succ n ih => rw [Mem.bytes, List.length_cons, ih]

theorem Mem.getElem_bytes (m : Mem) (a n : Nat) {i : Nat} (h : i < (Mem.bytes m a n).length) : (Mem.bytes m a n)[i] = Mem.get m (a + i) := by
  induction n generalizing a i with
  | zero => exact absurd h (Nat.not_lt_zero i)
  | succ n ih =>
    cases i with
    | zero => rfl
    | succ i => simp only [Mem.bytes, List.getElem_cons_succ, ih, Nat.add_assoc, Nat.add_comm 1]

/-- A range inside what was written reads as that part of it. -/
theorem Mem.bytes_write (m : Mem) (a i n : Nat) (bs : List Byte) (h : i + n ≤ bs.length) :
    Mem.bytes (Mem.write m a bs) (a + i) n = (bs.drop i).take n := by
  refine List.ext_getElem (by simp; omega) fun k hk _ => ?_
  rw [Mem.length_bytes] at hk
  rw [Mem.getElem_bytes, Nat.add_assoc, Mem.get_write_at _ _ _ _ (by omega), List.getElem_take, List.getElem_drop]

theorem leNat_leBytes (v n : Nat) : leNat (leBytes v n) = v % 256 ^ n := by
  induction n generalizing v with
  | zero => rw [leBytes, leNat, Nat.pow_zero, Nat.mod_one]
  | succ n ih =>
    calc leNat (leBytes v (n + 1)) = v % 256 + 256 * (v / 256 % 256 ^ n) := by
          rw [leBytes, leNat, ih, BitVec.toNat_ofNat]
      _ = v % 256 ^ (n + 1) := by rw [← Nat.mod_mul, Nat.pow_succ']

/-- Eight bytes that hold a word read as that word. -/
theorem ofNat_leNat_leBytes (w : Word) : BitVec.ofNat 64 (leNat (leBytes w.toNat 8)) = w := by
  rw [leNat_leBytes, Nat.mod_eq_of_lt (by have := w.isLt; omega), BitVec.ofNat_toNat, BitVec.setWidth_eq]

namespace Machine

/-! ### A pennant is set (spec/11 R242, R244) -/

theorem Pennant.word_eq_append (p : Pennant) :
    p.word = 0#48 ++ p.lcode ++ p.lsrc ++ 0#1 ++ 0#1 ++ BitVec.ofBool p.sat ++ BitVec.ofBool p.latch := by
  refine BitVec.eq_of_toNat_eq ?_
  have := p.lcode.isLt
  have := p.lsrc.isLt
  rw [Pennant.word, BitVec.toNat_ofNat]
  simp only [toNat_append_add]
  cases p.sat <;> cases p.latch <;> simp <;> omega

/-- The overflow area holds all of a pennant. -/
theorem Pennant.ofWords_word (p : Pennant) : Pennant.ofWords p.count p.word = p := by
  obtain ⟨count, latch, sat, lcode, lsrc⟩ := p
  have lcode_lt := lcode.isLt
  have lsrc_lt := lsrc.isLt
  have latch_lt := latch.toNat_lt
  have sat_lt := sat.toNat_lt
  simp only [Pennant.ofWords, Pennant.word, ite_eq_toNat_mul, Pennant.mk.injEq, true_and]
  refine ⟨getLsbD_ofNat_bit (by decide) (by omega), getLsbD_ofNat_bit (by decide) (by omega), ?_, ?_⟩
  · rw [extractLsb'_ofNat_field (v := lcode.toNat) (by decide) (by omega), BitVec.ofNat_toNat, BitVec.setWidth_eq]
  · rw [extractLsb'_ofNat_field (v := lsrc.toNat) (by decide) (by omega), BitVec.ofNat_toNat, BitVec.setWidth_eq]

/-- The overflow area and the waiters of every die stand. -/
theorem State.die_setPennant (s : State) (h : BitVec 32) (p : Pennant) (d : Nat) :
    ((s.setPennant h p).die d).ovf = (s.die d).ovf ∧ ((s.setPennant h p).die d).waiters = (s.die d).waiters := by
  unfold State.setPennant
  split
  · exact ⟨rfl, rfl⟩
  · rw [State.die_setDie]
    split
    · next same => rw [same]; exact ⟨rfl, rfl⟩
    · exact ⟨rfl, rfl⟩

theorem State.penAt_congr {s t : State} {h : BitVec 32} (ovf : (t.die (penDie h)).ovf = (s.die (penDie h)).ovf) :
    t.penAt h = s.penAt h := by
  rw [State.penAt, State.penAt, ovf]

theorem State.penAt_setPennant (s : State) (h : BitVec 32) (p : Pennant) (h' : BitVec 32) :
    (s.setPennant h p).penAt h' = s.penAt h' := State.penAt_congr (s.die_setPennant h p _).1

theorem State.pennant_sram {s : State} {h : BitVec 32} (sram : s.penAt h = none) :
    s.pennant h = Tab.getD (s.die (penDie h)).pen (penIdx h) {} := by
  rw [State.pennant, sram]

/-- The pennants of a die that stand in its SRAM, once one of them has been set. -/
theorem State.pen_setPennant {s : State} {h : BitVec 32} (sram : s.penAt h = none) (p : Pennant) (d i : Nat) :
    Tab.getD ((s.setPennant h p).die d).pen i {} =
      if d = penDie h ∧ i = penIdx h then p else Tab.getD (s.die d).pen i {} := by
  simp only [State.setPennant, sram, State.die_setDie]
  by_cases die : d = penDie h
  · subst die
    simp only [if_true, true_and]
    split
    · next zero => rw [Tab.getD_erase, zero]
    · rw [Tab.getD_put]
  · rw [if_neg die, if_neg fun here => die here.1]

theorem State.pennant_setPennant_same (s : State) (h : BitVec 32) (p : Pennant) : (s.setPennant h p).pennant h = p := by
  cases at_ : s.penAt h with
  | none => rw [State.pennant_sram (by rw [State.penAt_setPennant, at_]), State.pen_setPennant at_, if_pos ⟨rfl, rfl⟩]
  | some a =>
    have count := Mem.bytes_write s.mem.dram a 0 8 (leBytes p.count.toNat 8 ++ leBytes p.word.toNat 8) (by simp)
    have state := Mem.bytes_write s.mem.dram a 8 8 (leBytes p.count.toNat 8 ++ leBytes p.word.toNat 8) (by simp)
    rw [List.drop_zero, List.take_left' (length_leBytes ..), Nat.add_zero] at count
    rw [List.drop_left' (length_leBytes ..), List.take_of_length_le (by simp)] at state
    have mem : (s.setPennant h p).mem.dram = Mem.write s.mem.dram a (leBytes p.count.toNat 8 ++ leBytes p.word.toNat 8) := by
      simp only [State.setPennant, at_, State.setDram]
    rw [State.pennant, State.penAt_setPennant, at_]
    simp only [mem, Mem.word, count, state, ofNat_leNat_leBytes, Pennant.ofWords_word]

theorem handle_ext {h h' : BitVec 32} (die : penDie h' = penDie h) (idx : penIdx h' = penIdx h) : h' = h := by
  unfold penDie at die
  unfold penIdx at idx
  exact BitVec.eq_of_toNat_eq (by omega)

/-- A pennant set in SRAM leaves memory. -/
theorem State.setPennant_mem {s : State} {h : BitVec 32} (sram : s.penAt h = none) (p : Pennant) : (s.setPennant h p).mem = s.mem := by
  simp only [State.setPennant, sram, State.setDie_mem]

/-- A pennant set in SRAM leaves every other pennant. -/
theorem State.pennant_setPennant_other {s : State} {h : BitVec 32} (sram : s.penAt h = none) (p : Pennant) {h' : BitVec 32}
    (ne : h' ≠ h) : (s.setPennant h p).pennant h' = s.pennant h' := by
  rw [State.pennant, State.pennant, State.penAt_setPennant, State.setPennant_mem sram, State.pen_setPennant sram,
    if_neg fun same => ne (handle_ext same.1 same.2)]

/-- A pennant set in an overflow area changes its own sixteen bytes. -/
theorem State.setPennant_overflow {s : State} {h : BitVec 32} {a : Nat} (at_ : s.penAt h = some a) (p : Pennant) :
    (s.setPennant h p).dies = s.dies ∧
      ∀ n, n < a ∨ a + 16 ≤ n → Mem.get (s.setPennant h p).mem.dram n = Mem.get s.mem.dram n := by
  simp only [State.setPennant, at_, State.setDram_dies, true_and]
  exact fun n outside => Mem.get_write_other _ _ _ _ (by simpa using outside)

/-- A pennant depends on its die's pennants and overflow area, and on DRAM. -/
theorem State.pennant_congr {s t : State} {h : BitVec 32} (pen : (t.die (penDie h)).pen = (s.die (penDie h)).pen)
    (ovf : (t.die (penDie h)).ovf = (s.die (penDie h)).ovf) (mem : t.mem = s.mem) : t.pennant h = s.pennant h := by
  rw [State.pennant, State.pennant, State.penAt_congr ovf, pen, mem]

/-- The cursor of R255 with its k one higher. -/
def cursorNext (c : Word) : Word := (c &&& ~~~ 0x1FFFFFFFFFFF#64) ||| ((cursorK c + 1#64) &&& 0x1FFFFFFFFFFF#64)

/-! ### Adds at issue (spec/11 R248, R255) -/

/-- An add that is queued takes one entry of the store queue. -/
theorem State.issuedWith_queueAdd (s : State) (h : BitVec 32) (v : Word) (clr : Bool) :
    Stmt.issuedWith s (s.queueAdd h v clr).retire s.me.r
      { s.me.f with storeB := s.me.f.storeB ++ [Stmt.addEntry s h v clr] } :=
  s.issuedWith_setFlight rfl

/-- A register other than s0 that an instruction has written. -/
theorem State.rs_ws_retire (s : State) {x : BitVec 6} (hx : x ≠ 0#6) (w : Word) : (s.ws x w).retire.rs x = w := by
  rw [State.rs, State.me_retire, Seq.retire_r, State.me_ws, Regs.getS_setS, if_pos rfl, if_neg hx]

section
variable {s : State} {g : BitVec 7} (hg : s.guardOn g = true)
include hg

theorem exec_pnAdd_queues {y : BitVec 6} (ok : s.penOk (s.ctxOf s.cur.seq) ((s.rs y).setWidth 32) = true)
    (room : s.fullB = false) (clr : BitVec 1) (z : BitVec 6) :
    exec (.pnAdd g clr none y z) s = .next (s.queueAdd ((s.rs y).setWidth 32) (s.rs z) (clr == 1#1)).retire := by
  rw [exec_pnAdd, execPnAdd, slotOp_on hg]
  simp only [ok, room, Bool.not_true, Bool.false_eq_true, if_false]
  rfl

theorem exec_pnAdd_releases {y : BitVec 6} (ok : s.penOk (s.ctxOf s.cur.seq) ((s.rs y).setWidth 32) = true)
    (room : s.fullB = false) {sc : Scope} {s1 : State} (released : s.releaseHal sc = .ok s1 ()) (clr : BitVec 1) (z : BitVec 6) :
    exec (.pnAdd g clr (some sc) y z) s = .next (s1.queueAdd ((s.rs y).setWidth 32) (s1.rs z) (clr == 1#1)).retire := by
  rw [exec_pnAdd, execPnAdd, slotOp_on hg]
  simp only [ok, room, released, Bool.not_true, Bool.false_eq_true, if_false]
  rfl

theorem exec_rbRelease_queues {y z : BitVec 6} {sc : Scope} (scope : scopeOf ((s.rs z).extractLsb' 45 3) = some sc)
    (ok : s.penOk (s.ctxOf s.cur.seq) ((s.rs y).extractLsb' 32 32) = true) (room : s.fullB = false) {s1 : State}
    (released : s.releaseHal sc = .ok s1 ()) (x : BitVec 6) : exec (.rbRelease g x y z) s = .next
      ((s1.queueAdd ((s.rs y).extractLsb' 32 32) 1#64 false).ws x
        (cursorNext (s.rs z))).retire := by
  rw [exec_rbRelease, execRbRelease, slotOp_on hg]
  simp only [cursorScope, scope, ok, room, released, Bool.not_true, Bool.false_eq_true, if_false]
  rfl

end

/-- The mask of k in a cursor. -/
theorem getLsbD_cursorMask {i : Nat} (hi : i < 64) : (0x1FFFFFFFFFFF#64).getLsbD i = decide (i < 45) := by
  rw [show (0x1FFFFFFFFFFF#64 : Word) = (BitVec.allOnes 45).setWidth 64 from rfl, BitVec.getLsbD_setWidth, BitVec.getLsbD_allOnes,
    decide_eq_true hi, Bool.true_and]

/-- Its other fields stand, and k wraps within its 45 bits. -/
theorem cursorNext_fields (c : Word) : (cursorNext c).extractLsb' 45 19 = c.extractLsb' 45 19 ∧
    (cursorNext c).extractLsb' 0 45 = c.extractLsb' 0 45 + 1#45 := by
  have low : ∀ x : Word, x.extractLsb' 0 45 = x.setWidth 45 := fun x => (BitVec.setWidth_eq_extractLsb' (by decide)).symm
  have masked : (cursorK c).setWidth 45 = c.setWidth 45 := by
    refine BitVec.eq_of_getLsbD_eq fun i hi => ?_
    rw [cursorK, BitVec.getLsbD_setWidth, BitVec.getLsbD_setWidth, BitVec.getLsbD_and, getLsbD_cursorMask (by omega), decide_eq_true hi,
      Bool.and_true]
  refine ⟨?_, ?_⟩
  · refine BitVec.eq_of_getLsbD_eq fun i hi => ?_
    have high := decide_eq_false (show ¬ 45 + i < 45 by omega)
    have within := decide_eq_true (show 45 + i < 64 by omega)
    simp only [cursorNext, BitVec.getLsbD_extractLsb', BitVec.getLsbD_or, BitVec.getLsbD_and, BitVec.getLsbD_not,
      getLsbD_cursorMask (show 45 + i < 64 by omega), high, within, Bool.not_false, Bool.and_true, Bool.and_false, Bool.or_false]
  · rw [low, low, ← masked]
    trans (cursorK c + 1#64).setWidth 45
    · refine BitVec.eq_of_getLsbD_eq fun i hi => ?_
      rw [cursorNext, BitVec.getLsbD_setWidth, BitVec.getLsbD_setWidth, BitVec.getLsbD_or, BitVec.getLsbD_and, BitVec.getLsbD_and,
        BitVec.getLsbD_not, getLsbD_cursorMask (by omega), decide_eq_true hi]
      simp
    · rw [BitVec.setWidth_add _ _ (by decide)]
      rfl

/-! ### PENNANT_ADD (spec/11 R245, R252) -/

theorem Pennant.add_fits {p : Pennant} {v : Word} (fits : p.count.toNat + v.toNat < 2 ^ 64) (clr : Bool) :
    (p.add v clr).count = p.count + v ∧ (p.add v clr).sat = p.sat := by
  cases clr <;> simp only [Pennant.add, fits, if_true, Bool.false_eq_true, if_false, and_self]

theorem Pennant.add_clips {p : Pennant} {v : Word} (clips : 2 ^ 64 ≤ p.count.toNat + v.toNat) (clr : Bool) :
    (p.add v clr).count = BitVec.allOnes 64 ∧ (p.add v clr).sat = true := by
  cases clr <;> simp only [Pennant.add, Nat.not_lt.mpr clips, if_true, Bool.false_eq_true, if_false, and_self]

/-- The latch, its code and its source are cleared on request, and stand otherwise. -/
theorem Pennant.add_latch (p : Pennant) (v : Word) (clr : Bool) : (p.add v clr).latch = (p.latch && !clr) ∧
    (p.add v clr).lcode = (if clr then 0#8 else p.lcode) ∧ (p.add v clr).lsrc = if clr then 0#4 else p.lsrc := by
  by_cases fits : p.count.toNat + v.toNat < 2 ^ 64 <;> cases clr <;>
    simp only [Pennant.add, fits, if_true, if_false, Bool.false_eq_true, Bool.not_false, Bool.not_true, Bool.and_true, Bool.and_false,
      and_self]

/-- A registered waiter that an add has satisfied is woken. -/
theorem State.mem_wakeEvents {s : State} {q : Nat} {hb : HoldB} {a : Ask} (registered : q ∈ (s.die (penDie a.h)).waiters)
    (held : (s.seq q).f.holdB = some hb) (what : hb.what = .wait a true) (met : s.askMet a = true) :
    .waiterWake q ∈ s.wakeEvents a.h := by
  refine List.mem_filterMap.mpr ⟨q, registered, ?_⟩
  simp only [held, what, met, decide_true, Bool.and_true, if_true]

theorem exec_pennantAdd_first {s : State} {k : Nat} {e : HalEnt} {h : BitVec 32} {v : Word} {clr : Bool}
    (found : s.hal.find? (fun e => e.k == k) = some e) (op : e.op = .add h v clr) (first : s.earlierHal e = none) :
    exec (.pennantAdd k) s = .next ((s.dropHal k).addPennant h v clr) := by
  simp only [exec_pennantAdd, execPennantAdd, State.runHal, found, first, op]

theorem State.pennant_dropHal (s : State) (k : Nat) (h : BitVec 32) : (s.dropHal k).pennant h = s.pennant h := rfl

theorem State.pennant_addPennant_same (s : State) (h : BitVec 32) (v : Word) (clr : Bool) :
    (s.addPennant h v clr).pennant h = (s.pennant h).add v clr := s.pennant_setPennant_same h _

/-- A registered waiter whose target the new count has reached is woken by the add. -/
theorem State.addPennant_wakes {s : State} {q : Nat} {hb : HoldB} {a : Ask} {v : Word} {clr : Bool}
    (registered : q ∈ (s.die (penDie a.h)).waiters) (held : (s.seq q).f.holdB = some hb) (what : hb.what = .wait a true)
    (reached : a.target.toNat ≤ ((s.addPennant a.h v clr).pennant a.h).count.toNat) :
    .waiterWake q ∈ (s.addPennant a.h v clr).agenda := by
  refine List.mem_append_right _ (State.mem_wakeEvents (hb := hb) ?_ ?_ what ?_)
  · rwa [(s.die_setPennant a.h _ _).2]
  · rwa [State.seq, State.setPennant_seqs]
  · exact Bool.or_eq_true_iff.mpr (.inr (by rw [BitVec.ule]; exact decide_eq_true reached))

/-- Settles O18: an add at issue is one entry of the store queue, rb.release writes its cursor besides, and PENNANT_ADD sets one pennant. -/
theorem pennantAddsSaturate : Obligations.PennantAddsSaturate := by
  refine ⟨fun s g clr y z hg ok room => ⟨?_, fun sc s1 released => ?_⟩, fun s g x y z sc s1 hg scope ok room released => ?_,
    fun s k e h v clr found op first => ?_⟩
  · exact ⟨_, exec_pnAdd_queues hg ok room clr z, s.issuedWith_queueAdd .., s.sameOthers_setMe_retire _,
      s.sameModule_setMe_retire _⟩
  · exact ⟨_, exec_pnAdd_releases hg ok room released clr z, s1.issuedWith_queueAdd .., s1.sameOthers_setMe_retire _,
      s1.sameModule_setMe_retire _⟩
  · have me := s1.me_setFlight_ws_retire { s1.me.f with
      storeB := s1.me.f.storeB ++ [Stmt.addEntry s1 ((s.rs y).extractLsb' 32 32) 1#64 false] } x
      (cursorNext (s.rs z))
    refine ⟨_, exec_rbRelease_queues hg scope ok room released x, congrArg (·.f.storeB) me, ?_,
      s1.sameOthers_setFlight_ws_retire _ _ _, s1.sameModule_setFlight_ws_retire _ _ _, fun hx => ?_⟩
    · exact (congrArg Seq.r me) ▸ s1.me.r.sameBut_setS x _
    · rw [State.rs_ws_retire _ hx]
      exact cursorNext_fields _
  · have same := (s.dropHal k).pennant_addPennant_same h v clr
    rw [State.pennant_dropHal] at same
    refine ⟨_, exec_pennantAdd_first found op first, State.setPennant_hal .., ?_⟩
    rw [same]
    refine ⟨fun fits => Pennant.add_fits fits clr, fun clips => Pennant.add_clips clips clr, (Pennant.add_latch ..).1,
      (Pennant.add_latch ..).2.1, (Pennant.add_latch ..).2.2, fun sram => ⟨?_, fun h' ne => ?_⟩,
      fun a at_ => State.setPennant_overflow (s := s.dropHal k) at_ _, State.setPennant_seqs .., State.setPennant_cores ..,
      State.setPennant_clusters .., fun q hb a registered held what same_ reached => ?_⟩
    · exact State.setPennant_mem (s := s.dropHal k) sram _
    · exact State.pennant_setPennant_other (s := s.dropHal k) sram _ ne
    · subst same_
      exact State.addPennant_wakes (s := s.dropHal k) registered held what (by rw [State.pennant_addPennant_same]; exact reached)

end Machine
end Sys2Proof
end

section
/-! PROOFS. Pennants (O19, O20; spec/11 R249 to R252, R254 to R256): reads and tests at issue, their answers, and waits. -/

namespace Sys2Proof
namespace Machine

/-! ### Reads and tests at issue (spec/11 R250, R251) -/

theorem State.issuedWith_ask (s : State) (a : Answer) :
    Stmt.issuedWith s (s.ask a).retire s.me.r { s.me.f with asks := s.me.f.asks ++ [a] } := s.issuedWith_setFlight rfl

/-- The state word of R244 of a pennant held in SRAM: res is set. -/
theorem State.penWord_sram (s : State) {h : BitVec 32} (sram : h.toNat % 2 ^ 28 < 65536) : s.penWord h =
    0#48 ++ (s.pennant h).lcode ++ (s.pennant h).lsrc ++ 1#1 ++ 0#1 ++ BitVec.ofBool (s.pennant h).sat ++
      BitVec.ofBool (s.pennant h).latch := by
  have res : ∀ (c : BitVec 8) (l : BitVec 4) (a b : Bool),
      (0#48 ++ c ++ l ++ 0#1 ++ 0#1 ++ BitVec.ofBool a ++ BitVec.ofBool b ||| 8#64 : Word) =
        0#48 ++ c ++ l ++ 1#1 ++ 0#1 ++ BitVec.ofBool a ++ BitVec.ofBool b := by
    intro c l a b
    have parts : (0#48 ++ c ++ l ++ 0#1 ++ 0#1 ++ BitVec.ofBool a ++ BitVec.ofBool b) |||
        (0#48 ++ 0#8 ++ 0#4 ++ 1#1 ++ 0#1 ++ 0#1 ++ 0#1) = 0#48 ++ c ++ l ++ 1#1 ++ 0#1 ++ BitVec.ofBool a ++ BitVec.ofBool b := by
      simp only [BitVec.or_append, BitVec.or_zero, BitVec.zero_or]
    exact parts
  rw [State.penWord, penIdx, decide_eq_true sram]
  simp only [Bool.true_or, if_true, Pennant.word_eq_append, res]

section
variable {s : State} {g : BitVec 7} {y : BitVec 6} (hg : s.guardOn g = true)
  (ok : s.penOk (s.ctxOf s.cur.seq) ((s.rs y).setWidth 32) = true) (clear : s.earlierHalEvents = [])
include hg ok clear

theorem exec_pnRead_asks (x : BitVec 6) (st : BitVec 1) : exec (.pnRead g x y st) s = .next (s.ask (.reg x
    (if st = 1#1 then s.penWord ((s.rs y).setWidth 32) else (s.pennant ((s.rs y).setWidth 32)).count))).retire := by
  rw [exec_pnRead, execPnRead, slotOp_on hg]
  simp only [ok, clear, List.isEmpty_nil, Bool.not_true, Bool.false_eq_true, if_false]
  rfl

theorem exec_pnTest_asks {n : BitVec 7} (free : ¬((s.pennant ((s.rs y).setWidth 32)).latch = true ∧ n = 0#7)) (pair z : BitVec 6) :
    exec (.pnTest g pair y z n) s = .next (s.ask (.pair pair (!(s.pennant ((s.rs y).setWidth 32)).latch &&
      decide ((s.rs z).toNat ≤ (s.pennant ((s.rs y).setWidth 32)).count.toNat)) n
      (!(s.pennant ((s.rs y).setWidth 32)).latch))).retire := by
  have untrapped : ((s.pennant ((s.rs y).setWidth 32)).latch && n == 0#7) = false := by simpa using free
  rw [exec_pnTest, execPnTest, slotOp_on hg]
  simp only [ok, clear, untrapped, List.isEmpty_nil, Bool.not_true, Bool.false_eq_true, if_false]
  rfl

theorem exec_pnTest_traps (latched : (s.pennant ((s.rs y).setWidth 32)).latch = true) (pair z : BitVec 6) :
    exec (.pnTest g pair y z 0#7) s = s.raise (s.latchTrap ((s.rs y).setWidth 32) (s.rs z)) := by
  rw [exec_pnTest, execPnTest, slotOp_on hg]
  simp only [ok, clear, latched, List.isEmpty_nil, Bool.not_true, Bool.false_eq_true, if_false, beq_self_eq_true, Bool.and_self,
    if_true]
  rfl

end

/-! ### Answers (spec/03 R64, spec/11 R250) -/

/-- A pair and a status predicate that have been answered. -/
def Regs.answered (r : Regs) (p : BitVec 6) (reached : Bool) (n : BitVec 7) (met : Bool) : Regs :=
  ((r.setP (pairLo p) (allIf reached)).setP (pairHi p) (allIf (!reached))).setP n (allIf met)

theorem Regs.setP_zero (r : Regs) (x : BitVec 32) : r.setP 0#7 x = r := if_pos rfl

theorem exec_pennantValueReturn_reg {s : State} {q : Nat} {d : BitVec 6} {w : Word} {rest : List Answer}
    (h : (s.seq q).f.asks = .reg d w :: rest) : exec (.pennantValueReturn q) s =
      .next (s.setSeq q { s.seq q with r := (s.seq q).r.setS d w, f := { (s.seq q).f with asks := rest } }) := by
  simp only [exec_pennantValueReturn, execPennantValueReturn, h]

theorem exec_pennantValueReturn_pair {s : State} {q : Nat} {p : BitVec 6} {reached met : Bool} {n : BitVec 7} {rest : List Answer}
    (h : (s.seq q).f.asks = .pair p reached n met :: rest) : exec (.pennantValueReturn q) s =
      .next (s.setSeq q { s.seq q with
        r := (s.seq q).r.answered p reached n met, f := { (s.seq q).f with asks := rest } }) := by
  rw [exec_pennantValueReturn, execPennantValueReturn]
  simp only [h]
  by_cases hn : n = 0#7
  · rw [if_pos hn, Regs.answered, hn, Regs.setP_zero]
  · rw [if_neg hn]
    rfl

theorem Regs.sameBut_answered (r : Regs) (p : BitVec 6) (reached : Bool) (n : BitVec 7) (met : Bool) :
    r.sameBut (r.answered p reached n met) [] [pairLo p, pairHi p, n] [] [] :=
  ((r.sameBut_setP_setP _ _ _ _).mono (List.Subset.refl _) (by simp) (List.Subset.refl _) (List.Subset.refl _)).trans
    ((Regs.sameBut_setP _ n _).mono (List.Subset.refl _) (by simp) (List.Subset.refl _) (List.Subset.refl _))

theorem Regs.getP_answered (r : Regs) {p : BitVec 6} {n : BitVec 7} (lo : n ≠ pairLo p ∨ n = 0#7) (hi : n ≠ pairHi p)
    (reached met : Bool) : (r.answered p reached n met).getP (pairLo p) = (if p = 0#6 ∨ reached = true then 0xFFFFFFFF#32 else 0#32) ∧
      (r.answered p reached n met).getP (pairHi p) = (if reached then 0#32 else 0xFFFFFFFF#32) ∧
      (n ≠ 0#7 → (r.answered p reached n met).getP n = if met then 0xFFFFFFFF#32 else 0#32) := by
  refine ⟨?_, ?_, fun hn => ?_⟩
  · have kept : pairLo p = n → p = 0#6 := fun same => (pairLo_eq_zero p).mp (same.trans (lo.resolve_left fun ne => ne same.symm))
    rw [Regs.answered, Regs.getP_setP, Regs.getP_setP, if_neg (pairLo_ne_pairHi p), Regs.getP_setP, if_pos rfl]
    simp only [pairLo_eq_zero]
    split
    · next same => rw [if_pos (same.symm.trans ((pairLo_eq_zero p).mpr (kept same))), if_pos (Or.inl (kept same))]
    · cases reached <;> simp [allIf]
  · rw [Regs.answered, Regs.getP_setP, if_neg hi.symm, Regs.getP_setP, if_pos rfl, if_neg (pairHi_ne_zero p)]
    cases reached <;> rfl
  · rw [Regs.answered, Regs.getP_setP, if_pos rfl, if_neg hn]
    cases met <;> rfl

/-- Settles O19: a read or a test is one answer under way, and the answer writes its registers. -/
theorem pennantReadsAnswer : Obligations.PennantReadsAnswer := by
  refine ⟨fun s g y hg ok clear => ⟨fun x => ?_, fun x sram => ?_, fun pair z n free => ?_, fun pair z latched => ?_⟩,
    fun s q d w rest h => ?_, fun s q p reached met n rest h lo hi => ?_⟩
  · exact ⟨_, exec_pnRead_asks hg ok clear x 0#1, s.issuedWith_ask _, s.sameOthers_setMe_retire _, s.sameModule_setMe_retire _⟩
  · exact ⟨_, _, exec_pnRead_asks hg ok clear x 1#1, s.issuedWith_ask _, s.sameOthers_setMe_retire _, s.sameModule_setMe_retire _,
      s.penWord_sram sram⟩
  · exact ⟨_, exec_pnTest_asks hg ok clear free pair z, s.issuedWith_ask _, s.sameOthers_setMe_retire _,
      s.sameModule_setMe_retire _⟩
  · exact ⟨_, rfl, rfl, rfl, rfl, exec_pnTest_traps hg ok clear latched pair z⟩
  · refine ⟨_, exec_pennantValueReturn_reg h, ?_⟩
    rw [State.seq_setSeq_same]
    exact ⟨(s.seq q).r.sameBut_setS d w, by rw [Regs.getS_setS, if_pos rfl], rfl, rfl, fun p hp => State.seq_setSeq_other s _ hp,
      s.sameModule_setSeq q _⟩
  · obtain ⟨low, high, status⟩ := (s.seq q).r.getP_answered lo hi reached met
    refine ⟨_, exec_pennantValueReturn_pair h, ?_⟩
    rw [State.seq_setSeq_same]
    exact ⟨(s.seq q).r.sameBut_answered p reached n met, low, high, status, rfl, rfl, fun p hp => State.seq_setSeq_other s _ hp,
      s.sameModule_setSeq q _⟩

/-! ### Waits at issue (spec/11 R249, R256) -/

theorem holdWait_holds {s : State} {a : Ask} (ok : s.penOk (s.ctxOf s.cur.seq) a.h = true) (clear : s.earlierHalEvents = []) :
    s.holdWait a = .hold (s.setFlight { s.me.f with
      holdB := some { bn := s.cur.bn, addr := s.cur.addr, what := .wait a false } }) := by
  simp only [State.holdWait, ok, clear, List.isEmpty_nil, Bool.not_true, Bool.false_eq_true, if_false]

/-- The fields of a cursor word as R255 lays them out. -/
theorem cursorK_eq (c : Word) : cursorK c = (c.extractLsb' 0 45).setWidth 64 := by
  refine BitVec.eq_of_getLsbD_eq fun i hi => ?_
  rw [cursorK, BitVec.getLsbD_and, getLsbD_cursorMask hi, BitVec.getLsbD_setWidth, BitVec.getLsbD_extractLsb', decide_eq_true hi,
    Nat.zero_add, Bool.true_and, Bool.and_comm]

theorem cursorSlots_eq (c : Word) : cursorSlots c = (c.extractLsb' 48 16).toNat + 1 := by
  have := c.isLt
  rw [cursorSlots, BitVec.extractLsb'_toNat, Nat.shiftRight_eq_div_pow, Nat.mod_eq_of_lt (by omega)]

theorem exec_of_askOf {s : State} {i : Instr} {g : BitVec 7} {a : Ask} (form : Stmt.askOf s i = some (g, a))
    (hg : s.guardOn g = true) : exec i s = (s.holdWait a).finish := by
  unfold Stmt.askOf at form
  split at form
  · next g' acq y z n =>
    obtain ⟨rfl, rfl⟩ := Prod.mk.inj (Option.some.inj form)
    rw [exec_pnWait, execPnWait, slotOp_on hg]
  · next g' x y z n =>
    split at form
    · next sc scope =>
      obtain ⟨rfl, rfl⟩ := Prod.mk.inj (Option.some.inj form)
      rw [exec_rbAwait, execRbAwait, slotOp_on hg]
      simp only [cursorScope, scope, cursorK_eq, cursorSlots_eq]
    · cases form
  · cases form

/-! ### The answer of a wait (spec/11 R249, R252) -/

/-- A sequencer is no longer among the waiters of a pennant's die. -/
def State.unregister (s : State) (q : Nat) (h : BitVec 32) : State :=
  s.setDie (penDie h) { s.die (penDie h) with waiters := (s.die (penDie h)).waiters.filter (· != q) }

/-- A sequencer is among the waiters of a pennant's die. -/
def State.register (s : State) (q : Nat) (h : BitVec 32) : State :=
  s.setDie (penDie h) { s.die (penDie h) with waiters := q :: (s.die (penDie h)).waiters }

theorem State.mem_register (s : State) (q : Nat) (h : BitVec 32) : q ∈ ((s.register q h).die (penDie h)).waiters := by
  rw [State.register, State.die_setDie_same]
  exact List.mem_cons_self

/-- The registers once a wait is over: the status, and rb.await's slot. -/
def Regs.waited (a : Ask) (r : Regs) : Regs :=
  a.slot.elim (if a.n = 0#7 then r else r.setP a.n 0xFFFFFFFF#32) fun d =>
    (if a.n = 0#7 then r else r.setP a.n 0xFFFFFFFF#32).setS d.1 d.2

/-- A wait whose hold has ended, with its registers changed. -/
def State.answered (s : State) (q : Nat) (hb : HoldB) (a : Ask) (f : Regs → Regs) : State :=
  let u := (s.unregister q a.h).endHold q hb.bn
  u.setSeq q { u.seq q with r := f (u.seq q).r }

theorem State.pennant_unregister (s : State) (q : Nat) (h : BitVec 32) : (s.unregister q h).pennant h = s.pennant h :=
  State.pennant_congr (by rw [State.unregister, State.die_setDie_same]) (by rw [State.unregister, State.die_setDie_same]) rfl

theorem State.seq_unregister_endHold (s : State) (q : Nat) (h : BitVec 32) (bn : Nat) :
    ((s.unregister q h).endHold q bn).seq q = Seq.retire { s.seq q with f := { (s.seq q).f with holdB := none } } bn 1 1 :=
  State.seq_endHold ..

theorem State.seq_answered (s : State) (q : Nat) (hb : HoldB) (a : Ask) (f : Regs → Regs) : (s.answered q hb a f).seq q =
    Seq.retire { s.seq q with r := f (s.seq q).r, f := { (s.seq q).f with holdB := none } } hb.bn 1 1 := by
  rw [State.answered, State.seq_setSeq_same, State.seq_unregister_endHold]
  rfl

theorem State.sameOthers_answered (s : State) (q : Nat) (hb : HoldB) (a : Ask) (f : Regs → Regs) : s.sameOthers (s.answered q hb a f) q :=
  fun _ hp => (State.seq_setSeq_other _ _ hp).trans (State.seq_setSeq_other (s.unregister q a.h) _ hp)

section
variable {s : State} {q : Nat} {hb : HoldB} {a : Ask}

theorem State.answerWait_reached (free : (s.pennant a.h).latch = false) (reached : a.target.toNat ≤ (s.pennant a.h).count.toNat) :
    s.answerWait q hb a = .next (a.acq.elim (s.answered q hb a (Regs.waited a))
      ((s.answered q hb a (Regs.waited a)).bump (coreOf q))) := by
  have met : s.askMet a = true := Bool.or_eq_true_iff.mpr (.inr (decide_eq_true reached))
  have free0 : ¬ ((s.unregister q a.h).pennant a.h).latch = true := by rw [State.pennant_unregister, free]; exact Bool.false_ne_true
  unfold State.answerWait
  rw [if_pos met]
  refine (if_neg free0).trans ?_
  rw [State.answered]
  unfold Regs.waited
  cases a.slot <;> cases a.acq <;> rfl

theorem State.answerWait_latched (latched : (s.pennant a.h).latch = true) (status : a.n ≠ 0#7) :
    s.answerWait q hb a = .next (s.answered q hb a fun r => r.setP a.n 0#32) := by
  have met : s.askMet a = true := Bool.or_eq_true_iff.mpr (.inl latched)
  have latched0 : ((s.unregister q a.h).pennant a.h).latch = true := by rw [State.pennant_unregister, latched]
  unfold State.answerWait
  rw [if_pos met]
  exact (if_pos latched0).trans (if_neg status)

/-- Queue B is freed for the trap of a latch. -/
def State.heldTrap (s : State) (q : Nat) (hb : HoldB) (a : Ask) : State :=
  { (s.unregister q a.h).setSeq q { s.seq q with f := { (s.seq q).f with holdB := none } } with
    cur := { seq := q, slot := 1, bn := hb.bn, addr := hb.addr } }

theorem State.answerWait_traps (latched : (s.pennant a.h).latch = true) (bare : a.n = 0#7) :
    s.answerWait q hb a = (s.heldTrap q hb a).raise ((s.unregister q a.h).latchTrap a.h a.target) := by
  have met : s.askMet a = true := Bool.or_eq_true_iff.mpr (.inl latched)
  have latched0 : ((s.unregister q a.h).pennant a.h).latch = true := by rw [State.pennant_unregister, latched]
  unfold State.answerWait
  rw [if_pos met]
  exact (if_pos latched0).trans (if_pos bare)

theorem State.answerWait_registers (free : (s.pennant a.h).latch = false) (below : (s.pennant a.h).count.toNat < a.target.toNat)
    (new : q ∉ (s.die (penDie a.h)).waiters) (room : (s.die (penDie a.h)).waiters.length < 4096) :
    s.answerWait q hb a = .next ((s.register q a.h).setSeq q { s.seq q with
        f := { (s.seq q).f with holdB := some { hb with what := .wait a true } } }) := by
  have unmet : s.askMet a = false := by
    rw [State.askMet, free, Bool.false_or]
    exact decide_eq_false (by omega)
  unfold State.answerWait
  rw [if_neg (by rw [unmet]; exact Bool.false_ne_true), if_neg (by simpa using new), if_pos room]
  rfl

end

theorem Regs.getP_waited (r : Regs) (a : Ask) (hn : a.n ≠ 0#7) : (Regs.waited a r).getP a.n = 0xFFFFFFFF#32 := by
  unfold Regs.waited
  rw [if_neg hn]
  cases a.slot with
  | none => rw [Option.elim_none, Regs.getP_setP, if_pos rfl, if_neg hn]
  | some d => rw [Option.elim_some, Regs.getP_setS, Regs.getP_setP, if_pos rfl, if_neg hn]

theorem Regs.getS_waited (r : Regs) {a : Ask} {d : BitVec 6} {w : Word} (slot : a.slot = some (d, w)) :
    (Regs.waited a r).getS d = if d = 0#6 then 0#64 else w := by
  rw [Regs.waited, slot, Option.elim_some, Regs.getS_setS, if_pos rfl]

theorem Regs.sameBut_waited (r : Regs) (a : Ask) : r.sameBut (Regs.waited a r) (a.slot.toList.map fun d => d.1) [a.n] [] [] := by
  have status : r.sameBut (if a.n = 0#7 then r else r.setP a.n 0xFFFFFFFF#32) [] [a.n] [] [] := by
    split
    · exact r.sameBut_refl _ _ _ _
    · exact r.sameBut_setP _ _
  unfold Regs.waited
  cases a.slot with
  | none => exact status
  | some d =>
    exact (status.mono (List.nil_subset _) (List.Subset.refl _) (List.Subset.refl _) (List.Subset.refl _)).trans
      ((Regs.sameBut_setS _ d.1 d.2).mono (List.Subset.refl _) (List.nil_subset _) (List.Subset.refl _) (List.Subset.refl _))

theorem Seq.waiting_of {x : Seq} {hb : HoldB} {a : Ask} {b : Bool} (held : x.f.holdB = some hb) (what : hb.what = .wait a b) :
    x.waiting = some (hb, a) := by
  simp only [Seq.waiting, held, what]

/-- The three steps that answer a held wait; a wake does so only when the wait is over. -/
theorem exec_answers {s : State} {q : Nat} {hb : HoldB} {a : Ask} (waiting : (s.seq q).waiting = some (hb, a))
    (asks : (s.seq q).f.asks = []) {i : Instr} (step : i ∈ [Instr.pennantValueReturn q, Instr.waiterWake q, Instr.waiterPoll q])
    (ended : i = .waiterWake q → s.askMet a = true) : exec i s = s.answerWait q hb a := by
  simp only [List.mem_cons, List.not_mem_nil, or_false] at step
  rcases step with rfl | rfl | rfl
  · simp only [exec_pennantValueReturn, execPennantValueReturn, asks, waiting]
  · simp only [exec_waiterWake, execWaiterWake, waiting, ended, if_true]
  · simp only [exec_waiterPoll, execWaiterPoll, waiting]

/-- An acquire moves the core's generations only. -/
theorem State.acquire_frame (s : State) (c : Nat) (acq : Option Scope) : (acq.elim s (s.bump c)).seqs = s.seqs := by
  cases acq with
  | none => rfl
  | some sc => exact (s.bump_frame c sc).1

/-- Settles O20: a wait holds queue B, and its answer ends it, traps it, or registers it. -/
theorem waitsHoldUntilReached : Obligations.WaitsHoldUntilReached := by
  refine ⟨fun i s g a form hg ok clear => ?_, fun s q hb a b i held what asks step =>
    ⟨fun free reached => ?_, fun latched status => ?_, fun latched bare => ?_, fun free below other new room => ?_⟩⟩
  · obtain ⟨regs, ctl, others, module, flight⟩ := s.setFlight_frame { s.me.f with
      holdB := some { bn := s.cur.bn, addr := s.cur.addr, what := .wait a false } }
    refine ⟨_, ?_, regs, ctl, others, module, flight⟩
    rw [exec_of_askOf form hg, holdWait_holds ok clear]
    rfl
  · have met : s.askMet a = true := Bool.or_eq_true_iff.mpr (.inr (decide_eq_true reached))
    have next := (exec_answers (Seq.waiting_of held what) asks step fun _ => met).trans (State.answerWait_reached free reached)
    have seqs := (s.answered q hb a (Regs.waited a)).acquire_frame (coreOf q) a.acq
    have seq : ∀ p, (a.acq.elim (s.answered q hb a (Regs.waited a)) ((s.answered q hb a (Regs.waited a)).bump (coreOf q))).seq p =
        (s.answered q hb a (Regs.waited a)).seq p := fun p => by rw [State.seq, State.seq, seqs]
    refine ⟨_, next, ?_⟩
    rw [seq, s.seq_answered]
    refine ⟨rfl, rfl, fun p hp => (seq p).trans (s.sameOthers_answered q hb a _ p hp), rfl, Regs.sameBut_waited _ a,
      Regs.getP_waited _ a, fun d w slot => Regs.getS_waited _ slot, ?_⟩
    cases a.acq with
    | none => rfl
    | some sc => exact State.gen_bump_congr (s := s) (t := s.answered q hb a (Regs.waited a)) rfl sc
  · have met : s.askMet a = true := Bool.or_eq_true_iff.mpr (.inl latched)
    have next := (exec_answers (Seq.waiting_of held what) asks step fun _ => met).trans (State.answerWait_latched latched status)
    refine ⟨_, next, ?_⟩
    rw [s.seq_answered]
    exact ⟨rfl, s.sameOthers_answered q hb a _, rfl, rfl, rfl, Regs.sameBut_setP _ _ _,
      by rw [Seq.retire_r, Regs.getP_setP, if_pos rfl, if_neg status]⟩
  · have met : s.askMet a = true := Bool.or_eq_true_iff.mpr (.inl latched)
    have next := (exec_answers (Seq.waiting_of held what) asks step fun _ => met).trans (State.answerWait_traps latched bare)
    have seq : (s.heldTrap q hb a).seq q = { s.seq q with f := { (s.seq q).f with holdB := none } } := State.seq_setSeq_same ..
    refine ⟨s.heldTrap q hb a, _, by rw [seq], rfl, rfl, rfl, rfl, rfl, by rw [seq], rfl, rfl, ?_, rfl, next⟩
    exact congrArg Pennant.count (s.pennant_unregister q a.h)
  · have next := (exec_answers (Seq.waiting_of held what) asks step fun same => absurd same other).trans
      (State.answerWait_registers (hb := hb) free below new room)
    refine ⟨_, next, ?_⟩
    rw [State.seq_setSeq_same]
    refine ⟨?_, rfl, rfl, rfl, fun p hp => State.seq_setSeq_other _ _ hp, rfl, rfl⟩
    exact s.mem_register q a.h

end Machine
end Sys2Proof
end

section
/-! PROOFS. Atomics at issue (O21; spec/11 R259 to R261, spec/07 R180, R181). -/

namespace Sys2Proof
namespace Machine

/-- A slot instruction that has changed what is under way, and has issued. -/
theorem State.issuedWith_retire {s t : State} {f : Flight} (me : t.me = { s.me with f := f }) (cur : t.cur = s.cur)
    (dtime : f.dtime = s.me.f.dtime) : Stmt.issuedWith s t.retire s.me.r f := by
  have retired : t.retire.me = Seq.retire { s.me with f := f } s.cur.bn s.cur.slot 1 := by rw [State.me_retire, me, cur]
  refine ⟨by rw [retired]; rfl, by rw [retired]; rfl, by rw [retired]; rfl, ?_, (congrArg Cur.seq cur :)⟩
  rw [retired]
  simp only [Seq.retire, dtime]

/-- A scope that is not narrow sends its operation to a Halyard (spec/11 R259). -/
theorem narrow_iff (sc : Scope) : Stmt.narrow sc ↔ Scope.wide sc = false := by
  unfold Stmt.narrow
  cases sc <;> simp [Scope.wide]

/-- What is under way once a load-queue entry is reserved. -/
def Flight.reserve (f : Flight) : Flight :=
  { f with lq := f.lq ++ [{ id := f.lqNext, coming := none, val := none, pop := none }], lqNext := f.lqNext + 1 }

/-- What a wide atomic sends to its home. -/
def wideOp (op : Option AtOp) (va : Word) (pa : Nat) (x y : Word) (id : Nat) : HalOp :=
  match op with
  | some o => .atomic va pa o x (some id)
  | none => .cas va pa x y id

/-- A wide atomic that has reserved its entry and is on its way. -/
def State.sentWide (s : State) (op : Option AtOp) (va : Word) (pa : Nat) (x y : Word) : State :=
  (s.setFlight s.me.f.reserve).sendHal s.cur.seq (s.ctxOf s.cur.seq) (wideOp op va pa x y s.me.f.lqNext)

/-- A narrow atomic that has reserved its entry and waits for its cluster L2. -/
def State.sentNarrow (s : State) (op : Option AtOp) (va x y : Word) : State :=
  (s.setFlight s.me.f.reserve).setFlight { s.me.f.reserve with
    scopedAts := s.me.f.scopedAts ++ [{ bn := s.cur.bn, va := va, op := op, x := x, y := y, lq := s.me.f.lqNext }] }

section
variable {s : State} {g : BitVec 7} {b : BitVec 6} {sc : Scope} {tr : Tr} (hg : s.guardOn g = true)
  (ok : s.atomicCheck sc (s.rs b) = .ok s tr)
include hg ok

theorem atomicOp_sends (clear : s.beforeAtomic sc (s.rs b) = []) (room : s.me.f.reserved.length < 64) (op : Option AtOp)
    (x y : State → Word) : atomicOp g b sc s op x y = .next (if Scope.wide sc then s.sentWide op (s.rs b) tr.pa (x s) (y s)
      else s.sentNarrow op (s.rs b) (x s) (y s)).retire := by
  rw [atomicOp, slotOp_on hg]
  simp only [ok, clear, Try.res, List.isEmpty_nil, Bool.not_true, Bool.false_eq_true, if_false, Nat.not_le.mpr room]
  cases Scope.wide sc with
  | true => cases op <;> rfl
  | false =>
    simp only [State.reserve, State.me_setFlight, Bool.false_eq_true, if_false]
    rfl

theorem exec_red_queues (room : s.fullB = false) (x : BitVec 6) (o : AtOp) : exec (.red g x b sc o) s = .next (s.pushB
    (if Scope.wide sc then .hal (.atomic (s.rs b) tr.pa o (s.rs x) none) else .red (s.rs b) o (s.rs x)) none).retire := by
  rw [exec_red, execRed, slotOp_on hg]
  simp only [ok, room, Try.res, Bool.false_eq_true, if_false]
  cases Scope.wide sc <;> rfl

end

theorem State.me_sentWide (s : State) (op : Option AtOp) (va : Word) (pa : Nat) (x y : Word) :
    (s.sentWide op va pa x y).me = { s.me with f := s.me.f.reserve } := s.me_setFlight _

theorem State.me_sentNarrow (s : State) (op : Option AtOp) (va x y : Word) : (s.sentNarrow op va x y).me =
    { s.me with f := { s.me.f.reserve with
      scopedAts := s.me.f.scopedAts ++ [{ bn := s.cur.bn, va := va, op := op, x := x, y := y, lq := s.me.f.lqNext }] } } := by
  rw [State.sentNarrow, State.me_setFlight, State.me_setFlight]

theorem State.sameOthers_sentWide (s : State) (op : Option AtOp) (va : Word) (pa : Nat) (x y : Word) :
    s.sameOthers (s.sentWide op va pa x y).retire s.cur.seq :=
  (s.sameOthers_setMe _).trans (s.sentWide op va pa x y).sameOthers_retire

theorem State.sameOthers_sentNarrow (s : State) (op : Option AtOp) (va x y : Word) :
    s.sameOthers (s.sentNarrow op va x y).retire s.cur.seq :=
  (s.sameOthers_setMe _).trans ((s.setFlight s.me.f.reserve).sameOthers_setMe_retire _)

/-- Settles O21: a returning atomic reserves its entry and goes to its place, red is one entry of the store queue. -/
theorem atomicsAreSentToTheirPlace : Obligations.AtomicsAreSentToTheirPlace := by
  intro i s g sc b ret op x y tr form hg ok
  refine ⟨fun returns clear room => ?_, fun o silent hop room => ?_⟩
  · have sent : exec i s = .next (if Scope.wide sc then s.sentWide op (s.rs b) tr.pa x y else s.sentNarrow op (s.rs b) x y).retire := by
      unfold Stmt.atomicForm at form
      split at form
      all_goals cases form
      · exact atomicOp_sends hg ok clear room _ _ _
      · exact atomicOp_sends hg ok clear room _ _ _
      · exact absurd returns (by decide)
    refine ⟨_, sent, ?_⟩
    rw [narrow_iff]
    cases place : Scope.wide sc with
    | true =>
      simp only [if_true, Bool.true_eq_false, false_imp_iff, true_and, not_false_eq_true, true_imp_iff]
      refine ⟨s.sameOthers_sentWide _ _ _ _ _, rfl, rfl, rfl, rfl,
        State.issuedWith_retire (s.me_sentWide op (s.rs b) tr.pa x y) rfl rfl, s.nextHal, ?_⟩
      cases op <;> rfl
    | false =>
      simp only [Bool.false_eq_true, if_false, not_true_eq_false, false_imp_iff, and_true, true_imp_iff]
      exact ⟨s.sameOthers_sentNarrow _ _ _ _, rfl, rfl, rfl, rfl, rfl,
        State.issuedWith_retire (s.me_sentNarrow op (s.rs b) x y) rfl rfl⟩
  · have queued : exec i s = .next (s.pushB
        (if Scope.wide sc then .hal (.atomic (s.rs b) tr.pa o x none) else .red (s.rs b) o x) none).retire := by
      unfold Stmt.atomicForm at form
      split at form
      all_goals cases form
      · cases silent
      · cases silent
      · cases hop
        exact exec_red_queues hg ok room _ _
    refine ⟨_, queued, s.sameOthers_setMe_retire _, s.sameModule_setMe_retire _, _, s.issuedWith_setFlight rfl, ?_⟩
    rw [narrow_iff]
    cases Scope.wide sc <;> simp

end Machine
end Sys2Proof
end

section
/-! PROOFS. Words at a home (spec/11 R260 to R262, spec/18 R376), what a home's work leaves alone, translations of two classes (spec/18 R370),
HALYARD_ATOMIC_EXECUTE (O22), and accesses whose translation is cached (spec/18 R371). -/

namespace Sys2Proof
namespace Machine

/-! ### Words at a home -/

@[simp] theorem State.length_engBytes (s : State) (a n : Nat) : (s.engBytes a n).length = n := by
  induction n generalizing a with
  | zero => rfl
  | succ n ih => rw [State.engBytes, List.length_cons, ih]

theorem State.getElem_engBytes (s : State) (a n : Nat) {i : Nat} (h : i < (s.engBytes a n).length) :
    (s.engBytes a n)[i] = s.engByte (a + i) := by
  induction n generalizing a i with
  | zero => exact absurd h (Nat.not_lt_zero i)
  | succ n ih =>
    cases i with
    | zero => rfl
    | succ i => simp only [State.engBytes, List.getElem_cons_succ, ih, Nat.add_assoc, Nat.add_comm 1]

/-- A word of a home depends on its eight bytes. -/
theorem State.engWord_congr {s t : State} {a : Nat} (h : ∀ b, a ≤ b → b < a + 8 → t.engByte b = s.engByte b) :
    t.engWord a = s.engWord a := by
  rw [State.engWord, State.engWord]
  refine congrArg (fun bs => BitVec.ofNat 64 (leNat bs)) (List.ext_getElem (by simp) fun i hi _ => ?_)
  rw [State.length_engBytes] at hi
  rw [State.getElem_engBytes, State.getElem_engBytes, h _ (by omega) (by omega)]

theorem State.engWord_of_bytes {s : State} {a : Nat} {w : Word}
    (h : ∀ b, a ≤ b → b < a + 8 → s.engByte b = BitVec.ofNat 8 (w.toNat / 256 ^ (b - a))) : s.engWord a = w := by
  have bytes : s.engBytes a 8 = leBytes w.toNat 8 := by
    refine List.ext_getElem (by simp) fun i hi _ => ?_
    rw [State.length_engBytes] at hi
    rw [State.getElem_engBytes, getElem_leBytes, h _ (by omega) (by omega), Nat.add_sub_cancel_left]
  rw [State.engWord, bytes, ofNat_leNat_leBytes]

theorem State.sideBits_engSetWord (s : State) (a : Nat) (w : Word) (l : Nat) :
    (s.engSetWord a w).sideBits l = if l = lineOf a then 0#16 else s.sideBits l :=
  (s.homeHal_tookHal (lineOf a)).side l

/-- A word that a home has written changes its own eight bytes. -/
theorem State.engByte_engSetWord (s : State) {a : Nat} (aligned : a % 8 = 0) (w : Word) (b : Nat) : (s.engSetWord a w).engByte b =
    if a ≤ b ∧ b < a + 8 then BitVec.ofNat 8 (w.toNat / 256 ^ (b - a)) else s.engByte b := by
  have took := s.homeHal_tookHal (lineOf a)
  have dram : Mem.get (s.engSetWord a w).mem.dram b = Mem.get (Mem.write (s.homeHal (lineOf a)).mem.dram a (leBytes w.toNat 8)) b := rfl
  have other : ¬(a ≤ b ∧ b < a + 8) →
      Mem.get (s.engSetWord a w).mem.dram b = Mem.get (s.homeHal (lineOf a)).mem.dram b := fun outside => by
    rw [dram, Mem.get_write_other _ _ _ _ (by rw [length_leBytes]; omega)]
  by_cases here : b / 64 = lineOf a
  · rw [State.engByte_invalid (by rw [State.sideBits_engSetWord, if_pos here])]
    split
    · next inside =>
      obtain ⟨i, rfl⟩ := Nat.exists_eq_add_of_le inside.1
      rw [dram, Mem.get_write_at _ _ _ _ (by rw [length_leBytes]; omega), getElem_leBytes, Nat.add_sub_cancel_left]
    · next outside => rw [other outside, took.dram, if_pos here]
  · have outside : ¬(a ≤ b ∧ b < a + 8) := fun h => here (by unfold lineOf; omega)
    rw [if_neg outside]
    exact State.engByte_congr ((State.sideBits_engSetWord ..).trans (if_neg here)) (fun d => (took.l2 d _).trans (if_neg here))
      ((other outside).trans ((took.dram b).trans (if_neg here)))

theorem State.engWord_engSetWord_same (s : State) {a : Nat} (aligned : a % 8 = 0) (w : Word) : (s.engSetWord a w).engWord a = w :=
  State.engWord_of_bytes fun b lo hi => by rw [State.engByte_engSetWord s aligned, if_pos ⟨lo, hi⟩]

/-! ### Translations of two classes (spec/18 R370) -/

theorem ite_some_eq_none {α : Type} {c : Prop} [Decidable c] {x : α} {r : Option α} :
    (if c then some x else r) = none ↔ ¬c ∧ r = none := by
  split <;> simp [*]

theorem State.checkTr_none_iff {s : State} {ctx : Nat} {va : Word} {acc : Acc} {t : Tr} : s.checkTr ctx va acc t = none ↔
    s.offsetOk t.pa t.e2 = true ∧ t.permits1 (acc.through (eNc t.e2)) = true ∧ s.permits2 ctx t (acc.through (eNc t.e2)) = true ∧
      (eNc t.e2 || !s.link.unreachable.contains (paDev t.pa)) = true := by
  simp only [State.checkTr, ite_some_eq_none, Bool.not_eq_true', Bool.and_eq_true, Bool.or_eq_true, not_and, Bool.not_eq_false,
    Bool.not_eq_true, and_true, or_iff_not_imp_left]

/-- The class of an access shows in its traps alone. -/
theorem State.checkTr_class {s : State} {ctx : Nat} {va : Word} {acc : Acc} {t : Tr} (c : Nat)
    (h : s.checkTr ctx va acc t = none) : s.checkTr ctx va { acc with cls := c } t = none := by
  rw [State.checkTr_none_iff] at h ⊢
  unfold Acc.through at h ⊢
  cases nc : eNc t.e2 with
  | true => rw [nc] at h; exact h
  | false => rw [nc] at h; exact h

theorem State.homeErr_class {s s2 : State} {l : Nat} {acc : Acc} {r : Option (Bool × Trap)} (c : Nat)
    (goes : ∀ t, r ≠ some (true, t)) (h : s.homeErr l acc = (s2, r)) : s.homeErr l { acc with cls := c } = (s2, r) := by
  unfold State.homeErr at h ⊢
  dsimp only at h ⊢
  obtain ⟨rfl, met⟩ := Prod.mk.inj h
  refine congrArg (Prod.mk _) ?_
  cases e : (s.meetHome l).2 with
  | clean => rw [e] at met; exact met
  | recovered cl rsv => rw [e] at met; exact met
  | lost rsv => rw [e] at met; exact met
  | data => rw [e] at met; exact absurd met.symm (goes _)
  | poisoned => rw [e] at met; exact absurd met.symm (goes _)

theorem State.translateN_class {s s1 : State} {die ctx : Nat} {va : Word} {acc : Acc} {tr : Tr} (c n : Nat)
    (h : s.translateN die ctx va acc n = (s1, .ok tr)) : s.translateN die ctx va { acc with cls := c } n = (s1, .ok tr) := by
  induction n generalizing s with
  | zero => cases h
  | succ n ih =>
    unfold State.translateN at h ⊢
    dsimp only at h ⊢
    split at h
    · cases h
    · cases h
    · cases h
    · split at h
      · cases h
      · next err => 
        rw [State.homeErr_class c (by simp) err]
        exact ih h
      · next err => 
        rw [State.homeErr_class c (by simp) err]
        exact ih h
    · split at h
      · cases h
      · next ok => rw [State.checkTr_class c ok]; exact h

/-- An access that is granted is granted in every class. -/
theorem State.translate_class {s s1 : State} {die ctx : Nat} {va : Word} {acc : Acc} {tr : Tr} (c : Nat)
    (h : s.translate die ctx va acc = (s1, .ok tr)) : s.translate die ctx va { acc with cls := c } = (s1, .ok tr) := by
  unfold State.translate at h ⊢
  split at h
  · cases h
  · next low =>
    split at h
    · cases h
    · next plain =>
      rw [if_neg low, if_neg plain]
      exact State.translateN_class c _ h

theorem State.translateN_checked {s s1 : State} {die ctx : Nat} {va : Word} {acc : Acc} {tr : Tr} {n : Nat}
    (h : s.translateN die ctx va acc n = (s1, .ok tr)) : s1.checkTr ctx va acc tr = none := by
  induction n generalizing s with
  | zero => cases h
  | succ n ih =>
    unfold State.translateN at h
    split at h
    · cases h
    · cases h
    · cases h
    · split at h
      · cases h
      · exact ih h
      · exact ih h
    · split at h
      · cases h
      · next ok =>
        cases h
        exact ok

/-- What a translation that is granted has been checked for. -/
theorem State.translate_checked {s s1 : State} {die ctx : Nat} {va : Word} {acc : Acc} {tr : Tr}
    (h : s.translate die ctx va acc = (s1, .ok tr)) : s1.checkTr ctx va acc tr = none := by
  unfold State.translate at h
  split at h
  · cases h
  · split at h
    · cases h
    · exact State.translateN_checked h

/-! ### What the work of a home leaves alone -/

/-- The work of a home on a line leaves the operations under way, locks, cached translations and keys as they are. -/
structure State.homeWork (s t : State) : Prop where
  hal : t.hal = s.hal
  groups : t.groups = s.groups
  mast : t.mast = s.mast
  key : t.mem.key = s.mem.key
  clock : t.clock = s.clock
  locks : ∀ d, (t.die d).locks = (s.die d).locks
  tlb : ∀ d, (t.die d).tlb = (s.die d).tlb

theorem State.homeWork.refl (s : State) : s.homeWork s := ⟨rfl, rfl, rfl, rfl, rfl, fun _ => rfl, fun _ => rfl⟩

theorem State.homeWork.trans {s t u : State} (h : s.homeWork t) (k : t.homeWork u) : s.homeWork u :=
  ⟨k.hal.trans h.hal, k.groups.trans h.groups, k.mast.trans h.mast, k.key.trans h.key, k.clock.trans h.clock, fun d => (k.locks d).trans (h.locks d),
    fun d => (k.tlb d).trans (h.tlb d)⟩

theorem State.homeWork.setDie {s t : State} (h : s.homeWork t) {n : Nat} {x : Die} (locks : x.locks = (t.die n).locks)
    (tlb : x.tlb = (t.die n).tlb) : s.homeWork (t.setDie n x) := by
  refine h.trans ⟨rfl, rfl, rfl, rfl, rfl, fun d => ?_, fun d => ?_⟩
  all_goals
    rw [State.die_setDie]
    split
    · next same => rw [same]; assumption
    · rfl

/-- Memory may change, but for its keys. -/
theorem State.homeWork.withMem {s t : State} (h : s.homeWork t) {m : MemSys} (key : m.key = t.mem.key) :
    s.homeWork { t with mem := m } :=
  ⟨h.hal, h.groups, h.mast, key.trans h.key, h.clock, h.locks, h.tlb⟩

/-- What touches neither dies, groups nor keys is no more than that. -/
theorem State.homeWork.of_eq {s t : State} (hal : t.hal = s.hal) (groups : t.groups = s.groups) (mast : t.mast = s.mast)
    (key : t.mem.key = s.mem.key) (clock : t.clock = s.clock) (dies : t.dies = s.dies) : s.homeWork t :=
  ⟨hal, groups, mast, key, clock, fun d => by rw [State.die, State.die, dies], fun d => by rw [State.die, State.die, dies]⟩

theorem State.homeWork_count (s : State) (ctx : Nat) (k : Traffic) (n : Nat) : s.homeWork (s.count ctx k n) := by
  unfold State.count
  split
  · exact .refl s
  · exact .of_eq rfl rfl rfl rfl rfl rfl

theorem State.homeWork_setPromo (s : State) (d b : Nat) (rs : List PromoRow) : s.homeWork (s.setPromo d b rs) :=
  (State.homeWork.refl s).setDie rfl rfl

theorem State.homeWork_activate (s : State) (pa : Nat) (w : Bool) : s.homeWork (s.activate pa w) := by
  unfold State.activate
  dsimp only
  split
  · exact .refl s
  · split
    · exact .refl s
    · exact s.homeWork_setPromo _ _ _

theorem State.homeWork_rowWrote (s : State) (pa : Nat) : s.homeWork (s.rowWrote pa) := by
  unfold State.rowWrote
  split
  · exact .refl s
  · exact s.homeWork_setPromo _ _ _

theorem State.homeWork_sideWrote (s : State) (l : Nat) : s.homeWork (s.sideWrote l) := by
  unfold State.sideWrote
  dsimp only
  split
  · exact .refl s
  · split
    · split
      · exact (State.homeWork.refl s).setDie rfl rfl
      · exact s.homeWork_rowWrote _
    · exact s.homeWork_rowWrote _

theorem State.homeWork_setInvalid (s : State) (l : Nat) : s.homeWork (s.setInvalid l) := (s.homeWork_sideWrote l).withMem rfl

theorem State.homeWork_dropMsc (s : State) (d r : Nat) : s.homeWork (s.dropMsc d r) := by
  unfold State.dropMsc
  split
  · exact .refl s
  · refine State.homeWork.trans ?_ (State.homeWork_count ..)
    refine State.homeWork.setDie ?_ rfl rfl
    split
    · exact .refl s
    · exact s.homeWork_activate _ _

/-- The row of an access opens, and a read counts. -/
theorem State.homeWork_opens (s : State) (pa ctx : Nat) (w write : Bool) :
    s.homeWork (if write then s.activate pa w else (s.activate pa w).count ctx .rd 64) := by
  split
  · exact s.homeWork_activate _ _
  · exact (s.homeWork_activate _ _).trans (State.homeWork_count ..)

theorem State.homeWork_mscAt (s : State) (d l vd ctx cls : Nat) (w a : Bool) : s.homeWork (s.mscAt d l vd ctx cls w a) := by
  have opens := fun wrote => s.homeWork_opens (l * 64) ctx wrote w
  unfold State.mscAt
  dsimp only
  split
  · split
    · exact (State.homeWork.refl s).setDie rfl rfl
    · split
      · split
        · exact (s.homeWork_activate _ _).trans (State.homeWork_count ..)
        · exact (s.homeWork_activate _ _).trans (State.homeWork_count ..)
      · exact (opens _).setDie rfl rfl
  · split
    · split
      · exact (s.homeWork_activate _ _).trans (State.homeWork_count ..)
      · exact (s.homeWork_activate _ _).trans (State.homeWork_count ..)
    · split
      · exact (opens _).setDie rfl rfl
      · split
        · exact opens _
        · exact ((opens _).trans (State.homeWork_dropMsc ..)).setDie rfl rfl

theorem State.homeWork_mscTouch (s : State) (l ctx cls : Nat) (w a : Bool) : s.homeWork (s.mscTouch l ctx cls w a) := by
  unfold State.mscTouch State.mscAccess
  dsimp only
  split
  · exact s.homeWork_mscAt ..
  · exact (s.homeWork_mscAt ..).trans (State.homeWork.trans (t := State.sendLink _ _ _ _ _) (.of_eq rfl rfl rfl rfl rfl rfl) (State.homeWork_count ..))

theorem State.homeWork_writeBack (s : State) (l : Nat) (d : BitVec 512) (m : BitVec 64) : s.homeWork (s.writeBack l d m) := by
  unfold State.writeBack
  dsimp only
  split
  · exact .refl s
  · split
    · exact (State.homeWork.refl s).withMem rfl
    · exact (State.homeWork.refl s).withMem rfl

theorem State.homeWork_ownerBack (s : State) (l : Nat) (d : BitVec 512) (m : BitVec 64) : s.homeWork (s.ownerBack l d m) := by
  unfold State.ownerBack
  dsimp only
  split
  · exact (s.homeWork_writeBack l d m).withMem rfl
  · exact s.homeWork_writeBack l d m

theorem State.homeWork_homeHal (s : State) (l : Nat) : s.homeWork (s.homeHal l) :=
  (s.homeWork_ownerBack l _ _).trans
    (State.homeWork.trans (t := (s.ownerBack l _ _).invalidateL2 l none) (.of_eq rfl rfl rfl rfl rfl rfl) (State.homeWork_setInvalid ..))

theorem State.homeWork_engSetWord (s : State) (a : Nat) (w : Word) : s.homeWork (s.engSetWord a w) :=
  (s.homeWork_homeHal _).withMem rfl

/-! ### HALYARD_ATOMIC_EXECUTE (spec/11 R262) -/

/-- An access through the memory-side cache moves no byte. -/
theorem State.engByte_mscTouch (s : State) (l ctx cls : Nat) (w a : Bool) (b : Nat) :
    (s.mscTouch l ctx cls w a).engByte b = s.engByte b :=
  State.engByte_congr (State.sideBits_congr (congrArg (·.side) (State.mscTouch_mem ..)) _)
    (fun d => State.l2_congr (State.mscTouch_caches ..).2 d _) (by rw [State.mscTouch_mem])

theorem lost_lineOf (s : State) (pa : Nat) : s.lost (lineOf pa) = s.link.unreachable.contains (paDev pa) := by
  rw [State.lost, lineOf, paDev, paDev, show pa / 64 * 64 / 2 ^ 49 = pa / 2 ^ 49 by omega]

/-- The operation of an entry has left, and the home has taken the line for it. -/
def State.halTook (s : State) (e : HalEnt) (l : Nat) : State :=
  ((s.dropHal e.k).homeHal l).mscTouch l e.ctx pcHal true true

theorem State.engByte_halTook (s : State) (e : HalEnt) (l b : Nat) : (s.halTook e l).engByte b = s.engByte b :=
  (State.engByte_mscTouch ..).trans (((s.dropHal e.k).homeHal_tookHal l).engByte b)

theorem State.engWord_halTook (s : State) (e : HalEnt) (l a : Nat) : (s.halTook e l).engWord a = s.engWord a :=
  State.engWord_congr fun b _ _ => s.engByte_halTook e l b

theorem State.seqs_halTook (s : State) (e : HalEnt) (l : Nat) : (s.halTook e l).seqs = s.seqs := by
  rw [State.halTook, State.mscTouch_seqs, State.homeHal_seqs]
  rfl

/-- An atomic on a quiet place that nothing keeps from its home. -/
theorem State.halWord_quiet {s : State} {e : HalEnt} {va : Word} {tr : Tr} (quiet : Stmt.quiet s (dieOf e.q % 16) e.ctx va pcHal tr)
    (gate : s.gate (lineOf tr.pa) true = none) (pa : Nat) (f : Word → Word) (lq : Option Nat) :
    s.halWord e va pa f lq = .next (lq.elim ((s.halTook e (lineOf tr.pa)).engSetWord tr.pa (f (s.engWord tr.pa)))
      fun id => ((s.halTook e (lineOf tr.pa)).engSetWord tr.pa (f (s.engWord tr.pa))).sendResult e.q id (s.engWord tr.pa)) := by
  have ready : s.writeGate (dieOf e.q % 16) e.ctx va = none :=
    State.writeGate_none (State.translate_class pcMem quiet.translated) quiet.inside quiet.dirtySet
  have reached : s.lost (lineOf tr.pa) = false := by
    have checked := (State.checkTr_none_iff.mp (State.translate_checked quiet.translated)).2.2.2
    rw [quiet.inside, Bool.false_or, Bool.not_eq_true'] at checked
    rw [lost_lineOf, checked]
  have place : s.halPlace e va pa = (s, tr.pa) := by
    simp only [State.halPlace, quiet.translated, State.setDirty_same quiet.dirtySet, State.useKey_same quiet.key]
  have open_ : s.halGate e va pa = none := by
    simp only [State.halGate, ready, place, reached, gate, Option.orElse, Bool.false_eq_true, if_false]
  have old := s.engWord_halTook e (lineOf tr.pa) tr.pa
  unfold State.halWord
  simp only [open_, place, reached, Bool.false_eq_true, if_false]
  rw [State.halTook] at old ⊢
  rw [old]
  cases lq <;> rfl

theorem atop_eq_atomicNew (op : AtOp) (old x y : Word) : atop op old x = Stmt.atomicNew (some op) old x y := by
  cases op with
  | min => exact if_congr (decide_eq_true_iff) rfl rfl
  | max => exact if_congr (decide_eq_true_iff) rfl rfl
  | _ => rfl

theorem exec_halyardAtomicExecute_first {s : State} {k : Nat} {e : HalEnt} {va : Word} {op : Option AtOp} {x y : Word}
    {lq : Option Nat} (found : s.hal.find? (fun e => e.k == k) = some e) (form : Stmt.halForm e.op = some (va, op, x, y, lq))
    (first : s.earlierHal e = none) : ∃ pa, exec (.halyardAtomicExecute k) s =
      s.halWord e va pa (fun old => Stmt.atomicNew op old x y) lq := by
  rw [exec_halyardAtomicExecute, execHalyardAtomicExecute, State.runHal]
  simp only [found, first]
  cases operation : e.op with
  | add h v clr => rw [operation] at form; cases form
  | cond a w d => rw [operation] at form; cases form
  | atomic va' pa op' v lq' =>
    rw [operation] at form
    cases form
    exact ⟨pa, by simp only [atop_eq_atomicNew _ _ _ 0#64]⟩
  | cas va' pa x' y' lq' =>
    rw [operation] at form
    cases form
    exact ⟨pa, rfl⟩

/-- A result for the launch that runs sets out for its entry. -/
theorem State.sendResult_stays {s : State} {q id : Nat} (stays : Stmt.resultStays s q id) (w : Word) : s.sendResult q id w =
    s.setSeq q { s.seq q with f := { (s.seq q).f with
      lq := (s.seq q).f.lq.map fun d => if d.id = id then { d with coming := some w } else d } } := by
  refine if_pos ?_
  rw [Bool.or_eq_true]
  refine stays.imp (fun kept => kept) fun ⟨d, member, same⟩ => List.any_eq_true.mpr ⟨d, member, by rw [same]; exact beq_self_eq_true _⟩

theorem Stmt.resultStays_congr {s t : State} {q id : Nat} (seqs : t.seqs = s.seqs) (h : Stmt.resultStays s q id) :
    Stmt.resultStays t q id := by
  unfold Stmt.resultStays State.seq at h ⊢
  rwa [seqs]

/-- A home's word once an atomic has changed it. -/
theorem State.engWord_halTook_set (s : State) (e : HalEnt) {a : Nat} (aligned : a % 8 = 0) (w : Word) :
    ((s.halTook e (lineOf a)).engSetWord a w).engWord a = w := State.engWord_engSetWord_same _ aligned w

theorem halyardAtomic_once (s : State) (k : Nat) (e : HalEnt) (va : Word) (op : Option AtOp) (x y : Word) (lq : Option Nat) (tr : Tr)
    (found : s.hal.find? (fun e => e.k == k) = some e) (form : Stmt.halForm e.op = some (va, op, x, y, lq))
    (first : s.earlierHal e = none) (quiet : Stmt.quiet s (dieOf e.q % 16) e.ctx va pcHal tr)
    (gate : s.gate (lineOf tr.pa) true = none) (stays : ∀ id, lq = some id → Stmt.resultStays s e.q id) :
    let old := s.engWord tr.pa
    ∃ t, exec (.halyardAtomicExecute k) s = .next t ∧ t.hal = s.hal.filter (fun e => e.k != k) ∧
      t.engWord tr.pa = Stmt.atomicNew op old x y ∧
      (∀ a, a < tr.pa ∨ tr.pa + 8 ≤ a → t.engByte a = s.engByte a) ∧ t.sideBits (lineOf tr.pa) = 0#16 ∧ t.cores = s.cores ∧
      s.sameOthers t e.q ∧ (t.seq e.q).r = (s.seq e.q).r ∧ (t.seq e.q).c = (s.seq e.q).c ∧
      (lq = none → (t.seq e.q).f = (s.seq e.q).f) ∧
      (∀ id, lq = some id → (t.seq e.q).f = { (s.seq e.q).f with
        lq := (s.seq e.q).f.lq.map fun d => if d.id = id then { d with coming := some old } else d }) := by
  intro old
  obtain ⟨pa, run⟩ := exec_halyardAtomicExecute_first found form first
  rw [State.halWord_quiet quiet gate] at run
  have number : e.k = k := beq_iff_eq.mp (List.find?_some (p := fun e : HalEnt => e.k == k) found)
  have aligned := quiet.aligned
  generalize hu : (s.halTook e (lineOf tr.pa)).engSetWord tr.pa (Stmt.atomicNew op (s.engWord tr.pa) x y) = u at run
  have hal : u.hal = s.hal.filter (fun e => e.k != k) := by
    rw [← hu, (State.homeWork_engSetWord ..).hal, State.halTook, (State.homeWork_mscTouch ..).hal, (State.homeWork_homeHal ..).hal,
      State.dropHal, number]
  have word : u.engWord tr.pa = Stmt.atomicNew op old x y := hu ▸ State.engWord_engSetWord_same _ aligned _
  have bytes : ∀ a, a < tr.pa ∨ tr.pa + 8 ≤ a → u.engByte a = s.engByte a := fun a outside => by
    rw [← hu, State.engByte_engSetWord _ aligned, if_neg (by omega), State.engByte_halTook]
  have side : u.sideBits (lineOf tr.pa) = 0#16 := by rw [← hu, State.sideBits_engSetWord, if_pos rfl]
  have cores : u.cores = s.cores := by
    rw [← hu, State.engSetWord_cores, State.halTook, (State.mscTouch_caches ..).1, State.homeHal_cores]
    rfl
  have seqs : u.seqs = s.seqs := by rw [← hu, State.engSetWord_seqs, State.seqs_halTook]
  have seq : ∀ p, u.seq p = s.seq p := fun p => by rw [State.seq, State.seq, seqs]
  cases lq with
  | none =>
    exact ⟨u, run, hal, word, bytes, side, cores, fun p _ => seq p, by rw [seq], by rw [seq], fun _ => by rw [seq],
      fun id none_ => absurd none_ (by simp)⟩
  | some id =>
    rw [Option.elim_some, State.sendResult_stays (Stmt.resultStays_congr seqs (stays id rfl)), seq] at run
    refine ⟨_, run, hal, word, bytes, side, cores, fun p hp => (State.seq_setSeq_other u _ hp).trans (seq p), ?_⟩
    rw [State.seq_setSeq_same]
    exact ⟨rfl, rfl, fun none_ => absurd none_ (by simp), fun id' same => by cases same; rfl⟩

/-! ### An access that changes nothing was cached (spec/18 R371) -/

theorem State.homeWork_recoverSide (s : State) (l : Nat) : s.homeWork (s.recoverSide l).1 := by
  unfold State.recoverSide
  dsimp only
  split
  · next cl c _ =>
    have unmarked : s.homeWork { s with mem := { s.mem with badSide := s.mem.badSide.filter (· != l) } } :=
      .of_eq rfl rfl rfl rfl rfl rfl
    refine State.homeWork.trans ?_ (State.homeWork_setInvalid ..)
    refine (unmarked.trans (State.homeWork_writeBack _ l c.data c.dirty)).trans ?_
    exact .of_eq rfl rfl rfl rfl rfl rfl
  · refine State.homeWork.trans ?_ (State.homeWork_setInvalid ..)
    exact .of_eq rfl rfl rfl rfl rfl rfl

/-- Meeting the errors of a line is a home's work, and at most one entry of the error log. -/
theorem State.meetHome_cases (s : State) (l : Nat) :
    ∃ t, s.homeWork t ∧ ((s.meetHome l).1 = t ∨ ∃ c w, (s.meetHome l).1 = t.logError c w) := by
  have side := s.homeWork_recoverSide l
  unfold State.meetHome
  dsimp only
  split
  · split
    · next t cl met => rw [met] at side; exact ⟨t, side, .inr ⟨_, _, rfl⟩⟩
    · next t met => rw [met] at side; exact ⟨t, side, .inr ⟨_, _, rfl⟩⟩
  · split
    · split
      · exact ⟨s, .refl s, .inl rfl⟩
      · exact ⟨{ s with mem := { s.mem with poison := l :: s.mem.poison, badData := s.mem.badData.filter (· != l) } },
          .of_eq rfl rfl rfl rfl rfl rfl, .inr ⟨_, _, rfl⟩⟩
    · split
      · exact ⟨s, .refl s, .inl rfl⟩
      · exact ⟨s, .refl s, .inl rfl⟩

theorem State.tlb_homeErr (s : State) (l : Nat) (acc : Acc) (d : Nat) : ((s.homeErr l acc).1.die d).tlb = (s.die d).tlb := by
  obtain ⟨t, work, same | ⟨c, w, same⟩⟩ := s.meetHome_cases l
  · exact (congrArg (fun u => (u.die d).tlb) same).trans (work.tlb d)
  · exact (congrArg (fun u => (u.die d).tlb) same).trans (work.tlb d)

theorem State.tlb_owe (s : State) (ctx : Nat) (t : Trap) (d : Nat) : ((s.owe ctx t).die d).tlb = (s.die d).tlb := by
  unfold State.owe
  split
  · rfl
  · rfl

theorem State.homeWork_touchPath (s : State) (ctx : Nat) (t : Tr) : s.homeWork (s.touchPath ctx t) := by
  unfold State.touchPath
  generalize t.path = path
  induction path generalizing s with
  | nil => exact .refl s
  | cons a path ih => exact (s.homeWork_mscTouch ..).trans (ih _)

/-- A lookup is a cached translation, or a walk that caches one more, or finds nothing and leaves the TLB. -/
theorem State.lookup_cases (s : State) (die ctx : Nat) (va : Word) (w : Bool) :
    (s.needsWalk die ctx va w = false ∧ (s.lookup die ctx va w).1 = s) ∨
      (s.die die).tlb.length < ((s.lookup die ctx va w).1.die die).tlb.length ∨
      ∃ f, s.lookup die ctx va w = (s, .error f) := by
  cases needs : s.needsWalk die ctx va w with
  | false =>
    obtain ⟨t, found⟩ := State.lookup_cached needs
    exact .inl ⟨rfl, by rw [found]⟩
  | true =>
    refine .inr ?_
    rw [State.lookup_walks needs, State.walked]
    split
    · next t walk =>
      refine .inl ?_
      rw [State.tlbAdd, State.die_setDie_same, List.length_cons, (s.homeWork_touchPath ctx t).tlb]
      exact Nat.lt_succ_self _
    · next f walk => exact .inr ⟨f, rfl⟩

/-- A translation that is granted has grown the TLB, or was cached. -/
theorem State.translateN_cases {s s1 : State} {die ctx : Nat} {va : Word} {acc : Acc} {tr : Tr} {n : Nat}
    (h : s.translateN die ctx va acc n = (s1, .ok tr)) : (s.die die).tlb.length < (s1.die die).tlb.length ∨
      s1.needsWalk die ctx va acc.write = false ∧ s1.lookup die ctx va acc.write = (s1, .ok tr) := by
  induction n generalizing s with
  | zero => cases h
  | succ n ih =>
    have looked := s.lookup_cases die ctx va acc.write
    have grown : ∀ {s2 : State} {r : Except WalkFault Tr}, s.lookup die ctx va acc.write = (s2, r) →
        (s.die die).tlb.length ≤ (s2.die die).tlb.length := by
      intro s2 r found
      rw [found] at looked
      rcases looked with ⟨-, rfl⟩ | more | ⟨f, same⟩
      · exact Nat.le_refl _
      · exact Nat.le_of_lt more
      · cases same
        exact Nat.le_refl _
    unfold State.translateN at h
    split at h
    · cases h
    · cases h
    · cases h
    · next s2 l found =>
      have fewer := grown found
      split at h
      · cases h
      · next s3 t err =>
        have tlb := s2.tlb_homeErr l { acc with write := false } die
        rw [err] at tlb
        refine (ih h).imp_left fun more => ?_
        rw [State.tlb_owe, tlb] at more
        exact Nat.lt_of_le_of_lt fewer more
      · next s3 err =>
        have tlb := s2.tlb_homeErr l { acc with write := false } die
        rw [err] at tlb
        refine (ih h).imp_left fun more => ?_
        rw [tlb] at more
        exact Nat.lt_of_le_of_lt fewer more
    · next s2 t found =>
      split at h
      · cases h
      · cases h
        rw [found] at looked
        rcases looked with ⟨needs, same⟩ | more | ⟨f, wrong⟩
        · cases same
          exact .inr ⟨needs, found⟩
        · exact .inl more
        · cases wrong

/-- An access that is granted and leaves the state as it is has its translation in the TLB, with D set where it writes. -/
theorem State.tlbFind_of_translate {s : State} {die ctx : Nat} {va : Word} {acc : Acc} {tr : Tr}
    (h : s.translate die ctx va acc = (s, .ok tr)) :
    ∃ x, s.tlbFind die ctx va = some x ∧ tr = x.tr va ∧ (acc.write && !eD x.e2 && !eNc x.e2) = false := by
  unfold State.translate at h
  split at h
  · cases h
  · split at h
    · cases h
    · rcases State.translateN_cases h with more | ⟨needs, found⟩
      · exact absurd more (Nat.lt_irrefl _)
      · unfold State.needsWalk at needs
        unfold State.lookup at found
        cases cached : s.tlbFind die ctx va with
        | none => rw [cached] at needs; cases needs
        | some x =>
          simp only [cached] at needs found
          rw [needs] at found
          cases found
          exact ⟨x, rfl, rfl, needs⟩

/-- It has the same translation in any state with that TLB that grants it. -/
theorem State.translate_of_tlb {s t : State} {die ctx : Nat} {va : Word} {acc : Acc} {tr : Tr}
    (h : s.translate die ctx va acc = (s, .ok tr)) (tlb : (t.die die).tlb = (s.die die).tlb)
    (granted : t.checkTr ctx va acc tr = none) : t.translate die ctx va acc = (t, .ok tr) := by
  obtain ⟨x, cached, rfl, needs⟩ := State.tlbFind_of_translate h
  have cached' : t.tlbFind die ctx va = some x := by rwa [State.tlbFind, tlb]
  unfold State.translate at h ⊢
  split at h
  · cases h
  · next low =>
    split at h
    · cases h
    · next plain =>
      rw [if_neg low, if_neg plain]
      simp only [State.translateN, State.lookup, cached', needs, Bool.false_eq_true, if_false, granted]

end Machine
end Sys2Proof
end

section
/-! PROOFS. Atomics on the scoped copies of a cluster L2 (O22; spec/08 R193, R194). -/

namespace Sys2Proof
namespace Machine

/-! ### Words of a line -/

theorem takeAt_eight (d : BitVec 512) (o : Nat) : takeAt d o 8 = d.extractLsb' (8 * o) 64 := by
  refine BitVec.eq_of_toNat_eq ?_
  rw [takeAt, BitVec.toNat_ofNat, BitVec.extractLsb'_toNat, Nat.shiftRight_eq_div_pow, Nat.mod_mod]

theorem extractLsb'_takeAt (d : BitVec 512) (o : Nat) {b : Nat} (hb : b < 8) :
    (takeAt d o 8).extractLsb' (8 * b) 8 = byteOf d (o + b) := by
  refine BitVec.eq_of_getLsbD_eq fun i hi => ?_
  rw [takeAt_eight, byteOf, BitVec.getLsbD_extractLsb', BitVec.getLsbD_extractLsb', BitVec.getLsbD_extractLsb',
    decide_eq_true hi, decide_eq_true (show 8 * b + i < 64 by omega), Bool.true_and, Bool.true_and, Bool.true_and, Nat.mul_add, Nat.add_assoc]

theorem word_eq_of_bytes {v w : Word} (h : ∀ b, b < 8 → v.extractLsb' (8 * b) 8 = w.extractLsb' (8 * b) 8) : v = w := by
  refine BitVec.eq_of_getLsbD_eq fun i hi => ?_
  have bit := congrArg (fun x => x.getLsbD (i % 8)) (h (i / 8) (by omega))
  have low : i % 8 < 8 := Nat.mod_lt _ (by decide)
  simp only [BitVec.getLsbD_extractLsb', low, decide_true, Bool.true_and] at bit
  rwa [Nat.div_add_mod] at bit

/-- A word written into a line is read there. -/
theorem takeAt_wrote (d : BitVec 512) {o : Nat} (room : o + 8 ≤ 64) (w : Word) :
    takeAt (blend (byteMask o 8) (placeAt o w) d) o 8 = w := by
  refine word_eq_of_bytes fun b hb => ?_
  rw [extractLsb'_takeAt _ _ hb, byteOf_blend _ _ _ (by omega), getLsbD_byteMask _ _ (by omega), if_pos (by simp; omega),
    byteOf_placeAt _ _ hb (by omega)]

/-! ### A step on a scoped copy (spec/08 R193) -/

/-- A line whose bytes and dirty mask stand gives its home the same bytes. -/
theorem State.engByte_setL2 {s : State} {r l : Nat} {c x : CLine} (held : s.l2 r l = some c) (data : x.data = c.data)
    (dirty : x.dirty = c.dirty) (a : Nat) : (s.setL2 r l x).engByte a = s.engByte a := by
  have owner : (s.setL2 r l x).ownerDirty (a / 64) = s.ownerDirty (a / 64) := by
    have side : (s.setL2 r l x).side (a / 64) = s.side (a / 64) := rfl
    rw [State.ownerDirty, State.ownerDirty, side, State.l2_setL2]
    by_cases here : (s.side (a / 64)).owner = r ∧ a / 64 = l
    · rw [if_pos here, here.1, here.2, held]
      dsimp only
      rw [data, dirty]
    · rw [if_neg here]
  rw [State.engByte_eq, State.engByte_eq, owner]
  rfl

/-- The copy of a line that a step makes: the line as its cluster reads it, with the word in place and dirty. -/
def State.steppedCopy (s : State) (r l ctx o : Nat) (ln : CLine) (f : Word → Word) : CLine :=
  let d := s.overScoped r l ln.data
  { data := blend (byteMask o 8) (placeAt o (f (takeAt d o 8))) d, have_ := BitVec.allOnes 64,
    dirty := (((Tab.get? (s.cluster r).scopedCopies l).map CLine.dirty).getD 0#64) ||| byteMask o 8, ctx := ctx }

/-- The state once a step has made its copy of a line that the L2 holds whole. -/
def State.stepped (s : State) (r l : Nat) (ln c : CLine) : State :=
  let s1 := s.setL2 r l { ln with use_ := nextUse (s.cluster r).l2 }
  s1.setCluster r { s1.cluster r with scopedCopies := Tab.put (s1.cluster r).scopedCopies l c }

/-- A scoped copy is no line of its L2. -/
theorem State.l2_setCopies (s : State) (r : Nat) (cs : Tab CLine) (d l : Nat) :
    (s.setCluster r { s.cluster r with scopedCopies := cs }).l2 d l = s.l2 d l := by
  rw [State.l2, State.l2, State.cluster_setCluster]
  split
  · next same => rw [same]
  · rfl

/-- A step on a scoped copy leaves every home as it reads. -/
theorem State.engByte_stepped {s : State} {r l : Nat} {ln : CLine} (held : s.l2 r l = some ln) (c : CLine) (a : Nat) :
    (s.stepped r l ln c).engByte a = s.engByte a := by
  rw [← State.engByte_setL2 (x := { ln with use_ := nextUse (s.cluster r).l2 }) held rfl rfl a]
  exact State.engByte_congr rfl (fun d => State.l2_setCopies ..) rfl

theorem State.onScoped_quiet {s : State} {q : Nat} {va : Word} {tr : Tr} (quiet : Stmt.quiet s (dieOf q) (s.ctxOf q) va pcMem tr)
    (clean : s.l1 (coreOf q) (lineOf tr.pa) (s.ctxOf q) = none) {ln : CLine} (held : s.l2 (clusterOf q) (lineOf tr.pa) = some ln)
    (full : ln.have_ = BitVec.allOnes 64) (f : Word → Word) : s.onScoped q va f =
      (s.stepped (clusterOf q) (lineOf tr.pa) ln (s.steppedCopy (clusterOf q) (lineOf tr.pa) (s.ctxOf q) (tr.pa % 64) ln f),
        takeAt (s.overScoped (clusterOf q) (lineOf tr.pa) ln.data) (tr.pa % 64) 8) := by
  have held' : Tab.get? (s.cluster (clusterOf q)).l2 (lineOf tr.pa) = some ln := held
  have read : s.l2Read (clusterOf q) (lineOf tr.pa) (s.ctxOf q) =
      (s.setL2 (clusterOf q) (lineOf tr.pa) { ln with use_ := nextUse (s.cluster (clusterOf q)).l2 },
        s.overScoped (clusterOf q) (lineOf tr.pa) ln.data) := by
    simp only [State.l2Read, held', full, if_true]
  have stale : s.staleL1 (coreOf q) (lineOf tr.pa) (s.ctxOf q) = s := by rw [State.staleL1, clean]
  unfold State.onScoped
  simp only [quiet.translated, State.setDirty_same quiet.dirtySet, State.useKey_same quiet.key, stale, read]
  have copies : ((s.setL2 (clusterOf q) (lineOf tr.pa) { ln with use_ := nextUse (s.cluster (clusterOf q)).l2 }).cluster
      (clusterOf q)).scopedCopies = (s.cluster (clusterOf q)).scopedCopies := by
    rw [State.setL2, State.cluster_setCluster_same]
  rw [State.stepped, State.steppedCopy, copies]
  cases Tab.get? (s.cluster (clusterOf q)).scopedCopies (lineOf tr.pa) <;> rfl

/-! ### SCOPED_ATOMIC_EXECUTE -/

theorem ScopedAt.new_eq (a : ScopedAt) (old : Word) : a.new old = Stmt.atomicNew a.op old a.x a.y := by
  unfold ScopedAt.new
  cases a.op with
  | none => rfl
  | some op => exact atop_eq_atomicNew op old a.x a.y

/-- The oldest narrow atomic of a sequencer leaves its queue. -/
def State.tookAt (s : State) (q : Nat) (rest : List ScopedAt) : State :=
  s.setSeq q { s.seq q with f := { (s.seq q).f with scopedAts := rest } }

theorem Stmt.quiet_tookAt {s : State} {die ctx : Nat} {va : Word} {cls : Nat} {tr : Tr} (h : Stmt.quiet s die ctx va cls tr)
    (q : Nat) (rest : List ScopedAt) : Stmt.quiet (s.tookAt q rest) die ctx va cls tr :=
  ⟨State.translate_of_tlb h.translated rfl (State.translate_checked (s1 := s) h.translated), h.inside, h.dirtySet, h.key, h.aligned⟩

theorem Stmt.resultStays_tookAt {s : State} {q id : Nat} (h : Stmt.resultStays s q id) (rest : List ScopedAt) :
    Stmt.resultStays (s.tookAt q rest) q id := by
  unfold Stmt.resultStays State.tookAt
  rw [State.seq_setSeq_same]
  exact h

section
variable {s : State} {q : Nat} {a : ScopedAt} {rest : List ScopedAt} {tr : Tr} {ln : CLine}

theorem exec_scopedAtomicExecute_quiet (queued : (s.seq q).f.scopedAts = a :: rest)
    (stores : (s.seq q).f.storeBefore a = false) (vectors : s.vstBefore q a = false)
    (quiet : Stmt.quiet s (dieOf q) (s.ctxOf q) a.va pcMem tr) (full : s.l2Full (clusterOf q) (lineOf tr.pa) = true) :
    exec (.scopedAtomicExecute q) s = .next
      (((s.tookAt q rest).onScoped q a.va a.new).1.sendResult q a.lq ((s.tookAt q rest).onScoped q a.va a.new).2) := by
  have ready : s.scopedGate q a.va = none := by
    simp only [State.scopedGate, State.writeGate_none quiet.translated quiet.inside quiet.dirtySet, quiet.translated, full, Option.orElse,
      if_true]
  simp only [exec_scopedAtomicExecute, execScopedAtomicExecute, queued, stores, vectors, ready, Bool.false_eq_true, if_false,
    State.scopedAtStep]
  rfl

end

theorem scopedAtomic_once (s : State) (q : Nat) (a : ScopedAt) (rest : List ScopedAt) (tr : Tr) (old : Word)
    (queued : (s.seq q).f.scopedAts = a :: rest) (stores : (s.seq q).f.storeBefore a = false) (vectors : s.vstBefore q a = false)
    (stays : Stmt.resultStays s q a.lq) (quiet : Stmt.quiet s (dieOf q) (s.ctxOf q) a.va pcMem tr)
    (clean : s.l1 (coreOf q) (lineOf tr.pa) (s.ctxOf q) = none) {ln : CLine} (held : s.l2 (clusterOf q) (lineOf tr.pa) = some ln)
    (full : ln.have_ = BitVec.allOnes 64)
    (reads : old = takeAt (s.overScoped (clusterOf q) (lineOf tr.pa) ln.data) (tr.pa % 64) 8) :
    ∃ t c, exec (.scopedAtomicExecute q) s = .next t ∧
      Tab.get? (t.cluster (clusterOf q)).scopedCopies (lineOf tr.pa) = some c ∧
      takeAt c.data (tr.pa % 64) 8 = Stmt.atomicNew a.op old a.x a.y ∧
      (∀ b, b < 64 → c.dirty.getLsbD b = (decide (tr.pa % 64 ≤ b ∧ b < tr.pa % 64 + 8) ||
        (((Tab.get? (s.cluster (clusterOf q)).scopedCopies (lineOf tr.pa)).map CLine.dirty).getD 0#64).getLsbD b)) ∧
      t.mem = s.mem ∧ t.cores = s.cores ∧ t.hal = s.hal ∧
      (∀ l, l ≠ lineOf tr.pa → Tab.get? (t.cluster (clusterOf q)).scopedCopies l =
        Tab.get? (s.cluster (clusterOf q)).scopedCopies l) ∧
      (∀ p, t.engByte p = s.engByte p) ∧ s.sameOthers t q ∧ (t.seq q).r = (s.seq q).r ∧ (t.seq q).c = (s.seq q).c ∧
      (t.seq q).f = { (s.seq q).f with
        scopedAts := rest,
        lq := (s.seq q).f.lq.map fun d => if d.id = a.lq then { d with coming := some old } else d } := by
  have whole : s.l2Full (clusterOf q) (lineOf tr.pa) = true := by
    simp only [State.l2Full, held, full, beq_self_eq_true]
  have run := exec_scopedAtomicExecute_quiet queued stores vectors quiet whole
  have step := State.onScoped_quiet (Stmt.quiet_tookAt quiet q rest) clean held full a.new
  rw [show (s.tookAt q rest).ctxOf q = s.ctxOf q from rfl] at step
  rw [step, show (s.tookAt q rest).overScoped (clusterOf q) (lineOf tr.pa) ln.data =
    s.overScoped (clusterOf q) (lineOf tr.pa) ln.data from rfl, ← reads] at run
  generalize hc : (s.tookAt q rest).steppedCopy (clusterOf q) (lineOf tr.pa) (s.ctxOf q) (tr.pa % 64) ln a.new = c at run
  have stays' : Stmt.resultStays ((s.tookAt q rest).stepped (clusterOf q) (lineOf tr.pa) ln c) q a.lq :=
    Stmt.resultStays_congr rfl (Stmt.resultStays_tookAt stays rest)
  have seq : ((s.tookAt q rest).stepped (clusterOf q) (lineOf tr.pa) ln c).seq q =
      { s.seq q with f := { (s.seq q).f with scopedAts := rest } } := State.seq_setSeq_same ..
  rw [State.sendResult_stays stays', seq] at run
  have aligned := quiet.aligned
  have word : takeAt c.data (tr.pa % 64) 8 = Stmt.atomicNew a.op old a.x a.y := by
    rw [← ScopedAt.new_eq, ← hc, reads]
    exact takeAt_wrote _ (by omega) _
  have copies : ∀ l, Tab.get? (((s.tookAt q rest).stepped (clusterOf q) (lineOf tr.pa) ln c).cluster (clusterOf q)).scopedCopies l =
      Tab.get? (Tab.put (s.cluster (clusterOf q)).scopedCopies (lineOf tr.pa) c) l := fun l => by
    rw [State.stepped, State.cluster_setCluster_same, State.setL2, State.cluster_setCluster_same]
    rfl
  refine ⟨_, c, run, (copies _).trans (Tab.get?_put_same ..), word, fun b hb => ?_, rfl, rfl, rfl,
    fun l hl => (copies l).trans (Tab.get?_put_other _ _ hl), fun p => ?_, fun p hp => ?_, ?_, ?_, ?_⟩
  · rw [← hc, State.steppedCopy, BitVec.getLsbD_or, getLsbD_byteMask _ _ hb, Bool.or_comm]
    rfl
  · exact State.engByte_stepped (s := s.tookAt q rest) held c p
  · exact (State.seq_setSeq_other _ _ hp).trans (State.seq_setSeq_other s _ hp)
  · rw [State.seq_setSeq_same]
  · rw [State.seq_setSeq_same]
  · rw [State.seq_setSeq_same]

/-! ### SCOPED_COPY_WRITEBACK -/

/-- A copy's dirty bytes over its line. -/
def CLine.under (m c : CLine) : CLine :=
  { m with data := blend c.dirty c.data m.data, have_ := m.have_ ||| c.dirty, dirty := m.dirty ||| c.dirty }

/-- The state once a copy has gone into its line, and has left. -/
def State.retired (s : State) (r l : Nat) (m c : CLine) : State :=
  let s1 := s.setL2 r l (m.under c)
  s1.setCluster r { s1.cluster r with scopedCopies := Tab.erase (s1.cluster r).scopedCopies l }

theorem exec_scopedCopyWriteback_owned {s : State} {cl l : Nat} {c m : CLine} (gate : s.gate l true = none) (reached : s.lost l = false)
    (copy : Tab.get? (s.cluster cl).scopedCopies l = some c) (owned : s.ownsM l cl = true) (held : s.l2 cl l = some m) :
    exec (.scopedCopyWriteback cl l) s = .next (s.retired cl l m c) := by
  have own : s.own l cl c.ctx = s := by rw [State.own, owned, if_pos rfl]
  simp only [exec_scopedCopyWriteback, execScopedCopyWriteback, State.relGateLine, reached, gate, State.scopedBack, copy, own,
    State.retireCopy, held, Option.isSome_some, Option.getD_some, Bool.false_eq_true, if_false, if_true]
  rfl

/-- The home shows the copy's dirty bytes over what it showed, and nothing else of it has changed. -/
theorem State.engByte_retired {s : State} {cl l : Nat} {m : CLine} (owned : s.ownsM l cl = true) (held : s.l2 cl l = some m) (c : CLine)
    (a : Nat) : (s.retired cl l m c).engByte a =
      if a / 64 = l ∧ c.dirty.getLsbD (a % 64) = true then byteOf c.data (a % 64) else s.engByte a := by
  have inLine : a % 64 < 64 := Nat.mod_lt _ (by decide)
  have copies : (s.retired cl l m c).engByte a = (s.setL2 cl l (m.under c)).engByte a :=
    State.engByte_congr rfl (fun d => State.l2_setCopies ..) rfl
  rw [copies]
  by_cases here : a / 64 = l
  · rw [State.ownsM, Bool.and_eq_true, beq_iff_eq, beq_iff_eq] at owned
    obtain ⟨st, owner⟩ := owned
    have before : s.ownerDirty l = (m.data, m.dirty) := by
      simp only [State.ownerDirty, st, owner, held, decide_true, Bool.true_or, if_true]
    have after : (s.setL2 cl l (m.under c)).ownerDirty l = ((m.under c).data, (m.under c).dirty) := by
      have side : (s.setL2 cl l (m.under c)).side l = s.side l := rfl
      simp only [State.ownerDirty, side, st, owner, State.l2_setL2, and_self, decide_true, Bool.true_or, if_true]
    rw [State.engByte_eq, State.engByte_eq, here, before, after, CLine.under, byteOf_blend _ _ _ inLine, BitVec.getLsbD_or]
    cases c.dirty.getLsbD (a % 64) <;> simp
  · rw [if_neg fun h => here h.1]
    refine State.engByte_congr rfl (fun d => ?_) rfl
    rw [State.l2_setL2, if_neg fun h => here h.2]

/-- Settles O22: an atomic changes its one word at the home or in the scoped copy, and a copy goes back over its line. -/
theorem atomicsTakeEffectOnce : Obligations.AtomicsTakeEffectOnce := by
  refine ⟨halyardAtomic_once, fun s q a rest tr old queued stores vectors stays quiet clean => ?_,
    fun s cl l c gate reached copy owned present => ?_⟩
  · rintro copy ⟨ln, held, full, bare, covered⟩
    have aligned := quiet.aligned
    have reads : old = takeAt (s.overScoped (clusterOf q) (lineOf tr.pa) ln.data) (tr.pa % 64) 8 := by
      cases found : copy with
      | none => rw [State.overScoped, show Tab.get? _ _ = _ from found]; exact bare found
      | some c =>
        rw [State.overScoped, show Tab.get? _ _ = _ from found]
        refine word_eq_of_bytes fun b hb => ?_
        rw [covered c found b hb, extractLsb'_takeAt _ _ hb, byteOf_blend _ _ _ (by omega)]
        rfl
    obtain ⟨t, c, run, kept, word, dirty, rest⟩ := scopedAtomic_once s q a rest tr old queued stores vectors stays quiet clean held full reads
    refine ⟨t, c, run, kept, word, fun b hb => ?_, rest⟩
    rw [dirty b hb]
    change (_ || ((copy.map CLine.dirty).getD 0#64).getLsbD b) = _
    cases copy <;> simp
  · obtain ⟨m, held⟩ := Option.isSome_iff_exists.mp present
    have copies : ∀ k, Tab.get? ((s.retired cl l m c).cluster cl).scopedCopies k =
        Tab.get? (Tab.erase (s.cluster cl).scopedCopies l) k := fun k => by
      rw [State.retired, State.cluster_setCluster_same, State.setL2, State.cluster_setCluster_same]
    refine ⟨_, exec_scopedCopyWriteback_owned gate reached copy owned held, rfl, rfl, ?_, fun k hk => ?_, fun b hb => ?_, fun p hp => ?_⟩
    · rw [copies, Tab.get?_erase, if_pos rfl]
    · rw [copies, Tab.get?_erase, if_neg hk]
    · rw [State.engByte_retired owned held, show (64 * l + b) / 64 = l by omega, show (64 * l + b) % 64 = b by omega]
      simp only [true_and]
      rfl
    · rw [State.engByte_retired owned held, if_neg fun h => hp h.1]

end Machine
end Sys2Proof
end

section
/-! PROOFS. mcas at issue (O23; spec/11 R264, R265): its entries in address order, and what holds queue B. -/

namespace Sys2Proof
namespace Machine

/-! ### Entries in ascending physical address -/

theorem insertEnt_perm (e : McasEnt) (es : List McasEnt) : (insertEnt e es).Perm (e :: es) := by
  induction es with
  | nil => exact .refl _
  | cons d es ih =>
    unfold insertEnt
    split
    · exact .refl _
    · exact (ih.cons d).trans (.swap ..)

theorem insertEnt_sorted (e : McasEnt) {es : List McasEnt} (h : es.Pairwise fun a b => a.pa ≤ b.pa) :
    (insertEnt e es).Pairwise fun a b => a.pa ≤ b.pa := by
  induction es with
  | nil => exact List.pairwise_singleton ..
  | cons d es ih =>
    obtain ⟨least, rest⟩ := List.pairwise_cons.mp h
    unfold insertEnt
    split
    · next below =>
      refine List.pairwise_cons.mpr ⟨fun x hx => ?_, h⟩
      rcases List.mem_cons.mp hx with rfl | hx
      · exact Nat.le_of_lt below
      · exact Nat.le_trans (Nat.le_of_lt below) (least x hx)
    · next above =>
      refine List.pairwise_cons.mpr ⟨fun x hx => ?_, ih rest⟩
      rcases List.mem_cons.mp ((insertEnt_perm e es).mem_iff.mp hx) with rfl | hx
      · exact Nat.not_lt.mp above
      · exact least x hx

theorem sortEnts_perm (es : List McasEnt) : (sortEnts es).Perm es := by
  induction es with
  | nil => exact .refl _
  | cons e es ih => exact (insertEnt_perm e _).trans (ih.cons e)

theorem sortEnts_sorted (es : List McasEnt) : (sortEnts es).Pairwise fun a b => a.pa ≤ b.pa := by
  induction es with
  | nil => exact List.Pairwise.nil
  | cons e es ih => exact insertEnt_sorted e ih

/-- Entries on lines of their own name no line twice. -/
theorem sameLine_none {seen es : List McasEnt} (h : (seen ++ es).Pairwise fun a b => lineOf a.pa ≠ lineOf b.pa) :
    sameLine seen es = none := by
  induction es generalizing seen with
  | nil => rfl
  | cons e es ih =>
    have new : seen.find? (fun d => lineOf d.pa == lineOf e.pa) = none := by
      refine List.find?_eq_none.mpr fun d hd same => ?_
      exact (List.pairwise_append.mp h).2.2 d hd e List.mem_cons_self (beq_iff_eq.mp same)
    simp only [sameLine, new]
    exact ih (by rwa [List.append_assoc])

/-! ### Issue -/

/-- An mcas that has reserved its entry and holds queue B. -/
def State.mcasHolds (s : State) (es : List McasEnt) : State :=
  (s.setFlight s.me.f.reserve).setFlight { s.me.f.reserve with
    holdB := some { bn := s.cur.bn, addr := s.cur.addr, what := .mcas { ents := es, since := s.clock, lq := s.me.f.lqNext } } }

section
variable {s : State} {g : BitVec 7} {z : BitVec 6} (hg : s.guardOn g = true)
include hg

theorem exec_mcas_badCount (bad : (s.rs z).toNat = 0 ∨ 16 < (s.rs z).toNat) (y : BitVec 6) :
    exec (.mcas g y z) s = s.raise (mcasTrap 1 (s.rs y) 0 0) := by
  rw [exec_mcas, execMcas, slotOp_on hg]
  simp only [decide_eq_true_eq, Bool.or_eq_true, bad, if_true]
  rfl

theorem exec_mcas_holds {y : BitVec 6} {s1 s2 s3 s4 : State} {es fs : List McasEnt} (some_ : 1 ≤ (s.rs z).toNat)
    (few : (s.rs z).toNat ≤ 16) (drained : s.drainStreams s.cur.seq = []) (sound : s.streamFault = none)
    (released : s.tryRelease s.cur.seq .sy = .ok s1 ()) (done : s1.tryHalDone s.cur.seq = .ok s2 ())
    (read : s2.mcasRead s.cur.seq (s.rs y) 0 (s.rs z).toNat = .ok s3 es) (checked : s3.mcasCheck s.cur.seq (s.rs y) es = .ok s4 fs)
    (lines : fs.Pairwise fun a b => lineOf a.pa ≠ lineOf b.pa) (room : s4.me.f.reserved.length < 64) :
    exec (.mcas g y z) s = .next (s4.mcasHolds (sortEnts fs)) := by
  have counted : ¬((s.rs z).toNat = 0 ∨ 16 < (s.rs z).toNat) := by omega
  rw [exec_mcas, execMcas, slotOp_on hg]
  simp only [decide_eq_true_eq, Bool.or_eq_true, counted, drained, sound, released, done, read, checked, sameLine_none (seen := []) lines,
    Try.bind, Try.res, List.isEmpty_nil, Bool.not_true, Bool.false_eq_true, if_false, Nat.not_le.mpr room, State.reserve,
    State.me_setFlight]
  rfl

end

theorem State.me_mcasHolds (s : State) (es : List McasEnt) : (s.mcasHolds es).me = { s.me with f := { s.me.f.reserve with
    holdB := some { bn := s.cur.bn, addr := s.cur.addr, what := .mcas { ents := es, since := s.clock, lq := s.me.f.lqNext } } } } := by
  rw [State.mcasHolds, State.me_setFlight, State.me_setFlight]

theorem State.mcasHolds_others (s : State) (es : List McasEnt) : s.sameOthers (s.mcasHolds es) s.cur.seq :=
  (s.sameOthers_setMe _).trans (State.sameOthers_setMe (s.setFlight _) _)

theorem State.mcasHolds_module (s : State) (es : List McasEnt) : s.sameModule (s.mcasHolds es) :=
  State.sameModule_trans (s.sameModule_setMe _) (State.sameModule_setMe (s.setFlight _) _)

/-- The reason of a trap 0x31 stands in the low byte of its word. -/
theorem mcasTrap_reason (y : Word) (i j : Nat) : (mcasTrap 1 y i j).w4.extractLsb' 0 8 = 1#8 := by
  refine BitVec.eq_of_toNat_eq ?_
  rw [mcasTrap, BitVec.extractLsb'_toNat, BitVec.toNat_ofNat, Nat.shiftRight_zero]
  simp

end Machine
end Sys2Proof
end

section
/-! PROOFS. The steps of an mcas (O23; spec/11 R266 to R268): locks, the decision, attempts and back-off, and the result. -/

namespace Sys2Proof
namespace Machine

theorem Seq.mcas_of {x : Seq} {hb : HoldB} {m : Mcas} (held : x.f.holdB = some hb) (what : hb.what = .mcas m) :
    x.mcas = some (hb, m) := by
  simp only [Seq.mcas, held, what]

/-- An mcas that is replaced, in a state with the same sequencers. -/
theorem State.mcasIs_setMcas {s u : State} (seqs : u.seqs = s.seqs) (q : Nat) (hb : HoldB) (m : Mcas) :
    Stmt.mcasIs s (u.setMcas q hb m) q hb m := by
  have seq : ∀ p, u.seq p = s.seq p := fun p => by rw [State.seq, State.seq, seqs]
  rw [Stmt.mcasIs, State.setMcas, State.seq_setSeq_same, seq]
  exact ⟨rfl, rfl, rfl, fun p hp => (State.seq_setSeq_other u _ hp).trans (seq p)⟩

theorem State.unlocked_unlock (s : State) (q : Nat) : Stmt.unlocked s (s.unlock q) q := by
  intro d e
  have die : (s.unlock q).die d = { s.die d with locks := (s.die d).locks.filter fun l => l.2 != q } := by
    rw [State.die, State.unlock, Tab.getD, Tab.get?_map_entries _ (by exact fun _ => rfl), State.die, Tab.getD]
    cases Tab.get? s.dies d <;> rfl
  rw [die, List.mem_filter, bne_iff_ne]

/-! ### An attempt is abandoned -/

section
variable {s : State} {q : Nat} {hb : HoldB} {m : Mcas} (held : (s.seq q).mcas = some (hb, m))
include held

theorem exec_mcasWindowExpire_early (early : s.mcasExpired m = false) : exec (.mcasWindowExpire q) s = .next s := by
  simp only [exec_mcasWindowExpire, execMcasWindowExpire, held, early, Bool.not_false, Bool.or_true, if_true]

theorem exec_mcasWindowExpire_late (open_ : m.result = none) (running : m.backoff = false) (late : s.mcasExpired m = true) :
    exec (.mcasWindowExpire q) s = .next (s.mcasFail q hb m) := by
  simp only [exec_mcasWindowExpire, execMcasWindowExpire, held, open_, running, late, Option.isSome_none, Bool.not_true, Bool.or_self,
    Bool.false_eq_true, if_false]

end

/-- The locks go, and the attempt is counted. -/
theorem State.mcasFail_counts (s : State) (q : Nat) (hb : HoldB) {m : Mcas} (early : m.attempt ≠ 15) : s.mcasFail q hb m =
    (s.unlock q).setMcas q hb { m with attempt := m.attempt + 1, held := 0, backoff := true, since := s.clock } :=
  if_neg (by omega)

theorem State.mcasFail_ends (s : State) (q : Nat) (hb : HoldB) {m : Mcas} (last : m.attempt = 15) : s.mcasFail q hb m =
    (s.unlock q).setMcas q hb { m with attempt := 16, held := 0, result := some 0x10000#64 } := by
  simp only [State.mcasFail, last, if_true]

/-! ### Between attempts -/

/-- What an mcas keeps of an entry in all its attempts. -/
def McasEnt.kept (e : McasEnt) : Nat × Word × Word × Word := (e.idx, e.va, e.x, e.y)

/-- One entry is translated again. -/
def State.refreshEnt (die ctx : Nat) (a : State × List McasEnt) (e : McasEnt) : State × List McasEnt :=
  match a.1.translate die ctx e.va { cls := pcHal, write := true } with
  | (s, .ok t) => (s, insertEnt { e with pa := t.pa } a.2)
  | (s, .error _) => (s, insertEnt e a.2)

theorem State.refreshEnt_state (die ctx : Nat) (a : State × List McasEnt) (e : McasEnt) :
    (State.refreshEnt die ctx a e).1 = (a.1.translate die ctx e.va { cls := pcHal, write := true }).1 := by
  unfold State.refreshEnt
  split
  · next found => rw [found]
  · next found => rw [found]

theorem State.refreshEnt_inserts (die ctx : Nat) (a : State × List McasEnt) (e : McasEnt) :
    ∃ d : McasEnt, d.kept = e.kept ∧ (State.refreshEnt die ctx a e).2 = insertEnt d a.2 := by
  unfold State.refreshEnt
  split
  · next t _ => exact ⟨{ e with pa := t.pa }, rfl, rfl⟩
  · exact ⟨e, rfl, rfl⟩

theorem State.refreshEnts_sorted (die ctx : Nat) (es : List McasEnt) (a : State × List McasEnt)
    (h : a.2.Pairwise fun a b => a.pa ≤ b.pa) : (es.foldl (State.refreshEnt die ctx) a).2.Pairwise fun a b => a.pa ≤ b.pa := by
  induction es generalizing a with
  | nil => exact h
  | cons e es ih =>
    obtain ⟨d, -, inserted⟩ := State.refreshEnt_inserts die ctx a e
    exact ih _ (by rw [inserted]; exact insertEnt_sorted d h)

theorem State.refreshEnts_perm (die ctx : Nat) (es : List McasEnt) (a : State × List McasEnt) :
    ((es.foldl (State.refreshEnt die ctx) a).2.map McasEnt.kept).Perm (es.map McasEnt.kept ++ a.2.map McasEnt.kept) := by
  induction es generalizing a with
  | nil => exact .refl _
  | cons e es ih =>
    obtain ⟨d, same, inserted⟩ := State.refreshEnt_inserts die ctx a e
    refine (ih _).trans ?_
    rw [inserted, List.map_cons, ← same]
    exact (((insertEnt_perm d a.2).map _).append_left _).trans List.perm_middle

/-- The cached translations of some addresses are forgotten. -/
def State.forgetAll (s : State) (die ctx : Nat) (es : List McasEnt) : State := es.foldl (fun s e => s.forget die ctx e.va) s

theorem State.mcasRefresh_eq (s : State) (q : Nat) (m : Mcas) : s.mcasRefresh q m =
    ((m.ents.foldl (State.refreshEnt (dieOf q) (s.ctxOf q)) (s.forgetAll (dieOf q) (s.ctxOf q) m.ents, [])).1,
      { m with ents := (m.ents.foldl (State.refreshEnt (dieOf q) (s.ctxOf q)) (s.forgetAll (dieOf q) (s.ctxOf q) m.ents, [])).2 }) := rfl

/-- The sequencers, the clock and the locks stand. -/
structure State.keepsLocks (s t : State) : Prop where
  seqs : t.seqs = s.seqs
  clock : t.clock = s.clock
  locks : ∀ d, (t.die d).locks = (s.die d).locks

theorem State.keepsLocks.refl (s : State) : s.keepsLocks s := ⟨rfl, rfl, fun _ => rfl⟩

theorem State.keepsLocks.trans {s t u : State} (h : s.keepsLocks t) (k : t.keepsLocks u) : s.keepsLocks u :=
  ⟨k.seqs.trans h.seqs, k.clock.trans h.clock, fun d => (k.locks d).trans (h.locks d)⟩

theorem State.homeWork.keepsLocks {s t : State} (h : s.homeWork t) (seqs : t.seqs = s.seqs) : s.keepsLocks t :=
  ⟨seqs, h.clock, h.locks⟩

/-- The TLB of a die may change. -/
theorem State.keepsLocks_tlb (s : State) (n : Nat) (tlb : List TlbEnt) : s.keepsLocks (s.setDie n { s.die n with tlb := tlb }) := by
  refine ⟨rfl, rfl, fun d => ?_⟩
  rw [State.die_setDie]
  split
  · next same => rw [same]
  · rfl

theorem State.keepsLocks_homeErr (s : State) (l : Nat) (acc : Acc) : s.keepsLocks (s.homeErr l acc).1 := by
  obtain ⟨t, work, same⟩ := s.meetHome_cases l
  have kept : (s.meetHome l).1.clock = t.clock ∧ (s.meetHome l).1.dies = t.dies := by
    rcases same with same | ⟨c, w, same⟩
    · rw [same]; exact ⟨rfl, rfl⟩
    · rw [same]; exact ⟨rfl, rfl⟩
  exact ⟨(s.homeErr_frame l acc).1, kept.1.trans work.clock,
    fun d => (congrArg (fun ds => (Tab.getD ds d ({} : Die)).locks) kept.2).trans (work.locks d)⟩

theorem State.keepsLocks_owe (s : State) (ctx : Nat) (t : Trap) : s.keepsLocks (s.owe ctx t) := by
  unfold State.owe
  split
  · exact .refl s
  · exact ⟨rfl, rfl, fun _ => rfl⟩

theorem State.keepsLocks_lookup (s : State) (die ctx : Nat) (va : Word) (w : Bool) : s.keepsLocks (s.lookup die ctx va w).1 := by
  cases needs : s.needsWalk die ctx va w with
  | false =>
    obtain ⟨t, found⟩ := State.lookup_cached needs
    rw [found]
    exact .refl s
  | true =>
    rw [State.lookup_walks needs, State.walked]
    split
    · next t _ => exact ((s.homeWork_touchPath ctx t).keepsLocks (s.touchPath_frame ctx t).1).trans (State.keepsLocks_tlb ..)
    · exact .refl s

theorem State.keepsLocks_translateN (s : State) (die ctx : Nat) (va : Word) (acc : Acc) (n : Nat) :
    s.keepsLocks (s.translateN die ctx va acc n).1 := by
  induction n generalizing s with
  | zero => exact .refl s
  | succ n ih =>
    have looked := s.keepsLocks_lookup die ctx va acc.write
    unfold State.translateN
    split
    · next found => rw [found] at looked; exact looked
    · next found => rw [found] at looked; exact looked
    · next found => rw [found] at looked; exact looked
    · next s1 l found =>
      rw [found] at looked
      have home := s1.keepsLocks_homeErr l { acc with write := false }
      split
      all_goals
        rename_i err
        rw [err] at home
      · exact looked.trans home
      · exact (looked.trans home).trans ((State.keepsLocks_owe ..).trans (ih _))
      · exact (looked.trans home).trans (ih _)
    · next found =>
      rw [found] at looked
      split
      · exact looked
      · exact looked

theorem State.keepsLocks_translate (s : State) (die ctx : Nat) (va : Word) (acc : Acc) :
    s.keepsLocks (s.translate die ctx va acc).1 := by
  unfold State.translate
  split
  · exact .refl s
  · split
    · exact .refl s
    · exact s.keepsLocks_translateN ..

theorem State.keepsLocks_forgetAll (s : State) (die ctx : Nat) (es : List McasEnt) : s.keepsLocks (s.forgetAll die ctx es) := by
  unfold State.forgetAll
  induction es generalizing s with
  | nil => exact .refl s
  | cons e es ih => exact (s.keepsLocks_tlb die _).trans (ih _)

theorem State.keepsLocks_refreshEnts (die ctx : Nat) (es : List McasEnt) (a : State × List McasEnt) :
    a.1.keepsLocks (es.foldl (State.refreshEnt die ctx) a).1 := by
  induction es generalizing a with
  | nil => exact .refl _
  | cons e es ih =>
    refine State.keepsLocks.trans ?_ (ih _)
    rw [State.refreshEnt_state]
    exact a.1.keepsLocks_translate ..

/-- Fresh translations of an mcas: its entries with their addresses, in ascending order, and its locks. -/
theorem State.mcasRefresh_spec (s : State) (q : Nat) (m : Mcas) : ∃ t es, s.mcasRefresh q m = (t, { m with ents := es }) ∧
    s.keepsLocks t ∧ es.Pairwise (fun a b => a.pa ≤ b.pa) ∧ (es.map McasEnt.kept).Perm (m.ents.map McasEnt.kept) := by
  refine ⟨_, _, s.mcasRefresh_eq q m, ?_, State.refreshEnts_sorted _ _ _ _ List.Pairwise.nil, ?_⟩
  · exact (s.keepsLocks_forgetAll ..).trans (State.keepsLocks_refreshEnts _ _ _ (_, []))
  · exact (State.refreshEnts_perm ..).trans (by rw [List.map_nil, List.append_nil])

theorem exec_mcasBackoffExpire_begins {s : State} {q : Nat} {hb : HoldB} {m : Mcas} (held : (s.seq q).mcas = some (hb, m))
    (waits : m.backoff = true) (late : m.since + 64 * m.attempt ≤ s.clock) {t : State} {es : List McasEnt}
    (fresh : s.mcasRefresh q m = (t, { m with ents := es })) : exec (.mcasBackoffExpire q) s =
      .next (t.setMcas q hb { m with ents := es, backoff := false, since := s.clock }) := by
  simp only [exec_mcasBackoffExpire, execMcasBackoffExpire, held, waits, late, decide_true, Bool.and_self, if_true, fresh]

/-! ### The result -/

theorem exec_mcasResultReturn_arrives {s : State} {q : Nat} {hb : HoldB} {m : Mcas} {w : Word} (held : (s.seq q).mcas = some (hb, m))
    (decided : m.result = some w) : exec (.mcasResultReturn q) s =
      .next (((s.setSeq q ((s.seq q).arrive m.lq w)).bump (coreOf q) .sy).endHold q hb.bn) := by
  simp only [exec_mcasResultReturn, execMcasResultReturn, held, decided]

end Machine
end Sys2Proof
end

section
/-! PROOFS. MCAS_LOCK_GRANT (O23; spec/11 R266 to R268): a lock is granted, and the last one decides. -/

namespace Sys2Proof
namespace Machine

/-! ### Places that are translated as they stand -/

/-- A written word's translation is cached with D set, in the domain, and its line is seen through its key. -/
def State.settled (s : State) (die ctx : Nat) (va : Word) : Prop :=
  ∃ x, s.tlbFind die ctx va = some x ∧ eD x.e2 = true ∧ eNc x.e2 = false ∧
    s.keyOf (lineOf (x.tr va).pa) = (s.kid (eKsl x.e2)).getD 0

theorem State.settled.of_homeWork {s t : State} {die ctx : Nat} {va : Word} (h : s.settled die ctx va) (work : s.homeWork t) :
    t.settled die ctx va := by
  obtain ⟨x, cached, dirty, inside, key⟩ := h
  refine ⟨x, by rwa [State.tlbFind, work.tlb], dirty, inside, ?_⟩
  rw [State.keyOf, State.kid, work.key, work.mast]
  exact key

/-- Such an access changes nothing, whatever it meets. -/
theorem State.settled.translate {s : State} {die ctx : Nat} {va : Word} (h : s.settled die ctx va) (acc : Acc) :
    ∃ r, s.translate die ctx va acc = (s, r) ∧ ∀ t, r = .ok t → s.setDirty die ctx va t = s ∧ s.useKey t = s ∧
      eNc t.e2 = false ∧ eD t.e2 = true := by
  obtain ⟨x, cached, dirty, inside, key⟩ := h
  have needs : s.needsWalk die ctx va acc.write = false := by
    simp only [State.needsWalk, cached, dirty, Bool.not_true, Bool.and_false, Bool.false_and]
  have same := State.translate_cached needs
  rcases found : s.translate die ctx va acc with ⟨u, r⟩
  rw [found] at same
  obtain rfl : u = s := same
  refine ⟨r, rfl, fun t ok => ?_⟩
  rw [ok] at found
  obtain ⟨x', cached', rfl, -⟩ := State.tlbFind_of_translate found
  obtain rfl : x = x' := Option.some.inj (cached.symm.trans cached')
  exact ⟨State.setDirty_same (t := x.tr va) dirty die ctx va, State.useKey_same (t := x.tr va) key, inside, dirty⟩

theorem State.settled.writeGate {s : State} {die ctx : Nat} {va : Word} (h : s.settled die ctx va) : s.writeGate die ctx va = none := by
  obtain ⟨r, translated, ok⟩ := h.translate { cls := pcMem, write := true }
  obtain ⟨x, cached, dirty, -⟩ := h
  have free : s.walkHeld die ctx va true = false := by
    simp only [State.walkHeld, State.needsWalk, cached, dirty, Bool.not_true, Bool.and_false, Bool.false_and]
  rw [State.writeGate, free, translated]
  cases r with
  | error t => rfl
  | ok t =>
    obtain ⟨-, -, inside, set⟩ := ok t rfl
    simp only [inside, State.dirtyGate, set, Bool.false_and, Bool.or_true, Bool.false_eq_true, if_false, if_true]

/-! ### A decision (spec/11 R268) -/

/-- Every word of an mcas is read at its home. -/
def State.mcasReads (s : State) (ctx : Nat) (es : List McasEnt) : State :=
  es.foldl (fun s e => s.mscTouch (lineOf e.pa) ctx pcHal false true) s

theorem State.mcasReads_frame (s : State) (ctx : Nat) (es : List McasEnt) : s.homeWork (s.mcasReads ctx es) ∧
    (s.mcasReads ctx es).seqs = s.seqs ∧ ∀ a, (s.mcasReads ctx es).engByte a = s.engByte a := by
  unfold State.mcasReads
  induction es generalizing s with
  | nil => exact ⟨.refl s, rfl, fun _ => rfl⟩
  | cons e es ih =>
    obtain ⟨work, seqs, bytes⟩ := ih (s.mscTouch (lineOf e.pa) ctx pcHal false true)
    exact ⟨(s.homeWork_mscTouch ..).trans work, seqs.trans (State.mscTouch_seqs ..),
      fun a => (bytes a).trans (State.engByte_mscTouch ..)⟩

/-- The write of one word of an mcas. -/
def State.mcasWrite (die ctx : Nat) (s : State) (e : McasEnt) : State :=
  let s1 := match s.translate die ctx e.va { cls := pcHal, write := true } with
    | (s1, .ok t) => (s1.setDirty die ctx e.va t).useKey t
    | (s1, .error _) => s1
  (s1.mscTouch (lineOf e.pa) ctx pcHal true true).engSetWord e.pa e.y

theorem State.mcasWrite_settled {s : State} {die ctx : Nat} {e : McasEnt} (h : s.settled die ctx e.va) :
    s.mcasWrite die ctx e = (s.mscTouch (lineOf e.pa) ctx pcHal true true).engSetWord e.pa e.y := by
  obtain ⟨r, translated, ok⟩ := h.translate { cls := pcHal, write := true }
  unfold State.mcasWrite
  simp only [translated]
  cases r with
  | error t => rfl
  | ok t =>
    obtain ⟨dirty, key, -⟩ := ok t rfl
    simp only [dirty, key]

theorem State.mcasWrite_frame {s : State} {die ctx : Nat} {e : McasEnt} (h : s.settled die ctx e.va) (aligned : e.pa % 8 = 0) :
    s.homeWork (s.mcasWrite die ctx e) ∧ (s.mcasWrite die ctx e).seqs = s.seqs ∧ (s.mcasWrite die ctx e).engWord e.pa = e.y ∧
      ∀ a, a < e.pa ∨ e.pa + 8 ≤ a → (s.mcasWrite die ctx e).engByte a = s.engByte a := by
  rw [State.mcasWrite_settled h]
  refine ⟨(s.homeWork_mscTouch ..).trans (State.homeWork_engSetWord ..), ?_, State.engWord_engSetWord_same _ aligned _,
    fun a outside => ?_⟩
  · rw [State.engSetWord_seqs, State.mscTouch_seqs]
  · rw [State.engByte_engSetWord _ aligned, if_neg (by omega), State.engByte_mscTouch]

/-- All the words of an mcas are written, and nothing else. -/
theorem State.mcasWrites_frame {die ctx : Nat} {es : List McasEnt} {s : State} (settled : ∀ e ∈ es, s.settled die ctx e.va)
    (aligned : ∀ e ∈ es, e.pa % 8 = 0) (lines : es.Pairwise fun a b => lineOf a.pa ≠ lineOf b.pa) :
    let t := es.foldl (State.mcasWrite die ctx) s
    t.seqs = s.seqs ∧ (∀ e ∈ es, t.engWord e.pa = e.y) ∧
      ∀ a, (∀ e ∈ es, a < e.pa ∨ e.pa + 8 ≤ a) → t.engByte a = s.engByte a := by
  induction es generalizing s with
  | nil => exact ⟨rfl, fun e he => absurd he List.not_mem_nil, fun _ _ => rfl⟩
  | cons e es ih =>
    obtain ⟨work, seqs, word, bytes⟩ := State.mcasWrite_frame (settled e List.mem_cons_self) (aligned e List.mem_cons_self)
    obtain ⟨apart, lines⟩ := List.pairwise_cons.mp lines
    obtain ⟨seqs', words, bytes'⟩ := ih (fun d hd => (settled d (List.mem_cons_of_mem e hd)).of_homeWork work)
      (fun d hd => aligned d (List.mem_cons_of_mem e hd)) lines
    refine ⟨seqs'.trans seqs, fun d hd => ?_, fun a outside => ?_⟩
    · rcases List.mem_cons.mp hd with rfl | hd
      · refine (State.engWord_congr fun b lo hi => bytes' b fun x hx => ?_).trans word
        have ne := apart x hx
        have hd8 := aligned d List.mem_cons_self
        have hx8 := aligned x (List.mem_cons_of_mem d hx)
        unfold lineOf at ne
        omega
      · exact words d hd
    · exact (bytes' a fun d hd => outside d (List.mem_cons_of_mem e hd)).trans (bytes a (outside e List.mem_cons_self))

/-- The entries that do not compare. -/
def State.mcasBad (s : State) (es : List McasEnt) : List McasEnt := es.filter fun e => s.engWord e.pa != e.x

theorem State.mcasDecide_writes {s : State} {q : Nat} {m : Mcas} (equal : ∀ e ∈ m.ents, s.engWord e.pa = e.x) : s.mcasDecide q m =
    (m.ents.foldl (State.mcasWrite (dieOf q) (s.ctxOf q)) (s.mcasReads (s.ctxOf q) m.ents), 0#64) := by
  have words : ∀ e : McasEnt, (s.mcasReads (s.ctxOf q) m.ents).engWord e.pa = s.engWord e.pa := fun e =>
    State.engWord_congr fun b _ _ => (s.mcasReads_frame _ _).2.2 b
  have none_bad : ((s.mcasReads (s.ctxOf q) m.ents).mcasBad m.ents).isEmpty = true := by
    rw [List.isEmpty_iff, State.mcasBad, List.filter_eq_nil_iff]
    exact fun e he => by rw [words, equal e he]; simp
  exact if_pos none_bad

theorem State.mcasDecide_refuses {s : State} {q : Nat} {m : Mcas} (differs : ∃ e ∈ m.ents, s.engWord e.pa ≠ e.x) : s.mcasDecide q m =
    (s.mcasReads (s.ctxOf q) m.ents, BitVec.ofNat 64 ((s.mcasBad m.ents).foldl (fun a e => a + 2 ^ e.idx) 0)) := by
  have words : ∀ e : McasEnt, (s.mcasReads (s.ctxOf q) m.ents).engWord e.pa = s.engWord e.pa := fun e =>
    State.engWord_congr fun b _ _ => (s.mcasReads_frame _ _).2.2 b
  have same : (s.mcasReads (s.ctxOf q) m.ents).mcasBad m.ents = s.mcasBad m.ents := by
    simp only [State.mcasBad, words]
  obtain ⟨e, he, ne⟩ := differs
  have some_bad : ¬((s.mcasReads (s.ctxOf q) m.ents).mcasBad m.ents).isEmpty = true := by
    rw [List.isEmpty_iff, same, State.mcasBad, List.filter_eq_nil_iff]
    exact fun all => all e he (bne_iff_ne.mpr ne)
  rw [← same]
  exact if_neg some_bad

/-- A power of two is added to a number without that bit. -/
theorem getLsbD_ofNat_add_twoPow {a i : Nat} (clear : (BitVec.ofNat 64 a).getLsbD i = false) (hi : i < 64) (n : Nat) :
    (BitVec.ofNat 64 (a + 2 ^ i)).getLsbD n = ((BitVec.ofNat 64 a).getLsbD n || decide (i = n)) := by
  have apart : BitVec.ofNat 64 a &&& BitVec.twoPow 64 i = 0#64 := by rw [BitVec.and_twoPow, clear]; rfl
  have sum : BitVec.ofNat 64 (a + 2 ^ i) = BitVec.ofNat 64 a ||| BitVec.twoPow 64 i := by
    rw [← BitVec.add_eq_or_of_and_eq_zero _ _ apart, BitVec.ofNat_add]
    exact congrArg (BitVec.ofNat 64 a + ·) (BitVec.eq_of_toNat_eq (by rw [BitVec.toNat_twoPow, BitVec.toNat_ofNat]))
  rw [sum, BitVec.getLsbD_or, BitVec.getLsbD_twoPow, decide_eq_true hi, Bool.true_and]

/-- The sum of powers of two with distinct exponents has the bits of its exponents. -/
theorem getLsbD_sumOfPowers {es : List McasEnt} (distinct : (es.map (·.idx)).Nodup) (small : ∀ e ∈ es, e.idx < 16) {a : Nat}
    (clear : ∀ e ∈ es, (BitVec.ofNat 64 a).getLsbD e.idx = false) (n : Nat) :
    (BitVec.ofNat 64 (es.foldl (fun a e => a + 2 ^ e.idx) a)).getLsbD n = true ↔
      (BitVec.ofNat 64 a).getLsbD n = true ∨ ∃ e ∈ es, e.idx = n := by
  induction es generalizing a with
  | nil => simp
  | cons e es ih =>
    obtain ⟨new, distinct⟩ := List.nodup_cons.mp distinct
    have hi : e.idx < 64 := Nat.lt_trans (small e List.mem_cons_self) (by decide)
    have bit := getLsbD_ofNat_add_twoPow (clear e List.mem_cons_self) hi
    rw [List.foldl_cons, ih distinct (fun d hd => small d (List.mem_cons_of_mem e hd)) fun d hd => ?_, bit]
    · simp only [Bool.or_eq_true, decide_eq_true_eq, List.mem_cons, exists_eq_or_imp, or_assoc]
    · rw [bit, clear d (List.mem_cons_of_mem e hd), Bool.false_or, decide_eq_false_iff_not]
      exact fun same => new (List.mem_map.mpr ⟨d, hd, same.symm⟩)

end Machine
end Sys2Proof
end

section
/-! PROOFS. mcas settled (O23; spec/11 R264 to R268) and requesters answered moved (O24; spec/11 R266, spec/18 R393). -/

namespace Sys2Proof
namespace Machine

/-! ### MCAS_LOCK_GRANT -/

/-- The home of an entry has taken its line, and has entered its lock. -/
def State.mcasLocked (s : State) (q : Nat) (e : McasEnt) : State :=
  let s1 := s.homeHal (lineOf e.pa)
  s1.setDie (s.homeDie e.pa) { s1.die (s.homeDie e.pa) with locks := Tab.put (s1.die (s.homeDie e.pa)).locks (lineOf e.pa) q }

theorem State.mcasLocked_frame (s : State) (q : Nat) (e : McasEnt) : (s.mcasLocked q e).seqs = s.seqs ∧
    (∀ a, (s.mcasLocked q e).engByte a = s.engByte a) ∧
    Tab.get? ((s.mcasLocked q e).die (s.homeDie e.pa)).locks (lineOf e.pa) = some q := by
  refine ⟨State.homeHal_seqs .., (s.homeHal_tookHal (lineOf e.pa)).engByte, ?_⟩
  rw [State.mcasLocked, State.die_setDie_same, Tab.get?_put_same]

theorem State.ctxOf_mcasLocked (s : State) (p q : Nat) (e : McasEnt) : (s.mcasLocked q e).ctxOf p = s.ctxOf p := by
  have groups : (s.mcasLocked q e).groups = s.groups := (s.homeWork_homeHal _).groups
  rw [State.ctxOf, State.ctxOf, State.groupOf, State.groupOf, groups]

theorem State.settled_mcasLocked {s : State} {die ctx : Nat} {va : Word} (h : s.settled die ctx va) (q : Nat) (e : McasEnt) :
    (s.mcasLocked q e).settled die ctx va := by
  have work := s.homeWork_homeHal (lineOf e.pa)
  obtain ⟨x, cached, dirty, inside, key⟩ := h.of_homeWork work
  refine ⟨x, ?_, dirty, inside, key⟩
  have tlb : ((s.mcasLocked q e).die die).tlb = ((s.homeHal (lineOf e.pa)).die die).tlb := by
    rw [State.mcasLocked, State.die_setDie]
    split
    · next same => rw [same]
    · rfl
  rwa [State.tlbFind, tlb]

/-- The state once the last lock is held and the mcas has decided. -/
def State.mcasDecided (s : State) (q : Nat) (hb : HoldB) (m : Mcas) (e : McasEnt) : State :=
  let d := (s.mcasLocked q e).mcasDecide q m
  (d.1.unlock q).setMcas q hb { m with held := 0, result := some d.2 }

section
variable {s : State} {q : Nat} {hb : HoldB} {m : Mcas} {e : McasEnt}

theorem State.mcasLock_more (more : m.held + 1 < m.ents.length) : s.mcasLock q hb m e =
    (s.mcasLocked q e).setMcas q hb { m with held := m.held + 1 } := by
  simp only [State.mcasLock, more, if_true]
  rfl

theorem State.mcasLock_last (last : m.held + 1 = m.ents.length) : s.mcasLock q hb m e = s.mcasDecided q hb m e := by
  simp only [State.mcasLock, last, Nat.lt_irrefl, if_false]
  rfl

/-- A lock that nothing keeps from its home is granted. -/
theorem exec_mcasLockGrant_grants {tr : Tr} (held : (s.seq q).mcas = some (hb, m)) (open_ : m.result = none) (running : m.backoff = false)
    (early : s.mcasExpired m = false) (next : m.ents[m.held]? = some e)
    (granted : s.translate (dieOf q) (s.ctxOf q) e.va { cls := pcHal, write := true } = (s, .ok tr)) (stays : tr.pa = e.pa)
    (free : Tab.get? (s.die (s.homeDie e.pa)).locks (lineOf e.pa) = none) (room : (s.die (s.homeDie e.pa)).locks.length < 256)
    (gate : s.gate (lineOf e.pa) true = none)
    (ready : ∀ d ∈ (if m.held + 1 < m.ents.length then [e] else m.ents),
      s.routed (paDev d.pa) = true ∧ s.writeGate (dieOf q) (s.ctxOf q) d.va = none) :
    exec (.mcasLockGrant q) s = .next (s.mcasLock q hb m e) := by
  have all_ready : ((if m.held + 1 < m.ents.length then [e] else m.ents).findSome? fun d =>
      if !s.routed (paDev d.pa) then some (s, []) else s.writeGate (dieOf q) (s.ctxOf q) d.va) = none := by
    refine List.findSome?_eq_none_iff.mpr fun d hd => ?_
    obtain ⟨routed, gate⟩ := ready d hd
    rw [routed, gate]
    rfl
  simp only [exec_mcasLockGrant, execMcasLockGrant, held, open_, running, early, next, free, Nat.not_le.mpr room, gate, all_ready, granted,
    stays, Option.orElse, Option.isSome_none, Bool.or_self, Bool.false_eq_true, if_false, if_true]

end

theorem routed_of_gate {s : State} {pa : Nat} (gate : s.gate (lineOf pa) true = none) : s.routed (paDev pa) = true := by
  have device : paDev (lineOf pa * 64) = paDev pa := by unfold paDev lineOf; omega
  unfold State.gate at gate
  rw [device] at gate
  cases routed : s.routed (paDev pa) with
  | true => rfl
  | false => rw [routed] at gate; cases gate

/-- The entry that a decision finds to differ. -/
theorem State.mem_mcasBad {s : State} {es : List McasEnt} {e : McasEnt} : e ∈ s.mcasBad es ↔ e ∈ es ∧ s.engWord e.pa ≠ e.x := by
  rw [State.mcasBad, List.mem_filter, bne_iff_ne]

section
variable {s : State} {q : Nat} {m : Mcas}

theorem State.mcasDecided_writes (hb : HoldB) (e : McasEnt) (lines : m.ents.Pairwise fun a b => lineOf a.pa ≠ lineOf b.pa)
    (aligned : ∀ d ∈ m.ents, d.pa % 8 = 0) (settled : ∀ d ∈ m.ents, s.settled (dieOf q) (s.ctxOf q) d.va)
    (equal : ∀ d ∈ m.ents, s.engWord d.pa = d.x) :
    Stmt.mcasIs s (s.mcasDecided q hb m e) q hb { m with held := 0, result := some 0#64 } ∧
      (∀ d ∈ m.ents, (s.mcasDecided q hb m e).engWord d.pa = d.y) ∧
      ∀ p, (∀ d ∈ m.ents, p < d.pa ∨ d.pa + 8 ≤ p) → (s.mcasDecided q hb m e).engByte p = s.engByte p := by
  obtain ⟨seqs, bytes, -⟩ := s.mcasLocked_frame q e
  have words : ∀ a, (s.mcasLocked q e).engWord a = s.engWord a := fun a => State.engWord_congr fun b _ _ => bytes b
  have decides := State.mcasDecide_writes (s := s.mcasLocked q e) (q := q) (m := m) fun d hd => (words d.pa).trans (equal d hd)
  obtain ⟨work, seqs', bytes'⟩ := (s.mcasLocked q e).mcasReads_frame ((s.mcasLocked q e).ctxOf q) m.ents
  obtain ⟨wseqs, written, kept⟩ := State.mcasWrites_frame (die := dieOf q) (ctx := (s.mcasLocked q e).ctxOf q)
    (s := (s.mcasLocked q e).mcasReads ((s.mcasLocked q e).ctxOf q) m.ents)
    (fun d hd => by
      rw [State.ctxOf_mcasLocked] at work ⊢
      exact (State.settled_mcasLocked (settled d hd) q e).of_homeWork work) aligned lines
  rw [State.mcasDecided, decides]
  refine ⟨State.mcasIs_setMcas ((wseqs.trans seqs').trans seqs) q hb _, fun d hd => written d hd, fun p outside => ?_⟩
  exact ((kept p outside).trans (bytes' p)).trans (bytes p)

theorem State.mcasDecided_refuses (hb : HoldB) (e : McasEnt) (differs : ∃ d ∈ m.ents, s.engWord d.pa ≠ d.x)
    (distinct : (m.ents.map (·.idx)).Nodup) (small : ∀ d ∈ m.ents, d.idx < 16) :
    ∃ w, Stmt.mcasIs s (s.mcasDecided q hb m e) q hb { m with held := 0, result := some w } ∧
      (∀ p, (s.mcasDecided q hb m e).engByte p = s.engByte p) ∧
      ∀ n, w.getLsbD n = true ↔ ∃ d ∈ m.ents, d.idx = n ∧ s.engWord d.pa ≠ d.x := by
  obtain ⟨seqs, bytes, -⟩ := s.mcasLocked_frame q e
  have words : ∀ a, (s.mcasLocked q e).engWord a = s.engWord a := fun a => State.engWord_congr fun b _ _ => bytes b
  have bad : (s.mcasLocked q e).mcasBad m.ents = s.mcasBad m.ents := by simp only [State.mcasBad, words]
  obtain ⟨d, hd, ne⟩ := differs
  have decides := State.mcasDecide_refuses (s := s.mcasLocked q e) (q := q) (m := m) ⟨d, hd, by rw [words]; exact ne⟩
  obtain ⟨-, seqs', bytes'⟩ := (s.mcasLocked q e).mcasReads_frame ((s.mcasLocked q e).ctxOf q) m.ents
  rw [State.mcasDecided, decides, bad]
  refine ⟨_, State.mcasIs_setMcas (seqs'.trans seqs) q hb _, fun p => (bytes' p).trans (bytes p), fun n => ?_⟩
  have sub : (s.mcasBad m.ents).Sublist m.ents := List.filter_sublist
  rw [getLsbD_sumOfPowers (distinct.sublist (sub.map _)) (fun d hd => small d (sub.subset hd)) (fun d _ => by simp)]
  simp only [State.mem_mcasBad, BitVec.getLsbD_zero, Bool.false_eq_true, false_or]
  exact exists_congr fun d => ⟨fun ⟨⟨hd, ne⟩, same⟩ => ⟨hd, same, ne⟩, fun ⟨hd, same, ne⟩ => ⟨⟨hd, ne⟩, same⟩⟩

end

/-- Settles O23: an mcas captures its entries in address order, takes their locks, writes all words or none, and counts its attempts. -/
theorem mcasIsAllOrNothing : Obligations.McasIsAllOrNothing := by
  refine ⟨fun s g y z hg => ⟨fun bad => ?_, fun s1 s2 s3 s4 es fs some_ few drained sound released done read checked lines room => ?_⟩,
    fun s q hb m held what open_ => ?_, fun s q hb m w e held what decided entry unpopped => ?_⟩
  · exact ⟨_, rfl, mcasTrap_reason _ _ _, exec_mcas_badCount hg bad y⟩
  · refine ⟨_, _, exec_mcas_holds hg some_ few drained sound released done read checked lines room, sortEnts_perm fs, sortEnts_sorted fs,
      ?_, ?_, s4.mcasHolds_others _, s4.mcasHolds_module _, ?_⟩
    · rw [State.me_mcasHolds]
    · rw [State.me_mcasHolds]
    · rw [State.me_mcasHolds]
      rfl
  · have mcas := Seq.mcas_of held what
    intro w
    refine ⟨fun e tr running inTime next granted stays inside free room gate => ?_, fun inTime => ?_, fun running late => ?_,
      fun waits late => ?_⟩
    · have early : s.mcasExpired m = false := decide_eq_false (Nat.not_le.mpr inTime)
      obtain ⟨x, cached, rfl, dirty⟩ := State.tlbFind_of_translate granted
      have ready : s.writeGate (dieOf q) (s.ctxOf q) e.va = none :=
        State.writeGate_none (State.translate_class pcMem granted) inside (by
          have nc : eNc x.e2 = false := inside
          change eD x.e2 = true
          simpa [nc] using dirty)
      have grants := fun ready => exec_mcasLockGrant_grants mcas open_ running early next granted stays free room gate ready
      refine ⟨fun more => ?_, fun last lines all => ?_⟩
      · have run := grants fun d hd => by
          rw [if_pos more, List.mem_singleton] at hd
          rw [hd]
          exact ⟨routed_of_gate gate, ready⟩
        rw [State.mcasLock_more more] at run
        obtain ⟨seqs, bytes, lock⟩ := s.mcasLocked_frame q e
        exact ⟨_, run, State.mcasIs_setMcas seqs q hb _, bytes, lock⟩
      · have settled : ∀ d ∈ m.ents, s.settled (dieOf q) (s.ctxOf q) d.va := fun d hd => (all d hd).2.2
        have run := grants fun d hd => by
          rw [if_neg (by omega)] at hd
          exact ⟨(all d hd).2.1, (settled d hd).writeGate⟩
        rw [State.mcasLock_last last] at run
        refine ⟨fun equal => ?_, fun differs distinct small => ?_⟩
        · exact ⟨_, run, State.mcasDecided_writes hb e lines (fun d hd => (all d hd).1) settled equal⟩
        · obtain ⟨w, spec⟩ := State.mcasDecided_refuses (q := q) hb e differs distinct small
          exact ⟨_, w, run, spec⟩
    · exact exec_mcasWindowExpire_early mcas (decide_eq_false (Nat.not_le.mpr inTime))
    · have run := exec_mcasWindowExpire_late mcas open_ running (decide_eq_true late)
      refine ⟨fun early => ?_, fun last => ?_⟩
      · rw [State.mcasFail_counts s q hb (by omega)] at run
        exact ⟨_, run, s.unlocked_unlock q, rfl, State.mcasIs_setMcas rfl q hb _⟩
      · rw [State.mcasFail_ends s q hb last] at run
        exact ⟨_, run, s.unlocked_unlock q, rfl, State.mcasIs_setMcas rfl q hb _⟩
    · obtain ⟨t, es, fresh, kept, sorted, perm⟩ := s.mcasRefresh_spec q m
      exact ⟨_, es, exec_mcasBackoffExpire_begins mcas waits late fresh, perm, sorted, State.mcasIs_setMcas kept.seqs q hb _⟩
  · have arrived := Seq.arrive_waiting entry unpopped w
    have run := exec_mcasResultReturn_arrives (Seq.mcas_of held what) decided
    generalize (s.seq q).arrive m.lq w = x at run arrived
    have seqs := ((s.setSeq q x).bump_frame (coreOf q) .sy).1
    obtain ⟨freed, regs, issued, others⟩ := State.endHold_issues seqs q hb.bn
    have lq : ((((s.setSeq q x).bump (coreOf q) .sy).endHold q hb.bn).seq q).f.lq = ((s.setSeq q x).seq q).f.lq := by
      rw [State.seq_endHold, State.seq, seqs]
      rfl
    rw [State.seq_setSeq_same] at regs issued lq
    subst arrived
    refine ⟨_, run, freed, regs, lq, issued, fun p hp => (others p hp).trans (State.seq_setSeq_other s _ hp), ?_⟩
    rw [State.core_endHold]
    exact State.gen_bump_congr (s := s) (t := s.setSeq q _) rfl .sy

/-! ### MOVED_RESPONSE (spec/18 R393, spec/11 R266) -/

theorem exec_movedResponse_forgets {s : State} {q : Nat} {va : Word} (free : (s.seq q).mcas = none)
    (oldest : s.oldestRequest q = some va) : exec (.movedResponse q) s = .next (s.forget (dieOf q) (s.ctxOf q) va) := by
  simp only [exec_movedResponse, execMovedResponse, free, oldest]

/-- Forgetting an address removes the translations that cover it. -/
theorem State.tlb_forget (s : State) (die ctx : Nat) (va : Word) (x : TlbEnt) : x ∈ ((s.forget die ctx va).die die).tlb ↔
    x ∈ (s.die die).tlb ∧ ¬(x.ctx = ctx ∧ x.va ≤ va.toNat ∧ va.toNat < x.va + x.size) := by
  rw [State.forget, State.die_setDie_same, List.mem_filter]
  refine and_congr_right fun _ => ?_
  simp only [Bool.not_eq_true', ← Bool.not_eq_true, Bool.and_eq_true, beq_iff_eq, decide_eq_true_eq, and_assoc]

theorem exec_movedResponse_mcas {s t : State} {q : Nat} {hb : HoldB} {m : Mcas} {es : List McasEnt} (held : (s.seq q).mcas = some (hb, m))
    (open_ : m.result = none) (fresh : s.mcasRefresh q m = (t, { m with ents := es })) : exec (.movedResponse q) s =
      .next (if m.backoff then t.setMcas q hb { m with ents := es } else t.mcasFail q hb { m with ents := es }) := by
  simp only [exec_movedResponse, execMovedResponse, held, open_, fresh, Option.isSome_none, Bool.false_eq_true, if_false]

/-- An attempt that a moved page ends, after the entries have been translated again. -/
theorem State.unlocked_mcasFail {s t : State} (kept : s.keepsLocks t) (q : Nat) (hb : HoldB) (m : Mcas) :
    Stmt.unlocked s (t.mcasFail q hb m) q := by
  have released : Stmt.unlocked s (t.unlock q) q := fun d e => by rw [← kept.locks]; exact t.unlocked_unlock q d e
  unfold State.mcasFail
  dsimp only
  split
  · exact released
  · exact released

/-- Settles O24: a moved requester forgets its translation, and an mcas translates again and counts its attempt. -/
theorem movedRequestersWalkAgain : Obligations.MovedRequestersWalkAgain := by
  refine ⟨fun s q va free oldest => ?_, fun s q hb m held what open_ => ?_⟩
  · exact ⟨_, exec_movedResponse_forgets free oldest, rfl, rfl, rfl, rfl, fun d hd => State.die_setDie_other s _ hd,
      s.tlb_forget (dieOf q) (s.ctxOf q) va⟩
  · obtain ⟨t, es, fresh, kept, sorted, perm⟩ := s.mcasRefresh_spec q m
    refine ⟨_, es, exec_movedResponse_mcas (Seq.mcas_of held what) open_ fresh, sorted, perm, fun waits => ?_, fun running => ?_,
      fun running early => ?_, fun running last => ?_⟩
    · rw [if_pos waits]
      exact State.mcasIs_setMcas kept.seqs q hb _
    · rw [if_neg (ne_true_of_eq_false running)]
      exact State.unlocked_mcasFail kept q hb _
    · rw [if_neg (ne_true_of_eq_false running), State.mcasFail_counts t q hb (m := { m with ents := es }) early, kept.clock]
      exact State.mcasIs_setMcas kept.seqs q hb _
    · rw [if_neg (ne_true_of_eq_false running), State.mcasFail_ends t q hb (m := { m with ents := es }) last]
      exact State.mcasIs_setMcas kept.seqs q hb _

end Machine
end Sys2Proof
end

section
/-! PROOFS. The transport of Masthead's commands: who may give one, and what a response writes (O50; spec/22 R415 to R418). -/

namespace Sys2Proof
namespace Machine

/-! ### Running a command -/

/-- What a command's reply becomes. -/
def Reply.answer (f : Nat) : Reply → Result
  | .done s st rs => .next (s.respond f st rs)
  | .wait s evs => .next { s with agenda := evs ++ s.agenda }
  | .later s w => .next (s.setMail f { s.mail f with pend := some w })

@[simp] theorem Reply.answer_done (f : Nat) (s : State) (st : Nat) (rs : List Word) :
    (Reply.done s st rs).answer f = .next (s.respond f st rs) := rfl

@[simp] theorem Reply.answer_ok (f : Nat) (s : State) : (Reply.ok s).answer f = .next (s.respond f 0 []) := rfl

@[simp] theorem Reply.answer_refuse (f : Nat) (s : State) : (Reply.refuse s).answer f = .next (s.respond f 2 []) := rfl

@[simp] theorem Reply.answer_later (f : Nat) (s : State) (w : MailWait) :
    (Reply.later s w).answer f = .next (s.setMail f { s.mail f with pend := some w }) := rfl

theorem Reply.guard_of {s : State} {c : Bool} (h : c = true) (r : Reply) : Reply.guard s c r = r := by
  rw [Reply.guard, if_pos h]

theorem Reply.guard_of_not {s : State} {c : Bool} (h : c = false) (r : Reply) : Reply.guard s c r = Reply.refuse s := by
  rw [Reply.guard, h, if_neg Bool.false_ne_true]

section
variable {f : Nat} {range : Bool} {body : State → Reply} {s : State}

theorem runCommand_notReady {mine : Option (State → Nat → Bool)} (h : s.mast.ready = false) :
    runCommand f mine range body s = .next (s.respond f 5 []) := by
  simp [runCommand, h]

/-- A function whose owner does not have what a command asks for. -/
theorem runCommand_denied {g : State → Nat → Bool} (ready : s.mast.ready = true) (hf : f ≠ 0)
    (h : ∀ o, s.ownerOf f = some o → g s o = false) : runCommand f (some g) range body s = .next (s.respond f 4 []) := by
  cases ho : s.ownerOf f with
  | none => simp [runCommand, ready, hf, ho]
  | some o => simp [runCommand, ready, hf, ho, h o ho]

theorem runCommand_onlyPf0 (ready : s.mast.ready = true) (hf : f ≠ 0) :
    runCommand f none range body s = .next (s.respond f 4 []) := by
  simp [runCommand, ready, hf]

theorem runCommand_pf0 {mine : Option (State → Nat → Bool)} (ready : s.mast.ready = true) (h : range = true) :
    runCommand 0 mine range body s = (body s).answer 0 := by
  simp only [runCommand, ready, h, decide_true, Bool.true_or, Bool.not_true, Bool.false_eq_true, if_false]
  cases body s <;> rfl

/-- A function that may give a command. -/
theorem runCommand_may {g : State → Nat → Bool} (may : Stmt.may s f fun o => g s o = true) (h : range = true) :
    runCommand f (some g) range body s = (body s).answer f := by
  obtain ⟨ready, rfl | ⟨o, owner, mine⟩⟩ := may
  · exact runCommand_pf0 ready h
  · simp only [runCommand, ready, h, owner, mine, Bool.or_true, Bool.not_true, Bool.false_eq_true, if_false]
    cases body s <;> rfl

/-- One whose operands are out of range. -/
theorem runCommand_range {g : State → Nat → Bool} (may : Stmt.may s f fun o => g s o = true) (h : range = false) :
    runCommand f (some g) range body s = .next (s.respond f 1 []) := by
  obtain ⟨ready, rfl | ⟨o, owner, mine⟩⟩ := may
  · simp [runCommand, ready, h]
  · simp [runCommand, ready, h, owner, mine]

end

theorem Stmt.may_mono {s : State} {f : Nat} {p q : Nat → Prop} (h : Stmt.may s f p) (imp : ∀ o, p o → q o) : Stmt.may s f q :=
  ⟨h.1, h.2.imp_right fun ⟨o, owner, mine⟩ => ⟨o, owner, imp o mine⟩⟩

/-- Two rights of one function are rights of the same owner. -/
theorem Stmt.may_and {s : State} {f : Nat} {p q : Nat → Prop} (hp : Stmt.may s f p) (hq : Stmt.may s f q) :
    Stmt.may s f fun o => p o ∧ q o := by
  obtain ⟨ready, rfl | ⟨o, owner, mine⟩⟩ := hp
  · exact ⟨ready, .inl rfl⟩
  · obtain ⟨-, rfl | ⟨o', owner', mine'⟩⟩ := hq
    · exact ⟨ready, .inl rfl⟩
    · cases owner.symm.trans owner'
      exact ⟨ready, .inr ⟨o, owner, mine, mine'⟩⟩

/-- Every command is run by one operation; one that only PF0 may give names no owner. -/
theorem exec_command {i : Instr} {f : Nat} (h : Stmt.commandOf i = some f) (s : State) : ∃ mine range body,
    exec i s = runCommand f mine range body s ∧ (Stmt.onlyPf0 i = true → mine = none) := by
  cases i
  all_goals dsimp only [exec, execCdestroy, execS2map, execFrset, execDomfault, execReadback, execHalovf, execQpause, execQresume,
    execQreset, execQdestroy, execS2unmap, execS2clean]
  case ccreate | cset | carea | cwin | climit | cpreempt | cresume | ckill | ckey | cdestroy | cread | qcreate | qset | qpause |
    qresume | qreset | qdestroy | qread | gbind | gunbind | recallGroup | gread | readback | usage | idget | attest | keyx | scrread =>
    cases h
    exact ⟨_, _, _, rfl, nofun⟩
  case ownset | gcreate | gdestroy | lend | vmroot | s2map | s2unmap | s2clean | tlbinv | frset | segquota | mscset | hmove |
    hdmset | tdibind | lnkdom | poolset | swred | domfault | ownnew | owndel | margin | errlog | fwinfo | halovf =>
    cases h
    exact ⟨none, _, _, rfl, fun _ => rfl⟩
  all_goals cases h

theorem exec_command_notReady {i : Instr} {f : Nat} (h : Stmt.commandOf i = some f) {s : State} (ready : s.mast.ready = false) :
    exec i s = .next (s.respond f 5 []) := by
  obtain ⟨mine, range, body, run, -⟩ := exec_command h s
  rw [run, runCommand_notReady ready]

theorem exec_command_onlyPf0 {i : Instr} {f : Nat} (h : Stmt.commandOf i = some f) {s : State} (ready : s.mast.ready = true)
    (hf : f ≠ 0) (only : Stmt.onlyPf0 i = true) : exec i s = .next (s.respond f 4 []) := by
  obtain ⟨mine, range, body, run, pf0⟩ := exec_command h s
  rw [run, pf0 only, runCommand_onlyPf0 ready hf]

/-! ### Bytes of words -/

@[simp] theorem length_wordsBytes (ws : List Word) : (wordsBytes ws).length = 8 * ws.length := by
  induction ws with
  | nil => rfl
  | cons w ws ih =>
    rw [wordsBytes, List.flatMap_cons, List.length_append, ← wordsBytes, ih, length_leBytes, List.length_cons]
    omega

theorem wordsBytes_append (a b : List Word) : wordsBytes (a ++ b) = wordsBytes a ++ wordsBytes b := List.flatMap_append

theorem drop_wordsBytes (n : Nat) (ws : List Word) : (wordsBytes ws).drop (8 * n) = wordsBytes (ws.drop n) := by
  by_cases h : n ≤ ws.length
  · conv_lhs => rw [← List.take_append_drop n ws, wordsBytes_append]
    rw [List.drop_left' (by simp [h])]
  · rw [List.drop_of_length_le (by simp; omega), List.drop_of_length_le (by omega)]
    rfl

theorem take_wordsBytes (n : Nat) (ws : List Word) : (wordsBytes ws).take (8 * n) = wordsBytes (ws.take n) := by
  by_cases h : n ≤ ws.length
  · conv_lhs => rw [← List.take_append_drop n ws, wordsBytes_append]
    rw [List.take_left' (by simp [h])]
  · rw [List.take_of_length_le (by simp; omega), List.take_of_length_le (by omega)]

/-! ### What a response writes -/

theorem Stmt.hostHolds_of_write {s t : State} {a : Nat} {bs : List Byte} (h : t.mem.host = Mem.write s.mem.host a bs) :
    Stmt.hostHolds s t a bs :=
  ⟨fun n hn => by rw [h, Mem.get_write_at _ _ _ _ hn], fun n hn => by rw [h, Mem.get_write_other _ _ _ _ hn]⟩

theorem State.mail_setMail_same (s : State) (f : Nat) (m : Mail) : (s.setMail f m).mail f = m := Tab.getD_put_same ..

theorem State.mail_setMail_other (s : State) {f g : Nat} (m : Mail) (h : g ≠ f) : (s.setMail f m).mail g = s.mail g :=
  Tab.getD_put_other _ _ _ h

theorem State.respond_empty {s : State} {f : Nat} (h : (s.mail f).head = (s.mail f).tail) (st : Nat) (rs : List Word) :
    s.respond f st rs = s := if_pos h

/-- The word of a response that holds the tag and the status. -/
def State.statusWord (s : State) (f st : Nat) : Word := BitVec.ofNat 64 (fieldOf (s.hostWord (s.mail f).slot) 16 16 * 2 ^ 32 + st)

/-- The host's memory once a response is written. -/
def State.respondHost (s : State) (f st : Nat) (rs : List Word) : Mem :=
  let m := Mem.write s.mem.host ((s.mail f).slot + 96) (wordsBytes (s.statusWord f st :: rs.take 3))
  if rs.length ≤ 3 then m else Mem.write m ((s.mail f).slot + 8) (wordsBytes ((rs.drop 3).take 11))

theorem State.respond_eq {s : State} {f : Nat} (h : (s.mail f).head ≠ (s.mail f).tail) (st : Nat) (rs : List Word) :
    s.respond f st rs = ({ s with mem := { s.mem with host := s.respondHost f st rs } } : State).setMail f
      { s.mail f with head := (s.mail f).head + 1#32, pend := none } := by
  rw [State.respond, if_neg h]
  by_cases hr : rs.length ≤ 3
  · simp only [hr, if_true, State.respondHost]
    rfl
  · simp only [hr, if_false, State.respondHost]
    rfl

section
variable {s : State} {f st : Nat} {rs : List Word}

theorem State.get_respondHost_first {n : Nat} (h : n < (wordsBytes (s.statusWord f st :: rs.take 3)).length) :
    Mem.get (s.respondHost f st rs) ((s.mail f).slot + 96 + n) = (wordsBytes (s.statusWord f st :: rs.take 3))[n] := by
  rw [State.respondHost]
  split
  · rw [Mem.get_write_at _ _ _ _ h]
  · rw [Mem.get_write_other _ _ _ _ (.inr (by simp; omega)), Mem.get_write_at _ _ _ _ h]

theorem State.get_respondHost_more (hr : 3 < rs.length) {n : Nat} (h : n < (wordsBytes ((rs.drop 3).take 11)).length) :
    Mem.get (s.respondHost f st rs) ((s.mail f).slot + 8 + n) = (wordsBytes ((rs.drop 3).take 11))[n] := by
  rw [State.respondHost, if_neg (by omega), Mem.get_write_at _ _ _ _ h]

theorem State.get_respondHost_other {n : Nat} (h : n < (s.mail f).slot + 8 ∨ (s.mail f).slot + 128 ≤ n) :
    Mem.get (s.respondHost f st rs) n = Mem.get s.mem.host n := by
  have first : ∀ a : Nat, a ≤ 3 → (n < (s.mail f).slot + 96 ∨ (s.mail f).slot + 96 + 8 * (a + 1) ≤ n) := by omega
  have length : (wordsBytes (s.statusWord f st :: rs.take 3)).length = 8 * (min 3 rs.length + 1) := by simp
  rw [State.respondHost]
  split
  · rw [Mem.get_write_other _ _ _ _ (length ▸ first _ (by omega))]
  · rw [Mem.get_write_other _ _ _ _ (by simp; omega), Mem.get_write_other _ _ _ _ (length ▸ first _ (by omega))]

end

theorem State.hostHolds_respond {s : State} {f st : Nat} {rs : List Word} (h : (s.mail f).head ≠ (s.mail f).tail)
    (hr : rs.length ≤ 3) :
    Stmt.hostHolds s (s.respond f st rs) ((s.mail f).slot + 96) (wordsBytes (s.statusWord f st :: rs.take 3)) := by
  refine Stmt.hostHolds_of_write ?_
  rw [State.respond_eq h]
  simp only [State.setMail_mem, State.respondHost, hr, if_true]

theorem State.inside_respond (s : State) (f st : Nat) (rs : List Word) :
    Stmt.inside { s with mem := (s.respond f st rs).mem } (s.respond f st rs) := by
  by_cases h : (s.mail f).head = (s.mail f).tail
  · rw [State.respond_empty h]
    exact ⟨rfl, rfl, rfl, rfl, rfl, rfl⟩
  · rw [State.respond_eq h]
    exact ⟨rfl, rfl, rfl, rfl, rfl, rfl⟩

end Machine
end Sys2Proof
end

section
/-! PROOFS. Reports, owners, READBACK and the overflow areas (O50; spec/11 R242, spec/22 R419 to R426). -/

namespace Sys2Proof
namespace Machine

/-! ### Owners -/

theorem exec_ownnew_unused {s : State} {o vf : Word} (ready : s.mast.ready = true) (ho : o.toNat ≤ 63)
    (unused : (s.owner o.toNat).used = false) (low : 1 ≤ vf.toNat) (high : vf.toNat ≤ 63)
    (unbound : ∀ e ∈ s.owners, e.2.used = true → e.2.fn ≠ vf.toNat) :
    exec (.ownnew 0 o vf) s = .next ((s.setOwner o.toNat
      { s.owner o.toNat with used := true, fn := vf.toNat, w := 1, d := 0 }).respond 0 0 []) := by
  have free : (s.owners.any fun e => e.2.used && e.2.fn == vf.toNat) = false := by simpa using unbound
  rw [exec_ownnew, execOwnnew, runCommand_pf0 ready (by simp [ho, low, high]),
    Reply.guard_of (by simp [State.ownerUsed, unused, free]), Reply.answer_ok]

theorem exec_owndel_used {s : State} {o : Word} (ready : s.mast.ready = true) (ho : o.toNat ≤ 63)
    (used : (s.owner o.toNat).used = true) (none : ∀ e ∈ s.ctxs, e.2.mode ≠ .free → e.2.owner ≠ o.toNat) :
    exec (.owndel 0 o) s = .next ((s.setOwner o.toNat { s.owner o.toNat with used := false, fn := 255 }).respond 0 0 []) := by
  have empty : (s.ctxs.any fun e => e.2.mode != .free && e.2.owner == o.toNat) = false := by simpa using none
  rw [exec_owndel, execOwndel, runCommand_pf0 ready (by simp [ho]), Reply.guard_of (by simp [State.ownerUsed, used, empty]),
    Reply.answer_ok]

theorem exec_ownset_weight {s : State} {o w : Word} (ready : s.mast.ready = true) (ho : o.toNat ≤ 63) (low : 1 ≤ w.toNat)
    (high : w.toNat ≤ 255) :
    exec (.ownset 0 o w) s = .next ((s.setOwner o.toNat { s.owner o.toNat with w := w.toNat }).respond 0 0 []) := by
  rw [exec_ownset, execOwnset, runCommand_pf0 ready (by simp [ho, low, high]), Reply.answer_ok]

/-! ### Reports and keys -/

theorem length_bytesOf (n : Nat) (g : Nat → Byte) : (bytesOf n g).length = n := by simp [bytesOf]

theorem satAdd_one {w : Word} (h : w ≠ BitVec.allOnes 64) : satAdd w 1 = w + 1#64 := by
  have below : w.toNat + 1 < 2 ^ 64 := by
    have : w.toNat ≠ (BitVec.allOnes 64).toNat := fun e => h (BitVec.eq_of_toNat_eq e)
    have := w.isLt
    simp at *
    omega
  rw [satAdd, if_pos below]

@[simp] theorem State.hostWrite_mast (s : State) (a : Nat) (bs : List Byte) : (s.hostWrite a bs).mast = s.mast := rfl
@[simp] theorem State.hostWrite_seqs (s : State) (a : Nat) (bs : List Byte) : (s.hostWrite a bs).seqs = s.seqs := rfl
@[simp] theorem State.hostWrite_dram (s : State) (a : Nat) (bs : List Byte) : (s.hostWrite a bs).mem.dram = s.mem.dram := rfl
@[simp] theorem State.signReport_seqs (s : State) (a : Nat) (bs : List Byte) : (s.signReport a bs).seqs = s.seqs := rfl
@[simp] theorem State.signReport_cores (s : State) (a : Nat) (bs : List Byte) : (s.signReport a bs).cores = s.cores := rfl
@[simp] theorem State.signReport_owners (s : State) (a : Nat) (bs : List Byte) : (s.signReport a bs).owners = s.owners := rfl

theorem State.hostHolds_hostWrite (s : State) (a : Nat) (bs : List Byte) : Stmt.hostHolds s (s.hostWrite a bs) a bs :=
  Stmt.hostHolds_of_write rfl

theorem State.hostHolds_signReport (s : State) (buf : Nat) (body : List Byte) :
    Stmt.hostHolds s (s.signReport buf body) buf (body ++ bytesOf 64 (Config.signature body)) :=
  Stmt.hostHolds_of_write rfl

theorem State.seqno_signReport (s : State) (buf : Nat) (body : List Byte) (h : s.mast.seqno ≠ BitVec.allOnes 64) :
    (s.signReport buf body).mast.seqno = s.mast.seqno + 1#64 := satAdd_one h

/-- The version and the numbers that come before the nonce of USAGE's report. -/
def State.usageHead (s : State) (owner : Nat) : List Byte :=
  leBytes 1 8 ++ leBytes Config.serial.toNat 16 ++ leBytes (Config.bootid s.mast.boot).toNat 16 ++
    wordsBytes [s.mast.seqno, BitVec.ofNat 64 owner]

theorem State.length_usageHead (s : State) (owner : Nat) : (s.usageHead owner).length = 56 := by simp [State.usageHead]

theorem State.usageBody_eq (s : State) (owner : Nat) (nonce : List Byte) : s.usageBody owner nonce = s.usageHead owner ++ (nonce ++
    wordsBytes [(s.owner owner).qcyc, (s.owner owner).rdb, (s.owner owner).wrb, (s.owner owner).lnkb, (s.owner owner).saves]) := by
  have version : wordsBytes [1#64] = leBytes 1 8 := by simp [wordsBytes]
  rw [State.usageBody, State.usageHead, version, List.append_assoc]

theorem exec_usage_report {s : State} {f : Nat} {o nonce buf : Word} (may : Stmt.may s f fun p => p = o.toNat) (ho : o.toNat ≤ 63) :
    ∃ (t : State) (bs : List Byte), exec (.usage f o nonce buf) s = .next (t.respond f 0 []) ∧
      bs.length = 192 ∧ Stmt.hostHolds s t buf.toNat bs ∧ bs.take 8 = leBytes 1 8 ∧
      (bs.drop 56).take 32 = s.hostRead nonce.toNat 32 ∧ (s.mast.seqno ≠ BitVec.allOnes 64 → t.mast.seqno = s.mast.seqno + 1#64) ∧
      t.seqs = s.seqs ∧ t.cores = s.cores ∧ t.owners = s.owners := by
  have may' : Stmt.may s f fun p => (num o == p) = true := Stmt.may_mono may fun p hp => by simp [hp]
  refine ⟨s.signReport buf.toNat (s.usageBody o.toNat (s.hostRead nonce.toNat 32)), _, ?_, ?_, s.hostHolds_signReport _ _, ?_, ?_,
    s.seqno_signReport _ _, State.signReport_seqs .., State.signReport_cores .., State.signReport_owners ..⟩
  · rw [exec_usage, execUsage, runCommand_may may' (by simp [ho]), Reply.answer_ok]
  · simp [State.usageBody_eq, State.length_usageHead, length_bytesOf, State.hostRead]
  · rw [State.usageBody_eq, State.usageHead]
    simp only [List.append_assoc]
    rw [List.take_left' (length_leBytes ..)]
  · rw [State.usageBody_eq, List.append_assoc, List.drop_left' (s.length_usageHead _), List.append_assoc,
      List.take_left' (by simp [State.hostRead])]

theorem exec_attest_report {s : State} {f : Nat} {nonce buf : Word} (may : Stmt.may s f fun _ => True) :
    ∃ (t : State) (bs : List Byte), exec (.attest f nonce buf) s = .next (t.respond f 0 []) ∧ Stmt.hostHolds s t buf.toNat bs ∧
      bs.take 32 = s.hostRead nonce.toNat 32 ∧ (s.mast.seqno ≠ BitVec.allOnes 64 → t.mast.seqno = s.mast.seqno + 1#64) ∧
      t.seqs = s.seqs ∧ t.cores = s.cores := by
  have written := s.hostHolds_signReport buf.toNat (s.attestBody (s.hostRead nonce.toNat 32))
  have counted := s.seqno_signReport buf.toNat (s.attestBody (s.hostRead nonce.toNat 32))
  refine ⟨_, _, ?_, written, ?_, counted, State.signReport_seqs .., State.signReport_cores ..⟩
  · rw [exec_attest, execAttest, runCommand_may (Stmt.may_mono may fun _ _ => rfl) rfl, Reply.answer_ok]
  · rw [State.attestBody]
    simp only [List.append_assoc]
    rw [List.take_left' (by simp [State.hostRead])]

theorem exec_idget_writes {s : State} {f : Nat} {buf len : Word} (may : Stmt.may s f fun _ => True) :
    ∃ t : State, exec (.idget f buf len) s = .next (t.respond f 0 []) ∧ Stmt.hostHolds s t buf.toNat
      ((List.range (min len.toNat Config.certificateLen)).map Config.certificate) ∧ t.mast = s.mast ∧ t.seqs = s.seqs := by
  refine ⟨s.hostWrite buf.toNat (bytesOf (min len.toNat Config.certificateLen) Config.certificate), ?_,
    s.hostHolds_hostWrite _ _, State.hostWrite_mast .., State.hostWrite_seqs ..⟩
  rw [exec_idget, execIdget, runCommand_may (Stmt.may_mono may fun _ _ => rfl) rfl, Reply.answer_ok]

/-- What a key exchange depends on: the peer's key, and the tick for the keys that Masthead draws. -/
def State.kexSeed (s : State) (key : Word) : Nat := leNat (s.hostRead key.toNat 64) + s.tick * 2 ^ 512

theorem exec_keyx_opens {s : State} {f : Nat} {key buf : Word} (may : Stmt.may s f fun _ => True) :
    ∃ (t : State) (bs : List Byte), exec (.keyx f key buf) s = .next (t.respond f 0 []) ∧ bs.length = 96 ∧
      Stmt.hostHolds s t buf.toNat bs ∧ t.seqs = s.seqs ∧ t.mast.keys = s.mast.keys ∧
      ∃ k, t.mail f = { s.mail f with session := k } := by
  let s1 := s.hostWrite buf.toNat (bytesOf 96 (Config.kexReply (s.kexSeed key)))
  refine ⟨s1.setMail f { s1.mail f with session := Config.kexSession (s.kexSeed key) }, _, ?_, length_bytesOf ..,
    Stmt.hostHolds_of_write rfl, rfl, rfl, _, State.mail_setMail_same ..⟩
  rw [exec_keyx, execKeyx, runCommand_may (Stmt.may_mono may fun _ _ => rfl) rfl, Reply.answer_ok]
  rfl

/-! ### Margins, the log, and words that a response holds -/

/-- The words of MARGIN: four for each die. -/
def State.marginWords (s : State) : List Word := (List.range 16).flatMap fun d =>
  [Config.slack d s.tick, Config.voltage d s.tick, BitVec.ofNat 64 s.mast.clk, BitVec.ofNat 64 s.mast.clkPlan]

theorem State.clock_marginWords (s : State) {d : Nat} (h : d < 16) :
    (s.marginWords.drop (4 * d + 2)).take 2 = [BitVec.ofNat 64 s.mast.clk, BitVec.ofNat 64 s.mast.clkPlan] := by
  interval_cases d <;> rfl

theorem exec_margin_writes {s : State} {buf : Word} (ready : s.mast.ready = true) :
    ∃ (t : State) (bs : List Byte), exec (.margin 0 buf) s = .next (t.respond 0 0 []) ∧ bs.length = 512 ∧
      Stmt.hostHolds s t buf.toNat bs ∧ (∀ d, d < 16 → (bs.drop (32 * d + 16)).take 16 =
        leBytes (BitVec.ofNat 64 s.mast.clk).toNat 8 ++ leBytes (BitVec.ofNat 64 s.mast.clkPlan).toNat 8) ∧
      t.mast = s.mast ∧ t.seqs = s.seqs := by
  refine ⟨s.hostWrite buf.toNat (wordsBytes s.marginWords), wordsBytes s.marginWords, ?_, ?_, s.hostHolds_hostWrite _ _,
    fun d hd => ?_, State.hostWrite_mast .., State.hostWrite_seqs ..⟩
  · rw [exec_margin, execMargin, runCommand_pf0 ready rfl, Reply.answer_ok]
    rfl
  · simp [State.marginWords, List.length_flatMap]
  · rw [show 32 * d + 16 = 8 * (4 * d + 2) by omega, drop_wordsBytes, take_wordsBytes 2, s.clock_marginWords hd]
    simp [wordsBytes]

/-- The words of ERRLOG: the count of corrected errors, and two for each entry. -/
def State.logWords (s : State) : List Word :=
  BitVec.ofNat 64 s.mast.corrected :: s.mast.log.flatMap fun e => [BitVec.ofNat 64 e.code, e.info]

theorem State.length_logWords (s : State) : s.logWords.length = 1 + 2 * s.mast.log.length := by
  simp [State.logWords, List.length_flatMap]
  omega

theorem exec_errlog_writes {s : State} {buf len clear : Word} (ready : s.mast.ready = true) (hc : clear.toNat ≤ 1) :
    ∃ (t : State) (bs : List Byte), exec (.errlog 0 buf len clear) s = .next (t.respond 0 0 []) ∧
      bs.length = min len.toNat (8 + 16 * s.mast.log.length) ∧
      (8 ≤ len.toNat → bs.take 8 = leBytes (BitVec.ofNat 64 s.mast.corrected).toNat 8) ∧ Stmt.hostHolds s t buf.toNat bs ∧
      t.mast = { s.mast with log := if clear = 1#64 then [] else s.mast.log,
                             corrected := if clear = 1#64 then 0 else s.mast.corrected } ∧ t.seqs = s.seqs := by
  let s1 := s.hostWrite buf.toNat ((wordsBytes s.logWords).take len.toNat)
  have run : exec (.errlog 0 buf len clear) s = .next ((if clear.toNat = 1 then
      { s1 with mast := { s1.mast with log := [], corrected := 0 } } else s1 : State).respond 0 0 []) := by
    rw [exec_errlog, execErrlog, runCommand_pf0 ready (by simp [hc]), Reply.answer_ok]
    rfl
  have one : clear.toNat = 1 ↔ clear = 1#64 := by simp [← BitVec.toNat_inj]
  refine ⟨_, (wordsBytes s.logWords).take len.toNat, run, ?_, fun hl => ?_, ?_, ?_, ?_⟩
  · rw [List.length_take, length_wordsBytes, s.length_logWords]
    omega
  · rw [List.take_take, Nat.min_eq_left hl, take_wordsBytes 1]
    simp [State.logWords, wordsBytes]
  · refine Stmt.hostHolds_of_write ?_
    split <;> rfl
  · by_cases h : clear = 1#64
    · rw [if_pos (one.2 h), if_pos h, if_pos h]
      rfl
    · rw [if_neg (mt one.1 h), if_neg h, if_neg h]
      rfl
  · split <;> rfl

theorem Scrub.word_eq (x : Scrub) : x.word = x.ctx ++ x.state ++ 0#2 ++ x.done ++ x.left := by
  apply BitVec.eq_of_toNat_eq
  have small := (x.ctx ++ x.state ++ 0#2 ++ x.done ++ x.left).isLt
  simp only [toNat_append_add, BitVec.toNat_ofNat, Nat.zero_mod] at small
  simp only [Scrub.word, toNat_append_add, BitVec.toNat_ofNat, Nat.zero_mod]
  omega

theorem exec_scrread_answers {s : State} {f : Nat} {die : Word} (may : Stmt.may s f fun _ => True) (hd : die.toNat ≤ 15) :
    exec (.scrread f die) s = .next (s.respond f 0 [(s.die die.toNat).scrub.word]) := by
  rw [exec_scrread, execScrread, runCommand_may (Stmt.may_mono may fun _ _ => rfl) (by simp [hd]), Reply.answer_done]

theorem Masthead.stat_lt (m : Masthead) : m.stat < 2 ^ 64 := by
  have := m.berr.isLt
  have := m.stage.isLt
  rw [Masthead.stat, bit]
  split <;> omega

/-- The fields of mstat (spec/22 R415). -/
theorem Masthead.stat_fields (m : Masthead) : (BitVec.ofNat 64 m.stat).extractLsb' 8 8 = m.berr ∧
    (BitVec.ofNat 64 m.stat).extractLsb' 4 4 = m.stage ∧ (BitVec.ofNat 64 m.stat).getLsbD 0 = m.ready := by
  have hb := m.berr.isLt
  have hs := m.stage.isLt
  have whole : m.stat % 2 ^ 64 = m.stat := Nat.mod_eq_of_lt m.stat_lt
  have value : m.stat = m.berr.toNat * 256 + m.stage.toNat * 16 + m.ready.toNat := by
    cases h : m.ready <;> simp [Masthead.stat, bit, h]
  have hr := Bool.toNat_lt m.ready
  refine ⟨?_, ?_, ?_⟩
  · apply BitVec.eq_of_toNat_eq
    rw [BitVec.extractLsb'_toNat, BitVec.toNat_ofNat, whole, Nat.shiftRight_eq_div_pow, value]
    omega
  · apply BitVec.eq_of_toNat_eq
    rw [BitVec.extractLsb'_toNat, BitVec.toNat_ofNat, whole, Nat.shiftRight_eq_div_pow, value]
    omega
  · rw [BitVec.getLsbD_ofNat, value, Nat.testBit_zero]
    cases m.ready <;> simp <;> omega

theorem exec_fwinfo_answers {s : State} (ready : s.mast.ready = true) : ∃ w1 w2,
    exec (.fwinfo 0) s = .next (s.respond 0 0 [0x10000#64, w1, w2]) ∧ w1.extractLsb' 8 8 = s.mast.berr ∧
      w1.extractLsb' 4 4 = s.mast.stage ∧ w1.getLsbD 0 = true := by
  obtain ⟨berr, stage, bit0⟩ := s.mast.stat_fields
  refine ⟨BitVec.ofNat 64 s.mast.stat, BitVec.ofNat 64 (s.mast.clk + s.mast.clkPlan * 65536), ?_, berr, stage, bit0.trans ready⟩
  rw [exec_fwinfo, execFwinfo, runCommand_pf0 ready rfl, Reply.answer_done]
  rfl

/-! ### READBACK -/

theorem exec_readback_writes {s : State} {f : Nat} {cls inst off len buf : Word} {x : Item}
    (item : s.item cls.toNat inst.toNat = some x) (may : Stmt.may s f fun o => itemMine cls.toNat inst.toNat s o = true)
    (fits : off.toNat + len.toNat ≤ x.size) (hoff : off.toNat % 8 = 0) (hlen : len.toNat % 8 = 0)
    (free : s.itemSealed f cls.toNat inst.toNat = false) :
    ∃ t : State, exec (.readback f cls inst off len buf) s = .next (t.respond f 0 []) ∧ t.mast = s.mast ∧ t.seqs = s.seqs ∧
      t.mem.dram = s.mem.dram ∧ Stmt.hostHolds s t buf.toNat
        (((List.range (len.toNat / 8)).map fun n => x.word (off.toNat / 8 + n)).flatMap fun w => leBytes w.toNat 8) := by
  refine ⟨s.hostWrite buf.toNat (wordsBytes ((List.range (len.toNat / 8)).map fun n => x.word (off.toNat / 8 + n))), ?_,
    State.hostWrite_mast .., State.hostWrite_seqs .., State.hostWrite_dram .., s.hostHolds_hostWrite _ _⟩
  rw [exec_readback, execReadback]
  simp only [item]
  rw [runCommand_may may (by simp [fits, hoff, hlen]), if_neg (by simp [free]), Reply.answer_ok]

/-! ### The overflow area of a die -/

theorem State.die_rowsWrote (s : State) (pa n d : Nat) : ((s.rowsWrote pa n).die d).ovf = (s.die d).ovf ∧
    ((s.rowsWrote pa n).die d).pen = (s.die d).pen := by
  rw [State.die, State.die, State.rowsWrote, Tab.getD, Tab.getD, Tab.get?_mapv]
  cases Tab.get? s.dies d <;> exact ⟨rfl, rfl⟩

theorem State.scrubRange_frame (s : State) (pa n : Nat) : (s.scrubRange pa n).seqs = s.seqs ∧
    (∀ d, ((s.scrubRange pa n).die d).ovf = (s.die d).ovf ∧ ((s.scrubRange pa n).die d).pen = (s.die d).pen) ∧
    (s.scrubRange pa n).mem.dram = Mem.zero s.mem.dram pa n :=
  ⟨rfl, s.die_rowsWrote pa n, rfl⟩

theorem Tab.get?_keep_key {α : Type} (t : Tab α) (p : Nat → Bool) (n : Nat) :
    Tab.get? (t.keep fun k _ => p k) n = if p n then Tab.get? t n else none := Tab.get?_filter_key t p n

/-- The overflow area of a die is set, and what lay beyond its own pennants is no more. -/
def State.setOvf (s : State) (d pa n : Nat) : State :=
  s.setDie d { s.die d with ovf := some (pa, n), pen := (s.die d).pen.keep fun i _ => decide (i < 65536) }

theorem State.pen_setOvf (s : State) (d pa n i : Nat) :
    Tab.get? ((s.setOvf d pa n).die d).pen i = if i < 65536 then Tab.get? (s.die d).pen i else none := by
  rw [State.setOvf, State.die_setDie_same]
  exact (Tab.get?_keep_key (s.die d).pen (fun k => decide (k < 65536)) i).trans (by simp)

theorem exec_halovf_sets {s : State} {die pa count : Word} (ready : s.mast.ready = true) (hd : die.toNat ≤ 15)
    (pos : 0 < count.toNat) (whole : count.toNat % 65536 = 0) (most : count.toNat ≤ 2 ^ 28 - 65536) (align : pa.toNat % 65536 = 0)
    (home : paDie pa.toNat = die.toNat) (slow : paFast pa.toNat = false) (stack : s.inStack pa.toNat (16 * count.toNat) = true)
    (reach : ∀ e ∈ s.ctxs, ∀ b k, Tab.get? e.2.wins die.toNat = some (b, k) → b + k ≤ 65536)
    (mapped : ∀ c ∈ s.ctxs, c.2.mode ≠ .free → ∀ e ∈ s.ctxLeaves c.1, leafMeets e pa.toNat (16 * count.toNat) = false)
    (gate : s.rangeGate pa.toNat (16 * count.toNat) = none) :
    exec (.halovf 0 die pa count) s =
      .next (((s.setOvf die.toNat pa.toNat count.toNat).scrubRange pa.toNat (16 * count.toNat)).respond 0 0 []) := by
  have most' : count.toNat ≤ 268369920 := most
  have some_ : count.toNat ≠ 0 := Nat.ne_of_gt pos
  have unmapped : (s.ctxs.any fun c => c.2.mode != .free && (s.ctxLeaves c.1).any fun e => leafMeets e pa.toNat (16 * count.toNat)) =
      false := by simpa using mapped
  rw [exec_halovf, execHalovf, runCommand_pf0 ready (by simp [hd, whole, most', align, home, slow, stack]), Reply.guard_of]
  · simp only [some_, gate, if_false, Reply.answer_ok]
    rfl
  · rw [unmapped, Bool.and_false, Bool.not_false, Bool.and_true, Bool.not_eq_true', List.any_eq_false]
    intro e he
    cases h : Tab.get? e.2.wins die.toNat with
    | none => simp
    | some w => simpa using reach e he w.1 w.2 h

/-- Settles O50: a reply is one write of the mailbox's descriptor, every command is run by one operation that looks at readiness and right
first, and each of the named commands is that operation with its one change. -/
theorem commandsAnswerTheirMailbox : Obligations.CommandsAnswerTheirMailbox := by
  refine ⟨fun s f st rs => ⟨fun h => State.respond_empty h st rs, fun h hst => ?_⟩, fun i s f hi => ⟨exec_command_notReady hi,
    fun ready hf => exec_command_onlyPf0 hi ready hf⟩, fun s o vf w ready ho => ⟨exec_ownnew_unused ready ho,
    exec_owndel_used ready ho, exec_ownset_weight ready ho⟩, fun s f o nonce buf len key => ⟨exec_usage_report,
    fun may => ⟨exec_attest_report may, exec_idget_writes may, exec_keyx_opens may⟩,
    fun ready => ⟨exec_margin_writes ready, fun clear => exec_errlog_writes ready⟩⟩,
    fun s f die => ⟨fun may hd => ?_, exec_fwinfo_answers⟩, fun s f cls inst off len buf x => exec_readback_writes,
    fun s die pa count ready hd pos whole most align home slow stack reach mapped gate => ?_⟩
  · refine ⟨?_, fun g hg => ?_, s.inside_respond f st rs, ?_, fun hr => s.hostHolds_respond h hr, fun hr => ?_⟩
    · rw [State.respond_eq h, State.mail_setMail_same]
    · rw [State.respond_eq h, State.mail_setMail_other _ _ hg]
      rfl
    · rw [State.respond_eq h]
      rfl
    · rw [State.respond_eq h]
      exact ⟨fun n hn => State.get_respondHost_first hn, fun n hn => State.get_respondHost_more hr hn,
        fun n hn => State.get_respondHost_other hn⟩
  · dsimp only
    rw [← Scrub.word_eq]
    exact exec_scrread_answers may hd
  · obtain ⟨seqs, dies, dram⟩ := (s.setOvf die.toNat pa.toNat count.toNat).scrubRange_frame pa.toNat (16 * count.toNat)
    refine ⟨_, exec_halovf_sets ready hd pos whole most align home slow stack reach mapped gate, ?_, fun n hn => ?_, fun n hn => ?_,
      seqs, fun a => ?_⟩
    · rw [(dies _).1, State.setOvf, State.die_setDie_same]
    · rw [(dies _).2, State.pen_setOvf, if_neg (by omega)]
    · rw [(dies _).2, State.pen_setOvf, if_pos hn]
    · rw [dram, Mem.get_zero]
      rfl

end Machine
end Sys2Proof
end

section
/-! PROOFS. The context commands that change one field, or ask a group or a sequencer (O51; spec/16 R332 to R356). -/

namespace Sys2Proof
namespace Machine

/-! ### CCREATE -/

theorem exec_ccreate_range {s : State} {f : Nat} {ctx owner fring flog notify grace kill ksl : Word}
    (may : Stmt.may s f fun o => owner.toNat = o)
    (h : ctx.toNat = 0 ∨ 65535 < ctx.toNat ∨ 63 < owner.toNat ∨ fring.toNat % 64 ≠ 0 ∨ kill.toNat < grace.toNat ∨
      flog.toNat < 4 ∨ 16 < flog.toNat ∨ 127 < ksl.toNat) :
    exec (.ccreate f ctx owner fring flog notify grace kill ksl) s = .next (s.respond f 1 []) := by
  rw [exec_ccreate, execCcreate, runCommand_range (Stmt.may_mono may fun o ho => by simp [ho])]
  rw [Bool.eq_false_iff]
  intro ok
  simp only [Bool.and_eq_true, ctxNum, num, decide_eq_true_eq, beq_iff_eq] at ok
  omega

theorem exec_ccreate_free {s : State} {f : Nat} {ctx owner fring flog notify grace kill ksl : Word}
    (may : Stmt.may s f fun o => owner.toNat = o) (low : 1 ≤ ctx.toNat) (high : ctx.toNat ≤ 65535) (ho : owner.toNat ≤ 63)
    (ring : fring.toNat < 2 ^ 56) (align : fring.toNat % 64 = 0) (least : 4 ≤ flog.toNat) (most : flog.toNat ≤ 16)
    (pen : notify.toNat < 2 ^ 32) (timer : kill.toNat < 2 ^ 32) (order : grace.toNat ≤ kill.toNat) (slot : ksl.toNat ≤ 127)
    (free : (s.ctx ctx.toNat).mode = .free) (used : (s.owner owner.toNat).used = true) (room : s.ctxs.length < 4096)
    (key : ksl = 0#64 ∨ ((∃ k, Tab.get? s.mast.keys ksl.toNat = some (.loaded k)) ∧
      ∀ e ∈ s.ctxs, e.2.mode ≠ .free → e.2.ksl ≠ ksl.toNat)) :
    exec (.ccreate f ctx owner fring flog notify grace kill ksl) s = .next ((s.setCtx ctx.toNat
      { mode := .ready, owner := owner.toNat, fring := fring, flog := flog.toNat, notify := notify.setWidth 32,
        grace := grace.setWidth 32, kill := kill.setWidth 32, ksl := ksl.toNat }).respond f 0 []) := by
  have ring' : fring.toNat < 72057594037927936 := ring
  have pen' : notify.toNat < 4294967296 := pen
  have timer' : kill.toNat < 4294967296 := timer
  rw [exec_ccreate, execCcreate, runCommand_may (Stmt.may_mono may fun o ho => by simp [ho])
    (by simp [ctxNum, low, high, ho, ring', align, least, most, pen', timer', order, slot]), Reply.guard_of, Reply.answer_ok]
  have owned : s.ctxLives ctx = false := by simp [State.ctxLives, free]
  rw [owned, used, decide_eq_true room]
  obtain rfl | ⟨⟨k, loaded⟩, unused⟩ := key
  · rfl
  · have alone : (s.ctxs.any fun e => e.2.mode != .free && e.2.ksl == ksl.toNat) = false := by simpa using unused
    rw [Tab.getD, loaded, alone]
    simp

/-! ### What every other context command asks first -/

theorem ctxNum_of {ctx : Word} (low : 1 ≤ ctx.toNat) (high : ctx.toNat ≤ 65535) : ctxNum ctx = true := by
  simp [ctxNum, low, high]

theorem State.ctxOpen_of {s : State} {ctx : Word} (free : (s.ctx ctx.toNat).mode ≠ .free)
    (teardown : (s.ctx ctx.toNat).mode ≠ .teardown) : s.ctxOpen ctx = true := by
  simp [State.ctxOpen, State.ctxLives, free, teardown]

theorem State.ctxOpen_of_shut {s : State} {ctx : Word} (h : (s.ctx ctx.toNat).mode = .free ∨ (s.ctx ctx.toNat).mode = .teardown) :
    s.ctxOpen ctx = false := by
  obtain h | h := h <;> simp [State.ctxOpen, State.ctxLives, h]

/-- A context that can still be changed. -/
structure State.openCtx (s : State) (ctx : Word) : Prop where
  low : 1 ≤ ctx.toNat
  high : ctx.toNat ≤ 65535
  free : (s.ctx ctx.toNat).mode ≠ .free
  teardown : (s.ctx ctx.toNat).mode ≠ .teardown

theorem State.openCtx.num {s : State} {ctx : Word} (h : s.openCtx ctx) : ctxNum ctx = true := ctxNum_of h.low h.high
theorem State.openCtx.isOpen {s : State} {ctx : Word} (h : s.openCtx ctx) : s.ctxOpen ctx = true := State.ctxOpen_of h.free h.teardown

theorem State.openCtx.kept {s : State} {ctx : Word} (h : s.openCtx ctx) (destroy : (s.ctx ctx.toNat).destroy = false) :
    s.ctxKept ctx = true := by simp [State.ctxKept, h.isOpen, destroy]

section
variable {s : State} {f : Nat} {ctx : Word} (mine : Stmt.may s f fun o => ctxMine ctx s o = true)
include mine

theorem exec_cread_answers (low : 1 ≤ ctx.toNat) (high : ctx.toNat ≤ 65535) :
    exec (.cread f ctx) s = .next (s.respond f 0 (s.ctxWords ctx.toNat)) := by
  rw [exec_cread, execCread, runCommand_may mine (ctxNum_of low high), Reply.answer_done]

/-! ### Commands on a context that is free or under teardown -/

theorem exec_cset_shut (low : 1 ≤ ctx.toNat) (high : ctx.toNat ≤ 65535)
    (shut : (s.ctx ctx.toNat).mode = .free ∨ (s.ctx ctx.toNat).mode = .teardown) {grace kill : Word} (timer : kill.toNat < 2 ^ 32)
    (order : grace.toNat ≤ kill.toNat) : exec (.cset f ctx grace kill) s = .next (s.respond f 2 []) := by
  have timer' : kill.toNat < 4294967296 := timer
  rw [exec_cset, execCset, runCommand_may mine (by simp [ctxNum_of low high, timer', order]),
    Reply.guard_of_not (State.ctxOpen_of_shut shut), Reply.answer_refuse]

theorem exec_climit_shut (low : 1 ≤ ctx.toNat) (high : ctx.toNat ≤ 65535)
    (shut : (s.ctx ctx.toNat).mode = .free ∨ (s.ctx ctx.toNat).mode = .teardown) {lines : Word} (most : lines.toNat ≤ 2048) :
    exec (.climit f ctx 0#64 lines) s = .next (s.respond f 2 []) := by
  rw [exec_climit, execClimit, runCommand_may mine (by simp [ctxNum_of low high, cacheLines, most]),
    Reply.guard_of_not (State.ctxOpen_of_shut shut), Reply.answer_refuse]

theorem exec_ckill_shut (low : 1 ≤ ctx.toNat) (high : ctx.toNat ≤ 65535)
    (shut : (s.ctx ctx.toNat).mode = .free ∨ (s.ctx ctx.toNat).mode = .teardown) :
    exec (.ckill f ctx) s = .next (s.respond f 2 []) := by
  rw [exec_ckill, execCkill, runCommand_may mine (ctxNum_of low high), Reply.guard_of_not (State.ctxOpen_of_shut shut),
    Reply.answer_refuse]

/-! ### CSET, CLIMIT, CAREA -/

theorem exec_cset_open (ok : s.openCtx ctx) {grace kill : Word} (timer : kill.toNat < 2 ^ 32) (order : grace.toNat ≤ kill.toNat) :
    exec (.cset f ctx grace kill) s = .next ((s.setCtx ctx.toNat
      { s.ctx ctx.toNat with grace := grace.setWidth 32, kill := kill.setWidth 32 }).respond f 0 []) := by
  have timer' : kill.toNat < 4294967296 := timer
  rw [exec_cset, execCset, runCommand_may mine (by simp [ok.num, timer', order]), Reply.guard_of ok.isOpen, Reply.answer_ok]

theorem exec_climit_open (ok : s.openCtx ctx) {kind lines : Word} (hk : kind.toNat ≤ 2) (most : lines.toNat ≤ cacheLines kind.toNat) :
    exec (.climit f ctx kind lines) s = .next ((s.setCtx ctx.toNat
      { s.ctx ctx.toNat with limits := Tab.put (s.ctx ctx.toNat).limits kind.toNat lines.toNat }).respond f 0 []) := by
  rw [exec_climit, execClimit, runCommand_may mine (by simp [ok.num, hk, most]), Reply.guard_of ok.isOpen, Reply.answer_ok]

/-- The right to a group: its owner, or its borrower while it is lent. -/
theorem groupMine_of {gh : Word} (present : (s.group gh.toNat).mode ≠ .absent) (hg : Stmt.may s f fun o =>
      (s.group gh.toNat).owner = o ∨ ((s.group gh.toNat).lent = true ∧ (s.group gh.toNat).borrower = o)) :
    Stmt.may s f fun o => (ctxMine ctx s o && groupMine gh s o) = true := by
  refine Stmt.may_mono (Stmt.may_and mine hg) fun o ⟨hc, hg⟩ => ?_
  simpa [hc, groupMine, present] using hg

theorem exec_carea_open (ok : s.openCtx ctx) {gh addr : Word} (hgh : gh.toNat < 65536) (align : addr.toNat % 65536 = 0)
    (stack : s.inStack addr.toNat (areaSize gh.toNat) = true) (home : paDie addr.toNat = dieOfCore (gh.toNat / 16))
    (present : (s.group gh.toNat).mode ≠ .absent) (off : (s.group gh.toNat).has ctx.toNat = false)
    (clear : s.blocked addr.toNat (areaSize gh.toNat) = false) (plain : (s.ctx ctx.toNat).ksl = 0)
    (destroy : (s.ctx ctx.toNat).destroy = false)
    (mapped : ∀ e ∈ s.ctxLeaves ctx.toNat, leafMeets e addr.toNat (areaSize gh.toNat) = false)
    (hg : Stmt.may s f fun o =>
      (s.group gh.toNat).owner = o ∨ ((s.group gh.toNat).lent = true ∧ (s.group gh.toNat).borrower = o)) :
    exec (.carea f ctx gh addr) s = .next ((s.setCtx ctx.toNat
      { s.ctx ctx.toNat with areas := Tab.put (s.ctx ctx.toNat).areas gh.toNat addr }).respond f 0 []) := by
  have unmapped : ((s.ctxLeaves ctx.toNat).any fun e => leafMeets e addr.toNat (areaSize gh.toNat)) = false := by
    rw [List.any_eq_false]
    exact fun e he => by simp [mapped e he]
  rw [exec_carea, execCarea, runCommand_may (groupMine_of mine present hg) (by simp [ok.num, hgh, align, stack, home]),
    Reply.guard_of (by simp [ok.kept destroy, present, off, clear, plain, unmapped]), Reply.answer_ok]

omit mine in
/-- Nobody but PF0 names a group that is neither its owner's nor lent to it. -/
theorem groupMine_of_other {gh : Word} (mine : Stmt.may s f fun o => (s.ctx ctx.toNat).mode ≠ .free ∧ (s.ctx ctx.toNat).owner = o)
    (hf : f ≠ 0) (other : (s.group gh.toNat).owner ≠ (s.ctx ctx.toNat).owner) (home : (s.group gh.toNat).lent = false) :
    ∀ o, s.ownerOf f = some o → (ctxMine ctx s o && groupMine gh s o) = false := by
  obtain ⟨-, rfl | ⟨p, owner, -, rfl⟩⟩ := mine
  · exact absurd rfl hf
  · intro o ho
    cases owner.symm.trans ho
    simp [groupMine, other, home]

/-! ### CWIN -/

/-- The window of a context on a die is set, and the pennants that enter it are zeroed. -/
def State.setWindow (s : State) (n die base count : Nat) : State :=
  (s.zeroPens die base (base + count)).setCtx n { s.ctx n with wins := Tab.put (s.ctx n).wins die (base, count) }

theorem exec_cwin_enters (ok : s.openCtx ctx) {die base count : Word} (hd : die.toNat ≤ 15) (pos : 0 < count.toNat)
    (top : base.toNat + count.toNat ≤ 65536) (destroy : (s.ctx ctx.toNat).destroy = false)
    (fresh : Tab.get? (s.ctx ctx.toNat).wins die.toNat = none)
    (unclaimed : ∀ e ∈ s.ctxs, ∀ b k, Tab.get? e.2.wins die.toNat = some (b, k) →
      e.1 = ctx.toNat ∨ base.toNat + count.toNat ≤ b ∨ b + k ≤ base.toNat) :
    exec (.cwin f ctx die base count) s =
      .next (((s.setWindow ctx.toNat die.toNat base.toNat count.toNat).workEnded s).respond f 0 []) := by
  have most : base.toNat + count.toNat ≤ 268435456 := by omega
  have some_ : count.toNat ≠ 0 := Nat.ne_of_gt pos
  rw [exec_cwin, execCwin, runCommand_may mine (by simp [ok.num, hd, most])]
  simp only [fresh]
  rw [Reply.guard_of, Reply.answer_ok, if_neg some_, State.setWindow]
  simp only [ok.kept destroy, Bool.true_and, Bool.true_or, Bool.and_true]
  rw [Bool.and_eq_true, Bool.not_eq_true', Bool.or_eq_true, decide_eq_true_eq]
  refine ⟨Bool.and_eq_false_iff.2 (.inr (List.any_eq_false.2 fun e he => ?_)), .inr (top.trans (Nat.le_add_right ..))⟩
  cases h : Tab.get? e.2.wins die.toNat with
  | none => simp
  | some w =>
    obtain same | apart := unclaimed e he w.1 w.2 h
    · simp [same]
    · have clear : overlap base.toNat count.toNat w.1 w.2 = false := by
        simp only [overlap, Bool.and_eq_false_iff, decide_eq_false_iff_not]
        omega
      simp [clear]

end

theorem State.zeroPens_below (s : State) (die : Nat) {lo hi : Nat} (h : hi ≤ 65536) : s.zeroPens die lo hi =
    s.setDie die { s.die die with pen := (s.die die).pen.keep fun i _ => !(decide (lo ≤ i) && decide (i < hi)) } := by
  unfold State.zeroPens
  dsimp only
  split
  · exact if_neg (by omega)
  · rfl

theorem State.pen_zeroPens (s : State) (die : Nat) {lo hi : Nat} (h : hi ≤ 65536) (i : Nat) :
    Tab.get? ((s.zeroPens die lo hi).die die).pen i = if lo ≤ i ∧ i < hi then none else Tab.get? (s.die die).pen i := by
  rw [State.zeroPens_below s die h, State.die_setDie_same]
  refine (Tab.get?_keep_key (s.die die).pen (fun k => !(decide (lo ≤ k) && decide (k < hi))) i).trans ?_
  by_cases inside : lo ≤ i ∧ i < hi
  · simp [inside]
  · have outside : lo ≤ i → hi ≤ i := fun low => Nat.le_of_not_lt fun high => inside ⟨low, high⟩
    simp [inside]

/-- What the last work of owners leaves: everything but their deficits. -/
theorem State.workEnded_frame (s b : State) : ∃ os, s.workEnded b = { s with owners := os } := by
  unfold State.workEnded
  generalize s.owners = l
  have step : ∀ (t : State), (∃ os, t = { s with owners := os }) → ∃ os, l.foldl (fun t e =>
      if b.hasWork e.1 && !s.hasWork e.1 then t.setOwner e.1 { t.owner e.1 with d := 0 } else t) t = { s with owners := os } := by
    induction l with
    | nil => exact fun t h => h
    | cons e l ih =>
      rintro t ⟨os, rfl⟩
      refine ih _ ?_
      dsimp only
      split
      · exact ⟨_, rfl⟩
      · exact ⟨_, rfl⟩
  exact step s ⟨s.owners, rfl⟩

theorem State.workEnded_setWindow (s b : State) (n die : Nat) {base count : Nat} (top : base + count ≤ 65536) :
    ((s.setWindow n die base count).workEnded b).ctx n = { s.ctx n with wins := Tab.put (s.ctx n).wins die (base, count) } ∧
    ((s.setWindow n die base count).workEnded b).seqs = s.seqs ∧ ((s.setWindow n die base count).workEnded b).mem = s.mem ∧
    ∀ i, Tab.get? (((s.setWindow n die base count).workEnded b).die die).pen i =
      if base ≤ i ∧ i < base + count then none else Tab.get? (s.die die).pen i := by
  have pens := s.pen_zeroPens die (lo := base) top
  obtain ⟨os, ended⟩ := (s.setWindow n die base count).workEnded_frame b
  rw [ended, State.setWindow]
  rw [State.zeroPens_below s die top] at pens ⊢
  exact ⟨State.ctx_setCtx_same .., rfl, rfl, pens⟩

/-! ### CPREEMPT -/

/-- Every sequencer of a list sees that a pre-emption is requested. -/
def State.askSeqs (s : State) (qs : List Nat) : State :=
  qs.foldl (fun s q => s.setSeq q { s.seq q with c := { (s.seq q).c with preq := true } }) s

theorem State.askSeqs_frame (qs : List Nat) (s : State) : ∃ xs, s.askSeqs qs = { s with seqs := xs } := by
  induction qs generalizing s with
  | nil => exact ⟨_, rfl⟩
  | cons q qs ih =>
    obtain ⟨xs, h⟩ := ih (s.setSeq q { s.seq q with c := { (s.seq q).c with preq := true } })
    exact ⟨xs, h⟩

/-- A request that is made twice is made. -/
theorem State.seq_askSeqs (qs : List Nat) (s : State) (q : Nat) : (s.askSeqs qs).seq q =
    if q ∈ qs then { s.seq q with c := { (s.seq q).c with preq := true } } else s.seq q := by
  induction qs generalizing s with
  | nil => rfl
  | cons p qs ih =>
    have one := s.seq_setSeq p q { s.seq p with c := { (s.seq p).c with preq := true } }
    refine (ih _).trans ?_
    rw [one]
    by_cases same : q = p
    · subst same
      simp
    · simp [same]

theorem State.requestRung_first {s : State} {gh : Nat} (h : (s.group gh).rung = 0) (grace kill : Nat) : s.requestRung gh grace kill =
    (s.setGroup gh { s.group gh with rung := 1, grace := grace, kill := kill, age := 0 }).askSeqs (groupSeqs gh) := by
  rw [State.requestRung]
  exact if_neg (by simp [h])

theorem State.requestRung_spec {s : State} {gh : Nat} (h : (s.group gh).rung = 0) (grace kill : Nat) :
    (s.requestRung gh grace kill).mem = s.mem ∧ (s.requestRung gh grace kill).cores = s.cores ∧
    (s.requestRung gh grace kill).mast = s.mast ∧
    (s.requestRung gh grace kill).group gh = { s.group gh with rung := 1, grace := grace, kill := kill, age := 0 } ∧
    ∀ q ∈ groupSeqs gh, (s.requestRung gh grace kill).seq q = { s.seq q with c := { (s.seq q).c with preq := true } } := by
  have seqs := State.seq_askSeqs (groupSeqs gh)
    (s.setGroup gh { s.group gh with rung := 1, grace := grace, kill := kill, age := 0 })
  obtain ⟨xs, asked⟩ := State.askSeqs_frame (groupSeqs gh)
    (s.setGroup gh { s.group gh with rung := 1, grace := grace, kill := kill, age := 0 })
  rw [State.requestRung_first h]
  rw [asked] at seqs ⊢
  exact ⟨rfl, rfl, rfl, State.group_setGroup_same .., fun q hq => (seqs q).trans (if_pos hq)⟩

theorem exec_cpreempt_asks {s : State} {f : Nat} {ctx : Word} (mine : Stmt.may s f fun o => ctxMine ctx s o = true)
    (ok : s.openCtx ctx) {gh grace : Word} (hgh : gh.toNat < 65536) (timer : grace.toNat < 2 ^ 32)
    (running : (s.group gh.toNat).mode = .running) (bound : ctx.toNat ∈ (s.group gh.toNat).bound)
    (loaded : (s.group gh.toNat).ctx = ctx.toNat)
    (hg : Stmt.may s f fun o =>
      (s.group gh.toNat).owner = o ∨ ((s.group gh.toNat).lent = true ∧ (s.group gh.toNat).borrower = o)) :
    exec (.cpreempt f ctx gh grace) s = (Reply.later (s.requestRung gh.toNat
      (min grace.toNat (s.ctx ctx.toNat).grace.toNat) (s.ctx ctx.toNat).kill.toNat) (.save gh.toNat)).answer f := by
  have timer' : grace.toNat < 4294967296 := timer
  rw [exec_cpreempt, execCpreempt, runCommand_may (groupMine_of mine (by simp [running]) hg) (by simp [ok.num, hgh, timer']),
    Reply.guard_of (by simp [ok.isOpen, running, bound]), if_neg (by simp [loaded]), if_pos running]

/-! ### CRESUME -/

theorem exec_cresume_running {s : State} {f : Nat} {ctx : Word} (mine : Stmt.may s f fun o => ctxMine ctx s o = true)
    (ok : s.openCtx ctx) {seq pc : Word} {gh : Nat} {g : Group} (hq : seq.toNat < 16384) (align : pc.toNat % 16 = 0)
    (group : s.groupOf seq.toNat = some (gh, g)) (loaded : g.ctx = ctx.toNat) (running : g.mode = .running) :
    exec (.cresume f ctx seq pc) s = (Reply.guard s ((s.seq seq.toNat).c.mode == .stopped)
      (.ok (s.setSeq seq.toNat ((s.seq seq.toNat).resumeAt pc)))).answer f := by
  rw [exec_cresume, execCresume, runCommand_may mine (by simp [ok.num, hq, align])]
  simp only [group, loaded, running, decide_true, Bool.and_self, if_true]

/-- A resumed sequencer runs, with its scalar registers; where it stopped, or at a new address with an empty window and loop stack. -/
theorem Seq.resumeAt_spec (x : Seq) (pc : Word) : (x.resumeAt pc).c.mode = .running ∧ (x.resumeAt pc).r.s = x.r.s ∧
    (pc = 0#64 → (x.resumeAt pc).c.window = x.c.window ∧ (x.resumeAt pc).c.pc = x.c.pc ∧ (x.resumeAt pc).c.loops = x.c.loops) ∧
    (pc ≠ 0#64 → (x.resumeAt pc).c.window = [] ∧ (x.resumeAt pc).c.pc = pc ∧ (x.resumeAt pc).c.loops = []) := by
  by_cases h : pc = 0#64
  · rw [Seq.resumeAt, if_pos h]
    exact ⟨rfl, rfl, fun _ => ⟨rfl, rfl, rfl⟩, fun n => absurd h n⟩
  · rw [Seq.resumeAt, if_neg h]
    exact ⟨rfl, rfl, fun e => absurd e h, fun _ => ⟨rfl, rfl, rfl⟩⟩

/-! ### CKEY -/

theorem exec_ckey_answers {s : State} {f : Nat} {slot keys : Word} (may : Stmt.may s f fun _ => True) (low : 1 ≤ slot.toNat)
    (high : slot.toNat ≤ 127) (empty : Tab.get? s.mast.keys slot.toNat = none)
    (apart : ∀ e ∈ s.ctxs, e.2.mode = .teardown → e.2.ksl ≠ slot.toNat) :
    (∀ k, Config.unwrapKeys (s.mail f).session (leNat (s.hostRead keys.toNat 64)) = some k → exec (.ckey f slot keys) s = .next
      (({ s with mast := { s.mast with keys := Tab.put s.mast.keys slot.toNat (.loaded (k + 1)) } } : State).respond f 0 [])) ∧
    (Config.unwrapKeys (s.mail f).session (leNat (s.hostRead keys.toNat 64)) = none →
      exec (.ckey f slot keys) s = .next (s.respond f 6 [])) := by
  have unblocked : (s.ctxs.any fun e => e.2.mode == .teardown && e.2.ksl == slot.toNat) = false := by simpa using apart
  have vacant : Tab.getD s.mast.keys slot.toNat .empty = .empty := by rw [Tab.getD, empty]; rfl
  rw [exec_ckey, execCkey, runCommand_may (Stmt.may_mono may fun _ _ => rfl) (by simp [low, high]),
    Reply.guard_of (by simp [vacant, unblocked])]
  refine ⟨fun k h => ?_, fun h => ?_⟩
  · rw [h, Reply.answer_ok]
  · rw [h, Reply.answer_done]

end Machine
end Sys2Proof
end

section
/-! PROOFS. The work of homes, caches, translations and the writers of records leaves the table of contexts and the key slots (O51; spec/07,
spec/16 R346, spec/18 R366 to R381). -/

namespace Sys2Proof
namespace Machine

/-! ### The home of a line -/

theorem State.foldl_tables {α : Type} {f : State → α → State}
    (hf : ∀ s a, (f s a).ctxs = s.ctxs ∧ (f s a).mast.keys = s.mast.keys) (l : List α) (s : State) :
    (l.foldl f s).ctxs = s.ctxs ∧ (l.foldl f s).mast.keys = s.mast.keys := by
  induction l generalizing s with
  | nil => exact ⟨rfl, rfl⟩
  | cons a l ih => exact ⟨(ih _).1.trans (hf s a).1, (ih _).2.trans (hf s a).2⟩

@[simp] theorem State.count_tables (s : State) (ctx : Nat) (k : Traffic) (n : Nat) :
    (s.count ctx k n).ctxs = s.ctxs ∧ (s.count ctx k n).mast.keys = s.mast.keys := by
  unfold State.count
  split <;> exact ⟨rfl, rfl⟩

@[simp] theorem State.activate_tables (s : State) (pa : Nat) (w : Bool) :
    (s.activate pa w).ctxs = s.ctxs ∧ (s.activate pa w).mast.keys = s.mast.keys := by
  unfold State.activate
  dsimp only
  (repeat' split) <;> exact ⟨rfl, rfl⟩

@[simp] theorem State.rowWrote_tables (s : State) (pa : Nat) :
    (s.rowWrote pa).ctxs = s.ctxs ∧ (s.rowWrote pa).mast.keys = s.mast.keys := by
  unfold State.rowWrote
  split <;> exact ⟨rfl, rfl⟩

@[simp] theorem State.sideWrote_tables (s : State) (l : Nat) :
    (s.sideWrote l).ctxs = s.ctxs ∧ (s.sideWrote l).mast.keys = s.mast.keys := by
  unfold State.sideWrote
  dsimp only
  (repeat' split) <;> simp

@[simp] theorem State.setSide_tables (s : State) (l : Nat) (x : Side) :
    (s.setSide l x).ctxs = s.ctxs ∧ (s.setSide l x).mast.keys = s.mast.keys := s.sideWrote_tables l

@[simp] theorem State.setInvalid_tables (s : State) (l : Nat) :
    (s.setInvalid l).ctxs = s.ctxs ∧ (s.setInvalid l).mast.keys = s.mast.keys := s.sideWrote_tables l

@[simp] theorem State.dropMsc_tables (s : State) (d r : Nat) :
    (s.dropMsc d r).ctxs = s.ctxs ∧ (s.dropMsc d r).mast.keys = s.mast.keys := by
  unfold State.dropMsc
  split
  · exact ⟨rfl, rfl⟩
  · dsimp only
    split <;> simp

@[simp] theorem State.mscAt_tables (s : State) (d l vd ctx cls : Nat) (w a : Bool) :
    (s.mscAt d l vd ctx cls w a).ctxs = s.ctxs ∧ (s.mscAt d l vd ctx cls w a).mast.keys = s.mast.keys := by
  unfold State.mscAt
  dsimp only
  (repeat' split) <;> simp

@[simp] theorem State.mscTouch_tables (s : State) (l ctx cls : Nat) (w a : Bool) :
    (s.mscTouch l ctx cls w a).ctxs = s.ctxs ∧ (s.mscTouch l ctx cls w a).mast.keys = s.mast.keys := by
  unfold State.mscTouch State.mscAccess
  dsimp only
  split
  · simp
  · simp [State.sendLink]

@[simp] theorem State.writeBack_tables (s : State) (l : Nat) (d : BitVec 512) (m : BitVec 64) :
    (s.writeBack l d m).ctxs = s.ctxs ∧ (s.writeBack l d m).mast.keys = s.mast.keys := by
  unfold State.writeBack
  dsimp only
  (repeat' split) <;> exact ⟨rfl, rfl⟩

@[simp] theorem State.ownerBack_tables (s : State) (l : Nat) (d : BitVec 512) (m : BitVec 64) :
    (s.ownerBack l d m).ctxs = s.ctxs ∧ (s.ownerBack l d m).mast.keys = s.mast.keys := by
  unfold State.ownerBack
  dsimp only
  split <;> exact s.writeBack_tables l d m

@[simp] theorem State.homeHal_tables (s : State) (l : Nat) :
    (s.homeHal l).ctxs = s.ctxs ∧ (s.homeHal l).mast.keys = s.mast.keys := by
  simp [State.homeHal, State.invalidateL2]

@[simp] theorem State.engWrite_tables (s : State) (a : Nat) (bs : List Byte) :
    (s.engWrite a bs).ctxs = s.ctxs ∧ (s.engWrite a bs).mast.keys = s.mast.keys := s.homeHal_tables _

@[simp] theorem State.engSetWord_tables (s : State) (a : Nat) (w : Word) :
    (s.engSetWord a w).ctxs = s.ctxs ∧ (s.engSetWord a w).mast.keys = s.mast.keys := s.engWrite_tables ..

@[simp] theorem State.engWords_tables (s : State) (a : Nat) (ws : List Word) :
    (s.engWords a ws).ctxs = s.ctxs ∧ (s.engWords a ws).mast.keys = s.mast.keys := by
  induction ws generalizing s a with
  | nil => exact ⟨rfl, rfl⟩
  | cons w ws ih => simp [State.engWords, ih]

@[simp] theorem State.engLine_tables (s : State) (l : Nat) (d : BitVec 512) (m : BitVec 64) :
    (s.engLine l d m).ctxs = s.ctxs ∧ (s.engLine l d m).mast.keys = s.mast.keys := by
  unfold State.engLine
  dsimp only
  split <;> exact s.homeHal_tables l

@[simp] theorem State.useKey_tables (s : State) (t : Tr) :
    (s.useKey t).ctxs = s.ctxs ∧ (s.useKey t).mast.keys = s.mast.keys := by
  unfold State.useKey State.rekey
  (repeat' split) <;> exact ⟨rfl, rfl⟩

/-! ### Errors met at a home -/

@[simp] theorem State.logError_tables (s : State) (c : Nat) (w : Word) :
    (s.logError c w).ctxs = s.ctxs ∧ (s.logError c w).mast.keys = s.mast.keys := ⟨rfl, rfl⟩

@[simp] theorem State.owe_tables (s : State) (ctx : Nat) (t : Trap) :
    (s.owe ctx t).ctxs = s.ctxs ∧ (s.owe ctx t).mast.keys = s.mast.keys := by
  unfold State.owe
  split <;> exact ⟨rfl, rfl⟩

@[simp] theorem State.recoverSide_tables (s : State) (l : Nat) :
    (s.recoverSide l).1.ctxs = s.ctxs ∧ (s.recoverSide l).1.mast.keys = s.mast.keys := by
  unfold State.recoverSide
  dsimp only
  split <;> simp

@[simp] theorem State.meetHome_tables (s : State) (l : Nat) :
    (s.meetHome l).1.ctxs = s.ctxs ∧ (s.meetHome l).1.mast.keys = s.mast.keys := by
  have side := s.recoverSide_tables l
  unfold State.meetHome
  dsimp only
  split
  · split <;> simp_all
  · split
    · split <;> exact ⟨rfl, rfl⟩
    · split <;> exact ⟨rfl, rfl⟩

@[simp] theorem State.homeErr_tables (s : State) (l : Nat) (acc : Acc) :
    (s.homeErr l acc).1.ctxs = s.ctxs ∧ (s.homeErr l acc).1.mast.keys = s.mast.keys := s.meetHome_tables l

@[simp] theorem State.meetQuiet_tables (s : State) (l ctx : Nat) :
    (s.meetQuiet l ctx).ctxs = s.ctxs ∧ (s.meetQuiet l ctx).mast.keys = s.mast.keys := by
  have home := s.meetHome_tables l
  unfold State.meetQuiet
  split <;> simp_all

/-! ### The L2 and the L1 -/

@[simp] theorem State.homeRdX_tables (s : State) (l r ctx : Nat) :
    (s.homeRdX l r ctx).ctxs = s.ctxs ∧ (s.homeRdX l r ctx).mast.keys = s.mast.keys := by
  simp [State.homeRdX, State.setL2, State.invalidateL2]

@[simp] theorem State.ownPend_tables (s : State) (l r ctx : Nat) :
    (s.ownPend l r ctx).ctxs = s.ctxs ∧ (s.ownPend l r ctx).mast.keys = s.mast.keys := by
  unfold State.ownPend
  split
  · exact ⟨rfl, rfl⟩
  · exact s.homeRdX_tables l r ctx

@[simp] theorem State.dropL2_tables (s : State) (r l : Nat) :
    (s.dropL2 r l).ctxs = s.ctxs ∧ (s.dropL2 r l).mast.keys = s.mast.keys := ⟨rfl, rfl⟩

@[simp] theorem State.homeWb_tables (s : State) (l r : Nat) :
    (s.homeWb l r).ctxs = s.ctxs ∧ (s.homeWb l r).mast.keys = s.mast.keys := by
  unfold State.homeWb
  dsimp only
  split
  · exact ⟨rfl, rfl⟩
  · split
    · split <;> simp
    · exact ⟨rfl, rfl⟩

@[simp] theorem State.loseL2_tables (s : State) (r l : Nat) :
    (s.loseL2 r l).ctxs = s.ctxs ∧ (s.loseL2 r l).mast.keys = s.mast.keys := by
  unfold State.loseL2
  split <;> simp

@[simp] theorem State.evictL2_tables (s : State) (r l : Nat) :
    (s.evictL2 r l).ctxs = s.ctxs ∧ (s.evictL2 r l).mast.keys = s.mast.keys := by
  unfold State.evictL2
  (repeat' split) <;> simp

@[simp] theorem State.parkL2_tables (s : State) (r l : Nat) :
    (s.parkL2 r l).ctxs = s.ctxs ∧ (s.parkL2 r l).mast.keys = s.mast.keys := by
  unfold State.parkL2
  split <;> exact ⟨rfl, rfl⟩

@[simp] theorem State.putOut_tables (s : State) (r k : Nat) (c : CLine) :
    (s.putOut r k c).ctxs = s.ctxs ∧ (s.putOut r k c).mast.keys = s.mast.keys := by
  unfold State.putOut
  (repeat' split) <;> simp [State.askHost]

@[simp] theorem State.roomL2_tables (s : State) (r l ctx : Nat) :
    (s.roomL2 r l ctx).ctxs = s.ctxs ∧ (s.roomL2 r l ctx).mast.keys = s.mast.keys := by
  refine State.foldl_tables (fun s _ => ?_) _ s
  unfold State.evictOne
  dsimp only
  split
  · exact ⟨rfl, rfl⟩
  · exact State.putOut_tables ..

@[simp] theorem State.own_tables (s : State) (l r ctx : Nat) :
    (s.own l r ctx).ctxs = s.ctxs ∧ (s.own l r ctx).mast.keys = s.mast.keys := by
  unfold State.own State.takeL2
  (repeat' split) <;> simp

@[simp] theorem State.overCopy_tables (s : State) (r l : Nat) (d : BitVec 512) (m : BitVec 64) :
    (s.overCopy r l d m).ctxs = s.ctxs ∧ (s.overCopy r l d m).mast.keys = s.mast.keys := by
  unfold State.overCopy
  split <;> exact ⟨rfl, rfl⟩

@[simp] theorem State.l2Merge_tables (s : State) (r l ctx : Nat) (d : BitVec 512) (m : BitVec 64) :
    (s.l2Merge r l ctx d m).ctxs = s.ctxs ∧ (s.l2Merge r l ctx d m).mast.keys = s.mast.keys := by
  unfold State.l2Merge
  split
  · exact ⟨rfl, rfl⟩
  · dsimp only
    split <;> simp [State.setL2]

@[simp] theorem State.pushL1_tables (s : State) (c ctx : Nat) :
    (s.pushL1 c ctx).ctxs = s.ctxs ∧ (s.pushL1 c ctx).mast.keys = s.mast.keys := by
  refine State.foldl_tables (fun s e => ?_) (s.core c).l1 s
  split
  · exact State.l2Merge_tables ..
  · exact ⟨rfl, rfl⟩

@[simp] theorem State.retireCopy_tables (s : State) (r l : Nat) (c : CLine) (f : CLine → CLine) :
    (s.retireCopy r l c f).ctxs = s.ctxs ∧ (s.retireCopy r l c f).mast.keys = s.mast.keys := by
  unfold State.retireCopy
  dsimp only
  split <;> simp [State.setL2]

@[simp] theorem State.scopedBack_tables (s : State) (r l : Nat) :
    (s.scopedBack r l).ctxs = s.ctxs ∧ (s.scopedBack r l).mast.keys = s.mast.keys := by
  unfold State.scopedBack
  (repeat' split) <;> simp

@[simp] theorem State.parkCopy_tables (s : State) (r l : Nat) :
    (s.parkCopy r l).ctxs = s.ctxs ∧ (s.parkCopy r l).mast.keys = s.mast.keys := by
  unfold State.parkCopy
  split <;> simp

@[simp] theorem State.putOutCopy_tables (s : State) (r k : Nat) :
    (s.putOutCopy r k).ctxs = s.ctxs ∧ (s.putOutCopy r k).mast.keys = s.mast.keys := by
  unfold State.putOutCopy
  (repeat' split) <;> simp [State.askHost]

@[simp] theorem State.release_tables (s : State) (c ctx : Nat) (sc : Scope) :
    (s.release c ctx sc).ctxs = s.ctxs ∧ (s.release c ctx sc).mast.keys = s.mast.keys := by
  have outward : ∀ (s : State) r, (s.pushL2 r).ctxs = s.ctxs ∧ (s.pushL2 r).mast.keys = s.mast.keys := by
    intro s r
    have owned := State.foldl_tables (f := fun (s : State) (e : Nat × CLine) =>
      if !e.2.pend then s else if s.lost e.1 then s.loseL2 r e.1 else s.ownPend e.1 r e.2.ctx)
      (fun s e => by (repeat' split) <;> simp) (s.cluster r).l2 s
    have back := fun (l : Tab CLine) u => State.foldl_tables (f := fun (s : State) (e : Nat × CLine) => s.scopedBack r e.1)
      (fun s e => s.scopedBack_tables r e.1) l u
    exact ⟨(back _ _).1.trans owned.1, (back _ _).2.trans owned.2⟩
  cases sc <;> simp [State.release, outward]

/-! ### Translation -/

@[simp] theorem State.touchPath_tables (s : State) (ctx : Nat) (t : Tr) :
    (s.touchPath ctx t).ctxs = s.ctxs ∧ (s.touchPath ctx t).mast.keys = s.mast.keys :=
  State.foldl_tables (fun s _ => s.mscTouch_tables _ ctx pcMem false false) _ s

@[simp] theorem State.walked_tables (s : State) (die ctx : Nat) (va : Word) :
    (s.walked die ctx va).1.ctxs = s.ctxs ∧ (s.walked die ctx va).1.mast.keys = s.mast.keys := by
  unfold State.walked
  split
  · exact s.touchPath_tables ctx _
  · exact ⟨rfl, rfl⟩

@[simp] theorem State.lookup_tables (s : State) (die ctx : Nat) (va : Word) (w : Bool) :
    (s.lookup die ctx va w).1.ctxs = s.ctxs ∧ (s.lookup die ctx va w).1.mast.keys = s.mast.keys := by
  unfold State.lookup
  (repeat' split) <;> simp

@[simp] theorem State.translateN_tables (s : State) (die ctx : Nat) (va : Word) (acc : Acc) (n : Nat) :
    (s.translateN die ctx va acc n).1.ctxs = s.ctxs ∧ (s.translateN die ctx va acc n).1.mast.keys = s.mast.keys := by
  induction n generalizing s with
  | zero => exact ⟨rfl, rfl⟩
  | succ n ih =>
    have found := s.lookup_tables die ctx va acc.write
    unfold State.translateN
    split
    · simp_all
    · simp_all
    · simp_all
    · next s1 l heq =>
      have home := s1.homeErr_tables l { acc with write := false }
      rw [heq] at found
      split <;> simp_all
    · rw [‹s.lookup die ctx va acc.write = _›] at found
      split <;> exact found

@[simp] theorem State.translate_tables (s : State) (die ctx : Nat) (va : Word) (acc : Acc) :
    (s.translate die ctx va acc).1.ctxs = s.ctxs ∧ (s.translate die ctx va acc).1.mast.keys = s.mast.keys := by
  unfold State.translate
  (repeat' split) <;> simp

@[simp] theorem State.setDirty_tables (s : State) (die ctx : Nat) (va : Word) (t : Tr) :
    (s.setDirty die ctx va t).ctxs = s.ctxs ∧ (s.setDirty die ctx va t).mast.keys = s.mast.keys := by
  unfold State.setDirty
  split <;> simp

end Machine
end Sys2Proof
end

section
/-! PROOFS. The writers of records and the patch engine leave the table of contexts, so what a CDESTROY drops leaves its context (O51; spec/09
R236, spec/16 R346, R357). -/

namespace Sys2Proof
namespace Machine

/-! ### The writers of records -/

theorem State.gateAsks.ctxs {s : State} {x : Option (State × List Instr)} (h : s.gateAsks x) {u : State × List Instr}
    (hu : x = some u) : u.1.ctxs = s.ctxs := by
  obtain same | ⟨l, asked⟩ := h u hu
  · rw [same]
  · rw [asked]
    rfl

@[simp] theorem State.recAddr_ctxs (s : State) (die ctx : Nat) (va : Word) (w : Bool) : (s.recAddr die ctx va w).1.ctxs = s.ctxs := by
  have found := (s.translate_tables die ctx va { cls := pcMem, write := w }).1
  unfold State.recAddr
  dsimp only
  split
  · next s1 t heq =>
    rw [heq] at found
    have ready : ((if w then s1.setDirty die ctx va t else s1).useKey t).ctxs = s.ctxs := by
      refine (State.useKey_tables ..).1.trans ?_
      split
      · exact (State.setDirty_tables ..).1.trans found
      · exact found
    have home := (State.homeErr_tables ((if w then s1.setDirty die ctx va t else s1).useKey t) (lineOf t.pa)
      { cls := pcMem, write := w }).1
    split
    · exact found
    · split <;> simp_all
  · next heq =>
    rw [heq] at found
    exact found

theorem State.ctxs_of_recAddr {s s1 : State} {die ctx : Nat} {va : Word} {w : Bool} {o : Option Nat}
    (h : s.recAddr die ctx va w = (s1, o)) : s1.ctxs = s.ctxs := by
  rw [← s.recAddr_ctxs die ctx va w, h]

@[simp] theorem State.tryRecord_ctxs (s : State) (q ctx src : Nat) (r : Record) : (s.tryRecord q ctx src r).1.ctxs = s.ctxs := by
  unfold State.tryRecord
  dsimp only
  split
  · next h1 => exact (State.logError_tables ..).1.trans (State.ctxs_of_recAddr h1)
  · next h1 =>
    have c1 := State.ctxs_of_recAddr h1
    split
    · next h2 => exact (State.logError_tables ..).1.trans ((State.ctxs_of_recAddr h2).trans c1)
    · next h2 =>
      have c2 := (State.ctxs_of_recAddr h2).trans c1
      split
      · exact c2
      · split
        · next h3 => exact (State.logError_tables ..).1.trans ((State.ctxs_of_recAddr h3).trans c2)
        · next h3 =>
          have c3 := (State.ctxs_of_recAddr h3).trans c2
          split <;> simp [c3]

theorem State.ctxs_of_tryRecord {s s1 : State} {q ctx src : Nat} {r : Record} {b : Bool} (h : s.tryRecord q ctx src r = (s1, b)) :
    s1.ctxs = s.ctxs := by
  rw [← s.tryRecord_ctxs q ctx src r, h]

@[simp] theorem State.retryHeld_ctxs (s : State) (ctx n : Nat) : (s.retryHeld ctx n).ctxs = s.ctxs := by
  induction n generalizing s with
  | zero => rfl
  | succ n ih =>
    unfold State.retryHeld
    split
    · rfl
    · split
      · next h => exact (s.gateAsks_ringGate _ _).ctxs h
      · split
        · next h => exact State.ctxs_of_tryRecord h
        · next h =>
          have written := State.ctxs_of_tryRecord h
          exact (ih _).trans written

@[simp] theorem State.countLost_ctxs (s : State) (q ctx : Nat) : (s.countLost q ctx).ctxs = s.ctxs := by
  unfold State.countLost
  split
  · next h => exact (State.engSetWord_tables ..).1.trans (State.ctxs_of_recAddr h)
  · next h => exact State.ctxs_of_recAddr h

@[simp] theorem State.writeStatus_ctxs (s : State) (o : Owed) : (s.writeStatus o).ctxs = s.ctxs := by
  unfold State.writeStatus
  split
  · exact State.countLost_ctxs ..
  · have held : (s.retryRecords o.ctx).ctxs = s.ctxs := State.retryHeld_ctxs ..
    split
    · next h => exact (State.ctxs_of_tryRecord h).trans held
    · next h => exact (State.countLost_ctxs ..).trans ((State.ctxs_of_tryRecord h).trans held)

@[simp] theorem State.putStatus_ctxs (s : State) (q ctx src slot : Nat) (p : Word) (k : Nat) (t : Trap) :
    (s.putStatus q ctx src slot p k t).ctxs = s.ctxs := by
  unfold State.putStatus
  dsimp only
  split
  · next h => exact (s.gateAsks_ringGate _ _).ctxs h
  · exact State.writeStatus_ctxs ..

/-! ### Operations that succeed -/

/-- An operation that succeeds leaves a table of contexts. -/
def Try.leaves {α : Type} (cs : Tab Ctx) : Try α → Prop
  | .ok s _ => s.ctxs = cs
  | .trap _ _ | .wait _ _ => True

theorem Try.leaves_bind {α β : Type} {cs : Tab Ctx} {x : Try α} {f : State → α → Try β} (hx : x.leaves cs)
    (hf : ∀ s a, s.ctxs = cs → (f s a).leaves cs) : (x.bind f).leaves cs := by
  cases x with
  | ok s a => exact hf s a hx
  | trap s t => trivial
  | wait s e => trivial

theorem tryList_leaves {α : Type} {cs : Tab Ctx} {f : State → α → Try Unit} (hf : ∀ s a, s.ctxs = cs → (f s a).leaves cs)
    (l : List α) {s : State} (h : s.ctxs = cs) : (tryList l s f).leaves cs := by
  induction l generalizing s with
  | nil => exact h
  | cons a t ih => exact Try.leaves_bind (hf s a h) fun s _ hs => ih hs

section
variable {cs : Tab Ctx} {s : State}

theorem State.meetErrors_leaves (h : s.ctxs = cs) (q ctx l : Nat) (acc : Acc) : (s.meetErrors q ctx l acc).leaves cs := by
  have home := (s.homeErr_tables l acc).1
  unfold State.meetErrors
  split
  · next heq =>
    rw [heq] at home
    exact home.trans h
  · trivial
  · next heq =>
    rw [heq] at home
    exact (State.putStatus_ctxs ..).trans (home.trans h)

theorem State.find_leaves (h : s.ctxs = cs) (q : Nat) (va : Word) (acc : Acc) : (s.find q va acc).leaves cs := by
  have found := (s.translate_tables (dieOf q) (s.ctxOf q) va acc).1
  unfold State.find
  dsimp only
  split
  · trivial
  · split
    · trivial
    · next heq =>
      rw [heq] at found
      split
      · split
        · trivial
        · exact found.trans h
      · exact found.trans h

theorem State.reach_leaves (h : s.ctxs = cs) (q : Nat) (va : Word) (acc : Acc) : (s.reach q va acc).leaves cs := by
  refine Try.leaves_bind (State.find_leaves h q va acc) fun s1 t h1 => ?_
  unfold State.windowUp
  split
  · trivial
  · exact h1

theorem State.pieceErr_leaves (h : s.ctxs = cs) (q ctx : Nat) (p : Piece) (acc : Acc) : (s.pieceErr q ctx p acc).leaves cs := by
  unfold State.pieceErr
  dsimp only
  split
  · exact h
  · exact State.meetErrors_leaves h ..

theorem State.reachPiece_leaves (h : s.ctxs = cs) (q : Nat) (acc : Acc) (va : Word) (n : Nat) : (s.reachPiece q acc va n).leaves cs := by
  refine Try.leaves_bind (State.reach_leaves h q va acc) fun s1 t h1 => ?_
  dsimp only
  split
  · split
    · split
      · split
        · split
          · trivial
          · exact h1
        · trivial
      · trivial
    · exact h1
  · split
    · trivial
    · exact Try.leaves_bind (State.pieceErr_leaves ((State.useKey_tables ..).1.trans h1) ..) fun _ _ h3 => h3

theorem State.reachRange_leaves (h : s.ctxs = cs) (q : Nat) (acc : Acc) (a : Word) (n : Nat) : (s.reachRange q acc a n).leaves cs := by
  unfold State.reachRange
  generalize cutLines a.toNat n (n / 64 + 2) = cuts
  generalize ([] : List Piece) = ps
  induction cuts generalizing s ps with
  | nil => exact h
  | cons c cuts ih => exact Try.leaves_bind (State.reachPiece_leaves h ..) fun _ _ h1 => ih h1 _

end

/-! ### The bytes of a range -/

@[simp] theorem State.winTraffic_ctxs (s : State) (ctx pa n : Nat) : (s.winTraffic ctx pa n).ctxs = s.ctxs := by
  unfold State.winTraffic
  split
  · rfl
  · simp [State.sendLink]

@[simp] theorem State.ncWrite_ctxs (s : State) (pa : Nat) (bs : List Byte) : (s.ncWrite pa bs).ctxs = s.ctxs := by
  unfold State.ncWrite
  dsimp only
  (repeat' split) <;> rfl

@[simp] theorem State.redWrite_ctxs (s : State) (g : RedGroup) (off : Nat) (d : BitVec 512) : (s.redWrite g off d).ctxs = s.ctxs := by
  unfold State.redWrite
  dsimp only
  (repeat' split) <;> simp

@[simp] theorem State.contribute_ctxs (s : State) (k off : Nat) (d : BitVec 512) : (s.contribute k off d).ctxs = s.ctxs := by
  unfold State.contribute
  dsimp only
  (repeat' split) <;> simp [State.setRed]

@[simp] theorem State.readPieces_ctxs (s : State) (ctx cls : Nat) (ps : List Piece) : (s.readPieces ctx cls ps).1.ctxs = s.ctxs := by
  induction ps generalizing s with
  | nil => rfl
  | cons p ps ih =>
    refine (ih (s.readPiece ctx cls p).1).trans ?_
    unfold State.readPiece
    dsimp only
    split <;> simp

@[simp] theorem State.writePieces_ctxs (s : State) (die ctx cls : Nat) (ps : List Piece) (bs : List Byte) :
    (s.writePieces die ctx cls ps bs).ctxs = s.ctxs := by
  induction ps generalizing s bs with
  | nil => rfl
  | cons p ps ih =>
    refine (ih _ _).trans ?_
    unfold State.writePiece
    dsimp only
    (repeat' split) <;> simp

/-! ### Tensors -/

section
variable {cs : Tab Ctx} {s : State}

theorem State.paRead_leaves (h : s.ctxs = cs) (q : Nat) (tensor : Bool) (a : Word) (n : Nat) : (s.paRead q tensor a n).leaves cs :=
  Try.leaves_bind (State.reachRange_leaves h ..) fun s1 _ h1 => (s1.readPieces_ctxs ..).trans h1

theorem State.paWrite_leaves (h : s.ctxs = cs) (q : Nat) (tensor : Bool) (a : Word) (bs : List Byte) :
    (s.paWrite q tensor a bs).leaves cs :=
  Try.leaves_bind (State.reachRange_leaves h ..) fun s1 _ h1 => (s1.writePieces_ctxs ..).trans h1

theorem State.paSlots_leaves (h : s.ctxs = cs) (q : Nat) (pool : Word) (nslots ncells idx n : Nat) :
    (s.paSlots q pool nslots ncells idx n).leaves cs := by
  induction n generalizing s idx with
  | zero => exact h
  | succ n ih =>
    unfold State.paSlots
    split
    · exact h
    · exact Try.leaves_bind (State.paRead_leaves h ..) fun s1 v h1 => Try.leaves_bind (ih h1 _) fun _ _ h2 => h2

theorem State.paFree_leaves (h : s.ctxs = cs) (q : Nat) (pool : Word) (mark idx n : Nat) :
    (s.paFree q pool mark idx n).leaves cs := by
  induction n generalizing s idx with
  | zero => exact h
  | succ n ih =>
    unfold State.paFree
    split
    · exact h
    · exact Try.leaves_bind (State.paRead_leaves h ..) fun s1 v h1 => Try.leaves_bind (ih h1 _) fun _ _ h2 => h2

theorem State.paEnts_leaves (h : s.ctxs = cs) (q : Nat) (table pool : Word) (nslots ncells num left fuel : Nat) :
    (s.paEnts q table pool nslots ncells num left fuel).leaves cs := by
  induction fuel generalizing s num left with
  | zero => exact h
  | succ fuel ih =>
    unfold State.paEnts
    split
    · exact h
    · refine Try.leaves_bind (State.paRead_leaves h ..) fun s1 v h1 => ?_
      dsimp only
      split
      · exact ih h1 _ _
      · exact Try.leaves_bind (State.paSlots_leaves h1 ..) fun s2 sl h2 => Try.leaves_bind (ih h2 _ _) fun _ _ h3 => h3

theorem State.paLoad_leaves (h : s.ctxs = cs) (q : Nat) (rec : Word) : (s.paLoad q rec).leaves cs := by
  unfold State.paLoad
  split
  · trivial
  · refine Try.leaves_bind (State.paRead_leaves h ..) fun s1 v h1 => Try.leaves_bind (State.paRead_leaves h1 ..) fun s2 w h2 => ?_
    dsimp only
    split
    · trivial
    · exact Try.leaves_bind (State.paEnts_leaves h2 ..) fun s3 es h3 => Try.leaves_bind (State.paFree_leaves h3 ..) fun s4 fr h4 =>
        Try.leaves_bind (State.paRead_leaves h4 ..) fun s5 nr h5 => h5

theorem State.paSave_leaves (h : s.ctxs = cs) (q : Nat) (old new : Tensor) (cells : List (Nat × BitVec 512)) :
    (s.paSave q old new cells).leaves cs :=
  Try.leaves_bind (tryList_leaves (fun _ _ hs => State.paWrite_leaves hs ..) _ h) fun _ _ h1 =>
    tryList_leaves (fun _ _ hs => State.paWrite_leaves hs ..) _ h1

theorem State.dropOpen_leaves (h : s.ctxs = cs) (q : Nat) (p : Port) : (s.dropOpen q p).leaves cs := by
  refine Try.leaves_bind (State.paLoad_leaves h ..) fun s1 t h1 => ?_
  split
  · trivial
  · exact State.paSave_leaves h1 ..

theorem State.dropFor_leaves (h : s.ctxs = cs) (ctx gh : Nat) (p : Port) : (s.dropFor ctx gh p).leaves cs := by
  have loaded := State.paLoad_leaves (s := { s with groups := [(gh, { mode := .running, ctx := ctx })] }) h ((groupSeqs gh).headD 0)
    p.record
  refine Try.leaves_bind loaded fun s1 t h1 => Try.leaves_bind ?_ fun _ _ h2 => h2
  split
  · split
    · exact h1
    · exact State.dropOpen_leaves h1 ..
  · exact h1

end

/-! ### Drops of open patches -/

/-- A context keeps its scrub list and its key slot. -/
structure State.keepsScrub (s t : State) (n : Nat) : Prop where
  scrubList : (t.ctx n).scrubList = (s.ctx n).scrubList
  ksl : (t.ctx n).ksl = (s.ctx n).ksl

theorem State.keepsScrub_of_eq {s t : State} (h : t.ctxs = s.ctxs) (n : Nat) : s.keepsScrub t n := by
  have same : t.ctx n = s.ctx n := by rw [State.ctx, State.ctx, h]
  exact ⟨by rw [same], by rw [same]⟩

theorem State.keepsScrub.trans {s t u : State} {n : Nat} (h : s.keepsScrub t n) (k : t.keepsScrub u n) : s.keepsScrub u n :=
  ⟨k.scrubList.trans h.scrubList, k.ksl.trans h.ksl⟩

theorem State.keepsScrub_drops (s : State) (n : Nat) (ds : List (Nat × Port)) :
    s.keepsScrub (s.setCtx n { s.ctx n with drops := ds }) n :=
  ⟨by rw [State.ctx_setCtx_same], by rw [State.ctx_setCtx_same]⟩

/-- The drops of a context change of it only what is still to be dropped. -/
theorem State.dropAll_keepsScrub (s : State) (n : Nat) (ds : List (Nat × Port)) : s.keepsScrub (s.dropAll n ds).1 n := by
  induction ds generalizing s with
  | nil => exact s.keepsScrub_drops n []
  | cons d ds ih =>
    have dropped := State.dropFor_leaves (s := s) rfl n d.1 d.2
    unfold State.dropAll
    split
    · next heq =>
      rw [heq] at dropped
      exact (State.keepsScrub_of_eq dropped n).trans (ih _)
    · exact ih s
    · constructor
      all_goals
        dsimp only
        rw [State.ctx_setCtx_same]
        rfl

end Machine
end Sys2Proof
end

section
/-! PROOFS. CKILL, CDESTROY and the context commands settled (O51; spec/16 R334, R343, R357 to R359). -/

namespace Sys2Proof
namespace Machine

/-! ### Answers and lists of operations -/

theorem foldl_keeps {α β : Type} {g : State → β} {f : State → α → State} (hf : ∀ s a, g (f s a) = g s) (l : List α) (s : State) :
    g (l.foldl f s) = g s := by
  induction l generalizing s with
  | nil => rfl
  | cons a l ih => exact (ih _).trans (hf s a)

theorem State.ctx_of_ctxs {s t : State} (h : t.ctxs = s.ctxs) (n : Nat) : t.ctx n = s.ctx n := by rw [State.ctx, State.ctx, h]

@[simp] theorem State.respond_tables (s : State) (f st : Nat) (rs : List Word) :
    (s.respond f st rs).ctxs = s.ctxs ∧ (s.respond f st rs).mast.keys = s.mast.keys := by
  by_cases h : (s.mail f).head = (s.mail f).tail
  · rw [State.respond_empty h]
    exact ⟨rfl, rfl⟩
  · rw [State.respond_eq h]
    exact ⟨rfl, rfl⟩

@[simp] theorem State.answerAll_tables (s : State) (w : MailWait) (st : Nat) :
    (s.answerAll w st).ctxs = s.ctxs ∧ (s.answerAll w st).mast.keys = s.mast.keys :=
  State.foldl_tables (fun s e => s.respond_tables e.1 st []) _ s

/-! ### A kill begins (spec/16 R343) -/

/-- The queues of a killed context halt and its launches end; no other launch does, and no context changes. -/
theorem State.killQueues_frame (s : State) (n : Nat) (b : State) : (s.killQueues n b).ctxs = s.ctxs ∧
    (s.killQueues n b).launches = s.launches.keep fun _ l => l.ctx != n := by
  have drained : ∀ (s : State) k, (s.freeDrained k).ctxs = s.ctxs ∧ (s.freeDrained k).launches = s.launches := by
    intro s k
    unfold State.freeDrained
    split <;> exact ⟨rfl, rfl⟩
  unfold State.killQueues
  extract_lets gone s1 s2
  obtain ⟨os, ended⟩ := s2.workEnded_frame b
  rw [ended]
  exact ⟨foldl_keeps (g := State.ctxs) (fun s e => (drained s e.2.queue).1) gone s1,
    foldl_keeps (g := State.launches) (fun s e => (drained s e.2.queue).2) gone s1⟩

theorem State.beginKill_spec (s : State) (n : Nat) (d : Bool) : ((s.beginKill n d).ctx n).mode = .killing ∧
    ((s.beginKill n d).ctx n).images = [] ∧ ∀ e ∈ (s.beginKill n d).launches, e.2.ctx ≠ n := by
  unfold State.beginKill
  extract_lets s1 s2 c s3
  rw [State.ctx_setCtx_same]
  refine ⟨rfl, rfl, fun e he => ?_⟩
  have kept : e ∈ s1.launches.keep fun _ l => l.ctx != n := (s1.killQueues_frame n s).2 ▸ he
  simpa using (List.mem_filter.1 kept).2

/-! ### A teardown begins (spec/16 R357) -/

@[simp] theorem State.dropLines_keys (s : State) (n : Nat) : (s.dropLines n).mast.keys = s.mast.keys := by
  unfold State.dropLines
  extract_lets s1 s2
  have cores : s1.mast.keys = s.mast.keys := by
    refine foldl_keeps (g := fun s => s.mast.keys) (fun s e => ?_) _ s
    dsimp only
    rw [State.setCore_mast, (s.pushL1_tables e.1 n).2]
  have clusters : s2.mast.keys = s1.mast.keys := by
    refine foldl_keeps (g := fun s => s.mast.keys) (fun s e => ?_) _ s1
    refine (foldl_keeps (g := fun s => s.mast.keys) (fun s l => ?_) _ _).trans
      (foldl_keeps (g := fun s => s.mast.keys) (fun s l => ?_) _ s)
    all_goals split <;> simp
  refine Eq.trans ?_ (clusters.trans cores)
  refine foldl_keeps (g := fun s => s.mast.keys) (fun s e => ?_) _ s2
  refine foldl_keeps (g := fun s => s.mast.keys) (fun s l => ?_) _ s
  split <;> simp

@[simp] theorem State.startScrub_keys (s : State) (n : Nat) (runs : List (Nat × Nat)) :
    (s.startScrub n runs).mast.keys = s.mast.keys := foldl_keeps (g := fun s => s.mast.keys) (fun _ _ => by rfl) _ s

theorem State.ctx_beginTeardown (s : State) (n : Nat) : ((s.beginTeardown n).ctx n).mode = .teardown ∧
    ((s.beginTeardown n).ctx n).scrubList = (s.ctx n).scrubRuns := by
  unfold State.beginTeardown
  extract_lets c mast s1 s2 runs all s3 mast3 s4
  have torn : s3.ctx n = _ := State.ctx_setCtx_same ..
  clear_value s3
  rw [State.ctx_of_ctxs (State.answerAll_tables ..).1, show s4.ctx n = s3.ctx n from rfl, torn]
  exact ⟨rfl, rfl⟩

theorem State.keys_beginTeardown (s : State) (n : Nat) (h : (s.ctx n).ksl ≠ 0) :
    Tab.get? (s.beginTeardown n).mast.keys (s.ctx n).ksl = some .zeroising := by
  unfold State.beginTeardown
  extract_lets c mast s1 s2 runs all s3 mast3 s4
  have scrubbed : s4.mast.keys = s2.mast.keys := s2.startScrub_keys n all
  have dropped : s2.mast.keys = s1.mast.keys := s1.dropLines_keys n
  rw [(State.answerAll_tables ..).2, scrubbed, dropped]
  have zeroising : s1.mast.keys = Tab.put s.mast.keys c.ksl .zeroising := by
    rw [show s1 = _ from if_neg h]
  rw [zeroising, Tab.get?_put_same]

/-! ### CKILL and CDESTROY -/

section
variable {s : State} {f : Nat} {ctx : Word} (mine : Stmt.may s f fun o => ctxMine ctx s o = true) (ok : s.openCtx ctx)
include mine ok

theorem exec_ckill_begins (living : (s.ctx ctx.toNat).mode ≠ .killing) :
    exec (.ckill f ctx) s = (Reply.later (s.beginKill ctx.toNat false) (.kill ctx.toNat)).answer f := by
  rw [exec_ckill, execCkill, runCommand_may mine ok.num, Reply.guard_of ok.isOpen, if_neg living]

/-- The context takes the runs of the list on, which a scrub writes. -/
def State.listRuns (s : State) (ctx list count : Word) : State :=
  s.setCtx ctx.toNat { s.ctx ctx.toNat with
    scrubList := (s.ctx ctx.toNat).scrubList ++ s.readRuns list.toNat count.toNat }

theorem exec_cdestroy_killing (killing : (s.ctx ctx.toNat).mode = .killing) {list count : Word}
    (legal : ∀ r ∈ s.readRuns list.toNat count.toNat, r.1 % 65536 = 0 ∧ r.2 ≠ 0 ∧ s.inStack r.1 (65536 * r.2) = true) :
    exec (.cdestroy f ctx list count) s = (Reply.later ((s.listRuns ctx list count).setCtx ctx.toNat
      { (s.listRuns ctx list count).ctx ctx.toNat with destroy := true }) (.teardown ctx.toNat)).answer f := by
  have runs : (s.readRuns list.toNat count.toNat).all (fun r => r.1 % 65536 == 0 && r.2 != 0 && s.inStack r.1 (65536 * r.2)) = true := by
    simpa [and_assoc] using legal
  rw [exec_cdestroy, execCdestroy, runCommand_may mine (by simp [ok.num, runs]), Reply.guard_of ok.isOpen]
  dsimp only
  split
  · next h => exact absurd (killing.symm.trans h) nofun
  · rfl
  · next h => exact absurd killing h

/-- The open patches of a context are dropped, and its launches end. -/
def State.dropped (s : State) (ctx list count : Word) : State :=
  let t := ((s.listRuns ctx list count).dropAll ctx.toNat ((s.ctx ctx.toNat).openPorts ++ (s.ctx ctx.toNat).left)).1
  t.killQueues ctx.toNat t

theorem exec_cdestroy_ready (ready : (s.ctx ctx.toNat).mode = .ready) {list count : Word}
    (drops : (s.dropAll ctx.toNat ((s.ctx ctx.toNat).openPorts ++ (s.ctx ctx.toNat).left)).2 = [])
    (legal : ∀ r ∈ s.readRuns list.toNat count.toNat, r.1 % 65536 = 0 ∧ r.2 ≠ 0 ∧ s.inStack r.1 (65536 * r.2) = true) :
    exec (.cdestroy f ctx list count) s = .next (((s.dropped ctx list count).beginTeardown ctx.toNat).respond f 0 []) := by
  have runs : (s.readRuns list.toNat count.toNat).all (fun r => r.1 % 65536 == 0 && r.2 != 0 && s.inStack r.1 (65536 * r.2)) = true := by
    simpa [and_assoc] using legal
  rw [exec_cdestroy, execCdestroy, runCommand_may mine (by simp [ok.num, runs]), Reply.guard_of ok.isOpen]
  dsimp only
  split
  · split
    · rfl
    · next waits heq => exact (waits ((congrArg Prod.snd heq).symm.trans drops)).elim
  · next h => exact absurd (ready.symm.trans h) nofun
  · next h _ => exact absurd ready h

end

theorem State.keepsScrub_dropped (s : State) (ctx list count : Word) :
    (s.listRuns ctx list count).keepsScrub (s.dropped ctx list count) ctx.toNat :=
  ((s.listRuns ctx list count).dropAll_keepsScrub _ _).trans (State.keepsScrub_of_eq (State.killQueues_frame ..).1 _)

/-- A context that is dropped and torn down scrubs the runs of the list, and zeroises its key slot. -/
theorem State.beginTeardown_dropped (s : State) (ctx list count : Word) :
    (((s.dropped ctx list count).beginTeardown ctx.toNat).ctx ctx.toNat).mode = .teardown ∧
    (∀ r ∈ s.readRuns list.toNat count.toNat, r ∈ (((s.dropped ctx list count).beginTeardown ctx.toNat).ctx ctx.toNat).scrubList) ∧
    ((s.ctx ctx.toNat).ksl ≠ 0 → Tab.get? ((s.dropped ctx list count).beginTeardown ctx.toNat).mast.keys (s.ctx ctx.toNat).ksl =
      some .zeroising) := by
  obtain ⟨scrubs, slot⟩ := s.keepsScrub_dropped ctx list count
  rw [State.listRuns, State.ctx_setCtx_same] at scrubs slot
  obtain ⟨mode, runs⟩ := (s.dropped ctx list count).ctx_beginTeardown ctx.toNat
  refine ⟨mode, fun r hr => ?_, fun key => ?_⟩
  · rw [runs, Ctx.scrubRuns, scrubs]
    exact List.mem_append_right _ (List.mem_append_right _ hr)
  · have zeroising := (s.dropped ctx list count).keys_beginTeardown ctx.toNat (by rw [slot]; exact key)
    rwa [slot] at zeroising

/-- Settles O51: every command of a context is the one operation that looks at readiness, right and range, with the one change of its own;
what a kill and a teardown do on the way leaves the context's scrub list, its key slot and the key slots of others. -/
theorem contextCommandsActOnTheirContext : Obligations.ContextCommandsActOnTheirContext := by
  refine ⟨fun s f ctx owner fring flog notify grace kill ksl may => ⟨exec_ccreate_range may, exec_ccreate_free may⟩,
    fun s f ctx => ?_, fun s f slot keys may low high empty apart => exec_ckey_answers may low high empty apart⟩
  dsimp only
  intro may low high
  have mine : Stmt.may s f fun o => ctxMine ctx s o = true := Stmt.may_mono may fun o ⟨free, owned⟩ => by
    simp only [ctxMine, Bool.and_eq_true, bne_iff_ne, beq_iff_eq]
    exact ⟨free, owned⟩
  refine ⟨⟨exec_cread_answers mine low high, rfl⟩, fun shut grace kill lines timer order most =>
    ⟨exec_cset_shut mine low high shut timer order, exec_climit_shut mine low high shut most, exec_ckill_shut mine low high shut⟩,
    fun free teardown => ?_⟩
  have ok : s.openCtx ctx := ⟨low, high, free, teardown⟩
  refine ⟨fun grace kill => exec_cset_open mine ok, fun kind lines => exec_climit_open mine ok,
    fun gh addr hgh align stack home present off clear plain destroy mapped =>
      ⟨exec_carea_open mine ok hgh align stack home present off clear plain destroy mapped, fun hf other unlent => ?_⟩,
    fun die base count hd pos top destroy fresh unclaimed => ?_, fun gh grace hgh timer running bound loaded first hg => ?_,
    fun gh grace hf other unlent => ?_, fun seq pc gh g hq align group loaded running => ⟨fun going => ?_, fun stopped => ?_⟩,
    fun living => ?_, fun killing list count legal => ?_, fun ready drops list count legal => ?_⟩
  · rw [exec_carea, execCarea, runCommand_denied may.1 hf (groupMine_of_other may hf other unlent)]
  · exact ⟨_, exec_cwin_enters mine ok hd pos top destroy fresh unclaimed, s.workEnded_setWindow s _ _ top⟩
  · obtain ⟨mem, cores, mast, group, seqs⟩ := State.requestRung_spec first (min grace.toNat (s.ctx ctx.toNat).grace.toNat)
      (s.ctx ctx.toNat).kill.toNat
    rw [exec_cpreempt_asks mine ok hgh timer running bound loaded hg, Reply.answer_later]
    refine ⟨_, rfl, mem, cores, ?_, group, seqs⟩
    rw [State.mail_setMail_same, State.mail, mast, ← State.mail]
  · rw [exec_cpreempt, execCpreempt, runCommand_denied may.1 hf (groupMine_of_other may hf other unlent)]
  · rw [exec_cresume_running mine ok hq align group loaded running, Reply.guard_of_not (by simpa using going), Reply.answer_refuse]
  · rw [exec_cresume_running mine ok hq align group loaded running, Reply.guard_of (by simpa using stopped), Reply.answer_ok]
    refine ⟨_, rfl, fun p hp => State.seq_setSeq_other _ _ hp, ?_⟩
    rw [State.seq_setSeq_same]
    exact Seq.resumeAt_spec ..
  · obtain ⟨mode, images, launches⟩ := s.beginKill_spec ctx.toNat false
    exact ⟨_, exec_ckill_begins mine ok living, mode, images, by rw [State.mail_setMail_same], launches⟩
  · have listed := State.ctx_setCtx_same s ctx.toNat { s.ctx ctx.toNat with
      scrubList := (s.ctx ctx.toNat).scrubList ++ s.readRuns list.toNat count.toNat }
    exact ⟨_, exec_cdestroy_killing mine ok killing legal, congrArg Ctx.destroy (State.ctx_setCtx_same ..),
      (congrArg Ctx.mode (State.ctx_setCtx_same ..)).trans ((congrArg Ctx.mode listed).trans killing),
      by rw [State.mail_setMail_same], rfl, rfl⟩
  · exact ⟨_, exec_cdestroy_ready mine ok ready drops legal, s.beginTeardown_dropped ctx list count⟩

end Machine
end Sys2Proof
end
